-- ==== Sys2Proof/Word.lean ====
section
/-! DEFINITION. The word types of the Z5 and the names of its registers (R2, R5, R27). -/

namespace Sys2Proof

/-- One byte (R3). -/
abbrev Byte := BitVec 8

/-- A g register, an e register, a control word or a pointer: 64 bits (R25, R27). -/
abbrev Word := BitVec 64

/-- A vector register: 1,024 bits (R27). -/
abbrev VWord := BitVec 1024

/-- A mask register: 32 bits (R27). -/
abbrev KWord := BitVec 32

/-- The name of a g register, g0 to g15 (R27). -/
abbrev GReg := Fin 16

/-- The name of a v register, v0 to v7 (R27). -/
abbrev VReg := Fin 8

/-- The name of a k register, k0 to k3 (R27). -/
abbrev KReg := Fin 4

/-- The name of an e register, e0 to e7 (R27). -/
abbrev EReg := Fin 8

/-- The name of an accumulator, acc0 to acc3 (R33). -/
abbrev AccReg := Fin 4

/-- A stall count, 0 to 3 (R79). -/
abbrev Stall := Fin 4

end Sys2Proof
end

