-- ==== Sys2Proof/Syntax.lean ====
section
/-! DEFINITION. The syntax of the Z5: one constructor per row of spec/opcode_table.json. The rows with an
encoding (R70 to R77) take their operand fields; the rows without one are the steps of the hardware
(95_what_each_step_holds.md) and take the place at which the step happens. -/

namespace Sys2Proof

/-- ORD of a CELL instruction (R72). -/
inductive Ord where
  | relaxed | acq | rel | ar
  deriving DecidableEq, Repr

/-- Scopes that bound a release or an acquire at the far end (R199). -/
inductive XScope where
  | tile | domain | package | system
  deriving DecidableEq, Repr

/-- The legal values of an Order MOD5: ORD and SCOPE together (R199). -/
inductive XOrd where
  | relaxed | acq (s : XScope) | rel (s : XScope) | ar (s : XScope)
  deriving DecidableEq, Repr

/-- The kinds of FENCE (R139). -/
inductive FenceKind where
  | sc | acq | rel
  deriving DecidableEq, Repr

/-- The scopes of FENCE (R139). -/
inductive Scope where
  | thread | tile | rect | domain | package | system
  deriving DecidableEq, Repr

/-- The V-format TYPE codes (R73). -/
inductive VType where
  | i32 | n32 | f32 | bf16x2 | f16x2 | i16x2 | i8x4 | f64
  deriving DecidableEq, Repr

/-- The V-format RM codes (R73). -/
inductive RmField where
  | rne | rtz | sr | dyn
  deriving DecidableEq, Repr

/-- The operation of VRED and VSCAN (R169). -/
inductive RedOp where
  | add | min | max
  deriving DecidableEq, Repr

/-- The operation of XCOMB: FL and SUB together (R213). -/
inductive CombOp where
  | add | min | max | minu | maxu | and | or | fmin | fmax
  deriving DecidableEq, Repr


/-- What a host access through PCI Express reaches: the HBM aperture of BAR2 (R342) or the host's own memory,
which the device reads over the bus (R341). -/
inductive HostSpace where
  | bar2 | hostMemory
  deriving DecidableEq, Repr

/-- The instructions and steps of the Z5, one constructor per row of the opcode table. -/
inductive Instr where
  /-- ADD, R109. -/
  | add (st : Stall) (d a b : GReg)
  /-- SUB, R109. -/
  | sub (st : Stall) (d a b : GReg)
  /-- AND, R109. -/
  | and (st : Stall) (d a b : GReg)
  /-- OR, R109. -/
  | or (st : Stall) (d a b : GReg)
  /-- XOR, R109. -/
  | xor (st : Stall) (d a b : GReg)
  /-- ANDN, R109. -/
  | andn (st : Stall) (d a b : GReg)
  /-- SHL, R109. -/
  | shl (st : Stall) (d a b : GReg)
  /-- SHR, R109. -/
  | shr (st : Stall) (d a b : GReg)
  /-- SRA, R109. -/
  | sra (st : Stall) (d a b : GReg)
  /-- SLT, R109. -/
  | slt (st : Stall) (d a b : GReg)
  /-- SLTU, R109. -/
  | sltu (st : Stall) (d a b : GReg)
  /-- SEQ, R109. -/
  | seq (st : Stall) (d a b : GReg)
  /-- SNE, R109. -/
  | sne (st : Stall) (d a b : GReg)
  /-- MIN, R109. -/
  | min (st : Stall) (d a b : GReg)
  /-- MAX, R109. -/
  | max (st : Stall) (d a b : GReg)
  /-- MINU, R109. -/
  | minu (st : Stall) (d a b : GReg)
  /-- MAXU, R109. -/
  | maxu (st : Stall) (d a b : GReg)
  /-- SEL, R109. -/
  | sel (st : Stall) (d a b : GReg)
  /-- CLZ, R109. -/
  | clz (st : Stall) (d a : GReg)
  /-- CTZ, R109. -/
  | ctz (st : Stall) (d a : GReg)
  /-- POPC, R109. -/
  | popc (st : Stall) (d a : GReg)
  /-- SEXT_B, R109. -/
  | sextB (st : Stall) (d a : GReg)
  /-- SEXT_H, R109. -/
  | sextH (st : Stall) (d a : GReg)
  /-- SEXT_W, R109. -/
  | sextW (st : Stall) (d a : GReg)
  /-- BFX, R110. -/
  | bfx (st : Stall) (d a b : GReg)
  /-- BFX_S, R110. -/
  | bfxS (st : Stall) (d a b : GReg)
  /-- BFI, R110. -/
  | bfi (st : Stall) (d a b : GReg)
  /-- PADD, R114. -/
  | padd (st : Stall) (d a b : GReg)
  /-- PTAGX, R115. -/
  | ptagx (st : Stall) (d a : GReg)
  /-- PTAGS, R115. -/
  | ptags (st : Stall) (d a b : GReg)
  /-- ADDI, R111. -/
  | addi (st : Stall) (d a : GReg) (imm : BitVec 11)
  /-- ANDI, R111. -/
  | andi (st : Stall) (d a : GReg) (imm : BitVec 11)
  /-- ORI, R111. -/
  | ori (st : Stall) (d a : GReg) (imm : BitVec 11)
  /-- XORI, R111. -/
  | xori (st : Stall) (d a : GReg) (imm : BitVec 11)
  /-- SHLI, R111. -/
  | shli (st : Stall) (d a : GReg) (imm : BitVec 6)
  /-- SHRI, R111. -/
  | shri (st : Stall) (d a : GReg) (imm : BitVec 6)
  /-- SRAI, R111. -/
  | srai (st : Stall) (d a : GReg) (imm : BitVec 6)
  /-- SLTI, R111. -/
  | slti (st : Stall) (d a : GReg) (imm : BitVec 11)
  /-- SLTIU, R111. -/
  | sltiu (st : Stall) (d a : GReg) (imm : BitVec 11)
  /-- PADDI, R114. -/
  | paddi (st : Stall) (d a : GReg) (imm : BitVec 11)
  /-- PTAGI, R115. -/
  | ptagi (st : Stall) (d a : GReg) (imm : BitVec 6)
  /-- LUI, R112. -/
  | lui (st : Stall) (d : GReg) (imm : BitVec 19)
  /-- ADDPC, R113. -/
  | addpc (st : Stall) (d : GReg) (imm : BitVec 19)
  /-- MUL, R116. -/
  | mul (st : Stall) (d a b : GReg)
  /-- MULH, R116. -/
  | mulh (st : Stall) (d a b : GReg)
  /-- MULHU, R116. -/
  | mulhu (st : Stall) (d a b : GReg)
  /-- DIV, R116. -/
  | div (st : Stall) (d a b : GReg)
  /-- DIVU, R116. -/
  | divu (st : Stall) (d a b : GReg)
  /-- REM, R116. -/
  | rem (st : Stall) (d a b : GReg)
  /-- REMU, R116. -/
  | remu (st : Stall) (d a b : GReg)
  /-- BEQ, R118. -/
  | beq (st : Stall) (a b : GReg) (off : BitVec 12)
  /-- BNE, R118. -/
  | bne (st : Stall) (a b : GReg) (off : BitVec 12)
  /-- BLT, R118. -/
  | blt (st : Stall) (a b : GReg) (off : BitVec 12)
  /-- BGE, R118. -/
  | bge (st : Stall) (a b : GReg) (off : BitVec 12)
  /-- BLTU, R118. -/
  | bltu (st : Stall) (a b : GReg) (off : BitVec 12)
  /-- BGEU, R118. -/
  | bgeu (st : Stall) (a b : GReg) (off : BitVec 12)
  /-- JAL, R120. -/
  | jal (st : Stall) (d : GReg) (off : BitVec 19)
  /-- JALR, R121. -/
  | jalr (st : Stall) (d a : GReg) (imm : BitVec 11)
  /-- JR, R121. -/
  | jr (st : Stall) (a : GReg) (imm : BitVec 11)
  /-- LDB, R125. -/
  | ldb (st : Stall) (d a : GReg) (off : BitVec 11)
  /-- LDH, R125. -/
  | ldh (st : Stall) (d a : GReg) (off : BitVec 11)
  /-- LDW, R125. -/
  | ldw (st : Stall) (d a : GReg) (off : BitVec 11)
  /-- LDD, R125. -/
  | ldd (st : Stall) (d a : GReg) (off : BitVec 11)
  /-- LDBU, R125. -/
  | ldbu (st : Stall) (d a : GReg) (off : BitVec 11)
  /-- LDHU, R125. -/
  | ldhu (st : Stall) (d a : GReg) (off : BitVec 11)
  /-- LDWU, R125. -/
  | ldwu (st : Stall) (d a : GReg) (off : BitVec 11)
  /-- LDP, R125. -/
  | ldp (st : Stall) (d a : GReg) (off : BitVec 11)
  /-- STB, R127. -/
  | stb (st : Stall) (d a : GReg) (off : BitVec 11)
  /-- STH, R127. -/
  | sth (st : Stall) (d a : GReg) (off : BitVec 11)
  /-- STW, R127. -/
  | stw (st : Stall) (d a : GReg) (off : BitVec 11)
  /-- STD, R127. -/
  | std (st : Stall) (d a : GReg) (off : BitVec 11)
  /-- STP, R127. -/
  | stp (st : Stall) (d a : GReg) (off : BitVec 11)
  /-- BOPEN, R129. -/
  | bopen (st : Stall) (a : GReg) (off : BitVec 11)
  /-- BCOMMIT, R129. -/
  | bcommit (st : Stall) (a : GReg) (off : BitVec 11)
  /-- BCLR, R130. -/
  | bclr (st : Stall) (d a : GReg) (off : BitVec 11)
  /-- BWAIT, R133. -/
  | bwait (st : Stall) (a : GReg) (off : BitVec 11)
  /-- BSTAT, R134. -/
  | bstat (st : Stall) (d a : GReg) (off : BitVec 11)
  /-- BARM, R132. -/
  | barm (st : Stall) (d a : GReg) (off : BitVec 11)
  /-- BPOIS, R129. -/
  | bpois (st : Stall) (a : GReg) (off : BitVec 11)
  /-- BFILL, R131. -/
  | bfill (st : Stall) (d a : GReg) (off : BitVec 11)
  /-- CLD, R136. -/
  | cld (st : Stall) (ord : Ord) (disp : BitVec 3) (d a : GReg)
  /-- CST, R136. -/
  | cst (st : Stall) (ord : Ord) (disp : BitVec 3) (a b : GReg)
  /-- CADD, R136. -/
  | cadd (st : Stall) (ord : Ord) (disp : BitVec 3) (d a b : GReg)
  /-- CMIN, R136. -/
  | cmin (st : Stall) (ord : Ord) (disp : BitVec 3) (d a b : GReg)
  /-- CMAX, R136. -/
  | cmax (st : Stall) (ord : Ord) (disp : BitVec 3) (d a b : GReg)
  /-- CMINU, R136. -/
  | cminu (st : Stall) (ord : Ord) (disp : BitVec 3) (d a b : GReg)
  /-- CMAXU, R136. -/
  | cmaxu (st : Stall) (ord : Ord) (disp : BitVec 3) (d a b : GReg)
  /-- CAND, R136. -/
  | cand (st : Stall) (ord : Ord) (disp : BitVec 3) (d a b : GReg)
  /-- COR, R136. -/
  | cor (st : Stall) (ord : Ord) (disp : BitVec 3) (d a b : GReg)
  /-- CXOR, R136. -/
  | cxor (st : Stall) (ord : Ord) (disp : BitVec 3) (d a b : GReg)
  /-- CXCHG, R136. -/
  | cxchg (st : Stall) (ord : Ord) (disp : BitVec 3) (d a b : GReg)
  /-- CCAS, R136. -/
  | ccas (st : Stall) (ord : Ord) (disp : BitVec 3) (d a b : GReg)
  /-- CDECF, R138. -/
  | cdecf (st : Stall) (ord : Ord) (disp : BitVec 3) (d a : GReg)
  /-- FENCE, R140. -/
  | fence (st : Stall) (kind : FenceKind) (scope : Scope) (a : GReg)
  /-- TBAR, R142. -/
  | tbar (st : Stall)
  /-- SYNC, R143. -/
  | sync (st : Stall)
  /-- YIELD, R144. -/
  | yield (st : Stall)
  /-- TEND, R145. -/
  | tend (st : Stall)
  /-- SPAWN, R146. -/
  | spawn (st : Stall) (d a : GReg) (imm : BitVec 11)
  /-- PHASE, R147. -/
  | phase (st : Stall) (d : GReg)
  /-- AWAIT, R149. -/
  | await (st : Stall) (d a : GReg) (imm : BitVec 11)
  /-- ABINIT, R148. -/
  | abinit (st : Stall) (d a : GReg) (imm : BitVec 11)
  /-- ELI, R152. -/
  | eli (st : Stall) (d : EReg) (pos : Fin 6) (imm : BitVec 11)
  /-- EMOV, R152. -/
  | emov (st : Stall) (d : EReg) (a : GReg)
  /-- EMOVG, R152. -/
  | emovg (st : Stall) (d : GReg) (a : EReg)
  /-- VADD, R156. -/
  | vadd (st : Stall) (ty : VType) (rm : RmField) (d a b : VReg) (k : KReg) (z : Bool)
  /-- VSUB, R156. -/
  | vsub (st : Stall) (ty : VType) (rm : RmField) (d a b : VReg) (k : KReg) (z : Bool)
  /-- VMUL, R156. -/
  | vmul (st : Stall) (ty : VType) (rm : RmField) (d a b : VReg) (k : KReg) (z : Bool)
  /-- VFMA, R156. -/
  | vfma (st : Stall) (ty : VType) (rm : RmField) (d a b : VReg) (k : KReg) (z : Bool)
  /-- VFMS, R156. -/
  | vfms (st : Stall) (ty : VType) (rm : RmField) (d a b : VReg) (k : KReg) (z : Bool)
  /-- VFNMA, R156. -/
  | vfnma (st : Stall) (ty : VType) (rm : RmField) (d a b : VReg) (k : KReg) (z : Bool)
  /-- VMIN, R156. -/
  | vmin (st : Stall) (ty : VType) (rm : RmField) (d a b : VReg) (k : KReg) (z : Bool)
  /-- VMAX, R156. -/
  | vmax (st : Stall) (ty : VType) (rm : RmField) (d a b : VReg) (k : KReg) (z : Bool)
  /-- VABS, R156. -/
  | vabs (st : Stall) (ty : VType) (rm : RmField) (d a : VReg) (k : KReg) (z : Bool)
  /-- VNEG, R156. -/
  | vneg (st : Stall) (ty : VType) (rm : RmField) (d a : VReg) (k : KReg) (z : Bool)
  /-- VAND, R156. -/
  | vand (st : Stall) (ty : VType) (rm : RmField) (d a b : VReg) (k : KReg) (z : Bool)
  /-- VOR, R156. -/
  | vor (st : Stall) (ty : VType) (rm : RmField) (d a b : VReg) (k : KReg) (z : Bool)
  /-- VXOR, R156. -/
  | vxor (st : Stall) (ty : VType) (rm : RmField) (d a b : VReg) (k : KReg) (z : Bool)
  /-- VSHL, R156. -/
  | vshl (st : Stall) (ty : VType) (d a b : VReg) (k : KReg) (z : Bool)
  /-- VSHR, R156. -/
  | vshr (st : Stall) (ty : VType) (d a b : VReg) (k : KReg) (z : Bool)
  /-- VSRA, R156. -/
  | vsra (st : Stall) (ty : VType) (d a b : VReg) (k : KReg) (z : Bool)
  /-- VADDS, R156. -/
  | vadds (st : Stall) (ty : VType) (d a b : VReg) (k : KReg) (z : Bool)
  /-- VSUBS, R156. -/
  | vsubs (st : Stall) (ty : VType) (d a b : VReg) (k : KReg) (z : Bool)
  /-- VDOT, R157. -/
  | vdot (st : Stall) (ty : VType) (rm : RmField) (d a b : VReg) (k : KReg) (z : Bool)
  /-- VBCAST, R158. -/
  | vbcast (st : Stall) (ty : VType) (rm : RmField) (d : VReg) (a : EReg) (k : KReg) (z : Bool)
  /-- VEXT, R158. -/
  | vext (st : Stall) (ty : VType) (rm : RmField) (d : EReg) (a : VReg) (b : EReg)
  /-- VINS, R158. -/
  | vins (st : Stall) (ty : VType) (rm : RmField) (d : VReg) (a b : EReg)
  /-- VMOV, R158. -/
  | vmov (st : Stall) (ty : VType) (rm : RmField) (d a : VReg) (k : KReg) (z : Bool)
  /-- VRCP, R159. -/
  | vrcp (st : Stall) (ty : VType) (rm : RmField) (d a : VReg) (k : KReg) (z : Bool)
  /-- VRSQ, R159. -/
  | vrsq (st : Stall) (ty : VType) (rm : RmField) (d a : VReg) (k : KReg) (z : Bool)
  /-- VSQRT, R159. -/
  | vsqrt (st : Stall) (ty : VType) (rm : RmField) (d a : VReg) (k : KReg) (z : Bool)
  /-- VEXP2, R159. -/
  | vexp2 (st : Stall) (ty : VType) (rm : RmField) (d a : VReg) (k : KReg) (z : Bool)
  /-- VLOG2, R159. -/
  | vlog2 (st : Stall) (ty : VType) (rm : RmField) (d a : VReg) (k : KReg) (z : Bool)
  /-- VDIV, R159. -/
  | vdiv (st : Stall) (ty : VType) (rm : RmField) (d a b : VReg) (k : KReg) (z : Bool)
  /-- VCMPEQ, R161. -/
  | vcmpeq (st : Stall) (ty : VType) (d : KReg) (a b : VReg) (k : KReg) (z : Bool)
  /-- VCMPNE, R161. -/
  | vcmpne (st : Stall) (ty : VType) (d : KReg) (a b : VReg) (k : KReg) (z : Bool)
  /-- VCMPLT, R161. -/
  | vcmplt (st : Stall) (ty : VType) (d : KReg) (a b : VReg) (k : KReg) (z : Bool)
  /-- VCMPLE, R161. -/
  | vcmple (st : Stall) (ty : VType) (d : KReg) (a b : VReg) (k : KReg) (z : Bool)
  /-- VSEL, R162. -/
  | vsel (st : Stall) (ty : VType) (d a b : VReg) (k : KReg)
  /-- VCLASS, R162. -/
  | vclass (st : Stall) (ty : VType) (d a : VReg) (k : KReg) (z : Bool)
  /-- VCVT, R163. -/
  | vcvt (st : Stall) (dst src : VType) (rm : RmField) (d a : VReg) (part : Fin 4) (z : Bool)
  /-- VQDX, R165. -/
  | vqdx (st : Stall) (rm : RmField) (d a b : VReg)
  /-- VDQ, R167. -/
  | vdq (st : Stall) (d a b : VReg)
  /-- VQMX, R165. -/
  | vqmx (st : Stall) (rm : RmField) (d a b : VReg)
  /-- VPACK, R167. -/
  | vpack (st : Stall) (rm : RmField) (d a : VReg)
  /-- VUNPK, R167. -/
  | vunpk (st : Stall) (d a : VReg)
  /-- VPERM, R168. -/
  | vperm (st : Stall) (ty : VType) (d a b : VReg) (k : KReg) (z : Bool)
  /-- VROT, R168. -/
  | vrot (st : Stall) (ty : VType) (d a : VReg) (b : EReg) (k : KReg) (z : Bool)
  /-- VRED, R169. -/
  | vred (st : Stall) (ty : VType) (op : RedOp) (rm : RmField) (d a : VReg) (k : KReg) (z : Bool)
  /-- VSCAN, R169. -/
  | vscan (st : Stall) (ty : VType) (op : RedOp) (rm : RmField) (d a : VReg) (k : KReg) (z : Bool)
  /-- VCOMPR, R170. -/
  | vcompr (st : Stall) (ty : VType) (d a : VReg) (k : KReg) (z : Bool)
  /-- VIOTA, R170. -/
  | viota (st : Stall) (d : VReg) (k : KReg) (z : Bool)
  /-- VLD, R172. -/
  | vld (st : Stall) (v : VReg) (a : GReg) (off : BitVec 11)
  /-- VST, R172. -/
  | vst (st : Stall) (v : VReg) (a : GReg) (off : BitVec 11)
  /-- VLDS, R173. -/
  | vlds (st : Stall) (v : VReg) (a : GReg) (off : BitVec 11)
  /-- VSTS, R173. -/
  | vsts (st : Stall) (v : VReg) (a : GReg) (off : BitVec 11)
  /-- VGATH, R174. -/
  | vgath (st : Stall) (v : VReg) (a : GReg) (off : BitVec 11)
  /-- VSCAT, R174. -/
  | vscat (st : Stall) (v : VReg) (a : GReg) (off : BitVec 11)
  /-- KAND, R175. -/
  | kand (st : Stall) (d a b : KReg)
  /-- KOR, R175. -/
  | kor (st : Stall) (d a b : KReg)
  /-- KXOR, R175. -/
  | kxor (st : Stall) (d a b : KReg)
  /-- KNOT, R175. -/
  | knot (st : Stall) (d a : KReg)
  /-- KPOP, R175. -/
  | kpop (st : Stall) (d : GReg) (a : KReg)
  /-- KMOV, R175. -/
  | kmov (st : Stall) (d : KReg) (a : GReg)
  /-- KMOV_G, R175. -/
  | kmovG (st : Stall) (d : GReg) (a : KReg)
  /-- MZERO, R191. -/
  | mzero (st : Stall) (n : AccReg)
  /-- MLD, R192. -/
  | mld (st : Stall) (n : AccReg) (a : GReg)
  /-- MST, R193. -/
  | mst (st : Stall) (n : AccReg) (a : GReg)
  /-- MMA, R187. -/
  | mma (st : Stall) (n : AccReg) (a b : GReg) (z : Bool)
  /-- MMAT, R187. -/
  | mmat (st : Stall) (n : AccReg) (a b : GReg) (z : Bool)
  /-- MMAS, R187. -/
  | mmas (st : Stall) (n : AccReg) (a b : GReg) (z : Bool)
  /-- MACC, R194. -/
  | macc (st : Stall) (n src : AccReg)
  /-- MWAIT, R195. -/
  | mwait (st : Stall) (n : AccReg)
  /-- MWAIT_ALL, R195. -/
  | mwaitAll (st : Stall)
  /-- MSTAT, R196. -/
  | mstat (st : Stall) (d : GReg) (n : AccReg) (clr : Bool)
  /-- XSEND, R204. -/
  | xsend (st : Stall) (a b : GReg)
  /-- XMCAST, R205. -/
  | xmcast (st : Stall) (a b : GReg)
  /-- XGET, R208. -/
  | xget (st : Stall) (ord : XOrd) (a b : GReg)
  /-- XPUT, R209. -/
  | xput (st : Stall) (ord : XOrd) (a b : GReg)
  /-- XFEED, R211. -/
  | xfeed (st : Stall) (ord : XOrd) (a b : GReg)
  /-- XCOMB, R213. -/
  | xcomb (st : Stall) (op : CombOp) (ord : XOrd) (a b : GReg)
  /-- XROUTE, R214. -/
  | xroute (st : Stall) (a b : GReg)
  /-- XCLOSE, R215. -/
  | xclose (st : Stall)
  /-- XRECV, R207. -/
  | xrecv (st : Stall) (a : GReg)
  /-- XRECV_ROUTE, R216. -/
  | xrecvRoute (st : Stall) (a : GReg)
  /-- XEND, R218. -/
  | xend (st : Stall)
  /-- XWAIT, R219. -/
  | xwait (st : Stall) (a : GReg)
  /-- XWAIT_RECV, R219. -/
  | xwaitRecv (st : Stall) (a : GReg)
  /-- PITCH, R222. -/
  | pitch (st : Stall) (ord : XOrd) (b : GReg)
  /-- PITCHQ, R222. -/
  | pitchq (st : Stall) (ord : XOrd) (a b : GReg)
  /-- MFC, R227. -/
  | mfc (st : Stall) (d : GReg) (cw : BitVec 11)
  /-- MTC, R228. -/
  | mtc (st : Stall) (cw : BitVec 11) (a : GReg)
  /-- RDCYC, R232. -/
  | rdcyc (st : Stall) (d : GReg)
  /-- RDRET, R232. -/
  | rdret (st : Stall) (d : GReg)
  /-- JLOG, R235. -/
  | jlog (st : Stall) (d a : GReg) (w : Fin 3) (ret : Bool)
  /-- PTST, R236. -/
  | ptst (st : Stall) (d a : GReg)
  /-- PTST_V, R236. -/
  | ptstV (st : Stall) (d : GReg) (a : VReg)
  /-- PTST_ACC, R236. -/
  | ptstAcc (st : Stall) (d : GReg) (a : AccReg)
  /-- TAGGET, R237. -/
  | tagget (st : Stall) (d a : GReg) (imm : BitVec 11)
  /-- TAGSET, R238. -/
  | tagset (st : Stall) (d a : GReg) (imm : BitVec 11)
  /-- IDLE, R239. -/
  | idle (st : Stall) (d a : GReg)
  /-- HNOTE, R240. -/
  | hnote (st : Stall) (d a : GReg) (code : BitVec 11)
  /-- TRAP, R241. -/
  | trap (st : Stall) (a : GReg) (code : BitVec 11)
  /-- ERET, R242. -/
  | eret (st : Stall)
  /-- ERET_END, R242. -/
  | eretEnd (st : Stall)
  /-- BRK, R241. -/
  | brk (st : Stall) (code : BitVec 11)
  /-- C_ILL, R76. -/
  | cIll (d a : BitVec 4) (f2 : BitVec 2)
  /-- C_ADD, R76. -/
  | cAdd (st : Stall) (d a : GReg)
  /-- C_SUB, R76. -/
  | cSub (st : Stall) (d a : GReg)
  /-- C_MOV, R76. -/
  | cMov (st : Stall) (d a : GReg)
  /-- C_AND, R76. -/
  | cAnd (st : Stall) (d a : GReg)
  /-- C_OR, R76. -/
  | cOr (st : Stall) (d a : GReg)
  /-- C_XOR, R76. -/
  | cXor (st : Stall) (d a : GReg)
  /-- C_ADDI, R76. -/
  | cAddi (d : GReg) (imm : BitVec 6)
  /-- C_SHLI, R76. -/
  | cShli (d : GReg) (imm : BitVec 6)
  /-- C_SHRI, R76. -/
  | cShri (d : GReg) (imm : BitVec 6)
  /-- C_LDD, R76. -/
  | cLdd (d : GReg) (imm : BitVec 6)
  /-- C_STD, R76. -/
  | cStd (d : GReg) (imm : BitVec 6)
  /-- C_BEQZ, R76. -/
  | cBeqz (d : GReg) (imm : BitVec 6)
  /-- C_BNEZ, R76. -/
  | cBnez (d : GReg) (imm : BitVec 6)
  /-- C_J, R76. -/
  | cJ (off : BitVec 10)
  /-- C_RET, R76. -/
  | cRet
  /-- RESULT_LANDING, R80. -/
  | resultLanding (dom rank ctx : Nat)
  /-- STORE_PERFORM, R124. -/
  | storePerform (dom rank : Nat)
  /-- CELL_PERFORM, R137. -/
  | cellPerform (dom rank : Nat)
  /-- TAGSET_EVENT, R238. -/
  | tagsetEvent (dom rank : Nat)
  /-- VQDX_LIST_EVENT, R166. -/
  | vqdxListEvent (dom rank : Nat)
  /-- BFILL_COMMIT, R131. -/
  | bfillCommit (dom rank ctx : Nat)
  /-- TRAP_ENTRY, R262. -/
  | trapEntry (dom rank : Nat)
  /-- JOURNAL, R268. -/
  | journal (dom rank : Nat)
  /-- WAITER_SERVICE, R301. -/
  | waiterService (dom rank : Nat)
  /-- ENGINE_READ_END, R186. -/
  | engineReadEnd (dom rank : Nat)
  /-- MATRIX_COMPUTE_START, R188. -/
  | matrixComputeStart (dom rank : Nat)
  /-- MATRIX_COMPUTE_DONE, R188. -/
  | matrixComputeDone (dom rank : Nat)
  /-- MATRIX_MOVE_START, R194. -/
  | matrixMoveStart (dom rank : Nat)
  /-- MATRIX_MOVE_DONE, R194. -/
  | matrixMoveDone (dom rank : Nat)
  /-- MST_BLOCK_COMMIT, R193. -/
  | mstBlockCommit (dom rank : Nat)
  /-- IDLE_WAKE, R239. -/
  | idleWake (dom rank ctx : Nat)
  /-- VOTE_WINDOW_WAIT_END, R304. -/
  | voteWindowWaitEnd (dom rank : Nat)
  /-- BOUNDARY, R52. -/
  | boundary (dom : Nat)
  /-- STRAGGLER, R60. -/
  | straggler (dom : Nat)
  /-- PREEMPT_DONE, R274. -/
  | preemptDone (dom : Nat)
  /-- RESTORE, R279. -/
  | restore (dom : Nat)
  /-- MIGRATION_STREAM_DONE, R280. -/
  | migrationStreamDone (dom : Nat)
  /-- FORWARD_RETIRE, R281. -/
  | forwardRetire (dom : Nat)
  /-- PLACEMENT_PLAN, R312. -/
  | placementPlan
  /-- PLACEMENT_GRANT, R313. -/
  | placementGrant
  /-- TIME_SLICE_EXPIRY, R314. -/
  | timeSliceExpiry (dom : Nat)
  /-- RELEASE_DRAIN_DONE, R272. -/
  | releaseDrainDone (dom : Nat)
  /-- FEED_COMMIT, R211. -/
  | feedCommit (dom rank feed : Nat)
  /-- ROUTED_FINISH, R217. -/
  | routedFinish (dom rank : Nat)
  /-- PUT, R64. -/
  | putArrive (msg : Nat)
  /-- GET, R208. -/
  | getArrive (msg : Nat)
  /-- REPLY, R208. -/
  | reply (msg : Nat)
  /-- COMBINE, R213. -/
  | combine (msg : Nat)
  /-- INVOKE, R224. -/
  | invoke (msg : Nat)
  /-- ANSWER, R202. -/
  | answer (msg : Nat)
  /-- RETRY_AFTER, R302. -/
  | retryAfter (msg : Nat)
  /-- RETRY_TIMER, R302. -/
  | retryTimer (msg : Nat)
  /-- ROUTED_UNIT, R216. -/
  | routedUnit (msg : Nat)
  /-- CLOSING_COUNT, R381. -/
  | closingCount (msg : Nat)
  /-- ANNOUNCE, R339. -/
  | announce (pkg inc : BitVec 16)
  /-- ANNOUNCE_PERIODIC, R339. -/
  | announcePeriodic
  /-- REQUEST_RESEND, R338. -/
  | requestResend (req : Nat)
  /-- FLIT_ROUTE, R332. -/
  | flitRoute
  /-- STARVE, R333. -/
  | starve (x y : Nat)
  /-- LINK_FLIT, R335. -/
  | linkFlit (port : Nat) (bytes : List Byte)
  /-- PORT_RETRAIN, R335. -/
  | portRetrain (port : Nat) (ok : Bool)
  /-- WALK_COMPLETE, R286. -/
  | walkComplete (walk : Nat)
  /-- STALLED_RECORD_WRITE, R291. -/
  | stalledRecordWrite (slice : Nat)
  /-- INVALIDATE_COMPLETE, R292. -/
  | invalidateComplete
  /-- HBM_WAITER_SERVICE, R323. -/
  | hbmWaiterService (ctl : Nat)
  /-- SCRUB, R326. -/
  | scrub (ctl : Nat)
  /-- REFRESH, R328. -/
  | refresh (ctl : Nat)
  /-- SELF_REFRESH_ENTRY, R329. -/
  | selfRefreshEntry (pch : Nat)
  /-- EXTENT_ADDED, R297. -/
  | extentAdded (ext port base len : Nat)
  /-- EXTENT_RELEASE_REQUEST, R297. -/
  | extentReleaseRequest (ext : Nat)
  /-- HOST_WRITE, R319. -/
  | hostWrite (space : HostSpace) (addr : Nat) (bytes : List Byte)
  /-- HOST_READ, R319. -/
  | hostRead (space : HostSpace) (addr len : Nat)
  /-- CMDTAIL, R342. -/
  | cmdtail (value : Word)
  /-- DIRECT, R345. -/
  | direct (offset : Nat) (bytes : List Byte)
  /-- EVHEAD, R348. -/
  | evhead (value : Word)
  /-- BAR0_REGISTER_WRITE, R342. -/
  | bar0RegisterWrite (offset : Nat) (value : Word)
  /-- LAUNCH, R382. -/
  | launch
  /-- LAUNCH_REENTER, R382. -/
  | launchReenter
  /-- RELEASE, R272. -/
  | release
  /-- CONTINUE, R49. -/
  | continueHold
  /-- EXTEND, R271. -/
  | extend
  /-- BREAK, R271. -/
  | breakStragglers
  /-- FAULT_COMPLETE_RETRY, R291. -/
  | faultCompleteRetry
  /-- FAULT_COMPLETE_ABORT, R291. -/
  | faultCompleteAbort
  /-- INVALIDATE_RANGE, R292. -/
  | invalidateRange
  /-- INVALIDATE_PKGID, R292. -/
  | invalidatePkgid
  /-- TABLE_ROOT, R284. -/
  | tableRoot
  /-- HANDLER, R351. -/
  | handler
  /-- MEMSTATE_CLEAR, R322. -/
  | memstateClear
  /-- MEMSTATE_PUBLISH, R322. -/
  | memstatePublish
  /-- SLICE, R314. -/
  | slice
  /-- COUNTER_READ, R295. -/
  | counterRead
  /-- COUNTER_RESET, R294. -/
  | counterReset
  /-- HEALTH, R327. -/
  | health
  /-- ATTEST, R352. -/
  | attest
  /-- PORTMAP, R340. -/
  | portmap
  /-- PEER, R339. -/
  | peer
  /-- CONFIG_SCRUB, R326. -/
  | configScrub
  /-- CONFIG_IDLE_ENTRY, R329. -/
  | configIdleEntry
  /-- MIGRATE, R280. -/
  | migrate
  /-- EXTENT, R297. -/
  | extentReleased
  /-- COLD_RESET, R368. -/
  | coldReset
  /-- BRING_UP, R369. -/
  | bringUp
  /-- THERMAL_TRIP, R377. -/
  | thermalTrip
  /-- THROTTLE_CHANGE, R375. -/
  | throttleChange (level : Nat)
  /-- D3HOT_ENTRY, R373. -/
  | d3hotEntry
  /-- D3COLD_ENTRY, R373. -/
  | d3coldEntry
  /-- D0_ENTRY, R373. -/
  | d0Entry
  /-- ILLEGAL_ENCODING, R77. -/
  | illegalEncoding
  /-- FETCH_BOUNDS, R70. -/
  | fetchBounds
  /-- HANDLER_LOCK_CLEAR, R351. -/
  | handlerLockClear (dom : Nat)
  deriving DecidableEq, Repr

end Sys2Proof
end

