-- ==== Sys2Proof/WellFormed.lean ====
section
/-! DEFINITION. The well-formed instructions: the operand rules that the entries of the instruction chapters
lay down beyond the field widths, whose breach raises ILLEGAL (R73, R77, R111, R125, R146, R152, R153, R156,
R159 to R170, R174, R34). -/

namespace Sys2Proof

/-- Integer V-format types (R92). -/
def VType.isInt : VType → Bool
  | .i32 | .n32 | .i16x2 | .i8x4 => true
  | .f32 | .bf16x2 | .f16x2 | .f64 => false

/-- The RM rule of R73: an integer TYPE takes RM 0b00 only. -/
def rmOk (ty : VType) (rm : RmField) : Bool := !ty.isInt || rm == .rne

/-- The control words that R34 lists. -/
def cwListed (n : BitVec 11) : Bool :=
  let n := n.toNat
  n ≤ 0x005 || (0x008 ≤ n && n ≤ 0x00F) || (0x010 ≤ n && n ≤ 0x017) || (0x020 ≤ n && n ≤ 0x025)
    || n == 0x030 || n == 0x031 || n == 0x040 || n == 0x041

/-- TYPE i32 or f64 (R156, R162, R168, R170). -/
def VType.isMove (ty : VType) : Bool := ty == .i32 || ty == .f64

/-- The types of VSHL and its like (R156). -/
def VType.isShift (ty : VType) : Bool := ty == .i32 || ty == .n32 || ty == .i16x2 || ty == .i8x4

/-- The 32-bit and 64-bit types of a compare and of VSCAN (R159, R169). -/
def VType.isWide (ty : VType) : Bool := ty == .i32 || ty == .n32 || ty == .f32 || ty == .f64

/-- The float types of the elementary functions (R159). -/
def VType.isFn (ty : VType) : Bool := ty == .f32 || ty == .bf16x2 || ty == .f16x2

/-- The number of elements of a vector register (R92, R153). -/
def VType.count : VType → Nat
  | .i32 | .n32 | .f32 => 32
  | .bf16x2 | .f16x2 | .i16x2 => 64
  | .i8x4 => 128
  | .f64 => 16

/-- The ratio r of R163. -/
def cvtRatio (dst src : VType) : Nat :=
  if src.count ≤ dst.count then dst.count / src.count else src.count / dst.count

/-- VCVT's rules (R163). -/
def cvtOk (dst src : VType) (rm : RmField) (part : Fin 4) : Bool :=
  dst != src && cvtRatio dst src != 8 && decide (part.val < cvtRatio dst src)
    && (!(dst.isInt && src.isInt) || rm == .rne)

/-- An even register number, as LDP, STP, VGATH and VSCAT ask (R125, R127, R174). -/
def evenReg (n : Nat) : Bool := n % 2 == 0

/-- An instruction whose operands break no rule of its entry. The steps without an encoding are all well-formed. -/
def Instr.wf : Instr → Bool
  | .ldp _ d _ _ | .stp _ d _ _ => evenReg d.val
  | .fence _ _ scope a => scope == .rect || a == 0
  | .spawn _ d _ _ => d != 15
  | .eli _ _ pos imm => pos != 5 || imm.extractLsb' 9 2 == 0
  | .vadd _ ty rm _ _ _ _ _ | .vsub _ ty rm _ _ _ _ _ | .vmul _ ty rm _ _ _ _ _ | .vfma _ ty rm _ _ _ _ _
  | .vfms _ ty rm _ _ _ _ _ | .vfnma _ ty rm _ _ _ _ _ | .vmin _ ty rm _ _ _ _ _ | .vmax _ ty rm _ _ _ _ _
  | .vabs _ ty rm _ _ _ _ | .vneg _ ty rm _ _ _ _ | .vbcast _ ty rm _ _ _ _ | .vext _ ty rm _ _ _
  | .vins _ ty rm _ _ _ | .vred _ ty _ rm _ _ _ _ => rmOk ty rm
  | .vand _ ty rm _ _ _ _ _ | .vor _ ty rm _ _ _ _ _ | .vxor _ ty rm _ _ _ _ _
  | .vmov _ ty rm _ _ _ _ => ty.isMove && rmOk ty rm
  | .vshl _ ty _ _ _ _ _ | .vshr _ ty _ _ _ _ _ | .vsra _ ty _ _ _ _ _ | .vadds _ ty _ _ _ _ _
  | .vsubs _ ty _ _ _ _ _ => ty.isShift
  | .vdot _ ty rm _ _ _ _ _ =>
    (ty == .bf16x2 || ty == .f16x2 || ty == .i16x2 || ty == .i8x4) && rmOk ty rm
  | .vrcp _ ty _ _ _ _ _ | .vrsq _ ty _ _ _ _ _ | .vexp2 _ ty _ _ _ _ _ | .vlog2 _ ty _ _ _ _ _ => ty.isFn
  | .vsqrt _ ty _ _ _ _ _ | .vdiv _ ty _ _ _ _ _ _ | .vclass _ ty _ _ _ _ => ty.isFn || ty == .f64
  | .vcmpeq _ ty _ _ _ _ _ | .vcmpne _ ty _ _ _ _ _ | .vcmplt _ ty _ _ _ _ _ | .vcmple _ ty _ _ _ _ _ => ty.isWide
  | .vscan _ ty _ rm _ _ _ _ => ty.isWide && rmOk ty rm
  | .vsel _ ty _ _ _ _ | .vperm _ ty _ _ _ _ _ | .vrot _ ty _ _ _ _ _ | .vcompr _ ty _ _ _ _ => ty.isMove
  | .vcvt _ dst src rm _ _ part _ => cvtOk dst src rm part
  | .vgath _ v _ _ | .vscat _ v _ _ => evenReg v.val
  | .mfc _ _ cw | .mtc _ cw _ => cwListed cw
  | _ => true

end Sys2Proof
end

