-- ==== Sys2Proof/Decode.lean ====
section
/-! DEFINITION. Decoding and encoding (R70 to R77): the fields of R71 are split once, the major and the function
number pick the instruction (R74), the compact forms are R76. Every pattern that the formats do not define is
refused, and so is an instruction that breaks a rule of its entry (WellFormed). -/

namespace Sys2Proof

/-- The fields of a 32-bit instruction at the column boundaries of R71: bits 6:2, 8:7, 12:9, 16:13, 20:17, 31:21. -/
structure Raw32 where
  major : BitVec 5
  st : BitVec 2
  d : BitVec 4
  a : BitVec 4
  b : BitVec 4
  hi : BitVec 11
  deriving DecidableEq, Repr

/-- The fields of a compact form: bits 5:2, 9:6, 13:10, 15:14 (R76). -/
structure Raw16 where
  op : BitVec 4
  d : BitVec 4
  a : BitVec 4
  f2 : BitVec 2
  deriving DecidableEq, Repr

/-- An encoded instruction: the fields of its word or of its halfword. -/
inductive Enc where
  | w32 (r : Raw32)
  | w16 (r : Raw16)
  deriving DecidableEq, Repr

/-- Splits a 32-bit word into its fields (R71). -/
def Raw32.ofBits (w : BitVec 32) : Raw32 where
  major := w.extractLsb' 2 5
  st := w.extractLsb' 7 2
  d := w.extractLsb' 9 4
  a := w.extractLsb' 13 4
  b := w.extractLsb' 17 4
  hi := w.extractLsb' 21 11

/-- The 32-bit word of the fields, with bits 1:0 = 0b11 (R70, R71). -/
def Raw32.toBits (r : Raw32) : BitVec 32 := r.hi ++ r.b ++ r.a ++ r.d ++ r.st ++ r.major ++ 3#2

/-- Splits a compact halfword into its fields (R76). -/
def Raw16.ofBits (w : BitVec 16) : Raw16 where
  op := w.extractLsb' 2 4
  d := w.extractLsb' 6 4
  a := w.extractLsb' 10 4
  f2 := w.extractLsb' 14 2

/-- The halfword of the fields, with bits 1:0 = 0b00 (R70, R76). -/
def Raw16.toBits (r : Raw16) : BitVec 16 := r.f2 ++ r.a ++ r.d ++ r.op ++ 0#2

section fields
variable (r : Raw32)

/-- STALL. -/
def Raw32.stall : Stall := r.st.toFin
/-- The D field as a g register; the A field of format E. -/
def Raw32.gd : GReg := r.d.toFin
/-- The A field as a g register; the B field of format E. -/
def Raw32.ga : GReg := r.a.toFin
/-- The B field of format R as a g register. -/
def Raw32.gb : GReg := r.b.toFin
/-- FN of format R. -/
def Raw32.fn : BitVec 6 := r.hi.extractLsb' 0 6
/-- MOD3 of format R. -/
def Raw32.mod3 : BitVec 3 := r.hi.extractLsb' 6 3
/-- ORD of format R. -/
def Raw32.ord : BitVec 2 := r.hi.extractLsb' 9 2
/-- MOD3 and ORD both zero (R72). -/
def Raw32.plain : Bool := r.mod3 == 0 && r.ord == 0
/-- COND3 of format B. -/
def Raw32.cond3 : BitVec 3 := r.b.extractLsb' 0 3
/-- OFF12 of format B: bits 31:20. -/
def Raw32.off12 : BitVec 12 := r.hi ++ r.b.extractLsb' 3 1
/-- IMM19 of format U and OFF19 of format J: bits 31:13. -/
def Raw32.off19 : BitVec 19 := r.hi ++ r.b ++ r.a
/-- VD: bits 11:9. -/
def Raw32.vd : BitVec 3 := r.d.extractLsb' 0 3
/-- VA: bits 14:12. -/
def Raw32.va : BitVec 3 := r.a.extractLsb' 0 2 ++ r.d.extractLsb' 3 1
/-- VB: bits 17:15. -/
def Raw32.vb : BitVec 3 := r.b.extractLsb' 0 1 ++ r.a.extractLsb' 2 2
/-- K: bits 19:18. -/
def Raw32.k : BitVec 2 := r.b.extractLsb' 1 2
/-- Z: bit 20; FL of format E. -/
def Raw32.z : Bool := r.b.getLsbD 3
/-- FL: bit 20 (format E). -/
def Raw32.fl : Bool := r.b.getLsbD 3
/-- SUB: bits 19:17 (format E). -/
def Raw32.sub : BitVec 3 := r.b.extractLsb' 0 3
/-- F6: bits 26:21. -/
def Raw32.f6 : BitVec 6 := r.hi.extractLsb' 0 6
/-- TYPE: bits 29:27. -/
def Raw32.tyBits : BitVec 3 := r.hi.extractLsb' 6 3
/-- RM: bits 31:30. -/
def Raw32.rmBits : BitVec 2 := r.hi.extractLsb' 9 2
/-- MOD5: bits 31:27 (format E). -/
def Raw32.mod5 : BitVec 5 := r.hi.extractLsb' 6 5
/-- VD as a v or e register. -/
def Raw32.vdReg : VReg := r.vd.toFin
/-- VA as a v or e register. -/
def Raw32.vaReg : VReg := r.va.toFin
/-- VB as a v or e register. -/
def Raw32.vbReg : VReg := r.vb.toFin
/-- K as a k register, or PART. -/
def Raw32.kReg : KReg := r.k.toFin
/-- SUB<1:0> as an accumulator (R182). -/
def Raw32.acc : AccReg := (r.sub.extractLsb' 0 2).toFin
end fields

/-- A 4-bit field that names e0 to e7, or v0 to v7 in format VL (R73). -/
def eOf4 (x : BitVec 4) : Option EReg := if h : x.toNat < 8 then some ⟨x.toNat, h⟩ else none
/-- A 4-bit field that names k0 to k3 or acc0 to acc3 (R73, R182). -/
def kOf4 (x : BitVec 4) : Option KReg := if h : x.toNat < 4 then some ⟨x.toNat, h⟩ else none
/-- A 3-bit field that names k0 to k3 (R73). -/
def kOf3 (x : BitVec 3) : Option KReg := if h : x.toNat < 4 then some ⟨x.toNat, h⟩ else none
/-- ELI's pos, 0 to 5 (R152). -/
def posOf4 (x : BitVec 4) : Option (Fin 6) := if h : x.toNat < 6 then some ⟨x.toNat, h⟩ else none
/-- JLOG's W, 0 to 2 (R226). -/
def wOf2 (x : BitVec 2) : Option (Fin 3) := if h : x.toNat < 3 then some ⟨x.toNat, h⟩ else none

/-- ORD of a CELL instruction (R72). -/
def Ord.ofCode (x : BitVec 2) : Ord :=
  match x.toNat with
  | 0 => .relaxed | 1 => .acq | 2 => .rel | _ => .ar
/-- The ORD code (R72). -/
def Ord.code : Ord → BitVec 2
  | .relaxed => 0 | .acq => 1 | .rel => 2 | .ar => 3

/-- FENCE's kind (R139). -/
def FenceKind.ofCode (x : BitVec 2) : Option FenceKind :=
  match x.toNat with
  | 0 => some .sc | 1 => some .acq | 2 => some .rel | _ => none
/-- The code of FENCE's kind (R139). -/
def FenceKind.code : FenceKind → BitVec 2
  | .sc => 0 | .acq => 1 | .rel => 2

/-- FENCE's scope (R139). -/
def Scope.ofCode (x : BitVec 3) : Option Scope :=
  match x.toNat with
  | 0 => some .thread | 1 => some .tile | 2 => some .rect | 3 => some .domain | 4 => some .package
  | 5 => some .system | _ => none
/-- The code of FENCE's scope (R139). -/
def Scope.code : Scope → BitVec 3
  | .thread => 0 | .tile => 1 | .rect => 2 | .domain => 3 | .package => 4 | .system => 5

/-- SCOPE of an Order MOD5: 1 tile, 3 domain, 4 package, 5 system (R199). -/
def XScope.ofCode (x : BitVec 3) : Option XScope :=
  match x.toNat with
  | 1 => some .tile | 3 => some .domain | 4 => some .package | 5 => some .system | _ => none
/-- The code of SCOPE (R199). -/
def XScope.code : XScope → BitVec 3
  | .tile => 1 | .domain => 3 | .package => 4 | .system => 5

/-- MOD5 of an Order instruction: ORD in bits 1:0, SCOPE in bits 4:2 (R199). -/
def XOrd.ofCode (x : BitVec 5) : Option XOrd :=
  match (x.extractLsb' 0 2).toNat with
  | 0 => if x.extractLsb' 2 3 = 0 then some .relaxed else none
  | 1 => (XScope.ofCode (x.extractLsb' 2 3)).map .acq
  | 2 => (XScope.ofCode (x.extractLsb' 2 3)).map .rel
  | _ => (XScope.ofCode (x.extractLsb' 2 3)).map .ar
/-- The MOD5 of an ordering (R199). -/
def XOrd.code : XOrd → BitVec 5
  | .relaxed => 0
  | .acq s => s.code ++ 1#2
  | .rel s => s.code ++ 2#2
  | .ar s => s.code ++ 3#2

/-- TYPE (R73). -/
def VType.ofCode (x : BitVec 3) : VType :=
  match x.toNat with
  | 0 => .i32 | 1 => .n32 | 2 => .f32 | 3 => .bf16x2 | 4 => .f16x2 | 5 => .i16x2 | 6 => .i8x4 | _ => .f64
/-- The TYPE code (R73). -/
def VType.code : VType → BitVec 3
  | .i32 => 0 | .n32 => 1 | .f32 => 2 | .bf16x2 => 3 | .f16x2 => 4 | .i16x2 => 5 | .i8x4 => 6 | .f64 => 7

/-- RM (R73). -/
def RmField.ofCode (x : BitVec 2) : RmField :=
  match x.toNat with
  | 0 => .rne | 1 => .rtz | 2 => .sr | _ => .dyn
/-- The RM code (R73). -/
def RmField.code : RmField → BitVec 2
  | .rne => 0 | .rtz => 1 | .sr => 2 | .dyn => 3

/-- The operation of VRED and VSCAN in VB (R169). -/
def RedOp.ofCode (x : BitVec 3) : Option RedOp :=
  match x.toNat with
  | 0 => some .add | 1 => some .min | 2 => some .max | _ => none
/-- The code of the operation in VB (R169). -/
def RedOp.code : RedOp → BitVec 3
  | .add => 0 | .min => 1 | .max => 2

/-- XCOMB's operation from FL and SUB (R213). -/
def CombOp.ofCode (fl : Bool) (sub : BitVec 3) : Option CombOp :=
  match fl, sub.toNat with
  | false, 0 => some .add | false, 1 => some .min | false, 2 => some .max | false, 3 => some .minu
  | false, 4 => some .maxu | false, 5 => some .and | false, 6 => some .or
  | true, 1 => some .fmin | true, 2 => some .fmax
  | _, _ => none
/-- XCOMB's SUB (R213). -/
def CombOp.sub : CombOp → BitVec 3
  | .add => 0 | .min => 1 | .max => 2 | .minu => 3 | .maxu => 4 | .and => 5 | .or => 6 | .fmin => 1 | .fmax => 2
/-- XCOMB's FL (R213). -/
def CombOp.fl : CombOp → Bool
  | .fmin | .fmax => true
  | _ => false

/-- The TYPE field. -/
def Raw32.ty (r : Raw32) : VType := VType.ofCode r.tyBits
/-- The RM field. -/
def Raw32.rm (r : Raw32) : RmField := RmField.ofCode r.rmBits

/-- The ALU major (R109). -/
def decAlu (r : Raw32) : Option Instr :=
  match r.fn.toNat with
  | 0 => if r.plain then some (.add r.stall r.gd r.ga r.gb) else none
  | 1 => if r.plain then some (.sub r.stall r.gd r.ga r.gb) else none
  | 2 => if r.plain then some (.and r.stall r.gd r.ga r.gb) else none
  | 3 => if r.plain then some (.or r.stall r.gd r.ga r.gb) else none
  | 4 => if r.plain then some (.xor r.stall r.gd r.ga r.gb) else none
  | 5 => if r.plain then some (.andn r.stall r.gd r.ga r.gb) else none
  | 6 => if r.plain then some (.shl r.stall r.gd r.ga r.gb) else none
  | 7 => if r.plain then some (.shr r.stall r.gd r.ga r.gb) else none
  | 8 => if r.plain then some (.sra r.stall r.gd r.ga r.gb) else none
  | 9 => if r.plain then some (.slt r.stall r.gd r.ga r.gb) else none
  | 10 => if r.plain then some (.sltu r.stall r.gd r.ga r.gb) else none
  | 11 => if r.plain then some (.seq r.stall r.gd r.ga r.gb) else none
  | 12 => if r.plain then some (.sne r.stall r.gd r.ga r.gb) else none
  | 13 => if r.plain then some (.min r.stall r.gd r.ga r.gb) else none
  | 14 => if r.plain then some (.max r.stall r.gd r.ga r.gb) else none
  | 15 => if r.plain then some (.minu r.stall r.gd r.ga r.gb) else none
  | 16 => if r.plain then some (.maxu r.stall r.gd r.ga r.gb) else none
  | 17 => if r.plain then some (.sel r.stall r.gd r.ga r.gb) else none
  | 18 => if r.plain ∧ r.b = 0 then some (.clz r.stall r.gd r.ga) else none
  | 19 => if r.plain ∧ r.b = 0 then some (.ctz r.stall r.gd r.ga) else none
  | 20 => if r.plain ∧ r.b = 0 then some (.popc r.stall r.gd r.ga) else none
  | 21 => if r.ord = 0 ∧ r.b = 0 then (match r.mod3.toNat with
    | 0 => some (.sextB r.stall r.gd r.ga) | 1 => some (.sextH r.stall r.gd r.ga)
    | 2 => some (.sextW r.stall r.gd r.ga) | _ => none) else none
  | 22 => if r.ord = 0 then (match r.mod3.toNat with
    | 0 => some (.bfx r.stall r.gd r.ga r.gb) | 1 => some (.bfxS r.stall r.gd r.ga r.gb) | _ => none) else none
  | 23 => if r.plain then some (.bfi r.stall r.gd r.ga r.gb) else none
  | 24 => if r.plain then some (.padd r.stall r.gd r.ga r.gb) else none
  | 25 => if r.plain ∧ r.b = 0 then some (.ptagx r.stall r.gd r.ga) else none
  | 26 => if r.plain then some (.ptags r.stall r.gd r.ga r.gb) else none
  | _ => none

/-- The ALU-I major (R111). -/
def decAluI (r : Raw32) : Option Instr :=
  match r.b.toNat with
  | 0 => some (.addi r.stall r.gd r.ga r.hi)
  | 1 => some (.andi r.stall r.gd r.ga r.hi)
  | 2 => some (.ori r.stall r.gd r.ga r.hi)
  | 3 => some (.xori r.stall r.gd r.ga r.hi)
  | 4 => if r.hi.extractLsb' 6 5 = 0 then some (.shli r.stall r.gd r.ga (r.hi.extractLsb' 0 6)) else none
  | 5 => if r.hi.extractLsb' 6 5 = 0 then some (.shri r.stall r.gd r.ga (r.hi.extractLsb' 0 6)) else none
  | 6 => if r.hi.extractLsb' 6 5 = 0 then some (.srai r.stall r.gd r.ga (r.hi.extractLsb' 0 6)) else none
  | 7 => some (.slti r.stall r.gd r.ga r.hi)
  | 8 => some (.sltiu r.stall r.gd r.ga r.hi)
  | 9 => some (.paddi r.stall r.gd r.ga r.hi)
  | 10 => if r.hi.extractLsb' 6 5 = 0 then some (.ptagi r.stall r.gd r.ga (r.hi.extractLsb' 0 6)) else none
  | _ => none

/-- The MULDIV major (R116). -/
def decMulDiv (r : Raw32) : Option Instr :=
  match r.fn.toNat with
  | 0 => if r.plain then some (.mul r.stall r.gd r.ga r.gb) else none
  | 1 => if r.plain then some (.mulh r.stall r.gd r.ga r.gb) else none
  | 2 => if r.plain then some (.mulhu r.stall r.gd r.ga r.gb) else none
  | 3 => if r.plain then some (.div r.stall r.gd r.ga r.gb) else none
  | 4 => if r.plain then some (.divu r.stall r.gd r.ga r.gb) else none
  | 5 => if r.plain then some (.rem r.stall r.gd r.ga r.gb) else none
  | 6 => if r.plain then some (.remu r.stall r.gd r.ga r.gb) else none
  | _ => none

/-- The BR major: register a in the D field, register b in the A field (R118). -/
def decBr (r : Raw32) : Option Instr :=
  match r.cond3.toNat with
  | 0 => some (.beq r.stall r.gd r.ga r.off12)
  | 1 => some (.bne r.stall r.gd r.ga r.off12)
  | 2 => some (.blt r.stall r.gd r.ga r.off12)
  | 3 => some (.bge r.stall r.gd r.ga r.off12)
  | 4 => some (.bltu r.stall r.gd r.ga r.off12)
  | 5 => some (.bgeu r.stall r.gd r.ga r.off12)
  | _ => none

/-- The JR major (R121). -/
def decJr (r : Raw32) : Option Instr :=
  match r.b.toNat with
  | 0 => some (.jalr r.stall r.gd r.ga r.hi)
  | 1 => if r.d = 0 then some (.jr r.stall r.ga r.hi) else none
  | _ => none

/-- The LD major (R125). -/
def decLd (r : Raw32) : Option Instr :=
  match r.b.toNat with
  | 0 => some (.ldb r.stall r.gd r.ga r.hi)
  | 1 => some (.ldh r.stall r.gd r.ga r.hi)
  | 2 => some (.ldw r.stall r.gd r.ga r.hi)
  | 3 => some (.ldd r.stall r.gd r.ga r.hi)
  | 4 => some (.ldbu r.stall r.gd r.ga r.hi)
  | 5 => some (.ldhu r.stall r.gd r.ga r.hi)
  | 6 => some (.ldwu r.stall r.gd r.ga r.hi)
  | 7 => some (.ldp r.stall r.gd r.ga r.hi)
  | _ => none

/-- The ST major (R127). -/
def decSt (r : Raw32) : Option Instr :=
  match r.b.toNat with
  | 0 => some (.stb r.stall r.gd r.ga r.hi)
  | 1 => some (.sth r.stall r.gd r.ga r.hi)
  | 2 => some (.stw r.stall r.gd r.ga r.hi)
  | 3 => some (.std r.stall r.gd r.ga r.hi)
  | 7 => some (.stp r.stall r.gd r.ga r.hi)
  | _ => none

/-- The BLOCK major (R128, R129). -/
def decBlock (r : Raw32) : Option Instr :=
  match r.b.toNat with
  | 0 => if r.d = 0 then some (.bopen r.stall r.ga r.hi) else none
  | 1 => if r.d = 0 then some (.bcommit r.stall r.ga r.hi) else none
  | 2 => some (.bclr r.stall r.gd r.ga r.hi)
  | 3 => if r.d = 0 then some (.bwait r.stall r.ga r.hi) else none
  | 4 => some (.bstat r.stall r.gd r.ga r.hi)
  | 5 => some (.barm r.stall r.gd r.ga r.hi)
  | 6 => if r.d = 0 then some (.bpois r.stall r.ga r.hi) else none
  | 7 => some (.bfill r.stall r.gd r.ga r.hi)
  | _ => none

/-- The CELL major (R135, R136). -/
def decCell (r : Raw32) : Option Instr :=
  match r.fn.toNat with
  | 0 => if r.b = 0 then some (.cld r.stall (Ord.ofCode r.ord) r.mod3 r.gd r.ga) else none
  | 1 => if r.d = 0 then some (.cst r.stall (Ord.ofCode r.ord) r.mod3 r.ga r.gb) else none
  | 2 => some (.cadd r.stall (Ord.ofCode r.ord) r.mod3 r.gd r.ga r.gb)
  | 3 => some (.cmin r.stall (Ord.ofCode r.ord) r.mod3 r.gd r.ga r.gb)
  | 4 => some (.cmax r.stall (Ord.ofCode r.ord) r.mod3 r.gd r.ga r.gb)
  | 5 => some (.cminu r.stall (Ord.ofCode r.ord) r.mod3 r.gd r.ga r.gb)
  | 6 => some (.cmaxu r.stall (Ord.ofCode r.ord) r.mod3 r.gd r.ga r.gb)
  | 7 => some (.cand r.stall (Ord.ofCode r.ord) r.mod3 r.gd r.ga r.gb)
  | 8 => some (.cor r.stall (Ord.ofCode r.ord) r.mod3 r.gd r.ga r.gb)
  | 9 => some (.cxor r.stall (Ord.ofCode r.ord) r.mod3 r.gd r.ga r.gb)
  | 10 => some (.cxchg r.stall (Ord.ofCode r.ord) r.mod3 r.gd r.ga r.gb)
  | 11 => some (.ccas r.stall (Ord.ofCode r.ord) r.mod3 r.gd r.ga r.gb)
  | 12 => if r.b = 0 then some (.cdecf r.stall (Ord.ofCode r.ord) r.mod3 r.gd r.ga) else none
  | _ => none

/-- The SYNC major (R139, R141). -/
def decSync (r : Raw32) : Option Instr :=
  match r.b.toNat with
  | 0 => if r.d = 0 ∧ r.hi.extractLsb' 5 6 = 0 then do
    let kind ← FenceKind.ofCode (r.hi.extractLsb' 0 2)
    let scope ← Scope.ofCode (r.hi.extractLsb' 2 3)
    return .fence r.stall kind scope r.ga else none
  | 1 => if r.d = 0 ∧ r.a = 0 ∧ r.hi = 0 then some (.tbar r.stall) else none
  | 2 => if r.d = 0 ∧ r.a = 0 ∧ r.hi = 0 then some (.sync r.stall) else none
  | 3 => if r.d = 0 ∧ r.a = 0 ∧ r.hi = 0 then some (.yield r.stall) else none
  | 4 => if r.d = 0 ∧ r.a = 0 ∧ r.hi = 0 then some (.tend r.stall) else none
  | 5 => some (.spawn r.stall r.gd r.ga r.hi)
  | 6 => if r.a = 0 ∧ r.hi = 0 then some (.phase r.stall r.gd) else none
  | 7 => some (.await r.stall r.gd r.ga r.hi)
  | 8 => some (.abinit r.stall r.gd r.ga r.hi)
  | _ => none

/-- The EXT major (R152). -/
def decExt (r : Raw32) : Option Instr :=
  match r.b.toNat with
  | 0 => do
    let d ← eOf4 r.d
    let pos ← posOf4 r.a
    return .eli r.stall d pos r.hi
  | 1 => if r.hi = 0 then do
    let d ← eOf4 r.d
    return .emov r.stall d r.ga else none
  | 2 => if r.hi = 0 then do
    let a ← eOf4 r.a
    return .emovg r.stall r.gd a else none
  | _ => none

/-- The V-ALU major (R156). -/
def decVAlu (r : Raw32) : Option Instr :=
  match r.f6.toNat with
  | 0 => some (.vadd r.stall r.ty r.rm r.vdReg r.vaReg r.vbReg r.kReg r.z)
  | 1 => some (.vsub r.stall r.ty r.rm r.vdReg r.vaReg r.vbReg r.kReg r.z)
  | 2 => some (.vmul r.stall r.ty r.rm r.vdReg r.vaReg r.vbReg r.kReg r.z)
  | 3 => some (.vfma r.stall r.ty r.rm r.vdReg r.vaReg r.vbReg r.kReg r.z)
  | 4 => some (.vfms r.stall r.ty r.rm r.vdReg r.vaReg r.vbReg r.kReg r.z)
  | 5 => some (.vfnma r.stall r.ty r.rm r.vdReg r.vaReg r.vbReg r.kReg r.z)
  | 6 => some (.vmin r.stall r.ty r.rm r.vdReg r.vaReg r.vbReg r.kReg r.z)
  | 7 => some (.vmax r.stall r.ty r.rm r.vdReg r.vaReg r.vbReg r.kReg r.z)
  | 8 => if r.vb = 0 then some (.vabs r.stall r.ty r.rm r.vdReg r.vaReg r.kReg r.z) else none
  | 9 => if r.vb = 0 then some (.vneg r.stall r.ty r.rm r.vdReg r.vaReg r.kReg r.z) else none
  | 10 => some (.vand r.stall r.ty r.rm r.vdReg r.vaReg r.vbReg r.kReg r.z)
  | 11 => some (.vor r.stall r.ty r.rm r.vdReg r.vaReg r.vbReg r.kReg r.z)
  | 12 => some (.vxor r.stall r.ty r.rm r.vdReg r.vaReg r.vbReg r.kReg r.z)
  | 13 => if r.rmBits = 0 then some (.vshl r.stall r.ty r.vdReg r.vaReg r.vbReg r.kReg r.z) else none
  | 14 => if r.rmBits = 0 then some (.vshr r.stall r.ty r.vdReg r.vaReg r.vbReg r.kReg r.z) else none
  | 15 => if r.rmBits = 0 then some (.vsra r.stall r.ty r.vdReg r.vaReg r.vbReg r.kReg r.z) else none
  | 16 => if r.rmBits = 0 then some (.vadds r.stall r.ty r.vdReg r.vaReg r.vbReg r.kReg r.z) else none
  | 17 => if r.rmBits = 0 then some (.vsubs r.stall r.ty r.vdReg r.vaReg r.vbReg r.kReg r.z) else none
  | 18 => some (.vdot r.stall r.ty r.rm r.vdReg r.vaReg r.vbReg r.kReg r.z)
  | 19 => if r.vb = 0 then some (.vbcast r.stall r.ty r.rm r.vdReg r.vaReg r.kReg r.z) else none
  | 20 => if r.k = 0 ∧ r.z = false then some (.vext r.stall r.ty r.rm r.vdReg r.vaReg r.vbReg) else none
  | 21 => if r.k = 0 ∧ r.z = false then some (.vins r.stall r.ty r.rm r.vdReg r.vaReg r.vbReg) else none
  | 22 => if r.vb = 0 then some (.vmov r.stall r.ty r.rm r.vdReg r.vaReg r.kReg r.z) else none
  | _ => none

/-- The V-FN major (R159). -/
def decVFn (r : Raw32) : Option Instr :=
  match r.f6.toNat with
  | 0 => if r.vb = 0 then some (.vrcp r.stall r.ty r.rm r.vdReg r.vaReg r.kReg r.z) else none
  | 1 => if r.vb = 0 then some (.vrsq r.stall r.ty r.rm r.vdReg r.vaReg r.kReg r.z) else none
  | 2 => if r.vb = 0 then some (.vsqrt r.stall r.ty r.rm r.vdReg r.vaReg r.kReg r.z) else none
  | 3 => if r.vb = 0 then some (.vexp2 r.stall r.ty r.rm r.vdReg r.vaReg r.kReg r.z) else none
  | 4 => if r.vb = 0 then some (.vlog2 r.stall r.ty r.rm r.vdReg r.vaReg r.kReg r.z) else none
  | 5 => some (.vdiv r.stall r.ty r.rm r.vdReg r.vaReg r.vbReg r.kReg r.z)
  | 6 => if r.rmBits = 0 then do
    let d ← kOf3 r.vd
    return .vcmpeq r.stall r.ty d r.vaReg r.vbReg r.kReg r.z else none
  | 7 => if r.rmBits = 0 then do
    let d ← kOf3 r.vd
    return .vcmpne r.stall r.ty d r.vaReg r.vbReg r.kReg r.z else none
  | 8 => if r.rmBits = 0 then do
    let d ← kOf3 r.vd
    return .vcmplt r.stall r.ty d r.vaReg r.vbReg r.kReg r.z else none
  | 9 => if r.rmBits = 0 then do
    let d ← kOf3 r.vd
    return .vcmple r.stall r.ty d r.vaReg r.vbReg r.kReg r.z else none
  | 10 => if r.rmBits = 0 ∧ r.z = false then some (.vsel r.stall r.ty r.vdReg r.vaReg r.vbReg r.kReg) else none
  | 11 => if r.rmBits = 0 ∧ r.vb = 0 then some (.vclass r.stall r.ty r.vdReg r.vaReg r.kReg r.z) else none
  | _ => none

/-- The V-CVT major (R163, R164). -/
def decVCvt (r : Raw32) : Option Instr :=
  match r.f6.toNat with
  | 0 => some (.vcvt r.stall r.ty (VType.ofCode r.vb) r.rm r.vdReg r.vaReg r.kReg r.z)
  | 1 => if r.tyBits = 2 ∧ r.k = 0 ∧ r.z = false then some (.vqdx r.stall r.rm r.vdReg r.vaReg r.vbReg) else none
  | 2 => if r.tyBits = 2 ∧ r.k = 0 ∧ r.z = false ∧ r.rmBits = 0 then some (.vdq r.stall r.vdReg r.vaReg r.vbReg) else none
  | 3 => if r.tyBits = 2 ∧ r.k = 0 ∧ r.z = false then some (.vqmx r.stall r.rm r.vdReg r.vaReg r.vbReg) else none
  | 4 => if r.tyBits = 2 ∧ r.k = 0 ∧ r.z = false ∧ r.vb = 0 then some (.vpack r.stall r.rm r.vdReg r.vaReg) else none
  | 5 => if r.tyBits = 2 ∧ r.k = 0 ∧ r.z = false ∧ r.vb = 0 ∧ r.rmBits = 0 then some (.vunpk r.stall r.vdReg r.vaReg) else none
  | _ => none

/-- The V-PERM major (R168 to R170). -/
def decVPerm (r : Raw32) : Option Instr :=
  match r.f6.toNat with
  | 0 => if r.rmBits = 0 then some (.vperm r.stall r.ty r.vdReg r.vaReg r.vbReg r.kReg r.z) else none
  | 1 => if r.rmBits = 0 then some (.vrot r.stall r.ty r.vdReg r.vaReg r.vbReg r.kReg r.z) else none
  | 2 => do
    let op ← RedOp.ofCode r.vb
    return .vred r.stall r.ty op r.rm r.vdReg r.vaReg r.kReg r.z
  | 3 => do
    let op ← RedOp.ofCode r.vb
    return .vscan r.stall r.ty op r.rm r.vdReg r.vaReg r.kReg r.z
  | 4 => if r.rmBits = 0 ∧ r.vb = 0 then some (.vcompr r.stall r.ty r.vdReg r.vaReg r.kReg r.z) else none
  | 5 => if r.rmBits = 0 ∧ r.vb = 0 ∧ r.va = 0 ∧ r.tyBits = 0 then some (.viota r.stall r.vdReg r.kReg r.z) else none
  | _ => none

/-- The V-MEM major: bit 12 is zero (R71, R171). -/
def decVMem (r : Raw32) : Option Instr := do
  let v ← eOf4 r.d
  match r.b.toNat with
  | 0 => some (.vld r.stall v r.ga r.hi)
  | 1 => some (.vst r.stall v r.ga r.hi)
  | 2 => some (.vlds r.stall v r.ga r.hi)
  | 3 => some (.vsts r.stall v r.ga r.hi)
  | 4 => some (.vgath r.stall v r.ga r.hi)
  | 5 => some (.vscat r.stall v r.ga r.hi)
  | _ => none

/-- The V-MASK major (R175). -/
def decVMask (r : Raw32) : Option Instr :=
  match r.fn.toNat with
  | 0 => if r.plain then do
    let d ← kOf4 r.d
    let a ← kOf4 r.a
    let b ← kOf4 r.b
    return .kand r.stall d a b else none
  | 1 => if r.plain then do
    let d ← kOf4 r.d
    let a ← kOf4 r.a
    let b ← kOf4 r.b
    return .kor r.stall d a b else none
  | 2 => if r.plain then do
    let d ← kOf4 r.d
    let a ← kOf4 r.a
    let b ← kOf4 r.b
    return .kxor r.stall d a b else none
  | 3 => if r.plain ∧ r.b = 0 then do
    let d ← kOf4 r.d
    let a ← kOf4 r.a
    return .knot r.stall d a else none
  | 4 => if r.plain ∧ r.b = 0 then do
    let a ← kOf4 r.a
    return .kpop r.stall r.gd a else none
  | 5 => if r.ord = 0 ∧ r.b = 0 then (match r.mod3.toNat with
    | 0 => do
      let d ← kOf4 r.d
      return .kmov r.stall d r.ga
    | 1 => do
      let a ← kOf4 r.a
      return .kmovG r.stall r.gd a
    | _ => none) else none
  | _ => none

/-- The MATRIX major: SUB bit 2 and MOD5 are zero (R182). -/
def decMatrix (r : Raw32) : Option Instr :=
  if r.sub.extractLsb' 2 1 = 0 ∧ r.mod5 = 0 then
  match r.f6.toNat with
  | 0 => if r.d = 0 ∧ r.a = 0 ∧ r.fl = false then some (.mzero r.stall r.acc) else none
  | 1 => if r.a = 0 ∧ r.fl = false then some (.mld r.stall r.acc r.gd) else none
  | 2 => if r.a = 0 ∧ r.fl = false then some (.mst r.stall r.acc r.gd) else none
  | 3 => some (.mma r.stall r.acc r.gd r.ga r.fl)
  | 4 => some (.mmat r.stall r.acc r.gd r.ga r.fl)
  | 5 => some (.mmas r.stall r.acc r.gd r.ga r.fl)
  | 6 => if r.a = 0 ∧ r.fl = false then do
    let s ← kOf4 r.d
    return .macc r.stall r.acc s else none
  | 7 => if r.d = 0 ∧ r.a = 0 then
      (if r.fl then (if r.sub = 0 then some (.mwaitAll r.stall) else none) else some (.mwait r.stall r.acc)) else none
  | 8 => if r.a = 0 then some (.mstat r.stall r.gd r.acc r.fl) else none
  | _ => none
  else none

/-- The XFER major (R198). -/
def decXfer (r : Raw32) : Option Instr :=
  match r.f6.toNat with
  | 0 => if r.sub = 0 ∧ r.fl = false ∧ r.mod5 = 0 then some (.xsend r.stall r.gd r.ga) else none
  | 1 => if r.sub = 0 ∧ r.fl = false ∧ r.mod5 = 0 then some (.xmcast r.stall r.gd r.ga) else none
  | 2 => if r.sub = 0 ∧ r.fl = false then do
    let o ← XOrd.ofCode r.mod5
    return .xget r.stall o r.gd r.ga else none
  | 3 => if r.sub = 0 ∧ r.fl = false then do
    let o ← XOrd.ofCode r.mod5
    return .xput r.stall o r.gd r.ga else none
  | 4 => if r.sub = 0 ∧ r.fl = false then do
    let o ← XOrd.ofCode r.mod5
    return .xfeed r.stall o r.gd r.ga else none
  | 5 => do
    let op ← CombOp.ofCode r.fl r.sub
    let o ← XOrd.ofCode r.mod5
    return .xcomb r.stall op o r.gd r.ga
  | 6 => if r.sub = 0 ∧ r.fl = false ∧ r.mod5 = 0 then some (.xroute r.stall r.gd r.ga) else none
  | 7 => if r.sub = 0 ∧ r.fl = false ∧ r.mod5 = 0 ∧ r.d = 0 ∧ r.a = 0 then some (.xclose r.stall) else none
  | 8 => if r.sub = 0 ∧ r.mod5 = 0 ∧ r.a = 0 then
      (if r.fl then some (.xrecvRoute r.stall r.gd) else some (.xrecv r.stall r.gd)) else none
  | _ => none

/-- The XCTL major (R198). -/
def decXctl (r : Raw32) : Option Instr :=
  match r.f6.toNat with
  | 0 => if r.sub = 0 ∧ r.fl = false ∧ r.mod5 = 0 ∧ r.d = 0 ∧ r.a = 0 then some (.xend r.stall) else none
  | 1 => if r.sub = 0 ∧ r.mod5 = 0 ∧ r.a = 0 then
      (if r.fl then some (.xwaitRecv r.stall r.gd) else some (.xwait r.stall r.gd)) else none
  | _ => none

/-- The INVOKE major (R198). -/
def decInvoke (r : Raw32) : Option Instr :=
  match r.f6.toNat with
  | 0 => if r.sub = 0 ∧ r.fl = false ∧ r.d = 0 then do
    let o ← XOrd.ofCode r.mod5
    return .pitch r.stall o r.ga else none
  | 1 => if r.sub = 0 ∧ r.fl = false then do
    let o ← XOrd.ofCode r.mod5
    return .pitchq r.stall o r.gd r.ga else none
  | _ => none

/-- The SYS major (R226). -/
def decSys (r : Raw32) : Option Instr :=
  match r.b.toNat with
  | 0 => if r.a = 0 then some (.mfc r.stall r.gd r.hi) else none
  | 1 => if r.d = 0 then some (.mtc r.stall r.hi r.ga) else none
  | 2 => if r.a = 0 ∧ r.hi = 0 then some (.rdcyc r.stall r.gd) else none
  | 3 => if r.a = 0 ∧ r.hi = 0 then some (.rdret r.stall r.gd) else none
  | 4 => if r.hi.extractLsb' 3 8 = 0 then do
    let w ← wOf2 (r.hi.extractLsb' 0 2)
    return .jlog r.stall r.gd r.ga w (r.hi.getLsbD 2) else none
  | 5 => match r.hi.toNat with
    | 0 => some (.ptst r.stall r.gd r.ga)
    | 1 => do
      let a ← eOf4 r.a
      return .ptstV r.stall r.gd a
    | 2 => do
      let a ← kOf4 r.a
      return .ptstAcc r.stall r.gd a
    | _ => none
  | 6 => some (.tagget r.stall r.gd r.ga r.hi)
  | 7 => some (.tagset r.stall r.gd r.ga r.hi)
  | 8 => if r.hi = 0 then some (.idle r.stall r.gd r.ga) else none
  | 9 => some (.hnote r.stall r.gd r.ga r.hi)
  | _ => none

/-- The TRAP major (R226). -/
def decTrap (r : Raw32) : Option Instr :=
  match r.b.toNat with
  | 0 => if r.d = 0 then some (.trap r.stall r.ga r.hi) else none
  | 1 => if r.d = 0 ∧ r.a = 0 then (match r.hi.toNat with
    | 0 => some (.eret r.stall) | 1 => some (.eretEnd r.stall) | _ => none) else none
  | 2 => if r.d = 0 ∧ r.a = 0 then some (.brk r.stall r.hi) else none
  | _ => none

/-- The compact forms (R76). -/
def decodeRaw16 (r : Raw16) : Option Instr :=
  match r.op.toNat with
  | 0 => some (.cIll r.d r.a r.f2)
  | 1 => some (.cAdd r.f2.toFin r.d.toFin r.a.toFin)
  | 2 => some (.cSub r.f2.toFin r.d.toFin r.a.toFin)
  | 3 => some (.cMov r.f2.toFin r.d.toFin r.a.toFin)
  | 4 => some (.cAnd r.f2.toFin r.d.toFin r.a.toFin)
  | 5 => some (.cOr r.f2.toFin r.d.toFin r.a.toFin)
  | 6 => some (.cXor r.f2.toFin r.d.toFin r.a.toFin)
  | 7 => some (.cAddi r.d.toFin (r.a ++ r.f2))
  | 8 => some (.cShli r.d.toFin (r.a ++ r.f2))
  | 9 => some (.cShri r.d.toFin (r.a ++ r.f2))
  | 10 => some (.cLdd r.d.toFin (r.a ++ r.f2))
  | 11 => some (.cStd r.d.toFin (r.a ++ r.f2))
  | 12 => some (.cBeqz r.d.toFin (r.a ++ r.f2))
  | 13 => some (.cBnez r.d.toFin (r.a ++ r.f2))
  | 14 => some (.cJ (r.d ++ r.a ++ r.f2))
  | 15 => if r.d = 0 ∧ r.a = 0 ∧ r.f2 = 0 then some .cRet else none
  | _ => none

/-- A 32-bit instruction by its major (R74). -/
def decodeRaw32 (r : Raw32) : Option Instr :=
  match r.major.toNat with
  | 0 => decAlu r
  | 1 => decAluI r
  | 2 => some (.lui r.stall r.gd r.off19)
  | 3 => some (.addpc r.stall r.gd r.off19)
  | 4 => decMulDiv r
  | 5 => decBr r
  | 6 => some (.jal r.stall r.gd r.off19)
  | 7 => decJr r
  | 8 => decLd r
  | 9 => decSt r
  | 10 => decBlock r
  | 11 => decCell r
  | 12 => decSync r
  | 13 => decExt r
  | 14 => decVAlu r
  | 15 => decVFn r
  | 16 => decVCvt r
  | 17 => decVPerm r
  | 18 => decVMem r
  | 19 => decVMask r
  | 20 => decMatrix r
  | 21 => decXfer r
  | 22 => decXctl r
  | 23 => decInvoke r
  | 24 => decSys r
  | 25 => decTrap r
  | _ => none

/-- A 32-bit word that holds a defined, well-formed instruction. -/
def decode32 (w : BitVec 32) : Option Instr :=
  if w.extractLsb' 0 2 = 3 then
    match decodeRaw32 (Raw32.ofBits w) with
    | some i => if i.wf then some i else none
    | none => none
  else none

/-- A 16-bit halfword that holds a compact form. -/
def decode16 (w : BitVec 16) : Option Instr :=
  if w.extractLsb' 0 2 = 0 then decodeRaw16 (Raw16.ofBits w) else none

/-- The length of the instruction whose first halfword is w, in bytes: none for the reserved length codes (R70). -/
def lengthOf (w : BitVec 16) : Option Nat :=
  match (w.extractLsb' 0 2).toNat with
  | 0 => some 2
  | 3 => some 4
  | _ => none

/-- The instruction at the front of a list of bytes, with its length: none where the bytes hold no defined
instruction (R70, R77). Little-endian (R3). -/
def decodeBytes : List Byte → Option (Instr × Nat)
  | b0 :: b1 :: rest =>
    match lengthOf (b1 ++ b0) with
    | some 2 => (decode16 (b1 ++ b0)).map fun i => (i, 2)
    | some _ =>
      match rest with
      | b2 :: b3 :: _ => (decode32 (b3 ++ b2 ++ b1 ++ b0)).map fun i => (i, 4)
      | _ => none
    | none => none
  | _ => none

/-- The little-endian bytes of a number, n of them. -/
def bytesOfNat : Nat → Nat → List Byte
  | 0, _ => []
  | n + 1, w => BitVec.ofNat 8 w :: bytesOfNat n (w / 256)

/-- The instruction of an opcode-table word: its bytes as the hardware stores them, the bits above nbits zero, given
to the decoder. -/
def decodeTableWord (nbits w : Nat) : Option Instr :=
  (decodeBytes (bytesOfNat 4 (w % 2 ^ nbits))).map Prod.fst

/-- A register number or a small field as bits of the width that its place has. -/
def fb {m w : Nat} (x : Fin m) : BitVec w := BitVec.ofNat w x.val

/-- Format R (R71). -/
def mkR (major : BitVec 5) (st : Stall) (d a b : BitVec 4) (fn : BitVec 6) (mod3 : BitVec 3) (ord : BitVec 2) :
    Raw32 := { major, st := fb st, d, a, b, hi := ord ++ mod3 ++ fn }

/-- Formats I, L and VL (R71). -/
def mkI (major : BitVec 5) (st : Stall) (d a f4 : BitVec 4) (imm : BitVec 11) : Raw32 :=
  { major, st := fb st, d, a, b := f4, hi := imm }

/-- Formats U and J (R71). -/
def mkU (major : BitVec 5) (st : Stall) (d : BitVec 4) (imm : BitVec 19) : Raw32 :=
  { major, st := fb st, d, a := imm.extractLsb' 0 4, b := imm.extractLsb' 4 4, hi := imm.extractLsb' 8 11 }

/-- Format B (R71). -/
def mkB (major : BitVec 5) (st : Stall) (a b : BitVec 4) (cond : BitVec 3) (off : BitVec 12) : Raw32 :=
  { major, st := fb st, d := a, a := b, b := off.extractLsb' 0 1 ++ cond, hi := off.extractLsb' 1 11 }

/-- Format V (R71). -/
def mkV (major : BitVec 5) (st : Stall) (vd va vb : BitVec 3) (k : BitVec 2) (z : Bool) (f6 : BitVec 6)
    (ty : BitVec 3) (rm : BitVec 2) : Raw32 :=
  { major, st := fb st, d := va.extractLsb' 0 1 ++ vd, a := vb.extractLsb' 0 2 ++ va.extractLsb' 1 2,
    b := BitVec.ofBool z ++ k ++ vb.extractLsb' 2 1, hi := rm ++ ty ++ f6 }

/-- Format E (R71). -/
def mkE (major : BitVec 5) (st : Stall) (a b : BitVec 4) (sub : BitVec 3) (fl : Bool) (f6 : BitVec 6)
    (mod5 : BitVec 5) : Raw32 :=
  { major, st := fb st, d := a, a := b, b := BitVec.ofBool fl ++ sub, hi := mod5 ++ f6 }

/-- The fields of an instruction's word or halfword, from the encoding tables (R71, R74, R76); none for the steps
that have no encoding. -/
def encode (i : Instr) : Option Enc :=
  match i with
  | .add st d a b => some (.w32 (mkR 0 st (fb d) (fb a) (fb b) 0 0 0))
  | .sub st d a b => some (.w32 (mkR 0 st (fb d) (fb a) (fb b) 1 0 0))
  | .and st d a b => some (.w32 (mkR 0 st (fb d) (fb a) (fb b) 2 0 0))
  | .or st d a b => some (.w32 (mkR 0 st (fb d) (fb a) (fb b) 3 0 0))
  | .xor st d a b => some (.w32 (mkR 0 st (fb d) (fb a) (fb b) 4 0 0))
  | .andn st d a b => some (.w32 (mkR 0 st (fb d) (fb a) (fb b) 5 0 0))
  | .shl st d a b => some (.w32 (mkR 0 st (fb d) (fb a) (fb b) 6 0 0))
  | .shr st d a b => some (.w32 (mkR 0 st (fb d) (fb a) (fb b) 7 0 0))
  | .sra st d a b => some (.w32 (mkR 0 st (fb d) (fb a) (fb b) 8 0 0))
  | .slt st d a b => some (.w32 (mkR 0 st (fb d) (fb a) (fb b) 9 0 0))
  | .sltu st d a b => some (.w32 (mkR 0 st (fb d) (fb a) (fb b) 10 0 0))
  | .seq st d a b => some (.w32 (mkR 0 st (fb d) (fb a) (fb b) 11 0 0))
  | .sne st d a b => some (.w32 (mkR 0 st (fb d) (fb a) (fb b) 12 0 0))
  | .min st d a b => some (.w32 (mkR 0 st (fb d) (fb a) (fb b) 13 0 0))
  | .max st d a b => some (.w32 (mkR 0 st (fb d) (fb a) (fb b) 14 0 0))
  | .minu st d a b => some (.w32 (mkR 0 st (fb d) (fb a) (fb b) 15 0 0))
  | .maxu st d a b => some (.w32 (mkR 0 st (fb d) (fb a) (fb b) 16 0 0))
  | .sel st d a b => some (.w32 (mkR 0 st (fb d) (fb a) (fb b) 17 0 0))
  | .clz st d a => some (.w32 (mkR 0 st (fb d) (fb a) 0 18 0 0))
  | .ctz st d a => some (.w32 (mkR 0 st (fb d) (fb a) 0 19 0 0))
  | .popc st d a => some (.w32 (mkR 0 st (fb d) (fb a) 0 20 0 0))
  | .sextB st d a => some (.w32 (mkR 0 st (fb d) (fb a) 0 21 0 0))
  | .sextH st d a => some (.w32 (mkR 0 st (fb d) (fb a) 0 21 1 0))
  | .sextW st d a => some (.w32 (mkR 0 st (fb d) (fb a) 0 21 2 0))
  | .bfx st d a b => some (.w32 (mkR 0 st (fb d) (fb a) (fb b) 22 0 0))
  | .bfxS st d a b => some (.w32 (mkR 0 st (fb d) (fb a) (fb b) 22 1 0))
  | .bfi st d a b => some (.w32 (mkR 0 st (fb d) (fb a) (fb b) 23 0 0))
  | .padd st d a b => some (.w32 (mkR 0 st (fb d) (fb a) (fb b) 24 0 0))
  | .ptagx st d a => some (.w32 (mkR 0 st (fb d) (fb a) 0 25 0 0))
  | .ptags st d a b => some (.w32 (mkR 0 st (fb d) (fb a) (fb b) 26 0 0))
  | .addi st d a imm => some (.w32 (mkI 1 st (fb d) (fb a) 0 imm))
  | .andi st d a imm => some (.w32 (mkI 1 st (fb d) (fb a) 1 imm))
  | .ori st d a imm => some (.w32 (mkI 1 st (fb d) (fb a) 2 imm))
  | .xori st d a imm => some (.w32 (mkI 1 st (fb d) (fb a) 3 imm))
  | .shli st d a imm => some (.w32 (mkI 1 st (fb d) (fb a) 4 (imm.setWidth 11)))
  | .shri st d a imm => some (.w32 (mkI 1 st (fb d) (fb a) 5 (imm.setWidth 11)))
  | .srai st d a imm => some (.w32 (mkI 1 st (fb d) (fb a) 6 (imm.setWidth 11)))
  | .slti st d a imm => some (.w32 (mkI 1 st (fb d) (fb a) 7 imm))
  | .sltiu st d a imm => some (.w32 (mkI 1 st (fb d) (fb a) 8 imm))
  | .paddi st d a imm => some (.w32 (mkI 1 st (fb d) (fb a) 9 imm))
  | .ptagi st d a imm => some (.w32 (mkI 1 st (fb d) (fb a) 10 (imm.setWidth 11)))
  | .lui st d imm => some (.w32 (mkU 2 st (fb d) imm))
  | .addpc st d imm => some (.w32 (mkU 3 st (fb d) imm))
  | .mul st d a b => some (.w32 (mkR 4 st (fb d) (fb a) (fb b) 0 0 0))
  | .mulh st d a b => some (.w32 (mkR 4 st (fb d) (fb a) (fb b) 1 0 0))
  | .mulhu st d a b => some (.w32 (mkR 4 st (fb d) (fb a) (fb b) 2 0 0))
  | .div st d a b => some (.w32 (mkR 4 st (fb d) (fb a) (fb b) 3 0 0))
  | .divu st d a b => some (.w32 (mkR 4 st (fb d) (fb a) (fb b) 4 0 0))
  | .rem st d a b => some (.w32 (mkR 4 st (fb d) (fb a) (fb b) 5 0 0))
  | .remu st d a b => some (.w32 (mkR 4 st (fb d) (fb a) (fb b) 6 0 0))
  | .beq st a b off => some (.w32 (mkB 5 st (fb a) (fb b) 0 off))
  | .bne st a b off => some (.w32 (mkB 5 st (fb a) (fb b) 1 off))
  | .blt st a b off => some (.w32 (mkB 5 st (fb a) (fb b) 2 off))
  | .bge st a b off => some (.w32 (mkB 5 st (fb a) (fb b) 3 off))
  | .bltu st a b off => some (.w32 (mkB 5 st (fb a) (fb b) 4 off))
  | .bgeu st a b off => some (.w32 (mkB 5 st (fb a) (fb b) 5 off))
  | .jal st d off => some (.w32 (mkU 6 st (fb d) off))
  | .jalr st d a imm => some (.w32 (mkI 7 st (fb d) (fb a) 0 imm))
  | .jr st a imm => some (.w32 (mkI 7 st 0 (fb a) 1 imm))
  | .ldb st d a off => some (.w32 (mkI 8 st (fb d) (fb a) 0 off))
  | .ldh st d a off => some (.w32 (mkI 8 st (fb d) (fb a) 1 off))
  | .ldw st d a off => some (.w32 (mkI 8 st (fb d) (fb a) 2 off))
  | .ldd st d a off => some (.w32 (mkI 8 st (fb d) (fb a) 3 off))
  | .ldbu st d a off => some (.w32 (mkI 8 st (fb d) (fb a) 4 off))
  | .ldhu st d a off => some (.w32 (mkI 8 st (fb d) (fb a) 5 off))
  | .ldwu st d a off => some (.w32 (mkI 8 st (fb d) (fb a) 6 off))
  | .ldp st d a off => some (.w32 (mkI 8 st (fb d) (fb a) 7 off))
  | .stb st d a off => some (.w32 (mkI 9 st (fb d) (fb a) 0 off))
  | .sth st d a off => some (.w32 (mkI 9 st (fb d) (fb a) 1 off))
  | .stw st d a off => some (.w32 (mkI 9 st (fb d) (fb a) 2 off))
  | .std st d a off => some (.w32 (mkI 9 st (fb d) (fb a) 3 off))
  | .stp st d a off => some (.w32 (mkI 9 st (fb d) (fb a) 7 off))
  | .bopen st a off => some (.w32 (mkI 10 st 0 (fb a) 0 off))
  | .bcommit st a off => some (.w32 (mkI 10 st 0 (fb a) 1 off))
  | .bclr st d a off => some (.w32 (mkI 10 st (fb d) (fb a) 2 off))
  | .bwait st a off => some (.w32 (mkI 10 st 0 (fb a) 3 off))
  | .bstat st d a off => some (.w32 (mkI 10 st (fb d) (fb a) 4 off))
  | .barm st d a off => some (.w32 (mkI 10 st (fb d) (fb a) 5 off))
  | .bpois st a off => some (.w32 (mkI 10 st 0 (fb a) 6 off))
  | .bfill st d a off => some (.w32 (mkI 10 st (fb d) (fb a) 7 off))
  | .cld st ord disp d a => some (.w32 (mkR 11 st (fb d) (fb a) 0 0 disp ord.code))
  | .cst st ord disp a b => some (.w32 (mkR 11 st 0 (fb a) (fb b) 1 disp ord.code))
  | .cadd st ord disp d a b => some (.w32 (mkR 11 st (fb d) (fb a) (fb b) 2 disp ord.code))
  | .cmin st ord disp d a b => some (.w32 (mkR 11 st (fb d) (fb a) (fb b) 3 disp ord.code))
  | .cmax st ord disp d a b => some (.w32 (mkR 11 st (fb d) (fb a) (fb b) 4 disp ord.code))
  | .cminu st ord disp d a b => some (.w32 (mkR 11 st (fb d) (fb a) (fb b) 5 disp ord.code))
  | .cmaxu st ord disp d a b => some (.w32 (mkR 11 st (fb d) (fb a) (fb b) 6 disp ord.code))
  | .cand st ord disp d a b => some (.w32 (mkR 11 st (fb d) (fb a) (fb b) 7 disp ord.code))
  | .cor st ord disp d a b => some (.w32 (mkR 11 st (fb d) (fb a) (fb b) 8 disp ord.code))
  | .cxor st ord disp d a b => some (.w32 (mkR 11 st (fb d) (fb a) (fb b) 9 disp ord.code))
  | .cxchg st ord disp d a b => some (.w32 (mkR 11 st (fb d) (fb a) (fb b) 10 disp ord.code))
  | .ccas st ord disp d a b => some (.w32 (mkR 11 st (fb d) (fb a) (fb b) 11 disp ord.code))
  | .cdecf st ord disp d a => some (.w32 (mkR 11 st (fb d) (fb a) 0 12 disp ord.code))
  | .fence st kind scope a => some (.w32 (mkI 12 st 0 (fb a) 0 (0#6 ++ scope.code ++ kind.code)))
  | .tbar st => some (.w32 (mkI 12 st 0 0 1 0))
  | .sync st => some (.w32 (mkI 12 st 0 0 2 0))
  | .yield st => some (.w32 (mkI 12 st 0 0 3 0))
  | .tend st => some (.w32 (mkI 12 st 0 0 4 0))
  | .spawn st d a imm => some (.w32 (mkI 12 st (fb d) (fb a) 5 imm))
  | .phase st d => some (.w32 (mkI 12 st (fb d) 0 6 0))
  | .await st d a imm => some (.w32 (mkI 12 st (fb d) (fb a) 7 imm))
  | .abinit st d a imm => some (.w32 (mkI 12 st (fb d) (fb a) 8 imm))
  | .eli st d pos imm => some (.w32 (mkI 13 st (fb d) (fb pos) 0 imm))
  | .emov st d a => some (.w32 (mkI 13 st (fb d) (fb a) 1 0))
  | .emovg st d a => some (.w32 (mkI 13 st (fb d) (fb a) 2 0))
  | .vadd st ty rm d a b k z => some (.w32 (mkV 14 st (fb d) (fb a) (fb b) (fb k) z 0 ty.code rm.code))
  | .vsub st ty rm d a b k z => some (.w32 (mkV 14 st (fb d) (fb a) (fb b) (fb k) z 1 ty.code rm.code))
  | .vmul st ty rm d a b k z => some (.w32 (mkV 14 st (fb d) (fb a) (fb b) (fb k) z 2 ty.code rm.code))
  | .vfma st ty rm d a b k z => some (.w32 (mkV 14 st (fb d) (fb a) (fb b) (fb k) z 3 ty.code rm.code))
  | .vfms st ty rm d a b k z => some (.w32 (mkV 14 st (fb d) (fb a) (fb b) (fb k) z 4 ty.code rm.code))
  | .vfnma st ty rm d a b k z => some (.w32 (mkV 14 st (fb d) (fb a) (fb b) (fb k) z 5 ty.code rm.code))
  | .vmin st ty rm d a b k z => some (.w32 (mkV 14 st (fb d) (fb a) (fb b) (fb k) z 6 ty.code rm.code))
  | .vmax st ty rm d a b k z => some (.w32 (mkV 14 st (fb d) (fb a) (fb b) (fb k) z 7 ty.code rm.code))
  | .vabs st ty rm d a k z => some (.w32 (mkV 14 st (fb d) (fb a) 0 (fb k) z 8 ty.code rm.code))
  | .vneg st ty rm d a k z => some (.w32 (mkV 14 st (fb d) (fb a) 0 (fb k) z 9 ty.code rm.code))
  | .vand st ty rm d a b k z => some (.w32 (mkV 14 st (fb d) (fb a) (fb b) (fb k) z 10 ty.code rm.code))
  | .vor st ty rm d a b k z => some (.w32 (mkV 14 st (fb d) (fb a) (fb b) (fb k) z 11 ty.code rm.code))
  | .vxor st ty rm d a b k z => some (.w32 (mkV 14 st (fb d) (fb a) (fb b) (fb k) z 12 ty.code rm.code))
  | .vshl st ty d a b k z => some (.w32 (mkV 14 st (fb d) (fb a) (fb b) (fb k) z 13 ty.code 0))
  | .vshr st ty d a b k z => some (.w32 (mkV 14 st (fb d) (fb a) (fb b) (fb k) z 14 ty.code 0))
  | .vsra st ty d a b k z => some (.w32 (mkV 14 st (fb d) (fb a) (fb b) (fb k) z 15 ty.code 0))
  | .vadds st ty d a b k z => some (.w32 (mkV 14 st (fb d) (fb a) (fb b) (fb k) z 16 ty.code 0))
  | .vsubs st ty d a b k z => some (.w32 (mkV 14 st (fb d) (fb a) (fb b) (fb k) z 17 ty.code 0))
  | .vdot st ty rm d a b k z => some (.w32 (mkV 14 st (fb d) (fb a) (fb b) (fb k) z 18 ty.code rm.code))
  | .vbcast st ty rm d a k z => some (.w32 (mkV 14 st (fb d) (fb a) 0 (fb k) z 19 ty.code rm.code))
  | .vext st ty rm d a b => some (.w32 (mkV 14 st (fb d) (fb a) (fb b) 0 false 20 ty.code rm.code))
  | .vins st ty rm d a b => some (.w32 (mkV 14 st (fb d) (fb a) (fb b) 0 false 21 ty.code rm.code))
  | .vmov st ty rm d a k z => some (.w32 (mkV 14 st (fb d) (fb a) 0 (fb k) z 22 ty.code rm.code))
  | .vrcp st ty rm d a k z => some (.w32 (mkV 15 st (fb d) (fb a) 0 (fb k) z 0 ty.code rm.code))
  | .vrsq st ty rm d a k z => some (.w32 (mkV 15 st (fb d) (fb a) 0 (fb k) z 1 ty.code rm.code))
  | .vsqrt st ty rm d a k z => some (.w32 (mkV 15 st (fb d) (fb a) 0 (fb k) z 2 ty.code rm.code))
  | .vexp2 st ty rm d a k z => some (.w32 (mkV 15 st (fb d) (fb a) 0 (fb k) z 3 ty.code rm.code))
  | .vlog2 st ty rm d a k z => some (.w32 (mkV 15 st (fb d) (fb a) 0 (fb k) z 4 ty.code rm.code))
  | .vdiv st ty rm d a b k z => some (.w32 (mkV 15 st (fb d) (fb a) (fb b) (fb k) z 5 ty.code rm.code))
  | .vcmpeq st ty d a b k z => some (.w32 (mkV 15 st (fb d) (fb a) (fb b) (fb k) z 6 ty.code 0))
  | .vcmpne st ty d a b k z => some (.w32 (mkV 15 st (fb d) (fb a) (fb b) (fb k) z 7 ty.code 0))
  | .vcmplt st ty d a b k z => some (.w32 (mkV 15 st (fb d) (fb a) (fb b) (fb k) z 8 ty.code 0))
  | .vcmple st ty d a b k z => some (.w32 (mkV 15 st (fb d) (fb a) (fb b) (fb k) z 9 ty.code 0))
  | .vsel st ty d a b k => some (.w32 (mkV 15 st (fb d) (fb a) (fb b) (fb k) false 10 ty.code 0))
  | .vclass st ty d a k z => some (.w32 (mkV 15 st (fb d) (fb a) 0 (fb k) z 11 ty.code 0))
  | .vcvt st dst src rm d a part z => some (.w32 (mkV 16 st (fb d) (fb a) src.code (fb part) z 0 dst.code rm.code))
  | .vqdx st rm d a b => some (.w32 (mkV 16 st (fb d) (fb a) (fb b) 0 false 1 2 rm.code))
  | .vdq st d a b => some (.w32 (mkV 16 st (fb d) (fb a) (fb b) 0 false 2 2 0))
  | .vqmx st rm d a b => some (.w32 (mkV 16 st (fb d) (fb a) (fb b) 0 false 3 2 rm.code))
  | .vpack st rm d a => some (.w32 (mkV 16 st (fb d) (fb a) 0 0 false 4 2 rm.code))
  | .vunpk st d a => some (.w32 (mkV 16 st (fb d) (fb a) 0 0 false 5 2 0))
  | .vperm st ty d a b k z => some (.w32 (mkV 17 st (fb d) (fb a) (fb b) (fb k) z 0 ty.code 0))
  | .vrot st ty d a b k z => some (.w32 (mkV 17 st (fb d) (fb a) (fb b) (fb k) z 1 ty.code 0))
  | .vred st ty op rm d a k z => some (.w32 (mkV 17 st (fb d) (fb a) op.code (fb k) z 2 ty.code rm.code))
  | .vscan st ty op rm d a k z => some (.w32 (mkV 17 st (fb d) (fb a) op.code (fb k) z 3 ty.code rm.code))
  | .vcompr st ty d a k z => some (.w32 (mkV 17 st (fb d) (fb a) 0 (fb k) z 4 ty.code 0))
  | .viota st d k z => some (.w32 (mkV 17 st (fb d) 0 0 (fb k) z 5 0 0))
  | .vld st v a off => some (.w32 (mkI 18 st (fb v) (fb a) 0 off))
  | .vst st v a off => some (.w32 (mkI 18 st (fb v) (fb a) 1 off))
  | .vlds st v a off => some (.w32 (mkI 18 st (fb v) (fb a) 2 off))
  | .vsts st v a off => some (.w32 (mkI 18 st (fb v) (fb a) 3 off))
  | .vgath st v a off => some (.w32 (mkI 18 st (fb v) (fb a) 4 off))
  | .vscat st v a off => some (.w32 (mkI 18 st (fb v) (fb a) 5 off))
  | .kand st d a b => some (.w32 (mkR 19 st (fb d) (fb a) (fb b) 0 0 0))
  | .kor st d a b => some (.w32 (mkR 19 st (fb d) (fb a) (fb b) 1 0 0))
  | .kxor st d a b => some (.w32 (mkR 19 st (fb d) (fb a) (fb b) 2 0 0))
  | .knot st d a => some (.w32 (mkR 19 st (fb d) (fb a) 0 3 0 0))
  | .kpop st d a => some (.w32 (mkR 19 st (fb d) (fb a) 0 4 0 0))
  | .kmov st d a => some (.w32 (mkR 19 st (fb d) (fb a) 0 5 0 0))
  | .kmovG st d a => some (.w32 (mkR 19 st (fb d) (fb a) 0 5 1 0))
  | .mzero st n => some (.w32 (mkE 20 st 0 0 (fb n) false 0 0))
  | .mld st n a => some (.w32 (mkE 20 st (fb a) 0 (fb n) false 1 0))
  | .mst st n a => some (.w32 (mkE 20 st (fb a) 0 (fb n) false 2 0))
  | .mma st n a b z => some (.w32 (mkE 20 st (fb a) (fb b) (fb n) z 3 0))
  | .mmat st n a b z => some (.w32 (mkE 20 st (fb a) (fb b) (fb n) z 4 0))
  | .mmas st n a b z => some (.w32 (mkE 20 st (fb a) (fb b) (fb n) z 5 0))
  | .macc st n src => some (.w32 (mkE 20 st (fb src) 0 (fb n) false 6 0))
  | .mwait st n => some (.w32 (mkE 20 st 0 0 (fb n) false 7 0))
  | .mwaitAll st => some (.w32 (mkE 20 st 0 0 0 true 7 0))
  | .mstat st d n clr => some (.w32 (mkE 20 st (fb d) 0 (fb n) clr 8 0))
  | .xsend st a b => some (.w32 (mkE 21 st (fb a) (fb b) 0 false 0 0))
  | .xmcast st a b => some (.w32 (mkE 21 st (fb a) (fb b) 0 false 1 0))
  | .xget st ord a b => some (.w32 (mkE 21 st (fb a) (fb b) 0 false 2 ord.code))
  | .xput st ord a b => some (.w32 (mkE 21 st (fb a) (fb b) 0 false 3 ord.code))
  | .xfeed st ord a b => some (.w32 (mkE 21 st (fb a) (fb b) 0 false 4 ord.code))
  | .xcomb st op ord a b => some (.w32 (mkE 21 st (fb a) (fb b) op.sub op.fl 5 ord.code))
  | .xroute st a b => some (.w32 (mkE 21 st (fb a) (fb b) 0 false 6 0))
  | .xclose st => some (.w32 (mkE 21 st 0 0 0 false 7 0))
  | .xrecv st a => some (.w32 (mkE 21 st (fb a) 0 0 false 8 0))
  | .xrecvRoute st a => some (.w32 (mkE 21 st (fb a) 0 0 true 8 0))
  | .xend st => some (.w32 (mkE 22 st 0 0 0 false 0 0))
  | .xwait st a => some (.w32 (mkE 22 st (fb a) 0 0 false 1 0))
  | .xwaitRecv st a => some (.w32 (mkE 22 st (fb a) 0 0 true 1 0))
  | .pitch st ord b => some (.w32 (mkE 23 st 0 (fb b) 0 false 0 ord.code))
  | .pitchq st ord a b => some (.w32 (mkE 23 st (fb a) (fb b) 0 false 1 ord.code))
  | .mfc st d cw => some (.w32 (mkI 24 st (fb d) 0 0 cw))
  | .mtc st cw a => some (.w32 (mkI 24 st 0 (fb a) 1 cw))
  | .rdcyc st d => some (.w32 (mkI 24 st (fb d) 0 2 0))
  | .rdret st d => some (.w32 (mkI 24 st (fb d) 0 3 0))
  | .jlog st d a w ret => some (.w32 (mkI 24 st (fb d) (fb a) 4 ((0#8 ++ BitVec.ofBool ret ++ ((fb w) : BitVec 2) : BitVec 11))))
  | .ptst st d a => some (.w32 (mkI 24 st (fb d) (fb a) 5 0))
  | .ptstV st d a => some (.w32 (mkI 24 st (fb d) (fb a) 5 1))
  | .ptstAcc st d a => some (.w32 (mkI 24 st (fb d) (fb a) 5 2))
  | .tagget st d a imm => some (.w32 (mkI 24 st (fb d) (fb a) 6 imm))
  | .tagset st d a imm => some (.w32 (mkI 24 st (fb d) (fb a) 7 imm))
  | .idle st d a => some (.w32 (mkI 24 st (fb d) (fb a) 8 0))
  | .hnote st d a code => some (.w32 (mkI 24 st (fb d) (fb a) 9 code))
  | .trap st a code => some (.w32 (mkI 25 st 0 (fb a) 0 code))
  | .eret st => some (.w32 (mkI 25 st 0 0 1 0))
  | .eretEnd st => some (.w32 (mkI 25 st 0 0 1 1))
  | .brk st code => some (.w32 (mkI 25 st 0 0 2 code))
  | .cIll d a f2 => some (.w16 ⟨0, d, a, f2⟩)
  | .cAdd st d a => some (.w16 ⟨1, (fb d), (fb a), (fb st)⟩)
  | .cSub st d a => some (.w16 ⟨2, (fb d), (fb a), (fb st)⟩)
  | .cMov st d a => some (.w16 ⟨3, (fb d), (fb a), (fb st)⟩)
  | .cAnd st d a => some (.w16 ⟨4, (fb d), (fb a), (fb st)⟩)
  | .cOr st d a => some (.w16 ⟨5, (fb d), (fb a), (fb st)⟩)
  | .cXor st d a => some (.w16 ⟨6, (fb d), (fb a), (fb st)⟩)
  | .cAddi d imm => some (.w16 ⟨7, (fb d), imm.extractLsb' 2 4, imm.extractLsb' 0 2⟩)
  | .cShli d imm => some (.w16 ⟨8, (fb d), imm.extractLsb' 2 4, imm.extractLsb' 0 2⟩)
  | .cShri d imm => some (.w16 ⟨9, (fb d), imm.extractLsb' 2 4, imm.extractLsb' 0 2⟩)
  | .cLdd d imm => some (.w16 ⟨10, (fb d), imm.extractLsb' 2 4, imm.extractLsb' 0 2⟩)
  | .cStd d imm => some (.w16 ⟨11, (fb d), imm.extractLsb' 2 4, imm.extractLsb' 0 2⟩)
  | .cBeqz d imm => some (.w16 ⟨12, (fb d), imm.extractLsb' 2 4, imm.extractLsb' 0 2⟩)
  | .cBnez d imm => some (.w16 ⟨13, (fb d), imm.extractLsb' 2 4, imm.extractLsb' 0 2⟩)
  | .cJ off => some (.w16 ⟨14, off.extractLsb' 6 4, off.extractLsb' 2 4, off.extractLsb' 0 2⟩)
  | .cRet => some (.w16 ⟨15, 0, 0, 0⟩)
  | _ => none

/-- The little-endian bytes of an encoded instruction (R3). -/
def Enc.bytes : Enc → List Byte
  | .w32 r => bytesOfNat 4 r.toBits.toNat
  | .w16 r => bytesOfNat 2 r.toBits.toNat

end Sys2Proof
end

