-- ==== Sys2Proof/Config.lean ====
section
/-! DEFINITION. What an implementation fixes and the free values: opaque constants, of which nothing can be proved.
A free delay is applied to the counter of State, so each use has a value of its own (log 3). -/

namespace Sys2Proof

/-- A delay that the manual leaves open, in cycles (log 3): R244 (how long a store waits), R254 (when a transfer
arrives), R20 (when an engine's read starts). -/
opaque Config.freeDelay : Nat → Nat

/-- The same delays in a domain under deterministic mode, by a count or a number that is the same on every run and, for the
stores, the same on tiles that do the same (R69, R260, R365; log 75). -/
opaque Config.detDelay : Nat → Nat

/-- A value that the manual leaves open (log 3): the scale record of a VQDX or VQMX whose vD and vB are one register
and whose record lies within the element plane (R165, log 19). -/
opaque Config.freeWord : Nat → Word

/-- Such a value in a domain under deterministic mode, by phase, rank, context and retired count, which are the same on every
run (R69; log 75). -/
opaque Config.detWord : Nat → Nat → Nat → Nat → Word

/-- TVAL of a BOUNDS trap of the tile's exchange state, by cycle, domain and rank: at most one instruction issues in a
tile in a cycle, so each trap has a value of its own (R201, R214 to R216, R266; log 23). -/
opaque Config.freeTval : Nat → Nat → Nat → Word

/-- CRC-32 over a list of bytes: the manual names no polynomial (R334, R336; log 8). -/
opaque Config.crc32 : List Byte → BitVec 32

/-- CRC-64 over a list of bytes: the manual names no polynomial (R336; log 8). -/
opaque Config.crc64 : List Byte → BitVec 64

/-- Which primitive polynomial of degree 8 gives the field of the two Reed–Solomon codes of a link flit: the manual names none
(R334; log 8). -/
opaque Config.rsField : Nat

/-- The exponent of the first of the four roots in a row of their generator: the manual names none (R334; log 8). -/
opaque Config.rsRoot : Nat

/-- The beats that each virtual channel of a port may send after training beyond those of one block packet: the manual gives
credits no initial amount (R337; log 8). -/
opaque Config.linkCredits : Nat → Nat

/-- The ML-DSA-87 signature by the identity key in the fuses, which is the part's secret (R352; log 9): its 4,627 bytes. -/
opaque Config.mlDsa87 : List Byte → Vector Byte 4627

/-- The identity public key, 2,592 bytes (R352; log 9). -/
opaque Config.identityKey : Vector Byte 2592

/-- The serial number in the fuses (R379; log 9). -/
opaque Config.serial : BitVec 128

/-- The image of the mask ROM (R343; log 9). -/
opaque Config.romImage : List Byte

/-- The fuse configuration, spare-column map included (R352, R370; log 9). -/
opaque Config.fuses : List Byte

/-- The bank of a pseudo-channel in which a block lies, which the manual leaves to HBM4 (R316, R328; log 3). -/
opaque Config.bankOf : Nat → Nat

/-- The hash of SPKG, XID and BLK that picks a Darzan port (R340; log 8). -/
opaque Config.portHash : Nat → Nat → Nat → Nat

/-- The tile-clock level below 16, from 8 on, that the temperature controllers select when a die or a stack is too hot (R375,
R376; log 3). -/
opaque Config.throttleLevel : Nat → Nat

/-- The bank that a controller refreshes, by the number of the refresh: HBM4's order, which the manual does not give (R328; log 3).
-/
opaque Config.refreshBank : Nat → Nat → Nat

/-- How long that refresh takes, in units of the time base (R328, R372; log 3). -/
opaque Config.refreshTime : Nat → Nat → Nat

/-- Whether a granule of HBM with three or more wrong symbols is miscorrected, and if so the symbol that the decoder changes and
by what: the code's generator is not given (R317; log 38). -/
opaque Config.miscorrect : Nat → List (Nat × BitVec 16) → Option (Nat × BitVec 16)

/-- Half the interval between two refreshes of a controller, in units of the time base: HBM4's, which the manual does not give
(R328; log 3). -/
opaque Config.refreshHalf : Nat

/-- Which of a die's agent-port routers an agent attaches to (R330; log 17). -/
opaque Config.agentSlot : Nat → Nat

/-- The number of the waiter-pool entry that a request takes among the free entries of its partition (R300; log 3). -/
opaque Config.poolPick : Nat → Nat

/-- A byte of another package's HBM, by package and physical address, as Kiln reads it at a launch (R45, R283; log 3). -/
opaque Config.remoteByte : Nat → Nat → Byte

/-- The status with which a discarded packet is answered RESEND: the manual gives the name and no code (R338; log 8). -/
opaque Config.resendCode : Nat

end Sys2Proof
end

