-- ==== Sys2Proof/Machine/Map.lean ====
section
/-! DEFINITION. The two sparse containers of the model as plain data: a map from numbers (upsert and read) and a
byte memory in one canonical form (addresses strictly rising, no entry that equals the default byte 0). -/

namespace Sys2Proof.Machine

/-- A sparse map keyed by numbers. -/
abbrev AMap (α : Type) := List (Nat × α)

/-- The entry of key k. -/
def AMap.find {α : Type} : AMap α → Nat → Option α
  | [], _ => none
  | (k', v) :: t, k => if k = k' then some v else AMap.find t k

/-- The entry of key k, or the default d. -/
def AMap.getD {α : Type} (m : AMap α) (k : Nat) (d : α) : α := (m.find k).getD d

/-- The map with key k holding v; a sorted map stays sorted. -/
def AMap.set {α : Type} : AMap α → Nat → α → AMap α
  | [], k, v => [(k, v)]
  | (k', v') :: t, k, v =>
    if k = k' then (k, v) :: t
    else if k < k' then (k, v) :: (k', v') :: t
    else (k', v') :: AMap.set t k v

/-- The map without key k. -/
def AMap.erase {α : Type} (m : AMap α) (k : Nat) : AMap α := m.filter fun p => p.1 != k

/-- The keys in order. -/
def AMap.keys {α : Type} (m : AMap α) : List Nat := m.map Prod.fst

/-- The values in key order. -/
def AMap.vals {α : Type} (m : AMap α) : List α := m.map Prod.snd

/-- A byte memory: the bytes that differ from 0, by rising address. -/
abbrev Mem := List Host.Cell

/-- The byte at an address: 0 where none is listed (for tile SRAM and HBM the launch and bring-up contents, R46,
R319; log 6 for the rest). -/
def Mem.read (m : Mem) (a : Nat) : Byte := AMap.getD m a 0

/-- The memory with one byte written; a byte of 0 removes the entry. -/
def Mem.write (m : Mem) (a : Nat) (b : Byte) : Mem :=
  if b = 0 then AMap.erase m a else AMap.set m a b

/-- Addresses strictly rising above lo and no entry of 0. -/
def Mem.wfFrom : Nat → Mem → Bool
  | _, [] => true
  | lo, (a, b) :: t => decide (lo ≤ a) && b != 0 && Mem.wfFrom (a + 1) t

/-- The canonical form. -/
def Mem.wf (m : Mem) : Bool := Mem.wfFrom 0 m

/-- n bytes from address a, lowest first. -/
def Mem.readBytes (m : Mem) : Nat → Nat → List Byte
  | _, 0 => []
  | a, n + 1 => m.read a :: Mem.readBytes m (a + 1) n

/-- Bytes written from address a upward. -/
def Mem.writeBytes (m : Mem) : Nat → List Byte → Mem
  | _, [] => m
  | a, b :: t => Mem.writeBytes (m.write a b) (a + 1) t

/-- A list of (address, byte) writes, in order. -/
def Mem.writeCells (m : Mem) : List Host.Cell → Mem
  | [] => m
  | (a, b) :: t => Mem.writeCells (m.write a b) t

/-- The number that bytes hold, lowest byte first (R3). -/
def natOfBytes : List Byte → Nat
  | [] => 0
  | b :: t => b.toNat + 256 * natOfBytes t

/-- The n low bytes of a number, lowest first (R3). -/
def natBytes : Nat → Nat → List Byte
  | 0, _ => []
  | n + 1, w => BitVec.ofNat 8 w :: natBytes n (w / 256)

/-- The doubleword at an address (R3). -/
def Mem.read64 (m : Mem) (a : Nat) : Word := BitVec.ofNat 64 (natOfBytes (m.readBytes a 8))

/-- A doubleword written at an address (R3). -/
def Mem.write64 (m : Mem) (a : Nat) (w : Word) : Mem := m.writeBytes a (natBytes 8 w.toNat)

/-- The listed bytes of [a, a + n), at addresses counted from 0. -/
def Mem.slice (m : Mem) (a n : Nat) : Mem :=
  (m.filter fun p => decide (a ≤ p.1) && decide (p.1 < a + n)).map fun p => (p.1 - a, p.2)

/-- The memory without the listed bytes of [a, a + n): the range reads as 0. -/
def Mem.clear (m : Mem) (a n : Nat) : Mem :=
  m.filter fun p => !(decide (a ≤ p.1) && decide (p.1 < a + n))

/-- The range [a, a + n) replaced by the n bytes of a slice. -/
def Mem.paste (m : Mem) (a n : Nat) (sl : Mem) : Mem :=
  (m.clear a n).writeCells ((sl.filter fun p => decide (p.1 < n)).map fun p => (p.1 + a, p.2))

/-- A bit of a bit vector set to a value. -/
def setBit {w : Nat} (x : BitVec w) (i : Nat) (b : Bool) : BitVec w :=
  if b then x ||| BitVec.twoPow w i else x &&& ~~~ BitVec.twoPow w i

/-- A sorted list of numbers with x added. -/
def insNat (x : Nat) : List Nat → List Nat
  | [] => [x]
  | y :: t => if x = y then y :: t else if x < y then x :: y :: t else y :: insNat x t

/-- A list of numbers without x. -/
def delNat (x : Nat) (l : List Nat) : List Nat := l.filter fun y => y != x

end Sys2Proof.Machine
end

