-- ==== Sys2Proof/Machine/State.lean ====
section
/-! DEFINITION. The state of one package as plain data: every piece of state that the manual names (R12 to R38,
R41 to R44, R176, R233, R275, R284 to R297, R315 to R329, R331 to R349, R368 to R377), with the model's own fields
(the inputs still to come, the acting context, the free-value counter), and State.reset. -/

namespace Sys2Proof.Machine

/-- TSTAT.RUN (R32). -/
inductive Run where
  | free | ready | parked | sync | await | idle | trapped
  deriving DecidableEq, Repr

/-- One register write of an issued instruction, with its poison (R27, R80). -/
inductive RegWrite where
  | g (n : GReg) (val : Word) (pois : Bool)
  | v (n : VReg) (val : VWord) (pois : KWord)
  | k (n : KReg) (val : KWord)
  | e (n : EReg) (val : Word)
  deriving DecidableEq, Repr

/-- The name of a register, as a producer and a reader name it (R80, R266). -/
inductive RegId where
  | g (n : GReg) | v (n : VReg) | k (n : KReg) | e (n : EReg)
  deriving DecidableEq, Repr

/-- A result that has not landed (R80 to R83): the registers and flags it writes, the cycle it lands (none while an
interlocked result is not known), whether its latency is fixed, and its producer. -/
structure Pend where
  dests : List RegId
  writes : List RegWrite
  land : Option Nat
  fixed : Bool
  seq : Nat
  flags : BitVec 5
  pc : BitVec 20
  major : Nat
  deriving DecidableEq, Repr

/-- A trap as it will be loaded (R262, R265, R266). -/
structure TrapInfo where
  cause : Nat
  form : Nat
  tval : Word
  tval2 : Word
  ctx : Nat
  async : Bool
  xended : Bool
  tepc : BitVec 20
  raisedAt : Nat
  deriving DecidableEq, Repr

/-- The part of a context that a squash takes back (R85) and a thread start sets (R29). -/
structure Thread where
  g : Vector Word 16
  gp : BitVec 16
  v : Vector VWord 8
  vp : Vector KWord 8
  k : Vector KWord 4
  e : Vector Word 8
  pc : BitVec 20
  flags : BitVec 5
  rmode : BitVec 3
  seed : BitVec 32
  retired : BitVec 64
  pend : List Pend
  seq : Nat
  skips : Nat
  specUntil : Nat
  specTrap : Option TrapInfo
  deriving DecidableEq, Repr

/-- A mispredicted branch that has not resolved: the thread of the right path, the cycle of the resolution (R85,
R119), and whether an instruction of the wrong path has issued. -/
structure Wrong where
  right : Thread
  resolveAt : Nat
  issued : Bool
  deriving DecidableEq, Repr

/-- One store-buffer entry (R124), or one granule write of a vector store (R171). -/
structure SbEntry where
  age : Nat
  readyAt : Nat
  addr : Nat
  len : Nat
  data : List Host.Cell
  pois : Bool
  abinit : Bool
  vec : Bool
  deriving DecidableEq, Repr

/-- What holds a context between its instruction's issue and its completion (R117, R131, R137, R142, R155, R166,
R171, R222, R238, R240); pieces counts the 128 bytes that a BFILL has written. -/
inductive Busy where
  | none
  | fill (block : Nat) (done : Nat) (fillWord : Word) (pieces : Nat)
  | event
  | drain
  | tbar (go : Bool)
  | pitch (req : Nat)
  | pitchDone (status : Nat) (word : Word)
  | idleDone (reason : Nat)
  deriving DecidableEq, Repr

/-- A context in IDLE (R239): the cycle of its issue, its count, the opportunities passed under deterministic mode,
and the reasons seen in the cycle of reasonAt. -/
structure Idle where
  start : Nat
  count : Nat
  passed : Nat
  reason : Nat
  wake : Bool
  deriving DecidableEq, Repr

/-- One of the 18 contexts of a tile (R12, R27, R32). -/
structure Ctx where
  th : Thread
  run : Run
  wblk : Nat
  group : BitVec 16
  sb : List SbEntry
  busy : Busy
  wrong : Option Wrong
  last : Nat
  notBefore : Nat
  spent : Nat
  barrier : Option Nat
  woken : Bool
  idle : Option Idle
  yieldFor : List Nat
  voteWait : Option Nat
  deriving DecidableEq, Repr

/-- STATE of a block (R18). -/
inductive Presence where
  | empty | deferred | full
  deriving DecidableEq, Repr

/-- The stored part of a block's metadata word (R18); POIS, PVALID, PHEAD and LWAIT are read off the granules, the
pool and the contexts. -/
structure Block where
  state : Presence
  owner : Nat
  armed : Bool
  gen : BitVec 6
  deriving DecidableEq, Repr

/-- Who issued a transfer: the attribution of R270 and R336. -/
structure Attr where
  pkg : Nat
  dom : Nat
  rank : Nat
  ctx : Nat
  pcoff : Nat
  major : Nat
  f6 : Nat
  blk : Nat
  inc : Nat
  res : Nat
  target : Word
  deriving DecidableEq, Repr

/-- What a message carries (R336; the in-package kinds of R206, R214, R215 beside them). -/
inductive MsgKind where
  | put | get | reply | combine | invoke | answer | retryAfter | unit | close
  deriving DecidableEq, Repr

/-- A place that a message leaves or reaches (R330). -/
inductive Node where
  | tile (dom rank : Nat)
  | hbm (ctl : Nat)
  | slice (n : Nat)
  | darzan (port : Nat)
  | cxl (port : Nat)
  | pcie
  | unit (dom : Nat)
  | kiln (die : Nat)
  deriving DecidableEq, Repr

/-- A message between agents. A block travels as 16 flits (R331); data is the 2,048 bytes, counted from 0; orig is the
request's kind where a retry-after brings a request back (R302); va is set while the address waits for its translation
(R287); fly lists the ejected flits by the cycle in which each lands (R333). -/
structure Msg where
  kind : MsgKind
  orig : MsgKind
  attr : Attr
  src : Node
  dst : Node
  req : Nat
  slot : Nat
  dpkg : Nat
  xid : Nat
  tag : BitVec 6
  addr : Nat
  va : Option Nat
  data : Mem
  pois : BitVec 32
  args : List Word
  ord : Nat
  status : Nat
  flits : Nat
  injected : Nat
  fly : List (Nat × Nat)
  landed : BitVec 16
  readyAt : Nat
  waitUntil : Option Nat
  counted : Bool
  deriving DecidableEq, Repr

/-- A flit in the Glide network (R331): the message and flit index it carries, the router that it has reached, its
destination (AGT: the agent port), its source router, and AGE. -/
structure Flit where
  msg : Nat
  idx : Nat
  x : Nat
  y : Nat
  dx : Nat
  dy : Nat
  agt : Bool
  sx : Nat
  sy : Nat
  age : Nat
  deriving DecidableEq, Repr

/-- What a waiter-pool entry waits to do (R300). -/
inductive PoolKind where
  | localRead (req : Nat) (blk : Nat)
  | feedCommit (req : Nat) (blk : Nat)
  | remoteRead (msg : Msg)
  | heldArrival (msg : Msg)
  deriving DecidableEq, Repr

/-- A waiter-pool entry in list order; block none waits for the declaration of the inbox (R216, R300). -/
structure PoolEntry where
  idx : Nat
  block : Option Nat
  kind : PoolKind
  wokenAt : Option Nat
  deriving DecidableEq, Repr

/-- How far one block of a transfer has come. -/
inductive Prog where
  | todo | sent | landed | done
  | refused (cause : Nat)
  | stalled
  deriving DecidableEq, Repr

/-- An outstanding command of the exchange engine, the feed engine, the fabric or PITCH (R202): its kind by major and F6,
its sampled operands and its progress by block (by target and block for XMCAST, by rank for XCLOSE); uncounted are the
committed blocks of a feed that its barrier has not counted yet (R150), counted the stalled blocks that their page has counted
(R294). -/
structure Cmd where
  ctx : Nat
  pcoff : Nat
  major : Nat
  f6 : Nat
  ord : Nat
  a : Word
  b : Word
  nblk : Nat
  targets : List Nat
  next : Nat
  prog : List Prog
  journal : Option Nat
  bar : Option Nat
  args : List Word
  paging : List Nat
  commitAt : Nat
  uncounted : Nat
  counted : List Nat
  deriving DecidableEq, Repr

/-- A CELL-major operation's function (R136), or another cell-port event (R138, R166, R238). -/
inductive CellFn where
  | ld | st | add | min | max | minu | maxu | and | or | xor | xchg | cas
  | decf (trigger : Word)
  | tagset
  | list (records : List Word) (ocap : Nat) (writes : List RegWrite) (seedAfter : BitVec 32) (flags : BitVec 5)
  deriving DecidableEq, Repr

/-- An operation waiting for the cell port (R137); age is the tile's count of store-buffer entries when it issued. -/
structure CellOp where
  ctx : Nat
  seq : Nat
  age : Nat
  fn : CellFn
  ptr : Word
  addr : Nat
  opnd : Word
  expect : Word
  ord : Ord
  dest : GReg
  stall : Stall
  deriving DecidableEq, Repr

/-- An accumulator (R33, R189). -/
structure Acc where
  elems : AMap (BitVec 32)
  pois : BitVec 64
  xflags : BitVec 5
  deriving DecidableEq, Repr

/-- An accepted matrix command with its sampled operands and its cycles (R176, R188, R193, R194); pieces counts the 128 bytes
that an MST has written, 16 to a block; result is what a compute command writes at its done cycle. -/
structure MxCmd where
  seq : Nat
  ctx : Nat
  f6 : Nat
  n : Nat
  src : Nat
  pair : Bool
  z : Bool
  cfg : Word
  pa : Word
  pb : Word
  sa : Word
  sb : Word
  seed : BitVec 32
  rmode : BitVec 3
  start : Nat
  last : Nat
  done : Nat
  started : Bool
  pieces : Nat
  result : List Acc
  deriving DecidableEq, Repr

/-- What follows a block read by an engine: nothing (the matrix engine), the sends of a command's next block (R204), or
the reply to a read (R208). -/
inductive ReadJob where
  | none
  | send (req : Nat)
  | reply (msg : Msg)
  deriving DecidableEq, Repr

/-- A block read in progress by an engine: the blocks, and the last cycle of the read (R20, R186); ctx is the context
whose stores it holds, none for the exchange and feed engines. -/
structure EngRead where
  blocks : List Nat
  last : Nat
  ctx : Option Nat
  job : ReadJob
  deriving DecidableEq, Repr

/-- A journal entry (R233). -/
structure JEntry where
  refused : Bool
  cause : Nat
  fblk : Nat
  nblk : Nat
  seq : Nat
  dest : Word
  src : Word
  deriving DecidableEq, Repr

/-- A thread start that waits for a free slot (R54). -/
structure PendStart where
  entry : BitVec 20
  args : List Word
  group : BitVec 16
  deriving DecidableEq, Repr

/-- The declared inbox of a routed exchange (R216): the units taken, and the lowest slot that no unit has been offered. -/
structure Inbox where
  base : Nat
  nblk : Nat
  dir : Nat
  order : Bool
  taken : Nat
  next : Nat
  deriving DecidableEq, Repr

/-- A shared resource of the tile (R117, R155): when it is free, who took it and when. -/
structure Res where
  freeAt : Nat
  ctx : Nat
  takenAt : Nat
  deriving DecidableEq, Repr

/-- The carving of a tile's SRAM (R13), in bytes. -/
structure Carve where
  frameBase : Nat
  frameSize : Nat
  cellBase : Nat
  blockBase : Nat
  deriving DecidableEq, Repr

/-- A tile (R12 to R38, R176, R233, R275, R298 to R301). -/
structure Tile where
  x : Nat
  y : Nat
  carve : Carve
  ctxs : Vector Ctx 18
  sram : Mem
  tags : AMap (BitVec 6)
  pois : List Nat
  failing : List Nat
  bars : List Nat
  blocks : AMap Block
  pool : List PoolEntry
  accs : Vector Acc 4
  mx : List MxCmd
  mxSeq : Nat
  mxComputeFree : Nat
  mxMoveFree : Nat
  reads : List EngRead
  readReqs : List (Nat × Nat)
  cellQ : List CellOp
  cellFree : Nat
  storePort : Nat
  poolPort : AMap Nat
  poolFreed : List PoolEntry
  staleDue : List (Nat × Nat × Nat)
  divider : Res
  tree : Res
  quantiser : Res
  gather : Res
  tcause : Word
  tepc : Word
  tval : Word
  tval2 : Word
  tbase : Word
  tscratch : Word
  stallchk : Bool
  traps : List TrapInfo
  serving : Option TrapInfo
  svFree : Nat
  journal : AMap JEntry
  xputSeq : Nat
  refusals : List Nat
  rotation : Nat
  issuedAt : Nat
  starts : List PendStart
  age : Nat
  xended : Bool
  recvs : List Nat
  xrefused : Nat
  routes : AMap Nat
  closed : Bool
  inbox : Option Inbox
  inboxUsed : Bool
  closes : AMap Nat
  units : Nat
  routedAt : Option Nat
  routedDone : Bool
  cmds : AMap Cmd
  voteUp : Bool
  window : Bool
  voteFly : List (Nat × Bool)
  voteSeen : Bool
  deriving DecidableEq, Repr

/-- What a domain is doing (R41, R47, R49, R264, R272, R274); the time at which a save, a restore or a move may end is in units
of the time base (R372). -/
inductive DomStatus where
  | running
  | atHost (node : Nat)
  | ended
  | halted (reason : Nat)
  | saving (doneAt : Nat)
  | saved
  | restoring (doneAt : Nat)
  | migrating (doneAt : Nat)
  | releasing (doneAt : Nat) (seq : Nat)
  | pending
  deriving DecidableEq, Repr

/-- A node record (R48). -/
structure GNode where
  kind : Nat
  mode : Nat
  routed : Bool
  entry : Nat
  nthreads : Nat
  next : Nat
  alt : Nat
  ccell : Nat
  crank : Nat
  arg : Word
  lap : Nat
  deriving DecidableEq, Repr

/-- A queued invocation (R220, R225): the recorded handler entry, the arguments and the ranks that still start a
copy; inRing marks an entry of the overflow ring, which is held here and takes no bytes of HBM (log 107). -/
structure Invoc where
  hidx : Nat
  prio : Nat
  entry : Nat
  all : Bool
  ranks : List Nat
  args : List Word
  spkg : Nat
  sdom : Nat
  srank : Nat
  issue : Nat
  order : Nat
  inRing : Bool
  deriving DecidableEq, Repr

/-- The fields of a launch record that the device keeps (R44). -/
structure Launch where
  det : Bool
  pclass : Nat
  codeSize : Nat
  frameSize : Nat
  cellSize : Nat
  tbase : Nat
  image : Nat
  graph : Nat
  root : Nat
  lapc : Nat
  lapx : Nat
  ranktab : Nat
  handtab : Nat
  nhand : Nat
  fring : Nat
  arrlog : Nat
  nnode : Nat
  levels : List Nat
  width : Nat
  height : Nat
  deriving DecidableEq, Repr

/-- A domain (R41, R275). bcastAt is the cycle of a phase's start broadcast and startAt that of its arrival (R305);
snapshot: the invocation unit has the snapshot of this start still to take (R308); sliceDue: the time slice has ended, and
the next boundary that ends an odd phase pre-empts the domain (R314); atEnd: no phase has
started since the launch or since the graph reached END (R47, R49); fringWptr,
fringLost and arrWptr are fields of the ring and log headers that only the device writes (R6, R277, R289);
saveArea holds the register images of a saved domain (R3, R274). -/
structure Domain where
  status : DomStatus
  launch : Launch
  x0 : Nat
  y0 : Nat
  tiles : AMap Tile
  phase : BitVec 48
  node : Nat
  inserted : Bool
  routed : Bool
  passes : AMap Nat
  cache : AMap GNode
  lap : Nat
  budget : Nat
  lapStopped : Bool
  bcastAt : Nat
  snapshot : Bool
  startAt : Nat
  phaseStart : Nat
  longest : Nat
  cycles : BitVec 64
  handlers : AMap Word
  lock : Option Nat
  lockEntry : Word
  lockUntil : Nat
  lockSeq : Nat
  queue : List Invoc
  invOrder : Nat
  overflowed : Bool
  fringCap : Nat
  fringWptr : Word
  fringLost : Nat
  arrCap : Nat
  arrWptr : Nat
  saveArea : Mem
  atEnd : Bool
  launchSeq : Nat
  launchPending : Bool
  slice : Nat
  sliceAt : Option Nat
  sliceDue : Bool
  prevLongest : Nat
  placedAt : Nat
  plan : Nat
  moveX : Nat
  moveY : Nat
  digest : BitVec 512
  heldNotices : List (Nat × Bool)
  logged : List Msg
  resv : List (Nat × Nat)
  deriving DecidableEq, Repr

/-- A request for a rectangle that waits (R311): a launch, or the restore of a saved domain. -/
structure Place where
  dom : Nat
  restore : Bool
  pclass : Nat
  exact : Bool
  x0 : Nat
  y0 : Nat
  w : Nat
  h : Nat
  arrival : Nat
  planned : Bool
  deriving DecidableEq, Repr

/-- An event entry of eight doublewords (R348). -/
structure Event where
  kind : Nat
  words : List Word
  deriving DecidableEq, Repr

/-- An extent of CXL capacity (R297): state 0 FREE, 1 ACTIVE, 2 RELEASING; pages are those that have been translated through it
and not invalidated since, and gone says that an INVALIDATE begun since its release request has completed. -/
structure Extent where
  state : Nat
  port : Nat
  base : Nat
  len : Nat
  pages : List Nat
  gone : Bool
  deriving DecidableEq, Repr

/-- An INVALIDATE that has not completed (R292): its SEQ, the extents that were RELEASING when it began and count it (R297), and
the blocks translated through what it dropped (domain, rank, command and block of each). -/
structure Inval where
  seq : Nat
  exts : List Nat
  blocks : List (List Nat)
  deriving DecidableEq, Repr

/-- Kiln (R343 to R352): the BAR0 registers, the command being decoded and whether it came through the direct window, the kept events and its tables; sampleAt is the cycle
from which it samples CMDTAIL (R369). -/
structure Kiln where
  cmdBase : Word
  cmdSize : Word
  cmdTail : Word
  cmdHead : Word
  evBase : Word
  evSize : Word
  evHead : Word
  evTail : Word
  report : Word
  aperture : Word
  ready : Bool
  halted : Bool
  booting : Bool
  direct : List Byte
  directCmd : Option (List Word)
  cur : Option (List Word)
  curDirect : Bool
  kept : List Event
  ovf : Bool
  tableRoot : Nat
  scrubHours : Nat
  idleEntry : Bool
  threshold : Nat
  peers : AMap Nat
  peersDown : List Nat
  portMap : AMap Nat
  extents : AMap Extent
  places : List Place
  invals : List Inval
  announceAt : Nat
  sampleAt : Nat
  msix : Nat
  deriving DecidableEq, Repr

/-- One HBM block's metadata (R318): STATE, TAG, POIS of the 32 granules, and the granules whose TAG an error has made another
one (R317, R325), each with it. -/
structure HBlock where
  state : Presence
  tag : BitVec 6
  pois : BitVec 32
  odd : AMap (BitVec 6)
  deriving DecidableEq, Repr

/-- A put in progress at a controller (R321): the block, the putter and the granules written. -/
structure Fill where
  pa : Nat
  pkg : Nat
  dom : Nat
  got : BitVec 32
  msg : Nat
  deriving DecidableEq, Repr

/-- A read that waits at a controller (R323). -/
structure HWait where
  pa : Nat
  msg : Msg
  wokenAt : Option Nat
  deriving DecidableEq, Repr

/-- A record of the error history (R327). -/
structure ErrRec where
  pch : Nat
  ue : Bool
  src : Nat
  gaddr : Nat
  time : Nat
  repeats : Nat
  deriving DecidableEq, Repr

/-- Who has a request at a controller (R319, R321, R322): a message, an access of the host through BAR2, or a memory-state
command of Kiln's. -/
inductive HReq where
  | msg (id : Nat)
  | host
  | kiln
  deriving DecidableEq, Repr

/-- A memory controller (R315, R321, R323, R326 to R329): fills and waiters; when each block's list is serviced next; the
error history; the scrubber's place and next read, in 2^30 parts of a microsecond; the time of the next refresh, how many there
have been, and the banks being refreshed, each with the time of its end; the channels asleep, and those that wake, each with the
time of its wake; the requests that have reached it and wait, each with its block, in order of arrival; the CLEARs held on
DEFERRED blocks. -/
structure Hctl where
  fills : List Fill
  waits : List HWait
  served : AMap Nat
  ce : AMap Nat
  ue : AMap Nat
  dropw : Nat
  hist : List ErrRec
  scrubPos : Nat
  scrubAt : Nat
  refreshAt : Nat
  refreshes : Nat
  busy : AMap Nat
  sleeping : List Nat
  waking : AMap Nat
  lastUse : AMap Nat
  queue : List (HReq × Nat)
  held : List (Nat × BitVec 6)
  deriving DecidableEq, Repr

/-- A page-table walk in flight, with the transfers merged into it (R287). -/
structure Walk where
  vpn : Nat
  write : Bool
  doneAt : Nat
  msgs : List Msg
  deriving DecidableEq, Repr

/-- A translation as a slice caches it (R285, R287, R293). -/
structure Xlat where
  home : Nat
  wr : Bool
  cnt : Bool
  extid : Nat
  base : Nat
  size : Nat
  pkg : Nat
  inc : Nat
  deriving DecidableEq, Repr

/-- A translation slice (R287, R291, R294). -/
structure Slice where
  cache : AMap Xlat
  counts : AMap Nat
  queued : List Nat
  stalled : List (List Word)
  deriving DecidableEq, Repr

/-- A Darzan port (R334, R335, R337): up or down; the transmitter (the number of the next new flit and of the next one that
goes out, counted from 1, SEQ being the number mod 1,024; the flits kept for a resend; the flits that went out in the last cycle; the
packets that wait for credits, each with its VC; the beats not yet in a flit; the packets that are not acknowledged, each
with the number of beats up to its end; the beats taken in so far and those acknowledged; the NAKs in a row and the flit
they asked for; the beats that each VC may still send), and the receiver (the next flit expected, a NAK or an ACK owed, the
beats of an unfinished packet, the flit with the header of one that fails HCRC and the beats of that flit before it, the beats
of the next flit that have been taken in already, the next flit whose credits are to be counted, the beats of each VC whose credits are not yet returned, the NAKs in a row),
with the failed retrainings and the time at which the one under way began. -/
structure Port where
  up : Bool
  txSeq : Nat
  txNext : Nat
  replay : AMap (List Byte)
  out : List (List Byte)
  waitq : List (Nat × List (List Byte))
  txq : List (List Byte)
  packs : List (Nat × List (List Byte))
  beats : Nat
  ackBeats : Nat
  txNaks : Nat
  txNakAt : Nat
  credits : List Nat
  rxSeq : Nat
  nakOut : Bool
  ackOut : Bool
  rx : List (List Byte)
  rxDoubt : Option (Nat × Nat)
  rxSkip : Nat
  rxCred : Nat
  owed : List Nat
  naks : Nat
  retrains : Nat
  retraining : Bool
  retrainAt : Nat
  deriving DecidableEq, Repr

/-- A forwarding entry of a vacated tile (R281); since is the cycle in which its move began. -/
structure Forward where
  dom : Nat
  rank : Nat
  x : Nat
  y : Nat
  since : Nat
  retireAt : Nat
  deriving DecidableEq, Repr

/-- A request sent to another package that has no ANSWER yet (R338): resent after 1 ms. -/
structure Awaiting where
  xid : Nat
  msg : Msg
  resendAt : Nat
  deriving DecidableEq, Repr

/-- A request from another package, kept for its duplicates (R338): source package, XID, the time in µs at which it is
forgotten (none while it has no answer) and the answer. -/
structure Answered where
  pkg : Nat
  xid : Nat
  dropAt : Option Nat
  answer : Option Msg
  deriving DecidableEq, Repr

/-- The power states of R373. -/
inductive Power where
  | d0 | d3hot | d3cold
  deriving DecidableEq, Repr

/-- What comes from outside the package, or from a unit that the model does not run: the rows of the opcode table that an
input stands for (R297, R319, R335, R339, R342, R345, R348, R368, R373, R375, R377), and those that have no row: the SRAM of
a tile's granule starts or ceases to fail (R38, R130), a stored symbol of an HBM granule goes wrong by so many bits
(R317), the host reads a BAR0 register or the configuration space (R342, R379), a die or a stack has a temperature (R376), a
tile will fail the test of bring-up (R370), a step of bring-up will fail (R369), and the flash ceases to take what is written,
or takes it again (R371). -/
inductive Input where
  | announce (pkg inc : BitVec 16)
  | linkFlit (port : Nat) (bytes : List Byte)
  | portRetrain (port : Nat) (ok : Bool)
  | extentAdded (ext port base len : Nat)
  | extentReleaseRequest (ext : Nat)
  | hostWrite (space : HostSpace) (addr : Nat) (bytes : List Byte)
  | hostRead (space : HostSpace) (addr len : Nat)
  | cmdtail (value : Word)
  | direct (offset : Nat) (bytes : List Byte)
  | evhead (value : Word)
  | bar0RegisterWrite (offset : Nat) (value : Word)
  | coldReset
  | thermalTrip
  | throttleChange (level : Nat)
  | sramError (dom rank gran : Nat) (on : Bool)
  | hbmError (gran sym : Nat) (err : BitVec 16)
  | bar0Read (offset : Nat)
  | configRead (offset len : Nat)
  | temperature (hbm : Bool) (n deg : Nat)
  | tileDefect (die row pos : Nat)
  | bootFailure (step : Nat)
  | flashFault (on : Bool)
  | d3hotEntry
  | d3coldEntry
  | d0Entry
  deriving DecidableEq, Repr

/-- The context that acts: domain, rank and context number. -/
structure Cur where
  dom : Nat
  rank : Nat
  ctx : Nat
  deriving DecidableEq, Repr

/-- The state of the package; hbmFailing holds the wrong symbols of the granules that have any, each with what is wrong in it
(R317); levelAt is the time before which the tile-clock level may not change again (R375); stage is how
far the current cycle has come in the order of R244: 0 before the issue, 1 at it, 2 after it. A defect is a die, a physical
row and a place in it (R370): fuseMap lists those of the fuses, badTiles the tiles that fail the test of bring-up, defects
those that this boot has mapped. bootFault is the step of bring-up that will fail (R369), flashStuck says that the flash takes
no writes (R371), dieTemp and hbmTemp are the temperatures of the dies and the stacks in thousandths of °C (R376). -/
structure State where
  cycle : Nat
  stage : Nat
  level : Nat
  levelAt : Nat
  usAcc : Nat
  us : Nat
  cur : Cur
  bits : BitVec 32
  fetchAddr : Nat
  ilen : Nat
  free : Nat
  fabRetries : Nat
  inputs : List (Nat × Input)
  pkgid : BitVec 16
  incarn : BitVec 16
  flash : BitVec 16
  tripped : Bool
  power : Power
  doms : AMap Domain
  residency : AMap Nat
  vacating : List Forward
  hbmMem : Mem
  hbmBlk : AMap HBlock
  hbmFailing : AMap (AMap (BitVec 16))
  ctls : AMap Hctl
  slices : AMap Slice
  walks : AMap Walk
  notes : List Word
  notesOvf : Bool
  msgs : AMap Msg
  nextMsg : Nat
  nextReq : Nat
  nextXid : Nat
  flits : List Flit
  glideAt : Nat
  starveCnt : AMap Nat
  starve : AMap Nat
  awaiting : List Awaiting
  answered : List Answered
  ports : AMap Port
  drops : Nat
  hostMem : Mem
  hostPois : List Nat
  hostResult : Option (List Byte × Bool)
  fuseMap : List (Nat × Nat × Nat)
  badTiles : List (Nat × Nat × Nat)
  defects : List (Nat × Nat × Nat)
  bootFault : Option Nat
  flashStuck : Bool
  dieTemp : AMap Nat
  hbmTemp : AMap Nat
  cxlMem : Mem
  cxlPois : List Nat
  kiln : Kiln
  deriving DecidableEq, Repr

/-- Why the machine of the model stops. -/
inductive Fault where
  /-- An encoded instruction whose acting context is in no resident tile. The step never acts for such a context,
  so no run from reset meets it. Safe: the model stops where the hardware has no such context. -/
  | noContext
  /-- A step of the hardware at a place where it cannot happen now (no such domain, tile, message or entry). The
  step never chooses one. Safe: the model stops where the hardware does nothing. -/
  | notEnabled
  deriving DecidableEq, Repr

/-- What the model refuses. -/
inductive Refusal where
  /-- An instruction without a meaning in this model. Raised by Dispatch. Safe. -/
  | notModelled (mnemonic : String)
  deriving DecidableEq, Repr

/-- The registers of a context before any thread has started in it: zero, SEED 1 (log 4). -/
def Thread.zero : Thread where
  g := Vector.replicate 16 0
  gp := 0
  v := Vector.replicate 8 0
  vp := Vector.replicate 8 0
  k := Vector.replicate 4 0
  e := Vector.replicate 8 0
  pc := 0
  flags := 0
  rmode := 0
  seed := 1
  retired := 0
  pend := []
  seq := 0
  skips := 0
  specUntil := 0
  specTrap := none

/-- A free context (R32). -/
def Ctx.zero : Ctx where
  th := Thread.zero
  run := .free
  wblk := 0
  group := 0
  sb := []
  busy := .none
  wrong := none
  last := 0
  notBefore := 0
  spent := 0
  barrier := none
  woken := false
  idle := none
  yieldFor := []
  voteWait := none

/-- A block as a launch leaves it (R46): EMPTY, OWNER 31, generation 1. -/
def Block.empty : Block where
  state := .empty
  owner := 31
  armed := false
  gen := 1

/-- An accumulator that holds zero (R33). -/
def Acc.zero : Acc where
  elems := []
  pois := 0
  xflags := 0

/-- A free resource. -/
def Res.idle : Res where
  freeAt := 0
  ctx := 0
  takenAt := 0

/-- A tile of no domain, or as a launch finds it before it carves it (R368; log 4). -/
def Tile.zero : Tile where
  x := 0
  y := 0
  carve := ⟨2048, 1024, 2048 + 18 * 1024, 2048 + 18 * 1024⟩
  ctxs := Vector.replicate 18 Ctx.zero
  sram := []
  tags := []
  pois := []
  failing := []
  bars := []
  blocks := []
  pool := []
  accs := Vector.replicate 4 Acc.zero
  mx := []
  mxSeq := 0
  mxComputeFree := 0
  mxMoveFree := 0
  reads := []
  readReqs := []
  cellQ := []
  cellFree := 0
  storePort := 0
  poolPort := []
  poolFreed := []
  staleDue := []
  divider := Res.idle
  tree := Res.idle
  quantiser := Res.idle
  gather := Res.idle
  tcause := 0
  tepc := 0
  tval := 0
  tval2 := 0
  tbase := 0
  tscratch := 0
  stallchk := false
  traps := []
  serving := none
  svFree := 0
  journal := []
  xputSeq := 0
  refusals := []
  rotation := 0
  issuedAt := 0
  starts := []
  age := 0
  xended := false
  recvs := []
  xrefused := 0
  routes := []
  closed := false
  inbox := none
  inboxUsed := false
  closes := []
  units := 0
  routedAt := none
  routedDone := false
  cmds := []
  voteUp := false
  window := false
  voteFly := []
  voteSeen := false

/-- A launch record of zeros. -/
def Launch.zero : Launch where
  det := false
  pclass := 0
  codeSize := 0
  frameSize := 0
  cellSize := 0
  tbase := 0
  image := 0
  graph := 0
  root := 0
  lapc := 0
  lapx := 0
  ranktab := 0
  handtab := 0
  nhand := 0
  fring := 0
  arrlog := 0
  nnode := 0
  levels := []
  width := 0
  height := 0

/-- A domain before its launch fills it. -/
def Domain.zero : Domain where
  status := .pending
  launch := Launch.zero
  x0 := 0
  y0 := 0
  tiles := []
  phase := 0
  node := 0
  inserted := false
  routed := false
  passes := []
  cache := []
  lap := 0
  budget := 0
  lapStopped := false
  bcastAt := 0
  snapshot := false
  startAt := 0
  phaseStart := 0
  longest := 0
  cycles := 0
  handlers := []
  lock := none
  lockEntry := 0
  lockUntil := 0
  lockSeq := 0
  queue := []
  invOrder := 0
  overflowed := false
  fringCap := 0
  fringWptr := 0
  fringLost := 0
  arrCap := 0
  arrWptr := 0
  saveArea := []
  atEnd := false
  launchSeq := 0
  launchPending := false
  slice := 0
  sliceAt := none
  sliceDue := false
  prevLongest := 0
  placedAt := 0
  plan := 0
  moveX := 0
  moveY := 0
  digest := 0
  heldNotices := []
  logged := []
  resv := []

/-- Kiln after a cold reset, before bring-up (R369): READY 0; the BAR0 registers, the table root of R284 and the threshold of
R294 are 0, a choice of the model's (log 5): with a threshold of 0 no page is queued. -/
def Kiln.reset : Kiln where
  cmdBase := 0
  cmdSize := 0
  cmdTail := 0
  cmdHead := 0
  evBase := 0
  evSize := 0
  evHead := 0
  evTail := 0
  report := 0
  aperture := 0
  ready := false
  halted := false
  booting := true
  direct := []
  directCmd := none
  cur := none
  curDirect := false
  kept := []
  ovf := false
  tableRoot := 0
  scrubHours := 12
  idleEntry := false
  threshold := 0
  peers := []
  peersDown := []
  portMap := []
  extents := []
  places := []
  invals := []
  announceAt := 0
  sampleAt := 0
  msix := 0

/-- The package right after a cold reset (R368): no domain, no tile state, bring-up to come (R369). -/
def State.reset : State where
  cycle := 0
  stage := 0
  level := 16
  levelAt := 0
  usAcc := 0
  us := 0
  cur := ⟨0, 0, 0⟩
  bits := 0
  fetchAddr := 0
  ilen := 4
  free := 0
  fabRetries := 0
  inputs := []
  pkgid := 0
  incarn := 0
  flash := 0
  tripped := false
  power := .d0
  doms := []
  residency := []
  vacating := []
  hbmMem := []
  hbmBlk := []
  hbmFailing := []
  ctls := []
  slices := []
  walks := []
  notes := []
  notesOvf := false
  msgs := []
  nextMsg := 0
  nextReq := 0
  nextXid := 0
  flits := []
  glideAt := 0
  starveCnt := []
  starve := []
  awaiting := []
  answered := []
  ports := []
  drops := 0
  hostMem := []
  hostPois := []
  hostResult := none
  fuseMap := []
  badTiles := []
  defects := []
  bootFault := none
  flashStuck := false
  dieTemp := []
  hbmTemp := []
  cxlMem := []
  cxlPois := []
  kiln := Kiln.reset

end Sys2Proof.Machine
end

