-- ==== Sys2Proof/Machine/Platform.lean ====
section
/-! DEFINITION. The package's shared services: bit fields, lookup of domains and tiles, the page walk (R284 to
R288), the HBM granules and their decoding (R317, R318, R325, R327), memory by home (R283), Kiln's event queue (R348) and the
fault ring (R289 to R291). -/

namespace Sys2Proof.Machine

/-- Bits hi:lo of a doubleword as a number (R2). -/
def fld (w : Word) (hi lo : Nat) : Nat := w.toNat / 2 ^ lo % 2 ^ (hi + 1 - lo)

/-- A Bool as a number. -/
def b2n (b : Bool) : Nat := if b then 1 else 0

/-- A number as a doubleword. -/
def w64 (n : Nat) : Word := BitVec.ofNat 64 n

/-- Element i of a list of doublewords, zero past its end. -/
def wordAt (l : List Word) (i : Nat) : Word := l.getD i 0

/-- A value with the counter advanced: every use of a free value takes a counter of its own (log 3). -/
def State.tick1 (s : State) : State := { s with free := s.free + 1 }

/-- Units of the time base in 1 µs: a cycle at level n is 720,720 / n of them (R372, R375). -/
def usUnits : Nat := 56306250

/-- The time since the start in units of the time base. -/
def State.time (s : State) : Nat := s.us * usUnits + s.usAcc

/-- A domain's tile. -/
def State.tile? (s : State) (d r : Nat) : Option Tile := (s.doms.find d).bind fun dm => dm.tiles.find r

/-- A domain replaced. -/
def State.setDom (s : State) (d : Nat) (dm : Domain) : State := { s with doms := s.doms.set d dm }

/-- A domain changed, where it exists. -/
def State.updDom (s : State) (d : Nat) (f : Domain → Domain) : State :=
  match s.doms.find d with
  | some dm => s.setDom d (f dm)
  | none => s

/-- A tile replaced. -/
def Domain.setTile (dm : Domain) (r : Nat) (t : Tile) : Domain := { dm with tiles := dm.tiles.set r t }

/-- A tile of a domain changed, where it exists. -/
def State.updTile (s : State) (d r : Nat) (f : Tile → Tile) : State :=
  match s.doms.find d with
  | some dm =>
    match dm.tiles.find r with
    | some t => s.setDom d (dm.setTile r (f t))
    | none => s
  | none => s

/-- Every tile of a domain changed. -/
def Domain.mapTiles (dm : Domain) (f : Tile → Tile) : Domain :=
  { dm with tiles := dm.tiles.map fun p => (p.1, f p.2) }

/-- NRANK (R34). -/
def Domain.nrank (dm : Domain) : Nat := dm.launch.width * dm.launch.height

/-- A context of a tile. -/
def Tile.ctx (t : Tile) (i : Nat) : Ctx := t.ctxs.getD i Ctx.zero

/-- A context replaced. -/
def Tile.setCtx (t : Tile) (i : Nat) (c : Ctx) : Tile := { t with ctxs := t.ctxs.setIfInBounds i c }

/-- The numbers of the contexts of a tile. -/
def ctxNums : List Nat := List.range 18

/-- The numbers of the compute slots (R12). -/
def slotNums : List Nat := List.range 16

/-- Every context of a tile changed. -/
def Tile.mapCtxs (t : Tile) (f : Nat → Ctx → Ctx) : Tile :=
  ctxNums.foldl (fun t i => t.setCtx i (f i (t.ctx i))) t

section memory

/-- Where a page lives, with the physical byte address: HBM of this package, HBM of another package, host memory,
CXL memory by port and device address (R283, R285). -/
inductive Home where
  | hbm (pa : Nat)
  | remote (pkg pa : Nat)
  | host (addr : Nat)
  | cxl (port addr : Nat)
  deriving DecidableEq, Repr

/-- The key of a CXL byte in the one CXL memory of the model. -/
def cxlKey (port addr : Nat) : Nat := port * 2 ^ 52 + addr

/-- An extent of CXL capacity; an EXTID never added is FREE (R297). -/
def State.extent (s : State) (x : Nat) : Extent := s.kiln.extents.getD x ⟨0, 0, 0, 0, [], false⟩

/-- The size of a leaf's page at a level (R284). -/
def leafSize (level : Nat) : Nat := if level = 1 then 2 ^ 32 else if level = 2 then 2 ^ 25 else 2 ^ 18

/-- The index of a virtual address at a level (R284). -/
def vaIndex (va level : Nat) : Nat :=
  match level with
  | 0 => va / 2 ^ 42 % 1024
  | 1 => va / 2 ^ 32 % 1024
  | 2 => va / 2 ^ 25 % 128
  | _ => va / 2 ^ 18 % 128

/-- The checks of a leaf that make it MALFORMED, or NO-WRITE, or EXTENT-GONE (R285, R286). -/
def leafCheck (s : State) (e : Word) (level : Nat) (write : Bool) : Except Nat Xlat :=
  let home := fld e 3 2
  let ext := fld e 15 8
  let pfn := fld e 47 18 * 2 ^ 18
  let size := leafSize level
  let pkg := fld e 63 48
  if fld e 7 6 ≠ 0 ∨ fld e 17 16 ≠ 0 ∨ (home ≠ 3 ∧ ext ≠ 0) ∨ (home ≠ 1 ∧ pkg ≠ 0) ∨ pfn % size ≠ 0
      ∨ (home = 1 ∧ pkg = s.pkgid.toNat) ∨ (home = 0 ∧ pfn + size > 2 ^ 39) then .error 0x31
  else if write ∧ fld e 4 4 = 0 then .error 0x32
  else if home = 3 ∧ (s.extent ext).state ≠ 1 then .error 0x33
  else .ok { home, wr := fld e 4 4 = 1, cnt := fld e 5 5 = 1, extid := ext, base := pfn, size, pkg,
             inc := s.kiln.peers.getD pkg 0 }

/-- A granule whose errors are uncorrectable: two symbols or more are wrong (R317). -/
def State.granUe (s : State) (gran : Nat) : Bool := decide (2 ≤ (s.hbmFailing.getD gran []).length)

/-- The walk from a table at a level; levels counts down the levels left (R284, R286). -/
def walkFrom (s : State) (va : Nat) (write : Bool) : Nat → Nat → Except Nat Xlat
  | 0, _ => .error 0x31
  | left + 1, table =>
    let level := 3 - left
    let e := s.hbmMem.read64 (table + 8 * vaIndex va level)
    if s.granUe ((table + 8 * vaIndex va level) / 64) then .error 0x31
    else if fld e 0 0 = 0 then .error 0x30
    else if fld e 1 1 = 1 then
      if level = 0 then .error 0x31 else leafCheck s e level write
    else if level = 3 ∨ fld e 9 2 ≠ 0 ∨ fld e 63 48 ≠ 0 then .error 0x31
    else
      let next := fld e 47 10 * 2 ^ 10
      if level = 0 ∧ next % 8192 ≠ 0 then .error 0x31
      else walkFrom s va write left next

/-- The page walk of a virtual address (R284 to R286): the leaf, or the cause code. -/
def State.walk (s : State) (va : Nat) (write : Bool) : Except Nat Xlat := walkFrom s va write 4 s.kiln.tableRoot

end memory

section controllers

/-- The stack of a physical address (R316). -/
def stackOf (pa : Nat) : Nat := (BitVec.ofNat 3 (pa / 2 ^ 11) ^^^ BitVec.ofNat 3 (pa / 2 ^ 20)).toNat

/-- A controller after bring-up (R319, R326). -/
def Hctl.zero : Hctl :=
  { fills := [], waits := [], served := [], ce := [], ue := [], dropw := 0, hist := [], scrubPos := 0, scrubAt := 0
    refreshAt := 0, refreshes := 0, busy := [], sleeping := [], waking := [], lastUse := [], queue := [], held := [] }

/-- A controller. -/
def State.ctl (s : State) (n : Nat) : Hctl := s.ctls.getD n Hctl.zero

/-- A controller changed. -/
def State.updCtl (s : State) (n : Nat) (f : Hctl → Hctl) : State := { s with ctls := s.ctls.set n (f (s.ctl n)) }

/-- The global pseudo-channel of a physical address (R315, R316). -/
def pchOf (pa : Nat) : Nat := 64 * stackOf pa + pa / 2 ^ 14 % 64

/-- The metadata of an HBM block: EMPTY with TAG 1 after bring-up (R318, R319). -/
def HBlock.zero : HBlock := { state := .empty, tag := 1, pois := 0, odd := [] }

/-- The metadata of the block that holds an address. -/
def State.hblk (s : State) (pa : Nat) : HBlock := s.hbmBlk.getD (pa / 2048) HBlock.zero

/-- The metadata of a block replaced. -/
def State.setHblk (s : State) (pa : Nat) (b : HBlock) : State := { s with hbmBlk := s.hbmBlk.set (pa / 2048) b }

/-- The TAG of a granule: the block's, or what an error has made of it (R317, R325). -/
def HBlock.tagOf (b : HBlock) (g : Nat) : BitVec 6 := b.odd.getD g b.tag

end controllers

section errors

/-- An error recorded (R327): src 0 request, 1 scrubber, 2 walk unit, 3 host. -/
def State.logError (s : State) (gran : Nat) (ue : Bool) (src : Nat) : State :=
  s.updCtl (stackOf (gran * 64)) fun c =>
    let pch := pchOf (gran * 64)
    let c := if ue then { c with ue := c.ue.set pch (min (c.ue.getD pch 0 + 1) 0xFFFF) }
      else { c with ce := c.ce.set pch (min (c.ce.getD pch 0 + 1) 0xFFFFFFFF) }
    let e : ErrRec := ⟨pch, ue, src, gran, s.us % 2 ^ 48, 0⟩
    match c.hist.getLast? with
    | some r =>
      if r.gaddr = gran then { c with hist := c.hist.dropLast ++ [{ r with repeats := min (r.repeats + 1) 0xFFFF }] }
      else { c with hist := (c.hist ++ [e]).drop (c.hist.length + 1 - 32) }
    | none => { c with hist := [e] }

/-- The data of a granule with its wrong symbols as they stand: symbol i of the 32 of data is its bytes 2i and 2i + 1 (R317;
DESIGN CHOICE, log 38). -/
def State.flipData (s : State) (gran : Nat) (errs : AMap (BitVec 16)) : State :=
  { s with hbmMem := errs.foldl (fun m e =>
      if e.1 < 32 then
        let a := 64 * gran + 2 * e.1
        m.writeBytes a (natBytes 2 (BitVec.ofNat 16 (natOfBytes (m.readBytes a 2)) ^^^ e.2).toNat)
      else m) s.hbmMem }

/-- A granule decoded at a read (R317, R325): an error in one symbol is corrected, counted and written back; an uncorrectable one
leaves the granule with the data as read, poisoned, with TAG 0, its block FULL where it is granule 0, and is recorded. -/
def State.decodeGran (s : State) (gran src : Nat) : State × Bool :=
  let errs := s.hbmFailing.getD gran []
  let clean := { s with hbmFailing := s.hbmFailing.erase gran }
  if errs.isEmpty then (s, false)
  else if s.granUe gran then
    let b := s.hblk (gran * 64)
    let g := gran % 32
    let b := { b with pois := setBit b.pois g true, odd := b.odd.set g 0, state := if g = 0 then .full else b.state }
    (((clean.flipData gran errs).setHblk (gran * 64) b).logError gran true src, true)
  else (clean.logError gran false src, false)

end errors

section walks

/-- A request reaches a pseudo-channel (R329): its idle count starts again, and a channel in self-refresh wakes within 400
ns, after a wait that is free. -/
def State.useHbm (s : State) (pa : Nat) : State :=
  let pch := pchOf pa
  let c := s.ctl (stackOf pa)
  if c.sleeping.contains pch then
    s.tick1.updCtl (stackOf pa) fun c =>
      { c with
        sleeping := delNat pch c.sleeping, lastUse := c.lastUse.set pch s.time
        waking := c.waking.set pch (s.time + Config.freeDelay s.free % (2 * usUnits / 5 - 90090)) }
  else s.updCtl (stackOf pa) fun c => { c with lastUse := c.lastUse.set pch s.time }

/-- The granules that a walk reads, up to the entry that ends it (R286, R317). -/
def walkGrans (s : State) (va : Nat) : Nat → Nat → List Nat
  | 0, _ => []
  | left + 1, table =>
    let level := 3 - left
    let a := table + 8 * vaIndex va level
    let e := s.hbmMem.read64 a
    let next := fld e 47 10 * 2 ^ 10
    (a / 64) ::
      (if s.granUe (a / 64) = true ∨ fld e 1 0 ≠ 1 ∨ level = 3 ∨ fld e 9 2 ≠ 0 ∨ fld e 63 48 ≠ 0
          ∨ (level = 0 ∧ next % 8192 ≠ 0) then []
        else walkGrans s va left next)

/-- Granules read by a unit beside the data path: each is decoded, and wakes its channel (R317, R329). -/
def State.readGrans (s : State) (src : Nat) (grans : List Nat) : State :=
  grans.foldl (fun s g => ((s.useHbm (g * 64)).decodeGran g src).1) s

/-- Kiln's walk of a virtual address decodes the entries that it reads (R286, R317), SRC 2. -/
def State.kilnWalk (s : State) (va : Nat) : State := s.readGrans 2 (walkGrans s va 4 s.kiln.tableRoot)

end walks

section access

/-- The home of a virtual address under a translation (R285). -/
def Xlat.home? (s : State) (x : Xlat) (va : Nat) : Home :=
  let a := x.base + va % x.size
  match x.home with
  | 0 => .hbm a
  | 1 => .remote x.pkg a
  | 2 => .host a
  | _ => .cxl (s.extent x.extid).port ((s.extent x.extid).base + a)

/-- What Kiln reads of job virtual memory: the granules of its walks, SRC 2, and of the bytes that lie in HBM, SRC 0 (R317;
log 40). -/
def State.kilnRead (s : State) (va n : Nat) : State :=
  let at_ := (List.range ((va + n + 63) / 64 - va / 64)).map fun i => 64 * (va / 64 + i)
  let here (a : Nat) : List Nat := match s.walk a false with
    | .ok x => (match x.home? s a with | .hbm pa => [pa / 64] | _ => [])
    | .error _ => []
  (at_.foldl State.kilnWalk s).readGrans 0 (at_.flatMap here)

/-- Bytes at a home. -/
def State.homeRead (s : State) (h : Home) (n : Nat) : List Byte :=
  match h with
  | .hbm pa => s.hbmMem.readBytes pa n
  | .remote pkg pa => (List.range n).map fun i => Config.remoteByte pkg (pa + i)
  | .host a => s.hostMem.readBytes a n
  | .cxl p a => s.cxlMem.readBytes (cxlKey p a) n

/-- Bytes written at a home; the block rules of HBM are not applied here (R319: Kiln and the walkers check
neither tags nor presence), and the poison of a granule of host or CXL memory stays as it is: the manual does not say
whether what the device writes takes it away (DESIGN CHOICE, log 90). -/
def State.homeWrite (s : State) (h : Home) (l : List Byte) : State :=
  match h with
  | .hbm pa => { s with hbmMem := s.hbmMem.writeBytes pa l }
  | .remote _ _ => s
  | .host a => { s with hostMem := s.hostMem.writeBytes a l }
  | .cxl p a => { s with cxlMem := s.cxlMem.writeBytes (cxlKey p a) l }

/-- A doubleword of a structure in job virtual memory, as Kiln reads it (R283, R319); zero where it is not mapped. -/
def State.vaRead64 (s : State) (va : Nat) : Word :=
  match s.walk va false with
  | .ok x => w64 (natOfBytes (s.homeRead (x.home? s va) 8))
  | .error _ => 0

/-- A doubleword written to a structure in job virtual memory, as the device rewrites it; nothing where it is not
mapped. -/
def State.vaWrite64 (s : State) (va : Nat) (w : Word) : State :=
  match s.walk va false with
  | .ok x => (s.kilnWalk va).homeWrite (x.home? s va) (natBytes 8 w.toNat)
  | .error _ => s.kilnWalk va

/-- A counter in the low bits of a word of a header; the bits above are reserved and stay as they are (R7, R277, R289). -/
def State.headerCount (s : State) (va bits n : Nat) : State :=
  s.vaWrite64 va ((s.vaRead64 va >>> bits <<< bits) ||| w64 (n % 2 ^ bits))

/-- Consecutive doublewords written to job virtual memory. -/
def State.vaWriteWords (s : State) (va : Nat) : List Word → State
  | [] => s
  | w :: t => State.vaWriteWords (s.vaWrite64 va w) (va + 8) t

/-- Bytes written to job virtual memory. -/
def State.vaWriteBytes (s : State) (va : Nat) : List Byte → State
  | [] => s
  | b :: t =>
    let s' := match s.walk va false with
      | .ok x => (s.kilnWalk va).homeWrite (x.home? s va) [b]
      | .error _ => s.kilnWalk va
    State.vaWriteBytes s' (va + 1) t

/-- Consecutive doublewords of job virtual memory. -/
def State.vaReadWords (s : State) (va : Nat) : Nat → List Word
  | 0 => []
  | n + 1 => s.vaRead64 va :: State.vaReadWords s (va + 8) n

end access

section events

/-- The event queue has room (R348). -/
def Kiln.evRoom (k : Kiln) : Bool := decide ((k.evTail - k.evHead).toNat < k.evSize.toNat)

/-- An entry written at EVTAIL; a queue that passes from empty to non-empty raises MSI-X vector 0 (R348). -/
def State.evWrite (s : State) (e : Event) : State :=
  let k := s.kiln
  let w0 := wordAt e.words 0 ||| (if k.ovf then w64 (2 ^ 14) else 0)
  let at_ := k.evBase.toNat + 64 * (k.evTail.toNat % k.evSize.toNat)
  let bytes := ((w0 :: e.words.drop 1).map fun w => natBytes 8 w.toNat).flatten
  { s with
    hostMem := s.hostMem.writeBytes at_ bytes
    kiln := { k with evTail := k.evTail + 1, ovf := false,
                     msix := if k.evTail = k.evHead then k.msix + 1 else k.msix } }

/-- The kept events written while the queue has room (R348). -/
def State.evFlushFrom (s : State) : List Event → State
  | [] => { s with kiln := { s.kiln with kept := [] } }
  | e :: t =>
    if s.kiln.evRoom then State.evFlushFrom (s.evWrite e) t
    else { s with kiln := { s.kiln with kept := e :: t } }

/-- The kept events written while the queue has room. -/
def State.evFlush (s : State) : State := s.evFlushFrom s.kiln.kept

/-- The event kinds of R348. -/
def evComplete : Nat := 1
/-- STARTED. -/
def evStarted : Nat := 2
/-- NOTE. -/
def evNote : Nat := 3
/-- HOST. -/
def evHost : Nat := 4
/-- STRAGGLER. -/
def evStraggler : Nat := 5
/-- FAULT-RING. -/
def evFaultRing : Nat := 6
/-- PITCH-OVERFLOW. -/
def evPitchOverflow : Nat := 7
/-- PREEMPT-DONE. -/
def evPreempt : Nat := 8
/-- MIGRATE-DONE. -/
def evMigrate : Nat := 9
/-- MACHINE-CHECK. -/
def evMachineCheck : Nat := 10
/-- CAPACITY. -/
def evCapacity : Nat := 11

/-- An event posted by Kiln: written, kept while the queue is full, or dropped (R348). -/
def State.post (s : State) (kind dom seq status detail : Nat) (data : List Word) : State :=
  let phase := match s.doms.find dom with | some d => d.phase.toNat | none => 0
  let w0 := w64 (kind + dom * 2 ^ 8 + seq * 2 ^ 16 + status * 2 ^ 32 + detail * 2 ^ 40)
  let e : Event := ⟨kind, w0 :: w64 phase :: (List.range 6).map (wordAt data)⟩
  if s.kiln.kept.isEmpty && s.kiln.evRoom then s.evWrite e
  else if s.kiln.kept.length ≥ 256 ∧ (kind = evStraggler ∨ kind = evFaultRing ∨ kind = evPitchOverflow) then
    { s with kiln := { s.kiln with ovf := true } }
  else { s with kiln := { s.kiln with kept := s.kiln.kept ++ [e] } }

/-- COMPLETE with a status (R344, R347). -/
def State.complete (s : State) (dom seq status detail : Nat) : State := s.post evComplete dom seq status detail []

/-- MACHINE-CHECK (R264): the domain is halted, the event posted, and COMPLETE posted for the LAUNCH that created
the domain with status HALTED. -/
def State.machineCheck (s : State) (dom reason at_ : Nat) (more : List Word) : State :=
  match s.doms.find dom with
  | none => s
  | some d =>
    let s := s.post evMachineCheck dom 0 0 0 (w64 reason :: w64 at_ :: more)
    let s := if d.launchPending then s.complete dom d.launchSeq 0x04 reason else s
    s.setDom dom { d with status := .halted reason, launchPending := false }

end events

section faultRing

/-- A fault record's eight doublewords but for SEQ (R290). -/
def faultRecord (kind cause : Nat) (stall : Bool) (a : Attr) (agent addr : Nat) : List Word :=
  [w64 (kind + cause * 2 ^ 8 + b2n stall * 2 ^ 16),
   w64 (a.pkg + a.dom * 2 ^ 16 + a.rank * 2 ^ 22 + a.ctx * 2 ^ 34 + a.pcoff * 2 ^ 39),
   a.target,
   w64 (a.blk + agent * 2 ^ 16 + a.f6 * 2 ^ 21 + a.major * 2 ^ 27),
   w64 addr, 0, 0, 0]

/-- A record with SEQ set to WPTR<31:0> at the write (R290). -/
def withSeq (rec : List Word) (wptr : Nat) : List Word :=
  (wordAt rec 0 ||| w64 (wptr % 2 ^ 32 * 2 ^ 32)) :: rec.drop 1

/-- Whether a domain's fault ring is full: the device re-reads RPTR (R289). -/
def State.fringFull (s : State) (d : Domain) : Bool :=
  decide ((d.fringWptr - s.vaRead64 (d.launch.fring + 16)).toNat = d.fringCap)

/-- A record appended to a domain's fault ring that has room; FAULT-RING when the ring was empty (R289, R291). WPTR is the
device's own: what software writes there is not obeyed (R6). -/
def State.fringWrite (s : State) (dom : Nat) (d : Domain) (rec : List Word) : State :=
  let wptr := d.fringWptr
  let rptr := s.vaRead64 (d.launch.fring + 16)
  let s := s.vaWriteWords (d.launch.fring + 64 + 64 * (wptr.toNat % d.fringCap)) (withSeq rec wptr.toNat)
  let s := s.vaWrite64 (d.launch.fring + 8) (wptr + 1)
  let s := s.updDom dom fun d => { d with fringWptr := wptr + 1 }
  if wptr = rptr then s.post evFaultRing dom 0 0 0 [] else s

/-- A record that finds no room and may not wait: dropped, LOST, bits 31:0 of its word and the device's own, increases by 1,
FAULT-RING when LOST becomes 1 (R6, R7, R289, R291). -/
def State.fringLose (s : State) (dom : Nat) (d : Domain) : State :=
  let s := s.headerCount (d.launch.fring + 24) 32 (d.fringLost + 1)
  let s := s.updDom dom fun d => { d with fringLost := (d.fringLost + 1) % 2 ^ 32 }
  if d.fringLost = 0 then s.post evFaultRing dom 0 0 0 [] else s

/-- A record without STALL for a domain of this package (R290, R291). -/
def State.fault (s : State) (dom : Nat) (rec : List Word) : State :=
  match s.doms.find dom with
  | none => s
  | some d =>
    let u := s.kilnWalk (d.launch.fring + 16)
    if s.fringFull d then u.fringLose dom d else u.fringWrite dom d rec

end faultRing

end Sys2Proof.Machine
end

