-- ==== Sys2Proof/Machine/Ops.lean ====
section
/-! DEFINITION. The named operations over a tile's memory, blocks and registers: regions and tags (R13 to R17), blocks
(R18 to R21), the access checks (R39, R40), results that land later (R80 to R83), raising a trap and taking it in SV
(R261 to R267) and returning from it (R242), and the issue of one instruction (R78, R79, R84, R85, R231, R299). -/

namespace Sys2Proof.Machine

section causes
/-- ILLEGAL and the other causes of R266. -/
def cIllegal : Nat := 0x01
/-- PHASE-ILLEGAL. -/
def cPhase : Nat := 0x02
/-- PRIVILEGE. -/
def cPriv : Nat := 0x03
/-- MISALIGN. -/
def cMisalign : Nat := 0x04
/-- BOUNDS. -/
def cBounds : Nat := 0x05
/-- TAG-MISMATCH. -/
def cTag : Nat := 0x06
/-- STALE-GENERATION. -/
def cStale : Nat := 0x07
/-- SECOND-WRITE. -/
def cSecond : Nat := 0x08
/-- NOT-OWNER. -/
def cOwner : Nat := 0x09
/-- POISON. -/
def cPoison : Nat := 0x0A
/-- ACC-BUSY. -/
def cAccBusy : Nat := 0x0B
/-- STALL-SHORT. -/
def cStall : Nat := 0x0C
/-- FRAME-OVERFLOW. -/
def cFrame : Nat := 0x0D
/-- PITCH-REFUSED. -/
def cPitch : Nat := 0x0E
/-- JOURNAL. -/
def cJournal : Nat := 0x0F
/-- SOFTWARE. -/
def cSoftware : Nat := 0x10
/-- BREAK. -/
def cBreak : Nat := 0x11
end causes

section regions

/-- The regions of a tile's SRAM (R13). -/
inductive Region where
  | code | frame | cell | block
  deriving DecidableEq, Repr

/-- Region(o) (R13, R39). -/
def Carve.region (c : Carve) (o : Nat) : Region :=
  if o < c.frameBase then .code
  else if o < c.cellBase then .frame
  else if o < c.blockBase then .cell
  else .block

/-- BlockOf(o) (R39). -/
def Tile.blockOf (t : Tile) (o : Nat) : Nat := (o - t.carve.blockBase) / 2048

/-- The offset of a block's first byte (R13). -/
def Tile.blockAt (t : Tile) (b : Nat) : Nat := t.carve.blockBase + 2048 * b

/-- A block's metadata; a block no event has touched is as launch left it (R46). -/
def Tile.block (t : Tile) (b : Nat) : Block := t.blocks.getD b Block.empty

/-- A block's metadata replaced. -/
def Tile.setBlock (t : Tile) (b : Nat) (m : Block) : Tile := { t with blocks := t.blocks.set b m }

/-- NextTag (R39). -/
def nextTag (t : BitVec 6) : BitVec 6 := if t = 0 ∨ t = 63 then 1 else t + 1

/-- GranTag(o): GEN in the BLOCK region, the stored tag in CELL, 0 elsewhere (R15, R17). -/
def Tile.granTag (t : Tile) (o : Nat) : BitVec 6 :=
  match t.carve.region o with
  | .block => (t.block (t.blockOf o)).gen
  | .cell => t.tags.getD (o / 64) 0
  | _ => 0

/-- GranPois(o): a granule reads as poisoned when its POIS bit is set, or when its SRAM is failing (R38, R130). -/
def Tile.granPois (t : Tile) (o : Nat) : Bool := t.pois.contains (o / 64) || t.failing.contains (o / 64)

/-- A read of granules: one whose SRAM is failing sets its POIS (R38, R130; log 38). -/
def Tile.readFail (t : Tile) (grans : List Nat) : Tile :=
  { t with pois := (grans.filter t.failing.contains).foldl (fun l g => insNat g l) t.pois }

/-- What a POISON trap of a granule leaves of it: the read that found it (R38, R265, R266; log 38). -/
def Tile.trapMark (t : Tile) (x : TrapInfo) : Tile :=
  if x.cause = cPoison ∧ x.form = 1 then t.readFail [fld x.tval 19 0 / 64] else t

/-- POIS set on a granule. -/
def Tile.setPois (t : Tile) (gran : Nat) : Tile := { t with pois := insNat gran t.pois }

/-- POIS set on the granules of a list. -/
def Tile.setPoisAll (t : Tile) (grans : List Nat) : Tile := { t with pois := grans.foldl (fun l g => insNat g l) t.pois }

/-- The 32 granules of a block. -/
def Tile.blockGrans (t : Tile) (b : Nat) : List Nat := (List.range 32).map (t.blockAt b / 64 + ·)

/-- POIS cleared on the granules of a block (R130, R131). -/
def Tile.clearPois (t : Tile) (b : Nat) : Tile :=
  { t with pois := t.pois.filter fun g => !(t.blockGrans b).contains g }

/-- A byte range covers a byte of word 1 of an arrival barrier (R23, R40). -/
def Tile.hitsWord1 (t : Tile) (o size : Nat) : Bool :=
  t.bars.any fun p => decide (p * 16 + 8 < o + size) && decide (o < p * 16 + 16)

/-- InFrame(o, n, i) (R39). -/
def Carve.inFrame (c : Carve) (o n i : Nat) : Bool :=
  decide (c.frameBase + i * c.frameSize ≤ o) && decide (o + n ≤ c.frameBase + (i + 1) * c.frameSize)

/-- LWAIT: a local context is parked on the block (R18). DEDUCED (log 76): under deterministic mode it stays 1 while a woken
context still waits for the start of a compute superstep (R67). -/
def Tile.lwait (t : Tile) (b : Nat) : Bool :=
  ctxNums.any fun i => (t.ctx i).run == .parked && (t.ctx i).wblk == b

/-- The code of STATE (R18). -/
def Presence.code : Presence → Nat
  | .empty => 0
  | .deferred => 1
  | .full => 2

/-- The metadata word that BSTAT returns (R18). -/
def Tile.blockWord (t : Tile) (b : Nat) : Word :=
  let m := t.block b
  let head := t.pool.find? fun p => p.block == some b
  w64 (m.state.code + m.owner * 2 ^ 2 + b2n m.armed * 2 ^ 7 + b2n head.isSome * 2 ^ 8
    + (match head with | some p => p.idx | none => 0) * 2 ^ 9 + b2n (t.lwait b) * 2 ^ 17
    + m.gen.toNat * 2 ^ 18 + b2n ((t.blockGrans b).any t.pois.contains) * 2 ^ 24)

end regions

section waking

/-- A context that becomes ready: while its tile's vote window is open it waits 32 cycles (R21, R304). -/
def Tile.ready (t : Tile) (now i : Nat) : Tile :=
  let c := t.ctx i
  let wait := t.window && decide (i < 16)
  t.setCtx i { c with
    run := .ready, wblk := 0, barrier := none, woken := false
    notBefore := if wait then max c.notBefore (now + 32) else c.notBefore
    voteWait := if wait then some (now + 32) else c.voteWait }

/-- Wake of the local contexts parked on b; under deterministic mode the wake of an armed block waits for the start
of a compute superstep (R21, R67). -/
def Tile.wakeLocals (t : Tile) (now : Nat) (delayed : Bool) (b : Nat) : Tile :=
  ctxNums.foldl (fun t i =>
    let c := t.ctx i
    if c.run == .parked && c.wblk == b then
      if delayed then t.setCtx i { c with woken := true } else t.ready now i
    else t) t

/-- The pool entries of b marked for service; a clear or a commit wakes every kind, an arm only held arrivals (R21,
R300, R301). -/
def Tile.wakePool (t : Tile) (now : Nat) (heldOnly : Bool) (b : Option Nat) : Tile :=
  { t with pool := t.pool.map fun p =>
      if p.block == b && p.wokenAt.isNone
          && (!heldOnly || (match p.kind with | .heldArrival _ => true | _ => false)) then
        { p with wokenAt := some now }
      else p }

/-- Wake(b) (R21). -/
def Tile.wake (t : Tile) (now : Nat) (delayed : Bool) (b : Nat) : Tile :=
  (t.wakeLocals now delayed b).wakePool now false (some b)

/-- The IDLE contexts of the tile see a reason: 1 a remote combine or put on CELL, 2 a Commit; ignored under
deterministic mode (R239). -/
def Tile.idleReason (t : Tile) (det : Bool) (reason : Nat) : Tile :=
  if det then t else t.mapCtxs fun _ c =>
    match c.idle with
    | some d => { c with idle := some { d with reason := max d.reason reason, wake := true } }
    | none => c

/-- Commit(b) (R39): FULL, OWNER 31, ARMED 0, then Wake(b); a declared receive of an armed block has landed (R61). -/
def Tile.commit (t : Tile) (now : Nat) (det : Bool) (b : Nat) : Tile :=
  let m := t.block b
  let t := t.setBlock b { m with state := .full, owner := 31, armed := false }
  let t := if m.armed then { t with recvs := t.recvs.filter fun x => x != b } else t
  (t.wake now (det && m.armed) b).idleReason det 2

/-- Clear(b, t) (R39, R130): the generation becomes t, EMPTY, OWNER 31, POIS cleared, then Wake(b). -/
def Tile.clear (t : Tile) (now : Nat) (b : Nat) (gen : BitVec 6) : Tile :=
  let t := t.setBlock b { state := .empty, owner := 31, armed := false, gen }
  (t.clearPois b).wake now false b

/-- A block armed for an agent (R19). -/
def Tile.arm (t : Tile) (b agent : Nat) : Tile :=
  t.setBlock b { t.block b with state := .deferred, owner := agent, armed := true }

end waking

/-- Why an instruction does not complete at this opportunity: a trap with its FORM, TVAL and TVAL2 (R266), a park
(R39), or a hold at issue (R299). -/
inductive Stop where
  | trap (cause form : Nat) (tval tval2 : Word)
  | park (b : Nat)
  | hold
  deriving DecidableEq, Repr

/-- The environment in which one instruction acts: the package, its domain, tile and context. -/
structure Env where
  s : State
  d : Domain
  t : Tile
  c : Ctx
  deriving DecidableEq, Repr

/-- The environment of the acting context. -/
def State.env? (s : State) : Option Env :=
  match s.doms.find s.cur.dom with
  | none => none
  | some d =>
    match d.tiles.find s.cur.rank with
    | none => none
    | some t => if s.cur.ctx < 18 then some ⟨s, d, t, t.ctx s.cur.ctx⟩ else none

/-- The environment written back. -/
def Env.close (e : Env) : State :=
  e.s.setDom e.s.cur.dom (e.d.setTile e.s.cur.rank (e.t.setCtx e.s.cur.ctx e.c))

/-- The number of the acting context, Me (R12). -/
def Env.me (e : Env) : Nat := e.s.cur.ctx

/-- This cycle. -/
def Env.now (e : Env) : Nat := e.s.cycle

/-- DETCTL.DET (R37). -/
def Env.det (e : Env) : Bool := e.d.launch.det

/-- The thread replaced. -/
def Env.withTh (e : Env) (th : Thread) : Env := { e with c := { e.c with th } }

/-- The context's own entry in the tile, before the tile is read as a whole. -/
def Env.sync (e : Env) : Env := { e with t := e.t.setCtx e.me e.c }

/-- Granules read by the acting context (R38); on a wrong path the read leaves no mark (R85). -/
def Env.readGrans (e : Env) (grans : List Nat) : Env :=
  if e.c.wrong.isSome then e else { e with t := e.t.readFail grans }

/-- The tile changed as a whole; the acting context is read back from it. -/
def Env.onTile (e : Env) (f : Tile → Tile) : Env :=
  let t := f e.sync.t
  { e with t, c := t.ctx e.me }

section registers

/-- gn; g0 reads as zero (R27). -/
def Thread.rg (th : Thread) (n : GReg) : Word := if n = 0 then 0 else th.g.get n

/-- PoisonG(n) (R39). -/
def Thread.pg (th : Thread) (n : GReg) : Bool := n != 0 && th.gp.getLsbD n.val

/-- kn; k0 reads as all ones (R27). -/
def Thread.rk (th : Thread) (n : KReg) : KWord := if n = 0 then 0xFFFFFFFF else th.k.get n

/-- en. -/
def Thread.re (th : Thread) (n : EReg) : Word := th.e.get n

/-- vn. -/
def Thread.rv (th : Thread) (n : VReg) : VWord := th.v.get n

/-- The lane poison flags of vn. -/
def Thread.pv (th : Thread) (n : VReg) : KWord := th.vp.get n

/-- One register write; writes to g0 and k0 are discarded (R27). -/
def Thread.write (th : Thread) : RegWrite → Thread
  | .g n val pois => if n = 0 then th else { th with g := th.g.set n val, gp := setBit th.gp n.val pois }
  | .v n val pois => { th with v := th.v.set n val, vp := th.vp.set n pois }
  | .k n val => if n = 0 then th else { th with k := th.k.set n val }
  | .e n val => { th with e := th.e.set n val }

/-- Register writes in order. -/
def Thread.writes (th : Thread) (l : List RegWrite) : Thread := l.foldl Thread.write th

/-- The register that a write names. -/
def RegWrite.id : RegWrite → RegId
  | .g n _ _ => .g n
  | .v n _ _ => .v n
  | .k n _ => .k n
  | .e n _ => .e n

/-- g0 and k0 are never stale (R81). -/
def RegId.isZero : RegId → Bool
  | .g n => n == 0
  | .k n => n == 0
  | _ => false

/-- REGID of R266 with a lane. -/
def RegId.word (r : RegId) (lane : Nat) : Word :=
  match r with
  | .g n => w64 (0 + n.val * 8)
  | .v n => w64 (1 + n.val * 8 + lane * 128)
  | .k n => w64 (2 + n.val * 8)
  | .e n => w64 (3 + n.val * 8)

/-- The producer of a register issued last among those that have not landed (R81). -/
def newestPend (r : RegId) : List Pend → Option Pend
  | [] => none
  | p :: t =>
    match newestPend r t with
    | some q => if p.dests.contains r && decide (q.seq < p.seq) then some p else some q
    | none => if p.dests.contains r then some p else none

/-- A result issued (R80): the registers it writes and, once known, the values and the landing cycle. -/
def Thread.issueResult (th : Thread) (dests : List RegId) (writes : List RegWrite) (land : Option Nat) (fixed : Bool)
    (flags : BitVec 5) (major : Nat) : Thread :=
  { th with
    pend := th.pend ++ [{ dests := dests.filter fun r => !r.isZero, writes, land, fixed, seq := th.seq, flags,
                          pc := th.pc, major }]
    seq := th.seq + 1 }

/-- A fixed-latency result: it lands L cycles after this one (R80). -/
def Env.fixed (e : Env) (lat : Nat) (writes : List RegWrite) (flags : BitVec 5) (major : Nat) : Env :=
  e.withTh (e.c.th.issueResult (writes.map RegWrite.id) writes (some (e.now + lat)) true flags major)

/-- An interlocked result that lands at a known cycle (R80). -/
def Env.interlocked (e : Env) (lat : Nat) (writes : List RegWrite) (flags : BitVec 5) (major : Nat) : Env :=
  e.withTh (e.c.th.issueResult (writes.map RegWrite.id) writes (some (e.now + lat)) false flags major)

/-- What a landing takes from the other results: an older producer of a register that has landed is discarded (R81). -/
def Pend.superseded (seq : Nat) (dests : List RegId) (p : Pend) : Pend :=
  if p.seq < seq then
    { p with dests := p.dests.filter (fun r => !dests.contains r),
             writes := p.writes.filter (fun w => !dests.contains w.id) }
  else p

/-- The landing of one result (R80, R81, R229): its registers and flags, with older producers of the same registers
discarded. -/
def Thread.land (th : Thread) (p : Pend) : Thread :=
  let th := th.writes p.writes
  { th with
    flags := th.flags ||| p.flags
    pend := (th.pend.filter fun q => q.seq != p.seq).map (Pend.superseded p.seq p.dests) }

/-- The first due result: the least landing cycle, then the oldest producer. -/
def firstDue (now : Nat) : List Pend → Option Pend
  | [] => none
  | p :: t =>
    let due := match p.land with | some l => decide (l ≤ now) | none => false
    match firstDue now t with
    | some q =>
      if due && decide (p.land.getD 0 < q.land.getD 0 ∨ (p.land.getD 0 = q.land.getD 0 ∧ p.seq < q.seq)) then some p
      else some q
    | none => if due then some p else none

/-- An interlocked result whose value and landing cycle have become known; a register that a younger result has taken
from it is not written (R81). -/
def Pend.settle (writes : List RegWrite) (land : Nat) (p : Pend) : Pend :=
  { p with writes := writes.filter fun w => p.dests.contains w.id, land := some land }

/-- An interlocked result of a thread whose value and landing cycle have become known. -/
def Thread.settle (th : Thread) (seq : Nat) (writes : List RegWrite) (land : Nat) : Thread :=
  { th with pend := th.pend.map fun p => if p.seq = seq then p.settle writes land else p }

/-- Every result landed at once: before SV, a re-execution or a save reads it (R83). -/
def Thread.landAll (th : Thread) : Nat → Thread
  | 0 => th
  | n + 1 =>
    match firstDue (2 ^ 64) th.pend with
    | some p => Thread.landAll (th.land p) n
    | none => th

end registers

section checks

/-- A check that traps. -/
def need (ok : Bool) (st : Stop) : Except Stop Unit := if ok then .ok () else .error st

/-- POISON of a g register used as an operand or an address (R28, R266). -/
def needCleanG (e : Env) (n : GReg) : Except Stop Unit :=
  need (!e.c.th.pg n) (.trap cPoison 0 ((RegId.g n).word 0) 0)

/-- Tag(p) (R39). -/
def ptrTag (p : Word) : BitVec 6 := p.extractLsb' 58 6

/-- Space(p) (R39). -/
def ptrSpace (p : Word) : Nat := fld p 57 56

/-- OFFSET of a tile-local or remote-tile pointer (R25). -/
def ptrOff (p : Word) : Nat := fld p 19 0

/-- A pointer with its offset replaced (R123). -/
def withOff (p : Word) (o : Nat) : Word := (p >>> 20 <<< 20) ||| w64 (o % 2 ^ 20)

/-- ACCESS (R267): offset, the granule's tag, lane, the block when the offset lies in BLOCK, operand. -/
def Tile.access (t : Tile) (o lane opnd : Nat) : Word :=
  let blk := t.carve.region o == .block
  let m := t.block (t.blockOf o)
  w64 (o % 2 ^ 20 + (t.granTag o).toNat * 2 ^ 20 + lane * 2 ^ 26
    + (if blk then m.state.code * 2 ^ 32 + m.owner * 2 ^ 34 + t.blockOf o * 2 ^ 39 + 2 ^ 48 else 0) + opnd * 2 ^ 49)

/-- ACCESS where no tile offset is involved: offset 0 (R267). -/
def accessNone (lane opnd : Nat) : Word := w64 (lane * 2 ^ 26 + opnd * 2 ^ 49)

/-- A tile-local pointer as its displacement forms it, whatever its zero fields hold: TVAL of BOUNDS FORM 0 (R123, R266). -/
def formedPtr (p : Word) (d : Int) : Word :=
  if ptrSpace p = 0 then withOff p (((ptrOff p : Int) + d) % 2 ^ 20).toNat else p

/-- The pointer checks of R26: the reserved SPACE, then a SPACE beyond the tile by context, then the zero field;
d is the displacement. -/
def checkPtr (e : Env) (p : Word) (d : Int) (opnd : Nat) : Except Stop Unit := do
  need (ptrSpace p ≠ 3) (.trap cBounds 0 p 0)
  if ptrSpace p ≠ 0 then
    if e.me ≤ 15 then .error (.trap cPhase 1 p (accessNone 0 opnd))
    else .error (.trap cBounds 0 p 0)
  else
    need (fld p 55 20 = 0) (.trap cBounds 0 (formedPtr p d) 0)

/-- The kinds of access of R40; barrier accesses leave out the check of word 1 (R23, R148, R238). -/
inductive AccKind where
  | load | store | fetch | storeBar
  deriving DecidableEq, Repr

/-- A kind that stores. -/
def AccKind.stores : AccKind → Bool
  | .store | .storeBar => true
  | _ => false

/-- The region step of CheckLocal (R14, R23, R24, R40) for one access. -/
def checkRegion (e : Env) (p : Word) (o size : Nat) (base : Nat) (kind : AccKind) (lane opnd : Nat) : Except Stop Unit := do
  let reg := e.t.carve.region o
  if reg = .frame ∧ e.t.carve.inFrame o size e.me = false then
    if base = 13 ∨ base = 14 then .error (.trap cFrame 0 p (e.t.access o lane opnd))
    else .error (.trap cBounds 1 p (e.t.access o lane opnd))
  need (!(kind == .fetch && reg != .code)) (.trap cBounds 4 p (e.t.access o lane 7))
  need (!(kind.stores && reg == .code)) (.trap cBounds 1 p (e.t.access o lane opnd))
  need (!(kind == .store && reg == .cell && e.t.hitsWord1 o size)) (.trap cBounds 1 p (e.t.access o lane opnd))

/-- The tag step of CheckLocal for the granule that holds o (R16, R40). -/
def checkTag (e : Env) (p : Word) (o lane opnd : Nat) : Except Stop Unit :=
  need (e.t.granTag o = ptrTag p)
    (.trap (if e.t.carve.region o = .block then cStale else cTag) 0 p (e.t.access o lane opnd))

/-- The address step: a pointer to the tile's SRAM displaced by d bytes, with its offset in range and aligned (R40,
R123). The result is the pointer as formed and its offset. -/
def checkAddr (e : Env) (p : Word) (d : Int) (size opnd : Nat) : Except Stop (Word × Nat) := do
  checkPtr e p d opnd
  let a : Int := (ptrOff p : Int) + d
  need (0 ≤ a ∧ a ≤ 0xFFFFF) (.trap cBounds 2 p (BitVec.ofInt 64 d))
  let o := a.toNat
  need (o % size = 0) (.trap cMisalign 0 (withOff p o) (e.t.access o 0 opnd))
  return (withOff p o, o)

/-- CheckLocal (R40) of an access of one granule, from the displaced pointer on: the alignment, region and tag steps. -/
def checkLocalP (e : Env) (p : Word) (base : Nat) (d : Int) (size : Nat) (kind : AccKind) (opnd : Nat) :
    Except Stop Nat := do
  let po ← checkAddr e p d size opnd
  checkRegion e po.1 po.2 size base kind 0 opnd
  checkTag e po.1 po.2 0 opnd
  return po.2

/-- CheckLocal (R40) with the base register: POISON on the address first. -/
def checkLocal (e : Env) (a : GReg) (d : Int) (size : Nat) (kind : AccKind) : Except Stop Nat := do
  needCleanG e a
  checkLocalP e (e.c.th.rg a) a.val d size kind 0

/-- BlockAccess(o, LOAD) (R40). -/
def blockLoad (e : Env) (o : Nat) : Except Stop Unit :=
  let b := e.t.blockOf o
  let m := e.t.block b
  if m.state = .full ∨ (m.state = .deferred ∧ m.owner = e.me) then .ok () else .error (.park b)

/-- BlockAccess(o, STORE) (R40): an owner stores to its own DEFERRED block. -/
def blockStore (e : Env) (p : Word) (o lane : Nat) : Except Stop Unit := do
  let m := e.t.block (e.t.blockOf o)
  need (m.state ≠ .full) (.trap cSecond 0 p (e.t.access o lane 0))
  need (!(m.state == .empty || m.owner != e.me)) (.trap cOwner 0 p (e.t.access o lane 0))

/-- BlockTarget(A, d, checktag) of R128, for a pointer whose register is not poisoned. -/
def blockTargetP (e : Env) (p : Word) (d : Int) (checktag : Bool) (opnd : Nat) : Except Stop Nat := do
  checkPtr e p (2048 * d) opnd
  let a : Int := (ptrOff p : Int) + 2048 * d
  need (0 ≤ a ∧ a ≤ 0xFFFFF) (.trap cBounds 2 p (BitVec.ofInt 64 (2048 * d)))
  let o := a.toNat
  need (o % 2048 = 0) (.trap cMisalign 0 (withOff p o) (e.t.access o 0 opnd))
  need (e.t.carve.region o = .block) (.trap cBounds 1 (withOff p o) (e.t.access o 0 opnd))
  let b := e.t.blockOf o
  need (!checktag || ptrTag p == (e.t.block b).gen) (.trap cStale 0 (withOff p o) (e.t.access o 0 opnd))
  return b

/-- BlockTarget with the base register (R128). -/
def blockTarget (e : Env) (a : GReg) (d : Int) (checktag : Bool) : Except Stop Nat := do
  needCleanG e a
  blockTargetP e (e.c.th.rg a) d checktag 0

/-- The pointer to the first byte of block b as an instruction formed it, for TVAL (R266). -/
def Tile.blockPtr (t : Tile) (p : Word) (b : Nat) : Word := withOff p (t.blockAt b)

end checks

section buffer

/-- Two byte ranges share a byte. -/
def overlaps (a n b m : Nat) : Bool := decide (a < b + m) && decide (b < a + n)

/-- The context's store-buffer entries that overlap a range (R124). -/
def Ctx.sbHits (c : Ctx) (o n : Nat) : List SbEntry := c.sb.filter fun x => overlaps x.addr x.len o n

/-- The value that the youngest covering entry gives a byte; entries are held oldest first (R124, R245). -/
def forwarded (a : Nat) : List SbEntry → Option Byte
  | [] => none
  | x :: t =>
    match forwarded a t with
    | some b => some b
    | none => AMap.find x.data a

/-- The bytes of a load after forwarding from the store buffer, or none when it is held (R124, R126, R148): an
overlapping entry that leaves a byte uncovered, an ABINIT, or a poisoned frame store in the same granule. -/
def loadBytes (c : Ctx) (t : Tile) (o n : Nat) : Option (List Byte) :=
  let hits := c.sbHits o n
  let poisFrame := c.sb.any fun x => x.pois && t.carve.region o == .frame && decide (x.addr / 64 = o / 64)
  if poisFrame || hits.any (fun x => x.abinit || x.vec) then none
  else if hits.isEmpty then some (t.sram.readBytes o n)
  else
    let bs := (List.range n).map fun i => forwarded (o + i) hits
    if bs.all Option.isSome then some (bs.map fun b => b.getD 0) else none

/-- An operation of the context at the cell port that is not performed and overlaps a range (R137). -/
def Env.cellHits (e : Env) (o n : Nat) : Bool :=
  e.t.cellQ.any fun q => q.ctx == e.me && overlaps q.addr 8 o n

/-- An acquire operation of the context is not performed: no later load, store, CELL or BLOCK instruction issues
(R137). -/
def Env.acquiring (e : Env) : Bool :=
  e.t.cellQ.any fun q => q.ctx == e.me && (q.ord == .acq || q.ord == .ar)

/-- Any CELL operation of the context is not performed (R140). -/
def Env.cellBusy (e : Env) : Bool := e.t.cellQ.any fun q => q.ctx == e.me

/-- An engine read in progress on block b (R20, R186). -/
def Env.beingRead (e : Env) (b : Nat) : Bool := e.t.reads.any fun r => r.blocks.contains b

/-- A matrix read in progress of a block that the issuing context owns holds its store (R186). -/
def Env.readHolds (e : Env) (b : Nat) : Bool :=
  e.t.reads.any fun r => r.ctx.isSome && r.blocks.contains b

/-- A delay that the manual leaves open: a free value, which under deterministic mode depends on nothing but a number that is
the same on every run (R69, R260; log 75). -/
def Domain.wait (d : Domain) (free own : Nat) : Nat :=
  if d.launch.det then Config.detDelay own else Config.freeDelay free

/-- Such a delay of a tile, by the tile's own count: tiles that do the same wait the same (R365; log 75). -/
def Domain.delay (d : Domain) (free : Nat) (t : Tile) : Nat := d.wait free t.age

/-- The delay that is left open at this issue. -/
def Env.delay (e : Env) : Nat := e.d.delay e.s.free e.t

/-- A word that is left open at this issue: a free value, which under deterministic mode depends on nothing but the place of
the instruction in its thread (R69; log 75). -/
def Env.openWord (e : Env) (free : Word) : Word :=
  if e.det then Config.detWord e.d.phase.toNat e.s.cur.rank e.me e.c.th.retired.toNat else free

/-- One store entered in program order (R124); it may be performed from the cycle after it issues, after a free
delay (R244, log 10). -/
def Env.pushStore (e : Env) (addr len : Nat) (data : List Host.Cell) (pois abinit vec : Bool) : Env :=
  let x : SbEntry :=
    { age := e.t.age, readyAt := e.now + 1 + (if vec then 0 else e.delay), addr, len, data, pois,
      abinit, vec }
  { e with s := e.s.tick1, t := { e.t with age := e.t.age + 1 }, c := { e.c with sb := e.c.sb ++ [x] } }

end buffer

section traps

/-- The traps in the order SV takes them: by cycle raised, then by context number (R261). -/
def insTrap (x : TrapInfo) : List TrapInfo → List TrapInfo
  | [] => [x]
  | y :: t =>
    if x.raisedAt < y.raisedAt ∨ (x.raisedAt = y.raisedAt ∧ x.ctx < y.ctx) then x :: y :: t else y :: insTrap x t

/-- TCAUSE (R265). -/
def TrapInfo.word (x : TrapInfo) : Word :=
  w64 (x.cause + x.ctx * 2 ^ 8 + b2n x.async * 2 ^ 13 + b2n x.xended * 2 ^ 14 + x.form * 2 ^ 16)

/-- A context raises a trap (R261): RUN 0b110, its registers, PC and buffer kept; STALL has no effect (R79). A trap of SV
halts the domain with MACHINE-CHECK (R263). -/
def raiseTrap (s : State) (dom rank : Nat) (x : TrapInfo) : State :=
  if x.ctx = 17 then
    (s.updTile dom rank fun t => t.trapMark x).machineCheck dom 1 rank [x.word, w64 x.tepc.toNat, x.tval, x.tval2]
  else
    s.updTile dom rank fun t =>
      let t := t.trapMark x
      let c := t.ctx x.ctx
      { t.setCtx x.ctx { c with
        th := { c.th with skips := 0 }, run := .trapped, busy := .none, wblk := 0, barrier := none, idle := none } with
        traps := insTrap x t.traps }

/-- SV takes the first waiting trap (R262): TCAUSE, TEPC, TVAL and TVAL2 are loaded, its PC becomes TBASE and it is
ready. SV's own registers are kept. -/
def Tile.takeTrap (t : Tile) (x : TrapInfo) (rest : List TrapInfo) : Tile :=
  let sv := t.ctx 17
  let t := t.setCtx 17 { sv with run := .ready, th := { sv.th with pc := t.tbase.setWidth 20 } }
  { t with
    traps := rest, serving := some x
    tcause := x.word, tepc := w64 x.tepc.toNat, tval := x.tval, tval2 := x.tval2 }

/-- SV's service ends: it is free, and takes the next waiting trap in a later cycle (R242, R261). -/
def Tile.svDone (t : Tile) (now : Nat) : Tile :=
  let sv := t.ctx 17
  { t.setCtx 17 { sv with run := .free } with serving := none, svFree := now }

end traps

section issue

/-- Which contexts may issue an instruction (R75). -/
inductive Who where
  | all | slots | notXc | notSv | xcOnly | svOnly
  deriving DecidableEq, Repr

/-- What the issue of an instruction needs to know of it: its length, stall count, the contexts it may issue from
(R75), whether it waits past an unresolved branch (R84), its major and the registers it reads (R81). -/
structure Op where
  len : Nat
  st : Stall
  who : Who
  waits : Bool
  major : Nat
  reads : List RegId
  deriving DecidableEq, Repr

/-- The context kinds of R75. -/
def Who.ok (w : Who) (me : Nat) : Bool :=
  match w with
  | .all => true
  | .slots => decide (me ≤ 15)
  | .notXc => me != 16
  | .notSv => me != 17
  | .xcOnly => me == 16
  | .svOnly => me == 17

/-- What a completed instruction leaves: its environment, and the PC it sets, if it is not the next instruction's. -/
structure Done where
  e : Env
  pc : Option (BitVec 20) := none
  deriving DecidableEq, Repr

/-- An instruction that completes at its issue, is accepted and stays at its PC until an event completes it, or begins a
hold at issue that leaves its mark (R142, R222): the cycle is not used (R299). -/
inductive Res1 where
  | done (x : Done)
  | stay (e : Env)
  | wait (e : Env)
  deriving DecidableEq, Repr

/-- A completed instruction with the next sequential PC. -/
def fin (e : Env) : Except Stop Res1 := .ok (.done { e })

/-- The next sequential PC. -/
def nextPc (e : Env) (op : Op) : BitVec 20 := e.c.th.pc + BitVec.ofNat 20 op.len

/-- The completion of an instruction (R79, R231, R299): the PC, the retired count, the STALL skips, LAST. -/
def complete1 (op : Op) (x : Done) : Env :=
  let e := x.e
  let th := e.c.th
  let pc := match x.pc with | some p => p | none => nextPc e op
  { e with c := { e.c with
      th := { th with pc, retired := th.retired + 1, skips := op.st.val }
      last := e.now, spent := e.now + 1 } }

/-- An opportunity passed over (R299): the cycle goes to the next candidate. -/
def held (e : Env) : Env := { e with c := { e.c with spent := e.now + 1 } }

/-- The trap that an instruction raises (R262, R266). -/
def trapOf (e : Env) (cause form : Nat) (tval tval2 : Word) : TrapInfo :=
  { cause, form, tval, tval2, ctx := e.me, async := false, xended := false, tepc := e.c.th.pc, raisedAt := e.now }

/-- A branch of the thread has not resolved (R84, R119). -/
def Env.speculative (e : Env) : Bool := e.c.wrong.isSome || decide (e.now < e.c.th.specUntil)

/-- A trap at issue: taken at once, or, past an unresolved branch, when the branch resolves (R85). -/
def trapAt (e : Env) (x : TrapInfo) : State :=
  let e := { e with c := { e.c with last := e.now, spent := e.now + 1 } }
  if e.speculative then (e.withTh { e.c.th with specTrap := some x }).close
  else raiseTrap e.close e.s.cur.dom e.s.cur.rank x

/-- Park(b) (R39): no effect, RUN parked, WBLK b; results land before the re-execution (R83). A load that would park
waits past an unresolved branch (R84). -/
def parkAt (e : Env) (b : Nat) : State :=
  if e.speculative then (held e).close
  else
    let lastLand := e.c.th.pend.foldl (fun m p => max m (p.land.getD 0)) 0
    { e with c := { e.c with run := .parked, wblk := b, last := e.now, spent := e.now + 1,
                             notBefore := max e.c.notBefore lastLand } }.close

/-- A register read that an unlanded interlocked producer holds (R80). -/
def readHeld (e : Env) (op : Op) : Bool :=
  op.reads.any fun r => !r.isZero && (match newestPend r e.c.th.pend with | some p => !p.fixed | none => false)

/-- The first register read whose newest producer has fixed latency and has not landed (R82). DESIGN CHOICE (log 77): of
several, the manual says not which one STALL-SHORT names; the first in the order of the Op's reads. -/
def shortRead (e : Env) (op : Op) : Option (RegId × Pend) :=
  op.reads.findSome? fun r =>
    if r.isZero then none
    else match newestPend r e.c.th.pend with
      | some p => if p.fixed then some (r, p) else none
      | none => none

/-- TVAL2 of STALL-SHORT (R266). -/
def shortWord (e : Env) (p : Pend) : Word :=
  w64 (p.pc.toNat + (p.land.getD 0 - e.now) * 2 ^ 20 + p.major * 2 ^ 24)

/-- The bits of the instruction, as TVAL reports them (R266). -/
def Env.bits (e : Env) : Word := e.s.bits.setWidth 64

/-- The checks of R78 after decoding: PRIVILEGE, PHASE-ILLEGAL, STALL-SHORT. -/
def precheck (e : Env) (op : Op) : Except Stop Unit := do
  need (!(op.who == .svOnly && e.me != 17)) (.trap cPriv 0 e.bits 0)
  need (op.who.ok e.me) (.trap cPhase 0 e.bits 0)
  match (if e.t.stallchk then shortRead e op else none) with
  | some (r, p) => .error (.trap cStall 0 (r.word 0) (shortWord e p))
  | none => .ok ()

/-- The instruction is held before its checks: past an unresolved branch (R84), or on an interlocked register (R80). -/
def heldEarly (e : Env) (op : Op) : Bool := (op.waits && e.speculative) || readHeld e op

/-- An instruction that issues on a wrong path is noted there: the branch's STALL skips are then spent (R79, R85). -/
def markWrong (e : Env) : Env :=
  { e with c := { e.c with wrong := e.c.wrong.map fun w => { w with issued := true } } }

/-- One instruction issued in an environment: the checks of R78, then its own effect. -/
def issueIn (e : Env) (op : Op) (body : Env → Except Stop Res1) : State :=
  if heldEarly e op then (held e).close
  else
    match (do precheck e op; body (markWrong e) : Except Stop Res1) with
    | .ok (.done x) => (complete1 op x).close
    | .ok (.stay e') => { e' with c := { e'.c with last := e'.now, spent := e'.now + 1 } }.close
    | .ok (.wait e') => (held e').close
    | .error (.trap cause form tval tval2) => trapAt e (trapOf e cause form tval tval2)
    | .error (.park b) => parkAt e b
    | .error .hold => (held e).close

/-- One instruction issued by the acting context. -/
def issue (s : State) (op : Op) (body : Env → Except Stop Res1) : Host.Outcome State Fault Refusal :=
  match s.env? with
  | none => .fault .noContext
  | some e => .next (issueIn e op body)

/-- A 32-bit instruction's Op. -/
def op32 (st : Stall) (who : Who) (waits : Bool) (major : Nat) (reads : List RegId) : Op :=
  { len := 4, st, who, waits, major, reads }

/-- A compact form's Op (R76). -/
def op16 (st : Stall) (major : Nat) (reads : List RegId) (waits : Bool := false) : Op :=
  { len := 2, st, who := .all, waits, major, reads }

end issue

end Sys2Proof.Machine
end

