-- ==== Sys2Proof/Machine/Operands.lean ====
section
/-! DEFINITION. Operand forms: immediates and displacements (R71, R107, R123), pointer arithmetic (R114), bit fields
(R110), the rectangle operand (R31) and the jump target (R120, R121). -/

namespace Sys2Proof.Machine

/-- sext(IMM11), widened to 64 bits (R111). -/
def simm (imm : BitVec 11) : Word := imm.signExtend 64

/-- The byte displacement of an L-format access: sext(OFF11) times the size (R123). -/
def dispL (off : BitVec 11) (size : Nat) : Int := off.toInt * size

/-- The byte displacement of a CELL instruction: 8 times MOD3 (R123, R135). -/
def dispC (m : BitVec 3) : Int := 8 * m.toNat

/-- The number of leading zero bits of a doubleword (R109). -/
def clz64 (w : Word) : Nat := if w.toNat = 0 then 64 else 63 - w.toNat.log2

/-- The number of trailing zero bits below bit n, counted up from bit i. -/
def ctzFrom (w : Word) : Nat → Nat → Nat
  | _, 0 => 0
  | i, n + 1 => if w.getLsbD i then 0 else 1 + ctzFrom w (i + 1) n

/-- The number of trailing zero bits (R109). -/
def ctz64 (w : Word) : Nat := ctzFrom w 0 64

/-- The number of one bits among the n lowest bits. -/
def popBelow {k : Nat} (w : BitVec k) : Nat → Nat
  | 0 => 0
  | n + 1 => b2n (w.getLsbD n) + popBelow w n

/-- The number of one bits of a bit vector (R109, R175). -/
def popc {k : Nat} (w : BitVec k) : Nat := popBelow w k

/-- The shift amount gB<5:0> (R109). -/
def sh6 (b : Word) : Nat := (b.extractLsb' 0 6).toNat

/-- The position of a field, gB<5:0> (R110). -/
def fieldPos (b : Word) : Nat := fld b 5 0

/-- The width of a field, gB<13:8>, 0 meaning 64 (R110). -/
def fieldWid (b : Word) : Nat := if fld b 13 8 = 0 then 64 else fld b 13 8

/-- BFX (R110): the field, cut at bit 63, zero- or sign-extended. -/
def bfx (a b : Word) (signed : Bool) : Word :=
  let w := min (fieldWid b) (64 - fieldPos b)
  let f := a.toNat / 2 ^ fieldPos b % 2 ^ w
  if signed ∧ f / 2 ^ (w - 1) % 2 = 1 then BitVec.ofInt 64 ((f : Int) - 2 ^ w) else w64 f

/-- BFI (R110): the low bits of gA inserted into gD. -/
def bfi (d a b : Word) : Word :=
  let m := w64 ((2 ^ fieldWid b - 1) * 2 ^ fieldPos b)
  (d &&& ~~~ m) ||| ((a <<< fieldPos b) &&& m)

/-- The highest bit of a pointer's address field (R114). -/
def ptrHigh (p : Word) : Nat := if ptrSpace p = 1 then 51 else 19

/-- The field of a pointer that R25 marks Zero is nonzero, or its SPACE is reserved (R114). -/
def ptrBad (p : Word) : Bool :=
  match ptrSpace p with
  | 0 => fld p 55 20 != 0
  | 1 => fld p 55 52 != 0
  | 2 => fld p 39 38 != 0
  | _ => true

/-- The address of PtrAdd before it is narrowed (R114). -/
def ptrAddr (p : Word) (d : Word) : Int := (fld p (ptrHigh p) 0 : Int) + d.toInt

/-- The pointer with its address field replaced modulo the field (R114). -/
def ptrWith (p : Word) (a : Int) : Word :=
  let h := ptrHigh p + 1
  (p >>> h <<< h) ||| BitVec.ofInt 64 (a % 2 ^ h)

/-- PtrAdd(p, d, pois) (R114, R383). DEDUCED (log 15): where the fields of p are refused no pointer is formed, and TVAL is
p. -/
def ptrAdd (p d : Word) (pois : Bool) : Except Stop Word := do
  let a := ptrAddr p d
  need (pois || !ptrBad p) (.trap cBounds 0 p 0)
  need (pois || (decide (0 ≤ a) && decide (a < 2 ^ (ptrHigh p + 1)))) (.trap cBounds 2 p d)
  return ptrWith p a

/-- A branch or JAL target, PC + 2 × OFF, exact (R71, R118, R120). -/
def branchTarget (pc : BitVec 20) (off : Int) : Int := (pc.toNat : Int) + 2 * off

/-- The target must lie in 0 to 2^20 − 1 (R118, R120, R383). -/
def needTarget (t : Int) : Except Stop (BitVec 20) := do
  need (decide (0 ≤ t) && decide (t < 2 ^ 20)) (.trap cBounds 2 (BitVec.ofInt 64 t) 0)
  return BitVec.ofInt 20 t

/-- The target of JALR, JR and SPAWN (R121, R146, R383). -/
def jumpTarget (e : Env) (a : GReg) (imm : BitVec 11) : Except Stop (BitVec 20) := do
  needCleanG e a
  let t := e.c.th.rg a + simm imm
  need (fld t 63 20 = 0) (.trap cBounds 2 t 0)
  need (fld t 0 0 = 0) (.trap cMisalign 0 t (e.t.access t.toNat 0 0))
  return t.setWidth 20

/-- A link: the address after the instruction as a tile-local pointer with TAG 0 (R107). -/
def linkOf (e : Env) (op : Op) : Word := (nextPc e op).setWidth 64

/-- The ranks of a rectangle operand, or BOUNDS with FORM 3 (R31, R266). -/
def rectRanks (d : Domain) (r : Word) : Except Stop (List Nat) := do
  let x0 := fld r 7 0; let y0 := fld r 15 8; let x1 := fld r 23 16; let y1 := fld r 31 24
  need (fld r 63 32 = 0 ∧ x0 ≤ x1 ∧ y0 ≤ y1 ∧ x1 < d.launch.width ∧ y1 < d.launch.height) (.trap cBounds 3 r 0)
  return (List.range (y1 + 1 - y0)).flatMap fun j =>
    (List.range (x1 + 1 - x0)).map fun i => (y0 + j) * d.launch.width + x0 + i

end Sys2Proof.Machine
end

