-- ==== Sys2Proof/Machine/Alu.lean ====
section
/-! DEFINITION. The ALU, ALU-I, LUI, ADDPC and MULDIV majors (R107 to R117) and their compact aliases (R76). -/

namespace Sys2Proof.Machine

/-- A comparison yields 1 when it holds and 0 otherwise (R109). -/
def bool64 (b : Bool) : Word := if b then 1 else 0

/-- s(a) < s(b) (R109). -/
def sltB (a b : Word) : Bool := decide (a.toInt < b.toInt)

/-- u(a) < u(b) (R109). -/
def ultB (a b : Word) : Bool := decide (a.toNat < b.toNat)

/-- The lesser signed (R109). -/
def minS (a b : Word) : Word := if sltB b a then b else a

/-- The greater signed (R109). -/
def maxS (a b : Word) : Word := if sltB a b then b else a

/-- The lesser unsigned (R109). -/
def minU (a b : Word) : Word := if ultB b a then b else a

/-- The greater unsigned (R109). -/
def maxU (a b : Word) : Word := if ultB a b then b else a

/-- Sign extension from width w (R109). -/
def sextFrom (w : Nat) (a : Word) : Word := (a.setWidth w).signExtend 64

/-- A result of an instruction that reads gA and gB: poisoned when one of them is (R107). -/
def alu2 (op : Op) (lat : Nat) (d a b : GReg) (f : Word → Word → Word) (s : State) :
    Host.Outcome State Fault Refusal :=
  issue s op fun e =>
    let th := e.c.th
    fin (e.fixed lat [.g d (f (th.rg a) (th.rg b)) (th.pg a || th.pg b)] 0 op.major)

/-- A result of an instruction that reads gD, gA and gB (R107, R109). -/
def alu3 (op : Op) (d a b : GReg) (f : Word → Word → Word → Word) (s : State) : Host.Outcome State Fault Refusal :=
  issue s op fun e =>
    let th := e.c.th
    fin (e.fixed 1 [.g d (f (th.rg d) (th.rg a) (th.rg b)) (th.pg d || th.pg a || th.pg b)] 0 op.major)

/-- A result of an instruction that reads gA alone (R107). -/
def alu1 (op : Op) (d a : GReg) (f : Word → Word) (s : State) : Host.Outcome State Fault Refusal :=
  issue s op fun e =>
    let th := e.c.th
    fin (e.fixed 1 [.g d (f (th.rg a)) (th.pg a)] 0 op.major)

/-- A pointer add of a displacement (R114). -/
def ptrAddIssue (op : Op) (d a : GReg) (disp : Thread → Word) (dpois : Thread → Bool) (s : State) :
    Host.Outcome State Fault Refusal :=
  issue s op fun e => do
    let th := e.c.th
    let pois := th.pg a || dpois th
    let r ← ptrAdd (th.rg a) (disp th) pois
    fin (e.fixed 1 [.g d r pois] 0 op.major)

/-- The Op of a register instruction of a major: it issues from every context (R75). -/
def opAB (major : Nat) (st : Stall) (a b : GReg) : Op := op32 st .all false major [.g a, .g b]

/-- The Op of an instruction that reads gA. -/
def opA (major : Nat) (st : Stall) (a : GReg) : Op := op32 st .all false major [.g a]

/-- The Op of a compact ALU form that reads gD and gA. -/
def opCA (st : Stall) (d a : GReg) : Op := op16 st 0 [.g d, .g a]

/-- ADD (R109). -/
def execAdd (st : Stall) (d a b : GReg) (s : State) : Host.Outcome State Fault Refusal :=
  alu2 (opAB 0 st a b) 1 d a b (fun a b => a + b) s

/-- SUB (R109). -/
def execSub (st : Stall) (d a b : GReg) (s : State) : Host.Outcome State Fault Refusal :=
  alu2 (opAB 0 st a b) 1 d a b (fun a b => a - b) s

/-- AND (R109). -/
def execAnd (st : Stall) (d a b : GReg) (s : State) : Host.Outcome State Fault Refusal :=
  alu2 (opAB 0 st a b) 1 d a b (fun a b => a &&& b) s

/-- OR (R109). -/
def execOr (st : Stall) (d a b : GReg) (s : State) : Host.Outcome State Fault Refusal :=
  alu2 (opAB 0 st a b) 1 d a b (fun a b => a ||| b) s

/-- XOR (R109). -/
def execXor (st : Stall) (d a b : GReg) (s : State) : Host.Outcome State Fault Refusal :=
  alu2 (opAB 0 st a b) 1 d a b (fun a b => a ^^^ b) s

/-- ANDN (R109). -/
def execAndn (st : Stall) (d a b : GReg) (s : State) : Host.Outcome State Fault Refusal :=
  alu2 (opAB 0 st a b) 1 d a b (fun a b => a &&& ~~~ b) s

/-- SHL (R109). -/
def execShl (st : Stall) (d a b : GReg) (s : State) : Host.Outcome State Fault Refusal :=
  alu2 (opAB 0 st a b) 1 d a b (fun a b => a <<< sh6 b) s

/-- SHR (R109). -/
def execShr (st : Stall) (d a b : GReg) (s : State) : Host.Outcome State Fault Refusal :=
  alu2 (opAB 0 st a b) 1 d a b (fun a b => a >>> sh6 b) s

/-- SRA (R109). -/
def execSra (st : Stall) (d a b : GReg) (s : State) : Host.Outcome State Fault Refusal :=
  alu2 (opAB 0 st a b) 1 d a b (fun a b => a.sshiftRight (sh6 b)) s

/-- SLT (R109). -/
def execSlt (st : Stall) (d a b : GReg) (s : State) : Host.Outcome State Fault Refusal :=
  alu2 (opAB 0 st a b) 1 d a b (fun a b => bool64 (sltB a b)) s

/-- SLTU (R109). -/
def execSltu (st : Stall) (d a b : GReg) (s : State) : Host.Outcome State Fault Refusal :=
  alu2 (opAB 0 st a b) 1 d a b (fun a b => bool64 (ultB a b)) s

/-- SEQ (R109). -/
def execSeq (st : Stall) (d a b : GReg) (s : State) : Host.Outcome State Fault Refusal :=
  alu2 (opAB 0 st a b) 1 d a b (fun a b => bool64 (a == b)) s

/-- SNE (R109). -/
def execSne (st : Stall) (d a b : GReg) (s : State) : Host.Outcome State Fault Refusal :=
  alu2 (opAB 0 st a b) 1 d a b (fun a b => bool64 (a != b)) s

/-- MIN (R109). -/
def execMin (st : Stall) (d a b : GReg) (s : State) : Host.Outcome State Fault Refusal :=
  alu2 (opAB 0 st a b) 1 d a b (fun a b => minS a b) s

/-- MAX (R109). -/
def execMax (st : Stall) (d a b : GReg) (s : State) : Host.Outcome State Fault Refusal :=
  alu2 (opAB 0 st a b) 1 d a b (fun a b => maxS a b) s

/-- MINU (R109). -/
def execMinu (st : Stall) (d a b : GReg) (s : State) : Host.Outcome State Fault Refusal :=
  alu2 (opAB 0 st a b) 1 d a b (fun a b => minU a b) s

/-- MAXU (R109). -/
def execMaxu (st : Stall) (d a b : GReg) (s : State) : Host.Outcome State Fault Refusal :=
  alu2 (opAB 0 st a b) 1 d a b (fun a b => maxU a b) s

/-- BFX (R110). -/
def execBfx (st : Stall) (d a b : GReg) (s : State) : Host.Outcome State Fault Refusal :=
  alu2 (opAB 0 st a b) 1 d a b (fun a b => bfx a b false) s

/-- BFX_S (R110). -/
def execBfxS (st : Stall) (d a b : GReg) (s : State) : Host.Outcome State Fault Refusal :=
  alu2 (opAB 0 st a b) 1 d a b (fun a b => bfx a b true) s

/-- SEL: gD is read (R109). -/
def execSel (st : Stall) (d a b : GReg) (s : State) : Host.Outcome State Fault Refusal :=
  alu3 (op32 st .all false 0 [.g a, .g b, .g d]) d a b (fun d a b => if d ≠ 0 then a else b) s

/-- BFI: gD is read (R110). -/
def execBfi (st : Stall) (d a b : GReg) (s : State) : Host.Outcome State Fault Refusal :=
  alu3 (op32 st .all false 0 [.g a, .g b, .g d]) d a b (fun d a b => bfi d a b) s

/-- CLZ (R109). -/
def execClz (st : Stall) (d a : GReg) (s : State) : Host.Outcome State Fault Refusal :=
  alu1 (opA 0 st a) d a (fun a => w64 (clz64 a)) s

/-- CTZ (R109). -/
def execCtz (st : Stall) (d a : GReg) (s : State) : Host.Outcome State Fault Refusal :=
  alu1 (opA 0 st a) d a (fun a => w64 (ctz64 a)) s

/-- POPC (R109). -/
def execPopc (st : Stall) (d a : GReg) (s : State) : Host.Outcome State Fault Refusal :=
  alu1 (opA 0 st a) d a (fun a => w64 (popc a)) s

/-- SEXT_B (R109). -/
def execSextB (st : Stall) (d a : GReg) (s : State) : Host.Outcome State Fault Refusal :=
  alu1 (opA 0 st a) d a (fun a => sextFrom 8 a) s

/-- SEXT_H (R109). -/
def execSextH (st : Stall) (d a : GReg) (s : State) : Host.Outcome State Fault Refusal :=
  alu1 (opA 0 st a) d a (fun a => sextFrom 16 a) s

/-- SEXT_W (R109). -/
def execSextW (st : Stall) (d a : GReg) (s : State) : Host.Outcome State Fault Refusal :=
  alu1 (opA 0 st a) d a (fun a => sextFrom 32 a) s

/-- PTAGX (R115). -/
def execPtagx (st : Stall) (d a : GReg) (s : State) : Host.Outcome State Fault Refusal :=
  alu1 (opA 0 st a) d a (fun a => w64 (fld a 63 58)) s

/-- A pointer with TAG replaced (R115). -/
def withTag (p : Word) (t : BitVec 6) : Word := t ++ p.extractLsb' 0 58

/-- PTAGS: bits 63:58 replaced by gB<5:0> (R115). -/
def execPtags (st : Stall) (d a b : GReg) (s : State) : Host.Outcome State Fault Refusal :=
  alu2 (opAB 0 st a b) 1 d a b (fun a b => withTag a (b.extractLsb' 0 6)) s

/-- PADD (R114). -/
def execPadd (st : Stall) (d a b : GReg) (s : State) : Host.Outcome State Fault Refusal :=
  ptrAddIssue (opAB 0 st a b) d a (fun th => th.rg b) (fun th => th.pg b) s

/-- ADDI (R111). -/
def execAddi (st : Stall) (d a : GReg) (imm : BitVec 11) (s : State) : Host.Outcome State Fault Refusal :=
  alu1 (opA 1 st a) d a (fun a => a + simm imm) s

/-- ANDI (R111). -/
def execAndi (st : Stall) (d a : GReg) (imm : BitVec 11) (s : State) : Host.Outcome State Fault Refusal :=
  alu1 (opA 1 st a) d a (fun a => a &&& simm imm) s

/-- ORI (R111). -/
def execOri (st : Stall) (d a : GReg) (imm : BitVec 11) (s : State) : Host.Outcome State Fault Refusal :=
  alu1 (opA 1 st a) d a (fun a => a ||| simm imm) s

/-- XORI (R111). -/
def execXori (st : Stall) (d a : GReg) (imm : BitVec 11) (s : State) : Host.Outcome State Fault Refusal :=
  alu1 (opA 1 st a) d a (fun a => a ^^^ simm imm) s

/-- SLTI (R111). -/
def execSlti (st : Stall) (d a : GReg) (imm : BitVec 11) (s : State) : Host.Outcome State Fault Refusal :=
  alu1 (opA 1 st a) d a (fun a => bool64 (sltB a (simm imm))) s

/-- SLTIU (R111). -/
def execSltiu (st : Stall) (d a : GReg) (imm : BitVec 11) (s : State) : Host.Outcome State Fault Refusal :=
  alu1 (opA 1 st a) d a (fun a => bool64 (ultB a (simm imm))) s

/-- SHLI (R111). -/
def execShli (st : Stall) (d a : GReg) (imm : BitVec 6) (s : State) : Host.Outcome State Fault Refusal :=
  alu1 (opA 1 st a) d a (fun a => a <<< imm.toNat) s

/-- SHRI (R111). -/
def execShri (st : Stall) (d a : GReg) (imm : BitVec 6) (s : State) : Host.Outcome State Fault Refusal :=
  alu1 (opA 1 st a) d a (fun a => a >>> imm.toNat) s

/-- SRAI (R111). -/
def execSrai (st : Stall) (d a : GReg) (imm : BitVec 6) (s : State) : Host.Outcome State Fault Refusal :=
  alu1 (opA 1 st a) d a (fun a => a.sshiftRight imm.toNat) s

/-- PTAGI (R111, R115). -/
def execPtagi (st : Stall) (d a : GReg) (imm : BitVec 6) (s : State) : Host.Outcome State Fault Refusal :=
  alu1 (opA 1 st a) d a (fun a => withTag a imm) s

/-- PADDI (R111, R114). -/
def execPaddi (st : Stall) (d a : GReg) (imm : BitVec 11) (s : State) : Host.Outcome State Fault Refusal :=
  ptrAddIssue (opA 1 st a) d a (fun _ => simm imm) (fun _ => false) s

/-- LUI: sext(IMM19) × 2,048 (R112). -/
def execLui (st : Stall) (d : GReg) (imm : BitVec 19) (s : State) : Host.Outcome State Fault Refusal :=
  issue s (op32 st .all false 2 []) fun e =>
    fin (e.fixed 1 [.g d (imm.signExtend 64 <<< 11) false] 0 2)

/-- ADDPC: (PC + 2 × sext(IMM19)) mod 2^20, zero-extended (R113). -/
def execAddpc (st : Stall) (d : GReg) (imm : BitVec 19) (s : State) : Host.Outcome State Fault Refusal :=
  issue s (op32 st .all false 3 []) fun e =>
    fin (e.fixed 1 [.g d ((e.c.th.pc + (imm.signExtend 20 <<< 1)).setWidth 64) false] 0 3)

/-- MUL (R116). -/
def execMul (st : Stall) (d a b : GReg) (s : State) : Host.Outcome State Fault Refusal :=
  alu2 (opAB 4 st a b) 3 d a b (fun a b => a * b) s

/-- MULH: bits 127:64 of the signed product (R116). -/
def execMulh (st : Stall) (d a b : GReg) (s : State) : Host.Outcome State Fault Refusal :=
  alu2 (opAB 4 st a b) 3 d a b (fun a b => BitVec.ofInt 64 ((a.toInt * b.toInt) / 2 ^ 64)) s

/-- MULHU: bits 127:64 of the unsigned product (R116). -/
def execMulhu (st : Stall) (d a b : GReg) (s : State) : Host.Outcome State Fault Refusal :=
  alu2 (opAB 4 st a b) 3 d a b (fun a b => w64 (a.toNat * b.toNat / 2 ^ 64)) s

/-- DIV: truncated; the fixed results of a zero divisor and of overflow (R116). -/
def divS (a b : Word) : Word :=
  if b = 0 then BitVec.allOnes 64 else BitVec.ofInt 64 (Int.tdiv a.toInt b.toInt)

/-- DIVU (R116). -/
def divU (a b : Word) : Word := if b = 0 then BitVec.allOnes 64 else w64 (a.toNat / b.toNat)

/-- REM: the sign of the dividend (R116). -/
def remS (a b : Word) : Word := if b = 0 then a else BitVec.ofInt 64 (Int.tmod a.toInt b.toInt)

/-- REMU (R116). -/
def remU (a b : Word) : Word := if b = 0 then a else w64 (a.toNat % b.toNat)

/-- The bit length of a number. -/
def bitLen (n : Nat) : Nat := if n = 0 then 0 else n.log2 + 1

/-- The divider's time: 6 + ⌈n ÷ 2⌉ cycles for a dividend of n bits, 6 when gB = 0 (R117). -/
def divTime (mag : Nat) (b : Word) : Nat := if b = 0 then 6 else 6 + (bitLen mag + 1) / 2

/-- A division: held while the divider is busy; the thread issues nothing more until the result lands (R117). -/
def divIssue (st : Stall) (d a b : GReg) (signed : Bool) (f : Word → Word → Word) (s : State) :
    Host.Outcome State Fault Refusal :=
  issue s (opAB 4 st a b) fun e => do
    need (decide (e.t.divider.freeAt ≤ e.now)) .hold
    let th := e.c.th
    let x := th.rg a; let y := th.rg b
    let n := divTime (if signed then x.toInt.natAbs else x.toNat) y
    let e := e.interlocked n [.g d (f x y) (th.pg a || th.pg b)] 0 4
    fin { e with
      t := { e.t with divider := ⟨e.now + n, e.me, e.now⟩ }
      c := { e.c with notBefore := max e.c.notBefore (e.now + n) } }

/-- DIV (R116, R117). -/
def execDiv (st : Stall) (d a b : GReg) (s : State) : Host.Outcome State Fault Refusal :=
  divIssue st d a b true divS s

/-- DIVU (R116, R117). -/
def execDivu (st : Stall) (d a b : GReg) (s : State) : Host.Outcome State Fault Refusal :=
  divIssue st d a b false divU s

/-- REM (R116, R117). -/
def execRem (st : Stall) (d a b : GReg) (s : State) : Host.Outcome State Fault Refusal :=
  divIssue st d a b true remS s

/-- REMU (R116, R117). -/
def execRemu (st : Stall) (d a b : GReg) (s : State) : Host.Outcome State Fault Refusal :=
  divIssue st d a b false remU s

/-- C.ADD: the alias of ADD gD, gD, gA (R76). -/
def execCAdd (st : Stall) (d a : GReg) (s : State) : Host.Outcome State Fault Refusal :=
  alu2 (opCA st d a) 1 d d a (fun a b => a + b) s

/-- C.SUB: the alias of SUB gD, gD, gA (R76). -/
def execCSub (st : Stall) (d a : GReg) (s : State) : Host.Outcome State Fault Refusal :=
  alu2 (opCA st d a) 1 d d a (fun a b => a - b) s

/-- C.AND: the alias of AND gD, gD, gA (R76). -/
def execCAnd (st : Stall) (d a : GReg) (s : State) : Host.Outcome State Fault Refusal :=
  alu2 (opCA st d a) 1 d d a (fun a b => a &&& b) s

/-- C.OR: the alias of OR gD, gD, gA (R76). -/
def execCOr (st : Stall) (d a : GReg) (s : State) : Host.Outcome State Fault Refusal :=
  alu2 (opCA st d a) 1 d d a (fun a b => a ||| b) s

/-- C.XOR: the alias of XOR gD, gD, gA (R76). -/
def execCXor (st : Stall) (d a : GReg) (s : State) : Host.Outcome State Fault Refusal :=
  alu2 (opCA st d a) 1 d d a (fun a b => a ^^^ b) s

/-- C.MOV: the alias of ADD gD, gA, g0 (R76). -/
def execCMov (st : Stall) (d a : GReg) (s : State) : Host.Outcome State Fault Refusal :=
  alu2 (op16 st 0 [.g a]) 1 d a 0 (fun a b => a + b) s

/-- C.ADDI: the alias of ADDI gD, gD, IMM6 signed (R76). -/
def execCAddi (d : GReg) (imm : BitVec 6) (s : State) : Host.Outcome State Fault Refusal :=
  alu1 (op16 0 1 [.g d]) d d (fun a => a + imm.signExtend 64) s

/-- C.SHLI: the alias of SHLI gD, gD, IMM6 (R76). -/
def execCShli (d : GReg) (imm : BitVec 6) (s : State) : Host.Outcome State Fault Refusal :=
  alu1 (op16 0 1 [.g d]) d d (fun a => a <<< imm.toNat) s

/-- C.SHRI: the alias of SHRI gD, gD, IMM6 (R76). -/
def execCShri (d : GReg) (imm : BitVec 6) (s : State) : Host.Outcome State Fault Refusal :=
  alu1 (op16 0 1 [.g d]) d d (fun a => a >>> imm.toNat) s

end Sys2Proof.Machine
end

