-- ==== Sys2Proof/Machine/Net.lean ====
section
/-! DEFINITION. Messages between agents: where an agent sits on the Glide network (R303, R330), a message's translation
(R287, R288, R294), its way out of the package (R336, R340), and the routing of flits (R331 to R333). -/

namespace Sys2Proof.Machine

section places

/-- The die of a visible tile (R303). -/
def dieOf (x y : Nat) : Nat := 2 * (y / 16) + x / 20

/-- A number for each agent, to which the free choice of its router is applied (R330, log 17). -/
def Node.key : Node → Nat
  | .hbm c => c
  | .slice n => 8 + n
  | .darzan p => 40 + p
  | .cxl p => 72 + p
  | .pcie => 74
  | .unit d => 75 + d
  | .kiln d => 139 + d
  | .tile _ _ => 0

/-- The die on which an agent sits (R287, R303, R315, R330, R334); the CXL ports' and the PCI Express port's are not stated. -/
def State.agentDie (s : State) : Node → Nat
  | .hbm c => c / 2
  | .slice n => n / 8
  | .darzan p => p / 8
  | .unit d => match s.doms.find d with | some dm => dieOf dm.x0 dm.y0 | none => 0
  | .kiln d => d % 4
  | n => Config.agentSlot (200 + n.key) % 4

/-- The router of an agent: one at x mod 20 = 0 or 19 of its die (R330, log 17). -/
def State.agentRouter (s : State) (n : Node) : Nat × Nat :=
  let d := s.agentDie n
  let k := Config.agentSlot n.key % 32
  (20 * (d % 2) + 19 * (k % 2), 16 * (d / 2) + k / 2)

/-- A domain whose tiles are on the array. -/
def DomStatus.placed : DomStatus → Bool
  | .running | .atHost _ | .ended | .halted _ | .migrating _ | .releasing _ _ => true
  | _ => false

/-- A domain that is saved, or is being saved or restored: its arrivals go to the arrival log (R274, R279). -/
def DomStatus.logs : DomStatus → Bool
  | .saving _ | .saved | .restoring _ => true
  | _ => false

/-- A domain whose arrivals are refused NO-DOMAIN (R264, R272). -/
def DomStatus.refuses : DomStatus → Bool
  | .halted _ | .releasing _ _ | .pending => true
  | _ => false

/-- A rank that is being moved: traffic to it is held (R43, R280). -/
def State.transit (s : State) : Node → Bool
  | .tile d _ => match s.doms.find d with
    | some dm => (match dm.status with | .migrating _ => true | _ => false)
    | none => false
  | _ => false

/-- The router and port of a node: none for a tile that is not on the array, whose traffic ends at the fabric ingress
(R272, R274). -/
def State.place (s : State) (n : Node) : Option (Nat × Nat × Bool) :=
  match n with
  | .tile d r =>
    match s.doms.find d with
    | some dm =>
      if dm.status.placed then (dm.tiles.find r).map fun t => (t.x, t.y, false) else none
    | none => none
  | _ => let (x, y) := s.agentRouter n; some (x, y, true)

/-- The torus distance on a ring of n (R333). -/
def ringDist (n a b : Nat) : Nat := min ((b + n - a) % n) ((a + n - b) % n)

/-- The torus distance of two routers (R333). -/
def torusDist (x y x' y' : Nat) : Nat := ringDist 40 x x' + ringDist 32 y y'

end places

section create

/-- No attribution. -/
def Attr.zero : Attr :=
  { pkg := 0, dom := 0, rank := 0, ctx := 0, pcoff := 0, major := 0, f6 := 0, blk := 0, inc := 0, res := 0, target := 0 }

/-- A message that carries no data, before its fields are set. -/
def Msg.blank (kind : MsgKind) (attr : Attr) (src dst : Node) (pkg : Nat) : Msg :=
  { kind, orig := kind, attr, src, dst, req := 0, slot := 0, dpkg := pkg, xid := 0, tag := 0, addr := 0, va := none
    data := [], pois := 0, args := [], ord := 0, status := 0, flits := 1, injected := 0, fly := [], landed := 0, readyAt := 0
    waitUntil := none, counted := false }

/-- A message put on its way from a cycle on; its number. -/
def State.enqueue (s : State) (m : Msg) (from_ : Nat) : State :=
  { s with
    msgs := s.msgs.set s.nextMsg { m with injected := 0, fly := [], landed := 0, readyAt := from_, waitUntil := none }
    nextMsg := s.nextMsg + 1 }

/-- A message that waits at its sender and is sent afresh at a cycle (R302). -/
def State.defer (s : State) (m : Msg) (until_ : Nat) : State :=
  { s with msgs := s.msgs.set s.nextMsg { m with waitUntil := some until_ }, nextMsg := s.nextMsg + 1 }

/-- The attribution of an issuing context's command (R270, R336). -/
def Env.attr (e : Env) (major f6 : Nat) (target : Word) : Attr :=
  { pkg := e.s.pkgid.toNat, dom := e.s.cur.dom, rank := e.s.cur.rank, ctx := e.me, pcoff := e.c.th.pc.toNat, major, f6
    blk := 0, inc := e.s.incarn.toNat, res := e.s.residency.getD e.s.cur.dom 0, target }

/-- The agent that carries a command, for the record (R290). -/
def Attr.agent (a : Attr) : Nat :=
  if a.major = 21 ∧ a.f6 = 4 then 25
  else if ptrSpace a.target = 2 ∧ (a.f6 = 2 ∨ a.f6 = 3 ∨ a.f6 = 5)
      ∧ ¬(fld a.target 55 40 = a.pkg ∧ fld a.target 37 32 = a.dom) then 27
  else 24

/-- The node of a request's issuer, or the port toward its package. -/
def Msg.issuer (m : Msg) : Node := .tile m.attr.dom m.attr.rank

/-- A reply message to a request: the same attribution, transfer and place in the command; it names the package that
answers. -/
def Msg.back (m : Msg) (own : Nat) (kind : MsgKind) (status : Nat) : Msg :=
  { Msg.blank kind m.attr m.dst m.issuer m.attr.pkg with
    orig := m.kind, req := m.req, slot := m.slot, xid := m.xid, tag := m.tag, addr := m.addr, status
    args := if kind = .retryAfter then m.args else [w64 own]
    va := if kind = .retryAfter then m.va else none
    data := if kind = .retryAfter ∧ m.attr.pkg = own then m.data else []
    pois := if kind = .retryAfter then m.pois else 0, counted := m.counted }

end create

section translation

/-- The 256 KiB page number (R287). -/
def vpnOf (va : Nat) : Nat := va / 2 ^ 18 % 2 ^ 34

/-- The slice that serves a page (R287). -/
def sliceOf (vpn : Nat) : Nat :=
  (List.range 7).foldl (fun s i => (BitVec.ofNat 5 s ^^^ BitVec.ofNat 5 (vpn / 2 ^ (5 * i))).toNat) 0

/-- A slice that holds nothing. -/
def Slice.zero : Slice := { cache := [], counts := [], queued := [], stalled := [] }

/-- A translation slice. -/
def State.slice (s : State) (n : Nat) : Slice := s.slices.getD n Slice.zero

/-- A slice replaced. -/
def State.setSlice (s : State) (n : Nat) (x : Slice) : State := { s with slices := s.slices.set n x }

/-- At most n entries: the lowest leaves (R287, R294; log 20). -/
def AMap.cap {α : Type} (m : AMap α) (n : Nat) : AMap α := if n < m.length then m.drop 1 else m

/-- One block counted on its page (R294). -/
def State.countPage (s : State) (vpn : Nat) : State :=
  let n := sliceOf vpn
  let x := s.slice n
  let c := min (x.counts.getD vpn 0 + 1) 0xFFFF
  let x := { x with counts := (x.counts.set vpn c).cap 65536 }
  if s.kiln.threshold ≠ 0 ∧ s.kiln.threshold ≤ c ∧ !x.queued.contains vpn then
    if s.notes.length < 4096 then
      { s.setSlice n { x with queued := insNat vpn x.queued } with
        notes := s.notes ++ [w64 (vpn + c * 2 ^ 34 + n * 2 ^ 50)] }
    else { s.setSlice n x with notesOvf := true }
  else s.setSlice n x

/-- Whether a message writes its page. -/
def Msg.writes (m : Msg) : Bool := m.kind == .put

/-- The answer to a request, sent from where the request is (R202). -/
def State.answer (s : State) (m : Msg) (status : Nat) : State :=
  s.enqueue (m.back s.pkgid.toNat .answer status) s.cycle

/-- The ports that a package may be reached by: allowed, and up (R340). -/
def State.portsTo (s : State) (pkg : Nat) : List Nat :=
  (List.range 32).filter fun p =>
    (s.kiln.portMap.getD pkg 0) / 2 ^ p % 2 = 1 && (match s.ports.find p with | some x => x.up | none => false)

/-- The translations of a package dropped (R293). -/
def State.dropXlats (s : State) (pkg : Nat) : State :=
  { s with slices := s.slices.map fun (p : Nat × Slice) =>
      (p.1, { p.2 with cache := p.2.cache.filter fun x => !(x.2.home == 1 && x.2.pkg == pkg) }) }

/-- A message toward another package (R339, R340): answered PEER-GONE at once when the package is out of range or down, which
drops its translations (R293); otherwise it goes to the port that the hash of this package, the sender, picks among those allowed and
up, and waits while there is none (log 8). -/
def State.toPackage (s : State) (m : Msg) (from_ : Nat) : State :=
  let request := m.kind == .put || m.kind == .get || m.kind == .combine || m.kind == .invoke
  if request && (decide (8192 ≤ m.dpkg) || s.kiln.peersDown.contains m.dpkg) then
    (s.dropXlats m.dpkg).enqueue { m.back s.pkgid.toNat .answer (if m.kind = .invoke then 11 else 0x21) with dpkg := s.pkgid.toNat, src := m.src }
      from_
  else
    let xid := if request && m.xid == 0 then s.nextXid % (2 ^ 14 - 1) + 1 else m.xid
    let s := if request && m.xid == 0 then { s with nextXid := s.nextXid + 1 } else s
    let m := { m with xid }
    match s.portsTo m.dpkg with
    | [] => s.defer m (s.cycle + 64)
    | ps => s.enqueue { m with dst := .darzan (ps.getD (Config.portHash s.pkgid.toNat xid m.attr.blk % ps.length) 0) } from_

/-- A page's home is a package that the peer table marks down, or is out of range (R293, R339). -/
def Xlat.gone (x : Xlat) (s : State) : Bool :=
  x.home == 1 && (decide (8192 ≤ x.pkg) || s.kiln.peersDown.contains x.pkg)

/-- A translated message goes to the home of its page (R283, R285, R293), from a cycle on; a block counts on its page once,
however often it is sent (R294). -/
def State.toHome (s : State) (m : Msg) (va : Nat) (x : Xlat) (from_ : Nat) : State :=
  if x.gone s then (s.dropXlats x.pkg).enqueue (m.back s.pkgid.toNat .answer 0x21) from_
  else
    let s := if x.cnt && !m.counted then s.countPage (vpnOf va) else s
    let m := { m with counted := true }
    match x.home? s va with
    | .hbm pa => s.enqueue { m with dst := .hbm (stackOf pa), addr := pa } from_
    | .host a => s.enqueue { m with dst := .pcie, addr := a } from_
    | .cxl p a => s.enqueue { m with dst := .cxl p, addr := cxlKey p a } from_
    | .remote pkg pa => s.toPackage { m with dpkg := pkg, addr := pa, attr := { m.attr with inc := x.inc } } from_

/-- The record of a failed translation (R288, R290). -/
def xlatRecord (m : Msg) (va cause : Nat) (stall : Bool) : List Word :=
  faultRecord 1 cause stall m.attr m.attr.agent va

/-- A command of a tile changed, where it is outstanding. -/
def State.updCmd (s : State) (dom rank req : Nat) (f : Cmd → Cmd) : State :=
  s.updTile dom rank fun t =>
    match t.cmds.find req with
    | some c => { t with cmds := t.cmds.set req (f c) }
    | none => t

/-- One block of a command with its progress. -/
def Cmd.setProg (c : Cmd) (slot : Nat) (p : Prog) : Cmd := { c with prog := c.prog.set slot p }

/-- The command of a message. -/
def State.cmdOf (s : State) (m : Msg) : Option Cmd := (s.tile? m.attr.dom m.attr.rank).bind fun t => t.cmds.find m.req

/-- A read whose translation failed stalls at its block, which stays counted where it was (R294); the command's first stall
writes one record, or waits for room in the ring, or, where 32 records wait in its slice, tries again (R288, R291). -/
def State.stallRead (s : State) (m : Msg) (va cause : Nat) : State :=
  let dom := m.attr.dom
  match s.cmdOf m, s.doms.find dom with
  | some c, some d =>
    let first := !(c.prog.any fun p => p == .stalled)
    let stalled (s : State) : State := s.updCmd dom m.attr.rank m.req fun c =>
      { c.setProg m.slot .stalled with counted := if m.counted then insNat m.slot c.counted else c.counted }
    let full := s.fringFull d
    let u := s.kilnWalk (d.launch.fring + 16)
    if !first then stalled s
    else if full && decide (32 ≤ (s.slice (sliceOf (vpnOf va))).stalled.length) then u.defer m (s.cycle + 64)
    else
      let u := stalled u
      let rec_ := xlatRecord m va cause true
      if full then
        let n := sliceOf (vpnOf va)
        let x := u.slice n
        u.setSlice n { x with stalled := x.stalled ++ [rec_ ++ [w64 m.req]] }
      else
        (u.fringWrite dom d rec_).updCmd dom m.attr.rank m.req fun c => { c with paging := [d.fringWptr.toNat % 2 ^ 32] }
  | _, _ => s

/-- A failed translation (R288): a put is refused NO-PAGE with a record of the cause, a read stalls. -/
def State.xlatFail (s : State) (m : Msg) (va cause : Nat) : State :=
  if m.writes then (s.fault m.attr.dom (xlatRecord m va cause false)).answer m 0x20
  else s.stallRead m va cause

/-- A message leaves its agent (R287, R291, R302, R340): through its slice where it names a virtual address, out of the
package where it names another one, over the Glide network otherwise. A walk unit has 16 walks in flight: the seventeenth
waits. DESIGN CHOICE (log 53): an 8 KiB L0 table lies over four stacks, and the manual does not say whose walk unit takes a
walk; the model has one pool of 16 for the package. -/
def State.dispatch (s : State) (m : Msg) (from_ : Nat) : State :=
  match m.va with
  | some va =>
    let vpn := vpnOf va
    let n := sliceOf vpn
    let x := s.slice n
    if 32 ≤ x.stalled.length then s.defer m (s.cycle + 64)
    else
      match x.cache.find vpn with
      | some t =>
        if m.writes && !t.wr then s.xlatFail m va 0x32
        else s.toHome m va t (max from_ s.cycle + 6)
      | none =>
        match s.walks.find vpn with
        | some w => { s with walks := s.walks.set vpn { w with msgs := w.msgs ++ [m] } }
        | none =>
          if 16 ≤ s.walks.length then s.defer m (s.cycle + 1)
          else
            let time := match s.doms.find m.attr.dom with
              | some d => d.wait s.free vpn
              | none => Config.freeDelay s.free
            let w : Walk := { vpn, write := false, doneAt := s.cycle + 1 + time, msgs := [m] }
            { s.tick1 with walks := s.walks.set vpn w }
  | none => if m.dpkg = s.pkgid.toNat then s.enqueue m from_ else s.toPackage m from_


end translation

section glide

/-- The directions of R332. -/
inductive Dir where
  | xp | xm | yp | ym
  deriving DecidableEq, Repr

/-- The productive directions of a flit at a router, in the order of R332. -/
def productive (x y dx dy : Nat) : List Dir :=
  let hx := (dx + 40 - x) % 40
  let hy := (dy + 32 - y) % 32
  (if 1 ≤ hx ∧ hx ≤ 20 then [Dir.xp] else []) ++ (if 20 ≤ hx then [Dir.xm] else [])
    ++ (if 1 ≤ hy ∧ hy ≤ 16 then [Dir.yp] else []) ++ (if 16 ≤ hy then [Dir.ym] else [])

/-- The router that a link reaches (R330). -/
def Dir.move (d : Dir) (x y : Nat) : Nat × Nat :=
  match d with
  | .xp => ((x + 1) % 40, y)
  | .xm => ((x + 39) % 40, y)
  | .yp => (x, (y + 1) % 32)
  | .ym => (x, (y + 31) % 32)

/-- A flit sent over a link: it is at the next router, one hop older (R332). -/
def Flit.go (f : Flit) (d : Dir) : Flit :=
  let (x, y) := d.move f.x f.y
  { f with x, y, age := min (f.age + 1) 4095 }

/-- What a router has assigned in a cycle: links taken, eject ports taken, flits sent on and flits ejected. -/
structure RouterOut where
  used : List Dir
  ejTile : Bool
  ejAgent : Bool
  sent : List Flit
  ejected : List Flit
  deriving DecidableEq, Repr

/-- A flit comes before another (R332): greater AGE, then the lower source coordinate. -/
def Flit.before (a b : Flit) : Bool :=
  decide (b.age < a.age) || (a.age == b.age && decide (a.sy * 40 + a.sx < b.sy * 40 + b.sx))

/-- A flit put in its place among the flits of a router. -/
def insFlit (f : Flit) : List Flit → List Flit
  | [] => [f]
  | g :: t => if f.before g then f :: g :: t else g :: insFlit f t

/-- The flit takes an eject port of the router that it is at, where that is free: each takes one flit in a cycle (R332). -/
def RouterOut.tryEject (r : RouterOut) (f : Flit) : Option RouterOut :=
  if f.x == f.dx && f.y == f.dy && !(if f.agt then r.ejAgent else r.ejTile) then
    some { r with ejTile := r.ejTile || !f.agt, ejAgent := r.ejAgent || f.agt, ejected := r.ejected ++ [f] }
  else none

/-- One flit assigned (R332): ejected, or sent on a productive link, or deflected to the first free link of +X, +Y, −X, −Y. -/
def RouterOut.assign (r : RouterOut) (f : Flit) : RouterOut :=
  match r.tryEject f with
  | some r => r
  | none =>
    match (productive f.x f.y f.dx f.dy ++ [Dir.xp, Dir.yp, Dir.xm, Dir.ym]).find? fun d => !r.used.contains d with
    | some d => { r with used := d :: r.used, sent := r.sent ++ [f.go d] }
    | none => r

/-- A flit that a port offers: injected only on a free productive link (R332), or, for the router that it is at, through its
eject port. -/
def RouterOut.inject (r : RouterOut) (f : Flit) : RouterOut × Bool :=
  match r.tryEject f with
  | some r => (r, true)
  | none =>
  match (productive f.x f.y f.dx f.dy).find? fun d => !r.used.contains d with
  | some d => ({ r with used := d :: r.used, sent := r.sent ++ [f.go d] }, true)
  | none => (r, false)

/-- A fetch of a feed (R211). -/
def Msg.isFetch (m : Msg) : Bool := m.kind == .get && m.attr.major == 21 && m.attr.f6 == 4

/-- A request of a domain that is saved or being moved is not sent (R274, R280), nor is a feed's of a halted one (R264). -/
def State.senderHeld (s : State) (m : Msg) : Bool :=
  m.attr.pkg == s.pkgid.toNat && (match s.doms.find m.attr.dom with
    | some d => d.status.logs || (match d.status with
      | .migrating _ | .releasing _ _ => true
      | .halted _ => m.attr.major == 21 && m.attr.f6 == 4
      | _ => false)
    | none => false)

/-- A message that still has flits to send. -/
def Msg.offers (m : Msg) (now : Nat) : Bool :=
  decide (m.injected < m.flits) && decide (m.readyAt ≤ now) && m.waitUntil.isNone

/-- What comes back to a fetch of a feed (R211, R274). -/
def Msg.feedReturn (m : Msg) : Bool :=
  (m.kind == .reply || m.kind == .answer || m.kind == .retryAfter) && m.attr.major == 21 && m.attr.f6 == 4

/-- A target that is being moved, for which a message waits; what comes back to a fetch of its paused feeds does not (R43,
R274, R280; DEDUCED, log 85). -/
def State.heldFor (s : State) (m : Msg) : Bool := s.transit m.dst && !m.feedReturn

/-- A message that a port offers (R274, R280, R332): not toward a rank that is being moved, and no new fetch of a feed that
is paused. -/
def State.offered (s : State) (m : Msg) : Bool :=
  m.offers s.cycle && !s.heldFor m && !(m.isFetch && m.injected == 0 && s.senderHeld m)

/-- The next flit of a message that needs no router lands 3 cycles later (R333): an end of it is at the fabric ingress. -/
def Msg.landNow (m : Msg) (now : Nat) : Msg :=
  { m with injected := m.injected + 1, fly := m.fly ++ [(now + 3, m.injected)] }

/-- A message with an end that is not on the array. -/
def State.noHop (s : State) (m : Msg) : Bool := (s.place m.src).isNone || (s.place m.dst).isNone

/-- The next flit of a message. -/
def State.nextFlit (s : State) (id : Nat) (m : Msg) : Option Flit :=
  match s.place m.src, s.place m.dst with
  | some (x, y, _), some (dx, dy, agt) =>
    some { msg := id, idx := m.injected, x, y, dx, dy, agt, sx := x, sy := y, age := 0 }
  | _, _ => none

/-- CLASS of a message's flits (R331): 0 request, 1 data or reply, 2 invocation, 3 control (log 84). -/
def MsgKind.cls : MsgKind → Nat
  | .get | .combine => 0
  | .put | .reply | .unit => 1
  | .invoke => 2
  | .answer | .retryAfter | .close => 3

/-- The 64-bit header of a flit (R331): XID is the packet's, or the number of the message that carries the block, by which the
destination reassembles it (R333; log 84). -/
def Flit.header (f : Flit) (m : Msg) : Word :=
  let xid := if m.xid = 0 then f.msg % 2 ^ 14 else m.xid
  w64 (f.dx + f.dy * 2 ^ 6 + f.sx * 2 ^ 11 + f.sy * 2 ^ 17 + f.age * 2 ^ 22 + m.kind.cls * 2 ^ 34 + b2n f.agt * 2 ^ 36
    + f.idx * 2 ^ 37 + xid * 2 ^ 41 + m.pois.toNat / 2 ^ (2 * f.idx) % 4 * 2 ^ 55 + m.tag.toNat * 2 ^ 57)

/-- The first message that a router's tile port or agent port offers. -/
def State.offer (s : State) (x y : Nat) (agt : Bool) : Option (Nat × Msg) :=
  s.msgs.find? fun p => s.offered p.2 && !s.noHop p.2 && s.place p.2.src == some (x, y, agt)

/-- One flit ejected: it lands 3 cycles later; at a tile that has been vacated it is forwarded to the new one (R281,
R333). -/
def State.eject (s : State) (f : Flit) : State :=
  match s.msgs.find f.msg with
  | none => s
  | some m =>
    let far := match s.place m.dst with
      | some (x, y, _) => if x = f.x ∧ y = f.y then 0 else torusDist f.x f.y x y + 3
      | none => 0
    { s with msgs := s.msgs.set f.msg { m with fly := m.fly ++ [(s.cycle + 3 + far, f.idx)] } }

/-- The offer of one of a router's two ports; the result says whether it was injected. -/
def State.injectAt (s : State) (x y : Nat) (r : RouterOut) (agt : Bool) : State × RouterOut × Bool :=
  match s.offer x y agt with
  | none => (s, r, false)
  | some (id, m) =>
    match s.nextFlit id m with
    | none => (s, r, false)
    | some f =>
      let (r, ok) := r.inject f
      if ok then ({ s with msgs := s.msgs.set id { m with injected := m.injected + 1 } }, r, true)
      else (s, r, false)

/-- One router in one cycle (R332, R333): old are the flits that the cycle brought; the flits sent on gather in State. A cycle
in which a port has a flit and none is injected, be it for a STARVE that holds the router, is one more in which it was unable
to inject. -/
def State.router (old : List Flit) (s : State) (key : Nat) : State :=
  let x := key % 40; let y := key / 40
  let mine := old.filter fun f => f.x == x && f.y == y
  let r := (mine.foldl (fun l f => insFlit f l) []).foldl RouterOut.assign ⟨[], false, false, [], []⟩
  let starved := decide (s.cycle < s.starve.getD key 0)
  let wants := (s.offer x y false).isSome || (s.offer x y true).isSome
  let (s, r, ok1) := if starved then (s, r, false) else s.injectAt x y r false
  let (s, r, ok2) := if starved then (s, r, false) else s.injectAt x y r true
  let s := r.ejected.foldl State.eject s
  let n := if wants && !ok1 && !ok2 then s.starveCnt.getD key 0 + 1 else 0
  { s with
    flits := s.flits ++ r.sent
    starveCnt := if n = 0 then s.starveCnt.erase key else s.starveCnt.set key n }

/-- The routers with flits to move or to inject. -/
def State.busyRouters (s : State) : List Nat :=
  let a := s.flits.foldl (fun l f => insNat (f.y * 40 + f.x) l) []
  s.msgs.foldl (fun l p =>
    if s.offered p.2 then (match s.place p.2.src with | some (x, y, _) => insNat (y * 40 + x) l | none => l)
    else l) a

/-- The network has something to move, or a count of blocked cycles that may end (R333). -/
def State.netBusy (s : State) : Bool := !s.flits.isEmpty || !s.starveCnt.isEmpty || s.msgs.any fun p => s.offered p.2

/-- The whole network in one cycle (R332): every router acts on what the cycle brought it; one that has nothing to inject has not
been unable to (R333). -/
def State.routeAll (s : State) : State :=
  let near (m : Msg) : Msg :=
    if s.offered m && s.noHop m then m.landNow s.cycle else m
  let s := { s with msgs := s.msgs.map fun (p : Nat × Msg) => (p.1, near p.2) }
  let busy := s.busyRouters
  { busy.foldl (State.router s.flits) { s with flits := [], starveCnt := s.starveCnt.filter fun p => busy.contains p.1 } with
    glideAt := s.cycle + 1 }

/-- FLIT_ROUTE (R332). -/
def execFlitRoute (s : State) : Host.Outcome State Fault Refusal :=
  if s.glideAt ≤ s.cycle then .next s.routeAll else .fault .notEnabled

/-- STARVE (R333): a router that could not inject for 128 cycles stops its four neighbours for the 8 cycles that follow. -/
def execStarve (x y : Nat) (s : State) : Host.Outcome State Fault Refusal :=
  let key := y * 40 + x
  if 128 ≤ s.starveCnt.getD key 0 then
    let nb := [Dir.xp, .xm, .yp, .ym].map fun d => d.move x y
    .next { s with starve := nb.foldl (fun (m : AMap Nat) (p : Nat × Nat) => m.set (p.2 * 40 + p.1) (s.cycle + 9)) s.starve
                   starveCnt := s.starveCnt.set key 0 }
  else .fault .notEnabled

/-- Every flit of a message has landed (R333). -/
def Msg.arrived (m : Msg) (now : Nat) : Bool :=
  m.waitUntil.isNone && m.injected == m.flits && decide (m.fly.length = m.flits) && m.fly.all fun p => decide (p.1 ≤ now)

/-- A message taken from the network. -/
def State.takeMsg (s : State) (id : Nat) : State := { s with msgs := s.msgs.erase id }

end glide

end Sys2Proof.Machine
end

