-- ==== Sys2Proof/Machine/Hbm.lean ====
section
/-! DEFINITION. The HBM4 memory system (R315 to R329): the granule code, tags, presence and order at a controller, the
waiter table, errors, scrubbing, refresh and self-refresh. -/

namespace Sys2Proof.Machine

section checks

/-- What the checks of R320 find. -/
inductive HCheck where
  | ok | ue | stale
  deriving DecidableEq, Repr

/-- The granules of a block checked in ascending order (R320); TAG 0 fails on every one. -/
def State.hcheck (s : State) (pa : Nat) (tag : BitVec 6) (src : Nat) : List Nat → State × HCheck
  | [] => (s, .ok)
  | g :: t =>
    let (s, bad) := s.decodeGran (pa / 64 + g) src
    if bad then (s, .ue)
    else if tag = 0 ∨ (s.hblk pa).tagOf g ≠ tag then (s, .stale)
    else State.hcheck s pa tag src t

end checks

section channels

/-- The key of the bank in which a block lies (R315, R316, R328; log 3). -/
def bankKey (pa : Nat) : Nat := pchOf pa * 2 ^ 16 + Config.bankOf (pa / 2048) % 2 ^ 16

/-- A block's channel is awake and its bank is not being refreshed (R328, R329). -/
def State.hbmOpen (s : State) (pa : Nat) : Bool :=
  let c := s.ctl (stackOf pa)
  decide (c.busy.getD (bankKey pa) 0 ≤ s.time) && decide (c.waking.getD (pchOf pa) 0 ≤ s.time)

end channels

section requests

/-- The waiters of a block are serviced from the next cycle on (R323). -/
def State.wakeHbm (s : State) (pa : Nat) : State :=
  s.updCtl (stackOf pa) fun c =>
    { c with waits := c.waits.map fun w => if w.pa = pa ∧ w.wokenAt.isNone then { w with wokenAt := some s.cycle } else w }

/-- CLEAR applied (R322): the old TAG is granule 0's, which an uncorrectable error may have set to 0 (R325). -/
def State.clearHbm (s : State) (pa : Nat) (tag : BitVec 6) : State :=
  let b := s.hblk pa
  let t := if tag ≠ 0 then tag else nextTag (b.tagOf 0)
  (s.setHblk pa { state := .empty, tag := t, pois := 0, odd := [] }).wakeHbm pa

/-- A put that has ended makes its block FULL, frees its fill entry and services the waiters; the CLEARs held on the block
follow in order (R321, R322). -/
def State.commitHbm (s : State) (pa : Nat) : State :=
  let n := stackOf pa
  let s := ((s.setHblk pa { s.hblk pa with state := .full }).updCtl n fun c =>
    { c with fills := c.fills.filter fun f => f.pa != pa }).wakeHbm pa
  ((s.ctl n).held.filter fun h => h.1 == pa).foldl (fun s h => s.clearHbm pa h.2)
    (s.updCtl n fun c => { c with held := c.held.filter fun x => x.1 != pa })

/-- The granules of the flits that have landed and are not yet written. -/
def Msg.fresh (m : Msg) (now : Nat) : List Nat :=
  (m.fly.filter fun p => decide (p.1 ≤ now) && !m.landed.getLsbD p.2).map Prod.snd

/-- Granules of a put written: data and POIS, TAG kept (R321); what was wrong in their stored symbols is written over (R317). -/
def State.writeFlits (s : State) (m : Msg) (idxs : List Nat) : State :=
  idxs.foldl (fun s i =>
    let b := s.hblk m.addr
    let keep (g : Nat) (p : BitVec 32) : BitVec 32 := setBit p g (m.pois.getLsbD g)
    { s.setHblk m.addr { b with pois := keep (2 * i) (keep (2 * i + 1) b.pois) } with
      hbmMem := s.hbmMem.paste (m.addr + 128 * i) 128 (m.data.slice (128 * i) 128)
      hbmFailing := (s.hbmFailing.erase (m.addr / 64 + 2 * i)).erase (m.addr / 64 + 2 * i + 1) }) s

/-- The granules that some flits carry, as bits beside others. -/
def flitGrans (idxs : List Nat) (got : BitVec 32) : BitVec 32 :=
  idxs.foldl (fun l i => setBit (setBit l (2 * i) true) (2 * i + 1) true) got

/-- A put that cannot complete is ended (R272, R324): the flits that have reached the controller are written, and the granules
that are then unwritten are written as they stand, poisoned; what was wrong in stored symbols of the block is written over
(R317). -/
def State.endFill (s : State) (f : Fill) : State :=
  let (s, got) := match s.msgs.find f.msg with
    | some m => (s.writeFlits m (m.fresh s.cycle), flitGrans (m.fresh s.cycle) f.got)
    | none => (s, f.got)
  let b := s.hblk f.pa
  (({ s with
      msgs := s.msgs.erase f.msg
      hbmFailing := s.hbmFailing.filter fun p => p.1 / 32 != f.pa / 2048 }).setHblk f.pa
    { b with pois := b.pois ||| ~~~ got }).commitHbm f.pa

/-- The reply to a read: the block's bytes and POIS. -/
def State.replyTo (s : State) (m : Msg) (data : Mem) (pois : BitVec 32) : State :=
  s.dispatch { m.back s.pkgid.toNat .reply 0 with data, pois, flits := 16 } s.cycle

/-- A read at its controller (R320, R321, R323): the checks, then the data, or a waiter entry. -/
def State.hbmRead (s : State) (m : Msg) : State :=
  match s.hcheck m.addr m.tag 0 (List.range 32) with
  | (s, .ue) => s.replyTo m [] 0xFFFFFFFF
  | (s, .stale) => s.dispatch (m.back s.pkgid.toNat .answer 0x07) s.cycle
  | (s, .ok) =>
    let b := s.hblk m.addr
    if b.state = .full then s.replyTo m (s.hbmMem.slice m.addr 2048) b.pois
    else if 4096 ≤ (s.ctl (stackOf m.addr)).waits.length then s.dispatch (m.back s.pkgid.toNat .retryAfter 0) s.cycle
    else s.updCtl (stackOf m.addr) fun c => { c with waits := c.waits ++ [⟨m.addr, m, none⟩] }

/-- The entry that a controller services next: of each block's list the first woken before this cycle, one in each cycle
(R323), where the block's bank is not being refreshed and its channel is awake (R328, R329). -/
def State.nextWaiter (s : State) (ctl : Nat) : Option HWait :=
  (s.ctl ctl).waits.find? fun w =>
    decide ((s.ctl ctl).served.getD w.pa 0 ≤ s.cycle) && s.hbmOpen w.pa
      && (match w.wokenAt with | some x => decide (x < s.cycle) | none => false)

/-- A block's list has been serviced in this cycle (R323). -/
def Hctl.serve (c : Hctl) (now pa : Nat) : Hctl :=
  { c with served := AMap.set (c.served.filter fun p => decide (now < p.2)) pa (now + 1) }

/-- HBM_WAITER_SERVICE (R323): the entry runs the checks of R320 and R321 again on the block as it stands; it waits on where
the block is not FULL. A service finds its channel asleep only where nothing used it since the waking event, and wakes it
(R329). -/
def execHbmWaiterService (ctl : Nat) (s : State) : Host.Outcome State Fault Refusal :=
  match s.nextWaiter ctl with
  | none => .fault .notEnabled
  | some w =>
    if (s.ctl ctl).sleeping.contains (pchOf w.pa) then .next (s.useHbm w.pa)
    else
    let s := s.useHbm w.pa
    let t := s.hcheck w.pa w.msg.tag 0 (List.range 32)
    if t.2 = .ok ∧ (t.1.hblk w.pa).state ≠ .full then
      .next (t.1.updCtl ctl fun c =>
        { c.serve s.cycle w.pa with waits := c.waits.map fun x => if x = w then { x with wokenAt := none } else x })
    else
      .next ((s.updCtl ctl fun c => { c.serve s.cycle w.pa with waits := c.waits.filter fun x => x != w }).hbmRead w.msg)

/-- The put's own fill entry. -/
def State.fillOf (s : State) (id pa : Nat) : Option Fill :=
  (s.ctl (stackOf pa)).fills.find? fun f => f.pa == pa && f.msg == id

/-- The flits of a put that have landed at a controller since its last event (R320, R321): the first granule is checked
and claims a fill entry; the 32nd makes the block FULL. -/
def State.hbmPut (s : State) (id : Nat) (m : Msg) : State :=
  let n := stackOf m.addr
  let idxs := m.fresh s.cycle
  let (s, status) : State × Option Nat :=
    if (s.fillOf id m.addr).isSome then (s, none)
    else
      match s.hcheck m.addr m.tag 0 (List.range 32) with
      | (s, .ue) => (s, some 0x07)
      | (s, .stale) => (s, some 0x07)
      | (s, .ok) =>
        match (s.hblk m.addr).state with
        | .deferred => (s, some 0x09)
        | .full => (s, some 0x08)
        | .empty =>
          if 512 ≤ (s.ctl n).fills.length then (s, some 0)
          else
            let f : Fill := { pa := m.addr, pkg := m.attr.pkg, dom := m.attr.dom, got := 0, msg := id }
            ((s.setHblk m.addr { s.hblk m.addr with state := .deferred }).updCtl n fun c =>
              { c with fills := c.fills ++ [f] }, none)
  match status with
  | some 0 => (s.takeMsg id).dispatch (m.back s.pkgid.toNat .retryAfter 0) s.cycle
  | some cause => (s.takeMsg id).dispatch (m.back s.pkgid.toNat .answer cause) s.cycle
  | none =>
    let s := s.writeFlits m idxs
    let landed := idxs.foldl (fun l i => setBit l i true) m.landed
    let s := s.updCtl n fun c =>
      { c with fills := c.fills.map fun f => if f.pa = m.addr ∧ f.msg = id then { f with got := flitGrans idxs f.got } else f }
    if landed = 0xFFFF then
      ((s.takeMsg id).commitHbm m.addr).dispatch (m.back s.pkgid.toNat .answer 0) s.cycle
    else { s with msgs := s.msgs.set id { m with landed } }

/-- A request still stands: a message that has not been taken back, or what waits at its sender (R274, R291). -/
def State.stands (s : State) : HReq → Bool
  | .msg id => (s.msgs.find id).isSome
  | .host | .kiln => true

/-- A request is listed at the controller of a block among those that have reached it (R321). -/
def State.listed (s : State) (r : HReq) (pa : Nat) : Bool := (s.ctl (stackOf pa)).queue.contains (r, pa)

/-- A request reaches the controller of a block (R321, R328, R329): it takes its place in the order of arrival, and its channel
wakes. -/
def State.reachOne (r : HReq) (s : State) (pa : Nat) : State :=
  if s.listed r pa then s
  else (s.useHbm pa).updCtl (stackOf pa) fun c => { c with queue := c.queue ++ [(r, pa)] }

/-- A request reaches the controllers of its blocks. -/
def State.reach (s : State) (r : HReq) (blocks : List Nat) : State := blocks.foldl (State.reachOne r) s

/-- A request may act on a block: its channel is awake, its bank is not being refreshed, and no request for the block that came
before it waits (R321, R328, R329). -/
def State.turnAt (s : State) (r : HReq) (pa : Nat) : Bool :=
  let ahead := (s.ctl (stackOf pa)).queue.takeWhile fun q => q != (r, pa)
  s.hbmOpen pa && !(ahead.any fun q => q.2 / 2048 == pa / 2048 && s.stands q.1)

/-- A request may act on all its blocks. -/
def State.turn (s : State) (r : HReq) (blocks : List Nat) : Bool := blocks.all (s.turnAt r)

/-- A request that acts leaves the lists, and the idle counts of its blocks' channels start again after it (R329). -/
def State.leaveCtls (s : State) (r : HReq) (blocks : List Nat) : State :=
  blocks.foldl (fun s pa => s.updCtl (stackOf pa) fun c => { c with lastUse := c.lastUse.set (pchOf pa) s.time })
    { s with ctls := s.ctls.map fun (p : Nat × Hctl) => (p.1, { p.2 with queue := p.2.queue.filter fun q => q.1 != r }) }

/-- The row of a request at the controllers of its blocks: it acts in its turn, and until then its arrival is noted once. -/
def State.ctlRow (s : State) (r : HReq) (blocks : List Nat) (act : State → Host.Outcome State Fault Refusal) :
    Host.Outcome State Fault Refusal :=
  let u := s.reach r blocks
  if u.turn r blocks then act (u.leaveCtls r blocks)
  else if blocks.all (s.listed r) then .fault .notEnabled
  else .next u

/-- The row of a message at its controller. -/
def State.hbmRow (s : State) (id : Nat) (m : Msg) (act : State → State) : Host.Outcome State Fault Refusal :=
  s.ctlRow (.msg id) [m.addr] fun s => .next (act s)

end requests

section upkeep

/-- The granule that a stack's scrubber reads next (R316, R326). -/
def scrubGran (ctl pos : Nat) : Nat :=
  let g := pos % 32; let j := pos / 32
  (j * 2 ^ 14 + (BitVec.ofNat 3 ctl ^^^ BitVec.ofNat 3 (j / 2 ^ 6)).toNat * 2 ^ 11) / 64 + g

/-- SCRUB (R326): one granule of the stack read and, where it decodes with an error, handled; all 2^30 granules within
the scrub period. -/
def execScrub (ctl : Nat) (s : State) : Host.Outcome State Fault Refusal :=
  let c := s.ctl ctl
  if ctl < 8 ∧ c.scrubAt ≤ s.us * 2 ^ 30 then
    .next ((s.readGrans 1 [scrubGran ctl c.scrubPos]).updCtl ctl fun c =>
      { c with scrubPos := (c.scrubPos + 1) % 2 ^ 30, scrubAt := c.scrubAt + s.kiln.scrubHours * 3600 * 10 ^ 6 })
  else .fault .notEnabled

/-- The interval between two refreshes of a stack in units of the time base: above 85 °C it is halved (R328, R376; log 3). -/
def State.refreshInterval (s : State) (ctl : Nat) : Nat :=
  (if 85000 < s.hbmTemp.getD ctl 0 then 1 else 2) * (1 + Config.refreshHalf)

/-- REFRESH (R328): one bank after another; the order of the banks and the time are HBM4's, which the manual does not give
(log 3). Both follow from the number of the refresh alone, and the end stands on the time base (R372): no domain shifts them for
another (R260; log 75). -/
def execRefresh (ctl : Nat) (s : State) : Host.Outcome State Fault Refusal :=
  if ctl < 8 ∧ (s.ctl ctl).refreshAt ≤ s.time then
    .next (s.updCtl ctl fun c =>
      { c with
        refreshAt := s.time + s.refreshInterval ctl, refreshes := c.refreshes + 1
        busy := AMap.set (c.busy.filter fun p => decide (s.time < p.2))
          (ctl * 2 ^ 22 + Config.refreshBank ctl c.refreshes % 2 ^ 22) (s.time + Config.refreshTime ctl c.refreshes) })
  else .fault .notEnabled

/-- A pseudo-channel may enter self-refresh (R329): idle entry is enabled, and no request has been pending for 10 µs; a request
is pending from its arrival at the controller until it acts, be it a message, the host's or Kiln's, and a put until its last
granule. -/
def State.pchIdle (s : State) (pch : Nat) : Bool :=
  let c := s.ctl (pch / 64)
  s.kiln.idleEntry && decide (pch < 512) && !c.sleeping.contains pch
    && decide (c.lastUse.getD pch 0 + 10 * usUnits ≤ s.time)
    && !(c.queue.any fun q => pchOf q.2 == pch && s.stands q.1) && !(c.fills.any fun f => pchOf f.pa == pch)

/-- SELF_REFRESH_ENTRY (R329). -/
def execSelfRefreshEntry (pch : Nat) (s : State) : Host.Outcome State Fault Refusal :=
  if s.pchIdle pch then .next (s.updCtl (pch / 64) fun c => { c with sleeping := insNat pch c.sleeping })
  else .fault .notEnabled

end upkeep

end Sys2Proof.Machine
end

