-- ==== Sys2Proof/Machine/LoadStore.lean ====
section
/-! DEFINITION. The LD and ST majors and their compact aliases (R123 to R127, R76). -/

namespace Sys2Proof.Machine

/-- Extend(v) (R125): the loaded bytes widened to 64 bits. -/
def extendLoad (signed : Bool) (bs : List Byte) : Word :=
  let v := natOfBytes bs
  let n := 8 * bs.length
  if signed ∧ 2 ^ (n - 1) ≤ v then BitVec.ofInt 64 ((v : Int) - 2 ^ n) else w64 v

/-- The register after d; LDP and STP name an even d (R125, R127). -/
def succReg (d : GReg) : GReg := d + 1

/-- A load up to its register writes (R125): the checks, the holds of R124 and R137, the bytes and their poison. -/
def loadValue (e : Env) (a : GReg) (d : Int) (size : Nat) : Except Stop (List Byte × Bool) := do
  need (!e.acquiring) .hold
  let o ← checkLocal e a d size .load
  if e.t.carve.region o = .block then blockLoad e o
  need (!e.cellHits o size) .hold
  match loadBytes e.c e.t o size with
  | some bs => return (bs, e.t.granPois o)
  | none => .error .hold

/-- The granule of a load has been read (R38); o is the offset that the base and the displacement form. -/
def Env.loaded (e : Env) (a : GReg) (d : Int) : Env :=
  e.readGrans [((ptrOff (e.c.th.rg a) : Int) + d).toNat / 64]

/-- A load of 1, 2, 4 or 8 bytes (R125). -/
def loadIssue (op : Op) (d a : GReg) (disp : Int) (size : Nat) (signed : Bool) (s : State) :
    Host.Outcome State Fault Refusal :=
  issue s op fun e => do
    let (bs, pois) ← loadValue e a disp size
    fin ((e.loaded a disp).fixed 4 [.g d (extendLoad signed bs) pois] 0 8)

/-- A 32-bit load. -/
def ld32 (st : Stall) (d a : GReg) (off : BitVec 11) (size : Nat) (signed : Bool) (s : State) :
    Host.Outcome State Fault Refusal :=
  loadIssue (op32 st .all false 8 [.g a]) d a (dispL off size) size signed s

/-- LDB (R125). -/
def execLdb (st : Stall) (d a : GReg) (off : BitVec 11) (s : State) : Host.Outcome State Fault Refusal :=
  ld32 st d a off 1 true s

/-- LDH (R125). -/
def execLdh (st : Stall) (d a : GReg) (off : BitVec 11) (s : State) : Host.Outcome State Fault Refusal :=
  ld32 st d a off 2 true s

/-- LDW (R125). -/
def execLdw (st : Stall) (d a : GReg) (off : BitVec 11) (s : State) : Host.Outcome State Fault Refusal :=
  ld32 st d a off 4 true s

/-- LDD (R125). -/
def execLdd (st : Stall) (d a : GReg) (off : BitVec 11) (s : State) : Host.Outcome State Fault Refusal :=
  ld32 st d a off 8 false s

/-- LDBU (R125). -/
def execLdbu (st : Stall) (d a : GReg) (off : BitVec 11) (s : State) : Host.Outcome State Fault Refusal :=
  ld32 st d a off 1 false s

/-- LDHU (R125). -/
def execLdhu (st : Stall) (d a : GReg) (off : BitVec 11) (s : State) : Host.Outcome State Fault Refusal :=
  ld32 st d a off 2 false s

/-- LDWU (R125). -/
def execLdwu (st : Stall) (d a : GReg) (off : BitVec 11) (s : State) : Host.Outcome State Fault Refusal :=
  ld32 st d a off 4 false s

/-- LDP: bytes 7:0 to gD, bytes 15:8 to g(D+1); D is even (R125). -/
def execLdp (st : Stall) (d a : GReg) (off : BitVec 11) (s : State) : Host.Outcome State Fault Refusal :=
  issue s (op32 st .all false 8 [.g a]) fun e => do
    let (bs, pois) ← loadValue e a (dispL off 16) 16
    fin ((e.loaded a (dispL off 16)).fixed 4 [.g d (extendLoad false (bs.take 8)) pois, .g (succReg d) (extendLoad false (bs.drop 8)) pois] 0 8)

/-- C.LDD: the alias of LDD [g13 + 8 × IMM6] (R76). -/
def execCLdd (d : GReg) (imm : BitVec 6) (s : State) : Host.Outcome State Fault Refusal :=
  loadIssue (op16 0 8 [.g 13]) d 13 (8 * imm.toNat) 8 false s

/-- The data bytes of a store as (address, byte) pairs. -/
def cellsAt (o : Nat) (bs : List Byte) : List Host.Cell :=
  (List.range bs.length).map fun i => (o + i, bs.getD i 0)

/-- The number of store-buffer entries in use (R124). -/
def Ctx.sbCount (c : Ctx) : Nat := (c.sb.filter fun x => !x.vec).length

/-- A store (R124, R127): the checks of R40 with POISON on the data between CheckLocal and BlockAccess, the holds, and
the entry. -/
def storeIssue (op : Op) (a : GReg) (disp : Int) (size : Nat) (data : List GReg) (s : State) :
    Host.Outcome State Fault Refusal :=
  issue s op fun e => do
    need (!e.acquiring) .hold
    let o ← checkLocal e a disp size .store
    let p := withOff (e.c.th.rg a) o
    let reg := e.t.carve.region o
    let pd := data.any e.c.th.pg
    match data.find? e.c.th.pg with
    | some r => need (reg = .frame) (.trap cPoison 0 ((RegId.g r).word 0) 0)
    | none => .ok ()
    if reg = .block then blockStore e p o 0
    need (decide (e.c.sbCount < 8)) .hold
    need (!e.cellHits o size) .hold
    need (!(reg == .block && e.readHolds (e.t.blockOf o))) .hold
    let bs := (data.flatMap fun r => natBytes 8 (e.c.th.rg r).toNat).take size
    fin (e.pushStore o size (cellsAt o bs) pd false false)

/-- A 32-bit store of one register. -/
def st32 (st : Stall) (d a : GReg) (off : BitVec 11) (size : Nat) (s : State) : Host.Outcome State Fault Refusal :=
  storeIssue (op32 st .all true 9 [.g a, .g d]) a (dispL off size) size [d] s

/-- STB (R127). -/
def execStb (st : Stall) (d a : GReg) (off : BitVec 11) (s : State) : Host.Outcome State Fault Refusal :=
  st32 st d a off 1 s

/-- STH (R127). -/
def execSth (st : Stall) (d a : GReg) (off : BitVec 11) (s : State) : Host.Outcome State Fault Refusal :=
  st32 st d a off 2 s

/-- STW (R127). -/
def execStw (st : Stall) (d a : GReg) (off : BitVec 11) (s : State) : Host.Outcome State Fault Refusal :=
  st32 st d a off 4 s

/-- STD (R127). -/
def execStd (st : Stall) (d a : GReg) (off : BitVec 11) (s : State) : Host.Outcome State Fault Refusal :=
  st32 st d a off 8 s

/-- STP: gD to bytes 7:0, g(D+1) to bytes 15:8; D is even (R127). -/
def execStp (st : Stall) (d a : GReg) (off : BitVec 11) (s : State) : Host.Outcome State Fault Refusal :=
  storeIssue (op32 st .all true 9 [.g a, .g d, .g (succReg d)]) a (dispL off 16) 16 [d, succReg d] s

/-- C.STD: the alias of STD [g13 + 8 × IMM6], gD (R76). -/
def execCStd (d : GReg) (imm : BitVec 6) (s : State) : Host.Outcome State Fault Refusal :=
  storeIssue (op16 0 9 [.g 13, .g d] true) 13 (8 * imm.toNat) 8 [d] s

end Sys2Proof.Machine
end

