-- ==== Sys2Proof/Machine/BlockOps.lean ====
section
/-! DEFINITION. The BLOCK major (R128 to R134) with the events of R19 and R20. -/

namespace Sys2Proof.Machine

/-- The trap of a block event, with the pointer to the block (R19, R266). -/
def blockTrap (e : Env) (cause : Nat) (p : Word) (b : Nat) : Stop :=
  .trap cause 0 (e.t.blockPtr p b) (e.t.access (e.t.blockAt b) 0 0)

/-- The Op of a BLOCK instruction: it waits past an unresolved branch (R84). -/
def opBlock (st : Stall) (who : Who) (reads : List RegId) : Op := op32 st who true 10 reads

/-- BlockTarget and the hold of R137 that every BLOCK instruction makes first. -/
def blockFirst (e : Env) (a : GReg) (off : BitVec 11) (checktag : Bool) : Except Stop Nat := do
  need (!e.acquiring) .hold
  blockTarget e a off.toInt checktag

/-- Every store of the context is performed, and its CELL operations are (R129, R246). -/
def Env.drained (e : Env) : Bool := e.c.sb.isEmpty && !e.cellBusy

/-- BOPEN (R19). -/
def execBopen (st : Stall) (a : GReg) (off : BitVec 11) (s : State) : Host.Outcome State Fault Refusal :=
  issue s (opBlock st .all [.g a]) fun e => do
    let b ← blockFirst e a off true
    let m := e.t.block b
    match m.state with
    | .empty => fin (e.onTile fun t => t.setBlock b { m with state := .deferred, owner := e.me, armed := false })
    | .deferred =>
      need (m.owner = e.me ∧ m.armed = false) (blockTrap e cOwner (e.c.th.rg a) b)
      fin e
    | .full => .error (blockTrap e cSecond (e.c.th.rg a) b)

/-- The owner's right to commit b (R19, row BCOMMIT or BPOIS). -/
def needOwned (e : Env) (p : Word) (b : Nat) : Except Stop Unit := do
  let m := e.t.block b
  need (m.state ≠ .full) (blockTrap e cSecond p b)
  need (m.state = .deferred ∧ m.owner = e.me ∧ m.armed = false) (blockTrap e cOwner p b)

/-- BCOMMIT (R129): held until the buffer is performed, then Commit(b). -/
def execBcommit (st : Stall) (a : GReg) (off : BitVec 11) (s : State) : Host.Outcome State Fault Refusal :=
  issue s (opBlock st .all [.g a]) fun e => do
    let b ← blockFirst e a off true
    need e.drained .hold
    needOwned e (e.c.th.rg a) b
    fin (e.onTile fun t => t.commit e.now e.det b)

/-- BPOIS (R129): as BCOMMIT, with POIS set on all 32 granules first; it waits for a read by the matrix engine (R186, R250).
-/
def execBpois (st : Stall) (a : GReg) (off : BitVec 11) (s : State) : Host.Outcome State Fault Refusal :=
  issue s (opBlock st .all [.g a]) fun e => do
    let b ← blockFirst e a off true
    need (e.drained && !e.readHolds b) .hold
    needOwned e (e.c.th.rg a) b
    fin (e.onTile fun t => (t.setPoisAll (t.blockGrans b)).commit e.now e.det b)

/-- BCLR (R130): the new tag, the holds, then the row of R19 with Clear(b, t). One that an engine's read holds is performed at its
context's first opportunity after the read (R186; log 105). -/
def execBclr (st : Stall) (d a : GReg) (off : BitVec 11) (s : State) : Host.Outcome State Fault Refusal :=
  issue s (opBlock st .all (if d = 0 then [.g a] else [.g a, .g d])) fun e => do
    let b ← blockFirst e a off true
    needCleanG e d
    let m := e.t.block b
    let tag := (e.c.th.rg d).extractLsb' 0 6
    let gen := if tag ≠ 0 then tag else nextTag m.gen
    let own := decide (m.owner = e.me) && !m.armed
    need (!(m.state == .deferred && own) || e.drained) .hold
    need (!e.beingRead b) .hold
    need (!(m.state == .deferred && !own)) (blockTrap e cOwner (e.c.th.rg a) b)
    fin (e.onTile fun t => t.clear e.now b gen)

/-- BWAIT (R133): parks unless b is FULL. -/
def execBwait (st : Stall) (a : GReg) (off : BitVec 11) (s : State) : Host.Outcome State Fault Refusal :=
  issue s (opBlock st .slots [.g a]) fun e => do
    let b ← blockFirst e a off true
    need ((e.t.block b).state = .full) (.park b)
    fin e

/-- BSTAT (R134): the metadata word at issue, latency 4; neither tag nor presence is checked. -/
def execBstat (st : Stall) (d a : GReg) (off : BitVec 11) (s : State) : Host.Outcome State Fault Refusal :=
  issue s (opBlock st .all [.g a]) fun e => do
    let b ← blockFirst e a off false
    fin (e.fixed 4 [.g d (e.sync.t.blockWord b) false] 0 10)

/-- BARM (R132): the agent's checks, then the row of R19; held arrivals are serviced (R300). -/
def execBarm (st : Stall) (d a : GReg) (off : BitVec 11) (s : State) : Host.Outcome State Fault Refusal :=
  issue s (opBlock st .all [.g a, .g d]) fun e => do
    let b ← blockFirst e a off true
    needCleanG e d
    let v := e.c.th.rg d
    need (24 ≤ v.toNat ∧ v.toNat ≤ 27) (.trap cBounds 3 v 0)
    match (e.t.block b).state with
    | .empty => fin (e.onTile fun t => (t.arm b v.toNat).wakePool e.now true (some b))
    | .deferred => .error (blockTrap e cOwner (e.c.th.rg a) b)
    | .full => .error (blockTrap e cSecond (e.c.th.rg a) b)

/-- BFILL (R131): the block is opened where it is EMPTY; its 16 cycles, each of which writes 128 bytes, hold the context, and
BFILL_COMMIT ends it. -/
def execBfill (st : Stall) (d a : GReg) (off : BitVec 11) (s : State) : Host.Outcome State Fault Refusal :=
  issue s (opBlock st .all [.g a, .g d]) fun e => do
    let b ← blockFirst e a off true
    needCleanG e d
    let m := e.t.block b
    need (m.state ≠ .full) (blockTrap e cSecond (e.c.th.rg a) b)
    need (e.drained && !e.readHolds b) .hold
    need (m.state = .empty ∨ (m.owner = e.me ∧ m.armed = false)) (blockTrap e cOwner (e.c.th.rg a) b)
    let e := e.onTile fun t => t.setBlock b { m with state := .deferred, owner := e.me, armed := false }
    return .stay { e with c := { e.c with busy := .fill b (e.now + 16) (e.c.th.rg d) 0
                                          th := { e.c.th with skips := st.val } } }

/-- The 16 doublewords of 128 bytes all equal to a value. -/
def fillCells (o : Nat) (v : Word) : List Host.Cell :=
  (List.range 16).flatMap fun i => (List.range 8).map fun j => (o + 8 * i + j, v.extractLsb' (8 * j) 8)

/-- A BFILL's next 128 bytes written, with POIS cleared on their two granules (R131). -/
def Tile.fillWrite (t : Tile) (b k : Nat) (v : Word) : Tile :=
  let o := t.blockAt b + 128 * k
  { t with sram := t.sram.writeCells (fillCells o v), pois := t.pois.filter fun g => g != o / 64 && g != o / 64 + 1 }

/-- An instruction that an event completes (R131, R138, R166, R238): the PC, the retired count, the skips. -/
def Ctx.finish (c : Ctx) (len : Nat) (st : Nat) : Ctx :=
  { c with busy := .none
           th := { c.th with pc := c.th.pc + BitVec.ofNat 20 len, retired := c.th.retired + 1, skips := st } }

end Sys2Proof.Machine
end

