-- ==== Sys2Proof/Machine/CellOps.lean ====
section
/-! DEFINITION. The CELL major (R135 to R138) at issue, and the cell port: which operation it performs and what each
does (R136, R137, R138, R166, R238). -/

namespace Sys2Proof.Machine

/-- The checks of a CELL instruction (R135). -/
def cellAddr (e : Env) (disp : BitVec 3) (a : GReg) (operands : List GReg) : Except Stop Nat := do
  let o ← checkLocal e a (dispC disp) 8 .store
  let p := withOff (e.c.th.rg a) o
  need (e.t.carve.region o = .cell) (.trap cBounds 1 p (e.t.access o 0 0))
  match operands.find? e.c.th.pg with
  | some r => .error (.trap cPoison 0 ((RegId.g r).word 0) 0)
  | none => .ok ()
  need (!e.t.granPois o) (.trap cPoison 1 p (e.t.access o 0 0))
  return o

/-- A CELL instruction other than CDECF: it waits for the cell port, and its result is interlocked (R80, R136, R137). -/
def cellIssue (st : Stall) (ord : Ord) (disp : BitVec 3) (dest : Option GReg) (a : GReg) (b : Option GReg)
    (expect : Option GReg) (fn : CellFn) (s : State) : Host.Outcome State Fault Refusal :=
  let reads := RegId.g a :: (b.toList ++ expect.toList).map RegId.g
  issue s (op32 st .all true 11 reads) fun e => do
    need (!e.acquiring) .hold
    let o ← cellAddr e disp a (b.toList ++ expect.toList)
    let th := e.c.th
    let q : CellOp :=
      { ctx := e.me, seq := th.seq, age := e.t.age, fn, ptr := withOff (th.rg a) o, addr := o
        opnd := (b.map th.rg).getD 0, expect := (expect.map th.rg).getD 0, ord, dest := dest.getD 0, stall := st }
    let th := th.issueResult (dest.toList.map RegId.g) [] none false 0 11
    fin { e.withTh th with t := { e.t with cellQ := e.t.cellQ ++ [q] } }

/-- CLD (R136). -/
def execCld (st : Stall) (ord : Ord) (disp : BitVec 3) (d a : GReg) (s : State) : Host.Outcome State Fault Refusal :=
  cellIssue st ord disp (some d) a none none .ld s

/-- CST (R136). -/
def execCst (st : Stall) (ord : Ord) (disp : BitVec 3) (a b : GReg) (s : State) : Host.Outcome State Fault Refusal :=
  cellIssue st ord disp none a (some b) none .st s

/-- CADD (R136). -/
def execCadd (st : Stall) (ord : Ord) (disp : BitVec 3) (d a b : GReg) (s : State) : Host.Outcome State Fault Refusal :=
  cellIssue st ord disp (some d) a (some b) none .add s

/-- CMIN (R136). -/
def execCmin (st : Stall) (ord : Ord) (disp : BitVec 3) (d a b : GReg) (s : State) : Host.Outcome State Fault Refusal :=
  cellIssue st ord disp (some d) a (some b) none .min s

/-- CMAX (R136). -/
def execCmax (st : Stall) (ord : Ord) (disp : BitVec 3) (d a b : GReg) (s : State) : Host.Outcome State Fault Refusal :=
  cellIssue st ord disp (some d) a (some b) none .max s

/-- CMINU (R136). -/
def execCminu (st : Stall) (ord : Ord) (disp : BitVec 3) (d a b : GReg) (s : State) :
    Host.Outcome State Fault Refusal :=
  cellIssue st ord disp (some d) a (some b) none .minu s

/-- CMAXU (R136). -/
def execCmaxu (st : Stall) (ord : Ord) (disp : BitVec 3) (d a b : GReg) (s : State) :
    Host.Outcome State Fault Refusal :=
  cellIssue st ord disp (some d) a (some b) none .maxu s

/-- CAND (R136). -/
def execCand (st : Stall) (ord : Ord) (disp : BitVec 3) (d a b : GReg) (s : State) : Host.Outcome State Fault Refusal :=
  cellIssue st ord disp (some d) a (some b) none .and s

/-- COR (R136). -/
def execCor (st : Stall) (ord : Ord) (disp : BitVec 3) (d a b : GReg) (s : State) : Host.Outcome State Fault Refusal :=
  cellIssue st ord disp (some d) a (some b) none .or s

/-- CXOR (R136). -/
def execCxor (st : Stall) (ord : Ord) (disp : BitVec 3) (d a b : GReg) (s : State) : Host.Outcome State Fault Refusal :=
  cellIssue st ord disp (some d) a (some b) none .xor s

/-- CXCHG (R136). -/
def execCxchg (st : Stall) (ord : Ord) (disp : BitVec 3) (d a b : GReg) (s : State) :
    Host.Outcome State Fault Refusal :=
  cellIssue st ord disp (some d) a (some b) none .xchg s

/-- CCAS: gD is read as the expected value (R136). -/
def execCcas (st : Stall) (ord : Ord) (disp : BitVec 3) (d a b : GReg) (s : State) : Host.Outcome State Fault Refusal :=
  cellIssue st ord disp (some d) a (some b) (some d) .cas s

/-- CDECF: the trigger in e0 is checked at issue; the context is held until the operation is performed (R137, R138). -/
def execCdecf (st : Stall) (ord : Ord) (disp : BitVec 3) (d a : GReg) (s : State) : Host.Outcome State Fault Refusal :=
  issue s (op32 st .all true 11 [.g a, .e 0]) fun e => do
    need (!e.acquiring) .hold
    let o ← cellAddr e disp a []
    let th := e.c.th
    let _ ← blockTargetP e (th.re 0) 0 false 5
    let q : CellOp :=
      { ctx := e.me, seq := th.seq, age := e.t.age, fn := .decf (th.re 0), ptr := withOff (th.rg a) o, addr := o
        opnd := 0, expect := 0, ord, dest := d, stall := st }
    return .stay { e with t := { e.t with cellQ := e.t.cellQ ++ [q] }
                          c := { e.c with busy := .event, th := { e.c.th with skips := st.val } } }

section port

/-- The new value of a cell and whether it is written (R136). -/
def CellFn.apply (fn : CellFn) (old opnd expect : Word) : Word :=
  match fn with
  | .ld | .tagset | .list _ _ _ _ _ => old
  | .st | .xchg => opnd
  | .add => old + opnd
  | .min => if opnd.toInt < old.toInt then opnd else old
  | .max => if old.toInt < opnd.toInt then opnd else old
  | .minu => if opnd.toNat < old.toNat then opnd else old
  | .maxu => if old.toNat < opnd.toNat then opnd else old
  | .and => old &&& opnd
  | .or => old ||| opnd
  | .xor => old ^^^ opnd
  | .cas => if old = expect then opnd else old
  | .decf _ => old - 1

/-- The bytes an operation touches, for the wait on overlapping store-buffer entries (R137, R166, R238). -/
def CellOp.span (q : CellOp) (sram : Mem) : Nat × Nat :=
  match q.fn with
  | .tagset => (q.addr / 64 * 64, 64)
  | .list recs _ _ _ _ => (q.addr, 8 + 8 * ((sram.read64 q.addr).toNat + recs.length))
  | _ => (q.addr, 8)

/-- Whether an operation's conditions are met (R137): of the entries of its context that are older than it, none that
overlaps is buffered; a release waits for every one. -/
def Tile.cellReady (t : Tile) (q : CellOp) : Bool :=
  let c := t.ctx q.ctx
  let (a, n) := q.span t.sram
  let older := c.sb.filter fun x => decide (x.age < q.age)
  !(older.any fun x => overlaps x.addr x.len a n) && (!(q.ord == .rel || q.ord == .ar) || older.isEmpty)

/-- The operation that the port performs next: each context's operations in program order, the oldest that is ready
(R137, R246). -/
def Tile.cellNext (t : Tile) : List CellOp → List Nat → Option CellOp
  | [], _ => none
  | q :: l, blocked =>
    if blocked.contains q.ctx then t.cellNext l blocked
    else if t.cellReady q then some q
    else t.cellNext l (q.ctx :: blocked)

/-- The operation of the tile that is performed next. -/
def Tile.nextCellOp (t : Tile) : Option CellOp := t.cellNext t.cellQ []

/-- The operation taken from the port's queue. -/
def Tile.dropCellOp (t : Tile) (q : CellOp) : Tile :=
  { t with cellQ := t.cellQ.filter fun r => !(r.ctx == q.ctx && r.seq == q.seq) }

/-- The read of its cell by an operation that the port performs (R38); a plain store and a TAGSET read no data. -/
def Tile.cellRead (t : Tile) (q : CellOp) : Tile :=
  if q.fn = .st ∨ q.fn = .tagset then t else t.readFail [q.addr / 64]

/-- A CELL operation other than CDECF performed (R136, R137): the cell, and the result that lands 3 cycles later. -/
def Tile.cellPerform (t : Tile) (now : Nat) (q : CellOp) : Tile :=
  let old := t.sram.read64 q.addr
  let new := q.fn.apply old q.opnd q.expect
  let t := (t.cellRead q).dropCellOp q
  let t := if q.fn = .ld then t else { t with sram := t.sram.write64 q.addr new }
  let c := t.ctx q.ctx
  { t.setCtx q.ctx { c with
      th := c.th.settle q.seq [.g q.dest old false] (now + 3)
      wrong := c.wrong.map fun w => { w with right := w.right.settle q.seq [.g q.dest old false] (now + 3) } }
    with cellFree := now + 1 }

/-- The context of a precise cell-port event, which has read its cell, traps (R38, R138, R166, R238). -/
def cellTrap (s : State) (dom rank : Nat) (t : Tile) (q : CellOp) (cause form : Nat) (tval tval2 : Word) : State :=
  let c := t.ctx q.ctx
  let x : TrapInfo :=
    { cause, form, tval, tval2, ctx := q.ctx, async := false, xended := false, tepc := c.th.pc, raisedAt := s.cycle }
  let t := { ((t.cellRead q).dropCellOp q).setCtx q.ctx { c with busy := .none } with cellFree := s.cycle + 1 }
  raiseTrap (s.updTile dom rank fun _ => t) dom rank x

/-- A CDECF performed (R138): the cell, and at zero the trigger's commit in the same event, or one of its traps. -/
def decfPerform (s : State) (dom rank : Nat) (det : Bool) (t : Tile) (q : CellOp) (e0 : Word) : State :=
  let now := s.cycle
  let old := t.sram.read64 q.addr
  let new := old - 1
  let b := t.blockOf (ptrOff e0)
  let m := t.block b
  let acc := t.access (ptrOff e0) 0 5
  if new = 0 ∧ ptrTag e0 ≠ m.gen then cellTrap s dom rank t q cStale 0 e0 acc
  else if new = 0 ∧ m.state = .deferred then cellTrap s dom rank t q cOwner 0 e0 acc
  else if new = 0 ∧ m.state = .full then cellTrap s dom rank t q cSecond 0 e0 acc
  else
    let t := { (t.cellRead q).dropCellOp q with sram := t.sram.write64 q.addr new, cellFree := now + 1 }
    let c := t.ctx q.ctx
    let th := c.th.issueResult [.g q.dest] [.g q.dest old false] (some (now + 3)) false 0 11
    let t := t.setCtx q.ctx ({ c with th, last := c.last }.finish 4 c.th.skips)
    s.updTile dom rank fun _ => if new = 0 then t.commit now det b else t

/-- A TAGSET event (R238): the tag compared again, then written. -/
def tagsetPerform (s : State) (dom rank : Nat) (t : Tile) (q : CellOp) : State :=
  if t.granTag q.addr ≠ ptrTag q.ptr then cellTrap s dom rank t q cTag 0 q.ptr (t.access q.addr 0 0)
  else
    let t := { t.dropCellOp q with
      tags := t.tags.set (q.addr / 64) (q.opnd.extractLsb' 0 6), cellFree := s.cycle + 1 }
    let c := t.ctx q.ctx
    s.updTile dom rank fun _ => t.setCtx q.ctx (c.finish 4 c.th.skips)

end port

end Sys2Proof.Machine
end

