-- ==== Sys2Proof/Machine/Flags.lean ====
section
/-! DEFINITION. The five sticky floating-point flags (R32, R99, R189): the bits of TSTAT.FLAGS and of XFLAGS. -/

namespace Sys2Proof.Machine

/-- The exceptional conditions of one or more operations (R32). -/
structure Flags where
  inexact : Bool := false
  underflow : Bool := false
  overflow : Bool := false
  divZero : Bool := false
  invalid : Bool := false
  deriving DecidableEq, Repr

/-- Conditions of two operations together: flags are sticky (R99). -/
def Flags.or (a b : Flags) : Flags :=
  ⟨a.inexact || b.inexact, a.underflow || b.underflow, a.overflow || b.overflow, a.divZero || b.divZero,
   a.invalid || b.invalid⟩

/-- No condition. -/
def Flags.none : Flags := {}

/-- Invalid alone. -/
def Flags.inv : Flags := { invalid := true }

/-- Divide by zero alone. -/
def Flags.dz : Flags := { divZero := true }

/-- FLAGS: bit 24 inexact, 25 underflow, 26 overflow, 27 divide by zero, 28 invalid, counted from 24 (R32). -/
def Flags.bits (f : Flags) : BitVec 5 :=
  BitVec.ofBool f.invalid ++ BitVec.ofBool f.divZero ++ BitVec.ofBool f.overflow ++ BitVec.ofBool f.underflow
    ++ BitVec.ofBool f.inexact

/-- The conditions of a list of operations. -/
def Flags.all (l : List Flags) : Flags := l.foldl Flags.or Flags.none

end Sys2Proof.Machine
end

