-- ==== Sys2Proof/Machine/Fp.lean ====
section
/-! DEFINITION. Number formats and arithmetic (R89 to R106): exact values, decoding, rounding under the five modes,
special values and saturation, exact sums and products, and the functions of R159 and R160. -/

namespace Sys2Proof.Machine

section formats

/-- A scalar element format (R89): exponent and mantissa widths, the magnitude bits of its largest finite value, what
an infinity becomes, its canonical NaN, and whether it has infinities and signaling NaNs. -/
structure Fmt where
  ew : Nat
  mw : Nat
  maxBits : Nat
  infBits : Nat
  nanBits : Nat
  hasInf : Bool
  hasNan : Bool
  hasSig : Bool
  deriving DecidableEq, Repr

/-- FP64 (R89, R91). -/
def fmt64 : Fmt := ⟨11, 52, 0x7FEFFFFFFFFFFFFF, 0x7FF0000000000000, 0x7FF8000000000000, true, true, true⟩
/-- FP32 (R89, R91). -/
def fmt32 : Fmt := ⟨8, 23, 0x7F7FFFFF, 0x7F800000, 0x7FC00000, true, true, true⟩
/-- BF16 (R89, R91). -/
def fmtBf16 : Fmt := ⟨8, 7, 0x7F7F, 0x7F80, 0x7FC0, true, true, true⟩
/-- FP16 (R89, R91). -/
def fmtF16 : Fmt := ⟨5, 10, 0x7BFF, 0x7C00, 0x7E00, true, true, true⟩
/-- FP8 E4M3: an overflow or an infinity becomes NaN by sign (R89, R98). -/
def fmtE4m3 : Fmt := ⟨4, 3, 0x7E, 0x7F, 0x7F, false, true, false⟩
/-- FP8 E5M2 (R89, R91). -/
def fmtE5m2 : Fmt := ⟨5, 2, 0x7B, 0x7C, 0x7E, true, true, false⟩
/-- FP4 E2M1: no infinity and no NaN (R89, R98). -/
def fmtE2m1 : Fmt := ⟨2, 1, 7, 7, 0, false, false, false⟩

/-- The exponent bias (R89). -/
def Fmt.bias (f : Fmt) : Int := 2 ^ (f.ew - 1) - 1

/-- The width in bits. -/
def Fmt.width (f : Fmt) : Nat := 1 + f.ew + f.mw

/-- The exponent of the least subnormal's unit. -/
def Fmt.qmin (f : Fmt) : Int := 1 - f.bias - f.mw

/-- The sign bit's place value. -/
def Fmt.signBit (f : Fmt) (neg : Bool) : Nat := if neg then 2 ^ (f.ew + f.mw) else 0

end formats

/-- An exact value: a NaN (signaling or not), an infinity, or (−1)^neg × m × 2^e. -/
inductive FVal where
  | nan (sig : Bool)
  | inf (neg : Bool)
  | fin (neg : Bool) (m : Nat) (e : Int)
  deriving DecidableEq, Repr

/-- The value that a bit pattern has in a format (R89, R91). -/
def Fmt.decode (f : Fmt) (x : Nat) : FVal :=
  let neg := decide (x / 2 ^ (f.ew + f.mw) % 2 = 1)
  let mag := x % 2 ^ (f.ew + f.mw)
  let m := x % 2 ^ f.mw
  let e := mag / 2 ^ f.mw
  if mag > f.maxBits then
    if f.hasInf ∧ mag = f.infBits then .inf neg else .nan (f.hasSig && decide (m < 2 ^ (f.mw - 1)))
  else if e = 0 then .fin neg m f.qmin
  else .fin neg (2 ^ f.mw + m) (f.qmin + (e - 1 : Nat))

section rounding

/-- The rounding modes (R96). -/
inductive Mode where
  | rne | rtz | rdn | rup | sr
  deriving DecidableEq, Repr

/-- RMODE.MODE (R35, R96). -/
def Mode.ofCode : BitVec 3 → Mode
  | 0 => .rne
  | 1 => .rtz
  | 2 => .rdn
  | 3 => .rup
  | _ => .sr

/-- One step of the generator of stochastic rounding (R97). -/
def seedStep (s : BitVec 32) : BitVec 32 := if s.getLsbD 0 then (s >>> 1) ^^^ 0x80200003 else s >>> 1

/-- A magnitude (m plus a fraction below 1 when sticky) × 2^e, rounded to a multiple of 2^q: the multiple, and
whether it is exact (R96, R97). -/
def roundAt (mode : Mode) (n : Nat) (neg : Bool) (m : Nat) (e : Int) (sticky : Bool) (q : Int) : Nat × Bool :=
  if q ≤ e ∧ sticky = false then (m * 2 ^ (e - q).toNat, true)
  else
    let sh := (q - e).toNat
    let lo := m / 2 ^ sh
    let rem := m % 2 ^ sh
    if rem = 0 ∧ sticky = false then (lo, true)
    else
      let up := match mode with
        | .rne => decide (2 * rem > 2 ^ sh) || (decide (2 * rem = 2 ^ sh) && (sticky || lo % 2 == 1))
        | .rtz => false
        | .rdn => neg
        | .rup => !neg
        | .sr => decide (rem * 2 ^ 16 / 2 ^ sh + n ≥ 0x10000)
      (if up then lo + 1 else lo, false)

/-- Rows 6 and 7 of R98: a finite magnitude rounded to a format, with the flags of R90 and R98. -/
def Fmt.roundMag (f : Fmt) (mode : Mode) (sat : Bool) (n : Nat) (neg : Bool) (m : Nat) (e : Int) (sticky : Bool) :
    Nat × Flags :=
  if m = 0 ∧ sticky = false then (f.signBit neg, Flags.none)
  else
    let top : Int := (m.log2 : Int) + e
    let q := max (top - f.mw) f.qmin
    let (r, exact) := roundAt mode n neg m e sticky q
    let bits := (q - f.qmin).toNat * 2 ^ f.mw + r
    if bits > f.maxBits then
      let toMax := sat || match mode with
        | .rtz => true
        | .rdn => !neg
        | .rup => neg
        | _ => false
      (f.signBit neg + (if toMax then f.maxBits else f.infBits), { overflow := true, inexact := true })
    else
      let r' := (roundAt mode n neg m e sticky (top - f.mw)).1
      let tiny := decide (top < f.qmin + f.mw)
        && !(decide (top = f.qmin + f.mw - 1) && decide (r' ≥ 2 ^ (f.mw + 1)))
      (f.signBit neg + bits, { inexact := !exact, underflow := !exact && tiny })

/-- A conversion to a format (R98): the rows for NaNs and infinities, then rounding. sticky says that the magnitude
has a further fraction below 1. -/
def Fmt.round (f : Fmt) (mode : Mode) (sat : Bool) (n : Nat) (x : FVal) (sticky : Bool := false) : Nat × Flags :=
  match x with
  | .nan sig => (f.nanBits, { invalid := sig || !f.hasNan })
  | .inf neg => (f.signBit neg + (if sat || !f.hasNan then f.maxBits else f.infBits), Flags.none)
  | .fin neg m e => f.roundMag mode (sat || !f.hasNan) n neg m e sticky

/-- A conversion to an integer type with the range lo to hi (R98, rows 3, 5, 6 and 7). -/
def roundInt (lo hi : Int) (mode : Mode) (n : Nat) (x : FVal) : Int × Flags :=
  match x with
  | .nan _ => (0, Flags.inv)
  | .inf neg => (if neg then lo else hi, Flags.inv)
  | .fin neg m e =>
    let (r, exact) := roundAt mode n neg m e false 0
    let v : Int := if neg then -(r : Int) else r
    if v < lo then (lo, Flags.inv)
    else if hi < v then (hi, Flags.inv)
    else (v, { inexact := !exact })

end rounding

section arithmetic

/-- The opposite value. -/
def FVal.neg : FVal → FVal
  | .nan s => .nan s
  | .inf n => .inf (!n)
  | .fin n m e => .fin (!n) m e

/-- A value that is a NaN. -/
def FVal.isNan : FVal → Bool
  | .nan _ => true
  | _ => false

/-- A signaling NaN. -/
def FVal.isSig : FVal → Bool
  | .nan s => s
  | _ => false

/-- An exact result with the invalid condition found in forming it. -/
structure FRes where
  val : FVal
  inv : Bool
  deriving DecidableEq, Repr

/-- An operand: a signaling NaN is invalid (R98, row 1). -/
def FVal.res (x : FVal) : FRes := ⟨x, x.isSig⟩

/-- The exact product; 0 × ∞ is invalid (R98). -/
def FRes.mul (x y : FRes) : FRes :=
  match x.val, y.val with
  | .nan _, _ | _, .nan _ => ⟨.nan false, x.inv || y.inv⟩
  | .inf a, .inf b => ⟨.inf (a != b), false⟩
  | .inf a, .fin b m _ | .fin b m _, .inf a => if m = 0 then ⟨.nan false, true⟩ else ⟨.inf (a != b), false⟩
  | .fin a m e, .fin b m' e' => ⟨.fin (a != b) (m * m') (e + e'), false⟩

/-- An exact sum so far, of finite terms: mantissa and exponent. -/
def addDyadic (x y : Int × Int) : Int × Int :=
  if x.2 ≤ y.2 then (x.1 + y.1 * 2 ^ (y.2 - x.2).toNat, x.2) else (x.1 * 2 ^ (x.2 - y.2).toNat + y.1, y.2)

/-- The signed mantissa and exponent of a finite term, exponents of zero terms left out of the alignment. -/
def FVal.dyadic : FVal → Int × Int
  | .fin n m e => if m = 0 then (0, 0) else (if n then -(m : Int) else m, e)
  | _ => (0, 0)

/-- An exact sum of finite terms, zero terms skipped. -/
def sumDyadic (l : List FVal) : Int × Int :=
  l.foldl (fun acc x =>
    let d := x.dyadic
    if d.1 = 0 then acc else if acc.1 = 0 then d else addDyadic acc d) (0, 0)

/-- A finite negative value, zeros included. -/
def FVal.isNeg : FVal → Bool
  | .fin n _ _ => n
  | .inf n => n
  | _ => false

/-- A finite zero. -/
def FVal.isZero : FVal → Bool
  | .fin _ m _ => m == 0
  | _ => false

/-- The exact sum of terms (R104, R106): specials as in IEEE 754 addition; a zero sum is −0 when every term is −0, and
otherwise +0, or −0 under RDN (log 18). DEDUCED (log 91): a NaN among the terms comes before both infinities, so that such a
sum raises no invalid of its own. -/
def sumF (rdn : Bool) (l : List FRes) : FRes :=
  let inv := l.any FRes.inv
  let vs := l.map FRes.val
  let pinf := vs.any fun x => x == .inf false
  let ninf := vs.any fun x => x == .inf true
  if vs.any FVal.isNan then ⟨.nan false, inv⟩
  else if pinf && ninf then ⟨.nan false, true⟩
  else if pinf then ⟨.inf false, inv⟩
  else if ninf then ⟨.inf true, inv⟩
  else
    let d := sumDyadic vs
    if d.1 = 0 then
      let allZero := vs.all FVal.isZero
      let neg := if allZero && vs.all FVal.isNeg then true else if allZero && vs.all (fun x => !x.isNeg) then false else rdn
      ⟨.fin neg 0 0, inv⟩
    else ⟨.fin (decide (d.1 < 0)) d.1.natAbs d.2, inv⟩

/-- An exact result rounded once (R96, R98), not saturating. -/
def FRes.round (f : Fmt) (mode : Mode) (n : Nat) (x : FRes) : Nat × Flags :=
  let (r, fl) := f.round mode false n x.val
  (r, fl.or { invalid := x.inv })

/-- A comparison key of finite values and infinities: −1, 0 or 1 for less, equal (−0 = +0), greater. -/
def cmpF (x y : FVal) : Int :=
  match x, y with
  | .inf a, .inf b => if a = b then 0 else if a then -1 else 1
  | .inf a, _ => if a then -1 else 1
  | _, .inf b => if b then 1 else -1
  | x, y =>
    let d := (sumDyadic [x, y.neg]).1
    if d < 0 then -1 else if d = 0 then 0 else 1

/-- Whether x is below y with −0 below +0 (R98). -/
def ltTotal (x y : FVal) : Bool :=
  decide (cmpF x y < 0) || (decide (cmpF x y = 0) && x.isNeg && !y.isNeg)

/-- min and max (R98): a NaN operand gives the canonical NaN and invalid. The result is one operand's bits. -/
def minMaxF (f : Fmt) (isMax : Bool) (a b : Nat) : Nat × Flags :=
  let x := f.decode a
  let y := f.decode b
  if x.isNan || y.isNan then (f.nanBits, Flags.inv)
  else if ltTotal y x != isMax then (b, Flags.none)
  else (a, Flags.none)

/-- The exact quotient of two magnitudes to at least 80 bits, with a sticky fraction: mantissa, exponent, sticky. -/
def divMag (m : Nat) (e : Int) (m' : Nat) (e' : Int) : Nat × Int × Bool :=
  let k := 140 + m'.log2 - m.log2
  (m * 2 ^ k / m', e - e' - k, decide (m * 2 ^ k % m' ≠ 0))

/-- The square root of x rounded down, by bits n − 1 to 0 of the result, from a partial root r. -/
def isqrtFrom (x : Nat) : Nat → Nat → Nat
  | 0, r => r
  | n + 1, r => isqrtFrom x n (if (r + 2 ^ n) * (r + 2 ^ n) ≤ x then r + 2 ^ n else r)

/-- The square root of x rounded down. -/
def isqrt (x : Nat) : Nat := isqrtFrom x (x.log2 / 2 + 1) 0

/-- m × 2^e with an even exponent and at least 2·k further bits: mantissa and half the exponent. -/
def evenForm (m : Nat) (e : Int) (k : Nat) : Nat × Int :=
  let odd := (e % 2).toNat
  (m * 2 ^ (odd + 2 * k), (e - odd - 2 * k) / 2)

/-- √(m × 2^e) (R159). -/
def sqrtMag (m : Nat) (e : Int) : Nat × Int × Bool :=
  let (x, h) := evenForm m e 100
  let r := isqrt x
  (r, h, decide (r * r ≠ x))

/-- 1 ÷ √(m × 2^e) (R159). -/
def rsqMag (m : Nat) (e : Int) : Nat × Int × Bool :=
  let (x, h) := evenForm m e 0
  let k := x.log2 / 2 + 100
  let r := isqrt (2 ^ (2 * k) / x)
  (r, -h - k, decide (r * r * x ≠ 2 ^ (2 * k)))

/-- A function's result rounded to a format, with its own flags. -/
def roundFn (f : Fmt) (mode : Mode) (n : Nat) (neg : Bool) (x : Nat × Int × Bool) : Nat × Flags :=
  f.roundMag mode false n neg x.1 x.2.1 x.2.2

/-- An infinity with the divide-by-zero flag (R98). -/
def infDz (f : Fmt) (neg : Bool) : Nat × Flags := (f.signBit neg + f.infBits, Flags.dz)

/-- The canonical NaN of an invalid operation (R98). -/
def nanInv (f : Fmt) : Nat × Flags := (f.nanBits, Flags.inv)

/-- a / b (R159, R160). -/
def divF (f : Fmt) (mode : Mode) (n : Nat) (x y : FVal) : Nat × Flags :=
  match x, y with
  | .nan s, y => (f.nanBits, { invalid := s || y.isSig })
  | _, .nan s => (f.nanBits, { invalid := s })
  | .inf _, .inf _ => nanInv f
  | .inf a, .fin b _ _ => (f.signBit (a != b) + f.infBits, Flags.none)
  | .fin a _ _, .inf b => (f.signBit (a != b), Flags.none)
  | .fin a m e, .fin b m' e' =>
    if m' = 0 then (if m = 0 then nanInv f else infDz f (a != b))
    else if m = 0 then (f.signBit (a != b), Flags.none)
    else roundFn f mode n (a != b) (divMag m e m' e')

/-- VRCP (R160). -/
def rcpF (f : Fmt) (mode : Mode) (n : Nat) (x : FVal) : Nat × Flags := divF f mode n (.fin false 1 0) x

/-- VRSQ (R160). -/
def rsqF (f : Fmt) (mode : Mode) (n : Nat) (x : FVal) : Nat × Flags :=
  match x with
  | .nan s => (f.nanBits, { invalid := s })
  | .inf neg => if neg then nanInv f else (0, Flags.none)
  | .fin neg m e =>
    if m = 0 then infDz f neg else if neg then nanInv f else roundFn f mode n false (rsqMag m e)

/-- VSQRT (R160). -/
def sqrtF (f : Fmt) (mode : Mode) (n : Nat) (x : FVal) : Nat × Flags :=
  match x with
  | .nan s => (f.nanBits, { invalid := s })
  | .inf neg => if neg then nanInv f else (f.infBits, Flags.none)
  | .fin neg m e =>
    if m = 0 then (f.signBit neg, Flags.none) else if neg then nanInv f else roundFn f mode n false (sqrtMag m e)

end arithmetic

section transcendental

/-- The fraction bits of the fixed-point work of VEXP2 and VLOG2 (log 13). -/
def fxBits : Nat := 256

/-- 2 × atanh(z / 2^256) in fixed point: the series z + z³/3 + z⁵/5 + …, doubled; n terms from the odd index k. -/
def atanhFrom (z2 : Nat) : Nat → Nat → Nat → Nat
  | 0, _, _ => 0
  | n + 1, k, t => 2 * t / k + atanhFrom z2 n (k + 2) (t * z2 / 2 ^ fxBits)

/-- ln(y) for y = a / b in [1, 2] (R159). -/
def lnRatio (a b : Nat) : Nat :=
  let z := (a - b) * 2 ^ fxBits / (a + b)
  atanhFrom (z * z / 2 ^ fxBits) 84 1 z

/-- ln 2 in fixed point. -/
def ln2 : Nat := lnRatio 2 1

/-- The exponential series 1 + t/1! + t²/2! + … in fixed point: n terms from index k. -/
def expFrom (x : Nat) : Nat → Nat → Nat → Nat
  | 0, _, _ => 0
  | n + 1, k, t => t + expFrom x n (k + 1) (t * x / 2 ^ fxBits / k)

/-- 2^(g / 2^s) for a fraction g / 2^s in (0, 1), with 64 fraction bits. -/
def exp2Frac (g s : Nat) : Nat :=
  let x := if s ≤ fxBits then g * 2 ^ (fxBits - s) else g / 2 ^ (s - fxBits)
  expFrom (x * ln2 / 2 ^ fxBits) 60 1 (2 ^ fxBits) / 2 ^ (fxBits - 64)

/-- 2^a for a finite nonzero a = (−1)^neg × m × 2^e (R159): the integer part scales, the fraction is irrational. -/
def exp2Mag (neg : Bool) (m : Nat) (e : Int) : Nat × Int × Bool :=
  let big := decide ((m.log2 : Int) + e ≥ 12)
  if big then (1, if neg then -4096 else 4096, false)
  else
    let s := (-e).toNat
    let v : Int := (if neg then -(m : Int) else m) * 2 ^ e.toNat
    let n := v / 2 ^ s
    let g := (v % 2 ^ s).toNat
    if g = 0 then (1, n, false) else (exp2Frac g s, n - 64, true)

/-- VEXP2 (R160). -/
def exp2F (f : Fmt) (mode : Mode) (n : Nat) (x : FVal) : Nat × Flags :=
  match x with
  | .nan s => (f.nanBits, { invalid := s })
  | .inf neg => if neg then (0, Flags.none) else (f.infBits, Flags.none)
  | .fin neg m e => if m = 0 then roundFn f mode n false (1, 0, false) else roundFn f mode n false (exp2Mag neg m e)

/-- log₂ of m × 2^e (R159): its sign and magnitude; a power of two is exact. -/
def log2Mag (m : Nat) (e : Int) : Bool × Nat × Int × Bool :=
  let k : Int := (m.log2 : Int) + e
  if m = 2 ^ m.log2 then (decide (k < 0), k.natAbs, 0, false)
  else
    let v : Int := k * 2 ^ fxBits + ((lnRatio m (2 ^ m.log2) * 2 ^ fxBits / ln2 : Nat) : Int)
    (decide (v < 0), v.natAbs / 2 ^ 100, 100 - (fxBits : Int), true)

/-- VLOG2 (R160). -/
def log2F (f : Fmt) (mode : Mode) (n : Nat) (x : FVal) : Nat × Flags :=
  match x with
  | .nan s => (f.nanBits, { invalid := s })
  | .inf neg => if neg then nanInv f else (f.infBits, Flags.none)
  | .fin neg m e =>
    if m = 0 then infDz f true
    else if neg then nanInv f
    else let r := log2Mag m e; roundFn f mode n r.1 r.2

end transcendental

section blocks

/-- An MX element under its scale X (R94). -/
def mxDecode (f : Fmt) (x scale : Nat) : FVal :=
  if scale = 0xFF then .nan false
  else match f.decode x with
    | .fin n m e => .fin n m (e + (scale : Int) - 127)
    | v => v

/-- A DX element of w bits under its two exponents (R95). -/
def dxDecode (w x elo ehi : Nat) : FVal :=
  if elo = 0xFF ∨ ehi = 0xFF then .nan false
  else
    let sel := x / 2 ^ (w - 1) % 2
    let k : Int := if w = 8 then 132 else 128
    .fin (decide (x / 2 ^ (w - 2) % 2 = 1)) (x % 2 ^ (w - 2)) ((if sel = 0 then (elo : Int) else ehi) - k)

/-- ex(x) = floor(log₂ |x|) of a finite nonzero value (R100). -/
def exOf : FVal → Option Int
  | .fin _ m e => if m = 0 then none else some ((m.log2 : Int) + e)
  | _ => none

/-- The largest of a list of integers. -/
def maxInt? : List Int → Option Int
  | [] => none
  | x :: l => match maxInt? l with
    | some y => some (max x y)
    | none => some x

/-- A result of rounding the elements of a list in order, with a seed step each under stochastic rounding (R97). -/
def mapSeed {α : Type} (draws : Bool) (f : α → Nat → Nat × Flags) : List α → BitVec 32 → List Nat × Flags × BitVec 32
  | [], s => ([], Flags.none, s)
  | x :: l, s =>
    let s := if draws then seedStep s else s
    let (r, fl) := f x (s >>> 16).toNat
    let (rs, fls, s) := mapSeed draws f l s
    (r :: rs, fl.or fls, s)

/-- emax of an MX element format (R100). -/
def mxEmax (f : Fmt) : Int := if f = fmtE4m3 then 8 else if f = fmtE5m2 then 15 else 2

/-- Quantisation into one MX block (R100): the elements, the scale, the flags and the seed. -/
def quantMx (f : Fmt) (mode : Mode) (xs : List FVal) (seed : BitVec 32) : List Nat × Nat × Flags × BitVec 32 :=
  let draws := mode == .sr
  if xs.any FVal.isNan then
    let (_, _, seed) := mapSeed draws (fun _ _ => (0, Flags.none)) xs seed
    (xs.map fun _ => 0, 0xFF, Flags.none, seed)
  else
    let scale : Int := match maxInt? (xs.filterMap exOf) with
      | some ex => min 254 (max 0 (ex - mxEmax f + 127))
      | none => if xs.any (fun x => x == .inf false || x == .inf true) then 254 else 0
    let conv (x : FVal) (n : Nat) : Nat × Flags :=
      f.round mode true n (match x with | .fin s m e => .fin s m (e - (scale - 127)) | v => v)
    let (els, fl, seed) := mapSeed draws conv xs seed
    (els, scale.toNat, fl, seed)

/-- |x| > Mmax × 2^(C − k), infinities included (R101). -/
def aboveLim (mmax : Nat) (le : Int) : FVal → Bool
  | .inf _ => true
  | .fin _ m e => decide (0 < (addDyadic (m, e) (-(mmax : Int), le)).1)
  | .nan _ => false

/-- Quantisation into one DX block of w-bit elements under the cap C (R101): the elements, the scale record, the
flags, the seed, and which elements are outliers. -/
def quantDx (w cap : Nat) (outl : Bool) (mode : Mode) (xs : List FVal) (seed : BitVec 32) :
    List Nat × Nat × Flags × BitVec 32 × List Bool :=
  let draws := mode == .sr
  let wid : Int := if w = 8 then 3 else 1
  let mmax := 2 ^ (w - 2) - 1
  let k : Int := if w = 8 then 132 else 128
  if xs.any FVal.isNan then
    let (_, _, seed) := mapSeed draws (fun _ _ => (0, Flags.none)) xs seed
    (xs.map fun _ => 0, 0xFFFF, Flags.none, seed, xs.map fun _ => false)
  else
    let out := xs.map fun x => outl && aboveLim mmax ((cap : Int) - k) x
    let rest := (xs.zip out).filterMap fun p => if p.2 then none else some p.1
    let bs := (rest.filterMap exOf).map (· + 127)
    let ehi : Int := match maxInt? bs with
      | some b => min cap (max 0 b)
      | none => if rest.any (fun x => x == .inf false || x == .inf true) then cap else 0
    let elo : Int := match maxInt? (bs.filter fun b => decide (b ≤ ehi - wid)) with
      | some b => max 0 b
      | none => ehi
    let enc (p : FVal × Bool) (n : Nat) : Nat × Flags :=
      if p.2 then (0, Flags.none)
      else match p.1 with
        | .nan _ => (0, Flags.none)
        | .inf s => (2 ^ (w - 1) + b2n' s * 2 ^ (w - 2) + mmax, Flags.none)
        | .fin s m e =>
          let sel := match exOf p.1 with | some b => decide (b + 127 > elo) | none => false
          let (r, exact) := roundAt mode n s m (e + k - (if sel then ehi else elo)) false 0
          let clamp := decide (mmax < r)
          let fl : Flags :=
            { inexact := !exact || clamp, overflow := clamp && aboveLim mmax ((cap : Int) - k) p.1
              underflow := decide (r = 0) && m != 0 }
          ((if sel then 2 ^ (w - 1) else 0) + b2n' s * 2 ^ (w - 2) + min r mmax, fl)
    let (els, fl, seed) := mapSeed draws enc (xs.zip out) seed
    (els, elo.toNat + ehi.toNat * 2 ^ 8, fl, seed, out)
where
  /-- A sign as a bit. -/
  b2n' (b : Bool) : Nat := if b then 1 else 0

end blocks

end Sys2Proof.Machine
end

