-- ==== Sys2Proof/Machine/Vector.lean ====
section
/-! DEFINITION. Vector elements, masks and poison (R92, R153, R154), and the V-ALU and V-FN majors (R156 to R162). -/

namespace Sys2Proof.Machine

section elements

/-- The element width (R92). -/
def vw : VType → Nat
  | .i32 | .n32 | .f32 => 32
  | .bf16x2 | .f16x2 | .i16x2 => 16
  | .i8x4 => 8
  | .f64 => 64

/-- The format of a float type (R92). -/
def vfmt : VType → Fmt
  | .bf16x2 => fmtBf16
  | .f16x2 => fmtF16
  | .f64 => fmt64
  | _ => fmt32

/-- Element i of width w (R92). -/
def elemAt (w : Nat) (v : VWord) (i : Nat) : Nat := (v.extractLsb' (w * i) w).toNat

/-- An element as an integer of its type: signed, or unsigned for n32 (R92). -/
def elemInt (ty : VType) (x : Nat) : Int :=
  if ty ≠ .n32 ∧ 2 ^ (vw ty - 1) ≤ x then (x : Int) - 2 ^ vw ty else x

/-- An integer as w bits. -/
def intBits (w : Nat) (x : Int) : Nat := (x % 2 ^ w).toNat

/-- The least value of an integer type. -/
def vmin (ty : VType) : Int := if ty = .n32 then 0 else -2 ^ (vw ty - 1)

/-- The greatest value of an integer type. -/
def vmax (ty : VType) : Int := if ty = .n32 then 2 ^ 32 - 1 else 2 ^ (vw ty - 1) - 1

/-- The active lanes of a mask: an f64 element is active by its even bit (R153). -/
def laneMask (f64 : Bool) (k : KWord) : KWord :=
  if f64 then (k &&& 0x55555555) ||| ((k &&& 0x55555555) <<< 1) else k

/-- Poison by element: both lanes of an f64 (R27, R154). -/
def pairPois (f64 : Bool) (p : KWord) : KWord := laneMask f64 (if f64 then p ||| (p >>> 1) else p)

/-- All bits of the lanes of a mask. -/
def lanesWord (m : KWord) : VWord :=
  BitVec.ofNat 1024 ((List.range 32).foldl (fun acc i => if m.getLsbD i then acc + (2 ^ 32 - 1) * 2 ^ (32 * i) else acc) 0)

/-- The inactive lanes kept with their flags (Z = 0) or zeroed with their flags clear (Z = 1) (R153). -/
def mergeV (m : KWord) (z : Bool) (old : VWord) (oldp : KWord) (v : VWord) (p : KWord) : VWord × KWord :=
  let w := lanesWord m
  if z then (v &&& w, p &&& m) else ((v &&& w) ||| (old &&& ~~~ w), (p &&& m) ||| (oldp &&& ~~~ m))

/-- The results of the n elements from index i, in ascending order, as one number; SEED steps for each active element
of a stochastic rounding (R97, R153). -/
def mapElems (w : Nat) (act : Nat → Bool) (draws : Bool) (f : Nat → Nat → Nat × Flags) :
    Nat → Nat → BitVec 32 → Nat × Flags × BitVec 32
  | 0, _, s => (0, Flags.none, s)
  | n + 1, i, s =>
    if act i then
      let s := if draws then seedStep s else s
      let (x, fl) := f i (s >>> 16).toNat
      let (r, fls, s) := mapElems w act draws f n (i + 1) s
      (x % 2 ^ w + 2 ^ w * r, fl.or fls, s)
    else
      let (r, fls, s) := mapElems w act draws f n (i + 1) s
      (2 ^ w * r, fls, s)

/-- The rounding mode at issue (R35, R73, R96). -/
def rmMode (rm : RmField) (th : Thread) : Mode :=
  match rm with
  | .rne => .rne
  | .rtz => .rtz
  | .sr => .sr
  | .dyn => Mode.ofCode th.rmode

/-- The reads of a masked vector instruction (R153). -/
def vreads (d : VReg) (k : KReg) (z dSrc : Bool) (srcs : List RegId) : List RegId :=
  srcs ++ (if k = 0 then [] else [.k k]) ++ (if dSrc || (!z && k != 0) then [.v d] else [])

/-- A vector instruction that sets elements of width w under its mask (R153, R154, R80): f gives an element's bits
and flags, pois the poison by lane; rm is the rounding of an operation that rounds. -/
def vIssue (st : Stall) (major lat : Nat) (reads : List RegId) (d : VReg) (k : KReg) (z f64 : Bool) (w : Nat)
    (rm : Option RmField) (f : Thread → Mode → Nat → Nat → Nat × Flags) (pois : Thread → KWord) (s : State) :
    Host.Outcome State Fault Refusal :=
  issue s (op32 st .notXc false major reads) fun e =>
    let th := e.c.th
    let m := laneMask f64 (th.rk k)
    let mode := match rm with | some r => rmMode r th | none => .rne
    let (val, fl, seed) := mapElems w (fun i => m.getLsbD (i * w / 32)) (mode == .sr) (f th mode) (1024 / w) 0 th.seed
    let (v, p) := mergeV m z (th.rv d) (th.pv d) (BitVec.ofNat 1024 val) (pairPois f64 (pois th))
    fin ((e.withTh { th with seed }).fixed lat [.v d v p] fl.bits major)

end elements

section alu

/-- An arithmetic V-ALU instruction: integers wrap, floats are formed exactly and rounded once (R156). -/
def vArith (st : Stall) (ty : VType) (rm : RmField) (d a b : VReg) (k : KReg) (z dSrc : Bool)
    (fi : Int → Int → Int → Int) (ff : Bool → FVal → FVal → FVal → FRes) (s : State) :
    Host.Outcome State Fault Refusal :=
  let w := vw ty
  vIssue st 14 4 (vreads d k z dSrc [.v a, .v b]) d k z (ty == .f64) w (some rm)
    (fun th mode i n =>
      let x := elemAt w (th.rv a) i; let y := elemAt w (th.rv b) i; let u := elemAt w (th.rv d) i
      if ty.isInt then (intBits w (fi (elemInt ty x) (elemInt ty y) (elemInt ty u)), Flags.none)
      else
        let f := vfmt ty
        (ff (mode == .rdn) (f.decode x) (f.decode y) (f.decode u)).round f mode n)
    (fun th => th.pv a ||| th.pv b ||| (if dSrc then th.pv d else 0)) s

/-- VADD (R156). -/
def execVadd (st : Stall) (ty : VType) (rm : RmField) (d a b : VReg) (k : KReg) (z : Bool) (s : State) :
    Host.Outcome State Fault Refusal :=
  vArith st ty rm d a b k z false (fun a b _ => a + b) (fun r a b _ => sumF r [a.res, b.res]) s

/-- VSUB (R156). -/
def execVsub (st : Stall) (ty : VType) (rm : RmField) (d a b : VReg) (k : KReg) (z : Bool) (s : State) :
    Host.Outcome State Fault Refusal :=
  vArith st ty rm d a b k z false (fun a b _ => a - b) (fun r a b _ => sumF r [a.res, b.neg.res]) s

/-- VMUL (R156). -/
def execVmul (st : Stall) (ty : VType) (rm : RmField) (d a b : VReg) (k : KReg) (z : Bool) (s : State) :
    Host.Outcome State Fault Refusal :=
  vArith st ty rm d a b k z false (fun a b _ => a * b) (fun _ a b _ => a.res.mul b.res) s

/-- VFMA (R106, R156). -/
def execVfma (st : Stall) (ty : VType) (rm : RmField) (d a b : VReg) (k : KReg) (z : Bool) (s : State) :
    Host.Outcome State Fault Refusal :=
  vArith st ty rm d a b k z true (fun a b d => a * b + d) (fun r a b d => sumF r [a.res.mul b.res, d.res]) s

/-- VFMS (R106, R156). -/
def execVfms (st : Stall) (ty : VType) (rm : RmField) (d a b : VReg) (k : KReg) (z : Bool) (s : State) :
    Host.Outcome State Fault Refusal :=
  vArith st ty rm d a b k z true (fun a b d => a * b - d) (fun r a b d => sumF r [a.res.mul b.res, d.neg.res]) s

/-- VFNMA (R106, R156). -/
def execVfnma (st : Stall) (ty : VType) (rm : RmField) (d a b : VReg) (k : KReg) (z : Bool) (s : State) :
    Host.Outcome State Fault Refusal :=
  vArith st ty rm d a b k z true (fun a b d => -(a * b) + d) (fun r a b d => sumF r [a.neg.res.mul b.res, d.res]) s

/-- An instruction on the elements' bits, which rounds nothing; rm is the RM field of a float operation whose exact
elements step SEED under stochastic rounding (R97), and none where they do not. DEDUCED (log 25): VMIN, VMAX, VABS and VNEG
step it, VAND, VOR, VXOR and VMOV do not. -/
def vBits (st : Stall) (major lat : Nat) (ty : VType) (rm : Option RmField) (d a : VReg) (b : Option VReg) (k : KReg) (z : Bool)
    (f : Nat → Nat → Nat × Flags) (s : State) : Host.Outcome State Fault Refusal :=
  let w := vw ty
  vIssue st major lat (vreads d k z false (.v a :: (b.map RegId.v).toList)) d k z (ty == .f64) w rm
    (fun th _ i _ => f (elemAt w (th.rv a) i) (match b with | some b => elemAt w (th.rv b) i | none => 0))
    (fun th => th.pv a ||| (match b with | some b => th.pv b | none => 0)) s

/-- VMIN (R98, R156). -/
def execVmin (st : Stall) (ty : VType) (rm : RmField) (d a b : VReg) (k : KReg) (z : Bool) (s : State) :
    Host.Outcome State Fault Refusal :=
  vBits st 14 4 ty (some rm) d a (some b) k z (fun x y =>
    if ty.isInt then (if elemInt ty y < elemInt ty x then y else x, Flags.none) else minMaxF (vfmt ty) false x y) s

/-- VMAX (R98, R156). -/
def execVmax (st : Stall) (ty : VType) (rm : RmField) (d a b : VReg) (k : KReg) (z : Bool) (s : State) :
    Host.Outcome State Fault Refusal :=
  vBits st 14 4 ty (some rm) d a (some b) k z (fun x y =>
    if ty.isInt then (if elemInt ty x < elemInt ty y then y else x, Flags.none) else minMaxF (vfmt ty) true x y) s

/-- VABS and VNEG of a float: the sign bit alone, the canonical NaN for a NaN (R156). -/
def signOp (f : Fmt) (flip : Bool) (x : Nat) : Nat × Flags :=
  match f.decode x with
  | .nan sig => (f.nanBits, { invalid := sig })
  | v => (f.signBit (flip && !v.isNeg) + x % 2 ^ (f.ew + f.mw), Flags.none)

/-- VABS (R156). -/
def execVabs (st : Stall) (ty : VType) (rm : RmField) (d a : VReg) (k : KReg) (z : Bool) (s : State) :
    Host.Outcome State Fault Refusal :=
  vBits st 14 4 ty (some rm) d a none k z (fun x _ =>
    if ty.isInt then (intBits (vw ty) (elemInt ty x).natAbs, Flags.none) else signOp (vfmt ty) false x) s

/-- VNEG (R156). -/
def execVneg (st : Stall) (ty : VType) (rm : RmField) (d a : VReg) (k : KReg) (z : Bool) (s : State) :
    Host.Outcome State Fault Refusal :=
  vBits st 14 4 ty (some rm) d a none k z (fun x _ =>
    if ty.isInt then (intBits (vw ty) (-(elemInt ty x)), Flags.none) else signOp (vfmt ty) true x) s

/-- VAND (R156). DEDUCED (log 25): no step of SEED under a stochastic RM, for nothing is rounded. -/
def execVand (st : Stall) (ty : VType) (_rm : RmField) (d a b : VReg) (k : KReg) (z : Bool) (s : State) :
    Host.Outcome State Fault Refusal :=
  vBits st 14 4 ty none d a (some b) k z (fun x y => (Nat.land x y, Flags.none)) s

/-- VOR (R156). DEDUCED (log 25): no step of SEED under a stochastic RM, for nothing is rounded. -/
def execVor (st : Stall) (ty : VType) (_rm : RmField) (d a b : VReg) (k : KReg) (z : Bool) (s : State) :
    Host.Outcome State Fault Refusal :=
  vBits st 14 4 ty none d a (some b) k z (fun x y => (Nat.lor x y, Flags.none)) s

/-- VXOR (R156). DEDUCED (log 25): no step of SEED under a stochastic RM, for nothing is rounded. -/
def execVxor (st : Stall) (ty : VType) (_rm : RmField) (d a b : VReg) (k : KReg) (z : Bool) (s : State) :
    Host.Outcome State Fault Refusal :=
  vBits st 14 4 ty none d a (some b) k z (fun x y => (Nat.xor x y, Flags.none)) s

/-- VSHL (R156). -/
def execVshl (st : Stall) (ty : VType) (d a b : VReg) (k : KReg) (z : Bool) (s : State) :
    Host.Outcome State Fault Refusal :=
  vBits st 14 4 ty none d a (some b) k z (fun x y => (x * 2 ^ (y % vw ty), Flags.none)) s

/-- VSHR (R156). -/
def execVshr (st : Stall) (ty : VType) (d a b : VReg) (k : KReg) (z : Bool) (s : State) :
    Host.Outcome State Fault Refusal :=
  vBits st 14 4 ty none d a (some b) k z (fun x y => (x / 2 ^ (y % vw ty), Flags.none)) s

/-- VSRA: arithmetic, also for n32 (R156). -/
def execVsra (st : Stall) (ty : VType) (d a b : VReg) (k : KReg) (z : Bool) (s : State) :
    Host.Outcome State Fault Refusal :=
  vBits st 14 4 ty none d a (some b) k z (fun x y =>
    let t := if ty = .n32 then .i32 else ty
    (intBits (vw ty) (elemInt t x / 2 ^ (y % vw ty)), Flags.none)) s

/-- A value clamped to a type's range (R156). -/
def clampTy (ty : VType) (x : Int) : Int := min (vmax ty) (max (vmin ty) x)

/-- VADDS (R156). -/
def execVadds (st : Stall) (ty : VType) (d a b : VReg) (k : KReg) (z : Bool) (s : State) :
    Host.Outcome State Fault Refusal :=
  vBits st 14 4 ty none d a (some b) k z (fun x y =>
    (intBits (vw ty) (clampTy ty (elemInt ty x + elemInt ty y)), Flags.none)) s

/-- VSUBS (R156). -/
def execVsubs (st : Stall) (ty : VType) (d a b : VReg) (k : KReg) (z : Bool) (s : State) :
    Host.Outcome State Fault Refusal :=
  vBits st 14 4 ty none d a (some b) k z (fun x y =>
    (intBits (vw ty) (clampTy ty (elemInt ty x - elemInt ty y)), Flags.none)) s

/-- VDOT (R157): the products of each lane and its addend, summed exactly, rounded once. -/
def execVdot (st : Stall) (ty : VType) (rm : RmField) (d a b : VReg) (k : KReg) (z : Bool) (s : State) :
    Host.Outcome State Fault Refusal :=
  let w := vw ty
  let js := List.range (32 / w)
  vIssue st 14 4 (vreads d k z true [.v a, .v b]) d k z false 32 (some rm)
    (fun th mode i n =>
      let x (j : Nat) := elemAt w (th.rv a) (32 / w * i + j)
      let y (j : Nat) := elemAt w (th.rv b) (32 / w * i + j)
      let u := elemAt 32 (th.rv d) i
      if ty.isInt then
        (intBits 32 (elemInt .i32 u + (js.map fun j => elemInt ty (x j) * elemInt ty (y j)).sum), Flags.none)
      else
        let f := vfmt ty
        let terms := js.map fun j => (f.decode (x j)).res.mul (f.decode (y j)).res
        (sumF (mode == .rdn) ((fmt32.decode u).res :: terms)).round fmt32 mode n)
    (fun th => th.pv a ||| th.pv b ||| th.pv d) s

/-- VBCAST (R156, R158). DEDUCED (log 25): no step of SEED under a stochastic RM. -/
def execVbcast (st : Stall) (ty : VType) (_rm : RmField) (d : VReg) (a : EReg) (k : KReg) (z : Bool) (s : State) :
    Host.Outcome State Fault Refusal :=
  vIssue st 14 4 (vreads d k z false [.e a]) d k z (ty == .f64) (vw ty) none
    (fun th _ _ _ => ((th.re a).toNat % 2 ^ vw ty, Flags.none)) (fun _ => 0) s

/-- The element index of VEXT and VINS (R158). -/
def elemIndex (ty : VType) (b : Word) : Nat := fld b 6 0 % ty.count

/-- VEXT (R158): a poisoned element traps POISON. -/
def execVext (st : Stall) (ty : VType) (_rm : RmField) (d : EReg) (a : VReg) (b : EReg) (s : State) :
    Host.Outcome State Fault Refusal :=
  issue s (op32 st .notXc false 14 [.v a, .e b]) fun e => do
    let th := e.c.th
    let x := elemIndex ty (th.re b)
    let lane := x * vw ty / 32
    need (!(pairPois (ty == .f64) (th.pv a)).getLsbD lane) (.trap cPoison 0 ((RegId.v a).word lane) 0)
    let v := elemAt (vw ty) (th.rv a) x
    let r : Word := if ty.isInt then BitVec.ofInt 64 (elemInt ty v) else w64 v
    fin (e.fixed 4 [.e d r] 0 14)

/-- VINS (R158): one element replaced; its flag is cleared for an element of 32 or 64 bits. DEDUCED (log 25): no step of SEED
under a stochastic RM. -/
def execVins (st : Stall) (ty : VType) (_rm : RmField) (d : VReg) (a b : EReg) (s : State) :
    Host.Outcome State Fault Refusal :=
  issue s (op32 st .notXc false 14 [.e a, .e b, .v d]) fun e =>
    let th := e.c.th
    let w := vw ty
    let x := elemIndex ty (th.re b)
    let m : VWord := BitVec.ofNat 1024 ((2 ^ w - 1) * 2 ^ (w * x))
    let v := (th.rv d &&& ~~~ m) ||| (BitVec.ofNat 1024 ((th.re a).toNat * 2 ^ (w * x)) &&& m)
    let lanes : KWord := if w = 64 then 3 <<< (2 * x) else if w = 32 then 1 <<< x else 0
    fin (e.fixed 4 [.v d v (th.pv d &&& ~~~ lanes)] 0 14)

/-- VMOV (R156, R158). DEDUCED (log 25): no step of SEED under a stochastic RM. -/
def execVmov (st : Stall) (ty : VType) (_rm : RmField) (d a : VReg) (k : KReg) (z : Bool) (s : State) :
    Host.Outcome State Fault Refusal :=
  vBits st 14 4 ty none d a none k z (fun x _ => (x, Flags.none)) s

end alu

section fn

/-- A function of one float element, rounded once (R159). -/
def vFn1 (st : Stall) (ty : VType) (rm : RmField) (d a : VReg) (k : KReg) (z : Bool)
    (f : Fmt → Mode → Nat → FVal → Nat × Flags) (s : State) : Host.Outcome State Fault Refusal :=
  let w := vw ty
  vIssue st 15 8 (vreads d k z false [.v a]) d k z (ty == .f64) w (some rm)
    (fun th mode i n => f (vfmt ty) mode n ((vfmt ty).decode (elemAt w (th.rv a) i))) (fun th => th.pv a) s

/-- VRCP (R159, R160). -/
def execVrcp (st : Stall) (ty : VType) (rm : RmField) (d a : VReg) (k : KReg) (z : Bool) (s : State) :
    Host.Outcome State Fault Refusal :=
  vFn1 st ty rm d a k z rcpF s

/-- VRSQ (R159, R160). -/
def execVrsq (st : Stall) (ty : VType) (rm : RmField) (d a : VReg) (k : KReg) (z : Bool) (s : State) :
    Host.Outcome State Fault Refusal :=
  vFn1 st ty rm d a k z rsqF s

/-- VSQRT (R159, R160). -/
def execVsqrt (st : Stall) (ty : VType) (rm : RmField) (d a : VReg) (k : KReg) (z : Bool) (s : State) :
    Host.Outcome State Fault Refusal :=
  vFn1 st ty rm d a k z sqrtF s

/-- VEXP2 (R159, R160). -/
def execVexp2 (st : Stall) (ty : VType) (rm : RmField) (d a : VReg) (k : KReg) (z : Bool) (s : State) :
    Host.Outcome State Fault Refusal :=
  vFn1 st ty rm d a k z exp2F s

/-- VLOG2 (R159, R160). -/
def execVlog2 (st : Stall) (ty : VType) (rm : RmField) (d a : VReg) (k : KReg) (z : Bool) (s : State) :
    Host.Outcome State Fault Refusal :=
  vFn1 st ty rm d a k z log2F s

/-- VDIV (R159, R160). -/
def execVdiv (st : Stall) (ty : VType) (rm : RmField) (d a b : VReg) (k : KReg) (z : Bool) (s : State) :
    Host.Outcome State Fault Refusal :=
  let w := vw ty
  vIssue st 15 8 (vreads d k z false [.v a, .v b]) d k z (ty == .f64) w (some rm)
    (fun th mode i n =>
      divF (vfmt ty) mode n ((vfmt ty).decode (elemAt w (th.rv a) i)) ((vfmt ty).decode (elemAt w (th.rv b) i)))
    (fun th => th.pv a ||| th.pv b) s

/-- A comparison of two elements: less, equal, or unordered (R161). -/
structure Cmp3 where
  lt : Bool
  eq : Bool
  sig : Bool
  nan : Bool
  deriving DecidableEq, Repr

/-- Two elements compared (R161). -/
def cmpElem (ty : VType) (x y : Nat) : Cmp3 :=
  if ty.isInt then ⟨decide (elemInt ty x < elemInt ty y), decide (x = y), false, false⟩
  else
    let a := (vfmt ty).decode x; let b := (vfmt ty).decode y
    if a.isNan || b.isNan then ⟨false, false, a.isSig || b.isSig, true⟩
    else ⟨decide (cmpF a b < 0), decide (cmpF a b = 0), false, false⟩

/-- The lowest active poisoned element, vA before vB (R161): its register and lane. -/
def poisElem (f64 : Bool) (m : KWord) (th : Thread) (a b : VReg) : Option (VReg × Nat) :=
  (List.range 32).findSome? fun i =>
    if m.getLsbD i ∧ (pairPois f64 (th.pv a)).getLsbD i then some (a, i)
    else if m.getLsbD i ∧ (pairPois f64 (th.pv b)).getLsbD i then some (b, i)
    else none

/-- A compare (R161): a bit per lane, two per f64 element; a poisoned active element traps. -/
def vCompare (st : Stall) (ty : VType) (d : KReg) (a b : VReg) (k : KReg) (z : Bool) (f : Cmp3 → Bool)
    (ordered : Bool) (s : State) : Host.Outcome State Fault Refusal :=
  let w := vw ty
  let f64 := ty == .f64
  issue s (op32 st .notXc false 15
      ([.v a, .v b] ++ (if k = 0 then [] else [.k k]) ++ (if !z && k != 0 then [.k d] else []))) fun e => do
    let th := e.c.th
    let m := laneMask f64 (th.rk k)
    match poisElem f64 m th a b with
    | some (r, lane) => .error (.trap cPoison 0 ((RegId.v r).word lane) 0)
    | none => .ok ()
    let act (i : Nat) := m.getLsbD (i * w / 32)
    let c (i : Nat) := cmpElem ty (elemAt w (th.rv a) i) (elemAt w (th.rv b) i)
    let (val, fl, _) := mapElems (w / 32) act false (fun i _ =>
      let r := c i
      (if f r then 2 ^ (w / 32) - 1 else 0, { invalid := r.sig || (ordered && r.nan) })) (1024 / w) 0 0
    let bits : KWord := BitVec.ofNat 32 val
    fin (e.fixed 8 [.k d (if z then bits else bits ||| (th.rk d &&& ~~~ m))] fl.bits 15)

/-- VCMPEQ (R161). -/
def execVcmpeq (st : Stall) (ty : VType) (d : KReg) (a b : VReg) (k : KReg) (z : Bool) (s : State) :
    Host.Outcome State Fault Refusal :=
  vCompare st ty d a b k z (fun c => c.eq) false s

/-- VCMPNE (R161). -/
def execVcmpne (st : Stall) (ty : VType) (d : KReg) (a b : VReg) (k : KReg) (z : Bool) (s : State) :
    Host.Outcome State Fault Refusal :=
  vCompare st ty d a b k z (fun c => !c.eq) false s

/-- VCMPLT (R161). -/
def execVcmplt (st : Stall) (ty : VType) (d : KReg) (a b : VReg) (k : KReg) (z : Bool) (s : State) :
    Host.Outcome State Fault Refusal :=
  vCompare st ty d a b k z (fun c => c.lt) true s

/-- VCMPLE (R161). -/
def execVcmple (st : Stall) (ty : VType) (d : KReg) (a b : VReg) (k : KReg) (z : Bool) (s : State) :
    Host.Outcome State Fault Refusal :=
  vCompare st ty d a b k z (fun c => c.lt || c.eq) true s

/-- VSEL (R162): every element written, from vA under the mask and from vB elsewhere. -/
def execVsel (st : Stall) (ty : VType) (d a b : VReg) (k : KReg) (s : State) : Host.Outcome State Fault Refusal :=
  let f64 := ty == .f64
  issue s (op32 st .notXc false 15 ([.v a, .v b] ++ if k = 0 then [] else [.k k])) fun e =>
    let th := e.c.th
    let (v, p) := mergeV (laneMask f64 (th.rk k)) false (th.rv b) (pairPois f64 (th.pv b)) (th.rv a)
      (pairPois f64 (th.pv a))
    fin (e.fixed 8 [.v d v p] 0 15)

/-- The class mask of an element (R162). -/
def classOf (f : Fmt) (x : Nat) : Nat :=
  match f.decode x with
  | .nan sig => if sig then 2 ^ 8 else 2 ^ 9
  | .inf neg => if neg then 1 else 2 ^ 7
  | .fin neg m _ =>
    if m = 0 then (if neg then 2 ^ 3 else 2 ^ 4)
    else if m < 2 ^ f.mw then (if neg then 2 ^ 2 else 2 ^ 5)
    else if neg then 2 ^ 1 else 2 ^ 6

/-- VCLASS (R162). -/
def execVclass (st : Stall) (ty : VType) (d a : VReg) (k : KReg) (z : Bool) (s : State) :
    Host.Outcome State Fault Refusal :=
  vBits st 15 8 ty none d a none k z (fun x _ => (classOf (vfmt ty) x, Flags.none)) s

end fn

end Sys2Proof.Machine
end

