-- ==== Sys2Proof/Machine/VectorCvt.lean ====
section
/-! DEFINITION. The V-CVT, V-PERM and V-MASK majors (R163 to R170, R175), with the list event of VQDX (R166). -/

namespace Sys2Proof.Machine

section convert

/-- One element converted (R163). -/
def cvtElem (dst src : VType) (mode : Mode) (n : Nat) (x : Nat) : Nat × Flags :=
  let v := elemInt src x
  let asF : FVal := if src.isInt then .fin (decide (v < 0)) v.natAbs 0 else (vfmt src).decode x
  if dst.isInt then
    if src.isInt then
      let c := clampTy dst v
      (intBits (vw dst) c, { invalid := decide (c ≠ v) })
    else
      let (r, fl) := roundInt (vmin dst) (vmax dst) mode n asF
      (intBits (vw dst) r, fl)
  else (vfmt dst).round mode false n asF

/-- The lanes that hold the elements from first, n of width w. -/
def elemLanes (w first n : Nat) : KWord :=
  BitVec.ofNat 32 (2 ^ ((first + n) * w / 32) - 2 ^ (first * w / 32))

/-- VCVT (R163). -/
def execVcvt (st : Stall) (dst src : VType) (rm : RmField) (d a : VReg) (part : Fin 4) (z : Bool) (s : State) :
    Host.Outcome State Fault Refusal :=
  let wd := vw dst; let ws := vw src
  let nd := dst.count; let ns := src.count
  let n := min nd ns
  let d0 := if ns < nd then part.val * ns else 0
  let s0 := if nd < ns then part.val * nd else 0
  issue s (op32 st .notXc false 16 (.v a :: if z then [] else [.v d])) fun e =>
    let th := e.c.th
    let mode := rmMode rm th
    let (val, fl, seed) := mapElems wd (fun _ => true) (mode == .sr)
      (fun i r => cvtElem dst src mode r (elemAt ws (th.rv a) (s0 + i))) n 0 th.seed
    let pa := pairPois (src == .f64) (th.pv a)
    let pois := (List.range n).foldl (fun p i =>
      if pa.getLsbD ((s0 + i) * ws / 32) then p ||| BitVec.twoPow 32 ((d0 + i) * wd / 32) else p) (0 : KWord)
    let (v, p) := mergeV (elemLanes wd d0 n) z (th.rv d) (th.pv d) (BitVec.ofNat 1024 (val * 2 ^ (wd * d0)))
      (pairPois (dst == .f64) pois)
    fin ((e.withTh { th with seed }).fixed 4 [.v d v p] fl.bits 16)

/-- The conversion descriptor of e0 (R164). -/
structure Desc where
  nfmt : Nat
  sat : Bool
  outl : Bool
  cap : Nat
  pos : Nat
  sidx : Nat
  ocap : Nat
  deriving DecidableEq, Repr

/-- The fields of a descriptor (R164). -/
def Desc.of (w : Word) : Desc :=
  { nfmt := fld w 2 0, sat := w.getLsbD 3, outl := w.getLsbD 4, cap := fld w 13 6, pos := fld w 16 14
    sidx := fld w 23 17, ocap := fld w 39 24 }

/-- NFMT 3 or 4: a DX format (R164). -/
def Desc.dx (x : Desc) : Bool := x.nfmt == 3 || x.nfmt == 4

/-- The element width of NFMT (R164). -/
def Desc.ew (x : Desc) : Nat := if x.nfmt = 2 ∨ x.nfmt = 4 then 4 else 8

/-- The element format of NFMT 0 to 2 (R164). -/
def Desc.fmt (x : Desc) : Fmt := if x.nfmt = 0 then fmtE4m3 else if x.nfmt = 1 then fmtE5m2 else fmtE2m1

/-- A descriptor that keeps every rule of R164, for an instruction that accepts the given formats. -/
def descOk (w : Word) (vqdx dx mx : Bool) : Bool :=
  let x := Desc.of w
  decide (x.nfmt ≤ 4) && (if x.dx then dx else mx) && (vqdx || !x.outl) && !w.getLsbD 5 && decide (x.cap ≤ 254)
    && (x.ew == 4 || decide (x.pos ≤ 3)) && (!x.dx || decide (x.sidx ≤ 63)) && decide (fld w 63 40 = 0)

/-- 32 elements of the descriptor's width put at POS of a register (R164). -/
def putPlane (x : Desc) (old : VWord) (els : List Nat) : VWord :=
  let sh := 32 * x.ew * x.pos
  let m : VWord := BitVec.ofNat 1024 ((2 ^ (32 * x.ew) - 1) * 2 ^ sh)
  let v := els.foldr (fun y acc => y % 2 ^ x.ew + 2 ^ x.ew * acc) 0
  (old &&& ~~~ m) ||| BitVec.ofNat 1024 (v * 2 ^ sh)

/-- The lanes of the element plane (R164). -/
def planeLanes (x : Desc) : KWord := BitVec.ofNat 32 ((2 ^ x.ew - 1) * 2 ^ (x.ew * x.pos))

/-- The width of the scale record (R164). -/
def Desc.sw (x : Desc) : Nat := if x.dx then 16 else 8

/-- A scale record put at SIDX of a register (R164). -/
def putScale (x : Desc) (old : VWord) (sc : Nat) : VWord :=
  let sh := x.sw * x.sidx
  let m : VWord := BitVec.ofNat 1024 ((2 ^ x.sw - 1) * 2 ^ sh)
  (old &&& ~~~ m) ||| BitVec.ofNat 1024 (sc % 2 ^ x.sw * 2 ^ sh)

/-- The lane of the scale record. -/
def scaleLane (x : Desc) : KWord := BitVec.twoPow 32 (x.sw * x.sidx / 32)

/-- The 32 FP32 lanes of a register. -/
def lanes32 (v : VWord) : List Nat := (List.range 32).map (elemAt 32 v)

/-- The 32 elements of the plane at POS. -/
def planeElems (x : Desc) (v : VWord) : List Nat := (List.range 32).map fun i => elemAt x.ew v (32 * x.pos + i)

/-- A number from 32-bit values, the first lowest. -/
def ofLanes (l : List Nat) : VWord := BitVec.ofNat 1024 (l.foldr (fun y acc => y % 2 ^ 32 + 2 ^ 32 * acc) 0)

/-- The register writes of VQDX and VQMX (R165): the element plane into vD, the scale record into vB. When both name
one register, the record stands over the plane, and where it lies within the plane its value is free (log 19). -/
def quantWrites (x : Desc) (th : Thread) (d a b : VReg) (els : List Nat) (sc free : Nat) : List RegWrite :=
  let p := th.pv a ≠ 0
  let pl := planeLanes x
  let vd := putPlane x (th.rv d) els
  let pd := if p then th.pv d ||| pl else th.pv d &&& ~~~ pl
  let sl := scaleLane x
  let pb (old : KWord) : KWord := if p then old ||| sl else old
  if d = b then
    let inside := decide (32 * x.ew * x.pos < x.sw * (x.sidx + 1) ∧ x.sw * x.sidx < 32 * x.ew * (x.pos + 1))
    [.v d (putScale x vd (if inside then free else sc)) (pb pd)]
  else [.v d vd pd, .v b (putScale x (th.rv b) sc) (pb (th.pv b))]

/-- A resource that stays taken until an event releases it. -/
def untilEvent : Nat := 2 ^ 62

/-- A register read that depends on an operand: STALL-SHORT as in R82. -/
def needLanded (e : Env) (op : Op) (reads : List RegId) : Except Stop Unit :=
  match (if e.t.stallchk then shortRead e { op with reads } else none) with
  | some (r, p) => .error (.trap cStall 0 (r.word 0) (shortWord e p))
  | none => .ok ()

/-- VQDX (R101, R165, R166). -/
def execVqdx (st : Stall) (rm : RmField) (d a b : VReg) (s : State) : Host.Outcome State Fault Refusal :=
  let op := op32 st .notXc false 16 [.v a, .v b, .v d, .e 0]
  issue s op fun e => do
    let th := e.c.th
    let x := Desc.of (th.re 0)
    if x.outl then needLanded e op [.e 1, .e 2]
    need (descOk (th.re 0) true true false) (.trap cIllegal 0 e.bits 0)
    need (!x.outl || !e.speculative) .hold
    if x.outl then
      match (List.range 32).find? fun i => (th.pv a).getLsbD i with
      | some lane => .error (.trap cPoison 0 ((RegId.v a).word lane) 0)
      | none => .ok ()
    let p := th.re 1
    let o ← if x.outl then (do
        need (!e.acquiring) .hold
        let o ← checkLocalP e p 16 0 8 .store 6
        need (e.t.carve.region o = .cell) (.trap cBounds 1 p (e.t.access o 0 6))
        return o) else .ok 0
    need (decide (e.t.quantiser.freeAt ≤ e.now)) .hold
    let (els, sc, fl, seed, out) :=
      quantDx x.ew x.cap x.outl (rmMode rm th) ((lanes32 (th.rv a)).map fmt32.decode) th.seed
    let writes := quantWrites x th d a b els sc (e.openWord (Config.freeWord e.s.free)).toNat
    let e := { e with s := e.s.tick1 }
    let recs : List Word := (List.range 32).filterMap fun i =>
      if out.getD i false then some (w64 (elemAt 32 (th.rv a) i + i * 2 ^ 32 + fld (th.re 2) 26 0 * 2 ^ 37)) else none
    if recs.isEmpty then
      let e := (e.withTh { th with seed }).interlocked 10 writes fl.bits 16
      fin { e with
        t := { e.t with quantiser := ⟨e.now + 10, e.me, e.now⟩ }
        c := { e.c with notBefore := if x.outl then max e.c.notBefore (e.now + 10) else e.c.notBefore } }
    else
      let q : CellOp :=
        { ctx := e.me, seq := th.seq, age := e.t.age, fn := .list recs x.ocap writes seed fl.bits, ptr := p, addr := o
          opnd := 0, expect := 0, ord := .relaxed, dest := 0, stall := st }
      return .stay { e with
        t := { e.t with cellQ := e.t.cellQ ++ [q], quantiser := ⟨untilEvent, e.me, e.now⟩ }
        c := { e.c with busy := .event, th := { e.c.th with skips := st.val } } }

/-- VQMX (R100, R165). -/
def execVqmx (st : Stall) (rm : RmField) (d a b : VReg) (s : State) : Host.Outcome State Fault Refusal :=
  issue s (op32 st .notXc false 16 [.v a, .v b, .v d, .e 0]) fun e => do
    let th := e.c.th
    let x := Desc.of (th.re 0)
    need (descOk (th.re 0) false false true) (.trap cIllegal 0 e.bits 0)
    need (decide (e.t.quantiser.freeAt ≤ e.now)) .hold
    let (els, sc, fl, seed) := quantMx x.fmt (rmMode rm th) ((lanes32 (th.rv a)).map fmt32.decode) th.seed
    let writes := quantWrites x th d a b els sc (e.openWord (Config.freeWord e.s.free)).toNat
    let e := { e with s := e.s.tick1 }
    let e := (e.withTh { th with seed }).interlocked 10 writes fl.bits 16
    fin { e with t := { e.t with quantiser := ⟨e.now + 10, e.me, e.now⟩ } }

/-- VDQ (R94, R95, R167). -/
def execVdq (st : Stall) (d a b : VReg) (s : State) : Host.Outcome State Fault Refusal :=
  issue s (op32 st .notXc false 16 [.v a, .v b, .e 0]) fun e => do
    let th := e.c.th
    let x := Desc.of (th.re 0)
    need (descOk (th.re 0) false true true) (.trap cIllegal 0 e.bits 0)
    let sc := elemAt x.sw (th.rv b) x.sidx
    let dec (y : Nat) : Nat × Flags :=
      fmt32.round .rne false 0 (if x.dx then dxDecode x.ew y (sc % 256) (sc / 256) else mxDecode x.fmt y sc)
    let rs := (planeElems x (th.rv a)).map dec
    let pois : KWord := if th.pv a ≠ 0 ∨ th.pv b ≠ 0 then 0xFFFFFFFF else 0
    fin (e.fixed 4 [.v d (ofLanes (rs.map Prod.fst)) pois] (Flags.all (rs.map Prod.snd)).bits 16)

/-- VPACK (R167). -/
def execVpack (st : Stall) (rm : RmField) (d a : VReg) (s : State) : Host.Outcome State Fault Refusal :=
  issue s (op32 st .notXc false 16 [.v a, .v d, .e 0]) fun e => do
    let th := e.c.th
    let x := Desc.of (th.re 0)
    need (descOk (th.re 0) false false true) (.trap cIllegal 0 e.bits 0)
    let mode := rmMode rm th
    let (els, fl, seed) := mapSeed (mode == .sr) (fun y n => x.fmt.round mode x.sat n (fmt32.decode y))
      (lanes32 (th.rv a)) th.seed
    let pl := planeLanes x
    let pois := (List.range 32).foldl (fun p i =>
      if (th.pv a).getLsbD i then p ||| BitVec.twoPow 32 (x.ew * (32 * x.pos + i) / 32) else p) (th.pv d &&& ~~~ pl)
    fin ((e.withTh { th with seed }).fixed 4 [.v d (putPlane x (th.rv d) els) pois] fl.bits 16)

/-- VUNPK (R167). -/
def execVunpk (st : Stall) (d a : VReg) (s : State) : Host.Outcome State Fault Refusal :=
  issue s (op32 st .notXc false 16 [.v a, .e 0]) fun e => do
    let th := e.c.th
    let x := Desc.of (th.re 0)
    need (descOk (th.re 0) false false true) (.trap cIllegal 0 e.bits 0)
    let rs := (planeElems x (th.rv a)).map fun y => fmt32.round .rne false 0 (x.fmt.decode y)
    let pois := (List.range 32).foldl (fun p i =>
      if (th.pv a).getLsbD (x.ew * (32 * x.pos + i) / 32) then p ||| BitVec.twoPow 32 i else p) (0 : KWord)
    fin (e.fixed 4 [.v d (ofLanes (rs.map Prod.fst)) pois] (Flags.all (rs.map Prod.snd)).bits 16)

/-- The list event of a VQDX (R166): its checks, the records' own among them as those of any store (R23, R40), or the
records, the count and the results. DEDUCED (log 93): the event holds the port for 1 + k cycles, and the results land 3 cycles after
the last of these; TVAL of its traps is e1, ACCESS names the granule that fails, and a full list is BOUNDS of FORM 1 at the count cell. -/
def listPerform (s : State) (dom rank : Nat) (t : Tile) (q : CellOp) (recs : List Word) (ocap : Nat)
    (writes : List RegWrite) (seed : BitVec 32) (flags : BitVec 5) : State :=
  let now := s.cycle
  let o := q.addr
  let cnt := (t.sram.read64 o).toNat
  let k := recs.length
  let at_ (m : Nat) : Nat := o + 8 + 8 * m
  let idx := (List.range k).map fun i => at_ (cnt + i)
  let free (s : State) : State := s.updTile dom rank fun t => { t with quantiser := { t.quantiser with freeAt := now + 1 } }
  if ocap < cnt + k then free (cellTrap s dom rank t q cBounds 1 q.ptr (t.access o 0 6))
  else
    match idx.find? fun a => decide (a > 0xFFFFF) || t.carve.region a != .cell || t.hitsWord1 a 8 with
    | some a => free (cellTrap s dom rank t q cBounds 1 q.ptr (t.access (min a 0xFFFFF) 0 6))
    | none =>
      match idx.find? fun a => t.granTag a != ptrTag q.ptr with
      | some a => free (cellTrap s dom rank t q cTag 0 q.ptr (t.access a 0 6))
      | none =>
        if t.granPois o then free (cellTrap s dom rank t q cPoison 1 q.ptr (t.access o 0 6))
        else
          let cells := (List.range k).flatMap fun i =>
            cellsAt (at_ (cnt + i)) (natBytes 8 (recs.getD i 0).toNat)
          let sram := (t.sram.writeCells cells).write64 o (w64 (cnt + k))
          let land := now + k + 3
          let t := { (t.cellRead q).dropCellOp q with
            sram, cellFree := now + 1 + k, quantiser := { t.quantiser with freeAt := land } }
          let c := t.ctx q.ctx
          let th := ({ c.th with seed }).issueResult (writes.map RegWrite.id) writes (some land) false flags 16
          let c := { c with th, notBefore := max c.notBefore (now + 1 + k) }
          s.updTile dom rank fun _ => t.setCtx q.ctx (c.finish 4 c.th.skips)

end convert

section permute

/-- Elements moved within a register (R168): src gives, for an index, the element it takes; poison follows the
element and the index. -/
def vMove (st : Stall) (ty : VType) (reads : List RegId) (d a : VReg) (k : KReg) (z : Bool)
    (src : Thread → Nat → Nat) (idxPois : Thread → KWord) (s : State) : Host.Outcome State Fault Refusal :=
  let w := vw ty
  let f64 := ty == .f64
  vIssue st 17 4 (vreads d k z false reads) d k z f64 w none
    (fun th _ i _ => (elemAt w (th.rv a) (src th i), Flags.none))
    (fun th =>
      let pa := pairPois f64 (th.pv a)
      (List.range ty.count).foldl (fun p i =>
        if pa.getLsbD (src th i * w / 32) then p ||| BitVec.twoPow 32 (i * w / 32) else p) (idxPois th)) s

/-- VPERM (R168). -/
def execVperm (st : Stall) (ty : VType) (d a b : VReg) (k : KReg) (z : Bool) (s : State) :
    Host.Outcome State Fault Refusal :=
  vMove st ty [.v a, .v b] d a k z (fun th i => elemAt (vw ty) (th.rv b) i % ty.count) (fun th => th.pv b) s

/-- VROT (R168). -/
def execVrot (st : Stall) (ty : VType) (d a : VReg) (b : EReg) (k : KReg) (z : Bool) (s : State) :
    Host.Outcome State Fault Refusal :=
  vMove st ty [.v a, .e b] d a k z (fun th i => (i + (th.re b).toNat) % ty.count) (fun _ => 0) s

/-- The format of a floating-point reduction (R105). -/
def redFmt (ty : VType) : Fmt := if ty = .f64 then fmt64 else fmt32

/-- The identity of an operation on a float type, and on an integer type (R169). -/
def redIdent (ty : VType) (op : RedOp) : Nat :=
  let f := redFmt ty
  if ty.isInt then
    match op with
    | .add => 0
    | .min => intBits (vw ty) (vmax ty)
    | .max => intBits (vw ty) (vmin ty)
  else
    match op with
    | .add => f.signBit true
    | .min => f.infBits
    | .max => f.signBit true + f.infBits

/-- One integer or min/max combination of two elements' bits (R105, R169). -/
def redComb (ty : VType) (op : RedOp) (x y : Nat) : Nat × Flags :=
  if ty.isInt then
    let a := elemInt ty x; let b := elemInt ty y
    match op with
    | .add => (intBits (vw ty) (a + b), Flags.none)
    | .min => (if b < a then y else x, Flags.none)
    | .max => (if a < b then y else x, Flags.none)
  else minMaxF (redFmt ty) (op == .max) x y

/-- One rounded addition of bits in the reduction type (R105). -/
def redAdd (f : Fmt) (mode : Mode) (n : Nat) (x y : FVal) : Nat × Flags :=
  (sumF (mode == .rdn) [x.res, y.res]).round f mode n

/-- One level of the tree: pairs added in ascending order (R105). -/
def treeLevel (f : Fmt) (mode : Mode) : List FVal → BitVec 32 → List FVal × Flags × BitVec 32
  | x :: y :: t, s =>
    let s := if mode = .sr then seedStep s else s
    let (r, fl) := redAdd f mode (s >>> 16).toNat x y
    let (rs, fls, s) := treeLevel f mode t s
    (f.decode r :: rs, fl.or fls, s)
  | l, s => (l, Flags.none, s)

/-- The levels of the tree until one value remains (R105). -/
def treeSum (f : Fmt) (mode : Mode) : Nat → List FVal → BitVec 32 → List FVal × Flags × BitVec 32
  | 0, l, s => (l, Flags.none, s)
  | n + 1, l, s =>
    let (l, fl, s) := treeLevel f mode l s
    let (l, fls, s) := treeSum f mode n l s
    (l, fl.or fls, s)

/-- The width of VRED's result (R169). -/
def redWidth (ty : VType) : Nat := if ty = .bf16x2 ∨ ty = .f16x2 then 32 else vw ty

/-- The value of an element of VRED's tree in its reduction type, bits for min and max (R105, R169). -/
def redBits (ty : VType) (x : Nat) : Nat :=
  if ty = .bf16x2 ∨ ty = .f16x2 then (fmt32.round .rne false 0 ((vfmt ty).decode x)).1 else x

/-- VRED's value (R105, R169). DEDUCED (log 25): only the additions of its tree step SEED; min and max step none. -/
def redValue (ty : VType) (op : RedOp) (mode : Mode) (act : Nat → Bool) (v : VWord) (seed : BitVec 32) :
    Nat × Flags × BitVec 32 :=
  let w := vw ty
  let n := ty.count
  if !ty.isInt && op == .add then
    let xs := (List.range n).map fun i => if act i then (vfmt ty).decode (elemAt w v i) else FVal.fin true 0 0
    let (l, fl, seed) := treeSum (redFmt ty) mode n.log2 xs seed
    (((redFmt ty).round .rne false 0 (l.headD (.fin true 0 0))).1, fl, seed)
  else
    let r := ((List.range n).filter act).foldl (fun (acc : Nat × Flags) i =>
      let (x, fl) := redComb ty op acc.1 (redBits ty (elemAt w v i))
      (x, acc.2.or fl)) (redIdent ty op, Flags.none)
    (r.1, r.2, seed)

/-- VRED (R105, R155, R169): element 0 of vD, or lane 0 for the packed float types. -/
def execVred (st : Stall) (ty : VType) (op : RedOp) (rm : RmField) (d a : VReg) (k : KReg) (z : Bool) (s : State) :
    Host.Outcome State Fault Refusal :=
  let f64 := ty == .f64
  let w := vw ty
  issue s (op32 st .notXc false 17 (.v a :: (if k = 0 then [] else [.k k]) ++ if z then [] else [.v d])) fun e => do
    need (decide (e.t.tree.freeAt ≤ e.now)) .hold
    let th := e.c.th
    let m := laneMask f64 (th.rk k)
    let act (i : Nat) := m.getLsbD (i * w / 32)
    let (r, fl, seed) := redValue ty op (rmMode rm th) act (th.rv a) th.seed
    let pois := (pairPois f64 (th.pv a) &&& m) ≠ 0
    let rw := redWidth ty
    let keep : VWord := if z then 0 else (th.rv d >>> rw) <<< rw
    let lanes : KWord := if f64 then 3 else 1
    let oldp : KWord := if z then 0 else if rw < 32 then th.pv d else th.pv d &&& ~~~ lanes
    let e := (e.withTh { th with seed }).interlocked 12
      [.v d (keep ||| BitVec.ofNat 1024 (r % 2 ^ rw)) (if pois then oldp ||| lanes else oldp)] fl.bits 17
    fin { e with t := { e.t with tree := ⟨e.now + 12, e.me, e.now⟩ } }

/-- The chain of VSCAN from element i (R106, R169): the values of the active elements, the flags, the seed. An inactive element
of a float add counts as −0.0, which turns +0 into −0 under RDN. DEDUCED (log 25): min and max of a float TYPE step SEED too,
as every element written does (R97). -/
def scanFrom (ty : VType) (op : RedOp) (mode : Mode) (act : Nat → Bool) (v : VWord) :
    Nat → Nat → Nat → BitVec 32 → Nat × Flags × BitVec 32
  | 0, _, _, s => (0, Flags.none, s)
  | n + 1, i, acc, s =>
    let w := vw ty
    if act i then
      let x := elemAt w v i
      let flt := !ty.isInt && op == .add
      let s := if !ty.isInt && mode == .sr then seedStep s else s
      let (r, fl) := if flt then redAdd (redFmt ty) mode (s >>> 16).toNat ((redFmt ty).decode acc) ((redFmt ty).decode x)
        else redComb ty op acc x
      let (rest, fls, s) := scanFrom ty op mode act v n (i + 1) r s
      (r % 2 ^ w + 2 ^ w * rest, fl.or fls, s)
    else
      let kept := if !ty.isInt && op == .add then
        (redAdd (redFmt ty) mode 0 ((redFmt ty).decode acc) (.fin true 0 0)).1 else acc
      let (rest, fls, s) := scanFrom ty op mode act v n (i + 1) kept s
      (2 ^ w * rest, fls, s)

/-- VSCAN (R106, R155, R169). -/
def execVscan (st : Stall) (ty : VType) (op : RedOp) (rm : RmField) (d a : VReg) (k : KReg) (z : Bool) (s : State) :
    Host.Outcome State Fault Refusal :=
  let f64 := ty == .f64
  let w := vw ty
  issue s (op32 st .notXc false 17 (vreads d k z false [.v a])) fun e => do
    need (decide (e.t.tree.freeAt ≤ e.now)) .hold
    let th := e.c.th
    let m := laneMask f64 (th.rk k)
    let act (i : Nat) := m.getLsbD (i * w / 32)
    let (r, fl, seed) := scanFrom ty op (rmMode rm th) act (th.rv a) ty.count 0 (redIdent ty op) th.seed
    let pa := pairPois f64 (th.pv a) &&& m
    let pois := (List.range 32).foldl (fun p i =>
      if (pa &&& BitVec.ofNat 32 (2 ^ (i + 1) - 1)) = 0 then p else p ||| BitVec.twoPow 32 i) (0 : KWord)
    let (v, p) := mergeV m z (th.rv d) (th.pv d) (BitVec.ofNat 1024 r) (pairPois f64 pois)
    let e := (e.withTh { th with seed }).interlocked 12 [.v d v p] fl.bits 17
    fin { e with t := { e.t with tree := ⟨e.now + 12, e.me, e.now⟩ } }

/-- VCOMPR (R170): the active elements, packed low. -/
def execVcompr (st : Stall) (ty : VType) (d a : VReg) (k : KReg) (z : Bool) (s : State) :
    Host.Outcome State Fault Refusal :=
  let f64 := ty == .f64
  let w := vw ty
  issue s (op32 st .notXc false 17 (vreads d k z false [.v a])) fun e =>
    let th := e.c.th
    let m := laneMask f64 (th.rk k)
    let pa := pairPois f64 (th.pv a)
    let act := (List.range ty.count).filter fun i => m.getLsbD (i * w / 32)
    let val := act.foldr (fun i acc => elemAt w (th.rv a) i + 2 ^ w * acc) 0
    let pois := (List.range act.length).foldl (fun p j =>
      if pa.getLsbD (act.getD j 0 * w / 32) then p ||| BitVec.twoPow 32 (j * w / 32) else p) (0 : KWord)
    let (v, p) := mergeV (elemLanes w 0 act.length) z (th.rv d) (th.pv d) (BitVec.ofNat 1024 val) (pairPois f64 pois)
    fin (e.fixed 4 [.v d v p] 0 17)

/-- VIOTA (R170): the number of active lanes below each active lane. -/
def execViota (st : Stall) (d : VReg) (k : KReg) (z : Bool) (s : State) : Host.Outcome State Fault Refusal :=
  vIssue st 17 4 (vreads d k z false []) d k z false 32 none
    (fun th _ i _ => (popBelow (th.rk k) i, Flags.none)) (fun _ => 0) s

end permute

section masks

/-- A mask operation (R175). -/
def kIssue (st : Stall) (d : KReg) (srcs : List KReg) (f : Thread → KWord) (s : State) :
    Host.Outcome State Fault Refusal :=
  issue s (op32 st .notXc false 19 (srcs.map RegId.k)) fun e => fin (e.fixed 1 [.k d (f e.c.th)] 0 19)

/-- KAND (R175). -/
def execKand (st : Stall) (d a b : KReg) (s : State) : Host.Outcome State Fault Refusal :=
  kIssue st d [a, b] (fun th => th.rk a &&& th.rk b) s

/-- KOR (R175). -/
def execKor (st : Stall) (d a b : KReg) (s : State) : Host.Outcome State Fault Refusal :=
  kIssue st d [a, b] (fun th => th.rk a ||| th.rk b) s

/-- KXOR (R175). -/
def execKxor (st : Stall) (d a b : KReg) (s : State) : Host.Outcome State Fault Refusal :=
  kIssue st d [a, b] (fun th => th.rk a ^^^ th.rk b) s

/-- KNOT (R175). -/
def execKnot (st : Stall) (d a : KReg) (s : State) : Host.Outcome State Fault Refusal :=
  kIssue st d [a] (fun th => ~~~ th.rk a) s

/-- KPOP (R175). -/
def execKpop (st : Stall) (d : GReg) (a : KReg) (s : State) : Host.Outcome State Fault Refusal :=
  issue s (op32 st .notXc false 19 [.k a]) fun e => fin (e.fixed 1 [.g d (w64 (popc (e.c.th.rk a))) false] 0 19)

/-- KMOV kD, gA (R175): a poisoned gA traps POISON. -/
def execKmov (st : Stall) (d : KReg) (a : GReg) (s : State) : Host.Outcome State Fault Refusal :=
  issue s (op32 st .notXc false 19 [.g a]) fun e => do
    needCleanG e a
    fin (e.fixed 1 [.k d ((e.c.th.rg a).setWidth 32)] 0 19)

/-- KMOV.G gD, kA (R175). -/
def execKmovG (st : Stall) (d : GReg) (a : KReg) (s : State) : Host.Outcome State Fault Refusal :=
  issue s (op32 st .notXc false 19 [.k a]) fun e => fin (e.fixed 1 [.g d ((e.c.th.rk a).setWidth 64) false] 0 19)

end masks

end Sys2Proof.Machine
end

