-- ==== Sys2Proof/Machine/VectorMem.lean ====
section
/-! DEFINITION. The V-MEM major (R171 to R174) with the passes of R380. -/

namespace Sys2Proof.Machine

/-- A lane of a vector access: its number and its address. -/
structure VLane where
  lane : Nat
  addr : Nat
  deriving DecidableEq, Repr

/-- A granule that an access touches, with the lanes in it, the lowest first (R380). -/
structure VGran where
  gran : Nat
  lanes : List VLane
  deriving DecidableEq, Repr

/-- The granules touched, in ascending address order (R380). -/
def gransOf (ls : List VLane) : List VGran :=
  let gs := ls.foldl (fun acc l => insNat (l.addr / 64) acc) []
  gs.map fun g => ⟨g, ls.filter fun l => l.addr / 64 == g⟩

/-- The granules that a store writes, in the order of the lowest lane in each (R173, R174). DESIGN CHOICE (log 92): where
lanes of different granules interleave, lanes cannot be written in strict order one granule a cycle. -/
def laneGrans (ls : List VLane) : List VGran :=
  let gs := ls.foldl (fun acc l => if acc.contains (l.addr / 64) then acc else acc ++ [l.addr / 64]) []
  gs.map fun g => ⟨g, ls.filter fun l => l.addr / 64 == g⟩

/-- The pointer and the offset that the base register and the displacement form (R123), passes 1 of R380. -/
def vecBase (e : Env) (a : GReg) (off : BitVec 11) : Except Stop (Word × Nat) := do
  let p := e.c.th.rg a
  let d : Int := off.toInt * 128
  checkPtr e p d 0
  let x : Int := (ptrOff p : Int) + d
  need (decide (0 ≤ x) && decide (x ≤ 0xFFFFF)) (.trap cBounds 2 p (BitVec.ofInt 64 d))
  return (withOff p x.toNat, x.toNat)

/-- The lane that TVAL and ACCESS name: 0 for VLD and VST. DEDUCED (log 78): R267 gives LANE to the other four and 0
elsewhere, where R380 speaks of the lowest lane that touches the granule. -/
def laneNo (named : Bool) (g : VGran) : Nat := if named then (g.lanes.map VLane.lane).headD 0 else 0

/-- The address of the lowest lane that touches a granule. -/
def VGran.first (g : VGran) : Nat := (g.lanes.map VLane.addr).headD (g.gran * 64)

/-- Pass 4 of R380 for one granule. -/
def vecGranule (e : Env) (p : Word) (a : GReg) (store named : Bool) (g : VGran) : Except Stop Unit := do
  let o := g.first
  let q := withOff p o
  let lane := laneNo named g
  checkRegion e q o 4 a.val (if store then .storeBar else .load) lane 0
  need (!(store && e.t.carve.region o == .cell && g.lanes.any fun l => e.t.hitsWord1 l.addr 4))
    (.trap cBounds 1 q (e.t.access o lane 0))
  checkTag e q o lane 0

/-- Pass 4 over the granules in ascending order. -/
def vecGranules (e : Env) (p : Word) (a : GReg) (store named : Bool) : List VGran → Except Stop Unit
  | [] => .ok ()
  | g :: t => do
    vecGranule e p a store named g
    vecGranules e p a store named t

/-- Pass 6: BlockAccess STORE of each granule in BLOCK, in ascending order. -/
def vecOwned (e : Env) (p : Word) (named : Bool) : List VGran → Except Stop Unit
  | [] => .ok ()
  | g :: t => do
    if e.t.carve.region g.first = .block then blockStore e (withOff p g.first) g.first (laneNo named g)
    vecOwned e p named t

/-- Pass 7: BlockAccess LOAD of each granule in BLOCK, in ascending order. -/
def vecReadable (e : Env) : List VGran → Except Stop Unit
  | [] => .ok ()
  | g :: t => do
    if e.t.carve.region g.first = .block then blockLoad e g.first
    vecReadable e t

/-- A vector load once its lanes are known (R171): passes 4 and 7, the holds, the lanes and their poison. -/
def vecLoad (e : Env) (p : Word) (a : GReg) (named : Bool) (ls : List VLane) :
    Except Stop (VWord × KWord × List VGran) := do
  let gs := gransOf ls
  vecGranules e p a false named gs
  vecReadable e gs
  need (ls.all fun l => (e.c.sbHits l.addr 4).isEmpty && !e.cellHits l.addr 4) .hold
  need (!(e.c.sb.any fun x => x.pois && ls.any fun l => x.addr / 64 == l.addr / 64)) .hold
  let v := ofLanes (ls.map fun l => natOfBytes (e.t.sram.readBytes l.addr 4))
  let pois := ls.foldl (fun p l => if e.t.granPois l.addr then p ||| BitVec.twoPow 32 l.lane else p) (0 : KWord)
  return (v, pois, gs)

/-- The granules that a vector load has read (R38). -/
def Env.vecRead (e : Env) (gs : List VGran) : Env := e.readGrans (gs.map VGran.gran)

/-- A vector store once its lanes are known (R171, R246): passes 4 to 6, the holds (every earlier store and CELL operation of
the context comes first), one granule write per granule, the lanes in ascending order. -/
def vecStore (e : Env) (p : Word) (a : GReg) (named : Bool) (v : VReg) (ls : List VLane) : Except Stop Env := do
  let gs := gransOf ls
  vecGranules e p a true named gs
  let pv := e.c.th.pv v
  match ls.find? fun l => pv.getLsbD l.lane && e.t.carve.region l.addr != .frame with
  | some l => .error (.trap cPoison 0 ((RegId.v v).word l.lane) 0)
  | none => .ok ()
  vecOwned e p named gs
  need e.c.sb.isEmpty .hold
  need (!e.cellBusy) .hold
  need (gs.all fun g => !(e.t.carve.region g.first == .block && e.readHolds (e.t.blockOf g.first))) .hold
  let data (l : VLane) : List Host.Cell := cellsAt l.addr (natBytes 4 (elemAt 32 (e.c.th.rv v) l.lane))
  let e := (laneGrans ls).foldl (fun e g =>
    e.pushStore (g.gran * 64) 64 (g.lanes.flatMap data) (g.lanes.any fun l => pv.getLsbD l.lane) false true) e
  return { e with c := { e.c with busy := .drain } }

/-- The 32 lanes of VLD and VST. -/
def denseLanes (o : Nat) : List VLane := (List.range 32).map fun i => ⟨i, o + 4 * i⟩

/-- VLD and VST are aligned to 128 bytes (R172, R380). -/
def needAligned128 (e : Env) (p : Word) (o : Nat) : Except Stop Unit :=
  need (o % 128 = 0) (.trap cMisalign 0 p (e.t.access o 0 0))

/-- VLD (R172). -/
def execVld (st : Stall) (v : VReg) (a : GReg) (off : BitVec 11) (s : State) : Host.Outcome State Fault Refusal :=
  issue s (op32 st .notXc false 18 [.g a]) fun e => do
    need (!e.acquiring) .hold
    needCleanG e a
    let (p, o) ← vecBase e a off
    needAligned128 e p o
    let (w, pois, gs) ← vecLoad e p a false (denseLanes o)
    fin ((e.vecRead gs).fixed 6 [.v v w pois] 0 18)

/-- VST (R172). -/
def execVst (st : Stall) (v : VReg) (a : GReg) (off : BitVec 11) (s : State) : Host.Outcome State Fault Refusal :=
  issue s (op32 st .notXc true 18 [.g a, .v v]) fun e => do
    need (!e.acquiring) .hold
    needCleanG e a
    let (p, o) ← vecBase e a off
    needAligned128 e p o
    fin (← vecStore e p a false v (denseLanes o))

/-- The stride of VLDS and VSTS, sext(e7<19:0>) (R173). -/
def stride (e : Env) : Int := ((e.c.th.re 7).setWidth 20).toInt

/-- Passes 2 and 3 of VLDS and VSTS (R173, R380): the lanes. -/
def strideLanes (e : Env) (p : Word) (o : Nat) : Except Stop (List VLane) := do
  let sd := stride e
  need (decide (sd % 4 = 0) && decide (o % 4 = 0)) (.trap cMisalign 0 p (e.t.access o 0 0))
  let at_ (i : Nat) : Int := (o : Int) + i * sd
  match (List.range 32).find? fun i => decide (at_ i < 0) || decide (0xFFFFC < at_ i) with
  | some i => .error (.trap cBounds 2 (BitVec.ofInt 64 (at_ i)) (accessNone i 0))
  | none => return (List.range 32).map fun i => ⟨i, (at_ i).toNat⟩

/-- VLDS (R173). -/
def execVlds (st : Stall) (v : VReg) (a : GReg) (off : BitVec 11) (s : State) : Host.Outcome State Fault Refusal :=
  issue s (op32 st .notXc false 18 [.g a, .e 7]) fun e => do
    need (!e.acquiring) .hold
    needCleanG e a
    let (p, o) ← vecBase e a off
    let ls ← strideLanes e p o
    let (w, pois, gs) ← vecLoad e p a true ls
    fin ((e.vecRead gs).fixed 6 [.v v w pois] 0 18)

/-- VSTS (R173). -/
def execVsts (st : Stall) (v : VReg) (a : GReg) (off : BitVec 11) (s : State) : Host.Outcome State Fault Refusal :=
  issue s (op32 st .notXc true 18 [.g a, .e 7, .v v]) fun e => do
    need (!e.acquiring) .hold
    needCleanG e a
    let (p, o) ← vecBase e a off
    let ls ← strideLanes e p o
    fin (← vecStore e p a true v ls)

/-- The register of a pair that holds the offsets (R174). -/
def pairReg (v : VReg) : VReg := v + 1

/-- Pass 1 of VGATH and VSCAT for the offset lanes (R380). -/
def needOffsets (e : Env) (v : VReg) : Except Stop Unit :=
  match (List.range 32).find? fun i => (e.c.th.pv (pairReg v)).getLsbD i with
  | some i => .error (.trap cPoison 0 ((RegId.v (pairReg v)).word i) 0)
  | none => .ok ()

/-- Pass 3 of VGATH and VSCAT (R174, R380): the lanes. -/
def pairLanes (e : Env) (p : Word) (o : Nat) (v : VReg) : Except Stop (List VLane) := do
  let u (i : Nat) := elemAt 32 (e.c.th.rv (pairReg v)) i
  match (List.range 32).find? fun i => decide (2 ^ 20 ≤ u i) || decide (0xFFFFC < o + u i) with
  | some i => .error (.trap cBounds 2 (w64 (o + u i)) (accessNone i 0))
  | none =>
    match (List.range 32).find? fun i => decide ((o + u i) % 4 ≠ 0) with
    | some i => .error (.trap cMisalign 0 (withOff p (o + u i)) (e.t.access (o + u i) i 0))
    | none => return (List.range 32).map fun i => ⟨i, o + u i⟩

/-- VGATH (R155, R174): it lands 5 + G cycles after issue. -/
def execVgath (st : Stall) (v : VReg) (a : GReg) (off : BitVec 11) (s : State) : Host.Outcome State Fault Refusal :=
  issue s (op32 st .notXc false 18 [.g a, .v (pairReg v)]) fun e => do
    need (!e.acquiring) .hold
    needCleanG e a
    needOffsets e v
    let (p, o) ← vecBase e a off
    let ls ← pairLanes e p o v
    let (w, pois, gs) ← vecLoad e p a true ls
    let g := gs.length
    need (decide (e.t.gather.freeAt ≤ e.now)) .hold
    let e := (e.vecRead gs).interlocked (5 + g) [.v v w pois] 0 18
    fin { e with t := { e.t with gather := ⟨e.now + 5 + g, e.me, e.now⟩ } }

/-- VSCAT (R155, R174): the gather port is taken until its last granule write. -/
def execVscat (st : Stall) (v : VReg) (a : GReg) (off : BitVec 11) (s : State) : Host.Outcome State Fault Refusal :=
  issue s (op32 st .notXc true 18 [.g a, .v v, .v (pairReg v)]) fun e => do
    need (!e.acquiring) .hold
    needCleanG e a
    needOffsets e v
    let (p, o) ← vecBase e a off
    let ls ← pairLanes e p o v
    let e ← vecStore e p a true v ls
    need (decide (e.t.gather.freeAt ≤ e.now)) .hold
    fin { e with t := { e.t with gather := ⟨untilEvent, e.me, e.now⟩ } }

end Sys2Proof.Machine
end

