-- ==== Sys2Proof/Machine/Matrix.lean ====
section
/-! DEFINITION. The MATRIX major (R176 to R197): acceptance, and the events of the two pipes. -/

namespace Sys2Proof.Machine

section command

/-- The matrix command word (R179). -/
structure MxCfg where
  k : Nat
  afmt : Nat
  bfmt : Nat
  pair : Bool
  akb : Bool
  bkb : Bool
  ofmt : Nat
  rm : Nat
  sat : Bool
  rsv : Bool
  deriving DecidableEq, Repr

/-- The fields of a command word (R179). -/
def MxCfg.of (w : Word) : MxCfg :=
  { k := fld w 15 0, afmt := fld w 19 16, bfmt := fld w 23 20, pair := w.getLsbD 24, akb := w.getLsbD 25
    bkb := w.getLsbD 26, ofmt := fld w 31 28, rm := fld w 33 32, sat := w.getLsbD 34
    rsv := w.getLsbD 27 || decide (fld w 63 35 ≠ 0) }

/-- A block format (R180). -/
def mxBlockFmt (code : Nat) : Bool := decide (4 ≤ code) && decide (code ≤ 8)

/-- The element width in bits, which also tells the class (R180). -/
def mxBits (code : Nat) : Nat :=
  if code ≤ 1 then 16 else if code = 6 ∨ code = 8 then 4 else if code ≤ 7 then 8 else 64

/-- The products of a chunk; K is a multiple of it (R180). -/
def mxChunk (code : Nat) : Nat :=
  match mxBits code with
  | 16 => 32
  | 8 => 64
  | 4 => 128
  | _ => 8

/-- The compute cycles of a class (R180). -/
def mxCycles (code k : Nat) : Nat :=
  match mxBits code with
  | 16 => k
  | 8 => k / 2
  | 4 => k / 4
  | _ => 32 * k

/-- The scale record's size, 0 for a format without one (R184). -/
def mxScale (code : Nat) : Nat :=
  if code = 7 ∨ code = 8 then 2 else if mxBlockFmt code then 1 else 0

/-- The accumulator of a pair is even (R181). -/
def pairOk (pair : Bool) (n : AccReg) : Bool := !pair || n.val % 2 == 0

/-- R181 for the MMA family; bBlock tells MMAT. -/
def mmaOk (c : MxCfg) (n : AccReg) (mmat : Bool) : Bool :=
  !c.rsv && decide (c.afmt ≤ 9) && decide (c.bfmt ≤ 9) && mxBits c.afmt == mxBits c.bfmt
    && decide (c.k ≠ 0) && decide (c.k % mxChunk c.afmt = 0) && (c.pair == (c.afmt == 9))
    && (!mxBlockFmt c.afmt || c.akb) && (!mxBlockFmt c.bfmt || (c.bkb && mmat)) && pairOk c.pair n

/-- R181 for MLD and MST. -/
def memFmtOk (c : MxCfg) (n : AccReg) : Bool :=
  !c.rsv && decide (c.ofmt ≤ 5) && (c.ofmt != 5 || c.pair) && pairOk c.pair n

/-- The element size in memory of MLD and MST (R178, R179). -/
def ofmtSize (o : Nat) : Nat := if o = 0 then 4 else if o ≤ 2 then 2 else if o ≤ 4 then 1 else 8

/-- The format of OFMT (R179). -/
def ofmtFmt (o : Nat) : Fmt :=
  match o with
  | 0 => fmt32
  | 1 => fmtBf16
  | 2 => fmtF16
  | 3 => fmtE4m3
  | 4 => fmtE5m2
  | _ => fmt64

/-- The accumulators that a command owns (R177). -/
def MxCmd.owns (q : MxCmd) : List Nat :=
  let of (n : Nat) := if q.pair then [n, n + 1] else [n]
  of q.n ++ if q.f6 = 6 then of q.src else []

/-- A compute-pipe command (R176). -/
def MxCmd.compute (q : MxCmd) : Bool := q.f6 == 3 || q.f6 == 4 || q.f6 == 5 || q.f6 == 6

/-- An accumulator that an outstanding command owns (R177). -/
def Tile.accBusy (t : Tile) (n : Nat) : Bool := t.mx.any fun q => q.owns.contains n

end command

section acceptance

/-- A span of memory that a command names (R183 to R185): its pointer, size, alignment and operand number. -/
structure Span where
  p : Word
  size : Nat
  align : Nat
  opnd : Nat
  deriving DecidableEq, Repr

/-- The blocks of a span. -/
def Tile.spanBlocks (t : Tile) (sp : Span) : List Nat :=
  let b0 := t.blockOf (ptrOff sp.p)
  (List.range (t.blockOf (ptrOff sp.p + sp.size - 1) + 1 - b0)).map (b0 + ·)

/-- The first byte of a span that lies in block b. -/
def Tile.spanAt (t : Tile) (sp : Span) (b : Nat) : Nat := max (ptrOff sp.p) (t.blockAt b)

/-- Step 3 of R185 for one span. -/
def checkSpan (e : Env) (sp : Span) : Except Stop Unit := do
  checkPtr e sp.p 0 sp.opnd
  let o := ptrOff sp.p
  need (decide (o % sp.align = 0)) (.trap cMisalign 0 sp.p (e.t.access o 0 sp.opnd))
  need (e.t.carve.region o = .block) (.trap cBounds 1 sp.p (e.t.access o 0 sp.opnd))
  need (decide (o + sp.size ≤ 2 ^ 20)) (.trap cBounds 1 sp.p (accessNone 0 sp.opnd))
  match (e.t.spanBlocks sp).find? fun b => (e.t.block b).gen != ptrTag sp.p with
  | some b => .error (.trap cStale 0 sp.p (e.t.access (e.t.spanAt sp b) 0 sp.opnd))
  | none => .ok ()

/-- Step 3 of R185 over the spans in order. -/
def checkSpans (e : Env) : List Span → Except Stop Unit
  | [] => .ok ()
  | sp :: l => do
    checkSpan e sp
    checkSpans e l

/-- Step 5 of R185: the block that a read would park on. -/
def spanPark (e : Env) (sps : List Span) : Except Stop Unit :=
  match (sps.flatMap e.t.spanBlocks).find? fun b =>
      (e.t.block b).state != .full && !((e.t.block b).state == .deferred && (e.t.block b).owner == e.me) with
  | some b => .error (.park b)
  | none => .ok ()

/-- Steps 6 and 7 of R185: held with 8 outstanding, or while an overlapping store is buffered. -/
def spanHold (e : Env) (sps : List Span) : Except Stop Unit := do
  need (decide (e.t.mx.length < 8)) .hold
  need (sps.all fun sp => (e.c.sbHits (ptrOff sp.p) sp.size).isEmpty) .hold

/-- ACC-BUSY (R190). -/
def needAccFree (e : Env) (owns : List Nat) : Except Stop Unit :=
  match (List.range 4).find? fun n => owns.contains n && e.t.accBusy n with
  | none => .ok ()
  | some n =>
    match e.t.mx.find? fun q => q.owns.contains n with
    | none => .ok ()
    | some q => .error (.trap cAccBusy 0 (w64 n) (w64 (q.seq + q.ctx * 2 ^ 16 + q.f6 * 2 ^ 21)))

/-- A command accepted (R176, R188, R193, R194): its start, last and done cycles, and the reads it makes (R186). -/
def accept (e : Env) (q : MxCmd) (cycles : Nat) (readBlocks : List Nat) : Env :=
  let now := e.now
  let ownDone := e.t.mx.foldl (fun m p => if p.owns.any q.owns.contains then max m p.done else m) 0
  let start := if q.compute then max (max (now + 4) e.t.mxComputeFree) ownDone else max (now + 1) e.t.mxMoveFree
  let done := if q.compute then start + cycles + 12 else start + cycles
  let last := start + cycles - 1
  let q := { q with seq := e.t.mxSeq, ctx := e.me, start, last, done }
  { e with t := { e.t with
      mx := e.t.mx ++ [q], mxSeq := (e.t.mxSeq + 1) % 2 ^ 16
      mxComputeFree := if q.compute then last + 1 else e.t.mxComputeFree
      mxMoveFree := if q.compute then e.t.mxMoveFree else done
      reads := if readBlocks.isEmpty then e.t.reads
        else e.t.reads ++ [{ blocks := readBlocks, last, ctx := some e.me, job := .none }] } }

/-- A command before its acceptance. -/
def mxCmd (f6 : Nat) (n : AccReg) : MxCmd :=
  { seq := 0, ctx := 0, f6, n := n.val, src := n.val, pair := false, z := false, cfg := 0, pa := 0, pb := 0, sa := 0, sb := 0
    seed := 0, rmode := 0, start := 0, last := 0, done := 0, started := false, pieces := 0, result := [] }

/-- The Op of a MATRIX instruction (R75, R84). -/
def opMx (st : Stall) (reads : List RegId) : Op := op32 st .notXc true 20 reads

/-- The spans of an MMA-family command in the order of R185. -/
def mmaSpans (c : MxCfg) (pa pb sa sb : Word) : List Span :=
  let plane (code : Nat) (p : Word) (opnd : Nat) : List Span :=
    if mxScale code = 0 then [] else [⟨p, 64 * mxScale code * (c.k / 32), mxScale code, opnd⟩]
  [⟨pa, 64 * c.k * mxBits c.afmt / 8, 64, 0⟩, ⟨pb, 64 * c.k * mxBits c.bfmt / 8, 64, 1⟩]
    ++ plane c.afmt sa 2 ++ plane c.bfmt sb 3

/-- MMA, MMAT and MMAS at issue (R185, R187). -/
def mmaIssue (st : Stall) (f6 : Nat) (n : AccReg) (a b : GReg) (z : Bool) (s : State) :
    Host.Outcome State Fault Refusal :=
  issue s (opMx st [.g a, .g b, .e 0, .e 1, .e 2]) fun e => do
    let th := e.c.th
    let c := MxCfg.of (th.re 0)
    need (mmaOk c n (f6 == 4)) (.trap cIllegal 0 e.bits 0)
    needCleanG e a
    needCleanG e b
    let sps := mmaSpans c (th.rg a) (th.rg b) (th.re 1) (th.re 2)
    checkSpans e sps
    spanPark e sps
    spanHold e sps
    fin (accept e { mxCmd f6 n with pair := c.pair, z, cfg := th.re 0, pa := th.rg a, pb := th.rg b, sa := th.re 1,
                                    sb := th.re 2 } (mxCycles c.afmt c.k) (sps.flatMap e.t.spanBlocks))

/-- MMA (R187). -/
def execMma (st : Stall) (n : AccReg) (a b : GReg) (z : Bool) (s : State) : Host.Outcome State Fault Refusal :=
  mmaIssue st 3 n a b z s

/-- MMAT (R187). -/
def execMmat (st : Stall) (n : AccReg) (a b : GReg) (z : Bool) (s : State) : Host.Outcome State Fault Refusal :=
  mmaIssue st 4 n a b z s

/-- MMAS (R187). -/
def execMmas (st : Stall) (n : AccReg) (a b : GReg) (z : Bool) (s : State) : Host.Outcome State Fault Refusal :=
  mmaIssue st 5 n a b z s

/-- MZERO at issue (R190, R191). -/
def execMzero (st : Stall) (n : AccReg) (s : State) : Host.Outcome State Fault Refusal :=
  issue s (opMx st []) fun e => do
    needAccFree e [n.val]
    need (decide (e.t.mx.length < 8)) .hold
    fin (accept e (mxCmd 0 n) 4 [])

/-- The span of MLD and MST (R192, R193). -/
def memSpan (c : MxCfg) (p : Word) (align : Nat) : Span := ⟨p, 4096 * ofmtSize c.ofmt, align, 0⟩

/-- The accumulators of a command with ACCT. -/
def pairAccs (pair : Bool) (n : AccReg) : List Nat := if pair then [n.val, n.val + 1] else [n.val]

/-- MLD at issue (R185, R192). -/
def execMld (st : Stall) (n : AccReg) (a : GReg) (s : State) : Host.Outcome State Fault Refusal :=
  issue s (opMx st [.g a, .e 0]) fun e => do
    let th := e.c.th
    let c := MxCfg.of (th.re 0)
    need (memFmtOk c n) (.trap cIllegal 0 e.bits 0)
    needAccFree e (pairAccs c.pair n)
    needCleanG e a
    let sp := memSpan c (th.rg a) 64
    checkSpan e sp
    spanPark e [sp]
    spanHold e [sp]
    fin (accept e { mxCmd 1 n with pair := c.pair, cfg := th.re 0, pa := th.rg a } (4 + sp.size / 128)
      (e.t.spanBlocks sp))

/-- Step 4 of R185: the destination blocks of MST, in ascending order. -/
def mstBlocks (e : Env) (sp : Span) : Except Stop Unit :=
  match (e.t.spanBlocks sp).find? fun b =>
      (e.t.block b).state == .full
        || ((e.t.block b).state == .deferred && !((e.t.block b).armed && (e.t.block b).owner == 26)) with
  | some b => .error (.trap (if (e.t.block b).state = .full then cSecond else cOwner) 0 sp.p
      (e.t.access (e.t.blockAt b) 0 0))
  | none => .ok ()

/-- MST at issue (R185, R193): its destination blocks are armed for the engine. -/
def execMst (st : Stall) (n : AccReg) (a : GReg) (s : State) : Host.Outcome State Fault Refusal :=
  issue s (opMx st [.g a, .e 0]) fun e => do
    let th := e.c.th
    let c := MxCfg.of (th.re 0)
    need (memFmtOk c n) (.trap cIllegal 0 e.bits 0)
    needAccFree e (pairAccs c.pair n)
    needCleanG e a
    let sp := memSpan c (th.rg a) 2048
    checkSpan e sp
    mstBlocks e sp
    need (decide (e.t.mx.length < 8)) .hold
    let e := accept e { mxCmd 2 n with pair := c.pair, cfg := th.re 0, pa := th.rg a, seed := th.seed, rmode := th.rmode }
      (4 + sp.size / 128) []
    fin (e.onTile fun t => (t.spanBlocks sp).foldl (fun t b => t.arm b 26) t)

/-- MACC at issue (R190, R194). -/
def execMacc (st : Stall) (n src : AccReg) (s : State) : Host.Outcome State Fault Refusal :=
  issue s (opMx st [.e 0]) fun e => do
    let th := e.c.th
    let c := MxCfg.of (th.re 0)
    need (!c.rsv && pairOk c.pair n && pairOk c.pair src) (.trap cIllegal 0 e.bits 0)
    needAccFree e (pairAccs c.pair n ++ pairAccs c.pair src)
    need (decide (e.t.mx.length < 8)) .hold
    fin (accept e { mxCmd 6 n with src := src.val, pair := c.pair, cfg := th.re 0 } (if c.pair then 64 else 32) [])

/-- MWAIT (R195). -/
def execMwait (st : Stall) (n : AccReg) (s : State) : Host.Outcome State Fault Refusal :=
  issue s (opMx st []) fun e => do
    need (!e.t.accBusy n.val) .hold
    fin e

/-- MWAIT with .all (R195). -/
def execMwaitAll (st : Stall) (s : State) : Host.Outcome State Fault Refusal :=
  issue s (opMx st []) fun e => do
    need e.t.mx.isEmpty .hold
    fin e

/-- The status word of MSTAT (R196). -/
def Tile.mstatWord (t : Tile) (n : AccReg) : Word :=
  let acc := t.accs.get n
  let busy := ((List.range 4).map fun i => b2n (t.accBusy i) * 2 ^ i).sum
  let old := match t.mx with | [] => t.mxSeq | q :: _ => q.seq
  w64 (busy + t.mx.length * 2 ^ 4 + acc.xflags.toNat * 2 ^ 8 + b2n (acc.pois != 0) * 2 ^ 13 + old * 2 ^ 16
    + t.mxSeq * 2 ^ 32)

/-- MSTAT (R196); .c clears XFLAGS after the sample. -/
def execMstat (st : Stall) (d : GReg) (n : AccReg) (clr : Bool) (s : State) : Host.Outcome State Fault Refusal :=
  issue s (opMx st []) fun e =>
    let e := e.fixed 1 [.g d (e.t.mstatWord n) false] 0 20
    fin (if clr then { e with t := { e.t with accs := e.t.accs.set n { e.t.accs.get n with xflags := 0 } } } else e)

end acceptance

section arithmetic

/-- The n bytes from address a, in one pass over a canonical memory. -/
def Mem.denseFrom : Nat → Nat → Mem → List Byte
  | 0, _, _ => []
  | n + 1, a, [] => 0 :: Mem.denseFrom n (a + 1) []
  | n + 1, a, (a', b) :: t =>
    if a' = a then b :: Mem.denseFrom n (a + 1) t else 0 :: Mem.denseFrom n (a + 1) ((a', b) :: t)

/-- The n bytes from address a of a canonical memory. -/
def Mem.dense (m : Mem) (a n : Nat) : List Byte := Mem.denseFrom n a (m.dropWhile fun p => decide (p.1 < a))

/-- Numbers of sz bytes each, at most n of them. -/
def groupBytes (sz : Nat) : Nat → List Byte → List Nat
  | 0, _ => []
  | n + 1, l => natOfBytes (l.take sz) :: groupBytes sz n (l.drop sz)

/-- The count elements of a memory array whose elements have some width in bits (R93, R178, R183). -/
def memElems (m : Mem) (a bits count : Nat) : List Nat :=
  if bits = 4 then (m.dense a (count / 2)).flatMap fun b => [b.toNat % 16, b.toNat / 16]
  else groupBytes (bits / 8) count (m.dense a (count * bits / 8))

/-- An operand element decoded with its scale (R187). -/
def mxDecodeElem (code x scale : Nat) : FVal :=
  match code with
  | 0 => fmtBf16.decode x
  | 1 => fmtF16.decode x
  | 2 => fmtE4m3.decode x
  | 3 => fmtE5m2.decode x
  | 4 => mxDecode fmtE4m3 x scale
  | 5 => mxDecode fmtE5m2 x scale
  | 6 => mxDecode fmtE2m1 x scale
  | 7 => dxDecode 8 x (scale % 256) (scale / 256)
  | 8 => dxDecode 4 x (scale % 256) (scale / 256)
  | _ => fmt64.decode x

/-- An operand of 64 × K elements as stored, decoded, with the scale record of each group of 32 of a stored row
(R183, R184). -/
def mxOperand (m : Mem) (code a plane k : Nat) : Array FVal :=
  let xs := memElems m a (mxBits code) (64 * k)
  let scs := (memElems m plane (8 * mxScale code) (if mxScale code = 0 then 0 else 64 * (k / 32))).toArray
  (xs.zipIdx.map fun p => mxDecodeElem code p.1 (scs.getD (p.2 / 32) 0)).toArray

/-- One addition of the engine (R104, R189): rounded to nearest even; invalid for infinities of both signs among the
terms, even beside a NaN. -/
def mxSum (f : Fmt) (terms : List FRes) : Nat × Flags :=
  let both := terms.any (fun x => x.val == .inf false) && terms.any (fun x => x.val == .inf true)
  let r := sumF false terms
  FRes.round f .rne 0 { r with inv := r.inv || both }

/-- A term that raises no flag on its own (R189). -/
def quietTerm (x : FVal) : FRes := ⟨x, false⟩

/-- One element (i, j) of an MMA-family command over its chunks (R104, R187): ai gives A'(i, k) and bj B'(k, j). -/
def mxElem (f : Fmt) (neg : Bool) (chunk : Nat) (ai bj : Nat → FVal) : Nat → Nat → Nat × Flags → Nat × Flags
  | 0, _, acc => acc
  | n + 1, c, acc =>
    let terms := (List.range chunk).map fun x =>
      let a := ai (c * chunk + x)
      (quietTerm (if neg then a.neg else a)).mul (quietTerm (bj (c * chunk + x)))
    let (t, fl) := mxSum f terms
    let (r, fl') := mxSum f [quietTerm (f.decode acc.1), quietTerm (f.decode t)]
    mxElem f neg chunk ai bj n (c + 1) (r, acc.2.or (fl.or fl'))

/-- An accumulator's 4,096 elements. -/
def Acc.dense (x : Acc) : Array Nat := ((List.range 4096).map fun i => (x.elems.getD i 0).toNat).toArray

/-- Elements as an accumulator holds them: a zero is not listed. -/
def accElems (l : List Nat) : AMap (BitVec 32) :=
  l.zipIdx.filterMap fun p => if p.1 % 2 ^ 32 = 0 then none else some (p.2, BitVec.ofNat 32 p.1)

/-- The accumulators of a command as one array of elements (R178). -/
def accValues (pair : Bool) (lo hi : Acc) : Array Nat :=
  if pair then (((lo.dense.toList).zip hi.dense.toList).map fun p => p.1 + 2 ^ 32 * p.2).toArray else lo.dense

/-- Values, row poison and flags put into one accumulator, or into both members of a pair (R178). -/
def accResult (pair : Bool) (vals : List Nat) (pois : BitVec 64) (xflags : BitVec 5) : List Acc :=
  if pair then
    [⟨accElems (vals.map (· % 2 ^ 32)), pois, xflags⟩, ⟨accElems (vals.map (· / 2 ^ 32)), pois, xflags⟩]
  else [⟨accElems vals, pois, xflags⟩]

/-- The row poison flags of an accumulator or a pair (R178). -/
def pairRows (pair : Bool) (lo hi : Acc) : BitVec 64 := if pair then lo.pois ||| hi.pois else lo.pois

/-- The flags of an accumulator or a pair. -/
def pairFlags (pair : Bool) (lo hi : Acc) : BitVec 5 := if pair then lo.xflags ||| hi.xflags else lo.xflags

/-- Any granule of a byte range holds POIS. -/
def Tile.rangePois (t : Tile) (a n : Nat) : Bool :=
  n != 0 && (List.range ((a + n - 1) / 64 + 1 - a / 64)).any fun i => t.granPois ((a / 64 + i) * 64)

/-- Accumulator n. -/
def Tile.acc (t : Tile) (n : Nat) : Acc := t.accs.getD n Acc.zero

/-- The result of an MMA-family command, with the flags that it raises (R187, R189). -/
def mmaResult (t : Tile) (q : MxCmd) : List Acc :=
  let c := MxCfg.of q.cfg
  let f := if c.pair then fmt64 else fmt32
  let lo := if q.z then Acc.zero else t.acc q.n
  let hi := if q.z then Acc.zero else t.acc (q.n + 1)
  let pa := ptrOff q.pa; let pb := ptrOff q.pb; let sa := ptrOff q.sa; let sb := ptrOff q.sb
  let va := mxOperand t.sram c.afmt pa sa c.k
  let vb := mxOperand t.sram c.bfmt pb sb c.k
  let acc := accValues c.pair lo hi
  let bAt (k j : Nat) : FVal := vb.getD (if q.f6 = 4 then j * c.k + k else k * 64 + j) (.fin false 0 0)
  let res := (List.range 4096).map fun x =>
    let i := x / 64; let j := x % 64
    mxElem f (q.f6 == 5) (mxChunk c.afmt) (fun k => va.getD (i * c.k + k) (.fin false 0 0)) (fun k => bAt k j)
      (c.k / mxChunk c.afmt) 0 (acc.getD x 0, Flags.none)
  let rowA := c.k * mxBits c.afmt / 8
  let rowS := mxScale c.afmt * (c.k / 32)
  let bPois := t.rangePois pb (64 * c.k * mxBits c.bfmt / 8) || t.rangePois sb (64 * mxScale c.bfmt * (c.k / 32))
  let rows := (List.range 64).foldl (fun (p : BitVec 64) i =>
    if bPois || t.rangePois (pa + i * rowA) rowA || t.rangePois (sa + i * rowS) rowS then p ||| BitVec.twoPow 64 i else p)
    (pairRows c.pair lo hi)
  accResult c.pair (res.map Prod.fst) rows (Flags.all (res.map Prod.snd)).bits

/-- The result of a MACC, with the flags of its addition (R194). -/
def maccResult (t : Tile) (q : MxCmd) : List Acc :=
  let f := if q.pair then fmt64 else fmt32
  let x := accValues q.pair (t.acc q.n) (t.acc (q.n + 1))
  let y := accValues q.pair (t.acc q.src) (t.acc (q.src + 1))
  let res := (List.range 4096).map fun i =>
    mxSum f [quietTerm (f.decode (x.getD i 0)), quietTerm (f.decode (y.getD i 0))]
  accResult q.pair (res.map Prod.fst)
    (pairRows q.pair (t.acc q.n) (t.acc (q.n + 1)) ||| pairRows q.pair (t.acc q.src) (t.acc (q.src + 1)))
    (Flags.all (res.map Prod.snd)).bits

/-- The result of an MLD (R192). -/
def mldResult (t : Tile) (q : MxCmd) : List Acc :=
  let c := MxCfg.of q.cfg
  let sz := ofmtSize c.ofmt
  let base := ptrOff q.pa
  let f := if c.pair then fmt64 else fmt32
  let same := f == ofmtFmt c.ofmt
  let xs := (memElems t.sram base (8 * sz) 4096).map fun x =>
    if same then x else (f.round .rne false 0 ((ofmtFmt c.ofmt).decode x)).1
  let rows := (List.range 64).foldl (fun (p : BitVec 64) i =>
    if t.rangePois (base + i * 64 * sz) (64 * sz) then p ||| BitVec.twoPow 64 i else p) 0
  accResult c.pair xs rows 0

/-- The elements that an MST writes, with their flags (R193). -/
def mstElems (t : Tile) (q : MxCmd) : List Nat × Flags :=
  let c := MxCfg.of q.cfg
  let f := if c.pair then fmt64 else fmt32
  let o := ofmtFmt c.ofmt
  let mode := match c.rm with
    | 0 => Mode.rne
    | 1 => Mode.rtz
    | 2 => Mode.sr
    | _ => Mode.ofCode q.rmode
  let conv (x n : Nat) : Nat × Flags :=
    if f = o then (x, Flags.none) else o.round mode (c.sat && !o.hasSig) n (f.decode x)
  let (xs, fl, _) := mapSeed (mode == .sr) conv (accValues c.pair (t.acc q.n) (t.acc (q.n + 1))).toList q.seed
  (xs, fl)

end arithmetic

section pipes

/-- A command replaced. -/
def Tile.setMx (t : Tile) (q : MxCmd) : Tile := { t with mx := t.mx.map fun p => if p.seq = q.seq then q else p }

/-- A command done: it leaves the queue. -/
def Tile.dropMx (t : Tile) (q : MxCmd) : Tile := { t with mx := t.mx.filter fun p => p.seq != q.seq }

/-- Accumulators written from n on. -/
def Tile.setAccs (t : Tile) (n : Nat) : List Acc → Tile
  | [] => t
  | x :: l => Tile.setAccs { t with accs := t.accs.setIfInBounds n x } (n + 1) l

/-- The next command of a pipe that starts (R188, R194). -/
def Tile.mxStart? (t : Tile) (now : Nat) (compute : Bool) : Option MxCmd :=
  t.mx.find? fun q => q.compute == compute && !q.started && decide (q.start ≤ now)

/-- The next command of a pipe that is done (R188, R194). -/
def Tile.mxDone? (t : Tile) (now : Nat) (compute : Bool) : Option MxCmd :=
  t.mx.find? fun q => q.compute == compute && q.started && decide (q.done ≤ now)

/-- The MST that writes its next 128 bytes (R193), those that complete a block or others: piece k is written k + 4 cycles
after the start. -/
def Tile.mstDue? (t : Tile) (now : Nat) (completes : Bool) : Option MxCmd :=
  t.mx.find? fun q => q.f6 == 2 && q.started && decide (q.pieces < 32 * ofmtSize (MxCfg.of q.cfg).ofmt)
    && decide (q.start + q.pieces + 4 ≤ now) && decide (q.pieces % 16 = 15) == completes

/-- The spans that a command reads (R186). -/
def MxCmd.spans (q : MxCmd) : List Span :=
  if q.f6 = 1 then [memSpan (MxCfg.of q.cfg) q.pa 64]
  else if q.f6 = 3 ∨ q.f6 = 4 ∨ q.f6 = 5 then mmaSpans (MxCfg.of q.cfg) q.pa q.pb q.sa q.sb
  else []

/-- The granules of a span. -/
def Span.grans (sp : Span) : List Nat :=
  (List.range ((ptrOff sp.p + sp.size + 63) / 64 - ptrOff sp.p / 64)).map (ptrOff sp.p / 64 + ·)

/-- A command starts: a compute command or an MLD reads its operands, which nothing has changed since its acceptance (R186,
R187, R192, R194). -/
def Tile.mxBegin (t : Tile) (q : MxCmd) : Tile :=
  let result := if q.f6 = 6 then maccResult t q else if q.f6 = 1 then mldResult t q
    else if q.compute then mmaResult t q else []
  (t.setMx { q with started := true, result }).readFail (q.spans.flatMap Span.grans)

/-- XFLAGS of an accumulator at a command's done cycle (R187, R189, R192, R194): the command's own flags, OR-ed into what
stands there unless the command clears it; MACC takes those of its source too, and of a pair each member keeps its own and takes
those of both members of the source (log 104). -/
def Tile.mxFlags (t : Tile) (q : MxCmd) (old own : BitVec 5) : BitVec 5 :=
  if q.f6 = 1 ∨ q.z = true then own
  else if q.f6 = 6 then old ||| own ||| pairFlags q.pair (t.acc q.src) (t.acc (q.src + 1))
  else old ||| own

/-- A command is done: its accumulators, or the flags of an MST (R187 to R194). -/
def Tile.mxFinish (t : Tile) (q : MxCmd) : Tile :=
  let t := t.dropMx q
  if q.f6 = 0 then t.setAccs q.n [Acc.zero]
  else if q.f6 = 2 then
    let fl := (mstElems t q).2.bits
    let add (t : Tile) (n : Nat) : Tile := t.setAccs n [{ t.acc n with xflags := (t.acc n).xflags ||| fl }]
    if q.pair then add (add t q.n) (q.n + 1) else add t q.n
  else t.setAccs q.n (q.result.zipIdx.map fun p => { p.1 with xflags := t.mxFlags q (t.acc (q.n + p.2)).xflags p.1.xflags })

/-- A block is armed for an agent at the generation of a pointer: what every arrival needs (R64). -/
def Tile.armedFor (t : Tile) (b agent : Nat) (tag : BitVec 6) : Bool :=
  let x := t.block b
  x.state == .deferred && x.armed && x.owner == agent && x.gen == tag

/-- The block that an MST's next 128 bytes belong to. -/
def Tile.mstDest (t : Tile) (q : MxCmd) : Nat := t.blockOf (ptrOff q.pa + 128 * q.pieces)

/-- The next 128 bytes of an MST written, with POIS on the granules of poisoned rows (R193). A block that an earlier write has
made FULL stays as it is (R249; log 80). -/
def Tile.mstWrite (t : Tile) (q : MxCmd) : Tile :=
  let sz := ofmtSize (MxCfg.of q.cfg).ofmt
  let at_ := 128 * q.pieces
  let base := ptrOff q.pa + at_
  let per := 128 / sz
  let xs := (((mstElems t q).1.drop (per * q.pieces)).take per).flatMap fun x => natBytes sz x
  let rows := pairRows q.pair (t.acc q.n) (t.acc (q.n + 1))
  let grans := (List.range 2).filter fun g => rows.getLsbD ((at_ + 64 * g) / (64 * sz))
  let u := t.setMx { q with pieces := q.pieces + 1 }
  if t.armedFor (t.mstDest q) 26 (ptrTag q.pa) then
    { u with sram := u.sram.writeBytes base xs }.setPoisAll (grans.map fun g => base / 64 + g)
  else u

/-- The last 128 bytes of a block of an MST, and its commit (R193). -/
def Tile.mstBlock (t : Tile) (now : Nat) (det : Bool) (q : MxCmd) : Tile :=
  if t.armedFor (t.mstDest q) 26 (ptrTag q.pa) then (t.mstWrite q).commit now det (t.mstDest q) else t.mstWrite q

/-- A tile's step of the hardware at a place: refused as not enabled where the tile or its work is not there. -/
def tileEvent (s : State) (dom rank : Nat) (f : Domain → Tile → Option Tile) : Host.Outcome State Fault Refusal :=
  match s.doms.find dom with
  | none => .fault .notEnabled
  | some d =>
    match d.tiles.find rank with
    | none => .fault .notEnabled
    | some t =>
      match f d t with
      | some t' => .next (s.setDom dom (d.setTile rank t'))
      | none => .fault .notEnabled

/-- MATRIX_COMPUTE_START (R188). -/
def execMatrixComputeStart (dom rank : Nat) (s : State) : Host.Outcome State Fault Refusal :=
  tileEvent s dom rank fun _ t => (t.mxStart? s.cycle true).map t.mxBegin

/-- MATRIX_COMPUTE_DONE (R188, R189). -/
def execMatrixComputeDone (dom rank : Nat) (s : State) : Host.Outcome State Fault Refusal :=
  tileEvent s dom rank fun _ t => (t.mxDone? s.cycle true).map t.mxFinish

/-- MATRIX_MOVE_START (R194). -/
def execMatrixMoveStart (dom rank : Nat) (s : State) : Host.Outcome State Fault Refusal :=
  tileEvent s dom rank fun _ t => (t.mxStart? s.cycle false).map t.mxBegin

/-- MATRIX_MOVE_DONE (R191 to R194). -/
def execMatrixMoveDone (dom rank : Nat) (s : State) : Host.Outcome State Fault Refusal :=
  tileEvent s dom rank fun _ t => (t.mxDone? s.cycle false).map t.mxFinish

/-- An MST writes 128 bytes that do not complete a block (R193). -/
def mstWriteRow (dom rank : Nat) (s : State) : Host.Outcome State Fault Refusal :=
  tileEvent s dom rank fun _ t => (t.mstDue? s.cycle false).map t.mstWrite

/-- MST_BLOCK_COMMIT (R193). -/
def execMstBlockCommit (dom rank : Nat) (s : State) : Host.Outcome State Fault Refusal :=
  tileEvent s dom rank fun d t => (t.mstDue? s.cycle true).map (t.mstBlock s.cycle d.launch.det)

end pipes

end Sys2Proof.Machine
end

