-- ==== Sys2Proof/Machine/Sync.lean ====
section
/-! DEFINITION. The SYNC and EXT majors (R139 to R152), thread starts (R29, R36, R54, R55) and the ordering of a
release at a scope (R140, R203). -/

namespace Sys2Proof.Machine

section threads

/-- The registers of a thread that starts (R29, R36): g13 and g14 bound its frame, g4 to g9 hold the arguments with
their poison, everything else is zero; SEED is RANK × 32 + Me + 1. -/
def Carve.startThread (c : Carve) (rank me : Nat) (entry : BitVec 20) (args : List (Word × Bool)) : Thread :=
  let th := Thread.zero
  let th := th.write (.g 13 (w64 (c.frameBase + (me + 1) * c.frameSize)) false)
  let th := th.write (.g 14 (w64 (c.frameBase + me * c.frameSize)) false)
  let arg (i : Nat) : RegWrite := .g (Fin.ofNat 16 (4 + i)) (args.getD i (0, false)).1 (args.getD i (0, false)).2
  let th := th.writes ((List.range 6).map arg)
  { th with pc := entry, seed := BitVec.ofNat 32 (rank * 32 + me + 1) }

/-- The granules of a frame that hold POIS are cleared when a thread starts in its slot (R126). -/
def Tile.clearFrame (t : Tile) (i : Nat) : Tile :=
  { t with pois := t.pois.filter fun g =>
      !(decide ((t.carve.frameBase + i * t.carve.frameSize) / 64 ≤ g)
        && decide (g < (t.carve.frameBase + (i + 1) * t.carve.frameSize) / 64)) }

/-- A thread starts in context i (R29, R54, R231, R299). -/
def Tile.start (t : Tile) (rank i : Nat) (now from_ : Nat) (entry : BitVec 20) (args : List (Word × Bool))
    (group : BitVec 16) : Tile :=
  let c := Ctx.zero
  (t.clearFrame i).setCtx i { c with
    th := t.carve.startThread rank i entry args, run := .ready, group, last := now, notBefore := from_ }

/-- The lowest free compute slot (R54, R146). -/
def Tile.freeSlot? (t : Tile) : Option Nat := slotNums.find? fun i => (t.ctx i).run == .free

/-- The live threads of a group on the tile (R142). -/
def Tile.liveOf (t : Tile) (group : BitVec 16) : List Nat :=
  slotNums.filter fun i => (t.ctx i).run != .free && (t.ctx i).group == group

/-- A context at TBAR. -/
def Ctx.atTbar (c : Ctx) : Bool :=
  match c.busy with
  | .tbar _ => true
  | _ => false

/-- The release of a group at TBAR (R142): when every live thread of it has arrived, all go on together. -/
def Tile.releaseTbar (t : Tile) (group : BitVec 16) : Tile :=
  if (t.liveOf group).all fun i => (t.ctx i).atTbar then
    (t.liveOf group).foldl (fun t i => t.setCtx i { t.ctx i with busy := .tbar true }) t
  else t

/-- A slot freed (R55, R145): a pending thread start takes it in ascending thread index (R54); a group that lost its last
missing thread passes its TBAR (R142). -/
def Tile.freeSlot (t : Tile) (rank now i : Nat) : Tile :=
  let c := t.ctx i
  let t := t.setCtx i { c with run := .free, busy := .none, wblk := 0, barrier := none, idle := none, wrong := none,
                               woken := false }
  match t.starts with
  | [] => t.releaseTbar c.group
  | x :: rest =>
    ({ t.start rank i now (now + 1) x.entry (x.args.map fun w => (w, false)) x.group with starts := rest }).releaseTbar c.group

end threads

section scopes

/-- A command's destination lies within a scope (R140): its own tile for XGET, XFEED and XRECV; the ranks it names for
a send within the domain; job virtual memory counts from package scope up, and from system scope up where its home is away in
another package (R255); another domain or package by the pointer. -/
def Cmd.within (c : Cmd) (away : Bool) (pkg dom rank : Nat) (scope : Scope) (ranks : List Nat) : Bool :=
  let far (p : Word) : Nat × Nat :=
    if c.major = 23 then (fld p 47 32, fld p 21 16) else (fld p 55 40, fld p 37 32)
  let reach (dest : Nat × Nat) : Bool :=
    match scope with
    | .thread | .tile | .rect => false
    | .domain => dest.1 == pkg && dest.2 == dom
    | .package => dest.1 == pkg
    | .system => true
  if c.major = 23 then reach (far c.b)
  else if c.f6 = 2 ∨ c.f6 = 4 then
    (match scope with | .thread | .tile => false | .rect => ranks.contains rank | _ => true)
  else if c.f6 = 3 ∨ (c.f6 = 5 ∧ ptrSpace c.a ≠ 0) then
    if ptrSpace c.a = 1 then (scope == .package && !away) || scope == .system
    else
      match scope with
      | .rect => decide (far c.a = (pkg, dom)) && ranks.contains (fld c.a 31 20)
      | _ => reach (far c.a)
  else
    match scope with
    | .thread | .tile => false
    | .rect => c.targets.any ranks.contains
    | _ => true

/-- Every page that a put of job virtual memory writes has its home in another package (R255, R283). -/
def State.putsAway (s : State) (c : Cmd) : Bool :=
  (List.range c.nblk).all fun k =>
    match s.walk ((fld c.a 51 0 + 2048 * k) % 2 ^ 52) true with
    | .ok x => x.home == 1
    | .error _ => false

/-- Every command of the context toward a destination within the scope has been acknowledged (R140). -/
def Env.acked (e : Env) (scope : Scope) (ranks : List Nat) : Bool :=
  e.t.cmds.all fun p =>
    !(p.2.ctx == e.me && p.2.within (e.s.putsAway p.2) e.s.pkgid.toNat e.s.cur.dom e.s.cur.rank scope ranks)

/-- Every earlier load of the context has landed (R140). -/
def Env.loadsLanded (e : Env) : Bool := e.c.th.pend.all fun p => p.major != 8 && p.major != 18

/-- The condition of a FENCE (R140, R247): at a scope wider than the tile it does what fence.sc.tile does, and a release also
waits for the commands toward the scope. -/
def Env.fenced (e : Env) (kind : FenceKind) (scope : Scope) (ranks : List Nat) : Bool :=
  match scope with
  | .thread => true
  | .tile =>
    let acq := e.loadsLanded && !e.cellBusy
    let rel := e.c.sb.isEmpty && !e.cellBusy && e.acked .tile ranks
    match kind with
    | .acq => acq
    | .rel => rel
    | .sc => acq && rel
  | _ =>
    e.loadsLanded && !e.cellBusy && e.c.sb.isEmpty
      && (match kind with | .acq => true | .rel | .sc => e.acked scope ranks)

end scopes

/-- The Op of a SYNC instruction: it waits past an unresolved branch (R84). -/
def opSync (st : Stall) (who : Who) (reads : List RegId) : Op := op32 st who true 12 reads

/-- FENCE (R139, R140). -/
def execFence (st : Stall) (kind : FenceKind) (scope : Scope) (a : GReg) (s : State) :
    Host.Outcome State Fault Refusal :=
  issue s (opSync st .all (if scope = .rect then [.g a] else [])) fun e => do
    let ranks ← if scope = .rect then (do needCleanG e a; rectRanks e.d (e.c.th.rg a)) else .ok []
    need (e.fenced kind scope ranks) .hold
    fin e

/-- TBAR (R142): held until every live thread of the group has arrived; all are released together. -/
def execTbar (st : Stall) (s : State) : Host.Outcome State Fault Refusal :=
  issue s (opSync st .slots []) fun e =>
    if e.c.busy = .tbar true then fin { e with c := { e.c with busy := .none } }
    else
      let e := { e with c := { e.c with busy := .tbar false } }.onTile fun t => t.releaseTbar e.c.group
      if e.c.busy = .tbar true then fin { e with c := { e.c with busy := .none } }
      else .ok (.wait e)

/-- SYNC (R143): RUN 0b011 with the PC past it. -/
def execSync (st : Stall) (s : State) : Host.Outcome State Fault Refusal :=
  issue s (opSync st .slots []) fun e => fin { e with c := { e.c with run := .sync } }

/-- YIELD (R144): it completes; the arbiter passes over the context until every other ready slot has issued once or
stopped being ready. -/
def execYield (st : Stall) (s : State) : Host.Outcome State Fault Refusal :=
  issue s (opSync st .slots []) fun e =>
    let others := if e.det then [] else slotNums.filter fun i => i != e.me && (e.t.ctx i).run == .ready
    fin { e with c := { e.c with yieldFor := others } }

/-- TEND (R145): held until the buffer is performed and the interlocked results have landed, a relaxed CELL operation without a
result among what it waits for (log 103); then the slot is free. -/
def execTend (st : Stall) (s : State) : Host.Outcome State Fault Refusal :=
  issue s (opSync st .slots []) fun e => do
    need (e.drained && e.c.th.pend.all fun p => p.fixed) .hold
    let x := complete1 (opSync st .slots []) { e }
    return .stay (x.onTile fun t => t.freeSlot e.s.cur.rank e.now e.me)

/-- SPAWN (R146): a child in the lowest free slot, or an inline call. The result in gD lands 2 cycles after issue, and
the child starts no earlier: its LAST is the cycle of its start (R299). -/
def execSpawn (st : Stall) (d a : GReg) (imm : BitVec 11) (s : State) : Host.Outcome State Fault Refusal :=
  issue s (opSync st .slots [.g a, .g 4, .g 5, .g 6, .g 7, .g 8, .g 9]) fun e => do
    let t ← jumpTarget e a imm
    let th := e.c.th
    match e.sync.t.freeSlot? with
    | some i =>
      let args := [4, 5, 6, 7].map fun n : GReg => (th.rg n, th.pg n)
      let e := e.onTile fun tl => tl.start e.s.cur.rank i (e.now + 2) (e.now + 2) t args e.c.group
      fin (e.interlocked 2 [.g d 0 false] 0 12)
    | none =>
      let e := e.fixed 1 [.g 15 (linkOf e (opSync st .slots [])) false] 0 12
      return .done { e := e.interlocked 2 [.g d 1 false] 0 12, pc := some t }

/-- PHASE (R147). -/
def execPhase (st : Stall) (d : GReg) (s : State) : Host.Outcome State Fault Refusal :=
  issue s (opSync st .all []) fun e => fin (e.fixed 1 [.g d (e.d.phase.setWidth 64) false] 0 12)

section barriers

/-- CheckLocal of the pair of an arrival barrier, with CELL asked at the region place (R148, R149). -/
def barAddr (e : Env) (a : GReg) (imm : BitVec 11) (kind : AccKind) : Except Stop Nat := do
  needCleanG e a
  let (p, o) ← checkAddr e (e.c.th.rg a) imm.toInt 16 0
  checkRegion e p o 16 a.val kind 0 0
  need (e.t.carve.region o = .cell) (.trap cBounds 1 p (e.t.access o 0 0))
  checkTag e p o 0 0
  return o

/-- NFEED of the barrier at o (R23). -/
def Tile.nfeed (t : Tile) (o : Nat) : Nat := (t.sram.read (o + 8)).toNat

/-- WAITER of the barrier at o (R23). -/
def Tile.waiter (t : Tile) (o : Nat) : Bool := (t.sram.read (o + 9)).getLsbD 0

/-- Word 1 of a barrier written: NFEED and WAITER (R23), and zeros above them, also where the pair is plain data to which AWAIT is
applied (log 69). -/
def Tile.setWord1 (t : Tile) (o nfeed : Nat) (waiter : Bool) : Tile :=
  { t with sram := t.sram.write64 (o + 8) (w64 (nfeed % 256 + b2n waiter * 2 ^ 8)) }

/-- The contexts in AWAIT on the barrier are woken; WAITER ← 0. A feed's wake waits for the start of a compute
superstep under deterministic mode, an ABINIT's does not (R67, R148, R150). -/
def Tile.wakeBarrier (t : Tile) (now : Nat) (delayed : Bool) (o : Nat) : Tile :=
  let t := t.setWord1 o (t.nfeed o) false
  ctxNums.foldl (fun t i =>
    let c := t.ctx i
    if c.run == .await && c.barrier == some o then
      if delayed then t.setCtx i { c with woken := true } else t.ready now i
    else t) t

/-- A pair that is an arrival barrier, or that a feed counts at: its NFEED is not plain data (R23, R148; log 69). -/
def Tile.isBarrier (t : Tile) (o : Nat) : Bool := t.bars.contains (o / 16) || t.cmds.any fun c => c.2.bar == some o

/-- ABINIT (R148): one store-buffer entry; what it does is done when it is performed. -/
def execAbinit (st : Stall) (d a : GReg) (imm : BitVec 11) (s : State) : Host.Outcome State Fault Refusal :=
  issue s (opSync st .all [.g a, .g d]) fun e => do
    need (!e.acquiring) .hold
    let o ← barAddr e a imm .storeBar
    let p := withOff (e.c.th.rg a) o
    needCleanG e d
    let v := e.c.th.rg d
    need (fld v 63 57 = 0) (.trap cBounds 3 v 0)
    need (!e.t.isBarrier o || e.t.nfeed o == 0) (.trap cBounds 3 p (e.t.access o 0 0))
    need (decide ((e.c.sb.filter fun x => !x.vec).length < 8)) .hold
    need (!e.cellHits o 16) .hold
    let bs := natBytes 8 v.toNat
    fin (e.pushStore o 16 ((List.range 8).map fun i => (o + i, bs.getD i 0)) false true false)

/-- An ABINIT performed (R148): word 0, word 1 reset with WAITER kept, BAR; a changed PHASE wakes the waiters. It reads the old
PHASE (R38). -/
def Tile.abinitPerform (t : Tile) (now : Nat) (x : SbEntry) : Tile :=
  let o := x.addr
  let oldPhase := (t.sram.read (o + 7)).getLsbD 0
  let t := { t.readFail [o / 64] with sram := t.sram.writeCells x.data, bars := insNat (o / 16) t.bars }
  let t := t.setWord1 o 0 (t.waiter o)
  if (t.sram.read (o + 7)).getLsbD 0 = oldPhase then t else t.wakeBarrier now false o

/-- AWAIT (R149): it waits while PHASE equals gD<56>; otherwise gD ← word 0. DEDUCED (log 79): where the barrier's granule is
poisoned, gD is, as a load's register is (R259). -/
def execAwait (st : Stall) (d a : GReg) (imm : BitVec 11) (s : State) : Host.Outcome State Fault Refusal :=
  issue s (opSync st .slots [.g a, .g d]) fun e => do
    need (!e.acquiring) .hold
    let o ← barAddr e a imm .load
    needCleanG e d
    need (e.c.sbHits o 16).isEmpty .hold
    need (!e.cellHits o 16) .hold
    let w := e.t.sram.read64 o
    if w.getLsbD 56 = (e.c.th.rg d).getLsbD 56 then
      let e := e.readGrans [o / 64]
      let e := { e with t := e.t.setWord1 o (e.t.nfeed o) true }
      return .stay { e with c := { e.c with run := .await, barrier := some o } }
    else
      fin ((e.readGrans [o / 64]).fixed 4 [.g d w (e.t.granPois o)] 0 12)

/-- A feed's count of landed bytes (R38, R150): PENDING is read and decreases; at zero PHASE inverts and the waiters wake. The
result says whether the decrement was an overrun. -/
def Tile.barrierCount (t : Tile) (now : Nat) (det : Bool) (o bytes : Nat) (last : Bool) : Tile × Bool :=
  let w := t.sram.read64 o
  let pending := fld w 55 0
  let overrun := decide (pending < bytes)
  let left := pending - bytes
  let flip := decide (left = 0)
  let w' := (w &&& w64 (2 ^ 64 - 2 ^ 56)) ||| w64 left
  let w' := if flip then w' ^^^ w64 (2 ^ 56) else w'
  let t := { t.readFail [o / 64] with sram := t.sram.write64 o w' }
  let t := if last then t.setWord1 o (t.nfeed o - 1) (t.waiter o) else t
  (if flip then t.wakeBarrier now det o else t, overrun)

end barriers

section ext

/-- The Op of an EXT instruction. -/
def opExt (st : Stall) (reads : List RegId) : Op := op32 st .all false 13 reads

/-- ELI (R152): 11 bits of eD at 11 × pos, the others kept; for pos 5 nine bits. -/
def eliWord (old : Word) (pos : Nat) (imm : BitVec 11) : Word :=
  let n := if pos = 5 then 9 else 11
  let mask := w64 ((2 ^ n - 1) * 2 ^ (11 * pos))
  (old &&& ~~~ mask) ||| w64 (imm.toNat % 2 ^ n * 2 ^ (11 * pos))

/-- ELI (R152). -/
def execEli (st : Stall) (d : EReg) (pos : Fin 6) (imm : BitVec 11) (s : State) : Host.Outcome State Fault Refusal :=
  issue s (opExt st [.e d]) fun e => fin (e.fixed 1 [.e d (eliWord (e.c.th.re d) pos.val imm)] 0 13)

/-- EMOV (R152): a poisoned gA traps POISON. -/
def execEmov (st : Stall) (d : EReg) (a : GReg) (s : State) : Host.Outcome State Fault Refusal :=
  issue s (opExt st [.g a]) fun e => do
    needCleanG e a
    fin (e.fixed 1 [.e d (e.c.th.rg a)] 0 13)

/-- EMOVG (R152). -/
def execEmovg (st : Stall) (d : GReg) (a : EReg) (s : State) : Host.Outcome State Fault Refusal :=
  issue s (opExt st [.e a]) fun e => fin (e.fixed 1 [.g d (e.c.th.re a) false] 0 13)

end ext

end Sys2Proof.Machine
end

