-- ==== Sys2Proof/Machine/Xfer.lean ====
section
/-! DEFINITION. The XFER and XCTL majors at issue (R198 to R219): the checks of R201, the queues of R202, the release of
R203, and what each command leaves for its agent. -/

namespace Sys2Proof.Machine

section order

/-- SCOPE of an Order field (R199). -/
def xscopeCode : XScope → Nat
  | .tile => 1
  | .domain => 3
  | .package => 4
  | .system => 5

/-- The FENCE scope of an Order field (R199, R203). -/
def xscopeScope : XScope → Scope
  | .tile => .tile
  | .domain => .domain
  | .package => .package
  | .system => .system

/-- ORD with SCOPE above it, as packets carry them (R199, R336). -/
def xordCode : XOrd → Nat
  | .relaxed => 0
  | .acq s => 1 + 4 * xscopeCode s
  | .rel s => 2 + 4 * xscopeCode s
  | .ar s => 3 + 4 * xscopeCode s

/-- Step 7 of R201: a release is held as FENCE.rel at its scope (R203). -/
def needReleased (e : Env) (o : XOrd) : Except Stop Unit :=
  match o with
  | .rel s | .ar s => need (e.fenced .rel (xscopeScope s) []) .hold
  | _ => .ok ()

/-- FL and SUB of a combine (R213): FL × 8 + SUB. -/
def combCode : CombOp → Nat
  | .add => 0
  | .min => 1
  | .max => 2
  | .minu => 3
  | .maxu => 4
  | .and => 5
  | .or => 6
  | .fmin => 9
  | .fmax => 10

end order

section checks

/-- The Op of an XFER instruction (R75, R84). -/
def opX (st : Stall) (who : Who) (reads : List RegId) : Op := op32 st who true 21 reads

/-- NBLK of the transfer word (R200). -/
def nblkOf (w : Word) : Nat := fld w 8 0

/-- Step 1 of R201 for e4: the reserved bits, and NBLK where the command uses it (R200). -/
def needTransferWord (e : Env) (usesNblk : Bool) : Except Stop Unit :=
  let w := e.c.th.re 4
  need (fld w 11 9 = 0 ∧ fld w 15 13 = 0 ∧ fld w 63 28 = 0 ∧ (usesNblk = true → nblkOf w ≠ 0)) (.trap cIllegal 0 e.bits 0)

/-- Step 3 of R201: a routed instruction outside a ROUTED node. -/
def needRouted (e : Env) : Except Stop Unit := need e.d.routed (.trap cPhase 2 e.bits 0)

/-- The pointer checks of step 4 (R26, R201): SPACE and the zero fields. -/
def xPtr (p : Word) (spaces : List Nat) : Except Stop Unit :=
  need (!ptrBad p && spaces.contains (ptrSpace p)) (.trap cBounds 0 p 0)

/-- The base or VA of a block operand beyond the tile is a multiple of 2,048 (R201). -/
def xAligned (p : Word) (opnd : Nat) : Except Stop Unit :=
  need (fld p 10 0 = 0) (.trap cMisalign 0 p (accessNone 0 opnd))

/-- The blocks of a local span. -/
def Tile.blocksAt (t : Tile) (p : Word) (n : Nat) : List Nat := (List.range n).map (t.blockOf (ptrOff p) + ·)

/-- Step 4 of R201 for a local block span. -/
def localSpan (e : Env) (p : Word) (n opnd : Nat) : Except Stop Unit := do
  xPtr p [0]
  let o := ptrOff p
  need (o % 2048 = 0) (.trap cMisalign 0 p (e.t.access o 0 opnd))
  need (e.t.carve.region o = .block) (.trap cBounds 1 p (e.t.access o 0 opnd))
  need (decide (o + 2048 * n ≤ 2 ^ 20)) (.trap cBounds 1 p (accessNone 0 opnd))
  match (e.t.blocksAt p n).find? fun b => (e.t.block b).gen != ptrTag p with
  | some b => .error (.trap cStale 0 p (e.t.access (e.t.blockAt b) 0 opnd))
  | none => .ok ()

/-- Step 4 of R201 for a local cell, barrier or directory of n bytes in CELL. -/
def localCell (e : Env) (p : Word) (align n opnd : Nat) : Except Stop Unit := do
  let o := ptrOff p
  need (o % align = 0) (.trap cMisalign 0 p (e.t.access o 0 opnd))
  let at_ (i : Nat) : Nat := if i = 0 then o else (o / 64 + i) * 64
  let grans := (List.range ((o + n - 1) / 64 + 1 - o / 64)).map at_
  match grans.find? fun x => decide (e.t.carve.region x ≠ .cell) with
  | some x => .error (.trap cBounds 1 p (e.t.access x 0 opnd))
  | none => .ok ()
  match grans.find? fun x => e.t.granTag x != ptrTag p with
  | some x => .error (.trap cTag 0 p (e.t.access x 0 opnd))
  | none => .ok ()

/-- Step 5 of R201: the destination blocks can be armed for the agent. -/
def armable (e : Env) (p : Word) (n agent : Nat) : Except Stop Unit :=
  match (e.t.blocksAt p n).find? fun b =>
      (e.t.block b).state == .full
        || ((e.t.block b).state == .deferred && !((e.t.block b).armed && (e.t.block b).owner == agent)) with
  | some b => .error (.trap (if (e.t.block b).state = .full then cSecond else cOwner) 0 p
      (e.t.access (e.t.blockAt b) 0 0))
  | none => .ok ()

/-- The destination armed at acceptance (R201); of the commands only XRECV services held arrivals (R300). -/
def Env.armAll (e : Env) (p : Word) (n agent : Nat) (recv : Bool) : Env :=
  e.onTile fun t => (t.blocksAt p n).foldl (fun t b =>
    let t := t.arm b agent
    if recv then t.wakePool e.now true (some b) else t) t

/-- Step 6 of R201 for the exchange engine and the fabric (R202). -/
def needQueue (e : Env) : Except Stop Unit :=
  need (decide ((e.t.cmds.filter fun p => p.2.major == 21 && p.2.f6 != 4).length < 64)) .hold

/-- Step 6 of R201 for feeds (R202). -/
def needFeedQueue (e : Env) : Except Stop Unit :=
  need (decide ((e.t.cmds.filter fun p => p.2.major == 21 && p.2.f6 == 4).length < 16)) .hold

end checks

section commands

/-- A command as it is accepted. -/
def newCmd (e : Env) (f6 : Nat) (o : XOrd) (a b : Word) (nblk : Nat) (targets : List Nat) (slots : Nat) : Cmd :=
  { ctx := e.me, pcoff := e.c.th.pc.toNat, major := 21, f6, ord := xordCode o, a, b, nblk, targets, next := 0
    prog := List.replicate slots .todo, journal := none, bar := none, args := [], paging := []
    commitAt := 0, uncounted := 0, counted := [] }

/-- A command held by its agent from now on; its number. -/
def Env.addCmd (e : Env) (c : Cmd) : Env × Nat :=
  let req := e.s.nextReq
  ({ e with s := { e.s with nextReq := req + 1 }, t := { e.t with cmds := e.t.cmds.set req c } }, req)

/-- A local source read asked for; it starts after a free delay (R20, log 3). -/
def Tile.askRead (t : Tile) (due req : Nat) : Tile := { t with readReqs := t.readReqs ++ [(due, req)] }

/-- A use of a delay that is left open: the counters advanced (log 3, log 75). -/
def Env.tick1 (e : Env) : Env := { e with s := e.s.tick1, t := { e.t with age := e.t.age + 1 } }

/-- The first source read of a command. -/
def Env.firstRead (e : Env) (req : Nat) : Env :=
  let x := e.tick1
  { x with t := x.t.askRead (e.now + 1 + e.delay) req }

/-- A message leaves the tile's agent; it reaches the network after a delay that is left open (R254, log 3). -/
def Env.dispatch (e : Env) (m : Msg) : Env :=
  let x := e.tick1
  { x with s := x.s.dispatch m (e.now + 1 + e.delay) }

/-- A message of the issuing tile. -/
def Env.msg (e : Env) (kind : MsgKind) (f6 : Nat) (target : Word) (dst : Node) : Msg :=
  Msg.blank kind (e.attr 21 f6 target) (.tile e.s.cur.dom e.s.cur.rank) dst e.s.pkgid.toNat

/-- The package and the tile that a remote-tile pointer names (R25). -/
def remoteTile (p : Word) : Nat × Node := (fld p 55 40, .tile (fld p 37 32) (fld p 31 20))

/-- The request for block k of a read (R208, R211): job virtual, or a tile. DESIGN CHOICE (log 96): a span that runs past
2^52 goes on at address 0, as the address field of a pointer does (R114). -/
def getMsg (e : Env) (f6 : Nat) (o : XOrd) (a b : Word) (req k : Nat) : Msg :=
  let m := e.msg .get f6 b (.tile 0 0)
  let m := { m with
    attr := { m.attr with blk := k }, req, slot := k, tag := ptrTag b, ord := xordCode o
    args := [withOff a (ptrOff a + 2048 * k)] }
  if ptrSpace b = 1 then { m with va := some ((fld b 51 0 + 2048 * k) % 2 ^ 52) }
  else { m with dpkg := (remoteTile b).1, dst := (remoteTile b).2, addr := ptrOff b + 2048 * k }

/-- The requests of every block of a read. -/
def Env.askBlocks (e : Env) (f6 : Nat) (o : XOrd) (a b : Word) (req n : Nat) : Env :=
  (List.range n).foldl (fun e k => e.dispatch (getMsg e f6 o a b req k)) e

end commands

/-- XSEND (R204). The BOUNDS of a target in another package or domain, or of a RANK past NRANK, has FORM 0 (R201; log 106). -/
def execXsend (st : Stall) (a b : GReg) (s : State) : Host.Outcome State Fault Refusal :=
  issue s (opX st .xcOnly [.g a, .g b, .e 4]) fun e => do
    needTransferWord e true
    needCleanG e a
    needCleanG e b
    let p := e.c.th.rg a; let q := e.c.th.rg b; let n := nblkOf (e.c.th.re 4)
    xPtr p [2]
    need (fld p 55 40 = e.s.pkgid.toNat ∧ fld p 37 32 = e.s.cur.dom ∧ fld p 31 20 < e.d.nrank)
      (.trap cBounds 0 p 0)
    xAligned p 0
    localSpan e q n 1
    needQueue e
    let (e, req) := e.addCmd (newCmd e 0 .relaxed p q n [fld p 31 20] n)
    fin (e.firstRead req)

/-- XMCAST (R205). -/
def execXmcast (st : Stall) (a b : GReg) (s : State) : Host.Outcome State Fault Refusal :=
  issue s (opX st .xcOnly [.g a, .g b, .e 4, .e 5]) fun e => do
    needTransferWord e true
    needCleanG e a
    needCleanG e b
    let q := e.c.th.rg b; let n := nblkOf (e.c.th.re 4); let x := e.c.th.re 5
    let ranks ← rectRanks e.d (e.c.th.rg a)
    localSpan e q n 1
    xPtr x [0]
    xAligned x 4
    needQueue e
    let (e, req) := e.addCmd (newCmd e 1 .relaxed x q n ranks (n * ranks.length))
    fin (e.firstRead req)

/-- The agent that XGET arms its blocks for (R208). -/
def getAgent (e : Env) (b : Word) : Nat :=
  if ptrSpace b = 2 ∧ ¬(fld b 55 40 = e.s.pkgid.toNat ∧ fld b 37 32 = e.s.cur.dom) then 27 else 24

/-- XGET (R208). -/
def execXget (st : Stall) (ord : XOrd) (a b : GReg) (s : State) : Host.Outcome State Fault Refusal :=
  issue s (opX st .xcOnly [.g a, .g b, .e 4]) fun e => do
    needTransferWord e true
    needCleanG e a
    needCleanG e b
    let p := e.c.th.rg a; let q := e.c.th.rg b; let n := nblkOf (e.c.th.re 4)
    localSpan e p n 0
    xPtr q [1, 2]
    xAligned q 1
    armable e p n (getAgent e q)
    needQueue e
    needReleased e ord
    let (e, req) := e.addCmd (newCmd e 2 ord p q n [] n)
    fin ((e.armAll p n (getAgent e q) false).askBlocks 2 ord p q req n)

/-- The lowest-numbered free journal entry (R234). -/
def Tile.freeEntry? (t : Tile) : Option Nat := (List.range 64).find? fun i => (t.journal.find i).isNone

/-- XPUT (R209, R210, R234). The BOUNDS of a target in its own domain has FORM 0 (R201; log 106). -/
def execXput (st : Stall) (ord : XOrd) (a b : GReg) (s : State) : Host.Outcome State Fault Refusal :=
  issue s (opX st .xcOnly [.g a, .g b, .e 4]) fun e => do
    needTransferWord e true
    needCleanG e a
    needCleanG e b
    let p := e.c.th.rg a; let q := e.c.th.rg b; let n := nblkOf (e.c.th.re 4)
    xPtr p [1, 2]
    need (!(ptrSpace p == 2 && fld p 55 40 == e.s.pkgid.toNat && fld p 37 32 == e.s.cur.dom))
      (.trap cBounds 0 p 0)
    xAligned p 0
    localSpan e q n 1
    needQueue e
    match e.t.freeEntry? with
    | none => .error .hold
    | some j =>
      needReleased e ord
      let entry : JEntry := { refused := false, cause := 0, fblk := 0, nblk := n, seq := e.t.xputSeq, dest := p, src := q }
      let e := { e with t := { e.t with journal := e.t.journal.set j entry, xputSeq := (e.t.xputSeq + 1) % 2 ^ 16 } }
      let (e, req) := e.addCmd { newCmd e 3 ord p q n [] n with journal := some j }
      fin (e.firstRead req)

/-- XFEED (R211): NFEED of its barrier increases at acceptance, after every earlier access of the context to the barrier
(R246). -/
def execXfeed (st : Stall) (ord : XOrd) (a b : GReg) (s : State) : Host.Outcome State Fault Refusal :=
  issue s (opX st .notSv [.g a, .g b, .e 4, .e 5]) fun e => do
    needTransferWord e true
    needCleanG e a
    needCleanG e b
    let p := e.c.th.rg a; let q := e.c.th.rg b; let n := nblkOf (e.c.th.re 4); let x := e.c.th.re 5
    localSpan e p n 0
    xPtr q [1]
    xAligned q 1
    if x ≠ 0 then
      xPtr x [0]
      localCell e x 16 16 4
      need (!e.acquiring && (e.c.sbHits (ptrOff x) 16).isEmpty && !e.cellHits (ptrOff x) 16) .hold
      need (e.t.nfeed (ptrOff x) ≠ 255) (.trap cBounds 3 x (e.t.access (ptrOff x) 0 4))
    armable e p n 25
    needFeedQueue e
    needReleased e ord
    let bar := if x = 0 then none else some (ptrOff x)
    let e := e.onTile fun t => match bar with
      | some o => t.setWord1 o (t.nfeed o + 1) (t.waiter o)
      | none => t
    let (e, req) := e.addCmd { newCmd e 4 ord p q n [] n with bar }
    fin ((e.armAll p n 25 false).askBlocks 4 ord p q req n)

/-- XCOMB (R213). -/
def execXcomb (st : Stall) (op : CombOp) (ord : XOrd) (a b : GReg) (s : State) : Host.Outcome State Fault Refusal :=
  issue s (opX st .xcOnly [.g a, .g b]) fun e => do
    needCleanG e a
    needCleanG e b
    let p := e.c.th.rg a; let v := e.c.th.rg b
    xPtr p [0, 2]
    if ptrSpace p = 0 then localCell e p 8 8 0
    else need (fld p 2 0 = 0) (.trap cMisalign 0 p (accessNone 0 0))
    needQueue e
    needReleased e ord
    let (e, req) := e.addCmd { newCmd e 5 ord p v 1 (if ptrSpace p = 0 then [e.s.cur.rank] else []) 1 with args := [w64 (combCode op)] }
    let home : Nat × Node :=
      if ptrSpace p = 0 then (e.s.pkgid.toNat, .tile e.s.cur.dom e.s.cur.rank) else remoteTile p
    let m : Msg :=
      { e.msg .combine 5 p home.2 with
        req, dpkg := home.1, tag := ptrTag p, addr := ptrOff p, args := [v, w64 (combCode op)], ord := xordCode ord }
    fin (e.dispatch m)

/-- The routing entry at e5 + 8 × gA, read as a cell load with its holds (R40, R124, R137, R201, R214): the target's first
rank and the number of tiles of its group. -/
def routeEntry (e : Env) (x idx : Word) : Except Stop (Nat × Nat) := do
  let (p, o) ← checkAddr e x (8 * idx.toNat : Nat) 8 4
  checkRegion e p o 8 0 .load 0 4
  need (e.t.carve.region o = .cell) (.trap cBounds 1 p (e.t.access o 0 4))
  checkTag e p o 0 4
  need (!e.acquiring && !e.cellHits o 8) .hold
  match loadBytes e.c e.t o 8 with
  | none => .error .hold
  | some bs =>
    need (!e.t.granPois o) (.trap cPoison 1 p (e.t.access o 0 4))
    let w := w64 (natOfBytes bs)
    need (fld w 63 24 = 0 ∧ fld w 23 12 ≠ 0 ∧ fld w 11 0 + fld w 23 12 ≤ e.d.nrank)
      (.trap cBounds 3 x (e.t.access o 0 4))
    return (fld w 11 0, fld w 23 12)

/-- The TVAL of the checks of the tile's exchange state (log 23). -/
def Env.freeTval (e : Env) : Word := e.openWord (Config.freeTval e.now e.s.cur.dom e.s.cur.rank)

/-- XROUTE (R214). The manual gives no TVAL for the checks of the tile's exchange state: a free value (log 23). DEDUCED (log
95): TVAL of an expert index of NENT or more is gA, the register whose check it is (R201). -/
def execXroute (st : Stall) (a b : GReg) (s : State) : Host.Outcome State Fault Refusal :=
  issue s (opX st .xcOnly [.g a, .g b, .e 4, .e 5]) fun e => do
    needTransferWord e false
    needCleanG e a
    needCleanG e b
    needRouted e
    let idx := e.c.th.rg a; let q := e.c.th.rg b
    need (decide (idx.toNat < fld (e.c.th.re 4) 27 16)) (.trap cBounds 3 idx 0)
    localSpan e q 1 1
    xPtr (e.c.th.re 5) [0]
    let (rank0, ntile) ← routeEntry e (e.c.th.re 5) idx
    let target := rank0 + e.s.cur.rank % ntile
    let sseq := e.t.routes.getD target 0
    need (!e.t.closed && decide (sseq < 4096)) (.trap cBounds 3 e.freeTval 0)
    needQueue e
    let e := { e with t := { e.t with routes := e.t.routes.set target (sseq + 1) } }
    let (e, req) := e.addCmd { newCmd e 6 .relaxed idx q 1 [target] 1 with args := [w64 sseq, w64 (fld idx 11 0)] }
    fin (e.firstRead req)

/-- The close of a tile (R215): one closing count to every tile of the domain. -/
def Env.close1 (e : Env) : Env :=
  let n := e.d.nrank
  let (e, req) := e.addCmd { newCmd e 7 .relaxed 0 0 0 (List.range n) n with ctx := 16 }
  let e := { e with t := { e.t with closed := true } }
  (List.range n).foldl (fun e r =>
    let m := { e.msg .close 7 0 (.tile e.s.cur.dom r) with
      req, slot := r, args := [w64 e.s.cur.rank, w64 (e.t.routes.getD r 0)] }
    e.dispatch m) e

/-- XCLOSE (R215). -/
def execXclose (st : Stall) (s : State) : Host.Outcome State Fault Refusal :=
  issue s (opX st .xcOnly []) fun e => do
    needRouted e
    need (!e.t.closed) (.trap cBounds 3 e.freeTval 0)
    needQueue e
    fin e.close1

/-- XRECV (R207). -/
def execXrecv (st : Stall) (a : GReg) (s : State) : Host.Outcome State Fault Refusal :=
  issue s (opX st .xcOnly [.g a, .e 4]) fun e => do
    needTransferWord e true
    needCleanG e a
    let p := e.c.th.rg a; let n := nblkOf (e.c.th.re 4)
    localSpan e p n 0
    armable e p n 24
    let e := e.armAll p n 24 true
    fin { e with t := { e.t with recvs := e.t.recvs ++ e.t.blocksAt p n } }

/-- XRECV with .route (R216): the inbox and its directory; the units that waited for it are serviced (R300). -/
def execXrecvRoute (st : Stall) (a : GReg) (s : State) : Host.Outcome State Fault Refusal :=
  issue s (opX st .xcOnly [.g a, .e 4, .e 5]) fun e => do
    needTransferWord e true
    needCleanG e a
    needRouted e
    let p := e.c.th.rg a; let w := e.c.th.re 4; let n := nblkOf w; let x := e.c.th.re 5
    localSpan e p n 0
    xPtr x [0]
    localCell e x 8 (8 + 8 * n) 4
    need (!e.t.inboxUsed) (.trap cBounds 3 e.freeTval 0)
    armable e p n 24
    need (!e.acquiring && (e.c.sbHits (ptrOff x) 8).isEmpty && !e.cellHits (ptrOff x) 8) .hold
    let e := e.armAll p n 24 true
    let box : Inbox := { base := e.t.blockOf (ptrOff p), nblk := n, dir := ptrOff x, order := w.getLsbD 12, taken := 0, next := 0 }
    fin (e.onTile fun t =>
      ({ t with inbox := some box, inboxUsed := true, sram := t.sram.write64 box.dir 0 }).wakePool e.now true none)

/-- XEND (R215, R218): the close where the node is ROUTED and XC has not closed; XC issues nothing after it. -/
def execXend (st : Stall) (s : State) : Host.Outcome State Fault Refusal :=
  issue s (op32 st .xcOnly true 22 []) fun e => do
    let e ← if e.d.routed && !e.t.closed then (do needQueue e; pure e.close1) else .ok e
    fin { e with t := { e.t with xended := true }, c := { e.c with run := .free } }

/-- A send, multicast, put, combine, route or close of XC is outstanding (R219). -/
def Tile.xcOutstanding (t : Tile) : Bool :=
  t.cmds.any fun p => p.2.ctx == 16 && p.2.major == 21 && p.2.f6 != 2 && p.2.f6 != 4

/-- XWAIT (R219): the result is interlocked; when it lands is left open (log 3). -/
def xwaitIssue (st : Stall) (a : GReg) (recv : Bool) (s : State) : Host.Outcome State Fault Refusal :=
  issue s (op32 st .xcOnly true 22 []) fun e => do
    need (!e.t.xcOutstanding) .hold
    need (!recv || e.t.recvs.isEmpty) .hold
    fin (e.tick1.interlocked (1 + e.delay) [.g a (w64 e.t.xrefused) false] 0 22)

/-- XWAIT (R219). -/
def execXwait (st : Stall) (a : GReg) (s : State) : Host.Outcome State Fault Refusal := xwaitIssue st a false s

/-- XWAIT with .recv (R219). -/
def execXwaitRecv (st : Stall) (a : GReg) (s : State) : Host.Outcome State Fault Refusal := xwaitIssue st a true s

end Sys2Proof.Machine
end

