-- ==== Sys2Proof/Machine/Arrive.lean ====
section
/-! DEFINITION. What arrives at a tile, a controller, the host port or a CXL port and what comes back (R63, R64, R202,
R206 to R217, R264, R269, R277, R278, R301, R302, R381), the engines' reads (R20), the commits of feeds (R211) and the end
of a walk (R286 to R288). -/

namespace Sys2Proof.Machine

section records

/-- The record of a refusal or a source failure (R269, R270, R290). -/
def Msg.record (m : Msg) (kind cause : Nat) : List Word := faultRecord kind cause false m.attr m.attr.agent 0

/-- A refused arrival other than a put toward another domain or package is recorded in its issuer's fault ring, where
the issuer is in this package (R206, R213, R264, R269). -/
def State.recordRefusal (s : State) (m : Msg) (cause : Nat) : State :=
  if m.attr.pkg = s.pkgid.toNat ∧ m.attr.f6 ≠ 3 ∧ m.attr.f6 ≠ 2 ∧ m.attr.f6 ≠ 4 ∧ m.attr.major = 21 then
    s.fault m.attr.dom (m.record 2 cause)
  else s

/-- An answer to a request, on its way to the issuer. -/
def State.respond (s : State) (m : Msg) (status : Nat) : State :=
  s.dispatch (m.back s.pkgid.toNat .answer status) s.cycle

/-- A refusal: the record, then the answer (R202, R206, R213). -/
def State.refuse (s : State) (m : Msg) (cause : Nat) : State := (s.recordRefusal m cause).respond m cause

/-- RETRY-AFTER (R302). -/
def State.retryAfter (s : State) (m : Msg) : State := s.dispatch (m.back s.pkgid.toNat .retryAfter 0) s.cycle

end records

section completion

/-- A progress that needs nothing more. -/
def Prog.final : Prog → Bool
  | .done | .refused _ => true
  | _ => false

/-- A refused block. -/
def Prog.isRefused : Prog → Bool
  | .refused _ => true
  | _ => false

/-- The number by which XWAIT counts a resolved command (R219): a multicast once per refusing target. -/
def Cmd.refusals (c : Cmd) : Nat :=
  if c.f6 = 2 ∨ c.f6 = 4 then 0
  else if c.f6 = 1 then
    ((List.range c.targets.length).filter fun i => ((c.prog.drop (i * c.nblk)).take c.nblk).any Prog.isRefused).length
  else b2n (c.prog.any Prog.isRefused)

/-- The first refused block of a put with its cause (R233, R234). -/
def firstRefused : List Prog → Nat → Option (Nat × Nat)
  | [], _ => none
  | .refused c :: _, i => some (i, c)
  | _ :: t, i => firstRefused t (i + 1)

/-- How long ago the put of a journal entry was accepted, in puts (R233); an entry retired before its trap is the oldest. -/
def Tile.journalAge (t : Tile) (j : Nat) : Nat :=
  match t.journal.find j with
  | some x => (t.xputSeq + 2 ^ 16 - x.seq) % 2 ^ 16
  | none => 2 ^ 16

/-- A refused entry in its place among those whose traps are pending: journal order, the oldest SEQ first (R210, R234;
log 67). -/
def Tile.insRefusal (t : Tile) (j : Nat) : List Nat → List Nat
  | [] => [j]
  | k :: l => if t.journalAge k < t.journalAge j then j :: k :: l else k :: t.insRefusal j l

/-- A resolved command leaves its agent (R202); a put frees its journal entry, or makes it refused (R234). -/
def Tile.endCmd (t : Tile) (req : Nat) (c : Cmd) : Tile :=
  let t := { t with cmds := t.cmds.erase req, xrefused := t.xrefused + c.refusals }
  match c.journal with
  | none => t
  | some j =>
    match firstRefused c.prog 0, t.journal.find j with
    | some (blk, cause), some x =>
      { t with journal := t.journal.set j { x with refused := true, cause, fblk := blk },
                refusals := t.insRefusal j t.refusals }
    | _, _ => { t with journal := t.journal.erase j }

/-- One block of a command resolved; the command ends with its last. -/
def Tile.resolve (t : Tile) (req slot : Nat) (p : Prog) : Tile :=
  match t.cmds.find req with
  | none => t
  | some c =>
    let c := c.setProg slot p
    if c.prog.all Prog.final then t.endCmd req c else { t with cmds := t.cmds.set req c }

/-- The block that slot k of a read fills. -/
def Tile.destBlock (t : Tile) (c : Cmd) (slot : Nat) : Nat := t.blockOf (ptrOff c.a) + slot

/-- Block data landed: the bytes, and POIS of every granule as carried (R63, R259). -/
def Tile.landBlock (t : Tile) (b : Nat) (data : Mem) (pois : BitVec 32) : Tile :=
  let t := { t.clearPois b with sram := t.sram.paste (t.blockAt b) 2048 data }
  t.setPoisAll (((List.range 32).filter fun g => pois.getLsbD g).map (t.blockAt b / 64 + ·))

/-- The next block of a feed to commit (R211). -/
def Cmd.nextCommit (c : Cmd) : Nat := (c.prog.takeWhile Prog.final).length

/-- A pool entry at the tail of its block's list, with a number of its partition's choice (R300, log 3); one that service has
freed in this cycle is not taken again before the next (R301). -/
def Tile.poolAdd (t : Tile) (free : Nat) (block : Option Nat) (kind : PoolKind) : Tile :=
  let avail := (List.range 256).filter fun i => !((t.pool ++ t.poolFreed).any fun p => p.idx == i)
  { t with pool := t.pool ++ [{ idx := avail.getD (Config.poolPick free % max 1 avail.length) 0, block, kind, wokenAt := none }] }

/-- What the choice of a pool entry's number is applied to: under deterministic mode the tile's own count, so that a pool head
reads the same on every run (R69; log 75). -/
def State.pick (s : State) (dom : Nat) (t : Tile) : Nat :=
  match s.doms.find dom with
  | some d => if d.launch.det then t.age else s.free
  | none => s.free

/-- The key of a block, or of the inbox, in the map of service ports (R301). -/
def poolKey (block : Option Nat) : Nat := block.getD 512

/-- A pool entry freed by its service: it takes the service of its block's list for this cycle (R301). -/
def Tile.poolFree (t : Tile) (now : Nat) (p : PoolEntry) : Tile :=
  { t with pool := t.pool.filter (fun q => q != p), poolFreed := t.poolFreed ++ [p]
           poolPort := t.poolPort.set (poolKey p.block) (now + 1) }

/-- The pool entry of a feed: it holds at most one (R300). -/
def Tile.feedEntry? (t : Tile) (req : Nat) : Option PoolEntry :=
  t.pool.find? fun p => (match p.kind with | .feedCommit r _ => r == req | _ => false)

/-- The lowest block of a feed that has landed past the one to commit next (R211). -/
def Cmd.nextWaiting (c : Cmd) : Option Nat :=
  (List.range c.prog.length).find? fun k => decide (c.nextCommit < k) && c.prog.getD k .todo == .landed

/-- A feed whose landed block waits for the block before it holds a pool entry on that block's list (R300). -/
def Tile.feedWait (t : Tile) (free req : Nat) (c : Cmd) : Tile :=
  match t.feedEntry? req, c.nextWaiting with
  | none, some k => t.poolAdd free (some (t.destBlock c (k - 1))) (.feedCommit req k)
  | _, _ => t

/-- A block of a feed has landed (R211, R300): it commits from the next cycle on if its predecessor is committed, and
otherwise waits for that in the pool. -/
def Tile.feedLanded (t : Tile) (now free req slot : Nat) (c : Cmd) : Tile :=
  let c := c.setProg slot .landed
  let c := if slot = c.nextCommit then { c with commitAt := max c.commitAt (now + 1) } else c
  { t with cmds := t.cmds.set req c }.feedWait free req c

/-- A feed goes on after one of its blocks is final (R150, R211): with every block final and counted it ends. -/
def Tile.feedNext (t : Tile) (free req : Nat) (c : Cmd) : Tile :=
  if c.prog.all Prog.final && c.uncounted == 0 then t.endCmd req c
  else { t with cmds := t.cmds.set req c }.feedWait free req c

/-- The pool entry of a feed's block k is freed when the block's turn has come (R300). -/
def Tile.feedServed (t : Tile) (now req k : Nat) : Tile :=
  match t.feedEntry? req with
  | some p => if p.kind = PoolKind.feedCommit req k then t.poolFree now p else t
  | none => t

/-- A landed block of a feed committed in its turn (R211, R212); with a barrier its bytes are to be counted (R150). -/
def Tile.feedStep (t : Tile) (now free : Nat) (det : Bool) (req : Nat) (c : Cmd) : Tile :=
  let k := c.nextCommit
  let t := (t.commit now det (t.destBlock c k)).feedServed now req k
  t.feedNext free req { c.setProg k .done with commitAt := now + 1, uncounted := c.uncounted + b2n c.bar.isSome }

/-- A committed block of a feed counted at its barrier, one event of the cell port (R150); the result says whether the count
was an overrun. -/
def Tile.feedCount (t : Tile) (now free : Nat) (det : Bool) (req : Nat) (c : Cmd) : Tile × Bool :=
  let last := c.prog.all Prog.final && c.uncounted == 1
  let (t, ovr) := match c.bar with
    | some o => t.barrierCount now det o 2048 last
    | none => (t, false)
  ({ t with cellFree := now + 1 }.feedNext free req { c with uncounted := c.uncounted - 1 }, ovr)

/-- The block of a feed that its barrier counts next. -/
def Cmd.countBlock (c : Cmd) : Nat :=
  let done := (List.range c.prog.length).filter fun k => c.prog.getD k .todo == .done
  done.getD (done.length - c.uncounted) 0

/-- A block of a feed refused at its tile (R64): it is never counted, and the blocks after it go on; NFEED decreases where no
unit is left to be counted. -/
def Tile.feedRefused (t : Tile) (now free req slot cause : Nat) (c : Cmd) : Tile :=
  let c := { c.setProg slot (.refused cause) with commitAt := max c.commitAt (now + 1) }
  let t := match c.bar with
    | some o => if c.prog.all Prog.final && c.uncounted == 0 then t.setWord1 o (t.nfeed o - 1) (t.waiter o) else t
    | none => t
  t.feedNext free req c

/-- The record of a barrier overrun (R150, R270, R290). -/
def State.overrun (s : State) (dom rank : Nat) (c : Cmd) (blk : Nat) : State :=
  let a : Attr := { pkg := s.pkgid.toNat, dom, rank, ctx := c.ctx, pcoff := c.pcoff, major := 21, f6 := 4, blk, inc := 0
                    res := 0, target := c.b }
  s.fault dom (faultRecord 4 0x23 false a 25 0)

/-- A feed whose next block has landed and whose turn has come. -/
def Cmd.commits (c : Cmd) (now : Nat) : Bool :=
  c.f6 == 4 && c.major == 21 && c.prog.getD c.nextCommit .todo == .landed && decide (c.commitAt ≤ now)

/-- The agent that a read's destination is armed for (R208, R211). -/
def Cmd.readAgent (c : Cmd) (pkg dom : Nat) : Nat :=
  if c.f6 = 4 then 25
  else if ptrSpace c.b = 2 ∧ ¬(fld c.b 55 40 = pkg ∧ fld c.b 37 32 = dom) then 27
  else 24

/-- Why an arrival for an agent is refused at a block, if it is (R19, R64). -/
def Tile.blockRefusal (t : Tile) (b agent : Nat) (tag : BitVec 6) : Option Nat :=
  let x := t.block b
  if x.gen ≠ tag then some 0x07
  else if x.state = .full then some 0x08
  else if x.state = .deferred ∧ x.armed = true ∧ x.owner = agent then none
  else some 0x09

/-- The attribution of a block of a tile's own command (R270). -/
def Cmd.attr (c : Cmd) (pkg dom rank blk : Nat) : Attr :=
  { pkg, dom, rank, ctx := c.ctx, pcoff := c.pcoff, major := 21, f6 := c.f6, blk, inc := 0, res := 0, target := c.b }

/-- A landed block of a feed in its turn (R19, R64, R211): committed where it is still armed for the feed engine, otherwise
refused as at its landing (log 83). -/
def State.feedCommit (s : State) (dom rank feed : Nat) (d : Domain) (t : Tile) (c : Cmd) : State :=
  let k := c.nextCommit
  match t.blockRefusal (t.destBlock c k) 25 (ptrTag c.a) with
  | none => s.tick1.setDom dom (d.setTile rank (t.feedStep s.cycle (s.pick dom t) d.launch.det feed c))
  | some cause =>
    (s.tick1.setDom dom (d.setTile rank ((t.feedServed s.cycle feed k).feedRefused s.cycle (s.pick dom t) feed k cause c))).fault dom
      (faultRecord 2 cause false (c.attr s.pkgid.toNat dom rank k) 25 0)

/-- FEED_COMMIT (R137, R150, R211): the next block of a feed in its turn, or the count of a committed one while the cell port
is free. -/
def execFeedCommit (dom rank feed : Nat) (s : State) : Host.Outcome State Fault Refusal :=
  match s.doms.find dom, s.tile? dom rank, (s.tile? dom rank).bind fun t => t.cmds.find feed with
  | some d, some t, some c =>
    if c.commits s.cycle then
      .next (s.feedCommit dom rank feed d t c)
    else if 0 < c.uncounted ∧ t.cellFree ≤ s.cycle then
      let (t', ovr) := t.feedCount s.cycle (s.pick dom t) d.launch.det feed c
      let s := s.tick1.setDom dom (d.setTile rank t')
      .next (if ovr then s.overrun dom rank c c.countBlock else s)
    else .fault .notEnabled
  | _, _, _ => .fault .notEnabled

/-- A block of a read delivered at its tile (R63, R64, R208, R212): data, or the poison of a source failure, where the block
is still armed for the command; otherwise it is refused, with a record (log 83). -/
def State.deliver (s : State) (dom rank req slot : Nat) (data : Mem) (pois : BitVec 32) : State :=
  match s.doms.find dom, s.tile? dom rank, (s.tile? dom rank).bind fun t => t.cmds.find req with
  | some d, some t, some c =>
    let b := t.destBlock c slot
    let agent := c.readAgent s.pkgid.toNat dom
    match t.blockRefusal b agent (ptrTag c.a) with
    | some cause =>
      let t := if c.f6 = 4 then t.feedRefused s.cycle (s.pick dom t) req slot cause c else t.resolve req slot (.refused cause)
      (s.tick1.setDom dom (d.setTile rank t)).fault dom
        (faultRecord 2 cause false (c.attr s.pkgid.toNat dom rank slot) agent 0)
    | none =>
      let t := t.landBlock b data pois
      let t := if c.f6 = 4 then t.feedLanded s.cycle (s.pick dom t) req slot c
        else (t.commit s.cycle d.launch.det b).resolve req slot .done
      s.tick1.setDom dom (d.setTile rank t)
  | _, _, _ => s

/-- A source failure (R208, R288, R290): the block is filled as poisoned, with a KIND 3 record. -/
def State.sourceFail (s : State) (m : Msg) (cause : Nat) : State :=
  (s.fault m.attr.dom (m.record 3 cause)).deliver m.attr.dom m.attr.rank m.req m.slot [] 0xFFFFFFFF

end completion

section arrivalLog

/-- PITCH-OVERFLOW at the first FULL answer of a phase (R224, R277, R309). -/
def State.pitchOverflow (s : State) (dom : Nat) : State :=
  match s.doms.find dom with
  | some d => if d.overflowed then s else (s.setDom dom { d with overflowed := true }).post evPitchOverflow dom 0 0 0 []
  | none => s

/-- The offset and the TAG of the block that a reply is for, on the requester's tile. -/
def Cmd.destAt (c : Cmd) (slot : Nat) : Nat × BitVec 6 := (ptrOff c.a + 2048 * slot, ptrTag c.a)

/-- A reply as the log records it (R278): the requester's armed block is the target, and the source is the tile that its
pointer names, or, for job virtual memory, the package that answered. -/
def State.loggedReply (s : State) (m : Msg) : Msg :=
  match s.cmdOf m with
  | none => m
  | some c =>
    let far := ptrSpace c.b == 2
    let pkg := if far then fld c.b 55 40 else (wordAt m.args 0).toNat
    { m with
      addr := (c.destAt m.slot).1, tag := (c.destAt m.slot).2
      attr := { m.attr with
        pkg, dom := if far then fld c.b 37 32 else 0, rank := if far then fld c.b 31 20 else 0
        inc := if pkg = s.pkgid.toNat then s.incarn.toNat else s.kiln.peers.getD pkg 0 } }

/-- The record of an arrival in the log (R278). -/
def Msg.logWords (m : Msg) (rank : Nat) : List Word :=
  let kind := match m.kind with | .reply => 2 | .combine => 3 | .invoke => 4 | .get => 5 | _ => 1
  let inv := wordAt m.args 0
  let w0 := if m.kind = .invoke then kind + fld inv 11 10 * 2 ^ 8 + fld inv 9 0 * 2 ^ 10
    else kind + (if m.kind = .combine then fld (wordAt m.args 1) 3 3 * 2 ^ 4 + fld (wordAt m.args 1) 2 0 * 2 ^ 5 else 0)
      + rank * 2 ^ 20 + m.addr % 2 ^ 20 * 2 ^ 32 + m.tag.toNat * 2 ^ 52
  let w1 := m.attr.pkg + m.attr.dom * 2 ^ 16 + m.attr.rank * 2 ^ 22 + m.attr.inc * 2 ^ 34
  let rest := match m.kind with
    | .combine => [wordAt m.args 0]
    | .invoke => (List.range 6).map fun i => wordAt m.args (i + 1)
    | .get => [wordAt m.args 0]
    | _ => [w64 m.pois.toNat]
  (w64 w0 :: w64 w1 :: rest ++ List.replicate 6 0).take 8

/-- A record that carries a block (R277). -/
def Msg.logBlock (m : Msg) : Bool := m.kind == .put || m.kind == .reply || m.kind == .unit

/-- An arrival for a pre-empted domain (R277, R278): its reservation or unreserved space, the record, and the answer; with
no space it is answered RETRY-AFTER, and an invocation FULL, as a full queue answers (R224). WPTR and RESV are the device's
own (R6). -/
def State.logArrival (s : State) (dom rank : Nat) (d : Domain) (m : Msg) : State :=
  let at_ := d.launch.arrlog
  let wptr := d.arrWptr
  let resv := 2112 * d.resv.length
  let shown := if m.kind = .reply then s.loggedReply m else m
  let blk := match d.tiles.find rank with | some t => t.blockOf shown.addr | none => 0
  let reserved := (m.kind == .put || m.kind == .reply) && d.resv.contains (rank, blk)
  let size := if m.logBlock then 2112 else 64
  if !reserved && decide (d.arrCap < wptr + resv + size) then
    if m.kind = .invoke then (s.pitchOverflow dom).respond m 8
    else if m.kind = .reply then s.enqueue m (s.cycle + 64)
    else s.retryAfter m
  else
    let s := s.vaWriteWords (at_ + 64 + wptr) (shown.logWords rank)
    let s := if m.logBlock then s.vaWriteBytes (at_ + 64 + wptr + 64) (m.data.readBytes 0 2048) else s
    let s := s.headerCount (at_ + 8) 40 (wptr + size)
    let s := if reserved then s.headerCount (at_ + 16) 40 (resv - 2112) else s
    let s := s.updDom dom fun d =>
      { d with logged := d.logged ++ [m], arrWptr := wptr + size
               resv := if reserved then d.resv.erase (rank, blk) else d.resv }
    if m.kind = .put ∨ m.kind = .combine ∨ m.kind = .unit then s.respond m 0
    else if m.kind = .invoke then s.respond m 2
    else s

end arrivalLog

section tiles

/-- The entries of the arriving partition are all taken (R300, R302); one freed in this cycle still is (R301). -/
def Tile.poolFull (t : Tile) : Bool :=
  decide (176 ≤ ((t.pool ++ t.poolFreed).filter fun p => (match p.kind with | .remoteRead _ | .heldArrival _ => true | _ => false)).length)

/-- A request put in the pool's arriving partition, or answered RETRY-AFTER (R300, R302). -/
def State.poolOr (s : State) (dom rank : Nat) (t : Tile) (block : Option Nat) (kind : PoolKind) (m : Msg) : State :=
  if t.poolFull then s.retryAfter m
  else s.tick1.updTile dom rank fun t => t.poolAdd (s.pick dom t) block kind

/-- Every byte of a block at an offset lies in BLOCK (R64, R206). -/
def Tile.wholeBlock (t : Tile) (o : Nat) : Bool :=
  decide (o + 2048 ≤ 2 ^ 20) && t.carve.region o == .block && decide (o % 2048 = 0)

/-- What becomes of a put at a tile (R64, R206). -/
inductive PutTo where
  | land | wait
  | refuse (cause : Nat)
  deriving DecidableEq, Repr

/-- The checks of a put at a tile in the order of R64; inDom: it comes from the same domain. -/
def Tile.putTo (t : Tile) (inDom : Bool) (m : Msg) : PutTo :=
  let x := t.block (t.blockOf m.addr)
  if !t.wholeBlock m.addr then .refuse 0x05
  else if x.gen ≠ m.tag then .refuse 0x07
  else
    match x.state with
    | .full => .refuse 0x08
    | .deferred => if x.armed && x.owner == (if inDom then 24 else 27) then .land else .refuse 0x09
    | .empty => if inDom then .wait else .refuse 0x09

/-- A put that lands: the block's bytes, then its commit (R63, R206). -/
def Tile.landPut (t : Tile) (now : Nat) (det : Bool) (m : Msg) : Tile :=
  (t.landBlock (t.blockOf m.addr) m.data m.pois).commit now det (t.blockOf m.addr)

/-- A put at a tile (R64, R206): lands, waits, or is refused. -/
def State.putTile (s : State) (dom rank : Nat) (det : Bool) (t : Tile) (m : Msg) : State :=
  match t.putTo (decide (m.attr.pkg = s.pkgid.toNat) && decide (m.attr.dom = dom)) m with
  | .land => (s.updTile dom rank fun t => t.landPut s.cycle det m).respond m 0
  | .wait => s.poolOr dom rank t (some (t.blockOf m.addr)) (.heldArrival m) m
  | .refuse cause => s.refuse m cause

/-- A read at a tile (R208): the engine reads a FULL block for 16 cycles, others wait in the pool (R19, R20). -/
def State.getTile (s : State) (dom rank : Nat) (t : Tile) (m : Msg) : State :=
  let b := t.blockOf m.addr
  let x := t.block b
  if !t.wholeBlock m.addr then s.refuse m 0x05
  else if x.gen ≠ m.tag then s.refuse m 0x07
  else if x.state = .full then
    s.updTile dom rank fun t =>
      { t with reads := t.reads ++ [{ blocks := [b], last := s.cycle + 15, ctx := none, job := .reply m }] }
  else s.poolOr dom rank t (some b) (.remoteRead m) m

/-- The value of a combine (R213): FL × 8 + SUB picks the operation. -/
def combineValue (code : Nat) (old v : Word) : Word :=
  match code with
  | 0 => old + v
  | 1 => CellFn.min.apply old v 0
  | 2 => CellFn.max.apply old v 0
  | 3 => CellFn.minu.apply old v 0
  | 4 => CellFn.maxu.apply old v 0
  | 5 => old &&& v
  | 6 => old ||| v
  | c => w64 (minMaxF fmt64 (c == 10) old.toNat v.toNat).1

/-- Why a combine is refused at its cell (R213, R270), if it is. -/
def Tile.combineCause (t : Tile) (m : Msg) : Option Nat :=
  let o := m.addr
  if t.carve.region o ≠ .cell ∨ o % 8 ≠ 0 ∨ t.hitsWord1 o 8 = true then some 0x05
  else if t.granTag o ≠ m.tag then some 0x06
  else if t.granPois o then some 0x0A
  else none

/-- A combine performed (R137, R213). -/
def Tile.combineDo (t : Tile) (now : Nat) (det : Bool) (m : Msg) : Tile :=
  let v := combineValue (wordAt m.args 1).toNat (t.sram.read64 m.addr) (wordAt m.args 0)
  { (t.idleReason det 1) with sram := t.sram.write64 m.addr v, cellFree := now + 1 }

/-- What a refused combine leaves at its cell: the read that found poison (R38; log 38). -/
def State.combineMark (s : State) (dom rank : Nat) (m : Msg) (cause : Nat) : State :=
  if cause = 0x0A then s.updTile dom rank fun t => t.readFail [m.addr / 64] else s

/-- A combine at its cell (R137, R213): ahead of the cycle's CELL instructions, or refused. -/
def State.combineTile (s : State) (dom rank : Nat) (det : Bool) (t : Tile) (m : Msg) : State :=
  match t.combineCause m with
  | some cause => (s.combineMark dom rank m cause).refuse m cause
  | none => (s.updTile dom rank fun t => t.combineDo s.cycle det m).respond m 0

/-- The directory record of a unit (R216). -/
def unitRecord (srank sseq eidx slot : Nat) : Word := w64 (srank + sseq * 2 ^ 16 + eidx * 2 ^ 32 + slot * 2 ^ 48)

/-- The condition of R217: closes from every tile, and as many units as they count. -/
def Tile.routedComplete (t : Tile) (nrank : Nat) : Bool :=
  decide (t.closes.length = nrank) && decide (t.units = t.closes.vals.sum)

/-- The granules of the directory's records. -/
def Inbox.dirGrans (box : Inbox) : List Nat := (List.range box.taken).map fun i => (box.dir + 8 + 8 * i) / 64

/-- The records of the directory, in landing order. -/
def Tile.dirRecords (t : Tile) (box : Inbox) : List Word :=
  (List.range box.taken).map fun i => t.sram.read64 (box.dir + 8 + 8 * i)

/-- A directory record in its place by (SRANK, SSEQ) (R217). -/
def insRecord (w : Word) : List Word → List Word
  | [] => [w]
  | v :: t => if fld w 11 0 * 4096 + fld w 27 16 < fld v 11 0 * 4096 + fld v 27 16 then w :: v :: t else v :: insRecord w t

/-- The sorted directory (R217). -/
def Tile.sortedDir (t : Tile) (box : Inbox) : List Word := (t.dirRecords box).foldl (fun l w => insRecord w l) []

/-- The cycles of R217 for the sort and the moves. -/
def Tile.routedCost (t : Tile) : Nat :=
  match t.inbox with
  | none => 0
  | some box =>
    let moved := if box.order then ((t.sortedDir box).zipIdx.filter fun p => fld p.1 56 48 != p.2).length else 0
    2 * box.taken + 32 * moved

/-- The routed part of the tile's exchange ends so many cycles from now, once its condition holds (R217). -/
def Tile.routedCheck (t : Tile) (now nrank : Nat) : Tile :=
  if t.routedComplete nrank && t.routedAt.isNone then { t with routedAt := some (now + t.routedCost) } else t

/-- A block is armed for the exchange engine. -/
def Tile.armedSlot (t : Tile) (b : Nat) : Bool :=
  let x := t.block b
  x.state == .deferred && x.armed && x.owner == 24

/-- The lowest free slot of the inbox (R216). DEDUCED (log 97): a slot that another transfer has made FULL is not free (R249). -/
def Tile.freeSlotOf (t : Tile) (box : Inbox) : Option Nat :=
  (List.range box.nblk).find? fun k => decide (box.next ≤ k) && t.armedSlot (box.base + k)

/-- A routed unit at a tile (R216): the lowest free slot and a directory record, or INBOX-FULL; before the inbox is
declared it is held. -/
def State.unitTile (s : State) (dom rank nrank : Nat) (t : Tile) (m : Msg) : State :=
  match t.inbox with
  | none => s.poolOr dom rank t none (.heldArrival m) m
  | some box =>
    match t.freeSlotOf box with
    | some k =>
      let rec_ := unitRecord m.attr.rank (wordAt m.args 0).toNat (wordAt m.args 1).toNat k
      (s.updTile dom rank fun t =>
        let t := t.landBlock (box.base + k) m.data m.pois
        let t := { t with sram := (t.sram.write64 (box.dir + 8 + 8 * box.taken) rec_).write64 box.dir (w64 (box.taken + 1))
                          inbox := some { box with taken := box.taken + 1, next := k + 1 }, units := t.units + 1 }
        t.routedCheck s.cycle nrank).respond m 0
    | none =>
      (s.updTile dom rank fun t => { t with units := t.units + 1 }.routedCheck s.cycle nrank).refuse m 0x22

/-- A closing count at a tile (R215, R217, R381). -/
def State.closeTile (s : State) (dom rank nrank : Nat) (m : Msg) : State :=
  (s.updTile dom rank fun t =>
    ({ t with closes := t.closes.set (wordAt m.args 0).toNat (wordAt m.args 1).toNat }).routedCheck s.cycle nrank).respond m 0

/-- ROUTED_FINISH (R217): the directory sorted, the units moved where ORDER asks, the occupied slots committed; a slot that
another transfer has made FULL takes no write and no commit (R249; log 97). -/
def Tile.routedFinish (t : Tile) (now : Nat) (det : Bool) : Tile :=
  let t := { t with routedDone := true }
  match t.inbox with
  | none => t
  | some box =>
    let t := t.readFail
      (box.dirGrans ++ if box.order then (List.range box.taken).flatMap fun i => t.blockGrans (box.base + i) else [])
    let recs := t.sortedDir box
    let slotOf (w : Word) : Nat := fld w 56 48
    let moved := if box.order then
        recs.zipIdx.foldl (fun (u : Tile) p =>
          let from_ := box.base + slotOf p.1
          let pois := (List.range 32).foldl (fun (x : BitVec 32) g =>
            if t.granPois (t.blockAt from_ + 64 * g) then x ||| BitVec.twoPow 32 g else x) 0
          if t.armedSlot (box.base + p.2) then u.landBlock (box.base + p.2) (t.sram.slice (t.blockAt from_) 2048) pois else u) t
      else t
    let recs := if box.order then
        recs.zipIdx.map fun p => unitRecord (fld p.1 11 0) (fld p.1 27 16) (fld p.1 43 32) p.2
      else recs
    let moved := recs.zipIdx.foldl (fun (u : Tile) p =>
      { u with sram := u.sram.write64 (box.dir + 8 + 8 * p.2) p.1 }) moved
    ((List.range (if box.order then box.taken else box.next)).filter fun i => t.armedSlot (box.base + i)).foldl
      (fun u i => u.commit now det (box.base + i)) moved

/-- ROUTED_FINISH (R217). -/
def execRoutedFinish (dom rank : Nat) (s : State) : Host.Outcome State Fault Refusal :=
  tileEvent s dom rank fun d t =>
    match t.routedAt with
    | some x => if x ≤ s.cycle ∧ t.routedDone = false then some (t.routedFinish s.cycle d.launch.det) else none
    | none => none

end tiles

section arrival

/-- A request whose target is in no placed domain, or beyond its ranks, is refused; one for a saved domain goes to the log
(R64, R208, R264, R272, R274). -/
def State.atTile (s : State) (dom rank : Nat) (m : Msg) (act : Domain → Tile → State) : State :=
  match s.doms.find dom with
  | none => s.refuse m 0x24
  | some d =>
    if d.status.refuses then s.refuse m 0x24
    else if d.status.logs then s.logArrival dom rank d m
    else
      match d.tiles.find rank with
      | none => s.refuse m 0x05
      | some t => act d t

/-- A message that has arrived, of one kind. -/
def State.arrivedMsg (s : State) (id : Nat) (kind : MsgKind) : Option Msg :=
  match s.msgs.find id with
  | some m => if m.kind = kind ∧ m.arrived s.cycle = true ∧ s.heldFor m = false then some m else none
  | none => none

/-- The row of an arrival. -/
def arrive (s : State) (id : Nat) (kind : MsgKind) (act : State → Msg → State) : Host.Outcome State Fault Refusal :=
  match s.arrivedMsg id kind with
  | some m => .next (act (s.takeMsg id) m)
  | none => .fault .notEnabled

/-- A block put to host or CXL memory (R209): no TAG, no presence; POIS travels with the data (R259). Its 32 granules are written
in one event (R257; log 108). -/
def State.putOutside (s : State) (m : Msg) : State :=
  if m.tag ≠ 0 then s.respond m 0x06
  else
    let grans := (List.range 32).map (m.addr / 64 + ·)
    let bad := ((List.range 32).filter fun g => m.pois.getLsbD g).map (m.addr / 64 + ·)
    let keep (l : List Nat) : List Nat := bad.foldl (fun l g => insNat g l) (l.filter fun g => !grans.contains g)
    (match m.dst with
      | .pcie => { s with hostMem := s.hostMem.paste m.addr 2048 m.data, hostPois := keep s.hostPois }
      | _ => { s with cxlMem := s.cxlMem.paste m.addr 2048 m.data, cxlPois := keep s.cxlPois }).respond m 0

/-- A block read from host or CXL memory (R208, R259). -/
def State.getOutside (s : State) (m : Msg) : State :=
  if m.tag ≠ 0 then s.respond m 0x06
  else
    let (mem, bad) := match m.dst with
      | .pcie => (s.hostMem, s.hostPois)
      | _ => (s.cxlMem, s.cxlPois)
    let pois := (List.range 32).foldl (fun (x : BitVec 32) g =>
      if bad.contains (m.addr / 64 + g) then x ||| BitVec.twoPow 32 g else x) 0
    s.replyTo m (mem.slice m.addr 2048) pois

/-- PUT (R64, R206, R209, R321): at a controller every landed flit acts; elsewhere the whole block. -/
def execPutArrive (msg : Nat) (s : State) : Host.Outcome State Fault Refusal :=
  match s.msgs.find msg with
  | none => .fault .notEnabled
  | some m =>
    match m.dst with
    | .hbm _ =>
      if m.kind = .put ∧ m.waitUntil = none ∧ (m.fresh s.cycle).isEmpty = false then
        s.hbmRow msg m fun s => s.hbmPut msg m
      else .fault .notEnabled
    | .tile dom rank => arrive s msg .put fun s m => s.atTile dom rank m fun d t => s.putTile dom rank d.launch.det t m
    | _ => arrive s msg .put State.putOutside

/-- GET (R208, R320). -/
def execGetArrive (msg : Nat) (s : State) : Host.Outcome State Fault Refusal :=
  match s.arrivedMsg msg .get with
  | none => .fault .notEnabled
  | some m =>
    match m.dst with
    | .hbm _ => s.hbmRow msg m fun s => (s.takeMsg msg).hbmRead m
    | .tile dom rank => .next ((s.takeMsg msg).atTile dom rank m fun _ t => (s.takeMsg msg).getTile dom rank t m)
    | _ => .next ((s.takeMsg msg).getOutside m)

/-- The residency number that a reply or an answer brings back is the current one of its domain (R272). -/
def State.current (s : State) (m : Msg) : Bool := m.attr.res == s.residency.getD m.attr.dom 0

/-- A reply at its requester's domain: the armed block is its storage; a saved domain logs it, a halted one takes it
(R63, R65, R264, R274, R277). -/
def State.replyAt (s : State) (m : Msg) : State :=
  match s.doms.find m.attr.dom with
  | none => s
  | some d =>
    match d.status with
    | .releasing _ _ | .pending => s
    | .saving _ =>
      if m.attr.f6 = 4 then s.deliver m.attr.dom m.attr.rank m.req m.slot m.data m.pois
      else s.logArrival m.attr.dom m.attr.rank d m
    | .saved | .restoring _ => s.logArrival m.attr.dom m.attr.rank d m
    | _ => s.deliver m.attr.dom m.attr.rank m.req m.slot m.data m.pois

/-- REPLY (R208). -/
def execReply (msg : Nat) (s : State) : Host.Outcome State Fault Refusal :=
  arrive s msg .reply fun s m => if s.current m then s.replyAt m else { s with drops := s.drops + 1 }

/-- The cell port of the tile that a message is for is taken (R137, R166). -/
def State.portTaken (s : State) (msg : Nat) : Bool :=
  match (s.msgs.find msg).map Msg.dst with
  | some (.tile dom rank) => (match s.tile? dom rank with | some t => decide (s.cycle < t.cellFree) | none => false)
  | _ => false

/-- COMBINE (R137, R213): it waits while the cell port is taken. -/
def execCombine (msg : Nat) (s : State) : Host.Outcome State Fault Refusal :=
  if s.portTaken msg then .fault .notEnabled
  else
    arrive s msg .combine fun s m =>
      match m.dst with
      | .tile dom rank => s.atTile dom rank m fun d t => s.combineTile dom rank d.launch.det t m
      | _ => s

/-- ROUTED_UNIT (R216, R381). -/
def execRoutedUnit (msg : Nat) (s : State) : Host.Outcome State Fault Refusal :=
  arrive s msg .unit fun s m =>
    match m.dst with
    | .tile dom rank => s.atTile dom rank m fun d t => s.unitTile dom rank d.nrank t m
    | _ => s

/-- CLOSING_COUNT (R215, R381). -/
def execClosingCount (msg : Nat) (s : State) : Host.Outcome State Fault Refusal :=
  arrive s msg .close fun s m =>
    match m.dst with
    | .tile dom rank => s.atTile dom rank m fun d _ => s.closeTile dom rank d.nrank m
    | _ => s

/-- An answer at the issuer (R202, R208, R213, R222, R234): a read that failed is filled poisoned; PITCH has its status;
any other command resolves its block. -/
def State.answerAt (s : State) (m : Msg) : State :=
  let dom := m.attr.dom; let rank := m.attr.rank
  match s.cmdOf m with
  | none => s
  | some c =>
    if c.major = 23 then
      s.updTile dom rank fun t =>
        let x := t.ctx c.ctx
        { (if x.busy = .pitch m.req then t.setCtx c.ctx { x with busy := .pitchDone m.status c.b } else t) with
          cmds := t.cmds.erase m.req }
    else if c.f6 = 2 ∨ c.f6 = 4 then s.sourceFail m m.status
    else if m.status = 0 then s.updTile dom rank fun t => t.resolve m.req m.slot .done
    else
      let far := c.f6 = 5 ∧ ptrSpace c.a = 2 ∧ fld c.a 55 40 ≠ s.pkgid.toNat
      let s := if far then s.fault dom (m.record 2 m.status) else s
      s.updTile dom rank fun t => t.resolve m.req m.slot (.refused m.status)

/-- An answer for a domain that has been released is dropped and counted (R272); one for a saved domain is applied at its
restore, but for the fetches of a feed that were in flight when the feed paused (R274). -/
def execAnswer (msg : Nat) (s : State) : Host.Outcome State Fault Refusal :=
  match s.arrivedMsg msg .answer with
  | none => .fault .notEnabled
  | some m =>
    match (if s.current m then s.doms.find m.attr.dom else none) with
    | some d =>
      let lands : Bool := (match d.status with | .saving _ => true | _ => false) && m.attr.major == 21 && m.attr.f6 == 4
      if d.status.logs && (m.orig == .get) && !lands then
        .next ((s.takeMsg msg).logArrival m.attr.dom m.attr.rank d
          { m with kind := .reply, orig := .answer, pois := 0xFFFFFFFF, data := [] })
      else .next ((s.takeMsg msg).answerAt m)
    | none => .next { (s.takeMsg msg) with drops := s.drops + 1 }

/-- The delay before a request is tried again (R302): 64 cycles in the package; 256 doubling to 8,192 for the fabric, by its
retries since its last success. -/
def retryDelay (fabric : Bool) (retries : Nat) : Nat := if fabric then min (256 * 2 ^ retries) 8192 else 64

/-- A domain that is being released, or is gone, sends nothing again (R272). -/
def State.sendsNoMore (s : State) (m : Msg) : Bool :=
  match s.doms.find m.attr.dom with
  | some d => (match d.status with | .releasing _ _ => true | _ => false)
  | none => true

/-- RETRY_AFTER (R302): the request waits at its sender; one of a residency that is over is dropped and counted, and one of a
domain that is being released ends (R272). -/
def execRetryAfter (msg : Nat) (s : State) : Host.Outcome State Fault Refusal :=
  arrive s msg .retryAfter fun s m =>
    if !s.current m then { s with drops := s.drops + 1 }
    else if s.sendsNoMore m then s
    else
    let fabric : Bool := match m.src with | .darzan _ => true | _ => false
    let flits := if m.orig = .put ∨ m.orig = .unit then 16 else 1
    let m' : Msg := { m with kind := m.orig, src := m.issuer, dst := m.src, flits, status := 0, xid := 0 }
    let s := if fabric then { s with fabRetries := s.fabRetries + 1 } else s
    s.defer m' (s.cycle + retryDelay fabric (s.fabRetries - 1))

/-- RETRY_TIMER (R302): a request that waited is sent afresh. -/
def execRetryTimer (msg : Nat) (s : State) : Host.Outcome State Fault Refusal :=
  match s.msgs.find msg with
  | some m =>
    match m.waitUntil with
    | some x =>
      if x ≤ s.cycle ∧ s.senderHeld m = false then
        .next ((s.takeMsg msg).dispatch { m with waitUntil := none } s.cycle)
      else .fault .notEnabled
    | none => .fault .notEnabled
  | none => .fault .notEnabled

end arrival

section engines

/-- The targets' messages of block k of a command (R204, R205, R209, R214); a span past 2^52 goes on at address 0 (log 96). -/
def sendMsgs (s : State) (dom rank req : Nat) (t : Tile) (c : Cmd) : List Msg :=
  let k := c.next
  let b := t.blockOf (ptrOff c.b) + k
  let pois := (List.range 32).foldl (fun (x : BitVec 32) g =>
    if t.granPois (t.blockAt b + 64 * g) then x ||| BitVec.twoPow 32 g else x) 0
  let a : Attr :=
    { pkg := s.pkgid.toNat, dom, rank, ctx := c.ctx, pcoff := c.pcoff, major := 21, f6 := c.f6, blk := k
      inc := s.incarn.toNat, res := s.residency.getD dom 0, target := c.a }
  let m : Msg :=
    { Msg.blank (if c.f6 = 6 then .unit else .put) a (.tile dom rank) (.tile dom rank) s.pkgid.toNat with
      req, slot := k, tag := ptrTag c.a, addr := ptrOff c.a + 2048 * k, data := t.sram.slice (t.blockAt b) 2048, pois
      args := c.args, ord := c.ord, flits := 16 }
  if c.f6 = 3 then
    if ptrSpace c.a = 1 then [{ m with va := some ((fld c.a 51 0 + 2048 * k) % 2 ^ 52) }]
    else [{ m with dpkg := (remoteTile c.a).1, dst := (remoteTile c.a).2 }]
  else c.targets.zipIdx.map fun p => { m with dst := .tile dom p.1, slot := p.2 * c.nblk + k }

/-- The next source block asked for, if there is one. -/
def State.nextRead (s : State) (dom rank req : Nat) (c : Cmd) : State :=
  match s.doms.find dom, s.tile? dom rank with
  | some d, some t =>
    let t' := { t with cmds := t.cmds.set req { c with next := c.next + 1 }, age := t.age + 1 }
    s.tick1.setDom dom (d.setTile rank
      (if c.next + 1 < c.nblk then t'.askRead (s.cycle + 1 + d.delay s.free t) req else t'))
  | _, _ => s

/-- A source block that has a newer generation than the command's pointer (R19, R269): the record, with the target pointer and
the agent of the command (R290); its refusal follows in the next cycle, after a JLOG of this one (R235). -/
def State.staleRead (s : State) (dom rank req : Nat) (c : Cmd) : State :=
  let a := { c.attr s.pkgid.toNat dom rank c.next with target := c.a }
  let s := s.fault dom (faultRecord 2 0x07 false a a.agent 0)
  (s.nextRead dom rank req c).updTile dom rank fun t =>
    { t with staleDue := t.staleDue ++ [(s.cycle + 1, req, c.next)] }

/-- A source block of a newer generation refused for every target of its command (R19, R269). -/
def Tile.staleRefuse (t : Tile) (p : Nat × Nat × Nat) : Tile :=
  let t := { t with staleDue := t.staleDue.erase p }
  match t.cmds.find p.2.1 with
  | none => t
  | some c =>
    (List.range (max 1 c.targets.length)).foldl (fun t i => t.resolve p.2.1 (i * c.nblk + p.2.2) (.refused 0x07)) t

/-- A source read of a command tried (R19, R20, R204). -/
def State.tryRead (s : State) (dom rank req : Nat) : State :=
  match s.tile? dom rank with
  | none => s
  | some t =>
    match t.cmds.find req with
    | none => s
    | some c =>
      let b := t.blockOf (ptrOff c.b) + c.next
      let x := t.block b
      if x.gen ≠ ptrTag c.b then s.staleRead dom rank req c
      else if x.state = .full then
        s.updTile dom rank fun t =>
          { t with reads := t.reads ++ [{ blocks := [b], last := s.cycle + 15, ctx := none, job := .send req }] }
      else s.tick1.updTile dom rank fun t => t.poolAdd (s.pick dom t) (some b) (.localRead req b)

/-- What follows a finished read (R204, R208); a read of failing SRAM sets POIS (R38). -/
def State.readDone (s : State) (dom rank : Nat) (r : EngRead) : State :=
  let s := s.updTile dom rank fun t => t.readFail (r.blocks.flatMap t.blockGrans)
  match s.tile? dom rank with
  | none => s
  | some t =>
    match r.job with
    | .none => s
    | .send req =>
      match t.cmds.find req with
      | none => s
      | some c => (sendMsgs s dom rank req t c).foldl (fun s m => s.dispatch m s.cycle) (s.nextRead dom rank req c)
    | .reply m =>
      let b := r.blocks.headD 0
      let pois := (List.range 32).foldl (fun (x : BitVec 32) g =>
        if t.granPois (t.blockAt b + 64 * g) then x ||| BitVec.twoPow 32 g else x) 0
      s.replyTo m (t.sram.slice (t.blockAt b) 2048) pois

/-- A read whose last cycle is over. -/
def Tile.readOver? (t : Tile) (now : Nat) : Option EngRead := t.reads.find? fun r => decide (r.last < now)

/-- ENGINE_READ_END (R20, R186): the first read whose last cycle is over ends, and its job follows. -/
def execEngineReadEnd (dom rank : Nat) (s : State) : Host.Outcome State Fault Refusal :=
  match (s.tile? dom rank).bind fun t => t.readOver? s.cycle with
  | none => .fault .notEnabled
  | some r => .next ((s.updTile dom rank fun t => { t with reads := t.reads.erase r }).readDone dom rank r)

/-- A pool entry has been woken before this cycle (R301). -/
def PoolEntry.due (p : PoolEntry) (now : Nat) : Bool :=
  match p.wokenAt with
  | some x => decide (x < now)
  | none => false

/-- An entry whose service lands data: a held arrival. The others read (R244). -/
def PoolEntry.lands (p : PoolEntry) : Bool :=
  match p.kind with
  | .heldArrival _ => true
  | _ => false

/-- The pool entry that is serviced next (R300, R301): of each block's list the first that has been woken, one in each
cycle. A held arrival lands at place 1 of R244, a read comes at place 5; a feed's waiting block is committed by the feed
engine. -/
def Tile.nextPool (t : Tile) (now : Nat) (lands : Bool) : Option PoolEntry :=
  t.pool.find? fun p => p.due now && p.lands == lands && decide (t.poolPort.getD (poolKey p.block) 0 ≤ now)
    && (t.pool.find? fun q => q.block == p.block && q.due now) == some p
    && (match p.kind with | .feedCommit _ _ => false | _ => true)

/-- A pool entry serviced: it finds its block as it stands in this cycle (R301). -/
def State.servePool (s : State) (dom rank : Nat) (p : PoolEntry) : State :=
  let s := s.updTile dom rank fun t => t.poolFree s.cycle p
  match p.kind with
  | .localRead req _ => s.tryRead dom rank req
  | .feedCommit _ _ => s
  | .remoteRead m => s.atTile dom rank m fun _ t => s.getTile dom rank t m
  | .heldArrival m => s.atTile dom rank m fun d t =>
      if m.kind = .unit then s.unitTile dom rank d.nrank t m else s.putTile dom rank d.launch.det t m

/-- A source read whose start has come. -/
def Tile.dueRead (t : Tile) (now : Nat) : Option (Nat × Nat) := t.readReqs.find? fun p => decide (p.1 ≤ now)

/-- WAITER_SERVICE before the issue (place 1 of R244): a refusal that is due, or a held arrival. -/
def State.serveLanding (s : State) (dom rank : Nat) (t : Tile) : Option State :=
  match t.staleDue.find? fun p => decide (p.1 ≤ s.cycle), t.nextPool s.cycle true with
  | some p, _ => some (s.updTile dom rank fun t => t.staleRefuse p)
  | none, some p => some (s.servePool dom rank p)
  | none, none => none

/-- WAITER_SERVICE after the issue (place 5 of R244): a read that waited, or a source read of the engine. -/
def State.serveRead (s : State) (dom rank : Nat) (t : Tile) : Option State :=
  match t.nextPool s.cycle false, t.dueRead s.cycle with
  | some p, _ => some (s.servePool dom rank p)
  | none, some r => some ((s.updTile dom rank fun t => { t with readReqs := t.readReqs.erase r }).tryRead dom rank r.2)
  | none, none => none

/-- WAITER_SERVICE (R19, R244, R300, R301). -/
def execWaiterService (dom rank : Nat) (s : State) : Host.Outcome State Fault Refusal :=
  match (s.tile? dom rank).bind fun t => if s.stage = 0 then s.serveLanding dom rank t else s.serveRead dom rank t with
  | some u => .next u
  | none => .fault .notEnabled

end engines

section walks

/-- A translation cached by its slice (R287); one through an extent makes its page one of the extent's (R297). -/
def State.cacheXlat (s : State) (vpn : Nat) (x : Xlat) : State :=
  let y := s.slice (sliceOf vpn)
  let s := s.setSlice (sliceOf vpn) { y with cache := (y.cache.set vpn x).cap 1024 }
  if x.home = 3 then
    let e := s.extent x.extid
    { s with kiln := { s.kiln with extents := s.kiln.extents.set x.extid { e with pages := insNat vpn e.pages } } }
  else s

/-- A transfer that waited for a walk (R287, R288); found is the package as the walk read it, the same for every transfer that was
merged into it. DESIGN CHOICE (log 20): a slice holds a translation for each 256 KiB part of a larger page, and a walk is for one
such part. -/
def State.walkDone (found s : State) (m : Msg) : State :=
  match m.va with
  | none => s
  | some va =>
    match found.walk va m.writes with
    | .error c => s.xlatFail m va c
    | .ok x => (s.cacheXlat (vpnOf va) x).toHome m va x s.cycle

/-- WALK_COMPLETE (R284 to R288): the leaf returns to the slice, which caches it; a walk that fails caches nothing. The walk
decodes the entries that it has read (R317). -/
def execWalkComplete (walk : Nat) (s : State) : Host.Outcome State Fault Refusal :=
  match s.walks.find walk with
  | none => .fault .notEnabled
  | some w =>
    if w.doneAt ≤ s.cycle then
      let grans := walkGrans s (walk * 2 ^ 18) 4 s.kiln.tableRoot
      .next (w.msgs.foldl s.walkDone ({ s with walks := s.walks.erase walk }.readGrans 2 grans))
    else .fault .notEnabled

/-- STALLED_RECORD_WRITE (R291): a record that waited in its slice finds room in the ring. -/
def execStalledRecordWrite (slice : Nat) (s : State) : Host.Outcome State Fault Refusal :=
  let x := s.slice slice
  let room (l : List Word) : Bool := match s.doms.find (fld (wordAt l 1) 21 16) with
    | some d => !s.fringFull d
    | none => true
  match x.stalled.find? room with
  | none => .fault .notEnabled
  | some l =>
    let dom := fld (wordAt l 1) 21 16
    let s := s.setSlice slice { x with stalled := x.stalled.erase l }
    match s.doms.find dom with
    | none => .next s
    | some d =>
      .next (((s.kilnWalk (d.launch.fring + 16)).fringWrite dom d (l.take 8)).updCmd dom (fld (wordAt l 1) 33 22)
        (wordAt l 8).toNat fun c => { c with paging := [d.fringWptr.toNat % 2 ^ 32] })

end walks

end Sys2Proof.Machine
end

