-- ==== Sys2Proof/Machine/Control.lean ====
section
/-! DEFINITION. The BR, JAL and JR majors and their compact aliases (R76, R84, R85, R118 to R121), and the
resolution of a branch (R85, R119). -/

namespace Sys2Proof.Machine

/-- The conditions of R118. -/
inductive Cond where
  | eq | ne | lt | ge | ltu | geu
  deriving DecidableEq, Repr

/-- Cond(COND3, ga, gb) (R118). -/
def Cond.holds (c : Cond) (a b : Word) : Bool :=
  match c with
  | .eq => a == b
  | .ne => a != b
  | .lt => decide (a.toInt < b.toInt)
  | .ge => decide (b.toInt ≤ a.toInt)
  | .ltu => decide (a.toNat < b.toNat)
  | .geu => decide (b.toNat ≤ a.toNat)

/-- The path that the static prediction takes when it is wrong (R84, R85): the thread issues there until the branch
resolves in cycle t + 3. A predicted target outside the SRAM issues nothing, and no STALL skip is spent until the branch resolves
(log 11). -/
def mispredict (e : Env) (right : BitVec 20) (wrongTarget : Option (BitVec 20)) : Env :=
  let th := e.c.th
  let good := { th with pc := right, retired := th.retired + 1 }
  let stuck : Option TrapInfo := match wrongTarget with
    | some _ => none
    | none => some (trapOf e cBounds 2 0 0)
  { e with c := { e.c with
      wrong := some { right := good, resolveAt := e.now + 3, issued := false }
      th := { th with specTrap := stuck } } }

/-- A branch (R84, R85, R118, R119): the prediction is taken for a negative offset and not taken otherwise; past a
right prediction the thread is speculative until cycle t + 3. On a wrong path a further branch follows its
prediction and is squashed with it. DESIGN CHOICE (log 82): of two poisoned operands POISON names gA. -/
def branchIssue (op : Op) (a b : GReg) (off : Int) (c : Cond) (s : State) : Host.Outcome State Fault Refusal :=
  issue s op fun e => do
    needCleanG e a
    needCleanG e b
    let th := e.c.th
    let taken := c.holds (th.rg a) (th.rg b)
    let predTaken := decide (off < 0)
    let t := branchTarget th.pc off
    if taken then
      let pc ← needTarget t
      if e.c.wrong.isSome then
        return .done { e, pc := if predTaken then some pc else none }
      else if predTaken then
        return .done { e := e.withTh { th with specUntil := max th.specUntil (e.now + 3) }, pc := some pc }
      else
        return .done { e := mispredict e pc (some (nextPc e op)), pc := none }
    else
      let inside := decide (0 ≤ t) && decide (t < 2 ^ 20)
      if e.c.wrong.isSome then
        return .done { e, pc := if predTaken then some (BitVec.ofInt 20 t) else none }
      else if predTaken then
        return .done { e := mispredict e (nextPc e op) (if inside then some (BitVec.ofInt 20 t) else none),
                       pc := some (BitVec.ofInt 20 t) }
      else
        return .done { e := e.withTh { th with specUntil := max th.specUntil (e.now + 3) }, pc := none }

/-- A branch of the BR major. -/
def br32 (st : Stall) (a b : GReg) (off : BitVec 12) (c : Cond) (s : State) : Host.Outcome State Fault Refusal :=
  branchIssue (op32 st .all false 5 [.g a, .g b]) a b off.toInt c s

/-- BEQ (R118). -/
def execBeq (st : Stall) (a b : GReg) (off : BitVec 12) (s : State) : Host.Outcome State Fault Refusal :=
  br32 st a b off .eq s

/-- BNE (R118). -/
def execBne (st : Stall) (a b : GReg) (off : BitVec 12) (s : State) : Host.Outcome State Fault Refusal :=
  br32 st a b off .ne s

/-- BLT (R118). -/
def execBlt (st : Stall) (a b : GReg) (off : BitVec 12) (s : State) : Host.Outcome State Fault Refusal :=
  br32 st a b off .lt s

/-- BGE (R118). -/
def execBge (st : Stall) (a b : GReg) (off : BitVec 12) (s : State) : Host.Outcome State Fault Refusal :=
  br32 st a b off .ge s

/-- BLTU (R118). -/
def execBltu (st : Stall) (a b : GReg) (off : BitVec 12) (s : State) : Host.Outcome State Fault Refusal :=
  br32 st a b off .ltu s

/-- BGEU (R118). -/
def execBgeu (st : Stall) (a b : GReg) (off : BitVec 12) (s : State) : Host.Outcome State Fault Refusal :=
  br32 st a b off .geu s

/-- C.BEQZ: the alias of BEQ gD, g0 with IMM6 signed halfwords (R76). -/
def execCBeqz (d : GReg) (imm : BitVec 6) (s : State) : Host.Outcome State Fault Refusal :=
  branchIssue (op16 0 5 [.g d]) d 0 imm.toInt .eq s

/-- C.BNEZ: the alias of BNE gD, g0 with IMM6 signed halfwords (R76). -/
def execCBnez (d : GReg) (imm : BitVec 6) (s : State) : Host.Outcome State Fault Refusal :=
  branchIssue (op16 0 5 [.g d]) d 0 imm.toInt .ne s

/-- JAL (R120): the link when D is not 0, then the target. -/
def jalIssue (op : Op) (d : GReg) (off : Int) (s : State) : Host.Outcome State Fault Refusal :=
  issue s op fun e => do
    let pc ← needTarget (branchTarget e.c.th.pc off)
    let e := if d = 0 then e else e.fixed 1 [.g d (linkOf e op) false] 0 6
    return .done { e, pc := some pc }

/-- JAL (R120). -/
def execJal (st : Stall) (d : GReg) (off : BitVec 19) (s : State) : Host.Outcome State Fault Refusal :=
  jalIssue (op32 st .all false 6 []) d off.toInt s

/-- C.J: the alias of JAL with D = 0 and OFF10 (R76). -/
def execCJ (off : BitVec 10) (s : State) : Host.Outcome State Fault Refusal :=
  jalIssue (op16 0 6 []) 0 off.toInt s

/-- JALR and JR (R121): nothing of the thread issues before cycle t + 3. -/
def jrIssue (op : Op) (d a : GReg) (imm : BitVec 11) (s : State) : Host.Outcome State Fault Refusal :=
  issue s op fun e => do
    let pc ← jumpTarget e a imm
    let e := if d = 0 then e else e.fixed 1 [.g d (linkOf e op) false] 0 7
    return .done { e := { e with c := { e.c with notBefore := max e.c.notBefore (e.now + 3) } }, pc := some pc }

/-- JALR (R121). -/
def execJalr (st : Stall) (d a : GReg) (imm : BitVec 11) (s : State) : Host.Outcome State Fault Refusal :=
  jrIssue (op32 st .all false 7 [.g a]) d a imm s

/-- JR (R121). -/
def execJr (st : Stall) (a : GReg) (imm : BitVec 11) (s : State) : Host.Outcome State Fault Refusal :=
  jrIssue (op32 st .all false 7 [.g a]) 0 a imm s

/-- C.RET: the alias of JR g15 with IMM11 0 (R76). -/
def execCRet (s : State) : Host.Outcome State Fault Refusal :=
  jrIssue (op16 0 7 [.g 15]) 0 15 0 s

/-- The resources that a squashed instruction took are released in the cycle of the resolution (R85). -/
def Res.release (r : Res) (ctx since now : Nat) : Res :=
  if r.ctx = ctx ∧ since < r.takenAt ∧ now < r.freeAt then { r with freeAt := now + 1 } else r

/-- A branch that resolves against its prediction (R85, R119): every instruction issued past it is squashed. -/
def Tile.squash (t : Tile) (now i : Nat) : Tile :=
  let c := t.ctx i
  match c.wrong with
  | none => t
  | some w =>
    let since := w.resolveAt - 3
    let th := { w.right with skips := if w.issued then 0 else c.th.skips }
    { t.setCtx i { c with th, wrong := none, notBefore := w.resolveAt } with
      divider := t.divider.release i since now
      tree := t.tree.release i since now
      quantiser := t.quantiser.release i since now
      gather := t.gather.release i since now }

/-- A trap of an instruction issued past a branch that has resolved with its prediction is taken (R85). -/
def takeSpecTrap (s : State) (dom rank : Nat) (x : TrapInfo) : State :=
  raiseTrap (s.updTile dom rank fun t =>
    let c := t.ctx x.ctx
    t.setCtx x.ctx { c with th := { c.th with specTrap := none } }) dom rank { x with raisedAt := s.cycle }

end Sys2Proof.Machine
end

