-- ==== Sys2Proof/Machine/Invoke.lean ====
section
/-! DEFINITION. Pitch: the INVOKE major at issue (R220, R222), the invocation unit (R221, R223 to R225, R308) and the
rewrite of a handler entry (R351). -/

namespace Sys2Proof.Machine

section pitch

/-- The registers that hold the arguments of an invocation (R220). -/
def pitchArgs : List GReg := [4, 5, 6, 7, 8, 9]

/-- PITCH and PITCHQ up to their acceptance (R201, R203, R220, R222): the context is held until the answer returns. -/
def pitchStart (e : Env) (f6 : Nat) (ord : XOrd) (b : GReg) : Except Stop Env := do
  needCleanG e b
  match pitchArgs.find? e.c.th.pg with
  | some r => .error (.trap cPoison 0 ((RegId.g r).word 0) 0)
  | none => .ok ()
  let w := e.c.th.rg b
  need (fld w 15 12 = 0 ∧ fld w 31 22 = 0 ∧ fld w 63 48 = 0) (.trap cBounds 3 w 0)
  needReleased e ord
  let (e, req) := e.addCmd { newCmd e f6 ord 0 w 0 [] 1 with major := 23 }
  let m : Msg :=
    { Msg.blank .invoke (e.attr 23 f6 w) (.tile e.s.cur.dom e.s.cur.rank) (.unit (fld w 21 16)) (fld w 47 32) with
      req, args := w :: pitchArgs.map e.c.th.rg, ord := xordCode ord }
  let e := e.dispatch m
  return { e with c := { e.c with busy := .pitch req } }

/-- The Op of PITCH and PITCHQ. -/
def opPitch (st : Stall) (b : GReg) : Op := op32 st .notSv true 23 ((b :: pitchArgs).map RegId.g)

/-- PITCH (R222): a refusal traps PITCH-REFUSED. -/
def execPitch (st : Stall) (ord : XOrd) (b : GReg) (s : State) : Host.Outcome State Fault Refusal :=
  issue s (opPitch st b) fun e => do
    match e.c.busy with
    | .pitchDone status word =>
      need (decide (status < 8)) (.trap cPitch 0 (w64 status) word)
      fin { e with c := { e.c with busy := .none } }
    | .pitch _ => .error .hold
    | _ => return .wait (← pitchStart e 0 ord b)

/-- PITCHQ (R222): the status to gA, interlocked. -/
def execPitchq (st : Stall) (ord : XOrd) (a b : GReg) (s : State) : Host.Outcome State Fault Refusal :=
  issue s (opPitch st b) fun e => do
    match e.c.busy with
    | .pitchDone status _ =>
      let x := { e.tick1 with c := { e.c with busy := .none } }
      fin (x.interlocked (1 + e.delay) [.g a (w64 status) false] 0 23)
    | .pitch _ => .error .hold
    | _ => return .wait (← pitchStart e 1 ord b)

end pitch

section unit

/-- A handler entry that counts as empty (R221). -/
def Domain.entryEmpty (d : Domain) (w : Word) : Bool :=
  !w.getLsbD 20 || w.getLsbD 0 || decide (d.launch.codeSize ≤ fld w 19 0)
    || (!w.getLsbD 21 && decide (d.nrank ≤ fld w 35 24)) || w.getLsbD 23 || decide (fld w 63 36 ≠ 0)

/-- The entry of a handler in the on-chip copy (R221). -/
def Domain.handler (d : Domain) (i : Nat) : Word := d.handlers.getD i 0

/-- An invocation as it is recorded when it is enqueued or appended (R225). -/
def Domain.invocOf (d : Domain) (m : Msg) (inRing : Bool) : Invoc :=
  let w := wordAt m.args 0
  let h := d.handler (fld w 9 0)
  { hidx := fld w 9 0, prio := fld w 11 10, entry := fld h 19 0, all := h.getLsbD 21
    ranks := if h.getLsbD 21 then List.range d.nrank else [fld h 35 24]
    args := m.args.drop 1, spkg := m.attr.pkg, sdom := m.attr.dom, srank := m.attr.rank
    issue := m.req, order := d.invOrder, inRing }

/-- The queue's and the ring's invocations, and the status of an arrival that finds room in either (R224, R225). The entries of the
overflow ring stand in the domain's record and take no bytes of HBM (log 107). -/
def Domain.enqueue (d : Domain) (m : Msg) : Domain × Nat :=
  let queued := (d.queue.filter fun i => !i.inRing).length
  let free := 4096 - (d.queue.filter fun i => i.inRing).length
  let prio := fld (wordAt m.args 0) 11 10
  let push (r : Bool) : Domain := { d with queue := d.queue ++ [d.invocOf m r], invOrder := d.invOrder + 1 }
  if queued < 256 then (push false, 0)
  else if free > 16 ∨ (free ≥ 1 ∧ prio = 3) then (push true, 1)
  else (d, 8)

/-- An invocation enqueued, with its answer (R224). -/
def State.invokeAt (s : State) (dom : Nat) (d : Domain) (m : Msg) : State :=
  let (d', status) := d.enqueue m
  let s := s.setDom dom d'
  (if status = 8 then s.pitchOverflow dom else s).respond m status

/-- INVOKE (R224): held while its entry is locked (R351). -/
def execInvoke (msg : Nat) (s : State) : Host.Outcome State Fault Refusal :=
  match s.arrivedMsg msg .invoke with
  | none => .fault .notEnabled
  | some m =>
    let w := wordAt m.args 0
    let dom := fld w 21 16
    let hidx := fld w 9 0
    let t := s.takeMsg msg
    match s.doms.find dom with
    | none => .next (t.respond m 10)
    | some d =>
      if d.status.refuses then .next (t.respond m 10)
      else if d.launch.nhand ≤ hidx then .next (t.respond m 9)
      else if d.lock = some hidx then .fault .notEnabled
      else if d.entryEmpty (d.handler hidx) then .next (t.respond m 9)
      else if d.status.logs then .next (t.logArrival dom 0 d m)
      else .next (t.invokeAt dom d m)

/-- HANDLER_LOCK_CLEAR (R351): the entry is written to the on-chip copy and to HANDTAB, and LOCK is cleared; the HANDLER
command completes. -/
def execHandlerLockClear (dom : Nat) (s : State) : Host.Outcome State Fault Refusal :=
  match s.doms.find dom with
  | none => .fault .notEnabled
  | some d =>
    match d.lock with
    | none => .fault .notEnabled
    | some i =>
      if d.lockUntil ≤ s.time then
        let s := s.setDom dom { d with handlers := d.handlers.set i d.lockEntry, lock := none }
        .next ((s.vaWrite64 (d.launch.handtab + 8 * i) d.lockEntry).complete dom d.lockSeq 0 0)
      else .fault .notEnabled

end unit

end Sys2Proof.Machine
end

