-- ==== Sys2Proof/Machine/Sys.lean ====
section
/-! DEFINITION. The SYS and TRAP majors (R226 to R242) with the control words (R34 to R37) and the journal's words (R233 to
R235), and C.ILL (R76). -/

namespace Sys2Proof.Machine

section journal

/-- Word w of a journal entry; a free entry reads as zero (R233). -/
def JEntry.word (x : JEntry) (w : Nat) : Word :=
  match w with
  | 0 => w64 ((if x.refused then 3 else 1) + x.cause * 2 ^ 8 + x.fblk * 2 ^ 16 + x.nblk * 2 ^ 32 + x.seq * 2 ^ 48)
  | 1 => x.dest
  | _ => x.src

/-- Word w of entry i. -/
def Tile.jword (t : Tile) (i w : Nat) : Word :=
  match t.journal.find i with
  | some x => x.word w
  | none => 0

/-- JHEAD (R234): the live entry with the oldest SEQ. -/
def Tile.jhead (t : Tile) : Nat :=
  let age (x : JEntry) : Nat := (t.xputSeq + 2 ^ 16 - x.seq) % 2 ^ 16
  match t.journal with
  | [] => 0
  | (i, x) :: l => (l.foldl (fun (a : Nat × Nat) p => if a.2 < age p.2 then (p.1, age p.2) else a) (i, age x)).1

end journal

section words

/-- The control words marked SV (R34). -/
def svWord (n : Nat) : Bool := (decide (0x20 ≤ n) && decide (n ≤ 0x25)) || n == 0x40 || n == 0x41

/-- TSTAT as its own context reads it (R32, R227). -/
def tstatWord (e : Env) : Word := w64 (1 + b2n e.det * 8 + e.c.th.flags.toNat * 2 ^ 24)

/-- A control word as it stands in the issue cycle, none where the number is not listed (R34, R227). -/
def controlWord (e : Env) (n : Nat) : Option Word :=
  let t := e.t
  match n with
  | 0x000 => some (w64 e.me)
  | 0x001 => some (e.c.group.setWidth 64)
  | 0x002 => some (w64 e.s.cur.rank)
  | 0x003 => some (w64 e.d.nrank)
  | 0x004 => some (w64 e.s.cur.dom)
  | 0x005 => some (w64 (e.s.pkgid.toNat + e.s.incarn.toNat * 2 ^ 16))
  | 0x008 => some (tstatWord e)
  | 0x009 => some (e.c.th.rmode.setWidth 64)
  | 0x00A => some (e.c.th.seed.setWidth 64)
  | 0x00B => some (w64 t.carve.frameBase)
  | 0x00C => some (w64 t.carve.frameSize)
  | 0x00D => some 0
  | 0x00E => some (w64 t.carve.cellBase)
  | 0x00F => some (w64 t.carve.blockBase)
  | 0x020 => some t.tcause
  | 0x021 => some t.tepc
  | 0x022 => some t.tval
  | 0x023 => some t.tval2
  | 0x024 => some t.tbase
  | 0x025 => some t.tscratch
  | 0x030 => some (w64 t.jhead)
  | 0x031 => some (w64 t.journal.length)
  | 0x040 => some (w64 (b2n e.det))
  | 0x041 => some (w64 (b2n (t.stallchk || e.det)))
  | n => if 0x010 ≤ n ∧ n ≤ 0x017 then some (w64 (e.d.launch.levels.getD (n - 0x010) 0)) else none

/-- The checks of R34: an unlisted number, then a word marked SV. -/
def needWord (e : Env) (n : Nat) : Except Stop Word := do
  match controlWord e n with
  | none => .error (.trap cIllegal 0 e.bits 0)
  | some w =>
    need (!(svWord n && e.me != 17)) (.trap cPriv 1 e.bits (w64 n))
    return w

/-- The Op of a SYS instruction; HNOTE, MTC and TAGSET wait past an unresolved branch (R84). -/
def opSys (st : Stall) (who : Who) (waits : Bool) (reads : List RegId) : Op := op32 st who waits 24 reads

/-- MFC (R227). -/
def execMfc (st : Stall) (d : GReg) (cw : BitVec 11) (s : State) : Host.Outcome State Fault Refusal :=
  issue s (opSys st .all false []) fun e => do
    let w ← needWord e cw.toNat
    fin (e.fixed 1 [.g d w false] 0 24)

/-- An address written to TEPC or TBASE (R228). -/
def needTrapAddr (v : Word) : Except Stop Unit := need (fld v 63 20 = 0 ∧ fld v 0 0 = 0) (.trap cBounds 3 v 0)

/-- The numbers that R34 lists. -/
def listedWord (n : Nat) : Bool :=
  decide (n ≤ 5) || (decide (8 ≤ n) && decide (n ≤ 0x17)) || (decide (0x20 ≤ n) && decide (n ≤ 0x25)) || n == 0x30 || n == 0x31
    || n == 0x40 || n == 0x41

/-- The Op of an MTC in a context: gA is read where the word may be written, for ILLEGAL and PRIVILEGE precede STALL-SHORT
(R34, R78). -/
def opMtc (st : Stall) (cw : BitVec 11) (a : GReg) (me : Nat) : Op :=
  opSys st .all true (if listedWord cw.toNat && (!svWord cw.toNat || me == 17) then [.g a] else [])

/-- MTC (R228, R229): writes to RO and HW words are ignored (R6). -/
def execMtc (st : Stall) (cw : BitVec 11) (a : GReg) (s : State) : Host.Outcome State Fault Refusal :=
  issue s (opMtc st cw a s.cur.ctx) fun e => do
    let _ ← needWord e cw.toNat
    needCleanG e a
    let v := e.c.th.rg a
    let th := e.c.th
    match cw.toNat with
    | 0x008 => fin (e.withTh { th with flags := v.extractLsb' 24 5 })
    | 0x009 =>
      need (fld v 2 0 ≤ 4) (.trap cIllegal 0 e.bits 0)
      fin (e.withTh { th with rmode := v.extractLsb' 0 3 })
    | 0x00A => fin (e.withTh { th with seed := if v.extractLsb' 0 32 = 0 then 1 else v.extractLsb' 0 32 })
    | 0x021 =>
      needTrapAddr v
      fin { e with t := { e.t with tepc := v } }
    | 0x024 =>
      needTrapAddr v
      fin { e with t := { e.t with tbase := v } }
    | 0x025 => fin { e with t := { e.t with tscratch := v } }
    | 0x041 => fin { e with t := { e.t with stallchk := v.getLsbD 0 || (e.t.stallchk && e.det) } }
    | _ => fin e

end words

/-- RDCYC (R66, R232). -/
def execRdcyc (st : Stall) (d : GReg) (s : State) : Host.Outcome State Fault Refusal :=
  issue s (opSys st .all false []) fun e =>
    fin (e.fixed 1 [.g d (if e.det then e.c.th.retired else e.d.cycles) false] 0 24)

/-- RDRET (R232). -/
def execRdret (st : Stall) (d : GReg) (s : State) : Host.Outcome State Fault Refusal :=
  issue s (opSys st .all false []) fun e => fin (e.fixed 1 [.g d e.c.th.retired false] 0 24)

/-- JLOG (R235): with RET a refused entry is freed in the same event. -/
def execJlog (st : Stall) (d a : GReg) (w : Fin 3) (ret : Bool) (s : State) : Host.Outcome State Fault Refusal :=
  issue s (opSys st .all true [.g a]) fun e => do
    needCleanG e a
    let v := e.c.th.rg a
    need (fld v 63 6 = 0) (.trap cBounds 3 v 0)
    let i := v.toNat
    let e := e.interlocked 3 [.g d (e.t.jword i w.val) false] 0 24
    let free := ret && (match e.t.journal.find i with | some x => x.refused | none => false)
    fin (if free then { e with t := { e.t with journal := e.t.journal.erase i } } else e)

/-- PTST of a g register (R236). -/
def execPtst (st : Stall) (d a : GReg) (s : State) : Host.Outcome State Fault Refusal :=
  issue s (opSys st .all false [.g a]) fun e => fin (e.fixed 1 [.g d (w64 (b2n (e.c.th.pg a))) false] 0 24)

/-- PTST of a v register (R236). -/
def execPtstV (st : Stall) (d : GReg) (a : VReg) (s : State) : Host.Outcome State Fault Refusal :=
  issue s (opSys st .all false [.v a]) fun e => fin (e.fixed 1 [.g d ((e.c.th.pv a).setWidth 64) false] 0 24)

/-- PTST of an accumulator (R236). -/
def execPtstAcc (st : Stall) (d : GReg) (a : AccReg) (s : State) : Host.Outcome State Fault Refusal :=
  issue s (opSys st .all false []) fun e => fin (e.fixed 1 [.g d (e.t.accs.get a).pois false] 0 24)

/-- TAGGET (R237): CheckLocal of one byte without the tag comparison; held until the granule's stores are performed, and
behind an acquire (R246). -/
def execTagget (st : Stall) (d a : GReg) (imm : BitVec 11) (s : State) : Host.Outcome State Fault Refusal :=
  issue s (opSys st .all false [.g a]) fun e => do
    needCleanG e a
    let (p, o) ← checkAddr e (e.c.th.rg a) imm.toInt 1 0
    checkRegion e p o 1 a.val .load 0 0
    need ((e.c.sbHits (o / 64 * 64) 64).isEmpty && !e.acquiring) .hold
    fin ((e.readGrans [o / 64]).fixed 4
      [.g d (w64 ((e.t.granTag o).toNat + b2n (e.t.granPois o) * 64)) false] 0 24)

/-- TAGSET at issue (R238): the context issues nothing until the cell port performs it. -/
def execTagset (st : Stall) (d a : GReg) (imm : BitVec 11) (s : State) : Host.Outcome State Fault Refusal :=
  issue s (opSys st .all true [.g a, .g d]) fun e => do
    needCleanG e a
    let (p, o) ← checkAddr e (e.c.th.rg a) imm.toInt 64 0
    checkRegion e p o 64 a.val .storeBar 0 0
    checkTag e p o 0 0
    need (e.t.carve.region o = .cell) (.trap cBounds 1 p (e.t.access o 0 0))
    needCleanG e d
    let v := e.c.th.rg d
    need (fld v 63 6 = 0) (.trap cBounds 3 v 0)
    let q : CellOp :=
      { ctx := e.me, seq := e.c.th.seq, age := e.t.age, fn := .tagset, ptr := p, addr := o, opnd := v, expect := 0
        ord := .relaxed, dest := 0, stall := st }
    return .stay { e with t := { e.t with cellQ := e.t.cellQ ++ [q] }
                          c := { e.c with busy := .event, th := { e.c.th with skips := st.val } } }

/-- IDLE (R239): it waits in RUN 0b101, and completes with the reason that woke it. -/
def execIdle (st : Stall) (d a : GReg) (s : State) : Host.Outcome State Fault Refusal :=
  issue s (opSys st .slots true [.g a]) fun e => do
    match e.c.busy with
    | .idleDone r => fin ({ e with c := { e.c with busy := .none } }.interlocked 1 [.g d (w64 r) false] 0 24)
    | _ =>
      needCleanG e a
      let n := fld (e.c.th.rg a) 31 0
      if n = 0 then fin (e.interlocked 1 [.g d 0 false] 0 24)
      else
        let i : Idle := { start := e.now, count := n, passed := 0, reason := 0, wake := false }
        return .stay { e with c := { e.c with run := .idle, idle := some i } }

/-- HNOTE (R240, R348): held until the buffer is performed and Kiln can take the notice. DESIGN CHOICE (log 77): where gD and gA
are both poisoned, POISON names gD, which its reads list first. -/
def execHnote (st : Stall) (d a : GReg) (code : BitVec 11) (s : State) : Host.Outcome State Fault Refusal :=
  issue s (opSys st .all true [.g d, .g a]) fun e => do
    needCleanG e d
    needCleanG e a
    need (e.c.sb.isEmpty && decide (e.s.kiln.kept.length < 256)) .hold
    let th := e.c.th
    let w4 := w64 (code.toNat + e.s.cur.rank * 2 ^ 11 + e.me * 2 ^ 23 + e.s.pkgid.toNat * 2 ^ 28)
    fin { e with s := e.s.post evNote e.s.cur.dom 0 0 0 [th.rg d, th.rg a, w4] }

/-- The Op of a TRAP-major instruction. -/
def opTrap (st : Stall) (who : Who) (reads : List RegId) : Op := op32 st who true 25 reads

/-- TRAP (R241). -/
def execTrap (st : Stall) (a : GReg) (code : BitVec 11) (s : State) : Host.Outcome State Fault Refusal :=
  issue s (opTrap st .all [.g a]) fun e => do
    needCleanG e a
    .error (.trap cSoftware 0 (code.setWidth 64) (e.c.th.rg a))

/-- BRK (R241). -/
def execBrk (st : Stall) (code : BitVec 11) (s : State) : Host.Outcome State Fault Refusal :=
  issue s (opTrap st .all []) fun _ => .error (.trap cBreak 0 (code.setWidth 64) 0)

/-- The hold of ERET (R242): SV's stores are performed, and none of its matrix commands is outstanding. -/
def needSvIdle (e : Env) : Except Stop Unit :=
  need (e.c.sb.isEmpty && !(e.t.mx.any fun q => q.ctx == 17)) .hold

/-- The trapped context resumes (R242): ready at TEPC, or in XC's ended state. -/
def Tile.resume (t : Tile) (now : Nat) : Tile :=
  match t.serving with
  | none => t
  | some x =>
    let c := t.ctx x.ctx
    if x.ctx = 16 ∧ x.xended = true then t.setCtx 16 { c with run := .free }
    else (t.setCtx x.ctx { c with th := { c.th with pc := t.tepc.setWidth 20 } }).ready now x.ctx

/-- ERET (R242). -/
def execEret (st : Stall) (s : State) : Host.Outcome State Fault Refusal :=
  issue s (opTrap st .svOnly []) fun e => do
    needSvIdle e
    let x := complete1 (opTrap st .svOnly []) { e }
    return .stay (x.onTile fun t => (t.resume e.now).svDone e.now)

/-- The hold of TEND on the context that SV serves (R145, R242): its buffer is performed and its results have landed. -/
def Tile.servedDrained (t : Tile) : Bool :=
  match t.serving with
  | some x =>
    x.ctx == 16 || ((t.ctx x.ctx).sb.isEmpty && ((t.ctx x.ctx).th.pend.all fun p => p.fixed)
      && !(t.cellQ.any fun q => q.ctx == x.ctx))
  | none => true

/-- ERET with .end (R242): a slot is freed as by TEND; XC is treated as having executed XEND, its close included (R215).
DESIGN CHOICE (log 50): the close is accepted at once where 64 exchange commands are outstanding already. -/
def execEretEnd (st : Stall) (s : State) : Host.Outcome State Fault Refusal :=
  issue s (opTrap st .svOnly []) fun e => do
    needSvIdle e
    need e.t.servedDrained .hold
    let x := complete1 (opTrap st .svOnly []) { e }
    match x.t.serving with
    | none => return .stay (x.onTile fun t => t.svDone e.now)
    | some tr =>
      if tr.ctx = 16 then
        let x := if x.d.routed && !x.t.closed then x.close1 else x
        return .stay (x.onTile fun t =>
          ({ t.setCtx 16 { t.ctx 16 with run := .free } with xended := true }).svDone e.now)
      else return .stay (x.onTile fun t => (t.freeSlot e.s.cur.rank e.now tr.ctx).svDone e.now)

/-- C.ILL: ILLEGAL for every value of its fields (R76). -/
def execCIll (d a : BitVec 4) (f2 : BitVec 2) (s : State) : Host.Outcome State Fault Refusal :=
  issue s { len := 2, st := 0, who := .all, waits := false, major := 0, reads := [] } fun _ =>
    .error (.trap cIllegal 0 (w64 (d.toNat * 2 ^ 6 + a.toNat * 2 ^ 10 + f2.toNat * 2 ^ 14)) 0)

/-- ILLEGAL_ENCODING: an encoding that no row decodes raises ILLEGAL (R77). -/
def execIllegalEncoding (s : State) : Host.Outcome State Fault Refusal :=
  issue s { len := s.ilen, st := 0, who := .all, waits := false, major := 0, reads := [] } fun e =>
    .error (.trap cIllegal 0 e.bits 0)

/-- FETCH_BOUNDS: a fetch outside CODE traps BOUNDS with FORM 4 (R14, R70, R266). -/
def execFetchBounds (s : State) : Host.Outcome State Fault Refusal :=
  issue s { len := 4, st := 0, who := .all, waits := false, major := 0, reads := [] } fun e =>
    .error (.trap cBounds 4 (w64 e.s.fetchAddr) (e.t.access e.s.fetchAddr 0 7))

end Sys2Proof.Machine
end

