-- ==== Sys2Proof/Machine/TileEvents.lean ====
section
/-! DEFINITION. The steps of a tile that no instruction issues (R80, R83, R124, R131, R137, R138, R148, R166, R171, R238,
R239, R261, R262, R268, R304), and the votes that it drives toward its sequencer (R58, R61, R67, R303). -/

namespace Sys2Proof.Machine

section results

/-- RESULT_LANDING (R80, R81): the first due result of a context. -/
def execResultLanding (dom rank ctx : Nat) (s : State) : Host.Outcome State Fault Refusal :=
  tileEvent s dom rank fun _ t =>
    let c := t.ctx ctx
    if ctx < 18 then (firstDue s.cycle c.th.pend).map fun p => t.setCtx ctx { c with th := c.th.land p } else none

end results

section stores

/-- The oldest store-buffer entry of any context (R124). -/
def Tile.oldestStore (t : Tile) : Option (Nat × SbEntry) :=
  ctxNums.foldl (fun best i =>
    match (t.ctx i).sb with
    | [] => best
    | x :: _ =>
      match best with
      | some (_, y) => if x.age < y.age then some (i, x) else best
      | none => some (i, x)) none

/-- The store-buffer entry that the tile performs in this cycle: the oldest, once its delay is over (R124, R244). -/
def Tile.nextStore (t : Tile) (now : Nat) : Option (Nat × SbEntry) :=
  t.oldestStore.filter fun p => decide (p.2.readyAt ≤ now)

/-- A context whose vector store has written its last granule goes on; the gather port is free again (R155, R171). -/
def Tile.drained (t : Tile) (now i : Nat) : Tile :=
  let c := t.ctx i
  if c.busy = .drain ∧ c.sb = [] then
    let t := t.setCtx i { c with busy := .none }
    if t.gather.ctx = i ∧ t.gather.freeAt = untilEvent then { t with gather := { t.gather with freeAt := now + 1 } } else t
  else t

/-- A store-buffer entry performed (R124, R126, R148, R171). -/
def Tile.storePerform (t : Tile) (now i : Nat) (x : SbEntry) : Tile :=
  let c := t.ctx i
  let t := { t.setCtx i { c with sb := c.sb.drop 1 } with storePort := now + 1 }
  let t := if x.abinit then t.abinitPerform now x else { t with sram := t.sram.writeCells x.data }
  let t := if x.pois then t.setPois (x.addr / 64) else t
  t.drained now i

/-- STORE_PERFORM (R124): at most one entry per cycle. -/
def execStorePerform (dom rank : Nat) (s : State) : Host.Outcome State Fault Refusal :=
  tileEvent s dom rank fun _ t =>
    if t.storePort ≤ s.cycle then (t.nextStore s.cycle).map fun p => t.storePerform s.cycle p.1 p.2 else none

/-- A BFILL writes 128 bytes that do not end it (R131, R244): piece k is written k + 1 cycles after the issue. -/
def Tile.fillMore (t : Tile) (now i : Nat) : Option Tile :=
  let c := t.ctx i
  match c.busy with
  | .fill b done w k =>
    if i < 18 ∧ done + k ≤ now + 15 ∧ k < 15 then some ((t.setCtx i { c with busy := .fill b done w (k + 1) }).fillWrite b k w)
    else none
  | _ => none

/-- The last 128 bytes of a BFILL, then Commit(b), and BFILL completes (R131). -/
def Tile.fillEnd (t : Tile) (now : Nat) (det : Bool) (i : Nat) : Option Tile :=
  let c := t.ctx i
  match c.busy with
  | .fill b done w k =>
    if i < 18 ∧ done ≤ now ∧ k = 15 then some (((t.setCtx i (c.finish 4 c.th.skips)).fillWrite b k w).commit now det b)
    else none
  | _ => none

/-- A cycle of a BFILL that does not end it (R131, R244). -/
def fillWriteRow (dom rank ctx : Nat) (s : State) : Host.Outcome State Fault Refusal :=
  tileEvent s dom rank fun _ t => t.fillMore s.cycle ctx

/-- BFILL_COMMIT (R131). -/
def execBfillCommit (dom rank ctx : Nat) (s : State) : Host.Outcome State Fault Refusal :=
  tileEvent s dom rank fun d t => t.fillEnd s.cycle d.launch.det ctx

end stores

section cells

/-- A cell-port event of one of the three rows: which of the port's next operations it is. -/
def cellEvent (s : State) (dom rank : Nat) (mine : CellFn → Bool) (act : Domain → Tile → CellOp → State) :
    Host.Outcome State Fault Refusal :=
  match s.doms.find dom with
  | none => .fault .notEnabled
  | some d =>
    match d.tiles.find rank with
    | none => .fault .notEnabled
    | some t =>
      match t.nextCellOp with
      | some q => if t.cellFree ≤ s.cycle ∧ mine q.fn = true then .next (act d t q) else .fault .notEnabled
      | none => .fault .notEnabled

/-- The operation of a TAGSET. -/
def CellFn.isTagset : CellFn → Bool
  | .tagset => true
  | _ => false

/-- The operation of a VQDX list event. -/
def CellFn.isList : CellFn → Bool
  | .list _ _ _ _ _ => true
  | _ => false

/-- CELL_PERFORM (R136 to R138). -/
def execCellPerform (dom rank : Nat) (s : State) : Host.Outcome State Fault Refusal :=
  cellEvent s dom rank (fun f => !f.isTagset && !f.isList) fun d t q =>
    match q.fn with
    | .decf e0 => decfPerform s dom rank d.launch.det t q e0
    | _ => s.updTile dom rank fun t => t.cellPerform s.cycle q

/-- TAGSET_EVENT (R238). -/
def execTagsetEvent (dom rank : Nat) (s : State) : Host.Outcome State Fault Refusal :=
  cellEvent s dom rank CellFn.isTagset fun _ t q => tagsetPerform s dom rank t q

/-- VQDX_LIST_EVENT (R166). -/
def execVqdxListEvent (dom rank : Nat) (s : State) : Host.Outcome State Fault Refusal :=
  cellEvent s dom rank CellFn.isList fun _ t q =>
    match q.fn with
    | .list recs ocap writes seed flags => listPerform s dom rank t q recs ocap writes seed flags
    | _ => s

end cells

section supervisor

/-- SV can take a trap (R83, R244, R261): it is free since an earlier cycle, the trap was raised before this one, the trapped
context's buffer has drained and its results have landed. -/
def Tile.trapDue (t : Tile) (now : Nat) : Option TrapInfo :=
  match t.traps with
  | x :: _ =>
    if t.serving.isNone && (t.ctx 17).run == .free && decide (x.raisedAt < now) && (t.ctx x.ctx).sb.isEmpty
        && (t.ctx x.ctx).th.pend.isEmpty && (decide (t.svFree < now) || t.svFree == 0) then some x else none
  | [] => none

/-- TRAP_ENTRY (R83, R261, R262): SV starts at TBASE with what names the trap. -/
def execTrapEntry (dom rank : Nat) (s : State) : Host.Outcome State Fault Refusal :=
  tileEvent s dom rank fun _ t => (t.trapDue s.cycle).map fun x => t.takeTrap x (t.traps.drop 1)

/-- XC is at an issue opportunity, or in its ended state (R210, R268). DEDUCED (log 81): past a branch that has not resolved
it is at none, for the PC that it would return to may be that of a wrong path (R85); nor while it is held at a PITCH or PITCHQ
that it has sent (R222). -/
def Tile.journalDue (t : Tile) (now : Nat) : Option Nat :=
  let c := t.ctx 16
  match t.refusals with
  | j :: _ =>
    if (t.xended && c.run == .free && (t.traps.all fun x => x.ctx != 16)
          && (match t.serving with | some x => x.ctx != 16 | none => true))
        || (c.run == .ready && decide (c.spent ≤ now) && decide (c.notBefore ≤ now) && c.busy == .none
          && c.wrong.isNone && c.th.specTrap.isNone && decide (c.th.specUntil ≤ now)) then some j
    else none
  | [] => none

/-- JOURNAL (R210, R234, R268): one refusal raises an asynchronous trap on XC. -/
def execJournal (dom rank : Nat) (s : State) : Host.Outcome State Fault Refusal :=
  match (s.tile? dom rank).bind fun t => (t.journalDue s.cycle).map fun j => (t, j) with
  | none => .fault .notEnabled
  | some (t, j) =>
    let w0 := match t.journal.find j with
      | some x => w64 (3 + x.cause * 2 ^ 8 + x.fblk * 2 ^ 16 + x.nblk * 2 ^ 32 + x.seq * 2 ^ 48)
      | none => 0
    let x : TrapInfo :=
      { cause := cJournal, form := 0, tval := w64 j, tval2 := w0, ctx := 16, async := true, xended := t.xended
        tepc := (t.ctx 16).th.pc, raisedAt := s.cycle }
    .next (raiseTrap (s.updTile dom rank fun t => { t with refusals := t.refusals.drop 1 }) dom rank x)

/-- An IDLE whose wait is over, with its reason (R239). -/
def Ctx.idleOver (c : Ctx) (now : Nat) (det : Bool) : Option Nat :=
  match c.idle with
  | none => none
  | some i =>
    if i.wake then some i.reason
    else if det then (if i.count ≤ i.passed then some 0 else none)
    else if i.start + i.count ≤ now then some 0 else none

/-- IDLE_WAKE (R239): the context is ready and completes its IDLE with the reason, the greatest of all that the cycle
brought: the row comes last in it. -/
def execIdleWake (dom rank ctx : Nat) (s : State) : Host.Outcome State Fault Refusal :=
  tileEvent s dom rank fun d t =>
    if ctx < 18 then
      ((t.ctx ctx).idleOver s.cycle d.launch.det).map fun r =>
        let t := t.ready s.cycle ctx
        t.setCtx ctx { t.ctx ctx with idle := none, busy := .idleDone r }
    else none

/-- A passed opportunity for the contexts in IDLE under deterministic mode: another slot of the tile has issued, or no
other slot is ready (R239). -/
def Tile.countPassed (t : Tile) (issuer : Option Nat) : Tile :=
  t.mapCtxs fun i c =>
    match c.idle with
    | none => c
    | some d =>
      let hit : Bool := match issuer with
        | some j => j != i && decide (j < 16)
        | none => slotNums.all fun j => j == i || (t.ctx j).run != .ready
      if hit then { c with idle := some { d with passed := d.passed + 1 } } else c

end supervisor

section votes

/-- A slot counts toward the vote (R58, R67). -/
def Tile.slotVotes (t : Tile) (det : Bool) (i : Nat) : Bool :=
  let c := t.ctx i
  match c.run with
  | .free | .sync => true
  | .parked =>
    let m := t.block c.wblk
    m.armed && !(det && (m.owner == 24 || m.owner == 25) && m.state != .full) && !c.woken
      || (det && c.woken)
  | .await =>
    match c.barrier with
    | some o =>
      (c.woken || t.nfeed o != 0) && !(det && !c.woken && fld (t.sram.read64 o) 55 0 != 0)
    | none => false
  | _ => false

/-- The stores of a tile are performed, and its cell-port operations (R58, R252). -/
def Tile.settled (t : Tile) : Bool := t.cellQ.isEmpty && ctxNums.all fun i => (t.ctx i).sb.isEmpty

/-- The vote of a tile in a compute superstep (R58). -/
def Tile.vote (t : Tile) (det : Bool) : Bool :=
  (slotNums.all fun i => t.slotVotes det i) && t.starts.isEmpty && t.traps.isEmpty && t.serving.isNone && t.mx.isEmpty
    && t.settled && !(t.cmds.any fun p => p.2.major == 23)

/-- A tile has ended its exchange superstep (R61, R62, R217). -/
def Tile.ended (t : Tile) (inserted routed : Bool) : Bool :=
  inserted
    || (t.xended && (t.ctx 16).run == .free && t.traps.isEmpty && t.serving.isNone && t.refusals.isEmpty
        && !t.xcOutstanding && !(t.cmds.any fun p => p.2.major == 23 && p.2.ctx == 16)
        && t.recvs.isEmpty && (!routed || t.routedDone) && t.settled)

/-- The level that a tile drives toward its sequencer (R303). -/
def Domain.level (d : Domain) (t : Tile) : Bool :=
  if d.phase.getLsbD 0 then t.ended d.inserted d.routed else t.vote d.launch.det

/-- The level on its way (R303): a change arrives within 16 cycles from the sequencer's die and 28 from another, after a
free delay and never before an older change of the same tile. The vote window is open while a vote is asserted (R304). -/
def Domain.driveVote (d : Domain) (now wait : Nat) (t : Tile) : Tile :=
  let up := d.level t
  let bound := if dieOf t.x t.y = dieOf d.x0 d.y0 then 17 else 29
  let at_ := (t.voteFly.map Prod.fst).foldl max (now + wait % bound)
  let t := { t with window := up && !d.phase.getLsbD 0 }
  let t := if up = t.voteUp then t else { t with voteUp := up, voteFly := t.voteFly ++ [(at_, up)] }
  let (due, later) := t.voteFly.partition fun p => decide (p.1 ≤ now)
  match due.getLast? with
  | some p => { t with voteFly := later, voteSeen := p.2 }
  | none => t

/-- VOTE_WINDOW_WAIT_END (R304): the waits that are over. -/
def execVoteWindowWaitEnd (dom rank : Nat) (s : State) : Host.Outcome State Fault Refusal :=
  tileEvent s dom rank fun _ t =>
    let over_ (c : Ctx) : Bool := match c.voteWait with | some w => decide (w ≤ s.cycle) | none => false
    if ctxNums.any fun i => over_ (t.ctx i) then
      some (t.mapCtxs fun _ c => if over_ c then { c with voteWait := none } else c)
    else none

/-- The straggler code of a tile (R60): the lowest nonzero code that applies. -/
def Tile.straggler (t : Tile) (odd inserted routed det : Bool) : Nat :=
  if odd then
    if t.ended inserted routed then 0
    else if !inserted && (!t.xended || (t.ctx 16).run == .trapped || !t.traps.isEmpty || t.serving.isSome) then 1
    else if !t.recvs.isEmpty || (routed && !t.routedDone) then 2
    else 3
  else if t.vote det then 0
  else
    let busy := (slotNums.any fun i =>
        (t.ctx i).run == .ready || (t.ctx i).run == .trapped || (t.ctx i).run == .idle)
      || !t.starts.isEmpty || !t.mx.isEmpty || !t.settled || !t.traps.isEmpty || t.serving.isSome
      || t.cmds.any fun p => p.2.major == 23
    if busy then 1
    else if slotNums.any fun i =>
        let c := t.ctx i
        (c.run == .parked && (t.block c.wblk).state == .empty && !(t.block c.wblk).armed)
          || (c.run == .await && (match c.barrier with | some o => t.nfeed o == 0 | none => false)) then 2
    else 3

end votes

end Sys2Proof.Machine
end

