-- ==== Sys2Proof/Machine/Domain.lean ====
section
/-! DEFINITION. The phase sequencer (R42, R48 to R60, R66, R67, R303 to R309): the graph, a boundary and its start, the
launch of queued handlers, STRAGGLER; and what a boundary may begin: a pre-emption (R274, R277) or a migration (R280). -/

namespace Sys2Proof.Machine

section graph

/-- A node record (R48). -/
def GNode.of (w0 w1 w2 w3 : Word) : GNode :=
  { kind := fld w0 2 0, mode := fld w0 4 3, routed := w0.getLsbD 5, entry := fld w0 27 8, nthreads := fld w0 36 32
    next := fld w1 15 0, alt := fld w1 31 16, ccell := fld w1 51 32, crank := fld w1 63 52, arg := w2, lap := fld w3 31 0 }

/-- The node rules (R45, R48), with the words for the reserved bits. -/
def nodeOk (l : Launch) (c : Carve) (w0 w1 w2 w3 : Word) : Bool :=
  let n := GNode.of w0 w1 w2 w3
  let starts := n.kind == 1 || (n.kind == 0 && n.mode != 1)
  let cond := n.kind == 2 || n.kind == 3
  decide (fld w0 7 6 = 0) && decide (fld w0 31 28 = 0) && decide (fld w0 63 37 = 0) && decide (fld w3 63 32 = 0)
    && decide (n.kind ≤ 5) && decide (n.mode ≤ 2) && (n.kind == 0 || n.mode == 0) && (n.kind == 1 || !n.routed)
    && (if starts then decide (n.entry % 2 = 0) && decide (n.entry < l.codeSize) else n.entry == 0)
    && (if n.kind = 0 ∧ n.mode ≠ 1 then decide (1 ≤ n.nthreads) && decide (n.nthreads ≤ 16) else n.nthreads == 0)
    && (if n.kind = 5 then n.next == 0 else decide (n.next < l.nnode))
    && (if cond || n.kind == 4 then decide (n.alt < l.nnode) else n.alt == 0)
    && (if cond then
          decide (n.ccell % 8 = 0) && decide (c.cellBase ≤ n.ccell) && decide (n.ccell + 8 ≤ c.blockBase)
            && decide (n.crank < l.width * l.height)
        else n.ccell == 0 && n.crank == 0)
    && (n.kind == 0 || n.kind == 1 || n.kind == 4 || w2 == 0)
    && (n.kind == 0 || n.kind == 1 || n.kind == 3 || w3 == 0)

/-- The carving that a launch record gives (R13). -/
def Launch.carve (l : Launch) : Carve :=
  { frameBase := l.codeSize, frameSize := l.frameSize, cellBase := l.codeSize + 18 * l.frameSize
    blockBase := l.codeSize + 18 * l.frameSize + l.cellSize }

/-- Node n fetched (R48, R306, R317): the node, or the reason of MACHINE-CHECK: 5 a page fault, 2 a broken node, also one
whose granule an uncorrectable error has poisoned (R325). -/
def State.fetchNode (s : State) (d : Domain) (n : Nat) : State × Except Nat GNode :=
  match d.cache.find n with
  | some g => (s, .ok g)
  | none =>
    let va := d.launch.graph + 32 * n
    let u := s.kilnRead va 32
    match s.walk va false with
    | .error _ => (u, .error 5)
    | .ok x =>
      let bad := match x.home? s va with
        | .hbm pa => (u.hblk pa).pois.getLsbD (pa / 64 % 32)
        | _ => false
      let w (i : Nat) : Word := s.vaRead64 (va + 8 * i)
      if bad || !nodeOk d.launch d.launch.carve (w 0) (w 1) (w 2) (w 3) then (u, .error 2)
      else (u, .ok (GNode.of (w 0) (w 1) (w 2) (w 3)))

/-- Where the walk of a boundary ends (R49 to R51): a superstep of a node, an inserted one before a node, a HOST hold,
END, or a halt. -/
inductive Reach where
  | start (n : Nat) (g : GNode) (inserted : Bool)
  | host (n : Nat) (g : GNode)
  | finish
  | halt (reason at_ : Nat)
  deriving DecidableEq, Repr

/-- What a boundary has met: the nodes in order, the pass counts of the WHILE nodes (R49, R51), and the condition cells read,
by rank and granule. -/
structure Met where
  nodes : List Nat
  passes : AMap Nat
  cells : List (Nat × Nat)
  deriving DecidableEq, Repr

/-- The condition cell (R51): none where its granule holds POIS. -/
def condCell (d : Domain) (g : GNode) : Option Bool :=
  match d.tiles.find g.crank with
  | none => none
  | some t => if t.granPois g.ccell then none else some (t.sram.read64 g.ccell != 0)

/-- The nodes met at a boundary from one on (R49 to R51): at most 16 of COND, WHILE and HOST. DEDUCED (log 86): a WHILE node
whose cell holds POIS halts the domain (R51) also where its count has reached LIMIT, at which R49 takes ALT whatever the cell
holds. -/
def reachFrom (s : State) (d : Domain) : Nat → Nat → Met → State × Reach × Met
  | 0, n, m => (s, .halt 3 n, m)
  | left + 1, n, m =>
    let m := { m with nodes := m.nodes ++ [n] }
    match s.fetchNode d n with
    | (s, .error r) => (s, .halt r n, m)
    | (s, .ok g) =>
      let odd := d.phase.getLsbD 0
      match g.kind with
      | 0 => (s, .start n g odd, m)
      | 1 => (s, .start n g !odd, m)
      | 5 => (s, if odd then .start n g true else .finish, m)
      | 4 => if left = 0 then (s, .halt 3 n, m) else (s, .host n g, m)
      | k =>
        if left = 0 then (s, .halt 3 n, m)
        else
          let m := { m with cells := m.cells ++ [(g.crank, g.ccell / 64)] }
          match condCell d g with
          | none => (s, .halt 4 n, m)
          | some b =>
            if k = 2 then reachFrom s d left (if b then g.next else g.alt) m
            else
              let c := m.passes.getD n 0
              if b && !(g.lap != 0 && decide (g.lap ≤ c)) then
                reachFrom s d left g.next { m with passes := m.passes.set n (c + 1) }
              else reachFrom s d left g.alt { m with passes := m.passes.erase n }

/-- What a fetch ahead has brought (R306): the nodes with their numbers, and the first node that met a page fault. -/
structure Ahead where
  nodes : List (Nat × GNode)
  fault : Option Nat
  deriving DecidableEq, Repr

/-- The nodes that the sequencer may reach at the next boundary fetched (R306): 16 nodes at most are held. A node that is
found broken is not held (log 49). -/
def prefetch (d : Domain) : Nat → List Nat → State × Ahead → State × Ahead
  | 0, _, r => r
  | _ + 1, [], r => r
  | left + 1, n :: todo, (s, a) =>
    if a.fault.isSome || decide (16 ≤ a.nodes.length) then (s, a)
    else if a.nodes.any fun p => p.1 == n then prefetch d left todo (s, a)
    else
      match s.fetchNode d n with
      | (s, .error r) => prefetch d left todo (s, if r = 5 then { a with fault := some n } else a)
      | (s, .ok g) =>
        prefetch d left (if g.kind = 2 ∨ g.kind = 3 then todo ++ [g.next, g.alt] else todo)
          (s, { a with nodes := a.nodes ++ [(n, g)] })

/-- The fetches when a phase starts (R306): after the node itself, NEXT and ALT of what may be reached at its boundary. -/
def fetchAhead (s : State) (d : Domain) (n : Nat) (g : GNode) (inserted : Bool) : State × Ahead :=
  let todo := if inserted then [] else match g.kind with
    | 0 | 1 => [g.next]
    | _ => [g.next, g.alt]
  prefetch d 64 todo (s, ⟨[(n, g)], none⟩)

/-- The node cache (R306). -/
def Ahead.cache (a : Ahead) : AMap GNode := a.nodes.foldl (fun (m : AMap GNode) p => m.set p.1 p.2) []

end graph

section starts

/-- The contexts that deterministic mode woke for this start (R67). -/
def Tile.releaseWoken (t : Tile) (from_ : Nat) : Tile :=
  ctxNums.foldl (fun t i =>
    if (t.ctx i).woken then
      let t := t.ready from_ i
      t.setCtx i { t.ctx i with notBefore := max (t.ctx i).notBefore from_ }
    else t) t

/-- A node's group started on a tile (R54): threads in the lowest free slots, the others pending starts. -/
def Tile.startGroup (t : Tile) (rank from_ node : Nat) (g : GNode) (phase : BitVec 48) : Tile :=
  (List.range g.nthreads).foldl (fun (t : Tile) i =>
    let args : List Word := [g.arg, w64 i, phase.setWidth 64, w64 g.nthreads]
    match t.freeSlot? with
    | some k => t.start rank k from_ from_ (BitVec.ofNat 20 g.entry) (args.map fun w => (w, false)) (BitVec.ofNat 16 node)
    | none =>
      { t with starts := t.starts ++ [{ entry := BitVec.ofNat 20 g.entry, args, group := BitVec.ofNat 16 node }] }) t

/-- Steps 1 and 2 of R53 on a tile; the threads that are started wait for the slot set-up (R310). -/
def Tile.startCompute (t : Tile) (rank from_ setUp node : Nat) (g : GNode) (phase : BitVec 48) : Tile :=
  let t := slotNums.foldl (fun (t : Tile) i =>
    let c := t.ctx i
    if c.run ≠ .sync then t
    else if g.mode = 0 then t.setCtx i { c with run := .free }
    else t.setCtx i { c with run := .ready, notBefore := max c.notBefore from_ }) t
  if g.mode = 1 then t else t.startGroup rank (from_ + setUp) node g phase

/-- XC starts afresh (R56). -/
def Tile.startXc (t : Tile) (rank from_ node : Nat) (g : GNode) (phase : BitVec 48) : Tile :=
  t.start rank 16 from_ from_ (BitVec.ofNat 20 g.entry)
    [(g.arg, false), (0, false), (phase.setWidth 64, false)] (BitVec.ofNat 16 node)

/-- What the end of an exchange superstep leaves of it on a tile (R56, R214 to R216, R219, R381). -/
def Tile.endExchange (t : Tile) : Tile :=
  { t.setCtx 16 Ctx.zero with
    xended := false, recvs := [], xrefused := 0, routes := [], closed := false, inbox := none, inboxUsed := false
    closes := [], units := 0, routedAt := none, routedDone := false }

/-- One invocation comes before another at a start (R68, R225): under deterministic mode the last key is the source's own
issue order, the number that its request took. -/
def Invoc.before (det : Bool) (a b : Invoc) : Bool :=
  if a.prio ≠ b.prio then decide (b.prio < a.prio)
  else
    let key (i : Invoc) : Nat := if det then (i.spkg * 64 + i.sdom) * 4096 + i.srank else 0
    if key a ≠ key b then decide (key a < key b)
    else if det ∧ a.issue ≠ b.issue then decide (a.issue < b.issue)
    else decide (a.order < b.order)

/-- An invocation in its place in launch order. -/
def insInvoc (det : Bool) (x : Invoc) : List Invoc → List Invoc
  | [] => [x]
  | y :: t => if x.before det y then x :: y :: t else y :: insInvoc det x t

/-- A launch of handlers under way: the domain, the tiles that are blocked, and the cycle in which the next start reaches its
tile, one a cycle (R308, R309; log 87). -/
structure Starting where
  dom : Domain
  blocked : List Nat
  next : Nat

/-- One copy of an invocation started on a tile that has a free slot and on which nothing before it waits (R225, R308,
R309); the result says whether it was. -/
def Starting.copy (a : Starting) (x : Invoc) (r : Nat) : Starting × Bool :=
  match a.dom.tiles.find r with
  | none => (a, false)
  | some t =>
    if a.blocked.contains r then (a, false)
    else
      match t.freeSlot? with
      | none => ({ a with blocked := r :: a.blocked }, false)
      | some k =>
        let t := t.start r k a.next a.next (BitVec.ofNat 20 x.entry) (x.args.map fun w => (w, false))
          (BitVec.ofNat 16 (0x1000 + x.hidx))
        ({ a with dom := a.dom.setTile r t, next := a.next + 1 }, true)

/-- One invocation's copies started, with the ranks that are left of it (R225, R309). -/
def Starting.invoc (a : Starting) (x : Invoc) : Starting × Invoc :=
  x.ranks.foldl (fun (acc : Starting × Invoc) r =>
    let (a, ok) := acc.1.copy x r
    (a, if ok then { acc.2 with ranks := acc.2.ranks.filter fun y => y != r } else acc.2)) (a, x)

/-- The queued invocations launched in order (R68, R225, R308, R309). -/
def Domain.launchQueue (d : Domain) (from_ : Nat) : Domain :=
  let order := d.queue.foldl (fun l x => insInvoc d.launch.det x l) []
  let (a, left) := order.foldl (fun (acc : Starting × List Invoc) x =>
    let (a, x) := acc.1.invoc x
    (a, if x.ranks.isEmpty then acc.2 else acc.2 ++ [x])) (⟨d, [], from_⟩, [])
  let d := a.dom
  let left := d.queue.filterMap fun x => left.find? fun y => y.order == x.order
  let room := 256 - (left.filter fun i => !i.inRing).length
  let moved := ((left.filter fun i => i.inRing).take room).map Invoc.order
  { d with queue := left.map fun i => if moved.contains i.order then { i with inRing := false } else i }

/-- The cycles of a boundary before its start broadcast (R305, R310; log 87): 64 at most for its steps 1 to 3, 64 at most
for each COND, WHILE or HOST node met, 150 for each node that the cache does not hold; a re-entry takes 75 for its decode
instead of the first. Under deterministic mode they depend on the phase (R69; log 75). -/
def State.lead (s : State) (d : Domain) (nodes : List Nat) (entry : Bool) : Nat :=
  let conds := ((List.range (nodes.length - 1)).map fun i => d.wait (s.free + 2 + i) (64 * d.phase.toNat + 2 + i) % 65).sum
  let misses := (nodes.eraseDups.filter fun n => (d.cache.find n).isNone).length
  (if entry then 75 else 1 + d.wait s.free (64 * d.phase.toNat) % 64) + conds + 150 * misses

/-- The cycles that the start broadcast takes to the last tile: 32 at most (R305), or 187 from Kiln at a re-entry (R310). -/
def State.spread (s : State) (d : Domain) (entry : Bool) : Nat :=
  d.wait (s.free + 1) (64 * d.phase.toNat + 1) % (if entry then 188 else 33)

/-- The cycles of a slot's set-up that a re-entry counts (R310; log 87). -/
def setUp (entry : Bool) : Nat := if entry then 62 else 0

/-- The start of a phase (R52 step 6, R53, R56, R303, R305 to R307, R310): the start broadcast goes out at bcastAt and
reaches the tiles at startAt; a fetch ahead that meets a page fault halts the domain (R306). nodes are those met on the way.
-/
def State.startPhase (s : State) (dom n : Nat) (g : GNode) (inserted : Bool) (nodes : List Nat) (entry : Bool) : State :=
  match s.doms.find dom with
  | none => s
  | some d =>
    let bcastAt := s.cycle + s.lead d nodes entry
    let from_ := bcastAt + s.spread d entry
    let odd := d.phase.getLsbD 0
    let (s, ahead) := fetchAhead { s with free := s.free + 2 + nodes.length } d n g inserted
    let budget := if g.lap ≠ 0 ∧ inserted = false then g.lap else if odd then d.launch.lapx else d.launch.lapc
    let d := d.mapTiles fun t => { t with voteUp := false, window := false, voteFly := [], voteSeen := false }
    let d := if odd then d else d.mapTiles fun t => t.releaseWoken from_
    let d :=
      if inserted then d
      else { d with tiles := d.tiles.map fun p =>
               (p.1, if odd then p.2.startXc p.1 from_ n g d.phase else p.2.startCompute p.1 from_ (setUp entry) n g d.phase) }
    let s := s.setDom dom { d with
      status := .running, node := n, inserted, routed := odd && !inserted && g.routed, cache := ahead.cache, lap := 0, budget
      atEnd := false, lapStopped := false, bcastAt, snapshot := !inserted && !odd, startAt := from_, phaseStart := s.cycle, overflowed := false }
    match ahead.fault with
    | some k => s.machineCheck dom 5 k []
    | none => s

/-- The snapshot in the cycle of the start broadcast (R308): what is queued then launches at this start, after the group
that the tiles start (R53). -/
def snapshotRow (dom : Nat) (s : State) : Host.Outcome State Fault Refusal :=
  match s.doms.find dom with
  | none => .fault .notEnabled
  | some d =>
    if d.snapshot && d.status == .running && decide (d.bcastAt ≤ s.cycle) then
      .next (s.setDom dom { d.launchQueue d.startAt with snapshot := false })
    else .fault .notEnabled

end starts

section boundary

/-- The rank-table entry of a rank (R43). -/
def State.writeRank (s : State) (d : Domain) (rank x y : Nat) (transit : Bool) : State :=
  s.vaWriteBytes (d.launch.ranktab + 4 * rank) (natBytes 4 (x + y * 2 ^ 8 + b2n transit * 2 ^ 16))

/-- The rank table of a domain written (R43). -/
def State.writeRanks (s : State) (d : Domain) (transit : Bool) : State :=
  d.tiles.foldl (fun s p => s.writeRank d p.1 p.2.x p.2.y transit) s

/-- The blocks of a domain that a reply or a put may still fill (R277). -/
def Domain.reservable (d : Domain) : List (Nat × Nat) :=
  d.tiles.flatMap fun p =>
    (p.2.blocks.filter fun b => b.2.armed && (b.2.owner == 24 || b.2.owner == 27) && b.2.state != .full).map fun b =>
      (p.1, b.1)

/-- A time of so many ns in units of the time base, which throttling does not change (R372, R375). -/
def nsUnits (ns : Nat) : Nat := ns * usUnits / 1000

/-- A free time within a bound in ns, from now on (R276, R280, R281, R351). -/
def State.within (s : State) (ns : Nat) : Nat := s.time + 1 + Config.freeDelay s.free % max 1 (nsUnits ns)

/-- A pre-emption begins, or is declined for want of log space (R274, R277); node and inserted are what a restore goes on with,
and a decline goes on as it would have without the pre-emption. -/
def State.beginSave (s : State) (dom node : Nat) (inserted : Bool) (goOn : State → State) : State :=
  match s.doms.find dom with
  | none => s
  | some d =>
    let resv := d.reservable
    if d.arrCap < 2112 * resv.length then
      goOn ((s.setDom dom { d with plan := 3, sliceDue := false }).post evPreempt dom 0 2 0 [])
    else
      let s := s.headerCount (d.launch.arrlog + 16) 40 (2112 * resv.length)
      let doneAt := s.within (2000 + 69 * d.tiles.length)
      s.tick1.setDom dom { d with status := .saving doneAt, plan := 0, sliceAt := none, sliceDue := false, resv, node, inserted }

/-- A migration begins (R280, R281): TRANSIT is set, the tiles stream, the vacated ones keep forwarding entries. -/
def State.beginMove (s : State) (dom n : Nat) (inserted : Bool) : State :=
  match s.doms.find dom with
  | none => s
  | some d =>
    let doneAt := s.within 8000
    let fw : List Forward := d.tiles.map fun (p : Nat × Tile) => { dom, rank := p.1, x := p.2.x, y := p.2.y, since := s.cycle, retireAt := 0 }
    let s := (s.writeRanks d true).tick1
    { s with vacating := s.vacating ++ fw }.setDom dom
      { d with status := .migrating doneAt, plan := 0, node := n, inserted }

/-- END (R49): slots freed, parked contexts and pending starts discarded, COMPLETE for the launch. -/
def State.endGraph (s : State) (dom : Nat) : State :=
  match s.doms.find dom with
  | none => s
  | some d =>
    let d := d.mapTiles fun t =>
      { slotNums.foldl (fun (t : Tile) i => t.setCtx i Ctx.zero) t with
        starts := [], voteUp := false, window := false, voteFly := [], voteSeen := false }
    let s := s.setDom dom { d with status := .ended, atEnd := true, launchPending := false, node := 0, inserted := false }
    if d.launchPending then s.complete dom d.launchSeq 0 0 else s

/-- Step 5 of R52 at a boundary that ends an odd phase: a pre-emption, a migration, or neither (R274, R280, R313, R314). -/
def State.stepFive (s : State) (dom node : Nat) (inserted : Bool) (goOn : State → State) : State :=
  match s.doms.find dom with
  | none => s
  | some d =>
    if d.plan = 1 || d.sliceDue then s.beginSave dom node inserted goOn
    else if d.plan = 2 then s.beginMove dom node inserted
    else goOn s

/-- Steps 4 to 6 of R52 from a node on: HOST holds the domain, and after an odd phase a pre-emption or a migration may come
before the start, or after END, at which every boundary ends an odd phase. A launch and a re-entry are no boundaries: what is
planned waits for the first that follows (R313, R314). -/
def State.proceed (s : State) (dom target : Nat) (entry : Bool) : State :=
  match s.doms.find dom with
  | none => s
  | some d =>
    let (s, r, m) := reachFrom s d 17 target ⟨[], d.passes, []⟩
    let s := s.updDom dom fun d => { d with passes := m.passes }
    let s := m.cells.foldl (fun s c => s.updTile dom c.1 fun t => t.readFail [c.2]) s
    match r with
    | .halt reason n => s.machineCheck dom reason n []
    | .host n g => (s.updDom dom fun d => { d with status := .atHost n }).post evHost dom 0 0 0 [w64 n, g.arg]
    | .finish => if d.atEnd then s.endGraph dom else (s.endGraph dom).stepFive dom 0 false id
    | .start n g inserted =>
      let go (s : State) : State := s.startPhase dom n g inserted m.nodes entry
      if d.atEnd || d.phase.getLsbD 0 then go s else s.stepFive dom n inserted go

/-- The sequencer samples every vote or completion level of the domain asserted (R52, R59), after the start of the phase and
the snapshot that belongs to it (R308). -/
def Domain.sampled (d : Domain) (now : Nat) : Bool :=
  d.status == .running && !d.snapshot && decide (d.startAt ≤ now) && d.tiles.all fun p => p.2.voteSeen

/-- BOUNDARY (R52): the end of the phase, the counter, and the walk to the next phase. -/
def execBoundary (dom : Nat) (s : State) : Host.Outcome State Fault Refusal :=
  match s.doms.find dom with
  | none => .fault .notEnabled
  | some d =>
    if d.sampled s.cycle then
      let odd := d.phase.getLsbD 0
      let d1 := if odd then d.mapTiles Tile.endExchange else d
      let d1 := { d1 with phase := d.phase + 1, longest := max d.longest (s.cycle - d.phaseStart) }
      let target := if d.inserted then d.node else match d.cache.find d.node with
        | some g => g.next
        | none => 0
      .next ((s.setDom dom d1).proceed dom target false)
    else .fault .notEnabled

/-- The bitmap of a STRAGGLER (R60, R349): two bits per rank. -/
def Domain.bitmap (d : Domain) : Nat :=
  (d.tiles.map fun (p : Nat × Tile) =>
    p.2.straggler (d.phase.getLsbD 0) d.inserted d.routed d.launch.det * 4 ^ p.1).sum

/-- STRAGGLER (R60, R307, R313, R349): once per expiry; a domain in a placement plan leaves it. -/
def execStraggler (dom : Nat) (s : State) : Host.Outcome State Fault Refusal :=
  match s.doms.find dom with
  | none => .fault .notEnabled
  | some d =>
    if d.status = .running ∧ d.lapStopped = false ∧ d.budget ≤ d.lap then
      let s := { s with hostMem := s.hostMem.writeBytes (s.kiln.report.toNat + 512 * dom) (natBytes 320 d.bitmap) }
      let s := s.post evStraggler dom 0 0 0 [w64 (b2n (d.phase.getLsbD 0))]
      .next (s.setDom dom { d with lapStopped := true, plan := if d.plan = 0 then 0 else 3 })
    else .fault .notEnabled

end boundary

end Sys2Proof.Machine
end

