-- ==== Sys2Proof/Machine/Sha3.lean ====
section
/-! DEFINITION. SHA3-512, the digest that R352 and R369 name, as its standard (FIPS 202) defines it; the manual does not restate
the function (log 9). The round constants and the offsets are computed as the standard computes them, not listed. -/

namespace Sys2Proof.Machine

section parameters

/-- The register that the round constants come from, n steps after it held 1: it shifts left, and what leaves it at the top comes
back at bits 0, 4, 5 and 6. -/
def rcRegister : Nat → BitVec 8
  | 0 => 1
  | n + 1 => (rcRegister n <<< 1) ^^^ (if (rcRegister n).msb then 0x71 else 0)

/-- The constant of a round: seven bits of the register, at the places one below the powers of two. -/
def roundConstant (round : Nat) : Word :=
  (List.range 7).foldl (fun w j => setBit w (2 ^ j - 1) ((rcRegister (7 * round + j)).getLsbD 0)) 0

/-- The offset of lane (x, y): that of the place t of the walk from (1, 0) by (x, y) to (y, 2x + 3y) at which it stands; the lane
(0, 0), on which the walk never comes, has 0. -/
def laneOffset (x y : Nat) : Nat :=
  let walk := (List.range 24).foldl (fun (l : List (Nat × Nat)) _ =>
    match l with
    | p :: t => (p.2, (2 * p.1 + 3 * p.2) % 5) :: p :: t
    | [] => [(1, 0)]) []
  match walk.reverse.findIdx? fun p => p == (x, y) with
  | some t => (t + 1) * (t + 2) / 2 % 64
  | none => 0

end parameters

section permutation

/-- A state of 25 lanes, lane (x, y) at x + 5y. -/
abbrev Lanes := Vector Word 25

/-- Lane (x, y), both coordinates on rings of five. -/
def Lanes.at (a : Lanes) (x y : Nat) : Word := a.getD (x % 5 + 5 * (y % 5)) 0

/-- The state whose lanes a function of their coordinates gives. -/
def Lanes.make (f : Nat → Nat → Word) : Lanes := Vector.ofFn fun i : Fin 25 => f (i.val % 5) (i.val / 5)

/-- The parity of a column. -/
def Lanes.column (a : Lanes) (x : Nat) : Word := (List.range 5).foldl (fun w y => w ^^^ a.at x y) 0

/-- One round: θ, then ρ and π, then χ, and ι at lane (0, 0). -/
def Lanes.round (a : Lanes) (n : Nat) : Lanes :=
  let mixed := Lanes.make fun x y => a.at x y ^^^ a.column (x + 4) ^^^ (a.column (x + 1)).rotateLeft 1
  let moved := Lanes.make fun x y =>
    let from_ := (x + 3 * y) % 5
    (mixed.at from_ x).rotateLeft (laneOffset from_ x)
  Lanes.make fun x y =>
    let w := moved.at x y ^^^ (moved.at (x + 2) y &&& ~~~ moved.at (x + 1) y)
    if x + y = 0 then w ^^^ roundConstant n else w

/-- The permutation: 24 rounds. -/
def Lanes.permute (a : Lanes) : Lanes := (List.range 24).foldl Lanes.round a

end permutation

section sponge

/-- The doublewords of a list of bytes. -/
def wordsOf : Nat → List Byte → List Word
  | 0, _ => []
  | n + 1, l => BitVec.ofNat 64 (natOfBytes (l.take 8)) :: wordsOf n (l.drop 8)

/-- A message padded to whole blocks of 72 bytes: the two bits of SHA3 and the first of the padding in one byte, zeros, and the last
bit of the padding. -/
def padded (m : List Byte) : List Byte :=
  let zeros := 71 - m.length % 72
  if zeros = 0 then m ++ [0x86] else m ++ 0x06 :: (List.replicate (zeros - 1) 0 ++ [0x80])

/-- Blocks of nine doublewords taken in, one after another. -/
def Lanes.absorb : Nat → Lanes → List Word → Lanes
  | 0, a, _ => a
  | n + 1, a, l =>
    Lanes.absorb n (Lanes.make fun x y => a.at x y ^^^ (l.take 9).getD (x + 5 * y) 0).permute (l.drop 9)

/-- SHA3-512 of a message (R352): the digest's byte 0 in bits 7:0. -/
def sha3_512 (m : List Byte) : BitVec 512 :=
  let l := padded m
  let a := Lanes.absorb (l.length / 72) (Vector.replicate 25 0) (wordsOf (l.length / 8) l)
  BitVec.ofNat 512 (natOfBytes ((a.toList.take 8).flatMap fun w => natBytes 8 w.toNat))

end sponge

end Sys2Proof.Machine
end

