-- ==== Sys2Proof/Machine/Place.lean ====
section
/-! DEFINITION. Placement (R273, R311 to R314), the saving, restoring and moving of a domain (R274 to R282), its launch on
the tiles (R46), and its release (R272). -/

namespace Sys2Proof.Machine

section rectangles

/-- A rectangle of tiles: its origin, width and height. -/
structure Rect where
  x : Nat
  y : Nat
  w : Nat
  h : Nat
  deriving DecidableEq, Repr

/-- Two rectangles share a tile. -/
def Rect.meets (a b : Rect) : Bool :=
  decide (a.x < b.x + b.w) && decide (b.x < a.x + a.w) && decide (a.y < b.y + b.h) && decide (b.y < a.y + a.h)

/-- A rectangle lies on the array (R41, R45). -/
def Rect.onArray (a : Rect) : Bool := decide (a.x + a.w ≤ 40) && decide (a.y + a.h ≤ 32)

/-- The rectangle of a domain. -/
def Domain.rect (d : Domain) : Rect := ⟨d.x0, d.y0, d.launch.width, d.launch.height⟩

/-- The rectangle to which a domain moves. -/
def Domain.target (d : Domain) : Rect := ⟨d.moveX, d.moveY, d.launch.width, d.launch.height⟩

/-- A domain that holds tiles: those on the array, and one that is being saved or restored. -/
def DomStatus.holds : DomStatus → Bool
  | .saving _ | .restoring _ => true
  | st => st.placed

/-- A domain that is being moved. -/
def DomStatus.isMove : DomStatus → Bool
  | .migrating _ => true
  | _ => false

/-- The rectangles that a domain holds, or has a plan to hold. -/
def Domain.rects (d : Domain) : List Rect :=
  (if d.status.holds then [d.rect] else []) ++ (if d.plan = 2 || d.status.isMove then [d.target] else [])

/-- The rectangle of a request. -/
def Place.rect (p : Place) : Rect := ⟨p.x0, p.y0, p.w, p.h⟩

/-- The tiles that no request may take: those of domains, of their moves, and of vacated tiles (R281), but for the
domains of a list. -/
def State.taken (s : State) (but : List Nat) : List Rect :=
  (s.doms.flatMap fun (p : Nat × Domain) => if but.contains p.1 then [] else p.2.rects)
    ++ s.vacating.map fun v => ⟨v.x, v.y, 1, 1⟩

/-- A rectangle free of a list of others. -/
def Rect.free (a : Rect) (taken : List Rect) : Bool := a.onArray && !(taken.any fun b => a.meets b)

/-- The origins in the order of R312: the lowest Y0, then the lowest X0. -/
def origins (w h : Nat) : List (Nat × Nat) :=
  (List.range (33 - h)).flatMap fun y => (List.range (41 - w)).map fun x => (x, y)

/-- The rectangles that would do for a request (R312). -/
def Place.wanted (p : Place) : List Rect :=
  if p.exact then [p.rect] else (origins p.w p.h).map fun o => ⟨o.1, o.2, p.w, p.h⟩

end rectangles

section planning

/-- A domain that a plan may act on: it has boundaries to come, is in no plan, and has not left one (R264, R313). -/
def Domain.plannable (d : Domain) : Bool :=
  d.plan == 0 && (match d.status with | .running | .atHost _ | .ended => true | _ => false)

/-- The domains that a request of a class may have moved (R273). -/
def State.movable (s : State) (pclass : Nat) : List (Nat × Domain) :=
  s.doms.filter fun p => p.2.plannable && decide (pclass ≤ p.2.launch.pclass)

/-- One domain before another in the order of pre-emption (R312): class 2 before class 1, the most recently placed
first. -/
def Domain.sooner (a b : Domain) : Bool :=
  decide (b.launch.pclass < a.launch.pclass)
    || (a.launch.pclass == b.launch.pclass && decide (b.placedAt < a.placedAt))

/-- A domain in its place in the order of pre-emption. -/
def insVictim (x : Nat × Domain) : List (Nat × Domain) → List (Nat × Domain)
  | [] => [x]
  | y :: t => if x.2.sooner y.2 then x :: y :: t else y :: insVictim x t

/-- The domains that a request of a class may have pre-empted, in order (R273, R312). -/
def State.victims (s : State) (pclass : Nat) : List (Nat × Domain) :=
  (s.doms.filter fun p => p.2.plannable && decide (pclass < p.2.launch.pclass)).foldl (fun l x => insVictim x l) []

/-- A new place for each domain of a list, on free tiles only (R312): the first in the order of origins that leaves a
place for the others. -/
def placeAll (taken : List Rect) : List (Nat × Domain) → Option (List (Nat × Rect))
  | [] => some []
  | (n, d) :: t =>
    (origins d.launch.width d.launch.height).findSome? fun o =>
      let r : Rect := ⟨o.1, o.2, d.launch.width, d.launch.height⟩
      if r.free taken then (placeAll (r :: taken) t).map fun l => (n, r) :: l else none

/-- A plan (R312): the rectangle, the moves and the domains to pre-empt. -/
structure Plan where
  rect : Rect
  moves : List (Nat × Rect)
  saves : List Nat
  deriving DecidableEq, Repr

/-- The tiles that a plan moves. -/
def Plan.moved (p : Plan) : Nat := (p.moves.map fun m => m.2.w * m.2.h).sum

/-- A plan for one rectangle, with some domains out of the way. -/
def State.planAt (s : State) (pclass : Nat) (gone : List Nat) (r : Rect) : Option Plan :=
  let hit := (s.movable pclass).filter fun p => !gone.contains p.1 && p.2.rect.meets r
  if r.free (s.taken (gone ++ hit.map Prod.fst)) then
    (placeAll (r :: s.taken []) hit).map fun l =>
      { rect := r, moves := l, saves := gone.filter fun n => (s.doms.find n).any fun d => d.rect.meets r }
  else none

/-- The plan that moves the fewest tiles, the first among equals (R312). -/
def fewest : List Plan → Option Plan
  | [] => none
  | p :: t =>
    match fewest t with
    | some q => if q.moved < p.moved then some q else some p
    | none => some p

/-- The plan that moves the fewest tiles with some domains out of the way. -/
def State.bestPlan (s : State) (p : Place) (gone : List Nat) : Option Plan :=
  fewest (p.wanted.filterMap (s.planAt p.pclass gone))

/-- The plan for a request (R312): a free rectangle, or moves, or pre-emptions in order with moves added. -/
def State.planFor (s : State) (p : Place) : Option Plan :=
  match p.wanted.find? fun r => r.free (s.taken []) with
  | some r => some { rect := r, moves := [], saves := [] }
  | none =>
    match s.bestPlan p [] with
    | some q => some q
    | none =>
      let v := (s.victims p.pclass).map Prod.fst
      (List.range v.length).findSome? fun k => s.bestPlan p (v.take (k + 1))

/-- The request at the head of the queue (R311): by class, then by arrival. -/
def headPlace : List Place → Option Place
  | [] => none
  | p :: t =>
    match headPlace t with
    | some q => if q.pclass < p.pclass then some q else some p
    | none => some p

/-- A plan still stands: every domain in the way is to be moved or pre-empted, or is on its way out. -/
def State.planStands (s : State) (p : Place) : Bool :=
  s.doms.all fun (x : Nat × Domain) =>
    if x.2.status.holds && x.2.rect.meets p.rect then
      match x.2.status with
      | .saving _ | .migrating _ | .releasing _ _ => true
      | .running | .atHost _ | .ended => x.2.plan == 1 || x.2.plan == 2
      | _ => false
    else true

/-- A request changed in the queue. -/
def State.setPlace (s : State) (p q : Place) : State :=
  { s with kiln := { s.kiln with places := s.kiln.places.map fun x => if x = p then q else x } }

/-- A plan taken up: the request has its rectangle, the domains their orders (R313). -/
def State.takePlan (s : State) (p : Place) (q : Plan) : State :=
  let s := q.moves.foldl (fun s m =>
    s.updDom m.1 fun d => { d with plan := 2, moveX := m.2.x, moveY := m.2.y }) s
  let s := q.saves.foldl (fun s n => s.updDom n fun d => { d with plan := 1 }) s
  s.setPlace p { p with x0 := q.rect.x, y0 := q.rect.y, planned := true }

/-- The plans of a request that no longer stands are given up. -/
def State.dropPlans (s : State) : State :=
  { s with doms := s.doms.map fun (p : Nat × Domain) =>
      (p.1, if p.2.plan = 1 ∨ p.2.plan = 2 then { p.2 with plan := 0 } else p.2) }

/-- PLACEMENT_PLAN (R311 to R313): a plan for the request at the head; with none, the request waits. -/
def execPlacementPlan (s : State) : Host.Outcome State Fault Refusal :=
  match headPlace s.kiln.places with
  | none => .fault .notEnabled
  | some p =>
    if p.planned = true ∧ s.planStands p = true then .fault .notEnabled
    else
      let t := if p.planned then s.dropPlans else s
      match t.planFor p with
      | some q => .next (t.takePlan p q)
      | none => if p.planned then .next (t.setPlace p { p with planned := false }) else .fault .notEnabled

end planning

section launching

/-- The 64 bytes of job memory at an address, as Kiln copies them. -/
def State.vaBytes64 (s : State) (va : Nat) : List Byte :=
  match s.walk va false with
  | .ok x => s.homeRead (x.home? s va) 64
  | .error _ => List.replicate 64 0

/-- n units of 64 bytes of job memory from an aligned address. -/
def State.vaBlocks (s : State) (va : Nat) : Nat → List Byte
  | 0 => []
  | n + 1 => s.vaBytes64 va ++ State.vaBlocks s (va + 64) n

/-- The image of a launch (R46): CODE, CELL and the tag bytes. -/
def Launch.imageBytes (l : Launch) (s : State) : List Byte :=
  s.vaBlocks l.image ((l.codeSize + l.cellSize + l.cellSize / 64 + 63) / 64)

/-- The nonzero bytes of an image with their offsets. -/
def imageCells (at_ : Nat) (l : List Byte) : List (Nat × Byte) :=
  (l.zipIdx at_).filterMap fun p => if p.1 = 0 then none else some (p.2, p.1)

/-- A tile as a launch leaves it (R29, R46): CODE, CELL and the granule tags from the image, everything else zero. -/
def Launch.tile (l : Launch) (img : List Byte) (x y rank : Nat) : Tile :=
  let c := l.carve
  let code := imageCells 0 (img.take l.codeSize)
  let cells := imageCells c.cellBase ((img.drop l.codeSize).take l.cellSize)
  let tags := (imageCells (c.cellBase / 64) ((img.drop (l.codeSize + l.cellSize)).take (l.cellSize / 64))).map
    fun p => (p.1, p.2.setWidth 6)
  let sv := { Ctx.zero with th := c.startThread rank 17 0 [], group := 0xFFFF }
  { Tile.zero with
    x, y, carve := c, ctxs := Tile.zero.ctxs.setIfInBounds 17 sv, sram := code ++ cells, tags
    tbase := w64 l.tbase, stallchk := l.det }

/-- The tiles of a domain, by rank (R43). -/
def Launch.tiles (l : Launch) (img : List Byte) (x0 y0 : Nat) : AMap Tile :=
  (List.range (l.width * l.height)).map fun r => (r, l.tile img (x0 + r % l.width) (y0 + r / l.width) r)

/-- A launch granted (R46): the rank table, then the tiles from the image, the control words, the phase counter; then ROOT
(R50). -/
def State.grantLaunch (s : State) (dom : Nat) (d : Domain) (x0 y0 : Nat) : State :=
  let l := d.launch
  let s := (s.setDom dom d).writeRanks { d with tiles := l.tiles [] x0 y0 } false
  let img := l.imageBytes s
  let hand : AMap Word := (List.range l.nhand).map fun i => (i, s.vaRead64 (l.handtab + 8 * i))
  let d := { d with
    status := .running, x0, y0, tiles := l.tiles img x0 y0, phase := 0, cycles := 0, handlers := hand
    placedAt := s.cycle, atEnd := true, digest := sha3_512 (img.take (l.codeSize + l.cellSize + l.cellSize / 64)) }
  let s := ((s.setDom dom d).kilnRead l.image (l.codeSize + l.cellSize + l.cellSize / 64)).kilnRead l.handtab (8 * l.nhand)
  (s.post evStarted dom d.launchSeq 0 0 []).proceed dom l.root false

/-- Another class 2 request waits (R273, R314). -/
def State.class2Waits (s : State) : Bool := s.kiln.places.any fun p => p.pclass == 2

/-- The time slice of a domain that is placed (R276, R314). -/
def Domain.withSlice (d : Domain) (s : State) : Domain :=
  { d with
    prevLongest := if d.longest = 0 then max d.launch.lapc d.launch.lapx else d.longest
    longest := 0, sliceDue := false, sliceAt := if d.launch.pclass = 2 && s.class2Waits then some s.us else none }

/-- PLACEMENT_GRANT (R43, R46, R279, R313): the request at the head has its rectangle free. -/
def execPlacementGrant (s : State) : Host.Outcome State Fault Refusal :=
  match headPlace s.kiln.places with
  | none => .fault .notEnabled
  | some p =>
    match s.doms.find p.dom with
    | none => .fault .notEnabled
    | some d =>
      if p.planned = true ∧ p.rect.free (s.taken []) = true then
        let s := { s with
          kiln := { s.kiln with places := s.kiln.places.erase p }
          doms := s.doms.map fun (x : Nat × Domain) => (x.1, if x.2.plan = 3 then { x.2 with plan := 0 } else x.2) }
        let d := d.withSlice s
        if p.restore then
          let w := d.launch.width
          let d := { d with
            x0 := p.x0, y0 := p.y0, placedAt := s.cycle
            tiles := d.tiles.map fun (q : Nat × Tile) => (q.1, { q.2 with x := p.x0 + q.1 % w, y := p.y0 + q.1 / w })
            status := .restoring (s.within (2000 + 69 * d.tiles.length)) }
          .next (({ s.tick1 with doms := s.doms.set p.dom d }).writeRanks d false)
        else .next (s.grantLaunch p.dom d p.x0 p.y0)
      else .fault .notEnabled

end launching

section saving

/-- A fetch of a domain's feeds is in flight (R274): it has left its tile, waits at a controller or in another package, or
comes back. One that has not left is held there (State.offered). -/
def State.feedsMoving (s : State) (dom : Nat) : Bool :=
  let mine (m : Msg) : Bool := m.attr.f6 == 4 && m.attr.major == 21 && m.attr.dom == dom && m.attr.pkg == s.pkgid.toNat
  (s.msgs.any fun p => mine p.2 && p.2.waitUntil.isNone && !(p.2.kind == .get && p.2.injected == 0))
    || (s.ctls.any fun p => p.2.waits.any fun w => mine w.msg) || s.awaiting.any fun a => mine a.msg

/-- A feed of a domain has a commit or a count due (R211, R274). -/
def Domain.commitsDue (d : Domain) : Bool :=
  d.tiles.any fun t => t.2.cmds.any fun c =>
    c.2.f6 == 4 && c.2.major == 21 && (c.2.prog.getD c.2.nextCommit .todo == .landed || decide (0 < c.2.uncounted))

/-- The register image of a context, in little-endian order (R3, R275): 16 g, 8 e, 4 k and 8 v registers. -/
def Thread.image (th : Thread) : List Byte :=
  (th.g.toList.flatMap fun w => natBytes 8 w.toNat) ++ (th.e.toList.flatMap fun w => natBytes 8 w.toNat)
    ++ (th.k.toList.flatMap fun w => natBytes 4 w.toNat) ++ th.v.toList.flatMap fun w => natBytes 128 w.toNat

/-- The registers read back from a save area (R3, R279). -/
def Thread.ofImage (th : Thread) (m : Mem) (at_ : Nat) : Thread :=
  let reg (w off n : Nat) : BitVec w := BitVec.ofNat w (natOfBytes (m.readBytes (at_ + off + w / 8 * n) (w / 8)))
  { th with
    g := Vector.ofFn fun i : Fin 16 => reg 64 0 i.val
    e := Vector.ofFn fun i : Fin 8 => reg 64 128 i.val
    k := Vector.ofFn fun i : Fin 4 => reg 32 192 i.val
    v := Vector.ofFn fun i : Fin 8 => reg 1024 208 i.val }

/-- Where the save area holds the 1,232 bytes of a context of the k-th tile: the layout is Kiln's own (R274; log 32). -/
def imageAt (k ctx : Nat) : Nat := 1232 * (18 * k + ctx)

/-- The save area of a domain (R274, R275): the register images of its contexts; the rest of its saved state stays in its record
(log 32). -/
def Domain.saveImage (d : Domain) : Mem :=
  d.tiles.zipIdx.foldl (fun m p => ctxNums.foldl (fun m i => m.writeBytes (imageAt p.2 i) (p.1.2.ctx i).th.image) m) []

/-- The registers of a domain's contexts copied back from its save area (R279). -/
def Domain.loadImage (d : Domain) : Domain :=
  { d with
    saveArea := []
    tiles := d.tiles.zipIdx.map fun p =>
      (p.1.1, p.1.2.mapCtxs fun i c => { c with th := c.th.ofImage d.saveArea (imageAt p.2 i) }) }

/-- PREEMPT_DONE (R274): the state is in the save area, the rectangle is free, PREEMPT-DONE reports SAVED, and the restore joins
the queue (R311). -/
def execPreemptDone (dom : Nat) (s : State) : Host.Outcome State Fault Refusal :=
  match s.doms.find dom with
  | none => .fault .notEnabled
  | some d =>
    match d.status with
    | .saving x =>
      if x ≤ s.time ∧ s.feedsMoving dom = false ∧ d.commitsDue = false then
        let p : Place :=
          { dom, restore := true, pclass := d.launch.pclass, exact := false, x0 := 0, y0 := 0, w := d.launch.width
            h := d.launch.height, arrival := s.cycle, planned := false }
        let s := s.setDom dom { d with status := .saved, saveArea := d.saveImage }
        .next ({ s with kiln := { s.kiln with places := s.kiln.places ++ [p] } }.post evPreempt dom 0 0 0 [])
      else .fault .notEnabled
    | _ => .fault .notEnabled

/-- The record of a block refused at replay (R279, R290). -/
def State.replayRefused (s : State) (dom : Nat) (m : Msg) (cause : Nat) : State :=
  s.fault dom (faultRecord 5 cause false m.attr m.attr.agent 0)

/-- One record of the arrival log replayed (R279). -/
def State.replay (dom : Nat) (s : State) (m : Msg) : State :=
  match s.doms.find dom with
  | none => s
  | some d =>
    let rank := match m.dst with | .tile _ r => r | _ => 0
    match m.kind, d.tiles.find rank with
    | .put, some t =>
      match t.putTo false m with
      | .land => s.updTile dom rank fun t => t.landPut s.cycle d.launch.det m
      | .wait => s
      | .refuse cause => s.replayRefused dom m cause
    | .put, none => s.replayRefused dom m 0x05
    | .reply, _ =>
      if m.orig = .answer then s.sourceFail m m.status
      else s.deliver m.attr.dom m.attr.rank m.req m.slot m.data m.pois
    | .combine, none => s.recordRefusal m 0x05
    | .combine, some t =>
      match t.combineCause m with
      | some cause => (s.combineMark dom rank m cause).recordRefusal m cause
      | none => s.updTile dom rank fun t => t.combineDo s.cycle d.launch.det m
    | .invoke, _ =>
      let hidx := fld (wordAt m.args 0) 9 0
      if d.entryEmpty (d.handler hidx) then s
      else
        let (d', status) := d.enqueue m
        let s := s.setDom dom d'
        if status = 8 then s.pitchOverflow dom else s
    | .get, some t => s.getTile dom rank t m
    | .get, none => s.refuse m 0x05
    | _, _ => s

/-- The fetch of block k of a read, sent afresh (R279, R291). -/
def State.reget (s : State) (dom rank req : Nat) (c : Cmd) (k : Nat) : Msg :=
  let a : Attr :=
    { pkg := s.pkgid.toNat, dom, rank, ctx := c.ctx, pcoff := c.pcoff, major := 21, f6 := c.f6, blk := k
      inc := s.incarn.toNat, res := s.residency.getD dom 0, target := c.b }
  let m : Msg :=
    { Msg.blank .get a (.tile dom rank) (.tile 0 0) s.pkgid.toNat with
      req, slot := k, tag := ptrTag c.b, ord := c.ord, args := [withOff c.a (ptrOff c.a + 2048 * k)]
      counted := c.counted.contains k }
  { m with va := some ((fld c.b 51 0 + 2048 * k) % 2 ^ 52) }

/-- A command of a tile whose stalled record has a SEQ (R288, R291). -/
def Domain.stalledAt (d : Domain) (seq : Nat) : Option (Nat × Nat × Cmd) :=
  d.tiles.findSome? fun (t : Nat × Tile) =>
    (t.2.cmds.find? fun c => c.2.paging == [seq]).map fun c => (t.1, c.1, c.2)

/-- The blocks of a command that have stalled. -/
def Cmd.stalledSlots (c : Cmd) : List Nat := (List.range c.prog.length).filter fun k => c.prog.getD k .done == .stalled

/-- A domain that MACHINE-CHECK has halted. -/
def DomStatus.isHalted : DomStatus → Bool
  | .halted _ => true
  | _ => false

/-- A completion notice (R291): RETRY translates the stalled blocks afresh, but for a halted domain, of which nothing is
fetched (R264); ABORT commits every block that is not committed as poisoned, a feed's in ascending order. -/
def State.notice (s : State) (dom seq : Nat) (abort : Bool) : State :=
  match (s.doms.find dom).bind fun d => (d.stalledAt seq).map fun x => (d.status, x) with
  | none => s
  | some (status, rank, req, c) =>
    if abort then
      let bad (m : Msg) : Bool := m.attr.pkg == s.pkgid.toNat && m.attr.dom == dom && m.attr.rank == rank && m.req == req
      let s := { s with
        msgs := s.msgs.filter fun p => !bad p.2
        walks := s.walks.map fun (p : Nat × Walk) => (p.1, { p.2 with msgs := p.2.msgs.filter fun m => !bad m })
        ctls := s.ctls.map fun (p : Nat × Hctl) => (p.1, { p.2 with waits := p.2.waits.filter fun w => !bad w.msg })
        awaiting := s.awaiting.filter fun a => !bad a.msg }
      (List.range c.prog.length).foldl (fun s k =>
        if (c.prog.getD k .done).final then s
        else if c.prog.getD k .done = .landed then
          s.updTile dom rank fun t =>
            t.setPoisAll ((List.range 32).map fun g => t.blockAt (t.destBlock c k) / 64 + g)
        else s.deliver dom rank req k [] 0xFFFFFFFF) (s.updCmd dom rank req fun c => { c with paging := [] })
    else if status.isHalted then s
    else
      let s := s.updCmd dom rank req fun c =>
        { c with paging := [], prog := c.prog.map fun p => if p = .stalled then .todo else p }
      c.stalledSlots.foldl (fun s k => s.dispatch (s.reget dom rank req c k) s.cycle) s

/-- Step 6 of R52 for a domain that was held at a boundary; one whose graph had reached END at it stays there (R49). -/
def State.resumePhase (s : State) (dom : Nat) : State :=
  match s.doms.find dom with
  | none => s
  | some d =>
    if d.atEnd then s.setDom dom { d with status := .ended }
    else
      match s.fetchNode d d.node with
      | (s, .error r) => s.machineCheck dom r d.node []
      | (s, .ok g) => s.startPhase dom d.node g d.inserted [d.node] false

/-- RESTORE (R279): the state copied back, the held notices, the log in order, WPTR and RESV 0, PREEMPT-DONE RESTORED, and the
next phase. -/
def execRestore (dom : Nat) (s : State) : Host.Outcome State Fault Refusal :=
  match s.doms.find dom with
  | none => .fault .notEnabled
  | some d =>
    match d.status with
    | .restoring x =>
      if x ≤ s.time then
        let s := s.setDom dom { d.loadImage with status := .running, logged := [], resv := [], arrWptr := 0, heldNotices := [] }
        let s := d.heldNotices.foldl (fun s n => s.notice dom n.1 n.2) s
        let s := d.logged.foldl (State.replay dom) s
        let s := (s.headerCount (d.launch.arrlog + 8) 40 0).headerCount (d.launch.arrlog + 16) 40 0
        .next ((s.post evPreempt dom 0 1 0 []).resumePhase dom)
      else .fault .notEnabled
    | _ => .fault .notEnabled

/-- The length of a time slice in µs, never shorter than the minimum residency (R276, R314). -/
def Domain.sliceLen (d : Domain) (level : Nat) : Nat :=
  let ns := 2 * (2000 + 69 * d.tiles.length) + (d.prevLongest * 64 + 5 * level - 1) / (5 * level)
  max d.slice ((ns + 999) / 1000)

/-- TIME_SLICE_EXPIRY (R273, R314): the domain is pre-empted at its next boundary that ends an odd phase, where a class 2
request or restore waits. -/
def execTimeSliceExpiry (dom : Nat) (s : State) : Host.Outcome State Fault Refusal :=
  match s.doms.find dom with
  | none => .fault .notEnabled
  | some d =>
    match d.sliceAt with
    | some x =>
      if x + d.sliceLen s.level ≤ s.us ∧ d.status.placed = true then
        .next (s.setDom dom { d with sliceAt := none, sliceDue := s.class2Waits })
      else .fault .notEnabled
    | none => .fault .notEnabled

end saving

section moving

/-- MIGRATION_STREAM_DONE (R280, R281): the feeds have paused, every tile is at its new place, the rank table names it, and
the next phase starts; the forwarding entries are retired within 16 µs. -/
def execMigrationStreamDone (dom : Nat) (s : State) : Host.Outcome State Fault Refusal :=
  match s.doms.find dom with
  | none => .fault .notEnabled
  | some d =>
    match d.status with
    | .migrating x =>
      if x ≤ s.time ∧ s.feedsMoving dom = false ∧ d.commitsDue = false then
        let w := d.launch.width
        let tiles : AMap Tile := d.tiles.map fun (p : Nat × Tile) =>
          (p.1, { p.2 with x := d.moveX + p.1 % w, y := d.moveY + p.1 / w })
        let d := { d with status := .running, x0 := d.moveX, y0 := d.moveY, tiles, placedAt := s.cycle }
        let at_ := s.within 16000
        let s := { s.tick1 with
          vacating := s.vacating.map fun (v : Forward) => if v.dom = dom ∧ v.retireAt = 0 then { v with retireAt := at_ } else v }
        .next (((s.setDom dom d).writeRanks d false).resumePhase dom)
      else .fault .notEnabled
    | _ => .fault .notEnabled

/-- A forwarding entry may be retired (R281): step 4 has come, its time is over, and nothing is on its way to the vacated tile. -/
def State.retirable (s : State) (v : Forward) : Bool :=
  v.retireAt != 0 && decide (v.retireAt ≤ s.time) && !(s.flits.any fun f => f.dx == v.x && f.dy == v.y && !f.agt)

/-- Two forwarding entries are of one move. -/
def Forward.sameMove (v w : Forward) : Bool := v.dom == w.dom && v.since == w.since

/-- FORWARD_RETIRE (R281): the entries of a move of the domain are retired together, and MIGRATE-DONE follows for it. -/
def execForwardRetire (dom : Nat) (s : State) : Host.Outcome State Fault Refusal :=
  match s.vacating.find? fun v => v.dom == dom && (s.vacating.filter v.sameMove).all s.retirable with
  | some v => .next ({ s with vacating := s.vacating.filter fun w => !v.sameMove w }.post evMigrate dom 0 0 0 [])
  | none => .fault .notEnabled

end moving

section releasing

/-- A request of another domain or package answered as a source failure, NO-DOMAIN (R272). -/
def State.answerGone (s : State) (dom : Nat) (m : Msg) : State :=
  if m.attr.pkg = s.pkgid.toNat ∧ m.attr.dom = dom then s else s.respond m 0x24

/-- The requests from elsewhere that wait in a tile's pool, and those that its engine is reading for, are answered as source
failures (R272). -/
def State.answerPool (s : State) (dom : Nat) (t : Tile) : State :=
  let s := t.pool.foldl (fun s p => match p.kind with | .remoteRead m => s.answerGone dom m | _ => s) s
  t.reads.foldl (fun s r => match r.job with | .reply m => s.answerGone dom m | _ => s) s

/-- A request of the domain that has not left its tile (R272). -/
def Msg.unsent (m : Msg) (pkg dom : Nat) : Bool :=
  m.attr.pkg == pkg && m.attr.dom == dom && (m.injected == 0 || m.waitUntil.isSome)
    && (match m.src with | .tile d _ => d == dom | _ => m.waitUntil.isSome) && m.kind != .reply && m.kind != .answer
    && m.kind != .retryAfter

/-- Steps 1 to 3 of R272. -/
def State.beginRelease (s : State) (dom seq : Nat) (d : Domain) : State :=
  let own (m : Msg) : Bool := m.attr.pkg == s.pkgid.toNat && m.attr.dom == dom
  let s := d.tiles.foldl (fun s p => s.answerPool dom p.2) s
  let d' := { d.mapTiles (fun t => { Tile.zero with x := t.x, y := t.y }) with
    status := .releasing s.cycle seq, plan := 0, queue := [], logged := [], resv := [], heldNotices := [], lock := none
    sliceAt := none, sliceDue := false, snapshot := false }
  let fills := s.ctls.flatMap fun (p : Nat × Hctl) => p.2.fills.filter fun f => f.pkg == s.pkgid.toNat && f.dom == dom
  let s := { s.setDom dom d' with
    ctls := s.ctls.map fun (p : Nat × Hctl) => (p.1, { p.2 with waits := p.2.waits.filter fun w => !own w.msg })
    walks := s.walks.map fun (p : Nat × Walk) => (p.1, { p.2 with msgs := p.2.msgs.filter fun m => !own m })
    slices := s.slices.map fun (p : Nat × Slice) =>
      (p.1, { p.2 with stalled := p.2.stalled.filter fun l => fld (wordAt l 1) 21 16 != dom })
    awaiting := s.awaiting.filter fun a => !own a.msg
    msgs := s.msgs.filter fun p => !p.2.unsent s.pkgid.toNat dom
    vacating := s.vacating.map fun (v : Forward) => if v.dom = dom ∧ v.retireAt = 0 then { v with retireAt := s.time } else v
    kiln := { s.kiln with places := s.kiln.places.filter fun p => p.dom != dom } }
  fills.foldl State.endFill s

/-- A flit in the network, or a message that has begun to arrive, is addressed to the domain's tiles. -/
def State.flitsTo (s : State) (dom : Nat) : Bool :=
  let hit (m : Msg) : Bool := match m.dst with | .tile d _ => d == dom | _ => false
  s.msgs.any fun p => hit p.2 && decide (0 < p.2.injected)

/-- RELEASE_DRAIN_DONE (R272): the rectangle and the storage are free, the residency number advances, and RELEASE
completes. -/
def execReleaseDrainDone (dom : Nat) (s : State) : Host.Outcome State Fault Refusal :=
  match s.doms.find dom with
  | none => .fault .notEnabled
  | some d =>
    match d.status with
    | .releasing _ seq =>
      if s.flitsTo dom = false then
        let s := s.complete dom seq 0 0
        .next { s with doms := s.doms.erase dom
                       residency := s.residency.set dom ((s.residency.getD dom 0 + 1) % 2 ^ 16) }
      else .fault .notEnabled
    | _ => .fault .notEnabled

end releasing

end Sys2Proof.Machine
end

