-- ==== Sys2Proof/Machine/Launch.lean ====
section
/-! DEFINITION. Kiln's commands (R344, R346, R347): the checks of a command, LAUNCH with the checks of its record (R44,
R45, R382), the re-entry of a graph (R47) and RELEASE (R271, R272). -/

namespace Sys2Proof.Machine

section commands

/-- DOM of a command (R344). -/
def cmdDom (w : List Word) : Nat := fld (wordAt w 0) 13 8

/-- SEQ of a command (R344). -/
def cmdSeq (w : List Word) : Nat := fld (wordAt w 0) 31 16

/-- The unused bits of a command are zero (R344, R346): masks names the bits that W1 to W7 use. -/
def cmdOk (w : List Word) (usesDom : Bool) (masks : List Word) : Bool :=
  decide (fld (wordAt w 0) 63 32 = 0) && decide (fld (wordAt w 0) 15 14 = 0) && (usesDom || decide (cmdDom w = 0))
    && (List.range 7).all fun i => (wordAt w (i + 1) &&& ~~~ wordAt masks i) == 0

/-- Bits hi:0 as a mask. -/
def lowMask (n : Nat) : Word := w64 (2 ^ n - 1)

/-- The decode of the current command ends (R345). -/
def State.endCommand (s : State) : State := { s with kiln := { s.kiln with cur := none, curDirect := false } }

/-- A command decoded: its own effect, on the state in which no command is being decoded. -/
def decodeCmd (s : State) (act : State → List Word → State) : Host.Outcome State Fault Refusal :=
  match s.kiln.cur with
  | none => .fault .notEnabled
  | some w => .next (act s.endCommand w)

/-- COMPLETE for a command. -/
def State.finish (s : State) (w : List Word) (status detail : Nat) : State :=
  s.complete (cmdDom w) (cmdSeq w) status detail

/-- A command decoded, with the checks of its unused bits: BAD-COMMAND (R346). -/
def checkedCmd (s : State) (usesDom : Bool) (masks : List Word) (act : State → List Word → State) :
    Host.Outcome State Fault Refusal :=
  decodeCmd s fun s w => if cmdOk w usesDom masks then act s w else s.finish w 0x01 0

/-- The command being decoded waits for a HANDLER of its domain to end: two commands for one domain take effect in the order
in which their decode began (R345, R351). -/
def State.handlerWaits (s : State) : Bool :=
  match s.kiln.cur with
  | some w => (match s.doms.find (cmdDom w) with | some d => d.lock.isSome | none => false)
  | none => false

/-- A command on a domain that Kiln knows: BAD-DOMAIN otherwise (R347). -/
def domainCmd (s : State) (masks : List Word) (act : State → List Word → Domain → State) :
    Host.Outcome State Fault Refusal :=
  if s.handlerWaits then .fault .notEnabled
  else
    checkedCmd s true masks fun s w =>
      match s.doms.find (cmdDom w) with
      | some d => act s w d
      | none => s.finish w 0x02 0

end commands

section record

/-- The reserved bits of a word of a launch record (R44). -/
def rsvMask (i : Nat) : Word :=
  match i with
  | 0 => w64 0xFFF0F000
  | 1 | 5 | 7 | 8 => ~~~ lowMask 52
  | 2 => ~~~ lowMask 52 ||| w64 0xFE00C080
  | 3 | 4 => 0
  | 6 => w64 (2 ^ 63)
  | 9 => ~~~ lowMask 13
  | k => if k ≤ 17 then ~~~ lowMask 39 ||| w64 (2 ^ 35) else ~~~ 0

/-- The Format row of R45: the lowest word that fails. -/
def badFormat (r : List Word) : Option Nat :=
  (List.range 32).find? fun i =>
    (wordAt r i &&& rsvMask i) != 0
      || (i == 0 && (fld (wordAt r 0) 7 0 != 1 || fld (wordAt r 0) 10 9 == 3))

/-- The fields of a launch record (R44). -/
def Launch.of (r : List Word) : Launch :=
  let w := wordAt r
  { det := (w 0).getLsbD 8, pclass := fld (w 0) 10 9, codeSize := fld (w 2) 6 0 * 2048, frameSize := fld (w 2) 13 8 * 1024
    cellSize := fld (w 2) 24 16 * 2048, tbase := fld (w 2) 51 32, image := fld (w 1) 51 0, graph := fld (w 3) 51 0
    root := fld (w 3) 63 52, lapc := fld (w 4) 31 0, lapx := fld (w 4) 63 32, ranktab := fld (w 5) 51 0
    handtab := fld (w 6) 51 0, nhand := fld (w 6) 62 52, fring := fld (w 7) 51 0, arrlog := fld (w 8) 51 0
    nnode := fld (w 9) 12 0, levels := (List.range 8).map fun i => fld (w (10 + i)) 31 0
    width := fld (w 0) 55 48 + 1 - fld (w 0) 39 32, height := fld (w 0) 63 56 + 1 - fld (w 0) 47 40 }

/-- The Carving row (R13, R45). -/
def Launch.carvingOk (l : Launch) : Bool :=
  decide (2048 ≤ l.codeSize) && decide (l.codeSize ≤ 96 * 2048) && decide (1024 ≤ l.frameSize)
    && decide (l.frameSize ≤ 32 * 1024) && decide (l.carve.blockBase + 2048 ≤ 2 ^ 20)

/-- The Rectangle row. -/
def rectOk (w0 : Word) : Bool :=
  decide (fld w0 39 32 ≤ fld w0 55 48) && decide (fld w0 55 48 ≤ 39) && decide (fld w0 47 40 ≤ fld w0 63 56)
    && decide (fld w0 63 56 ≤ 31)

/-- The pages that n bytes from an address touch, as their first addresses. -/
def pagesOf (va n : Nat) : List Nat :=
  if n = 0 then [] else
    (List.range ((va + n - 1) / 2 ^ 18 - va / 2 ^ 18 + 1)).map fun i => (va / 2 ^ 18 + i) * 2 ^ 18

/-- The status of an extent (R45): BAD-ADDRESS where a page is not mapped, BAD-HOME where it must lie in host or CXL memory
and does not. -/
def State.extentStatus (s : State) (va n align : Nat) (outside : Bool) : Option Nat :=
  if va % align ≠ 0 ∨ 2 ^ 52 < va + n then some 0x14
  else if (pagesOf va n).any fun p => (match s.walk p false with | .ok _ => false | .error _ => true) then some 0x14
  else if outside && (pagesOf va n).any fun p =>
      (match s.walk p false with | .ok x => x.home != 2 && x.home != 3 | .error _ => false) then some 0x1A
  else none

/-- The Addresses row: the lowest word that fails, with its status. DEDUCED (log 88): a HANDTAB beside NHAND 0 is left to the
Handlers row. -/
def State.badAddress (s : State) (l : Launch) : Option (Nat × Nat) :=
  let img := l.codeSize + l.cellSize + l.cellSize / 64
  [(1, s.extentStatus l.image img 64 false),
   (3, s.extentStatus l.graph (32 * l.nnode) 32 false),
   (5, s.extentStatus l.ranktab (4 * (l.width * l.height)) 64 true),
   (6, if l.nhand = 0 then none else s.extentStatus l.handtab (8 * l.nhand) 64 true),
   (7, s.extentStatus l.fring 64 64 true),
   (8, s.extentStatus l.arrlog 64 64 true)].findSome? fun p => p.2.map fun st => (st, p.1)

/-- CAP of a fault ring and its reserved fields (R289). -/
def ringHeaderOk (h : List Word) : Bool :=
  let cap := (wordAt h 0).toNat
  (List.range 13).any (fun i => cap == 2 ^ (4 + i)) && decide (fld (wordAt h 3) 63 32 = 0)
    && (List.range 4).all fun i => wordAt h (4 + i) == 0

/-- CAP of an arrival log and its reserved fields (R277). -/
def logHeaderOk (h : List Word) : Bool :=
  decide (fld (wordAt h 0) 63 40 = 0) && decide ((wordAt h 0).toNat % 64 = 0) && decide (fld (wordAt h 1) 63 40 = 0)
    && decide (fld (wordAt h 2) 63 40 = 0) && (List.range 5).all fun i => wordAt h (3 + i) == 0

/-- The Logs row. -/
def State.badLogs (s : State) (l : Launch) : Option (Nat × Nat) :=
  let r := s.vaReadWords l.fring 8
  let a := s.vaReadWords l.arrlog 8
  if !ringHeaderOk r then some (0x10, 7)
  else
    match s.extentStatus l.fring (64 + 64 * (wordAt r 0).toNat) 64 true with
    | some st => some (st, 7)
    | none =>
      if !logHeaderOk a then some (0x10, 8)
      else (s.extentStatus l.arrlog (64 + (wordAt a 0).toNat) 64 true).map fun st => (st, 8)

/-- The Graph row: NNODE, the lowest node that breaks the node rules, ROOT (R45, R48). -/
def State.badGraph (s : State) (l : Launch) : Option Nat :=
  if l.nnode = 0 ∨ 4096 < l.nnode then some 0
  else
    let w (n i : Nat) : Word := s.vaRead64 (l.graph + 32 * n + 8 * i)
    match (List.range l.nnode).find? fun n => !nodeOk l l.carve (w n 0) (w n 1) (w n 2) (w n 3) with
    | some n => some n
    | none => if l.root < l.nnode then none else some l.root

/-- The product of the COUNTs of the levels whose BIND is in a list (R45). -/
def levelProduct (lv : List Word) (binds : List Nat) : Nat :=
  lv.foldl (fun p w => if binds.contains (fld w 34 32) then p * fld w 31 0 else p) 1

/-- The narrowest SCOPE that a BIND allows (R45). -/
def minScope (bind : Nat) : Nat := [5, 4, 3, 2, 1, 1, 0].getD bind 0

/-- The Levels row: the lowest level that breaks a rule (R44, R45); a product breaks its rule at the level where it first
stands outside it, or, for NRANK, at the last level that enters it (log 26). -/
def badLevels (r : List Word) (l : Launch) : Option Nat :=
  let n := fld (wordAt r 0) 19 16
  let all := (List.range 8).map fun i => wordAt r (10 + i)
  let lv := all.take n
  let own (i : Nat) : Bool :=
    let w := wordAt all i
    let bind := fld w 34 32
    if n ≤ i then w != 0
    else
      bind == 7 || decide (6 ≤ fld w 38 36) || decide (fld w 38 36 < minScope bind) || (bind == 2 && fld w 31 0 != 1)
        || (decide (0 < i) && decide (bind < fld (wordAt all (i - 1)) 34 32))
  let kind (i : Nat) (binds : List Nat) : Bool := decide (i < lv.length) && binds.contains (fld (wordAt lv i) 34 32)
  let upTo (i : Nat) (binds : List Nat) : Nat := levelProduct (lv.take (i + 1)) binds
  let whole (i : Nat) : Bool :=
    (kind i [3] && l.height % upTo i [3] != 0)
      || (kind i [3, 4] && !(lv.drop (i + 1)).any (fun w => fld w 34 32 == 3 || fld w 34 32 == 4)
        && levelProduct lv [3, 4] != l.width * l.height)
      || (kind i [5, 6] && decide (16 < upTo i [5, 6]))
  if 8 < n then some 8 else (List.range 8).find? fun i => own i || whole i

/-- The tag bytes of an image (R46): the first with bits 7:6 set. -/
def State.badTag (s : State) (l : Launch) : Option Nat :=
  ((((l.imageBytes s).drop (l.codeSize + l.cellSize)).take (l.cellSize / 64)).findIdx? fun b => decide (64 ≤ b.toNat))

/-- The first of the Format, Carving, Rectangle and TBASE rows that a record breaks, with DETAIL (R45). -/
def badShape (r : List Word) : Option (Nat × Nat) :=
  let l := Launch.of r
  match badFormat r with
  | some i => some (0x10, i)
  | none =>
    if !l.carvingOk then some (0x11, 0)
    else if !rectOk (wordAt r 0) then some (0x12, 0)
    else if l.tbase % 2 ≠ 0 ∨ l.codeSize ≤ l.tbase then some (0x13, 0)
    else none

/-- The first rule of R45 that a record breaks, with DETAIL. -/
def State.badRecord (s : State) (r : List Word) : Option (Nat × Nat) :=
  let l := Launch.of r
  match badShape r with
  | some x => some x
  | none =>
    match s.badAddress l with
    | some x => some x
    | none =>
      match s.badLogs l with
      | some x => some x
      | none =>
        if l.lapc = 0 ∨ l.lapx = 0 then some (0x15, 0)
        else
          match s.badGraph l with
          | some n => some (0x16, n)
          | none =>
            if 1024 < l.nhand ∨ (l.nhand = 0 ∧ l.handtab ≠ 0) then some (0x17, 0)
            else
              match badLevels r l with
              | some n => some (0x18, n)
              | none => (s.badTag l).map fun g => (0x19, g)

end record

section launch

/-- The lowest domain number that none holds (R41, R382). -/
def State.freeDomain (s : State) : Option Nat := (List.range 64).find? fun n => (s.doms.find n).isNone

/-- The fields of the ring and log headers that only the device writes, at their reset values (R6, R277, R289; DEDUCED, log 98).
-/
def State.resetHeaders (s : State) (l : Launch) : State :=
  (((s.vaWrite64 (l.fring + 8) 0).headerCount (l.fring + 24) 32 0).headerCount (l.arrlog + 8) 40 0).headerCount
    (l.arrlog + 16) 40 0

/-- A LAUNCH accepted: the domain is pending, its request joins the queue (R311, R344, R382). -/
def State.acceptLaunch (s : State) (seq n : Nat) (r : List Word) : State :=
  let l := Launch.of r
  let w0 := wordAt r 0
  let d := { Domain.zero with
    launch := l, fringCap := (s.vaRead64 l.fring).toNat, arrCap := (s.vaRead64 l.arrlog).toNat, launchSeq := seq
    launchPending := true }
  let p : Place :=
    { dom := n, restore := false, pclass := l.pclass, exact := !w0.getLsbD 11, x0 := fld w0 39 32, y0 := fld w0 47 40
      w := l.width, h := l.height, arrival := s.cycle, planned := false }
  let s := (s.resetHeaders l).setDom n d
  { s with kiln := { s.kiln with places := s.kiln.places ++ [p] } }

/-- The launch record at a bus address (R44). -/
def State.launchRecord (s : State) (bus : Nat) : List Word := (List.range 32).map fun i => s.hostMem.read64 (bus + 8 * i)

/-- The pages whose mapping the Addresses and Logs rows check, with the bytes of the ring and of the log (R45). -/
def Launch.checkedPages (l : Launch) (ring log : Nat) : List Nat :=
  pagesOf l.image (l.codeSize + l.cellSize + l.cellSize / 64) ++ pagesOf l.graph (32 * l.nnode)
    ++ pagesOf l.ranktab (4 * (l.width * l.height)) ++ pagesOf l.handtab (8 * l.nhand)
    ++ pagesOf l.fring (64 + ring) ++ pagesOf l.arrlog (64 + log)

/-- What the checks of a launch record read of HBM: the walks of the pages, the node records and the tag bytes of the image (R45,
R317). The ring, the log and the tables lie in host or CXL memory. A record whose own words are broken has nothing read, and one
that a later row refuses may have more decoded here than a unit that stops at the row (log 40). -/
def State.checkRead (s : State) (r : List Word) : State :=
  let l := Launch.of r
  if (badShape r).isSome then s
  else if (s.badAddress l).isSome || (s.badLogs l).isSome then (l.checkedPages 0 0).foldl State.kilnWalk s
  else
    let pages := l.checkedPages (64 * (s.vaRead64 l.fring).toNat) (s.vaRead64 l.arrlog).toNat
    ((pages.foldl State.kilnWalk s).kilnRead l.graph (32 * min l.nnode 4096)).kilnRead
      (l.image + l.codeSize + l.cellSize) (l.cellSize / 64)

/-- LAUNCH of a new domain (R44, R45, R346, R382); a record that is not 64-byte aligned is BAD-COMMAND (log 68). -/
def execLaunch (s : State) : Host.Outcome State Fault Refusal :=
  checkedCmd s false [~~~ 0] fun s w =>
    let r := s.launchRecord (wordAt w 1).toNat
    if (wordAt w 1).toNat % 64 ≠ 0 then s.finish w 0x01 0
    else
      let u := s.checkRead r
      match s.badRecord r with
      | some (status, detail) => u.finish w status detail
      | none =>
        match s.freeDomain with
        | none => u.finish w 0x1B 0
        | some n => u.acceptLaunch (cmdSeq w) n r

/-- LAUNCH with REENTER (R47, R66, R306, R310, R382): the root is fetched afresh. -/
def execLaunchReenter (s : State) : Host.Outcome State Fault Refusal :=
  domainCmd s [0, lowMask 12 ||| w64 (2 ^ 63)] fun s w d =>
    let root := fld (wordAt w 2) 11 0
    if d.status ≠ .ended then s.finish w 0x03 0
    else if d.launch.nnode ≤ root then s.finish w 0x16 root
    else
      let d := { d.mapTiles (fun t => { t with rotation := 0 }) with
        launchSeq := cmdSeq w, launchPending := true, passes := [], cache := [] }
      (s.setDom (cmdDom w) d).proceed (cmdDom w) root true

/-- RELEASE (R271, R272): a saved domain holds no tile and is gone at once; any other drains first. -/
def execRelease (s : State) : Host.Outcome State Fault Refusal :=
  domainCmd s [] fun s w d =>
    let dom := cmdDom w
    match d.status with
    | .pending | .releasing _ _ => s.finish w 0x03 0
    | .saved =>
      let s := s.beginRelease dom (cmdSeq w) d
      let s := s.finish w 0 0
      { s with doms := s.doms.erase dom, residency := s.residency.set dom ((s.residency.getD dom 0 + 1) % 2 ^ 16) }
    | _ => s.beginRelease dom (cmdSeq w) d

end launch

end Sys2Proof.Machine
end

