-- ==== Sys2Proof/Machine/Link.lean ====
section
/-! DEFINITION. The Darzan link (R334 to R340): packets and their beats, the way out through a port, a link flit received,
retraining, announcements and resends. -/

namespace Sys2Proof.Machine

section packets

/-- A request or an invocation (R336). -/
def MsgKind.isRequest : MsgKind → Bool
  | .put | .get | .combine | .invoke => true
  | _ => false

/-- KIND of a packet (R336). -/
def MsgKind.code : MsgKind → Nat
  | .put => 0
  | .get => 1
  | .reply => 2
  | .combine => 3
  | .invoke => 4
  | .answer => 5
  | .retryAfter => 6
  | .unit | .close => 15

/-- The virtual channel of a KIND (R337). -/
def vcOf (kind : Nat) : Nat :=
  if kind = 0 ∨ kind = 1 ∨ kind = 3 then 0
  else if kind = 2 ∨ kind = 5 ∨ kind = 6 then 1
  else if kind = 4 then 2
  else 3

/-- The data beats of a KIND (R336). -/
def dataBeats (kind : Nat) : Nat :=
  if kind = 0 ∨ kind = 2 then 32 else if kind = 4 then 1 else 0

/-- The beats of a packet of a KIND: header, data, and a tail where there are data (R336). -/
def packetBeats (kind : Nat) : Nat := if dataBeats kind = 0 then 1 else dataBeats kind + 2

/-- A beat from its eight doublewords. -/
def beatOf (l : List Word) : List Byte := ((List.range 8).map fun i => natBytes 8 (wordAt l i).toNat).flatten

/-- A doubleword of a beat. -/
def beatWord (b : List Byte) (i : Nat) : Word := w64 (natOfBytes ((b.drop (8 * i)).take 8))

/-- A header beat from its words 0 to 6, with HCRC (R336). -/
def headerBeat (l : List Word) : List Byte :=
  let body := (beatOf l).take 56
  body ++ natBytes 8 (Config.crc32 body).toNat

/-- A packet closed: the tail with its word 0 and ECRC where there are data beats (R336). -/
def closePacket (head : List Byte) (data : List (List Byte)) (w0 : Word) : List (List Byte) :=
  if data.isEmpty then [head]
  else head :: data ++ [beatOf [w0, 0, 0, 0, 0, 0, 0, w64 (Config.crc64 (head ++ data.flatten)).toNat]]

/-- The incarnation of the destination as this package holds it (R293, R336). -/
def State.dinc (s : State) (m : Msg) : Nat :=
  if m.kind.isRequest && ptrSpace m.attr.target != 1 then s.kiln.peers.getD m.dpkg 0 else m.attr.inc

/-- The ARG words of a packet (R336); a transfer to a page of another package carries its physical address in the second
(R293, log 8). -/
def Msg.argWords (m : Msg) : List Word :=
  match m.kind with
  | .get => [wordAt m.args 0, w64 m.addr, 0]
  | .put => [0, w64 m.addr, 0]
  | .combine => [wordAt m.args 0, wordAt m.args 1, 0]
  | .invoke => [wordAt m.args 0, wordAt m.args 1, wordAt m.args 2]
  | .answer => [w64 m.status, 0, 0]
  | _ => [0, 0, 0]

/-- The header words of a message (R336). -/
def State.headerWords (s : State) (m : Msg) : List Word :=
  let a := m.attr
  [w64 (m.dpkg + s.dinc m * 2 ^ 16 + s.pkgid.toNat * 2 ^ 32 + s.incarn.toNat * 2 ^ 48), a.target,
   w64 (a.dom + a.rank * 2 ^ 6 + a.ctx * 2 ^ 18 + a.pcoff * 2 ^ 23 + a.blk * 2 ^ 43 + a.f6 * 2 ^ 52 + a.major * 2 ^ 58),
   w64 (m.kind.code + vcOf m.kind.code * 2 ^ 4 + m.ord % 4 * 2 ^ 6 + m.ord / 4 * 2 ^ 8 + m.xid * 2 ^ 11 + a.res * 2 ^ 25)]
    ++ m.argWords

/-- The data beats of a message (R336). -/
def Msg.dataList (m : Msg) : List (List Byte) :=
  match m.kind with
  | .put | .reply => (List.range 32).map fun i => m.data.readBytes (64 * i) 64
  | .invoke => [beatOf ((m.args.drop 3).take 4)]
  | _ => []

/-- The beats of a message (R336). -/
def State.packetOf (s : State) (m : Msg) : List (List Byte) :=
  closePacket (headerBeat (s.headerWords m)) m.dataList (if m.kind = .invoke then 0 else w64 m.pois.toNat)

/-- The packet of an announcement (R339). -/
def State.announcement (s : State) : List (List Byte) :=
  [headerBeat [w64 (s.pkgid.toNat * 2 ^ 32 + s.incarn.toNat * 2 ^ 48), 0, 0, w64 (7 + 3 * 2 ^ 4), 0, 0, 0]]

/-- A beat that fills up a link flit: a header of a KIND that is dropped on receipt (R336, log 8). -/
def padBeat : List Byte := headerBeat [0, 0, 0, w64 (15 + 3 * 2 ^ 4), 0, 0, 0]

end packets

section ports

/-- A port after it has trained: each VC may send one block packet of 34 beats beside the 7 whose credits a flit's units of 8 may
still owe, so that no VC stops, and more where the implementation has room (R334, R337; log 8). ACK, 0 at reset (R334), says that SEQ 0 has been received, so the first flit has SEQ 1 (DEDUCED, log 98). -/
def Port.fresh : Port :=
  { up := true, txSeq := 1, txNext := 1, replay := [], out := [], waitq := [], txq := [], packs := [], beats := 0, ackBeats := 0
    txNaks := 0, txNakAt := 0, credits := (List.range 4).map fun v => 41 + Config.linkCredits v, rxSeq := 1, nakOut := false
    ackOut := false, rx := [], rxDoubt := none, rxSkip := 0, rxCred := 1, owed := [0, 0, 0, 0], naks := 0, retrains := 0
    retraining := false, retrainAt := 0 }

/-- A port replaced. -/
def State.setPort (s : State) (p : Nat) (x : Port) : State := { s with ports := s.ports.set p x }

/-- The virtual channel of a packet (R336, R337). -/
def packetVc (beats : List (List Byte)) : Nat := fld (beatWord (beats.headD []) 3) 5 4

/-- A packet taken in by a port: it waits there for the credits of its VC. -/
def Port.push (x : Port) (beats : List (List Byte)) : Port := { x with waitq := x.waitq ++ [(packetVc beats, beats)] }

/-- The first packet that waits whose VC has the credits, and none of whose VC waits before it (R337): no VC holds another.
-/
def Port.ready (x : Port) : List (Nat × List (List Byte)) → List Nat → Option (Nat × List (List Byte))
  | [], _ => none
  | p :: t, blocked =>
    if !blocked.contains p.1 && decide (p.2.length ≤ x.credits.getD p.1 0) then some p else x.ready t (p.1 :: blocked)

/-- A packet enters the stream of beats, and spends its credits (R337). -/
def Port.enter (x : Port) : Port :=
  if 4 ≤ x.txq.length then x
  else
    match x.ready x.waitq [] with
    | none => x
    | some p =>
      let n := p.2.length
      { x with waitq := x.waitq.erase p, credits := x.credits.set p.1 (x.credits.getD p.1 0 - n), txq := x.txq ++ p.2
               beats := x.beats + n, packs := x.packs ++ [(x.beats + n, p.2)] }

/-- The header of a link flit (R334). -/
def linkHeader (seq ack : Nat) (nak null : Bool) (cred : Nat) : List Byte :=
  natBytes 4 (seq % 1024 + ack % 1024 * 2 ^ 10 + b2n nak * 2 ^ 20 + b2n null * 2 ^ 21 + cred % 256 * 2 ^ 22)

/-- The bytes of a link flit that one of its two codes covers (R334): every other byte (PRESUMED, log 8). -/
def rsPart (b : List Byte) (k : Nat) : List Byte := (b.zipIdx.filter fun p => p.2 % 2 == k).map Prod.fst

/-- The primitive polynomials of degree 8 (R334). -/
def rsPolys : List Nat :=
  [0x11D, 0x12B, 0x12D, 0x14D, 0x15F, 0x163, 0x165, 0x169, 0x171, 0x187, 0x18D, 0x1A9, 0x1C3, 0x1CF, 0x1E7, 0x1F5]

/-- An element of GF(2⁸) times the primitive element: by the polynomial of the field (R334; log 8). -/
def gfDouble (a : Byte) : Byte :=
  if a.getLsbD 7 then (a <<< 1) ^^^ BitVec.ofNat 8 (rsPolys.getD (Config.rsField % 16) 0x11D) else a <<< 1

/-- The product in GF(2⁸). -/
def gfMul (a b : Byte) : Byte := (List.range 8).foldr (fun i r => gfDouble r ^^^ (if a.getLsbD i then b else 0)) 0

/-- A power of the primitive element. -/
def gfPow : Nat → Byte
  | 0 => 1
  | n + 1 => gfDouble (gfPow n)

/-- The generator of the two codes without its leading 1, highest power first: the product of x − αⁱ for four i in a row (R334;
log 8). -/
def rsGenerator : List Byte :=
  (List.range 4).foldl (fun g i =>
    let root := gfPow (Config.rsRoot % 255 + i)
    List.zipWith (fun a b => a ^^^ gfMul root b) (g ++ [0]) (1 :: g)) []

/-- The four parity bytes of a message: the remainder of the message times x⁴ by the generator, so that every word of the code is a
multiple of it, and two words differ in five bytes at least (R334). -/
def rsParity (l : List Byte) : List Byte :=
  l.foldl (fun r b =>
    let f := b ^^^ r.headD 0
    List.zipWith (fun x g => x ^^^ gfMul f g) (r.drop 1 ++ [0]) rsGenerator) [0, 0, 0, 0]

/-- A word of one of the two codes is free of errors: 132 bytes, then their parity (R334). -/
def rsGood (w : List Byte) : Bool := rsParity (w.take 132) == w.drop 132

/-- The words that differ from one in one byte at most. -/
def rsNear (w : List Byte) : List (List Byte) :=
  (List.range w.length).flatMap fun i => (List.range 256).map fun v => w.set i (BitVec.ofNat 8 v)

/-- A word of one of the two codes corrected (R334, R335): two byte errors at most, for which one word of the code alone is as near;
a word with more stays as it is. -/
def rsFix (w : List Byte) : List Byte :=
  if rsGood w then w else (((rsNear w).flatMap rsNear).find? rsGood).getD w

/-- Two lists interleaved, byte by byte. -/
def interleave : List Byte → List Byte → List Byte
  | a :: s, b :: t => a :: b :: interleave s t
  | _, _ => []

/-- A link flit as its FEC leaves it (R334, R335): each of its two codes corrected. -/
def fecCorrect (b : List Byte) : List Byte :=
  if b.length = 272 then interleave (rsFix (rsPart b 0)) (rsFix (rsPart b 1)) else b

/-- A link flit of 272 bytes: its header, 256 bytes of beats, LCRC and the parity of the two codes (R334). -/
def linkBytes (head payload : List Byte) : List Byte :=
  let body := head ++ payload
  let body := body ++ natBytes 4 (Config.crc32 body).toNat
  body ++ interleave (rsParity (rsPart body 0)) (rsParity (rsPart body 1))

/-- A link flit that carries no beats (R334). -/
def flitNull (bytes : List Byte) : Bool := decide (natOfBytes (bytes.take 4) / 2 ^ 21 % 2 = 1)

/-- The credits of a VC that the next flit returns, in units of 8 beats, at most 3 (R334). -/
def Port.returns (x : Port) (vc : Nat) : Nat := min 3 (x.owed.getD vc 0 / 8)

/-- A flit goes out with its number and its credits (R334, R335): ACK and NAK as they stand; it is kept for a resend. ACK waits
at the flit before one with a header in doubt (R338). -/
def Port.emit (x : Port) (n : Nat) (null : Bool) (cred : Nat) (payload : List Byte) : Port :=
  let next := match x.rxDoubt with | some d => d.1 | none => x.rxSeq
  let bytes := linkBytes (linkHeader n (next + 1023) x.nakOut null cred) payload
  { x with out := x.out ++ [bytes], replay := x.replay.set n bytes, txNext := n + 1, txSeq := max x.txSeq (n + 1), nakOut := false
           ackOut := false }

/-- A new flit goes out: the credits that it returns are no longer owed (R337). -/
def Port.emitNew (x : Port) (null : Bool) (payload : List Byte) : Port :=
  let cred := ((List.range 4).map fun v => x.returns v * 4 ^ v).sum
  { x.emit x.txSeq null cred payload with owed := (List.range 4).map fun v => x.owed.getD v 0 - 8 * x.returns v }

/-- Something is owed that a NULL flit carries: a NAK, an ACK or credits. -/
def Port.owes (x : Port) : Bool := x.nakOut || x.ackOut || (List.range 4).any fun v => decide (0 < x.returns v)

/-- A port sends one link flit (R334, R335): a resend, with the credits that the flit returned before; or up to four beats padded
to four, or a NULL flit for what is owed, while the replay buffer has room: of its 1,024 flits one stays free, so that an ACK
of 10 bits names one flit (DEDUCED, log 98). -/
def Port.send (x : Port) : Port :=
  if !x.up || x.retraining then x
  else if x.txNext < x.txSeq then
    let old := x.replay.getD x.txNext []
    x.emit x.txNext (flitNull old) (natOfBytes (old.take 4) / 2 ^ 22 % 256) ((old.drop 4).take 256)
  else if 1023 ≤ x.replay.length then x
  else
    let x := x.enter.enter.enter.enter
    let four := x.txq.take 4
    if !four.isEmpty then
      let pad := List.replicate (4 - four.length) padBeat
      { x with txq := x.txq.drop 4, beats := x.beats + pad.length }.emitNew false (four ++ pad).flatten
    else if x.owes then x.emitNew true (List.replicate 256 0)
    else x

/-- A message that has reached its port leaves the package (R336, R338): a request awaits its answer for 1 ms; an answer
is kept for its duplicates for 2 ms, a retry-after is not. -/
def State.leave (s : State) (p id : Nat) (m : Msg) : State :=
  match s.ports.find p with
  | none => s
  | some x =>
    let s := (s.takeMsg id).setPort p (x.push (s.packetOf m))
    if m.kind.isRequest then { s with awaiting := s.awaiting ++ [⟨m.xid, m, s.us + 1000⟩] }
    else if m.kind = .retryAfter then
      { s with answered := s.answered.filter fun a => !(a.pkg == m.attr.pkg && a.xid == m.xid) }
    else
      { s with answered := s.answered.map fun a =>
          if a.pkg = m.attr.pkg ∧ a.xid = m.xid then { a with dropAt := some (s.us + 2000), answer := some m } else a }

/-- The messages that have reached a port that is up leave it; those at a port that is down try another (R340). -/
def State.leaveAll (s : State) : State :=
  s.msgs.foldl (fun s p =>
    match p.2.dst with
    | .darzan n =>
      if p.2.arrived s.cycle then
        if (s.ports.find n).any Port.up then s.leave n p.1 p.2 else (s.takeMsg p.1).toPackage p.2 s.cycle
      else s
    | _ => s) s

end ports

section arrivals

/-- The puts of a package ended at every controller (R324). -/
def State.endPuts (s : State) (pkg : Nat) : State :=
  (s.ctls.flatMap fun (p : Nat × Hctl) => p.2.fills.filter fun f => f.pkg == pkg).foldl State.endFill s

/-- An announcement taken in (R293, R324, R339): a new incarnation enters the peer table, the translations to the package are
dropped and its puts end. -/
def State.announceIn (s : State) (pkg inc : BitVec 16) : State :=
  if 8192 ≤ pkg.toNat ∨ pkg = s.pkgid ∨ s.kiln.peers.getD pkg.toNat 0 = inc.toNat then s
  else
    let s := { s with kiln := { s.kiln with peers := s.kiln.peers.set pkg.toNat inc.toNat } }
    (s.dropXlats pkg.toNat).endPuts pkg.toNat

/-- The request that a packet carries (R25, R283, R336). It brings no issue number, so among invocations of one source in another
package the order of arrival stands for the order of issue (R68; log 102). -/
def State.requestOf (s : State) (port : Nat) (kind : MsgKind) (h : List Byte) (data : List (List Byte)) (tail : Word) :
    Msg :=
  let w (i : Nat) : Word := beatWord h i
  let a : Attr :=
    { pkg := fld (w 0) 47 32, dom := fld (w 2) 5 0, rank := fld (w 2) 17 6, ctx := fld (w 2) 22 18
      pcoff := fld (w 2) 42 23, major := fld (w 2) 62 58, f6 := fld (w 2) 57 52, blk := fld (w 2) 51 43
      inc := fld (w 0) 63 48, res := fld (w 3) 40 25, target := w 1 }
  let virt := ptrSpace (w 1) == 1
  let dst : Node :=
    if kind = .invoke then .unit (fld (w 4) 21 16)
    else if virt then .hbm (stackOf (w 5).toNat)
    else (remoteTile (w 1)).2
  let cells := ((data.flatten.zipIdx 0).filter fun p => p.1 != 0).map fun p => (p.2, p.1)
  let args : List Word := match kind with
    | .invoke => [w 4, w 5, w 6] ++ (List.range 4).map (beatWord (data.headD []))
    | .combine => [w 4, w 5]
    | _ => [w 4]
  { Msg.blank kind a (.darzan port) dst s.pkgid.toNat with
    slot := a.blk, xid := fld (w 3) 24 11, tag := ptrTag (w 1)
    addr := if virt then (w 5).toNat else ptrOff (w 1) + (if kind = .combine then 0 else 2048 * a.blk)
    data := if kind = .put then cells else [], pois := tail.setWidth 32, args
    ord := fld (w 3) 7 6 + 4 * fld (w 3) 10 8, flits := if kind = .put then 16 else 1 }

/-- The answer of a request that ingress turns away (R338, R339). -/
def State.turnAway (s : State) (m : Msg) (status : Nat) : State :=
  s.dispatch { m.back s.pkgid.toNat .answer status with src := m.src } s.cycle

/-- The entries of the duplicate list that are still kept (R338). -/
def State.keptAnswers (s : State) : List Answered :=
  s.answered.filter fun a => match a.dropAt with | some x => decide (s.us < x) | none => true

/-- A request whose target pointer the remote agent refuses (R26): a reserved SPACE, a zero field, or a SPACE that its kind
does not take (DEDUCED, log 94). -/
def Msg.badTarget (m : Msg) : Bool :=
  m.kind != .invoke
    && (ptrBad m.attr.target || ptrSpace m.attr.target == 0 || (m.kind == .combine && ptrSpace m.attr.target == 1))

/-- A request at ingress (R26, R338, R339): a duplicate has its answer repeated; one for another incarnation is answered
PEER-GONE, one whose pointer is refused BOUNDS. -/
def State.requestIn (s : State) (m : Msg) (dinc : Nat) : State :=
  if dinc ≠ s.incarn.toNat then s.turnAway m (if m.kind = .invoke then 11 else 0x21)
  else if m.badTarget then s.turnAway m 0x05
  else
    match s.keptAnswers.find? fun a => a.pkg == m.attr.pkg && a.xid == m.xid with
    | some a => (match a.answer with | some x => s.dispatch { x with src := m.src } s.cycle | none => s)
    | none =>
      State.enqueue { s with answered := s.keptAnswers ++ [⟨m.attr.pkg, m.xid, none, none⟩] } m s.cycle

/-- A reply, an answer or a retry-after at ingress: to the request that awaits it (R202, R302, R338), PEER-GONE dropping the
package's translations (R293); RESEND sends the request, or repeats the answer, afresh. -/
def State.responseIn (s : State) (port spkg : Nat) (kind : MsgKind) (h : List Byte) (data : List (List Byte)) (tail : Word) :
    State :=
  let xid := fld (beatWord h 3) 24 11
  let status := (beatWord h 4).toNat
  match s.awaiting.find? fun a => a.xid == xid && a.msg.dpkg == spkg with
  | none =>
    match s.keptAnswers.find? fun a => a.pkg == spkg && a.xid == xid with
    | some a => match a.answer with
      | some x => if kind = .answer ∧ status = Config.resendCode then s.dispatch x s.cycle else s
      | none => s
    | none => s
  | some a =>
    if kind = .answer ∧ status = Config.resendCode then
      { s with awaiting := s.awaiting.map fun x => if x = a then { x with resendAt := s.us } else x }
    else
      let m := a.msg
      let gone : Bool := decide (kind = MsgKind.answer) && decide (status = if m.kind = .invoke then 11 else 0x21)
      let s := { s with awaiting := s.awaiting.erase a, fabRetries := if kind = MsgKind.retryAfter then s.fabRetries else 0 }
      let s := if gone then s.dropXlats spkg else s
      let cells := ((data.flatten.zipIdx 0).filter fun p => p.1 != 0).map fun p => (p.2, p.1)
      let m' : Msg :=
        { m with
          kind, orig := m.kind, src := .darzan port, dst := m.issuer, dpkg := s.pkgid.toNat, status
          args := if kind = .retryAfter then m.args else [w64 spkg]
          data := if kind = .reply then cells else if kind = .retryAfter then m.data else []
          pois := if kind = .reply then tail.setWidth 32 else m.pois, flits := if kind = .reply then 16 else 1 }
      s.enqueue m' s.cycle

/-- The tail of a packet holds the bitwise NOT of its ECRC (R338). -/
def stomped (beats : List (List Byte)) : Bool :=
  let n := dataBeats (fld (beatWord (beats.headD []) 3) 3 0)
  decide (n ≠ 0)
    && beatWord ((beats.drop (n + 1)).headD []) 7 == ~~~ w64 (Config.crc64 (beats.take (n + 1)).flatten).toNat

/-- A packet at ingress (R338, R339): a stomped one is discarded; one that fails ECRC is answered RESEND. -/
def State.packetIn (s : State) (port : Nat) (beats : List (List Byte)) : State :=
  let h := beats.headD []
  let w (i : Nat) : Word := beatWord h i
  let kind := fld (w 3) 3 0
  let spkg := fld (w 0) 47 32
  let sinc := fld (w 0) 63 48
  let dinc := fld (w 0) 31 16
  let n := dataBeats kind
  let data := (beats.drop 1).take n
  let last := (beats.drop (n + 1)).headD []
  let tail := beatWord last 0
  let ecrc := w64 (Config.crc64 (h ++ data.flatten)).toNat
  let drop1 : State := { s with drops := s.drops + 1 }
  if 8 ≤ kind then s
  else if kind = 7 then s.announceIn (BitVec.ofNat 16 spkg) (BitVec.ofNat 16 sinc)
  else if stomped beats then s
  else if fld (w 0) 15 0 ≠ s.pkgid.toNat ∨ s.kiln.peers.getD spkg 0 ≠ sinc then drop1
  else
    let mk (k : MsgKind) : Msg := s.requestOf port k h data tail
    let bad := decide (n ≠ 0) && beatWord last 7 != ecrc
    if bad then s.turnAway (mk .put) Config.resendCode
    else
      match kind with
      | 0 => s.requestIn (mk .put) dinc
      | 1 => s.requestIn (mk .get) dinc
      | 3 => s.requestIn (mk .combine) dinc
      | 4 => s.requestIn (mk .invoke) dinc
      | k =>
        if dinc ≠ s.incarn.toNat then s
        else if fld (w 3) 40 25 ≠ s.residency.getD (fld (w 2) 5 0) 0 then drop1
        else s.responseIn port spkg (if k = 2 then .reply else if k = 5 then .answer else .retryAfter) h data tail

/-- What a list of beats gives: the packets that are whole, the beats that are left, whether these begin with a header that
fails HCRC, and whether a whole packet fails HCRC and is not stomped. -/
structure Split where
  packets : List (List (List Byte))
  rest : List (List Byte)
  doubt : Bool
  bad : Bool
  deriving DecidableEq, Repr

/-- The packets that a list of beats completes (R336, R338): a packet whose header fails HCRC is known to be stomped or not
when its tail is there, and a stomped one is discarded. -/
def splitPackets : Nat → List (List Byte) → Split
  | 0, l => ⟨[], l, false, false⟩
  | _ + 1, [] => ⟨[], [], false, false⟩
  | left + 1, h :: t =>
    let good := (beatWord h 7).setWidth 32 == Config.crc32 (h.take 56)
    let n := packetBeats (fld (beatWord h 3) 3 0)
    if (h :: t).length < n then ⟨[], h :: t, !good, false⟩
    else if good || stomped ((h :: t).take n) then
      let r := splitPackets left ((h :: t).drop n)
      { r with packets := (h :: t).take n :: r.packets }
    else ⟨[], [], false, true⟩

end arrivals

section flits

/-- What an ACK acknowledges: the number after the last flit received (R334, R335); at most 1,023 are kept, so an ACK names one.
-/
def Port.ackedTo (x : Port) (ack : Nat) : Nat :=
  let lo := match x.replay with | (n, _) :: _ => n | [] => x.txSeq
  let k := (ack + 1 + 1024 - lo % 1024) % 1024
  if lo + k ≤ x.txSeq then lo + k else lo

/-- The acknowledgement and the NAK of a flit that has passed LCRC (R334, R335): NAKs in a row for one SEQ are counted, and an
ACK that goes past it ends the row. -/
def Port.takeHeader (x : Port) (hd us : Nat) : Port :=
  let upto := x.ackedTo (hd / 2 ^ 10 % 1024)
  let nak := decide (hd / 2 ^ 20 % 2 = 1)
  let acked := x.ackBeats + 4 * (x.replay.filter fun p => decide (p.1 < upto) && !flitNull p.2).length
  let row := if x.txNakAt = upto then x.txNaks else 0
  let x : Port := { x with
    replay := x.replay.filter fun p => decide (upto ≤ p.1)
    packs := x.packs.filter fun p => decide (acked < p.1)
    ackBeats := acked
    txNext := if nak then upto else max x.txNext upto
    txNaks := if nak then row + 1 else row, txNakAt := upto }
  if 8 ≤ x.txNaks then { x with retraining := true, retrainAt := us, txNaks := 0 } else x

/-- The credits that a flit taken in returns (R337): those of a flit that is discarded come again with its resend, and each are
counted once. -/
def Port.takeCredits (x : Port) (hd : Nat) : Port :=
  if x.rxSeq < x.rxCred then x
  else { x with rxCred := x.rxSeq + 1, credits := (List.range 4).map fun i => x.credits.getD i 0 + 8 * (hd / 2 ^ (22 + 2 * i) % 4) }

/-- A flit that is discarded: NAK, and after 8 in a row the port retrains (R335). -/
def Port.reject (x : Port) (us : Nat) : Port :=
  let x := { x with nakOut := true, naks := x.naks + 1 }
  if 8 ≤ x.naks then { x with retraining := true, retrainAt := us, naks := 0 } else x

/-- The flits since one with a header that fails HCRC are discarded (R338): what stood before that header has been taken in. -/
def Port.rollBack (x : Port) : Port :=
  match x.rxDoubt with
  | some d => { x with rxSeq := d.1, rxSkip := d.2, rx := [], rxDoubt := none }
  | none => x

/-- The place of a header in doubt (R338): the flit that brought it, and the beats of that flit before it. -/
def Port.doubt (x : Port) (r : Split) (got : Nat) : Option (Nat × Nat) :=
  if !r.doubt then none
  else if r.rest.length ≤ got then some (x.rxSeq, 4 - r.rest.length)
  else x.rxDoubt

/-- The beats of a packet that has drained: their credits are to be returned (R337); the beats that fill up a flit have
none. -/
def Port.drainedPacket (x : Port) (beats : List (List Byte)) : Port :=
  if 8 ≤ fld (beatWord (beats.headD []) 3) 3 0 then x
  else { x with owed := x.owed.set (packetVc beats) (x.owed.getD (packetVc beats) 0 + beats.length) }

/-- LINK_FLIT (R334, R335, R338): FEC, LCRC, the order of SEQ, then the beats. -/
def execLinkFlit (port : Nat) (bytes : List Byte) (s : State) : Host.Outcome State Fault Refusal :=
  match s.ports.find port with
  | none => .fault .notEnabled
  | some x =>
    if x.up = true ∧ x.retraining = false then
      let b := fecCorrect bytes
      if b.length ≠ 272 ∨ natOfBytes ((b.drop 260).take 4) ≠ (Config.crc32 (b.take 260)).toNat then
        .next (s.setPort port (x.reject s.us))
      else
        let hd := natOfBytes (b.take 4)
        let x := x.takeHeader hd s.us
        if hd % 1024 ≠ x.rxSeq % 1024 then .next (s.setPort port { x with nakOut := true })
        else
          let null := decide (hd / 2 ^ 21 % 2 = 1)
          let beats := if null then [] else ((List.range 4).map fun i => (b.drop (4 + 64 * i)).take 64).drop x.rxSkip
          let r := splitPackets 8 (x.rx ++ beats)
          if r.bad then .next (s.setPort port (x.rollBack.reject s.us))
          else
            let x := { x.takeCredits hd with
              rxSeq := x.rxSeq + 1, nakOut := false, ackOut := x.ackOut || !null, naks := 0, rx := r.rest
              rxDoubt := x.doubt r beats.length, rxSkip := if null then x.rxSkip else 0 }
            let x := r.packets.foldl Port.drainedPacket x
            .next (r.packets.foldl (fun s p => s.packetIn port p) (s.setPort port x))
    else .fault .notEnabled

/-- One packet of a port that is down leaves by the port that the hash picks among those of its mask that are up, and waits
while there is none (R340); announcements go out on every port anyway (R339). -/
def State.rehomeOne (port : Nat) (s : State) (beats : List (List Byte)) : State :=
  let h := beats.headD []
  if fld (beatWord h 3) 3 0 = 7 then s
  else
    let ps := s.portsTo (fld (beatWord h 0) 15 0)
    let hash := Config.portHash (fld (beatWord h 0) 47 32) (fld (beatWord h 3) 24 11) (fld (beatWord h 2) 51 43)
    let n := if ps.isEmpty then port else ps.getD (hash % ps.length) 0
    match s.ports.find n with
    | some y => s.setPort n (y.push beats)
    | none => s

/-- The packets of a port that is down leave by another. -/
def State.rehome (s : State) (port : Nat) (x : Port) : State :=
  (x.waitq.map Prod.snd).foldl (State.rehomeOne port) (s.setPort port { x with waitq := [] })

/-- A retraining ends (R335, R340): the port goes on, or after three failures it is down and its packets, those without an
acknowledgement first, leave by another. -/
def State.retrained (s : State) (port : Nat) (x : Port) (ok : Bool) : State :=
  if ok then
    let lo := match x.replay with | (n, _) :: _ => n | [] => x.txSeq
    s.setPort port { x with retraining := false, retrains := 0, naks := 0, txNaks := 0, txNext := lo }
  else if x.retrains + 1 < 3 then s.setPort port { x with retrains := x.retrains + 1, retrainAt := s.us }
  else
    s.rehome port { x with
      up := false, retraining := false, retrains := 3, replay := [], out := [], txq := [], packs := []
      waitq := (x.packs.map fun p => (packetVc p.2, p.2)) ++ x.waitq }

/-- PORT_RETRAIN (R335, R340). -/
def execPortRetrain (port : Nat) (ok : Bool) (s : State) : Host.Outcome State Fault Refusal :=
  match s.ports.find port with
  | none => .fault .notEnabled
  | some x => if x.retraining then .next (s.retrained port x ok) else .fault .notEnabled

/-- The flits that a port sends in this cycle: one in each 1.28 ns, the time of 256 bytes at 200 GB/s, whatever the tile clock does
(R334, R375). -/
def State.linkSlots (s : State) : Nat :=
  let slot := 128 * usUnits / 100000
  (s.time + 720720 / s.level) / slot - s.time / slot

/-- One port in one cycle (R334, R335, R340): a retraining of 1 ms has failed; a port that is down tries its packets again;
one that is up sends the flits of the cycle. -/
def State.portTick (s : State) (port : Nat) : State :=
  match s.ports.find port with
  | none => s
  | some x =>
    if x.retraining && decide (x.retrainAt + 1000 ≤ s.us) then s.retrained port x false
    else if !x.up then (if x.waitq.isEmpty then s else s.rehome port x)
    else s.setPort port ((List.range s.linkSlots).foldl (fun x _ => x.send) { x with out := [] })

/-- The ports in one cycle. -/
def State.linkTick (s : State) : State :=
  let s := s.leaveAll
  s.ports.keys.foldl State.portTick s

end flits

section peers

/-- ANNOUNCE (R293, R324, R339). -/
def execAnnounce (pkg inc : BitVec 16) (s : State) : Host.Outcome State Fault Refusal := .next (s.announceIn pkg inc)

/-- An announcement on every port that is up (R339). -/
def State.announceAll (s : State) : State :=
  { s with
    ports := s.ports.map fun (p : Nat × Port) => (p.1, if p.2.up then p.2.push s.announcement else p.2)
    kiln := { s.kiln with announceAt := s.us + 1000 } }

/-- ANNOUNCE_PERIODIC (R339): every 1 ms. -/
def execAnnouncePeriodic (s : State) : Host.Outcome State Fault Refusal :=
  if s.kiln.ready = true ∧ s.kiln.announceAt ≤ s.us then .next s.announceAll else .fault .notEnabled

/-- REQUEST_RESEND (R338): a request without an answer for 1 ms leaves again with its XID. -/
def execRequestResend (req : Nat) (s : State) : Host.Outcome State Fault Refusal :=
  match s.awaiting.find? fun a => a.xid == req && decide (a.resendAt ≤ s.us) with
  | some a => .next ({ s with awaiting := s.awaiting.erase a }.toPackage a.msg s.cycle)
  | none => .fault .notEnabled

end peers

end Sys2Proof.Machine
end

