-- ==== Sys2Proof/Machine/Kiln.lean ====
section
/-! DEFINITION. Kiln's other commands (R346): the domain's (R49, R271, R291, R314, R351, R384), the memory's and the tables'
(R284, R292, R294, R295, R297, R322, R350), the ports' (R339, R340), the settings (R326, R329) and the reports (R327,
R352). -/

namespace Sys2Proof.Machine

section domains

/-- The node on which HOST holds a domain (R49). -/
def DomStatus.hostNode : DomStatus → Option Nat
  | .atHost n => some n
  | _ => none

/-- CONTINUE (R49): the hold ends at NEXT or ALT. -/
def execContinue (s : State) : Host.Outcome State Fault Refusal :=
  domainCmd s [1] fun s w d =>
    match d.status.hostNode with
    | none => s.finish w 0x03 0
    | some n =>
      let s := s.finish w 0 0
      match s.fetchNode d n with
      | (s, .error r) => s.machineCheck (cmdDom w) r n []
      | (s, .ok g) => s.proceed (cmdDom w) (if (wordAt w 1).getLsbD 0 then g.alt else g.next) false

/-- EXTEND (R271, R307, R384): an expired lap counter starts again from zero with the new budget. -/
def execExtend (s : State) : Host.Outcome State Fault Refusal :=
  domainCmd s [lowMask 32] fun s w d =>
    let budget := fld (wordAt w 1) 31 0
    if budget = 0 then s.finish w 0x01 0
    else if d.status = .running ∧ d.lapStopped = true then
      (s.setDom (cmdDom w) { d with lap := 0, lapStopped := false, budget }).finish w 0 0
    else s.finish w 0x03 0

/-- What a straggler break reports of a slot: TVAL and TVAL2 (R266, R271). -/
def Tile.breakWords (t : Tile) (i : Nat) : Option (Word × Word) :=
  let c := t.ctx i
  if c.run = .parked ∧ (t.block c.wblk).state = .empty ∧ (t.block c.wblk).armed = false then
    some (w64 c.wblk, t.blockWord c.wblk)
  else if c.run = .await then
    match c.barrier with
    | some o => if t.nfeed o = 0 then some (w64 o, t.sram.read64 o) else none
    | none => none
  else none

/-- WAITER of a barrier clears when no local context waits any more (R271). -/
def Tile.dropWaiter (t : Tile) (o : Option Nat) : Tile :=
  match o with
  | none => t
  | some o =>
    if ctxNums.any fun i => (t.ctx i).run == .await && (t.ctx i).barrier == some o then t
    else t.setWord1 o (t.nfeed o) false

/-- BREAK on one tile (R271): the traps of every slot that the break reaches, found before any of them is raised. -/
def State.breakTile (s : State) (dom rank : Nat) (t : Tile) : State :=
  slotNums.foldl (fun s i =>
    match t.breakWords i with
    | none => s
    | some (a, b) =>
      let c := t.ctx i
      let x : TrapInfo :=
        { cause := cBreak, form := 1, tval := a, tval2 := b, ctx := i, async := false, xended := false, tepc := c.th.pc
          raisedAt := s.cycle }
      (raiseTrap s dom rank x).updTile dom rank fun u => u.dropWaiter c.barrier) s

/-- BREAK (R271, R384). -/
def execBreak (s : State) : Host.Outcome State Fault Refusal :=
  domainCmd s [] fun s w d =>
    if d.status = .running ∧ d.phase.getLsbD 0 = false then
      (d.tiles.foldl (fun s p => s.breakTile (cmdDom w) p.1 p.2) s).finish w 0 0
    else s.finish w 0x03 0

/-- A completion notice, held for a domain that is saved (R291). -/
def faultComplete (s : State) (abort : Bool) : Host.Outcome State Fault Refusal :=
  domainCmd s [lowMask 32, 1] fun s w d =>
    let seq := fld (wordAt w 1) 31 0
    let s := if d.status.logs then s.setDom (cmdDom w) { d with heldNotices := d.heldNotices ++ [(seq, abort)] }
      else s.notice (cmdDom w) seq abort
    s.finish w 0 0

/-- FAULT-COMPLETE with RETRY (R291). -/
def execFaultCompleteRetry (s : State) : Host.Outcome State Fault Refusal := faultComplete s false

/-- FAULT-COMPLETE with ABORT (R291). -/
def execFaultCompleteAbort (s : State) : Host.Outcome State Fault Refusal := faultComplete s true

/-- HANDLER (R351): the entry is locked; within 1 µs it is written and LOCK clears. -/
def execHandler (s : State) : Host.Outcome State Fault Refusal :=
  domainCmd s [lowMask 10, ~~~ 0] fun s w d =>
    let i := fld (wordAt w 1) 9 0
    if !d.status.placed || d.status.refuses && !d.status.isHalted then s.finish w 0x02 0
    else if d.launch.nhand ≤ i then s.finish w 0x17 0
    else
      s.tick1.setDom (cmdDom w) { d with
        lock := some i, lockEntry := wordAt w 2, lockSeq := cmdSeq w
        lockUntil := s.within 1000 }

/-- SLICE (R314). -/
def execSlice (s : State) : Host.Outcome State Fault Refusal :=
  domainCmd s [lowMask 32] fun s w d =>
    (s.setDom (cmdDom w) { d with slice := fld (wordAt w 1) 31 0 }).finish w 0 0

/-- MIGRATE (R273, R280): an order to move at the next boundary that ends an odd phase, to a free rectangle. -/
def execMigrate (s : State) : Host.Outcome State Fault Refusal :=
  domainCmd s [lowMask 16] fun s w d =>
    let r : Rect := ⟨fld (wordAt w 1) 7 0, fld (wordAt w 1) 15 8, d.launch.width, d.launch.height⟩
    if !d.plannable then s.finish w 0x03 0
    else if r.free (s.taken [] ++ ((s.kiln.places.filter Place.planned).map Place.rect)) then
      (s.setDom (cmdDom w) { d with plan := 2, moveX := r.x, moveY := r.y }).finish w 0 0
    else s.finish w 0x12 0

end domains

section translations

/-- A translated access that has not been performed at its home (R292). -/
def State.underWay (s : State) (want : Msg → Bool) : List (List Nat) :=
  let key (m : Msg) : List Nat := [m.attr.dom, m.attr.rank, m.req, m.slot]
  let mine (m : Msg) : Bool := m.va.isSome && (m.kind == .put || m.kind == .get) && want m
  ((s.msgs.filter fun p => p.2.waitUntil.isNone && mine p.2).map fun p => key p.2)
    ++ ((s.ctls.flatMap fun (p : Nat × Hctl) => (p.2.waits.filter fun w => mine w.msg).map fun w => key w.msg))
    ++ ((s.awaiting.filter fun a => mine a.msg).map fun a => key a.msg)

/-- Translations dropped from every slice, and the command noted until its accesses are performed (R292); an INVALIDATE of a range
takes its pages from those of the extents, and counts for the extents that are RELEASING when it begins (R297). -/
def State.invalidate (s : State) (w : List Word) (range : Option (Nat → Bool)) (drop1 : Nat → Xlat → Bool) (want : Msg → Bool) :
    State :=
  let s := { s with slices := s.slices.map fun (p : Nat × Slice) =>
    (p.1, { p.2 with cache := p.2.cache.filter fun x => !drop1 x.1 x.2 }) }
  let exts := match range with
    | some _ => (s.kiln.extents.filter fun x => x.2.state == 2).map Prod.fst
    | none => []
  let extents := match range with
    | some hit => s.kiln.extents.map fun (x : Nat × Extent) => (x.1, { x.2 with pages := x.2.pages.filter fun p => !hit p })
    | none => s.kiln.extents
  { s with kiln := { s.kiln with extents, invals := s.kiln.invals ++ [⟨cmdSeq w, exts, s.underWay want⟩] } }

/-- INVALIDATE of a virtual range (R292). -/
def execInvalidateRange (s : State) : Host.Outcome State Fault Refusal :=
  checkedCmd s false [lowMask 52, lowMask 53] fun s w =>
    let va := (wordAt w 1).toNat
    let n := (wordAt w 2).toNat
    if va % 2 ^ 18 ≠ 0 ∨ n % 2 ^ 18 ≠ 0 then s.finish w 0x01 0
    else
      let hit (vpn : Nat) : Bool := decide (va / 2 ^ 18 ≤ vpn) && decide (vpn < (va + n) / 2 ^ 18)
      s.invalidate w (some hit) (fun vpn _ => hit vpn) fun m => (m.va.map fun a => hit (vpnOf a)).getD false

/-- INVALIDATE of a package (R292). -/
def execInvalidatePkgid (s : State) : Host.Outcome State Fault Refusal :=
  checkedCmd s false [lowMask 16, w64 (2 ^ 63)] fun s w =>
    let pkg := (wordAt w 1).toNat
    s.invalidate w none (fun _ x => x.home == 1 && x.pkg == pkg) fun m => m.dpkg == pkg && pkg != s.pkgid.toNat

/-- The extents for which an INVALIDATE has completed since their release request (R297). -/
def Kiln.invalDone (k : Kiln) (v : Inval) : Kiln :=
  { k with
    invals := k.invals.erase v
    extents := k.extents.map fun (x : Nat × Extent) =>
      (x.1, if x.2.state == 2 && v.exts.contains x.1 then { x.2 with gone := true } else x.2) }

/-- INVALIDATE_COMPLETE (R292): every access through a dropped translation has been performed. -/
def execInvalidateComplete (s : State) : Host.Outcome State Fault Refusal :=
  let now := s.underWay fun _ => true
  match s.kiln.invals.find? fun v => v.blocks.all fun k => !now.contains k with
  | none => .fault .notEnabled
  | some v =>
    .next ({ s with kiln := s.kiln.invalDone v }.complete 0 v.seq 0 0)

/-- TABLE-ROOT (R284): 8 KiB aligned. -/
def execTableRoot (s : State) : Host.Outcome State Fault Refusal :=
  checkedCmd s false [lowMask 39] fun s w =>
    let a := (wordAt w 1).toNat
    if a % 8192 ≠ 0 then s.finish w 0x01 0
    else { s with kiln := { s.kiln with tableRoot := a } }.finish w 0 0

end translations

section memory

/-- One block of MEMSTATE (R317, R321, R322), whose granule 0 is read; the result says whether PUBLISH left it unchanged. -/
def State.memstateBlock (s : State) (publish : Bool) (tag : BitVec 6) (pa : Nat) : State × Bool :=
  let s := s.readGrans 0 [pa / 2048 * 32]
  let b := s.hblk pa
  if publish then
    if b.state = .empty then ((s.setHblk pa { b with state := .full, tag, odd := [] }).wakeHbm pa, false) else (s, true)
  else if b.state = .deferred then
    (s.updCtl (stackOf pa) fun c => { c with held := c.held ++ [(pa, tag)] }, false)
  else (s.clearHbm pa tag, false)

/-- The blocks of MEMSTATE in order (R350): the state, the status and its DETAIL. -/
def State.memstateFrom (s : State) (publish : Bool) (tag : BitVec 6) (va i same : Nat) : Nat → State × Nat × Nat
  | 0 => (s, 0, same)
  | n + 1 =>
    let u := s.kilnWalk (va + 2048 * i)
    match s.walk (va + 2048 * i) false with
    | .error _ => (u, 0x14, i)
    | .ok x =>
      match x.home? s (va + 2048 * i) with
      | .hbm pa =>
        let (u, left) := u.memstateBlock publish tag pa
        State.memstateFrom u publish tag va (i + 1) (same + b2n left) n
      | _ => (u, 0x14, i)

/-- A MEMSTATE that has a bad operand (R346, R350). -/
def memstateBad (w : List Word) (publish : Bool) : Bool :=
  !cmdOk w false [lowMask 52, lowMask 24, w64 0x3F03] || decide ((wordAt w 1).toNat % 2048 ≠ 0) || decide ((wordAt w 2).toNat = 0)
    || decide (fld (wordAt w 3) 1 0 ≠ (if publish then 2 else 1)) || (publish && decide (fld (wordAt w 3) 13 8 = 0))

/-- The blocks of a range of job virtual memory up to the first that does not lie in this package's HBM, as physical addresses. -/
def State.hbmBlocks (s : State) (va : Nat) : Nat → List Nat
  | 0 => []
  | n + 1 =>
    match s.walk va false with
    | .error _ => []
    | .ok x => match x.home? s va with
      | .hbm pa => pa :: State.hbmBlocks s (va + 2048) n
      | _ => []

/-- The blocks on which the MEMSTATE being decoded acts. -/
def State.memstateBlocks (s : State) (publish : Bool) : List Nat :=
  match s.kiln.cur with
  | some w => if memstateBad w publish then [] else s.hbmBlocks (wordAt w 1).toNat (wordAt w 2).toNat
  | none => []

/-- MEMSTATE (R350): it takes its turn at the controllers of its blocks, as their requests do (R321, R328, R329; log 38). -/
def memstate (s : State) (publish : Bool) : Host.Outcome State Fault Refusal :=
  s.ctlRow .kiln (s.memstateBlocks publish) fun s =>
    decodeCmd s fun s w =>
      if memstateBad w publish then s.finish w 0x01 0
      else
        let tag := BitVec.ofNat 6 (fld (wordAt w 3) 13 8)
        let (s, status, detail) := s.memstateFrom publish tag (wordAt w 1).toNat 0 0 (wordAt w 2).toNat
        s.finish w status detail

/-- MEMSTATE with CLEAR (R322, R350). -/
def execMemstateClear (s : State) : Host.Outcome State Fault Refusal := memstate s false

/-- MEMSTATE with PUBLISH (R322, R350). -/
def execMemstatePublish (s : State) : Host.Outcome State Fault Refusal := memstate s true

end memory

section counters

/-- COUNTER-READ (R295): entries drained in order to the host's buffer; COMPLETE's DETAIL returns OVF in bit 0 and the
number of entries above it (log 24). -/
def execCounterRead (s : State) : Host.Outcome State Fault Refusal :=
  checkedCmd s false [~~~ 0, ~~~ 0] fun s w =>
    let l := s.notes.take (wordAt w 2).toNat
    let bytes := (l.map fun x => natBytes 8 x.toNat).flatten
    let detail := b2n s.notesOvf + 2 * l.length
    { s with hostMem := s.hostMem.writeBytes (wordAt w 1).toNat bytes, notes := s.notes.drop l.length
             notesOvf := false }.finish w 0 detail

/-- COUNTER-RESET (R294): the count and QUEUED of one page, or of all. -/
def execCounterReset (s : State) : Host.Outcome State Fault Refusal :=
  checkedCmd s false [lowMask 34, w64 (2 ^ 63), lowMask 16] fun s w =>
    let vpn := (wordAt w 1).toNat
    let th := (wordAt w 3).toNat
    let s := if (wordAt w 2).getLsbD 63 then
        { s with slices := s.slices.map fun (p : Nat × Slice) => (p.1, { p.2 with counts := [], queued := [] }) }
      else
        let n := sliceOf vpn
        let x := s.slice n
        s.setSlice n { x with counts := x.counts.erase vpn, queued := delNat vpn x.queued }
    { s with kiln := { s.kiln with threshold := if th = 0 then s.kiln.threshold else th } }.finish w 0 0

end counters

section reports

/-- A record of the error history (R327). -/
def ErrRec.bytes (r : ErrRec) : List Byte :=
  natBytes 8 (r.pch + b2n r.ue * 2 ^ 9 + r.src * 2 ^ 10 + r.gaddr * 2 ^ 16) ++ natBytes 8 (r.time % 2 ^ 48 + r.repeats * 2 ^ 48)

/-- The error history of a controller as HEALTH writes it (R327, log 24): CE and UE by pseudo-channel, DROPW, the
records. -/
def Hctl.bytes (c : Hctl) (ctl : Nat) : List Byte :=
  ((List.range 64).map fun i => natBytes 4 (c.ce.getD (64 * ctl + i) 0)).flatten
    ++ ((List.range 64).map fun i => natBytes 2 (c.ue.getD (64 * ctl + i) 0)).flatten
    ++ natBytes 4 c.dropw
    ++ ((List.range 32).map fun i => match c.hist[i]? with | some r => r.bytes | none => List.replicate 16 0).flatten

/-- The port states as HEALTH writes them (R335, R377, log 24): a byte for each port, 1 up; then whether a thermal trip is
recorded. -/
def State.portBytes (s : State) : List Byte :=
  ((List.range 32).map fun p => if (s.ports.find p).any Port.up then (1 : Byte) else 0) ++ [if s.tripped then 1 else 0]

/-- HEALTH (R327, R335, R377). -/
def execHealth (s : State) : Host.Outcome State Fault Refusal :=
  checkedCmd s false [~~~ 0] fun s w =>
    let bytes := ((List.range 8).map fun c => (s.ctl c).bytes c).flatten ++ s.portBytes
    { s with hostMem := s.hostMem.writeBytes (wordAt w 1).toNat bytes }.finish w 0 0

/-- The part number in ASCII, padded with zeros (R352, R379). -/
def partNumber : List Byte :=
  [0x4D, 0x4C, 0x5A, 0x2D, 0x5A, 0x35, 0x41, 0x2D, 0x31, 0x32, 0x38, 0x30, 0, 0, 0, 0]

/-- The record of a domain in the report (R352, log 24): a valid flag with DOM, then the digest of its image. -/
def State.attestRecord (s : State) (n : Nat) : List Byte :=
  match s.doms.find n with
  | some d => if d.status.placed then natBytes 1 (128 + n) ++ natBytes 64 d.digest.toNat else List.replicate 65 0
  | none => List.replicate 65 0

/-- The report over which the signature is made (R352). -/
def State.attestBody (s : State) (nonce : List Word) : List Byte :=
  partNumber ++ natBytes 16 Config.serial.toNat ++ natBytes 64 (sha3_512 Config.romImage).toNat
    ++ natBytes 64 (sha3_512 Config.fuses).toNat ++ natBytes 2 s.pkgid.toNat ++ natBytes 2 s.incarn.toNat
    ++ (nonce.map fun w => natBytes 8 w.toNat).flatten ++ ((List.range 64).map s.attestRecord).flatten

/-- ATTEST (R352). -/
def execAttest (s : State) : Host.Outcome State Fault Refusal :=
  checkedCmd s false [~~~ 0, ~~~ 0, ~~~ 0, ~~~ 0, ~~~ 0] fun s w =>
    let body := s.attestBody ((w.drop 2).take 4)
    let bytes := body ++ (Config.mlDsa87 body).toList ++ Config.identityKey.toList
    { s with hostMem := s.hostMem.writeBytes (wordAt w 1).toNat bytes }.finish w 0 0

end reports

section settings

/-- PORTMAP (R340). -/
def execPortmap (s : State) : Host.Outcome State Fault Refusal :=
  checkedCmd s false [lowMask 16, lowMask 32] fun s w =>
    { s with kiln := { s.kiln with portMap := s.kiln.portMap.set (wordAt w 1).toNat (wordAt w 2).toNat } }.finish w 0 0

/-- PEER (R339). -/
def execPeer (s : State) : Host.Outcome State Fault Refusal :=
  checkedCmd s false [lowMask 16, 1] fun s w =>
    let pkg := (wordAt w 1).toNat
    let down := if (wordAt w 2).getLsbD 0 then insNat pkg s.kiln.peersDown else delNat pkg s.kiln.peersDown
    { s with kiln := { s.kiln with peersDown := down } }.finish w 0 0

/-- CONFIG of the scrub period: 1 to 48 hours (R326). -/
def execConfigScrub (s : State) : Host.Outcome State Fault Refusal :=
  checkedCmd s false [lowMask 64, ~~~ 0] fun s w =>
    let h := (wordAt w 2).toNat
    if (wordAt w 1).toNat ≠ 1 ∨ h = 0 ∨ 48 < h then s.finish w 0x01 0
    else { s with kiln := { s.kiln with scrubHours := h } }.finish w 0 0

/-- CONFIG of idle entry (R329). -/
def execConfigIdleEntry (s : State) : Host.Outcome State Fault Refusal :=
  checkedCmd s false [lowMask 64, ~~~ 0] fun s w =>
    let v := (wordAt w 2).toNat
    if (wordAt w 1).toNat ≠ 2 ∨ 1 < v then s.finish w 0x01 0
    else { s with kiln := { s.kiln with idleEntry := v == 1 } }.finish w 0 0

/-- An extent replaced (R297). -/
def State.setExtent (s : State) (x : Nat) (e : Extent) : State :=
  { s with kiln := { s.kiln with extents := s.kiln.extents.set x e } }

/-- A translated access to an extent's bytes that has not been performed (R297). -/
def Extent.holds (e : Extent) (m : Msg) : Bool :=
  match m.dst with
  | .cxl p => p == e.port && decide (cxlKey p e.base ≤ m.addr) && decide (m.addr < cxlKey p (e.base + e.len))
  | _ => false

/-- An extent may not be freed yet (R292, R297): no invalidation has completed since its release request, one of its pages has not
been invalidated, a translation through it is still held, or an access through it is in flight. -/
def State.extentBusy (s : State) (x : Nat) : Bool :=
  let e := s.extent x
  !e.gone || !e.pages.isEmpty || !(s.underWay e.holds).isEmpty
    || s.slices.any fun p => p.2.cache.any fun q => q.2.home == 3 && q.2.extid == x

/-- EXTENT (R297): a released extent becomes FREE, once the invalidation of its pages has completed. DEDUCED (log 89):
before that the command is BAD-STATE. -/
def execExtentReleased (s : State) : Host.Outcome State Fault Refusal :=
  checkedCmd s false [lowMask 8] fun s w =>
    let x := (wordAt w 1).toNat
    if (s.extent x).state = 2 ∧ s.extentBusy x = false then (s.setExtent x ⟨0, 0, 0, 0, [], false⟩).finish w 0 0
    else s.finish w 0x03 0

/-- EXTENT_ADDED (R297): a FREE entry becomes an ACTIVE extent, and CAPACITY is posted (R348). -/
def execExtentAdded (ext port base len : Nat) (s : State) : Host.Outcome State Fault Refusal :=
  if ext < 256 ∧ port < 2 ∧ len % 2 ^ 18 = 0 ∧ (s.extent ext).state = 0 then
    .next ((s.setExtent ext ⟨1, port, base, len, [], false⟩).post evCapacity 0 0 0 0 [w64 ext, 0])
  else .fault .notEnabled

/-- EXTENT_RELEASE_REQUEST (R297). -/
def execExtentReleaseRequest (ext : Nat) (s : State) : Host.Outcome State Fault Refusal :=
  let e := s.extent ext
  if e.state = 1 then .next ((s.setExtent ext { e with state := 2, gone := false }).post evCapacity 0 0 0 0 [w64 ext, 1])
  else .fault .notEnabled

end settings

end Sys2Proof.Machine
end

