-- ==== Sys2Proof/Machine/Device.lean ====
section
/-! DEFINITION. The host's accesses (R319, R342, R345, R348) and the device as a whole: reset and bring-up (R368 to R371),
the tile clock (R375), thermal trip (R376, R377) and the power states (R373). -/

namespace Sys2Proof.Machine

section registers

/-- CMDTAIL (R342, R344): a doorbell, at any time. -/
def execCmdtail (value : Word) (s : State) : Host.Outcome State Fault Refusal :=
  .next { s with kiln := { s.kiln with cmdTail := value } }

/-- EVHEAD (R342, R348): the host has consumed entries; kept events follow. -/
def execEvhead (value : Word) (s : State) : Host.Outcome State Fault Refusal :=
  .next { s with kiln := { s.kiln with evHead := value } }.evFlush

/-- The rings are empty: their bases and sizes may be written (R342). -/
def Kiln.ringsEmpty (k : Kiln) : Bool := k.cmdHead == k.cmdTail && k.evHead == k.evTail

/-- A BAR0 register written (R342): read-only ones ignore it. -/
def Kiln.writeReg (k : Kiln) (offset : Nat) (v : Word) : Kiln :=
  match offset with
  | 0x00 => if k.ringsEmpty then { k with cmdBase := v } else k
  | 0x08 => if k.ringsEmpty then { k with cmdSize := v } else k
  | 0x10 => { k with cmdTail := v }
  | 0x20 => if k.ringsEmpty then { k with evBase := v } else k
  | 0x28 => if k.ringsEmpty then { k with evSize := v } else k
  | 0x30 => { k with evHead := v }
  | 0x40 => { k with report := v }
  | 0x50 => { k with aperture := v }
  | _ => k

/-- BAR0_REGISTER_WRITE (R342). -/
def execBar0RegisterWrite (offset : Nat) (value : Word) (s : State) : Host.Outcome State Fault Refusal :=
  .next { s with kiln := s.kiln.writeReg offset value }.evFlush

/-- KSTAT.DBUSY (R345): a direct command awaits its decode, or the end of it. -/
def Kiln.dbusy (k : Kiln) : Bool := k.directCmd.isSome || k.curDirect

/-- KSTAT (R342). -/
def Kiln.kstat (k : Kiln) : Word := w64 (b2n k.ready + b2n k.halted * 2 + b2n k.dbusy * 4 + 2 ^ 8)

/-- A BAR0 register read (R342). -/
def Kiln.readReg (k : Kiln) (offset : Nat) : Word :=
  match offset with
  | 0x00 => k.cmdBase
  | 0x08 => k.cmdSize
  | 0x10 => k.cmdTail
  | 0x18 => k.cmdHead
  | 0x20 => k.evBase
  | 0x28 => k.evSize
  | 0x30 => k.evHead
  | 0x38 => k.evTail
  | 0x40 => k.report
  | 0x48 => k.kstat
  | 0x50 => k.aperture
  | _ => 0

/-- DIRECT (R345): bytes of the window; the write of byte 63 submits the command; while DBUSY they are discarded. -/
def execDirect (offset : Nat) (bytes : List Byte) (s : State) : Host.Outcome State Fault Refusal :=
  let k := s.kiln
  if k.dbusy then .next s
  else
    let old := (k.direct ++ List.replicate 64 0).take 64
    let new := (old.take offset ++ bytes ++ old.drop (offset + bytes.length)).take 64
    let whole := decide (offset ≤ 63) && decide (64 ≤ offset + bytes.length)
    .next { s with kiln :=
      if whole then { k with direct := [], directCmd := some ((List.range 8).map (beatWord new)) }
      else { k with direct := new } }

/-- The command that Kiln decodes next (R344, R345): the one under decode, which waits at a controller; otherwise the direct one
first, then the ring's; CMDTAIL is sampled from the cycle after READY on (R369). -/
def State.nextCommand (s : State) : Option (List Word × State) :=
  let k := s.kiln
  if !k.ready || k.halted || decide (s.cycle < k.sampleAt) then none
  else
    match k.cur, k.directCmd with
    | some w, _ => some (w, s)
    | none, some w => some (w, { s with kiln := { k with cur := some w, directCmd := none, curDirect := true } })
    | none, none =>
      if k.cmdHead = k.cmdTail then none
      else
        let at_ := k.cmdBase.toNat + 64 * (k.cmdHead.toNat % k.cmdSize.toNat)
        let w := (List.range 8).map fun i => s.hostMem.read64 (at_ + 8 * i)
        some (w, { s with kiln := { k with cur := some w, cmdHead := k.cmdHead + 1 } })

end registers

section aperture

/-- The range of HBM that an access of the host names, through BAR2 (R319, R342): BAR2 spans 16 GiB. -/
def State.hostRange (s : State) : Input → Option (Nat × Nat)
  | .hostWrite .bar2 addr bytes => some (s.kiln.aperture.toNat + addr, min bytes.length (2 ^ 34 - addr))
  | .hostRead .bar2 addr len => some (s.kiln.aperture.toNat + addr, min len (2 ^ 34 - addr))
  | _ => none

/-- The blocks of a range of HBM, as their first addresses. -/
def blocksOf (pa n : Nat) : List Nat :=
  if n = 0 then [] else (List.range ((pa + n - 1) / 2048 - pa / 2048 + 1)).map fun i => 2048 * (pa / 2048 + i)

/-- One granule's part of a host write (R317, R319): merged where its block is EMPTY, as granule 0 says; the result says
whether it was discarded. -/
def State.hostGranule (s : State) (pa : Nat) (bytes : List Byte) : State × Bool :=
  let s := s.readGrans 3 [pa / 2048 * 32]
  if (s.hblk pa).state ≠ .empty then (s, true)
  else
    let s := if bytes.length < 64 then s.readGrans 3 [pa / 64] else { s with hbmFailing := s.hbmFailing.erase (pa / 64) }
    ({ s with hbmMem := s.hbmMem.writeBytes pa bytes }, false)

/-- A host write granule by granule from an address (R319); left bounds the granules. -/
def State.hostWriteFrom (s : State) (pa : Nat) (bytes : List Byte) (dropped : List Nat) : Nat → State × List Nat
  | 0 => (s, dropped)
  | left + 1 =>
    if bytes.isEmpty then (s, dropped)
    else
      let n := min bytes.length (64 - pa % 64)
      let (s, bad) := s.hostGranule pa (bytes.take n)
      State.hostWriteFrom s (pa + n) (bytes.drop n) (if bad then insNat (pa / 2048) dropped else dropped) left

/-- HOST_WRITE (R319, R342): through BAR2 into HBM, a block that is not EMPTY discards its part, counted in DROPW; or the
host's own memory, where new data replaces the poison of a granule that it covers (R259; log 90). -/
def execHostWrite (space : HostSpace) (addr : Nat) (bytes : List Byte) (s : State) : Host.Outcome State Fault Refusal :=
  match space with
  | .hostMemory =>
    .next { s with
      hostMem := s.hostMem.writeBytes addr bytes
      hostPois := s.hostPois.filter fun g => !(decide (addr ≤ 64 * g) && decide (64 * (g + 1) ≤ addr + bytes.length)) }
  | .bar2 =>
    let pa := s.kiln.aperture.toNat + addr
    let l := bytes.take (2 ^ 34 - addr)
    let (s, dropped) := s.hostWriteFrom pa l [] (l.length + 1)
    .next (dropped.foldl (fun s b =>
      s.updCtl (stackOf (2048 * b)) fun c => { c with dropw := (c.dropw + 1) % 2 ^ 32 }) s)

/-- HOST_READ (R319, R342): the bytes whatever the state, poisoned where a granule holds POIS; BAR2 spans 16 GiB. -/
def execHostRead (space : HostSpace) (addr len : Nat) (s : State) : Host.Outcome State Fault Refusal :=
  match space with
  | .hostMemory => .next { s with hostResult := some (s.hostMem.readBytes addr len, false) }
  | .bar2 =>
    let pa := s.kiln.aperture.toNat + addr
    let len := min len (2 ^ 34 - addr)
    let grans := if len = 0 then [] else (List.range ((pa + len - 1) / 64 - pa / 64 + 1)).map (pa / 64 + ·)
    let s := s.readGrans 3 grans
    let bad := grans.any fun g => (s.hblk (64 * g)).pois.getLsbD (g % 32)
    .next { s with hostResult := some (s.hbmMem.readBytes pa len, bad) }

/-- The PCI Express vendor ID (R379). -/
def pciVendorId : Nat := 0x1E9F

/-- The device ID (R379). -/
def pciDeviceId : Nat := 0x05A1

/-- The revision ID, stepping A1 (R379). -/
def pciRevisionId : Nat := 0x11

/-- The class code, processing accelerator (R379). -/
def pciClassCode : Nat := 0x120000

/-- The first 16 bytes of the configuration space: the identification of R379 at the places that PCI Express gives it, zeros
elsewhere (PRESUMED, log 99). -/
def pciConfig : List Byte :=
  natBytes 2 pciVendorId ++ natBytes 2 pciDeviceId ++ natBytes 4 0 ++ natBytes 1 pciRevisionId ++ natBytes 3 pciClassCode
    ++ natBytes 4 0

/-- The host reads the configuration space (R379; log 99). -/
def readConfig (offset len : Nat) (s : State) : Host.Outcome State Fault Refusal :=
  .next { s with hostResult := some (((pciConfig ++ List.replicate (offset + len) 0).drop offset).take len, false) }

/-- The host reads a BAR0 register, eight bytes at its offset (R342); DIRECT is write only and reads as zero (log 90). -/
def readBar0 (offset : Nat) (s : State) : Host.Outcome State Fault Refusal :=
  .next { s with hostResult := some (natBytes 8 (s.kiln.readReg offset).toNat, false) }

end aperture

section physical

/-- The SRAM of a granule of a tile starts or ceases to fail (R38, R130): a cause from outside the manual's machine (log
38). -/
def failSram (dom rank gran : Nat) (on : Bool) (s : State) : Host.Outcome State Fault Refusal :=
  .next (s.updTile dom rank fun t => { t with failing := if on then insNat gran t.failing else delNat gran t.failing })

/-- The wrong symbols of a granule with one more error in a symbol, which may undo an earlier one (R317). -/
def addError (errs : AMap (BitVec 16)) (sym : Nat) (err : BitVec 16) : AMap (BitVec 16) :=
  let e := errs.getD sym 0 ^^^ err
  if e = 0 then errs.erase sym else errs.set sym e

/-- What the wrong metadata symbol of a miscorrected granule makes of its TAG and POIS, and of the STATE that granule 0 holds; the
STATE that is never held leaves it (R317, R318; log 38). -/
def HBlock.flip (b : HBlock) (g : Nat) (e : BitVec 16) : HBlock :=
  let code : BitVec 2 := (match b.state with | .empty => 0 | .deferred => 1 | .full => 2) ^^^ e.extractLsb' 7 2
  { b with
    odd := b.odd.set g (b.tagOf g ^^^ e.setWidth 6), pois := setBit b.pois g (b.pois.getLsbD g ^^ e.getLsbD 6)
    state := if g ≠ 0 ∨ code = 3 then b.state else if code = 0 then .empty else if code = 1 then .deferred else .full }

/-- A granule that decodes to what was not stored (R317): the decoder changes one symbol of three or more wrong ones and finds the
word good, so every read gives the wrong data, and counts one corrected error. -/
def State.miscorrect (s : State) (gran : Nat) (errs : AMap (BitVec 16)) (k : Nat) (v : BitVec 16) : State :=
  let all := addError errs k v
  let s := s.flipData gran all
  let s := match all.find 32 with
    | some e => s.setHblk (64 * gran) ((s.hblk (64 * gran)).flip (gran % 32) e)
    | none => s
  { s with hbmFailing := s.hbmFailing.set gran [(k, v)] }

/-- A stored symbol of an HBM granule goes wrong by so many bits (R317; log 38): one wrong symbol is corrected, two are detected,
three or more are detected or miscorrected. -/
def failHbm (gran sym : Nat) (err : BitVec 16) (s : State) : Host.Outcome State Fault Refusal :=
  if gran < 2 ^ 33 ∧ sym < 36 then
    let errs := addError (s.hbmFailing.getD gran []) sym err
    if errs.isEmpty then .next { s with hbmFailing := s.hbmFailing.erase gran }
    else
      match if errs.length < 3 then none else Config.miscorrect gran errs with
      | some (k, v) => .next (s.miscorrect gran errs k v)
      | none => .next { s with hbmFailing := s.hbmFailing.set gran errs }
  else .fault .notEnabled

/-- A tile has ceased to work: the test of the next bring-up finds it (R370; log 100). -/
def failTile (die row pos : Nat) (s : State) : Host.Outcome State Fault Refusal :=
  if die < 4 ∧ row < 16 ∧ pos < 21 then .next { s with badTiles := s.badTiles ++ [(die, row, pos)] } else .fault .notEnabled

/-- A step of the next bring-up will fail (R369). -/
def failBoot (step : Nat) (s : State) : Host.Outcome State Fault Refusal :=
  .next { s with bootFault := if step = 0 then none else some step }

/-- The management flash ceases to take what is written to it, or takes it again (R371). -/
def failFlash (on : Bool) (s : State) : Host.Outcome State Fault Refusal := .next { s with flashStuck := on }

end physical

section device

/-- A cold reset (R368): tiles, domains and HBM are lost; what the host holds, the management flash, the fuses and what is
physical are not. -/
def State.cold (s : State) : State :=
  { State.reset with
    free := s.free, inputs := s.inputs, flash := s.flash, tripped := s.tripped, pkgid := s.pkgid, hostMem := s.hostMem
    hostPois := s.hostPois, cxlMem := s.cxlMem, cxlPois := s.cxlPois
    fuseMap := s.fuseMap, badTiles := s.badTiles, bootFault := s.bootFault, flashStuck := s.flashStuck
    dieTemp := s.dieTemp, hbmTemp := s.hbmTemp }

/-- COLD_RESET (R368). -/
def execColdReset (s : State) : Host.Outcome State Fault Refusal := .next s.cold

/-- The defects that a boot maps (R370): those of the fuses, and the tiles that fail its test. -/
def State.found (s : State) : List (Nat × Nat × Nat) := (s.fuseMap ++ s.badTiles).eraseDups

/-- A die row that holds two defective tiles (R370). -/
def rowLost (l : List (Nat × Nat × Nat)) : Bool := l.any fun d => l.any fun e => d.1 == e.1 && d.2.1 == e.2.1 && d.2.2 != e.2.2

/-- The physical place in its die row of a visible tile (R370): from the defect outward the row is shifted by one toward the spare,
which is the last of its 21 (PRESUMED, log 100). -/
def State.physical (s : State) (x y : Nat) : Nat :=
  let col := x % 20
  if s.defects.any fun d => d.1 == dieOf x y && d.2.1 == y % 16 && decide (d.2.2 ≤ col) then col + 1 else col

/-- What the management flash holds after the write of step 5 (R371). -/
def State.flashWritten (s : State) : BitVec 16 := if s.flashStuck then s.flash else s.flash + 1

/-- The step of bring-up that fails first, if one does (R369 to R371). -/
def State.failingStep (s : State) : Option Nat :=
  let fails (k : Nat) : Bool :=
    s.bootFault == some k || (k == 3 && rowLost s.found) || (k == 5 && s.flashWritten != s.flash + 1)
  (List.range 8).find? fun k => decide (1 ≤ k) && fails k

/-- The steps of bring-up before one (R319, R339, R369 to R371): 3 maps the defects, 4 writes HBM, 5 advances INCARN, which is
loaded from what the flash reads back, 6 trains the ports and announces (log 8), 7 sets READY. -/
def State.bootSteps (s : State) (upTo : Nat) : State :=
  let s := if 3 < upTo then { s with defects := s.found } else s
  let s := if 4 < upTo then { s with hbmMem := [], hbmBlk := [], hbmFailing := [], ctls := [] } else s
  let s := if 5 < upTo then { s with flash := s.flashWritten, incarn := s.flashWritten } else s
  let s := if 6 < upTo then { s with ports := (List.range 32).map fun p => (p, Port.fresh) }.announceAll else s
  if 7 < upTo then { s with kiln := { s.kiln with ready := true, sampleAt := s.cycle + 1 } } else s

/-- BRING_UP (R369): every step in order, or those before the one that fails, which halts it; a failure of step 5 other than
its read-back comes before the write. -/
def execBringUp (s : State) : Host.Outcome State Fault Refusal :=
  if !s.kiln.booting then .fault .notEnabled
  else
    let s := { s with kiln := { s.kiln with booting := false } }
    match s.failingStep with
    | some k => let s := s.bootSteps k; .next { s with kiln := { s.kiln with halted := true } }
    | none => .next (s.bootSteps 8)

/-- THERMAL_TRIP (R377): recorded in the flash; the module takes a cold reset. -/
def execThermalTrip (s : State) : Host.Outcome State Fault Refusal := .next { s.cold with tripped := true }

/-- A temperature limit reached by a die's junction or by a stack, in thousandths of °C (R376). -/
def State.hot (s : State) (die stack : Nat) : Bool :=
  (s.dieTemp.any fun p => decide (die ≤ p.2)) || s.hbmTemp.any fun p => decide (stack ≤ p.2)

/-- Throttling for the temperature (R376): a die or a stack has reached 95 °C. -/
def State.throttles (s : State) : Bool := s.hot 95000 95000

/-- The level set (R375): the next change comes 10 µs later at the earliest. -/
def State.setLevel (s : State) (level : Nat) : State := { s with level, levelAt := s.time + 10 * usUnits }

/-- THROTTLE_CHANGE (R375, R376): a level from 8 to 16, at most once per 10 µs, and below 16 while the temperature asks for
it. -/
def execThrottleChange (level : Nat) (s : State) : Host.Outcome State Fault Refusal :=
  if 8 ≤ level ∧ level ≤ 16 ∧ s.levelAt ≤ s.time ∧ ¬(level = 16 ∧ s.throttles = true) then .next (s.setLevel level)
  else .fault .notEnabled

/-- The temperature controllers throttle (R375, R376): a hot die or stack at the full level; the level that they select is free
(log 3). -/
def hotThrottle (s : State) : Host.Outcome State Fault Refusal :=
  if s.throttles = true ∧ s.level = 16 ∧ s.levelAt ≤ s.time then
    .next (s.tick1.setLevel (8 + Config.throttleLevel s.free % 8))
  else .fault .notEnabled

/-- A die or a stack has a temperature, in thousandths of °C (R376). -/
def readTemperature (hbm : Bool) (n deg : Nat) (s : State) : Host.Outcome State Fault Refusal :=
  if n < (if hbm then 8 else 4) then
    .next (if hbm then { s with hbmTemp := s.hbmTemp.set n deg } else { s with dieTemp := s.dieTemp.set n deg })
  else .fault .notEnabled

/-- The limits of the thermal trip are reached (R376): a junction at 110 °C or a stack at 105 °C. -/
def State.trips (s : State) : Bool := s.hot 110000 105000

/-- D3HOT_ENTRY (R373): while a domain is resident the module reports D3hot and runs on. -/
def execD3hotEntry (s : State) : Host.Outcome State Fault Refusal :=
  if s.power = .d0 then .next { s with power := .d3hot } else .fault .notEnabled

/-- D3COLD_ENTRY (R373): everything is lost; leaving D3cold is a cold reset. -/
def execD3coldEntry (s : State) : Host.Outcome State Fault Refusal := .next { s.cold with power := .d3cold }

/-- A domain that is on the array, or on its way to it or from it; one that is saved or has not been placed is not (R373,
R382). -/
def DomStatus.resident (st : DomStatus) : Bool :=
  match st with
  | .saved | .pending => false
  | _ => true

/-- The tile clock is stopped in D3hot once no domain is resident (R373). -/
def State.stopped (s : State) : Bool := s.power == .d3hot && !s.doms.any fun p => p.2.status.resident

/-- The module has no power: in D3cold (R373), and after a thermal trip or a reset until the temperatures are below the limits again
(R376, R377; DESIGN CHOICE, log 101). -/
def State.unpowered (s : State) : Bool := s.power == .d3cold || (s.kiln.booting && s.trips)

/-- Every channel in self-refresh, with its contents (R329, R373). -/
def State.hbmAsleep (s : State) : State :=
  (List.range 8).foldl (fun s n =>
    s.updCtl n fun c => { c with sleeping := (List.range 64).map (64 * n + ·), waking := [] }) s

/-- The stopped clock has a channel awake that no request waits for (R329, R373). -/
def State.canSleep (s : State) : Bool :=
  ((List.range 8).any fun n => (s.ctl n).sleeping.length != 64) && (List.range 8).all fun n => (s.ctl n).queue.isEmpty

/-- D0_ENTRY (R373): from D3hot without bring-up, the HBM as the stopped clock has left it; from D3cold a cold reset. -/
def execD0Entry (s : State) : Host.Outcome State Fault Refusal :=
  match s.power with
  | .d0 => .fault .notEnabled
  | .d3hot => .next { s with power := .d0 }
  | .d3cold => .next s.cold

end device

end Sys2Proof.Machine
end

