-- ==== Sys2Proof/Machine/Dispatch.lean ====
section
/-! DEFINITION. The dispatch of the rows of the opcode table: one arm per constructor, each the direct call of its
meaning. -/

namespace Sys2Proof.Machine

/-- The meaning of one row. -/
def exec (i : Instr) (s : State) : Host.Outcome State Fault Refusal :=
  match i with
  | .add st d a b => Sys2Proof.Machine.execAdd st d a b s
  | .sub st d a b => Sys2Proof.Machine.execSub st d a b s
  | .and st d a b => Sys2Proof.Machine.execAnd st d a b s
  | .or st d a b => Sys2Proof.Machine.execOr st d a b s
  | .xor st d a b => Sys2Proof.Machine.execXor st d a b s
  | .andn st d a b => Sys2Proof.Machine.execAndn st d a b s
  | .shl st d a b => Sys2Proof.Machine.execShl st d a b s
  | .shr st d a b => Sys2Proof.Machine.execShr st d a b s
  | .sra st d a b => Sys2Proof.Machine.execSra st d a b s
  | .slt st d a b => Sys2Proof.Machine.execSlt st d a b s
  | .sltu st d a b => Sys2Proof.Machine.execSltu st d a b s
  | .seq st d a b => Sys2Proof.Machine.execSeq st d a b s
  | .sne st d a b => Sys2Proof.Machine.execSne st d a b s
  | .min st d a b => Sys2Proof.Machine.execMin st d a b s
  | .max st d a b => Sys2Proof.Machine.execMax st d a b s
  | .minu st d a b => Sys2Proof.Machine.execMinu st d a b s
  | .maxu st d a b => Sys2Proof.Machine.execMaxu st d a b s
  | .sel st d a b => Sys2Proof.Machine.execSel st d a b s
  | .clz st d a => Sys2Proof.Machine.execClz st d a s
  | .ctz st d a => Sys2Proof.Machine.execCtz st d a s
  | .popc st d a => Sys2Proof.Machine.execPopc st d a s
  | .sextB st d a => Sys2Proof.Machine.execSextB st d a s
  | .sextH st d a => Sys2Proof.Machine.execSextH st d a s
  | .sextW st d a => Sys2Proof.Machine.execSextW st d a s
  | .bfx st d a b => Sys2Proof.Machine.execBfx st d a b s
  | .bfxS st d a b => Sys2Proof.Machine.execBfxS st d a b s
  | .bfi st d a b => Sys2Proof.Machine.execBfi st d a b s
  | .padd st d a b => Sys2Proof.Machine.execPadd st d a b s
  | .ptagx st d a => Sys2Proof.Machine.execPtagx st d a s
  | .ptags st d a b => Sys2Proof.Machine.execPtags st d a b s
  | .addi st d a imm => Sys2Proof.Machine.execAddi st d a imm s
  | .andi st d a imm => Sys2Proof.Machine.execAndi st d a imm s
  | .ori st d a imm => Sys2Proof.Machine.execOri st d a imm s
  | .xori st d a imm => Sys2Proof.Machine.execXori st d a imm s
  | .shli st d a imm => Sys2Proof.Machine.execShli st d a imm s
  | .shri st d a imm => Sys2Proof.Machine.execShri st d a imm s
  | .srai st d a imm => Sys2Proof.Machine.execSrai st d a imm s
  | .slti st d a imm => Sys2Proof.Machine.execSlti st d a imm s
  | .sltiu st d a imm => Sys2Proof.Machine.execSltiu st d a imm s
  | .paddi st d a imm => Sys2Proof.Machine.execPaddi st d a imm s
  | .ptagi st d a imm => Sys2Proof.Machine.execPtagi st d a imm s
  | .lui st d imm => Sys2Proof.Machine.execLui st d imm s
  | .addpc st d imm => Sys2Proof.Machine.execAddpc st d imm s
  | .mul st d a b => Sys2Proof.Machine.execMul st d a b s
  | .mulh st d a b => Sys2Proof.Machine.execMulh st d a b s
  | .mulhu st d a b => Sys2Proof.Machine.execMulhu st d a b s
  | .div st d a b => Sys2Proof.Machine.execDiv st d a b s
  | .divu st d a b => Sys2Proof.Machine.execDivu st d a b s
  | .rem st d a b => Sys2Proof.Machine.execRem st d a b s
  | .remu st d a b => Sys2Proof.Machine.execRemu st d a b s
  | .beq st a b off => Sys2Proof.Machine.execBeq st a b off s
  | .bne st a b off => Sys2Proof.Machine.execBne st a b off s
  | .blt st a b off => Sys2Proof.Machine.execBlt st a b off s
  | .bge st a b off => Sys2Proof.Machine.execBge st a b off s
  | .bltu st a b off => Sys2Proof.Machine.execBltu st a b off s
  | .bgeu st a b off => Sys2Proof.Machine.execBgeu st a b off s
  | .jal st d off => Sys2Proof.Machine.execJal st d off s
  | .jalr st d a imm => Sys2Proof.Machine.execJalr st d a imm s
  | .jr st a imm => Sys2Proof.Machine.execJr st a imm s
  | .ldb st d a off => Sys2Proof.Machine.execLdb st d a off s
  | .ldh st d a off => Sys2Proof.Machine.execLdh st d a off s
  | .ldw st d a off => Sys2Proof.Machine.execLdw st d a off s
  | .ldd st d a off => Sys2Proof.Machine.execLdd st d a off s
  | .ldbu st d a off => Sys2Proof.Machine.execLdbu st d a off s
  | .ldhu st d a off => Sys2Proof.Machine.execLdhu st d a off s
  | .ldwu st d a off => Sys2Proof.Machine.execLdwu st d a off s
  | .ldp st d a off => Sys2Proof.Machine.execLdp st d a off s
  | .stb st d a off => Sys2Proof.Machine.execStb st d a off s
  | .sth st d a off => Sys2Proof.Machine.execSth st d a off s
  | .stw st d a off => Sys2Proof.Machine.execStw st d a off s
  | .std st d a off => Sys2Proof.Machine.execStd st d a off s
  | .stp st d a off => Sys2Proof.Machine.execStp st d a off s
  | .bopen st a off => Sys2Proof.Machine.execBopen st a off s
  | .bcommit st a off => Sys2Proof.Machine.execBcommit st a off s
  | .bclr st d a off => Sys2Proof.Machine.execBclr st d a off s
  | .bwait st a off => Sys2Proof.Machine.execBwait st a off s
  | .bstat st d a off => Sys2Proof.Machine.execBstat st d a off s
  | .barm st d a off => Sys2Proof.Machine.execBarm st d a off s
  | .bpois st a off => Sys2Proof.Machine.execBpois st a off s
  | .bfill st d a off => Sys2Proof.Machine.execBfill st d a off s
  | .cld st ord disp d a => Sys2Proof.Machine.execCld st ord disp d a s
  | .cst st ord disp a b => Sys2Proof.Machine.execCst st ord disp a b s
  | .cadd st ord disp d a b => Sys2Proof.Machine.execCadd st ord disp d a b s
  | .cmin st ord disp d a b => Sys2Proof.Machine.execCmin st ord disp d a b s
  | .cmax st ord disp d a b => Sys2Proof.Machine.execCmax st ord disp d a b s
  | .cminu st ord disp d a b => Sys2Proof.Machine.execCminu st ord disp d a b s
  | .cmaxu st ord disp d a b => Sys2Proof.Machine.execCmaxu st ord disp d a b s
  | .cand st ord disp d a b => Sys2Proof.Machine.execCand st ord disp d a b s
  | .cor st ord disp d a b => Sys2Proof.Machine.execCor st ord disp d a b s
  | .cxor st ord disp d a b => Sys2Proof.Machine.execCxor st ord disp d a b s
  | .cxchg st ord disp d a b => Sys2Proof.Machine.execCxchg st ord disp d a b s
  | .ccas st ord disp d a b => Sys2Proof.Machine.execCcas st ord disp d a b s
  | .cdecf st ord disp d a => Sys2Proof.Machine.execCdecf st ord disp d a s
  | .fence st kind scope a => Sys2Proof.Machine.execFence st kind scope a s
  | .tbar st => Sys2Proof.Machine.execTbar st s
  | .sync st => Sys2Proof.Machine.execSync st s
  | .yield st => Sys2Proof.Machine.execYield st s
  | .tend st => Sys2Proof.Machine.execTend st s
  | .spawn st d a imm => Sys2Proof.Machine.execSpawn st d a imm s
  | .phase st d => Sys2Proof.Machine.execPhase st d s
  | .await st d a imm => Sys2Proof.Machine.execAwait st d a imm s
  | .abinit st d a imm => Sys2Proof.Machine.execAbinit st d a imm s
  | .eli st d pos imm => Sys2Proof.Machine.execEli st d pos imm s
  | .emov st d a => Sys2Proof.Machine.execEmov st d a s
  | .emovg st d a => Sys2Proof.Machine.execEmovg st d a s
  | .vadd st ty rm d a b k z => Sys2Proof.Machine.execVadd st ty rm d a b k z s
  | .vsub st ty rm d a b k z => Sys2Proof.Machine.execVsub st ty rm d a b k z s
  | .vmul st ty rm d a b k z => Sys2Proof.Machine.execVmul st ty rm d a b k z s
  | .vfma st ty rm d a b k z => Sys2Proof.Machine.execVfma st ty rm d a b k z s
  | .vfms st ty rm d a b k z => Sys2Proof.Machine.execVfms st ty rm d a b k z s
  | .vfnma st ty rm d a b k z => Sys2Proof.Machine.execVfnma st ty rm d a b k z s
  | .vmin st ty rm d a b k z => Sys2Proof.Machine.execVmin st ty rm d a b k z s
  | .vmax st ty rm d a b k z => Sys2Proof.Machine.execVmax st ty rm d a b k z s
  | .vabs st ty rm d a k z => Sys2Proof.Machine.execVabs st ty rm d a k z s
  | .vneg st ty rm d a k z => Sys2Proof.Machine.execVneg st ty rm d a k z s
  | .vand st ty rm d a b k z => Sys2Proof.Machine.execVand st ty rm d a b k z s
  | .vor st ty rm d a b k z => Sys2Proof.Machine.execVor st ty rm d a b k z s
  | .vxor st ty rm d a b k z => Sys2Proof.Machine.execVxor st ty rm d a b k z s
  | .vshl st ty d a b k z => Sys2Proof.Machine.execVshl st ty d a b k z s
  | .vshr st ty d a b k z => Sys2Proof.Machine.execVshr st ty d a b k z s
  | .vsra st ty d a b k z => Sys2Proof.Machine.execVsra st ty d a b k z s
  | .vadds st ty d a b k z => Sys2Proof.Machine.execVadds st ty d a b k z s
  | .vsubs st ty d a b k z => Sys2Proof.Machine.execVsubs st ty d a b k z s
  | .vdot st ty rm d a b k z => Sys2Proof.Machine.execVdot st ty rm d a b k z s
  | .vbcast st ty rm d a k z => Sys2Proof.Machine.execVbcast st ty rm d a k z s
  | .vext st ty rm d a b => Sys2Proof.Machine.execVext st ty rm d a b s
  | .vins st ty rm d a b => Sys2Proof.Machine.execVins st ty rm d a b s
  | .vmov st ty rm d a k z => Sys2Proof.Machine.execVmov st ty rm d a k z s
  | .vrcp st ty rm d a k z => Sys2Proof.Machine.execVrcp st ty rm d a k z s
  | .vrsq st ty rm d a k z => Sys2Proof.Machine.execVrsq st ty rm d a k z s
  | .vsqrt st ty rm d a k z => Sys2Proof.Machine.execVsqrt st ty rm d a k z s
  | .vexp2 st ty rm d a k z => Sys2Proof.Machine.execVexp2 st ty rm d a k z s
  | .vlog2 st ty rm d a k z => Sys2Proof.Machine.execVlog2 st ty rm d a k z s
  | .vdiv st ty rm d a b k z => Sys2Proof.Machine.execVdiv st ty rm d a b k z s
  | .vcmpeq st ty d a b k z => Sys2Proof.Machine.execVcmpeq st ty d a b k z s
  | .vcmpne st ty d a b k z => Sys2Proof.Machine.execVcmpne st ty d a b k z s
  | .vcmplt st ty d a b k z => Sys2Proof.Machine.execVcmplt st ty d a b k z s
  | .vcmple st ty d a b k z => Sys2Proof.Machine.execVcmple st ty d a b k z s
  | .vsel st ty d a b k => Sys2Proof.Machine.execVsel st ty d a b k s
  | .vclass st ty d a k z => Sys2Proof.Machine.execVclass st ty d a k z s
  | .vcvt st dst src rm d a part z => Sys2Proof.Machine.execVcvt st dst src rm d a part z s
  | .vqdx st rm d a b => Sys2Proof.Machine.execVqdx st rm d a b s
  | .vdq st d a b => Sys2Proof.Machine.execVdq st d a b s
  | .vqmx st rm d a b => Sys2Proof.Machine.execVqmx st rm d a b s
  | .vpack st rm d a => Sys2Proof.Machine.execVpack st rm d a s
  | .vunpk st d a => Sys2Proof.Machine.execVunpk st d a s
  | .vperm st ty d a b k z => Sys2Proof.Machine.execVperm st ty d a b k z s
  | .vrot st ty d a b k z => Sys2Proof.Machine.execVrot st ty d a b k z s
  | .vred st ty op rm d a k z => Sys2Proof.Machine.execVred st ty op rm d a k z s
  | .vscan st ty op rm d a k z => Sys2Proof.Machine.execVscan st ty op rm d a k z s
  | .vcompr st ty d a k z => Sys2Proof.Machine.execVcompr st ty d a k z s
  | .viota st d k z => Sys2Proof.Machine.execViota st d k z s
  | .vld st v a off => Sys2Proof.Machine.execVld st v a off s
  | .vst st v a off => Sys2Proof.Machine.execVst st v a off s
  | .vlds st v a off => Sys2Proof.Machine.execVlds st v a off s
  | .vsts st v a off => Sys2Proof.Machine.execVsts st v a off s
  | .vgath st v a off => Sys2Proof.Machine.execVgath st v a off s
  | .vscat st v a off => Sys2Proof.Machine.execVscat st v a off s
  | .kand st d a b => Sys2Proof.Machine.execKand st d a b s
  | .kor st d a b => Sys2Proof.Machine.execKor st d a b s
  | .kxor st d a b => Sys2Proof.Machine.execKxor st d a b s
  | .knot st d a => Sys2Proof.Machine.execKnot st d a s
  | .kpop st d a => Sys2Proof.Machine.execKpop st d a s
  | .kmov st d a => Sys2Proof.Machine.execKmov st d a s
  | .kmovG st d a => Sys2Proof.Machine.execKmovG st d a s
  | .mzero st n => Sys2Proof.Machine.execMzero st n s
  | .mld st n a => Sys2Proof.Machine.execMld st n a s
  | .mst st n a => Sys2Proof.Machine.execMst st n a s
  | .mma st n a b z => Sys2Proof.Machine.execMma st n a b z s
  | .mmat st n a b z => Sys2Proof.Machine.execMmat st n a b z s
  | .mmas st n a b z => Sys2Proof.Machine.execMmas st n a b z s
  | .macc st n src => Sys2Proof.Machine.execMacc st n src s
  | .mwait st n => Sys2Proof.Machine.execMwait st n s
  | .mwaitAll st => Sys2Proof.Machine.execMwaitAll st s
  | .mstat st d n clr => Sys2Proof.Machine.execMstat st d n clr s
  | .xsend st a b => Sys2Proof.Machine.execXsend st a b s
  | .xmcast st a b => Sys2Proof.Machine.execXmcast st a b s
  | .xget st ord a b => Sys2Proof.Machine.execXget st ord a b s
  | .xput st ord a b => Sys2Proof.Machine.execXput st ord a b s
  | .xfeed st ord a b => Sys2Proof.Machine.execXfeed st ord a b s
  | .xcomb st op ord a b => Sys2Proof.Machine.execXcomb st op ord a b s
  | .xroute st a b => Sys2Proof.Machine.execXroute st a b s
  | .xclose st => Sys2Proof.Machine.execXclose st s
  | .xrecv st a => Sys2Proof.Machine.execXrecv st a s
  | .xrecvRoute st a => Sys2Proof.Machine.execXrecvRoute st a s
  | .xend st => Sys2Proof.Machine.execXend st s
  | .xwait st a => Sys2Proof.Machine.execXwait st a s
  | .xwaitRecv st a => Sys2Proof.Machine.execXwaitRecv st a s
  | .pitch st ord b => Sys2Proof.Machine.execPitch st ord b s
  | .pitchq st ord a b => Sys2Proof.Machine.execPitchq st ord a b s
  | .mfc st d cw => Sys2Proof.Machine.execMfc st d cw s
  | .mtc st cw a => Sys2Proof.Machine.execMtc st cw a s
  | .rdcyc st d => Sys2Proof.Machine.execRdcyc st d s
  | .rdret st d => Sys2Proof.Machine.execRdret st d s
  | .jlog st d a w ret => Sys2Proof.Machine.execJlog st d a w ret s
  | .ptst st d a => Sys2Proof.Machine.execPtst st d a s
  | .ptstV st d a => Sys2Proof.Machine.execPtstV st d a s
  | .ptstAcc st d a => Sys2Proof.Machine.execPtstAcc st d a s
  | .tagget st d a imm => Sys2Proof.Machine.execTagget st d a imm s
  | .tagset st d a imm => Sys2Proof.Machine.execTagset st d a imm s
  | .idle st d a => Sys2Proof.Machine.execIdle st d a s
  | .hnote st d a code => Sys2Proof.Machine.execHnote st d a code s
  | .trap st a code => Sys2Proof.Machine.execTrap st a code s
  | .eret st => Sys2Proof.Machine.execEret st s
  | .eretEnd st => Sys2Proof.Machine.execEretEnd st s
  | .brk st code => Sys2Proof.Machine.execBrk st code s
  | .cIll d a f2 => Sys2Proof.Machine.execCIll d a f2 s
  | .cAdd st d a => Sys2Proof.Machine.execCAdd st d a s
  | .cSub st d a => Sys2Proof.Machine.execCSub st d a s
  | .cMov st d a => Sys2Proof.Machine.execCMov st d a s
  | .cAnd st d a => Sys2Proof.Machine.execCAnd st d a s
  | .cOr st d a => Sys2Proof.Machine.execCOr st d a s
  | .cXor st d a => Sys2Proof.Machine.execCXor st d a s
  | .cAddi d imm => Sys2Proof.Machine.execCAddi d imm s
  | .cShli d imm => Sys2Proof.Machine.execCShli d imm s
  | .cShri d imm => Sys2Proof.Machine.execCShri d imm s
  | .cLdd d imm => Sys2Proof.Machine.execCLdd d imm s
  | .cStd d imm => Sys2Proof.Machine.execCStd d imm s
  | .cBeqz d imm => Sys2Proof.Machine.execCBeqz d imm s
  | .cBnez d imm => Sys2Proof.Machine.execCBnez d imm s
  | .cJ off => Sys2Proof.Machine.execCJ off s
  | .cRet => Sys2Proof.Machine.execCRet s
  | .resultLanding dom rank ctx => Sys2Proof.Machine.execResultLanding dom rank ctx s
  | .storePerform dom rank => Sys2Proof.Machine.execStorePerform dom rank s
  | .cellPerform dom rank => Sys2Proof.Machine.execCellPerform dom rank s
  | .tagsetEvent dom rank => Sys2Proof.Machine.execTagsetEvent dom rank s
  | .vqdxListEvent dom rank => Sys2Proof.Machine.execVqdxListEvent dom rank s
  | .bfillCommit dom rank ctx => Sys2Proof.Machine.execBfillCommit dom rank ctx s
  | .trapEntry dom rank => Sys2Proof.Machine.execTrapEntry dom rank s
  | .journal dom rank => Sys2Proof.Machine.execJournal dom rank s
  | .waiterService dom rank => Sys2Proof.Machine.execWaiterService dom rank s
  | .engineReadEnd dom rank => Sys2Proof.Machine.execEngineReadEnd dom rank s
  | .matrixComputeStart dom rank => Sys2Proof.Machine.execMatrixComputeStart dom rank s
  | .matrixComputeDone dom rank => Sys2Proof.Machine.execMatrixComputeDone dom rank s
  | .matrixMoveStart dom rank => Sys2Proof.Machine.execMatrixMoveStart dom rank s
  | .matrixMoveDone dom rank => Sys2Proof.Machine.execMatrixMoveDone dom rank s
  | .mstBlockCommit dom rank => Sys2Proof.Machine.execMstBlockCommit dom rank s
  | .idleWake dom rank ctx => Sys2Proof.Machine.execIdleWake dom rank ctx s
  | .voteWindowWaitEnd dom rank => Sys2Proof.Machine.execVoteWindowWaitEnd dom rank s
  | .boundary dom => Sys2Proof.Machine.execBoundary dom s
  | .straggler dom => Sys2Proof.Machine.execStraggler dom s
  | .preemptDone dom => Sys2Proof.Machine.execPreemptDone dom s
  | .restore dom => Sys2Proof.Machine.execRestore dom s
  | .migrationStreamDone dom => Sys2Proof.Machine.execMigrationStreamDone dom s
  | .forwardRetire dom => Sys2Proof.Machine.execForwardRetire dom s
  | .placementPlan => Sys2Proof.Machine.execPlacementPlan s
  | .placementGrant => Sys2Proof.Machine.execPlacementGrant s
  | .timeSliceExpiry dom => Sys2Proof.Machine.execTimeSliceExpiry dom s
  | .releaseDrainDone dom => Sys2Proof.Machine.execReleaseDrainDone dom s
  | .feedCommit dom rank feed => Sys2Proof.Machine.execFeedCommit dom rank feed s
  | .routedFinish dom rank => Sys2Proof.Machine.execRoutedFinish dom rank s
  | .putArrive msg => Sys2Proof.Machine.execPutArrive msg s
  | .getArrive msg => Sys2Proof.Machine.execGetArrive msg s
  | .reply msg => Sys2Proof.Machine.execReply msg s
  | .combine msg => Sys2Proof.Machine.execCombine msg s
  | .invoke msg => Sys2Proof.Machine.execInvoke msg s
  | .answer msg => Sys2Proof.Machine.execAnswer msg s
  | .retryAfter msg => Sys2Proof.Machine.execRetryAfter msg s
  | .retryTimer msg => Sys2Proof.Machine.execRetryTimer msg s
  | .routedUnit msg => Sys2Proof.Machine.execRoutedUnit msg s
  | .closingCount msg => Sys2Proof.Machine.execClosingCount msg s
  | .announce pkg inc => Sys2Proof.Machine.execAnnounce pkg inc s
  | .announcePeriodic => Sys2Proof.Machine.execAnnouncePeriodic s
  | .requestResend req => Sys2Proof.Machine.execRequestResend req s
  | .flitRoute => Sys2Proof.Machine.execFlitRoute s
  | .starve x y => Sys2Proof.Machine.execStarve x y s
  | .linkFlit port bytes => Sys2Proof.Machine.execLinkFlit port bytes s
  | .portRetrain port ok => Sys2Proof.Machine.execPortRetrain port ok s
  | .walkComplete walk => Sys2Proof.Machine.execWalkComplete walk s
  | .stalledRecordWrite slice => Sys2Proof.Machine.execStalledRecordWrite slice s
  | .invalidateComplete => Sys2Proof.Machine.execInvalidateComplete s
  | .hbmWaiterService ctl => Sys2Proof.Machine.execHbmWaiterService ctl s
  | .scrub ctl => Sys2Proof.Machine.execScrub ctl s
  | .refresh ctl => Sys2Proof.Machine.execRefresh ctl s
  | .selfRefreshEntry pch => Sys2Proof.Machine.execSelfRefreshEntry pch s
  | .extentAdded ext port base len => Sys2Proof.Machine.execExtentAdded ext port base len s
  | .extentReleaseRequest ext => Sys2Proof.Machine.execExtentReleaseRequest ext s
  | .hostWrite space addr bytes => Sys2Proof.Machine.execHostWrite space addr bytes s
  | .hostRead space addr len => Sys2Proof.Machine.execHostRead space addr len s
  | .cmdtail value => Sys2Proof.Machine.execCmdtail value s
  | .direct offset bytes => Sys2Proof.Machine.execDirect offset bytes s
  | .evhead value => Sys2Proof.Machine.execEvhead value s
  | .bar0RegisterWrite offset value => Sys2Proof.Machine.execBar0RegisterWrite offset value s
  | .launch => Sys2Proof.Machine.execLaunch s
  | .launchReenter => Sys2Proof.Machine.execLaunchReenter s
  | .release => Sys2Proof.Machine.execRelease s
  | .continueHold => Sys2Proof.Machine.execContinue s
  | .extend => Sys2Proof.Machine.execExtend s
  | .breakStragglers => Sys2Proof.Machine.execBreak s
  | .faultCompleteRetry => Sys2Proof.Machine.execFaultCompleteRetry s
  | .faultCompleteAbort => Sys2Proof.Machine.execFaultCompleteAbort s
  | .invalidateRange => Sys2Proof.Machine.execInvalidateRange s
  | .invalidatePkgid => Sys2Proof.Machine.execInvalidatePkgid s
  | .tableRoot => Sys2Proof.Machine.execTableRoot s
  | .handler => Sys2Proof.Machine.execHandler s
  | .memstateClear => Sys2Proof.Machine.execMemstateClear s
  | .memstatePublish => Sys2Proof.Machine.execMemstatePublish s
  | .slice => Sys2Proof.Machine.execSlice s
  | .counterRead => Sys2Proof.Machine.execCounterRead s
  | .counterReset => Sys2Proof.Machine.execCounterReset s
  | .health => Sys2Proof.Machine.execHealth s
  | .attest => Sys2Proof.Machine.execAttest s
  | .portmap => Sys2Proof.Machine.execPortmap s
  | .peer => Sys2Proof.Machine.execPeer s
  | .configScrub => Sys2Proof.Machine.execConfigScrub s
  | .configIdleEntry => Sys2Proof.Machine.execConfigIdleEntry s
  | .migrate => Sys2Proof.Machine.execMigrate s
  | .extentReleased => Sys2Proof.Machine.execExtentReleased s
  | .coldReset => Sys2Proof.Machine.execColdReset s
  | .bringUp => Sys2Proof.Machine.execBringUp s
  | .thermalTrip => Sys2Proof.Machine.execThermalTrip s
  | .throttleChange level => Sys2Proof.Machine.execThrottleChange level s
  | .d3hotEntry => Sys2Proof.Machine.execD3hotEntry s
  | .d3coldEntry => Sys2Proof.Machine.execD3coldEntry s
  | .d0Entry => Sys2Proof.Machine.execD0Entry s
  | .illegalEncoding => Sys2Proof.Machine.execIllegalEncoding s
  | .fetchBounds => Sys2Proof.Machine.execFetchBounds s
  | .handlerLockClear dom => Sys2Proof.Machine.execHandlerLockClear dom s

end Sys2Proof.Machine
end

