-- ==== Sys2Proof/Machine/Step.lean ====
section
/-! DEFINITION. The step of the package: which row of the opcode table runs next (R244, R299), the fetch of an instruction
(R70), the issue arbiter (R66, R79, R144, R299), and the cycle that passes when no row is due. -/

namespace Sys2Proof.Machine

section fetch

/-- What a fetch finds at a PC (R14, R70): an address outside CODE, or the bits of an instruction, its length and what it
decodes to. -/
inductive Fetched where
  | bounds (addr : Nat)
  | word (bits : BitVec 32) (len : Nat) (instr : Option Instr)
  deriving DecidableEq, Repr

/-- The fetch at a PC (R70): the second halfword only where the first asks for it. -/
def Tile.fetch (t : Tile) (pc : Nat) : Fetched :=
  let code (o : Nat) : Bool := decide (o + 2 ≤ 2 ^ 20) && t.carve.region o == .code
  if !code pc then .bounds pc
  else
    let bytes := t.sram.readBytes pc 4
    let h := natOfBytes (bytes.take 2)
    if h % 4 = 3 then
      if !code (pc + 2) then .bounds (pc + 2)
      else .word (BitVec.ofNat 32 (natOfBytes bytes)) 4 ((decodeBytes bytes).map Prod.fst)
    else .word (BitVec.ofNat 32 h) 2 ((decodeBytes bytes).map Prod.fst)

/-- The granules that a fetch at a PC reads (R38, R70). -/
def Tile.fetchGrans (t : Tile) (pc : Nat) : List Nat :=
  match t.fetch pc with
  | .bounds _ => []
  | .word _ len _ => if pc / 64 = (pc + len - 1) / 64 then [pc / 64] else [pc / 64, (pc + len - 1) / 64]

/-- The fetch of a context reads its granules (R38): a failing one is poisoned, but for a fetch on a wrong path, which leaves
nothing (R85). -/
def State.fetchRead (s : State) (c : Cur) (t : Tile) : State :=
  let x := t.ctx c.ctx
  if t.failing.isEmpty || x.wrong.isSome then s
  else s.updTile c.dom c.rank fun t => t.readFail (t.fetchGrans x.th.pc.toNat)

/-- The state in which a context acts on the bits that it has fetched. -/
def State.acting (s : State) (c : Cur) (bits : BitVec 32) (len : Nat) : State := { s with cur := c, bits, ilen := len }

/-- The instruction of a context fetched, decoded and run: its meaning, or ILLEGAL, or the trap of the fetch. -/
def State.runAt (s : State) (c : Cur) (f : Fetched) : Host.Outcome State Fault Refusal :=
  match f with
  | .bounds a => exec .fetchBounds { s.acting c 0 4 with fetchAddr := a }
  | .word bits len (some i) => exec i (s.acting c bits len)
  | .word bits len none => exec .illegalEncoding (s.acting c bits len)

end fetch

section arbiter

/-- A context may issue, or complete the instruction that it holds (R117, R142, R222, R239). -/
def Busy.goes : Busy → Bool
  | .none | .pitchDone _ _ | .tbar true | .idleDone _ => true
  | _ => false

/-- STALL skips are spent (R79, R299): between instructions, and while an instruction that has issued is under way. -/
def Busy.skipping : Busy → Bool
  | .none | .drain | .fill _ _ _ _ | .event => true
  | _ => false

/-- A hold at issue that leaves its mark: it uses no cycle (R142, R222, R299). -/
def Busy.holds : Busy → Bool
  | .tbar false | .pitch _ => true
  | _ => false

/-- A context that waits in the arbiter's order (R299): ready, not used in this cycle, and with no trap to take once its
branch resolves (R85). -/
def Ctx.waits (c : Ctx) (now : Nat) : Bool :=
  c.run == .ready && decide (c.spent ≤ now) && c.th.specTrap.isNone

/-- The context is passed over for a STALL skip (R79). -/
def Ctx.skips (c : Ctx) : Bool := decide (0 < c.th.skips) && c.busy.skipping

/-- A candidate of this cycle (R299): it has a STALL skip to spend, or it may issue now. -/
def Ctx.candidate (c : Ctx) (now : Nat) : Bool :=
  c.waits now && (c.skips || (c.busy.goes && decide (c.notBefore ≤ now)))

/-- The slots that are candidates, in the order of R299: under deterministic mode from the rotation pointer on (R66). -/
def Tile.nextSlot (t : Tile) (det : Bool) (now : Nat) : Option Nat :=
  if det then ((List.range 16).map fun i => (t.rotation + i) % 16).find? fun i => (t.ctx i).candidate now
  else
    slotNums.foldl (fun best i =>
      if !(t.ctx i).candidate now then best
      else match best with
        | some j => if (t.ctx i).last < (t.ctx j).last then some i else best
        | none => some i) none

/-- The candidate to which a tile offers the cycle (R12, R299). -/
def Domain.offer (d : Domain) (t : Tile) (now : Nat) : Option Nat :=
  if t.issuedAt = now + 1 then none
  else if (t.ctx 17).candidate now then some 17
  else if now < d.startAt then none
  else if d.phase.getLsbD 0 then
    if !d.inserted && (t.ctx 16).candidate now then some 16 else none
  else t.nextSlot d.launch.det now

/-- The context is passed over after a YIELD (R144). -/
def Tile.yielding (t : Tile) (c : Ctx) : Bool :=
  c.yieldFor.any fun j => (t.ctx j).run == .ready && decide ((t.ctx j).last ≤ c.last)

/-- An opportunity passed over: a STALL skip is spent (R79). -/
def Ctx.pass (c : Ctx) (now : Nat) : Ctx :=
  { c with spent := now + 1
           th := if c.busy.skipping then { c.th with skips := c.th.skips - 1 } else c.th }

/-- The context has used the cycle: its instruction issued, completed, trapped or parked, and was not held. -/
def Ctx.used (c c' : Ctx) : Bool :=
  c.th.retired != c'.th.retired || c.th.pc != c'.th.pc || c.run != c'.run || c.last != c'.last
    || (c.busy != c'.busy && !c'.busy.holds) || c.th.specTrap != c'.th.specTrap

/-- The tile after an issue: no other context issues in this cycle; the rotation and, unless an IDLE only completes, the
counts of IDLE follow (R66, R79, R239). -/
def Tile.issued (t : Tile) (det : Bool) (now i : Nat) (ends : Bool) : Tile :=
  let t := { t with issuedAt := now + 1, rotation := if det && decide (i < 16) then (i + 1) % 16 else t.rotation }
  if det && !ends then t.countPassed (some i) else t

/-- The wait of an IDLE is over, and it completes (R239). -/
def Busy.isIdleDone : Busy → Bool
  | .idleDone _ => true
  | _ => false

/-- The state after a context has been offered a cycle. -/
def State.afterIssue (s : State) (c : Cur) (det : Bool) (old : Ctx) : State :=
  s.updTile c.dom c.rank fun t => if old.used (t.ctx c.ctx) then t.issued det s.cycle c.ctx old.busy.isIdleDone else t

/-- One cycle offered to a context: a skip, or its instruction. -/
def State.offerTo (s : State) (c : Cur) (det : Bool) (t : Tile) : Host.Outcome State Fault Refusal :=
  let x := t.ctx c.ctx
  if x.skips || t.yielding x then
    .next (s.updTile c.dom c.rank fun t => t.setCtx c.ctx (x.pass s.cycle))
  else
    match (s.fetchRead c t).runAt c (t.fetch x.th.pc.toNat) with
    | .next u => .next (u.afterIssue c det x)
    | o => o

/-- The first tile of a running domain that offers a cycle, with its context. -/
def State.issuerIn (s : State) (k : Nat) : Option (Cur × Bool × Tile) :=
  match s.doms.find k with
  | none => none
  | some d =>
    if d.status = .running then
      d.tiles.keys.findSome? fun r =>
        match d.tiles.find r with
        | none => none
        | some t => (d.offer t s.cycle).map fun i => (⟨k, r, i⟩, d.launch.det, t)
    else none

/-- The first tile that offers a cycle, with its context. -/
def State.issuer (s : State) : Option (Cur × Bool × Tile) := s.doms.keys.findSome? s.issuerIn

end arbiter

section rows

/-- A row of the hardware, as step tries it. -/
abbrev Row := State → Host.Outcome State Fault Refusal

/-- The next state of the first row of a list that is due. -/
def firstDueRow (s : State) : List Row → Option State
  | [] => none
  | f :: t =>
    match f s with
    | .next u => some u
    | _ => firstDueRow s t

/-- The meaning of an input. -/
def Input.run : Input → Row
  | .announce pkg inc => execAnnounce pkg inc
  | .linkFlit port bytes => execLinkFlit port bytes
  | .portRetrain port ok => execPortRetrain port ok
  | .extentAdded ext port base len => execExtentAdded ext port base len
  | .extentReleaseRequest ext => execExtentReleaseRequest ext
  | .hostWrite space addr bytes => execHostWrite space addr bytes
  | .hostRead space addr len => execHostRead space addr len
  | .cmdtail value => execCmdtail value
  | .direct offset bytes => execDirect offset bytes
  | .evhead value => execEvhead value
  | .bar0RegisterWrite offset value => execBar0RegisterWrite offset value
  | .coldReset => execColdReset
  | .thermalTrip => execThermalTrip
  | .throttleChange level => execThrottleChange level
  | .sramError dom rank gran on => failSram dom rank gran on
  | .hbmError gran sym err => failHbm gran sym err
  | .bar0Read offset => readBar0 offset
  | .configRead offset len => readConfig offset len
  | .temperature hbm n deg => readTemperature hbm n deg
  | .tileDefect die row pos => failTile die row pos
  | .bootFailure step => failBoot step
  | .flashFault on => failFlash on
  | .d3hotEntry => execD3hotEntry
  | .d3coldEntry => execD3coldEntry
  | .d0Entry => execD0Entry

/-- A write of the register that moves the BAR2 window (R342). -/
def Input.movesWindow : Input → Bool
  | .bar0RegisterWrite 0x50 _ => true
  | _ => false

/-- The access of the host to HBM that comes next, with its blocks: it is due, and no write of the window's register that is due
comes before it. The host's accesses and those writes keep their order. -/
def State.hostFirst (s : State) : Option (List Nat) :=
  match s.inputs.find? fun p => decide (p.1 ≤ s.cycle) && (p.2.movesWindow || (s.hostRange p.2).isSome) with
  | some p => (s.hostRange p.2).map fun r => blocksOf r.1 r.2
  | none => none

/-- The host's access to HBM waits for its turn at the controllers of its blocks (R321, R328, R329). -/
def State.hostHeld (s : State) : Bool := s.hostFirst.any fun l => !s.turn .host l

/-- The host's access to HBM reaches the controllers of its blocks (R321, R328, R329). -/
def State.hostReach (s : State) : Option State :=
  match s.hostFirst with
  | some l => if l.all (s.listed .host) then none else some (s.reach .host l)
  | none => none

/-- The input that is due: what comes first, but for the accesses to HBM and the writes of their window where these wait. -/
def State.dueInput (s : State) : Option (Nat × Input) :=
  s.inputs.find? fun p =>
    decide (p.1 ≤ s.cycle) && !((p.2.movesWindow || (s.hostRange p.2).isSome) && s.hostHeld)

/-- An input taken from those to come; an access to HBM leaves the controllers as it acts. -/
def State.takeInput (s : State) (p : Nat × Input) : State :=
  let t := { s with inputs := s.inputs.erase p }
  match s.hostRange p.2 with
  | some r => t.leaveCtls .host (blocksOf r.1 r.2)
  | none => t

/-- An input that is due: its row, or nothing where the row is not possible. -/
def State.inputStep (s : State) : Option State :=
  match s.hostReach with
  | some u => some u
  | none =>
    match s.dueInput with
    | none => none
    | some p =>
      match p.2.run (s.takeInput p) with
      | .next u => some u
      | _ => some (s.takeInput p)

/-- An input that acts on a module without power (R368, R373): what brings the power back, what the host does to its own memory, and
what is physical. -/
def Input.withoutPower : Input → Bool
  | .hostWrite .hostMemory _ _ | .hostRead .hostMemory _ _ | .coldReset | .d0Entry | .temperature _ _ _ | .tileDefect _ _ _
  | .bootFailure _ | .flashFault _ => true
  | _ => false

/-- The row of a message that has arrived, or whose delay is over (place 1 of R244; reads come later). -/
def arrivalRow (id : Nat) (m : Msg) : List Row :=
  if m.waitUntil.isSome then [execRetryTimer id]
  else
    match m.kind with
    | .put => [execPutArrive id]
    | .reply => [execReply id]
    | .combine => [execCombine id]
    | .invoke => [execInvoke id]
    | .answer => [execAnswer id]
    | .retryAfter => [execRetryAfter id]
    | .unit => [execRoutedUnit id]
    | .close => [execClosingCount id]
    | .get => []

/-- The row of a read that has arrived: at a tile, or elsewhere. -/
def readRow (atTile : Bool) (id : Nat) (m : Msg) : List Row :=
  let here : Bool := match m.dst with | .tile _ _ => atTile | .darzan _ => false | _ => !atTile
  if m.kind = .get && m.waitUntil.isNone && here then [execGetArrive id] else []

/-- The commits of a tile's feeds. -/
def feedRows (dom rank : Nat) (t : Tile) : List Row := t.cmds.keys.map fun req => execFeedCommit dom rank req

/-- The rows of a tile's engines (place 1 of R244). -/
def engineRows (dom rank : Nat) (t : Tile) : List Row :=
  [execEngineReadEnd dom rank] ++ feedRows dom rank t ++ [execWaiterService dom rank] ++
    [execRoutedFinish dom rank, mstWriteRow dom rank, execMstBlockCommit dom rank, execMatrixComputeDone dom rank, execMatrixMoveDone dom rank,
     execMatrixComputeStart dom rank, execMatrixMoveStart dom rank]

/-- A branch of the tile resolves: the wrong path is squashed, or the trap of the right one is taken (R85, R119). -/
def resolveRow (dom rank ctx : Nat) (s : State) : Host.Outcome State Fault Refusal :=
  match s.tile? dom rank with
  | none => .fault .notEnabled
  | some t =>
    let c := t.ctx ctx
    match c.wrong with
    | some w =>
      if w.resolveAt ≤ s.cycle then .next (s.updTile dom rank fun t => t.squash s.cycle ctx) else .fault .notEnabled
    | none =>
      match c.th.specTrap with
      | some x => if c.th.specUntil ≤ s.cycle then .next (takeSpecTrap s dom rank x) else .fault .notEnabled
      | none => .fault .notEnabled

/-- The rows of a context that come before its issue. -/
def ctxRows (dom rank ctx : Nat) : List Row := [execResultLanding dom rank ctx, resolveRow dom rank ctx]

/-- The rows of a tile's stores, cells and supervisor (places 2 and 3 of R244). -/
def storeRows (dom rank : Nat) : List Row :=
  [execStorePerform dom rank] ++ ctxNums.map (fillWriteRow dom rank) ++ ctxNums.map (execBfillCommit dom rank)
    ++ [execCellPerform dom rank, execTagsetEvent dom rank, execVqdxListEvent dom rank]
    ++ ctxNums.flatMap (ctxRows dom rank)
    ++ [execVoteWindowWaitEnd dom rank, execTrapEntry dom rank, execJournal dom rank]

/-- The tiles of the domains that a test admits. -/
def State.tilesWhere (s : State) (p : DomStatus → Bool) (f : Nat → Nat → Tile → List Row) : List Row :=
  s.doms.flatMap fun (d : Nat × Domain) =>
    if p d.2.status then d.2.tiles.flatMap fun (t : Nat × Tile) => f d.1 t.1 t.2 else []

/-- A domain whose engines work (R264, R274, R280); the exchange and fabric commands that a halted domain had accepted go on (log
109). -/
def DomStatus.works : DomStatus → Bool
  | .saving _ => true
  | .releasing _ _ => false
  | st => st.placed

/-- The rows of a domain's sequencer and of Kiln's work on it. -/
def domainRows (dom : Nat) : List Row :=
  [execHandlerLockClear dom, execPreemptDone dom, execRestore dom, execMigrationStreamDone dom, execTimeSliceExpiry dom,
   execReleaseDrainDone dom, execBoundary dom, snapshotRow dom, execStraggler dom]

/-- The row of a command by OP and operands (R346): none where no row has the OP. -/
def commandRow (w : List Word) : Option Row :=
  match (wordAt w 0).toNat % 256 with
  | 0x01 => some (if (wordAt w 2).getLsbD 63 then execLaunchReenter else execLaunch)
  | 0x02 => some execRelease
  | 0x03 => some execContinue
  | 0x04 => some execExtend
  | 0x05 => some execBreak
  | 0x06 => some (if (wordAt w 2).getLsbD 0 then execFaultCompleteAbort else execFaultCompleteRetry)
  | 0x07 => some (if (wordAt w 2).getLsbD 63 then execInvalidatePkgid else execInvalidateRange)
  | 0x08 => some execTableRoot
  | 0x09 => some execHandler
  | 0x0A => some (if fld (wordAt w 3) 1 0 = 2 then execMemstatePublish else execMemstateClear)
  | 0x0B => some execSlice
  | 0x0C => some execCounterRead
  | 0x0D => some execCounterReset
  | 0x0E => some execHealth
  | 0x0F => some execAttest
  | 0x10 => some execPortmap
  | 0x11 => some execPeer
  | 0x12 => some (if wordAt w 1 = 2 then execConfigIdleEntry else execConfigScrub)
  | 0x13 => some execMigrate
  | 0x14 => some execExtentReleased
  | _ => none

/-- Kiln takes its next command and decodes it (R344 to R346); an OP that no command has is BAD-COMMAND. -/
def commandStep (s : State) : Host.Outcome State Fault Refusal :=
  match s.nextCommand with
  | none => .fault .notEnabled
  | some (w, s) =>
    match commandRow w with
    | some row => row s
    | none => .next (s.endCommand.finish w 0x01 0)

/-- Kiln's rows. -/
def State.kilnRows (s : State) : List Row :=
  [hotThrottle, commandStep, execInvalidateComplete, execPlacementPlan, execPlacementGrant]
    ++ s.doms.keys.flatMap domainRows ++ s.vacating.map fun v => execForwardRetire v.dom

/-- The rows of the controllers' own work, of the translation slices and of the fabric. -/
def State.memoryRows (s : State) : List Row :=
  s.walks.keys.map execWalkComplete ++ s.slices.keys.map execStalledRecordWrite
    ++ s.ctls.keys.map execHbmWaiterService
    ++ (if s.kiln.ready then (List.range 8).flatMap fun c => [execScrub c, execRefresh c] else [])
    ++ (if s.kiln.idleEntry then (List.range 512).map execSelfRefreshEntry else [])
    ++ [execAnnouncePeriodic] ++ s.awaiting.map fun a => execRequestResend a.xid

/-- The network's rows: the routers while there is anything to move, and STARVE. -/
def State.networkRows (s : State) : List Row :=
  (if s.netBusy then [execFlitRoute] else [])
    ++ s.starveCnt.keys.map fun k => execStarve (k % 40) (k / 40)

/-- The controllers may service one waiter in each cycle (R323). -/
def State.rowsBefore (s : State) : List Row :=
  s.networkRows ++ (s.msgs.flatMap fun (p : Nat × Msg) => arrivalRow p.1 p.2)
    ++ s.tilesWhere DomStatus.works engineRows ++ s.kilnRows
    ++ (s.msgs.flatMap fun (p : Nat × Msg) => readRow false p.1 p.2)
    ++ s.tilesWhere (fun st => st == .running) fun d r _ => storeRows d r

/-- The rows that come after the issue in a cycle: reads by engines and remote agents (place 5 of R244), and work whose
place is not stated. -/
def State.rowsAfter (s : State) : List Row :=
  s.tilesWhere DomStatus.works (fun d r _ => [execWaiterService d r])
    ++ (s.msgs.flatMap fun (p : Nat × Msg) => readRow true p.1 p.2) ++ s.memoryRows
    ++ s.tilesWhere (fun st => st == .running) fun d r _ => ctxNums.map (execIdleWake d r)

end rows

section time

/-- The contexts of a tile at the end of a cycle: a YIELD forgets the slots that have issued or stopped being ready (R144).
-/
def Tile.pruneYield (t : Tile) : Tile :=
  t.mapCtxs fun _ c =>
    if c.yieldFor.isEmpty then c
    else { c with yieldFor := c.yieldFor.filter fun j => (t.ctx j).run == .ready && decide ((t.ctx j).last ≤ c.last) }

/-- A tile at the end of a cycle (R144, R239, R303): it drives its level from the arrival of the phase's start on. -/
def Domain.tickTile (d : Domain) (now wait : Nat) (t : Tile) : Tile :=
  let t := t.pruneYield
  let issued := slotNums.any fun i => (t.ctx i).last == now
  let t := if d.launch.det && !issued then t.countPassed none else t
  if now < d.startAt then t else d.driveVote now wait t

/-- A domain at the end of a cycle (R230, R301, R307): the numbers that its pools have freed may be taken again. -/
def Domain.tick (d : Domain) (now free : Nat) : Domain :=
  let d := d.mapTiles fun t => { t with poolPort := [], poolFreed := [] }
  if d.status = .running then
    let wait (r : Nat) : Nat := d.wait (free + r) (2048 * d.phase.toNat + r)
    let d := { d with tiles := d.tiles.map fun (p : Nat × Tile) => (p.1, d.tickTile now (wait p.1) p.2) }
    { d with cycles := d.cycles + 1, lap := if decide (d.bcastAt ≤ now) && !d.lapStopped then d.lap + 1 else d.lap }
  else if d.status.placed then { d with cycles := d.cycles + 1 }
  else d

/-- The time base after one cycle (R372, R375). -/
def State.tickTime (s : State) : State :=
  let acc := s.usAcc + 720720 / s.level
  if usUnits ≤ acc then { s with cycle := s.cycle + 1, usAcc := acc - usUnits, us := s.us + 1 }
  else { s with cycle := s.cycle + 1, usAcc := acc }

/-- The cycle ends. -/
def State.tick (s : State) : State :=
  let s := s.linkTick
  let n := (s.doms.map fun (p : Nat × Domain) => p.2.tiles.length).sum
  State.tickTime { s with
    stage := 0
    doms := s.doms.map fun (p : Nat × Domain) => (p.1, p.2.tick s.cycle (s.free + p.1 * 2048)), free := s.free + n }

end time

/-- The first row of a list that is due, in the state that has reached its place of the cycle. -/
def State.stageRow (s : State) (stage : Nat) (rows : List Row) : Option State :=
  if s.stage ≤ stage then firstDueRow { s with stage } rows else none

/-- The rows of one cycle in the order of R244: what comes before the issue, the issue, what comes after, and the end of
the cycle. A place that has passed is not gone back to in the same cycle. -/
def State.cycleStep (s : State) : Host.Outcome State Fault Refusal :=
  match s.stageRow 0 s.rowsBefore with
  | some t => .next t
  | none =>
    match if s.stage ≤ 1 then s.issuer else none with
    | some (c, det, t) => State.offerTo { s with stage := 1 } c det t
    | none =>
      match s.stageRow 2 s.rowsAfter with
      | some t => .next t
      | none => .next s.tick

/-- The rows of what goes on while the tile clock is stopped (R372, R373): Kiln's commands and the ends of what it has under way,
its announcements and the resends. -/
def State.idleRows (s : State) : List Row :=
  [commandStep, execInvalidateComplete, execAnnouncePeriodic] ++ s.doms.keys.map execHandlerLockClear
    ++ (s.vacating.map fun v => execForwardRetire v.dom) ++ s.awaiting.map fun a => execRequestResend a.xid

/-- One step while the tile clock is stopped (R372, R373): the HBM is in self-refresh but where a request waits; the Darzan ports
go on; no domain is placed, and what runs on the tile clock stands still. The model's count of cycles goes on with the time. -/
def State.idleStep (s : State) : Host.Outcome State Fault Refusal :=
  if s.canSleep then .next s.hbmAsleep
  else
    match s.stageRow 0 s.idleRows with
    | some t => .next t
    | none => .next { s.linkTick.tickTime with stage := 0 }

/-- One step of a module without power (R373): an input that acts all the same, or is lost, or the time passes. -/
def State.offStep (s : State) : State :=
  match s.inputs.find? fun p => decide (p.1 ≤ s.cycle) with
  | none => s.tickTime
  | some p =>
    let t := { s with inputs := s.inputs.erase p }
    if !p.2.withoutPower then t
    else
      match p.2.run t with
      | .next u => u
      | _ => t

/-- One step of the package: a module without power, a thermal trip (R376, R377), an input that is due, bring-up after a reset, one
row of the running cycle, or the end of the cycle. -/
def step (s : State) : Host.Outcome State Fault Refusal :=
  if s.unpowered then .next s.offStep
  else if s.trips then execThermalTrip s
  else
    match s.inputStep with
    | some t => .next t
    | none =>
      if s.kiln.booting then execBringUp s
      else if s.stopped then s.idleStep
      else s.cycleStep

section loading

/-- The context that may issue an instruction in a domain of one tile (R75): XC for the exchange instructions, SV for ERET,
slot 0 for the rest. -/
def loadCtx : Option Instr → Nat
  | some (.eret _) | some (.eretEnd _) => 17
  | some (.xsend _ _ _) | some (.xmcast _ _ _) | some (.xget _ _ _ _) | some (.xput _ _ _ _) | some (.xcomb _ _ _ _ _)
  | some (.xroute _ _ _) | some (.xclose _) | some (.xrecv _ _) | some (.xrecvRoute _ _) | some (.xend _)
  | some (.xwait _ _) | some (.xwaitRecv _ _) => 16
  | _ => 0

/-- A tile whose CODE begins with a word, with one context ready at it. -/
def loadTile (bytes : List Byte) (k : Nat) : Tile :=
  { Tile.zero with
    sram := Mem.writeBytes [] 0 bytes
    ctxs := Tile.zero.ctxs.setIfInBounds k
      { Ctx.zero with th := Tile.zero.carve.startThread 0 k 0 [], run := .ready } }

/-- The domain of one tile that withFetchWord launches (log 7): compute phase 0, or exchange phase 1 of a routed node. -/
def loadDomain (t : Tile) (odd : Bool) : Domain :=
  { Domain.zero with
    status := .running, tiles := [(0, t)], phase := if odd then 1 else 0, routed := odd, budget := 2 ^ 32 - 1
    launch := { Launch.zero with codeSize := 2048, frameSize := 1024, width := 1, height := 1, lapc := 2 ^ 32 - 1,
                                 lapx := 2 ^ 32 - 1 } }

/-- The state with an instruction where the next step fetches it (log 7): a domain of one tile, in place of a host's load
and LAUNCH, and nothing else due. -/
def State.withFetchWord (s : State) (nbits w : Nat) : State :=
  let k := loadCtx (decodeTableWord nbits w)
  { s with
    doms := [(0, loadDomain (loadTile (bytesOfNat 4 (w % 2 ^ nbits)) k) (k == 16))]
    stage := 0, inputs := [], power := .d0, dieTemp := [], hbmTemp := [], msgs := [], flits := [], starveCnt := [], vacating := []
    kiln := { s.kiln with booting := false, cmdHead := s.kiln.cmdTail, directCmd := none, cur := none, curDirect := false, places := [], invals := [] } }

end loading

end Sys2Proof.Machine
end

