-- ==== Sys2Proof/Safety.lean ====
section
/-! DEFINITION. What counts as a safe run, and the terms in which statements speak of one instruction: when it may issue
(R78 to R84), the state that its completion leaves (R79 to R81, R231), the trap and the park that it may take instead
(R39, R85, R261), and what a state that differs in one context only keeps. -/

namespace Sys2Proof

/-- The instructions that only write registers, later: the scalar and vector arithmetic, the branches, the loads and the
reads of control words, tags and metadata. -/
def Instr.registersOnly : Instr → Bool
  | .add .. | .sub .. | .and .. | .or .. | .xor .. | .andn .. | .shl .. | .shr .. | .sra .. | .slt .. | .sltu ..
  | .seq .. | .sne .. | .min .. | .max .. | .minu .. | .maxu .. | .sel .. | .clz .. | .ctz .. | .popc ..
  | .sextB .. | .sextH .. | .sextW .. | .bfx .. | .bfxS .. | .bfi .. | .padd .. | .ptagx .. | .ptags ..
  | .addi .. | .andi .. | .ori .. | .xori .. | .shli .. | .shri .. | .srai .. | .slti .. | .sltiu .. | .paddi ..
  | .ptagi .. | .lui .. | .addpc .. | .mul .. | .mulh .. | .mulhu .. | .div .. | .divu .. | .rem .. | .remu ..
  | .beq .. | .bne .. | .blt .. | .bge .. | .bltu .. | .bgeu .. | .jal .. | .jalr .. | .jr .. | .ldb ..
  | .ldh .. | .ldw .. | .ldd .. | .ldbu .. | .ldhu .. | .ldwu .. | .ldp .. | .bstat .. | .phase .. | .eli ..
  | .emov .. | .emovg .. | .vadd .. | .vsub .. | .vmul .. | .vfma .. | .vfms .. | .vfnma .. | .vmin ..
  | .vmax .. | .vabs .. | .vneg .. | .vand .. | .vor .. | .vxor .. | .vshl .. | .vshr .. | .vsra .. | .vadds ..
  | .vsubs .. | .vdot .. | .vbcast .. | .vext .. | .vins .. | .vmov .. | .vrcp .. | .vrsq .. | .vsqrt ..
  | .vexp2 .. | .vlog2 .. | .vdiv .. | .vcmpeq .. | .vcmpne .. | .vcmplt .. | .vcmple .. | .vsel .. | .vclass ..
  | .vcvt .. | .vqdx .. | .vdq .. | .vqmx .. | .vpack .. | .vunpk .. | .vperm .. | .vrot .. | .vred ..
  | .vscan .. | .vcompr .. | .viota .. | .vld .. | .vlds .. | .vgath .. | .kand .. | .kor .. | .kxor ..
  | .knot .. | .kpop .. | .kmov .. | .kmovG .. | .mfc .. | .rdcyc .. | .rdret .. | .ptst .. | .ptstV ..
  | .ptstAcc .. | .tagget .. | .cAdd .. | .cSub .. | .cMov .. | .cAnd .. | .cOr .. | .cXor .. | .cAddi ..
  | .cShli .. | .cShri .. | .cLdd .. | .cBeqz .. | .cBnez .. | .cJ .. | .cRet => true
  | _ => false

end Sys2Proof

namespace Sys2Proof.Machine

/-- A run of k steps is safe: no step of it ends in a fault or a refusal. -/
def SafeRun (k : Nat) (s : State) : Prop := ∃ t, Sys2Proof.core.run k s = .next t

/-- The acting context may issue an instruction: its tile is resident, its kind may issue it (R75), no unresolved branch
is in the way (R84), and no register it reads waits for an interlocked result, or for one of fixed latency under STALLCHK
(R80 to R82). -/
structure Ready (s : State) (e : Env) (op : Op) : Prop where
  env : s.env? = some e
  who : op.who.ok e.me = true
  branch : op.waits = true → e.speculative = false
  landed : ∀ r ∈ op.reads, r.isZero = false → ∀ p, newestPend r e.c.th.pend = some p →
    p.fixed = true ∧ e.t.stallchk = false

/-- The package with the acting tile and context replaced. -/
def Env.put (e : Env) (t : Tile) (c : Ctx) : State :=
  { e.s with
    doms := e.s.doms.set e.s.cur.dom
      { e.d with tiles := e.d.tiles.set e.s.cur.rank { t with ctxs := t.ctxs.setIfInBounds e.s.cur.ctx c } } }

/-- The acting context as an issue leaves it: on a wrong path the issue is noted (R85), and this cycle's opportunity is
used (R299). -/
def Ctx.atIssue (c : Ctx) (now : Nat) : Ctx :=
  { c with wrong := c.wrong.map fun w => { w with issued := true }, last := now, spent := now + 1 }

/-- A thread past an instruction (R79, R231): the PC, the retired count and the STALL skips. -/
def Thread.past (th : Thread) (op : Op) (pc : BitVec 20) : Thread :=
  { th with pc, retired := th.retired + 1, skips := op.st.val }

/-- The address of the next instruction in order. -/
def Env.seqPc (e : Env) (op : Op) : BitVec 20 := e.c.th.pc + BitVec.ofNat 20 op.len

/-- The result of an instruction, not yet landed (R80, R81): it names the registers that it writes but g0 and k0. -/
def Env.pending (e : Env) (op : Op) (lat : Nat) (fixed : Bool) (ws : List RegWrite) (flags : BitVec 5) : Pend where
  dests := (ws.map RegWrite.id).filter fun r => !r.isZero
  writes := ws
  land := some (e.s.cycle + lat)
  fixed
  seq := e.c.th.seq
  flags
  pc := e.c.th.pc
  major := op.major

/-- A thread with one more result that has not landed. -/
def Thread.addPend (th : Thread) (p : Pend) : Thread := { th with pend := th.pend ++ [p], seq := th.seq + 1 }

/-- The state after an instruction that completes at its issue and only writes registers, lat cycles later: nothing but
the acting context changes, and of it the results that have not landed, the PC, the retired count, the skips and the
arbiter's cycles. -/
def Env.resultPc (e : Env) (op : Op) (lat : Nat) (fixed : Bool) (ws : List RegWrite) (flags : BitVec 5)
    (pc : BitVec 20) : State :=
  e.put e.t { e.c.atIssue e.s.cycle with
    th := (e.c.th.addPend (e.pending op lat fixed ws flags)).past op pc }

/-- The state after a register result, at the next instruction in order. -/
def Env.result (e : Env) (op : Op) (lat : Nat) (ws : List RegWrite) (flags : BitVec 5) : State :=
  e.resultPc op lat true ws flags (e.seqPc op)

/-- The state after a register result whose rounding has drawn from SEED (R97). -/
def Env.seeded (e : Env) (op : Op) (lat : Nat) (fixed : Bool) (ws : List RegWrite) (flags : BitVec 5)
    (seed : BitVec 32) : State :=
  e.put e.t { e.c.atIssue e.s.cycle with
    th := ({ e.c.th.addPend (e.pending op lat fixed ws flags) with seed }).past op (e.seqPc op) }

/-- SEED after a number of draws (R36, R97). -/
def seedAfter (seed : BitVec 32) : Nat → BitVec 32
  | 0 => seed
  | n + 1 => seedStep (seedAfter seed n)

/-- The magnitude of a finite value (R89); an infinity and a NaN have none. -/
def FVal.mag : FVal → ℚ
  | .fin _ m e => m * 2 ^ e
  | _ => 0

/-- The signed value of a finite value. -/
def FVal.rat (x : FVal) : ℚ := if x.isNeg then -x.mag else x.mag

/-- An infinity. -/
def FVal.isInf : FVal → Bool
  | .inf _ => true
  | _ => false

/-- The finite value of a sign and a magnitude. -/
structure FVal.Is (x : FVal) (neg : Bool) (a : ℚ) : Prop where
  finite : x.isNan = false ∧ x.isInf = false
  sign : x.isNeg = neg
  value : x.mag = a

/-- The whole number to which a mode rounds the magnitude r of a number of a sign, n being the number drawn (R96, R97). -/
def pick (mode : Mode) (neg : Bool) (n : Nat) (r : ℚ) : Nat :=
  let lo := ⌊r⌋₊
  let f := r - lo
  let up : Bool := match mode with
    | .rne => decide (1 / 2 < f) || (decide (f = 1 / 2) && lo % 2 == 1)
    | .rtz => false
    | .rdn => neg
    | .rup => !neg
    | .sr => decide (2 ^ 16 ≤ ⌊f * 2 ^ 16⌋₊ + n)
  if f ≠ 0 ∧ up = true then lo + 1 else lo

/-- The types of the V-FN functions (R89, R91, R159): the widths of the exponent and of the mantissa, the bias, and the bits of
the largest finite magnitude and of the canonical NaN. -/
def FloatType (ty : VType) (w p : Nat) (bias : Int) (top nan : Nat) : Prop :=
  (ty, w, p, bias, top, nan) ∈ [(VType.f64, 11, 52, (1023 : Int), 0x7FEFFFFFFFFFFFFF, 0x7FF8000000000000),
    (.f32, 8, 23, 127, 0x7F7FFFFF, 0x7FC00000), (.bf16x2, 8, 7, 127, 0x7F7F, 0x7FC0), (.f16x2, 5, 10, 15, 0x7BFF, 0x7E00)]

/-- k is the whole number to which a mode rounds the real magnitude r of a number of a sign, n being the number drawn (R96,
R97). -/
def Picks (mode : Mode) (neg : Bool) (n : Nat) (r : ℝ) (k : Nat) : Prop :=
  let lo := ⌊r⌋₊
  let f := r - lo
  let up : Prop := match mode with
    | .rne => 1 / 2 < f ∨ (f = 1 / 2 ∧ lo % 2 = 1)
    | .rtz => False
    | .rdn => neg = true
    | .rup => neg = false
    | .sr => 2 ^ 16 ≤ ⌊f * 2 ^ 16⌋₊ + n
  (f ≠ 0 ∧ up → k = lo + 1) ∧ (¬(f ≠ 0 ∧ up) → k = lo)

/-- x holds the bits and the flags of a positive real magnitude a of a sign, rounded once to a float type (R90, R96 to R98). -/
def RoundedOnce (w p : Nat) (bias : Int) (top : Nat) (mode : Mode) (neg : Bool) (n : Nat) (a : ℝ) (x : Nat × Flags) :
    Prop :=
  let sign := if neg then 2 ^ (w + p) else 0
  let lg := Int.log 2 a
  let q := max (lg - p) (1 - bias - p)
  let inward : Prop := mode = .rtz ∨ (mode = .rdn ∧ neg = false) ∨ (mode = .rup ∧ neg = true)
  ∃ k j : Nat, Picks mode neg n (a / 2 ^ q) k ∧ Picks mode neg n (a / 2 ^ (lg - p)) j
    ∧ (let bits := (q - (1 - bias - p)).toNat * 2 ^ p + k
      let inexact : Prop := (k : ℝ) ≠ a / 2 ^ q
      (top < bits → x.2 = { overflow := true, inexact := true } ∧ (inward → x.1 = sign + top) ∧ (¬ inward → x.1 = sign + (top + 1)))
      ∧ (bits ≤ top → x.1 = sign + bits ∧ (x.2.inexact = true ↔ inexact)
        ∧ (x.2.underflow = true ↔ inexact ∧ (j : ℝ) * 2 ^ (lg - p) < 2 ^ (1 - bias))
        ∧ x.2.overflow = false ∧ x.2.divZero = false ∧ x.2.invalid = false))

/-- x is below y, an infinity at either end (R98, R161); no NaN is below or above anything. -/
def FVal.Below (x y : FVal) : Prop :=
  (x = .inf true ∧ y ≠ .inf true ∧ y.isNan = false) ∨ (y = .inf false ∧ x ≠ .inf false ∧ x.isNan = false)
    ∨ (x.isNan = false ∧ x.isInf = false ∧ y.isNan = false ∧ y.isInf = false ∧ x.rat < y.rat)

/-- x and y are equal, −0 and +0 among them (R161). -/
def FVal.Same (x y : FVal) : Prop :=
  (x = y ∧ x.isInf = true)
    ∨ (x.isNan = false ∧ x.isInf = false ∧ y.isNan = false ∧ y.isInf = false ∧ x.rat = y.rat)

/-- E is the largest floor(log₂ |x|) among the finite values of a list that are not zero (R100, R101). -/
def TopEx (l : List FVal) (E : Int) : Prop :=
  (∃ x ∈ l, x.mag ≠ 0 ∧ Int.log 2 x.mag = E) ∧ ∀ x ∈ l, x.mag ≠ 0 → Int.log 2 x.mag ≤ E

/-- The number drawn for the element of an index (R97). -/
def drawn (mode : Mode) (seed : BitVec 32) (i : Nat) : Nat :=
  (seedAfter seed (if mode = .sr then i + 1 else 0) >>> 16).toNat

/-- Lane l holds element i of a width, or a part of it (R27, R92). -/
def HoldsElem (w i l : Nat) : Prop := i * w / 32 ≤ l ∧ l < i * w / 32 + max 1 (w / 32)

/-- Element i of a register is poisoned: a lane that holds a part of it is (R27, R154). -/
def ElemPois (p : KWord) (w i : Nat) : Prop := ∃ l < 32, HoldsElem w i l ∧ p.getLsbD l = true

/-- t is the state after a lane-wise vector instruction (R97, R153, R154): the active elements of vD hold what g gives
for them and for the number drawn for them, the others are kept, or zero under Z; a lane's poison is that of the sources
where it is active; each active element draws once where the rounding is stochastic, and the flags of all of them land
with the result. -/
def Lanewise (e : Env) (op : Op) (lat : Nat) (d : VReg) (k : KReg) (z f64 : Bool) (w : Nat) (draws : Bool)
    (g : Nat → Nat → Nat × Flags) (pois : KWord) (t : State) : Prop :=
  let th := e.c.th
  let m := laneMask f64 (th.rk k)
  let act (i : Nat) : Bool := m.getLsbD (i * w / 32)
  let seed (n : Nat) : BitVec 32 := seedAfter th.seed (if draws then (List.range n).countP act else 0)
  let r (i : Nat) : Nat × Flags := g i (seed (i + 1) >>> 16).toNat
  ∃ v p, t = e.seeded op lat true [.v d v p]
      (Flags.all (((List.range (1024 / w)).filter act).map fun i => (r i).2)).bits (seed (1024 / w))
    ∧ (∀ i < 1024 / w, elemAt w v i
        = if act i then (r i).1 % 2 ^ w else if z then 0 else elemAt w (th.rv d) i)
    ∧ (∀ l < 32, p.getLsbD l
        = if m.getLsbD l then (pairPois f64 pois).getLsbD l else !z && (th.pv d).getLsbD l)

/-- The state after a load that completes at its issue (R38, R85, R125): the register result, and, off a wrong path, POIS of the
granules that it has read where their SRAM fails. -/
def Env.loadResult (e : Env) (op : Op) (grans : List Nat) (ws : List RegWrite) : State :=
  (e.readGrans grans).result op 4 ws 0

/-- The state after an instruction that completes at its issue and leaves its thread's registers as they are. -/
def Env.plain (e : Env) (op : Op) (pc : BitVec 20) : State :=
  e.put e.t { e.c.atIssue e.s.cycle with th := e.c.th.past op pc }

/-- The state after an instruction that changed the tile as a whole (a block event, an entry of a queue) and completes at
its issue: the acting context is read back from the tile. -/
def Env.tiled (e : Env) (op : Op) (t : Tile) : State :=
  let c := t.ctx e.s.cur.ctx
  e.put t { c with last := e.s.cycle, spent := e.s.cycle + 1, th := c.th.past op (c.th.pc + BitVec.ofNat 20 op.len) }

/-- The state in which the acting context has raised a trap and no branch of it is unresolved (R261): the trap waits for
SV, the context is trapped at its instruction, its skips are gone (R79), and its registers, PC and buffer are kept; a POISON
trap of a granule is a read of it (R38). -/
def Env.trapped (e : Env) (cause form : Nat) (tval tval2 : Word) : State :=
  e.put { e.t.trapMark (trapOf e cause form tval tval2) with traps := insTrap (trapOf e cause form tval tval2) e.t.traps }
    { e.c with th := { e.c.th with skips := 0 }, run := .trapped, busy := .none, wblk := 0, barrier := none, idle := none, last := e.s.cycle,
               spent := e.s.cycle + 1 }

/-- The pointer p, displaced by d bytes, names the aligned offset o of the tile's own SRAM (R25, R26, R123). -/
structure NamesLocal (p : Word) (d : Int) (size o : Nat) : Prop where
  space : p.toNat / 2 ^ 56 % 4 = 0
  zeros : p.toNat / 2 ^ 20 % 2 ^ 36 = 0
  offset : (o : Int) = (p.toNat % 2 ^ 20 : Nat) + d
  inside : o < 2 ^ 20
  aligned : o % size = 0

/-- The access of a register's pointer passes CheckLocal (R16, R40): the register is not poisoned, a frame address lies in
the context's own frame, and the granule's tag is the pointer's. -/
structure PassesLocal (e : Env) (a : GReg) (d : Int) (size o : Nat) : Prop where
  clean : e.c.th.pg a = false
  names : NamesLocal (e.c.th.rg a) d size o
  frame : e.t.carve.region o = .frame → e.t.carve.inFrame o size e.s.cur.ctx = true
  tag : e.t.granTag o = ptrTag (e.c.th.rg a)

/-- A store's access passes CheckLocal (R14, R23, R40): CODE is not written, and in CELL no word 1 of an arrival
barrier. -/
structure PassesStore (e : Env) (a : GReg) (d : Int) (size o : Nat) : Prop extends PassesLocal e a d size o where
  code : e.t.carve.region o ≠ .code
  word1 : e.t.carve.region o = .cell → e.t.hitsWord1 o size = false

/-- A block access that a load may make: FULL, or the context's own DEFERRED block (R40). -/
def ReadableAt (e : Env) (o : Nat) : Prop :=
  e.t.carve.region o = .block →
    (e.t.block (e.t.blockOf o)).state = .full
      ∨ ((e.t.block (e.t.blockOf o)).state = .deferred ∧ (e.t.block (e.t.blockOf o)).owner = e.s.cur.ctx)

/-- A block access that a store may make: the context's own DEFERRED block (R40). -/
def WritableAt (e : Env) (o : Nat) : Prop :=
  e.t.carve.region o = .block →
    (e.t.block (e.t.blockOf o)).state = .deferred ∧ (e.t.block (e.t.blockOf o)).owner = e.s.cur.ctx

/-- A register's pointer, moved by whole blocks, names block b of the tile under its generation (R128). -/
structure NamesBlock (e : Env) (a : GReg) (off : BitVec 11) (b : Nat) : Prop where
  clean : e.c.th.pg a = false
  names : NamesLocal (e.c.th.rg a) (2048 * off.toInt) 2048 (e.t.blockAt b)
  region : e.t.carve.region (e.t.blockAt b) = .block
  tag : ptrTag (e.c.th.rg a) = (e.t.block b).gen

/-- The context owns block b: DEFERRED, its own and not armed (R19). -/
def OwnsBlock (e : Env) (b : Nat) : Prop :=
  (e.t.block b).state = .deferred ∧ (e.t.block b).owner = e.s.cur.ctx ∧ (e.t.block b).armed = false

/-- The state after an instruction that an event completes later: the tile and the context are as given, and the
context's opportunity of this cycle is used (R299). -/
def Env.stays (e : Env) (t : Tile) (c : Ctx) : State :=
  e.put t { c with last := e.s.cycle, spent := e.s.cycle + 1 }

/-- The pointer pair of an arrival barrier: 16 aligned bytes of CELL under the granule's tag (R23, R148, R149). -/
structure NamesBarrier (e : Env) (a : GReg) (imm : BitVec 11) (o : Nat) : Prop extends
    PassesLocal e a imm.toInt 16 o where
  cell : e.t.carve.region o = .cell

/-- A lane of a vector access names an address that passes CheckLocal (R16, R40, R380): in its own frame, and under the tag
of the base register's pointer. -/
structure PassesLane (e : Env) (a : GReg) (o : Nat) : Prop where
  frame : e.t.carve.region o = .frame → e.t.carve.inFrame o 4 e.s.cur.ctx = true
  tag : e.t.granTag o = ptrTag (e.c.th.rg a)
  port : e.cellHits o 4 = false

/-- A lane of a vector load that may be read (R124, R126, R171): no buffered store of the context overlaps it, and none that
is poisoned waits for its granule. -/
structure ReadsLane (e : Env) (a : GReg) (o : Nat) : Prop extends PassesLane e a o where
  readable : ReadableAt e o
  buffer : e.c.sbHits o 4 = []
  poison : ∀ x ∈ e.c.sb, x.pois = true → x.addr / 64 ≠ o / 64

/-- Lane l of a vector store that may be written (R14, R23, R40, R127, R171, R186). -/
structure WritesLane (e : Env) (a : GReg) (v : VReg) (l o : Nat) : Prop extends PassesLane e a o where
  writable : WritableAt e o
  code : e.t.carve.region o ≠ .code
  word1 : e.t.carve.region o = .cell → e.t.hitsWord1 o 4 = false
  clean : (e.c.th.pv v).getLsbD l = true → e.t.carve.region o = .frame
  unread : e.t.carve.region o = .block → e.readHolds (e.t.blockOf o) = false

/-- A span of memory that a matrix command names (R183 to R185): aligned, in the BLOCK region, and under the generation of
every block that it touches. -/
structure NamesSpan (e : Env) (sp : Span) : Prop where
  names : NamesLocal sp.p 0 sp.align (ptrOff sp.p)
  region : e.t.carve.region (ptrOff sp.p) = .block
  inside : ptrOff sp.p + sp.size ≤ 2 ^ 20
  tag : ∀ b ∈ e.t.spanBlocks sp, (e.t.block b).gen = ptrTag sp.p

/-- A span that a matrix command may read (R185): its blocks are FULL, or the context's own and DEFERRED, and no buffered
store of the context overlaps it. -/
structure ReadsSpan (e : Env) (sp : Span) : Prop extends NamesSpan e sp where
  readable : ∀ b ∈ e.t.spanBlocks sp, (e.t.block b).state = .full
    ∨ ((e.t.block b).state = .deferred ∧ (e.t.block b).owner = e.s.cur.ctx)
  buffer : e.c.sbHits (ptrOff sp.p) sp.size = []

/-- A legal transfer word whose block count is n (R200). -/
structure TransferWord (w : Word) (n : Nat) : Prop where
  count : n = fld w 8 0
  some : n ≠ 0
  zeros : fld w 11 9 = 0 ∧ fld w 15 13 = 0 ∧ fld w 63 28 = 0

/-- n whole blocks of the tile's own SRAM that a transfer names (R201). -/
structure NamesBlocks (e : Env) (p : Word) (n : Nat) : Prop where
  names : NamesLocal p 0 2048 (ptrOff p)
  region : e.t.carve.region (ptrOff p) = .block
  inside : ptrOff p + 2048 * n ≤ 2 ^ 20
  tag : ∀ k < n, (e.t.block (e.t.blockOf (ptrOff p) + k)).gen = ptrTag p

/-- A block that may be armed for an agent (R19, R201): EMPTY, or armed for it already. -/
def Armable (e : Env) (b agent : Nat) : Prop :=
  (e.t.block b).state = .empty
    ∨ ((e.t.block b).state = .deferred ∧ (e.t.block b).armed = true ∧ (e.t.block b).owner = agent)

/-- The tile's queue of transfers has room (R202). -/
def Env.queueFree (e : Env) : Prop := (e.t.cmds.filter fun c => c.2.major == 21 && c.2.f6 != 4).length < 64

/-- What a release orders before the command is done (R203). -/
def Env.released (e : Env) (o : XOrd) : Prop :=
  ∀ sc, o = .rel sc ∨ o = .ar sc → e.fenced .rel (xscopeScope sc) [] = true

/-- One check of an instruction at its issue: what passes it, and the trap that it raises where that does not hold. -/
structure Check where
  ok : Prop
  cause : Nat
  form : Nat
  tval : Word
  tval2 : Word

/-- x is the first check of a list that fails (R78). -/
def FirstFails (l : List Check) (x : Check) : Prop :=
  ∃ before after, l = before ++ x :: after ∧ (∀ y ∈ before, y.ok) ∧ ¬ x.ok

/-- Outside SV, an instruction raises the trap of the first of its checks that fails (R78, R261). -/
def Env.Traps (e : Env) (s : State) (i : Instr) (op : Op) (l : List Check) : Prop :=
  Ready s e op → e.s.cur.ctx ≠ 17 → e.speculative = false →
    ∀ x, FirstFails l x → exec i s = .next (e.trapped x.cause x.form x.tval x.tval2)

/-- The context is held at issue: nothing changes but that its opportunity of this cycle is used (R299). -/
def Env.held (e : Env) : State := e.put e.t { e.c with spent := e.s.cycle + 1 }

/-- The context parks on block b (R39). -/
def Env.parks (e : Env) (o : Host.Outcome State Fault Refusal) (b : Nat) : Prop :=
  ∃ nb, o = .next (e.put e.t { e.c with
    run := .parked, wblk := b, last := e.s.cycle, spent := e.s.cycle + 1, notBefore := nb })

/-- A register that is an operand is not poisoned (R28, R201). -/
def Env.cleanCheck (e : Env) (r : GReg) : Check := ⟨e.c.th.pg r = false, cPoison, 0, (RegId.g r).word 0, 0⟩

/-- A condition on the instruction's fields and e registers, ILLEGAL otherwise (R181, R200). -/
def Env.legalCheck (e : Env) (ok : Prop) : Check := ⟨ok, cIllegal, 0, e.s.bits.setWidth 64, 0⟩

/-- The checks of a pointer to the tile's own SRAM displaced by d bytes (R26, R40, R123, R266): SPACE, its zero field and the
range. -/
def Env.pointerChecks (e : Env) (p : Word) (d : Int) : List Check :=
  let at_ : Int := (p.toNat % 2 ^ 20 : Nat) + d
  [⟨ptrSpace p ≠ 3, cBounds, 0, p, 0⟩,
   if e.s.cur.ctx < 16 then ⟨ptrSpace p = 0, cPhase, 1, p, accessNone 0 0⟩ else ⟨ptrSpace p = 0, cBounds, 0, p, 0⟩,
   ⟨fld p 55 20 = 0, cBounds, 0, withOff p (at_ % 2 ^ 20).toNat, 0⟩,
   ⟨0 ≤ at_ ∧ at_ < 2 ^ 20, cBounds, 2, p, BitVec.ofInt 64 d⟩]

/-- A pointer of a transfer: its SPACE and its zero fields (R26, R201). -/
def pointerCheck (p : Word) (spaces : List Nat) : Check := ⟨ptrBad p = false ∧ ptrSpace p ∈ spaces, cBounds, 0, p, 0⟩

/-- The base or VA of a block operand beyond the tile (R201). -/
def farAligned (p : Word) (opnd : Nat) : Check := ⟨fld p 10 0 = 0, cMisalign, 0, p, accessNone 0 opnd⟩

/-- The checks of a span of n blocks of the tile's own SRAM (R201). -/
def Env.blockSpanChecks (e : Env) (p : Word) (n opnd : Nat) : List Check :=
  let o := ptrOff p
  let b (k : Nat) : Nat := e.t.blockOf o + k
  [pointerCheck p [0], ⟨o % 2048 = 0, cMisalign, 0, p, e.t.access o 0 opnd⟩,
   ⟨e.t.carve.region o = .block, cBounds, 1, p, e.t.access o 0 opnd⟩,
   ⟨o + 2048 * n ≤ 2 ^ 20, cBounds, 1, p, accessNone 0 opnd⟩]
    ++ (List.range n).map fun k =>
      ⟨(e.t.block (b k)).gen = ptrTag p, cStale, 0, p, e.t.access (e.t.blockAt (b k)) 0 opnd⟩

/-- The checks of n bytes in CELL, granule by granule (R201). -/
def Env.cellSpanChecks (e : Env) (p : Word) (align n opnd : Nat) : List Check :=
  let o := ptrOff p
  let grans := (List.range ((o + n - 1) / 64 - o / 64 + 1)).map fun i => if i = 0 then o else 64 * (o / 64 + i)
  ⟨o % align = 0, cMisalign, 0, p, e.t.access o 0 opnd⟩
    :: (grans.map fun a => ⟨e.t.carve.region a = .cell, cBounds, 1, p, e.t.access a 0 opnd⟩)
    ++ grans.map fun a => ⟨e.t.granTag a = ptrTag p, cTag, 0, p, e.t.access a 0 opnd⟩

/-- The checks of destination blocks that a command arms for an agent, in ascending order (R185, R201). -/
def Env.armChecks (e : Env) (p : Word) (blocks : List Nat) (agent : Nat) : List Check :=
  blocks.map fun b =>
    ⟨Armable e b agent, if (e.t.block b).state = .full then cSecond else cOwner, 0, p, e.t.access (e.t.blockAt b) 0 0⟩

/-- The checks of a span of a matrix command (R26, R185): SPACE and zero fields, alignment, region, extent and generation. -/
def Env.matrixSpanChecks (e : Env) (sp : Span) : List Check :=
  let p := sp.p
  let o := ptrOff p
  let acc := e.t.access o 0 sp.opnd
  [⟨p.toNat / 2 ^ 56 % 4 ≠ 3, cBounds, 0, p, 0⟩,
   if e.s.cur.ctx < 16 then ⟨p.toNat / 2 ^ 56 % 4 = 0, cPhase, 1, p, accessNone 0 sp.opnd⟩
   else ⟨p.toNat / 2 ^ 56 % 4 = 0, cBounds, 0, p, 0⟩,
   ⟨p.toNat / 2 ^ 20 % 2 ^ 36 = 0, cBounds, 0, p, 0⟩, ⟨o % sp.align = 0, cMisalign, 0, p, acc⟩,
   ⟨e.t.carve.region o = .block, cBounds, 1, p, acc⟩, ⟨o + sp.size ≤ 2 ^ 20, cBounds, 1, p, accessNone 0 sp.opnd⟩]
    ++ (e.t.spanBlocks sp).map fun b =>
      ⟨(e.t.block b).gen = ptrTag p, cStale, 0, p, e.t.access (max o (e.t.blockAt b)) 0 sp.opnd⟩

/-- Tile t of domain d stands at dom and rank. -/
def State.at_ (s : State) (dom rank : Nat) (d : Domain) (t : Tile) : Prop :=
  s.doms.find dom = some d ∧ d.tiles.find rank = some t

/-- Two states hold the same memory: every byte of every tile's SRAM, of HBM, of host memory and of CXL memory. -/
def SameMemory (s t : State) : Prop :=
  (∀ d r a, (t.tile? d r).map (fun x => x.sram.read a) = (s.tile? d r).map fun x => x.sram.read a)
    ∧ (∀ a, t.hbmMem.read a = s.hbmMem.read a) ∧ (∀ a, t.hostMem.read a = s.hostMem.read a)
    ∧ (∀ a, t.cxlMem.read a = s.cxlMem.read a)

/-- Every memory of the package is in its canonical form: nonzero bytes by strictly rising address. -/
def State.MemoryCanonical (s : State) : Prop :=
  Mem.wf s.hbmMem = true ∧ Mem.wf s.hostMem = true ∧ Mem.wf s.cxlMem = true
    ∧ ∀ d ∈ s.doms, ∀ t ∈ d.2.tiles, Mem.wf t.2.sram = true

end Sys2Proof.Machine
end

