-- ==== Sys2Proof/Certificates/Slice0/Obligations.lean ====
section
/-! DEFINITION. The statements for the provers: what each instruction and each event of the hardware does, and what every
step keeps. Each says in its docstring which rules of the manual it rests on. -/

open Sys2Proof Sys2Proof.Machine

section scalar

/-- R107, R109, R110: each two-operand ALU instruction completes at its issue in every context that may issue it; the result,
poisoned when an operand is, lands one cycle later, and nothing else of the package changes. R109: CLZ, CTZ and POPC count the
bits of gA, and SEXT.B, SEXT.H and SEXT.W extend its low 8, 16 or 32 bits. R109, R110: SEL and BFI read gD beside gA and gB, and
BFX takes the field of gA that gB names, cut at bit 63. R115: PTAGX reads a pointer's TAG, and PTAGS replaces it by the low bits
of gB. R111, R112, R113, R115: the immediate forms, LUI and ADDPC; an immediate of 11 bits is signed. R76: each compact
arithmetic form is the exact alias of its 32-bit form, with a next instruction two bytes on. -/
def Obligations.ScalarResults : Prop :=
  (
    ∀ (s : State) (e : Env) (st : Stall) (d a b : GReg), Ready s e (opAB 0 st a b) →
      let x := e.c.th.rg a
      let y := e.c.th.rg b
      let n := y.toNat % 64
      let gives (i : Instr) (v : Word) : Prop :=
        exec i s = .next (e.result (opAB 0 st a b) 1 [.g d v (e.c.th.pg a || e.c.th.pg b)] 0)
      gives (.add st d a b) (x + y) ∧ gives (.sub st d a b) (x - y) ∧ gives (.and st d a b) (x &&& y)
        ∧ gives (.or st d a b) (x ||| y) ∧ gives (.xor st d a b) (x ^^^ y) ∧ gives (.andn st d a b) (x &&& ~~~ y)
        ∧ gives (.shl st d a b) (x <<< n) ∧ gives (.shr st d a b) (x >>> n)
        ∧ gives (.sra st d a b) (x.sshiftRight n)
        ∧ gives (.slt st d a b) (if x.toInt < y.toInt then 1 else 0)
        ∧ gives (.sltu st d a b) (if x.toNat < y.toNat then 1 else 0)
        ∧ gives (.seq st d a b) (if x = y then 1 else 0) ∧ gives (.sne st d a b) (if x = y then 0 else 1)
        ∧ gives (.min st d a b) (if x.toInt ≤ y.toInt then x else y)
        ∧ gives (.max st d a b) (if x.toInt ≤ y.toInt then y else x)
        ∧ gives (.minu st d a b) (if x.toNat ≤ y.toNat then x else y)
        ∧ gives (.maxu st d a b) (if x.toNat ≤ y.toNat then y else x))
  ∧ (
    ∀ (s : State) (e : Env) (st : Stall) (d a : GReg), Ready s e (opA 0 st a) →
      let x := e.c.th.rg a
      let gives (i : Instr) (v : Word) : Prop :=
        exec i s = .next (e.result (opA 0 st a) 1 [.g d v (e.c.th.pg a)] 0)
      gives (.clz st d a) (BitVec.ofNat 64 ((List.range 64).findIdx fun i => x.getLsbD (63 - i)))
        ∧ gives (.ctz st d a) (BitVec.ofNat 64 ((List.range 64).findIdx fun i => x.getLsbD i))
        ∧ gives (.popc st d a) (BitVec.ofNat 64 ((List.range 64).countP fun i => x.getLsbD i))
        ∧ gives (.sextB st d a) (BitVec.ofInt 64 ((x.setWidth 8).toInt))
        ∧ gives (.sextH st d a) (BitVec.ofInt 64 ((x.setWidth 16).toInt))
        ∧ gives (.sextW st d a) (BitVec.ofInt 64 ((x.setWidth 32).toInt))
        ∧ gives (.ptagx st d a) (BitVec.ofNat 64 (x.toNat / 2 ^ 58)))
  ∧ (
    ∀ (s : State) (e : Env) (st : Stall) (d a b : GReg),
      let th := e.c.th
      let x := th.rg a
      let pos := (th.rg b).toNat % 64
      let wid := if (th.rg b).toNat / 256 % 64 = 0 then 64 else (th.rg b).toNat / 256 % 64
      let w := min wid (64 - pos)
      let f := x.toNat / 2 ^ pos % 2 ^ w
      let m := BitVec.ofNat 64 ((2 ^ wid - 1) * 2 ^ pos)
      (Ready s e (op32 st .all false 0 [.g a, .g b, .g d]) →
        let gives (i : Instr) (v : Word) : Prop :=
          exec i s = .next (e.result (op32 st .all false 0 [.g a, .g b, .g d]) 1
            [.g d v (th.pg d || th.pg a || th.pg b)] 0)
        gives (.sel st d a b) (if th.rg d = 0 then th.rg b else x)
          ∧ gives (.bfi st d a b) ((th.rg d &&& ~~~ m) ||| ((x <<< pos) &&& m)))
      ∧ (Ready s e (opAB 0 st a b) →
        let gives (i : Instr) (v : Word) : Prop :=
          exec i s = .next (e.result (opAB 0 st a b) 1 [.g d v (th.pg a || th.pg b)] 0)
        gives (.bfx st d a b) (BitVec.ofNat 64 f)
          ∧ gives (.bfxS st d a b)
            (if 2 ^ (w - 1) ≤ f then BitVec.ofInt 64 ((f : Int) - 2 ^ w) else BitVec.ofNat 64 f)
          ∧ gives (.ptags st d a b) ((th.rg b).extractLsb' 0 6 ++ x.extractLsb' 0 58)))
  ∧ (
    ∀ (s : State) (e : Env) (st : Stall) (d a : GReg) (imm : BitVec 11) (sh : BitVec 6) (up : BitVec 19),
      let x := e.c.th.rg a
      let y := BitVec.ofInt 64 imm.toInt
      (Ready s e (opA 1 st a) →
        let gives (i : Instr) (v : Word) : Prop :=
          exec i s = .next (e.result (opA 1 st a) 1 [.g d v (e.c.th.pg a)] 0)
        gives (.addi st d a imm) (x + y) ∧ gives (.andi st d a imm) (x &&& y) ∧ gives (.ori st d a imm) (x ||| y)
          ∧ gives (.xori st d a imm) (x ^^^ y) ∧ gives (.slti st d a imm) (if x.toInt < imm.toInt then 1 else 0)
          ∧ gives (.sltiu st d a imm) (if x.toNat < y.toNat then 1 else 0)
          ∧ gives (.shli st d a sh) (x <<< sh.toNat) ∧ gives (.shri st d a sh) (x >>> sh.toNat)
          ∧ gives (.srai st d a sh) (x.sshiftRight sh.toNat)
          ∧ gives (.ptagi st d a sh) (sh ++ x.extractLsb' 0 58))
      ∧ (Ready s e (op32 st .all false 2 []) →
        exec (.lui st d up) s
          = .next (e.result (op32 st .all false 2 []) 1 [.g d (BitVec.ofInt 64 (up.toInt * 2048)) false] 0))
      ∧ (Ready s e (op32 st .all false 3 []) →
        exec (.addpc st d up) s
          = .next (e.result (op32 st .all false 3 []) 1
              [.g d (BitVec.ofInt 64 (((e.c.th.pc.toNat : Int) + 2 * up.toInt) % 2 ^ 20)) false] 0)))
  ∧ (
    ∀ (s : State) (e : Env) (st : Stall) (d a : GReg) (imm : BitVec 6),
      let th := e.c.th
      let x := th.rg d
      let y := th.rg a
      (Ready s e (op16 st 0 [.g d, .g a]) →
        let gives (i : Instr) (v : Word) : Prop :=
          exec i s = .next (e.result (op16 st 0 [.g d, .g a]) 1 [.g d v (th.pg d || th.pg a)] 0)
        gives (.cAdd st d a) (x + y) ∧ gives (.cSub st d a) (x - y) ∧ gives (.cAnd st d a) (x &&& y)
          ∧ gives (.cOr st d a) (x ||| y) ∧ gives (.cXor st d a) (x ^^^ y))
      ∧ (Ready s e (op16 st 0 [.g a]) →
        exec (.cMov st d a) s = .next (e.result (op16 st 0 [.g a]) 1 [.g d y (th.pg a)] 0))
      ∧ (Ready s e (op16 0 1 [.g d]) →
        let gives (i : Instr) (v : Word) : Prop :=
          exec i s = .next (e.result (op16 0 1 [.g d]) 1 [.g d v (th.pg d)] 0)
        gives (.cAddi d imm) (x + BitVec.ofInt 64 imm.toInt) ∧ gives (.cShli d imm) (x <<< imm.toNat)
          ∧ gives (.cShri d imm) (x >>> imm.toNat)))

/-- R114, R383: PADD and PADDI move the address field of a pointer whose zero fields are zero, when the moved address lies in
the field; of a poisoned operand they check nothing. Otherwise they raise BOUNDS: with FORM 0 for the fields, where TVAL is the
pointer as it stands and TVAL2 is 0 (log 15, the model's reading), and with FORM 2 for the range, with the displacement. -/
def Obligations.PointerAddResults : Prop :=
  ∀ (s : State) (e : Env) (st : Stall) (d a b : GReg) (imm : BitVec 11),
    let th := e.c.th
    let p := th.rg a
    let h := if ptrSpace p = 1 then 52 else 20
    let moved (dist : Word) : Int := (p.toNat % 2 ^ h : Nat) + dist.toInt
    let inField (dist : Word) : Prop := ptrBad p = false ∧ 0 ≤ moved dist ∧ moved dist < 2 ^ h
    let res (dist : Word) : Word := BitVec.ofNat 64 (p.toNat / 2 ^ h * 2 ^ h + (moved dist % 2 ^ h).toNat)
    (Ready s e (opAB 0 st a b) → (th.pg a = true ∨ th.pg b = true ∨ inField (th.rg b)) →
      exec (.padd st d a b) s
        = .next (e.result (opAB 0 st a b) 1 [.g d (res (th.rg b)) (th.pg a || th.pg b)] 0))
    ∧ (Ready s e (opA 1 st a) → (th.pg a = true ∨ inField (BitVec.ofInt 64 imm.toInt)) →
      exec (.paddi st d a imm) s
        = .next (e.result (opA 1 st a) 1 [.g d (res (BitVec.ofInt 64 imm.toInt)) (th.pg a)] 0))
    ∧ (let checks (pois : Bool) (dist : Word) : List Check := [⟨pois = true ∨ ptrBad p = false, cBounds, 0, p, 0⟩,
        ⟨pois = true ∨ (0 ≤ moved dist ∧ moved dist < 2 ^ h), cBounds, 2, p, dist⟩]
      e.Traps s (.padd st d a b) (opAB 0 st a b) (checks (th.pg a || th.pg b) (th.rg b))
        ∧ e.Traps s (.paddi st d a imm) (opA 1 st a) (checks (th.pg a) (BitVec.ofInt 64 imm.toInt)))

/-- R116, R117: MUL, MULH and MULHU land after three cycles. A division that finds the divider free takes it for 6
cycles and one for every two bits of the dividend's magnitude, and its thread issues nothing before the result. -/
def Obligations.MultiplyDivideResults : Prop :=
  ∀ (s : State) (e : Env) (st : Stall) (d a b : GReg), Ready s e (opAB 4 st a b) →
    let op := opAB 4 st a b
    let x := e.c.th.rg a
    let y := e.c.th.rg b
    let pois := e.c.th.pg a || e.c.th.pg b
    let gives (i : Instr) (v : Word) : Prop := exec i s = .next (e.result op 3 [.g d v pois] 0)
    let cycles (mag : Nat) : Nat := if y = 0 then 6 else 6 + ((Nat.size mag) + 1) / 2
    let divides (i : Instr) (mag : Nat) (v : Word) : Prop :=
      exec i s = .next (e.put { e.t with divider := ⟨e.s.cycle + cycles mag, e.s.cur.ctx, e.s.cycle⟩ }
        { e.c.atIssue e.s.cycle with
          notBefore := max e.c.notBefore (e.s.cycle + cycles mag)
          th := (e.c.th.addPend (e.pending op (cycles mag) false [.g d v pois] 0)).past op (e.seqPc op) })
    gives (.mul st d a b) (x * y) ∧ gives (.mulh st d a b) (BitVec.ofInt 64 (x.toInt * y.toInt / 2 ^ 64))
      ∧ gives (.mulhu st d a b) (BitVec.ofNat 64 (x.toNat * y.toNat / 2 ^ 64))
      ∧ (e.t.divider.freeAt ≤ e.s.cycle →
        divides (.div st d a b) x.toInt.natAbs
            (if y = 0 then BitVec.allOnes 64 else BitVec.ofInt 64 (x.toInt.tdiv y.toInt))
          ∧ divides (.rem st d a b) x.toInt.natAbs (if y = 0 then x else BitVec.ofInt 64 (x.toInt.tmod y.toInt))
          ∧ divides (.divu st d a b) x.toNat
            (if y = 0 then BitVec.allOnes 64 else BitVec.ofNat 64 (x.toNat / y.toNat))
          ∧ divides (.remu st d a b) x.toNat (if y = 0 then x else BitVec.ofNat 64 (x.toNat % y.toNat)))

end scalar

section control

/-- R84, R85, R118, R119: a branch whose operands are not poisoned and, when taken, whose target lies in the SRAM
completes at its issue; the prediction is taken for a negative offset. Predicted right, the thread goes on there and
is speculative until the third cycle after; predicted wrong, it issues on the wrong path, and what the right path has
is kept until that cycle. A further branch on a wrong path follows its prediction, and a predicted target outside the SRAM
issues nothing: the model's reading (log 11). R85, R120, R121, R107: JAL, JALR,
JR, C.J and C.RET whose target lies in the SRAM (and, through a register, is even and not poisoned) go there; a link
is the next sequential address, lands one cycle later and is discarded for g0; after a jump through a register nothing
of the thread issues before the third cycle after. R78, R146, R267, R383: where a branch, a jump or SPAWN traps: POISON on a
register that it reads (of two, gA: the model's choice, log 82), BOUNDS with FORM 2 for a target outside the SRAM that is taken,
MISALIGN for an odd one through a register. -/
def Obligations.ControlFlowResults : Prop :=
  (
    ∀ (s : State) (e : Env) (st : Stall) (a b : GReg) (off : BitVec 12) (d : GReg) (imm : BitVec 6),
      let th := e.c.th
      let branches (i : Instr) (op : Op) (off : Int) (taken : Bool) : Prop :=
        let target : Int := th.pc.toNat + 2 * off
        let inside : Prop := 0 ≤ target ∧ target < 2 ^ 20
        let there := BitVec.ofInt 20 target
        let goesOn (pc : BitVec 20) : State :=
          e.put e.t { e.c.atIssue e.s.cycle with
            th := { th with specUntil := max th.specUntil (e.s.cycle + 3) }.past op pc }
        let strays (right wrong : BitVec 20) (stuck : Option TrapInfo) : State :=
          e.put e.t { e.c.atIssue e.s.cycle with
            wrong := some ⟨{ th with pc := right, retired := th.retired + 1 }, e.s.cycle + 3, false⟩
            th := { th with specTrap := stuck }.past op wrong }
        (taken = true → inside → e.c.wrong = none →
          exec i s = .next (if off < 0 then goesOn there else strays there (e.seqPc op) none))
        ∧ (taken = false → e.c.wrong = none →
          exec i s = .next (if off < 0 then
              strays (e.seqPc op) there (if 0 ≤ target ∧ target < 2 ^ 20 then none else some (trapOf e cBounds 2 0 0))
            else goesOn (e.seqPc op)))
        ∧ ((taken = true → inside) → e.c.wrong.isSome →
          exec i s = .next (e.plain op (if off < 0 then there else e.seqPc op)))
      (Ready s e (op32 st .all false 5 [.g a, .g b]) → th.pg a = false → th.pg b = false →
        let op := op32 st .all false 5 [.g a, .g b]
        let x := th.rg a
        let y := th.rg b
        branches (.beq st a b off) op off.toInt (decide (x = y))
          ∧ branches (.bne st a b off) op off.toInt (decide (x ≠ y))
          ∧ branches (.blt st a b off) op off.toInt (decide (x.toInt < y.toInt))
          ∧ branches (.bge st a b off) op off.toInt (decide (y.toInt ≤ x.toInt))
          ∧ branches (.bltu st a b off) op off.toInt (decide (x.toNat < y.toNat))
          ∧ branches (.bgeu st a b off) op off.toInt (decide (y.toNat ≤ x.toNat)))
      ∧ (Ready s e (op16 0 5 [.g d]) → th.pg d = false →
        branches (.cBeqz d imm) (op16 0 5 [.g d]) imm.toInt (decide (th.rg d = 0))
          ∧ branches (.cBnez d imm) (op16 0 5 [.g d]) imm.toInt (decide (th.rg d ≠ 0))))
  ∧ (
    ∀ (s : State) (e : Env) (st : Stall) (d a : GReg) (off : BitVec 19) (off10 : BitVec 10) (imm : BitVec 11),
      let th := e.c.th
      let linked (op : Op) (d : GReg) (major : Nat) : Thread :=
        if d = 0 then th
        else th.addPend { e.pending op 1 true [.g d ((e.seqPc op).setWidth 64) false] 0 with major := major }
      let jumps (i : Instr) (op : Op) (d : GReg) (off : Int) : Prop :=
        let target : Int := th.pc.toNat + 2 * off
        0 ≤ target → target < 2 ^ 20 →
          exec i s = .next (e.put e.t { e.c.atIssue e.s.cycle with
            th := (linked op d 6).past op (BitVec.ofInt 20 target) })
      let jumpsTo (i : Instr) (op : Op) (d : GReg) (target : Word) : Prop :=
        target.toNat < 2 ^ 20 → target.toNat % 2 = 0 →
          exec i s = .next (e.put e.t { e.c.atIssue e.s.cycle with
            notBefore := max e.c.notBefore (e.s.cycle + 3)
            th := (linked op d 7).past op (target.setWidth 20) })
      (Ready s e (op32 st .all false 6 []) → jumps (.jal st d off) (op32 st .all false 6 []) d off.toInt)
      ∧ (Ready s e (op16 0 6 []) → jumps (.cJ off10) (op16 0 6 []) 0 off10.toInt)
      ∧ (Ready s e (op32 st .all false 7 [.g a]) → th.pg a = false →
        jumpsTo (.jalr st d a imm) (op32 st .all false 7 [.g a]) d (th.rg a + BitVec.ofInt 64 imm.toInt)
          ∧ jumpsTo (.jr st a imm) (op32 st .all false 7 [.g a]) 0 (th.rg a + BitVec.ofInt 64 imm.toInt))
      ∧ (Ready s e (op16 0 7 [.g 15]) → th.pg 15 = false → jumpsTo .cRet (op16 0 7 [.g 15]) 0 (th.rg 15)))
  ∧ (
    ∀ (s : State) (e : Env) (st : Stall) (d a b : GReg) (off : BitVec 12) (far : BitVec 19) (off10 : BitVec 10)
      (imm : BitVec 11) (near : BitVec 6),
      let th := e.c.th
      let x := th.rg a
      let y := th.rg b
      let target (takes : Prop) (off : Int) : Check :=
        let at_ : Int := th.pc.toNat + 2 * off
        ⟨takes → 0 ≤ at_ ∧ at_ < 2 ^ 20, cBounds, 2, BitVec.ofInt 64 at_, 0⟩
      let branch (i : Instr) (takes : Prop) : Prop :=
        e.Traps s i (op32 st .all false 5 [.g a, .g b]) [e.cleanCheck a, e.cleanCheck b, target takes off.toInt]
      let compact (i : Instr) (takes : Prop) : Prop :=
        e.Traps s i (op16 0 5 [.g d]) [e.cleanCheck d, target takes near.toInt]
      let through (i : Instr) (op : Op) (a : GReg) (to_ : Word) : Prop :=
        e.Traps s i op [e.cleanCheck a, ⟨to_.toNat < 2 ^ 20, cBounds, 2, to_, 0⟩,
          ⟨to_.toNat % 2 = 0, cMisalign, 0, to_, e.t.access to_.toNat 0 0⟩]
      let there := x + BitVec.ofInt 64 imm.toInt
      let jr := op32 st .all false 7 [.g a]
      branch (.beq st a b off) (x = y) ∧ branch (.bne st a b off) (x ≠ y) ∧ branch (.blt st a b off) (x.toInt < y.toInt)
        ∧ branch (.bge st a b off) (y.toInt ≤ x.toInt) ∧ branch (.bltu st a b off) (x.toNat < y.toNat)
        ∧ branch (.bgeu st a b off) (y.toNat ≤ x.toNat)
        ∧ compact (.cBeqz d near) (th.rg d = 0) ∧ compact (.cBnez d near) (th.rg d ≠ 0)
        ∧ e.Traps s (.jal st d far) (op32 st .all false 6 []) [target True far.toInt]
        ∧ e.Traps s (.cJ off10) (op16 0 6 []) [target True off10.toInt]
        ∧ through (.jalr st d a imm) jr a there ∧ through (.jr st a imm) jr a there
        ∧ through .cRet (op16 0 7 [.g 15]) 15 (th.rg 15)
        ∧ through (.spawn st d a imm) (op32 st .slots true 12 [.g a, .g 4, .g 5, .g 6, .g 7, .g 8, .g 9]) a there)

end control

section memory

/-- R40, R107, R123 to R126: a load whose access passes CheckLocal, finds its block readable, and meets no operation
of its context at the cell port completes with the bytes that its context sees; they land four cycles later, poisoned
with their granule: those of memory where no store of its context is buffered there, and otherwise of each byte's
youngest buffered store, where every byte has one. Where buffered stores leave a byte of it uncovered, an ABINIT or a
vector store overlaps it, or a poisoned frame store waits for its granule, it is held at issue and nothing changes. A
narrow load extends to 64 bits; LDP fills gD and g(D+1). The second part says the same of the bytes alone. -/
def Obligations.LoadResults : Prop :=
  (
    ∀ (s : State) (e : Env) (st : Stall) (d a : GReg) (off : BitVec 11) (imm : BitVec 6) (o : Nat) (bs : List Byte),
      let sees (size : Nat) : Prop :=
        (∀ x ∈ e.c.sb, x.pois = true → e.t.carve.region o = .frame → x.addr / 64 ≠ o / 64)
        ∧ (((∀ x ∈ e.c.sb, overlaps x.addr x.len o size = false) ∧ bs = e.t.sram.readBytes o size)
          ∨ ((∀ x ∈ e.c.sb, overlaps x.addr x.len o size = true → x.abinit = false ∧ x.vec = false) ∧ bs.length = size
            ∧ ∀ i < size, ∃ ys x zs, e.c.sb = ys ++ x :: zs ∧ overlaps x.addr x.len o size = true
              ∧ AMap.find x.data (o + i) = some (bs.getD i 0)
              ∧ ∀ z ∈ zs, overlaps z.addr z.len o size = true → AMap.find z.data (o + i) = none))
      let waits (size : Nat) : Prop :=
        (∃ x ∈ e.c.sb, x.pois = true ∧ e.t.carve.region o = .frame ∧ x.addr / 64 = o / 64)
        ∨ ∃ x ∈ e.c.sb, overlaps x.addr x.len o size = true
          ∧ (x.abinit = true ∨ x.vec = true ∨ ∃ i < size, ∀ y ∈ e.c.sb, overlaps y.addr y.len o size = true →
            AMap.find y.data (o + i) = none)
      let may (op : Op) (a : GReg) (disp : Int) (size : Nat) : Prop :=
        Ready s e op ∧ e.acquiring = false ∧ PassesLocal e a disp size o ∧ ReadableAt e o
          ∧ e.cellHits o size = false
      let loads (i : Instr) (op : Op) (size : Nat) (ws : List RegWrite) : Prop :=
        (sees size → exec i s = .next (e.loadResult op [o / 64] ws))
        ∧ (waits size → exec i s = .next (e.put e.t { e.c with spent := e.s.cycle + 1 }))
      let v := natOfBytes bs
      let op := op32 st .all false 8 [.g a]
      let signed (n : Nat) : Word := BitVec.ofInt 64 (BitVec.ofNat n v).toInt
      let p := e.t.granPois o
      (may op a off.toInt 1 →
        loads (.ldb st d a off) op 1 [.g d (signed 8) p] ∧ loads (.ldbu st d a off) op 1 [.g d (BitVec.ofNat 64 v) p])
      ∧ (may op a (off.toInt * 2) 2 →
        loads (.ldh st d a off) op 2 [.g d (signed 16) p] ∧ loads (.ldhu st d a off) op 2 [.g d (BitVec.ofNat 64 v) p])
      ∧ (may op a (off.toInt * 4) 4 →
        loads (.ldw st d a off) op 4 [.g d (signed 32) p] ∧ loads (.ldwu st d a off) op 4 [.g d (BitVec.ofNat 64 v) p])
      ∧ (may op a (off.toInt * 8) 8 → loads (.ldd st d a off) op 8 [.g d (BitVec.ofNat 64 v) p])
      ∧ (may op a (off.toInt * 16) 16 →
        loads (.ldp st d a off) op 16
          [.g d (BitVec.ofNat 64 (v % 2 ^ 64)) p, .g (d + 1) (BitVec.ofNat 64 (v / 2 ^ 64)) p])
      ∧ (may (op16 0 8 [.g 13]) 13 (8 * imm.toNat) 8 →
        loads (.cLdd d imm) (op16 0 8 [.g 13]) 8 [.g d (BitVec.ofNat 64 v) p]))
  ∧ (
    ∀ (c : Ctx) (t : Tile) (o n : Nat),
      (∀ x ∈ c.sb, x.abinit = false ∧ x.vec = false ∧ x.pois = false) →
        ((∀ x ∈ c.sb, overlaps x.addr x.len o n = false) → loadBytes c t o n = some (t.sram.readBytes o n))
        ∧ (∀ x ys, c.sb = ys ++ [x] → 0 < n → x.addr = o → x.len = n → (∀ i < n, (AMap.find x.data (o + i)).isSome) →
          loadBytes c t o n = some ((List.range n).map fun i => AMap.getD x.data (o + i) 0))
        ∧ (∀ i < n, (∃ x ∈ c.sb, overlaps x.addr x.len o n = true) → (∀ x ∈ c.sb, AMap.find x.data (o + i) = none) →
          loadBytes c t o n = none))

/-- R40, R124, R127: a store whose access passes CheckLocal, writes its own DEFERRED block where it writes a block,
and carries no poison outside the frame enters its context's store buffer when the buffer has room: its bytes are the
low bytes of gD, for STP those of gD and then of g(D+1), and memory does not change yet. -/
def Obligations.StoreResults : Prop :=
  ∀ (s : State) (e : Env) (st : Stall) (d a : GReg) (off : BitVec 11) (imm : BitVec 6) (o : Nat),
    let th := e.c.th
    let may (op : Op) (a : GReg) (disp : Int) (size : Nat) (data : List GReg) : Prop :=
      Ready s e op ∧ e.acquiring = false ∧ PassesStore e a disp size o ∧ WritableAt e o
        ∧ ((∃ r ∈ data, th.pg r = true) → e.t.carve.region o = .frame)
        ∧ (e.c.sb.filter fun x => !x.vec).length < 8 ∧ e.cellHits o size = false
        ∧ (e.t.carve.region o = .block → e.readHolds (e.t.blockOf o) = false)
    let stores (i : Instr) (op : Op) (size : Nat) (v : Nat) (pois : Bool) : Prop :=
      exec i s = .next (({ e with s := { e.s with free := e.s.free + 1 } } : Env).put { e.t with age := e.t.age + 1 }
        { e.c.atIssue e.s.cycle with
          sb := e.c.sb ++ [{ age := e.t.age, readyAt := e.s.cycle + 1 + e.delay, addr := o
                             len := size, pois, abinit := false, vec := false
                             data := (List.range size).map fun i => (o + i, BitVec.ofNat 8 (v / 256 ^ i)) }]
          th := th.past op (e.seqPc op) })
    let op := op32 st .all true 9 [.g a, .g d]
    let v := (th.rg d).toNat
    (may op a off.toInt 1 [d] → stores (.stb st d a off) op 1 v (th.pg d))
    ∧ (may op a (off.toInt * 2) 2 [d] → stores (.sth st d a off) op 2 v (th.pg d))
    ∧ (may op a (off.toInt * 4) 4 [d] → stores (.stw st d a off) op 4 v (th.pg d))
    ∧ (may op a (off.toInt * 8) 8 [d] → stores (.std st d a off) op 8 v (th.pg d))
    ∧ (may (op32 st .all true 9 [.g a, .g d, .g (d + 1)]) a (off.toInt * 16) 16 [d, d + 1] →
      stores (.stp st d a off) (op32 st .all true 9 [.g a, .g d, .g (d + 1)]) 16
        (v + 2 ^ 64 * (th.rg (d + 1)).toNat) (th.pg d || th.pg (d + 1)))
    ∧ (may (op16 0 9 [.g 13, .g d] true) 13 (8 * imm.toNat) 8 [d] →
      stores (.cStd d imm) (op16 0 9 [.g 13, .g d] true) 8 v (th.pg d))

end memory

section blocks

/-- R19, R128 to R134: the block instructions on a block that their pointer names. BOPEN takes an EMPTY block or finds
its own; BCOMMIT and BPOIS commit the context's own block once its stores are performed, BPOIS with every granule
poisoned; BCLR clears a block that no engine reads, to the tag given or the next one; BARM arms an EMPTY block; BWAIT
goes on at a FULL one; BSTAT reads the metadata word; BFILL takes the block and fills it in the sixteen cycles that
follow. -/
def Obligations.BlockResults : Prop :=
  ∀ (s : State) (e : Env) (st : Stall) (d a : GReg) (off : BitVec 11) (b : Nat), NamesBlock e a off b →
    e.acquiring = false →
    let m := e.t.block b
    let mine : Block := { m with state := .deferred, owner := e.s.cur.ctx, armed := false }
    let drained : Prop := e.c.sb = [] ∧ e.cellBusy = false
    let op1 (who : Who) : Op := op32 st who true 10 [.g a]
    let op2 : Op := op32 st .all true 10 [.g a, .g d]
    let v := e.c.th.rg d
    (Ready s e (op1 .all) →
      (m.state = .empty → exec (.bopen st a off) s = .next (e.tiled (op1 .all) (e.t.setBlock b mine)))
      ∧ (OwnsBlock e b → exec (.bopen st a off) s = .next (e.plain (op1 .all) (e.seqPc (op1 .all))))
      ∧ (OwnsBlock e b → drained →
        exec (.bcommit st a off) s = .next (e.tiled (op1 .all) (e.t.commit e.s.cycle e.det b))
          ∧ (e.readHolds b = false → exec (.bpois st a off) s
            = .next (e.tiled (op1 .all) ((e.t.setPoisAll (e.t.blockGrans b)).commit e.s.cycle e.det b))))
      ∧ exec (.bstat st d a off) s = .next (e.result (op1 .all) 4 [.g d (e.t.blockWord b) false] 0))
    ∧ (Ready s e (op1 .slots) → m.state = .full →
      exec (.bwait st a off) s = .next (e.plain (op1 .slots) (e.seqPc (op1 .slots))))
    ∧ (Ready s e { op2 with reads := if d = 0 then [.g a] else [.g a, .g d] } → e.c.th.pg d = false →
      e.beingRead b = false → (m.state ≠ .deferred ∨ (OwnsBlock e b ∧ drained)) →
      exec (.bclr st d a off) s
        = .next (e.tiled op2 (e.t.clear e.s.cycle b
            (if v.extractLsb' 0 6 ≠ 0 then v.extractLsb' 0 6 else nextTag m.gen))))
    ∧ (Ready s e op2 → e.c.th.pg d = false → m.state = .empty → 24 ≤ v.toNat → v.toNat ≤ 27 →
      exec (.barm st d a off) s = .next (e.tiled op2 ((e.t.arm b v.toNat).wakePool e.s.cycle true (some b))))
    ∧ (Ready s e op2 → e.c.th.pg d = false → (m.state = .empty ∨ OwnsBlock e b) → drained → e.readHolds b = false →
      exec (.bfill st d a off) s
        = .next (e.put (e.t.setBlock b mine) { e.c.atIssue e.s.cycle with
            busy := .fill b (e.s.cycle + 16) v 0, th := { e.c.th with skips := st.val } }))

/-- R19, R21, R39, R130: what an event leaves of the tile's blocks. A commit makes block b FULL, OWNER 31, not armed, and keeps
its generation; a clear makes it EMPTY with the new generation and takes the poison from its granules; an arm makes it DEFERRED
for its agent; none of them touches another block or a byte of memory. R19, R128, R130, R133, R266: what the block instructions
do where their row of R19 does not let them: SECOND-WRITE on a FULL block, NOT-OWNER on another's and, for BCOMMIT and BPOIS, on
an EMPTY one, with the pointer to the block; a wait on a block that is not FULL parks. R130 to R132, R186: BCLR, BARM and BFILL
trap on a poisoned gD, BARM on a number that is no agent's; BCLR and BFILL are held while an engine reads the block, or before
the context's own stores are performed. R26, R128, R267: the checks of BlockTarget come first: POISON, BOUNDS of the pointer,
MISALIGN, BOUNDS of the region, and STALE-GENERATION but for BSTAT; TVAL2 of BOUNDS with FORM 0 is the model's reading (log 15).
-/
def Obligations.BlockEventsAndRefusals : Prop :=
  (
    ∀ (t : Tile) (now b agent : Nat) (det : Bool) (gen : BitVec 6),
      let only (u : Tile) (m : Block) : Prop :=
        u.block b = m ∧ (∀ c, c ≠ b → u.block c = t.block c) ∧ u.sram = t.sram ∧ u.tags = t.tags ∧ u.bars = t.bars
      only (t.commit now det b) { t.block b with state := .full, owner := 31, armed := false }
        ∧ only (t.clear now b gen) ⟨.empty, 31, false, gen⟩
        ∧ only (t.arm b agent) { t.block b with state := .deferred, owner := agent, armed := true }
        ∧ (t.commit now det b).pois = t.pois
        ∧ (∀ g, g ∈ (t.clear now b gen).pois ↔ g ∈ t.pois ∧ g ∉ t.blockGrans b))
  ∧ (
    ∀ (s : State) (e : Env) (st : Stall) (a : GReg) (off : BitVec 11) (b : Nat), NamesBlock e a off b →
      e.acquiring = false → e.s.cur.ctx ≠ 17 →
      let m := e.t.block b
      let op (who : Who) : Op := op32 st who true 10 [.g a]
      let p := withOff (e.c.th.rg a) (e.t.blockAt b)
      let acc := e.t.access (e.t.blockAt b) 0 0
      (Ready s e (op .all) → e.c.sb = [] → e.cellBusy = false →
        (m.state = .full → exec (.bopen st a off) s = .next (e.trapped cSecond 0 p acc)
          ∧ exec (.bcommit st a off) s = .next (e.trapped cSecond 0 p acc)
          ∧ (e.readHolds b = false → exec (.bpois st a off) s = .next (e.trapped cSecond 0 p acc)))
        ∧ (m.state = .deferred → ¬ OwnsBlock e b →
          exec (.bopen st a off) s = .next (e.trapped cOwner 0 p acc)
          ∧ exec (.bcommit st a off) s = .next (e.trapped cOwner 0 p acc)
          ∧ (e.readHolds b = false → exec (.bpois st a off) s = .next (e.trapped cOwner 0 p acc))))
      ∧ (Ready s e (op .slots) → m.state ≠ .full → ∃ nb, exec (.bwait st a off) s = .next (e.put e.t { e.c with
          run := .parked, wblk := b, last := e.s.cycle, spent := e.s.cycle + 1, notBefore := nb })))
  ∧ (
    ∀ (s : State) (e : Env) (st : Stall) (d a : GReg) (off : BitVec 11) (b : Nat), NamesBlock e a off b → e.acquiring = false →
      let m := e.t.block b
      let p := withOff (e.c.th.rg a) (e.t.blockAt b)
      let acc := e.t.access (e.t.blockAt b) 0 0
      let v := e.c.th.rg d
      let drained : Prop := e.c.sb = [] ∧ e.cellBusy = false
      let one := op32 st .all true 10 [.g a]
      let two := op32 st .all true 10 [.g a, .g d]
      let clear : Op := { two with reads := if d = 0 then [.g a] else [.g a, .g d] }
      let notFull : Check := ⟨m.state ≠ .full, cSecond, 0, p, acc⟩
      let notOthers : Check := ⟨m.state = .deferred → OwnsBlock e b, cOwner, 0, p, acc⟩
      let own : Check := ⟨OwnsBlock e b, cOwner, 0, p, acc⟩
      (drained → e.Traps s (.bcommit st a off) one [notFull, own])
      ∧ (drained → e.readHolds b = false → e.Traps s (.bpois st a off) one [notFull, own])
      ∧ e.Traps s (.bclr st d a off) clear [e.cleanCheck d]
      ∧ (e.beingRead b = false → e.Traps s (.bclr st d a off) clear [e.cleanCheck d, notOthers])
      ∧ (Ready s e clear → e.c.th.pg d = false → (e.beingRead b = true ∨ (OwnsBlock e b ∧ ¬ drained)) →
        exec (.bclr st d a off) s = .next e.held)
      ∧ e.Traps s (.barm st d a off) two [e.cleanCheck d, ⟨24 ≤ v.toNat ∧ v.toNat ≤ 27, cBounds, 3, v, 0⟩,
          ⟨m.state ≠ .deferred, cOwner, 0, p, acc⟩, notFull]
      ∧ e.Traps s (.bfill st d a off) two [e.cleanCheck d, notFull]
      ∧ (drained → e.readHolds b = false → e.Traps s (.bfill st d a off) two [e.cleanCheck d, notFull, notOthers])
      ∧ (Ready s e two → e.c.th.pg d = false → m.state ≠ .full → (¬ drained ∨ e.readHolds b = true) →
        exec (.bfill st d a off) s = .next e.held))
  ∧ (
    ∀ (s : State) (e : Env) (st : Stall) (d a : GReg) (off : BitVec 11), e.acquiring = false →
      let p := e.c.th.rg a
      let disp : Int := 2048 * off.toInt
      let o := ((p.toNat % 2 ^ 20 : Nat) + disp).toNat
      let acc := e.t.access o 0 0
      let b := e.t.blockOf o
      let place := e.cleanCheck a :: e.pointerChecks p disp ++ [⟨o % 2048 = 0, cMisalign, 0, withOff p o, acc⟩,
        ⟨e.t.carve.region o = .block, cBounds, 1, withOff p o, acc⟩]
      let named := place ++ [⟨(e.t.block b).gen = ptrTag p, cStale, 0, withOff p o, acc⟩]
      let op (who : Who) (reads : List RegId) : Op := op32 st who true 10 reads
      (∀ i ∈ [Instr.bopen st a off, .bcommit st a off, .bpois st a off], e.Traps s i (op .all [.g a]) named)
        ∧ e.Traps s (.bwait st a off) (op .slots [.g a]) named ∧ e.Traps s (.bstat st d a off) (op .all [.g a]) place
        ∧ e.Traps s (.bclr st d a off) (op .all (if d = 0 then [.g a] else [.g a, .g d])) named
        ∧ e.Traps s (.barm st d a off) (op .all [.g a, .g d]) named ∧ e.Traps s (.bfill st d a off) (op .all [.g a, .g d]) named)

end blocks

section cells

/-- R135 to R138: a CELL instruction on a doubleword of CELL that is neither poisoned nor word 1 of an arrival
barrier, with operands that are not poisoned, enters the tile's cell port with its operands as they stand; the result
of all but CST and CDECF is interlocked, and CDECF, whose trigger names a block, holds its context until it is
performed. R136: what each CELL operation makes of the cell, from its old value, its operand and CCAS's expected
value. -/
def Obligations.CellResults : Prop :=
  (
    ∀ (s : State) (e : Env) (st : Stall) (ord : Ord) (disp : BitVec 3) (d a b : GReg) (o tb : Nat),
      let th := e.c.th
      let may (op : Op) (operands : List GReg) : Prop :=
        Ready s e op ∧ e.acquiring = false ∧ PassesStore e a (8 * disp.toNat) 8 o ∧ e.t.carve.region o = .cell
          ∧ (∀ r ∈ operands, th.pg r = false) ∧ e.t.granPois o = false
      let entry (fn : CellFn) (opnd expect : Word) (dest : GReg) : CellOp :=
        { ctx := e.s.cur.ctx, seq := th.seq, age := e.t.age, fn, ptr := withOff (th.rg a) o, addr := o, opnd, expect, ord
          dest, stall := st }
      let queues (i : Instr) (op : Op) (q : CellOp) (dests : List RegId) : Prop :=
        exec i s = .next (e.put { e.t with cellQ := e.t.cellQ ++ [q] } { e.c.atIssue e.s.cycle with
          th := (th.addPend { e.pending op 0 false [] 0 with
            dests := dests.filter (fun r => !r.isZero), land := none }).past op (e.seqPc op) })
      let op1 := op32 st .all true 11 [.g a]
      let op2 := op32 st .all true 11 [.g a, .g b]
      let op3 := op32 st .all true 11 [.g a, .g b, .g d]
      let takes (i : Instr) (fn : CellFn) : Prop := queues i op2 (entry fn (th.rg b) 0 d) [.g d]
      (may op1 [] → queues (.cld st ord disp d a) op1 (entry .ld 0 0 d) [.g d])
      ∧ (may op2 [b] → queues (.cst st ord disp a b) op2 (entry .st (th.rg b) 0 0) []
        ∧ takes (.cadd st ord disp d a b) .add ∧ takes (.cmin st ord disp d a b) .min
        ∧ takes (.cmax st ord disp d a b) .max ∧ takes (.cminu st ord disp d a b) .minu
        ∧ takes (.cmaxu st ord disp d a b) .maxu ∧ takes (.cand st ord disp d a b) .and
        ∧ takes (.cor st ord disp d a b) .or ∧ takes (.cxor st ord disp d a b) .xor
        ∧ takes (.cxchg st ord disp d a b) .xchg)
      ∧ (may op3 [b, d] →
        queues (.ccas st ord disp d a b) op3 (entry .cas (th.rg b) (th.rg d) d) [.g d])
      ∧ (may (op32 st .all true 11 [.g a, .e 0]) [] → NamesLocal (th.re 0) 0 2048 (e.t.blockAt tb) →
        e.t.carve.region (e.t.blockAt tb) = .block →
        exec (.cdecf st ord disp d a) s = .next (e.stays { e.t with cellQ := e.t.cellQ ++ [entry (.decf (th.re 0)) 0 0 d] }
          { e.c with busy := .event, th := { th with skips := st.val } })))
  ∧ (
    ∀ (old x y e0 : Word),
      CellFn.apply .ld old x y = old ∧ CellFn.apply .st old x y = x ∧ CellFn.apply .add old x y = old + x
        ∧ (CellFn.apply .min old x y).toInt = min old.toInt x.toInt
        ∧ (CellFn.apply .max old x y).toInt = max old.toInt x.toInt
        ∧ (CellFn.apply .minu old x y).toNat = min old.toNat x.toNat
        ∧ (CellFn.apply .maxu old x y).toNat = max old.toNat x.toNat
        ∧ CellFn.apply .and old x y = old &&& x ∧ CellFn.apply .or old x y = old ||| x
        ∧ CellFn.apply .xor old x y = old ^^^ x ∧ CellFn.apply .xchg old x y = x
        ∧ CellFn.apply .cas old x y = (if old = y then x else old) ∧ CellFn.apply (.decf e0) old x y = old - 1)

/-- R16, R23, R26, R28, R40, R123, R126, R127, R135, R266, R267: where a load, a store and a CELL instruction trap or park
instead of completing, check by check in the order of CheckLocal, with no branch unresolved and outside SV: POISON on a poisoned
base; BOUNDS for the reserved SPACE, PHASE-ILLEGAL in a slot and BOUNDS in XC for a SPACE beyond the tile, BOUNDS for a zero
field and for an offset out of range; MISALIGN; FRAME-OVERFLOW or BOUNDS outside the own frame; BOUNDS for a store to CODE or to
word 1 of a barrier; STALE-GENERATION or TAG-MISMATCH; for a CELL instruction BOUNDS outside CELL; POISON on data that leave the
frame or on an operand; POISON on a cell that is poisoned; SECOND-WRITE and NOT-OWNER for a store to a block; and a load of a
block that it may not read parks. TVAL of a pointer whose zero field is not zero, its offset wrapped, and TVAL2 0 of BOUNDS with
FORM 0 are the model's reading (log 15). -/
def Obligations.LocalAccessChecks : Prop :=
  ∀ (s : State) (e : Env) (st : Stall) (ord : Ord) (d a b : GReg) (off : BitVec 11) (imm : BitVec 6) (m : BitVec 3),
    e.speculative = false → e.acquiring = false → e.s.cur.ctx ≠ 17 →
    let th := e.c.th
    let trapsAt (i : Instr) (cause form : Nat) (v v2 : Word) : Prop := exec i s = .next (e.trapped cause form v v2)
    let pointer (i : Instr) (base : GReg) (disp : Int) : Prop :=
      let p := th.rg base
      let space := p.toNat / 2 ^ 56 % 4
      let at_ : Int := (p.toNat % 2 ^ 20 : Nat) + disp
      (th.pg base = true → trapsAt i cPoison 0 ((RegId.g base).word 0) 0)
      ∧ (th.pg base = false →
        (space = 3 → trapsAt i cBounds 0 p 0)
        ∧ ((space = 1 ∨ space = 2) → if e.s.cur.ctx < 16 then trapsAt i cPhase 1 p 0 else trapsAt i cBounds 0 p 0)
        ∧ (space = 0 → p.toNat / 2 ^ 20 % 2 ^ 36 ≠ 0 →
          trapsAt i cBounds 0 (BitVec.ofNat 64 (p.toNat / 2 ^ 20 * 2 ^ 20 + (at_ % 2 ^ 20).toNat)) 0)
        ∧ (space = 0 → p.toNat / 2 ^ 20 % 2 ^ 36 = 0 → (at_ < 0 ∨ 2 ^ 20 ≤ at_) →
          trapsAt i cBounds 2 p (BitVec.ofInt 64 disp)))
    let formed (base : GReg) (disp : Int) (o : Nat) : Prop :=
      th.pg base = false ∧ (th.rg base).toNat / 2 ^ 56 % 4 = 0 ∧ (th.rg base).toNat / 2 ^ 20 % 2 ^ 36 = 0
        ∧ (o : Int) = ((th.rg base).toNat % 2 ^ 20 : Nat) + disp ∧ o < 2 ^ 20
    let fails (i : Instr) (op : Op) (base : GReg) (disp : Int) (size : Nat) (stores : Bool)
        (q : Nat → Word → Word → Prop) : Prop :=
      Ready s e op → pointer i base disp ∧ ∀ o, formed base disp o →
        let p := withOff (th.rg base) o
        let acc := e.t.access o 0 0
        let reg := e.t.carve.region o
        (o % size ≠ 0 → trapsAt i cMisalign 0 p acc)
        ∧ (o % size = 0 →
          (reg = .frame → e.t.carve.inFrame o size e.s.cur.ctx = false →
            if base.val = 13 ∨ base.val = 14 then trapsAt i cFrame 0 p acc else trapsAt i cBounds 1 p acc)
          ∧ (stores = true → reg = .code ∨ (reg = .cell ∧ e.t.hitsWord1 o size = true) → trapsAt i cBounds 1 p acc)
          ∧ ((reg = .frame → e.t.carve.inFrame o size e.s.cur.ctx = true) →
            (stores = true → reg ≠ .code ∧ (reg = .cell → e.t.hitsWord1 o size = false)) →
            (e.t.granTag o ≠ ptrTag (th.rg base) → trapsAt i (if reg = .block then cStale else cTag) 0 p acc)
            ∧ (e.t.granTag o = ptrTag (th.rg base) → q o p acc)))
    let loads (i : Instr) (op : Op) (base : GReg) (disp : Int) (size : Nat) : Prop :=
      fails i op base disp size false fun o _ _ => ¬ ReadableAt e o →
        ∃ nb, exec i s = .next (e.put e.t { e.c with
          run := .parked, wblk := e.t.blockOf o, last := e.s.cycle, spent := e.s.cycle + 1, notBefore := nb })
    let stores (i : Instr) (op : Op) (base : GReg) (disp : Int) (size : Nat) (data : List GReg) : Prop :=
      fails i op base disp size true fun o p acc =>
        (∀ r, data.find? th.pg = some r → e.t.carve.region o ≠ .frame → trapsAt i cPoison 0 ((RegId.g r).word 0) 0)
        ∧ ((∀ r ∈ data, th.pg r = false) → e.t.carve.region o = .block →
          let x := e.t.block (e.t.blockOf o)
          (x.state = .full → trapsAt i cSecond 0 p acc)
          ∧ (x.state ≠ .full → (x.state = .empty ∨ x.owner ≠ e.s.cur.ctx) → trapsAt i cOwner 0 p acc))
    let cells (i : Instr) (reads : List RegId) (operands : List GReg) : Prop :=
      fails i (op32 st .all true 11 reads) a (8 * m.toNat) 8 true fun o p acc =>
        (e.t.carve.region o ≠ .cell → trapsAt i cBounds 1 p acc)
        ∧ (e.t.carve.region o = .cell →
          (∀ r, operands.find? th.pg = some r → trapsAt i cPoison 0 ((RegId.g r).word 0) 0)
          ∧ ((∀ r ∈ operands, th.pg r = false) → e.t.granPois o = true → trapsAt i cPoison 1 p acc))
    let load := op32 st .all false 8 [.g a]
    let store := op32 st .all true 9 [.g a, .g d]
    let two (i : Instr) : Prop := cells i [.g a, .g b] [b]
    loads (.ldb st d a off) load a off.toInt 1 ∧ loads (.ldbu st d a off) load a off.toInt 1
      ∧ loads (.ldh st d a off) load a (off.toInt * 2) 2 ∧ loads (.ldhu st d a off) load a (off.toInt * 2) 2
      ∧ loads (.ldw st d a off) load a (off.toInt * 4) 4 ∧ loads (.ldwu st d a off) load a (off.toInt * 4) 4
      ∧ loads (.ldd st d a off) load a (off.toInt * 8) 8 ∧ loads (.ldp st d a off) load a (off.toInt * 16) 16
      ∧ loads (.cLdd d imm) (op16 0 8 [.g 13]) 13 (8 * imm.toNat) 8
      ∧ stores (.stb st d a off) store a off.toInt 1 [d] ∧ stores (.sth st d a off) store a (off.toInt * 2) 2 [d]
      ∧ stores (.stw st d a off) store a (off.toInt * 4) 4 [d] ∧ stores (.std st d a off) store a (off.toInt * 8) 8 [d]
      ∧ stores (.stp st d a off) (op32 st .all true 9 [.g a, .g d, .g (d + 1)]) a (off.toInt * 16) 16 [d, d + 1]
      ∧ stores (.cStd d imm) (op16 0 9 [.g 13, .g d] true) 13 (8 * imm.toNat) 8 [d]
      ∧ cells (.cld st ord m d a) [.g a] [] ∧ two (.cst st ord m a b) ∧ two (.cadd st ord m d a b)
      ∧ two (.cmin st ord m d a b) ∧ two (.cmax st ord m d a b) ∧ two (.cminu st ord m d a b)
      ∧ two (.cmaxu st ord m d a b) ∧ two (.cand st ord m d a b) ∧ two (.cor st ord m d a b)
      ∧ two (.cxor st ord m d a b) ∧ two (.cxchg st ord m d a b)
      ∧ cells (.ccas st ord m d a b) [.g a, .g b, .g d] [b, d] ∧ cells (.cdecf st ord m d a) [.g a, .e 0] []

end cells

section sync

/-- R139 to R152: FENCE completes once what it orders is done; SYNC leaves its thread at the barrier of the superstep; TEND
frees its slot; PHASE reads the phase counter; YIELD passes over to the other ready slots; TBAR waits until every live thread of
its group is at one, and the last of them releases the others; SPAWN starts a child in the lowest free slot, or calls the entry
where none is free. R29, R148, R149, R152: ABINIT enters the store buffer as one entry of the pair, where the count is in range
and no feed is bound; AWAIT takes word 0 when its PHASE differs from gD's, and otherwise waits with WAITER set; ELI, EMOV and
EMOVG write an e or a g register one cycle later. The poison of AWAIT's register is the model's reading (log 79). -/
def Obligations.SyncAndExtResults : Prop :=
  (
    ∀ (s : State) (e : Env) (st : Stall) (d a : GReg) (imm : BitVec 11) (kind : FenceKind) (scope : Scope),
      let th := e.c.th
      let me := e.s.cur.ctx
      let op (who : Who) (reads : List RegId) : Op := op32 st who true 12 reads
      (Ready s e (op .all []) → scope ≠ .rect → e.fenced kind scope [] = true →
        exec (.fence st kind scope a) s = .next (e.plain (op .all []) (e.seqPc (op .all []))))
      ∧ (∀ ranks, Ready s e (op .all [.g a]) → th.pg a = false → rectRanks e.d (th.rg a) = .ok ranks →
        e.fenced kind .rect ranks = true →
        exec (.fence st kind .rect a) s = .next (e.plain (op .all [.g a]) (e.seqPc (op .all []))))
      ∧ (Ready s e (op .all []) →
        exec (.phase st d) s = .next (e.result (op .all []) 1 [.g d (e.d.phase.setWidth 64) false] 0))
      ∧ (Ready s e (op .slots []) →
        exec (.sync st) s = .next (e.put e.t { e.c.atIssue e.s.cycle with
          run := .sync, th := th.past (op .slots []) (e.seqPc (op .slots [])) })
        ∧ exec (.yield st) s = .next (e.put e.t { e.c.atIssue e.s.cycle with
          yieldFor := if e.det then [] else slotNums.filter fun i => i != me && (e.t.ctx i).run == .ready
          th := th.past (op .slots []) (e.seqPc (op .slots [])) })
        ∧ (e.c.sb = [] → e.cellBusy = false → (∀ p ∈ th.pend, p.fixed = true) → ∃ t, exec (.tend st) s = .next t
          ∧ (e.t.starts = [] → ∃ u, t.env? = some u ∧ u.c.run = .free ∧ u.t.sram = e.t.sram))
        ∧ ((∃ i ∈ e.t.liveOf e.c.group, i ≠ me ∧ (e.t.ctx i).atTbar = false) → e.c.busy ≠ .tbar true →
          exec (.tbar st) s = .next (e.put e.t { e.c with busy := .tbar false, spent := e.s.cycle + 1 }))
        ∧ ((∀ i ∈ e.t.liveOf e.c.group, i ≠ me → (e.t.ctx i).atTbar = true) → e.c.run ≠ .free → e.c.busy ≠ .tbar true →
          exec (.tbar st) s = .next (e.put
            ((e.t.liveOf e.c.group).foldl (fun t i => t.setCtx i { t.ctx i with busy := .tbar true }) e.t)
            { e.c.atIssue e.s.cycle with busy := .none, th := th.past (op .slots []) (e.seqPc (op .slots [])) }))
        ∧ (e.c.busy = .tbar true → exec (.tbar st) s = .next (e.put e.t { e.c.atIssue e.s.cycle with
          busy := .none, th := th.past (op .slots []) (e.seqPc (op .slots [])) })))
      ∧ (Ready s e (op .slots [.g a, .g 4, .g 5, .g 6, .g 7, .g 8, .g 9]) → th.pg a = false →
        let target := th.rg a + BitVec.ofInt 64 imm.toInt
        let sop := op .slots [.g a, .g 4, .g 5, .g 6, .g 7, .g 8, .g 9]
        target.toNat < 2 ^ 20 → target.toNat % 2 = 0 → e.c.run ≠ .free →
        (∀ i, e.t.freeSlot? = some i →
          exec (.spawn st d a imm) s = .next (e.put
            (e.t.start e.s.cur.rank i (e.s.cycle + 2) (e.s.cycle + 2) (target.setWidth 20)
              ([4, 5, 6, 7].map fun n : GReg => (th.rg n, th.pg n)) e.c.group)
            { e.c.atIssue e.s.cycle with
              th := (th.addPend (e.pending sop 2 false [.g d 0 false] 0)).past sop (e.seqPc sop) }))
        ∧ (e.t.freeSlot? = none →
          exec (.spawn st d a imm) s = .next (e.put e.t { e.c.atIssue e.s.cycle with
            th := ((th.addPend (e.pending sop 1 true [.g 15 ((e.seqPc sop).setWidth 64) false] 0)).addPend
                { e.pending sop 2 false [.g d 1 false] 0 with seq := th.seq + 1 }).past sop (target.setWidth 20) }))))
  ∧ (
    ∀ (s : State) (e : Env) (st : Stall) (d a : GReg) (imm : BitVec 11) (o : Nat) (ed : EReg) (pos : Fin 6),
      let th := e.c.th
      let v := th.rg d
      let w := e.t.sram.read64 o
      let opA := op32 st .all true 12 [.g a, .g d]
      let opW := op32 st .slots true 12 [.g a, .g d]
      (NamesBarrier e a imm o → th.pg d = false → e.acquiring = false → e.cellHits o 16 = false →
        (Ready s e opA → v.toNat < 2 ^ 57 → e.t.nfeed o = 0 → (e.c.sb.filter fun x => !x.vec).length < 8 →
          exec (.abinit st d a imm) s = .next (({ e with s := { e.s with free := e.s.free + 1 } } : Env).put
            { e.t with age := e.t.age + 1 }
            { e.c.atIssue e.s.cycle with
              sb := e.c.sb ++ [{ age := e.t.age, readyAt := e.s.cycle + 1 + e.delay, addr := o, len := 16
                                 pois := false, abinit := true, vec := false
                                 data := (List.range 8).map fun i => (o + i, BitVec.ofNat 8 (v.toNat / 256 ^ i)) }]
              th := th.past opA (e.seqPc opA) }))
        ∧ (Ready s e opW → e.c.sbHits o 16 = [] →
          (w.getLsbD 56 ≠ v.getLsbD 56 →
            exec (.await st d a imm) s = .next (e.loadResult opW [o / 64] [.g d w (e.t.granPois o)]))
          ∧ (w.getLsbD 56 = v.getLsbD 56 →
            exec (.await st d a imm) s = .next (e.stays (e.t.setWord1 o (e.t.nfeed o) true)
              { e.c with run := .await, barrier := some o }))))
      ∧ (Ready s e (op32 st .all false 13 [.e ed]) →
        let n := if pos.val = 5 then 9 else 11
        ∃ r : Word, exec (.eli st ed pos imm) s = .next (e.result (op32 st .all false 13 [.e ed]) 1 [.e ed r] 0)
          ∧ ∀ i < 64, r.getLsbD i
            = if 11 * pos.val ≤ i ∧ i < 11 * pos.val + n then imm.getLsbD (i - 11 * pos.val) else (th.re ed).getLsbD i)
      ∧ (Ready s e (op32 st .all false 13 [.g a]) → th.pg a = false →
        exec (.emov st ed a) s = .next (e.result (op32 st .all false 13 [.g a]) 1 [.e ed (th.rg a)] 0))
      ∧ (Ready s e (op32 st .all false 13 [.e ed]) →
        exec (.emovg st d ed) s = .next (e.result (op32 st .all false 13 [.e ed]) 1 [.g d (th.re ed) false] 0)))

end sync

section vector

/-- R92, R106, R153, R154, R156, R157: the V-ALU instructions that set elements, by element type: integers wrap,
floats are formed exactly and rounded once in the mode of RM, in every context but XC. The invalid flag of a sum of a NaN and
both infinities is the model's reading (log 91). -/
def Obligations.VectorArithmetic : Prop :=
  ∀ (s : State) (e : Env) (st : Stall) (ty : VType) (rm : RmField) (d a b : VReg) (k : KReg) (z : Bool),
    let th := e.c.th
    let w := vw ty
    let f := vfmt ty
    let mode := rmMode rm th
    let x (i : Nat) : Nat := elemAt w (th.rv a) i
    let y (i : Nat) : Nat := elemAt w (th.rv b) i
    let u (i : Nat) : Nat := elemAt w (th.rv d) i
    let int (v : Int) : Nat × Flags := (intBits w v, Flags.none)
    let rnd (v : FRes) (n : Nat) : Nat × Flags := v.round f mode n
    let sum (l : List FRes) : FRes := sumF (mode == .rdn) l
    let fx (i : Nat) : FVal := f.decode (x i)
    let fy (i : Nat) : FVal := f.decode (y i)
    let fu (i : Nat) : FVal := f.decode (u i)
    let op (dSrc : Bool) : Op := op32 st .notXc false 14 (vreads d k z dSrc [.v a, .v b])
    let ops (i : Instr) (dSrc : Bool) (gi : Nat → Int) (gf : Nat → FRes) : Prop :=
      Ready s e (op dSrc) → ∃ t, exec i s = .next t
        ∧ Lanewise e (op dSrc) 4 d k z (ty == .f64) w (mode == .sr)
          (fun i n => if ty.isInt then int (gi i) else rnd (gf i) n)
          (th.pv a ||| th.pv b ||| (if dSrc then th.pv d else 0)) t
    let si (i : Nat) : Int := elemInt ty (x i)
    let sj (i : Nat) : Int := elemInt ty (y i)
    let su (i : Nat) : Int := elemInt ty (u i)
    ops (.vadd st ty rm d a b k z) false (fun i => si i + sj i) (fun i => sum [(fx i).res, (fy i).res])
      ∧ ops (.vsub st ty rm d a b k z) false (fun i => si i - sj i) (fun i => sum [(fx i).res, (fy i).neg.res])
      ∧ ops (.vmul st ty rm d a b k z) false (fun i => si i * sj i) (fun i => (fx i).res.mul (fy i).res)
      ∧ ops (.vfma st ty rm d a b k z) true (fun i => si i * sj i + su i)
          (fun i => sum [(fx i).res.mul (fy i).res, (fu i).res])
      ∧ ops (.vfms st ty rm d a b k z) true (fun i => si i * sj i - su i)
          (fun i => sum [(fx i).res.mul (fy i).res, (fu i).neg.res])
      ∧ ops (.vfnma st ty rm d a b k z) true (fun i => -(si i * sj i) + su i)
          (fun i => sum [(fx i).neg.res.mul (fy i).res, (fu i).res])

/-- R92, R98, R153 to R159, R162: the V-ALU and V-FN instructions that work on the bits of an element, broadcast or
move one, or class it; where RM is stochastic VMIN, VMAX, VABS and VNEG draw from SEED, and those that move or
combine bits do not (log 25, the model's reading of R97). -/
def Obligations.VectorElementwise : Prop :=
  ∀ (s : State) (e : Env) (st : Stall) (ty : VType) (rm : RmField) (d a b : VReg) (ea : EReg) (k : KReg) (z : Bool),
    let th := e.c.th
    let w := vw ty
    let f := vfmt ty
    let sr := rmMode rm th == .sr
    let f64 := ty == .f64
    let x (i : Nat) : Nat := elemAt w (th.rv a) i
    let y (i : Nat) : Nat := elemAt w (th.rv b) i
    let si (i : Nat) : Int := elemInt ty (x i)
    let sj (i : Nat) : Int := elemInt ty (y i)
    let quiet (n : Nat) : Nat × Flags := (n, Flags.none)
    let clamp (v : Int) : Nat := intBits w (min (vmax ty) (max (vmin ty) v))
    let op1 (major : Nat) : Op := op32 st .notXc false major (vreads d k z false [.v a])
    let op2 : Op := op32 st .notXc false 14 (vreads d k z false [.v a, .v b])
    let two (i : Instr) (draws : Bool) (g : Nat → Nat × Flags) : Prop :=
      Ready s e op2 → ∃ t, exec i s = .next t
        ∧ Lanewise e op2 4 d k z f64 w draws (fun i _ => g i) (th.pv a ||| th.pv b) t
    let one (i : Instr) (major lat : Nat) (draws : Bool) (g : Nat → Nat × Flags) : Prop :=
      Ready s e (op1 major) → ∃ t, exec i s = .next t
        ∧ Lanewise e (op1 major) lat d k z f64 w draws (fun i _ => g i) (th.pv a) t
    two (.vmin st ty rm d a b k z) sr (fun i =>
        if ty.isInt then quiet (if sj i < si i then y i else x i) else minMaxF f false (x i) (y i))
      ∧ two (.vmax st ty rm d a b k z) sr (fun i =>
        if ty.isInt then quiet (if si i < sj i then y i else x i) else minMaxF f true (x i) (y i))
      ∧ two (.vand st ty rm d a b k z) false (fun i => quiet (x i &&& y i))
      ∧ two (.vor st ty rm d a b k z) false (fun i => quiet (x i ||| y i))
      ∧ two (.vxor st ty rm d a b k z) false (fun i => quiet (x i ^^^ y i))
      ∧ two (.vshl st ty d a b k z) false (fun i => quiet (x i * 2 ^ (y i % w)))
      ∧ two (.vshr st ty d a b k z) false (fun i => quiet (x i / 2 ^ (y i % w)))
      ∧ two (.vsra st ty d a b k z) false (fun i =>
        quiet (intBits w (elemInt (if ty = .n32 then .i32 else ty) (x i) / 2 ^ (y i % w))))
      ∧ two (.vadds st ty d a b k z) false (fun i => quiet (clamp (si i + sj i)))
      ∧ two (.vsubs st ty d a b k z) false (fun i => quiet (clamp (si i - sj i)))
      ∧ one (.vabs st ty rm d a k z) 14 4 sr (fun i =>
        if ty.isInt then quiet (intBits w (si i).natAbs) else signOp f false (x i))
      ∧ one (.vneg st ty rm d a k z) 14 4 sr (fun i =>
        if ty.isInt then quiet (intBits w (-(si i))) else signOp f true (x i))
      ∧ one (.vmov st ty rm d a k z) 14 4 false (fun i => quiet (x i))
      ∧ one (.vclass st ty d a k z) 15 8 false (fun i => quiet (classOf f (x i)))
      ∧ (Ready s e (op32 st .notXc false 14 (vreads d k z false [.e ea])) → ∃ t,
        exec (.vbcast st ty rm d ea k z) s = .next t
          ∧ Lanewise e (op32 st .notXc false 14 (vreads d k z false [.e ea])) 4 d k z f64 w false
            (fun _ _ => quiet ((th.re ea).toNat)) 0 t)
      ∧ (Ready s e (op32 st .notXc false 14 (vreads d k z true [.v a, .v b])) →
        let js := List.range (32 / w)
        let px (i j : Nat) : Nat := elemAt w (th.rv a) (32 / w * i + j)
        let py (i j : Nat) : Nat := elemAt w (th.rv b) (32 / w * i + j)
        let pu (i : Nat) : Nat := elemAt 32 (th.rv d) i
        ∃ t, exec (.vdot st ty rm d a b k z) s = .next t
          ∧ Lanewise e (op32 st .notXc false 14 (vreads d k z true [.v a, .v b])) 4 d k z false 32 sr
            (fun i n =>
              if ty.isInt then
                quiet (intBits 32 (elemInt .i32 (pu i) + (js.map fun j => elemInt ty (px i j) * elemInt ty (py i j)).sum))
              else (sumF (rmMode rm th == .rdn) ((fmt32.decode (pu i)).res
                :: js.map fun j => (f.decode (px i j)).res.mul (f.decode (py i j)).res)).round fmt32 (rmMode rm th) n)
            (th.pv a ||| th.pv b ||| th.pv d) t)

/-- R89, R90, R96 to R98, R153, R154, R159, R160: VRCP, VRSQ, VSQRT and VDIV complete and set their elements eight cycles later:
each is the exact reciprocal, reciprocal root, root or quotient, rounded once under RM with the flags of that rounding; at the
special operands it is what R160 and, for division, R98 give. -/
def Obligations.VectorFunctions : Prop :=
  ∀ (s : State) (e : Env) (st : Stall) (ty : VType) (rm : RmField) (d a b : VReg) (k : KReg) (z : Bool)
    (w p : Nat) (bias : Int) (top nan : Nat), FloatType ty w p bias top nan →
    let th := e.c.th
    let W := 1 + w + p
    let mode := rmMode rm th
    let x (i : Nat) : FVal := (vfmt ty).decode (elemAt W (th.rv a) i)
    let y (i : Nat) : FVal := (vfmt ty).decode (elemAt W (th.rv b) i)
    let sign (neg : Bool) : Nat := if neg then 2 ^ (w + p) else 0
    let rounded (neg : Bool) (n : Nat) (v : ℝ) (r : Nat × Flags) : Prop := RoundedOnce w p bias top mode neg n v r
    let quotient (x y : FVal) (n : Nat) (r : Nat × Flags) : Prop :=
      let neg := x.isNeg != y.isNeg
      ((x.isNan = true ∨ y.isNan = true) → r = (nan, { invalid := x.isSig || y.isSig }))
      ∧ (x.isNan = false → y.isNan = false →
        (x.isInf = true → y.isInf = true → r = (nan, Flags.inv))
        ∧ (x.isInf = true → y.isInf = false → r = (sign neg + (top + 1), Flags.none))
        ∧ (x.isInf = false → y.isInf = true → r = (sign neg, Flags.none))
        ∧ (x.isInf = false → y.isInf = false →
          (x.mag = 0 → y.mag = 0 → r = (nan, Flags.inv))
          ∧ (x.mag ≠ 0 → y.mag = 0 → r = (sign neg + (top + 1), Flags.dz))
          ∧ (x.mag = 0 → y.mag ≠ 0 → r = (sign neg, Flags.none))
          ∧ (x.mag ≠ 0 → y.mag ≠ 0 → rounded neg n ((x.mag / y.mag : ℚ) : ℝ) r)))
    let reciprocalRoot (x : FVal) (n : Nat) (r : Nat × Flags) : Prop :=
      (x.isNan = true → r = (nan, { invalid := x.isSig })) ∧ (x = .inf false → r = (0, Flags.none))
        ∧ (x.isNan = false → x.isInf = false → x.mag = 0 → r = (sign x.isNeg + (top + 1), Flags.dz))
        ∧ (x.isNeg = true → (x.isInf = true ∨ x.mag ≠ 0) → r = (nan, Flags.inv))
        ∧ (x.isNeg = false → x.mag ≠ 0 → rounded false n (1 / √(x.mag : ℝ)) r)
    let root (x : FVal) (n : Nat) (r : Nat × Flags) : Prop :=
      (x.isNan = true → r = (nan, { invalid := x.isSig })) ∧ (x = .inf false → r = (top + 1, Flags.none))
        ∧ (x.isNan = false → x.isInf = false → x.mag = 0 → r = (sign x.isNeg, Flags.none))
        ∧ (x.isNeg = true → (x.isInf = true ∨ x.mag ≠ 0) → r = (nan, Flags.inv))
        ∧ (x.isNeg = false → x.mag ≠ 0 → rounded false n (√(x.mag : ℝ)) r)
    let fn (i : Instr) (srcs : List RegId) (pois : KWord) (result : Nat → Nat → Nat × Flags → Prop) : Prop :=
      let op := op32 st .notXc false 15 (vreads d k z false srcs)
      Ready s e op → ∃ (t : State) (g : Nat → Nat → Nat × Flags), exec i s = .next t
        ∧ (∀ i n, result i n (g i n)) ∧ Lanewise e op 8 d k z (ty == .f64) W (mode == .sr) g pois t
    (ty ≠ .f64 → fn (.vrcp st ty rm d a k z) [.v a] (th.pv a) fun i => quotient (.fin false 1 0) (x i))
      ∧ (ty ≠ .f64 → fn (.vrsq st ty rm d a k z) [.v a] (th.pv a) fun i => reciprocalRoot (x i))
      ∧ fn (.vsqrt st ty rm d a k z) [.v a] (th.pv a) (fun i => root (x i))
      ∧ fn (.vdiv st ty rm d a b k z) [.v a, .v b] (th.pv a ||| th.pv b) (fun i => quotient (x i) (y i))

/-- R89, R90, R96 to R98, R153, R154, R159, R160: VEXP2 and VLOG2 complete and set their elements eight cycles later: a power of
two with a whole exponent and the logarithm of a power of two are the exact value rounded once, and the special operands give
what R160 says; any other result is a value within 2⁻²⁰⁰ of the exact one, relative to it, rounded once under RM with the flags
of that rounding, which is how the model meets the correct rounding of R159 (log 13). -/
def Obligations.VectorPowersAndLogarithms : Prop :=
  ∀ (s : State) (e : Env) (st : Stall) (ty : VType) (rm : RmField) (d a : VReg) (k : KReg) (z : Bool)
    (w p : Nat) (bias : Int) (top nan : Nat), FloatType ty w p bias top nan → ty ≠ .f64 →
    let th := e.c.th
    let W := 1 + w + p
    let mode := rmMode rm th
    let x (i : Nat) : FVal := (vfmt ty).decode (elemAt W (th.rv a) i)
    let rounded (neg : Bool) (n : Nat) (v : ℝ) (r : Nat × Flags) : Prop := RoundedOnce w p bias top mode neg n v r
    let nearly (neg : Bool) (n : Nat) (v : ℝ) (r : Nat × Flags) : Prop :=
      ∃ u : ℝ, |u - v| ≤ v / 2 ^ 200 ∧ rounded neg n u r
    let power (x : FVal) (n : Nat) (r : Nat × Flags) : Prop :=
      (x.isNan = true → r = (nan, { invalid := x.isSig })) ∧ (x = .inf true → r = (0, Flags.none))
        ∧ (x = .inf false → r = (top + 1, Flags.none))
        ∧ (x.isNan = false → x.isInf = false →
          (∀ m : Int, x.rat = m → rounded false n (2 ^ m) r)
          ∧ ((∀ m : Int, x.rat ≠ m) → nearly false n (2 ^ (x.rat : ℝ)) r))
    let logarithm (x : FVal) (n : Nat) (r : Nat × Flags) : Prop :=
      (x.isNan = true → r = (nan, { invalid := x.isSig })) ∧ (x = .inf false → r = (top + 1, Flags.none))
        ∧ (x.isNan = false → x.isInf = false → x.mag = 0 → r = (2 ^ (w + p) + (top + 1), Flags.dz))
        ∧ (x.isNeg = true → (x.isInf = true ∨ x.mag ≠ 0) → r = (nan, Flags.inv))
        ∧ (x.isNeg = false → x.mag ≠ 0 →
          (x.mag = 1 → r = (0, Flags.none))
          ∧ (∀ m : Int, m ≠ 0 → x.mag = 2 ^ m → rounded (decide (m < 0)) n |(m : ℝ)| r)
          ∧ ((∀ m : Int, x.mag ≠ 2 ^ m) → nearly (decide (x.mag < 1)) n |Real.logb 2 x.mag| r))
    let op := op32 st .notXc false 15 (vreads d k z false [.v a])
    let fn (i : Instr) (result : FVal → Nat → Nat × Flags → Prop) : Prop :=
      ∃ (t : State) (g : Nat → Nat → Nat × Flags), exec i s = .next t
        ∧ (∀ i n, result (x i) n (g i n)) ∧ Lanewise e op 8 d k z false W (mode == .sr) g (th.pv a) t
    Ready s e op → fn (.vexp2 st ty rm d a k z) power ∧ fn (.vlog2 st ty rm d a k z) logarithm

end vector

section vectorMore

/-- R153, R154, R158, R161, R162: the compares set a mask when no active element is poisoned; VSEL chooses between two
registers; VEXT and VINS move one element between a vector and an e register. -/
def Obligations.VectorCompareAndElement : Prop :=
  ∀ (s : State) (e : Env) (st : Stall) (ty : VType) (rm : RmField) (d a b : VReg) (ed ea : EReg) (kd k : KReg) (z : Bool),
    let th := e.c.th
    let w := vw ty
    let f64 := ty == .f64
    let m := laneMask f64 (th.rk k)
    let cop := op32 st .notXc false 15
      ([.v a, .v b] ++ (if k = 0 then [] else [.k k]) ++ (if !z && k != 0 then [.k kd] else []))
    let c (i : Nat) : Cmp3 := cmpElem ty (elemAt w (th.rv a) i) (elemAt w (th.rv b) i)
    let act : List Nat := (List.range (1024 / w)).filter fun i => m.getLsbD (i * w / 32)
    let compares (i : Instr) (f : Cmp3 → Bool) (ordered : Bool) : Prop :=
      Ready s e cop → ty.isWide = true → (∀ i < 32, m.getLsbD i = true →
          (pairPois f64 (th.pv a)).getLsbD i = false ∧ (pairPois f64 (th.pv b)).getLsbD i = false) →
        ∃ r : KWord, exec i s = .next (e.result cop 8 [.k kd r]
            (Flags.all (act.map fun i => { invalid := (c i).sig || (ordered && (c i).nan) })).bits)
          ∧ ∀ l < 32, r.getLsbD l = if m.getLsbD l then f (c (l * 32 / w)) else !z && (th.rk kd).getLsbD l
    let x := (th.re ea).toNat % 128 % ty.count
    compares (.vcmpeq st ty kd a b k z) (fun c => c.eq) false
      ∧ compares (.vcmpne st ty kd a b k z) (fun c => !c.eq) false
      ∧ compares (.vcmplt st ty kd a b k z) (fun c => c.lt) true
      ∧ compares (.vcmple st ty kd a b k z) (fun c => c.lt || c.eq) true
      ∧ (Ready s e (op32 st .notXc false 15 ([.v a, .v b] ++ if k = 0 then [] else [.k k])) →
        let (v, p) := mergeV m false (th.rv b) (pairPois f64 (th.pv b)) (th.rv a) (pairPois f64 (th.pv a))
        exec (.vsel st ty d a b k) s
          = .next (e.result (op32 st .notXc false 15 ([.v a, .v b] ++ if k = 0 then [] else [.k k])) 8 [.v d v p] 0))
      ∧ (Ready s e (op32 st .notXc false 14 [.v a, .e ea]) →
        (pairPois f64 (th.pv a)).getLsbD (x * w / 32) = false →
        exec (.vext st ty rm ed a ea) s = .next (e.result (op32 st .notXc false 14 [.v a, .e ea]) 4
          [.e ed (if ty.isInt then BitVec.ofInt 64 (elemInt ty (elemAt w (th.rv a) x))
            else BitVec.ofNat 64 (elemAt w (th.rv a) x))] 0))
      ∧ (Ready s e (op32 st .notXc false 14 [.e ed, .e ea, .v d]) → ∃ v p,
        exec (.vins st ty rm d ed ea) s
            = .next (e.result (op32 st .notXc false 14 [.e ed, .e ea, .v d]) 4 [.v d v p] 0)
          ∧ (∀ i < 1024 / w, elemAt w v i = if i = x then (th.re ed).toNat % 2 ^ w else elemAt w (th.rv d) i)
          ∧ (∀ l < 32, p.getLsbD l
            = ((th.pv d).getLsbD l && !(decide (32 ≤ w ∧ l * 32 / w = x)))))

/-- R154, R163, R164, R167: VCVT, VDQ, VPACK and VUNPK convert their elements, four cycles later; a descriptor that keeps
the rules of R164 lets the last three run. A lane of the result is poisoned where an element that it holds comes from a
poisoned lane, and where it is not written as it was. -/
def Obligations.VectorConversions : Prop :=
  ∀ (s : State) (e : Env) (st : Stall) (dst src : VType) (rm : RmField) (d a b : VReg) (part : Fin 4) (z : Bool),
    let th := e.c.th
    let mode := rmMode rm th
    let x := Desc.of (th.re 0)
    let n := min dst.count src.count
    let d0 := if src.count < dst.count then part.val * src.count else 0
    let s0 := if dst.count < src.count then part.val * dst.count else 0
    let seed (j : Nat) : BitVec 32 := seedAfter th.seed (if mode == .sr then j else 0)
    let r (i : Nat) : Nat × Flags :=
      cvtElem dst src mode (seed (i + 1) >>> 16).toNat (elemAt (vw src) (th.rv a) (s0 + i))
    let cop := op32 st .notXc false 16 (.v a :: if z then [] else [.v d])
    let qop := op32 st .notXc false 16 [.v a, .v b, .e 0]
    let pop := op32 st .notXc false 16 [.v a, .v d, .e 0]
    let uop := op32 st .notXc false 16 [.v a, .e 0]
    let pk (i : Nat) : Nat × Flags := x.fmt.round mode x.sat (seed (i + 1) >>> 16).toNat (fmt32.decode (elemAt 32 (th.rv a) i))
    let dq (i : Nat) : Nat × Flags :=
      let sc := elemAt x.sw (th.rv b) x.sidx
      let y := elemAt x.ew (th.rv a) (32 * x.pos + i)
      fmt32.round .rne false 0 (if x.dx then dxDecode x.ew y (sc % 256) (sc / 256) else mxDecode x.fmt y sc)
    let un (i : Nat) : Nat × Flags := fmt32.round .rne false 0 (x.fmt.decode (elemAt x.ew (th.rv a) (32 * x.pos + i)))
    let flags (l : List (Nat × Flags)) : BitVec 5 := (Flags.all (l.map Prod.snd)).bits
    (Ready s e cop → cvtOk dst src rm part = true → ∃ v p,
      exec (.vcvt st dst src rm d a part z) s
          = .next (e.seeded cop 4 true [.v d v p] (flags ((List.range n).map r)) (seed n))
        ∧ (∀ i < dst.count, elemAt (vw dst) v i
          = if d0 ≤ i ∧ i < d0 + n then (r (i - d0)).1 % 2 ^ vw dst else if z then 0 else elemAt (vw dst) (th.rv d) i)
        ∧ (∀ l < 32, p.getLsbD l = true ↔ if d0 * vw dst / 32 ≤ l ∧ l < (d0 + n) * vw dst / 32 then
            ∃ i < n, HoldsElem (vw dst) (d0 + i) l ∧ ElemPois (th.pv a) (vw src) (s0 + i)
          else z = false ∧ (th.pv d).getLsbD l = true))
    ∧ (Ready s e qop → descOk (th.re 0) false true true = true → ∃ v p,
      exec (.vdq st d a b) s = .next (e.result qop 4 [.v d v p] (flags ((List.range 32).map dq)))
        ∧ (∀ i < 32, elemAt 32 v i = (dq i).1 % 2 ^ 32)
        ∧ p = if th.pv a = 0 ∧ th.pv b = 0 then 0 else BitVec.allOnes 32)
    ∧ (Ready s e uop → descOk (th.re 0) false false true = true → ∃ v p,
      exec (.vunpk st d a) s = .next (e.result uop 4 [.v d v p] (flags ((List.range 32).map un)))
        ∧ (∀ i < 32, elemAt 32 v i = (un i).1 % 2 ^ 32)
        ∧ (∀ i < 32, p.getLsbD i = (th.pv a).getLsbD (x.ew * (32 * x.pos + i) / 32)))
    ∧ (Ready s e pop → descOk (th.re 0) false false true = true → ∃ v p,
      exec (.vpack st rm d a) s
          = .next (e.seeded pop 4 true [.v d v p] (flags ((List.range 32).map pk)) (seed 32))
        ∧ (∀ i < 1024 / x.ew, elemAt x.ew v i
          = if 32 * x.pos ≤ i ∧ i < 32 * x.pos + 32 then (pk (i - 32 * x.pos)).1 % 2 ^ x.ew
            else elemAt x.ew (th.rv d) i)
        ∧ (∀ l < 32, p.getLsbD l = true ↔ if x.ew * x.pos ≤ l ∧ l < x.ew * (x.pos + 1) then
            ∃ i < 32, HoldsElem x.ew (32 * x.pos + i) l ∧ (th.pv a).getLsbD i = true
          else (th.pv d).getLsbD l = true))

/-- R100, R101, R155, R164 to R166: VQDX and VQMX take the quantiser for ten cycles where it is free and no outlier
needs a list entry; vD takes the element plane and vB the scale record when they are two registers. -/
def Obligations.VectorQuantise : Prop :=
  ∀ (s : State) (e : Env) (st : Stall) (rm : RmField) (d a b : VReg), d ≠ b → e.t.quantiser.freeAt ≤ e.s.cycle →
    Ready s e (op32 st .notXc false 16 [.v a, .v b, .v d, .e 0]) →
    let op := op32 st .notXc false 16 [.v a, .v b, .v d, .e 0]
    let th := e.c.th
    let x := Desc.of (th.re 0)
    let xs := (lanes32 (th.rv a)).map fmt32.decode
    let bad : Bool := th.pv a != 0
    let writes (els : List Nat) (sc : Nat) : List RegWrite :=
      [.v d (putPlane x (th.rv d) els) (if bad then th.pv d ||| planeLanes x else th.pv d &&& ~~~ planeLanes x),
       .v b (putScale x (th.rv b) sc) (if bad then th.pv b ||| scaleLane x else th.pv b)]
    let leaves (els : List Nat) (sc : Nat) (fl : Flags) (seed : BitVec 32) : State :=
      ({ e with s := { e.s with free := e.s.free + 1 } } : Env).put
        { e.t with quantiser := ⟨e.s.cycle + 10, e.s.cur.ctx, e.s.cycle⟩ }
        { e.c.atIssue e.s.cycle with
          th := ({ th.addPend (e.pending op 10 false (writes els sc) fl.bits) with seed }).past op (e.seqPc op) }
    (descOk (th.re 0) true true false = true → x.outl = false →
      let (els, sc, fl, seed, _) := quantDx x.ew x.cap false (rmMode rm th) xs th.seed
      exec (.vqdx st rm d a b) s = .next (leaves els sc fl seed))
    ∧ (descOk (th.re 0) false false true = true →
      let (els, sc, fl, seed) := quantMx x.fmt (rmMode rm th) xs th.seed
      exec (.vqmx st rm d a b) s = .next (leaves els sc fl seed))

/-- R105, R106, R153 to R155, R168 to R170, R175: VPERM and VROT take elements by index, VIOTA counts active lanes,
VCOMPR packs the active elements, VRED and VSCAN take the tree for twelve cycles where it is free, and the mask
instructions land one cycle later. Packed elements carry their poison; VRED's result is poisoned when an active input is, an
element of VSCAN when one up to it is. Which min and max draw from SEED is the model's reading (log 25). -/
def Obligations.VectorPermuteAndMask : Prop :=
  ∀ (s : State) (e : Env) (st : Stall) (ty : VType) (op : RedOp) (rm : RmField) (d a b : VReg) (eb : EReg) (k ka kb : KReg)
    (gd ga : GReg) (z : Bool),
    let th := e.c.th
    let w := vw ty
    let f64 := ty == .f64
    let m := laneMask f64 (th.rk k)
    let act (i : Nat) : Bool := m.getLsbD (i * w / 32)
    let packed := (List.range (1024 / w)).filter act
    let vop (srcs : List RegId) : Op := op32 st .notXc false 17 (vreads d k z false srcs)
    let moved (src : Nat → Nat) (idx : KWord) : KWord := (List.range (1024 / w)).foldl (fun p i =>
      if (pairPois f64 (th.pv a)).getLsbD (src i * w / 32) then p ||| BitVec.twoPow 32 (i * w / 32) else p) idx
    let kop (srcs : List KReg) : Op := op32 st .notXc false 19 (srcs.map RegId.k)
    let masks (i : Instr) (srcs : List KReg) (v : KWord) : Prop :=
      Ready s e (kop srcs) → exec i s = .next (e.result (kop srcs) 1 [.k k v] 0)
    let perm (i : Nat) : Nat := elemAt w (th.rv b) i % (1024 / w)
    let rot (i : Nat) : Nat := (i + (th.re eb).toNat) % (1024 / w)
    let takesTree (op : Op) (wr : RegWrite) (fl : Flags) (seed : BitVec 32) : State :=
      e.put { e.t with tree := ⟨e.s.cycle + 12, e.s.cur.ctx, e.s.cycle⟩ } { e.c.atIssue e.s.cycle with
        th := ({ th.addPend (e.pending op 12 false [wr] fl.bits) with seed }).past op (e.seqPc op) }
    (Ready s e (vop [.v a, .v b]) → ∃ t, exec (.vperm st ty d a b k z) s = .next t
      ∧ Lanewise e (vop [.v a, .v b]) 4 d k z f64 w false (fun i _ => (elemAt w (th.rv a) (perm i), Flags.none))
        (moved perm (th.pv b)) t)
    ∧ (Ready s e (vop [.v a, .e eb]) → ∃ t, exec (.vrot st ty d a eb k z) s = .next t
      ∧ Lanewise e (vop [.v a, .e eb]) 4 d k z f64 w false (fun i _ => (elemAt w (th.rv a) (rot i), Flags.none))
        (moved rot 0) t)
    ∧ (Ready s e (vop []) → ∃ t, exec (.viota st d k z) s = .next t
      ∧ Lanewise e (vop []) 4 d k z false 32 false
        (fun i _ => ((List.range i).countP (fun j => (th.rk k).getLsbD j), Flags.none)) 0 t)
    ∧ (Ready s e (vop [.v a]) → ∃ v p, exec (.vcompr st ty d a k z) s = .next (e.result (vop [.v a]) 4 [.v d v p] 0)
      ∧ (∀ i < 1024 / w, elemAt w v i = if h : i < packed.length then elemAt w (th.rv a) packed[i]
        else if z then 0 else elemAt w (th.rv d) i)
      ∧ ∀ l < 32, p.getLsbD l = true ↔ if l < packed.length * w / 32 then
          ∃ j i, packed[j]? = some i ∧ HoldsElem w j l ∧ ElemPois (th.pv a) w i
        else z = false ∧ (th.pv d).getLsbD l = true)
    ∧ (e.t.tree.freeAt ≤ e.s.cycle →
      (Ready s e (op32 st .notXc false 17 (.v a :: (if k = 0 then [] else [.k k]) ++ if z then [] else [.v d])) →
        let rop := op32 st .notXc false 17 (.v a :: (if k = 0 then [] else [.k k]) ++ if z then [] else [.v d])
        let (r, fl, seed) := redValue ty op (rmMode rm th) act (th.rv a) th.seed
        let rw := redWidth ty
        ∃ v p, exec (.vred st ty op rm d a k z) s = .next (takesTree rop (.v d v p) fl seed)
          ∧ (∀ i < 1024 / rw, elemAt rw v i = if i = 0 then r % 2 ^ rw else if z then 0 else elemAt rw (th.rv d) i)
          ∧ ∀ l < 32, p.getLsbD l = true ↔ (HoldsElem rw 0 l ∧ ∃ i < 1024 / w, act i = true ∧ ElemPois (th.pv a) w i)
            ∨ (z = false ∧ (rw < 32 ∨ ¬ HoldsElem rw 0 l) ∧ (th.pv d).getLsbD l = true))
      ∧ (Ready s e (vop [.v a]) → ty.isWide = true →
        let (r, fl, seed) := scanFrom ty op (rmMode rm th) act (th.rv a) ty.count 0 (redIdent ty op) th.seed
        ∃ v p, exec (.vscan st ty op rm d a k z) s = .next (takesTree (vop [.v a]) (.v d v p) fl seed)
          ∧ (∀ i < 1024 / w, elemAt w v i = if act i then elemAt w (BitVec.ofNat 1024 r) i
            else if z then 0 else elemAt w (th.rv d) i)
          ∧ ∀ l < 32, p.getLsbD l = true ↔ if m.getLsbD l then ∃ j, act j = true ∧ j * w / 32 ≤ l ∧ ElemPois (th.pv a) w j
            else z = false ∧ (th.pv d).getLsbD l = true))
    ∧ masks (.kand st k ka kb) [ka, kb] (th.rk ka &&& th.rk kb)
    ∧ masks (.kor st k ka kb) [ka, kb] (th.rk ka ||| th.rk kb)
    ∧ masks (.kxor st k ka kb) [ka, kb] (th.rk ka ^^^ th.rk kb) ∧ masks (.knot st k ka) [ka] (~~~ th.rk ka)
    ∧ (Ready s e (kop [ka]) →
      exec (.kpop st gd ka) s = .next (e.result (kop [ka]) 1
          [.g gd (BitVec.ofNat 64 ((List.range 32).countP fun i => (th.rk ka).getLsbD i)) false] 0)
        ∧ exec (.kmovG st gd ka) s = .next (e.result (kop [ka]) 1 [.g gd ((th.rk ka).setWidth 64) false] 0))
    ∧ (Ready s e (op32 st .notXc false 19 [.g ga]) → th.pg ga = false →
      exec (.kmov st k ga) s = .next (e.result (op32 st .notXc false 19 [.g ga]) 1 [.k k ((th.rg ga).setWidth 32)] 0))

/-- R89 to R91, R96 to R98: a bit pattern decodes to the value of its fields, or to an infinity or a NaN; a value is rounded to
the format's precision in the mode, the number drawn deciding under stochastic rounding, and an overflow, an infinity and a NaN
become what the rows of R98 say, with their flags; a conversion to an integer is rounded so and held in its range. R98, R104,
R106: a sum and a product are exact, with the specials of IEEE 754. The zero that a cancellation leaves under RDN (log 18) and a
NaN beside both infinities (log 91) are the model's reading, and so are an overflow of E4M3 under RTZ, RDN and RUP (log 56) and
the flags and the SEED steps of a block with a NaN or of a DX block with an infinity (log 57). R95, R97, R100, R101:
quantisation into an MX and a DX block, whose scales are the largest exponents that the rules name, an element each rounded
once, with a step of SEED each. -/
def Obligations.RoundingAndQuantisation : Prop :=
  (∀ (f : Fmt) (w p : Nat) (bias : Int) (top nan : Nat), (f, w, p, bias, top, nan) ∈
      [(fmt64, 11, 52, 1023, 0x7FEFFFFFFFFFFFFF, 0x7FF8000000000000), (fmt32, 8, 23, 127, 0x7F7FFFFF, 0x7FC00000),
       (fmtBf16, 8, 7, 127, 0x7F7F, 0x7FC0), (fmtF16, 5, 10, 15, 0x7BFF, 0x7E00), (fmtE4m3, 4, 3, 7, 0x7E, 0x7F),
       (fmtE5m2, 5, 2, 15, 0x7B, 0x7E), (fmtE2m1, 2, 1, 1, 7, 0)] →
    let sign (neg : Bool) : Nat := if neg then 2 ^ (w + p) else 0
    (∀ x : Nat,
      let neg := decide (x / 2 ^ (w + p) % 2 = 1)
      let E := x / 2 ^ p % 2 ^ w
      let F := x % 2 ^ p
      let isNan : Prop := if f = fmtE4m3 then E = 15 ∧ F = 7 else f ≠ fmtE2m1 ∧ E = 2 ^ w - 1 ∧ F ≠ 0
      let isInf : Prop := f ≠ fmtE4m3 ∧ f ≠ fmtE2m1 ∧ E = 2 ^ w - 1 ∧ F = 0
      (isNan → f.decode x = .nan (decide (8 < 1 + w + p ∧ F < 2 ^ (p - 1)))) ∧ (isInf → f.decode x = .inf neg)
        ∧ (¬ isNan → ¬ isInf → (f.decode x).Is neg
          (if E = 0 then F / 2 ^ p * 2 ^ (1 - bias) else (1 + F / 2 ^ p) * 2 ^ ((E : Int) - bias))))
    ∧ ∀ (mode : Mode) (sat neg : Bool) (n m : Nat) (e : Int),
      let a : ℚ := m * 2 ^ e
      let lg := Int.log 2 a
      let q := max (lg - p) (1 - bias - p)
      let k := pick mode neg n (a / 2 ^ q)
      let bits := (q - (1 - bias - p)).toNat * 2 ^ p + k
      let inexact := decide ((k : ℚ) ≠ a / 2 ^ q)
      let tiny := decide (pick mode neg n (a / 2 ^ (lg - p)) * (2 : ℚ) ^ (lg - p) < 2 ^ (1 - bias))
      let most : Prop := sat = true ∨ f = fmtE2m1
      let inward : Prop := mode = .rtz ∨ (mode = .rdn ∧ neg = false) ∨ (mode = .rup ∧ neg = true)
      f.round mode sat n (.fin neg 0 e) = (sign neg, Flags.none)
      ∧ (m ≠ 0 → bits ≤ top →
        f.round mode sat n (.fin neg m e) = (sign neg + bits, { inexact, underflow := inexact && tiny }))
      ∧ (m ≠ 0 → top < bits → f.round mode sat n (.fin neg m e)
        = (sign neg + (if most ∨ inward then top else top + 1), { overflow := true, inexact := true }))
      ∧ f.round mode sat n (.inf neg) = (sign neg + (if most then top else top + 1), Flags.none)
      ∧ ∀ sig, f.round mode sat n (.nan sig) = (nan, { invalid := sig || decide (f = fmtE2m1) }))
  ∧ (∀ (lo hi : Int) (mode : Mode) (n m : Nat) (neg : Bool) (e : Int),
    let k := pick mode neg n (m * 2 ^ e)
    let v : Int := if neg then -(k : Int) else k
    roundInt lo hi mode n (.fin neg m e) = (if v < lo then (lo, Flags.inv) else if hi < v then (hi, Flags.inv)
        else (v, { inexact := decide ((k : ℚ) ≠ m * 2 ^ e) }))
      ∧ roundInt lo hi mode n (.inf neg) = (if neg then lo else hi, Flags.inv)
      ∧ ∀ sig, roundInt lo hi mode n (.nan sig) = (0, Flags.inv))
  ∧ (∀ (rdn : Bool) (l : List FRes), l ≠ [] →
    let r := sumF rdn l
    let sum : ℚ := (l.map fun x => x.val.rat).sum
    let inv := l.any FRes.inv
    ((∃ x ∈ l, x.val.isNan = true) → r = ⟨.nan false, inv⟩)
    ∧ ((∀ x ∈ l, x.val.isNan = false) →
      ((∃ x ∈ l, x.val = .inf false) → (∃ x ∈ l, x.val = .inf true) → r = ⟨.nan false, true⟩)
      ∧ (∀ neg, (∃ x ∈ l, x.val = .inf neg) → (∀ x ∈ l, x.val ≠ .inf !neg) → r = ⟨.inf neg, inv⟩)
      ∧ ((∀ x ∈ l, x.val.isInf = false) → r.inv = inv ∧ ∃ neg, r.val.Is neg |sum| ∧ (sum ≠ 0 → neg = decide (sum < 0))
        ∧ (sum = 0 → ((∀ x ∈ l, x.val.mag = 0) → ∀ b, (∀ x ∈ l, x.val.isNeg = b) → neg = b)
          ∧ ((∃ x ∈ l, x.val.mag ≠ 0) ∨ (∃ x ∈ l, ∃ y ∈ l, x.val.isNeg ≠ y.val.isNeg) → neg = rdn)))))
  ∧ (∀ x y : FRes,
    ((x.val.isNan = true ∨ y.val.isNan = true) → x.mul y = ⟨.nan false, x.inv || y.inv⟩)
    ∧ (x.val.isNan = false → y.val.isNan = false → (x.val.isInf = true ∨ y.val.isInf = true) →
      x.mul y = if (x.val.isInf = false ∧ x.val.mag = 0) ∨ (y.val.isInf = false ∧ y.val.mag = 0) then ⟨.nan false, true⟩
        else ⟨.inf (x.val.isNeg != y.val.isNeg), false⟩)
    ∧ (x.val.isNan = false → y.val.isNan = false → x.val.isInf = false → y.val.isInf = false →
      (x.mul y).inv = false ∧ (x.mul y).val.Is (x.val.isNeg != y.val.isNeg) (x.val.mag * y.val.mag)))
  ∧ (∀ (f : Fmt) (emax : Int) (mode : Mode) (xs : List FVal) (seed : BitVec 32),
    (f, emax) ∈ [(fmtE4m3, 8), (fmtE5m2, 15), (fmtE2m1, 2)] →
    let (els, sc, fl, after) := quantMx f mode xs seed
    let y : FVal → FVal
      | .fin s m e => .fin s m (e - ((sc : Int) - 127))
      | v => v
    let conv (p : FVal × Nat) : Nat × Flags := f.round mode true (drawn mode seed p.2) (y p.1)
    after = seedAfter seed (if mode = .sr then xs.length else 0)
    ∧ ((∃ x ∈ xs, x.isNan = true) → els = xs.map (fun _ => 0) ∧ sc = 255 ∧ fl = Flags.none)
    ∧ ((∀ x ∈ xs, x.isNan = false) →
      els = xs.zipIdx.map (fun p => (conv p).1) ∧ fl = Flags.all (xs.zipIdx.map fun p => (conv p).2)
      ∧ (∀ E, TopEx xs E → (sc : Int) = min 254 (max 0 (E - emax + 127)))
      ∧ ((∀ x ∈ xs, x.mag = 0) → sc = if xs.any FVal.isInf then 254 else 0)))
  ∧ ∀ (w W M : Nat) (k : Int) (cap : Nat) (outl : Bool) (mode : Mode) (xs : List FVal) (seed : BitVec 32),
    (w, W, M, k) ∈ [(8, 3, 63, 132), (4, 1, 3, 128)] → cap ≤ 254 →
    let (els, sc, fl, after, out) := quantDx w cap outl mode xs seed
    let lim : ℚ := M * 2 ^ ((cap : Int) - k)
    let isOut (x : FVal) : Bool := outl && (x.isInf || decide (lim < x.mag))
    let rest := xs.filter fun x => !isOut x
    let lo := sc % 256
    let hi := sc / 256
    let small := rest.filter fun x => decide (x.mag ≠ 0 ∧ Int.log 2 x.mag + 127 ≤ (hi : Int) - W)
    let conv (p : FVal × Nat) : Nat × Flags :=
      let x := p.1
      let sign := if x.isNeg then 2 ^ (w - 2) else 0
      let sel := decide (x.mag ≠ 0 ∧ (lo : Int) < Int.log 2 x.mag + 127)
      let v : ℚ := x.mag * 2 ^ (k - if sel then (hi : Int) else lo)
      let r := pick mode x.isNeg (drawn mode seed p.2) v
      if isOut x then (0, Flags.none)
      else if x.isInf then (2 ^ (w - 1) + sign + M, Flags.none)
      else ((if sel then 2 ^ (w - 1) else 0) + sign + min r M,
        { inexact := decide ((r : ℚ) ≠ v ∨ M < r), overflow := decide (M < r ∧ lim < x.mag)
          underflow := decide (r = 0 ∧ x.mag ≠ 0) })
    after = seedAfter seed (if mode = .sr then xs.length else 0)
    ∧ ((∃ x ∈ xs, x.isNan = true) →
      els = xs.map (fun _ => 0) ∧ sc = 0xFFFF ∧ fl = Flags.none ∧ out = xs.map fun _ => false)
    ∧ ((∀ x ∈ xs, x.isNan = false) →
      out = xs.map isOut
      ∧ els = xs.zipIdx.map (fun p => (conv p).1) ∧ fl = Flags.all (xs.zipIdx.map fun p => (conv p).2)
      ∧ (∀ E, TopEx rest E → (hi : Int) = min (cap : Int) (max 0 (E + 127)))
      ∧ ((∀ x ∈ rest, x.mag = 0) → hi = if rest.any FVal.isInf then cap else 0)
      ∧ (∀ E, TopEx small E → (lo : Int) = max 0 (E + 127)) ∧ (small = [] → lo = hi))

/-- R89, R92, R94, R95, R97, R98, R161 to R163: the functions of an element in terms of which the vector statements speak: the
integer of its bits and the limits of an integer type, min and max with −0 below +0, the sign operations, the class, the
compare, the conversion, and the value of an element of an MX and a DX block. A NaN gives the canonical NaN; which of them raise
invalid stands at each. -/
def Obligations.ElementFunctions : Prop :=
  (∀ x : Nat, (x < 2 ^ 32 → elemInt .i32 x = (BitVec.ofNat 32 x).toInt ∧ elemInt .n32 x = x)
    ∧ (x < 2 ^ 16 → elemInt .i16x2 x = (BitVec.ofNat 16 x).toInt) ∧ (x < 2 ^ 8 → elemInt .i8x4 x = (BitVec.ofNat 8 x).toInt))
  ∧ (∀ (w : Nat) (v : Int), (intBits w v : Int) = v % 2 ^ w)
  ∧ (∀ ty lo hi w, (ty, lo, hi, w) ∈ [(VType.i32, -2 ^ 31, (2 ^ 31 - 1 : Int), 32), (.n32, 0, 2 ^ 32 - 1, 32),
      (.i16x2, -2 ^ 15, 2 ^ 15 - 1, 16), (.i8x4, -128, 127, 8)] →
    vmin ty = lo ∧ vmax ty = hi ∧ vw ty = w ∧ ty.isInt = true
    ∧ (∀ x y, cmpElem ty x y = ⟨decide (elemInt ty x < elemInt ty y), decide (x = y), false, false⟩)
    ∧ (∀ src mode n x, src.isInt = true →
      let v := elemInt src x
      let c := max lo (min hi v)
      cvtElem ty src mode n x = (intBits w c, { invalid := decide (c ≠ v) }))
    ∧ (∀ src mode n x, src.isInt = false →
      let r := roundInt lo hi mode n ((vfmt src).decode x)
      cvtElem ty src mode n x = (intBits w r.1, r.2)))
  ∧ (∀ (ty : VType) (w p : Nat) (bias : Int) (top nan : Nat), FloatType ty w p bias top nan →
    let f := vfmt ty
    let sign (neg : Bool) : Nat := if neg then 2 ^ (w + p) else 0
    ty.isInt = false ∧ vw ty = 1 + w + p
    ∧ (∀ src mode n x, src.isInt = false → cvtElem ty src mode n x = f.round mode false n ((vfmt src).decode x))
    ∧ (∀ src mode n x, src.isInt = true →
      let v := elemInt src x
      cvtElem ty src mode n x = f.round mode false n (.fin (decide (v < 0)) v.natAbs 0))
    ∧ (∀ x y : Nat,
      let a := f.decode x
      let b := f.decode y
      let below (a b : FVal) : Prop := a.Below b ∨ (a.Same b ∧ a.isNeg = true ∧ b.isNeg = false)
      let c := cmpElem ty x y
      ((a.isNan = true ∨ b.isNan = true) → minMaxF f false x y = (nan, Flags.inv) ∧ minMaxF f true x y = (nan, Flags.inv)
        ∧ c = ⟨false, false, a.isSig || b.isSig, true⟩)
      ∧ (a.isNan = false → b.isNan = false →
        (below b a → minMaxF f false x y = (y, Flags.none) ∧ minMaxF f true x y = (x, Flags.none))
        ∧ (¬ below b a → minMaxF f false x y = (x, Flags.none) ∧ minMaxF f true x y = (y, Flags.none))
        ∧ c.nan = false ∧ c.sig = false ∧ (c.lt = true ↔ a.Below b) ∧ (c.eq = true ↔ a.Same b)))
    ∧ (∀ (flip : Bool) (x : Nat),
      let v := f.decode x
      (v.isNan = true → signOp f flip x = (nan, { invalid := v.isSig }))
      ∧ (v.isNan = false →
        signOp f flip x = (sign (flip && !(decide (x / 2 ^ (w + p) % 2 = 1))) + x % 2 ^ (w + p), Flags.none)))
    ∧ ∀ x : Nat,
      let neg := decide (x / 2 ^ (w + p) % 2 = 1)
      let E := x / 2 ^ p % 2 ^ w
      let F := x % 2 ^ p
      classOf f x = if E = 2 ^ w - 1 then
          (if F = 0 then (if neg then 2 ^ 0 else 2 ^ 7) else if F < 2 ^ (p - 1) then 2 ^ 8 else 2 ^ 9)
        else if E = 0 then (if F = 0 then (if neg then 2 ^ 3 else 2 ^ 4) else if neg then 2 ^ 2 else 2 ^ 5)
        else if neg then 2 ^ 1 else 2 ^ 6)
  ∧ (∀ f ∈ [fmtE4m3, fmtE5m2, fmtE2m1], ∀ x sc : Nat,
    let v := f.decode x
    let r := mxDecode f x sc
    (sc = 255 → r.isNan = true ∧ r.isSig = false) ∧ (sc ≠ 255 → v.isNan = true → r = v)
    ∧ (∀ neg, sc ≠ 255 → v = .inf neg → r = .inf neg)
    ∧ (sc ≠ 255 → v.isNan = false → v.isInf = false → r.Is v.isNeg (v.mag * 2 ^ ((sc : Int) - 127))))
  ∧ ∀ (w m : Nat) (k : Int) (x lo hi : Nat), (w, m, k) ∈ [(8, 64, 132), (4, 4, 128)] →
    let r := dxDecode w x lo hi
    let E := if x / (2 * m) % 2 = 0 then lo else hi
    (lo = 255 ∨ hi = 255 → r.isNan = true ∧ r.isSig = false)
    ∧ (lo ≠ 255 → hi ≠ 255 → r.Is (decide (x / m % 2 = 1)) ((x % m : Nat) * 2 ^ ((E : Int) - k)))

/-- R97, R98, R105, R106, R169: the values of VRED and VSCAN: an add of a float TYPE goes up the tree of R105, its nodes
numbered level by level for SEED, an inactive element being −0.0; an integer add wraps; min and max take the active elements;
and each element of a scan is its predecessor combined with its own, rounded in turn. Which of them draw from SEED is log 25. -/
def Obligations.ReductionsAndScans : Prop :=
  (∀ (ty : VType) (levels : Nat) (f : Fmt) (mode : Mode) (act : Nat → Bool) (v : VWord) (seed : BitVec 32),
    (ty, levels, f) ∈ [(VType.f32, 5, fmt32), (.bf16x2, 6, fmt32), (.f16x2, 6, fmt32), (.f64, 4, fmt64)] →
    ∃ (val : Nat → Nat → FVal) (out : Nat → Nat → Nat × Flags),
      (∀ j < 2 ^ levels, val 0 j = if act j then (vfmt ty).decode (elemAt (vw ty) v j) else .fin true 0 0)
      ∧ (∀ l < levels, ∀ j < 2 ^ (levels - l - 1),
        out l j = (sumF (mode == .rdn) [(val l (2 * j)).res, (val l (2 * j + 1)).res]).round f mode
            (drawn mode seed (2 ^ levels - 2 ^ (levels - l) + j))
          ∧ val (l + 1) j = f.decode (out l j).1)
      ∧ redValue ty .add mode act v seed = ((out (levels - 1) 0).1,
          Flags.all ((List.range levels).flatMap fun l => (List.range (2 ^ (levels - l - 1))).map fun j => (out l j).2),
          seedAfter seed (if mode = .sr then 2 ^ levels - 1 else 0)))
  ∧ (∀ (ty : VType) (f : Fmt) (inf : Nat) (big : Bool) (mode : Mode) (act : Nat → Bool) (v : VWord) (seed : BitVec 32),
    (ty, f, inf) ∈ [(VType.f32, fmt32, 0x7F800000), (.bf16x2, fmt32, 0x7F800000), (.f16x2, fmt32, 0x7F800000),
      (.f64, fmt64, 0x7FF0000000000000)] →
    let wide (i : Nat) : Nat :=
      if ty = .bf16x2 ∨ ty = .f16x2 then (f.round .rne false 0 ((vfmt ty).decode (elemAt (vw ty) v i))).1
      else elemAt (vw ty) v i
    let none_ := if big then f.signBit true + inf else inf
    let r := ((List.range ty.count).filter act).foldl (fun (q : Nat × Flags) i =>
      let m := minMaxF f big q.1 (wide i)
      (m.1, q.2.or m.2)) (none_, Flags.none)
    redValue ty (if big then .max else .min) mode act v seed = (r.1, r.2, seed))
  ∧ (∀ (ty : VType) (mode : Mode) (act : Nat → Bool) (v : VWord) (seed : BitVec 32), ty.isInt = true →
    let x (i : Nat) : Int := elemInt ty (elemAt (vw ty) v i)
    let on := (List.range ty.count).filter act
    redValue ty .add mode act v seed = (intBits (vw ty) ((on.map x).sum), Flags.none, seed)
      ∧ (∀ op ∈ [RedOp.min, .max], ∃ r < 2 ^ vw ty, redValue ty op mode act v seed = (r, Flags.none, seed)
        ∧ (on = [] → elemInt ty r = if op = .min then vmax ty else vmin ty)
        ∧ (on ≠ [] → (∃ i ∈ on, elemInt ty r = x i)
          ∧ ∀ i ∈ on, if op = .min then elemInt ty r ≤ x i else x i ≤ elemInt ty r)))
  ∧ ∀ (ty : VType) (op : RedOp) (mode : Mode) (act : Nat → Bool) (v : VWord) (seed : BitVec 32), ty.isWide = true →
    let w := vw ty
    let f := vfmt ty
    let float : Bool := !ty.isInt
    let x (i : Nat) : Nat := elemAt w v i
    let n (i : Nat) : Nat := (List.range i).countP act
    let start : Nat := if float then
        (match op with | .add => 2 ^ (w - 1) | .min => f.infBits | .max => 2 ^ (w - 1) + f.infBits)
      else match op with | .add => 0 | .min => intBits w (vmax ty) | .max => intBits w (vmin ty)
    let both (i acc : Nat) : Nat × Flags :=
      if float then
        (match op with
          | .add => (sumF (mode == .rdn) [(f.decode acc).res, (f.decode (x i)).res]).round f mode (drawn mode seed (n i))
          | .min => minMaxF f false acc (x i)
          | .max => minMaxF f true acc (x i))
      else match op with
        | .add => (intBits w (elemInt ty acc + elemInt ty (x i)), Flags.none)
        | .min => (if elemInt ty (x i) < elemInt ty acc then x i else acc, Flags.none)
        | .max => (if elemInt ty acc < elemInt ty (x i) then x i else acc, Flags.none)
    let idle (acc : Nat) : Nat :=
      if float = true ∧ op = .add then
        ((sumF (mode == .rdn) [(f.decode acc).res, (FVal.fin true 0 0).res]).round f mode 0).1
      else acc
    ∃ acc : Nat → Nat, acc 0 = start
      ∧ (∀ i < ty.count, acc (i + 1) = if act i then (both i (acc i)).1 else idle (acc i))
      ∧ ∃ r fl, scanFrom ty op mode act v ty.count 0 (redIdent ty op) seed
          = (r, fl, seedAfter seed (if mode = .sr ∧ float = true then n ty.count else 0))
        ∧ fl = Flags.all (((List.range ty.count).filter act).map fun i => (both i (acc i)).2)
        ∧ ∀ i < ty.count, act i = true → elemAt w (BitVec.ofNat 1024 r) i = acc (i + 1) % 2 ^ w

end vectorMore

section vectorMemory

/-- R155, R171 to R174: a vector load whose lanes pass their checks completes with lane l of vD the 32-bit word at
lane l's address, poisoned with its granule; VLD and VLDS land after six cycles, VGATH after five and one for each
granule that it touches, and the gather port is taken until then. The lanes of VLD are 32 consecutive words at a
multiple of 128 bytes; those of VLDS are sext(e7<19:0>) apart; those of VGATH lie at the offsets that v(D+1) holds.
R127: a vector store whose lanes pass their checks, with nothing left in its context's store buffer or at the cell port,
leaves one entry in the buffer for each granule that it touches, with the lanes of the granule in ascending order, so that
the highest of two lanes of one address is written last; the context waits until the buffer has drained. The granules come in
the order of their lowest lanes, the model's reading of R173 and R174 (log 92). VSCAT takes the gather port until then. -/
def Obligations.VectorMemoryResults : Prop :=
  ∀ (s : State) (e : Env) (st : Stall) (v : VReg) (a : GReg) (off : BitVec 11) (o : Nat),
    let th := e.c.th
    let sd : Int := ((th.re 7).setWidth 20 : BitVec 20).toInt
    let u (l : Nat) : Nat := elemAt 32 (th.rv (v + 1)) l
  (
    let may (op : Op) (size : Nat) (addr : Nat → Nat) : Prop :=
      Ready s e op ∧ e.acquiring = false ∧ th.pg a = false ∧ NamesLocal (th.rg a) (off.toInt * 128) size o
        ∧ ∀ l < 32, ReadsLane e a (addr l)
    let fills (w : VWord) (p : KWord) (addr : Nat → Nat) : Prop :=
      ∀ l < 32, elemAt 32 w l = natOfBytes (e.t.sram.readBytes (addr l) 4) ∧ p.getLsbD l = e.t.granPois (addr l)
    let op (reads : List RegId) : Op := op32 st .notXc false 18 reads
    let grans (addr : Nat → Nat) : List Nat := (List.range 32).map fun l => addr l / 64
    let lands (op : Op) (w : VWord) (p : KWord) (addr : Nat → Nat) : State :=
      (e.readGrans (grans addr)).result op 6 [.v v w p] 0
    (may (op [.g a]) 128 (fun l => o + 4 * l) →
      ∃ w p, exec (.vld st v a off) s = .next (lands (op [.g a]) w p fun l => o + 4 * l)
        ∧ fills w p (fun l => o + 4 * l))
    ∧ (may (op [.g a, .e 7]) 4 (fun l => (o + l * sd).toNat) → sd % 4 = 0 →
      (∀ l : Nat, l < 32 → 0 ≤ o + l * sd ∧ o + l * sd ≤ 0xFFFFC) →
      ∃ w p, exec (.vlds st v a off) s = .next (lands (op [.g a, .e 7]) w p fun l => (o + l * sd).toNat)
        ∧ fills w p (fun l => (o + l * sd).toNat))
    ∧ (may (op [.g a, .v (v + 1)]) 1 (fun l => o + u l) → th.pv (v + 1) = 0 →
      (∀ l < 32, u l < 2 ^ 20 ∧ o + u l ≤ 0xFFFFC ∧ (o + u l) % 4 = 0) → e.t.gather.freeAt ≤ e.s.cycle →
      let n := 5 + (grans fun l => o + u l).dedup.length
      ∃ w p, fills w p (fun l => o + u l)
        ∧ exec (.vgath st v a off) s = .next (e.put
          { (e.readGrans (grans fun l => o + u l)).t with gather := ⟨e.s.cycle + n, e.s.cur.ctx, e.s.cycle⟩ }
          { e.c.atIssue e.s.cycle with
            th := (th.addPend (e.pending (op [.g a, .v (v + 1)]) n false [.v v w p] 0)).past (op []) (e.seqPc (op [])) })))
  ∧ (
    let may (op : Op) (size : Nat) (addr : Nat → Nat) : Prop :=
      Ready s e op ∧ e.acquiring = false ∧ th.pg a = false ∧ NamesLocal (th.rg a) (off.toInt * 128) size o
        ∧ e.c.sb = [] ∧ e.cellBusy = false ∧ ∀ l < 32, WritesLane e a v l (addr l)
    let stores (i : Instr) (op : Op) (addr : Nat → Nat) (gather : Res) : Prop :=
      ∃ gs : List Nat, gs.Pairwise (fun g h => ∃ l < 32, addr l / 64 = g ∧ ∀ k ≤ l, addr k / 64 ≠ h)
        ∧ (∀ g, g ∈ gs ↔ ∃ l < 32, addr l / 64 = g)
        ∧ exec i s = .next (({ e with s := { e.s with free := e.s.free + gs.length } } : Env).put
            { e.t with age := e.t.age + gs.length, gather }
            { e.c.atIssue e.s.cycle with
              busy := .drain
              sb := gs.zipIdx.map fun (p : Nat × Nat) =>
                let ls := (List.range 32).filter fun l => addr l / 64 == p.1
                { age := e.t.age + p.2, readyAt := e.s.cycle + 1, addr := 64 * p.1, len := 64, abinit := false, vec := true
                  pois := ls.any fun l => (th.pv v).getLsbD l
                  data := ls.flatMap fun l =>
                    (List.range 4).map fun i => (addr l + i, BitVec.ofNat 8 (elemAt 32 (th.rv v) l / 256 ^ i)) }
              th := th.past op (e.seqPc op) })
    let op (reads : List RegId) : Op := op32 st .notXc true 18 reads
    (may (op [.g a, .v v]) 128 (fun l => o + 4 * l) →
      stores (.vst st v a off) (op [.g a, .v v]) (fun l => o + 4 * l) e.t.gather)
    ∧ (may (op [.g a, .e 7, .v v]) 4 (fun l => (o + l * sd).toNat) → sd % 4 = 0 →
      (∀ l : Nat, l < 32 → 0 ≤ o + l * sd ∧ o + l * sd ≤ 0xFFFFC) →
      stores (.vsts st v a off) (op [.g a, .e 7, .v v]) (fun l => (o + l * sd).toNat) e.t.gather)
    ∧ (may (op [.g a, .v v, .v (v + 1)]) 1 (fun l => o + u l) → th.pv (v + 1) = 0 →
      (∀ l < 32, u l < 2 ^ 20 ∧ o + u l ≤ 0xFFFFC ∧ (o + u l) % 4 = 0) → e.t.gather.freeAt ≤ e.s.cycle →
      stores (.vscat st v a off) (op [.g a, .v v, .v (v + 1)]) (fun l => o + u l)
        ⟨untilEvent, e.s.cur.ctx, e.s.cycle⟩))

/-- R23, R39, R40, R171 to R174, R266, R267, R380, R383: where a vector load or store traps or parks, pass by pass: POISON on
the base and on an offset lane; the pointer of the base and its offset; the alignment of the instruction; each lane's address,
BOUNDS of the lowest lane first and then MISALIGN; the granules in ascending order, region, barrier words and tag; POISON of a
lane stored outside the frame; the owner of each block stored to; and for a load the park on the first block that may not be
read. LANE is the lowest lane that touches the granule, and 0 for VLD and VST (log 78); TVAL2 of FORM 0 is log 15. -/
def Obligations.VectorMemoryTraps : Prop :=
  ∀ (s : State) (e : Env) (st : Stall) (v : VReg) (a : GReg) (off : BitVec 11) (gs : List Nat) (low : Nat → Nat),
    e.acquiring = false →
    let th := e.c.th
    let p := th.rg a
    let d : Int := off.toInt * 128
    let base : Int := (p.toNat % 2 ^ 20 : Nat) + d
    let o := base.toNat
    let sd : Int := ((th.re 7).setWidth 20 : BitVec 20).toInt
    let u (l : Nat) : Nat := elemAt 32 (th.rv (v + 1)) l
    let lanes := List.range 32
    let aligned (ok : Prop) : Check := ⟨ok, cMisalign, 0, withOff p o, e.t.access o 0 0⟩
    let offsets : List Check := lanes.map fun l =>
      ⟨(th.pv (v + 1)).getLsbD l = false, cPoison, 0, (RegId.v (v + 1)).word l, 0⟩
    let inRange (addr : Nat → Int) (ok : Nat → Prop) : List Check := lanes.map fun l =>
      ⟨ok l ∧ 0 ≤ addr l ∧ addr l ≤ 0xFFFFC, cBounds, 2, BitVec.ofInt 64 (addr l), accessNone l 0⟩
    let wordAligned (addr : Nat → Int) : List Check := lanes.map fun l =>
      ⟨addr l % 4 = 0, cMisalign, 0, withOff p (addr l).toNat, e.t.access (addr l).toNat l 0⟩
    let granules (addr : Nat → Int) : Prop :=
      gs.Pairwise (· < ·) ∧ (∀ g, g ∈ gs ↔ ∃ l < 32, (addr l).toNat / 64 = g)
        ∧ ∀ g ∈ gs, low g < 32 ∧ (addr (low g)).toNat / 64 = g ∧ ∀ l < low g, (addr l).toNat / 64 ≠ g
    let first (addr : Nat → Int) (g : Nat) : Nat := (addr (low g)).toNat
    let names (named : Bool) (addr : Nat → Int) (g : Nat) : Word := e.t.access (first addr g) (if named then low g else 0) 0
    let passes (stores named : Bool) (addr : Nat → Int) : List Check := gs.flatMap fun g =>
      let x := first addr g
      let r := e.t.carve.region x
      let tval := withOff p x
      let acc := names named addr g
      [if a.val = 13 ∨ a.val = 14 then ⟨r = .frame → e.t.carve.inFrame x 4 e.s.cur.ctx = true, cFrame, 0, tval, acc⟩
       else ⟨r = .frame → e.t.carve.inFrame x 4 e.s.cur.ctx = true, cBounds, 1, tval, acc⟩,
       ⟨stores = true → r ≠ .code, cBounds, 1, tval, acc⟩,
       ⟨stores = true → r = .cell → ∀ l < 32, (addr l).toNat / 64 = g → e.t.hitsWord1 (addr l).toNat 4 = false, cBounds, 1, tval, acc⟩,
       ⟨e.t.granTag x = ptrTag p, if r = .block then cStale else cTag, 0, tval, acc⟩]
    let storing (named : Bool) (addr : Nat → Int) : List Check :=
      (lanes.map fun l => ⟨(th.pv v).getLsbD l = true → e.t.carve.region (addr l).toNat = .frame, cPoison, 0, (RegId.v v).word l, 0⟩)
      ++ gs.map fun g =>
        let x := first addr g
        let m := e.t.block (e.t.blockOf x)
        ⟨WritableAt e x, if m.state = .full then cSecond else cOwner, 0, withOff p x, names named addr g⟩
    let op (stores : Bool) (reads : List RegId) : Op := op32 st .notXc stores 18 reads
    let loads (i : Instr) (op : Op) (before : List Check) (named : Bool) (addr : Nat → Int) : Prop :=
      granules addr → e.Traps s i op (before ++ passes false named addr)
        ∧ (Ready s e op → e.speculative = false → (∀ x ∈ before ++ passes false named addr, x.ok) →
          ∀ pre g post, gs = pre ++ g :: post → (∀ h ∈ pre, ReadableAt e (first addr h)) → ¬ ReadableAt e (first addr g) →
            e.parks (exec i s) (e.t.blockOf (first addr g)))
    let stores (i : Instr) (op : Op) (before : List Check) (named : Bool) (addr : Nat → Int) : Prop :=
      granules addr → e.Traps s i op (before ++ passes true named addr ++ storing named addr)
    let dense (l : Nat) : Int := base + 4 * l
    let strided (l : Nat) : Int := base + l * sd
    let gathered (l : Nat) : Int := base + u l
    let plain := e.cleanCheck a :: e.pointerChecks p d ++ [aligned (o % 128 = 0)]
    let stride := e.cleanCheck a :: e.pointerChecks p d ++ [aligned (sd % 4 = 0 ∧ o % 4 = 0)] ++ inRange strided fun _ => True
    let gather := e.cleanCheck a :: offsets ++ e.pointerChecks p d ++ inRange gathered (fun l => u l < 2 ^ 20) ++ wordAligned gathered
    loads (.vld st v a off) (op false [.g a]) plain false dense
      ∧ loads (.vlds st v a off) (op false [.g a, .e 7]) stride true strided
      ∧ loads (.vgath st v a off) (op false [.g a, .v (v + 1)]) gather true gathered
      ∧ stores (.vst st v a off) (op true [.g a, .v v]) plain false dense
      ∧ stores (.vsts st v a off) (op true [.g a, .e 7, .v v]) stride true strided
      ∧ stores (.vscat st v a off) (op true [.g a, .v v, .v (v + 1)]) gather true gathered

end vectorMemory

section matrix

/-- R177, R180, R185 to R188: MMA, MMAT and MMAS are accepted when their command word is legal, their operands and the scale
records lie in blocks that may be read, fewer than eight commands are outstanding and no store that overlaps them is buffered:
the command starts four cycles later, or when its pipe is free and the owners of its accumulators are done, takes the cycles of
its class and is done twelve cycles after its last; the blocks that it reads are held until then. R177, R185, R190 to R195:
MZERO, MLD, MST and MACC are accepted when no outstanding command owns an accumulator of theirs and fewer than eight are
outstanding; MZERO takes four cycles of the move pipe, MLD and MST four and one for each 128 bytes, MACC 32 of the compute pipe,
or 64 for a pair. MST arms its blocks for the matrix engine, 26. R190, R195, R196: MWAIT goes on once no outstanding command
owns the accumulator, MWAIT.all once none is outstanding, and until then they are held at issue; MSTAT reads the status word,
and with .c clears the accumulator's flags. MZERO, MLD, MST and MACC on an accumulator that an outstanding command owns raise
ACC-BUSY: TVAL is the lowest busy accumulator of theirs, TVAL2 names the oldest command that owns it. -/
def Obligations.MatrixIssue : Prop :=
  (
    ∀ (s : State) (e : Env) (st : Stall) (n : AccReg) (a b : GReg) (z : Bool),
      let th := e.c.th
      let c := MxCfg.of (th.re 0)
      let sps := mmaSpans c (th.rg a) (th.rg b) (th.re 1) (th.re 2)
      let op := op32 st .notXc true 20 [.g a, .g b, .e 0, .e 1, .e 2]
      let owns : List Nat := if c.pair then [n.val, n.val + 1] else [n.val]
      let free := ((e.t.mx.filter fun p => p.owns.any owns.contains).map MxCmd.done).foldl max 0
      let start := max (max (e.s.cycle + 4) e.t.mxComputeFree) free
      let last := start + mxCycles c.afmt c.k - 1
      let accepts (i : Instr) (f6 : Nat) : Prop :=
        exec i s = .next (e.put
          { e.t with
            mx := e.t.mx ++ [{ mxCmd f6 n with
              pair := c.pair, z, cfg := th.re 0, pa := th.rg a, pb := th.rg b, sa := th.re 1, sb := th.re 2
              seq := e.t.mxSeq, ctx := e.s.cur.ctx, start, last, done := last + 13 }]
            mxSeq := (e.t.mxSeq + 1) % 2 ^ 16, mxComputeFree := last + 1
            reads := e.t.reads ++ [{ blocks := sps.flatMap e.t.spanBlocks, last, ctx := some e.s.cur.ctx, job := .none }] }
          { e.c.atIssue e.s.cycle with th := th.past op (e.seqPc op) })
      Ready s e op → th.pg a = false → th.pg b = false → (∀ sp ∈ sps, ReadsSpan e sp) → e.t.mx.length < 8 →
        (mmaOk c n false = true → accepts (.mma st n a b z) 3 ∧ accepts (.mmas st n a b z) 5)
        ∧ (mmaOk c n true = true → accepts (.mmat st n a b z) 4))
  ∧ (
    ∀ (s : State) (e : Env) (st : Stall) (n src : AccReg) (a : GReg),
      let th := e.c.th
      let c := MxCfg.of (th.re 0)
      let op (reads : List RegId) : Op := op32 st .notXc true 20 reads
      let idle (l : List AccReg) : Prop := e.t.mx.length < 8 ∧ ∀ r ∈ l, e.t.accBusy r.val = false
        ∧ (c.pair = true → e.t.accBusy (r.val + 1) = false)
      let bytes := 4096 * ofmtSize c.ofmt
      let start := max (e.s.cycle + 1) e.t.mxMoveFree
      let put (q : MxCmd) (start cycles lag : Nat) : MxCmd :=
        { q with seq := e.t.mxSeq, ctx := e.s.cur.ctx, start, last := start + cycles - 1, done := start + cycles + lag }
      let tile (q : MxCmd) (cycles : Nat) (reads : List EngRead) : Tile :=
        { e.t with mx := e.t.mx ++ [put q start cycles 0], mxSeq := (e.t.mxSeq + 1) % 2 ^ 16, mxMoveFree := start + cycles
                   reads }
      let moves (i : Instr) (op : Op) (t : Tile) : Prop :=
        exec i s = .next (e.put t { e.c.atIssue e.s.cycle with th := th.past op (e.seqPc op) })
      let loads : Span := ⟨th.rg a, bytes, 64, 0⟩
      let stores : Span := ⟨th.rg a, bytes, 2048, 0⟩
      (Ready s e (op []) → e.t.mx.length < 8 → e.t.accBusy n.val = false →
        moves (.mzero st n) (op []) (tile (mxCmd 0 n) 4 e.t.reads))
      ∧ (Ready s e (op [.g a, .e 0]) → memFmtOk c n = true → idle [n] → th.pg a = false →
        (ReadsSpan e loads → moves (.mld st n a) (op [.g a, .e 0])
          (tile { mxCmd 1 n with pair := c.pair, cfg := th.re 0, pa := th.rg a } (4 + bytes / 128)
            (e.t.reads ++ [{ blocks := e.t.spanBlocks loads, last := start + (4 + bytes / 128) - 1
                             ctx := some e.s.cur.ctx, job := .none }])))
        ∧ (NamesSpan e stores →
          (∀ b ∈ e.t.spanBlocks stores, (e.t.block b).state = .empty
            ∨ ((e.t.block b).state = .deferred ∧ (e.t.block b).armed = true ∧ (e.t.block b).owner = 26)) →
          exec (.mst st n a) s = .next (e.tiled (op [.g a, .e 0]) ((e.t.spanBlocks stores).foldl
            (fun t b => t.arm b 26)
            (tile { mxCmd 2 n with pair := c.pair, cfg := th.re 0, pa := th.rg a, seed := th.seed, rmode := th.rmode }
              (4 + bytes / 128) e.t.reads)))))
      ∧ (Ready s e (op [.e 0]) → c.rsv = false → pairOk c.pair n = true → pairOk c.pair src = true → idle [n, src] →
        let q := { mxCmd 6 n with src := src.val, pair := c.pair, cfg := th.re 0 }
        let free := ((e.t.mx.filter fun p => p.owns.any q.owns.contains).map MxCmd.done).foldl max 0
        let start := max (max (e.s.cycle + 4) e.t.mxComputeFree) free
        let cycles := if c.pair then 64 else 32
        exec (.macc st n src) s = .next (e.put
          { e.t with mx := e.t.mx ++ [put q start cycles 12], mxSeq := (e.t.mxSeq + 1) % 2 ^ 16
                     mxComputeFree := start + cycles }
          { e.c.atIssue e.s.cycle with th := th.past (op [.e 0]) (e.seqPc (op [])) })))
  ∧ (
    ∀ (s : State) (e : Env) (st : Stall) (n src : AccReg) (d a : GReg),
      let op := op32 st .notXc true 20 []
      let idx := ((List.range 4).map fun i => if e.t.accBusy i then 2 ^ i else 0).sum
      let old := match e.t.mx with | [] => e.t.mxSeq | q :: _ => q.seq
      let acc := e.t.accs.get n
      let word : Word := BitVec.ofNat 64 (idx + e.t.mx.length * 2 ^ 4 + acc.xflags.toNat * 2 ^ 8
        + (if acc.pois = 0 then 0 else 2 ^ 13) + old * 2 ^ 16 + e.t.mxSeq * 2 ^ 32)
      let reads : Thread := (e.c.th.addPend (e.pending op 1 true [.g d word false] 0)).past op (e.seqPc op)
      let c := MxCfg.of (e.c.th.re 0)
      let held : State := e.put e.t { e.c with spent := e.s.cycle + 1 }
      let busy (i : Instr) (reads : List RegId) (owns : List AccReg) : Prop :=
        Ready s e (op32 st .notXc true 20 reads) → e.s.cur.ctx ≠ 17 → ∀ m q,
          (∃ r ∈ owns, m = r.val ∨ (c.pair = true ∧ reads ≠ [] ∧ m = r.val + 1)) → e.t.accBusy m = true →
          (∀ j < m, (∃ r ∈ owns, j = r.val ∨ (c.pair = true ∧ reads ≠ [] ∧ j = r.val + 1)) → e.t.accBusy j = false) →
          e.t.mx.find? (fun x => x.owns.contains m) = some q →
          exec i s = .next (e.trapped cAccBusy 0 (w64 m) (w64 (q.seq + q.ctx * 2 ^ 16 + q.f6 * 2 ^ 21)))
      (Ready s e op →
        (e.t.accBusy n.val = false → exec (.mwait st n) s = .next (e.plain op (e.seqPc op)))
        ∧ (e.t.accBusy n.val = true → exec (.mwait st n) s = .next held)
        ∧ (e.t.mx = [] → exec (.mwaitAll st) s = .next (e.plain op (e.seqPc op)))
        ∧ (e.t.mx ≠ [] → exec (.mwaitAll st) s = .next held)
        ∧ exec (.mstat st d n false) s = .next (e.result op 1 [.g d word false] 0)
        ∧ exec (.mstat st d n true) s = .next (e.put { e.t with accs := e.t.accs.set n { acc with xflags := 0 } }
            { e.c.atIssue e.s.cycle with th := reads }))
      ∧ busy (.mzero st n) [] [n]
      ∧ (memFmtOk c n = true → busy (.mld st n a) [.g a, .e 0] [n] ∧ busy (.mst st n a) [.g a, .e 0] [n])
      ∧ (c.rsv = false → pairOk c.pair n = true → pairOk c.pair src = true → busy (.macc st n src) [.e 0] [n, src]))

/-- R26, R39, R176, R181, R185: where the matrix commands trap, park or are held at issue: ILLEGAL for a field that R181
forbids; POISON on a pointer; the checks of each span in the order A, B and the two scale planes; SECOND-WRITE and NOT-OWNER for
the destination blocks of MST; then the park on the first block that may not be read, and the holds for eight outstanding
commands and for buffered stores that overlap a span. TVAL2 of a span's BOUNDS is log 15; where an accumulator is busy,
MatrixIssue speaks. -/
def Obligations.MatrixTraps : Prop :=
  ∀ (s : State) (e : Env) (st : Stall) (n src : AccReg) (a b : GReg) (z : Bool),
    let th := e.c.th
    let w := th.re 0
    let K := fld w 15 0
    let bytes := [16384, 8192, 8192, 4096, 4096, 32768].getD (fld w 31 28) 0
    let pair : Prop := w.getLsbD 24 = true
    let even (r : AccReg) : Prop := pair → r.val % 2 = 0
    let clear : Prop := w.getLsbD 27 = false ∧ fld w 63 35 = 0
    let formats := [(16, 32, 0), (16, 32, 0), (8, 64, 0), (8, 64, 0), (8, 64, 1), (8, 64, 1), (4, 128, 1), (8, 64, 2),
      (4, 128, 2), (64, 8, 0)]
    let fa := formats.getD (fld w 19 16) (0, 1, 0)
    let fb := formats.getD (fld w 23 20) (0, 1, 0)
    let isBlock (code : Nat) : Prop := 4 ≤ code ∧ code ≤ 8
    let legal (mmat : Bool) : Prop := clear ∧ fld w 19 16 ≤ 9 ∧ fld w 23 20 ≤ 9 ∧ fa.1 = fb.1 ∧ K ≠ 0 ∧ K % fa.2.1 = 0
      ∧ (pair ↔ fld w 19 16 = 9) ∧ (isBlock (fld w 19 16) → w.getLsbD 25 = true)
      ∧ (isBlock (fld w 23 20) → w.getLsbD 26 = true ∧ mmat = true) ∧ even n
    let legalMem : Prop := clear ∧ fld w 31 28 ≤ 5 ∧ (fld w 31 28 = 5 → pair) ∧ even n
    let op (reads : List RegId) : Op := op32 st .notXc true 20 reads
    let plane (rec : Nat) (p : Word) (opnd : Nat) : List Span :=
      if rec = 0 then [] else [⟨p, 64 * rec * (K / 32), rec, opnd⟩]
    let spans : List Span := [⟨th.rg a, 64 * K * fa.1 / 8, 64, 0⟩, ⟨th.rg b, 64 * K * fb.1 / 8, 64, 1⟩]
      ++ plane fa.2.2 (th.re 1) 2 ++ plane fb.2.2 (th.re 2) 3
    let load : Span := ⟨th.rg a, bytes, 64, 0⟩
    let store : Span := ⟨th.rg a, bytes, 2048, 0⟩
    let free (l : List AccReg) : Prop := ∀ r ∈ l, e.t.accBusy r.val = false ∧ (pair → e.t.accBusy (r.val + 1) = false)
    let readable (m : Nat) : Prop := (e.t.block m).state = .full
      ∨ ((e.t.block m).state = .deferred ∧ (e.t.block m).owner = e.s.cur.ctx)
    let goesWrong (i : Instr) (op : Op) (checks : List Check) (sps : List Span) : Prop :=
      e.Traps s i op checks
      ∧ (Ready s e op → (∀ x ∈ checks, x.ok) →
        (∀ before m after, sps.flatMap e.t.spanBlocks = before ++ m :: after → (∀ k ∈ before, readable k) → ¬ readable m →
          e.parks (exec i s) m)
        ∧ ((∀ m ∈ sps.flatMap e.t.spanBlocks, readable m) →
          (8 ≤ e.t.mx.length ∨ ∃ sp ∈ sps, e.c.sbHits (ptrOff sp.p) sp.size ≠ []) → exec i s = .next e.held))
    let family (i : Instr) (mmat : Bool) : Prop :=
      goesWrong i (op [.g a, .g b, .e 0, .e 1, .e 2])
        ([e.legalCheck (legal mmat), e.cleanCheck a, e.cleanCheck b] ++ spans.flatMap e.matrixSpanChecks) spans
    family (.mma st n a b z) false ∧ family (.mmat st n a b z) true ∧ family (.mmas st n a b z) false
      ∧ (free [n] →
        goesWrong (.mld st n a) (op [.g a, .e 0])
          ([e.legalCheck legalMem, e.cleanCheck a] ++ e.matrixSpanChecks load) [load]
        ∧ goesWrong (.mst st n a) (op [.g a, .e 0])
          ([e.legalCheck legalMem, e.cleanCheck a] ++ e.matrixSpanChecks store
            ++ e.armChecks (th.rg a) (e.t.spanBlocks store) 26) []
        ∧ goesWrong (.mzero st n) (op []) [] [])
      ∧ (free [n, src] → goesWrong (.macc st n src) (op [.e 0]) [e.legalCheck (clear ∧ even n ∧ even src)] [])

end matrix

section transfers

/-- R198 to R210, R234: XSEND, XMCAST and XPUT are accepted by XC when the transfer word is legal, their source is a span of
blocks and the queue has room: the command is held with its source, its destination and one mark for each block and destination,
and its first source read is asked for. XPUT takes the lowest free journal entry. XMCAST's e5 is taken with no check of its
region and generation at issue: the model's reading (log 70). R220, R222: PITCH and PITCHQ with clean registers and a legal word
send one invocation with the word and g4 to g9, and their context waits for the answer; with the answer PITCH goes on where the
status is below 8 and raises PITCH-REFUSED otherwise, with the status and the word that was sent, and PITCHQ goes on with the
status in gA. -/
def Obligations.SendAndPitchResults : Prop :=
  (
    ∀ (s : State) (e : Env) (st : Stall) (ord : XOrd) (a b : GReg) (n : Nat),
      let th := e.c.th
      let p := th.rg a
      let q := th.rg b
      let op (reads : List RegId) : Op := op32 st .xcOnly true 21 reads
      let asks : List (Nat × Nat) := e.t.readReqs ++ [(e.s.cycle + 1 + e.delay, e.s.nextReq)]
      let sends (i : Instr) (op : Op) (c : Cmd) (t : Tile) : Prop :=
        exec i s = .next (({ e with s := { e.s with free := e.s.free + 1, nextReq := e.s.nextReq + 1 } } : Env).put
          { t with cmds := e.t.cmds.set e.s.nextReq c, readReqs := asks, age := e.t.age + 1 }
          { e.c.atIssue e.s.cycle with th := th.past op (e.seqPc op) })
      th.pg a = false → th.pg b = false → TransferWord (th.re 4) n → NamesBlocks e q n → e.queueFree →
        (Ready s e (op [.g a, .g b, .e 4]) → ptrSpace p = 2 → ptrBad p = false → fld p 10 0 = 0 →
          fld p 55 40 = e.s.pkgid.toNat → fld p 37 32 = e.s.cur.dom → fld p 31 20 < e.d.nrank →
          sends (.xsend st a b) (op [.g a, .g b, .e 4]) (newCmd e 0 .relaxed p q n [fld p 31 20] n) e.t)
        ∧ (∀ ranks, Ready s e (op [.g a, .g b, .e 4, .e 5]) → rectRanks e.d p = .ok ranks →
          NamesLocal (th.re 5) 0 2048 (ptrOff (th.re 5)) →
          sends (.xmcast st a b) (op [.g a, .g b, .e 4, .e 5])
            (newCmd e 1 .relaxed (th.re 5) q n ranks (n * ranks.length)) e.t)
        ∧ (∀ j < 64, Ready s e (op [.g a, .g b, .e 4]) → (ptrSpace p = 1 ∨ ptrSpace p = 2) → ptrBad p = false →
          ¬(ptrSpace p = 2 ∧ fld p 55 40 = e.s.pkgid.toNat ∧ fld p 37 32 = e.s.cur.dom) → fld p 10 0 = 0 →
          e.released ord → e.t.journal.find j = none → (∀ i < j, (e.t.journal.find i).isSome) →
          sends (.xput st ord a b) (op [.g a, .g b, .e 4])
            { newCmd e 3 ord p q n [] n with journal := some j }
            { e.t with
              journal := e.t.journal.set j ⟨false, 0, 0, n, e.t.xputSeq, p, q⟩
              xputSeq := (e.t.xputSeq + 1) % 2 ^ 16 }))
  ∧ (
    ∀ (s : State) (e : Env) (st : Stall) (ord : XOrd) (a b : GReg) (status : Nat) (word : Word),
      let th := e.c.th
      let w := th.rg b
      let args : List GReg := [4, 5, 6, 7, 8, 9]
      let op := op32 st .notSv true 23 ((b :: args).map RegId.g)
      let asks (i : Instr) (f6 : Nat) : Prop :=
        ∃ t u, exec i s = .next t ∧ t.env? = some u ∧ u.c.busy = .pitch e.s.nextReq ∧ u.c.th = th
          ∧ u.t.cmds = e.t.cmds.set e.s.nextReq { newCmd e f6 ord 0 w 0 [] 1 with major := 23 }
          ∧ (fld w 47 32 = e.s.pkgid.toNat → ∃ m, t.msgs.find e.s.nextMsg = some m ∧ m.kind = .invoke
            ∧ m.dst = .unit (fld w 21 16) ∧ m.args = w :: args.map th.rg)
      Ready s e op →
        (th.pg b = false → (∀ r ∈ args, th.pg r = false) → fld w 15 12 = 0 → fld w 31 22 = 0 → fld w 63 48 = 0 →
          e.released ord → e.c.busy = .none → asks (.pitch st ord b) 0 ∧ asks (.pitchq st ord a b) 1)
        ∧ (e.c.busy = .pitchDone status word →
          (status < 8 → exec (.pitch st ord b) s = .next (e.put e.t { e.c.atIssue e.s.cycle with
            busy := .none, th := th.past op (e.seqPc op) }))
          ∧ (8 ≤ status → e.s.cur.ctx ≠ 17 → exec (.pitch st ord b) s = .next (e.trapped cPitch 0 (w64 status) word))
          ∧ exec (.pitchq st ord a b) s
            = .next (({ e with s := { e.s with free := e.s.free + 1 } } : Env).put { e.t with age := e.t.age + 1 }
              { e.c.atIssue e.s.cycle with
                busy := .none
                th := (th.addPend (e.pending op (1 + e.delay) false [.g a (w64 status) false] 0)).past op
                  (e.seqPc op) })))

/-- R198 to R203, R208, R211: XGET and XFEED arm their destination blocks at acceptance, XGET for the exchange engine,
or for the fabric where the source is a tile of another domain or package, XFEED for the feed engine; no other block
changes. XFEED counts itself on its barrier. -/
def Obligations.ReadCommandResults : Prop :=
  ∀ (s : State) (e : Env) (st : Stall) (ord : XOrd) (a b : GReg) (n : Nat),
    let th := e.c.th
    let p := th.rg a
    let q := th.rg b
    let x := th.re 5
    let op (who : Who) (reads : List RegId) : Op := op32 st who true 21 reads
    let b0 := e.t.blockOf (ptrOff p)
    let other : Prop := ptrSpace q = 2 ∧ ¬(fld q 55 40 = e.s.pkgid.toNat ∧ fld q 37 32 = e.s.cur.dom)
    let reads (i : Instr) (op : Op) (c : Cmd) (agent : Nat) (sram : Mem) : Prop :=
      ∃ t u, exec i s = .next t ∧ t.env? = some u ∧ u.c.th = th.past op (e.seqPc op)
        ∧ u.t.cmds = e.t.cmds.set e.s.nextReq c ∧ t.nextReq = e.s.nextReq + 1 ∧ u.t.sram = sram
        ∧ (∀ k < n, u.t.block (b0 + k) = { e.t.block (b0 + k) with state := .deferred, owner := agent, armed := true })
        ∧ (∀ m, (∀ k < n, m ≠ b0 + k) → u.t.block m = e.t.block m)
    th.pg a = false → th.pg b = false → TransferWord (th.re 4) n → NamesBlocks e p n → fld q 10 0 = 0 →
      ptrBad q = false → e.released ord →
      (∀ agent, Ready s e (op .xcOnly [.g a, .g b, .e 4]) → (ptrSpace q = 1 ∨ ptrSpace q = 2) → e.queueFree →
        (agent = 27 ∧ other ∨ agent = 24 ∧ ¬ other) → (∀ k < n, Armable e (b0 + k) agent) →
        reads (.xget st ord a b) (op .xcOnly [.g a, .g b, .e 4]) (newCmd e 2 ord p q n [] n) agent e.t.sram)
      ∧ (Ready s e (op .notSv [.g a, .g b, .e 4, .e 5]) → ptrSpace q = 1 → (∀ k < n, Armable e (b0 + k) 25) →
        (e.t.cmds.filter fun c => c.2.major == 21 && c.2.f6 == 4).length < 16 →
        (x = 0 → reads (.xfeed st ord a b) (op .notSv [.g a, .g b, .e 4, .e 5])
          { newCmd e 4 ord p q n [] n with bar := none } 25 e.t.sram)
        ∧ (x ≠ 0 → NamesLocal x 0 16 (ptrOff x) → e.t.carve.region (ptrOff x) = .cell →
          e.t.granTag (ptrOff x) = ptrTag x → e.t.nfeed (ptrOff x) ≠ 255 → e.acquiring = false →
          e.c.sbHits (ptrOff x) 16 = [] → e.cellHits (ptrOff x) 16 = false →
          reads (.xfeed st ord a b) (op .notSv [.g a, .g b, .e 4, .e 5])
            { newCmd e 4 ord p q n [] n with bar := some (ptrOff x) } 25
            (e.t.setWord1 (ptrOff x) (e.t.nfeed (ptrOff x) + 1) (e.t.waiter (ptrOff x))).sram))

/-- R198 to R203, R213 to R215: XCOMB leaves one combine with its operand on its way to the home of its cell; XROUTE
takes its target from the routing directory and counts the block sent there; XCLOSE closes the tile. -/
def Obligations.CombineAndRouteResults : Prop :=
  ∀ (s : State) (e : Env) (st : Stall) (ord : XOrd) (f : CombOp) (a b : GReg) (o : Nat) (bs : List Byte),
    let th := e.c.th
    let p := th.rg a
    let q := th.rg b
    let x := th.re 5
    let w := natOfBytes bs
    let op (reads : List RegId) : Op := op32 st .xcOnly true 21 reads
    let accepts (i : Instr) (op : Op) (c : Cmd) (q : State → Env → Prop) : Prop :=
      ∃ t u, exec i s = .next t ∧ t.env? = some u ∧ u.c.th = th.past op (e.seqPc op)
        ∧ u.t.cmds = e.t.cmds.set e.s.nextReq c ∧ t.nextReq = e.s.nextReq + 1 ∧ u.t.sram = e.t.sram
        ∧ u.t.blocks = e.t.blocks ∧ q t u
    e.queueFree →
      (Ready s e (op [.g a, .g b]) → th.pg a = false → th.pg b = false → e.released ord →
        (NamesLocal p 0 8 (ptrOff p) → e.t.carve.region (ptrOff p) = .cell → e.t.granTag (ptrOff p) = ptrTag p →
          accepts (.xcomb st f ord a b) (op [.g a, .g b])
            { newCmd e 5 ord p q 1 [e.s.cur.rank] 1 with args := [w64 (combCode f)] } fun t _ =>
              ∃ m, t.msgs.find e.s.nextMsg = some m ∧ m.kind = .combine ∧ m.args = [q, w64 (combCode f)]
                ∧ m.dst = .tile e.s.cur.dom e.s.cur.rank ∧ m.addr = ptrOff p)
        ∧ (ptrSpace p = 2 → ptrBad p = false → fld p 2 0 = 0 →
          accepts (.xcomb st f ord a b) (op [.g a, .g b])
            { newCmd e 5 ord p q 1 [] 1 with args := [w64 (combCode f)] } fun t _ =>
              fld p 55 40 = e.s.pkgid.toNat → ∃ m, t.msgs.find e.s.nextMsg = some m ∧ m.kind = .combine
                ∧ m.args = [q, w64 (combCode f)] ∧ m.dst = .tile (fld p 37 32) (fld p 31 20) ∧ m.addr = ptrOff p))
      ∧ (Ready s e (op [.g a, .g b, .e 4, .e 5]) → th.pg a = false → th.pg b = false → e.d.routed = true →
        fld (th.re 4) 11 9 = 0 → fld (th.re 4) 15 13 = 0 → fld (th.re 4) 63 28 = 0 → p.toNat < fld (th.re 4) 27 16 →
        NamesBlocks e q 1 → NamesLocal x (8 * p.toNat : Nat) 8 o → e.t.carve.region o = .cell →
        e.t.granTag o = ptrTag x → e.acquiring = false → e.cellHits o 8 = false →
        loadBytes e.c e.t o 8 = some bs → e.t.granPois o = false → w / 2 ^ 24 = 0 →
        w / 2 ^ 12 ≠ 0 → w % 2 ^ 12 + w / 2 ^ 12 ≤ e.d.nrank →
        let target := w % 2 ^ 12 + e.s.cur.rank % (w / 2 ^ 12)
        let sent := e.t.routes.getD target 0
        e.t.closed = false → sent < 4096 →
        accepts (.xroute st a b) (op [.g a, .g b, .e 4, .e 5])
          { newCmd e 6 .relaxed p q 1 [target] 1 with args := [w64 sent, w64 (fld p 11 0)] } fun _ u =>
            u.t.routes = e.t.routes.set target (sent + 1))
      ∧ (Ready s e (op []) → e.d.routed = true → e.t.closed = false →
        accepts (.xclose st) (op [])
          { newCmd e 7 .relaxed 0 0 0 (List.range e.d.nrank) e.d.nrank with ctx := 16 } fun _ u =>
            u.t.closed = true)

/-- R207, R216, R218, R219: XRECV arms its blocks for the exchange engine and expects them; XRECV.route declares the
inbox, whose directory's count starts at zero; XEND ends the phase of XC; XWAIT completes once XC's transfers are
acknowledged, XWAIT.recv once every block that it expects has been filled as well, and its result, the refused
transfers, is interlocked. -/
def Obligations.ReceiveResults : Prop :=
  ∀ (s : State) (e : Env) (st : Stall) (a : GReg) (n : Nat),
    let th := e.c.th
    let p := th.rg a
    let x := th.re 5
    let op (major : Nat) (reads : List RegId) : Op := op32 st .xcOnly true major reads
    let b0 := e.t.blockOf (ptrOff p)
    let blocks := (List.range n).map (b0 + ·)
    let armed : Tile := blocks.foldl (fun t b => (t.arm b 24).wakePool e.s.cycle true (some b)) e.t
    let waited : Op := op 22 []
    let waits (i : Instr) : Prop :=
      exec i s = .next (({ e with s := { e.s with free := e.s.free + 1 } } : Env).put
        { e.t with age := e.t.age + 1 } { e.c.atIssue e.s.cycle with
        th := (th.addPend (e.pending waited (1 + e.delay) false [.g a (w64 e.t.xrefused) false] 0)).past
          waited (e.seqPc waited) })
    (th.pg a = false → TransferWord (th.re 4) n → NamesBlocks e p n → (∀ k < n, Armable e (b0 + k) 24) →
      (Ready s e (op 21 [.g a, .e 4]) →
        exec (.xrecv st a) s = .next (e.tiled (op 21 [.g a, .e 4]) { armed with recvs := e.t.recvs ++ blocks }))
      ∧ (Ready s e (op 21 [.g a, .e 4, .e 5]) → e.d.routed = true → e.t.inboxUsed = false →
        NamesLocal x 0 8 (ptrOff x) → e.acquiring = false → e.c.sbHits (ptrOff x) 8 = [] →
        e.cellHits (ptrOff x) 8 = false →
        (∀ k ≤ n, e.t.carve.region (ptrOff x + 8 * k) = .cell ∧ e.t.granTag (ptrOff x + 8 * k) = ptrTag x) →
        ∃ t u, exec (.xrecvRoute st a) s = .next t ∧ t.env? = some u ∧ u.c.th = th.past (op 21 []) (e.seqPc (op 21 []))
          ∧ u.t.inbox = some { base := b0, nblk := n, dir := ptrOff x, order := (th.re 4).getLsbD 12, taken := 0, next := 0 }
          ∧ u.t.inboxUsed = true ∧ u.t.sram = e.t.sram.write64 (ptrOff x) 0 ∧ u.t.blocks = armed.blocks))
    ∧ (Ready s e waited →
      ((e.d.routed = false ∨ e.t.closed = true) →
        exec (.xend st) s = .next (e.put { e.t with xended := true } { e.c.atIssue e.s.cycle with
          run := .free, th := th.past waited (e.seqPc waited) }))
      ∧ (e.d.routed = true → e.t.closed = false → e.queueFree →
        ∃ t u, exec (.xend st) s = .next t ∧ t.env? = some u ∧ u.c.run = .free ∧ u.t.xended = true
          ∧ u.t.closed = true ∧ u.c.th = th.past waited (e.seqPc waited))
      ∧ (e.t.xcOutstanding = false → waits (.xwait st a))
      ∧ (e.t.xcOutstanding = false → e.t.recvs = [] → waits (.xwaitRecv st a)))

/-- R26, R31, R198 to R203, R213 to R216, R220, R266, R267: where a transfer and an invocation trap, check by check in the order
of R201: ILLEGAL for the transfer word; POISON; PHASE-ILLEGAL outside a ROUTED node; each operand in turn; the tile's exchange
state; the destination blocks; and where they are held then, by a full queue. TVAL2 of FORM 0 is log 15, FORM 0 of the target
checks of XSEND and XPUT log 106, TVAL of the checks of the exchange state a free value (log 23), and TVAL of an expert index
log 95. -/
def Obligations.TransferTraps : Prop :=
  ∀ (s : State) (e : Env) (st : Stall) (ord : XOrd) (f : CombOp) (a b g : GReg),
    let th := e.c.th
    let p := th.rg a
    let q := th.rg b
    let w := th.re 4
    let x := th.re 5
    let n := fld w 8 0
    let op (who : Who) (major : Nat) (reads : List RegId) : Op := op32 st who true major reads
    let word : Check := e.legalCheck (fld w 11 9 = 0 ∧ fld w 15 13 = 0 ∧ fld w 63 28 = 0)
    let count : Check := e.legalCheck (n ≠ 0)
    let clean : List Check := [e.cleanCheck a, e.cleanCheck b]
    let routed : Check := ⟨e.d.routed = true, cPhase, 2, e.s.bits.setWidth 64, 0⟩
    let mine (p : Word) : Prop := fld p 55 40 = e.s.pkgid.toNat ∧ fld p 37 32 = e.s.cur.dom
    let blocks (p : Word) : List Nat := (List.range n).map (e.t.blockOf (ptrOff p) + ·)
    let rect : Check :=
      ⟨fld p 63 32 = 0 ∧ fld p 7 0 ≤ fld p 23 16 ∧ fld p 15 8 ≤ fld p 31 24 ∧ fld p 23 16 < e.d.launch.width
        ∧ fld p 31 24 < e.d.launch.height, cBounds, 3, p, 0⟩
    let state (ok : Prop) : Check := ⟨ok, cBounds, 3, e.freeTval, 0⟩
    let barrier : List Check := if x = 0 then [] else
      pointerCheck x [0] :: e.cellSpanChecks x 16 16 4 ++ [⟨e.t.nfeed (ptrOff x) ≠ 255, cBounds, 3, x, e.t.access (ptrOff x) 0 4⟩]
    let o := ptrOff x + 8 * p.toNat
    let entry := withOff x o
    let at_ := e.t.access o 0 4
    let checks (i : Instr) (op : Op) (l : List Check) : Prop := e.Traps s i op l
    let holds (i : Instr) (op : Op) (l : List Check) (feeds : Bool) : Prop := Ready s e op → (∀ c ∈ l, c.ok) →
      (if feeds then 16 else 64) ≤ (e.t.cmds.filter fun c => c.2.major == 21 && (c.2.f6 == 4) == feeds).length →
      exec i s = .next e.held
    let both (i : Instr) (op : Op) (l : List Check) : Prop := checks i op l ∧ holds i op l false
    let xc (reads : List RegId) : Op := op .xcOnly 21 reads
    both (.xsend st a b) (xc [.g a, .g b, .e 4]) ([word, count] ++ clean ++ [pointerCheck p [2],
        ⟨mine p ∧ fld p 31 20 < e.d.nrank, cBounds, 0, p, 0⟩, farAligned p 0] ++ e.blockSpanChecks q n 1)
    ∧ both (.xmcast st a b) (xc [.g a, .g b, .e 4, .e 5]) ([word, count] ++ clean ++ [rect] ++ e.blockSpanChecks q n 1
        ++ [pointerCheck x [0], farAligned x 4])
    ∧ (∀ agent, agent = (if ptrSpace q = 2 ∧ ¬ mine q then 27 else 24) →
      both (.xget st ord a b) (xc [.g a, .g b, .e 4]) ([word, count] ++ clean ++ e.blockSpanChecks p n 0
        ++ [pointerCheck q [1, 2], farAligned q 1] ++ e.armChecks p (blocks p) agent))
    ∧ both (.xput st ord a b) (xc [.g a, .g b, .e 4]) ([word, count] ++ clean ++ [pointerCheck p [1, 2],
        ⟨¬(ptrSpace p = 2 ∧ mine p), cBounds, 0, p, 0⟩, farAligned p 0] ++ e.blockSpanChecks q n 1)
    ∧ ((x ≠ 0 → e.acquiring = false ∧ e.c.sbHits (ptrOff x) 16 = [] ∧ e.cellHits (ptrOff x) 16 = false) →
      let fop := op .notSv 21 [.g a, .g b, .e 4, .e 5]
      let l := [word, count] ++ clean ++ e.blockSpanChecks p n 0 ++ [pointerCheck q [1], farAligned q 1] ++ barrier
        ++ e.armChecks p (blocks p) 25
      checks (.xfeed st ord a b) fop l ∧ holds (.xfeed st ord a b) fop l true)
    ∧ both (.xcomb st f ord a b) (xc [.g a, .g b]) (clean ++ [pointerCheck p [0, 2]]
        ++ (if ptrSpace p = 0 then e.cellSpanChecks p 8 8 0 else [⟨fld p 2 0 = 0, cMisalign, 0, p, accessNone 0 0⟩]))
    ∧ (∀ bs, e.acquiring = false → e.cellHits o 8 = false → loadBytes e.c e.t o 8 = some bs →
      let v := natOfBytes bs
      let rank0 := v % 2 ^ 12
      let tiles := v / 2 ^ 12 % 2 ^ 12
      both (.xroute st a b) (xc [.g a, .g b, .e 4, .e 5]) (word :: clean ++ [routed,
          ⟨p.toNat < fld w 27 16, cBounds, 3, p, 0⟩] ++ e.blockSpanChecks q 1 1 ++ [pointerCheck x [0],
          ⟨o < 2 ^ 20, cBounds, 2, x, w64 (8 * p.toNat)⟩, ⟨o % 8 = 0, cMisalign, 0, entry, at_⟩,
          ⟨e.t.carve.region o = .cell, cBounds, 1, entry, at_⟩, ⟨e.t.granTag o = ptrTag x, cTag, 0, entry, at_⟩,
          ⟨e.t.granPois o = false, cPoison, 1, entry, at_⟩,
          ⟨v / 2 ^ 24 = 0 ∧ tiles ≠ 0 ∧ rank0 + tiles ≤ e.d.nrank, cBounds, 3, x, at_⟩,
          state (e.t.closed = false ∧ e.t.routes.getD (rank0 + e.s.cur.rank % tiles) 0 < 4096)]))
    ∧ both (.xclose st) (xc []) [routed, state (e.t.closed = false)]
    ∧ checks (.xrecv st a) (xc [.g a, .e 4]) ([word, count, e.cleanCheck a] ++ e.blockSpanChecks p n 0
        ++ e.armChecks p (blocks p) 24)
    ∧ checks (.xrecvRoute st a) (xc [.g a, .e 4, .e 5]) ([word, count, e.cleanCheck a, routed] ++ e.blockSpanChecks p n 0
        ++ [pointerCheck x [0]] ++ e.cellSpanChecks x 8 (8 + 8 * n) 4 ++ [state (e.t.inboxUsed = false)]
        ++ e.armChecks p (blocks p) 24)
    ∧ (e.c.busy = .none → ∀ i ∈ [Instr.pitch st ord b, .pitchq st ord g b],
      checks i (op .notSv 23 (([b, 4, 5, 6, 7, 8, 9] : List GReg).map RegId.g))
        (([b, 4, 5, 6, 7, 8, 9] : List GReg).map e.cleanCheck
          ++ [⟨fld q 15 12 = 0 ∧ fld q 31 22 = 0 ∧ fld q 63 48 = 0, cBounds, 3, q, 0⟩]))

end transfers

section system

/-- R34, R226, R227: MFC reads a control word as it stands in the issue cycle, one cycle later; the words marked SV
are read by SV alone. R34, R36, R37, R228, R229: MTC writes FLAGS, RMODE and SEED of its own thread, where a SEED of
zero becomes one and a reserved rounding mode is ILLEGAL; SV writes TEPC, TBASE, TSCRATCH and STALLCHK, which
deterministic mode keeps set; writes to the words that software only reads are ignored. A word marked SV raises PRIVILEGE in
any other context, read or written. -/
def Obligations.ControlWords : Prop :=
  (
    ∀ (s : State) (e : Env) (st : Stall) (d : GReg),
      let op := op32 st .all false 24 []
      let reads (n : Nat) (w : Word) : Prop :=
        exec (.mfc st d (BitVec.ofNat 11 n)) s = .next (e.result op 1 [.g d w false] 0)
      let t := e.t
      Ready s e op →
        reads 0x000 (w64 e.s.cur.ctx) ∧ reads 0x001 (e.c.group.setWidth 64) ∧ reads 0x002 (w64 e.s.cur.rank)
        ∧ reads 0x003 (w64 e.d.nrank) ∧ reads 0x004 (w64 e.s.cur.dom)
        ∧ reads 0x005 (w64 (e.s.pkgid.toNat + 2 ^ 16 * e.s.incarn.toNat))
        ∧ reads 0x008 (w64 (1 + (if e.det then 8 else 0) + 2 ^ 24 * e.c.th.flags.toNat))
        ∧ reads 0x009 (e.c.th.rmode.setWidth 64) ∧ reads 0x00A (e.c.th.seed.setWidth 64)
        ∧ reads 0x00B (w64 t.carve.frameBase) ∧ reads 0x00C (w64 t.carve.frameSize) ∧ reads 0x00D 0
        ∧ reads 0x00E (w64 t.carve.cellBase) ∧ reads 0x00F (w64 t.carve.blockBase)
        ∧ (∀ k < 8, reads (0x010 + k) (w64 (e.d.launch.levels.getD k 0)))
        ∧ reads 0x030 (w64 t.jhead) ∧ reads 0x031 (w64 t.journal.length)
        ∧ (e.s.cur.ctx = 17 →
          reads 0x020 t.tcause ∧ reads 0x021 t.tepc ∧ reads 0x022 t.tval ∧ reads 0x023 t.tval2 ∧ reads 0x024 t.tbase
          ∧ reads 0x025 t.tscratch ∧ reads 0x040 (if e.det then 1 else 0)
          ∧ reads 0x041 (if t.stallchk = true ∨ e.det = true then 1 else 0))
        ∧ (e.s.cur.ctx ≠ 17 → e.speculative = false →
          ∀ n ∈ [0x020, 0x021, 0x022, 0x023, 0x024, 0x025, 0x040, 0x041],
            exec (.mfc st d (BitVec.ofNat 11 n)) s = .next (e.trapped cPriv 1 (e.s.bits.setWidth 64) (w64 n))))
  ∧ (
    ∀ (s : State) (e : Env) (st : Stall) (a : GReg),
      let op := op32 st .all true 24 [.g a]
      let th := e.c.th
      let v := th.rg a
      let mtc (n : Nat) := exec (.mtc st (BitVec.ofNat 11 n) a) s
      let thread (n : Nat) (th' : Thread) : Prop :=
        mtc n = .next (e.put e.t { e.c.atIssue e.s.cycle with th := th'.past op (e.seqPc op) })
      let tile (n : Nat) (t : Tile) : Prop :=
        mtc n = .next (e.put t { e.c.atIssue e.s.cycle with th := th.past op (e.seqPc op) })
      let code : Prop := v.toNat < 2 ^ 20 ∧ v.toNat % 2 = 0
      (Ready s e op → th.pg a = false →
        thread 0x008 { th with flags := v.extractLsb' 24 5 }
        ∧ thread 0x00A { th with seed := if v.extractLsb' 0 32 = 0 then 1 else v.extractLsb' 0 32 }
        ∧ (v.toNat % 8 ≤ 4 → thread 0x009 { th with rmode := v.extractLsb' 0 3 })
        ∧ (v.toNat % 8 > 4 → e.s.cur.ctx ≠ 17 → mtc 0x009 = .next (e.trapped cIllegal 0 (e.s.bits.setWidth 64) 0))
        ∧ (∀ n ∈ [0x000, 0x001, 0x002, 0x003, 0x004, 0x005, 0x00B, 0x00C, 0x00D, 0x00E, 0x00F, 0x010, 0x011, 0x012, 0x013, 0x014,
            0x015, 0x016, 0x017, 0x030, 0x031], tile n e.t)
        ∧ (e.s.cur.ctx = 17 →
          (∀ n ∈ [0x020, 0x022, 0x023, 0x040], tile n e.t)
          ∧ (code → tile 0x021 { e.t with tepc := v } ∧ tile 0x024 { e.t with tbase := v })
          ∧ tile 0x025 { e.t with tscratch := v }
          ∧ tile 0x041 { e.t with stallchk := v.getLsbD 0 || (e.t.stallchk && e.det) }))
      ∧ (Ready s e (op32 st .all true 24 []) → e.s.cur.ctx ≠ 17 →
        ∀ n ∈ [0x020, 0x021, 0x022, 0x023, 0x024, 0x025, 0x040, 0x041],
          mtc n = .next (e.trapped cPriv 1 (e.s.bits.setWidth 64) (w64 n))))

/-- R236: PTST reads poison flags without trapping, one cycle later: of gA as 0 or 1, of vA lane by lane in bits 31:0,
and of an accumulator row by row as they stand at issue. -/
def Obligations.PoisonTests : Prop :=
  ∀ (s : State) (e : Env) (st : Stall) (d a : GReg) (v : VReg) (acc : AccReg),
    let th := e.c.th
    let op (reads : List RegId) : Op := op32 st .all false 24 reads
    let gives (i : Instr) (op : Op) (w : Word) : Prop := exec i s = .next (e.result op 1 [.g d w false] 0)
    (Ready s e (op [.g a]) → gives (.ptst st d a) (op [.g a]) (if th.pg a then 1 else 0))
    ∧ (Ready s e (op [.v v]) → ∃ w, gives (.ptstV st d v) (op [.v v]) w
      ∧ ∀ i < 64, w.getLsbD i = (decide (i < 32) && (th.pv v).getLsbD i))
    ∧ (Ready s e (op []) → gives (.ptstAcc st d acc) (op []) (e.t.accs.get acc).pois)

/-- R237 to R240: TAGGET reads the tag and the poison of a granule once the context's stores to it are performed;
TAGSET on a granule of CELL enters the cell port and holds its context; IDLE with a count of zero completes with 0,
otherwise it waits and completes with the reason that woke it; HNOTE posts its notice when the store buffer is empty
and Kiln has room. R66, R232, R235: RDCYC reads the domain's cycle counter, or under deterministic mode the retired
count, RDRET the retired count; JLOG reads a word of a journal entry three cycles later and, with RET, frees the entry
where it was refused. -/
def Obligations.SystemInstructionResults : Prop :=
  (
    ∀ (s : State) (e : Env) (st : Stall) (d a : GReg) (imm : BitVec 11) (o r : Nat),
      let th := e.c.th
      let v := th.rg a
      let opT := op32 st .all false 24 [.g a]
      let opS := op32 st .all true 24 [.g a, .g d]
      let opI := op32 st .slots true 24 [.g a]
      let opH := op32 st .all true 24 [.g d, .g a]
      (Ready s e opT → th.pg a = false → NamesLocal v imm.toInt 1 o →
        (e.t.carve.region o = .frame → e.t.carve.inFrame o 1 e.s.cur.ctx = true) → e.c.sbHits (64 * (o / 64)) 64 = [] →
        e.acquiring = false →
        exec (.tagget st d a imm) s = .next (e.loadResult opT [o / 64]
          [.g d (w64 ((e.t.granTag o).toNat + if e.t.granPois o then 64 else 0)) false]))
      ∧ (Ready s e opS → PassesLocal e a imm.toInt 64 o → e.t.carve.region o = .cell → th.pg d = false →
        (th.rg d).toNat < 64 →
        exec (.tagset st d a imm) s = .next (e.stays
          { e.t with cellQ := e.t.cellQ ++ [{ ctx := e.s.cur.ctx, seq := th.seq, age := e.t.age, fn := .tagset
                                              ptr := withOff v o, addr := o, opnd := th.rg d, expect := 0, ord := .relaxed
                                              dest := 0, stall := st }] }
          { e.c with busy := .event, th := { th with skips := st.val } }))
      ∧ (Ready s e opI →
        (e.c.busy = .none → th.pg a = false →
          (v.toNat % 2 ^ 32 = 0 → exec (.idle st d a) s = .next (e.resultPc opI 1 false [.g d 0 false] 0 (e.seqPc opI)))
          ∧ (v.toNat % 2 ^ 32 ≠ 0 → exec (.idle st d a) s = .next (e.stays e.t { e.c with
              run := .idle, idle := some ⟨e.s.cycle, v.toNat % 2 ^ 32, 0, 0, false⟩ })))
        ∧ (e.c.busy = .idleDone r → exec (.idle st d a) s = .next (e.put e.t { e.c.atIssue e.s.cycle with
            busy := .none
            th := (th.addPend (e.pending opI 1 false [.g d (w64 r) false] 0)).past opI (e.seqPc opI) })))
      ∧ (Ready s e opH → th.pg d = false → th.pg a = false → e.c.sb = [] → e.s.kiln.kept.length < 256 →
        let w4 := w64 (imm.toNat + 2 ^ 11 * e.s.cur.rank + 2 ^ 23 * e.s.cur.ctx + 2 ^ 28 * e.s.pkgid.toNat)
        exec (.hnote st d a imm) s = .next (({ e with s := e.s.post evNote e.s.cur.dom 0 0 0 [th.rg d, v, w4] } : Env).plain
          opH (e.seqPc opH))))
  ∧ (
    ∀ (s : State) (e : Env) (st : Stall) (d a : GReg) (w : Fin 3) (i : Nat),
      let th := e.c.th
      let op (reads : List RegId) : Op := op32 st .all false 24 reads
      let opJ := op32 st .all true 24 [.g a]
      (Ready s e (op []) →
        exec (.rdcyc st d) s = .next (e.result (op []) 1 [.g d (if e.det then th.retired else e.d.cycles) false] 0)
        ∧ exec (.rdret st d) s = .next (e.result (op []) 1 [.g d th.retired false] 0))
      ∧ (Ready s e opJ → th.pg a = false → (th.rg a).toNat = i → i < 64 →
        let word : Word := match e.t.journal.find i, w.val with
          | none, _ => 0
          | some x, 0 => w64 ((if x.refused then 3 else 1) + x.cause * 2 ^ 8 + x.fblk * 2 ^ 16 + x.nblk * 2 ^ 32 + x.seq * 2 ^ 48)
          | some x, 1 => x.dest
          | some x, _ => x.src
        let reads (t : Tile) : State := e.put t { e.c.atIssue e.s.cycle with
          th := (th.addPend (e.pending opJ 3 false [.g d word false] 0)).past opJ (e.seqPc opJ) }
        exec (.jlog st d a w false) s = .next (reads e.t)
        ∧ ((∀ x, e.t.journal.find i = some x → x.refused = false) → exec (.jlog st d a w true) s = .next (reads e.t))
        ∧ (∀ x, e.t.journal.find i = some x → x.refused = true →
          exec (.jlog st d a w true) s = .next (reads { e.t with journal := e.t.journal.erase i }))))

end system

section traps

/-- R241: TRAP raises SOFTWARE with its code in TVAL and gA in TVAL2, and POISON instead where gA is poisoned; BRK
raises BREAK with its code and 0. The trap waits for SV, names the instruction in TEPC, and the context stops at it
with its registers kept; past an unresolved branch both are held. Raised in SV, they halt the domain with
MACHINE-CHECK (R263). -/
def Obligations.TrapInstructions : Prop :=
  ∀ (s : State) (e : Env) (st : Stall) (a : GReg) (code : BitVec 11),
    (e.s.cur.ctx ≠ 17 →
      (Ready s e (op32 st .all true 25 [.g a]) →
        (e.c.th.pg a = false → exec (.trap st a code) s
          = .next (e.trapped cSoftware 0 (code.setWidth 64) (e.c.th.rg a)))
        ∧ (e.c.th.pg a = true → exec (.trap st a code) s = .next (e.trapped cPoison 0 (w64 (8 * a.val)) 0)))
      ∧ (Ready s e (op32 st .all true 25 []) →
        exec (.brk st code) s = .next (e.trapped cBreak 0 (code.setWidth 64) 0))
      ∧ (s.env? = some e → e.speculative = true → ∀ i ∈ [Instr.trap st a code, .brk st code],
        exec i s = .next (e.put e.t { e.c with spent := e.s.cycle + 1 }))
      ∧ ∀ cause form v v2, (trapOf e cause form v v2).tepc = e.c.th.pc
        ∧ trapOf e cause form v v2 ∈ (insTrap (trapOf e cause form v v2) e.t.traps))
    ∧ (e.s.cur.ctx = 17 → Ready s e (op32 st .all true 25 [.g a]) → ∀ i ∈ [Instr.trap st a code, .brk st code],
      ∃ t, exec i s = .next t ∧ (t.doms.find e.s.cur.dom).map (·.status) = some (.halted 1))

/-- R242, R261: ERET, once SV's stores are performed and none of its matrix commands is outstanding, makes SV free and the
context that it serves ready at TEPC; ERET.end ends the trapped slot instead, or the trapped XC, as if it had executed XEND, and
closes a routed exchange whatever the number of outstanding commands, the model's choice (log 50). R14, R70, R76, R77, R266:
C.ILL and an encoding that no row decodes raise ILLEGAL with the instruction's bits, and a fetch outside CODE raises BOUNDS with
FORM 4 and the address. -/
def Obligations.ReturnFromTrapAndIllegal : Prop :=
  (
    ∀ (s : State) (e : Env) (st : Stall) (x : TrapInfo),
      Ready s e (op32 st .svOnly true 25 []) → e.c.sb = [] → (∀ q ∈ e.t.mx, q.ctx ≠ 17) → e.t.serving = some x →
      x.ctx < 17 →
        (∃ t u, exec (.eret st) s = .next t ∧ t.env? = some u ∧ u.t.serving = none ∧ (u.t.ctx 17).run = .free
          ∧ u.t.sram = e.t.sram ∧ u.t.traps = e.t.traps ∧ (u.t.ctx 17).th.retired = e.c.th.retired + 1
          ∧ (¬(x.ctx = 16 ∧ x.xended = true) → (u.t.ctx x.ctx).run = .ready
              ∧ (u.t.ctx x.ctx).th = { (e.t.ctx x.ctx).th with pc := e.t.tepc.setWidth 20 })
          ∧ (x.ctx = 16 → x.xended = true → (u.t.ctx 16).run = .free)
          ∧ (∀ j < 17, j ≠ x.ctx → u.t.ctx j = e.t.ctx j))
        ∧ (e.t.servedDrained = true → ∃ t u, exec (.eretEnd st) s = .next t ∧ t.env? = some u ∧ u.t.serving = none
          ∧ (u.t.ctx 17).run = .free ∧ u.t.sram = e.t.sram
          ∧ (x.ctx = 16 → u.t.xended = true ∧ (u.t.ctx 16).run = .free ∧ (e.d.routed = true → u.t.closed = true))
          ∧ (x.ctx < 16 → e.t.starts = [] → (u.t.ctx x.ctx).run = .free)))
  ∧ (
    ∀ (s : State) (e : Env) (d4 a4 : BitVec 4) (f2 : BitVec 2), s.env? = some e →
      e.s.cur.ctx ≠ 17 → e.speculative = false →
        exec (.cIll d4 a4 f2) s
            = .next (e.trapped cIllegal 0 (w64 (d4.toNat * 2 ^ 6 + a4.toNat * 2 ^ 10 + f2.toNat * 2 ^ 14)) 0)
          ∧ exec .illegalEncoding s = .next (e.trapped cIllegal 0 (e.s.bits.setWidth 64) 0)
          ∧ exec .fetchBounds s = .next (e.trapped cBounds 4 (w64 e.s.fetchAddr) (e.t.access e.s.fetchAddr 0 7)))

end traps

section tileEvents

/-- R80, R81, R124, R126, R131: RESULT_LANDING lands the first due result; STORE_PERFORM performs the oldest entry of any
context once its delay is over: its bytes reach memory and no other byte changes, and its granule is poisoned where it
carries poison; an ABINIT clears the second word of its pair and makes it an arrival barrier too (R148). R131, R244: each
cycle of a BFILL writes the register's value into the next 128 bytes of its block and clears the poison of their two granules;
the sixteenth, BFILL_COMMIT, also commits the block. R27, R80, R81, R229: a result that
lands writes the registers that it names and no other, or-s its flags into FLAGS and leaves everything else of its thread;
g0 and k0 are never written and read as zero and as all ones. -/
def Obligations.ResultAndStoreEvents : Prop :=
  (
    ∀ (s : State) (dom rank : Nat) (d : Domain) (t : Tile), s.at_ dom rank d t →
      let goes (i : Instr) (p : Tile → Prop) : Prop := ∃ u, exec i s = .next (s.setDom dom (d.setTile rank u)) ∧ p u
      (∀ i p, i < 18 → firstDue s.cycle (t.ctx i).th.pend = some p →
        goes (.resultLanding dom rank i) fun u => (u.ctx i).th = (t.ctx i).th.land p ∧ (u.ctx i).run = (t.ctx i).run
          ∧ u.sram = t.sram ∧ u.blocks = t.blocks ∧ ∀ j, j ≠ i → u.ctx j = t.ctx j)
      ∧ (∀ i x, t.storePort ≤ s.cycle → t.nextStore s.cycle = some (i, x) → x.abinit = false →
        goes (.storePerform dom rank) fun u =>
          (u.ctx i).sb = (t.ctx i).sb.drop 1 ∧ (u.ctx i).th = (t.ctx i).th ∧ u.storePort = s.cycle + 1
          ∧ u.sram = t.sram.writeCells x.data ∧ (∀ a, (∀ c ∈ x.data, c.1 ≠ a) → u.sram.read a = t.sram.read a)
          ∧ (∀ g, g ∈ u.pois ↔ g ∈ t.pois ∨ (x.pois = true ∧ g = x.addr / 64))
          ∧ u.blocks = t.blocks ∧ u.tags = t.tags ∧ ∀ j, j ≠ i → u.ctx j = t.ctx j)
      ∧ (∀ i x, t.storePort ≤ s.cycle → t.nextStore s.cycle = some (i, x) → x.abinit = true →
        (∀ c ∈ x.data, x.addr ≤ c.1 ∧ c.1 < x.addr + 8) →
        goes (.storePerform dom rank) fun u =>
          (u.ctx i).sb = (t.ctx i).sb.drop 1 ∧ (∀ j, (u.ctx j).th = (t.ctx j).th) ∧ u.storePort = s.cycle + 1
          ∧ (∀ a, (a < x.addr ∨ x.addr + 16 ≤ a) → u.sram.read a = t.sram.read a)
          ∧ (∀ a, x.addr ≤ a → a < x.addr + 8 → u.sram.read a = (t.sram.writeCells x.data).read a) ∧ u.nfeed x.addr = 0
          ∧ (∀ p, p ∈ u.bars ↔ p ∈ t.bars ∨ p = x.addr / 16) ∧ u.blocks = t.blocks ∧ u.tags = t.tags)
      ∧ (∀ i b due w k, i < 18 → (t.ctx i).busy = .fill b due w k →
        let o := t.blockAt b + 128 * k
        let fills (u : Tile) : Prop :=
          (∀ j < 16, u.sram.read64 (o + 8 * j) = w) ∧ (∀ a, (a < o ∨ o + 128 ≤ a) → u.sram.read a = t.sram.read a)
          ∧ (∀ g, g ∈ u.pois ↔ g ∈ t.pois ∧ g ≠ o / 64 ∧ g ≠ o / 64 + 1)
        (k < 15 → due + k ≤ s.cycle + 15 → ∃ u, fillWriteRow dom rank i s = .next (s.setDom dom (d.setTile rank u))
          ∧ fills u ∧ u.blocks = t.blocks ∧ u.ctx i = { t.ctx i with busy := .fill b due w (k + 1) }
          ∧ ∀ j, j ≠ i → u.ctx j = t.ctx j)
        ∧ (k = 15 → due ≤ s.cycle → goes (.bfillCommit dom rank i) fun u =>
          fills u ∧ u.block b = { t.block b with state := .full, owner := 31, armed := false } ∧ (u.ctx i).busy = .none
          ∧ (u.ctx i).th.pc = (t.ctx i).th.pc + 4 ∧ (u.ctx i).th.retired = (t.ctx i).th.retired + 1)))
  ∧ (
    ∀ (th : Thread) (p : Pend),
      let u := th.land p
      (∀ n, (∀ v b, RegWrite.g n v b ∉ p.writes) → u.rg n = th.rg n ∧ u.pg n = th.pg n)
        ∧ (∀ n, (∀ v b, RegWrite.v n v b ∉ p.writes) → u.rv n = th.rv n ∧ u.pv n = th.pv n)
        ∧ (∀ n, (∀ v, RegWrite.k n v ∉ p.writes) → u.rk n = th.rk n)
        ∧ (∀ n, (∀ v, RegWrite.e n v ∉ p.writes) → u.re n = th.re n)
        ∧ (∀ n v b, p.writes = [.g n v b] → n ≠ 0 → u.rg n = v ∧ u.pg n = b)
        ∧ (∀ n v b, p.writes = [.v n v b] → u.rv n = v ∧ u.pv n = b)
        ∧ (∀ n v, p.writes = [.k n v] → n ≠ 0 → u.rk n = v) ∧ (∀ n v, p.writes = [.e n v] → u.re n = v)
        ∧ u.rg 0 = 0 ∧ u.pg 0 = false ∧ u.rk 0 = 0xFFFFFFFF
        ∧ u.flags = th.flags ||| p.flags ∧ u.pc = th.pc ∧ u.retired = th.retired ∧ u.seed = th.seed ∧ u.rmode = th.rmode)

/-- R136 to R138, R166, R238: the cell port performs its next operation: a CELL operation leaves in the cell what its
function makes of the old value, which the result returns three cycles later; CDECF leaves the
old value less one, and where that is zero commits its trigger's block in the same event, if the block is EMPTY under the
trigger's generation; TAGSET writes the tag of a granule that still carries its pointer's; a VQDX list event whose records
lie in CELL, on no second word of a barrier and under the pointer's tag, appends them and adds their number to the count.
No other byte of memory changes. -/
def Obligations.CellEvents : Prop :=
  ∀ (s : State) (dom rank : Nat) (d : Domain) (t : Tile) (q : CellOp), s.at_ dom rank d t →
    t.nextCellOp = some q → t.cellFree ≤ s.cycle → q.ctx < 18 →
      let old := t.sram.read64 q.addr
      let goes (i : Instr) (p : Tile → Prop) : Prop := ∃ u, exec i s = .next (s.setDom dom (d.setTile rank u)) ∧ p u
      let only (u : Tile) (n : Nat) : Prop :=
        ∀ a, (a < q.addr ∨ q.addr + n ≤ a) → u.sram.read a = t.sram.read a
      ((∀ w, q.fn ≠ .decf w) → q.fn ≠ .tagset → q.fn.isList = false →
        goes (.cellPerform dom rank) fun u =>
          u.sram.read64 q.addr = q.fn.apply old q.opnd q.expect ∧ only u 8 ∧ u.cellFree = s.cycle + 1
          ∧ u.blocks = t.blocks ∧ u.tags = t.tags
          ∧ (u.ctx q.ctx).th = (t.ctx q.ctx).th.settle q.seq [.g q.dest old false] (s.cycle + 3)
          ∧ ∀ j, j ≠ q.ctx → u.ctx j = t.ctx j)
      ∧ (∀ e0, q.fn = .decf e0 →
        let b := t.blockOf (ptrOff e0)
        (old ≠ 1 → goes (.cellPerform dom rank) fun u =>
          u.sram.read64 q.addr = old - 1 ∧ only u 8 ∧ u.blocks = t.blocks ∧ (u.ctx q.ctx).busy = .none
          ∧ (u.ctx q.ctx).th.retired = (t.ctx q.ctx).th.retired + 1)
        ∧ (old = 1 → ptrTag e0 = (t.block b).gen → (t.block b).state = .empty →
          goes (.cellPerform dom rank) fun u =>
            u.sram.read64 q.addr = 0 ∧ only u 8 ∧ (u.block b).state = .full ∧ (u.block b).gen = (t.block b).gen
            ∧ ∀ c, c ≠ b → u.block c = t.block c))
      ∧ (q.fn = .tagset → t.granTag q.addr = ptrTag q.ptr →
        goes (.tagsetEvent dom rank) fun u =>
          u.tags.getD (q.addr / 64) 0 = q.opnd.extractLsb' 0 6 ∧ (∀ g, g ≠ q.addr / 64 → u.tags.getD g 0 = t.tags.getD g 0)
          ∧ u.sram = t.sram ∧ u.blocks = t.blocks ∧ (u.ctx q.ctx).busy = .none)
      ∧ (∀ recs ocap ws seed fl, q.fn = .list recs ocap ws seed fl → old.toNat + recs.length ≤ ocap →
        (∀ i < recs.length, q.addr + 8 + 8 * (old.toNat + i) ≤ 0xFFFFF
          ∧ t.carve.region (q.addr + 8 + 8 * (old.toNat + i)) = .cell
          ∧ t.hitsWord1 (q.addr + 8 + 8 * (old.toNat + i)) 8 = false
          ∧ t.granTag (q.addr + 8 + 8 * (old.toNat + i)) = ptrTag q.ptr) →
        t.granPois q.addr = false → old.toNat + recs.length < 2 ^ 64 →
        goes (.vqdxListEvent dom rank) fun u =>
          u.sram.read64 q.addr = w64 (old.toNat + recs.length)
          ∧ (∀ i < recs.length, u.sram.read64 (q.addr + 8 + 8 * (old.toNat + i)) = recs.getD i 0)
          ∧ only u (8 + 8 * (old.toNat + recs.length))
          ∧ (∀ a, q.addr + 8 ≤ a → a < q.addr + 8 + 8 * old.toNat → u.sram.read a = t.sram.read a)
          ∧ u.blocks = t.blocks ∧ u.tags = t.tags
          ∧ u.cellFree = s.cycle + 1 + recs.length)

/-- R83, R210, R234, R261, R262, R265, R268: when SV is free it takes the first trap raised in an earlier cycle,
once the trapped context's stores are performed and its results have landed: TCAUSE, TEPC, TVAL and TVAL2 name the trap, SV
is ready at TBASE with its registers kept, and no other context and no memory changes. A refused put raises an asynchronous
JOURNAL trap on XC where XC stands at an issue opportunity past no unresolved branch (log 81), or has ended and waits for
no other trap. -/
def Obligations.TrapEntryEvents : Prop :=
  ∀ (s : State) (dom rank : Nat) (d : Domain) (t : Tile), s.at_ dom rank d t →
    (∀ x rest, t.traps = x :: rest → t.serving = none → (t.ctx 17).run = .free → x.raisedAt < s.cycle →
      (t.svFree < s.cycle ∨ t.svFree = 0) → x.ctx < 17 →
      (t.ctx x.ctx).sb = [] → (t.ctx x.ctx).th.pend = [] →
      ∃ u, exec (.trapEntry dom rank) s = .next (s.setDom dom (d.setTile rank u))
        ∧ u.tcause = w64 (x.cause + 2 ^ 8 * x.ctx + (if x.async then 2 ^ 13 else 0) + (if x.xended then 2 ^ 14 else 0)
            + 2 ^ 16 * x.form)
        ∧ u.tepc = x.tepc.setWidth 64 ∧ u.tval = x.tval ∧ u.tval2 = x.tval2 ∧ u.traps = rest ∧ u.serving = some x
        ∧ u.ctx 17 = { t.ctx 17 with run := .ready, th := { (t.ctx 17).th with pc := t.tbase.setWidth 20 } }
        ∧ (∀ j, j ≠ 17 → u.ctx j = t.ctx j) ∧ u.sram = t.sram ∧ u.blocks = t.blocks ∧ u.tbase = t.tbase)
    ∧ (∀ j rest x, t.refusals = j :: rest → t.journal.find j = some x →
      ((t.ctx 16).run = .ready ∧ (t.ctx 16).spent ≤ s.cycle ∧ (t.ctx 16).notBefore ≤ s.cycle ∧ (t.ctx 16).busy = .none
          ∧ (t.ctx 16).wrong = none ∧ (t.ctx 16).th.specTrap = none ∧ (t.ctx 16).th.specUntil ≤ s.cycle)
        ∨ (t.xended = true ∧ (t.ctx 16).run = .free ∧ (∀ y ∈ t.traps, y.ctx ≠ 16)
          ∧ (∀ y, t.serving = some y → y.ctx ≠ 16)) →
      ∃ u, exec (.journal dom rank) s = .next (s.setDom dom (d.setTile rank u))
        ∧ u.refusals = rest ∧ (u.ctx 16).run = .trapped ∧ (u.ctx 16).th = { (t.ctx 16).th with skips := 0 } ∧ u.sram = t.sram
        ∧ ∃ y ∈ u.traps, y.cause = cJournal ∧ y.async = true ∧ y.ctx = 16 ∧ y.xended = t.xended ∧ y.tval = w64 j
          ∧ y.tval2 = w64 (3 + 2 ^ 8 * x.cause + 2 ^ 16 * x.fblk + 2 ^ 32 * x.nblk + 2 ^ 48 * x.seq))

/-- R20, R150, R186, R211, R217, R239, R244, R301, R304: a read whose last cycle is over ends and leaves its blocks as they
are; the next block of a feed that has landed is committed in its turn where it is still armed for the feed, and left as it is
otherwise, and afterwards its 2,048 bytes are taken from PENDING of its barrier, whose PHASE inverts when nothing is left; the
waiter service refuses, before the issue, a block of a
newer generation, and starts, after it, a source read of sixteen cycles that is due on a FULL block; an IDLE whose time has
come completes with the reason that woke it; the vote-window wait of a context ends; and a tile that has every closing count
and unit finishes its routed exchange: the filled slots of its inbox that are still armed become FULL, the records of its
directory stand sorted by source and sequence number, and under ORDER 1 the unit of each record, with its poison, in the slot of
the record's place. That a block no longer armed is left is the model's reading (logs 83 and
97). -/
def Obligations.EngineEvents : Prop :=
  ∀ (s : State) (dom rank : Nat) (d : Domain) (t : Tile), s.at_ dom rank d t →
    let goes (s : State) (i : Instr) (p : Tile → Prop) : Prop := ∃ u, exec i s = .next (s.setDom dom (d.setTile rank u)) ∧ p u
    let free : State := { s with free := s.free + 1 }
    (∀ r, t.reads.find? (fun r => decide (r.last < s.cycle)) = some r →
      ∃ v u, exec (.engineReadEnd dom rank) s = .next v ∧ v.tile? dom rank = some u ∧ u.reads = t.reads.erase r
        ∧ u.sram = t.sram ∧ u.blocks = t.blocks)
    ∧ (∀ req c b, t.cmds.find req = some c → c.major = 21 → c.f6 = 4 → c.commitAt ≤ s.cycle →
      c.prog.getD c.nextCommit .todo = .landed → b = t.destBlock c c.nextCommit →
      (t.armedFor b 25 (ptrTag c.a) = true →
        ∃ u, exec (.feedCommit dom rank req) s = .next (free.setDom dom (d.setTile rank u))
          ∧ u.block b = { t.block b with state := .full, owner := 31, armed := false }
          ∧ (∀ m, m ≠ b → u.block m = t.block m) ∧ u.sram = t.sram)
      ∧ (t.armedFor b 25 (ptrTag c.a) = false →
        ∃ v u, exec (.feedCommit dom rank req) s = .next v ∧ v.tile? dom rank = some u ∧ u.blocks = t.blocks
          ∧ ∀ a, (∀ o, c.bar = some o → a < o + 8 ∨ o + 16 ≤ a) → u.sram.read a = t.sram.read a))
    ∧ (∀ req c o, t.cmds.find req = some c → c.commits s.cycle = false → c.bar = some o → 0 < c.uncounted →
      t.cellFree ≤ s.cycle → 2048 ≤ fld (t.sram.read64 o) 55 0 →
      ∃ u, exec (.feedCommit dom rank req) s = .next (free.setDom dom (d.setTile rank u))
        ∧ fld (u.sram.read64 o) 55 0 = fld (t.sram.read64 o) 55 0 - 2048
        ∧ (u.sram.read64 o).getLsbD 56
          = (if fld (t.sram.read64 o) 55 0 = 2048 then !(t.sram.read64 o).getLsbD 56 else (t.sram.read64 o).getLsbD 56)
        ∧ (∀ a, (a < o ∨ o + 16 ≤ a) → u.sram.read a = t.sram.read a) ∧ u.cellFree = s.cycle + 1 ∧ u.blocks = t.blocks)
    ∧ (∀ x, s.stage = 0 → t.staleDue.find? (fun p => decide (p.1 ≤ s.cycle)) = some x →
      goes s (.waiterService dom rank) fun u => u = t.staleRefuse x)
    ∧ (∀ due req c, s.stage ≠ 0 → t.pool = [] →
      t.readReqs.find? (fun p => decide (p.1 ≤ s.cycle)) = some (due, req) → t.cmds.find req = some c →
      let b := t.blockOf (ptrOff c.b) + c.next
      (t.block b).gen = ptrTag c.b → (t.block b).state = .full →
      goes s (.waiterService dom rank) fun u => u.readReqs = t.readReqs.erase (due, req) ∧ u.sram = t.sram
        ∧ u.reads = t.reads ++ [{ blocks := [b], last := s.cycle + 15, ctx := none, job := .send req }])
    ∧ (∀ i r, i < 18 → (t.ctx i).idleOver s.cycle d.launch.det = some r →
      goes s (.idleWake dom rank i) fun u => (u.ctx i).run = .ready ∧ (u.ctx i).busy = .idleDone r ∧ (u.ctx i).idle = none
        ∧ (u.ctx i).th = (t.ctx i).th ∧ u.sram = t.sram ∧ ∀ j, j ≠ i → u.ctx j = t.ctx j)
    ∧ (∀ i w, i < 18 → (t.ctx i).voteWait = some w → w ≤ s.cycle →
      goes s (.voteWindowWaitEnd dom rank) fun u => (u.ctx i).voteWait = none ∧ (∀ j, (u.ctx j).th = (t.ctx j).th)
        ∧ u.sram = t.sram)
    ∧ (∀ x, t.routedAt = some x → x ≤ s.cycle → t.routedDone = false →
      goes s (.routedFinish dom rank) fun u => u.routedDone = true
        ∧ (t.inbox = none → u.sram = t.sram ∧ u.blocks = t.blocks)
        ∧ (∀ box, t.inbox = some box → (∀ i < (if box.order then box.taken else box.next),
            u.block (box.base + i) = if t.armedSlot (box.base + i) then
              { t.block (box.base + i) with state := .full, owner := 31, armed := false } else t.block (box.base + i))
          ∧ ∃ l : List Word, l.Perm (t.dirRecords box)
            ∧ l.Pairwise (fun v w => 4096 * fld v 11 0 + fld v 27 16 ≤ 4096 * fld w 11 0 + fld w 27 16)
            ∧ ∀ i < box.taken, u.sram.read64 (box.dir + 8 + 8 * i)
              = (let w := l.getD i 0
                if box.order then unitRecord (fld w 11 0) (fld w 27 16) (fld w 43 32) i else w)
              ∧ (box.order = true → Mem.wf t.sram = true → box.dir + 8 + 8 * box.taken ≤ t.blockAt box.base →
                t.armedSlot (box.base + i) = true →
                let from_ := t.blockAt (box.base + fld (l.getD i 0) 56 48)
                let to_ := t.blockAt (box.base + i)
                (∀ k < 2048, u.sram.read (to_ + k) = t.sram.read (from_ + k))
                  ∧ ∀ k < 32, to_ / 64 + k ∈ u.pois ↔ t.granPois (from_ + 64 * k) = true)))

/-- R176, R187 to R194: a matrix command that has reached its first cycle starts, and one that is done leaves its pipe with its
result in its accumulators: zeros for MZERO, the chunked sums for the MMA family, the sum of two accumulators for MACC, the
elements read for MLD, its flags OR-ed into those that stand there unless it clears them; MST writes 128 bytes at a time,
commits in turn each of its blocks that is still armed for the engine, and adds its flags when it is done. Memory changes only
in the 128 bytes that MST writes; a block that is no longer armed is left as it is (log 80, the model's reading). R104, R187,
R192 to R194: an element of a result: for the operands of the 16-bit and 8-bit formats without scales, each chunk's products are
summed exactly, rounded to FP32, and added with one more rounding; MACC adds two elements so; MLD and MST convert an element to
and from memory, MST in its own mode and with its own copy of SEED. How the flags of a pair's members are combined is the
model's reading (log 104). -/
def Obligations.MatrixEvents : Prop :=
  ∀ (s : State) (dom rank : Nat) (d : Domain) (t : Tile) (q : MxCmd), s.at_ dom rank d t →
    let goes (i : Instr) (p : Tile → Prop) : Prop := ∃ u, exec i s = .next (s.setDom dom (d.setTile rank u)) ∧ p u
    let starts (compute : Bool) : Option MxCmd :=
      t.mx.find? fun q => q.compute == compute && !q.started && decide (q.start ≤ s.cycle)
    let ends (compute : Bool) : Option MxCmd :=
      t.mx.find? fun q => q.compute == compute && q.started && decide (q.done ≤ s.cycle)
    let begun (r : List Acc) (u : Tile) : Prop :=
      u.sram = t.sram ∧ u.accs = t.accs ∧ u.blocks = t.blocks
        ∧ u.mx = t.mx.map fun p => if p.seq = q.seq then { q with started := true, result := r } else p
    let gone (u : Tile) : Prop :=
      u.sram = t.sram ∧ u.blocks = t.blocks ∧ u.mx = t.mx.filter fun p => p.seq != q.seq
    let c := MxCfg.of q.cfg
    let wide := if c.pair then fmt64 else fmt32
    let mode := [Mode.rne, .rtz, .sr].getD c.rm (Mode.ofCode q.rmode)
    let elem (a m : Nat) : Nat := ((t.acc a).elems.getD m 0).toNat
    let sums (l : List FRes) : Nat := ((sumF false l).round fmt32 .rne 0).1
    let scalar (code : Nat) : Option (Fmt × Nat × Nat) :=
      [(fmtBf16, 32, 2), (fmtF16, 32, 2), (fmtE4m3, 64, 1), (fmtE5m2, 64, 1)][code]?
    (starts true = some q → goes (.matrixComputeStart dom rank)
      (begun (if q.f6 = 6 then maccResult t q else mmaResult t q)))
    ∧ (starts false = some q → goes (.matrixMoveStart dom rank) (begun (if q.f6 = 1 then mldResult t q else [])))
    ∧ (ends true = some q → goes (.matrixComputeDone dom rank) fun u => gone u
      ∧ (∀ k x, q.result[k]? = some x → q.n + k < 4 → u.accs[q.n + k]?
          = some { x with xflags := t.mxFlags q (t.acc (q.n + k)).xflags x.xflags })
      ∧ (∀ m, (m < q.n ∨ q.n + q.result.length ≤ m) → u.accs[m]? = t.accs[m]?))
    ∧ (ends false = some q → goes (.matrixMoveDone dom rank) fun u => gone u
      ∧ (q.f6 = 0 → q.n < 4 → u.accs[q.n]? = some Acc.zero)
      ∧ (q.f6 = 1 → ∀ k x, q.result[k]? = some x → q.n + k < 4 → u.accs[q.n + k]? = some x)
      ∧ (q.f6 = 2 → (∀ m : Nat, (u.acc m).elems = (t.acc m).elems ∧ (u.acc m).pois = (t.acc m).pois)
        ∧ (q.n < 4 → (u.acc q.n).xflags = (t.acc q.n).xflags ||| (mstElems t q).2.bits)))
    ∧ (let base := ptrOff q.pa + 128 * q.pieces
      let b := t.blockOf base
      (t.mstDue? s.cycle true = some q → goes (.mstBlockCommit dom rank) fun u =>
        (t.armedFor b 26 (ptrTag q.pa) = true →
          u.block b = { t.block b with state := .full, owner := 31, armed := false } ∧ u.sram = (t.mstWrite q).sram)
        ∧ (t.armedFor b 26 (ptrTag q.pa) = false → u.block b = t.block b ∧ u.sram = t.sram)
        ∧ (∀ m, m ≠ b → u.block m = t.block m) ∧ u.accs = t.accs)
      ∧ (∀ a, (a < base ∨ base + 128 ≤ a) → (t.mstWrite q).sram.read a = t.sram.read a)
      ∧ (t.armedFor b 26 (ptrTag q.pa) = true → q.pieces < 32 * ofmtSize c.ofmt → ∀ k < 128,
        let sz := ofmtSize c.ofmt
        let m := (128 * q.pieces + k) / sz
        let n := (seedAfter q.seed (if mode = .sr then m + 1 else 0) >>> 16).toNat
        let old := elem q.n m + if c.pair then 2 ^ 32 * elem (q.n + 1) m else 0
        let x := if wide = ofmtFmt c.ofmt then old else
          ((ofmtFmt c.ofmt).round mode (c.sat && !(ofmtFmt c.ofmt).hasSig) n (wide.decode old)).1
        (t.mstWrite q).sram.read (base + k) = BitVec.ofNat 8 (x / 256 ^ (k % sz))))
    ∧ (Mem.wf t.sram = true → c.pair = false → q.pair = false →
      (∀ fa fb chunk sa sb, scalar c.afmt = some (fa, chunk, sa) → scalar c.bfmt = some (fb, chunk, sb) →
        (q.f6 = 3 ∨ q.f6 = 4 ∨ q.f6 = 5) → ∃ r, mmaResult t q = [r] ∧ ∀ i < 64, ∀ j < 64,
          let row (k : Nat) : FVal := fa.decode (natOfBytes (t.sram.readBytes (ptrOff q.pa + sa * (i * c.k + k)) sa))
          let col (k : Nat) : FVal := fb.decode (natOfBytes
            (t.sram.readBytes (ptrOff q.pb + sb * (if q.f6 = 4 then j * c.k + k else k * 64 + j)) sb))
          let term (k : Nat) : FRes := FRes.mul ⟨if q.f6 = 5 then (row k).neg else row k, false⟩ ⟨col k, false⟩
          let part (x : Nat) : Nat := sums ((List.range chunk).map fun k => term (chunk * x + k))
          ∃ acc : Nat → Nat, acc 0 = (if q.z then 0 else elem q.n (64 * i + j))
            ∧ (∀ x < c.k / chunk, acc (x + 1) = sums [⟨fmt32.decode (acc x), false⟩, ⟨fmt32.decode (part x), false⟩])
            ∧ (r.elems.getD (64 * i + j) 0).toNat = acc (c.k / chunk) % 2 ^ 32)
      ∧ (∃ r, maccResult t q = [r] ∧ ∀ m < 4096, (r.elems.getD m 0).toNat
          = sums [⟨fmt32.decode (elem q.n m), false⟩, ⟨fmt32.decode (elem q.src m), false⟩] % 2 ^ 32)
      ∧ (c.ofmt ≤ 4 → ∃ r, mldResult t q = [r] ∧ ∀ m < 4096,
        let sz := ofmtSize c.ofmt
        let x := natOfBytes (t.sram.readBytes (ptrOff q.pa + sz * m) sz)
        (r.elems.getD m 0).toNat
          = if c.ofmt = 0 then x else (fmt32.round .rne false 0 ((ofmtFmt c.ofmt).decode x)).1 % 2 ^ 32))

/-- R93 to R95, R104, R178, R180, R183, R184, R187, R189, R192 to R194: the values of the matrix commands, for every format. An
MMA-family command sums each chunk's products exactly, rounds, and adds to the accumulator with one more rounding, an operand
being decoded with its scale record; MACC adds two accumulators so, MLD widens the elements in memory; all of it in FP32, or in
FP64 over an aligned pair. A row is poisoned, and XFLAGS hold what was raised, as R189, R192 and R194 say; how the flags of the
two members of a pair are combined is the model's reading (log 104). -/
def Obligations.MatrixValues : Prop :=
  ∀ (t : Tile) (q : MxCmd), Mem.wf t.sram = true →
    let cfg := q.cfg
    let K := fld cfg 15 0
    q.pair = cfg.getLsbD 24 →
    let f := if q.pair then fmt64 else fmt32
    let upper (v : Nat) : Nat := if q.pair then 2 ^ 32 * v else 0
    let held (a m : Nat) : Nat := ((t.acc a).elems.getD m 0).toNat + upper ((t.acc (a + 1)).elems.getD m 0).toNat
    let marked (a i : Nat) : Prop :=
      (t.acc a).pois.getLsbD i = true ∨ (q.pair = true ∧ (t.acc (a + 1)).pois.getLsbD i = true)
    let holds (r : List Acc) (v : Nat → Nat) (rows : Nat → Prop) (fl : BitVec 5) : Prop :=
      r.length = (if q.pair then 2 else 1)
        ∧ (∀ m < 4096, ((r.getD 0 Acc.zero).elems.getD m 0).toNat + upper ((r.getD 1 Acc.zero).elems.getD m 0).toNat = v m)
        ∧ ∀ x ∈ r, x.xflags = fl ∧ ∀ i < 64, x.pois.getLsbD i = true ↔ rows i
    let sum (l : List FRes) : Nat × Flags :=
      let r := f.round .rne false 0 (sumF false l).val
      (r.1, { r.2 with invalid := r.2.invalid || l.any FRes.inv || decide ((∃ x ∈ l, x.val = .inf false) ∧ ∃ x ∈ l, x.val = .inf true) })
    let quiet (x : Nat) : FRes := ⟨f.decode x, false⟩
    let anyPois (a n : Nat) : Prop := ∃ x < n, t.granPois (a + x) = true
    ((q.f6 = 3 ∨ q.f6 = 4 ∨ q.f6 = 5) → (∃ n : AccReg, n.val = q.n ∧ mmaOk (MxCfg.of cfg) n (q.f6 == 4) = true) →
      ∀ bits chunk rec bitsB recB,
      let formats := [(16, 32, 0), (16, 32, 0), (8, 64, 0), (8, 64, 0), (8, 64, 1), (8, 64, 1), (4, 128, 1), (8, 64, 2),
        (4, 128, 2), (64, 8, 0)]
      formats[fld cfg 19 16]? = some (bits, chunk, rec) → formats[fld cfg 23 20]? = some (bitsB, chunk, recB) →
      let raw (base i : Nat) : Nat :=
        if bits = 4 then (t.sram.read (base + i / 2)).toNat / 16 ^ (i % 2) % 16
        else natOfBytes (t.sram.readBytes (base + i * (bits / 8)) (bits / 8))
      let value (code x sc : Nat) : FVal := match code with
        | 0 => fmtBf16.decode x
        | 1 => fmtF16.decode x
        | 2 => fmtE4m3.decode x
        | 3 => fmtE5m2.decode x
        | 4 => mxDecode fmtE4m3 x sc
        | 5 => mxDecode fmtE5m2 x sc
        | 6 => mxDecode fmtE2m1 x sc
        | 7 => dxDecode 8 x (sc % 256) (sc / 256)
        | 8 => dxDecode 4 x (sc % 256) (sc / 256)
        | _ => fmt64.decode x
      let scale (plane rec row k : Nat) : Nat :=
        natOfBytes (t.sram.readBytes (plane + rec * (row * (K / 32) + k / 32)) rec)
      let pa := ptrOff q.pa
      let pb := ptrOff q.pb
      let A (i k : Nat) : FVal := value (fld cfg 19 16) (raw pa (i * K + k)) (scale (ptrOff q.sa) rec i k)
      let B (k j : Nat) : FVal :=
        if q.f6 = 4 then value (fld cfg 23 20) (raw pb (j * K + k)) (scale (ptrOff q.sb) recB j k)
        else value (fld cfg 23 20) (raw pb (k * 64 + j)) 0
      let term (i j k : Nat) : FRes := FRes.mul ⟨if q.f6 = 5 then (A i k).neg else A i k, false⟩ ⟨B k j, false⟩
      let part (m x : Nat) : Nat × Flags := sum ((List.range chunk).map fun k => term (m / 64) (m % 64) (chunk * x + k))
      ∃ acc : Nat → Nat → Nat × Flags, (∀ m, (acc m 0).1 = if q.z then 0 else held q.n m)
        ∧ (∀ m < 4096, ∀ x < K / chunk, acc m (x + 1) = sum [quiet (acc m x).1, quiet (part m x).1])
        ∧ holds (mmaResult t q) (fun m => (acc m (K / chunk)).1)
          (fun i => (q.z = false ∧ marked q.n i) ∨ anyPois (pa + i * (K * bits / 8)) (K * bits / 8)
            ∨ anyPois (ptrOff q.sa + i * (rec * (K / 32))) (rec * (K / 32)) ∨ anyPois pb (64 * K * bits / 8)
            ∨ anyPois (ptrOff q.sb) (64 * recB * (K / 32)))
          (Flags.all ((List.range 4096).flatMap fun m => (List.range (K / chunk)).flatMap fun x =>
            [(part m x).2, (acc m (x + 1)).2])).bits)
    ∧ (q.f6 = 6 →
      let r (m : Nat) : Nat × Flags := sum [quiet (held q.n m), quiet (held q.src m)]
      holds (maccResult t q) (fun m => (r m).1) (fun i => marked q.n i ∨ marked q.src i)
        (Flags.all ((List.range 4096).map fun m => (r m).2)).bits)
    ∧ (∀ fo sz, [(fmt32, 4), (fmtBf16, 2), (fmtF16, 2), (fmtE4m3, 1), (fmtE5m2, 1), (fmt64, 8)][fld cfg 31 28]? = some (fo, sz) →
      (fo = fmt64 → q.pair = true) →
      (q.f6 = 1 → holds (mldResult t q)
        (fun m =>
          let x := natOfBytes (t.sram.readBytes (ptrOff q.pa + sz * m) sz)
          if fo = f then x else (f.round .rne false 0 (fo.decode x)).1)
        (fun i => anyPois (ptrOff q.pa + i * (64 * sz)) (64 * sz)) 0)
      ∧ (q.f6 = 2 →
        let mode := [Mode.rne, .rtz, .sr].getD (fld cfg 33 32) (Mode.ofCode q.rmode)
        let small : Bool := fo == fmtE4m3 || fo == fmtE5m2
        let fl := (Flags.all ((List.range 4096).map fun m =>
          if fo = f then Flags.none
          else (fo.round mode (cfg.getLsbD 34 && small) (drawn mode q.seed m) (f.decode (held q.n m))).2)).bits
        (∀ a, t.armedFor (t.mstDest q) 26 (ptrTag q.pa) = true → q.pieces < 32 * sz →
          ((t.mstWrite q).granPois a = true ↔ t.granPois a = true
            ∨ ∃ g < 2, a / 64 = (ptrOff q.pa + 128 * q.pieces) / 64 + g ∧ marked q.n ((128 * q.pieces + 64 * g) / (64 * sz))))
        ∧ ∀ a < 4, ((t.mxFinish q).acc a).xflags
          = if a = q.n ∨ (q.pair = true ∧ a = q.n + 1) then (t.acc a).xflags ||| fl else (t.acc a).xflags))
    ∧ ∀ old own : BitVec 5,
      ((q.f6 = 1 ∨ q.z = true) → t.mxFlags q old own = own)
      ∧ (q.z = false → (q.f6 = 3 ∨ q.f6 = 4 ∨ q.f6 = 5) → t.mxFlags q old own = old ||| own)
      ∧ (q.z = false → q.f6 = 6 → t.mxFlags q old own
        = old ||| own ||| (t.acc q.src).xflags ||| (if q.pair then (t.acc (q.src + 1)).xflags else 0))

end tileEvents

section domainEvents

/-- R49 to R52, R56, R59, R303: when the sequencer, past the snapshot of R308, samples every vote of a running domain the phase
ends, and the counter advances by one wherever the graph then leads; an odd phase that ends before a compute node, with its
nodes in the node cache and no move or pre-emption planned, starts that node's superstep, whose broadcast reaches the tiles
within 96 cycles (R305). A fetch ahead that meets a page fault halts the domain then (R306; log 49); it meets none where what
follows is in the cache too. -/
def Obligations.BoundaryAdvancesThePhase : Prop :=
  ∀ (s : State) (dom : Nat) (d : Domain), s.doms.find dom = some d →
    d.status = .running → d.snapshot = false → d.startAt ≤ s.cycle → (∀ p ∈ d.tiles, p.2.voteSeen = true) →
      (∃ t u, exec (.boundary dom) s = .next t ∧ t.doms.find dom = some u ∧ u.phase = d.phase + 1)
      ∧ (∀ g g', d.phase.getLsbD 0 = true → d.inserted = false → d.cache.find d.node = some g →
        d.cache.find g.next = some g' → g'.kind = 0 → d.plan = 0 → d.sliceDue = false →
        ∃ t u, exec (.boundary dom) s = .next t ∧ t.doms.find dom = some u
          ∧ (u.status = .running ∨ u.status = .halted 5) ∧ u.node = g.next
          ∧ (∀ f, d.cache.find g'.next = some f → f.kind ≠ 2 → f.kind ≠ 3 → u.status = .running)
          ∧ u.inserted = false ∧ s.cycle < u.startAt ∧ u.startAt ≤ s.cycle + 96 ∧ u.lap = 0)

/-- R60, R271 to R281, R291, R307, R311 to R314, R351: what the other steps of a domain leave. An expired lap counter stops; at
the end of its slice a domain is to be pre-empted where another class 2 request waits (that condition is the model's choice, log
36, and so is the plan that a straggler leaves, log 34); a handler entry is written when its lock clears; a request that finds a
free rectangle has it; a granted launch stands there in phase 0; a domain whose feeds have paused is saved, its registers in its
save area; a restore ends, and a domain restored with nothing logged and no notice held, or a moved one, goes on in its phase at
its node, or is halted where the fetch ahead meets a page fault (R306), and one whose graph had reached END stays there (R49);
the forwarding entries of a move, and of no other, are retired; a released domain is gone and its residency number advances.
What the save area holds is the model's choice (log 32), and that every tile of a move is moved at its end the model's reading
(log 33). -/
def Obligations.DomainEvents : Prop :=
  ∀ (s : State) (dom : Nat) (d : Domain), s.doms.find dom = some d →
    let goes (i : Instr) (p : State → Prop) : Prop := ∃ t, exec i s = .next t ∧ p t
    let leaves (i : Instr) (d' : Domain) : Prop := goes i fun t => t.doms.find dom = some d'
    let starts (i : Instr) (p : Domain → Prop) : Prop := goes i fun t => ∃ u, t.doms.find dom = some u ∧ p u
    let runs (u : Domain) : Prop := u.status = .running ∨ u.status = .halted 5
    (d.status = .running → d.lapStopped = false → d.budget ≤ d.lap →
      leaves (.straggler dom) { d with lapStopped := true, plan := if d.plan = 0 then 0 else 3 })
    ∧ (∀ x, d.sliceAt = some x → x + d.sliceLen s.level ≤ s.us → d.status.placed = true →
      leaves (.timeSliceExpiry dom) { d with sliceAt := none, sliceDue := s.kiln.places.any fun p => p.pclass == 2 })
    ∧ (∀ i, d.lock = some i → d.lockUntil ≤ s.time →
      leaves (.handlerLockClear dom) { d with handlers := d.handlers.set i d.lockEntry, lock := none })
    ∧ (∀ p r, headPlace s.kiln.places = some p → p.planned = false →
      p.wanted.find? (fun r => r.free (s.taken [])) = some r →
      goes .placementPlan fun t => t.doms = s.doms ∧ t.kiln.places
        = s.kiln.places.map fun x => if x = p then { p with x0 := r.x, y0 := r.y, planned := true } else x)
    ∧ (∀ p, headPlace s.kiln.places = some p → p.dom = dom → p.planned = true → p.rect.free (s.taken []) = true →
      starts .placementGrant fun u => u.x0 = p.x0 ∧ u.y0 = p.y0 ∧ u.placedAt = s.cycle
        ∧ (p.restore = false → u.phase = 0) ∧ (p.restore = true → u.phase = d.phase ∧ ∃ x, u.status = .restoring x))
    ∧ (∀ x, d.status = .saving x → x ≤ s.time → s.feedsMoving dom = false → d.commitsDue = false →
      leaves (.preemptDone dom) { d with status := .saved, saveArea := d.saveImage })
    ∧ (∀ x g, d.status = .restoring x → x ≤ s.time → d.heldNotices = [] → d.logged = [] → d.atEnd = false →
      d.cache.find d.node = some g →
      starts (.restore dom) fun u => runs u ∧ u.node = d.node ∧ u.phase = d.phase ∧ u.logged = [])
    ∧ (∀ x, d.status = .restoring x → x ≤ s.time → d.heldNotices = [] → d.logged = [] → d.atEnd = true →
      starts (.restore dom) fun u => u.status = .ended ∧ u.phase = d.phase ∧ u.logged = [])
    ∧ (∀ x, d.status = .restoring x → x ≤ s.time → goes (.restore dom) fun _ => True)
    ∧ (∀ x g, d.status = .migrating x → x ≤ s.time → s.feedsMoving dom = false → d.commitsDue = false →
      d.atEnd = false → d.cache.find d.node = some g →
      starts (.migrationStreamDone dom) fun u => runs u ∧ u.node = d.node ∧ u.phase = d.phase
        ∧ u.x0 = d.moveX ∧ u.y0 = d.moveY ∧ u.placedAt = s.cycle)
    ∧ (let gone (v : Forward) : Prop := v.dom = dom ∧ ∀ w ∈ s.vacating, w.dom = dom → w.since = v.since →
        w.retireAt ≠ 0 ∧ w.retireAt ≤ s.time ∧ ∀ f ∈ s.flits, ¬(f.dx = w.x ∧ f.dy = w.y ∧ f.agt = false)
      (∃ v ∈ s.vacating, gone v) → goes (.forwardRetire dom) fun t => t.doms = s.doms
        ∧ ∃ v ∈ s.vacating, gone v ∧ t.vacating = s.vacating.filter fun w => !(w.dom == dom && w.since == v.since))
    ∧ (∀ x seq, d.status = .releasing x seq → s.flitsTo dom = false →
      goes (.releaseDrainDone dom) fun t => t.doms.find dom = none
        ∧ t.residency.getD dom 0 = (s.residency.getD dom 0 + 1) % 2 ^ 16)

end domainEvents

section arrivals

/-- R63, R64, R206 to R217, R381: what an arrival does at a running domain's tile. A put fills the block that is armed for its
agent under its tag and commits it; a read of a FULL block takes it for sixteen cycles; a reply to XGET fills and commits the
block that its command armed, where it is still armed for it; a combine is performed on its cell, with the value of its
operation in R213's table (codes 9 and 10 are the FP64 forms of ElementFunctions); a routed unit takes the lowest free slot of
the inbox, and its record the next place of the directory; a closing count is recorded under its rank. A slot is free while it
is armed: the model's reading (log 97). -/
def Obligations.TileArrivals : Prop :=
  ∀ (s : State) (dom rank id : Nat) (d : Domain) (t : Tile) (m : Msg), s.at_ dom rank d t → d.status = .running →
    m.waitUntil = none → m.injected = m.flits → m.fly.length = m.flits → (∀ p ∈ m.fly, p.1 ≤ s.cycle) →
    s.msgs.find id = some m → m.dst = .tile dom rank →
      let b := t.blockOf m.addr
      let x := t.block b
      let goes (i : Instr) (p : Tile → Prop) : Prop := ∃ v u, exec i s = .next v ∧ v.tile? dom rank = some u ∧ p u
      let inDom : Prop := m.attr.pkg = s.pkgid.toNat ∧ m.attr.dom = dom
      let filled (b : Nat) (u : Tile) : Prop :=
        u.block b = { t.block b with state := .full, owner := 31, armed := false } ∧ (∀ c, c ≠ b → u.block c = t.block c)
          ∧ (∀ i < 2048, u.sram.read (t.blockAt b + i) = m.data.read i)
          ∧ (∀ a, (a < t.blockAt b ∨ t.blockAt b + 2048 ≤ a) → u.sram.read a = t.sram.read a)
      (m.kind = .put → Mem.wf m.data = true → t.wholeBlock m.addr = true → x.gen = m.tag → x.state = .deferred →
        x.armed = true → (inDom ∧ x.owner = 24 ∨ ¬ inDom ∧ x.owner = 27) → goes (.putArrive id) (filled b))
      ∧ (m.kind = .get → t.wholeBlock m.addr = true → x.gen = m.tag → x.state = .full →
        goes (.getArrive id) fun u => u.sram = t.sram ∧ u.blocks = t.blocks
          ∧ u.reads = t.reads ++ [{ blocks := [b], last := s.cycle + 15, ctx := none, job := .reply m }])
      ∧ (∀ c, m.kind = .reply → m.attr.dom = dom → m.attr.rank = rank → m.attr.res = s.residency.getD dom 0 →
        Mem.wf m.data = true → t.cmds.find m.req = some c → c.f6 = 2 →
        let r := t.block (t.blockOf (ptrOff c.a) + m.slot)
        r.gen = ptrTag c.a → r.state = .deferred → r.armed = true → r.owner = c.readAgent s.pkgid.toNat dom →
        goes (.reply id) (filled (t.blockOf (ptrOff c.a) + m.slot)))
      ∧ (m.kind = .combine → t.carve.region m.addr = .cell → m.addr % 8 = 0 → t.hitsWord1 m.addr 8 = false →
        t.granTag m.addr = m.tag → t.granPois m.addr = false → t.cellFree ≤ s.cycle →
        goes (.combine id) fun u =>
          u.sram.read64 m.addr = combineValue (wordAt m.args 1).toNat (t.sram.read64 m.addr) (wordAt m.args 0)
          ∧ (∀ a, (a < m.addr ∨ m.addr + 8 ≤ a) → u.sram.read a = t.sram.read a) ∧ u.blocks = t.blocks)
      ∧ (∀ box k, m.kind = .unit → t.inbox = some box → box.next ≤ k → k < box.nblk → t.armedSlot (box.base + k) = true →
        (∀ j, box.next ≤ j → j < k → t.armedSlot (box.base + j) = false) →
        goes (.routedUnit id) fun u => u.inbox = some { box with taken := box.taken + 1, next := k + 1 }
          ∧ u.units = t.units + 1 ∧ u.sram.read64 box.dir = w64 (box.taken + 1) ∧ u.blocks = t.blocks
          ∧ u.sram.read64 (box.dir + 8 + 8 * box.taken)
            = unitRecord m.attr.rank (wordAt m.args 0).toNat (wordAt m.args 1).toNat k)
      ∧ (m.kind = .close → goes (.closingCount id) fun u =>
          u.closes = t.closes.set (wordAt m.args 0).toNat (wordAt m.args 1).toNat ∧ u.sram = t.sram ∧ u.blocks = t.blocks)
      ∧ (∀ old v : Word, combineValue 0 old v = old + v ∧ (combineValue 1 old v).toInt = min old.toInt v.toInt
        ∧ (combineValue 2 old v).toInt = max old.toInt v.toInt ∧ (combineValue 3 old v).toNat = min old.toNat v.toNat
        ∧ (combineValue 4 old v).toNat = max old.toNat v.toNat ∧ combineValue 5 old v = old &&& v
        ∧ combineValue 6 old v = old ||| v
        ∧ (combineValue 9 old v).toNat = (minMaxF fmt64 false old.toNat v.toNat).1
        ∧ (combineValue 10 old v).toNat = (minMaxF fmt64 true old.toNat v.toNat).1)

/-- R202, R220 to R225, R272, R302: an invocation of a handler that its domain has enters the queue while there is
room; an answer resolves its block of the command it answers, or ends the wait of PITCH with its status; a request
told to retry waits at its sender for 64 cycles, or, told so through the fabric, for 256 cycles doubling to 8,192 with each
retry since the last success, and is then sent afresh; one of a residency that is over is dropped and counted. -/
def Obligations.AnswersAndInvocations : Prop :=
  ∀ (s : State) (id : Nat) (m : Msg), s.msgs.find id = some m →
    let arrived : Prop := m.waitUntil = none ∧ m.injected = m.flits ∧ m.fly.length = m.flits
      ∧ (∀ p ∈ m.fly, p.1 ≤ s.cycle) ∧ s.heldFor m = false
    (∀ d, arrived → m.kind = .invoke →
      let w := wordAt m.args 0
      let dom := fld w 21 16
      let h := d.handlers.getD (fld w 9 0) 0
      s.doms.find dom = some d → d.status = .running → fld w 9 0 < d.launch.nhand → d.lock ≠ some (fld w 9 0) →
      h.getLsbD 20 = true → h.getLsbD 0 = false → h.getLsbD 23 = false → fld h 63 36 = 0 →
      fld h 19 0 < d.launch.codeSize → (h.getLsbD 21 = true ∨ fld h 35 24 < d.nrank) →
      (d.queue.filter fun i => !i.inRing).length < 256 →
      ∃ v u, exec (.invoke id) s = .next v ∧ v.doms.find dom = some u
        ∧ u.queue = d.queue ++ [d.invocOf m false] ∧ u.invOrder = d.invOrder + 1)
    ∧ (∀ d t c, arrived → m.kind = .answer → s.at_ m.attr.dom m.attr.rank d t → d.status = .running →
      m.attr.res = s.residency.getD m.attr.dom 0 → t.cmds.find m.req = some c →
      (c.major = 23 → c.ctx < 18 → (t.ctx c.ctx).busy = .pitch m.req →
        ∃ v u, exec (.answer id) s = .next v ∧ v.tile? m.attr.dom m.attr.rank = some u
          ∧ (u.ctx c.ctx).busy = .pitchDone m.status c.b ∧ u.cmds = t.cmds.erase m.req ∧ u.sram = t.sram)
      ∧ (c.major = 21 → (c.f6 = 0 ∨ c.f6 = 1 ∨ c.f6 = 3 ∨ c.f6 = 5 ∨ c.f6 = 6 ∨ c.f6 = 7) → m.status = 0 →
        ∃ v u, exec (.answer id) s = .next v ∧ v.tile? m.attr.dom m.attr.rank = some u
          ∧ u = t.resolve m.req m.slot .done ∧ u.sram = t.sram))
    ∧ (arrived → m.kind = .retryAfter → m.attr.res ≠ s.residency.getD m.attr.dom 0 →
      ∃ v, exec (.retryAfter id) s = .next v ∧ v.drops = s.drops + 1 ∧ v.msgs = s.msgs.erase id ∧ v.doms = s.doms)
    ∧ (∀ d, arrived → m.kind = .retryAfter → m.attr.res = s.residency.getD m.attr.dom 0 →
      s.doms.find m.attr.dom = some d → (∀ x seq, d.status ≠ .releasing x seq) →
      ∃ v n, exec (.retryAfter id) s = .next v ∧ v.msgs.find s.nextMsg = some n ∧ n.kind = m.orig ∧ n.dst = m.src
        ∧ v.nextMsg = s.nextMsg + 1
        ∧ ((∀ p, m.src ≠ .darzan p) → n.waitUntil = some (s.cycle + 64) ∧ v.fabRetries = s.fabRetries)
        ∧ (∀ p, m.src = .darzan p → n.waitUntil = some (s.cycle + min (256 * 2 ^ s.fabRetries) 8192)
          ∧ v.fabRetries = s.fabRetries + 1))
    ∧ (∀ x, m.waitUntil = some x → x ≤ s.cycle → s.senderHeld m = false → m.va = none → m.dpkg = s.pkgid.toNat →
      id < s.nextMsg →
      ∃ v n, exec (.retryTimer id) s = .next v ∧ v.msgs.find id = none ∧ v.msgs.find s.nextMsg = some n
        ∧ n.kind = m.kind ∧ n.dst = m.dst ∧ n.args = m.args ∧ n.waitUntil = none ∧ n.readyAt = s.cycle)

end arrivals

section fabric

/-- R293, R330 to R335, R337 to R340: a new incarnation of another package enters the peer table and its translations are
dropped, and no other announcement changes anything; a due announcement waits at every port that is up, the next due 1 ms later;
a request unanswered for 1 ms is waited for no more in its old form and goes to a port again; a port rejects a flit whose FEC or
LCRC fails, or with a whole packet whose HCRC fails and that is not stomped, asks again for one out of order, and takes the one
in order with the credits that it returns, keeping the beats that make no whole packet yet and owing the credits of those that
do; a retraining that succeeds keeps what is not acknowledged, and the third that fails takes the port down; the routers act
once a cycle: each assigns the flits that have reached it by age, and then by source, an eject port, a productive link or the
first free one, and injects only on a productive link that is left, or ejects at once what its own router is to take; one that
could not inject for 128 cycles stops its neighbours for the next eight. The link checks' own values are the model's (log 8). -/
def Obligations.FabricEvents : Prop :=
  ∀ (s : State) (port : Nat) (x : Port),
    let goes (i : Instr) (p : State → Prop) : Prop := ∃ t, exec i s = .next t ∧ p t
    (∀ pkg inc : BitVec 16, pkg.toNat < 8192 → pkg ≠ s.pkgid → s.kiln.peers.getD pkg.toNat 0 ≠ inc.toNat →
      goes (.announce pkg inc) fun t => t.kiln.peers.getD pkg.toNat 0 = inc.toNat
        ∧ ∀ n y, (n, y) ∈ t.slices → ∀ v e, (v, e) ∈ y.cache → ¬(e.home = 1 ∧ e.pkg = pkg.toNat))
    ∧ (∀ pkg inc : BitVec 16, (8192 ≤ pkg.toNat ∨ pkg = s.pkgid ∨ s.kiln.peers.getD pkg.toNat 0 = inc.toNat) →
      exec (.announce pkg inc) s = .next s)
    ∧ (s.kiln.ready = true → s.kiln.announceAt ≤ s.us →
      goes .announcePeriodic fun t => t.kiln.announceAt = s.us + 1000
        ∧ t.ports = s.ports.map fun (p : Nat × Port) => (p.1, if p.2.up then p.2.push s.announcement else p.2))
    ∧ (∀ a, s.awaiting.find? (fun a => a.xid == port && decide (a.resendAt ≤ s.us)) = some a →
      goes (.requestResend port) fun t => t.awaiting = s.awaiting.erase a ∧ t.doms = s.doms
        ∧ (a.msg.dpkg < 8192 → s.kiln.peersDown.contains a.msg.dpkg = false → a.msg.xid ≠ 0 → s.portsTo a.msg.dpkg ≠ [] →
          ∃ m p, t.msgs.find s.nextMsg = some m ∧ m.kind = a.msg.kind ∧ m.xid = a.msg.xid ∧ m.args = a.msg.args
            ∧ m.dst = .darzan p ∧ p ∈ s.portsTo a.msg.dpkg ∧ m.injected = 0))
    ∧ (s.ports.find port = some x → x.up = true →
      (∀ bytes, x.retraining = false →
        let b := fecCorrect bytes
        let hd := natOfBytes (b.take 4)
        let sound : Prop := b.length = 272 ∧ natOfBytes ((b.drop 260).take 4) = (Config.crc32 (b.take 260)).toNat
        (¬ sound → goes (.linkFlit port bytes) fun t => t.ports.find port = some (x.reject s.us) ∧ t.doms = s.doms)
        ∧ (sound → hd % 1024 ≠ x.rxSeq % 1024 → goes (.linkFlit port bytes) fun t =>
          t.ports.find port = some { x.takeHeader hd s.us with nakOut := true } ∧ t.doms = s.doms)
        ∧ (sound → hd % 1024 = x.rxSeq % 1024 →
          let y := x.takeHeader hd s.us
          let null := decide (hd / 2 ^ 21 % 2 = 1)
          let beats := if null then [] else ((List.range 4).map fun i => (b.drop (4 + 64 * i)).take 64).drop y.rxSkip
          let r := splitPackets 8 (y.rx ++ beats)
          let taken : Port := { y.takeCredits hd with
            rxSeq := y.rxSeq + 1, nakOut := false, ackOut := y.ackOut || !null, naks := 0, rx := r.rest
            rxDoubt := y.doubt r beats.length, rxSkip := if null then y.rxSkip else 0 }
          (r.bad = true → goes (.linkFlit port bytes) fun t =>
            t.ports.find port = some (y.rollBack.reject s.us) ∧ t.doms = s.doms)
          ∧ (r.bad = false → goes (.linkFlit port bytes) fun t =>
            t.ports.find port = some (r.packets.foldl Port.drainedPacket taken))
          ∧ (r.bad = false → r.packets = [] → goes (.linkFlit port bytes) fun t => t.doms = s.doms)))
      ∧ (x.retraining = true →
        goes (.portRetrain port true) (fun t => ∃ y, t.ports.find port = some y ∧ y.up = true ∧ y.retraining = false
          ∧ y.retrains = 0 ∧ y.replay = x.replay)
        ∧ (x.retrains + 1 < 3 → goes (.portRetrain port false) fun t => ∃ y, t.ports.find port = some y
          ∧ y.up = true ∧ y.retrains = x.retrains + 1)
        ∧ (3 ≤ x.retrains + 1 → goes (.portRetrain port false) fun t => ∃ y, t.ports.find port = some y
          ∧ y.up = false ∧ y.retraining = false)))
    ∧ (s.glideAt ≤ s.cycle → goes .flitRoute fun t => t.glideAt = s.cycle + 1 ∧ t.doms = s.doms ∧ t.hbmMem = s.hbmMem)
    ∧ (∀ a b, a < 40 → b < 32 → 128 ≤ s.starveCnt.getD (b * 40 + a) 0 → goes (.starve a b) fun t =>
        t.starveCnt.getD (b * 40 + a) 0 = 0
        ∧ t.starve.getD (b * 40 + (a + 1) % 40) 0 = s.cycle + 9 ∧ t.starve.getD (b * 40 + (a + 39) % 40) 0 = s.cycle + 9
        ∧ t.starve.getD ((b + 1) % 32 * 40 + a) 0 = s.cycle + 9
        ∧ t.starve.getD ((b + 31) % 32 * 40 + a) 0 = s.cycle + 9)
    ∧ (∀ (old : List Flit) (a b : Nat), a < 40 →
      ∃ l : List Flit, l.Perm (old.filter fun f => f.x == a && f.y == b)
        ∧ l.Pairwise (fun f g => f.age > g.age ∨ (f.age = g.age ∧ f.sy * 40 + f.sx ≤ g.sy * 40 + g.sx))
        ∧ (let r := l.foldl RouterOut.assign ⟨[], false, false, [], []⟩
          let held : Prop := s.cycle < s.starve.getD (b * 40 + a) 0
          (held ∨ (s.offer a b false = none ∧ s.offer a b true = none) →
            (s.router old (b * 40 + a)).flits = s.flits ++ r.sent)
          ∧ ∀ agt id m f, ¬ held → s.offer a b agt = some (id, m) → s.offer a b (!agt) = none → s.nextFlit id m = some f →
            (s.router old (b * 40 + a)).flits = s.flits ++ (r.inject f).1.sent))
    ∧ (∀ (r : RouterOut) (f : Flit),
      let dx := (f.dx + 40 - f.x) % 40
      let dy := (f.dy + 32 - f.y) % 32
      let productive := (if 1 ≤ dx ∧ dx ≤ 20 then [Dir.xp] else []) ++ (if 20 ≤ dx then [Dir.xm] else [])
        ++ (if 1 ≤ dy ∧ dy ≤ 16 then [Dir.yp] else []) ++ (if 16 ≤ dy then [Dir.ym] else [])
      let ejects : Prop := f.x = f.dx ∧ f.y = f.dy ∧ (if f.agt then r.ejAgent else r.ejTile) = false
      let out : RouterOut := { r with
        ejTile := r.ejTile || !f.agt, ejAgent := r.ejAgent || f.agt, ejected := r.ejected ++ [f] }
      let leaves (before : List Dir) (d : Dir) (after : List Dir) (l : List Dir) : Prop :=
        l = before ++ d :: after ∧ (∀ k ∈ before, k ∈ r.used) ∧ d ∉ r.used
      let on (d : Dir) : RouterOut := { r with used := d :: r.used, sent := r.sent ++ [f.go d] }
      (ejects → r.assign f = out ∧ r.inject f = (out, true))
      ∧ (¬ ejects → (∀ before d after, leaves before d after (productive ++ [Dir.xp, .yp, .xm, .ym]) → r.assign f = on d)
        ∧ (∀ before d after, leaves before d after productive → r.inject f = (on d, true))
        ∧ ((∀ d ∈ productive, d ∈ r.used) → r.inject f = (r, false)))
      ∧ f.go .xp = { f with x := (f.x + 1) % 40, age := min (f.age + 1) 4095 }
      ∧ f.go .xm = { f with x := (f.x + 39) % 40, age := min (f.age + 1) 4095 }
      ∧ f.go .yp = { f with y := (f.y + 1) % 32, age := min (f.age + 1) 4095 }
      ∧ f.go .ym = { f with y := (f.y + 31) % 32, age := min (f.age + 1) 4095 })

/-- R286 to R292, R322 to R329: the memory system's own steps. A walk that is over ends, each transfer that waits for it goes
on, and the granules it read are decoded; a record that waited in its slice leaves it where its ring has room or its domain
is gone; the first INVALIDATE whose accesses are performed completes, and counts for the extents that were RELEASING when it
began; a controller services a woken waiter of a channel that is awake and a bank that is not refreshed, which waits on
where the checks pass and its block is not FULL, and is read otherwise; the scrubber moves on by one granule, corrects one that
has an error in one symbol, leaves one with more poisoned under TAG 0, its block FULL where it is the first, and leaves the
others; a refresh closes one bank for a time (its place and length: log 3); a pseudo-channel that has had no request for 10 µs
enters self-refresh. How the lists of two blocks share a cycle is the model's reading (log 44). -/
def Obligations.MemoryEvents : Prop :=
  ∀ (s : State) (n : Nat),
    let goes (i : Instr) (p : State → Prop) : Prop := ∃ t, exec i s = .next t ∧ p t
    (∀ w, s.walks.find n = some w → w.doneAt ≤ s.cycle →
      exec (.walkComplete n) s = .next (w.msgs.foldl s.walkDone
        (({ s with walks := s.walks.erase n } : State).readGrans 2 (walkGrans s (n * 2 ^ 18) 4 s.kiln.tableRoot))))
    ∧ (∀ w, s.walks.find n = some w → w.doneAt ≤ s.cycle → w.msgs = [] → s.hbmFailing = [] →
      goes (.walkComplete n) fun t => t.walks = s.walks.erase n ∧ t.msgs = s.msgs ∧ t.doms = s.doms
        ∧ t.hbmMem = s.hbmMem ∧ t.hbmBlk = s.hbmBlk)
    ∧ (∀ l, (s.slice n).stalled = [l] → s.doms.find (fld (wordAt l 1) 21 16) = none →
      goes (.stalledRecordWrite n) fun t => (t.slice n).stalled = [] ∧ t.doms = s.doms)
    ∧ (∀ l d, (s.slice n).stalled = [l] → s.doms.find (fld (wordAt l 1) 21 16) = some d → s.fringFull d = false →
      goes (.stalledRecordWrite n) fun t => (t.slice n).stalled = [])
    ∧ (∀ v, s.kiln.invals.find? (fun v => v.blocks.all fun k => !(s.underWay fun _ => true).contains k) = some v →
      exec .invalidateComplete s = .next (({ s with kiln := { s.kiln with
          invals := s.kiln.invals.erase v
          extents := s.kiln.extents.map fun (x : Nat × Extent) =>
            (x.1, if x.2.state == 2 && v.exts.contains x.1 then { x.2 with gone := true } else x.2) } } : State).post
        evComplete 0 v.seq 0 0 []))
    ∧ (∀ w, (s.ctl n).waits = [w] → (s.ctl n).served.getD w.pa 0 ≤ s.cycle → (∃ x < s.cycle, w.wokenAt = some x) →
      s.hbmOpen w.pa = true → pchOf w.pa ∉ (s.ctl n).sleeping → pchOf w.pa ∉ (s.ctl (stackOf w.pa)).sleeping →
      s.hbmFailing = [] → (s.hblk w.pa).state ≠ .full → w.msg.tag ≠ 0 → (s.hblk w.pa).tag = w.msg.tag →
      (s.hblk w.pa).odd = [] →
      goes (.hbmWaiterService n) fun t => (t.ctl n).waits = [{ w with wokenAt := none }]
        ∧ (t.ctl n).served.getD w.pa 0 = s.cycle + 1
        ∧ t.hbmMem = s.hbmMem ∧ t.hbmBlk = s.hbmBlk)
    ∧ (∀ w, s.nextWaiter n = some w → pchOf w.pa ∉ (s.ctl n).sleeping →
      let u := s.useHbm w.pa
      let x := u.hcheck w.pa w.msg.tag 0 (List.range 32)
      ¬(x.2 = .ok ∧ (x.1.hblk w.pa).state ≠ .full) →
      exec (.hbmWaiterService n) s = .next ((u.updCtl n fun c =>
        { c.serve u.cycle w.pa with waits := c.waits.filter fun y => y != w }).hbmRead w.msg))
    ∧ (n < 8 → (s.ctl n).scrubAt ≤ s.us * 2 ^ 30 →
      let g := scrubGran n (s.ctl n).scrubPos
      let errs := s.hbmFailing.getD g []
      goes (.scrub n) fun t => (t.ctl n).scrubPos = ((s.ctl n).scrubPos + 1) % 2 ^ 30 ∧ t.hbmFailing.getD g [] = []
        ∧ (∀ a, (a < 64 * g ∨ 64 * g + 64 ≤ a) → t.hbmMem.read a = s.hbmMem.read a)
        ∧ (errs.length < 2 → t.hbmMem = s.hbmMem ∧ t.hbmBlk = s.hbmBlk)
        ∧ (2 ≤ errs.length → (t.hblk (64 * g)).pois.getLsbD (g % 32) = true ∧ (t.hblk (64 * g)).tagOf (g % 32) = 0
          ∧ (g % 32 = 0 → (t.hblk (64 * g)).state = .full)))
    ∧ (n < 8 → (s.ctl n).refreshAt ≤ s.time →
      goes (.refresh n) fun t => s.time < (t.ctl n).refreshAt ∧ t.hbmMem = s.hbmMem ∧ t.hbmBlk = s.hbmBlk ∧ t.msgs = s.msgs
        ∧ (t.ctl n).refreshes = (s.ctl n).refreshes + 1 ∧ ∃ bank x, (t.ctl n).busy.find bank = some x ∧ s.time ≤ x)
    ∧ (n < 512 → s.kiln.idleEntry = true → n ∉ (s.ctl (n / 64)).sleeping →
      (s.ctl (n / 64)).lastUse.getD n 0 + 10 * usUnits ≤ s.time →
      (∀ q ∈ (s.ctl (n / 64)).queue, pchOf q.2 = n → s.stands q.1 = false) →
      (∀ f ∈ (s.ctl (n / 64)).fills, pchOf f.pa ≠ n) →
      goes (.selfRefreshEntry n) fun t => n ∈ (t.ctl (n / 64)).sleeping ∧ t.hbmMem = s.hbmMem ∧ t.hbmBlk = s.hbmBlk)

end fabric

section host

/-- R297, R319, R342 to R345, R348: the host's own accesses. A write through BAR2 reaches a granule of HBM whose block
is EMPTY, and is dropped and counted where it is not; a read returns the bytes whatever the state, and whether one of
their granules is poisoned; doorbells and registers take the value written, the ring registers only while both rings
are empty, and kept events follow while their queue has room; the byte 63 of the direct window submits its command, and
bytes are discarded while one is under way; an extent of CXL memory is added to a free entry and asked back from an active
one. What a part write leaves of a granule's poison in host memory is the model's reading (log 90). -/
def Obligations.HostAccesses : Prop :=
  ∀ (s : State) (addr : Nat) (bytes : List Byte) (len : Nat) (v : Word),
    let k := s.kiln
    let pa := k.aperture.toNat + addr
    let grans := if len = 0 then [] else (List.range ((pa + len - 1) / 64 - pa / 64 + 1)).map (pa / 64 + ·)
    let reg (off : Nat) (k' : Kiln) : Prop :=
      exec (.bar0RegisterWrite off v) s = .next ({ s with kiln := k' } : State).evFlush
    let empty : Prop := k.cmdHead = k.cmdTail ∧ k.evHead = k.evTail
    exec (.hostWrite .hostMemory addr bytes) s = .next { s with
        hostMem := s.hostMem.writeBytes addr bytes
        hostPois := s.hostPois.filter fun g => !(decide (addr ≤ 64 * g) && decide (64 * (g + 1) ≤ addr + bytes.length)) }
    ∧ exec (.hostRead .hostMemory addr len) s = .next { s with hostResult := some (s.hostMem.readBytes addr len, false) }
    ∧ (s.hbmFailing = [] → addr + bytes.length ≤ 2 ^ 34 → 0 < bytes.length → pa % 64 + bytes.length ≤ 64 →
      ((s.hblk pa).state = .empty →
        ∃ t, exec (.hostWrite .bar2 addr bytes) s = .next t
        ∧ t.hbmMem = s.hbmMem.writeBytes pa bytes ∧ t.hbmBlk = s.hbmBlk ∧ t.doms = s.doms)
      ∧ ((s.hblk pa).state ≠ .empty → ∃ t, exec (.hostWrite .bar2 addr bytes) s = .next t ∧ t.hbmMem = s.hbmMem
        ∧ t.hbmBlk = s.hbmBlk ∧ (t.ctl (stackOf pa)).dropw = ((s.ctl (stackOf pa)).dropw + 1) % 2 ^ 32))
    ∧ (s.hbmFailing = [] → addr + len ≤ 2 ^ 34 → ∃ t, exec (.hostRead .bar2 addr len) s = .next t
        ∧ t.hostResult = some (s.hbmMem.readBytes pa len, grans.any fun g => (s.hblk (64 * g)).pois.getLsbD (g % 32))
        ∧ t.hbmMem = s.hbmMem ∧ t.hbmBlk = s.hbmBlk ∧ t.doms = s.doms)
    ∧ exec (.cmdtail v) s = .next { s with kiln := { k with cmdTail := v } }
    ∧ (k.kept = [] → exec (.evhead v) s = .next { s with kiln := { k with evHead := v } })
    ∧ (exec (.evhead v) s = .next ({ s with kiln := { k with evHead := v } } : State).evFlush
      ∧ reg 0x10 { k with cmdTail := v } ∧ reg 0x30 { k with evHead := v } ∧ reg 0x40 { k with report := v }
      ∧ reg 0x50 { k with aperture := v } ∧ reg 0x18 k ∧ reg 0x38 k ∧ reg 0x48 k
      ∧ (empty → reg 0x00 { k with cmdBase := v } ∧ reg 0x08 { k with cmdSize := v } ∧ reg 0x20 { k with evBase := v }
        ∧ reg 0x28 { k with evSize := v })
      ∧ (¬ empty → reg 0x00 k ∧ reg 0x08 k ∧ reg 0x20 k ∧ reg 0x28 k))
    ∧ ((k.directCmd ≠ none ∨ k.curDirect = true) → exec (.direct addr bytes) s = .next s)
    ∧ (k.directCmd = none → k.curDirect = false → addr + bytes.length ≤ 64 →
      let old := (k.direct ++ List.replicate 64 0).take 64
      let new := old.take addr ++ bytes ++ old.drop (addr + bytes.length)
      (addr + bytes.length < 64 → exec (.direct addr bytes) s = .next { s with kiln := { k with direct := new } })
      ∧ (addr + bytes.length = 64 → addr < 64 → exec (.direct addr bytes) s = .next { s with kiln := { k with
          direct := [], directCmd := some ((List.range 8).map fun i => w64 (natOfBytes ((new.drop (8 * i)).take 8))) } }))
    ∧ (∀ x port base, x < 256 → port < 2 → len % 2 ^ 18 = 0 → (s.extent x).state = 0 →
      exec (.extentAdded x port base len) s = .next (({ s with
        kiln := { k with extents := k.extents.set x ⟨1, port, base, len, [], false⟩ } } : State).post evCapacity 0 0 0 0 [w64 x, 0]))
    ∧ (∀ x, (s.extent x).state = 1 →
      exec (.extentReleaseRequest x) s = .next (({ s with
        kiln := { k with extents := k.extents.set x { s.extent x with state := 2, gone := false } } } : State).post evCapacity 0 0 0 0
          [w64 x, 1]))

/-- R368 to R373, R375 to R377: a cold reset and leaving D3cold lose the tiles, the domains and HBM and keep the
host's memory and the flash; bring-up writes HBM, advances the incarnation, and is READY with every port up (that all 32 ports
train is the model's choice, log 8), or halts at the first step that fails with the steps before it done: at step 3 where a
die row has two defective tiles, at step 5 where the flash does not read back what was written; a thermal trip is recorded and
resets, and every step of a powered module above a limit is one (log 101 keeps a module that starts above it off); the tile clock
has levels 8 to 16, a change at most once per 10 µs and none to the full level while the temperature
throttles, and any other change is refused; entering D3hot and leaving it for D0 change nothing but the
power state. -/
def Obligations.DeviceEvents : Prop :=
  ∀ (s : State) (level : Nat),
    let lost (t : State) : Prop :=
      t.doms = [] ∧ t.hbmMem = [] ∧ t.hbmBlk = [] ∧ t.msgs = [] ∧ t.kiln.ready = false ∧ t.kiln.booting = true
        ∧ t.hostMem = s.hostMem ∧ t.cxlMem = s.cxlMem ∧ t.flash = s.flash ∧ t.pkgid = s.pkgid
    (∃ t, exec .coldReset s = .next t ∧ lost t ∧ t.power = .d0 ∧ t.tripped = s.tripped)
    ∧ (∃ t, exec .thermalTrip s = .next t ∧ lost t ∧ t.tripped = true)
    ∧ (s.unpowered = false → s.trips = true → step s = exec .thermalTrip s)
    ∧ (∃ t, exec .d3coldEntry s = .next t ∧ lost t ∧ t.power = .d3cold)
    ∧ (s.power = .d3cold → ∃ t, exec .d0Entry s = .next t ∧ lost t ∧ t.power = .d0)
    ∧ (s.power = .d3hot → exec .d0Entry s = .next { s with power := .d0 })
    ∧ (s.power = .d0 → exec .d3hotEntry s = .next { s with power := .d3hot })
    ∧ (8 ≤ level → level ≤ 16 → s.levelAt ≤ s.time → ¬(level = 16 ∧ s.throttles = true) →
      exec (.throttleChange level) s = .next { s with level, levelAt := s.time + 10 * usUnits })
    ∧ ((level < 8 ∨ 16 < level ∨ s.time < s.levelAt ∨ level = 16 ∧ s.throttles = true) →
      exec (.throttleChange level) s = .fault .notEnabled)
    ∧ (s.kiln.booting = true →
      let bad := s.fuseMap ++ s.badTiles
      let fails (k : Nat) : Prop := s.bootFault = some k
        ∨ (k = 3 ∧ ∃ d ∈ bad, ∃ e ∈ bad, d.1 = e.1 ∧ d.2.1 = e.2.1 ∧ d.2.2 ≠ e.2.2) ∨ (k = 5 ∧ s.flashStuck = true)
      ((∀ k, 1 ≤ k → k ≤ 7 → ¬ fails k) →
        ∃ t, exec .bringUp s = .next t ∧ t.flash = s.flash + 1 ∧ t.incarn = s.flash + 1 ∧ t.hbmMem = [] ∧ t.hbmBlk = []
          ∧ t.kiln.ready = true ∧ t.kiln.booting = false ∧ t.kiln.sampleAt = s.cycle + 1 ∧ t.hostMem = s.hostMem
          ∧ ∀ p < 32, ∃ x, t.ports.find p = some x ∧ x.up = true)
      ∧ (∀ k, 1 ≤ k → k ≤ 7 → fails k → (∀ j, 1 ≤ j → j < k → ¬ fails j) →
        ∃ t, exec .bringUp s = .next t ∧ t.kiln.halted = true ∧ t.kiln.ready = s.kiln.ready ∧ t.kiln.booting = false
          ∧ t.hostMem = s.hostMem ∧ t.hbmMem = (if k ≤ 4 then s.hbmMem else [])
          ∧ t.flash = (if k ≤ 5 then s.flash else s.flash + 1) ∧ t.incarn = (if k ≤ 5 then s.incarn else s.flash + 1)
          ∧ (k ≤ 6 → t.ports = s.ports)))

end host

section commands

/-- R42 to R49, R271, R272, R291, R307, R314, R346, R347, R351, R384: Kiln's commands on domains, decoded with their unused bits
zero in a state that admits them, while no HANDLER of the domain is pending (R345). LAUNCH of a sound, 64-byte aligned record
queues its domain under the lowest free number; a re-entry and CONTINUE walk the graph on; EXTEND starts an expired lap counter
again; BREAK traps each straggling slot; RELEASE drains the domain, and ends a saved one at once (the model's reading, log 35);
HANDLER locks its entry; SLICE and MIGRATE note their orders; a completion notice sends its stalled blocks afresh, fills a block
still armed for them poisoned, or waits for a saved domain. -/
def Obligations.DomainCommands : Prop :=
  ∀ (s : State) (w : List Word) (d : Domain) (m : List Word), s.kiln.cur = some w →
    let s' : State := { s with kiln := { s.kiln with cur := none, curDirect := false } }
    let dom := fld (wordAt w 0) 13 8
    let seq := fld (wordAt w 0) 31 16
    let goes (i : Instr) (t : State) : Prop := exec i s = .next t
    let ends (i : Instr) (t : State) : Prop := exec i s = .next (t.post evComplete dom seq 0 0 [])
    let some_ (i : Instr) (p : State → Prop) : Prop := ∃ t, exec i s = .next t ∧ p t
    (∀ n, cmdOk w false [~~~ 0] = true → (wordAt w 1).toNat % 64 = 0 →
      m = s'.launchRecord (wordAt w 1).toNat → s'.badRecord m = none →
      s'.freeDomain = some n → some_ .launch fun t => ∃ u p, t.doms.find n = some u ∧ u.status = .pending
        ∧ u.launch = Launch.of m ∧ u.launchSeq = seq ∧ t.kiln.places = s.kiln.places ++ [p] ∧ p.dom = n)
    ∧ (s.doms.find dom = some d → d.lock = none →
      (cmdOk w true [0, lowMask 12 ||| w64 (2 ^ 63)] = true → d.status = .ended → fld (wordAt w 2) 11 0 < d.launch.nnode →
        goes .launchReenter ((s'.setDom dom { d.mapTiles (fun t => { t with rotation := 0 }) with
          launchSeq := seq, launchPending := true, passes := [], cache := [] }).proceed dom (fld (wordAt w 2) 11 0) true))
      ∧ (cmdOk w true [] = true → d.status = .running →
        some_ .release fun t => ∃ u, t.doms.find dom = some u ∧ u.status = .releasing s.cycle seq ∧ u.queue = [])
      ∧ (cmdOk w true [] = true → d.status = .saved →
        some_ .release fun t => t.doms.find dom = none
          ∧ t.residency.getD dom 0 = (s.residency.getD dom 0 + 1) % 2 ^ 16)
      ∧ (∀ n g, cmdOk w true [1] = true → d.status = .atHost n → d.cache.find n = some g →
        goes .continueHold ((s'.post evComplete dom seq 0 0 []).proceed dom
          (if (wordAt w 1).getLsbD 0 then g.alt else g.next) false))
      ∧ (cmdOk w true [lowMask 32] = true → d.status = .running → d.lapStopped = true → fld (wordAt w 1) 31 0 ≠ 0 →
        ends .extend (s'.setDom dom { d with lap := 0, lapStopped := false, budget := fld (wordAt w 1) 31 0 }))
      ∧ (cmdOk w true [] = true → d.status = .running → d.phase.getLsbD 0 = false →
        ∀ rank t i a b, d.tiles.find rank = some t → i < 16 → t.breakWords i = some (a, b) →
          some_ .breakStragglers fun v => ∃ u, v.tile? dom rank = some u ∧ (u.ctx i).run = .trapped
            ∧ ∃ y ∈ u.traps, y.cause = cBreak ∧ y.form = 1 ∧ y.ctx = i ∧ y.tval = a ∧ y.tval2 = b)
      ∧ (cmdOk w true [lowMask 10, ~~~ 0] = true → d.status.placed = true →
        (d.status.refuses = false ∨ d.status.isHalted = true) →
        fld (wordAt w 1) 9 0 < d.launch.nhand →
        some_ .handler fun t => ∃ u, t.doms.find dom = some u ∧ u.lock = some (fld (wordAt w 1) 9 0)
          ∧ u.lockEntry = wordAt w 2 ∧ s.time < u.lockUntil ∧ u.handlers = d.handlers)
      ∧ (cmdOk w true [lowMask 32] = true → ends .slice (s'.setDom dom { d with slice := fld (wordAt w 1) 31 0 }))
      ∧ (cmdOk w true [lowMask 16] = true → d.plannable = true →
        Rect.free ⟨fld (wordAt w 1) 7 0, fld (wordAt w 1) 15 8, d.launch.width, d.launch.height⟩
          (s'.taken [] ++ ((s.kiln.places.filter Place.planned).map Place.rect)) = true →
        ends .migrate (s'.setDom dom { d with plan := 2, moveX := fld (wordAt w 1) 7 0, moveY := fld (wordAt w 1) 15 8 }))
      ∧ (cmdOk w true [lowMask 32, 1] = true →
        let n := fld (wordAt w 1) 31 0
        (d.status = .saved →
          ends .faultCompleteRetry (s'.setDom dom { d with heldNotices := d.heldNotices ++ [(n, false)] })
          ∧ ends .faultCompleteAbort (s'.setDom dom { d with heldNotices := d.heldNotices ++ [(n, true)] }))
        ∧ (d.status = .running → d.stalledAt n = none → ends .faultCompleteRetry s' ∧ ends .faultCompleteAbort s')
        ∧ (∀ rank req c t, d.status = .running → d.stalledAt n = some (rank, req, c) → d.tiles.find rank = some t →
          t.cmds.find req = some c →
          some_ .faultCompleteRetry (fun v => ∃ u, v.tile? dom rank = some u ∧ u.cmds.find req = some { c with
            paging := [], prog := c.prog.map fun p => if p = .stalled then .todo else p })
          ∧ (c.f6 = 2 → c.prog = [.stalled] →
            t.armedFor (t.blockOf (ptrOff c.a)) (c.readAgent s.pkgid.toNat dom) (ptrTag c.a) = true →
            some_ .faultCompleteAbort fun v => ∃ u, v.tile? dom rank = some u
            ∧ (u.block (t.blockOf (ptrOff c.a))).state = .full ∧ u.cmds.find req = none
            ∧ ∀ g ∈ t.blockGrans (t.blockOf (ptrOff c.a)), g ∈ u.pois))))

/-- R284, R292, R294, R295, R297, R321, R322, R326, R327, R329, R339, R340, R350, R352: Kiln's other commands, decoded
with their unused bits zero: INVALIDATE drops the translations that it names and is noted until its accesses are
performed; each of the others leaves its effect and COMPLETE with status 0. What the report of the attestation and of the
counters holds beyond the fields of the manual is the model's layout (logs 9 and 24). -/
def Obligations.PackageCommands : Prop :=
  ∀ (s : State) (w : List Word), s.kiln.cur = some w →
    let s' : State := { s with kiln := { s.kiln with cur := none, curDirect := false } }
    let a := (wordAt w 1).toNat
    let b := (wordAt w 2).toNat
    let seq := fld (wordAt w 0) 31 16
    let dom := fld (wordAt w 0) 13 8
    let ends (i : Instr) (t : State) (detail : Nat) : Prop := exec i s = .next (t.post evComplete dom seq 0 detail [])
    let kiln (i : Instr) (k : Kiln) : Prop := ends i { s with kiln := { k with cur := none, curDirect := false } } 0
    let some_ (i : Instr) (p : State → Prop) : Prop := ∃ t, exec i s = .next t ∧ p t
    let does (i : Instr) (p : State → Prop) : Prop := ∃ t, exec i s = .next (t.post evComplete dom seq 0 0 []) ∧ p t
    let ok (masks : List Word) : Prop := cmdOk w false masks = true
    let cached (t : State) (v : Nat) (x : Xlat) : Prop := ∃ n y, (n, y) ∈ t.slices ∧ (v, x) ∈ y.cache
    (ok [lowMask 52, lowMask 53] → a % 2 ^ 18 = 0 → b % 2 ^ 18 = 0 →
      some_ .invalidateRange fun t => (∃ v, t.kiln.invals = s.kiln.invals ++ [v] ∧ v.seq = seq
          ∧ ∀ x e, (x, e) ∈ s.kiln.extents → e.state = 2 → x ∈ v.exts)
        ∧ (∀ x p, p ∈ (t.extent x).pages ↔ p ∈ (s.extent x).pages ∧ ¬(a / 2 ^ 18 ≤ p ∧ p < (a + b) / 2 ^ 18))
        ∧ ∀ p x, cached t p x ↔ cached s p x ∧ ¬(a / 2 ^ 18 ≤ p ∧ p < (a + b) / 2 ^ 18))
    ∧ (ok [lowMask 16, w64 (2 ^ 63)] →
      some_ .invalidatePkgid fun t => (∃ v, t.kiln.invals = s.kiln.invals ++ [v] ∧ v.seq = seq)
        ∧ ∀ p x, cached t p x ↔ cached s p x ∧ ¬(x.home = 1 ∧ x.pkg = a))
    ∧ (ok [lowMask 39] → a % 8192 = 0 → kiln .tableRoot { s.kiln with tableRoot := a })
    ∧ (∀ pa : Nat → Nat, ok [lowMask 52, lowMask 24, w64 0x3F03] → a % 2048 = 0 → b ≠ 0 → s.hbmFailing = [] →
      let blocks := (List.range b).map pa
      (∀ i < b, ∃ x, s.walk (a + 2048 * i) false = .ok x ∧ x.home? s (a + 2048 * i) = .hbm (pa i)) →
      (∀ i < b, ∀ j < b, i ≠ j → pa i / 2048 ≠ pa j / 2048) →
      let tag := BitVec.ofNat 6 (fld (wordAt w 3) 13 8)
      let turn : Prop := (s.reach .kiln blocks).turn .kiln blocks = true
      let waits (i : Instr) : Prop := ¬ turn → (∃ j < b, s.listed .kiln (pa j) = false) →
        exec i s = .next (s.reach .kiln blocks)
      (fld (wordAt w 3) 1 0 = 1 → waits .memstateClear) ∧ (fld (wordAt w 3) 1 0 = 2 → tag ≠ 0 → waits .memstatePublish)
      ∧ (turn → fld (wordAt w 3) 1 0 = 1 → (∀ i < b, (s.hblk (pa i)).state ≠ .deferred) →
        does .memstateClear fun t => t.hbmMem = s.hbmMem ∧ ∀ i < b, t.hblk (pa i)
          = ⟨.empty, if tag ≠ 0 then tag else nextTag ((s.hblk (pa i)).tagOf 0), 0, []⟩)
      ∧ (turn → fld (wordAt w 3) 1 0 = 2 → tag ≠ 0 → (∀ i < b, (s.hblk (pa i)).state = .empty) →
        does .memstatePublish fun t => t.hbmMem = s.hbmMem ∧ ∀ i < b, t.hblk (pa i)
          = { s.hblk (pa i) with state := .full, tag, odd := [] }))
    ∧ (ok [~~~ 0, ~~~ 0] →
      let l := s.notes.take b
      let bytes := (l.map fun x => natBytes 8 x.toNat).flatten
      let t := { s' with hostMem := s.hostMem.writeBytes a bytes, notes := s.notes.drop l.length, notesOvf := false }
      ends .counterRead t ((if s.notesOvf then 1 else 0) + 2 * l.length))
    ∧ (ok [lowMask 34, w64 (2 ^ 63), lowMask 16] → (wordAt w 3).toNat ≠ 0 →
      does .counterReset fun t => t.kiln.threshold = (wordAt w 3).toNat
        ∧ ((wordAt w 2).getLsbD 63 = true → ∀ n y, (n, y) ∈ t.slices → y.counts = [] ∧ y.queued = [])
        ∧ ((wordAt w 2).getLsbD 63 = false → (t.slice (sliceOf a)).counts.find a = none
          ∧ a ∉ (t.slice (sliceOf a)).queued))
    ∧ (ok [~~~ 0] →
      let report := ((List.range 8).map fun c => (s.ctl c).bytes c).flatten ++ s.portBytes
      ends .health { s' with hostMem := s.hostMem.writeBytes a report } 0)
    ∧ (ok [~~~ 0, ~~~ 0, ~~~ 0, ~~~ 0, ~~~ 0] →
      let body := s'.attestBody ((w.drop 2).take 4)
      let report := body ++ (Config.mlDsa87 body).toList ++ Config.identityKey.toList
      ends .attest { s' with hostMem := s.hostMem.writeBytes a report } 0)
    ∧ (ok [lowMask 16, lowMask 32] → kiln .portmap { s.kiln with portMap := s.kiln.portMap.set a b })
    ∧ (ok [lowMask 16, 1] → kiln .peer { s.kiln with
        peersDown := if (wordAt w 2).getLsbD 0 then insNat a s.kiln.peersDown else delNat a s.kiln.peersDown })
    ∧ (ok [lowMask 64, ~~~ 0] → a = 1 → 1 ≤ b → b ≤ 48 → kiln .configScrub { s.kiln with scrubHours := b })
    ∧ (ok [lowMask 64, ~~~ 0] → a = 2 → b ≤ 1 → kiln .configIdleEntry { s.kiln with idleEntry := b == 1 })
    ∧ (ok [lowMask 8] → (s.extent a).state = 2 → s.extentBusy a = false →
      kiln .extentReleased { s.kiln with extents := s.kiln.extents.set a ⟨0, 0, 0, 0, [], false⟩ })

end commands

section machine

/-- R27, R29, R38, R46, R318, R319, R368, R369: right after a cold reset no domain holds a tile, no memory byte is
listed and Kiln is not READY; the next step is bring-up, which leaves HBM zero, every block EMPTY under TAG 1; a
launched tile holds the image in CODE and CELL, its tag bytes, zeros elsewhere, EMPTY blocks of generation 1, free
contexts, zero accumulators and no poison. R29, R36, R54, R126, R231: a thread that starts in context i has its frame's bounds
in g13 and g14, its arguments with their poison in g4 to g9, zero elsewhere, RMODE 0, SEED RANK × 32 + i + 1 and no retired
instruction; its frame's granules lose their poison, no other granule does, and no other context changes. The values of the
registers that the manual gives none are the model's (logs 4 and 5). -/
def Obligations.ResetLaunchAndThreadStart : Prop :=
  (
  State.reset.doms = [] ∧ State.reset.hbmMem = [] ∧ State.reset.kiln.ready = false ∧ State.reset.kiln.booting = true
    ∧ State.reset.MemoryCanonical
    ∧ (∃ t, step State.reset = .next t ∧ t.kiln.ready = true ∧ t.incarn = 1 ∧ (∀ a, t.hbmMem.read a = 0)
      ∧ ∀ pa, t.hblk pa = ⟨.empty, 1, 0, []⟩)
    ∧ ∀ (l : Launch) (img : List Byte) (x y rank : Nat), l.carvingOk = true →
      let t := l.tile img x y rank
      let c := t.carve
      img.length = l.codeSize + l.cellSize + l.cellSize / 64 →
        (∀ a < l.codeSize, t.sram.read a = img.getD a 0)
        ∧ (∀ a, l.codeSize ≤ a → a < c.cellBase → t.sram.read a = 0)
        ∧ (∀ i < l.cellSize, t.sram.read (c.cellBase + i) = img.getD (l.codeSize + i) 0)
        ∧ (∀ a, c.blockBase ≤ a → t.sram.read a = 0)
        ∧ (∀ g < l.cellSize / 64, t.tags.getD (c.cellBase / 64 + g) 0
          = (img.getD (l.codeSize + l.cellSize + g) 0).setWidth 6)
        ∧ (∀ b, t.block b = ⟨.empty, 31, false, 1⟩) ∧ t.pois = [] ∧ (∀ i, (t.ctx i).run = .free)
        ∧ (∀ n : AccReg, t.accs.get n = ⟨[], 0, 0⟩) ∧ t.tbase = BitVec.ofNat 64 l.tbase ∧ t.stallchk = l.det)
  ∧ ∀ (t : Tile) (rank i now from_ : Nat) (entry : BitVec 20) (args : List (Word × Bool)) (group : BitVec 16), i < 18 →
    let u := t.start rank i now from_ entry args group
    let c := u.ctx i
    let base := t.carve.frameBase + i * t.carve.frameSize
    (∀ n : GReg, c.th.rg n
        = if n.val = 13 then BitVec.ofNat 64 (base + t.carve.frameSize) else if n.val = 14 then BitVec.ofNat 64 base
          else if 4 ≤ n.val ∧ n.val ≤ 9 then (args.getD (n.val - 4) (0, false)).1 else 0)
      ∧ (∀ n : GReg, c.th.pg n = (decide (4 ≤ n.val ∧ n.val ≤ 9) && (args.getD (n.val - 4) (0, false)).2))
      ∧ (∀ n, c.th.rv n = 0 ∧ c.th.pv n = 0) ∧ (∀ n, c.th.re n = 0)
      ∧ (∀ n, c.th.rk n = if n = 0 then BitVec.allOnes 32 else 0)
      ∧ c.th.pc = entry ∧ c.th.seed = BitVec.ofNat 32 (rank * 32 + i + 1) ∧ c.th.retired = 0 ∧ c.th.flags = 0
      ∧ c.th.rmode = 0 ∧ c.run = .ready ∧ c.group = group ∧ c.sb = [] ∧ (∀ j, j ≠ i → u.ctx j = t.ctx j)
      ∧ u.sram = t.sram
      ∧ ∀ g, g ∈ u.pois ↔ g ∈ t.pois ∧ ¬(base / 64 ≤ g ∧ g < (base + t.carve.frameSize) / 64)

/-- R75, R78, R80, R82, R84, R261, R266: what comes before an instruction's own effect. It is held past an unresolved
branch where its kind waits for one, and on a register whose interlocked result has not landed; an SV-only instruction
raises PRIVILEGE in any other context and any instruction outside its kinds PHASE-ILLEGAL, with the instruction's
bits; under STALLCHK a read of a fixed-latency result that has not landed raises STALL-SHORT with the register, the
producer's PC, the cycles left and its major; of several it names the first that the instruction reads, the model's choice
(log 77). R12, R56, R75, R198, R242: the contexts that may issue an instruction.
ERET raises PRIVILEGE outside SV; the exchange instructions raise PHASE-ILLEGAL outside XC; in XC the vector memory
and matrix instructions raise it, and those that only a compute slot may issue. -/
def Obligations.IssueChecks : Prop :=
  (
    ∀ (s : State) (e : Env) (i : Instr) (op : Op) (body : Env → Except Stop Res1), s.env? = some e →
      exec i s = issue s op body →
        let waits : Prop := ∃ r ∈ op.reads, r.isZero = false ∧ ∃ p, newestPend r e.c.th.pend = some p ∧ p.fixed = false
        let traps (cause : Nat) (v v2 : Word) : Prop := exec i s = .next (e.trapped cause 0 v v2)
        let bits : Word := e.s.bits.setWidth 64
        ((op.waits = true ∧ e.speculative = true ∨ waits) →
          exec i s = .next (e.put e.t { e.c with spent := e.s.cycle + 1 }))
        ∧ (¬ waits → e.speculative = false → e.s.cur.ctx ≠ 17 →
          (op.who = .svOnly → traps cPriv bits 0)
          ∧ (op.who ≠ .svOnly → op.who.ok e.s.cur.ctx = false → traps cPhase bits 0)
          ∧ (∀ before r rest p l, op.who.ok e.s.cur.ctx = true → e.t.stallchk = true → op.reads = before ++ r :: rest →
            (∀ q ∈ before, q.isZero = true ∨ newestPend q e.c.th.pend = none) → r.isZero = false →
            newestPend r e.c.th.pend = some p → p.fixed = true → p.land = some l →
            traps cStall (r.word 0) (w64 (p.pc.toNat + 2 ^ 20 * (l - e.s.cycle) + 2 ^ 24 * p.major)))))
  ∧ (
    ∀ (s : State) (e : Env) (st : Stall) (a b d : GReg) (v : VReg) (n : AccReg) (o : XOrd) (f : CombOp) (z : Bool)
      (off : BitVec 11), s.env? = some e → e.c.th.pend = [] → e.speculative = false →
        let bits : Word := e.s.bits.setWidth 64
        (e.s.cur.ctx ≠ 17 → ∀ i ∈ [Instr.eret st, .eretEnd st], exec i s = .next (e.trapped cPriv 0 bits 0))
        ∧ (e.s.cur.ctx < 16 → ∀ i ∈ [Instr.xsend st a b, .xmcast st a b, .xget st o a b, .xput st o a b, .xcomb st f o a b,
            .xroute st a b, .xclose st, .xrecv st a, .xrecvRoute st a, .xend st, .xwait st a, .xwaitRecv st a],
          exec i s = .next (e.trapped cPhase 0 bits 0))
        ∧ (e.s.cur.ctx = 16 → ∀ i ∈ [Instr.sync st, .tend st, .yield st, .tbar st, .spawn st d a off, .bwait st a off,
            .await st d a off, .idle st d a, .vld st v a off, .vst st v a off, .vlds st v a off, .vsts st v a off,
            .vgath st v a off, .vscat st v a off, .mma st n a b z, .mmat st n a b z, .mmas st n a b z, .mzero st n,
            .mld st n a, .mst st n a, .macc st n n, .mwait st n, .mwaitAll st, .mstat st d n z],
          exec i s = .next (e.trapped cPhase 0 bits 0)))

/-- R6, R27, R79, R80, R124: the frame of the instructions that only write registers (the scalar and vector arithmetic, the
branches, the loads and the reads of control words). Whatever such an instruction does at its issue short of a
MACHINE-CHECK, it completes, is held, parks or traps, no byte of memory changes; no register of its thread changes before
its result lands, nor FLAGS or RMODE; no block, tag, barrier, accumulator or exception register of the tile changes, no
poison bit of a granule whose SRAM does not fail (R130), and no other context does. -/
def Obligations.RegisterFrame : Prop :=
  ∀ (s t : State) (e : Env) (i : Instr), s.env? = some e → e.s.cur.ctx ≠ 17 → i.registersOnly = true →
    exec i s = .next t →
      SameMemory s t ∧ ∃ u, t.env? = some u
        ∧ (∀ n : GReg, u.c.th.rg n = e.c.th.rg n ∧ u.c.th.pg n = e.c.th.pg n)
        ∧ (∀ n : VReg, u.c.th.rv n = e.c.th.rv n ∧ u.c.th.pv n = e.c.th.pv n)
        ∧ (∀ n : KReg, u.c.th.rk n = e.c.th.rk n) ∧ (∀ n : EReg, u.c.th.re n = e.c.th.re n)
        ∧ u.c.th.flags = e.c.th.flags ∧ u.c.th.rmode = e.c.th.rmode ∧ u.c.sb = e.c.sb
        ∧ (∀ b, u.t.block b = e.t.block b) ∧ u.t.tags = e.t.tags ∧ u.t.bars = e.t.bars
        ∧ (∀ g, g ∉ e.t.failing → (g ∈ u.t.pois ↔ g ∈ e.t.pois)) ∧ u.t.accs = e.t.accs
        ∧ u.t.tcause = e.t.tcause ∧ u.t.tepc = e.t.tepc ∧ u.t.tval = e.t.tval
        ∧ u.t.tval2 = e.t.tval2 ∧ u.t.tbase = e.t.tbase ∧ u.t.tscratch = e.t.tscratch
        ∧ ∀ j, j ≠ e.s.cur.ctx → u.t.ctx j = e.t.ctx j

/-- R70, R71, R74, R76, R77: words written out from the encoding tables decode to the instructions that they stand
for, and the reserved length codes, the reserved majors and a field that must be zero decode to none. -/
def Obligations.DecodeWords : Prop :=
  decodeBytes [0x03, 0x84, 0x06, 0x00] = some (.add 0 2 4 3, 4)
    ∧ decodeBytes [0x87, 0x82, 0xE0, 0xFF] = some (.addi 1 1 4 0x7FF, 4)
    ∧ decodeBytes [0x0B, 0x6A, 0x00, 0x80] = some (.lui 0 5 0x40003, 4)
    ∧ decodeBytes [0x17, 0x26, 0x34, 0x00] = some (.blt 0 3 1 0x003, 4)
    ∧ decodeBytes [0x23, 0xC6, 0xE5, 0xFF] = some (.ldw 0 3 14 0x7FF, 4)
    ∧ decodeBytes [0x2F, 0x8A, 0x46, 0x00] = some (.cadd 0 .relaxed 0 5 4 3, 4)
    ∧ decodeBytes [0x3B, 0x22, 0x11, 0x10] = some (.vadd 0 .f32 .rne 1 2 2 0 true, 4)
    ∧ decodeBytes [0x53, 0x46, 0x74, 0x00] = some (.mma 0 2 3 2 true, 4)
    ∧ decodeBytes [0x57, 0x44, 0x40, 0x00] = some (.xget 0 .relaxed 2 2, 4)
    ∧ decodeBytes [0x63, 0x02, 0x00, 0x02] = some (.mfc 0 1 0x010, 4)
    ∧ decodeBytes [0x84, 0x18] = some (.cAdd 0 2 6, 2)
    ∧ decodeBytes [0x01, 0x00, 0x00, 0x00] = none ∧ decodeBytes [0x02, 0x00, 0x00, 0x00] = none
    ∧ decodeBytes [0x7F, 0x00, 0x00, 0x00] = none ∧ decodeBytes [0x03, 0x84, 0x06, 0x08] = none

/-- R70, R71, R74, R76, R77: every well-formed instruction that has an encoding decodes from its bytes, whatever
follows them, to itself with every operand; and bytes that decode are the encoding of what they decode to, so each
word has one meaning and no bit of it is dropped. -/
def Obligations.DecodeAndEncodeAgree : Prop :=
  (∀ (i : Instr) (x : Enc) (rest : List Byte), i.wf = true → encode i = some x →
    decodeBytes (x.bytes ++ rest) = some (i, x.bytes.length))
  ∧ ∀ (bytes : List Byte) (i : Instr) (n : Nat), decodeBytes bytes = some (i, n) →
    i.wf = true ∧ ∃ x, encode i = some x ∧ x.bytes = bytes.take n

/-- R70, R77, R78, R244, R299: a step in which an instruction issues fetches it at the PC of the context to which the
arbiter offers the cycle, decodes it, and runs its meaning; around it only the tile's record of the cycle's issue
changes, and POIS of granules that the fetch reads and whose SRAM fails (R38). Bits that decode to nothing run ILLEGAL with
those bits, of 32 where the length code says so and of 16 otherwise; a halfword outside CODE runs the trap of the fetch at
its address. -/
def Obligations.StepRunsDecoded : Prop :=
  ∀ (s : State) (c : Cur) (det : Bool) (t : Tile),
    s.unpowered = false → s.trips = false → s.inputStep = none → s.kiln.booting = false → s.stopped = false →
    s.stageRow 0 s.rowsBefore = none → s.stage ≤ 1 →
    s.issuer = some (c, det, t) → (t.ctx c.ctx).th.skips = 0 → t.yielding (t.ctx c.ctx) = false →
      let pc := (t.ctx c.ctx).th.pc.toNat
      let s' : State := State.fetchRead { s with stage := 1 } c t
      let bytes := t.sram.readBytes pc 4
      let half := natOfBytes (bytes.take 2)
      let code (o : Nat) : Prop := o + 2 ≤ 2 ^ 20 ∧ t.carve.region o = .code
      let runs (o : Host.Outcome State Fault Refusal) : Prop :=
        ∀ u, o = .next u → step s = .next (u.afterIssue c det (t.ctx c.ctx))
      (∀ i, code pc → code (pc + 2) → decodeBytes bytes = some (i, 4) →
        runs (exec i { s' with cur := c, bits := BitVec.ofNat 32 (natOfBytes bytes), ilen := 4 }))
      ∧ (∀ i, code pc → decodeBytes bytes = some (i, 2) →
        runs (exec i { s' with cur := c, bits := BitVec.ofNat 32 half, ilen := 2 }))
      ∧ (code pc → decodeBytes bytes = none →
        (half % 4 = 3 → code (pc + 2) →
          runs (exec .illegalEncoding { s' with cur := c, bits := BitVec.ofNat 32 (natOfBytes bytes), ilen := 4 }))
        ∧ (half % 4 ≠ 3 → runs (exec .illegalEncoding { s' with cur := c, bits := BitVec.ofNat 32 half, ilen := 2 })))
      ∧ (∀ a, (¬ code pc ∧ a = pc ∨ code pc ∧ half % 4 = 3 ∧ ¬ code (pc + 2) ∧ a = pc + 2) →
        runs (exec .fetchBounds { s' with cur := c, bits := 0, ilen := 4, fetchAddr := a }))

/-- R8, R77, R85, R244, R263: no state stops the machine. Every step of the package answers a next state: an
instruction that fails traps, and a trap that cannot be taken halts its domain, while time goes on. -/
def Obligations.EveryStepGoesOn : Prop := ∀ s : State, ∃ t, step s = .next t

/-- Memory keeps one canonical form: in every step from a state whose SRAM, HBM, host and CXL memories list their
nonzero bytes by strictly rising address, the next state's do (R3, R13, R126, R319). -/
def Obligations.EveryStepKeepsMemoryCanonical : Prop :=
  ∀ s t : State, s.MemoryCanonical → step s = .next t → t.MemoryCanonical

end machine
end

