-- ==== Sys2Proof/Laws/Issue.lean ====
section
/-! SUPPORT. What an issue can do: it completes, stays, traps, parks or is held, each under what the checks of R78 and the
body of the instruction answer. -/

namespace Sys2Proof.Machine

@[simp] theorem need_true (st : Stop) : need true st = .ok () := rfl

@[simp] theorem need_false (st : Stop) : need false st = .error st := rfl

theorem need_pos {b : Bool} (st : Stop) (h : b = true) : need b st = .ok () := by simp [h]

/-- A check that holds is passed. -/
theorem bind_need {α : Type} {b : Bool} {st : Stop} {f : Unit → Except Stop α} (h : b = true) :
    (need b st >>= f) = f () := by
  subst h; rfl

/-- A check that fails stops the instruction. -/
theorem bind_fail {α : Type} {b : Bool} {st : Stop} {f : Unit → Except Stop α} (h : b = false) :
    (need b st >>= f) = .error st := by
  subst h; rfl

/-- What a part of an instruction answers, the rest goes on with. -/
theorem bind_ok {α β : Type} {x : Except Stop α} {a : α} {f : α → Except Stop β} (h : x = .ok a) :
    (x >>= f) = f a := by
  subst h; rfl

/-- A stop of a part stops the instruction. -/
theorem bind_error {α β : Type} {x : Except Stop α} {st : Stop} {f : α → Except Stop β} (h : x = .error st) :
    (x >>= f) = .error st := by
  subst h; rfl

@[simp] theorem ok_bind {α β : Type} (a : α) (f : α → Except Stop β) : (Except.ok a >>= f) = f a := rfl

@[simp] theorem error_bind {α β : Type} (x : Stop) (f : α → Except Stop β) :
    ((Except.error x : Except Stop α) >>= f) = .error x := rfl

@[simp] theorem pure_ok {α : Type} (a : α) : (pure a : Except Stop α) = .ok a := rfl

@[simp] theorem markWrong_s (e : Env) : (markWrong e).s = e.s := rfl

@[simp] theorem markWrong_d (e : Env) : (markWrong e).d = e.d := rfl

@[simp] theorem markWrong_t (e : Env) : (markWrong e).t = e.t := rfl

@[simp] theorem markWrong_th (e : Env) : (markWrong e).c.th = e.c.th := rfl

@[simp] theorem markWrong_sb (e : Env) : (markWrong e).c.sb = e.c.sb := rfl

@[simp] theorem markWrong_now (e : Env) : (markWrong e).now = e.s.cycle := rfl

@[simp] theorem markWrong_me (e : Env) : (markWrong e).me = e.s.cur.ctx := rfl

@[simp] theorem markWrong_det (e : Env) : (markWrong e).det = e.d.launch.det := rfl

@[simp] theorem markWrong_acquiring (e : Env) : (markWrong e).acquiring = e.acquiring := rfl

@[simp] theorem markWrong_cellHits (e : Env) (o n : Nat) : (markWrong e).cellHits o n = e.cellHits o n := rfl

@[simp] theorem markWrong_cellBusy (e : Env) : (markWrong e).cellBusy = e.cellBusy := rfl

@[simp] theorem markWrong_beingRead (e : Env) (b : Nat) : (markWrong e).beingRead b = e.beingRead b := rfl

@[simp] theorem markWrong_readHolds (e : Env) (b : Nat) : (markWrong e).readHolds b = e.readHolds b := rfl

theorem issue_next {s : State} {e : Env} {op : Op} {body : Env → Except Stop Res1} (h : s.env? = some e) :
    issue s op body = .next (issueIn e op body) := by
  simp [issue, h]

theorem Ready.not_held {s : State} {e : Env} {op : Op} (h : Ready s e op) : heldEarly e op = false := by
  have hr : readHeld e op = false := by
    simp only [readHeld, List.any_eq_false]
    intro r hr
    cases hz : r.isZero with
    | true => simp
    | false =>
      cases hn : newestPend r e.c.th.pend with
      | none => simp
      | some p => simp [(h.landed r hr hz p hn).1]
  cases hw : op.waits with
  | false => simp [heldEarly, hw, hr]
  | true => simp [heldEarly, hr, h.branch hw]

theorem Ready.short_none {s : State} {e : Env} {op : Op} (h : Ready s e op) (hs : e.t.stallchk = true) :
    shortRead e op = none := by
  simp only [shortRead, List.findSome?_eq_none_iff]
  intro r hr
  cases hz : r.isZero with
  | true => simp
  | false =>
    cases hn : newestPend r e.c.th.pend with
    | none => simp
    | some p => exact absurd (h.landed r hr hz p hn).2 (by simp [hs])

theorem Ready.precheck_ok {s : State} {e : Env} {op : Op} (h : Ready s e op) : precheck e op = .ok () := by
  have h1 : (!(op.who == .svOnly && e.me != 17)) = true := by
    have hw := h.who
    cases ho : op.who <;> simp_all [Who.ok]
  have h2 := h.who
  cases hs : e.t.stallchk with
  | false => simp [precheck, need, h1, h2, hs, bind, Except.bind]
  | true => simp [precheck, need, h1, h2, h.short_none hs, bind, Except.bind]

theorem issue_done {s : State} {e : Env} {op : Op} {body : Env → Except Stop Res1} {x : Done} (h : Ready s e op)
    (hb : body (markWrong e) = .ok (.done x)) : issue s op body = .next (complete1 op x).close := by
  simp [issue_next h.env, issueIn, h.not_held, h.precheck_ok, hb, bind, Except.bind]

theorem issue_stay {s : State} {e e' : Env} {op : Op} {body : Env → Except Stop Res1} (h : Ready s e op)
    (hb : body (markWrong e) = .ok (.stay e')) :
    issue s op body = .next { e' with c := { e'.c with last := e'.now, spent := e'.now + 1 } }.close := by
  simp [issue_next h.env, issueIn, h.not_held, h.precheck_ok, hb, bind, Except.bind]

theorem issue_trap {s : State} {e : Env} {op : Op} {body : Env → Except Stop Res1} {cause form : Nat} {v v2 : Word}
    (h : Ready s e op) (hb : body (markWrong e) = .error (.trap cause form v v2)) :
    issue s op body = .next (trapAt e (trapOf e cause form v v2)) := by
  simp [issue_next h.env, issueIn, h.not_held, h.precheck_ok, hb, bind, Except.bind]

theorem issue_park {s : State} {e : Env} {op : Op} {body : Env → Except Stop Res1} {b : Nat} (h : Ready s e op)
    (hb : body (markWrong e) = .error (.park b)) : issue s op body = .next (parkAt e b) := by
  simp [issue_next h.env, issueIn, h.not_held, h.precheck_ok, hb, bind, Except.bind]

theorem issue_hold {s : State} {e : Env} {op : Op} {body : Env → Except Stop Res1} (h : Ready s e op)
    (hb : body (markWrong e) = .error .hold) : issue s op body = .next (held e).close := by
  simp [issue_next h.env, issueIn, h.not_held, h.precheck_ok, hb, bind, Except.bind]

/-- Whatever the checks and the body answer, an encoded instruction of a resident context answers a next state. -/
theorem issue_total {s : State} (op : Op) (body : Env → Except Stop Res1) (h : s.env?.isSome) :
    ∃ t, issue s op body = .next t := by
  obtain ⟨e, he⟩ := Option.isSome_iff_exists.mp h
  exact ⟨_, issue_next he⟩

/-- A completion that only adds a register result leaves the state that Env.result names. -/
theorem close_result (e : Env) (op : Op) (lat : Nat) (ws : List RegWrite) (flags : BitVec 5) :
    (complete1 op { e := (markWrong e).fixed lat ws flags op.major }).close = e.result op lat ws flags := rfl

theorem close_resultPc (e : Env) (op : Op) (lat : Nat) (ws : List RegWrite) (flags : BitVec 5) (pc : BitVec 20) :
    (complete1 op { e := (markWrong e).fixed lat ws flags op.major, pc := some pc }).close
      = e.resultPc op lat true ws flags pc := rfl

/-- A completion that leaves the thread's registers as they are. -/
theorem close_plain (e : Env) (op : Op) :
    (complete1 op { e := markWrong e }).close = e.plain op (e.seqPc op) := rfl

theorem close_plainPc (e : Env) (op : Op) (pc : BitVec 20) :
    (complete1 op { e := markWrong e, pc := some pc }).close = e.plain op pc := rfl

end Sys2Proof.Machine
end

