-- ==== Sys2Proof/Laws/Map.lean ====
section
/-! SUPPORT. What the sparse maps and the byte memories do: what a read finds after a write, and that every memory
operation keeps the canonical form. -/

namespace Sys2Proof.Machine

section maps

@[simp] theorem find_nil {α : Type} (k : Nat) : AMap.find ([] : AMap α) k = none := rfl

/-- A read after a write: the value written at its key, the old entry elsewhere. -/
theorem find_set {α : Type} (m : AMap α) (k j : Nat) (v : α) :
    (m.set k v).find j = if j = k then some v else m.find j := by
  induction m with
  | nil => simp [AMap.set, AMap.find]
  | cons p t ih =>
    obtain ⟨k', v'⟩ := p
    simp only [AMap.set]
    split
    · subst_vars; simp only [AMap.find]; split <;> simp_all
    · split
      · simp only [AMap.find]
      · simp only [AMap.find, ih]; split <;> split <;> simp_all

@[simp] theorem find_set_self {α : Type} (m : AMap α) (k : Nat) (v : α) : (m.set k v).find k = some v := by
  simp [find_set]

theorem find_set_ne {α : Type} (m : AMap α) {k j : Nat} (v : α) (h : j ≠ k) : (m.set k v).find j = m.find j := by
  simp [find_set, h]

@[simp] theorem getD_set {α : Type} (m : AMap α) (k j : Nat) (v d : α) :
    (m.set k v).getD j d = if j = k then v else m.getD j d := by
  simp only [AMap.getD, find_set]; split <;> rfl

/-- The later of two writes of one key stands. -/
@[simp] theorem set_set {α : Type} (m : AMap α) (k : Nat) (v w : α) : (m.set k v).set k w = m.set k w := by
  induction m with
  | nil => simp [AMap.set]
  | cons p t ih =>
    obtain ⟨k', v'⟩ := p
    simp only [AMap.set]
    split
    · simp [AMap.set]
    · split
      · simp [AMap.set]
      · rename_i h1 h2; simp [AMap.set, h1, h2, ih]

/-- An entry written back as it stood changes nothing. -/
theorem set_self {α : Type} {m : AMap α} {k : Nat} {v : α} (h : m.Pairwise fun p q => p.1 < q.1)
    (hf : m.find k = some v) : m.set k v = m := by
  induction m with
  | nil => simp at hf
  | cons p t ih =>
    obtain ⟨k', v'⟩ := p
    simp only [AMap.find] at hf
    simp only [AMap.set]
    split at hf
    · rw [if_pos ‹_›]; cases hf; subst_vars; rfl
    · rename_i hk
      have ht := List.pairwise_cons.mp h
      rw [if_neg hk, if_neg, ih ht.2 hf]
      intro hlt
      have hmem : ∃ q ∈ t, q.1 = k := by
        clear ih h hk hlt ht
        induction t with
        | nil => simp at hf
        | cons q t ih =>
          simp only [AMap.find] at hf
          split at hf
          · exact ⟨q, by simp, by simp_all⟩
          · obtain ⟨r, hr, hk⟩ := ih hf; exact ⟨r, by simp [hr], hk⟩
      obtain ⟨q, hq, he⟩ := hmem
      have := ht.1 q hq
      simp only at this; omega

/-- A read after an erasure: nothing at its key, the old entry elsewhere. -/
theorem find_erase {α : Type} (m : AMap α) (k j : Nat) :
    (m.erase k).find j = if j = k then none else m.find j := by
  induction m with
  | nil => simp [AMap.erase]
  | cons p t ih =>
    obtain ⟨k', v'⟩ := p
    simp only [AMap.erase] at ih
    simp only [AMap.erase, List.filter_cons, AMap.find]
    by_cases h1 : k' = k
    · subst h1
      simp only [bne_self_eq_false, Bool.false_eq_true, if_false, ih]
      split <;> rfl
    · rw [if_pos (by simpa using h1)]
      simp only [AMap.find, ih]
      by_cases h2 : j = k'
      · subst h2; simp [h1]
      · simp [h2]

@[simp] theorem getD_erase {α : Type} (m : AMap α) (k j : Nat) (d : α) :
    (m.erase k).getD j d = if j = k then d else m.getD j d := by
  simp only [AMap.getD, find_erase]; split <;> rfl

end maps

section memory

/-- A byte read after a byte is written. -/
@[simp] theorem read_write (m : Mem) (a c : Nat) (b : Byte) :
    (m.write a b).read c = if c = a then b else m.read c := by
  unfold Mem.write Mem.read
  split
  · subst_vars; simp
  · simp

theorem read_writeBytes_outside (l : List Byte) : ∀ (m : Mem) (a c : Nat), (c < a ∨ a + l.length ≤ c) →
    (m.writeBytes a l).read c = m.read c := by
  induction l with
  | nil => intro m a c _; rfl
  | cons b t ih =>
    intro m a c h
    simp only [List.length_cons] at h
    rw [Mem.writeBytes, ih _ _ _ (by omega), read_write, if_neg (by omega)]

/-- Bytes written at an address are read back from it. -/
theorem read_writeBytes_inside (l : List Byte) : ∀ (m : Mem) (a i : Nat), i < l.length →
    (m.writeBytes a l).read (a + i) = l.getD i 0 := by
  induction l with
  | nil => intro m a i h; simp at h
  | cons b t ih =>
    intro m a i h
    rw [Mem.writeBytes]
    cases i with
    | zero => rw [read_writeBytes_outside _ _ _ _ (by omega)]; simp
    | succ i =>
      rw [show a + (i + 1) = a + 1 + i by omega, ih _ _ _ (by simpa using h)]
      simp

/-- A byte that no cell of a list names is kept. -/
theorem read_writeCells_outside (l : List Host.Cell) : ∀ (m : Mem) (c : Nat), (∀ p ∈ l, p.1 ≠ c) →
    (m.writeCells l).read c = m.read c := by
  induction l with
  | nil => intro m c _; rfl
  | cons p t ih =>
    intro m c h
    obtain ⟨a, b⟩ := p
    rw [Mem.writeCells, ih _ _ (fun q hq => h q (by simp [hq])), read_write,
      if_neg (fun e => h (a, b) (by simp) e.symm)]

@[simp] theorem readBytes_length (m : Mem) (n : Nat) : ∀ a, (m.readBytes a n).length = n := by
  induction n with
  | zero => intro a; rfl
  | succ n ih => intro a; simp [Mem.readBytes, ih]

theorem readBytes_getD (m : Mem) (n : Nat) : ∀ a i, i < n → (m.readBytes a n).getD i 0 = m.read (a + i) := by
  induction n with
  | zero => intro a i h; omega
  | succ n ih =>
    intro a i h
    cases i with
    | zero => simp [Mem.readBytes]
    | succ i =>
      rw [show a + (i + 1) = a + 1 + i by omega, ← ih (a + 1) i (by omega)]
      simp [Mem.readBytes]

theorem readBytes_congr {m k : Mem} (n : Nat) : ∀ a, (∀ i < n, m.read (a + i) = k.read (a + i)) →
    m.readBytes a n = k.readBytes a n := by
  induction n with
  | zero => intro a _; rfl
  | succ n ih =>
    intro a h
    simp only [Mem.readBytes]
    rw [ih (a + 1) (fun i hi => by rw [show a + 1 + i = a + (i + 1) by omega]; exact h _ (by omega)),
      show m.read a = k.read a from h 0 (by omega)]

theorem readBytes_writeBytes (l : List Byte) (m : Mem) (a : Nat) : (m.writeBytes a l).readBytes a l.length = l := by
  apply List.ext_getElem
  · simp
  · intro i h1 h2
    have h := readBytes_getD (m.writeBytes a l) l.length a i h2
    rw [read_writeBytes_inside _ _ _ _ h2] at h
    simpa [List.getD, h1, h2] using h

theorem natOfBytes_lt (bs : List Byte) : natOfBytes bs < 2 ^ (8 * bs.length) := by
  induction bs with
  | nil => simp [natOfBytes]
  | cons b t ih =>
    have := b.isLt
    simp only [natOfBytes, List.length_cons, Nat.mul_add, Nat.mul_one, pow_add]
    omega

@[simp] theorem natBytes_length (n : Nat) : ∀ v, (natBytes n v).length = n := by
  induction n with
  | zero => intro v; rfl
  | succ n ih => intro v; simp [natBytes, ih]

theorem natBytes_getD (n : Nat) : ∀ v k, (natBytes n v).getD k 0 = if k < n then BitVec.ofNat 8 (v / 256 ^ k) else 0 := by
  induction n with
  | zero => intro v k; simp [natBytes]
  | succ n ih =>
    intro v k
    cases k with
    | zero => simp [natBytes]
    | succ k =>
      have h := ih (v / 256) k
      rw [Nat.div_div_eq_div_mul, ← pow_succ'] at h
      simpa [natBytes] using h

theorem natOfBytes_natBytes (n : Nat) : ∀ v, natOfBytes (natBytes n v) = v % 256 ^ n := by
  induction n with
  | zero => intro v; simp [natBytes, natOfBytes, Nat.mod_one]
  | succ n ih =>
    intro v
    have h : (BitVec.ofNat 8 v).toNat = v % 256 := BitVec.toNat_ofNat v 8
    rw [natBytes, natOfBytes, ih, h, pow_succ', Nat.mod_mul]

/-- A doubleword is read back as it was written. -/
@[simp] theorem read64_write64 (m : Mem) (a : Nat) (w : Word) : (m.write64 a w).read64 a = w := by
  have h := readBytes_writeBytes (natBytes 8 w.toNat) m a
  rw [natBytes_length] at h
  unfold Mem.write64 Mem.read64
  rw [h, natOfBytes_natBytes]
  have := w.isLt
  rw [Nat.mod_eq_of_lt (by simpa using this)]
  simp

/-- A doubleword write keeps every byte outside the doubleword. -/
theorem read_write64_outside (m : Mem) (a c : Nat) (w : Word) (h : c < a ∨ a + 8 ≤ c) :
    (m.write64 a w).read c = m.read c :=
  read_writeBytes_outside _ _ _ _ (by simpa using h)

end memory

section canonical

theorem wfFrom_mono {lo lo' : Nat} (h : lo ≤ lo') : ∀ {m : Mem}, m.wfFrom lo' = true → m.wfFrom lo = true := by
  intro m hm
  cases m with
  | nil => rfl
  | cons p t =>
    obtain ⟨a, b⟩ := p
    simp only [Mem.wfFrom, Bool.and_eq_true, decide_eq_true_eq] at *
    exact ⟨⟨by omega, hm.1.2⟩, hm.2⟩

theorem wfFrom_filter (p : Host.Cell → Bool) : ∀ (m : Mem) (lo : Nat), m.wfFrom lo = true →
    Mem.wfFrom lo (m.filter p) = true := by
  intro m
  induction m with
  | nil => intro lo _; rfl
  | cons q t ih =>
    intro lo h
    obtain ⟨a, b⟩ := q
    simp only [Mem.wfFrom, Bool.and_eq_true, decide_eq_true_eq] at h
    rw [List.filter_cons]
    split
    · simp only [Mem.wfFrom, Bool.and_eq_true, decide_eq_true_eq]
      exact ⟨h.1, ih _ h.2⟩
    · exact wfFrom_mono (by omega) (ih _ h.2)

theorem wfFrom_set {b : Byte} (hb : b ≠ 0) : ∀ (m : Mem) (a lo : Nat), lo ≤ a → m.wfFrom lo = true →
    Mem.wfFrom lo (AMap.set m a b) = true := by
  intro m
  induction m with
  | nil =>
    intro a lo h _
    simp only [AMap.set, Mem.wfFrom, Bool.and_eq_true, decide_eq_true_eq, bne_iff_ne]
    exact ⟨⟨h, hb⟩, trivial⟩
  | cons q t ih =>
    intro a lo h hm
    obtain ⟨k, v⟩ := q
    simp only [Mem.wfFrom, Bool.and_eq_true, decide_eq_true_eq] at hm
    simp only [AMap.set]
    split
    · subst_vars
      simp only [Mem.wfFrom, Bool.and_eq_true, decide_eq_true_eq, bne_iff_ne]
      exact ⟨⟨h, hb⟩, hm.2⟩
    · split
      · simp only [Mem.wfFrom, Bool.and_eq_true, decide_eq_true_eq, bne_iff_ne]
        exact ⟨⟨h, hb⟩, ⟨by omega, by simpa using hm.1.2⟩, hm.2⟩
      · simp only [Mem.wfFrom, Bool.and_eq_true, decide_eq_true_eq]
        exact ⟨hm.1, ih _ _ (by omega) hm.2⟩

@[simp] theorem wf_nil : Mem.wf [] = true := rfl

/-- Every memory operation keeps the canonical form. -/
theorem wf_write {m : Mem} (a : Nat) (b : Byte) (h : m.wf = true) : (m.write a b).wf = true := by
  unfold Mem.write
  split
  · exact wfFrom_filter _ _ _ h
  · exact wfFrom_set ‹_› _ _ _ (by omega) h

theorem wf_writeBytes (l : List Byte) : ∀ {m : Mem} (a : Nat), m.wf = true → (m.writeBytes a l).wf = true := by
  induction l with
  | nil => intro m a h; exact h
  | cons b t ih => intro m a h; exact ih _ (wf_write _ _ h)

theorem wf_writeCells (l : List Host.Cell) : ∀ {m : Mem}, m.wf = true → (m.writeCells l).wf = true := by
  induction l with
  | nil => intro m h; exact h
  | cons p t ih => intro m h; exact ih (wf_write _ _ h)

theorem wf_write64 {m : Mem} (a : Nat) (w : Word) (h : m.wf = true) : (m.write64 a w).wf = true :=
  wf_writeBytes _ _ h

theorem wf_clear {m : Mem} (a n : Nat) (h : m.wf = true) : (m.clear a n).wf = true := wfFrom_filter _ _ _ h

theorem wf_paste {m : Mem} (a n : Nat) (sl : Mem) (h : m.wf = true) : (m.paste a n sl).wf = true :=
  wf_writeCells _ (wf_clear _ _ h)

theorem wfFrom_lt {lo : Nat} : ∀ {m : Mem}, m.wfFrom lo = true → m.Pairwise (fun p q => p.1 < q.1) ∧ ∀ p ∈ m, lo ≤ p.1 := by
  intro m
  induction m generalizing lo with
  | nil => simp
  | cons q t ih =>
    intro h
    obtain ⟨a, b⟩ := q
    simp only [Mem.wfFrom, Bool.and_eq_true, decide_eq_true_eq] at h
    obtain ⟨h1, h2⟩ := ih h.2
    refine ⟨List.pairwise_cons.mpr ⟨fun p hp => by have := h2 p hp; simp only; omega, h1⟩, ?_⟩
    intro p hp
    rcases List.mem_cons.mp hp with rfl | hp
    · exact h.1.1
    · have := h2 p hp; omega

/-- Two canonical memories that read alike are one list. -/
theorem wf_ext {m k : Mem} (hm : m.wf = true) (hk : k.wf = true) (h : ∀ a, m.read a = k.read a) : m = k := by
  unfold Mem.wf at hm hk
  generalize 0 = lo at hm hk
  induction m generalizing k lo with
  | nil =>
    cases k with
    | nil => rfl
    | cons q t =>
      obtain ⟨a, b⟩ := q
      simp only [Mem.wfFrom, Bool.and_eq_true, decide_eq_true_eq, bne_iff_ne] at hk
      exact absurd (by simpa [Mem.read, AMap.getD, AMap.find] using (h a).symm) hk.1.2
  | cons p s ih =>
    obtain ⟨a, b⟩ := p
    simp only [Mem.wfFrom, Bool.and_eq_true, decide_eq_true_eq, bne_iff_ne] at hm
    cases k with
    | nil => exact absurd (by simpa [Mem.read, AMap.getD, AMap.find] using h a) hm.1.2
    | cons q t =>
      obtain ⟨c, d⟩ := q
      simp only [Mem.wfFrom, Bool.and_eq_true, decide_eq_true_eq, bne_iff_ne] at hk
      have none_below : ∀ {l : Mem} {x y : Nat}, l.wfFrom x = true → y < x → AMap.find l y = none := by
        intro l x y hl hy
        induction l generalizing x with
        | nil => rfl
        | cons r u ih2 =>
          obtain ⟨k0, v0⟩ := r
          simp only [Mem.wfFrom, Bool.and_eq_true, decide_eq_true_eq] at hl
          simp only [AMap.find]
          rw [if_neg (by omega)]
          exact ih2 hl.2 (by omega)
      have hac : a = c := by
        rcases Nat.lt_trichotomy a c with hlt | rfl | hlt
        · have := h a
          simp only [Mem.read, AMap.getD, AMap.find, if_true, if_neg (by omega : ¬ a = c)] at this
          rw [none_below hk.2 (by omega)] at this
          exact absurd this hm.1.2
        · rfl
        · have := h c
          simp only [Mem.read, AMap.getD, AMap.find, if_true, if_neg (by omega : ¬ c = a)] at this
          rw [none_below hm.2 (by omega)] at this
          exact absurd this.symm hk.1.2
      subst hac
      have hbd : b = d := by simpa [Mem.read, AMap.getD, AMap.find] using h a
      subst hbd
      rw [ih (k := t) (lo := a + 1) (fun x => ?_) hm.2 hk.2]
      by_cases hx : x = a
      · subst hx
        simp [Mem.read, AMap.getD, none_below hm.2 (Nat.lt_succ_self _), none_below hk.2 (Nat.lt_succ_self _)]
      · simpa [Mem.read, AMap.getD, AMap.find, hx] using h x

end canonical

end Sys2Proof.Machine
end

