-- ==== Sys2Proof/Laws/State.lean ====
section
/-! SUPPORT. What each named update of a state record leaves in each field, one lemma a field, all by rfl; and what a tile or a
context reads as after it is replaced. -/

namespace Sys2Proof.Machine

section setDom

variable (s : State) (k : Nat) (d : Domain)

@[simp] theorem setDom_cycle : (s.setDom k d).cycle = s.cycle := rfl

@[simp] theorem setDom_stage : (s.setDom k d).stage = s.stage := rfl

@[simp] theorem setDom_level : (s.setDom k d).level = s.level := rfl

@[simp] theorem setDom_levelAt : (s.setDom k d).levelAt = s.levelAt := rfl

@[simp] theorem setDom_usAcc : (s.setDom k d).usAcc = s.usAcc := rfl

@[simp] theorem setDom_us : (s.setDom k d).us = s.us := rfl

@[simp] theorem setDom_cur : (s.setDom k d).cur = s.cur := rfl

@[simp] theorem setDom_bits : (s.setDom k d).bits = s.bits := rfl

@[simp] theorem setDom_fetchAddr : (s.setDom k d).fetchAddr = s.fetchAddr := rfl

@[simp] theorem setDom_ilen : (s.setDom k d).ilen = s.ilen := rfl

@[simp] theorem setDom_free : (s.setDom k d).free = s.free := rfl

@[simp] theorem setDom_fabRetries : (s.setDom k d).fabRetries = s.fabRetries := rfl

@[simp] theorem setDom_inputs : (s.setDom k d).inputs = s.inputs := rfl

@[simp] theorem setDom_pkgid : (s.setDom k d).pkgid = s.pkgid := rfl

@[simp] theorem setDom_incarn : (s.setDom k d).incarn = s.incarn := rfl

@[simp] theorem setDom_flash : (s.setDom k d).flash = s.flash := rfl

@[simp] theorem setDom_tripped : (s.setDom k d).tripped = s.tripped := rfl

@[simp] theorem setDom_power : (s.setDom k d).power = s.power := rfl

@[simp] theorem setDom_doms : (s.setDom k d).doms = s.doms.set k d := rfl

@[simp] theorem setDom_residency : (s.setDom k d).residency = s.residency := rfl

@[simp] theorem setDom_vacating : (s.setDom k d).vacating = s.vacating := rfl

@[simp] theorem setDom_hbmMem : (s.setDom k d).hbmMem = s.hbmMem := rfl

@[simp] theorem setDom_hbmBlk : (s.setDom k d).hbmBlk = s.hbmBlk := rfl

@[simp] theorem setDom_hbmFailing : (s.setDom k d).hbmFailing = s.hbmFailing := rfl

@[simp] theorem setDom_ctls : (s.setDom k d).ctls = s.ctls := rfl

@[simp] theorem setDom_slices : (s.setDom k d).slices = s.slices := rfl

@[simp] theorem setDom_walks : (s.setDom k d).walks = s.walks := rfl

@[simp] theorem setDom_notes : (s.setDom k d).notes = s.notes := rfl

@[simp] theorem setDom_notesOvf : (s.setDom k d).notesOvf = s.notesOvf := rfl

@[simp] theorem setDom_msgs : (s.setDom k d).msgs = s.msgs := rfl

@[simp] theorem setDom_nextMsg : (s.setDom k d).nextMsg = s.nextMsg := rfl

@[simp] theorem setDom_nextReq : (s.setDom k d).nextReq = s.nextReq := rfl

@[simp] theorem setDom_nextXid : (s.setDom k d).nextXid = s.nextXid := rfl

@[simp] theorem setDom_flits : (s.setDom k d).flits = s.flits := rfl

@[simp] theorem setDom_glideAt : (s.setDom k d).glideAt = s.glideAt := rfl

@[simp] theorem setDom_starveCnt : (s.setDom k d).starveCnt = s.starveCnt := rfl

@[simp] theorem setDom_starve : (s.setDom k d).starve = s.starve := rfl

@[simp] theorem setDom_awaiting : (s.setDom k d).awaiting = s.awaiting := rfl

@[simp] theorem setDom_answered : (s.setDom k d).answered = s.answered := rfl

@[simp] theorem setDom_ports : (s.setDom k d).ports = s.ports := rfl

@[simp] theorem setDom_drops : (s.setDom k d).drops = s.drops := rfl

@[simp] theorem setDom_hostMem : (s.setDom k d).hostMem = s.hostMem := rfl

@[simp] theorem setDom_hostPois : (s.setDom k d).hostPois = s.hostPois := rfl

@[simp] theorem setDom_hostResult : (s.setDom k d).hostResult = s.hostResult := rfl

@[simp] theorem setDom_fuseMap : (s.setDom k d).fuseMap = s.fuseMap := rfl

@[simp] theorem setDom_badTiles : (s.setDom k d).badTiles = s.badTiles := rfl

@[simp] theorem setDom_defects : (s.setDom k d).defects = s.defects := rfl

@[simp] theorem setDom_bootFault : (s.setDom k d).bootFault = s.bootFault := rfl

@[simp] theorem setDom_flashStuck : (s.setDom k d).flashStuck = s.flashStuck := rfl

@[simp] theorem setDom_dieTemp : (s.setDom k d).dieTemp = s.dieTemp := rfl

@[simp] theorem setDom_hbmTemp : (s.setDom k d).hbmTemp = s.hbmTemp := rfl

@[simp] theorem setDom_cxlMem : (s.setDom k d).cxlMem = s.cxlMem := rfl

@[simp] theorem setDom_cxlPois : (s.setDom k d).cxlPois = s.cxlPois := rfl

@[simp] theorem setDom_kiln : (s.setDom k d).kiln = s.kiln := rfl

end setDom

section tick1

variable (s : State)

@[simp] theorem tick1_cycle : s.tick1.cycle = s.cycle := rfl

@[simp] theorem tick1_stage : s.tick1.stage = s.stage := rfl

@[simp] theorem tick1_level : s.tick1.level = s.level := rfl

@[simp] theorem tick1_levelAt : s.tick1.levelAt = s.levelAt := rfl

@[simp] theorem tick1_usAcc : s.tick1.usAcc = s.usAcc := rfl

@[simp] theorem tick1_us : s.tick1.us = s.us := rfl

@[simp] theorem tick1_cur : s.tick1.cur = s.cur := rfl

@[simp] theorem tick1_bits : s.tick1.bits = s.bits := rfl

@[simp] theorem tick1_fetchAddr : s.tick1.fetchAddr = s.fetchAddr := rfl

@[simp] theorem tick1_ilen : s.tick1.ilen = s.ilen := rfl

@[simp] theorem tick1_free : s.tick1.free = s.free + 1 := rfl

@[simp] theorem tick1_fabRetries : s.tick1.fabRetries = s.fabRetries := rfl

@[simp] theorem tick1_inputs : s.tick1.inputs = s.inputs := rfl

@[simp] theorem tick1_pkgid : s.tick1.pkgid = s.pkgid := rfl

@[simp] theorem tick1_incarn : s.tick1.incarn = s.incarn := rfl

@[simp] theorem tick1_flash : s.tick1.flash = s.flash := rfl

@[simp] theorem tick1_tripped : s.tick1.tripped = s.tripped := rfl

@[simp] theorem tick1_power : s.tick1.power = s.power := rfl

@[simp] theorem tick1_doms : s.tick1.doms = s.doms := rfl

@[simp] theorem tick1_residency : s.tick1.residency = s.residency := rfl

@[simp] theorem tick1_vacating : s.tick1.vacating = s.vacating := rfl

@[simp] theorem tick1_hbmMem : s.tick1.hbmMem = s.hbmMem := rfl

@[simp] theorem tick1_hbmBlk : s.tick1.hbmBlk = s.hbmBlk := rfl

@[simp] theorem tick1_hbmFailing : s.tick1.hbmFailing = s.hbmFailing := rfl

@[simp] theorem tick1_ctls : s.tick1.ctls = s.ctls := rfl

@[simp] theorem tick1_slices : s.tick1.slices = s.slices := rfl

@[simp] theorem tick1_walks : s.tick1.walks = s.walks := rfl

@[simp] theorem tick1_notes : s.tick1.notes = s.notes := rfl

@[simp] theorem tick1_notesOvf : s.tick1.notesOvf = s.notesOvf := rfl

@[simp] theorem tick1_msgs : s.tick1.msgs = s.msgs := rfl

@[simp] theorem tick1_nextMsg : s.tick1.nextMsg = s.nextMsg := rfl

@[simp] theorem tick1_nextReq : s.tick1.nextReq = s.nextReq := rfl

@[simp] theorem tick1_nextXid : s.tick1.nextXid = s.nextXid := rfl

@[simp] theorem tick1_flits : s.tick1.flits = s.flits := rfl

@[simp] theorem tick1_glideAt : s.tick1.glideAt = s.glideAt := rfl

@[simp] theorem tick1_starveCnt : s.tick1.starveCnt = s.starveCnt := rfl

@[simp] theorem tick1_starve : s.tick1.starve = s.starve := rfl

@[simp] theorem tick1_awaiting : s.tick1.awaiting = s.awaiting := rfl

@[simp] theorem tick1_answered : s.tick1.answered = s.answered := rfl

@[simp] theorem tick1_ports : s.tick1.ports = s.ports := rfl

@[simp] theorem tick1_drops : s.tick1.drops = s.drops := rfl

@[simp] theorem tick1_hostMem : s.tick1.hostMem = s.hostMem := rfl

@[simp] theorem tick1_hostPois : s.tick1.hostPois = s.hostPois := rfl

@[simp] theorem tick1_hostResult : s.tick1.hostResult = s.hostResult := rfl

@[simp] theorem tick1_fuseMap : s.tick1.fuseMap = s.fuseMap := rfl

@[simp] theorem tick1_badTiles : s.tick1.badTiles = s.badTiles := rfl

@[simp] theorem tick1_defects : s.tick1.defects = s.defects := rfl

@[simp] theorem tick1_bootFault : s.tick1.bootFault = s.bootFault := rfl

@[simp] theorem tick1_flashStuck : s.tick1.flashStuck = s.flashStuck := rfl

@[simp] theorem tick1_dieTemp : s.tick1.dieTemp = s.dieTemp := rfl

@[simp] theorem tick1_hbmTemp : s.tick1.hbmTemp = s.hbmTemp := rfl

@[simp] theorem tick1_cxlMem : s.tick1.cxlMem = s.cxlMem := rfl

@[simp] theorem tick1_cxlPois : s.tick1.cxlPois = s.cxlPois := rfl

@[simp] theorem tick1_kiln : s.tick1.kiln = s.kiln := rfl

end tick1

section setTile

variable (d : Domain) (r : Nat) (t : Tile)

@[simp] theorem setTile_status : (d.setTile r t).status = d.status := rfl

@[simp] theorem setTile_launch : (d.setTile r t).launch = d.launch := rfl

@[simp] theorem setTile_x0 : (d.setTile r t).x0 = d.x0 := rfl

@[simp] theorem setTile_y0 : (d.setTile r t).y0 = d.y0 := rfl

@[simp] theorem setTile_tiles : (d.setTile r t).tiles = d.tiles.set r t := rfl

@[simp] theorem setTile_phase : (d.setTile r t).phase = d.phase := rfl

@[simp] theorem setTile_node : (d.setTile r t).node = d.node := rfl

@[simp] theorem setTile_inserted : (d.setTile r t).inserted = d.inserted := rfl

@[simp] theorem setTile_routed : (d.setTile r t).routed = d.routed := rfl

@[simp] theorem setTile_passes : (d.setTile r t).passes = d.passes := rfl

@[simp] theorem setTile_cache : (d.setTile r t).cache = d.cache := rfl

@[simp] theorem setTile_lap : (d.setTile r t).lap = d.lap := rfl

@[simp] theorem setTile_budget : (d.setTile r t).budget = d.budget := rfl

@[simp] theorem setTile_lapStopped : (d.setTile r t).lapStopped = d.lapStopped := rfl

@[simp] theorem setTile_bcastAt : (d.setTile r t).bcastAt = d.bcastAt := rfl

@[simp] theorem setTile_snapshot : (d.setTile r t).snapshot = d.snapshot := rfl

@[simp] theorem setTile_startAt : (d.setTile r t).startAt = d.startAt := rfl

@[simp] theorem setTile_phaseStart : (d.setTile r t).phaseStart = d.phaseStart := rfl

@[simp] theorem setTile_longest : (d.setTile r t).longest = d.longest := rfl

@[simp] theorem setTile_cycles : (d.setTile r t).cycles = d.cycles := rfl

@[simp] theorem setTile_handlers : (d.setTile r t).handlers = d.handlers := rfl

@[simp] theorem setTile_lock : (d.setTile r t).lock = d.lock := rfl

@[simp] theorem setTile_lockEntry : (d.setTile r t).lockEntry = d.lockEntry := rfl

@[simp] theorem setTile_lockUntil : (d.setTile r t).lockUntil = d.lockUntil := rfl

@[simp] theorem setTile_lockSeq : (d.setTile r t).lockSeq = d.lockSeq := rfl

@[simp] theorem setTile_queue : (d.setTile r t).queue = d.queue := rfl

@[simp] theorem setTile_invOrder : (d.setTile r t).invOrder = d.invOrder := rfl

@[simp] theorem setTile_overflowed : (d.setTile r t).overflowed = d.overflowed := rfl

@[simp] theorem setTile_fringCap : (d.setTile r t).fringCap = d.fringCap := rfl

@[simp] theorem setTile_fringWptr : (d.setTile r t).fringWptr = d.fringWptr := rfl

@[simp] theorem setTile_fringLost : (d.setTile r t).fringLost = d.fringLost := rfl

@[simp] theorem setTile_arrCap : (d.setTile r t).arrCap = d.arrCap := rfl

@[simp] theorem setTile_arrWptr : (d.setTile r t).arrWptr = d.arrWptr := rfl

@[simp] theorem setTile_saveArea : (d.setTile r t).saveArea = d.saveArea := rfl

@[simp] theorem setTile_atEnd : (d.setTile r t).atEnd = d.atEnd := rfl

@[simp] theorem setTile_launchSeq : (d.setTile r t).launchSeq = d.launchSeq := rfl

@[simp] theorem setTile_launchPending : (d.setTile r t).launchPending = d.launchPending := rfl

@[simp] theorem setTile_slice : (d.setTile r t).slice = d.slice := rfl

@[simp] theorem setTile_sliceAt : (d.setTile r t).sliceAt = d.sliceAt := rfl

@[simp] theorem setTile_sliceDue : (d.setTile r t).sliceDue = d.sliceDue := rfl

@[simp] theorem setTile_prevLongest : (d.setTile r t).prevLongest = d.prevLongest := rfl

@[simp] theorem setTile_placedAt : (d.setTile r t).placedAt = d.placedAt := rfl

@[simp] theorem setTile_plan : (d.setTile r t).plan = d.plan := rfl

@[simp] theorem setTile_moveX : (d.setTile r t).moveX = d.moveX := rfl

@[simp] theorem setTile_moveY : (d.setTile r t).moveY = d.moveY := rfl

@[simp] theorem setTile_digest : (d.setTile r t).digest = d.digest := rfl

@[simp] theorem setTile_heldNotices : (d.setTile r t).heldNotices = d.heldNotices := rfl

@[simp] theorem setTile_logged : (d.setTile r t).logged = d.logged := rfl

@[simp] theorem setTile_resv : (d.setTile r t).resv = d.resv := rfl

end setTile

section setCtx

variable (t : Tile) (i : Nat) (c : Ctx)

@[simp] theorem setCtx_x : (t.setCtx i c).x = t.x := rfl

@[simp] theorem setCtx_y : (t.setCtx i c).y = t.y := rfl

@[simp] theorem setCtx_carve : (t.setCtx i c).carve = t.carve := rfl

@[simp] theorem setCtx_ctxs : (t.setCtx i c).ctxs = t.ctxs.setIfInBounds i c := rfl

@[simp] theorem setCtx_sram : (t.setCtx i c).sram = t.sram := rfl

@[simp] theorem setCtx_tags : (t.setCtx i c).tags = t.tags := rfl

@[simp] theorem setCtx_pois : (t.setCtx i c).pois = t.pois := rfl

@[simp] theorem setCtx_failing : (t.setCtx i c).failing = t.failing := rfl

@[simp] theorem setCtx_bars : (t.setCtx i c).bars = t.bars := rfl

@[simp] theorem setCtx_blocks : (t.setCtx i c).blocks = t.blocks := rfl

@[simp] theorem setCtx_pool : (t.setCtx i c).pool = t.pool := rfl

@[simp] theorem setCtx_accs : (t.setCtx i c).accs = t.accs := rfl

@[simp] theorem setCtx_mx : (t.setCtx i c).mx = t.mx := rfl

@[simp] theorem setCtx_mxSeq : (t.setCtx i c).mxSeq = t.mxSeq := rfl

@[simp] theorem setCtx_mxComputeFree : (t.setCtx i c).mxComputeFree = t.mxComputeFree := rfl

@[simp] theorem setCtx_mxMoveFree : (t.setCtx i c).mxMoveFree = t.mxMoveFree := rfl

@[simp] theorem setCtx_reads : (t.setCtx i c).reads = t.reads := rfl

@[simp] theorem setCtx_readReqs : (t.setCtx i c).readReqs = t.readReqs := rfl

@[simp] theorem setCtx_cellQ : (t.setCtx i c).cellQ = t.cellQ := rfl

@[simp] theorem setCtx_cellFree : (t.setCtx i c).cellFree = t.cellFree := rfl

@[simp] theorem setCtx_storePort : (t.setCtx i c).storePort = t.storePort := rfl

@[simp] theorem setCtx_poolPort : (t.setCtx i c).poolPort = t.poolPort := rfl

@[simp] theorem setCtx_poolFreed : (t.setCtx i c).poolFreed = t.poolFreed := rfl

@[simp] theorem setCtx_staleDue : (t.setCtx i c).staleDue = t.staleDue := rfl

@[simp] theorem setCtx_divider : (t.setCtx i c).divider = t.divider := rfl

@[simp] theorem setCtx_tree : (t.setCtx i c).tree = t.tree := rfl

@[simp] theorem setCtx_quantiser : (t.setCtx i c).quantiser = t.quantiser := rfl

@[simp] theorem setCtx_gather : (t.setCtx i c).gather = t.gather := rfl

@[simp] theorem setCtx_tcause : (t.setCtx i c).tcause = t.tcause := rfl

@[simp] theorem setCtx_tepc : (t.setCtx i c).tepc = t.tepc := rfl

@[simp] theorem setCtx_tval : (t.setCtx i c).tval = t.tval := rfl

@[simp] theorem setCtx_tval2 : (t.setCtx i c).tval2 = t.tval2 := rfl

@[simp] theorem setCtx_tbase : (t.setCtx i c).tbase = t.tbase := rfl

@[simp] theorem setCtx_tscratch : (t.setCtx i c).tscratch = t.tscratch := rfl

@[simp] theorem setCtx_stallchk : (t.setCtx i c).stallchk = t.stallchk := rfl

@[simp] theorem setCtx_traps : (t.setCtx i c).traps = t.traps := rfl

@[simp] theorem setCtx_serving : (t.setCtx i c).serving = t.serving := rfl

@[simp] theorem setCtx_svFree : (t.setCtx i c).svFree = t.svFree := rfl

@[simp] theorem setCtx_journal : (t.setCtx i c).journal = t.journal := rfl

@[simp] theorem setCtx_xputSeq : (t.setCtx i c).xputSeq = t.xputSeq := rfl

@[simp] theorem setCtx_refusals : (t.setCtx i c).refusals = t.refusals := rfl

@[simp] theorem setCtx_rotation : (t.setCtx i c).rotation = t.rotation := rfl

@[simp] theorem setCtx_issuedAt : (t.setCtx i c).issuedAt = t.issuedAt := rfl

@[simp] theorem setCtx_starts : (t.setCtx i c).starts = t.starts := rfl

@[simp] theorem setCtx_age : (t.setCtx i c).age = t.age := rfl

@[simp] theorem setCtx_xended : (t.setCtx i c).xended = t.xended := rfl

@[simp] theorem setCtx_recvs : (t.setCtx i c).recvs = t.recvs := rfl

@[simp] theorem setCtx_xrefused : (t.setCtx i c).xrefused = t.xrefused := rfl

@[simp] theorem setCtx_routes : (t.setCtx i c).routes = t.routes := rfl

@[simp] theorem setCtx_closed : (t.setCtx i c).closed = t.closed := rfl

@[simp] theorem setCtx_inbox : (t.setCtx i c).inbox = t.inbox := rfl

@[simp] theorem setCtx_inboxUsed : (t.setCtx i c).inboxUsed = t.inboxUsed := rfl

@[simp] theorem setCtx_closes : (t.setCtx i c).closes = t.closes := rfl

@[simp] theorem setCtx_units : (t.setCtx i c).units = t.units := rfl

@[simp] theorem setCtx_routedAt : (t.setCtx i c).routedAt = t.routedAt := rfl

@[simp] theorem setCtx_routedDone : (t.setCtx i c).routedDone = t.routedDone := rfl

@[simp] theorem setCtx_cmds : (t.setCtx i c).cmds = t.cmds := rfl

@[simp] theorem setCtx_voteUp : (t.setCtx i c).voteUp = t.voteUp := rfl

@[simp] theorem setCtx_window : (t.setCtx i c).window = t.window := rfl

@[simp] theorem setCtx_voteFly : (t.setCtx i c).voteFly = t.voteFly := rfl

@[simp] theorem setCtx_voteSeen : (t.setCtx i c).voteSeen = t.voteSeen := rfl

end setCtx

section setBlock

variable (t : Tile) (b : Nat) (m : Block)

@[simp] theorem setBlock_x : (t.setBlock b m).x = t.x := rfl

@[simp] theorem setBlock_y : (t.setBlock b m).y = t.y := rfl

@[simp] theorem setBlock_carve : (t.setBlock b m).carve = t.carve := rfl

@[simp] theorem setBlock_ctxs : (t.setBlock b m).ctxs = t.ctxs := rfl

@[simp] theorem setBlock_sram : (t.setBlock b m).sram = t.sram := rfl

@[simp] theorem setBlock_tags : (t.setBlock b m).tags = t.tags := rfl

@[simp] theorem setBlock_pois : (t.setBlock b m).pois = t.pois := rfl

@[simp] theorem setBlock_failing : (t.setBlock b m).failing = t.failing := rfl

@[simp] theorem setBlock_bars : (t.setBlock b m).bars = t.bars := rfl

@[simp] theorem setBlock_blocks : (t.setBlock b m).blocks = t.blocks.set b m := rfl

@[simp] theorem setBlock_pool : (t.setBlock b m).pool = t.pool := rfl

@[simp] theorem setBlock_accs : (t.setBlock b m).accs = t.accs := rfl

@[simp] theorem setBlock_mx : (t.setBlock b m).mx = t.mx := rfl

@[simp] theorem setBlock_mxSeq : (t.setBlock b m).mxSeq = t.mxSeq := rfl

@[simp] theorem setBlock_mxComputeFree : (t.setBlock b m).mxComputeFree = t.mxComputeFree := rfl

@[simp] theorem setBlock_mxMoveFree : (t.setBlock b m).mxMoveFree = t.mxMoveFree := rfl

@[simp] theorem setBlock_reads : (t.setBlock b m).reads = t.reads := rfl

@[simp] theorem setBlock_readReqs : (t.setBlock b m).readReqs = t.readReqs := rfl

@[simp] theorem setBlock_cellQ : (t.setBlock b m).cellQ = t.cellQ := rfl

@[simp] theorem setBlock_cellFree : (t.setBlock b m).cellFree = t.cellFree := rfl

@[simp] theorem setBlock_storePort : (t.setBlock b m).storePort = t.storePort := rfl

@[simp] theorem setBlock_poolPort : (t.setBlock b m).poolPort = t.poolPort := rfl

@[simp] theorem setBlock_poolFreed : (t.setBlock b m).poolFreed = t.poolFreed := rfl

@[simp] theorem setBlock_staleDue : (t.setBlock b m).staleDue = t.staleDue := rfl

@[simp] theorem setBlock_divider : (t.setBlock b m).divider = t.divider := rfl

@[simp] theorem setBlock_tree : (t.setBlock b m).tree = t.tree := rfl

@[simp] theorem setBlock_quantiser : (t.setBlock b m).quantiser = t.quantiser := rfl

@[simp] theorem setBlock_gather : (t.setBlock b m).gather = t.gather := rfl

@[simp] theorem setBlock_tcause : (t.setBlock b m).tcause = t.tcause := rfl

@[simp] theorem setBlock_tepc : (t.setBlock b m).tepc = t.tepc := rfl

@[simp] theorem setBlock_tval : (t.setBlock b m).tval = t.tval := rfl

@[simp] theorem setBlock_tval2 : (t.setBlock b m).tval2 = t.tval2 := rfl

@[simp] theorem setBlock_tbase : (t.setBlock b m).tbase = t.tbase := rfl

@[simp] theorem setBlock_tscratch : (t.setBlock b m).tscratch = t.tscratch := rfl

@[simp] theorem setBlock_stallchk : (t.setBlock b m).stallchk = t.stallchk := rfl

@[simp] theorem setBlock_traps : (t.setBlock b m).traps = t.traps := rfl

@[simp] theorem setBlock_serving : (t.setBlock b m).serving = t.serving := rfl

@[simp] theorem setBlock_svFree : (t.setBlock b m).svFree = t.svFree := rfl

@[simp] theorem setBlock_journal : (t.setBlock b m).journal = t.journal := rfl

@[simp] theorem setBlock_xputSeq : (t.setBlock b m).xputSeq = t.xputSeq := rfl

@[simp] theorem setBlock_refusals : (t.setBlock b m).refusals = t.refusals := rfl

@[simp] theorem setBlock_rotation : (t.setBlock b m).rotation = t.rotation := rfl

@[simp] theorem setBlock_issuedAt : (t.setBlock b m).issuedAt = t.issuedAt := rfl

@[simp] theorem setBlock_starts : (t.setBlock b m).starts = t.starts := rfl

@[simp] theorem setBlock_age : (t.setBlock b m).age = t.age := rfl

@[simp] theorem setBlock_xended : (t.setBlock b m).xended = t.xended := rfl

@[simp] theorem setBlock_recvs : (t.setBlock b m).recvs = t.recvs := rfl

@[simp] theorem setBlock_xrefused : (t.setBlock b m).xrefused = t.xrefused := rfl

@[simp] theorem setBlock_routes : (t.setBlock b m).routes = t.routes := rfl

@[simp] theorem setBlock_closed : (t.setBlock b m).closed = t.closed := rfl

@[simp] theorem setBlock_inbox : (t.setBlock b m).inbox = t.inbox := rfl

@[simp] theorem setBlock_inboxUsed : (t.setBlock b m).inboxUsed = t.inboxUsed := rfl

@[simp] theorem setBlock_closes : (t.setBlock b m).closes = t.closes := rfl

@[simp] theorem setBlock_units : (t.setBlock b m).units = t.units := rfl

@[simp] theorem setBlock_routedAt : (t.setBlock b m).routedAt = t.routedAt := rfl

@[simp] theorem setBlock_routedDone : (t.setBlock b m).routedDone = t.routedDone := rfl

@[simp] theorem setBlock_cmds : (t.setBlock b m).cmds = t.cmds := rfl

@[simp] theorem setBlock_voteUp : (t.setBlock b m).voteUp = t.voteUp := rfl

@[simp] theorem setBlock_window : (t.setBlock b m).window = t.window := rfl

@[simp] theorem setBlock_voteFly : (t.setBlock b m).voteFly = t.voteFly := rfl

@[simp] theorem setBlock_voteSeen : (t.setBlock b m).voteSeen = t.voteSeen := rfl

end setBlock

section setPois

variable (t : Tile) (g : Nat)

@[simp] theorem setPois_x : (t.setPois g).x = t.x := rfl

@[simp] theorem setPois_y : (t.setPois g).y = t.y := rfl

@[simp] theorem setPois_carve : (t.setPois g).carve = t.carve := rfl

@[simp] theorem setPois_ctxs : (t.setPois g).ctxs = t.ctxs := rfl

@[simp] theorem setPois_sram : (t.setPois g).sram = t.sram := rfl

@[simp] theorem setPois_tags : (t.setPois g).tags = t.tags := rfl

@[simp] theorem setPois_pois : (t.setPois g).pois = insNat g t.pois := rfl

@[simp] theorem setPois_failing : (t.setPois g).failing = t.failing := rfl

@[simp] theorem setPois_bars : (t.setPois g).bars = t.bars := rfl

@[simp] theorem setPois_blocks : (t.setPois g).blocks = t.blocks := rfl

@[simp] theorem setPois_pool : (t.setPois g).pool = t.pool := rfl

@[simp] theorem setPois_accs : (t.setPois g).accs = t.accs := rfl

@[simp] theorem setPois_mx : (t.setPois g).mx = t.mx := rfl

@[simp] theorem setPois_mxSeq : (t.setPois g).mxSeq = t.mxSeq := rfl

@[simp] theorem setPois_mxComputeFree : (t.setPois g).mxComputeFree = t.mxComputeFree := rfl

@[simp] theorem setPois_mxMoveFree : (t.setPois g).mxMoveFree = t.mxMoveFree := rfl

@[simp] theorem setPois_reads : (t.setPois g).reads = t.reads := rfl

@[simp] theorem setPois_readReqs : (t.setPois g).readReqs = t.readReqs := rfl

@[simp] theorem setPois_cellQ : (t.setPois g).cellQ = t.cellQ := rfl

@[simp] theorem setPois_cellFree : (t.setPois g).cellFree = t.cellFree := rfl

@[simp] theorem setPois_storePort : (t.setPois g).storePort = t.storePort := rfl

@[simp] theorem setPois_poolPort : (t.setPois g).poolPort = t.poolPort := rfl

@[simp] theorem setPois_poolFreed : (t.setPois g).poolFreed = t.poolFreed := rfl

@[simp] theorem setPois_staleDue : (t.setPois g).staleDue = t.staleDue := rfl

@[simp] theorem setPois_divider : (t.setPois g).divider = t.divider := rfl

@[simp] theorem setPois_tree : (t.setPois g).tree = t.tree := rfl

@[simp] theorem setPois_quantiser : (t.setPois g).quantiser = t.quantiser := rfl

@[simp] theorem setPois_gather : (t.setPois g).gather = t.gather := rfl

@[simp] theorem setPois_tcause : (t.setPois g).tcause = t.tcause := rfl

@[simp] theorem setPois_tepc : (t.setPois g).tepc = t.tepc := rfl

@[simp] theorem setPois_tval : (t.setPois g).tval = t.tval := rfl

@[simp] theorem setPois_tval2 : (t.setPois g).tval2 = t.tval2 := rfl

@[simp] theorem setPois_tbase : (t.setPois g).tbase = t.tbase := rfl

@[simp] theorem setPois_tscratch : (t.setPois g).tscratch = t.tscratch := rfl

@[simp] theorem setPois_stallchk : (t.setPois g).stallchk = t.stallchk := rfl

@[simp] theorem setPois_traps : (t.setPois g).traps = t.traps := rfl

@[simp] theorem setPois_serving : (t.setPois g).serving = t.serving := rfl

@[simp] theorem setPois_svFree : (t.setPois g).svFree = t.svFree := rfl

@[simp] theorem setPois_journal : (t.setPois g).journal = t.journal := rfl

@[simp] theorem setPois_xputSeq : (t.setPois g).xputSeq = t.xputSeq := rfl

@[simp] theorem setPois_refusals : (t.setPois g).refusals = t.refusals := rfl

@[simp] theorem setPois_rotation : (t.setPois g).rotation = t.rotation := rfl

@[simp] theorem setPois_issuedAt : (t.setPois g).issuedAt = t.issuedAt := rfl

@[simp] theorem setPois_starts : (t.setPois g).starts = t.starts := rfl

@[simp] theorem setPois_age : (t.setPois g).age = t.age := rfl

@[simp] theorem setPois_xended : (t.setPois g).xended = t.xended := rfl

@[simp] theorem setPois_recvs : (t.setPois g).recvs = t.recvs := rfl

@[simp] theorem setPois_xrefused : (t.setPois g).xrefused = t.xrefused := rfl

@[simp] theorem setPois_routes : (t.setPois g).routes = t.routes := rfl

@[simp] theorem setPois_closed : (t.setPois g).closed = t.closed := rfl

@[simp] theorem setPois_inbox : (t.setPois g).inbox = t.inbox := rfl

@[simp] theorem setPois_inboxUsed : (t.setPois g).inboxUsed = t.inboxUsed := rfl

@[simp] theorem setPois_closes : (t.setPois g).closes = t.closes := rfl

@[simp] theorem setPois_units : (t.setPois g).units = t.units := rfl

@[simp] theorem setPois_routedAt : (t.setPois g).routedAt = t.routedAt := rfl

@[simp] theorem setPois_routedDone : (t.setPois g).routedDone = t.routedDone := rfl

@[simp] theorem setPois_cmds : (t.setPois g).cmds = t.cmds := rfl

@[simp] theorem setPois_voteUp : (t.setPois g).voteUp = t.voteUp := rfl

@[simp] theorem setPois_window : (t.setPois g).window = t.window := rfl

@[simp] theorem setPois_voteFly : (t.setPois g).voteFly = t.voteFly := rfl

@[simp] theorem setPois_voteSeen : (t.setPois g).voteSeen = t.voteSeen := rfl

end setPois

section clearPois

variable (t : Tile) (b : Nat)

@[simp] theorem clearPois_x : (t.clearPois b).x = t.x := rfl

@[simp] theorem clearPois_y : (t.clearPois b).y = t.y := rfl

@[simp] theorem clearPois_carve : (t.clearPois b).carve = t.carve := rfl

@[simp] theorem clearPois_ctxs : (t.clearPois b).ctxs = t.ctxs := rfl

@[simp] theorem clearPois_sram : (t.clearPois b).sram = t.sram := rfl

@[simp] theorem clearPois_tags : (t.clearPois b).tags = t.tags := rfl

@[simp] theorem clearPois_pois : (t.clearPois b).pois = t.pois.filter fun g => !(t.blockGrans b).contains g := rfl

@[simp] theorem clearPois_failing : (t.clearPois b).failing = t.failing := rfl

@[simp] theorem clearPois_bars : (t.clearPois b).bars = t.bars := rfl

@[simp] theorem clearPois_blocks : (t.clearPois b).blocks = t.blocks := rfl

@[simp] theorem clearPois_pool : (t.clearPois b).pool = t.pool := rfl

@[simp] theorem clearPois_accs : (t.clearPois b).accs = t.accs := rfl

@[simp] theorem clearPois_mx : (t.clearPois b).mx = t.mx := rfl

@[simp] theorem clearPois_mxSeq : (t.clearPois b).mxSeq = t.mxSeq := rfl

@[simp] theorem clearPois_mxComputeFree : (t.clearPois b).mxComputeFree = t.mxComputeFree := rfl

@[simp] theorem clearPois_mxMoveFree : (t.clearPois b).mxMoveFree = t.mxMoveFree := rfl

@[simp] theorem clearPois_reads : (t.clearPois b).reads = t.reads := rfl

@[simp] theorem clearPois_readReqs : (t.clearPois b).readReqs = t.readReqs := rfl

@[simp] theorem clearPois_cellQ : (t.clearPois b).cellQ = t.cellQ := rfl

@[simp] theorem clearPois_cellFree : (t.clearPois b).cellFree = t.cellFree := rfl

@[simp] theorem clearPois_storePort : (t.clearPois b).storePort = t.storePort := rfl

@[simp] theorem clearPois_poolPort : (t.clearPois b).poolPort = t.poolPort := rfl

@[simp] theorem clearPois_poolFreed : (t.clearPois b).poolFreed = t.poolFreed := rfl

@[simp] theorem clearPois_staleDue : (t.clearPois b).staleDue = t.staleDue := rfl

@[simp] theorem clearPois_divider : (t.clearPois b).divider = t.divider := rfl

@[simp] theorem clearPois_tree : (t.clearPois b).tree = t.tree := rfl

@[simp] theorem clearPois_quantiser : (t.clearPois b).quantiser = t.quantiser := rfl

@[simp] theorem clearPois_gather : (t.clearPois b).gather = t.gather := rfl

@[simp] theorem clearPois_tcause : (t.clearPois b).tcause = t.tcause := rfl

@[simp] theorem clearPois_tepc : (t.clearPois b).tepc = t.tepc := rfl

@[simp] theorem clearPois_tval : (t.clearPois b).tval = t.tval := rfl

@[simp] theorem clearPois_tval2 : (t.clearPois b).tval2 = t.tval2 := rfl

@[simp] theorem clearPois_tbase : (t.clearPois b).tbase = t.tbase := rfl

@[simp] theorem clearPois_tscratch : (t.clearPois b).tscratch = t.tscratch := rfl

@[simp] theorem clearPois_stallchk : (t.clearPois b).stallchk = t.stallchk := rfl

@[simp] theorem clearPois_traps : (t.clearPois b).traps = t.traps := rfl

@[simp] theorem clearPois_serving : (t.clearPois b).serving = t.serving := rfl

@[simp] theorem clearPois_svFree : (t.clearPois b).svFree = t.svFree := rfl

@[simp] theorem clearPois_journal : (t.clearPois b).journal = t.journal := rfl

@[simp] theorem clearPois_xputSeq : (t.clearPois b).xputSeq = t.xputSeq := rfl

@[simp] theorem clearPois_refusals : (t.clearPois b).refusals = t.refusals := rfl

@[simp] theorem clearPois_rotation : (t.clearPois b).rotation = t.rotation := rfl

@[simp] theorem clearPois_issuedAt : (t.clearPois b).issuedAt = t.issuedAt := rfl

@[simp] theorem clearPois_starts : (t.clearPois b).starts = t.starts := rfl

@[simp] theorem clearPois_age : (t.clearPois b).age = t.age := rfl

@[simp] theorem clearPois_xended : (t.clearPois b).xended = t.xended := rfl

@[simp] theorem clearPois_recvs : (t.clearPois b).recvs = t.recvs := rfl

@[simp] theorem clearPois_xrefused : (t.clearPois b).xrefused = t.xrefused := rfl

@[simp] theorem clearPois_routes : (t.clearPois b).routes = t.routes := rfl

@[simp] theorem clearPois_closed : (t.clearPois b).closed = t.closed := rfl

@[simp] theorem clearPois_inbox : (t.clearPois b).inbox = t.inbox := rfl

@[simp] theorem clearPois_inboxUsed : (t.clearPois b).inboxUsed = t.inboxUsed := rfl

@[simp] theorem clearPois_closes : (t.clearPois b).closes = t.closes := rfl

@[simp] theorem clearPois_units : (t.clearPois b).units = t.units := rfl

@[simp] theorem clearPois_routedAt : (t.clearPois b).routedAt = t.routedAt := rfl

@[simp] theorem clearPois_routedDone : (t.clearPois b).routedDone = t.routedDone := rfl

@[simp] theorem clearPois_cmds : (t.clearPois b).cmds = t.cmds := rfl

@[simp] theorem clearPois_voteUp : (t.clearPois b).voteUp = t.voteUp := rfl

@[simp] theorem clearPois_window : (t.clearPois b).window = t.window := rfl

@[simp] theorem clearPois_voteFly : (t.clearPois b).voteFly = t.voteFly := rfl

@[simp] theorem clearPois_voteSeen : (t.clearPois b).voteSeen = t.voteSeen := rfl

end clearPois

section wakePool

variable (t : Tile) (now : Nat) (h : Bool) (b : Option Nat)

@[simp] theorem wakePool_x : (t.wakePool now h b).x = t.x := rfl

@[simp] theorem wakePool_y : (t.wakePool now h b).y = t.y := rfl

@[simp] theorem wakePool_carve : (t.wakePool now h b).carve = t.carve := rfl

@[simp] theorem wakePool_ctxs : (t.wakePool now h b).ctxs = t.ctxs := rfl

@[simp] theorem wakePool_sram : (t.wakePool now h b).sram = t.sram := rfl

@[simp] theorem wakePool_tags : (t.wakePool now h b).tags = t.tags := rfl

@[simp] theorem wakePool_pois : (t.wakePool now h b).pois = t.pois := rfl

@[simp] theorem wakePool_failing : (t.wakePool now h b).failing = t.failing := rfl

@[simp] theorem wakePool_bars : (t.wakePool now h b).bars = t.bars := rfl

@[simp] theorem wakePool_blocks : (t.wakePool now h b).blocks = t.blocks := rfl

@[simp] theorem wakePool_accs : (t.wakePool now h b).accs = t.accs := rfl

@[simp] theorem wakePool_mx : (t.wakePool now h b).mx = t.mx := rfl

@[simp] theorem wakePool_mxSeq : (t.wakePool now h b).mxSeq = t.mxSeq := rfl

@[simp] theorem wakePool_mxComputeFree : (t.wakePool now h b).mxComputeFree = t.mxComputeFree := rfl

@[simp] theorem wakePool_mxMoveFree : (t.wakePool now h b).mxMoveFree = t.mxMoveFree := rfl

@[simp] theorem wakePool_reads : (t.wakePool now h b).reads = t.reads := rfl

@[simp] theorem wakePool_readReqs : (t.wakePool now h b).readReqs = t.readReqs := rfl

@[simp] theorem wakePool_cellQ : (t.wakePool now h b).cellQ = t.cellQ := rfl

@[simp] theorem wakePool_cellFree : (t.wakePool now h b).cellFree = t.cellFree := rfl

@[simp] theorem wakePool_storePort : (t.wakePool now h b).storePort = t.storePort := rfl

@[simp] theorem wakePool_poolPort : (t.wakePool now h b).poolPort = t.poolPort := rfl

@[simp] theorem wakePool_poolFreed : (t.wakePool now h b).poolFreed = t.poolFreed := rfl

@[simp] theorem wakePool_staleDue : (t.wakePool now h b).staleDue = t.staleDue := rfl

@[simp] theorem wakePool_divider : (t.wakePool now h b).divider = t.divider := rfl

@[simp] theorem wakePool_tree : (t.wakePool now h b).tree = t.tree := rfl

@[simp] theorem wakePool_quantiser : (t.wakePool now h b).quantiser = t.quantiser := rfl

@[simp] theorem wakePool_gather : (t.wakePool now h b).gather = t.gather := rfl

@[simp] theorem wakePool_tcause : (t.wakePool now h b).tcause = t.tcause := rfl

@[simp] theorem wakePool_tepc : (t.wakePool now h b).tepc = t.tepc := rfl

@[simp] theorem wakePool_tval : (t.wakePool now h b).tval = t.tval := rfl

@[simp] theorem wakePool_tval2 : (t.wakePool now h b).tval2 = t.tval2 := rfl

@[simp] theorem wakePool_tbase : (t.wakePool now h b).tbase = t.tbase := rfl

@[simp] theorem wakePool_tscratch : (t.wakePool now h b).tscratch = t.tscratch := rfl

@[simp] theorem wakePool_stallchk : (t.wakePool now h b).stallchk = t.stallchk := rfl

@[simp] theorem wakePool_traps : (t.wakePool now h b).traps = t.traps := rfl

@[simp] theorem wakePool_serving : (t.wakePool now h b).serving = t.serving := rfl

@[simp] theorem wakePool_svFree : (t.wakePool now h b).svFree = t.svFree := rfl

@[simp] theorem wakePool_journal : (t.wakePool now h b).journal = t.journal := rfl

@[simp] theorem wakePool_xputSeq : (t.wakePool now h b).xputSeq = t.xputSeq := rfl

@[simp] theorem wakePool_refusals : (t.wakePool now h b).refusals = t.refusals := rfl

@[simp] theorem wakePool_rotation : (t.wakePool now h b).rotation = t.rotation := rfl

@[simp] theorem wakePool_issuedAt : (t.wakePool now h b).issuedAt = t.issuedAt := rfl

@[simp] theorem wakePool_starts : (t.wakePool now h b).starts = t.starts := rfl

@[simp] theorem wakePool_age : (t.wakePool now h b).age = t.age := rfl

@[simp] theorem wakePool_xended : (t.wakePool now h b).xended = t.xended := rfl

@[simp] theorem wakePool_recvs : (t.wakePool now h b).recvs = t.recvs := rfl

@[simp] theorem wakePool_xrefused : (t.wakePool now h b).xrefused = t.xrefused := rfl

@[simp] theorem wakePool_routes : (t.wakePool now h b).routes = t.routes := rfl

@[simp] theorem wakePool_closed : (t.wakePool now h b).closed = t.closed := rfl

@[simp] theorem wakePool_inbox : (t.wakePool now h b).inbox = t.inbox := rfl

@[simp] theorem wakePool_inboxUsed : (t.wakePool now h b).inboxUsed = t.inboxUsed := rfl

@[simp] theorem wakePool_closes : (t.wakePool now h b).closes = t.closes := rfl

@[simp] theorem wakePool_units : (t.wakePool now h b).units = t.units := rfl

@[simp] theorem wakePool_routedAt : (t.wakePool now h b).routedAt = t.routedAt := rfl

@[simp] theorem wakePool_routedDone : (t.wakePool now h b).routedDone = t.routedDone := rfl

@[simp] theorem wakePool_cmds : (t.wakePool now h b).cmds = t.cmds := rfl

@[simp] theorem wakePool_voteUp : (t.wakePool now h b).voteUp = t.voteUp := rfl

@[simp] theorem wakePool_window : (t.wakePool now h b).window = t.window := rfl

@[simp] theorem wakePool_voteFly : (t.wakePool now h b).voteFly = t.voteFly := rfl

@[simp] theorem wakePool_voteSeen : (t.wakePool now h b).voteSeen = t.voteSeen := rfl

end wakePool

section atIssue

variable (c : Ctx) (now : Nat)

@[simp] theorem atIssue_th : (c.atIssue now).th = c.th := rfl

@[simp] theorem atIssue_run : (c.atIssue now).run = c.run := rfl

@[simp] theorem atIssue_wblk : (c.atIssue now).wblk = c.wblk := rfl

@[simp] theorem atIssue_group : (c.atIssue now).group = c.group := rfl

@[simp] theorem atIssue_sb : (c.atIssue now).sb = c.sb := rfl

@[simp] theorem atIssue_busy : (c.atIssue now).busy = c.busy := rfl

@[simp] theorem atIssue_last : (c.atIssue now).last = now := rfl

@[simp] theorem atIssue_notBefore : (c.atIssue now).notBefore = c.notBefore := rfl

@[simp] theorem atIssue_spent : (c.atIssue now).spent = now + 1 := rfl

@[simp] theorem atIssue_barrier : (c.atIssue now).barrier = c.barrier := rfl

@[simp] theorem atIssue_woken : (c.atIssue now).woken = c.woken := rfl

@[simp] theorem atIssue_idle : (c.atIssue now).idle = c.idle := rfl

@[simp] theorem atIssue_yieldFor : (c.atIssue now).yieldFor = c.yieldFor := rfl

@[simp] theorem atIssue_voteWait : (c.atIssue now).voteWait = c.voteWait := rfl

end atIssue

section past

variable (th : Thread) (op : Op) (pc : BitVec 20)

@[simp] theorem past_g : (th.past op pc).g = th.g := rfl

@[simp] theorem past_gp : (th.past op pc).gp = th.gp := rfl

@[simp] theorem past_v : (th.past op pc).v = th.v := rfl

@[simp] theorem past_vp : (th.past op pc).vp = th.vp := rfl

@[simp] theorem past_k : (th.past op pc).k = th.k := rfl

@[simp] theorem past_e : (th.past op pc).e = th.e := rfl

@[simp] theorem past_pc : (th.past op pc).pc = pc := rfl

@[simp] theorem past_flags : (th.past op pc).flags = th.flags := rfl

@[simp] theorem past_rmode : (th.past op pc).rmode = th.rmode := rfl

@[simp] theorem past_seed : (th.past op pc).seed = th.seed := rfl

@[simp] theorem past_retired : (th.past op pc).retired = th.retired + 1 := rfl

@[simp] theorem past_pend : (th.past op pc).pend = th.pend := rfl

@[simp] theorem past_seq : (th.past op pc).seq = th.seq := rfl

@[simp] theorem past_skips : (th.past op pc).skips = op.st.val := rfl

@[simp] theorem past_specUntil : (th.past op pc).specUntil = th.specUntil := rfl

@[simp] theorem past_specTrap : (th.past op pc).specTrap = th.specTrap := rfl

end past

section addPend

variable (th : Thread) (p : Pend)

@[simp] theorem addPend_g : (th.addPend p).g = th.g := rfl

@[simp] theorem addPend_gp : (th.addPend p).gp = th.gp := rfl

@[simp] theorem addPend_v : (th.addPend p).v = th.v := rfl

@[simp] theorem addPend_vp : (th.addPend p).vp = th.vp := rfl

@[simp] theorem addPend_k : (th.addPend p).k = th.k := rfl

@[simp] theorem addPend_e : (th.addPend p).e = th.e := rfl

@[simp] theorem addPend_pc : (th.addPend p).pc = th.pc := rfl

@[simp] theorem addPend_flags : (th.addPend p).flags = th.flags := rfl

@[simp] theorem addPend_rmode : (th.addPend p).rmode = th.rmode := rfl

@[simp] theorem addPend_seed : (th.addPend p).seed = th.seed := rfl

@[simp] theorem addPend_retired : (th.addPend p).retired = th.retired := rfl

@[simp] theorem addPend_pend : (th.addPend p).pend = th.pend ++ [p] := rfl

@[simp] theorem addPend_seq : (th.addPend p).seq = th.seq + 1 := rfl

@[simp] theorem addPend_skips : (th.addPend p).skips = th.skips := rfl

@[simp] theorem addPend_specUntil : (th.addPend p).specUntil = th.specUntil := rfl

@[simp] theorem addPend_specTrap : (th.addPend p).specTrap = th.specTrap := rfl

end addPend

section replaced

theorem ctx_setCtx (t : Tile) (i j : Nat) (c : Ctx) :
    (t.setCtx i c).ctx j = if i = j ∧ i < 18 then c else t.ctx j := by
  have hg : ∀ (v : Vector Ctx 18), v.getD j Ctx.zero = if h : j < 18 then v[j] else Ctx.zero := by
    intro v
    split
    · simp [Vector.getD, *]
    · simp only [Vector.getD, Array.getD]; rw [dif_neg (by simpa using by omega)]
  simp only [Tile.ctx, Tile.setCtx, hg, Vector.getElem_setIfInBounds]
  by_cases hj : j < 18
  · by_cases hi : i = j
    · subst hi; simp [hj]
    · simp [hj, hi]
  · rw [dif_neg hj, dif_neg hj, if_neg (by omega)]

@[simp] theorem ctx_setCtx_self (t : Tile) {i : Nat} (c : Ctx) (h : i < 18) : (t.setCtx i c).ctx i = c := by
  rw [ctx_setCtx, if_pos ⟨rfl, h⟩]

@[simp] theorem ctx_setCtx_ne (t : Tile) {i j : Nat} (c : Ctx) (h : i ≠ j) : (t.setCtx i c).ctx j = t.ctx j := by
  rw [ctx_setCtx, if_neg (fun x => h x.1)]

@[simp] theorem setCtx_setCtx (t : Tile) (i : Nat) (c c' : Ctx) : (t.setCtx i c).setCtx i c' = t.setCtx i c' := by
  have h : (t.ctxs.setIfInBounds i c).setIfInBounds i c' = t.ctxs.setIfInBounds i c' := by
    apply Vector.ext
    intro j hj
    simp only [Vector.getElem_setIfInBounds]
    split <;> rfl
  simp only [Tile.setCtx, h]

/-- A context written back as it stood changes nothing. -/
theorem setCtx_self (t : Tile) {i : Nat} (h : i < 18) : t.setCtx i (t.ctx i) = t := by
  have : t.ctxs.setIfInBounds i (t.ctxs.getD i Ctx.zero) = t.ctxs := by
    apply Vector.ext
    intro j hj
    rw [Vector.getElem_setIfInBounds]
    split
    · subst_vars; simp [Vector.getD, hj]
    · rfl
  unfold Tile.setCtx Tile.ctx
  rw [this]

@[simp] theorem setTile_setTile (d : Domain) (r : Nat) (t u : Tile) : (d.setTile r t).setTile r u = d.setTile r u := by
  simp [Domain.setTile]

@[simp] theorem setDom_setDom (s : State) (k : Nat) (d e : Domain) : (s.setDom k d).setDom k e = s.setDom k e := by
  simp [State.setDom]

theorem tile?_of_at {s : State} {k r : Nat} {d : Domain} {t : Tile} (h : s.at_ k r d t) : s.tile? k r = some t := by
  simp [State.tile?, h.1, h.2]

/-- A tile that stands is replaced where it stands. -/
theorem updTile_of_at {s : State} {k r : Nat} {d : Domain} {t : Tile} (h : s.at_ k r d t) (f : Tile → Tile) :
    s.updTile k r f = s.setDom k (d.setTile r (f t)) := by
  simp [State.updTile, h.1, h.2]

theorem block_setBlock (t : Tile) (b c : Nat) (m : Block) :
    (t.setBlock b m).block c = if c = b then m else t.block c := by
  simp only [Tile.block, Tile.setBlock, getD_set]

end replaced

end Sys2Proof.Machine
end

