-- ==== Sys2Proof/Laws/Checks.lean ====
section
/-! SUPPORT. What the access checks answer for an access that passes them (R16, R40, R128), what a trap leaves (R261), and
what an instruction that changes the tile as a whole leaves. -/

namespace Sys2Proof.Machine

section env

theorem env_ctx {s : State} {e : Env} (h : s.env? = some e) :
    e.s.cur.ctx < 18 ∧ e.c = e.t.ctx e.s.cur.ctx ∧ e.s = s := by
  unfold State.env? at h
  split at h
  · cases h
  · split at h
    · cases h
    · split at h
      · cases h; exact ⟨by assumption, rfl, rfl⟩
      · cases h

/-- The acting domain and tile stand in the package. -/
theorem env_at {s : State} {e : Env} (h : s.env? = some e) : s.at_ s.cur.dom s.cur.rank e.d e.t := by
  unfold State.env? at h
  split at h
  · cases h
  · split at h
    · cases h
    · split at h
      · cases h; exact ⟨by assumption, by assumption⟩
      · cases h

/-- Off a wrong path an issue has nothing to note. -/
theorem markWrong_eq {e : Env} (h : e.speculative = false) : markWrong e = e := by
  have : e.c.wrong = none := by
    simp only [Env.speculative, Bool.or_eq_false_iff] at h
    simpa using h.1
  obtain ⟨es, ed, et, ec⟩ := e; obtain ⟨⟩ := ec; simp only at this; subst this; rfl

theorem atIssue_eq {e : Env} (h : e.speculative = false) :
    e.c.atIssue e.s.cycle = { e.c with last := e.s.cycle, spent := e.s.cycle + 1 } := by
  have hw : e.c.wrong.map (fun w => { w with issued := true }) = e.c.wrong :=
    congrArg (fun x : Env => x.c.wrong) (markWrong_eq h)
  unfold Ctx.atIssue; rw [hw]

/-- The acting context already stands in its tile. -/
theorem sync_self {s : State} {e : Env} (h : s.env? = some e) : e.sync = e := by
  obtain ⟨h1, h2, -⟩ := env_ctx h
  obtain ⟨es, ed, et, ec⟩ := e
  simp only [Env.sync, Env.me] at *; rw [h2, setCtx_self _ h1]

/-- An environment written back is the package with the acting tile and context replaced. -/
theorem close_put (e : Env) (t : Tile) (c : Ctx) : ({ e with t, c } : Env).close = e.put t c := rfl

/-- Two writes of the acting context's place: the later stands. -/
theorem put_put (e : Env) (t u : Tile) (c c' : Ctx) :
    ({ e with s := e.put t c } : Env).put u c' = e.put u c' := by
  simp [Env.put]

end env

section stops

/-- The mark of a POISON trap and a context replaced do not meet. -/
theorem trapMark_setCtx (t : Tile) (i : Nat) (c : Ctx) (x : TrapInfo) :
    (t.setCtx i c).trapMark x = (t.trapMark x).setCtx i c := by
  unfold Tile.trapMark; split <;> rfl

/-- A read that finds poison changes no waiting trap. -/
theorem trapMark_traps (t : Tile) (x : TrapInfo) : (t.trapMark x).traps = t.traps := by
  unfold Tile.trapMark; split <;> rfl

/-- A trap off a wrong path, in any context but SV, waits for SV and stops its context (R261). -/
theorem trapAt_eq {s : State} {e : Env} (h : s.env? = some e) (hw : e.speculative = false) (hx : e.s.cur.ctx ≠ 17)
    (cause form : Nat) (v v2 : Word) : trapAt e (trapOf e cause form v v2) = e.trapped cause form v v2 := by
  have hlt := (env_ctx h).1
  have hme : (trapOf e cause form v v2).ctx ≠ 17 := hx
  have hs : ({ e with c := { e.c with last := e.now, spent := e.now + 1 } } : Env).speculative = false := hw
  unfold trapAt
  rw [if_neg (by simp [hs])]
  unfold raiseTrap
  rw [if_neg hme]
  simp only [State.updTile, Env.close, State.setDom, Domain.setTile, find_set_self, set_set]
  have hc : ∀ (t : Tile) (c : Ctx), (t.setCtx e.s.cur.ctx c).ctx (trapOf e cause form v v2).ctx = c := fun t c =>
    ctx_setCtx_self t c hlt
  simp only [trapMark_setCtx, hc]
  have h2 : ∀ (t : Tile) (c c' : Ctx), (t.setCtx e.s.cur.ctx c).setCtx (trapOf e cause form v v2).ctx c'
      = t.setCtx e.s.cur.ctx c' := fun t c c' => setCtx_setCtx t _ c c'
  simp only [h2]
  simp only [setCtx_traps, trapMark_traps]
  rfl

/-- A check or a body that traps leaves the trap waiting (R78, R261). -/
theorem trap_next {s : State} {e : Env} {op : Op} {body : Env → Except Stop Res1} {cause form : Nat} {v v2 : Word}
    (h : Ready s e op) (hw : e.speculative = false) (hx : e.s.cur.ctx ≠ 17)
    (hb : body (markWrong e) = .error (.trap cause form v v2)) :
    issue s op body = .next (e.trapped cause form v v2) :=
  (issue_trap h hb).trans (congrArg _ (trapAt_eq h.env hw hx cause form v v2))

/-- An instruction held before its checks passes over the cycle (R80, R84, R299). -/
theorem issue_heldEarly {s : State} {e : Env} {op : Op} {body : Env → Except Stop Res1} (h : s.env? = some e)
    (hh : heldEarly e op = true) :
    issue s op body = .next (e.put e.t { e.c with spent := e.s.cycle + 1 }) := by
  rw [issue_next h, issueIn, if_pos hh]; rfl

/-- A failed check of R78 traps whatever the instruction's own effect is. -/
theorem precheck_trap {s : State} {e : Env} {op : Op} {body : Env → Except Stop Res1} {cause form : Nat} {v v2 : Word}
    (h : s.env? = some e) (hh : heldEarly e op = false) (hw : e.speculative = false) (hx : e.s.cur.ctx ≠ 17)
    (hp : precheck e op = .error (.trap cause form v v2)) :
    issue s op body = .next (e.trapped cause form v v2) := by
  rw [issue_next h, issueIn, hh]
  simp only [hp, Bool.false_eq_true, if_false, bind, Except.bind]
  exact congrArg _ (trapAt_eq h hw hx cause form v v2)

/-- An instruction that waits past an unresolved branch and changes the tile as a whole. -/
theorem tiled_next {s : State} {e : Env} {op : Op} {body : Env → Except Stop Res1} (hr : Ready s e op)
    (hw : op.waits = true) (f : Tile → Tile) (hb : body e = fin (e.onTile f)) :
    issue s op body = .next (e.tiled op (f e.t)) := by
  have hm := markWrong_eq (hr.branch hw)
  refine (issue_done hr ((congrArg body hm).trans hb)).trans ?_
  simp only [Env.onTile, sync_self hr.env]; rfl

end stops

section checks

theorem checkPtr_ok (e : Env) (p : Word) (d : Int) (opnd : Nat) (h0 : p.toNat / 2 ^ 56 % 4 = 0) (h1 : p.toNat / 2 ^ 20 % 2 ^ 36 = 0) :
    checkPtr e p d opnd = .ok () := by
  have hs : ptrSpace p = 0 := h0
  have hf : fld p 55 20 = 0 := h1
  exact (bind_need (by simp [hs])).trans ((if_neg (by simp [hs])).trans (by simp [need, hf]))

theorem checkAddr_ok {e : Env} {p : Word} {d : Int} {size o : Nat} (opnd : Nat) (h : NamesLocal p d size o) :
    checkAddr e p d size opnd = .ok (withOff p o, o) := by
  have ho : ((ptrOff p : Nat) : Int) + d = o := by
    rw [h.offset]; simp [ptrOff, fld]
  have hn : (((ptrOff p : Nat) : Int) + d).toNat = o := by rw [ho]; rfl
  have hi := h.inside
  unfold checkAddr
  refine (bind_ok (checkPtr_ok e p _ opnd h.space h.zeros)).trans ((bind_need (decide_eq_true (by rw [ho]; omega))).trans ?_)
  simp only [hn]
  exact (bind_need (decide_eq_true h.aligned)).trans rfl

theorem checkRegion_ok {e : Env} (p : Word) {o size : Nat} (base : Nat) (kind : AccKind) (lane opnd : Nat)
    (hk : kind ≠ .fetch)
    (hf : e.t.carve.region o = .frame → e.t.carve.inFrame o size e.s.cur.ctx = true)
    (hc : kind.stores = true → e.t.carve.region o ≠ .code)
    (hw : kind = .store → e.t.carve.region o = .cell → e.t.hitsWord1 o size = false) :
    checkRegion e p o size base kind lane opnd = .ok () := by
  have hf' : ¬ (e.t.carve.region o = .frame ∧ e.t.carve.inFrame o size e.me = false) := by
    rintro ⟨h1, h2⟩; have := hf h1; simp only [Env.me] at h2; rw [this] at h2; cases h2
  have h1 : (!(kind == .fetch && e.t.carve.region o != .code)) = true := by cases kind <;> simp_all
  have h2 : (!(kind.stores && e.t.carve.region o == .code)) = true := by
    cases hk2 : kind.stores <;> simp_all
  have h3 : (!(kind == .store && e.t.carve.region o == .cell && e.t.hitsWord1 o size)) = true := by
    by_cases ha : kind = .store <;> by_cases hb : e.t.carve.region o = .cell <;> simp_all
  unfold checkRegion
  refine (if_neg hf').trans ?_
  exact (bind_need h1).trans ((bind_need h2).trans (need_pos _ h3))

theorem checkTag_ok {e : Env} {p : Word} {o : Nat} (lane opnd : Nat) (h : e.t.granTag o = ptrTag p) :
    checkTag e p o lane opnd = .ok () := need_pos _ (decide_eq_true h)

/-- A pointer keeps its tag when its offset is replaced. -/
@[simp] theorem withOff_tag (p : Word) (o : Nat) : ptrTag (withOff p o) = ptrTag p := by
  apply BitVec.eq_of_toNat_eq
  have hp := p.isLt
  have h1 : (p >>> 20 <<< 20).toNat = p.toNat / 2 ^ 20 * 2 ^ 20 := by
    simp only [BitVec.toNat_shiftLeft, BitVec.toNat_ushiftRight, Nat.shiftLeft_eq, Nat.shiftRight_eq_div_pow]
    omega
  have h2 : (w64 (o % 2 ^ 20)).toNat = o % 2 ^ 20 := by simp only [w64, BitVec.toNat_ofNat]; omega
  have h3 : (withOff p o).toNat = p.toNat / 2 ^ 20 * 2 ^ 20 + o % 2 ^ 20 := by
    rw [withOff, BitVec.toNat_or, h1, h2, Nat.mul_comm, ← Nat.two_pow_add_eq_or_of_lt (Nat.mod_lt _ (by norm_num))]
  simp only [ptrTag, BitVec.extractLsb'_toNat, Nat.shiftRight_eq_div_pow, h3]
  omega

theorem checkLocal_load {e : Env} {a : GReg} {d : Int} {size o : Nat} (h : PassesLocal e a d size o) :
    checkLocal e a d size .load = .ok o := by
  unfold checkLocal
  refine (bind_need (by simp [h.clean])).trans ?_
  unfold checkLocalP
  refine (bind_ok (checkAddr_ok 0 h.names)).trans ((bind_ok (checkRegion_ok _ _ _ _ _ (by simp) h.frame (by simp [AccKind.stores]) (by simp))).trans ((bind_ok (checkTag_ok _ _ (h.tag.trans (withOff_tag _ _).symm))).trans rfl))

theorem checkLocal_store {e : Env} {a : GReg} {d : Int} {size o : Nat} (h : PassesStore e a d size o) :
    checkLocal e a d size .store = .ok o := by
  unfold checkLocal
  refine (bind_need (by simp [h.clean])).trans ?_
  unfold checkLocalP
  refine (bind_ok (checkAddr_ok 0 h.names)).trans ((bind_ok (checkRegion_ok _ _ _ _ _ (by simp) h.frame (fun _ => h.code) (fun _ => h.word1))).trans ((bind_ok (checkTag_ok _ _ (h.tag.trans (withOff_tag _ _).symm))).trans rfl))

@[simp] theorem blockOf_blockAt (t : Tile) (b : Nat) : t.blockOf (t.blockAt b) = b := by
  simp [Tile.blockOf, Tile.blockAt]

theorem blockTargetP_ok {e : Env} {p : Word} {d : Int} {b : Nat} (ct : Bool) (opnd : Nat)
    (hn : NamesLocal p (2048 * d) 2048 (e.t.blockAt b)) (hg : e.t.carve.region (e.t.blockAt b) = .block)
    (ht : ct = true → ptrTag p = (e.t.block b).gen) : blockTargetP e p d ct opnd = .ok b := by
  have ho : ((ptrOff p : Nat) : Int) + 2048 * d = e.t.blockAt b := by
    rw [hn.offset]; simp [ptrOff, fld]
  have hz : (((ptrOff p : Nat) : Int) + 2048 * d).toNat = e.t.blockAt b := by rw [ho]; rfl
  have hi := hn.inside
  unfold blockTargetP
  refine (bind_ok (checkPtr_ok e p _ opnd hn.space hn.zeros)).trans ((bind_need (decide_eq_true (by rw [ho]; omega))).trans ?_)
  simp only [hz, blockOf_blockAt]
  refine (bind_need (decide_eq_true hn.aligned)).trans ((bind_need (decide_eq_true hg)).trans ((bind_need ?_).trans rfl))
  cases ct
  · rfl
  · simp [ht rfl]

theorem needOwned_ok {e : Env} {p : Word} {b : Nat} (h : OwnsBlock e b) : needOwned e p b = .ok () :=
  (bind_need (decide_eq_true (by simp [h.1]))).trans (need_pos _ (decide_eq_true h))

theorem PassesLocal.mark {e : Env} {a : GReg} {d : Int} {size o : Nat} (h : PassesLocal e a d size o) :
    PassesLocal (markWrong e) a d size o := ⟨h.clean, h.names, h.frame, h.tag⟩

theorem PassesStore.mark {e : Env} {a : GReg} {d : Int} {size o : Nat} (h : PassesStore e a d size o) :
    PassesStore (markWrong e) a d size o := ⟨h.toPassesLocal.mark, h.code, h.word1⟩

theorem NamesBlock.mark {e : Env} {a : GReg} {off : BitVec 11} {b : Nat} (h : NamesBlock e a off b) :
    NamesBlock (markWrong e) a off b := ⟨h.clean, h.names, h.region, h.tag⟩

/-- A block that an access may store to passes the store's presence check (R40). -/
theorem blockStore_ok {e : Env} (p : Word) {o : Nat} (lane : Nat) (h : WritableAt e o)
    (hb : e.t.carve.region o = .block) : blockStore e p o lane = .ok () := by
  obtain ⟨h1, h2⟩ := h hb
  exact (bind_need (decide_eq_true (by simp [h1]))).trans (need_pos _ (by simp [h1, h2, Env.me]))

/-- A block that an access may read passes the load's presence check (R40). -/
theorem blockLoad_ok {e : Env} {o : Nat} (h : ReadableAt e o) (hb : e.t.carve.region o = .block) :
    blockLoad e o = .ok () := if_pos (h hb)

end checks

end Sys2Proof.Machine
end

