-- ==== Sys2Proof/Laws/Access.lean ====
section
/-! SUPPORT. What the shared shapes of the scalar instructions, the loads, the stores and the CELL instructions leave when
their operands pass their checks: one lemma a shape, for every operation of it. -/

namespace Sys2Proof.Machine

section alu

theorem alu2_next {s : State} {e : Env} {op : Op} (h : Ready s e op) (lat : Nat) (d a b : GReg) (f : Word → Word → Word) :
    alu2 op lat d a b f s
      = .next (e.result op lat [.g d (f (e.c.th.rg a) (e.c.th.rg b)) (e.c.th.pg a || e.c.th.pg b)] 0) := by
  rw [alu2, issue_done (x := { e := (markWrong e).fixed lat _ 0 op.major }) h rfl]; rfl

theorem alu1_next {s : State} {e : Env} {op : Op} (h : Ready s e op) (d a : GReg) (f : Word → Word) :
    alu1 op d a f s = .next (e.result op 1 [.g d (f (e.c.th.rg a)) (e.c.th.pg a)] 0) := by
  rw [alu1, issue_done (x := { e := (markWrong e).fixed 1 _ 0 op.major }) h rfl]; rfl

theorem alu3_next {s : State} {e : Env} {op : Op} (h : Ready s e op) (d a b : GReg) (f : Word → Word → Word → Word) :
    alu3 op d a b f s = .next (e.result op 1 [.g d (f (e.c.th.rg d) (e.c.th.rg a) (e.c.th.rg b))
      (e.c.th.pg d || e.c.th.pg a || e.c.th.pg b)] 0) := by
  rw [alu3, issue_done (x := { e := (markWrong e).fixed 1 _ 0 op.major }) h rfl]; rfl

end alu

section blocks

theorem blockFirst_ok {e : Env} {a : GReg} {off : BitVec 11} {b : Nat} (ct : Bool) (h : NamesBlock e a off b) (ha : e.acquiring = false) :
    blockFirst e a off ct = .ok b :=
  (bind_need (by simp [ha])).trans ((bind_need (by simp [h.clean])).trans (blockTargetP_ok ct 0 h.names h.region fun _ => h.tag))

theorem drained_ok {e : Env} (h : e.c.sb = [] ∧ e.cellBusy = false) : e.drained = true := by simp [Env.drained, h.1, h.2]

end blocks

section loads

/-- The mark of an issue on a wrong path and the mark of a read do not meet. -/
theorem readGrans_markWrong (e : Env) (grans : List Nat) :
    (markWrong e).readGrans grans = markWrong (e.readGrans grans) := by
  have h : (markWrong e).c.wrong.isSome = e.c.wrong.isSome := Option.isSome_map ..
  unfold Env.readGrans
  rw [h]; split <;> rfl

/-- What a load answers where its access passes: the bytes that its context sees, with their granule's poison (R124). -/
theorem loadValue_ok {e : Env} {a : GReg} {d : Int} {size o : Nat} {bs : List Byte} (h : PassesLocal e a d size o)
    (ha : e.acquiring = false) (hr : ReadableAt e o) (hc : e.cellHits o size = false) (hb : loadBytes e.c e.t o size = some bs) :
    loadValue (markWrong e) a d size = .ok (bs, e.t.granPois o) := by
  unfold loadValue
  refine (bind_need (by simp [ha])).trans ((bind_ok (checkLocal_load (h.mark))).trans ?_)
  have hb2 : loadBytes (markWrong e).c (markWrong e).t o size = some bs := hb
  have hrest : (do need (!(markWrong e).cellHits o size) .hold
                   match loadBytes (markWrong e).c (markWrong e).t o size with
                   | some bs => return (bs, (markWrong e).t.granPois o)
                   | none => .error .hold : Except Stop (List Byte × Bool)) = .ok (bs, e.t.granPois o) := by
    refine (bind_need (by simp [hc])).trans ?_
    rw [hb2]; rfl
  by_cases hg : e.t.carve.region o = .block
  · refine (if_pos hg).trans ?_
    have : blockLoad (markWrong e) o = .ok () := if_pos (hr hg)
    exact (bind_ok this).trans hrest
  · exact (if_neg hg).trans hrest

theorem load_next {s : State} {e : Env} {op : Op} {a : GReg} {d : Int} {size o : Nat} {bs : List Byte} (hr : Ready s e op) (hm : op.major = 8)
    (ha : e.acquiring = false) (h : PassesLocal e a d size o) (hrd : ReadableAt e o) (hc : e.cellHits o size = false) (hb : loadBytes e.c e.t o size = some bs) (r : GReg) (signed : Bool) :
    loadIssue op r a d size signed s = .next (e.loadResult op [o / 64] [.g r (extendLoad signed bs) (e.t.granPois o)]) := by
  have h1 := loadValue_ok h ha hrd hc hb
  have ho : (((ptrOff (e.c.th.rg a) : Nat) : Int) + d).toNat = o := by
    have := h.names.offset; simp only [ptrOff, fld] at *; omega
  refine (issue_done hr ((bind_ok h1).trans rfl)).trans ?_
  simp only [Env.loaded, markWrong_th, ho]
  rw [show (8:Nat) = op.major from hm.symm, readGrans_markWrong]
  unfold Env.loadResult Env.readGrans
  split <;> rfl

end loads

section stores

/-- A store whose access passes enters its context's store buffer (R124, R127). -/
theorem store_next {s : State} {e : Env} {op : Op} {a : GReg} {d : Int} {size o : Nat} {data : List GReg} (hr : Ready s e op)
    (ha : e.acquiring = false) (h : PassesStore e a d size o) (hw : WritableAt e o) (hp : (∃ r ∈ data, e.c.th.pg r = true) → e.t.carve.region o = .frame)
    (hn : (e.c.sb.filter fun x => !x.vec).length < 8) (hc : e.cellHits o size = false) (hb : e.t.carve.region o = .block → e.readHolds (e.t.blockOf o) = false)  (v : Nat) (pois : Bool)
    (hv : cellsAt o ((data.flatMap fun r => natBytes 8 (e.c.th.rg r).toNat).take size) = (List.range size).map fun i => (o + i, BitVec.ofNat 8 (v / 256 ^ i)))
    (hpo : data.any e.c.th.pg = pois) :
    storeIssue op a d size data s = .next (({ e with s := { e.s with free := e.s.free + 1 } } : Env).put { e.t with age := e.t.age + 1 }
        { e.c.atIssue e.s.cycle with
          sb := e.c.sb ++ [{ age := e.t.age, readyAt := e.s.cycle + 1 + e.delay, addr := o
                             len := size, pois, abinit := false, vec := false
                             data := (List.range size).map fun i => (o + i, BitVec.ofNat 8 (v / 256 ^ i)) }]
          th := e.c.th.past op (e.seqPc op) }) := by
  have hl : checkLocal (markWrong e) a d size .store = .ok o := checkLocal_store (e := markWrong e) ⟨⟨h.clean, h.names, h.frame, h.tag⟩, h.code, h.word1⟩
  refine (issue_done (x := { e := (markWrong e).pushStore o size (cellsAt o ((data.flatMap fun r => natBytes 8 (e.c.th.rg r).toNat).take size)) (data.any e.c.th.pg) false false }) hr ((bind_need (by simp [ha])).trans ((bind_ok hl).trans ?_))).trans ?_
  · have hrest : (do need (decide (e.c.sbCount < 8)) .hold
                     need (!e.cellHits o size) .hold
                     need (!(e.t.carve.region o == .block && e.readHolds (e.t.blockOf o))) .hold
                     fin ((markWrong e).pushStore o size (cellsAt o ((data.flatMap fun r => natBytes 8 (e.c.th.rg r).toNat).take size)) (data.any e.c.th.pg) false false) : Except Stop Res1)
         = .ok (.done { e := (markWrong e).pushStore o size (cellsAt o ((data.flatMap fun r => natBytes 8 (e.c.th.rg r).toNat).take size)) (data.any e.c.th.pg) false false }) := by
      refine (bind_need (decide_eq_true hn)).trans ((bind_need (by simp [hc])).trans ((bind_need ?_).trans rfl))
      by_cases hg : e.t.carve.region o = .block
      · simp [hb hg]
      · simp [hg]
    have hblk : (if e.t.carve.region o = .block then (do blockStore (markWrong e) (withOff (e.c.th.rg a) o) o 0
                                                         (do need (decide (e.c.sbCount < 8)) .hold
                                                             need (!e.cellHits o size) .hold
                                                             need (!(e.t.carve.region o == .block && e.readHolds (e.t.blockOf o))) .hold
                                                             fin ((markWrong e).pushStore o size (cellsAt o ((data.flatMap fun r => natBytes 8 (e.c.th.rg r).toNat).take size)) (data.any e.c.th.pg) false false)))
       else (do need (decide (e.c.sbCount < 8)) .hold
                need (!e.cellHits o size) .hold
                need (!(e.t.carve.region o == .block && e.readHolds (e.t.blockOf o))) .hold
                fin ((markWrong e).pushStore o size (cellsAt o ((data.flatMap fun r => natBytes 8 (e.c.th.rg r).toNat).take size)) (data.any e.c.th.pg) false false)) : Except Stop Res1)
         = .ok (.done { e := (markWrong e).pushStore o size (cellsAt o ((data.flatMap fun r => natBytes 8 (e.c.th.rg r).toNat).take size)) (data.any e.c.th.pg) false false }) := by
      split
      · rename_i hg
        obtain ⟨h1, h2⟩ := hw hg
        have : blockStore (markWrong e) (withOff (e.c.th.rg a) o) o 0 = .ok () :=
          (bind_need (decide_eq_true (by simp [h1]))).trans (need_pos _ (by simp [h1, h2]))
        exact (bind_ok this).trans hrest
      · exact hrest
    cases hf : data.find? (markWrong e).c.th.pg with
    | none => exact hblk
    | some r =>
      have hm := List.mem_of_find?_eq_some hf
      have hr := List.find?_some hf
      exact (bind_need (decide_eq_true (hp ⟨r, hm, hr⟩))).trans hblk
  · rw [hv, hpo]; rfl

end stores

section cells

theorem cellAddr_ok {e : Env} {disp a o} {l : List GReg} (h : PassesStore e a (8 * disp.toNat) 8 o) (hc : e.t.carve.region o = .cell) (hl : ∀ r ∈ l, e.c.th.pg r = false) (hp : e.t.granPois o = false) :
   cellAddr e disp a l = .ok o := by
  have : l.find? e.c.th.pg = none := by simpa using hl
  refine (bind_ok (checkLocal_store h)).trans ((bind_need (decide_eq_true hc)).trans ?_)
  simp only [this]
  exact (bind_need (by simp [hp])).trans rfl

/-- A CELL instruction whose access passes enters the cell port (R136, R137). -/
theorem cell_next {s : State} {e : Env} {st : Stall} {ord : Ord} {disp : BitVec 3} {dest : Option GReg} {a : GReg}
    {b ex : Option GReg} {o : Nat} {fn : CellFn} {op : Op}
    (hop : op = op32 st .all true 11 (RegId.g a :: (b.toList ++ ex.toList).map RegId.g))
    (h1 : Ready s e op) (h2 : e.acquiring = false) (h3 : PassesStore e a (8 * disp.toNat) 8 o)
    (h4 : e.t.carve.region o = .cell) (h5 : ∀ r ∈ b.toList ++ ex.toList, e.c.th.pg r = false)
    (h6 : e.t.granPois o = false) :
    cellIssue st ord disp dest a b ex fn s = .next (e.put
      { e.t with cellQ := e.t.cellQ ++ [⟨e.s.cur.ctx, e.c.th.seq, e.t.age, fn, withOff (e.c.th.rg a) o, o,
          (b.map e.c.th.rg).getD 0, (ex.map e.c.th.rg).getD 0, ord, dest.getD 0, st⟩] }
      { e.c.atIssue e.s.cycle with
        th := (e.c.th.addPend { e.pending op 0 false [] 0 with
          dests := (dest.toList.map RegId.g).filter (fun r => !r.isZero), land := none }).past op (e.seqPc op) }) := by
  subst hop
  exact (issue_done h1 ((bind_need (by simp [h2])).trans
    ((bind_ok (cellAddr_ok h3.mark h4 h5 h6)).trans rfl))).trans rfl

end cells

end Sys2Proof.Machine
end

