-- ==== Sys2Proof/Laws/Elements.lean ====
section
/-! SUPPORT. What the elementwise loop of the vector instructions gives: each active element's own result, the flags of all of
them, and the SEED after one draw for each active element (R97, R153). -/

namespace Sys2Proof.Machine

theorem flags_or_none (a : Flags) : Flags.none.or a = a := by cases a; simp [Flags.or, Flags.none]

theorem flags_none_or (a : Flags) : a.or Flags.none = a := by cases a; simp [Flags.or, Flags.none]

theorem flags_or_assoc (a b c : Flags) : (a.or b).or c = a.or (b.or c) := by simp [Flags.or, Bool.or_assoc]

theorem flags_foldl_or (l : List Flags) : ∀ a, l.foldl Flags.or a = a.or (Flags.all l) := by
  induction l with
  | nil => intro a; simp [Flags.all, flags_none_or]
  | cons b t ih =>
    intro a
    have : Flags.all (b :: t) = b.or (Flags.all t) := by
      show t.foldl Flags.or (Flags.none.or b) = _
      rw [flags_or_none, ih b]
    rw [this, List.foldl_cons, ih, flags_or_assoc]

theorem flags_all_cons (a : Flags) (l : List Flags) : Flags.all (a :: l) = a.or (Flags.all l) := by
  simp only [Flags.all, List.foldl_cons, flags_or_none]; exact flags_foldl_or l a

theorem seedAfter_add (s : BitVec 32) (a b : Nat) : seedAfter (seedAfter s a) b = seedAfter s (a + b) := by
  induction b with
  | zero => rfl
  | succ b ih => simp [seedAfter, ih]

/-- The active elements of n from index i. -/
def activeIn (act : Nat → Bool) (i n : Nat) : Nat := (List.range' i n).countP act
/-- SEED after the draws of n elements from index i. -/
def seedAt (draws : Bool) (act : Nat → Bool) (s : BitVec 32) (i n : Nat) : BitVec 32 := seedAfter s (if draws then activeIn act i n else 0)

theorem activeIn_succ (act : Nat → Bool) (i n : Nat) : activeIn act i (n+1) = (if act i then 1 else 0) + activeIn act (i+1) n := by
  simp only [activeIn, List.range'_succ, List.countP_cons]; omega

theorem seedAt_succ (draws act s i n) : seedAt draws act s i (n+1) = seedAt draws act (if draws && act i then seedStep s else s) (i+1) n := by
  simp only [seedAt, activeIn_succ]
  cases draws <;> cases act i <;> simp
  rw [show seedStep s = seedAfter s 1 from rfl, seedAfter_add]

/-- The elementwise loop. -/
theorem mapElems_spec (w : Nat) (act : Nat → Bool) (draws : Bool) (f : Nat → Nat → Nat × Flags) : ∀ n i s,
    (∀ j < n, (mapElems w act draws f n i s).1 / 2 ^ (w * j) % 2 ^ w = if act (i + j) then (f (i+j) (seedAt draws act s i (j+1) >>> 16).toNat).1 % 2 ^ w else 0)
    ∧ (mapElems w act draws f n i s).2.1 = Flags.all (((List.range' i n).filter act).map fun j => (f j (seedAt draws act s i (j - i + 1) >>> 16).toNat).2)
    ∧ (mapElems w act draws f n i s).2.2 = seedAt draws act s i n := by
  intro n
  induction n with
  | zero => intro i s; simp [mapElems, Flags.all, seedAt, activeIn, seedAfter]
  | succ n ih =>
    intro i s
    have hrec : ∀ s', (∀ (x : Nat) , (x % 2 ^ w + 2 ^ w * (mapElems w act draws f n (i+1) s').1) / 2 ^ (w * 0) % 2 ^ w = x % 2 ^ w) := by
      intro s' x; simp [Nat.add_mul_mod_self_left]
    have hsh : ∀ s' x j, (x % 2 ^ w + 2 ^ w * (mapElems w act draws f n (i+1) s').1) / 2 ^ (w * (j+1)) = (mapElems w act draws f n (i+1) s').1 / 2 ^ (w * j) := by
      intro s' x j
      rw [Nat.mul_succ, Nat.add_comm (w*j) w, pow_add, ← Nat.div_div_eq_div_mul, Nat.add_mul_div_left _ _ (by positivity), Nat.div_eq_of_lt (Nat.mod_lt _ (by positivity)), Nat.zero_add]
    cases ha : act i with
    | true =>
      have hs : (if draws then seedStep s else s) = (if draws && act i then seedStep s else s) := by simp [ha]
      obtain ⟨h1, h2, h3⟩ := ih (i+1) (if draws && act i then seedStep s else s)
      simp only [mapElems, ha, if_true, hs]
      simp only [ha, Bool.and_true] at h1 h2 h3 ⊢
      refine ⟨?_, ?_, ?_⟩
      · intro j hj
        cases j with
        | zero =>
          rw [hrec]
          have hc : activeIn act i 1 = 1 := by simp [activeIn, ha]
          simp only [Nat.add_zero, ha, if_true, seedAt, Nat.zero_add, hc]
          cases draws <;> rfl
        | succ j =>
          rw [hsh, h1 j (by omega), seedAt_succ draws act s i (j + 1), show i + (j + 1) = i + 1 + j by omega]
          simp [ha]
      · rw [h2, List.range'_succ, List.filter_cons, if_pos ha, List.map_cons, flags_all_cons]
        congr 1
        · simp only [Nat.sub_self, seedAt_succ, ha, Bool.and_true]; simp [seedAt, activeIn, seedAfter]
        · congr 1; apply List.map_congr_left
          intro j hj
          simp only [List.mem_filter, List.mem_range'_1] at hj
          rw [show j - i + 1 = (j - (i+1) + 1) + 1 by omega, seedAt_succ draws act s i (j - (i + 1) + 1)]; simp [ha]
      · rw [h3, seedAt_succ]; simp [ha]
    | false =>
      have hs : s = (if draws && act i then seedStep s else s) := by simp [ha]
      obtain ⟨h1, h2, h3⟩ := ih (i+1) s
      simp only [mapElems, ha, if_false, Bool.false_eq_true]
      refine ⟨?_, ?_, ?_⟩
      · intro j hj
        cases j with
        | zero => simp [ha, Nat.mul_mod_right]
        | succ j =>
          have := hsh s 0 j
          simp only [Nat.zero_mod, Nat.zero_add] at this
          rw [this, h1 j (by omega), seedAt_succ draws act s i (j + 1), show i + (j + 1) = i + 1 + j by omega]
          simp [ha]
      · rw [h2, List.range'_succ, List.filter_cons, if_neg (by simp [ha])]
        congr 1; apply List.map_congr_left
        intro j hj
        simp only [List.mem_filter, List.mem_range'_1] at hj
        rw [show j - i + 1 = (j - (i+1) + 1) + 1 by omega, seedAt_succ draws act s i (j - (i + 1) + 1)]; simp [ha]
      · rw [h3, seedAt_succ]; simp [ha]

end Sys2Proof.Machine
end

