-- ==== Sys2Proof/Laws/Encoding.lean ====
section
/-! SUPPORT. Laws of the encodings: what each field accessor reads from a word that a format's builder made
(R71 to R73), and the codes that come back as they went (R72, R139, R199, R213). The round trip of each
instruction's fields, in Laws/PerInstr.lean, rests on them. -/

namespace Sys2Proof

@[simp] theorem toFin_fb4 (x : Fin 16) : (fb x : BitVec 4).toFin = x := by revert x; decide
@[simp] theorem toFin_fb3 (x : Fin 8) : (fb x : BitVec 3).toFin = x := by revert x; decide
@[simp] theorem toFin_fb2 (x : Fin 4) : (fb x : BitVec 2).toFin = x := by revert x; decide

/-- A field that lies in the high part of two joined fields. -/
theorem extract_high {m n : Nat} (x : BitVec m) (y : BitVec n) (s w : Nat) (h : n ≤ s) :
    (x ++ y).extractLsb' s w = x.extractLsb' (s - n) w := by
  obtain ⟨k, rfl⟩ := Nat.exists_eq_add_of_le h
  apply BitVec.eq_of_getLsbD_eq; intro i hi
  simp only [BitVec.getLsbD_append, BitVec.getLsbD_extractLsb', hi]
  rw [if_neg (by omega), show n + k + i - n = n + k - n + i by omega]

/-- A field that lies in the low part of two joined fields. -/
theorem extract_low {m n : Nat} (x : BitVec m) (y : BitVec n) (s w : Nat) (h : s + w ≤ n) :
    (x ++ y).extractLsb' s w = y.extractLsb' s w := by
  apply BitVec.eq_of_getLsbD_eq; intro i hi
  simp only [BitVec.getLsbD_append, BitVec.getLsbD_extractLsb', hi]
  rw [if_pos (by omega)]

theorem extract_all {n : Nat} (x : BitVec n) : x.extractLsb' 0 n = x := by simp

/-- Two neighbouring fields joined are one field. -/
theorem join_extract {n : Nat} (x : BitVec n) (s t a b : Nat) (h : t = s + a) :
    x.extractLsb' t b ++ x.extractLsb' s a = x.extractLsb' s (b + a) := by
  subst h
  apply BitVec.eq_of_getLsbD_eq; intro i hi
  simp only [BitVec.getLsbD_append, BitVec.getLsbD_extractLsb', hi]
  split
  · simp [*]
  · rw [show s + a + (i - a) = s + i by omega, show decide (i - a < b) = true by simp; omega]; simp

/-- The low of two joined fields. -/
theorem low_of {m n : Nat} (x : BitVec m) (y : BitVec n) : (x ++ y).extractLsb' 0 n = y :=
  (extract_low x y 0 n (by omega)).trans (extract_all y)

/-- The high of two joined fields. -/
theorem high_of {m n : Nat} (x : BitVec m) (y : BitVec n) : (x ++ y).extractLsb' n m = x := by
  rw [extract_high x y n m (by omega), Nat.sub_self, extract_all]

/-- The middle one of three joined fields. -/
theorem mid_of {l m n : Nat} (x : BitVec l) (y : BitVec m) (z : BitVec n) :
    (x ++ y ++ z).extractLsb' n m = y := by
  rw [extract_high (x ++ y) z n m (by omega), Nat.sub_self]; exact low_of x y

/-- The highest of three joined fields. -/
theorem top_of {l m n : Nat} (x : BitVec l) (y : BitVec m) (z : BitVec n) :
    (x ++ y ++ z).extractLsb' (m + n) l = x := by
  rw [extract_high (x ++ y) z (m + n) l (by omega), Nat.add_sub_cancel]; exact high_of x y

/-- One bit of a field. -/
theorem bit_of {n : Nat} (x : BitVec n) (s : Nat) : (x.extractLsb' s 1).getLsbD 0 = x.getLsbD s := by simp

section formats
variable (major : BitVec 5) (st : Stall)

@[simp] theorem mkR_major (d a b : BitVec 4) (fn : BitVec 6) (mod3 : BitVec 3) (ord : BitVec 2) :
    (mkR major st d a b fn mod3 ord).major = major := rfl
@[simp] theorem mkR_stall (d a b : BitVec 4) (fn : BitVec 6) (mod3 : BitVec 3) (ord : BitVec 2) :
    (mkR major st d a b fn mod3 ord).stall = st := toFin_fb2 st
@[simp] theorem mkR_d (d a b : BitVec 4) (fn : BitVec 6) (mod3 : BitVec 3) (ord : BitVec 2) :
    (mkR major st d a b fn mod3 ord).d = d := rfl
@[simp] theorem mkR_a (d a b : BitVec 4) (fn : BitVec 6) (mod3 : BitVec 3) (ord : BitVec 2) :
    (mkR major st d a b fn mod3 ord).a = a := rfl
@[simp] theorem mkR_b (d a b : BitVec 4) (fn : BitVec 6) (mod3 : BitVec 3) (ord : BitVec 2) :
    (mkR major st d a b fn mod3 ord).b = b := rfl
@[simp] theorem mkR_fn (d a b : BitVec 4) (fn : BitVec 6) (mod3 : BitVec 3) (ord : BitVec 2) :
    (mkR major st d a b fn mod3 ord).fn = fn := low_of (ord ++ mod3) fn
@[simp] theorem mkR_f6 (d a b : BitVec 4) (fn : BitVec 6) (mod3 : BitVec 3) (ord : BitVec 2) :
    (mkR major st d a b fn mod3 ord).f6 = fn := low_of (ord ++ mod3) fn
@[simp] theorem mkR_mod3 (d a b : BitVec 4) (fn : BitVec 6) (mod3 : BitVec 3) (ord : BitVec 2) :
    (mkR major st d a b fn mod3 ord).mod3 = mod3 := mid_of ord mod3 fn
@[simp] theorem mkR_ord (d a b : BitVec 4) (fn : BitVec 6) (mod3 : BitVec 3) (ord : BitVec 2) :
    (mkR major st d a b fn mod3 ord).ord = ord := top_of ord mod3 fn

@[simp] theorem mkI_major (d a f4 : BitVec 4) (imm : BitVec 11) :
    (mkI major st d a f4 imm).major = major := rfl
@[simp] theorem mkI_stall (d a f4 : BitVec 4) (imm : BitVec 11) :
    (mkI major st d a f4 imm).stall = st := toFin_fb2 st
@[simp] theorem mkI_d (d a f4 : BitVec 4) (imm : BitVec 11) :
    (mkI major st d a f4 imm).d = d := rfl
@[simp] theorem mkI_a (d a f4 : BitVec 4) (imm : BitVec 11) :
    (mkI major st d a f4 imm).a = a := rfl
@[simp] theorem mkI_b (d a f4 : BitVec 4) (imm : BitVec 11) :
    (mkI major st d a f4 imm).b = f4 := rfl
@[simp] theorem mkI_hi (d a f4 : BitVec 4) (imm : BitVec 11) :
    (mkI major st d a f4 imm).hi = imm := rfl

@[simp] theorem mkU_major (d : BitVec 4) (imm : BitVec 19) :
    (mkU major st d imm).major = major := rfl
@[simp] theorem mkU_stall (d : BitVec 4) (imm : BitVec 19) :
    (mkU major st d imm).stall = st := toFin_fb2 st
@[simp] theorem mkU_d (d : BitVec 4) (imm : BitVec 19) :
    (mkU major st d imm).d = d := rfl
@[simp] theorem mkU_off19 (d : BitVec 4) (imm : BitVec 19) :
    (mkU major st d imm).off19 = imm := by
  have h := join_extract imm 4 8 4 11 rfl
  have h2 := join_extract imm 0 4 4 15 rfl
  exact (congrArg (· ++ imm.extractLsb' 0 4) h).trans (h2.trans (extract_all imm))

@[simp] theorem mkB_major (a b : BitVec 4) (cond : BitVec 3) (off : BitVec 12) :
    (mkB major st a b cond off).major = major := rfl
@[simp] theorem mkB_stall (a b : BitVec 4) (cond : BitVec 3) (off : BitVec 12) :
    (mkB major st a b cond off).stall = st := toFin_fb2 st
@[simp] theorem mkB_d (a b : BitVec 4) (cond : BitVec 3) (off : BitVec 12) :
    (mkB major st a b cond off).d = a := rfl
@[simp] theorem mkB_a (a b : BitVec 4) (cond : BitVec 3) (off : BitVec 12) :
    (mkB major st a b cond off).a = b := rfl
@[simp] theorem mkB_cond3 (a b : BitVec 4) (cond : BitVec 3) (off : BitVec 12) :
    (mkB major st a b cond off).cond3 = cond := low_of (off.extractLsb' 0 1) cond
@[simp] theorem mkB_off12 (a b : BitVec 4) (cond : BitVec 3) (off : BitVec 12) :
    (mkB major st a b cond off).off12 = off := by
  have h := join_extract off 0 1 1 11 rfl
  have h1 : (mkB major st a b cond off).b.extractLsb' 3 1 = off.extractLsb' 0 1 := high_of _ cond
  exact (congrArg (off.extractLsb' 1 11 ++ ·) h1).trans (h.trans (extract_all off))

@[simp] theorem mkV_major (vd va vb : BitVec 3) (k : BitVec 2) (z : Bool) (f6 : BitVec 6) (ty : BitVec 3) (rm : BitVec 2) :
    (mkV major st vd va vb k z f6 ty rm).major = major := rfl
@[simp] theorem mkV_stall (vd va vb : BitVec 3) (k : BitVec 2) (z : Bool) (f6 : BitVec 6) (ty : BitVec 3) (rm : BitVec 2) :
    (mkV major st vd va vb k z f6 ty rm).stall = st := toFin_fb2 st
@[simp] theorem mkV_vd (vd va vb : BitVec 3) (k : BitVec 2) (z : Bool) (f6 : BitVec 6) (ty : BitVec 3) (rm : BitVec 2) :
    (mkV major st vd va vb k z f6 ty rm).vd = vd := low_of (va.extractLsb' 0 1) vd
@[simp] theorem mkV_va (vd va vb : BitVec 3) (k : BitVec 2) (z : Bool) (f6 : BitVec 6) (ty : BitVec 3) (rm : BitVec 2) :
    (mkV major st vd va vb k z f6 ty rm).va = va := by
  have h1 : (mkV major st vd va vb k z f6 ty rm).d.extractLsb' 3 1 = va.extractLsb' 0 1 := high_of _ vd
  have h2 : (mkV major st vd va vb k z f6 ty rm).a.extractLsb' 0 2 = va.extractLsb' 1 2 := low_of _ _
  exact (congrArg₂ (· ++ ·) h2 h1).trans ((join_extract va 0 1 1 2 rfl).trans (extract_all va))
@[simp] theorem mkV_vb (vd va vb : BitVec 3) (k : BitVec 2) (z : Bool) (f6 : BitVec 6) (ty : BitVec 3) (rm : BitVec 2) :
    (mkV major st vd va vb k z f6 ty rm).vb = vb := by
  have h1 : (mkV major st vd va vb k z f6 ty rm).a.extractLsb' 2 2 = vb.extractLsb' 0 2 := high_of _ _
  have h2 : (mkV major st vd va vb k z f6 ty rm).b.extractLsb' 0 1 = vb.extractLsb' 2 1 := low_of (BitVec.ofBool z ++ k) _
  exact (congrArg₂ (· ++ ·) h2 h1).trans ((join_extract vb 0 2 2 1 rfl).trans (extract_all vb))
@[simp] theorem mkV_k (vd va vb : BitVec 3) (k : BitVec 2) (z : Bool) (f6 : BitVec 6) (ty : BitVec 3) (rm : BitVec 2) :
    (mkV major st vd va vb k z f6 ty rm).k = k := mid_of (BitVec.ofBool z) k (vb.extractLsb' 2 1)
@[simp] theorem mkV_z (vd va vb : BitVec 3) (k : BitVec 2) (z : Bool) (f6 : BitVec 6) (ty : BitVec 3) (rm : BitVec 2) :
    (mkV major st vd va vb k z f6 ty rm).z = z := by
  have h := top_of (BitVec.ofBool z) k (vb.extractLsb' 2 1)
  exact ((bit_of _ 3).symm.trans (congrArg (fun x => BitVec.getLsbD x 0) h)).trans (by cases z <;> rfl)
@[simp] theorem mkV_f6 (vd va vb : BitVec 3) (k : BitVec 2) (z : Bool) (f6 : BitVec 6) (ty : BitVec 3) (rm : BitVec 2) :
    (mkV major st vd va vb k z f6 ty rm).f6 = f6 := low_of (rm ++ ty) f6
@[simp] theorem mkV_tyBits (vd va vb : BitVec 3) (k : BitVec 2) (z : Bool) (f6 : BitVec 6) (ty : BitVec 3) (rm : BitVec 2) :
    (mkV major st vd va vb k z f6 ty rm).tyBits = ty := mid_of rm ty f6
@[simp] theorem mkV_rmBits (vd va vb : BitVec 3) (k : BitVec 2) (z : Bool) (f6 : BitVec 6) (ty : BitVec 3) (rm : BitVec 2) :
    (mkV major st vd va vb k z f6 ty rm).rmBits = rm := top_of rm ty f6

@[simp] theorem mkE_major (a b : BitVec 4) (sub : BitVec 3) (fl : Bool) (f6 : BitVec 6) (mod5 : BitVec 5) :
    (mkE major st a b sub fl f6 mod5).major = major := rfl
@[simp] theorem mkE_stall (a b : BitVec 4) (sub : BitVec 3) (fl : Bool) (f6 : BitVec 6) (mod5 : BitVec 5) :
    (mkE major st a b sub fl f6 mod5).stall = st := toFin_fb2 st
@[simp] theorem mkE_d (a b : BitVec 4) (sub : BitVec 3) (fl : Bool) (f6 : BitVec 6) (mod5 : BitVec 5) :
    (mkE major st a b sub fl f6 mod5).d = a := rfl
@[simp] theorem mkE_a (a b : BitVec 4) (sub : BitVec 3) (fl : Bool) (f6 : BitVec 6) (mod5 : BitVec 5) :
    (mkE major st a b sub fl f6 mod5).a = b := rfl
@[simp] theorem mkE_sub (a b : BitVec 4) (sub : BitVec 3) (fl : Bool) (f6 : BitVec 6) (mod5 : BitVec 5) :
    (mkE major st a b sub fl f6 mod5).sub = sub := low_of (BitVec.ofBool fl) sub
@[simp] theorem mkE_fl (a b : BitVec 4) (sub : BitVec 3) (fl : Bool) (f6 : BitVec 6) (mod5 : BitVec 5) :
    (mkE major st a b sub fl f6 mod5).fl = fl := by
  have h := high_of (BitVec.ofBool fl) sub
  exact ((bit_of _ 3).symm.trans (congrArg (fun x => BitVec.getLsbD x 0) h)).trans (by cases fl <;> rfl)
@[simp] theorem mkE_f6 (a b : BitVec 4) (sub : BitVec 3) (fl : Bool) (f6 : BitVec 6) (mod5 : BitVec 5) :
    (mkE major st a b sub fl f6 mod5).f6 = f6 := low_of mod5 f6
@[simp] theorem mkE_mod5 (a b : BitVec 4) (sub : BitVec 3) (fl : Bool) (f6 : BitVec 6) (mod5 : BitVec 5) :
    (mkE major st a b sub fl f6 mod5).mod5 = mod5 := high_of mod5 f6

end formats

@[simp] theorem eOf4_fb (x : EReg) : eOf4 (fb x) = some x := by revert x; decide
@[simp] theorem kOf4_fb (x : KReg) : kOf4 (fb x) = some x := by revert x; decide
@[simp] theorem kOf3_fb (x : KReg) : kOf3 (fb x) = some x := by revert x; decide
@[simp] theorem posOf4_fb (x : Fin 6) : posOf4 (fb x) = some x := by revert x; decide
@[simp] theorem wOf2_fb (x : Fin 3) : wOf2 (fb x) = some x := by revert x; decide
@[simp] theorem ord_ofCode_code (o : Ord) : Ord.ofCode o.code = o := by cases o <;> rfl
@[simp] theorem fenceKind_ofCode_code (o : FenceKind) : FenceKind.ofCode o.code = some o := by cases o <;> rfl
@[simp] theorem scope_ofCode_code (o : Scope) : Scope.ofCode o.code = some o := by cases o <;> rfl
@[simp] theorem xord_ofCode_code (o : XOrd) : XOrd.ofCode o.code = some o := by
  rcases o with _ | s | s | s <;> first | rfl | (cases s <;> rfl)
@[simp] theorem vtype_ofCode_code (o : VType) : VType.ofCode o.code = o := by cases o <;> rfl
@[simp] theorem rmField_ofCode_code (o : RmField) : RmField.ofCode o.code = o := by cases o <;> rfl
@[simp] theorem redOp_ofCode_code (o : RedOp) : RedOp.ofCode o.code = some o := by cases o <;> rfl
@[simp] theorem combOp_ofCode_code (o : CombOp) : CombOp.ofCode o.fl o.sub = some o := by cases o <;> rfl

@[simp] theorem acc_low (n : AccReg) : ((fb n : BitVec 3).extractLsb' 0 2).toFin = n := by revert n; decide
@[simp] theorem acc_high (n : AccReg) : (fb n : BitVec 3).extractLsb' 2 1 = 0 := by revert n; decide

/-- A shift amount or a pointer field in the low six bits of an immediate. -/
@[simp] theorem imm6_high (x : BitVec 6) : (x.setWidth 11).extractLsb' 6 5 = 0 := by
  apply BitVec.eq_of_getLsbD_eq; intro i hi
  simp
@[simp] theorem imm6_low (x : BitVec 6) : (x.setWidth 11).extractLsb' 0 6 = x := by
  apply BitVec.eq_of_getLsbD_eq; intro i hi
  simp [BitVec.getLsbD_setWidth, hi]; omega

/-- The fields of FENCE's immediate. -/
@[simp] theorem fence_scope (s : BitVec 3) (k : BitVec 2) : (0#6 ++ s ++ k : BitVec 11).extractLsb' 2 3 = s :=
  mid_of 0#6 s k
@[simp] theorem fence_kind (s : BitVec 3) (k : BitVec 2) : (0#6 ++ s ++ k : BitVec 11).extractLsb' 0 2 = k :=
  low_of (0#6 ++ s) k
@[simp] theorem fence_high (s : BitVec 3) (k : BitVec 2) : (0#6 ++ s ++ k : BitVec 11).extractLsb' 5 6 = 0 :=
  top_of 0#6 s k

/-- The fields of JLOG's immediate. -/
@[simp] theorem jlog_word (ret : Bool) (w : BitVec 2) :
    (0#8 ++ BitVec.ofBool ret ++ w : BitVec 11).extractLsb' 0 2 = w := low_of (0#8 ++ BitVec.ofBool ret) w
@[simp] theorem jlog_high (ret : Bool) (w : BitVec 2) :
    (0#8 ++ BitVec.ofBool ret ++ w : BitVec 11).extractLsb' 3 8 = 0 := top_of 0#8 (BitVec.ofBool ret) w
@[simp] theorem jlog_ret (ret : Bool) (w : BitVec 2) :
    (0#8 ++ BitVec.ofBool ret ++ w : BitVec 11).getLsbD 2 = ret :=
  ((bit_of (0#8 ++ BitVec.ofBool ret ++ w : BitVec 11) 2).symm.trans
    (congrArg (fun x => BitVec.getLsbD x 0) (mid_of 0#8 (BitVec.ofBool ret) w))).trans (by cases ret <;> rfl)

@[simp] theorem jlog_ret_elem (ret : Bool) (w : BitVec 2) : (0#8 ++ BitVec.ofBool ret ++ w : BitVec 11)[2] = ret :=
  (BitVec.getLsbD_eq_getElem (by decide)).symm.trans (jlog_ret ret w)

/-- The immediate of a compact form, from its two fields. -/
@[simp] theorem imm6_join (x : BitVec 6) : x.extractLsb' 2 4 ++ x.extractLsb' 0 2 = x :=
  (join_extract x 0 2 2 4 rfl).trans (extract_all x)
@[simp] theorem imm10_join (x : BitVec 10) : x.extractLsb' 6 4 ++ x.extractLsb' 2 4 ++ x.extractLsb' 0 2 = x :=
  (congrArg (· ++ x.extractLsb' 0 2) (join_extract x 2 6 4 4 rfl)).trans
    ((join_extract x 0 2 2 8 rfl).trans (extract_all x))

@[simp] theorem mkE_acc (major : BitVec 5) (st : Stall) (a b : BitVec 4) (n : AccReg) (fl : Bool) (f6 : BitVec 6)
    (mod5 : BitVec 5) : (mkE major st a b (fb n) fl f6 mod5).acc = n :=
  (congrArg (fun x : BitVec 3 => (x.extractLsb' 0 2).toFin) (mkE_sub major st a b (fb n) fl f6 mod5)).trans (acc_low n)

/-! The accessors, each the field that it reads. -/

@[simp] theorem Raw32.plain_def (r : Raw32) : r.plain = (r.mod3 == 0 && r.ord == 0) := rfl
@[simp] theorem Raw32.gd_def (r : Raw32) : r.gd = r.d.toFin := rfl
@[simp] theorem Raw32.ga_def (r : Raw32) : r.ga = r.a.toFin := rfl
@[simp] theorem Raw32.gb_def (r : Raw32) : r.gb = r.b.toFin := rfl
@[simp] theorem Raw32.vdReg_def (r : Raw32) : r.vdReg = r.vd.toFin := rfl
@[simp] theorem Raw32.vaReg_def (r : Raw32) : r.vaReg = r.va.toFin := rfl
@[simp] theorem Raw32.vbReg_def (r : Raw32) : r.vbReg = r.vb.toFin := rfl
@[simp] theorem Raw32.kReg_def (r : Raw32) : r.kReg = r.k.toFin := rfl
@[simp] theorem Raw32.ty_def (r : Raw32) : r.ty = VType.ofCode r.tyBits := rfl
@[simp] theorem Raw32.rm_def (r : Raw32) : r.rm = RmField.ofCode r.rmBits := rfl

/-- The fields of an encoded instruction, decoded. -/
def Enc.instr : Enc → Option Instr
  | .w32 r => decodeRaw32 r
  | .w16 r => decodeRaw16 r

end Sys2Proof
end

