-- ==== Sys2Proof/Laws/PerInstr.lean ====
section
/-! SUPPORT. For every instruction, by constructor: the fields that the encoder writes decode to the instruction
itself (family Fields). A constructor without an encoding has nothing to show. -/

namespace Sys2Proof.Laws.Fields

/-- The instruction's encoded fields, where it has an encoding, decode to the instruction. -/
def Statement (i : Instr) : Prop := ∀ x, encode i = some x → x.instr = some i

theorem add (st : Stall) (d a b : GReg) : Statement (.add st d a b) := by
  intro x h; cases h
  show decAlu (mkR 0 st (fb d) (fb a) (fb b) 0 0 0) = _
  delta decAlu; rw [mkR_fn]; show (if _ then _ else _) = _; simp
theorem sub (st : Stall) (d a b : GReg) : Statement (.sub st d a b) := by
  intro x h; cases h
  show decAlu (mkR 0 st (fb d) (fb a) (fb b) 1 0 0) = _
  delta decAlu; rw [mkR_fn]; show (if _ then _ else _) = _; simp
theorem and (st : Stall) (d a b : GReg) : Statement (.and st d a b) := by
  intro x h; cases h
  show decAlu (mkR 0 st (fb d) (fb a) (fb b) 2 0 0) = _
  delta decAlu; rw [mkR_fn]; show (if _ then _ else _) = _; simp
theorem or (st : Stall) (d a b : GReg) : Statement (.or st d a b) := by
  intro x h; cases h
  show decAlu (mkR 0 st (fb d) (fb a) (fb b) 3 0 0) = _
  delta decAlu; rw [mkR_fn]; show (if _ then _ else _) = _; simp
theorem xor (st : Stall) (d a b : GReg) : Statement (.xor st d a b) := by
  intro x h; cases h
  show decAlu (mkR 0 st (fb d) (fb a) (fb b) 4 0 0) = _
  delta decAlu; rw [mkR_fn]; show (if _ then _ else _) = _; simp
theorem andn (st : Stall) (d a b : GReg) : Statement (.andn st d a b) := by
  intro x h; cases h
  show decAlu (mkR 0 st (fb d) (fb a) (fb b) 5 0 0) = _
  delta decAlu; rw [mkR_fn]; show (if _ then _ else _) = _; simp
theorem shl (st : Stall) (d a b : GReg) : Statement (.shl st d a b) := by
  intro x h; cases h
  show decAlu (mkR 0 st (fb d) (fb a) (fb b) 6 0 0) = _
  delta decAlu; rw [mkR_fn]; show (if _ then _ else _) = _; simp
theorem shr (st : Stall) (d a b : GReg) : Statement (.shr st d a b) := by
  intro x h; cases h
  show decAlu (mkR 0 st (fb d) (fb a) (fb b) 7 0 0) = _
  delta decAlu; rw [mkR_fn]; show (if _ then _ else _) = _; simp
theorem sra (st : Stall) (d a b : GReg) : Statement (.sra st d a b) := by
  intro x h; cases h
  show decAlu (mkR 0 st (fb d) (fb a) (fb b) 8 0 0) = _
  delta decAlu; rw [mkR_fn]; show (if _ then _ else _) = _; simp
theorem slt (st : Stall) (d a b : GReg) : Statement (.slt st d a b) := by
  intro x h; cases h
  show decAlu (mkR 0 st (fb d) (fb a) (fb b) 9 0 0) = _
  delta decAlu; rw [mkR_fn]; show (if _ then _ else _) = _; simp
theorem sltu (st : Stall) (d a b : GReg) : Statement (.sltu st d a b) := by
  intro x h; cases h
  show decAlu (mkR 0 st (fb d) (fb a) (fb b) 10 0 0) = _
  delta decAlu; rw [mkR_fn]; show (if _ then _ else _) = _; simp
theorem seq (st : Stall) (d a b : GReg) : Statement (.seq st d a b) := by
  intro x h; cases h
  show decAlu (mkR 0 st (fb d) (fb a) (fb b) 11 0 0) = _
  delta decAlu; rw [mkR_fn]; show (if _ then _ else _) = _; simp
theorem sne (st : Stall) (d a b : GReg) : Statement (.sne st d a b) := by
  intro x h; cases h
  show decAlu (mkR 0 st (fb d) (fb a) (fb b) 12 0 0) = _
  delta decAlu; rw [mkR_fn]; show (if _ then _ else _) = _; simp
theorem min (st : Stall) (d a b : GReg) : Statement (.min st d a b) := by
  intro x h; cases h
  show decAlu (mkR 0 st (fb d) (fb a) (fb b) 13 0 0) = _
  delta decAlu; rw [mkR_fn]; show (if _ then _ else _) = _; simp
theorem max (st : Stall) (d a b : GReg) : Statement (.max st d a b) := by
  intro x h; cases h
  show decAlu (mkR 0 st (fb d) (fb a) (fb b) 14 0 0) = _
  delta decAlu; rw [mkR_fn]; show (if _ then _ else _) = _; simp
theorem minu (st : Stall) (d a b : GReg) : Statement (.minu st d a b) := by
  intro x h; cases h
  show decAlu (mkR 0 st (fb d) (fb a) (fb b) 15 0 0) = _
  delta decAlu; rw [mkR_fn]; show (if _ then _ else _) = _; simp
theorem maxu (st : Stall) (d a b : GReg) : Statement (.maxu st d a b) := by
  intro x h; cases h
  show decAlu (mkR 0 st (fb d) (fb a) (fb b) 16 0 0) = _
  delta decAlu; rw [mkR_fn]; show (if _ then _ else _) = _; simp
theorem sel (st : Stall) (d a b : GReg) : Statement (.sel st d a b) := by
  intro x h; cases h
  show decAlu (mkR 0 st (fb d) (fb a) (fb b) 17 0 0) = _
  delta decAlu; rw [mkR_fn]; show (if _ then _ else _) = _; simp
theorem clz (st : Stall) (d a : GReg) : Statement (.clz st d a) := by
  intro x h; cases h
  show decAlu (mkR 0 st (fb d) (fb a) 0 18 0 0) = _
  delta decAlu; rw [mkR_fn]; show (if _ then _ else _) = _; simp
theorem ctz (st : Stall) (d a : GReg) : Statement (.ctz st d a) := by
  intro x h; cases h
  show decAlu (mkR 0 st (fb d) (fb a) 0 19 0 0) = _
  delta decAlu; rw [mkR_fn]; show (if _ then _ else _) = _; simp
theorem popc (st : Stall) (d a : GReg) : Statement (.popc st d a) := by
  intro x h; cases h
  show decAlu (mkR 0 st (fb d) (fb a) 0 20 0 0) = _
  delta decAlu; rw [mkR_fn]; show (if _ then _ else _) = _; simp
theorem sextB (st : Stall) (d a : GReg) : Statement (.sextB st d a) := by
  intro x h; cases h
  show decAlu (mkR 0 st (fb d) (fb a) 0 21 0 0) = _
  delta decAlu; rw [mkR_fn, mkR_mod3]; show (if _ then some _ else _) = _; simp
theorem sextH (st : Stall) (d a : GReg) : Statement (.sextH st d a) := by
  intro x h; cases h
  show decAlu (mkR 0 st (fb d) (fb a) 0 21 1 0) = _
  delta decAlu; rw [mkR_fn, mkR_mod3]; show (if _ then some _ else _) = _; simp
theorem sextW (st : Stall) (d a : GReg) : Statement (.sextW st d a) := by
  intro x h; cases h
  show decAlu (mkR 0 st (fb d) (fb a) 0 21 2 0) = _
  delta decAlu; rw [mkR_fn, mkR_mod3]; show (if _ then some _ else _) = _; simp
theorem bfx (st : Stall) (d a b : GReg) : Statement (.bfx st d a b) := by
  intro x h; cases h
  show decAlu (mkR 0 st (fb d) (fb a) (fb b) 22 0 0) = _
  delta decAlu; rw [mkR_fn, mkR_mod3]; show (if _ then some _ else _) = _; simp
theorem bfxS (st : Stall) (d a b : GReg) : Statement (.bfxS st d a b) := by
  intro x h; cases h
  show decAlu (mkR 0 st (fb d) (fb a) (fb b) 22 1 0) = _
  delta decAlu; rw [mkR_fn, mkR_mod3]; show (if _ then some _ else _) = _; simp
theorem bfi (st : Stall) (d a b : GReg) : Statement (.bfi st d a b) := by
  intro x h; cases h
  show decAlu (mkR 0 st (fb d) (fb a) (fb b) 23 0 0) = _
  delta decAlu; rw [mkR_fn]; show (if _ then _ else _) = _; simp
theorem padd (st : Stall) (d a b : GReg) : Statement (.padd st d a b) := by
  intro x h; cases h
  show decAlu (mkR 0 st (fb d) (fb a) (fb b) 24 0 0) = _
  delta decAlu; rw [mkR_fn]; show (if _ then _ else _) = _; simp
theorem ptagx (st : Stall) (d a : GReg) : Statement (.ptagx st d a) := by
  intro x h; cases h
  show decAlu (mkR 0 st (fb d) (fb a) 0 25 0 0) = _
  delta decAlu; rw [mkR_fn]; show (if _ then _ else _) = _; simp
theorem ptags (st : Stall) (d a b : GReg) : Statement (.ptags st d a b) := by
  intro x h; cases h
  show decAlu (mkR 0 st (fb d) (fb a) (fb b) 26 0 0) = _
  delta decAlu; rw [mkR_fn]; show (if _ then _ else _) = _; simp
theorem addi (st : Stall) (d a : GReg) (imm : BitVec 11) : Statement (.addi st d a imm) := by
  intro x h; cases h
  show decAluI (mkI 1 st (fb d) (fb a) 0 imm) = _
  delta decAluI; show some _ = _; simp
theorem andi (st : Stall) (d a : GReg) (imm : BitVec 11) : Statement (.andi st d a imm) := by
  intro x h; cases h
  show decAluI (mkI 1 st (fb d) (fb a) 1 imm) = _
  delta decAluI; show some _ = _; simp
theorem ori (st : Stall) (d a : GReg) (imm : BitVec 11) : Statement (.ori st d a imm) := by
  intro x h; cases h
  show decAluI (mkI 1 st (fb d) (fb a) 2 imm) = _
  delta decAluI; show some _ = _; simp
theorem xori (st : Stall) (d a : GReg) (imm : BitVec 11) : Statement (.xori st d a imm) := by
  intro x h; cases h
  show decAluI (mkI 1 st (fb d) (fb a) 3 imm) = _
  delta decAluI; show some _ = _; simp
theorem shli (st : Stall) (d a : GReg) (imm : BitVec 6) : Statement (.shli st d a imm) := by
  intro x h; cases h
  show decAluI (mkI 1 st (fb d) (fb a) 4 (imm.setWidth 11)) = _
  delta decAluI; show (if _ then _ else _) = _; simp
theorem shri (st : Stall) (d a : GReg) (imm : BitVec 6) : Statement (.shri st d a imm) := by
  intro x h; cases h
  show decAluI (mkI 1 st (fb d) (fb a) 5 (imm.setWidth 11)) = _
  delta decAluI; show (if _ then _ else _) = _; simp
theorem srai (st : Stall) (d a : GReg) (imm : BitVec 6) : Statement (.srai st d a imm) := by
  intro x h; cases h
  show decAluI (mkI 1 st (fb d) (fb a) 6 (imm.setWidth 11)) = _
  delta decAluI; show (if _ then _ else _) = _; simp
theorem slti (st : Stall) (d a : GReg) (imm : BitVec 11) : Statement (.slti st d a imm) := by
  intro x h; cases h
  show decAluI (mkI 1 st (fb d) (fb a) 7 imm) = _
  delta decAluI; show some _ = _; simp
theorem sltiu (st : Stall) (d a : GReg) (imm : BitVec 11) : Statement (.sltiu st d a imm) := by
  intro x h; cases h
  show decAluI (mkI 1 st (fb d) (fb a) 8 imm) = _
  delta decAluI; show some _ = _; simp
theorem paddi (st : Stall) (d a : GReg) (imm : BitVec 11) : Statement (.paddi st d a imm) := by
  intro x h; cases h
  show decAluI (mkI 1 st (fb d) (fb a) 9 imm) = _
  delta decAluI; show some _ = _; simp
theorem ptagi (st : Stall) (d a : GReg) (imm : BitVec 6) : Statement (.ptagi st d a imm) := by
  intro x h; cases h
  show decAluI (mkI 1 st (fb d) (fb a) 10 (imm.setWidth 11)) = _
  delta decAluI; show (if _ then _ else _) = _; simp
theorem lui (st : Stall) (d : GReg) (imm : BitVec 19) : Statement (.lui st d imm) := by
  intro x h; cases h
  show some _ = _; simp
theorem addpc (st : Stall) (d : GReg) (imm : BitVec 19) : Statement (.addpc st d imm) := by
  intro x h; cases h
  show some _ = _; simp
theorem mul (st : Stall) (d a b : GReg) : Statement (.mul st d a b) := by
  intro x h; cases h
  show decMulDiv (mkR 4 st (fb d) (fb a) (fb b) 0 0 0) = _
  delta decMulDiv; rw [mkR_fn]; show (if _ then _ else _) = _; simp
theorem mulh (st : Stall) (d a b : GReg) : Statement (.mulh st d a b) := by
  intro x h; cases h
  show decMulDiv (mkR 4 st (fb d) (fb a) (fb b) 1 0 0) = _
  delta decMulDiv; rw [mkR_fn]; show (if _ then _ else _) = _; simp
theorem mulhu (st : Stall) (d a b : GReg) : Statement (.mulhu st d a b) := by
  intro x h; cases h
  show decMulDiv (mkR 4 st (fb d) (fb a) (fb b) 2 0 0) = _
  delta decMulDiv; rw [mkR_fn]; show (if _ then _ else _) = _; simp
theorem div (st : Stall) (d a b : GReg) : Statement (.div st d a b) := by
  intro x h; cases h
  show decMulDiv (mkR 4 st (fb d) (fb a) (fb b) 3 0 0) = _
  delta decMulDiv; rw [mkR_fn]; show (if _ then _ else _) = _; simp
theorem divu (st : Stall) (d a b : GReg) : Statement (.divu st d a b) := by
  intro x h; cases h
  show decMulDiv (mkR 4 st (fb d) (fb a) (fb b) 4 0 0) = _
  delta decMulDiv; rw [mkR_fn]; show (if _ then _ else _) = _; simp
theorem rem (st : Stall) (d a b : GReg) : Statement (.rem st d a b) := by
  intro x h; cases h
  show decMulDiv (mkR 4 st (fb d) (fb a) (fb b) 5 0 0) = _
  delta decMulDiv; rw [mkR_fn]; show (if _ then _ else _) = _; simp
theorem remu (st : Stall) (d a b : GReg) : Statement (.remu st d a b) := by
  intro x h; cases h
  show decMulDiv (mkR 4 st (fb d) (fb a) (fb b) 6 0 0) = _
  delta decMulDiv; rw [mkR_fn]; show (if _ then _ else _) = _; simp
theorem beq (st : Stall) (a b : GReg) (off : BitVec 12) : Statement (.beq st a b off) := by
  intro x h; cases h
  show decBr (mkB 5 st (fb a) (fb b) 0 off) = _
  delta decBr; rw [mkB_cond3]; show some _ = _; simp
theorem bne (st : Stall) (a b : GReg) (off : BitVec 12) : Statement (.bne st a b off) := by
  intro x h; cases h
  show decBr (mkB 5 st (fb a) (fb b) 1 off) = _
  delta decBr; rw [mkB_cond3]; show some _ = _; simp
theorem blt (st : Stall) (a b : GReg) (off : BitVec 12) : Statement (.blt st a b off) := by
  intro x h; cases h
  show decBr (mkB 5 st (fb a) (fb b) 2 off) = _
  delta decBr; rw [mkB_cond3]; show some _ = _; simp
theorem bge (st : Stall) (a b : GReg) (off : BitVec 12) : Statement (.bge st a b off) := by
  intro x h; cases h
  show decBr (mkB 5 st (fb a) (fb b) 3 off) = _
  delta decBr; rw [mkB_cond3]; show some _ = _; simp
theorem bltu (st : Stall) (a b : GReg) (off : BitVec 12) : Statement (.bltu st a b off) := by
  intro x h; cases h
  show decBr (mkB 5 st (fb a) (fb b) 4 off) = _
  delta decBr; rw [mkB_cond3]; show some _ = _; simp
theorem bgeu (st : Stall) (a b : GReg) (off : BitVec 12) : Statement (.bgeu st a b off) := by
  intro x h; cases h
  show decBr (mkB 5 st (fb a) (fb b) 5 off) = _
  delta decBr; rw [mkB_cond3]; show some _ = _; simp
theorem jal (st : Stall) (d : GReg) (off : BitVec 19) : Statement (.jal st d off) := by
  intro x h; cases h
  show some _ = _; simp
theorem jalr (st : Stall) (d a : GReg) (imm : BitVec 11) : Statement (.jalr st d a imm) := by
  intro x h; cases h
  show decJr (mkI 7 st (fb d) (fb a) 0 imm) = _
  delta decJr; show some _ = _; simp
theorem jr (st : Stall) (a : GReg) (imm : BitVec 11) : Statement (.jr st a imm) := by
  intro x h; cases h
  show decJr (mkI 7 st 0 (fb a) 1 imm) = _
  delta decJr; show (if _ then _ else _) = _; simp
theorem ldb (st : Stall) (d a : GReg) (off : BitVec 11) : Statement (.ldb st d a off) := by
  intro x h; cases h
  show decLd (mkI 8 st (fb d) (fb a) 0 off) = _
  delta decLd; show some _ = _; simp
theorem ldh (st : Stall) (d a : GReg) (off : BitVec 11) : Statement (.ldh st d a off) := by
  intro x h; cases h
  show decLd (mkI 8 st (fb d) (fb a) 1 off) = _
  delta decLd; show some _ = _; simp
theorem ldw (st : Stall) (d a : GReg) (off : BitVec 11) : Statement (.ldw st d a off) := by
  intro x h; cases h
  show decLd (mkI 8 st (fb d) (fb a) 2 off) = _
  delta decLd; show some _ = _; simp
theorem ldd (st : Stall) (d a : GReg) (off : BitVec 11) : Statement (.ldd st d a off) := by
  intro x h; cases h
  show decLd (mkI 8 st (fb d) (fb a) 3 off) = _
  delta decLd; show some _ = _; simp
theorem ldbu (st : Stall) (d a : GReg) (off : BitVec 11) : Statement (.ldbu st d a off) := by
  intro x h; cases h
  show decLd (mkI 8 st (fb d) (fb a) 4 off) = _
  delta decLd; show some _ = _; simp
theorem ldhu (st : Stall) (d a : GReg) (off : BitVec 11) : Statement (.ldhu st d a off) := by
  intro x h; cases h
  show decLd (mkI 8 st (fb d) (fb a) 5 off) = _
  delta decLd; show some _ = _; simp
theorem ldwu (st : Stall) (d a : GReg) (off : BitVec 11) : Statement (.ldwu st d a off) := by
  intro x h; cases h
  show decLd (mkI 8 st (fb d) (fb a) 6 off) = _
  delta decLd; show some _ = _; simp
theorem ldp (st : Stall) (d a : GReg) (off : BitVec 11) : Statement (.ldp st d a off) := by
  intro x h; cases h
  show decLd (mkI 8 st (fb d) (fb a) 7 off) = _
  delta decLd; show some _ = _; simp
theorem stb (st : Stall) (d a : GReg) (off : BitVec 11) : Statement (.stb st d a off) := by
  intro x h; cases h
  show decSt (mkI 9 st (fb d) (fb a) 0 off) = _
  delta decSt; show some _ = _; simp
theorem sth (st : Stall) (d a : GReg) (off : BitVec 11) : Statement (.sth st d a off) := by
  intro x h; cases h
  show decSt (mkI 9 st (fb d) (fb a) 1 off) = _
  delta decSt; show some _ = _; simp
theorem stw (st : Stall) (d a : GReg) (off : BitVec 11) : Statement (.stw st d a off) := by
  intro x h; cases h
  show decSt (mkI 9 st (fb d) (fb a) 2 off) = _
  delta decSt; show some _ = _; simp
theorem std (st : Stall) (d a : GReg) (off : BitVec 11) : Statement (.std st d a off) := by
  intro x h; cases h
  show decSt (mkI 9 st (fb d) (fb a) 3 off) = _
  delta decSt; show some _ = _; simp
theorem stp (st : Stall) (d a : GReg) (off : BitVec 11) : Statement (.stp st d a off) := by
  intro x h; cases h
  show decSt (mkI 9 st (fb d) (fb a) 7 off) = _
  delta decSt; show some _ = _; simp
theorem bopen (st : Stall) (a : GReg) (off : BitVec 11) : Statement (.bopen st a off) := by
  intro x h; cases h
  show decBlock (mkI 10 st 0 (fb a) 0 off) = _
  delta decBlock; show (if _ then _ else _) = _; simp
theorem bcommit (st : Stall) (a : GReg) (off : BitVec 11) : Statement (.bcommit st a off) := by
  intro x h; cases h
  show decBlock (mkI 10 st 0 (fb a) 1 off) = _
  delta decBlock; show (if _ then _ else _) = _; simp
theorem bclr (st : Stall) (d a : GReg) (off : BitVec 11) : Statement (.bclr st d a off) := by
  intro x h; cases h
  show decBlock (mkI 10 st (fb d) (fb a) 2 off) = _
  delta decBlock; show some _ = _; simp
theorem bwait (st : Stall) (a : GReg) (off : BitVec 11) : Statement (.bwait st a off) := by
  intro x h; cases h
  show decBlock (mkI 10 st 0 (fb a) 3 off) = _
  delta decBlock; show (if _ then _ else _) = _; simp
theorem bstat (st : Stall) (d a : GReg) (off : BitVec 11) : Statement (.bstat st d a off) := by
  intro x h; cases h
  show decBlock (mkI 10 st (fb d) (fb a) 4 off) = _
  delta decBlock; show some _ = _; simp
theorem barm (st : Stall) (d a : GReg) (off : BitVec 11) : Statement (.barm st d a off) := by
  intro x h; cases h
  show decBlock (mkI 10 st (fb d) (fb a) 5 off) = _
  delta decBlock; show some _ = _; simp
theorem bpois (st : Stall) (a : GReg) (off : BitVec 11) : Statement (.bpois st a off) := by
  intro x h; cases h
  show decBlock (mkI 10 st 0 (fb a) 6 off) = _
  delta decBlock; show (if _ then _ else _) = _; simp
theorem bfill (st : Stall) (d a : GReg) (off : BitVec 11) : Statement (.bfill st d a off) := by
  intro x h; cases h
  show decBlock (mkI 10 st (fb d) (fb a) 7 off) = _
  delta decBlock; show some _ = _; simp
theorem cld (st : Stall) (ord : Ord) (disp : BitVec 3) (d a : GReg) : Statement (.cld st ord disp d a) := by
  intro x h; cases h
  show decCell (mkR 11 st (fb d) (fb a) 0 0 disp ord.code) = _
  delta decCell; rw [mkR_fn]; show (if _ then _ else _) = _; simp
theorem cst (st : Stall) (ord : Ord) (disp : BitVec 3) (a b : GReg) : Statement (.cst st ord disp a b) := by
  intro x h; cases h
  show decCell (mkR 11 st 0 (fb a) (fb b) 1 disp ord.code) = _
  delta decCell; rw [mkR_fn]; show (if _ then _ else _) = _; simp
theorem cadd (st : Stall) (ord : Ord) (disp : BitVec 3) (d a b : GReg) : Statement (.cadd st ord disp d a b) := by
  intro x h; cases h
  show decCell (mkR 11 st (fb d) (fb a) (fb b) 2 disp ord.code) = _
  delta decCell; rw [mkR_fn]; show some _ = _; simp
theorem cmin (st : Stall) (ord : Ord) (disp : BitVec 3) (d a b : GReg) : Statement (.cmin st ord disp d a b) := by
  intro x h; cases h
  show decCell (mkR 11 st (fb d) (fb a) (fb b) 3 disp ord.code) = _
  delta decCell; rw [mkR_fn]; show some _ = _; simp
theorem cmax (st : Stall) (ord : Ord) (disp : BitVec 3) (d a b : GReg) : Statement (.cmax st ord disp d a b) := by
  intro x h; cases h
  show decCell (mkR 11 st (fb d) (fb a) (fb b) 4 disp ord.code) = _
  delta decCell; rw [mkR_fn]; show some _ = _; simp
theorem cminu (st : Stall) (ord : Ord) (disp : BitVec 3) (d a b : GReg) : Statement (.cminu st ord disp d a b) := by
  intro x h; cases h
  show decCell (mkR 11 st (fb d) (fb a) (fb b) 5 disp ord.code) = _
  delta decCell; rw [mkR_fn]; show some _ = _; simp
theorem cmaxu (st : Stall) (ord : Ord) (disp : BitVec 3) (d a b : GReg) : Statement (.cmaxu st ord disp d a b) := by
  intro x h; cases h
  show decCell (mkR 11 st (fb d) (fb a) (fb b) 6 disp ord.code) = _
  delta decCell; rw [mkR_fn]; show some _ = _; simp
theorem cand (st : Stall) (ord : Ord) (disp : BitVec 3) (d a b : GReg) : Statement (.cand st ord disp d a b) := by
  intro x h; cases h
  show decCell (mkR 11 st (fb d) (fb a) (fb b) 7 disp ord.code) = _
  delta decCell; rw [mkR_fn]; show some _ = _; simp
theorem cor (st : Stall) (ord : Ord) (disp : BitVec 3) (d a b : GReg) : Statement (.cor st ord disp d a b) := by
  intro x h; cases h
  show decCell (mkR 11 st (fb d) (fb a) (fb b) 8 disp ord.code) = _
  delta decCell; rw [mkR_fn]; show some _ = _; simp
theorem cxor (st : Stall) (ord : Ord) (disp : BitVec 3) (d a b : GReg) : Statement (.cxor st ord disp d a b) := by
  intro x h; cases h
  show decCell (mkR 11 st (fb d) (fb a) (fb b) 9 disp ord.code) = _
  delta decCell; rw [mkR_fn]; show some _ = _; simp
theorem cxchg (st : Stall) (ord : Ord) (disp : BitVec 3) (d a b : GReg) : Statement (.cxchg st ord disp d a b) := by
  intro x h; cases h
  show decCell (mkR 11 st (fb d) (fb a) (fb b) 10 disp ord.code) = _
  delta decCell; rw [mkR_fn]; show some _ = _; simp
theorem ccas (st : Stall) (ord : Ord) (disp : BitVec 3) (d a b : GReg) : Statement (.ccas st ord disp d a b) := by
  intro x h; cases h
  show decCell (mkR 11 st (fb d) (fb a) (fb b) 11 disp ord.code) = _
  delta decCell; rw [mkR_fn]; show some _ = _; simp
theorem cdecf (st : Stall) (ord : Ord) (disp : BitVec 3) (d a : GReg) : Statement (.cdecf st ord disp d a) := by
  intro x h; cases h
  show decCell (mkR 11 st (fb d) (fb a) 0 12 disp ord.code) = _
  delta decCell; rw [mkR_fn]; show (if _ then _ else _) = _; simp
theorem fence (st : Stall) (kind : FenceKind) (scope : Scope) (a : GReg) : Statement (.fence st kind scope a) := by
  intro x h; cases h
  show decSync (mkI 12 st 0 (fb a) 0 (0#6 ++ scope.code ++ kind.code)) = _
  delta decSync; show (if _ then _ else _) = _; simp
theorem tbar (st : Stall) : Statement (.tbar st) := by
  intro x h; cases h
  show decSync (mkI 12 st 0 0 1 0) = _
  delta decSync; show (if _ then _ else _) = _; simp
theorem sync (st : Stall) : Statement (.sync st) := by
  intro x h; cases h
  show decSync (mkI 12 st 0 0 2 0) = _
  delta decSync; show (if _ then _ else _) = _; simp
theorem yield (st : Stall) : Statement (.yield st) := by
  intro x h; cases h
  show decSync (mkI 12 st 0 0 3 0) = _
  delta decSync; show (if _ then _ else _) = _; simp
theorem tend (st : Stall) : Statement (.tend st) := by
  intro x h; cases h
  show decSync (mkI 12 st 0 0 4 0) = _
  delta decSync; show (if _ then _ else _) = _; simp
theorem spawn (st : Stall) (d a : GReg) (imm : BitVec 11) : Statement (.spawn st d a imm) := by
  intro x h; cases h
  show decSync (mkI 12 st (fb d) (fb a) 5 imm) = _
  delta decSync; show some _ = _; simp
theorem phase (st : Stall) (d : GReg) : Statement (.phase st d) := by
  intro x h; cases h
  show decSync (mkI 12 st (fb d) 0 6 0) = _
  delta decSync; show (if _ then _ else _) = _; simp
theorem await (st : Stall) (d a : GReg) (imm : BitVec 11) : Statement (.await st d a imm) := by
  intro x h; cases h
  show decSync (mkI 12 st (fb d) (fb a) 7 imm) = _
  delta decSync; show some _ = _; simp
theorem abinit (st : Stall) (d a : GReg) (imm : BitVec 11) : Statement (.abinit st d a imm) := by
  intro x h; cases h
  show decSync (mkI 12 st (fb d) (fb a) 8 imm) = _
  delta decSync; show some _ = _; simp
theorem eli (st : Stall) (d : EReg) (pos : Fin 6) (imm : BitVec 11) : Statement (.eli st d pos imm) := by
  intro x h; cases h
  show decExt (mkI 13 st (fb d) (fb pos) 0 imm) = _
  delta decExt; show (_ >>= _) = _; simp
theorem emov (st : Stall) (d : EReg) (a : GReg) : Statement (.emov st d a) := by
  intro x h; cases h
  show decExt (mkI 13 st (fb d) (fb a) 1 0) = _
  delta decExt; show (if _ then _ else _) = _; simp
theorem emovg (st : Stall) (d : GReg) (a : EReg) : Statement (.emovg st d a) := by
  intro x h; cases h
  show decExt (mkI 13 st (fb d) (fb a) 2 0) = _
  delta decExt; show (if _ then _ else _) = _; simp
theorem vadd (st : Stall) (ty : VType) (rm : RmField) (d a b : VReg) (k : KReg) (z : Bool) : Statement (.vadd st ty rm d a b k z) := by
  intro x h; cases h
  show decVAlu (mkV 14 st (fb d) (fb a) (fb b) (fb k) z 0 ty.code rm.code) = _
  delta decVAlu; rw [mkV_f6]; show some _ = _; simp
theorem vsub (st : Stall) (ty : VType) (rm : RmField) (d a b : VReg) (k : KReg) (z : Bool) : Statement (.vsub st ty rm d a b k z) := by
  intro x h; cases h
  show decVAlu (mkV 14 st (fb d) (fb a) (fb b) (fb k) z 1 ty.code rm.code) = _
  delta decVAlu; rw [mkV_f6]; show some _ = _; simp
theorem vmul (st : Stall) (ty : VType) (rm : RmField) (d a b : VReg) (k : KReg) (z : Bool) : Statement (.vmul st ty rm d a b k z) := by
  intro x h; cases h
  show decVAlu (mkV 14 st (fb d) (fb a) (fb b) (fb k) z 2 ty.code rm.code) = _
  delta decVAlu; rw [mkV_f6]; show some _ = _; simp
theorem vfma (st : Stall) (ty : VType) (rm : RmField) (d a b : VReg) (k : KReg) (z : Bool) : Statement (.vfma st ty rm d a b k z) := by
  intro x h; cases h
  show decVAlu (mkV 14 st (fb d) (fb a) (fb b) (fb k) z 3 ty.code rm.code) = _
  delta decVAlu; rw [mkV_f6]; show some _ = _; simp
theorem vfms (st : Stall) (ty : VType) (rm : RmField) (d a b : VReg) (k : KReg) (z : Bool) : Statement (.vfms st ty rm d a b k z) := by
  intro x h; cases h
  show decVAlu (mkV 14 st (fb d) (fb a) (fb b) (fb k) z 4 ty.code rm.code) = _
  delta decVAlu; rw [mkV_f6]; show some _ = _; simp
theorem vfnma (st : Stall) (ty : VType) (rm : RmField) (d a b : VReg) (k : KReg) (z : Bool) : Statement (.vfnma st ty rm d a b k z) := by
  intro x h; cases h
  show decVAlu (mkV 14 st (fb d) (fb a) (fb b) (fb k) z 5 ty.code rm.code) = _
  delta decVAlu; rw [mkV_f6]; show some _ = _; simp
theorem vmin (st : Stall) (ty : VType) (rm : RmField) (d a b : VReg) (k : KReg) (z : Bool) : Statement (.vmin st ty rm d a b k z) := by
  intro x h; cases h
  show decVAlu (mkV 14 st (fb d) (fb a) (fb b) (fb k) z 6 ty.code rm.code) = _
  delta decVAlu; rw [mkV_f6]; show some _ = _; simp
theorem vmax (st : Stall) (ty : VType) (rm : RmField) (d a b : VReg) (k : KReg) (z : Bool) : Statement (.vmax st ty rm d a b k z) := by
  intro x h; cases h
  show decVAlu (mkV 14 st (fb d) (fb a) (fb b) (fb k) z 7 ty.code rm.code) = _
  delta decVAlu; rw [mkV_f6]; show some _ = _; simp
theorem vabs (st : Stall) (ty : VType) (rm : RmField) (d a : VReg) (k : KReg) (z : Bool) : Statement (.vabs st ty rm d a k z) := by
  intro x h; cases h
  show decVAlu (mkV 14 st (fb d) (fb a) 0 (fb k) z 8 ty.code rm.code) = _
  delta decVAlu; rw [mkV_f6]; show (if _ then _ else _) = _; simp
theorem vneg (st : Stall) (ty : VType) (rm : RmField) (d a : VReg) (k : KReg) (z : Bool) : Statement (.vneg st ty rm d a k z) := by
  intro x h; cases h
  show decVAlu (mkV 14 st (fb d) (fb a) 0 (fb k) z 9 ty.code rm.code) = _
  delta decVAlu; rw [mkV_f6]; show (if _ then _ else _) = _; simp
theorem vand (st : Stall) (ty : VType) (rm : RmField) (d a b : VReg) (k : KReg) (z : Bool) : Statement (.vand st ty rm d a b k z) := by
  intro x h; cases h
  show decVAlu (mkV 14 st (fb d) (fb a) (fb b) (fb k) z 10 ty.code rm.code) = _
  delta decVAlu; rw [mkV_f6]; show some _ = _; simp
theorem vor (st : Stall) (ty : VType) (rm : RmField) (d a b : VReg) (k : KReg) (z : Bool) : Statement (.vor st ty rm d a b k z) := by
  intro x h; cases h
  show decVAlu (mkV 14 st (fb d) (fb a) (fb b) (fb k) z 11 ty.code rm.code) = _
  delta decVAlu; rw [mkV_f6]; show some _ = _; simp
theorem vxor (st : Stall) (ty : VType) (rm : RmField) (d a b : VReg) (k : KReg) (z : Bool) : Statement (.vxor st ty rm d a b k z) := by
  intro x h; cases h
  show decVAlu (mkV 14 st (fb d) (fb a) (fb b) (fb k) z 12 ty.code rm.code) = _
  delta decVAlu; rw [mkV_f6]; show some _ = _; simp
theorem vshl (st : Stall) (ty : VType) (d a b : VReg) (k : KReg) (z : Bool) : Statement (.vshl st ty d a b k z) := by
  intro x h; cases h
  show decVAlu (mkV 14 st (fb d) (fb a) (fb b) (fb k) z 13 ty.code 0) = _
  delta decVAlu; rw [mkV_f6]; show (if _ then _ else _) = _; simp
theorem vshr (st : Stall) (ty : VType) (d a b : VReg) (k : KReg) (z : Bool) : Statement (.vshr st ty d a b k z) := by
  intro x h; cases h
  show decVAlu (mkV 14 st (fb d) (fb a) (fb b) (fb k) z 14 ty.code 0) = _
  delta decVAlu; rw [mkV_f6]; show (if _ then _ else _) = _; simp
theorem vsra (st : Stall) (ty : VType) (d a b : VReg) (k : KReg) (z : Bool) : Statement (.vsra st ty d a b k z) := by
  intro x h; cases h
  show decVAlu (mkV 14 st (fb d) (fb a) (fb b) (fb k) z 15 ty.code 0) = _
  delta decVAlu; rw [mkV_f6]; show (if _ then _ else _) = _; simp
theorem vadds (st : Stall) (ty : VType) (d a b : VReg) (k : KReg) (z : Bool) : Statement (.vadds st ty d a b k z) := by
  intro x h; cases h
  show decVAlu (mkV 14 st (fb d) (fb a) (fb b) (fb k) z 16 ty.code 0) = _
  delta decVAlu; rw [mkV_f6]; show (if _ then _ else _) = _; simp
theorem vsubs (st : Stall) (ty : VType) (d a b : VReg) (k : KReg) (z : Bool) : Statement (.vsubs st ty d a b k z) := by
  intro x h; cases h
  show decVAlu (mkV 14 st (fb d) (fb a) (fb b) (fb k) z 17 ty.code 0) = _
  delta decVAlu; rw [mkV_f6]; show (if _ then _ else _) = _; simp
theorem vdot (st : Stall) (ty : VType) (rm : RmField) (d a b : VReg) (k : KReg) (z : Bool) : Statement (.vdot st ty rm d a b k z) := by
  intro x h; cases h
  show decVAlu (mkV 14 st (fb d) (fb a) (fb b) (fb k) z 18 ty.code rm.code) = _
  delta decVAlu; rw [mkV_f6]; show some _ = _; simp
theorem vbcast (st : Stall) (ty : VType) (rm : RmField) (d : VReg) (a : EReg) (k : KReg) (z : Bool) : Statement (.vbcast st ty rm d a k z) := by
  intro x h; cases h
  show decVAlu (mkV 14 st (fb d) (fb a) 0 (fb k) z 19 ty.code rm.code) = _
  delta decVAlu; rw [mkV_f6]; show (if _ then _ else _) = _; simp
theorem vext (st : Stall) (ty : VType) (rm : RmField) (d : EReg) (a : VReg) (b : EReg) : Statement (.vext st ty rm d a b) := by
  intro x h; cases h
  show decVAlu (mkV 14 st (fb d) (fb a) (fb b) 0 false 20 ty.code rm.code) = _
  delta decVAlu; rw [mkV_f6]; show (if _ then _ else _) = _; simp
theorem vins (st : Stall) (ty : VType) (rm : RmField) (d : VReg) (a b : EReg) : Statement (.vins st ty rm d a b) := by
  intro x h; cases h
  show decVAlu (mkV 14 st (fb d) (fb a) (fb b) 0 false 21 ty.code rm.code) = _
  delta decVAlu; rw [mkV_f6]; show (if _ then _ else _) = _; simp
theorem vmov (st : Stall) (ty : VType) (rm : RmField) (d a : VReg) (k : KReg) (z : Bool) : Statement (.vmov st ty rm d a k z) := by
  intro x h; cases h
  show decVAlu (mkV 14 st (fb d) (fb a) 0 (fb k) z 22 ty.code rm.code) = _
  delta decVAlu; rw [mkV_f6]; show (if _ then _ else _) = _; simp
theorem vrcp (st : Stall) (ty : VType) (rm : RmField) (d a : VReg) (k : KReg) (z : Bool) : Statement (.vrcp st ty rm d a k z) := by
  intro x h; cases h
  show decVFn (mkV 15 st (fb d) (fb a) 0 (fb k) z 0 ty.code rm.code) = _
  delta decVFn; rw [mkV_f6]; show (if _ then _ else _) = _; simp
theorem vrsq (st : Stall) (ty : VType) (rm : RmField) (d a : VReg) (k : KReg) (z : Bool) : Statement (.vrsq st ty rm d a k z) := by
  intro x h; cases h
  show decVFn (mkV 15 st (fb d) (fb a) 0 (fb k) z 1 ty.code rm.code) = _
  delta decVFn; rw [mkV_f6]; show (if _ then _ else _) = _; simp
theorem vsqrt (st : Stall) (ty : VType) (rm : RmField) (d a : VReg) (k : KReg) (z : Bool) : Statement (.vsqrt st ty rm d a k z) := by
  intro x h; cases h
  show decVFn (mkV 15 st (fb d) (fb a) 0 (fb k) z 2 ty.code rm.code) = _
  delta decVFn; rw [mkV_f6]; show (if _ then _ else _) = _; simp
theorem vexp2 (st : Stall) (ty : VType) (rm : RmField) (d a : VReg) (k : KReg) (z : Bool) : Statement (.vexp2 st ty rm d a k z) := by
  intro x h; cases h
  show decVFn (mkV 15 st (fb d) (fb a) 0 (fb k) z 3 ty.code rm.code) = _
  delta decVFn; rw [mkV_f6]; show (if _ then _ else _) = _; simp
theorem vlog2 (st : Stall) (ty : VType) (rm : RmField) (d a : VReg) (k : KReg) (z : Bool) : Statement (.vlog2 st ty rm d a k z) := by
  intro x h; cases h
  show decVFn (mkV 15 st (fb d) (fb a) 0 (fb k) z 4 ty.code rm.code) = _
  delta decVFn; rw [mkV_f6]; show (if _ then _ else _) = _; simp
theorem vdiv (st : Stall) (ty : VType) (rm : RmField) (d a b : VReg) (k : KReg) (z : Bool) : Statement (.vdiv st ty rm d a b k z) := by
  intro x h; cases h
  show decVFn (mkV 15 st (fb d) (fb a) (fb b) (fb k) z 5 ty.code rm.code) = _
  delta decVFn; rw [mkV_f6]; show some _ = _; simp
theorem vcmpeq (st : Stall) (ty : VType) (d : KReg) (a b : VReg) (k : KReg) (z : Bool) : Statement (.vcmpeq st ty d a b k z) := by
  intro x h; cases h
  show decVFn (mkV 15 st (fb d) (fb a) (fb b) (fb k) z 6 ty.code 0) = _
  delta decVFn; rw [mkV_f6]; show (if _ then _ else _) = _; simp
theorem vcmpne (st : Stall) (ty : VType) (d : KReg) (a b : VReg) (k : KReg) (z : Bool) : Statement (.vcmpne st ty d a b k z) := by
  intro x h; cases h
  show decVFn (mkV 15 st (fb d) (fb a) (fb b) (fb k) z 7 ty.code 0) = _
  delta decVFn; rw [mkV_f6]; show (if _ then _ else _) = _; simp
theorem vcmplt (st : Stall) (ty : VType) (d : KReg) (a b : VReg) (k : KReg) (z : Bool) : Statement (.vcmplt st ty d a b k z) := by
  intro x h; cases h
  show decVFn (mkV 15 st (fb d) (fb a) (fb b) (fb k) z 8 ty.code 0) = _
  delta decVFn; rw [mkV_f6]; show (if _ then _ else _) = _; simp
theorem vcmple (st : Stall) (ty : VType) (d : KReg) (a b : VReg) (k : KReg) (z : Bool) : Statement (.vcmple st ty d a b k z) := by
  intro x h; cases h
  show decVFn (mkV 15 st (fb d) (fb a) (fb b) (fb k) z 9 ty.code 0) = _
  delta decVFn; rw [mkV_f6]; show (if _ then _ else _) = _; simp
theorem vsel (st : Stall) (ty : VType) (d a b : VReg) (k : KReg) : Statement (.vsel st ty d a b k) := by
  intro x h; cases h
  show decVFn (mkV 15 st (fb d) (fb a) (fb b) (fb k) false 10 ty.code 0) = _
  delta decVFn; rw [mkV_f6]; show (if _ then _ else _) = _; simp
theorem vclass (st : Stall) (ty : VType) (d a : VReg) (k : KReg) (z : Bool) : Statement (.vclass st ty d a k z) := by
  intro x h; cases h
  show decVFn (mkV 15 st (fb d) (fb a) 0 (fb k) z 11 ty.code 0) = _
  delta decVFn; rw [mkV_f6]; show (if _ then _ else _) = _; simp
theorem vcvt (st : Stall) (dst src : VType) (rm : RmField) (d a : VReg) (part : Fin 4) (z : Bool) : Statement (.vcvt st dst src rm d a part z) := by
  intro x h; cases h
  show decVCvt (mkV 16 st (fb d) (fb a) src.code (fb part) z 0 dst.code rm.code) = _
  delta decVCvt; rw [mkV_f6]; show some _ = _; simp
theorem vqdx (st : Stall) (rm : RmField) (d a b : VReg) : Statement (.vqdx st rm d a b) := by
  intro x h; cases h
  show decVCvt (mkV 16 st (fb d) (fb a) (fb b) 0 false 1 2 rm.code) = _
  delta decVCvt; rw [mkV_f6]; show (if _ then _ else _) = _; simp
theorem vdq (st : Stall) (d a b : VReg) : Statement (.vdq st d a b) := by
  intro x h; cases h
  show decVCvt (mkV 16 st (fb d) (fb a) (fb b) 0 false 2 2 0) = _
  delta decVCvt; rw [mkV_f6]; show (if _ then _ else _) = _; simp
theorem vqmx (st : Stall) (rm : RmField) (d a b : VReg) : Statement (.vqmx st rm d a b) := by
  intro x h; cases h
  show decVCvt (mkV 16 st (fb d) (fb a) (fb b) 0 false 3 2 rm.code) = _
  delta decVCvt; rw [mkV_f6]; show (if _ then _ else _) = _; simp
theorem vpack (st : Stall) (rm : RmField) (d a : VReg) : Statement (.vpack st rm d a) := by
  intro x h; cases h
  show decVCvt (mkV 16 st (fb d) (fb a) 0 0 false 4 2 rm.code) = _
  delta decVCvt; rw [mkV_f6]; show (if _ then _ else _) = _; simp
theorem vunpk (st : Stall) (d a : VReg) : Statement (.vunpk st d a) := by
  intro x h; cases h
  show decVCvt (mkV 16 st (fb d) (fb a) 0 0 false 5 2 0) = _
  delta decVCvt; rw [mkV_f6]; show (if _ then _ else _) = _; simp
theorem vperm (st : Stall) (ty : VType) (d a b : VReg) (k : KReg) (z : Bool) : Statement (.vperm st ty d a b k z) := by
  intro x h; cases h
  show decVPerm (mkV 17 st (fb d) (fb a) (fb b) (fb k) z 0 ty.code 0) = _
  delta decVPerm; rw [mkV_f6]; show (if _ then _ else _) = _; simp
theorem vrot (st : Stall) (ty : VType) (d a : VReg) (b : EReg) (k : KReg) (z : Bool) : Statement (.vrot st ty d a b k z) := by
  intro x h; cases h
  show decVPerm (mkV 17 st (fb d) (fb a) (fb b) (fb k) z 1 ty.code 0) = _
  delta decVPerm; rw [mkV_f6]; show (if _ then _ else _) = _; simp
theorem vred (st : Stall) (ty : VType) (op : RedOp) (rm : RmField) (d a : VReg) (k : KReg) (z : Bool) : Statement (.vred st ty op rm d a k z) := by
  intro x h; cases h
  show decVPerm (mkV 17 st (fb d) (fb a) op.code (fb k) z 2 ty.code rm.code) = _
  delta decVPerm; rw [mkV_f6]; show (_ >>= _) = _; simp
theorem vscan (st : Stall) (ty : VType) (op : RedOp) (rm : RmField) (d a : VReg) (k : KReg) (z : Bool) : Statement (.vscan st ty op rm d a k z) := by
  intro x h; cases h
  show decVPerm (mkV 17 st (fb d) (fb a) op.code (fb k) z 3 ty.code rm.code) = _
  delta decVPerm; rw [mkV_f6]; show (_ >>= _) = _; simp
theorem vcompr (st : Stall) (ty : VType) (d a : VReg) (k : KReg) (z : Bool) : Statement (.vcompr st ty d a k z) := by
  intro x h; cases h
  show decVPerm (mkV 17 st (fb d) (fb a) 0 (fb k) z 4 ty.code 0) = _
  delta decVPerm; rw [mkV_f6]; show (if _ then _ else _) = _; simp
theorem viota (st : Stall) (d : VReg) (k : KReg) (z : Bool) : Statement (.viota st d k z) := by
  intro x h; cases h
  show decVPerm (mkV 17 st (fb d) 0 0 (fb k) z 5 0 0) = _
  delta decVPerm; rw [mkV_f6]; show (if _ then _ else _) = _; simp
theorem vld (st : Stall) (v : VReg) (a : GReg) (off : BitVec 11) : Statement (.vld st v a off) := by
  intro x h; cases h
  show decVMem (mkI 18 st (fb v) (fb a) 0 off) = _
  delta decVMem; rw [show (mkI 18 st (fb v) (fb a) 0 off).d = fb v from rfl, eOf4_fb]; show some _ = _; simp
theorem vst (st : Stall) (v : VReg) (a : GReg) (off : BitVec 11) : Statement (.vst st v a off) := by
  intro x h; cases h
  show decVMem (mkI 18 st (fb v) (fb a) 1 off) = _
  delta decVMem; rw [show (mkI 18 st (fb v) (fb a) 1 off).d = fb v from rfl, eOf4_fb]; show some _ = _; simp
theorem vlds (st : Stall) (v : VReg) (a : GReg) (off : BitVec 11) : Statement (.vlds st v a off) := by
  intro x h; cases h
  show decVMem (mkI 18 st (fb v) (fb a) 2 off) = _
  delta decVMem; rw [show (mkI 18 st (fb v) (fb a) 2 off).d = fb v from rfl, eOf4_fb]; show some _ = _; simp
theorem vsts (st : Stall) (v : VReg) (a : GReg) (off : BitVec 11) : Statement (.vsts st v a off) := by
  intro x h; cases h
  show decVMem (mkI 18 st (fb v) (fb a) 3 off) = _
  delta decVMem; rw [show (mkI 18 st (fb v) (fb a) 3 off).d = fb v from rfl, eOf4_fb]; show some _ = _; simp
theorem vgath (st : Stall) (v : VReg) (a : GReg) (off : BitVec 11) : Statement (.vgath st v a off) := by
  intro x h; cases h
  show decVMem (mkI 18 st (fb v) (fb a) 4 off) = _
  delta decVMem; rw [show (mkI 18 st (fb v) (fb a) 4 off).d = fb v from rfl, eOf4_fb]; show some _ = _; simp
theorem vscat (st : Stall) (v : VReg) (a : GReg) (off : BitVec 11) : Statement (.vscat st v a off) := by
  intro x h; cases h
  show decVMem (mkI 18 st (fb v) (fb a) 5 off) = _
  delta decVMem; rw [show (mkI 18 st (fb v) (fb a) 5 off).d = fb v from rfl, eOf4_fb]; show some _ = _; simp
theorem kand (st : Stall) (d a b : KReg) : Statement (.kand st d a b) := by
  intro x h; cases h
  show decVMask (mkR 19 st (fb d) (fb a) (fb b) 0 0 0) = _
  delta decVMask; rw [mkR_fn]; show (if _ then _ else _) = _; simp
theorem kor (st : Stall) (d a b : KReg) : Statement (.kor st d a b) := by
  intro x h; cases h
  show decVMask (mkR 19 st (fb d) (fb a) (fb b) 1 0 0) = _
  delta decVMask; rw [mkR_fn]; show (if _ then _ else _) = _; simp
theorem kxor (st : Stall) (d a b : KReg) : Statement (.kxor st d a b) := by
  intro x h; cases h
  show decVMask (mkR 19 st (fb d) (fb a) (fb b) 2 0 0) = _
  delta decVMask; rw [mkR_fn]; show (if _ then _ else _) = _; simp
theorem knot (st : Stall) (d a : KReg) : Statement (.knot st d a) := by
  intro x h; cases h
  show decVMask (mkR 19 st (fb d) (fb a) 0 3 0 0) = _
  delta decVMask; rw [mkR_fn]; show (if _ then _ else _) = _; simp
theorem kpop (st : Stall) (d : GReg) (a : KReg) : Statement (.kpop st d a) := by
  intro x h; cases h
  show decVMask (mkR 19 st (fb d) (fb a) 0 4 0 0) = _
  delta decVMask; rw [mkR_fn]; show (if _ then _ else _) = _; simp
theorem kmov (st : Stall) (d : KReg) (a : GReg) : Statement (.kmov st d a) := by
  intro x h; cases h
  show decVMask (mkR 19 st (fb d) (fb a) 0 5 0 0) = _
  delta decVMask; rw [mkR_fn, mkR_mod3]; show (if _ then (_ >>= _) else _) = _; simp
theorem kmovG (st : Stall) (d : GReg) (a : KReg) : Statement (.kmovG st d a) := by
  intro x h; cases h
  show decVMask (mkR 19 st (fb d) (fb a) 0 5 1 0) = _
  delta decVMask; rw [mkR_fn, mkR_mod3]; show (if _ then (_ >>= _) else _) = _; simp
theorem mzero (st : Stall) (n : AccReg) : Statement (.mzero st n) := by
  intro x h; cases h
  show decMatrix (mkE 20 st 0 0 (fb n) false 0 0) = _
  delta decMatrix; rw [mkE_f6]; show (if _ then (if _ then _ else _) else _) = _; simp
theorem mld (st : Stall) (n : AccReg) (a : GReg) : Statement (.mld st n a) := by
  intro x h; cases h
  show decMatrix (mkE 20 st (fb a) 0 (fb n) false 1 0) = _
  delta decMatrix; rw [mkE_f6]; show (if _ then (if _ then _ else _) else _) = _; simp
theorem mst (st : Stall) (n : AccReg) (a : GReg) : Statement (.mst st n a) := by
  intro x h; cases h
  show decMatrix (mkE 20 st (fb a) 0 (fb n) false 2 0) = _
  delta decMatrix; rw [mkE_f6]; show (if _ then (if _ then _ else _) else _) = _; simp
theorem mma (st : Stall) (n : AccReg) (a b : GReg) (z : Bool) : Statement (.mma st n a b z) := by
  intro x h; cases h
  show decMatrix (mkE 20 st (fb a) (fb b) (fb n) z 3 0) = _
  delta decMatrix; rw [mkE_f6]; show (if _ then some _ else _) = _; simp
theorem mmat (st : Stall) (n : AccReg) (a b : GReg) (z : Bool) : Statement (.mmat st n a b z) := by
  intro x h; cases h
  show decMatrix (mkE 20 st (fb a) (fb b) (fb n) z 4 0) = _
  delta decMatrix; rw [mkE_f6]; show (if _ then some _ else _) = _; simp
theorem mmas (st : Stall) (n : AccReg) (a b : GReg) (z : Bool) : Statement (.mmas st n a b z) := by
  intro x h; cases h
  show decMatrix (mkE 20 st (fb a) (fb b) (fb n) z 5 0) = _
  delta decMatrix; rw [mkE_f6]; show (if _ then some _ else _) = _; simp
theorem macc (st : Stall) (n src : AccReg) : Statement (.macc st n src) := by
  intro x h; cases h
  show decMatrix (mkE 20 st (fb src) 0 (fb n) false 6 0) = _
  delta decMatrix; rw [mkE_f6]; show (if _ then (if _ then _ else _) else _) = _; simp
theorem mwait (st : Stall) (n : AccReg) : Statement (.mwait st n) := by
  intro x h; cases h
  show decMatrix (mkE 20 st 0 0 (fb n) false 7 0) = _
  delta decMatrix; rw [mkE_f6]; show (if _ then (if _ then _ else _) else _) = _; simp
theorem mwaitAll (st : Stall) : Statement (.mwaitAll st) := by
  intro x h; cases h
  show decMatrix (mkE 20 st 0 0 0 true 7 0) = _
  delta decMatrix; rw [mkE_f6]; show (if _ then (if _ then _ else _) else _) = _; simp
theorem mstat (st : Stall) (d : GReg) (n : AccReg) (clr : Bool) : Statement (.mstat st d n clr) := by
  intro x h; cases h
  show decMatrix (mkE 20 st (fb d) 0 (fb n) clr 8 0) = _
  delta decMatrix; rw [mkE_f6]; show (if _ then (if _ then _ else _) else _) = _; simp
theorem xsend (st : Stall) (a b : GReg) : Statement (.xsend st a b) := by
  intro x h; cases h
  show decXfer (mkE 21 st (fb a) (fb b) 0 false 0 0) = _
  delta decXfer; rw [mkE_f6]; show (if _ then _ else _) = _; simp
theorem xmcast (st : Stall) (a b : GReg) : Statement (.xmcast st a b) := by
  intro x h; cases h
  show decXfer (mkE 21 st (fb a) (fb b) 0 false 1 0) = _
  delta decXfer; rw [mkE_f6]; show (if _ then _ else _) = _; simp
theorem xget (st : Stall) (ord : XOrd) (a b : GReg) : Statement (.xget st ord a b) := by
  intro x h; cases h
  show decXfer (mkE 21 st (fb a) (fb b) 0 false 2 ord.code) = _
  delta decXfer; rw [mkE_f6]; show (if _ then _ else _) = _; simp
theorem xput (st : Stall) (ord : XOrd) (a b : GReg) : Statement (.xput st ord a b) := by
  intro x h; cases h
  show decXfer (mkE 21 st (fb a) (fb b) 0 false 3 ord.code) = _
  delta decXfer; rw [mkE_f6]; show (if _ then _ else _) = _; simp
theorem xfeed (st : Stall) (ord : XOrd) (a b : GReg) : Statement (.xfeed st ord a b) := by
  intro x h; cases h
  show decXfer (mkE 21 st (fb a) (fb b) 0 false 4 ord.code) = _
  delta decXfer; rw [mkE_f6]; show (if _ then _ else _) = _; simp
theorem xcomb (st : Stall) (op : CombOp) (ord : XOrd) (a b : GReg) : Statement (.xcomb st op ord a b) := by
  intro x h; cases h
  show decXfer (mkE 21 st (fb a) (fb b) op.sub op.fl 5 ord.code) = _
  delta decXfer; rw [mkE_f6]; show (_ >>= _) = _; simp
theorem xroute (st : Stall) (a b : GReg) : Statement (.xroute st a b) := by
  intro x h; cases h
  show decXfer (mkE 21 st (fb a) (fb b) 0 false 6 0) = _
  delta decXfer; rw [mkE_f6]; show (if _ then _ else _) = _; simp
theorem xclose (st : Stall) : Statement (.xclose st) := by
  intro x h; cases h
  show decXfer (mkE 21 st 0 0 0 false 7 0) = _
  delta decXfer; rw [mkE_f6]; show (if _ then _ else _) = _; simp
theorem xrecv (st : Stall) (a : GReg) : Statement (.xrecv st a) := by
  intro x h; cases h
  show decXfer (mkE 21 st (fb a) 0 0 false 8 0) = _
  delta decXfer; rw [mkE_f6]; show (if _ then _ else _) = _; simp
theorem xrecvRoute (st : Stall) (a : GReg) : Statement (.xrecvRoute st a) := by
  intro x h; cases h
  show decXfer (mkE 21 st (fb a) 0 0 true 8 0) = _
  delta decXfer; rw [mkE_f6]; show (if _ then _ else _) = _; simp
theorem xend (st : Stall) : Statement (.xend st) := by
  intro x h; cases h
  show decXctl (mkE 22 st 0 0 0 false 0 0) = _
  delta decXctl; rw [mkE_f6]; show (if _ then _ else _) = _; simp
theorem xwait (st : Stall) (a : GReg) : Statement (.xwait st a) := by
  intro x h; cases h
  show decXctl (mkE 22 st (fb a) 0 0 false 1 0) = _
  delta decXctl; rw [mkE_f6]; show (if _ then _ else _) = _; simp
theorem xwaitRecv (st : Stall) (a : GReg) : Statement (.xwaitRecv st a) := by
  intro x h; cases h
  show decXctl (mkE 22 st (fb a) 0 0 true 1 0) = _
  delta decXctl; rw [mkE_f6]; show (if _ then _ else _) = _; simp
theorem pitch (st : Stall) (ord : XOrd) (b : GReg) : Statement (.pitch st ord b) := by
  intro x h; cases h
  show decInvoke (mkE 23 st 0 (fb b) 0 false 0 ord.code) = _
  delta decInvoke; rw [mkE_f6]; show (if _ then _ else _) = _; simp
theorem pitchq (st : Stall) (ord : XOrd) (a b : GReg) : Statement (.pitchq st ord a b) := by
  intro x h; cases h
  show decInvoke (mkE 23 st (fb a) (fb b) 0 false 1 ord.code) = _
  delta decInvoke; rw [mkE_f6]; show (if _ then _ else _) = _; simp
theorem mfc (st : Stall) (d : GReg) (cw : BitVec 11) : Statement (.mfc st d cw) := by
  intro x h; cases h
  show decSys (mkI 24 st (fb d) 0 0 cw) = _
  delta decSys; show (if _ then _ else _) = _; simp
theorem mtc (st : Stall) (cw : BitVec 11) (a : GReg) : Statement (.mtc st cw a) := by
  intro x h; cases h
  show decSys (mkI 24 st 0 (fb a) 1 cw) = _
  delta decSys; show (if _ then _ else _) = _; simp
theorem rdcyc (st : Stall) (d : GReg) : Statement (.rdcyc st d) := by
  intro x h; cases h
  show decSys (mkI 24 st (fb d) 0 2 0) = _
  delta decSys; show (if _ then _ else _) = _; simp
theorem rdret (st : Stall) (d : GReg) : Statement (.rdret st d) := by
  intro x h; cases h
  show decSys (mkI 24 st (fb d) 0 3 0) = _
  delta decSys; show (if _ then _ else _) = _; simp
theorem jlog (st : Stall) (d a : GReg) (w : Fin 3) (ret : Bool) : Statement (.jlog st d a w ret) := by
  intro x h; cases h
  show decSys (mkI 24 st (fb d) (fb a) 4 ((0#8 ++ BitVec.ofBool ret ++ ((fb w) : BitVec 2) : BitVec 11))) = _
  delta decSys; show (if _ then _ else _) = _; simp
theorem ptst (st : Stall) (d a : GReg) : Statement (.ptst st d a) := by
  intro x h; cases h
  show decSys (mkI 24 st (fb d) (fb a) 5 0) = _
  delta decSys; show some _ = _; simp
theorem ptstV (st : Stall) (d : GReg) (a : VReg) : Statement (.ptstV st d a) := by
  intro x h; cases h
  show decSys (mkI 24 st (fb d) (fb a) 5 1) = _
  delta decSys; show (_ >>= _) = _; simp
theorem ptstAcc (st : Stall) (d : GReg) (a : AccReg) : Statement (.ptstAcc st d a) := by
  intro x h; cases h
  show decSys (mkI 24 st (fb d) (fb a) 5 2) = _
  delta decSys; show (_ >>= _) = _; simp
theorem tagget (st : Stall) (d a : GReg) (imm : BitVec 11) : Statement (.tagget st d a imm) := by
  intro x h; cases h
  show decSys (mkI 24 st (fb d) (fb a) 6 imm) = _
  delta decSys; show some _ = _; simp
theorem tagset (st : Stall) (d a : GReg) (imm : BitVec 11) : Statement (.tagset st d a imm) := by
  intro x h; cases h
  show decSys (mkI 24 st (fb d) (fb a) 7 imm) = _
  delta decSys; show some _ = _; simp
theorem idle (st : Stall) (d a : GReg) : Statement (.idle st d a) := by
  intro x h; cases h
  show decSys (mkI 24 st (fb d) (fb a) 8 0) = _
  delta decSys; show (if _ then _ else _) = _; simp
theorem hnote (st : Stall) (d a : GReg) (code : BitVec 11) : Statement (.hnote st d a code) := by
  intro x h; cases h
  show decSys (mkI 24 st (fb d) (fb a) 9 code) = _
  delta decSys; show some _ = _; simp
theorem trap (st : Stall) (a : GReg) (code : BitVec 11) : Statement (.trap st a code) := by
  intro x h; cases h
  show decTrap (mkI 25 st 0 (fb a) 0 code) = _
  delta decTrap; show (if _ then _ else _) = _; simp
theorem eret (st : Stall) : Statement (.eret st) := by
  intro x h; cases h
  show decTrap (mkI 25 st 0 0 1 0) = _
  delta decTrap; show (if _ then some _ else _) = _; simp
theorem eretEnd (st : Stall) : Statement (.eretEnd st) := by
  intro x h; cases h
  show decTrap (mkI 25 st 0 0 1 1) = _
  delta decTrap; show (if _ then some _ else _) = _; simp
theorem brk (st : Stall) (code : BitVec 11) : Statement (.brk st code) := by
  intro x h; cases h
  show decTrap (mkI 25 st 0 0 2 code) = _
  delta decTrap; show (if _ then _ else _) = _; simp
theorem cIll (d a : BitVec 4) (f2 : BitVec 2) : Statement (.cIll d a f2) := by
  intro x h; cases h
  show some _ = _; simp
theorem cAdd (st : Stall) (d a : GReg) : Statement (.cAdd st d a) := by
  intro x h; cases h
  show some _ = _; simp
theorem cSub (st : Stall) (d a : GReg) : Statement (.cSub st d a) := by
  intro x h; cases h
  show some _ = _; simp
theorem cMov (st : Stall) (d a : GReg) : Statement (.cMov st d a) := by
  intro x h; cases h
  show some _ = _; simp
theorem cAnd (st : Stall) (d a : GReg) : Statement (.cAnd st d a) := by
  intro x h; cases h
  show some _ = _; simp
theorem cOr (st : Stall) (d a : GReg) : Statement (.cOr st d a) := by
  intro x h; cases h
  show some _ = _; simp
theorem cXor (st : Stall) (d a : GReg) : Statement (.cXor st d a) := by
  intro x h; cases h
  show some _ = _; simp
theorem cAddi (d : GReg) (imm : BitVec 6) : Statement (.cAddi d imm) := by
  intro x h; cases h
  show some _ = _; simp
theorem cShli (d : GReg) (imm : BitVec 6) : Statement (.cShli d imm) := by
  intro x h; cases h
  show some _ = _; simp
theorem cShri (d : GReg) (imm : BitVec 6) : Statement (.cShri d imm) := by
  intro x h; cases h
  show some _ = _; simp
theorem cLdd (d : GReg) (imm : BitVec 6) : Statement (.cLdd d imm) := by
  intro x h; cases h
  show some _ = _; simp
theorem cStd (d : GReg) (imm : BitVec 6) : Statement (.cStd d imm) := by
  intro x h; cases h
  show some _ = _; simp
theorem cBeqz (d : GReg) (imm : BitVec 6) : Statement (.cBeqz d imm) := by
  intro x h; cases h
  show some _ = _; simp
theorem cBnez (d : GReg) (imm : BitVec 6) : Statement (.cBnez d imm) := by
  intro x h; cases h
  show some _ = _; simp
theorem cJ (off : BitVec 10) : Statement (.cJ off) := by
  intro x h; cases h
  show some _ = _; simp
theorem cRet : Statement (.cRet) := by
  intro x h; cases h
  rfl
theorem resultLanding (dom rank ctx : Nat) : Statement (.resultLanding dom rank ctx) := nofun
theorem storePerform (dom rank : Nat) : Statement (.storePerform dom rank) := nofun
theorem cellPerform (dom rank : Nat) : Statement (.cellPerform dom rank) := nofun
theorem tagsetEvent (dom rank : Nat) : Statement (.tagsetEvent dom rank) := nofun
theorem vqdxListEvent (dom rank : Nat) : Statement (.vqdxListEvent dom rank) := nofun
theorem bfillCommit (dom rank ctx : Nat) : Statement (.bfillCommit dom rank ctx) := nofun
theorem trapEntry (dom rank : Nat) : Statement (.trapEntry dom rank) := nofun
theorem journal (dom rank : Nat) : Statement (.journal dom rank) := nofun
theorem waiterService (dom rank : Nat) : Statement (.waiterService dom rank) := nofun
theorem engineReadEnd (dom rank : Nat) : Statement (.engineReadEnd dom rank) := nofun
theorem matrixComputeStart (dom rank : Nat) : Statement (.matrixComputeStart dom rank) := nofun
theorem matrixComputeDone (dom rank : Nat) : Statement (.matrixComputeDone dom rank) := nofun
theorem matrixMoveStart (dom rank : Nat) : Statement (.matrixMoveStart dom rank) := nofun
theorem matrixMoveDone (dom rank : Nat) : Statement (.matrixMoveDone dom rank) := nofun
theorem mstBlockCommit (dom rank : Nat) : Statement (.mstBlockCommit dom rank) := nofun
theorem idleWake (dom rank ctx : Nat) : Statement (.idleWake dom rank ctx) := nofun
theorem voteWindowWaitEnd (dom rank : Nat) : Statement (.voteWindowWaitEnd dom rank) := nofun
theorem boundary (dom : Nat) : Statement (.boundary dom) := nofun
theorem straggler (dom : Nat) : Statement (.straggler dom) := nofun
theorem preemptDone (dom : Nat) : Statement (.preemptDone dom) := nofun
theorem restore (dom : Nat) : Statement (.restore dom) := nofun
theorem migrationStreamDone (dom : Nat) : Statement (.migrationStreamDone dom) := nofun
theorem forwardRetire (dom : Nat) : Statement (.forwardRetire dom) := nofun
theorem placementPlan : Statement (.placementPlan) := nofun
theorem placementGrant : Statement (.placementGrant) := nofun
theorem timeSliceExpiry (dom : Nat) : Statement (.timeSliceExpiry dom) := nofun
theorem releaseDrainDone (dom : Nat) : Statement (.releaseDrainDone dom) := nofun
theorem feedCommit (dom rank feed : Nat) : Statement (.feedCommit dom rank feed) := nofun
theorem routedFinish (dom rank : Nat) : Statement (.routedFinish dom rank) := nofun
theorem putArrive (msg : Nat) : Statement (.putArrive msg) := nofun
theorem getArrive (msg : Nat) : Statement (.getArrive msg) := nofun
theorem reply (msg : Nat) : Statement (.reply msg) := nofun
theorem combine (msg : Nat) : Statement (.combine msg) := nofun
theorem invoke (msg : Nat) : Statement (.invoke msg) := nofun
theorem answer (msg : Nat) : Statement (.answer msg) := nofun
theorem retryAfter (msg : Nat) : Statement (.retryAfter msg) := nofun
theorem retryTimer (msg : Nat) : Statement (.retryTimer msg) := nofun
theorem routedUnit (msg : Nat) : Statement (.routedUnit msg) := nofun
theorem closingCount (msg : Nat) : Statement (.closingCount msg) := nofun
theorem announce (pkg inc : BitVec 16) : Statement (.announce pkg inc) := nofun
theorem announcePeriodic : Statement (.announcePeriodic) := nofun
theorem requestResend (req : Nat) : Statement (.requestResend req) := nofun
theorem flitRoute : Statement (.flitRoute) := nofun
theorem starve (x y : Nat) : Statement (.starve x y) := nofun
theorem linkFlit (port : Nat) (bytes : List Byte) : Statement (.linkFlit port bytes) := nofun
theorem portRetrain (port : Nat) (ok : Bool) : Statement (.portRetrain port ok) := nofun
theorem walkComplete (walk : Nat) : Statement (.walkComplete walk) := nofun
theorem stalledRecordWrite (slice : Nat) : Statement (.stalledRecordWrite slice) := nofun
theorem invalidateComplete : Statement (.invalidateComplete) := nofun
theorem hbmWaiterService (ctl : Nat) : Statement (.hbmWaiterService ctl) := nofun
theorem scrub (ctl : Nat) : Statement (.scrub ctl) := nofun
theorem refresh (ctl : Nat) : Statement (.refresh ctl) := nofun
theorem selfRefreshEntry (pch : Nat) : Statement (.selfRefreshEntry pch) := nofun
theorem extentAdded (ext port base len : Nat) : Statement (.extentAdded ext port base len) := nofun
theorem extentReleaseRequest (ext : Nat) : Statement (.extentReleaseRequest ext) := nofun
theorem hostWrite (space : HostSpace) (addr : Nat) (bytes : List Byte) : Statement (.hostWrite space addr bytes) := nofun
theorem hostRead (space : HostSpace) (addr len : Nat) : Statement (.hostRead space addr len) := nofun
theorem cmdtail (value : Word) : Statement (.cmdtail value) := nofun
theorem direct (offset : Nat) (bytes : List Byte) : Statement (.direct offset bytes) := nofun
theorem evhead (value : Word) : Statement (.evhead value) := nofun
theorem bar0RegisterWrite (offset : Nat) (value : Word) : Statement (.bar0RegisterWrite offset value) := nofun
theorem launch : Statement (.launch) := nofun
theorem launchReenter : Statement (.launchReenter) := nofun
theorem release : Statement (.release) := nofun
theorem continueHold : Statement (.continueHold) := nofun
theorem extend : Statement (.extend) := nofun
theorem breakStragglers : Statement (.breakStragglers) := nofun
theorem faultCompleteRetry : Statement (.faultCompleteRetry) := nofun
theorem faultCompleteAbort : Statement (.faultCompleteAbort) := nofun
theorem invalidateRange : Statement (.invalidateRange) := nofun
theorem invalidatePkgid : Statement (.invalidatePkgid) := nofun
theorem tableRoot : Statement (.tableRoot) := nofun
theorem handler : Statement (.handler) := nofun
theorem memstateClear : Statement (.memstateClear) := nofun
theorem memstatePublish : Statement (.memstatePublish) := nofun
theorem slice : Statement (.slice) := nofun
theorem counterRead : Statement (.counterRead) := nofun
theorem counterReset : Statement (.counterReset) := nofun
theorem health : Statement (.health) := nofun
theorem attest : Statement (.attest) := nofun
theorem portmap : Statement (.portmap) := nofun
theorem peer : Statement (.peer) := nofun
theorem configScrub : Statement (.configScrub) := nofun
theorem configIdleEntry : Statement (.configIdleEntry) := nofun
theorem migrate : Statement (.migrate) := nofun
theorem extentReleased : Statement (.extentReleased) := nofun
theorem coldReset : Statement (.coldReset) := nofun
theorem bringUp : Statement (.bringUp) := nofun
theorem thermalTrip : Statement (.thermalTrip) := nofun
theorem throttleChange (level : Nat) : Statement (.throttleChange level) := nofun
theorem d3hotEntry : Statement (.d3hotEntry) := nofun
theorem d3coldEntry : Statement (.d3coldEntry) := nofun
theorem d0Entry : Statement (.d0Entry) := nofun
theorem illegalEncoding : Statement (.illegalEncoding) := nofun
theorem fetchBounds : Statement (.fetchBounds) := nofun
theorem handlerLockClear (dom : Nat) : Statement (.handlerLockClear dom) := nofun

end Sys2Proof.Laws.Fields
end

