-- ==== Sys2Proof/Laws/Tile.lean ====
section
/-! SUPPORT. What waking, arming, committing and clearing leave of a tile: none of them touches memory, tags or barriers, and
of the blocks only the one that they name. -/

namespace Sys2Proof.Machine

theorem foldl_keep {α β γ : Type} (f : α → γ) (g : α → β → α) (h : ∀ a b, f (g a b) = f a) (l : List β) : ∀ a, f (l.foldl g a) = f a := by
  induction l with
  | nil => intro a; rfl
  | cons b t ih => intro a; simp [List.foldl_cons, ih, h]

/-- What no wake changes. -/
structure Tile.Keeps (t u : Tile) : Prop where
  blocks : u.blocks = t.blocks
  sram : u.sram = t.sram
  tags : u.tags = t.tags
  bars : u.bars = t.bars
  pois : u.pois = t.pois

theorem Tile.Keeps.trans {t u v : Tile} (h : Tile.Keeps t u) (k : Tile.Keeps u v) : Tile.Keeps t v := ⟨k.1.trans h.1, k.2.trans h.2, k.3.trans h.3, k.4.trans h.4, k.5.trans h.5⟩

theorem Tile.Keeps.rfl (t : Tile) : Tile.Keeps t t := ⟨Eq.refl _, Eq.refl _, Eq.refl _, Eq.refl _, Eq.refl _⟩

theorem keeps_foldl {β : Type} (g : Tile → β → Tile) (h : ∀ a b, Tile.Keeps a (g a b)) (l : List β) : ∀ a, Tile.Keeps a (l.foldl g a) := by
  induction l with
  | nil => intro a; exact Tile.Keeps.rfl a
  | cons b t ih => intro a; exact (h a b).trans (ih _)

theorem keeps_setCtx (t : Tile) (i c) : Tile.Keeps t (t.setCtx i c) := ⟨rfl, rfl, rfl, rfl, rfl⟩

theorem keeps_ready (t : Tile) (n i) : Tile.Keeps t (t.ready n i) := keeps_setCtx _ _ _

theorem keeps_wake (t : Tile) (n d b) : Tile.Keeps t (t.wake n d b) := by
  unfold Tile.wake
  generalize hu : t.wakeLocals n d b = u
  refine Tile.Keeps.trans (u := u) ?_ ⟨rfl, rfl, rfl, rfl, rfl⟩
  subst hu
  unfold Tile.wakeLocals
  refine keeps_foldl _ (fun a i => ?_) _ _
  dsimp only
  split
  · split
    · exact keeps_setCtx _ _ _
    · exact keeps_ready _ _ _
  · exact Tile.Keeps.rfl _

theorem keeps_idle (t : Tile) (d r) : Tile.Keeps t (t.idleReason d r) := by
  unfold Tile.idleReason
  split
  · exact Tile.Keeps.rfl _
  · exact keeps_foldl _ (fun a i => keeps_setCtx _ _ _) _ _


theorem block_keeps {t u : Tile} (h : Tile.Keeps t u) (b : Nat) : u.block b = t.block b := by
  simp [Tile.block, h.1]

theorem keeps_commit (t : Tile) (now b : Nat) (det : Bool) :
    Tile.Keeps (t.setBlock b { t.block b with state := .full, owner := 31, armed := false }) (t.commit now det b) := by
  unfold Tile.commit
  refine Tile.Keeps.trans ?_ ((keeps_wake _ _ _ _).trans (keeps_idle _ _ _))
  dsimp only
  split
  · exact ⟨rfl, rfl, rfl, rfl, rfl⟩
  · exact Tile.Keeps.rfl _

theorem keeps_clear (t : Tile) (now b : Nat) (gen : BitVec 6) :
    Tile.Keeps ((t.setBlock b ⟨.empty, 31, false, gen⟩).clearPois b) (t.clear now b gen) := keeps_wake _ _ _ _

@[simp] theorem commit_sram (t : Tile) (now b : Nat) (det : Bool) : (t.commit now det b).sram = t.sram :=
  (keeps_commit t now b det).sram

@[simp] theorem clear_sram (t : Tile) (now b : Nat) (gen : BitVec 6) : (t.clear now b gen).sram = t.sram :=
  (keeps_clear t now b gen).sram

@[simp] theorem arm_sram (t : Tile) (b agent : Nat) : (t.arm b agent).sram = t.sram := rfl

end Sys2Proof.Machine
end

