-- ==== Sys2Proof/Tests/Slice0.lean ====
section
/-! SUPPORT. Tests: words of the manual's listings, ill-formed terms, the manual's worked examples as single steps, and
one witness for the hypotheses of each statement. -/

namespace Sys2Proof.Tests

open Sys2Proof Sys2Proof.Machine

set_option Elab.async false

section encodings

/-- The instruction that a 32-bit word stands for. -/
def word (w : Nat) : Option Instr := decodeTableWord 32 w

/-- The instruction that a 16-bit word stands for. -/
def half (w : Nat) : Option Instr := decodeTableWord 16 w

/-- R71's examples and the listings of R111, R316 and their chapter (05, Encodings). -/
theorem test_decode_alu :
    word 0x00064283 = some (.add 1 1 2 3) ∧ word 0x00000003 = some (.add 0 0 0 0)
      ∧ word 0x030ECC03 = some (.padd 0 6 6 7) ∧ word 0x12A06403 = some (.sextW 0 2 3)
      ∧ word 0x0AC64203 = some (.bfxS 0 1 2 3) := by decide +kernel

/-- R111 to R113: the three steps of a pointer constant, and ADDPC 8 bytes back. -/
theorem test_decode_immediate :
    word 0x0009AC0B = some (.lui 0 6 77) ∧ word 0x0800CC07 = some (.addi 0 6 6 64)
      ∧ word 0x0034CC07 = some (.ptagi 0 6 6 1) ∧ word 0xFFFF840F = some (.addpc 0 2 0x7FFFC)
      ∧ word 0xFFF3820F = some (.addpc 0 1 0x7FF9C) := by decide +kernel

/-- R116, R117: the listings of MUL and DIVU. -/
theorem test_decode_muldiv :
    word 0x00064313 = some (.mul 2 1 2 3) ∧ word 0x00930E13 = some (.divu 0 7 8 9) := by decide +kernel

/-- R71, R118, R120, R121: a branch of 24 bytes back and one of 40 on, and the jumps. -/
theorem test_decode_control :
    word 0xFF420817 = some (.bne 0 4 0 0xFF4) ∧ word 0x01444217 = some (.blt 0 1 2 20)
      ∧ word 0x00041E1B = some (.jal 0 15 32) ∧ word 0x0000DE1F = some (.jalr 0 15 6 0)
      ∧ word 0x0001FE1F = some (.jalr 0 15 15 0) ∧ word 0x0003E01F = some (.jr 0 15 0) := by decide +kernel

/-- R71, R125, R127: loads and stores. -/
theorem test_decode_memory :
    word 0x0047AA23 = some (.ldd 0 5 13 2) ∧ word 0x0007BF23 = some (.ldd 2 15 13 0)
      ∧ word 0x0044C623 = some (.ldw 0 3 6 2) ∧ word 0x002FA827 = some (.stp 0 4 13 1)
      ∧ word 0x0006F227 = some (.std 0 9 7 0) ∧ word 0xFFE5C623 = some (.ldw 0 3 14 0x7FF) := by decide +kernel

/-- R129 to R134: the block instructions. -/
theorem test_decode_block :
    word 0x0000C02B = some (.bopen 0 6 0) ∧ word 0x0002C02B = some (.bcommit 0 6 0)
      ∧ word 0x0024C02B = some (.bclr 0 0 6 1) ∧ word 0x00E4E02B = some (.bclr 0 0 7 7)
      ∧ word 0x0006E02B = some (.bwait 0 7 0) ∧ word 0x0008CA2B = some (.bstat 0 5 6 0)
      ∧ word 0x000983AB = some (.bstat 3 1 12 0) := by decide +kernel

/-- R136, R140 to R149, R152: CELL, SYNC and EXT. -/
theorem test_decode_cell_sync_ext :
    word 0x884EC82F = some (.cadd 0 .rel 1 4 6 7) ∧ word 0x0180CA2F = some (.cdecf 0 .relaxed 0 5 6)
      ∧ word 0x8180422F = some (.cdecf 0 .rel 0 1 2) ∧ word 0x8020C02F = some (.cst 0 .rel 0 6 0)
      ∧ word 0x01800033 = some (.fence 0 .sc .domain 0) ∧ word 0x00800033 = some (.fence 0 .sc .tile 0)
      ∧ word 0x00C00033 = some (.fence 0 .rel .tile 0) ∧ word 0x00020033 = some (.tbar 0)
      ∧ word 0x00040033 = some (.sync 0) ∧ word 0x000A4233 = some (.spawn 0 1 2 0) ∧ word 0x000C0C33 = some (.phase 0 6)
      ∧ word 0x000ECA33 = some (.await 0 5 6 0) ∧ word 0x0010CA33 = some (.abinit 0 5 6 0)
      ∧ word 0x08004037 = some (.eli 0 0 2 0x40) ∧ word 0x0002A037 = some (.emov 0 0 5) := by decide +kernel

/-- R71, R156 to R175: the vector listings. -/
theorem test_decode_vector :
    word 0x1001A23B = some (.vadd 0 .f32 .rne 1 2 3 0 false) ∧ word 0x1067583B = some (.vfma 0 .f32 .rne 4 5 6 1 false)
      ∧ word 0x38A111BB = some (.vfnma 3 .f64 .rne 0 1 2 0 false)
      ∧ word 0x38A081BF = some (.vdiv 3 .f64 .rne 0 0 1 0 false) ∧ word 0x3A8309BB = some (.vext 3 .f64 .rne 4 0 6)
      ∧ word 0x1101143F = some (.vcmplt 0 .f32 2 1 2 0 false)
      ∧ word 0x18051443 = some (.vcvt 0 .bf16x2 .f32 .rne 2 1 1 false) ∧ word 0x10238643 = some (.vqdx 0 .rne 3 0 7)
      ∧ word 0x10402247 = some (.vred 0 .f32 .add .rne 1 2 0 false) ∧ word 0x0020C44B = some (.vld 0 2 6 1)
      ∧ word 0x0002C44B = some (.vst 0 2 6 0) ∧ word 0x0004E24B = some (.vlds 0 1 7 0)
      ∧ word 0x0008C44B = some (.vgath 0 2 6 0) ∧ word 0x0006424F = some (.kand 0 1 2 3)
      ∧ word 0x08A0524F = some (.kmovG 0 9 2) := by decide +kernel

/-- R182, R187 to R196: the matrix listings. -/
theorem test_decode_matrix :
    word 0x00060053 = some (.mzero 0 3) ∧ word 0x00240C53 = some (.mld 0 2 6) ∧ word 0x0062EC53 = some (.mma 0 1 6 7 false)
      ∧ word 0x0080EC53 = some (.mmat 0 0 6 7 false) ∧ word 0x00A4EC53 = some (.mmas 0 2 6 7 false)
      ∧ word 0x00C00253 = some (.macc 0 0 1) ∧ word 0x00F00053 = some (.mwaitAll 0)
      ∧ word 0x01020A53 = some (.mstat 0 5 1 false) ∧ word 0x01120A53 = some (.mstat 0 5 1 true) := by decide +kernel

/-- R198 to R222: the listings of the transfers and of PITCH. -/
theorem test_decode_transfer :
    word 0x0000CE57 = some (.xsend 0 7 6) ∧ word 0x0020D057 = some (.xmcast 0 8 6)
      ∧ word 0xA840EC57 = some (.xget 0 (.acq .system) 6 7) ∧ word 0x9060CE57 = some (.xput 0 (.rel .package) 7 6)
      ∧ word 0x0080EC57 = some (.xfeed 0 .relaxed 6 7) ∧ word 0x30812E57 = some (.xfeed 0 (.rel .tile) 7 9)
      ∧ word 0x00A33057 = some (.xcomb 0 .min .relaxed 8 9) ∧ word 0x70B53057 = some (.xcomb 0 .fmax (.rel .domain) 8 9)
      ∧ word 0x00ACA257 = some (.xcomb 0 .or .relaxed 1 5) ∧ word 0x00A66457 = some (.xcomb 0 .minu .relaxed 2 3)
      ∧ word 0x00C0D257 = some (.xroute 0 9 6) ∧ word 0x00E00057 = some (.xclose 0) ∧ word 0x01000C57 = some (.xrecv 0 6)
      ∧ word 0x01100C57 = some (.xrecvRoute 0 6) ∧ word 0x0000005B = some (.xend 0) ∧ word 0x00200A5B = some (.xwait 0 5)
      ∧ word 0x00300A5B = some (.xwaitRecv 0 5) ∧ word 0x0000E05F = some (.pitch 0 .relaxed 7)
      ∧ word 0xB000E05F = some (.pitch 0 (.rel .system) 7) ∧ word 0x0020EA5F = some (.pitchq 0 .relaxed 5 7) := by
  decide +kernel

/-- R226 to R242: the listings of the system and trap instructions. -/
theorem test_decode_system :
    word 0x04000A63 = some (.mfc 0 5 0x20) ∧ word 0x0422C063 = some (.mtc 0 0x21 6) ∧ word 0x01222063 = some (.mtc 0 9 1)
      ∧ word 0x00040E63 = some (.rdcyc 0 7) ∧ word 0x00060E63 = some (.rdret 0 7)
      ∧ word 0x0028CA63 = some (.jlog 0 5 6 1 false) ∧ word 0x0088CA63 = some (.jlog 0 5 6 0 true)
      ∧ word 0x002A4A63 = some (.ptstV 0 5 2) ∧ word 0x080CCA63 = some (.tagget 0 5 6 64)
      ∧ word 0x000ECA63 = some (.tagset 0 5 6 0) ∧ word 0x0010CA63 = some (.idle 0 5 6)
      ∧ word 0x00F2CA63 = some (.hnote 0 5 6 7) ∧ word 0x0060C067 = some (.trap 0 6 3) ∧ word 0x00020067 = some (.eret 0)
      ∧ word 0x00220067 = some (.eretEnd 0) ∧ word 0x00040067 = some (.brk 0 0) := by decide +kernel

/-- R76: the listings of the compact instructions; the word of zeros is C.ILL. -/
theorem test_decode_compact :
    half 0x8168 = some (.cLdd 5 2) ∧ half 0x3534 = some (.cBnez 4 0x34) ∧ half 0x335C = some (.cAddi 13 0x30)
      ∧ half 0x03EC = some (.cStd 15 0) ∧ half 0x0530 = some (.cBeqz 4 4) ∧ half 0xFD1C = some (.cAddi 4 0x3F)
      ∧ half 0x135C = some (.cAddi 13 0x10) ∧ half 0x003C = some .cRet ∧ half 0 = some (.cIll 0 0 0) := by decide +kernel

/-- R70, R71, R77: what decodes to nothing: the length codes 0b01 and 0b10, MAJOR 31, and CST with a nonzero D. -/
theorem test_decode_reserved :
    word 1 = none ∧ word 2 = none ∧ word 0x7F = none ∧ word 0x8020C22F = none ∧ word 0x01A0CA2F = none := by
  decide +kernel

end encodings

section wellFormed

/-- R125, R127, R174: LDP, STP, VGATH and VSCAT name an even register. -/
theorem test_wf_even :
    (Instr.ldp 0 3 1 0).wf = false ∧ (Instr.stp 0 3 1 0).wf = false ∧ (Instr.vgath 0 1 1 0).wf = false
      ∧ (Instr.vscat 0 7 1 0).wf = false ∧ (Instr.ldp 0 2 1 0).wf = true := by decide

/-- R140, R146, R152, R34: FENCE with a rectangle pointer outside .rect, SPAWN into g15, the cut position of ELI, and a
control word that the table does not list. -/
theorem test_wf_operands :
    (Instr.fence 0 .sc .domain 3).wf = false ∧ (Instr.spawn 0 15 1 0).wf = false ∧ (Instr.eli 0 1 5 0x200).wf = false
      ∧ (Instr.mfc 0 1 0x006).wf = false ∧ (Instr.mtc 0 0x042 1).wf = false ∧ (Instr.fence 0 .sc .rect 3).wf = true := by
  decide

/-- R73, R156, R157, R162, R168, R170: an integer type with a rounding mode, and types that an instruction does not take. -/
theorem test_wf_vector_types :
    (Instr.vadd 0 .i32 .rtz 1 2 3 0 false).wf = false ∧ (Instr.vand 0 .f32 .rne 1 2 3 0 false).wf = false
      ∧ (Instr.vmov 0 .n32 .rne 1 2 0 false).wf = false ∧ (Instr.vshl 0 .f32 1 2 3 0 false).wf = false
      ∧ (Instr.vdot 0 .i32 .rne 1 2 3 0 false).wf = false ∧ (Instr.vsel 0 .f32 1 2 3 0).wf = false
      ∧ (Instr.vperm 0 .i8x4 1 2 3 0 false).wf = false ∧ (Instr.vrot 0 .f32 1 2 3 0 false).wf = false
      ∧ (Instr.vcompr 0 .i16x2 1 2 0 false).wf = false := by decide

/-- R159, R161, R163, R169: the types of the functions, the compares, VSCAN and VCVT. -/
theorem test_wf_function_types :
    (Instr.vrcp 0 .f64 .rne 1 2 0 false).wf = false ∧ (Instr.vsqrt 0 .i32 .rne 1 2 0 false).wf = false
      ∧ (Instr.vclass 0 .i32 1 2 0 false).wf = false ∧ (Instr.vcmpeq 0 .bf16x2 1 2 3 0 false).wf = false
      ∧ (Instr.vscan 0 .f16x2 .add .rne 1 2 0 false).wf = false ∧ (Instr.vscan 0 .i32 .add .sr 1 2 0 false).wf = false
      ∧ (Instr.vcvt 0 .f32 .f32 .rne 1 2 0 false).wf = false ∧ (Instr.vcvt 0 .i8x4 .f64 .rne 1 2 0 false).wf = false
      ∧ (Instr.vcvt 0 .f64 .f32 .rne 1 2 2 false).wf = false ∧ (Instr.vcvt 0 .i32 .i16x2 .rtz 1 2 0 false).wf = false := by
  decide

end wellFormed
section scenes

/-- The carving of the scenes: 2 KiB of CODE, 18 frames of 1 KiB, CELL from 0x5000 and the blocks from 0x5800. -/
def carve : Carve := ⟨2048, 1024, 20480, 22528⟩

/-- A ready context with the registers of a list. -/
def ready (l : List RegWrite) : Ctx := { Ctx.zero with run := .ready, th := { Thread.zero.writes l with pc := 0x100 } }

/-- A tile with this carving, blocks 0 FULL, 1 open by slot 0, 3 armed for the exchange engine, and the rest EMPTY. -/
def tile0 : Tile := { Tile.zero with
  carve
  blocks := [(0, ⟨.full, 31, false, 1⟩), (1, ⟨.deferred, 0, false, 1⟩), (3, ⟨.deferred, 24, true, 1⟩)] }

/-- A running domain of two by two tiles. -/
def dom0 : Domain := { Domain.zero with
  status := .running, launch := { Launch.zero with width := 2, height := 2, codeSize := 2048, nnode := 1 } }

/-- Domain 0 with tile t as rank 0, in which context i acts as c, in cycle 100. -/
def scene (i : Nat) (c : Ctx) (t : Tile := tile0) (d : Domain := dom0) : State :=
  { State.reset with cycle := 100, cur := ⟨0, 0, i⟩, doms := [(0, { d with tiles := [(0, t.setCtx i c)] })] }

/-- The environment of the acting context. -/
def env (s : State) : Env := s.env?.getD ⟨s, Domain.zero, Tile.zero, Ctx.zero⟩

/-- Domain n of a package. -/
def domOf (s : State) (n : Nat) : Domain := (s.doms.find n).getD Domain.zero

/-- Tile r of domain n. -/
def tileOf (s : State) (n r : Nat) : Tile := (s.tile? n r).getD Tile.zero

theorem env_iff {s : State} : s.env? = some (env s) ↔ s.env?.isSome = true := by
  unfold env; cases s.env? <;> simp

theorem dom_iff {s : State} {n : Nat} : s.doms.find n = some (domOf s n) ↔ (s.doms.find n).isSome = true := by
  unfold domOf; cases s.doms.find n <;> simp

theorem at_iff {s : State} {n r : Nat} : s.at_ n r (domOf s n) (tileOf s n r) ↔ (s.tile? n r).isSome = true := by
  unfold State.at_ domOf tileOf State.tile?
  cases s.doms.find n with
  | none => simp
  | some d => cases h : d.tiles.find r <;> simp [h]

theorem ready_iff {s : State} {e : Env} {op : Op} : Ready s e op ↔ s.env? = some e ∧ op.who.ok e.me = true
    ∧ (op.waits = true → e.speculative = false)
    ∧ ∀ r ∈ op.reads, r.isZero = false → ((newestPend r e.c.th.pend).all fun p => p.fixed && !e.t.stallchk) = true := by
  constructor
  · intro h
    refine ⟨h.env, h.who, h.branch, fun r m z => ?_⟩
    cases hp : newestPend r e.c.th.pend with
    | none => rfl
    | some p => have := h.landed r m z p hp; simp [this.1, this.2]
  · rintro ⟨a, b, c, d⟩
    refine ⟨a, b, c, fun r m z p hp => ?_⟩
    have := d r m z
    rw [hp] at this
    simpa using this

theorem namesLocal_iff {p : Word} {d : Int} {size o : Nat} : NamesLocal p d size o ↔ p.toNat / 2 ^ 56 % 4 = 0
    ∧ p.toNat / 2 ^ 20 % 2 ^ 36 = 0 ∧ (o : Int) = (p.toNat % 2 ^ 20 : Nat) + d ∧ o < 2 ^ 20 ∧ o % size = 0 :=
  ⟨fun h => ⟨h.1, h.2, h.3, h.4, h.5⟩, fun h => ⟨h.1, h.2.1, h.2.2.1, h.2.2.2.1, h.2.2.2.2⟩⟩

theorem passesLocal_iff {e : Env} {a : GReg} {d : Int} {size o : Nat} : PassesLocal e a d size o ↔
    e.c.th.pg a = false ∧ NamesLocal (e.c.th.rg a) d size o
      ∧ (e.t.carve.region o = .frame → e.t.carve.inFrame o size e.s.cur.ctx = true)
      ∧ e.t.granTag o = ptrTag (e.c.th.rg a) :=
  ⟨fun h => ⟨h.1, h.2, h.3, h.4⟩, fun h => ⟨h.1, h.2.1, h.2.2.1, h.2.2.2⟩⟩

theorem passesStore_iff {e : Env} {a : GReg} {d : Int} {size o : Nat} : PassesStore e a d size o ↔
    PassesLocal e a d size o ∧ e.t.carve.region o ≠ .code
      ∧ (e.t.carve.region o = .cell → e.t.hitsWord1 o size = false) :=
  ⟨fun h => ⟨h.1, h.2, h.3⟩, fun h => ⟨h.1, h.2.1, h.2.2⟩⟩

theorem namesBlock_iff {e : Env} {a : GReg} {off : BitVec 11} {b : Nat} : NamesBlock e a off b ↔
    e.c.th.pg a = false ∧ NamesLocal (e.c.th.rg a) (2048 * off.toInt) 2048 (e.t.blockAt b)
      ∧ e.t.carve.region (e.t.blockAt b) = .block ∧ ptrTag (e.c.th.rg a) = (e.t.block b).gen :=
  ⟨fun h => ⟨h.1, h.2, h.3, h.4⟩, fun h => ⟨h.1, h.2.1, h.2.2.1, h.2.2.2⟩⟩

theorem namesBarrier_iff {e : Env} {a : GReg} {imm : BitVec 11} {o : Nat} : NamesBarrier e a imm o ↔
    PassesLocal e a imm.toInt 16 o ∧ e.t.carve.region o = .cell := ⟨fun h => ⟨h.1, h.2⟩, fun h => ⟨h.1, h.2⟩⟩

theorem passesLane_iff {e : Env} {a : GReg} {o : Nat} : PassesLane e a o ↔
    (e.t.carve.region o = .frame → e.t.carve.inFrame o 4 e.s.cur.ctx = true)
      ∧ e.t.granTag o = ptrTag (e.c.th.rg a) ∧ e.cellHits o 4 = false :=
  ⟨fun h => ⟨h.1, h.2, h.3⟩, fun h => ⟨h.1, h.2.1, h.2.2⟩⟩

theorem readsLane_iff {e : Env} {a : GReg} {o : Nat} : ReadsLane e a o ↔ PassesLane e a o ∧ ReadableAt e o
    ∧ e.c.sbHits o 4 = [] ∧ ∀ x ∈ e.c.sb, x.pois = true → x.addr / 64 ≠ o / 64 :=
  ⟨fun h => ⟨h.1, h.2, h.3, h.4⟩, fun h => ⟨h.1, h.2.1, h.2.2.1, h.2.2.2⟩⟩

theorem writesLane_iff {e : Env} {a : GReg} {v : VReg} {l o : Nat} : WritesLane e a v l o ↔ PassesLane e a o
    ∧ WritableAt e o ∧ e.t.carve.region o ≠ .code ∧ (e.t.carve.region o = .cell → e.t.hitsWord1 o 4 = false)
    ∧ ((e.c.th.pv v).getLsbD l = true → e.t.carve.region o = .frame)
    ∧ (e.t.carve.region o = .block → e.readHolds (e.t.blockOf o) = false) :=
  ⟨fun h => ⟨h.1, h.2, h.3, h.4, h.5, h.6⟩,
    fun h => ⟨h.1, h.2.1, h.2.2.1, h.2.2.2.1, h.2.2.2.2.1, h.2.2.2.2.2⟩⟩

theorem namesSpan_iff {e : Env} {sp : Span} : NamesSpan e sp ↔ NamesLocal sp.p 0 sp.align (ptrOff sp.p)
    ∧ e.t.carve.region (ptrOff sp.p) = .block ∧ ptrOff sp.p + sp.size ≤ 2 ^ 20
    ∧ ∀ b ∈ e.t.spanBlocks sp, (e.t.block b).gen = ptrTag sp.p :=
  ⟨fun h => ⟨h.1, h.2, h.3, h.4⟩, fun h => ⟨h.1, h.2.1, h.2.2.1, h.2.2.2⟩⟩

theorem readsSpan_iff {e : Env} {sp : Span} : ReadsSpan e sp ↔ NamesSpan e sp
    ∧ (∀ b ∈ e.t.spanBlocks sp, (e.t.block b).state = .full
      ∨ ((e.t.block b).state = .deferred ∧ (e.t.block b).owner = e.s.cur.ctx))
    ∧ e.c.sbHits (ptrOff sp.p) sp.size = [] := ⟨fun h => ⟨h.1, h.2, h.3⟩, fun h => ⟨h.1, h.2.1, h.2.2⟩⟩

theorem transferWord_iff {w : Word} {n : Nat} : TransferWord w n ↔ n = fld w 8 0 ∧ n ≠ 0
    ∧ fld w 11 9 = 0 ∧ fld w 15 13 = 0 ∧ fld w 63 28 = 0 := ⟨fun h => ⟨h.1, h.2, h.3⟩, fun h => ⟨h.1, h.2.1, h.2.2⟩⟩

theorem namesBlocks_iff {e : Env} {p : Word} {n : Nat} : NamesBlocks e p n ↔ NamesLocal p 0 2048 (ptrOff p)
    ∧ e.t.carve.region (ptrOff p) = .block ∧ ptrOff p + 2048 * n ≤ 2 ^ 20
    ∧ ∀ k < n, (e.t.block (e.t.blockOf (ptrOff p) + k)).gen = ptrTag p :=
  ⟨fun h => ⟨h.1, h.2, h.3, h.4⟩, fun h => ⟨h.1, h.2.1, h.2.2.1, h.2.2.2⟩⟩

end scenes
section witnessScalar

/-- Registers at the ends of their ranges: g1 the end of slot 0's frame, g2 the last 16 bytes of CELL, g3 to g5 the
FULL block 0, slot 0's block 1 and the EMPTY block 500, which is the last, g7 and g8 extreme integers, g9 the last even
offset, g11 poisoned, g12 the last offset, g13 the last doubleword of the frame. -/
def regs : List RegWrite :=
  [.g 1 3056 false, .g 2 22512 false, .g 3 0x0400000000005800 false, .g 4 0x0400000000006000 false
   , .g 5 0x04000000000FF800 false, .g 6 25 false, .g 7 0x8000000000000000 false, .g 8 0xFFFFFFFFFFFFFFFF false
   , .g 9 0xFFFFE false, .g 10 0x04000000000FF7FF false, .g 11 5 true, .g 12 0xFFFFF false, .g 13 3064 false
   , .g 15 0xFFFFE false]

/-- Slot 0 with these registers. -/
def s0 : State := scene 0 (ready regs)

/-- The same one cycle after a taken branch, on the wrong path. -/
def sWrong : State := scene 0 { ready regs with wrong := some ⟨Thread.zero, 102, false⟩ }

theorem witness_ScalarResults_registers : Ready s0 (env s0) (opAB 0 3 7 11) ∧ Ready s0 (env s0) (opAB 0 0 0 8) := by
  simp only [ready_iff, env_iff]
  repeat' apply And.intro
  all_goals decide +kernel

theorem witness_ScalarResults_fields : Ready s0 (env s0) (opA 0 0 7)
    ∧ Ready s0 (env s0) (op32 0 .all false 0 [.g 8, .g 12, .g 11]) ∧ Ready s0 (env s0) (opAB 0 0 7 8) := by
  simp only [ready_iff, env_iff]
  repeat' apply And.intro
  all_goals decide +kernel

theorem witness_ScalarResults_immediates : Ready s0 (env s0) (opA 1 0 8) ∧ Ready s0 (env s0) (op32 3 .all false 2 [])
    ∧ Ready s0 (env s0) (op32 0 .all false 3 []) := by
  simp only [ready_iff, env_iff]
  repeat' apply And.intro
  all_goals decide +kernel

/-- g12 at the last offset moved by 0 and by −1, to the field's end and below it; and a poisoned displacement. -/
theorem witness_PointerAddResults : Ready s0 (env s0) (opAB 0 0 12 8) ∧ Ready s0 (env s0) (opAB 0 0 12 11)
    ∧ Ready s0 (env s0) (opA 1 0 12) ∧ (env s0).c.th.pg 11 = true ∧ ptrBad ((env s0).c.th.rg 12) = false
    ∧ 0 ≤ ((env s0).c.th.rg 12).toNat % 2 ^ 20 + ((env s0).c.th.rg 8).toInt
    ∧ ((env s0).c.th.rg 12).toNat % 2 ^ 20 + ((env s0).c.th.rg 0).toInt < 2 ^ 20 := by
  simp only [ready_iff, env_iff]
  repeat' apply And.intro
  all_goals decide +kernel

theorem witness_MultiplyDivideResults : Ready s0 (env s0) (opAB 4 0 7 8)
    ∧ (env s0).t.divider.freeAt ≤ (env s0).s.cycle := by
  simp only [ready_iff, env_iff]
  repeat' apply And.intro
  all_goals decide +kernel

theorem witness_ScalarResults_compact : Ready s0 (env s0) (op16 3 0 [.g 7, .g 8]) ∧ Ready s0 (env s0) (op16 0 0 [.g 11])
    ∧ Ready s0 (env s0) (op16 0 1 [.g 7]) := by
  simp only [ready_iff, env_iff]
  repeat' apply And.intro
  all_goals decide +kernel

/-- A branch at 0x100 reaches back to offset 0; jumps through a register reach the last even offset. -/
theorem witness_ControlFlowResults :
    Ready s0 (env s0) (op32 0 .all false 5 [.g 7, .g 8]) ∧ (env s0).c.th.pg 7 = false ∧ (env s0).c.th.pg 8 = false
      ∧ (env s0).c.wrong = none ∧ (0 : Int) ≤ (env s0).c.th.pc.toNat + 2 * (-128)
      ∧ (Ready sWrong (env sWrong) (op32 0 .all false 5 [.g 7, .g 8]) ∧ (env sWrong).c.wrong.isSome = true)
      ∧ Ready s0 (env s0) (op16 0 5 [.g 7]) ∧ Ready s0 (env s0) (op32 0 .all false 6 [])
      ∧ (env s0).c.th.pc.toNat + 2 * (2 ^ 18 - 1 : Int) < 2 ^ 20 ∧ Ready s0 (env s0) (op16 0 6 [])
      ∧ Ready s0 (env s0) (op32 0 .all false 7 [.g 9]) ∧ (env s0).c.th.pg 9 = false
      ∧ ((env s0).c.th.rg 9 + BitVec.ofInt 64 (0#11).toInt).toNat < 2 ^ 20
      ∧ ((env s0).c.th.rg 9 + BitVec.ofInt 64 (0#11).toInt).toNat % 2 = 0
      ∧ Ready s0 (env s0) (op16 0 7 [.g 15]) ∧ (env s0).c.th.pg 15 = false ∧ ((env s0).c.th.rg 15).toNat < 2 ^ 20
      ∧ ((env s0).c.th.rg 15).toNat % 2 = 0 := by
  simp only [ready_iff, env_iff]
  repeat' apply And.intro
  all_goals decide +kernel

end witnessScalar

section witnessMemory

/-- What the loads of a size ask of pointer a and offset o, with the bytes that they find. -/
def MayLoad (s : State) (op : Op) (a : GReg) (disp : Int) (size o : Nat) : Prop :=
  Ready s (env s) op ∧ (env s).acquiring = false ∧ PassesLocal (env s) a disp size o ∧ ReadableAt (env s) o
    ∧ (env s).cellHits o size = false

/-- What they ask besides to find bytes bs in memory: no buffered store there, and no poisoned one in the granule. -/
def MaySee (s : State) (op : Op) (a : GReg) (disp : Int) (size o : Nat) (bs : List Byte) : Prop :=
  MayLoad s op a disp size o ∧ (∀ x ∈ (env s).c.sb, x.pois = true → x.addr / 64 ≠ o / 64)
    ∧ (∀ x ∈ (env s).c.sb, overlaps x.addr x.len o size = false) ∧ bs = (env s).t.sram.readBytes o size

/-- What the stores of a size ask. -/
def MayStore (s : State) (op : Op) (a : GReg) (disp : Int) (size : Nat) (data : List GReg) (o : Nat) : Prop :=
  Ready s (env s) op ∧ (env s).acquiring = false ∧ PassesStore (env s) a disp size o ∧ WritableAt (env s) o
    ∧ ((∃ r ∈ data, (env s).c.th.pg r = true) → (env s).t.carve.region o = .frame)
    ∧ ((env s).c.sb.filter fun x => !x.vec).length < 8 ∧ (env s).cellHits o size = false
    ∧ ((env s).t.carve.region o = .block → (env s).readHolds ((env s).t.blockOf o) = false)

/-- One buffered store that covers the doubleword at 3056. -/
def sbCtx : Ctx := { ready regs with
  sb := [⟨0, 200, 3056, 8, (List.range 8).map fun i => (3056 + i, 7), false, false, false⟩] }

/-- Slot 0 with this store in its buffer, and with one that carries poison to the same granule. -/
def sBuffered : State := scene 0 sbCtx
def sPoisoned : State := scene 0 { ready regs with
  sb := [⟨0, 200, 3064, 8, (List.range 8).map fun i => (3064 + i, 7), true, false, false⟩] }

/-- The last byte, halfword, word, doubleword and pair of the frame, the last doubleword of CELL and the last one of the
FULL block 0; a doubleword that a buffered store covers, a pair that it covers in part, and a granule that a poisoned store
waits for; and a doubleword that a buffered store covers, beside one that it does not touch. -/
theorem witness_LoadResults :
    let op := op32 0 .all false 8 [.g 1]
    MaySee s0 op 1 15 1 3071 [0] ∧ MaySee s0 op 1 14 2 3070 [0, 0] ∧ MaySee s0 op 1 12 4 3068 (List.replicate 4 0)
      ∧ MaySee s0 op 1 8 8 3064 (List.replicate 8 0) ∧ MaySee s0 op 1 0 16 3056 (List.replicate 16 0)
      ∧ MaySee s0 (op32 0 .all false 8 [.g 2]) 2 8 8 22520 (List.replicate 8 0)
      ∧ MaySee s0 (op32 0 .all false 8 [.g 3]) 3 2040 8 24568 (List.replicate 8 0)
      ∧ MaySee s0 (op16 0 8 [.g 13]) 13 (8 * (0#6).toNat) 8 3064 (List.replicate 8 0)
      ∧ (MayLoad sBuffered op 1 0 8 3056 ∧ (env sBuffered).c.sb = sbCtx.sb
        ∧ ∀ i < 8, ∀ x ∈ sbCtx.sb, AMap.find x.data (3056 + i) = some 7 ∧ overlaps x.addr x.len 3056 8 = true
          ∧ x.abinit = false ∧ x.vec = false ∧ x.pois = false)
      ∧ (MayLoad sBuffered op 1 0 16 3056 ∧ ∀ x ∈ (env sBuffered).c.sb, overlaps x.addr x.len 3056 16 = true
        ∧ AMap.find x.data (3056 + 8) = none)
      ∧ (MayLoad sPoisoned op 1 0 8 3056 ∧ (env sPoisoned).t.carve.region 3056 = .frame
        ∧ ∀ x ∈ (env sPoisoned).c.sb, x.pois = true ∧ x.addr / 64 = 3056 / 64)
      ∧ (∀ x ∈ sbCtx.sb, x.abinit = false ∧ x.vec = false ∧ x.pois = false)
      ∧ (∀ x ∈ sbCtx.sb, overlaps x.addr x.len 3064 8 = false)
      ∧ (∃ x ∈ sbCtx.sb, sbCtx.sb = [] ++ [x] ∧ x.addr = 3056 ∧ x.len = 8
        ∧ ∀ i < 8, (AMap.find x.data (3056 + i)).isSome = true)
      ∧ ((∃ x ∈ sbCtx.sb, overlaps x.addr x.len 3062 4 = true)
        ∧ ∀ x ∈ sbCtx.sb, AMap.find x.data (3062 + 3) = none) := by
  simp only [MaySee, MayLoad, ready_iff, env_iff, passesLocal_iff, namesLocal_iff, ReadableAt]
  repeat' apply And.intro
  all_goals decide +kernel

/-- The last bytes of the frame, a poisoned store to it, the last doubleword of CELL and of slot 0's block. -/
theorem witness_StoreResults :
    let op := op32 0 .all true 9 [.g 1, .g 11]
    MayStore s0 op 1 15 1 [11] 3071 ∧ MayStore s0 op 1 14 2 [11] 3070 ∧ MayStore s0 op 1 12 4 [11] 3068
      ∧ MayStore s0 op 1 8 8 [11] 3064 ∧ MayStore s0 (op32 0 .all true 9 [.g 2, .g 7]) 2 8 8 [7] 22520
      ∧ MayStore s0 (op32 0 .all true 9 [.g 4, .g 7]) 4 2040 8 [7] 26616
      ∧ MayStore s0 (op32 0 .all true 9 [.g 1, .g 6, .g (6 + 1)]) 1 0 16 [6, 6 + 1] 3056
      ∧ MayStore s0 (op16 0 9 [.g 13, .g 7] true) 13 (8 * (0#6).toNat) 8 [7] 3064 := by
  simp only [MayStore, ready_iff, env_iff, passesStore_iff, passesLocal_iff, namesLocal_iff, WritableAt]
  repeat' apply And.intro
  all_goals decide +kernel

/-- g5 names the EMPTY block 500, g4 slot 0's block 1, g3 the FULL block 0. -/
theorem witness_BlockResults :
    let e := env s0
    let op1 (who : Who) : Op := op32 0 who true 10 [.g 5]
    let op2 : Op := op32 0 .all true 10 [.g 5, .g 6]
    NamesBlock e 5 0 500 ∧ NamesBlock e 4 0 1 ∧ NamesBlock e 3 0 0 ∧ e.acquiring = false
      ∧ e.readHolds 1 = false ∧ e.readHolds 500 = false
      ∧ Ready s0 e (op1 .all) ∧ (e.t.block 500).state = .empty ∧ OwnsBlock e 1 ∧ e.c.sb = [] ∧ e.cellBusy = false
      ∧ Ready s0 e (op32 0 .slots true 10 [.g 3]) ∧ (e.t.block 0).state = .full
      ∧ Ready s0 e (op32 0 .all true 10 [.g 5]) ∧ Ready s0 e op2 ∧ e.c.th.pg 6 = false ∧ e.beingRead 500 = false
      ∧ (e.t.block 500).state ≠ .deferred ∧ 24 ≤ (e.c.th.rg 6).toNat ∧ (e.c.th.rg 6).toNat ≤ 27 := by
  simp only [ready_iff, env_iff, namesBlock_iff, namesLocal_iff, OwnsBlock]
  repeat' apply And.intro
  all_goals decide +kernel

/-- Slot 0 with g4 at block 3, which is armed for the exchange engine, so that slot 0 does not own it. -/
def sArmed : State := scene 0 (ready [.g 3 0x0400000000005800 false, .g 4 0x0400000000007000 false])

theorem witness_BlockEventsAndRefusals :
    let s := sArmed
    let e := env s
    NamesBlock e 3 0 0 ∧ NamesBlock e 4 0 3 ∧ e.acquiring = false ∧ e.s.cur.ctx ≠ 17
      ∧ e.readHolds 0 = false ∧ e.readHolds 3 = false
      ∧ Ready s e (op32 0 .all true 10 [.g 3]) ∧ e.c.sb = [] ∧ e.cellBusy = false ∧ (e.t.block 0).state = .full
      ∧ (e.t.block 3).state = .deferred ∧ ¬ OwnsBlock e 3 ∧ Ready s e (op32 0 .slots true 10 [.g 4])
      ∧ (e.t.block 3).state ≠ .full := by
  simp only [ready_iff, env_iff, namesBlock_iff, namesLocal_iff, OwnsBlock]
  repeat' apply And.intro
  all_goals decide +kernel

/-- Slot 0 with e0 naming the last block as a trigger. -/
def sTrig : State := scene 0 (ready (regs ++ [.e 0 0x04000000000FF800]))

/-- The last cell of CELL. -/
theorem witness_CellResults :
    let s := sTrig
    let e := env s
    let may (op : Op) (operands : List GReg) : Prop :=
      Ready s e op ∧ e.acquiring = false ∧ PassesStore e 2 (8 * (1#3).toNat) 8 22520 ∧ e.t.carve.region 22520 = .cell
        ∧ (∀ r ∈ operands, e.c.th.pg r = false) ∧ e.t.granPois 22520 = false
    may (op32 0 .all true 11 [.g 2]) [] ∧ may (op32 0 .all true 11 [.g 2, .g 7]) [7]
      ∧ may (op32 0 .all true 11 [.g 2, .g 7, .g 8]) [7, 8] ∧ may (op32 0 .all true 11 [.g 2, .e 0]) []
      ∧ NamesLocal (e.c.th.re 0) 0 2048 (e.t.blockAt 500) ∧ e.t.carve.region (e.t.blockAt 500) = .block := by
  simp only [ready_iff, env_iff, passesStore_iff, passesLocal_iff, namesLocal_iff]
  repeat' apply And.intro
  all_goals decide +kernel

/-- Slot 0 with the rectangle of the whole domain in g1. -/
def sRect : State := scene 0 (ready (regs ++ [.g 1 0x01010000 false]))

/-- Slot 0 beside slot 1, which has not come to TBAR. -/
def sBeside : State := scene 0 (ready regs) (tile0.setCtx 1 (ready []))

/-- Slot 0 at a TBAR that it may pass. -/
def sPass : State := scene 0 { ready regs with busy := .tbar true }

/-- Slot 0 of a tile with no free slot. -/
def sFull : State := scene 0 (ready regs) (tile0.mapCtxs fun _ _ => ready [])

theorem witness_SyncAndExtResults_sync :
    let sop := op32 0 .slots true 12 [.g 9, .g 4, .g 5, .g 6, .g 7, .g 8, .g 9]
    Ready sRect (env sRect) (op32 0 .all true 12 []) ∧ (env sRect).fenced .sc .domain [] = true
      ∧ Ready sRect (env sRect) (op32 0 .all true 12 [.g 1]) ∧ (env sRect).c.th.pg 1 = false
      ∧ rectRanks (env sRect).d ((env sRect).c.th.rg 1) = .ok [0, 1, 2, 3]
      ∧ (env sRect).fenced .sc .rect [0, 1, 2, 3] = true
      ∧ Ready s0 (env s0) (op32 0 .slots true 12 []) ∧ (env s0).c.sb = [] ∧ (env s0).cellBusy = false
      ∧ (∀ p ∈ (env s0).c.th.pend, p.fixed = true) ∧ (env s0).t.starts = []
      ∧ Ready sBeside (env sBeside) (op32 0 .slots true 12 [])
      ∧ (∃ i ∈ (env sBeside).t.liveOf (env sBeside).c.group, i ≠ 0 ∧ ((env sBeside).t.ctx i).atTbar = false)
      ∧ (env sBeside).c.busy ≠ .tbar true
      ∧ (∀ i ∈ (env s0).t.liveOf (env s0).c.group, i ≠ 0 → ((env s0).t.ctx i).atTbar = true)
      ∧ (env s0).c.busy ≠ .tbar true
      ∧ Ready sPass (env sPass) (op32 0 .slots true 12 []) ∧ (env sPass).c.busy = .tbar true
      ∧ Ready s0 (env s0) sop ∧ (env s0).c.th.pg 9 = false
      ∧ ((env s0).c.th.rg 9 + BitVec.ofInt 64 (0#11).toInt).toNat < 2 ^ 20
      ∧ ((env s0).c.th.rg 9 + BitVec.ofInt 64 (0#11).toInt).toNat % 2 = 0 ∧ (env s0).c.run ≠ .free
      ∧ (env s0).t.freeSlot? = some 1 ∧ Ready sFull (env sFull) sop ∧ (env sFull).c.run ≠ .free
      ∧ (env sFull).t.freeSlot? = none := by
  simp only [ready_iff, env_iff]
  repeat' apply And.intro
  all_goals decide +kernel

/-- Slot 0 with PHASE 1 expected in g6, over a CELL whose last barrier holds PHASE 0. -/
def sClear : State := scene 0 (ready (regs ++ [.g 6 0x0100000000000000 false]))

/-- The same, where that barrier holds PHASE 1. -/
def sSet : State := scene 0 (ready (regs ++ [.g 6 0x0100000000000000 false])) { tile0 with sram := [(22519, 1)] }

theorem witness_SyncAndExtResults_barrier :
    let opA := op32 0 .all true 12 [.g 2, .g 6]
    let opW := op32 0 .slots true 12 [.g 2, .g 6]
    NamesBarrier (env sClear) 2 0 22512 ∧ (env sClear).c.th.pg 6 = false ∧ (env sClear).acquiring = false
      ∧ (env sClear).cellHits 22512 16 = false ∧ Ready sClear (env sClear) opA
      ∧ ((env sClear).c.th.rg 6).toNat < 2 ^ 57 ∧ (env sClear).t.nfeed 22512 = 0
      ∧ ((env sClear).c.sb.filter fun x => !x.vec).length < 8
      ∧ Ready sClear (env sClear) opW ∧ (env sClear).c.sbHits 22512 16 = []
      ∧ ((env sClear).t.sram.read64 22512).getLsbD 56 ≠ ((env sClear).c.th.rg 6).getLsbD 56
      ∧ NamesBarrier (env sSet) 2 0 22512 ∧ Ready sSet (env sSet) opW
      ∧ ((env sSet).t.sram.read64 22512).getLsbD 56 = ((env sSet).c.th.rg 6).getLsbD 56
      ∧ Ready sClear (env sClear) (op32 0 .all false 13 [.e 7]) ∧ Ready sClear (env sClear) (op32 0 .all false 13 [.g 2])
      ∧ (env sClear).c.th.pg 2 = false := by
  simp only [ready_iff, env_iff, namesBarrier_iff, passesLocal_iff, namesLocal_iff]
  repeat' apply And.intro
  all_goals decide +kernel

/-- A tile whose last cell belongs to a barrier, whose third granule of CELL is poisoned and whose second has tag 5. -/
def tileChecks : Tile := { tile0 with bars := [22512 / 16], pois := [20480 / 64 + 2], tags := [(20480 / 64 + 1, 5)] }

/-- Context i with the pointer p in g1 and g13, poisoned or not, and a datum in g2. -/
def sCheck (p : Word) (basePois dataPois : Bool := false) (i : Nat := 0) : State :=
  scene i (ready [.g 1 p basePois, .g 2 7 dataPois, .g 13 p basePois, .g 3 9 true]) tileChecks

/-- A pointer of a tag, a SPACE and an offset. -/
def ptrTo (tag space o : Nat) : Word := BitVec.ofNat 64 (tag * 2 ^ 58 + space * 2 ^ 56 + o)

/-- Slot 0 forms the offset o from the pointer p in g1 and a displacement. -/
def forms (p : Word) (disp : Int) (o : Nat) : Prop :=
  let e := env (sCheck p)
  e.c.th.pg 1 = false ∧ (e.c.th.rg 1).toNat / 2 ^ 56 % 4 = 0 ∧ (e.c.th.rg 1).toNat / 2 ^ 20 % 2 ^ 36 = 0
    ∧ (o : Int) = ((e.c.th.rg 1).toNat % 2 ^ 20 : Nat) + disp ∧ o < 2 ^ 20

/-- One case for each clause: the pointers, the offsets 2,049, those of a foreign frame, of CODE and of the barrier's word
1, the granules with other tags, the blocks that are not FULL, poisoned data, the blocks that are not slot 0's, and cells. -/
theorem witness_LocalAccessChecks :
    let may (s : State) (op : Op) : Prop :=
      Ready s (env s) op ∧ (env s).speculative = false ∧ (env s).acquiring = false ∧ (env s).s.cur.ctx ≠ 17
    let load := op32 0 .all false 8 [.g 1]
    let store := op32 0 .all true 9 [.g 1, .g 2]
    let cell := op32 0 .all true 11 [.g 1, .g 2]
    let space (s : State) : Nat := ((env s).c.th.rg 1).toNat / 2 ^ 56 % 4
    let t := (env (sCheck 0)).t
    let past (p : Word) (disp : Int) (at_ : Int) : Prop :=
      space (sCheck p) = 0 ∧ p.toNat / 2 ^ 20 % 2 ^ 36 = 0 ∧ at_ = (p.toNat % 2 ^ 20 : Nat) + disp
    (∀ op ∈ [load, store, cell], may (sCheck 2048) op)
      ∧ (may (sCheck 2048 true) load ∧ (env (sCheck 2048 true)).c.th.pg 1 = true)
      ∧ (may (sCheck (ptrTo 0 3 2048)) load ∧ space (sCheck (ptrTo 0 3 2048)) = 3)
      ∧ (may (sCheck (ptrTo 0 1 2048)) store ∧ space (sCheck (ptrTo 0 1 2048)) = 1)
      ∧ (may (sCheck (ptrTo 0 2 2048) false false 16) cell ∧ space (sCheck (ptrTo 0 2 2048)) = 2)
      ∧ (ptrTo 3 0 (2 ^ 30 + 2)).toNat / 2 ^ 56 % 4 = 0 ∧ (ptrTo 3 0 (2 ^ 30 + 2)).toNat / 2 ^ 20 % 2 ^ 36 ≠ 0
      ∧ past 2 (-8) (-6) ∧ past 0xFFFFF 1 (2 ^ 20)
      ∧ (forms 2049 0 2049 ∧ 2049 % 8 ≠ 0)
      ∧ (forms 3072 0 3072 ∧ 3072 % 8 = 0 ∧ t.carve.region 3072 = .frame ∧ t.carve.inFrame 3072 8 0 = false)
      ∧ Ready (sCheck 3072) (env (sCheck 3072)) (op16 0 8 [.g 13])
      ∧ (forms 0 0 0 ∧ t.carve.region 0 = .code)
      ∧ (forms 22520 0 22520 ∧ t.carve.region 22520 = .cell ∧ t.hitsWord1 22520 8 = true)
      ∧ (forms (ptrTo 2 0 22528) 0 22528 ∧ t.carve.region 22528 = .block ∧ t.granTag 22528 ≠ ptrTag (ptrTo 2 0 22528))
      ∧ (forms (ptrTo 2 0 20544) 0 20544 ∧ t.carve.region 20544 = .cell ∧ t.granTag 20544 ≠ ptrTag (ptrTo 2 0 20544))
      ∧ (forms (ptrTo 1 0 0xFF800) 0 0xFF800 ∧ t.granTag 0xFF800 = ptrTag (ptrTo 1 0 0xFF800)
        ∧ ¬ ReadableAt (env (sCheck (ptrTo 1 0 0xFF800))) 0xFF800)
      ∧ (forms 20480 0 20480 ∧ t.carve.region 20480 = .cell ∧ t.hitsWord1 20480 8 = false
        ∧ t.granTag 20480 = ptrTag (20480 : Word) ∧ t.granPois 20480 = false)
      ∧ (Ready (sCheck 20480 false true) (env (sCheck 20480 false true)) store
        ∧ [(2 : GReg)].find? (env (sCheck 20480 false true)).c.th.pg = some 2)
      ∧ (forms (ptrTo 1 0 22528) 0 22528 ∧ t.granTag 22528 = ptrTag (ptrTo 1 0 22528)
        ∧ (t.block (t.blockOf 22528)).state = .full)
      ∧ (t.block (t.blockOf 0xFF800)).state = .empty
      ∧ (forms (ptrTo 1 0 0x7000) 0 0x7000 ∧ (t.block (t.blockOf 0x7000)).state = .deferred
        ∧ (t.block (t.blockOf 0x7000)).owner ≠ 0)
      ∧ (forms 2048 0 2048 ∧ t.carve.region 2048 = .frame ∧ t.carve.inFrame 2048 8 0 = true
        ∧ t.granTag 2048 = ptrTag (2048 : Word))
      ∧ (forms 20608 0 20608 ∧ t.granTag 20608 = ptrTag (20608 : Word) ∧ t.granPois 20608 = true) := by
  simp only [ready_iff, env_iff, ReadableAt, forms]
  repeat' apply And.intro
  all_goals decide +kernel

end witnessMemory
section witnessVector

/-- The vector whose lane l holds 4 × l. -/
def ramp : VWord := BitVec.ofNat 1024 ((List.range 32).map fun l => 4 * l * 2 ^ (32 * l)).sum

/-- Slot 0 with v2 poisoned in lane 31, where k1 is off, and e0 naming E5M2 at POS 3. -/
def sVec : State := scene 0 (ready (regs ++ [.v 1 ramp 0, .v 2 ramp 0x80000000, .k 1 0x7FFFFFFF, .e 0 0xC001, .e 5 63]))

theorem witness_VectorArithmetic : Ready sVec (env sVec) (op32 0 .notXc false 14 (vreads 0 1 false false [.v 1, .v 2]))
    ∧ Ready sVec (env sVec) (op32 3 .notXc false 14 (vreads 7 0 true true [.v 1, .v 2])) := by
  simp only [ready_iff, env_iff]
  repeat' apply And.intro
  all_goals decide +kernel

theorem witness_VectorElementwise :
    Ready sVec (env sVec) (op32 0 .notXc false 14 (vreads 0 1 true false [.v 1, .v 2]))
      ∧ Ready sVec (env sVec) (op32 0 .notXc false 14 (vreads 0 1 false false [.v 2]))
      ∧ Ready sVec (env sVec) (op32 0 .notXc false 15 (vreads 0 3 false false [.v 2]))
      ∧ Ready sVec (env sVec) (op32 0 .notXc false 14 (vreads 0 1 false false [.e 7]))
      ∧ Ready sVec (env sVec) (op32 0 .notXc false 14 (vreads 0 1 false true [.v 1, .v 2])) := by
  simp only [ready_iff, env_iff]
  repeat' apply And.intro
  all_goals decide +kernel

theorem witness_VectorFunctions : Ready sVec (env sVec) (op32 0 .notXc false 15 (vreads 7 1 false false [.v 1]))
    ∧ Ready sVec (env sVec) (op32 0 .notXc false 15 (vreads 7 0 true false [.v 1, .v 2])) := by
  simp only [ready_iff, env_iff]
  repeat' apply And.intro
  all_goals decide +kernel

/-- The poisoned lane of v2 is not active under k1. -/
theorem witness_VectorCompareAndElement :
    Ready sVec (env sVec) (op32 0 .notXc false 15 [.v 1, .v 2, .k 1, .k 3]) ∧ VType.f32.isWide = true
      ∧ (∀ i < 32, (laneMask false ((env sVec).c.th.rk 1)).getLsbD i = true →
        (pairPois false ((env sVec).c.th.pv 1)).getLsbD i = false
          ∧ (pairPois false ((env sVec).c.th.pv 2)).getLsbD i = false)
      ∧ Ready sVec (env sVec) (op32 0 .notXc false 15 [.v 1, .v 2, .k 1])
      ∧ Ready sVec (env sVec) (op32 0 .notXc false 14 [.v 2, .e 5])
      ∧ (pairPois false ((env sVec).c.th.pv 2)).getLsbD
          (((env sVec).c.th.re 5).toNat % 128 % VType.i16x2.count * 16 / 32 - 1) = false
      ∧ (pairPois false ((env sVec).c.th.pv 1)).getLsbD
          (((env sVec).c.th.re 5).toNat % 128 % VType.i16x2.count * 16 / 32) = false
      ∧ Ready sVec (env sVec) (op32 0 .notXc false 14 [.e 5, .e 5, .v 2]) := by
  simp only [ready_iff, env_iff]
  repeat' apply And.intro
  all_goals decide +kernel

theorem witness_VectorConversions :
    Ready sVec (env sVec) (op32 0 .notXc false 16 [.v 1, .v 2]) ∧ cvtOk .f64 .f32 .sr 1 = true
      ∧ cvtOk .i8x4 .f32 .rne 3 = true ∧ Ready sVec (env sVec) (op32 0 .notXc false 16 [.v 1, .v 2, .e 0])
      ∧ descOk ((env sVec).c.th.re 0) false true true = true ∧ Ready sVec (env sVec) (op32 0 .notXc false 16 [.v 1, .e 0])
      ∧ descOk ((env sVec).c.th.re 0) false false true = true := by
  simp only [ready_iff, env_iff]
  repeat' apply And.intro
  all_goals decide +kernel

/-- The same, where e0 names DX8 with the largest CAP. -/
def sDx : State := scene 0 (ready [.e 0 0x3F83])

theorem witness_VectorQuantise : (0 : VReg) ≠ 7 ∧ (env sDx).t.quantiser.freeAt ≤ (env sDx).s.cycle
    ∧ Ready sDx (env sDx) (op32 0 .notXc false 16 [.v 1, .v 7, .v 0, .e 0])
    ∧ descOk ((env sDx).c.th.re 0) true true false = true ∧ (Desc.of ((env sDx).c.th.re 0)).outl = false
    ∧ (env sVec).t.quantiser.freeAt ≤ (env sVec).s.cycle
    ∧ Ready sVec (env sVec) (op32 0 .notXc false 16 [.v 1, .v 7, .v 0, .e 0])
    ∧ descOk ((env sVec).c.th.re 0) false false true = true := by
  simp only [ready_iff, env_iff]
  repeat' apply And.intro
  all_goals decide +kernel

theorem witness_VectorPermuteAndMask :
    Ready sVec (env sVec) (op32 0 .notXc false 17 (vreads 0 1 false false [.v 1, .v 2]))
      ∧ Ready sVec (env sVec) (op32 0 .notXc false 17 (vreads 0 1 false false [.v 1, .e 5]))
      ∧ Ready sVec (env sVec) (op32 0 .notXc false 17 (vreads 0 1 false false []))
      ∧ Ready sVec (env sVec) (op32 0 .notXc false 17 (vreads 0 1 false false [.v 2]))
      ∧ (env sVec).t.tree.freeAt ≤ (env sVec).s.cycle
      ∧ Ready sVec (env sVec) (op32 0 .notXc false 17 [.v 2, .k 1, .v 0]) ∧ VType.f64.isWide = true
      ∧ Ready sVec (env sVec) (op32 0 .notXc false 19 [.k 1, .k 3])
      ∧ Ready sVec (env sVec) (op32 0 .notXc false 19 [.k 0]) ∧ Ready sVec (env sVec) (op32 0 .notXc false 19 [.g 8])
      ∧ (env sVec).c.th.pg 8 = false := by
  simp only [ready_iff, env_iff]
  repeat' apply And.intro
  all_goals decide +kernel

/-- Blocks 4 to 7 and 500 FULL, and 499 open by slot 0. -/
def tileV : Tile := { tile0 with
  blocks := [(4, ⟨.full, 31, false, 1⟩), (5, ⟨.full, 31, false, 1⟩), (6, ⟨.full, 31, false, 1⟩), (7, ⟨.full, 31, false, 1⟩)
             , (499, ⟨.deferred, 0, false, 1⟩), (500, ⟨.full, 31, false, 1⟩)] }

/-- Slot 0 at the last words of block 500 (g1, g2) and of its own block 499 (g3, g4), with a stride of −4 in e7. -/
def sLane : State := scene 0 (ready [.g 1 0x04000000000FFF80 false, .g 2 0x04000000000FFFFC false
  , .g 3 0x04000000000FF780 false, .g 4 0x04000000000FF7FC false, .v 3 ramp 0, .e 7 0xFFFFC]) tileV

/-- The loads at the last words of block 500, and the stores at those of block 499, each at its bounds. -/
theorem witness_VectorMemoryResults :
    let e := env sLane
    let may (op : Op) (a : GReg) (size o : Nat) : Prop :=
      Ready sLane e op ∧ e.acquiring = false ∧ e.c.th.pg a = false
        ∧ NamesLocal (e.c.th.rg a) ((0#11).toInt * 128) size o
    let loads (op : Op) (a : GReg) (size o : Nat) (addr : Nat → Nat) : Prop :=
      may op a size o ∧ ∀ l < 32, ReadsLane e a (addr l)
    let stores (op : Op) (a : GReg) (size o : Nat) (addr : Nat → Nat) : Prop :=
      may op a size o ∧ e.c.sb = [] ∧ e.cellBusy = false ∧ ∀ l < 32, WritesLane e a 2 l (addr l)
    let sd : Int := ((e.c.th.re 7).setWidth 20 : BitVec 20).toInt
    let u (l : Nat) : Nat := elemAt 32 (e.c.th.rv 3) l
    loads (op32 0 .notXc false 18 [.g 1]) 1 128 0xFFF80 (fun l => 0xFFF80 + 4 * l)
      ∧ loads (op32 0 .notXc false 18 [.g 2, .e 7]) 2 4 0xFFFFC (fun l => ((0xFFFFC : Nat) + l * sd).toNat)
      ∧ (∀ l : Nat, l < 32 → 0 ≤ (0xFFFFC : Nat) + l * sd ∧ (0xFFFFC : Nat) + l * sd ≤ 0xFFFFC)
      ∧ loads (op32 0 .notXc false 18 [.g 1, .v 3]) 1 1 0xFFF80 (fun l => 0xFFF80 + u l)
      ∧ (∀ l < 32, u l < 2 ^ 20 ∧ 0xFFF80 + u l ≤ 0xFFFFC ∧ (0xFFF80 + u l) % 4 = 0)
      ∧ stores (op32 0 .notXc true 18 [.g 3, .v 2]) 3 128 0xFF780 (fun l => 0xFF780 + 4 * l)
      ∧ stores (op32 0 .notXc true 18 [.g 4, .e 7, .v 2]) 4 4 0xFF7FC (fun l => ((0xFF7FC : Nat) + l * sd).toNat)
      ∧ (∀ l : Nat, l < 32 → 0 ≤ (0xFF7FC : Nat) + l * sd ∧ (0xFF7FC : Nat) + l * sd ≤ 0xFFFFC)
      ∧ stores (op32 0 .notXc true 18 [.g 3, .v 2, .v 3]) 3 1 0xFF780 (fun l => 0xFF780 + u l)
      ∧ (∀ l < 32, u l < 2 ^ 20 ∧ 0xFF780 + u l ≤ 0xFFFFC ∧ (0xFF780 + u l) % 4 = 0)
      ∧ sd % 4 = 0 ∧ e.c.th.pv 3 = 0 ∧ e.t.gather.freeAt ≤ e.s.cycle := by
  simp only [ready_iff, env_iff, namesLocal_iff, readsLane_iff, writesLane_iff, passesLane_iff, ReadableAt, WritableAt]
  repeat' apply And.intro
  all_goals decide +kernel

/-- 448 is the most that E4M3 holds and 480 is past it; NaNs and infinities of E4M3 and E5M2; sums with a NaN, with both
infinities, with one, and of zero with and without a nonzero term; and groups with a NaN, a top exponent and only zeros. -/
theorem witness_RoundingAndQuantisation :
    let fin (neg : Bool) (m : Nat) (e : Int) : FRes := ⟨.fin neg m e, false⟩
    let bits (m : Nat) (e : Int) : Nat :=
      let q := max (Int.log 2 ((m : ℚ) * 2 ^ e) - 3) (1 - 7 - 3)
      (q - (1 - 7 - 3)).toNat * 2 ^ 3 + pick .rne false 0 ((m : ℚ) * 2 ^ e / 2 ^ q)
    let xs : List FVal := [.fin false 3 0, .fin true 1 (-9), .fin false 0 0]
    bits 448 0 ≤ 0x7E ∧ 0x7E < bits 480 0 ∧ (0x7F / 2 ^ 3 % 2 ^ 4 = 15 ∧ 0x7F % 2 ^ 3 = 7)
      ∧ (0x7C / 2 ^ 2 % 2 ^ 5 = 2 ^ 5 - 1 ∧ 0x7C % 2 ^ 2 = 0) ∧ fmtE5m2 ≠ fmtE4m3 ∧ fmtE5m2 ≠ fmtE2m1
      ∧ (∃ x ∈ [fin false 1 0, ⟨.nan false, false⟩], x.val.isNan = true)
      ∧ (∃ x ∈ [(⟨.inf false, false⟩ : FRes), ⟨.inf true, false⟩], x.val = .inf true)
      ∧ (∀ x ∈ [(⟨.inf true, false⟩ : FRes), fin false 1 0], x.val.isNan = false ∧ x.val ≠ .inf !true)
      ∧ ([fin false 1 0, fin true 1 0].map fun x => x.val.rat).sum = 0 ∧ (fin true 1 0).val.mag ≠ 0
      ∧ ([fin false 1 0, fin true 3 0].map fun x => x.val.rat).sum < 0
      ∧ (∀ x ∈ [fin true 0 0, fin true 0 3], x.val.mag = 0 ∧ x.val.isNeg = true)
      ∧ (∀ x ∈ xs, x.isNan = false) ∧ TopEx xs 1
      ∧ TopEx (xs.filter fun x => decide (x.mag ≠ 0 ∧ Int.log 2 x.mag + 127 ≤ 128 - 3)) (-9)
      ∧ (∀ x ∈ xs.drop 2, x.mag = 0) ∧ (3 : ℚ) * 2 ^ ((254 : Int) - 128) < (.fin false 1 128 : FVal).mag := by
  simp only [TopEx]
  repeat' apply And.intro
  all_goals decide +kernel

end witnessVector

section witnessMatrix

/-- Slot 0 with K 32 and BF16, A in blocks 4 and 5 (g1), B in blocks 499 and 500 (g2) and EMPTY blocks from 8 on (g3). -/
def sMx : State := scene 0 (ready [.g 1 0x0400000000007800 false, .g 2 0x04000000000FF000 false
  , .g 3 0x0400000000009800 false, .e 0 0x10000020]) tileV

theorem witness_MatrixIssue_multiply :
    let e := env sMx
    let c := MxCfg.of (e.c.th.re 0)
    Ready sMx e (op32 0 .notXc true 20 [.g 1, .g 2, .e 0, .e 1, .e 2]) ∧ e.c.th.pg 1 = false ∧ e.c.th.pg 2 = false
      ∧ (∀ sp ∈ mmaSpans c (e.c.th.rg 1) (e.c.th.rg 2) (e.c.th.re 1) (e.c.th.re 2), ReadsSpan e sp)
      ∧ e.t.mx.length < 8 ∧ mmaOk c 3 false = true ∧ mmaOk c 3 true = true := by
  simp only [ready_iff, env_iff, readsSpan_iff, namesSpan_iff, namesLocal_iff]
  repeat' apply And.intro
  all_goals decide +kernel

theorem witness_MatrixIssue_move :
    let e := env sMx
    let c := MxCfg.of (e.c.th.re 0)
    let bytes := 4096 * ofmtSize c.ofmt
    Ready sMx e (op32 0 .notXc true 20 []) ∧ e.t.mx.length < 8 ∧ e.t.accBusy 3 = false
      ∧ Ready sMx e (op32 0 .notXc true 20 [.g 1, .e 0]) ∧ memFmtOk c 3 = true ∧ c.pair = false ∧ e.c.th.pg 1 = false
      ∧ ReadsSpan e ⟨e.c.th.rg 1, bytes, 64, 0⟩ ∧ Ready sMx e (op32 0 .notXc true 20 [.g 3, .e 0])
      ∧ NamesSpan e ⟨e.c.th.rg 3, bytes, 2048, 0⟩
      ∧ (∀ b ∈ e.t.spanBlocks ⟨e.c.th.rg 3, bytes, 2048, 0⟩, (e.t.block b).state = .empty
        ∨ ((e.t.block b).state = .deferred ∧ (e.t.block b).armed = true ∧ (e.t.block b).owner = 26))
      ∧ Ready sMx e (op32 0 .notXc true 20 [.e 0]) ∧ c.rsv = false ∧ pairOk c.pair 3 = true ∧ e.t.accBusy 0 = false := by
  simp only [ready_iff, env_iff, readsSpan_iff, namesSpan_iff, namesLocal_iff]
  repeat' apply And.intro
  all_goals decide +kernel

/-- The same with a command outstanding that owns accumulator 3. -/
def sMxBusy : State := scene 0 (ready [.g 1 0x0400000000007800 false, .e 0 0x10000020])
  { tileV with mx := [{ mxCmd 0 3 with seq := 0xFFFF }] }

theorem witness_MatrixIssue_waits : Ready sMx (env sMx) (op32 0 .notXc true 20 []) ∧ (env sMx).t.accBusy 3 = false
    ∧ (env sMx).t.mx = [] ∧ Ready sMxBusy (env sMxBusy) (op32 0 .notXc true 20 [])
    ∧ (env sMxBusy).t.mx = [{ mxCmd 0 3 with seq := 0xFFFF }] ∧ 3 ∈ ({ mxCmd 0 3 with seq := 0xFFFF } : MxCmd).owns
    ∧ (env sMxBusy).s.cur.ctx ≠ 17 ∧ (env sMxBusy).t.accBusy 3 = true
    ∧ (∀ reads ∈ [[], [RegId.g 1, .e 0], [.e 0]], Ready sMxBusy (env sMxBusy) (op32 0 .notXc true 20 reads))
    ∧ (let c := MxCfg.of ((env sMxBusy).c.th.re 0)
      memFmtOk c 3 = true ∧ c.rsv = false ∧ pairOk c.pair 3 = true ∧ pairOk c.pair 0 = true ∧ c.pair = false)
    ∧ (∀ j < 3, (env sMxBusy).t.accBusy j = false)
    ∧ (env sMxBusy).t.mx.find? (fun x => x.owns.contains 3) = some { mxCmd 0 3 with seq := 0xFFFF } := by
  simp only [ready_iff, env_iff]
  repeat' apply And.intro
  all_goals decide +kernel

end witnessMatrix

section witnessTransfer

theorem released_rel {e : Env} {sc : XScope} (h : e.fenced .rel (xscopeScope sc) [] = true) : e.released (.rel sc) := by
  intro x hx
  rcases hx with hx | hx <;> cases hx
  exact h

/-- XC with rank 3's block 0 (g1), the last two blocks (g2), the domain's rectangle (g3), a virtual address (g4), a tile
of domain 1 (g5) and the last cell (g6); two blocks to move, and 63 journal entries in use. -/
def sXc : State := scene 16 (ready [.g 1 0x0600000000305800 false, .g 2 0x04000000000FF000 false, .g 3 0x01010000 false
  , .g 4 0x0500000000000800 false, .g 5 0x0600000100005800 false, .g 6 22520 false, .e 4 0x10002, .e 5 0x0400000000005800])
  { tile0 with journal := (List.range 63).map fun i => (i, ⟨false, 0, 0, 1, 0, 0, 0⟩) }

theorem witness_SendAndPitchResults_send :
    let e := env sXc
    let p := e.c.th.rg 1
    (∀ r ∈ [1, 2, 3, 4], e.c.th.pg r = false) ∧ TransferWord (e.c.th.re 4) 2 ∧ NamesBlocks e (e.c.th.rg 2) 2 ∧ e.queueFree
      ∧ Ready sXc e (op32 0 .xcOnly true 21 [.g 1, .g 2, .e 4]) ∧ ptrSpace p = 2 ∧ ptrBad p = false ∧ fld p 10 0 = 0
      ∧ fld p 55 40 = e.s.pkgid.toNat ∧ fld p 37 32 = e.s.cur.dom ∧ fld p 31 20 < e.d.nrank
      ∧ Ready sXc e (op32 0 .xcOnly true 21 [.g 3, .g 2, .e 4, .e 5])
      ∧ rectRanks e.d (e.c.th.rg 3) = .ok [0, 1, 2, 3] ∧ NamesLocal (e.c.th.re 5) 0 2048 (ptrOff (e.c.th.re 5))
      ∧ Ready sXc e (op32 0 .xcOnly true 21 [.g 4, .g 2, .e 4]) ∧ ptrSpace (e.c.th.rg 4) = 1
      ∧ ptrBad (e.c.th.rg 4) = false ∧ fld (e.c.th.rg 4) 10 0 = 0 ∧ ptrSpace (e.c.th.rg 5) = 2
      ∧ ¬(ptrSpace (e.c.th.rg 5) = 2 ∧ fld (e.c.th.rg 5) 55 40 = e.s.pkgid.toNat ∧ fld (e.c.th.rg 5) 37 32 = e.s.cur.dom)
      ∧ e.released (.rel .system) ∧ e.t.journal.find 63 = none ∧ ∀ i < 63, (e.t.journal.find i).isSome = true := by
  simp only [ready_iff, env_iff, transferWord_iff, namesBlocks_iff, namesLocal_iff, Env.queueFree]
  repeat' apply And.intro
  all_goals first
    | exact released_rel (by decide +kernel)
    | decide +kernel

/-- Slot 0 with blocks 499 and 500 as destination (g2), a virtual address (g4) and the last barrier of CELL in e5. -/
def sFeed : State := scene 0 (ready [.g 2 0x04000000000FF000 false, .g 4 0x0500000000000800 false, .e 4 2, .e 5 22512])

theorem witness_ReadCommandResults :
    let e := env sXc
    let f := env sFeed
    let here (e : Env) : Prop := (∀ r ∈ [2, 4, 5], e.c.th.pg r = false) ∧ TransferWord (e.c.th.re 4) 2
      ∧ NamesBlocks e (e.c.th.rg 2) 2 ∧ e.released (.rel .system)
    here e ∧ here f ∧ (∀ r ∈ [4, 5], fld (e.c.th.rg r) 10 0 = 0 ∧ ptrBad (e.c.th.rg r) = false)
      ∧ Ready sXc e (op32 0 .xcOnly true 21 [.g 2, .g 4, .e 4]) ∧ ptrSpace (e.c.th.rg 4) = 1 ∧ e.queueFree
      ∧ (∀ agent ∈ [24, 27], ∀ k < 2, Armable e (499 + k) agent)
      ∧ Ready sXc e (op32 0 .xcOnly true 21 [.g 2, .g 5, .e 4]) ∧ ptrSpace (e.c.th.rg 5) = 2
      ∧ fld (e.c.th.rg 5) 37 32 ≠ e.s.cur.dom ∧ e.t.blockOf (ptrOff (e.c.th.rg 2)) = 499
      ∧ Ready sFeed f (op32 0 .notSv true 21 [.g 2, .g 4, .e 4, .e 5]) ∧ ptrSpace (f.c.th.rg 4) = 1
      ∧ (∀ k < 2, Armable f (499 + k) 25) ∧ (f.t.cmds.filter fun c => c.2.major == 21 && c.2.f6 == 4).length < 16
      ∧ f.c.th.re 5 ≠ 0 ∧ NamesLocal (f.c.th.re 5) 0 16 (ptrOff (f.c.th.re 5))
      ∧ f.t.carve.region (ptrOff (f.c.th.re 5)) = .cell ∧ f.t.granTag (ptrOff (f.c.th.re 5)) = ptrTag (f.c.th.re 5)
      ∧ f.t.nfeed (ptrOff (f.c.th.re 5)) ≠ 255 ∧ f.acquiring = false ∧ f.c.sbHits 22512 16 = []
      ∧ f.cellHits 22512 16 = false ∧ ptrOff (f.c.th.re 5) = 22512 := by
  simp only [ready_iff, env_iff, transferWord_iff, namesBlocks_iff, namesLocal_iff, Env.queueFree, Armable]
  repeat' apply And.intro
  all_goals first
    | exact released_rel (by decide +kernel)
    | decide +kernel

/-- XC in a routed exchange: chunk 0 (g0) of the directory at the last cell (e5), which names the four ranks; one block
from g2; g6 the last cell, and g7 the same cell of rank 3. -/
def sRoute : State := scene 16 (ready [.g 2 0x04000000000FF800 false, .g 6 22520 false, .g 7 0x02000000003057F8 false
  , .e 4 0x10001, .e 5 22520]) { tile0 with sram := [(22521, 0x40)], routes := [(0, 4095)] } { dom0 with routed := true }

theorem witness_CombineAndRouteResults :
    let e := env sRoute
    let th := e.c.th
    e.queueFree ∧ Ready sRoute e (op32 0 .xcOnly true 21 [.g 6, .g 2]) ∧ (∀ r ∈ [0, 2, 6, 7], th.pg r = false)
      ∧ e.released (.rel .system) ∧ NamesLocal (th.rg 6) 0 8 (ptrOff (th.rg 6))
      ∧ e.t.carve.region (ptrOff (th.rg 6)) = .cell ∧ e.t.granTag (ptrOff (th.rg 6)) = ptrTag (th.rg 6)
      ∧ Ready sRoute e (op32 0 .xcOnly true 21 [.g 7, .g 2]) ∧ ptrSpace (th.rg 7) = 2 ∧ ptrBad (th.rg 7) = false
      ∧ fld (th.rg 7) 2 0 = 0 ∧ fld (th.rg 7) 55 40 = e.s.pkgid.toNat
      ∧ Ready sRoute e (op32 0 .xcOnly true 21 [.g 0, .g 2, .e 4, .e 5]) ∧ e.d.routed = true
      ∧ fld (th.re 4) 11 9 = 0 ∧ fld (th.re 4) 15 13 = 0 ∧ fld (th.re 4) 63 28 = 0 ∧ (th.rg 0).toNat < fld (th.re 4) 27 16
      ∧ NamesBlocks e (th.rg 2) 1 ∧ NamesLocal (th.re 5) (8 * (th.rg 0).toNat : Nat) 8 22520
      ∧ e.acquiring = false ∧ e.cellHits 22520 8 = false
      ∧ e.t.carve.region 22520 = .cell ∧ e.t.granTag 22520 = ptrTag (th.re 5)
      ∧ loadBytes e.c e.t 22520 8 = some [0, 0x40, 0, 0, 0, 0, 0, 0] ∧ e.t.granPois 22520 = false
      ∧ natOfBytes [0, 0x40, 0, 0, 0, 0, 0, 0] / 2 ^ 24 = 0 ∧ natOfBytes [0, 0x40, 0, 0, 0, 0, 0, 0] / 2 ^ 12 ≠ 0
      ∧ natOfBytes [0, 0x40, 0, 0, 0, 0, 0, 0] % 2 ^ 12 + natOfBytes [0, 0x40, 0, 0, 0, 0, 0, 0] / 2 ^ 12 ≤ e.d.nrank
      ∧ e.t.closed = false ∧ e.t.routes.getD 0 0 < 4096 ∧ Ready sRoute e (op32 0 .xcOnly true 21 []) := by
  simp only [ready_iff, env_iff, namesBlocks_iff, namesLocal_iff, Env.queueFree]
  repeat' apply And.intro
  all_goals first
    | exact released_rel (by decide +kernel)
    | decide +kernel

/-- XC in a routed exchange, with the last block (g2) as an inbox of one block and its directory in the last pair of
CELL. -/
def sInbox : State := scene 16 (ready [.g 2 0x04000000000FF800 false, .e 4 1, .e 5 22512]) tile0 { dom0 with routed := true }

theorem witness_ReceiveResults :
    let e := env sInbox
    e.c.th.pg 2 = false ∧ TransferWord (e.c.th.re 4) 1 ∧ NamesBlocks e (e.c.th.rg 2) 1
      ∧ (∀ k < 1, Armable e (500 + k) 24) ∧ e.t.blockOf (ptrOff (e.c.th.rg 2)) = 500
      ∧ Ready sInbox e (op32 0 .xcOnly true 21 [.g 2, .e 4]) ∧ Ready sInbox e (op32 0 .xcOnly true 21 [.g 2, .e 4, .e 5])
      ∧ e.d.routed = true ∧ e.t.inboxUsed = false ∧ NamesLocal (e.c.th.re 5) 0 8 (ptrOff (e.c.th.re 5))
      ∧ (∀ k ≤ 1, e.t.carve.region (ptrOff (e.c.th.re 5) + 8 * k) = .cell
        ∧ e.t.granTag (ptrOff (e.c.th.re 5) + 8 * k) = ptrTag (e.c.th.re 5))
      ∧ Ready sInbox e (op32 0 .xcOnly true 22 []) ∧ e.t.closed = false ∧ e.queueFree
      ∧ e.acquiring = false ∧ e.c.sbHits (ptrOff (e.c.th.re 5)) 8 = [] ∧ e.cellHits (ptrOff (e.c.th.re 5)) 8 = false
      ∧ Ready sXc (env sXc) (op32 0 .xcOnly true 22 []) ∧ (env sXc).d.routed = false ∧ e.t.xcOutstanding = false
      ∧ e.t.recvs = [] := by
  simp only [ready_iff, env_iff, transferWord_iff, namesBlocks_iff, namesLocal_iff, Env.queueFree, Armable]
  repeat' apply And.intro
  all_goals decide +kernel

/-- Slot 0 after an answer to its PITCH, whose word was 0x3FF. -/
def sAnswered (status : Nat) : State := scene 0 { ready regs with busy := .pitchDone status 0x3FF }

/-- Slot 0 with a handler word in g1, whose argument registers are clean. -/
def sPitch : State := scene 0 (ready [.g 1 0x3FF false])

theorem witness_SendAndPitchResults_pitch :
    let op (b : GReg) : Op := op32 0 .notSv true 23 ([b, 4, 5, 6, 7, 8, 9].map RegId.g)
    let e := env sPitch
    let w := e.c.th.rg 1
    Ready sPitch e (op 1) ∧ e.c.th.pg 1 = false ∧ (∀ r ∈ [4, 5, 6, 7, 8, 9], e.c.th.pg r = false) ∧ fld w 15 12 = 0
      ∧ fld w 31 22 = 0 ∧ fld w 63 48 = 0 ∧ e.released (.rel .system) ∧ e.c.busy = .none
      ∧ fld w 47 32 = e.s.pkgid.toNat
      ∧ (∀ st ∈ [7, 8], (env (sAnswered st)).c.busy = .pitchDone st 0x3FF ∧ (env (sAnswered st)).s.cur.ctx ≠ 17)
      ∧ Ready (sAnswered 7) (env (sAnswered 7)) (op 11) ∧ Ready (sAnswered 8) (env (sAnswered 8)) (op 11) := by
  simp only [ready_iff, env_iff]
  repeat' apply And.intro
  all_goals first
    | exact released_rel (by decide +kernel)
    | decide +kernel

end witnessTransfer
section witnessSystem

/-- SV with an even address inside the SRAM in g9 and a rounding mode of 4 in g1. -/
def sSv : State := scene 17 (ready (regs ++ [.g 1 4 false]))

/-- Slot 0 with a rounding mode that is legal in g1 and one that is reserved in g2. -/
def sMode : State := scene 0 (ready [.g 1 4 false, .g 2 5 false])

theorem witness_ControlWords : Ready sSv (env sSv) (op32 0 .all false 24 []) ∧ (env sSv).s.cur.ctx = 17
    ∧ Ready s0 (env s0) (op32 0 .all false 24 []) ∧ (env s0).s.cur.ctx ≠ 17 ∧ (env s0).speculative = false ∧ Ready sSv (env sSv) (op32 0 .all true 24 [.g 9])
    ∧ (env sSv).c.th.pg 9 = false ∧ ((env sSv).c.th.rg 9).toNat < 2 ^ 20 ∧ ((env sSv).c.th.rg 9).toNat % 2 = 0
    ∧ (env sSv).t.stallchk = false ∧ Ready sMode (env sMode) (op32 0 .all true 24 [.g 1])
    ∧ ((env sMode).c.th.rg 1).toNat % 8 ≤ 4 ∧ Ready sMode (env sMode) (op32 0 .all true 24 [.g 2])
    ∧ 4 < ((env sMode).c.th.rg 2).toNat % 8 ∧ (env sMode).s.cur.ctx ≠ 17 ∧ (env sMode).c.th.pg 2 = false
    ∧ Ready sMode (env sMode) (op32 0 .all true 24 []) := by
  simp only [ready_iff, env_iff]
  repeat' apply And.intro
  all_goals decide +kernel

theorem witness_PoisonTests : Ready s0 (env s0) (op32 0 .all false 24 [.g 11])
    ∧ Ready sVec (env sVec) (op32 0 .all false 24 [.v 2]) ∧ Ready s0 (env s0) (op32 0 .all false 24 []) := by
  simp only [ready_iff, env_iff]
  repeat' apply And.intro
  all_goals decide +kernel

/-- An entry of the journal that is refused, or not. -/
def jentry (refused : Bool) : JEntry := ⟨refused, 7, 1, 3, 9, 0, 0⟩

/-- Slot 0 with the last granule of CELL (g2), a tag (g3), a count (g4), and the last journal entry (g5); entry 62 is in
flight and 63 refused. -/
def sSys (busy : Busy) : State :=
  scene 0 { ready [.g 2 22464 false, .g 3 63 false, .g 4 0xFFFFFFFF false, .g 5 63 false, .g 6 62 false] with busy }
    { tile0 with journal := [(62, jentry false), (63, jentry true)] }

theorem witness_SystemInstructionResults :
    let s := sSys .none
    let e := env s
    let th := e.c.th
    Ready s e (op32 0 .all false 24 [.g 2]) ∧ (∀ r ∈ [0, 2, 3, 4, 5, 6], th.pg r = false)
      ∧ NamesLocal (th.rg 2) (63#11).toInt 1 22527
      ∧ (e.t.carve.region 22527 = .frame → e.t.carve.inFrame 22527 1 0 = true) ∧ e.c.sbHits 22464 64 = []
      ∧ e.acquiring = false
      ∧ Ready s e (op32 0 .all true 24 [.g 2, .g 3]) ∧ PassesLocal e 2 (0#11).toInt 64 22464
      ∧ e.t.carve.region 22464 = .cell ∧ (th.rg 3).toNat < 64
      ∧ Ready s e (op32 0 .slots true 24 [.g 0]) ∧ Ready s e (op32 0 .slots true 24 [.g 4]) ∧ e.c.busy = .none
      ∧ (th.rg 0).toNat % 2 ^ 32 = 0 ∧ (th.rg 4).toNat % 2 ^ 32 ≠ 0
      ∧ Ready (sSys (.idleDone 2)) (env (sSys (.idleDone 2))) (op32 0 .slots true 24 [.g 4])
      ∧ (env (sSys (.idleDone 2))).c.busy = .idleDone 2
      ∧ Ready s e (op32 0 .all true 24 [.g 3, .g 2]) ∧ e.c.sb = [] ∧ e.s.kiln.kept.length < 256
      ∧ Ready s e (op32 0 .all false 24 []) ∧ Ready s e (op32 0 .all true 24 [.g 5]) ∧ (th.rg 5).toNat = 63
      ∧ e.t.journal.find 63 = some (jentry true) ∧ (jentry true).refused = true
      ∧ Ready s e (op32 0 .all true 24 [.g 6]) ∧ (th.rg 6).toNat = 62 ∧ e.t.journal.find 62 = some (jentry false)
      ∧ (jentry false).refused = false := by
  simp only [ready_iff, env_iff, passesLocal_iff, namesLocal_iff]
  repeat' apply And.intro
  all_goals decide +kernel

/-- Slot 0 past a branch that has not resolved. -/
def sSpec : State := scene 0 { ready regs with th := { (ready regs).th with specUntil := 102 } }

theorem witness_TrapInstructions : (env s0).s.cur.ctx ≠ 17 ∧ Ready s0 (env s0) (op32 0 .all true 25 [.g 8])
    ∧ (env s0).c.th.pg 8 = false ∧ Ready s0 (env s0) (op32 0 .all true 25 [.g 11]) ∧ (env s0).c.th.pg 11 = true
    ∧ Ready s0 (env s0) (op32 0 .all true 25 []) ∧ (env sSpec).speculative = true ∧ (env sSpec).s.cur.ctx ≠ 17
    ∧ sSpec.env? = some (env sSpec) ∧ (env sSv).s.cur.ctx = 17 ∧ Ready sSv (env sSv) (op32 0 .all true 25 [.g 8]) := by
  simp only [ready_iff, env_iff]
  repeat' apply And.intro
  all_goals decide +kernel

/-- A trap of context i, which for XC came after XEND. -/
def trap (i : Nat) : TrapInfo := ⟨cSoftware, 0, 1, 2, i, false, i == 16, 0x100, 90⟩

/-- SV as it serves a trap of context i. -/
def sServe (i : Nat) : State := scene 17 (ready []) { tile0 with serving := some (trap i), tepc := 0x104 }

theorem witness_ReturnFromTrapAndIllegal :
    (∀ i ∈ [15, 16], (env (sServe i)).c.sb = [] ∧ (env (sServe i)).t.mx = []
        ∧ (env (sServe i)).t.serving = some (trap i) ∧ (trap i).ctx < 17 ∧ (env (sServe i)).t.starts = []
        ∧ (env (sServe i)).t.servedDrained = true)
      ∧ Ready (sServe 15) (env (sServe 15)) (op32 0 .svOnly true 25 [])
      ∧ Ready (sServe 16) (env (sServe 16)) (op32 0 .svOnly true 25 []) ∧ (trap 16).xended = true
      ∧ ¬((trap 15).ctx = 16 ∧ (trap 15).xended = true)
      ∧ s0.env? = some (env s0) ∧ (env s0).s.cur.ctx ≠ 17 ∧ (env s0).speculative = false := by
  simp only [ready_iff, env_iff]
  repeat' apply And.intro
  all_goals decide +kernel

end witnessSystem

section witnessTile

/-- A result for g3 that lands in this cycle. -/
def pend0 : Pend := ⟨[.g 3], [.g 3 7 false], some 100, true, 0, 0, 0, 0⟩

/-- A buffered store of slot 0 that is ready, in the last doubleword of its frame. -/
def sb0 : SbEntry := ⟨0, 100, 3064, 8, (List.range 8).map fun i => (3064 + i, 7), true, false, false⟩

/-- Slot 0 with an ABINIT that is ready, on the last barrier of CELL. -/
def sBarrier : State := scene 0 { ready [] with
  sb := [⟨0, 100, 22512, 16, (List.range 8).map fun i => (22512 + i, 7), false, true, false⟩] }

/-- Slot 0 with a result that is due, a store that is ready, and a fill of the last block, k pieces of which are written. -/
def sDue (k : Nat := 15) : State :=
  scene 0 { ready [] with th := { (ready []).th with pend := [pend0] }, sb := [sb0], busy := .fill 500 (115 - k) 8 k }

theorem witness_ResultAndStoreEvents :
    let t := tileOf sDue 0 0
    sDue.at_ 0 0 (domOf sDue 0) t ∧ firstDue sDue.cycle (t.ctx 0).th.pend = some pend0 ∧ t.storePort ≤ sDue.cycle
      ∧ t.nextStore sDue.cycle = some (0, sb0) ∧ sb0.abinit = false ∧ (t.ctx 0).busy = .fill 500 100 8 15
      ∧ 100 ≤ sDue.cycle
      ∧ (∀ k ∈ [0, 14], ((tileOf (sDue k) 0 0).ctx 0).busy = .fill 500 (115 - k) 8 k ∧ k < 15
        ∧ 115 - k + k ≤ (sDue k).cycle + 15)
      ∧ (let u := tileOf sBarrier 0 0
        sBarrier.at_ 0 0 (domOf sBarrier 0) u ∧ u.storePort ≤ sBarrier.cycle
          ∧ (∀ x ∈ (u.ctx 0).sb, u.nextStore sBarrier.cycle = some (0, x) ∧ x.abinit = true
            ∧ ∀ c ∈ x.data, x.addr ≤ c.1 ∧ c.1 < x.addr + 8) ∧ (u.ctx 0).sb.length = 1) := by
  simp only [at_iff]
  repeat' apply And.intro
  all_goals decide +kernel

/-- An operation of slot 0 on the first cell, which is its counter, or its list. -/
def cop (fn : CellFn) : CellOp := ⟨0, 0, 0, fn, 20480, 20480, 5, 0, .relaxed, 3, 0⟩

/-- Slot 0 with this operation at the cell port, and v in the cell. -/
def sCell (fn : CellFn) (v : Byte) : State :=
  scene 0 (ready []) { tile0 with cellQ := [cop fn], sram := if v = 0 then [] else [(20480, v)] }

/-- One record for the list of a VQDX, which is empty with room for one, or holds one and has room for two. -/
def list0 : CellFn := .list [5] 1 [] 1 0
def list1 : CellFn := .list [5] 2 [] 1 0

theorem witness_CellEvents :
    let trig : CellFn := .decf 0x04000000000FF800
    let ok (fn : CellFn) (v : Byte) : Prop :=
      (sCell fn v).at_ 0 0 (domOf (sCell fn v) 0) (tileOf (sCell fn v) 0 0)
        ∧ (tileOf (sCell fn v) 0 0).nextCellOp = some (cop fn) ∧ (tileOf (sCell fn v) 0 0).cellFree ≤ 100
    let appends (fn : CellFn) (n : Nat) (v : Byte) : Prop :=
      let t := tileOf (sCell fn v) 0 0
      (t.sram.read64 20480).toNat + [(5 : Word)].length ≤ n
        ∧ (∀ i < 1, 20480 + 8 + 8 * ((t.sram.read64 20480).toNat + i) ≤ 0xFFFFF
          ∧ t.carve.region (20480 + 8 + 8 * ((t.sram.read64 20480).toNat + i)) = .cell
          ∧ t.hitsWord1 (20480 + 8 + 8 * ((t.sram.read64 20480).toNat + i)) 8 = false
          ∧ t.granTag (20480 + 8 + 8 * ((t.sram.read64 20480).toNat + i)) = ptrTag (cop fn).ptr)
        ∧ (t.sram.read64 20480).toNat + [(5 : Word)].length < 2 ^ 64 ∧ t.granPois 20480 = false
    ok .cas 0 ∧ ok trig 2 ∧ ok trig 1 ∧ ok .tagset 0 ∧ ok list0 0 ∧ ok list1 1 ∧ (cop .cas).ctx < 18
      ∧ CellFn.isList .cas = false ∧ (tileOf (sCell trig 2) 0 0).sram.read64 20480 ≠ 1
      ∧ (let t := tileOf (sCell trig 1) 0 0
        t.sram.read64 20480 = 1 ∧ ptrTag 0x04000000000FF800 = (t.block (t.blockOf (ptrOff 0x04000000000FF800))).gen
          ∧ (t.block (t.blockOf (ptrOff 0x04000000000FF800))).state = .empty)
      ∧ (tileOf (sCell .tagset 0) 0 0).granTag 20480 = ptrTag (cop .tagset).ptr
      ∧ appends list0 1 0 ∧ appends list1 2 1
      ∧ 20480 + 8 < 20480 + 8 + 8 * ((tileOf (sCell list1 1) 0 0).sram.read64 20480).toNat := by
  simp only [at_iff]
  repeat' apply And.intro
  all_goals decide +kernel

/-- A trap of slot 15 that waits for SV, which is free; and XC with a refused put. -/
def sTrapped : State :=
  scene 16 (ready []) { tile0 with traps := [trap 15], refusals := [63], journal := [(63, jentry true)] }

theorem witness_TrapEntryEvents :
    let t := tileOf sTrapped 0 0
    sTrapped.at_ 0 0 (domOf sTrapped 0) t ∧ t.traps = trap 15 :: [] ∧ t.serving = none ∧ (t.ctx 17).run = .free
      ∧ (trap 15).raisedAt < sTrapped.cycle ∧ (t.svFree < sTrapped.cycle ∨ t.svFree = 0) ∧ (trap 15).ctx < 17
      ∧ (t.ctx 15).sb = [] ∧ (t.ctx 15).th.pend = [] ∧ (t.ctx 16).wrong = none ∧ (t.ctx 16).th.specTrap = none
      ∧ (t.ctx 16).th.specUntil ≤ sTrapped.cycle ∧ t.refusals = 63 :: [] ∧ t.journal.find 63 = some (jentry true) ∧ (t.ctx 16).run = .ready
      ∧ (t.ctx 16).spent ≤ sTrapped.cycle ∧ (t.ctx 16).notBefore ≤ sTrapped.cycle ∧ (t.ctx 16).busy = .none := by
  simp only [at_iff]
  repeat' apply And.intro
  all_goals decide +kernel

/-- A read that has ended, a feed whose block 3 has landed, one with a committed block to count on the last barrier of
CELL, whose PENDING is 2,048, a send of block 0 that is due, a refusal of a block of a newer generation that is due, an IDLE
of slot 0 that is over while its vote wait ends, and an exchange whose closing counts are in. -/
def sEngines : State := scene 0
  { ready [] with run := .idle, idle := some ⟨90, 10, 0, 0, false⟩, voteWait := some 100 }
  { tile0 with
    reads := [⟨[0], 99, none, .none⟩], readReqs := [(100, 2)], routedAt := some 100, sram := [(22513, 8)]
    staleDue := [(100, 5, 0)]
    cmds := [(1, ⟨0, 0, 21, 4, 0, 0x0400000000007000, 0, 1, [], 1, [.landed], none, none, [], [], 100, 0, []⟩),
             (2, ⟨16, 0, 21, 0, 0, 0, 0x0400000000005800, 1, [0], 0, [.todo], none, none, [], [], 0, 0, []⟩),
             (3, ⟨0, 0, 21, 4, 0, 0x0400000000007800, 0, 2, [], 2, [.done, .todo], none, some 22512, [], [], 0, 1, []⟩)] }

/-- The same tile with block 3 armed for the feed, and one whose inbox of two blocks has taken a unit into its second slot. -/
def tFeed : Tile := { tileOf sEngines 0 0 with blocks := [(3, ⟨.deferred, 25, true, 1⟩)] }
def sRouted : State := scene 0 (ready [])
  { tile0 with
    routedAt := some 100, inbox := some ⟨499, 2, 22504, true, 1, 2⟩, blocks := [(500, ⟨.deferred, 24, true, 1⟩)] }

theorem witness_EngineEvents :
    let t := tileOf sEngines 0 0
    let c := (t.cmds.find 1).getD (newCmd (env sEngines) 0 .relaxed 0 0 0 [] 0)
    let x := (t.cmds.find 2).getD (newCmd (env sEngines) 0 .relaxed 0 0 0 [] 0)
    let y := (t.cmds.find 3).getD (newCmd (env sEngines) 0 .relaxed 0 0 0 [] 0)
    sEngines.at_ 0 0 (domOf sEngines 0) t
      ∧ t.reads.find? (fun r => decide (r.last < sEngines.cycle)) = some ⟨[0], 99, none, .none⟩
      ∧ t.cmds.find 1 = some c ∧ c.major = 21 ∧ c.f6 = 4 ∧ c.commitAt ≤ sEngines.cycle
      ∧ t.cmds.find 3 = some y ∧ y.commits sEngines.cycle = false ∧ y.bar = some 22512 ∧ 0 < y.uncounted
      ∧ t.cellFree ≤ sEngines.cycle ∧ fld (t.sram.read64 22512) 55 0 = 2048
      ∧ (sEngines.stage = 0 ∧ (t.staleDue.find? fun p => decide (p.1 ≤ sEngines.cycle)).isSome = true)
      ∧ tileOf { sEngines with stage := 1 } 0 0 = t
      ∧ c.prog.getD c.nextCommit .todo = .landed ∧ t.pool = [] ∧ t.destBlock c c.nextCommit = 3
      ∧ t.armedFor 3 25 (ptrTag c.a) = false ∧ tFeed.destBlock c c.nextCommit = 3
      ∧ tFeed.armedFor 3 25 (ptrTag c.a) = true ∧ tFeed.cmds.find 1 = some c
      ∧ t.readReqs.find? (fun p => decide (p.1 ≤ sEngines.cycle)) = some (100, 2) ∧ t.cmds.find 2 = some x
      ∧ (t.block (t.blockOf (ptrOff x.b) + x.next)).gen = ptrTag x.b
      ∧ (t.block (t.blockOf (ptrOff x.b) + x.next)).state = .full
      ∧ (t.ctx 0).idleOver sEngines.cycle (domOf sEngines 0).launch.det = some 0 ∧ (t.ctx 0).voteWait = some 100
      ∧ t.routedAt = some 100 ∧ t.routedDone = false
      ∧ (let u := tileOf sRouted 0 0
        sRouted.at_ 0 0 (domOf sRouted 0) u ∧ u.routedAt = some 100 ∧ u.routedDone = false
          ∧ u.inbox = some ⟨499, 2, 22504, true, 1, 2⟩ ∧ u.armedSlot (499 + 0) = false ∧ u.armedSlot (499 + 1) = true) := by
  simp only [at_iff]
  repeat' apply And.intro
  all_goals decide +kernel

/-- A tile with one matrix command. -/
def sMatrix (q : MxCmd) : State := scene 0 (ready []) { tileV with mx := [q] }

theorem witness_MatrixEvents :
    let ok (q : MxCmd) : Prop := (sMatrix q).at_ 0 0 (domOf (sMatrix q) 0) (tileOf (sMatrix q) 0 0)
    let mx (q : MxCmd) := (tileOf (sMatrix q) 0 0).mx
    let macc : MxCmd := { mxCmd 6 3 with start := 100 }
    let mld : MxCmd := { mxCmd 1 3 with start := 100, pa := 0x0400000000007800 }
    let doneC : MxCmd := { mxCmd 3 3 with started := true, done := 100, result := [Acc.zero] }
    let doneM : MxCmd := { mxCmd 0 3 with started := true, done := 100 }
    let mst : MxCmd := { mxCmd 2 3 with started := true, start := 81, pa := 0x0400000000009800, pieces := 15 }
    let c := MxCfg.of 0x20110020
    ok macc ∧ ok mld ∧ ok doneC ∧ ok doneM ∧ ok mst
      ∧ (mx macc).find? (fun q => q.compute == true && !q.started && decide (q.start ≤ 100)) = some macc
      ∧ (mx mld).find? (fun q => q.compute == false && !q.started && decide (q.start ≤ 100)) = some mld
      ∧ (mx doneC).find? (fun q => q.compute == true && q.started && decide (q.done ≤ 100)) = some doneC
      ∧ (mx doneM).find? (fun q => q.compute == false && q.started && decide (q.done ≤ 100)) = some doneM
      ∧ (tileOf (sMatrix mst) 0 0).mstDue? 100 true = some mst
      ∧ (let t := tileOf (sMatrix mst) 0 0
        t.armedFor (t.blockOf (ptrOff mst.pa + 128 * mst.pieces)) 26 (ptrTag mst.pa) = false)
      ∧ (let t := { tileV with mx := [mst], blocks := [(8, ⟨.deferred, 26, true, 1⟩)] }
        t.mstDue? 100 true = some mst
          ∧ t.armedFor (t.blockOf (ptrOff mst.pa + 128 * mst.pieces)) 26 (ptrTag mst.pa) = true)
      ∧ mst.pieces < 32 * ofmtSize (MxCfg.of mst.cfg).ofmt ∧ Mem.wf (tileOf (sMatrix mst) 0 0).sram = true
      ∧ c.k = 32 ∧ c.afmt = 1 ∧ c.bfmt = 1 ∧ c.pair = false ∧ c.ofmt ≤ 4 := by
  simp only [at_iff]
  repeat' apply And.intro
  all_goals decide +kernel

end witnessTile
section witnessDomain

/-- A package with these domains, in cycle 100. -/
def package (l : List (Nat × Domain)) : State := { State.reset with cycle := 100, doms := l }

/-- A domain of one tile, with a compute node 0 that leads to itself. -/
def dom1 (st : DomStatus) : Domain := { dom0 with
  status := st, launch := { dom0.launch with width := 1, height := 1, nhand := 1 }
  tiles := [(0, { tile0 with voteSeen := true })], cache := [(0, ⟨0, 0, false, 0, 1, 0, 0, 0, 0, 0, 5⟩)] }

/-- The domain at the end of an odd phase. -/
def sOdd : State := package [(0, { dom1 .running with phase := 1 })]

theorem witness_BoundaryAdvancesThePhase :
    let d := domOf sOdd 0
    sOdd.doms.find 0 = some d ∧ d.status = .running ∧ d.startAt ≤ sOdd.cycle ∧ (∀ p ∈ d.tiles, p.2.voteSeen = true)
      ∧ d.phase.getLsbD 0 = true ∧ d.inserted = false ∧ d.cache.find d.node = some ⟨0, 0, false, 0, 1, 0, 0, 0, 0, 0, 5⟩
      ∧ d.cache.find 0 = some ⟨0, 0, false, 0, 1, 0, 0, 0, 0, 0, 5⟩ ∧ d.plan = 0 ∧ d.sliceDue = false
      ∧ (⟨0, 0, false, 0, 1, 0, 0, 0, 0, 0, 5⟩ : GNode).kind = 0 := by
  simp only [dom_iff]
  repeat' apply And.intro
  all_goals decide +kernel

/-- A request of domain 5 for the last tile of the array, planned or not, of a launch or of a restore. -/
def place0 (planned restore : Bool) : Place := ⟨5, restore, 0, true, 39, 31, 1, 1, 0, planned⟩

/-- Domain 5 with its request. -/
def sPlace (planned restore : Bool) : State :=
  let s := package [(5, { dom1 (if restore then .saved else .pending) with x0 := 0, y0 := 0 })]
  { s with kiln := { s.kiln with places := [place0 planned restore] } }

/-- Domain 0 in this status, at a full lap, at the end of its slice and with a lock that clears. -/
def sDom (st : DomStatus) : State :=
  { package [(0, { dom1 st with lock := some 0, lockUntil := 100, sliceAt := some 0, lap := 5, budget := 5 })] with
    us := 3000 }

/-- Domain 0 that leaves a forwarding entry of one move, which retires, and one of another, which stays. -/
def sGone : State := { sDom .running with vacating := [⟨0, 0, 39, 31, 5, 100⟩, ⟨0, 1, 38, 31, 6, 0⟩] }

theorem witness_DomainEvents :
    let d (st : DomStatus) := domOf (sDom st) 0
    (sDom .running).doms.find 0 = some (d .running) ∧ (d .running).status = .running ∧ (d .running).lapStopped = false
      ∧ (d .running).budget ≤ (d .running).lap ∧ (d .running).sliceAt = some 0
      ∧ 0 + (d .running).sliceLen (sDom .running).level ≤ (sDom .running).us ∧ (d .running).status.placed = true ∧ (d .running).lock = some 0
      ∧ (d .running).lockUntil ≤ (sDom .running).time
      ∧ (sPlace false false).doms.find 5 = some (domOf (sPlace false false) 5)
      ∧ headPlace (sPlace false false).kiln.places = some (place0 false false)
      ∧ (place0 false false).wanted.find? (fun r => r.free ((sPlace false false).taken [])) = some ⟨39, 31, 1, 1⟩
      ∧ (∀ b ∈ [false, true], headPlace (sPlace true b).kiln.places = some (place0 true b)
        ∧ (place0 true b).dom = 5 ∧ (place0 true b).rect.free ((sPlace true b).taken []) = true)
      ∧ (d (.saving 100)).status = .saving 100 ∧ (sDom (.saving 100)).feedsMoving 0 = false
      ∧ (d (.saving 100)).commitsDue = false
      ∧ (d (.restoring 100)).status = .restoring 100 ∧ (d (.restoring 100)).heldNotices = []
      ∧ (d (.restoring 100)).logged = [] ∧ (d (.restoring 100)).atEnd = false ∧ 100 ≤ (sDom (.restoring 100)).time
      ∧ (let s := { sDom (.restoring 100) with doms := [(0, { d (.restoring 100) with atEnd := true })] }
        s.doms.find 0 = some { d (.restoring 100) with atEnd := true })
      ∧ (d (.restoring 100)).cache.find (d (.restoring 100)).node = some ⟨0, 0, false, 0, 1, 0, 0, 0, 0, 0, 5⟩
      ∧ (d (.migrating 100)).status = .migrating 100 ∧ (sDom (.migrating 100)).feedsMoving 0 = false
      ∧ (d (.migrating 100)).commitsDue = false
      ∧ (d (.migrating 100)).cache.find (d (.migrating 100)).node = some ⟨0, 0, false, 0, 1, 0, 0, 0, 0, 0, 5⟩
      ∧ (∃ v ∈ sGone.vacating, v.dom = 0 ∧ ∀ w ∈ sGone.vacating, w.dom = 0 → w.since = v.since →
        w.retireAt ≠ 0 ∧ w.retireAt ≤ sGone.time ∧ ∀ f ∈ sGone.flits, ¬(f.dx = w.x ∧ f.dy = w.y ∧ f.agt = false))
      ∧ (d (.releasing 0 7)).status = .releasing 0 7 ∧ (sDom (.releasing 0 7)).flitsTo 0 = false := by
  simp only [dom_iff]
  repeat' apply And.intro
  all_goals decide +kernel

end witnessDomain

section witnessArrival

/-- A message from rank 3's XC to rank 0 of domain 0 that has arrived whole. -/
def msg0 (kind : MsgKind) (addr : Nat) : Msg where
  kind
  orig := .put
  attr := ⟨0, 0, 3, 16, 0, 21, 0, 0, 0, 0, 0⟩
  src := .tile 0 3
  dst := .tile 0 0
  req := 1
  slot := 0
  dpkg := 0
  xid := 0
  tag := 1
  addr
  va := none
  data := [(2047, 9)]
  pois := 0
  args := []
  ord := 0
  status := 0
  flits := 16
  injected := 16
  fly := (List.range 16).map fun i => (100, i)
  landed := 0
  readyAt := 0
  waitUntil := none
  counted := false

/-- The tile that it reaches, in cycle 100. -/
def sMsg (m : Msg) (t : Tile := tile0) : State := { scene 0 (ready []) t with msgs := [(7, m)], nextMsg := 8 }

/-- A reply to a command of rank 0, and that command, whose block is the last. -/
def reply0 : Msg := { msg0 .reply 0 with attr := ⟨0, 0, 0, 16, 0, 21, 2, 0, 0, 0, 0⟩ }

/-- The command that the reply answers. -/
def get0 : Cmd := ⟨16, 0, 21, 2, 0, 0x04000000000FF800, 0, 1, [], 1, [.sent], none, none, [], [], 0, 0, []⟩

/-- An inbox of two blocks, of which the second alone is free. -/
def box0 : Inbox := ⟨499, 2, 22504, false, 0, 0⟩

theorem witness_TileArrivals :
    let ok (m : Msg) (t : Tile) : Prop :=
      (sMsg m t).at_ 0 0 (domOf (sMsg m t) 0) (tileOf (sMsg m t) 0 0) ∧ (domOf (sMsg m t) 0).status = .running
        ∧ m.waitUntil = none ∧ m.injected = m.flits ∧ m.fly.length = m.flits
        ∧ (∀ p ∈ m.fly, p.1 ≤ (sMsg m t).cycle) ∧ (sMsg m t).msgs.find 7 = some m ∧ m.dst = .tile 0 0
    let put := msg0 .put 28672
    let t := tileOf (sMsg put) 0 0
    let x := t.block (t.blockOf put.addr)
    let tr := { tile0 with cmds := [(1, get0)], blocks := [(500, ⟨.deferred, 24, true, 1⟩)] }
    let r := (tileOf (sMsg reply0 tr) 0 0).block ((tileOf (sMsg reply0 tr) 0 0).blockOf (ptrOff get0.a) + reply0.slot)
    let ti := { tile0 with inbox := some box0, blocks := [(499, ⟨.full, 31, false, 1⟩), (500, ⟨.deferred, 24, true, 1⟩)] }
    ok put tile0 ∧ Mem.wf put.data = true ∧ t.wholeBlock put.addr = true ∧ x.gen = put.tag ∧ x.state = .deferred
      ∧ x.armed = true ∧ x.owner = 24 ∧ put.attr.pkg = (sMsg put).pkgid.toNat ∧ put.attr.dom = 0
      ∧ ok (msg0 .get 22528) tile0 ∧ t.wholeBlock 22528 = true ∧ (t.block (t.blockOf 22528)).gen = 1
      ∧ (t.block (t.blockOf 22528)).state = .full
      ∧ ok reply0 tr ∧ reply0.attr.rank = 0 ∧ reply0.attr.res = (sMsg reply0 tr).residency.getD 0 0
      ∧ (tileOf (sMsg reply0 tr) 0 0).cmds.find 1 = some get0 ∧ get0.f6 = 2
      ∧ Mem.wf reply0.data = true ∧ r.gen = ptrTag get0.a ∧ r.state = .deferred ∧ r.armed = true
      ∧ r.owner = get0.readAgent (sMsg reply0 tr).pkgid.toNat 0 ∧ reply0.attr.dom = 0 ∧ reply0.req = 1
      ∧ ok { msg0 .combine 22520 with tag := 0 } tile0 ∧ t.carve.region 22520 = .cell ∧ t.hitsWord1 22520 8 = false
      ∧ t.granTag 22520 = 0 ∧ t.granPois 22520 = false ∧ t.cellFree ≤ 100
      ∧ ok (msg0 .unit 0) ti ∧ (tileOf (sMsg (msg0 .unit 0) ti) 0 0).inbox = some box0 ∧ box0.next ≤ 1 ∧ 1 < box0.nblk
      ∧ ti.armedSlot (box0.base + 1) = true ∧ (∀ j < 1, box0.next ≤ j → ti.armedSlot (box0.base + j) = false)
      ∧ ok (msg0 .close 0) tile0 := by
  simp only [at_iff]
  repeat' apply And.intro
  all_goals decide +kernel

/-- A message to domain 0 whose single flit has arrived. -/
def flit0 (kind : MsgKind) (attr : Attr) : Msg := { msg0 kind 0 with attr, flits := 1, injected := 1, fly := [(100, 0)] }

/-- A PITCH of slot 0 of rank 0, and an XSEND of its XC. -/
def pitchAttr : Attr := ⟨0, 0, 0, 0, 0, 23, 0, 0, 0, 0, 0⟩

/-- The command of that PITCH. -/
def pitch0 : Cmd := ⟨0, 0, 23, 0, 0, 0, 0, 0, [], 1, [.sent], none, none, [], [], 0, 0, []⟩

/-- The command of an XSEND. -/
def send0 : Cmd := ⟨16, 0, 21, 0, 0, 0, 0, 1, [0], 1, [.sent], none, none, [], [], 0, 0, []⟩

/-- Slot 0 as it waits for its answer, beside a send of XC. -/
def sAnswer (req : Nat) : State :=
  { scene 0 { ready [] with busy := .pitch 1 } { tile0 with cmds := [(1, pitch0), (2, send0)] } with
    msgs := [(7, { flit0 .answer pitchAttr with req })], nextMsg := 8 }

/-- Domain 0 with one handler, at the last even address of CODE. -/
def sInvoke : State :=
  let s := scene 0 (ready []) tile0 { dom0 with
    launch := { dom0.launch with nhand := 1 }, handlers := [(0, 0x1007FE)] }
  { s with msgs := [(7, { flit0 .invoke pitchAttr with dst := .unit 0 })], nextMsg := 8 }

/-- A request that was told to wait, to this cycle. -/
def sRetry : State := sMsg { msg0 .put 28672 with waitUntil := some 100, src := .tile 0 0, dst := .tile 0 3 }

theorem witness_AnswersAndInvocations :
    let arrived (s : State) (m : Msg) : Prop := s.msgs.find 7 = some m ∧ m.waitUntil = none ∧ m.injected = m.flits
      ∧ m.fly.length = m.flits ∧ (∀ p ∈ m.fly, p.1 ≤ s.cycle) ∧ s.heldFor m = false
    let inv := { flit0 .invoke pitchAttr with dst := .unit 0 }
    let d := domOf sInvoke 0
    let h := d.handlers.getD 0 0
    let ans (req : Nat) := { flit0 .answer pitchAttr with req }
    arrived sInvoke inv ∧ fld (wordAt inv.args 0) 21 16 = 0 ∧ fld (wordAt inv.args 0) 9 0 = 0
      ∧ sInvoke.doms.find 0 = some d ∧ d.status = .running ∧ 0 < d.launch.nhand ∧ d.lock ≠ some 0 ∧ h.getLsbD 20 = true
      ∧ h.getLsbD 0 = false ∧ h.getLsbD 23 = false ∧ fld h 63 36 = 0 ∧ fld h 19 0 < d.launch.codeSize
      ∧ (h.getLsbD 21 = true ∨ fld h 35 24 < d.nrank) ∧ (d.queue.filter fun i => !i.inRing).length < 256
      ∧ arrived (sAnswer 1) (ans 1) ∧ arrived (sAnswer 2) (ans 2)
      ∧ (sAnswer 1).at_ 0 0 (domOf (sAnswer 1) 0) (tileOf (sAnswer 1) 0 0)
      ∧ (ans 1).attr.res = (sAnswer 1).residency.getD 0 0 ∧ (tileOf (sAnswer 1) 0 0).cmds.find 1 = some pitch0
      ∧ pitch0.major = 23 ∧ pitch0.ctx < 18 ∧ ((tileOf (sAnswer 1) 0 0).ctx 0).busy = .pitch 1
      ∧ (tileOf (sAnswer 2) 0 0).cmds.find 2 = some send0 ∧ send0.major = 21 ∧ send0.f6 = 0 ∧ (ans 2).status = 0
      ∧ (let m := flit0 .retryAfter pitchAttr
        let s := sMsg m
        arrived s m ∧ m.attr.res = s.residency.getD m.attr.dom 0 ∧ s.doms.find m.attr.dom = some (domOf s 0)
          ∧ (domOf s 0).status = .running ∧ m.src = .tile 0 3)
      ∧ (let m := { flit0 .retryAfter pitchAttr with src := .darzan 31 }
        arrived (sMsg m) m ∧ m.attr.res = (sMsg m).residency.getD m.attr.dom 0)
      ∧ (let m := { flit0 .retryAfter pitchAttr with attr := { pitchAttr with res := 65535 } }
        arrived (sMsg m) m ∧ m.attr.res ≠ (sMsg m).residency.getD m.attr.dom 0)
      ∧ (let m := { msg0 .put 28672 with waitUntil := some 100, src := .tile 0 0, dst := .tile 0 3 }
        sRetry.msgs.find 7 = some m ∧ 100 ≤ sRetry.cycle ∧ sRetry.senderHeld m = false ∧ m.va = none
          ∧ m.dpkg = sRetry.pkgid.toNat ∧ 7 < sRetry.nextMsg) := by
  simp only [at_iff, dom_iff]
  repeat' apply And.intro
  all_goals decide +kernel

end witnessArrival
section witnessPackage

/-- A port that is up, trained or not. -/
def port0 (retraining : Bool) (retrains : Nat) : Port := { Port.fresh with up := true, credits := [], retraining, retrains }

/-- A package with the port's other end, a request that is due again, and a router that could not inject. -/
def sFabric (retraining : Bool) (retrains : Nat) : State :=
  { State.reset with
    us := 5, ports := [(31, port0 retraining retrains)], awaiting := [⟨31, { flit0 .get pitchAttr with xid := 31, dpkg := 5 }, 5⟩]
    starveCnt := [(31 * 40 + 39, 128)], kiln := { Kiln.reset with ready := true, announceAt := 5, portMap := [(5, 2 ^ 31)] } }

/-- Whether a link flit is sound rests on checks that the manual does not give (log 8): no bytes are shown here to be sound
or not, and each flit is one or the other. -/
theorem witness_FabricEvents :
    let s := sFabric false 0
    (5 : BitVec 16).toNat < 8192 ∧ (5 : BitVec 16) ≠ s.pkgid ∧ s.kiln.peers.getD 5 0 ≠ (1 : BitVec 16).toNat
      ∧ s.kiln.ready = true ∧ s.kiln.announceAt ≤ s.us
      ∧ s.awaiting.find? (fun a => a.xid == 31 && decide (a.resendAt ≤ s.us)) = some ⟨31, { flit0 .get pitchAttr with xid := 31, dpkg := 5 }, 5⟩
      ∧ s.kiln.peersDown.contains 5 = false ∧ s.portsTo 5 ≠ []
      ∧ s.ports.find 31 = some (port0 false 0) ∧ (port0 false 0).up = true ∧ (port0 false 0).retraining = false
      ∧ (port0 false 0).rx = []
      ∧ (∀ n ∈ [1, 2], (sFabric true n).ports.find 31 = some (port0 true n) ∧ (port0 true n).retraining = true)
      ∧ (port0 true 1).retrains + 1 < 3 ∧ 3 ≤ (port0 true 2).retrains + 1
      ∧ splitPackets 8 ((port0 false 0).rx ++ []) = ⟨[], [], false, false⟩
      ∧ s.glideAt ≤ s.cycle ∧ 128 ≤ s.starveCnt.getD (31 * 40 + 39) 0 := by
  repeat' apply And.intro
  all_goals decide +kernel

/-- A waiter of controller 7, woken, on a block that is still EMPTY. -/
def wait0 : HWait := ⟨0x3800, { flit0 .get pitchAttr with addr := 0x3800 }, some 99⟩

/-- A memory system at its own events: a walk that is over, a record of a domain that is gone or, full, has room for it, an
INVALIDATE with nothing left, a woken waiter whose block is EMPTY or, full, FULL, and the periods of controller 7. -/
def sMem (full : Bool := false) : State :=
  { State.reset with
    cycle := 100, us := 10, walks := [(3, ⟨0, false, 100, []⟩)], slices := [(31, ⟨[], [], [], [[0, 0]]⟩)]
    hbmBlk := if full then [(7, ⟨.full, 1, 0, []⟩)] else [], doms := if full then [(0, { dom0 with fringCap := 16 })] else []
    ctls := [(7, { Hctl.zero with waits := [wait0], scrubAt := 10, refreshAt := 10 })]
    kiln := { Kiln.reset with invals := [⟨1, [], []⟩], idleEntry := true } }

theorem witness_MemoryEvents :
    let s := sMem
    let f := sMem true
    s.walks.find 3 = some ⟨0, false, 100, []⟩ ∧ (100 : Nat) ≤ s.cycle ∧ s.hbmFailing = []
      ∧ (s.slice 31).stalled = [[0, 0]] ∧ s.doms.find (fld (wordAt [0, 0] 1) 21 16) = none
      ∧ (f.slice 31).stalled = [[0, 0]] ∧ f.doms.find (fld (wordAt [0, 0] 1) 21 16) = some (domOf f 0)
      ∧ f.fringFull (domOf f 0) = false
      ∧ s.kiln.invals.find? (fun v => v.blocks.all fun k => !(s.underWay fun _ => true).contains k) = some ⟨1, [], []⟩
      ∧ (s.ctl 7).waits = [wait0] ∧ (s.ctl 7).served.getD wait0.pa 0 ≤ s.cycle
      ∧ wait0.wokenAt = some 99 ∧ 99 < s.cycle ∧ (s.hblk wait0.pa).state ≠ .full ∧ wait0.msg.tag ≠ 0
      ∧ (s.hblk wait0.pa).tag = wait0.msg.tag ∧ (s.hblk wait0.pa).odd = []
      ∧ s.hbmOpen wait0.pa = true ∧ pchOf wait0.pa ∉ (s.ctl 7).sleeping ∧ pchOf wait0.pa ∉ (s.ctl (stackOf wait0.pa)).sleeping
      ∧ f.nextWaiter 7 = some wait0 ∧ pchOf wait0.pa ∉ (f.ctl 7).sleeping
      ∧ (let x := (f.useHbm wait0.pa).hcheck wait0.pa wait0.msg.tag 0 (List.range 32)
        ¬(x.2 = .ok ∧ (x.1.hblk wait0.pa).state ≠ .full))
      ∧ (s.ctl 7).scrubAt ≤ s.us * 2 ^ 30 ∧ (s.ctl 7).refreshAt ≤ s.time
      ∧ s.kiln.idleEntry = true ∧ 511 ∉ (s.ctl 7).sleeping ∧ (s.ctl 7).lastUse.getD 511 0 + 10 * usUnits ≤ s.time
      ∧ (s.ctl 7).queue = [] ∧ (s.ctl 7).fills = []
      ∧ (s.hbmFailing.getD (scrubGran 7 (s.ctl 7).scrubPos) []).length < 2
      ∧ (let u : State := { s with hbmFailing := [(scrubGran 7 0, [(0, 1), (1, 1)])] }
        2 ≤ (u.hbmFailing.getD (scrubGran 7 (u.ctl 7).scrubPos) []).length ∧ (u.ctl 7).scrubAt ≤ u.us * 2 ^ 30) := by
  repeat' apply And.intro
  all_goals decide +kernel

/-- A package whose last granule of the aperture lies in a FULL block, with rings in use, a direct command under way, and
an extent of each state. -/
def sHost : State :=
  { State.reset with
    hbmBlk := [(2 ^ 23 - 1, ⟨.full, 1, 0, []⟩)]
    kiln := { Kiln.reset with cmdTail := 1, directCmd := some [], extents := [(255, ⟨1, 1, 0, 2 ^ 18, [], false⟩)] } }

theorem witness_HostAccesses :
    let s := State.reset
    s.hbmFailing = [] ∧ (2 ^ 34 - 64) + (List.replicate 64 (7 : Byte)).length ≤ 2 ^ 34
      ∧ 0 < (List.replicate 64 (7 : Byte)).length ∧ (2 ^ 34 - 64) % 64 + (List.replicate 64 (7 : Byte)).length ≤ 64
      ∧ (s.hblk (2 ^ 34 - 64)).state = .empty ∧ (sHost.hblk (2 ^ 34 - 64)).state ≠ .empty ∧ sHost.hbmFailing = []
      ∧ s.kiln.kept = [] ∧ s.kiln.cmdHead = s.kiln.cmdTail ∧ s.kiln.evHead = s.kiln.evTail
      ∧ ¬(sHost.kiln.cmdHead = sHost.kiln.cmdTail ∧ sHost.kiln.evHead = sHost.kiln.evTail) ∧ sHost.kiln.kept = []
      ∧ sHost.kiln.directCmd = some [] ∧ s.kiln.directCmd = none ∧ s.kiln.curDirect = false ∧ 63 + [(7 : Byte)].length = 64
      ∧ 62 + [(7 : Byte)].length < 64 ∧ (s.extent 255).state = 0 ∧ 2 ^ 18 % 2 ^ 18 = 0
      ∧ (sHost.extent 255).state = 1 := by
  repeat' apply And.intro
  all_goals decide +kernel

theorem witness_DeviceEvents :
    ({ State.reset with power := .d3cold } : State).power = .d3cold
      ∧ ({ State.reset with power := .d3hot } : State).power = .d3hot ∧ State.reset.power = .d0
      ∧ State.reset.kiln.booting = true ∧ State.reset.bootFault = none ∧ State.reset.flashStuck = false
      ∧ State.reset.fuseMap ++ State.reset.badTiles = [] ∧ State.reset.levelAt ≤ State.reset.time
      ∧ State.reset.throttles = false
      ∧ (let s := { State.reset with dieTemp := [(1, 110000)], kiln := { Kiln.reset with booting := false } }
        s.unpowered = false ∧ s.trips = true)
      ∧ (let s := { State.reset with fuseMap := [(1, 15, 19)], badTiles := [(1, 15, 0)], flashStuck := true }
        s.bootFault = none ∧ ∃ d ∈ s.fuseMap ++ s.badTiles, ∃ e ∈ s.fuseMap ++ s.badTiles,
          d.1 = e.1 ∧ d.2.1 = e.2.1 ∧ d.2.2 ≠ e.2.2)
      ∧ ({ State.reset with flashStuck := true } : State).flashStuck = true
      ∧ ({ State.reset with bootFault := some 7 } : State).bootFault = some 7
      ∧ ({ State.reset with dieTemp := [(0, 95000)] } : State).throttles = true := by
  repeat' apply And.intro
  all_goals decide +kernel

/-- Host memory with a launch record of one tile at 0x10000, the graph of one END node at 0x30000, and an empty fault ring
of 16 records at 0x50000; the table at 0 maps the first 4 GiB to the host. -/
def sLaunch : State :=
  { State.reset with
    hbmMem := [(0, 0x01), (1, 0x20), (8192, 0x1B)]
    hostMem := [(0x10000, 1), (0x1000A, 2), (0x10010, 1), (0x10011, 1), (0x1001A, 3), (0x10020, 1), (0x10024, 1)
                , (0x1002A, 4), (0x1003A, 5), (0x10042, 6), (0x10048, 1), (0x30000, 5), (0x50000, 16)]
    kiln := { Kiln.reset with cur := some [0x00070000, 0x10000] } }

/-- A package that decodes a command, with domain 0 as given. -/
def sCmd (w : List Word) (d : Domain) : State :=
  { package [(0, d)] with kiln := { Kiln.reset with cur := some w } }

/-- The last rank's slot 15 parked on an EMPTY block. -/
def dStraggle : Domain := { dom1 .running with
  phase := 2, lapStopped := true, tiles := [(0, tile0.setCtx 15 { ready [] with run := .parked, wblk := 500 })] }

/-- A read of XC whose one block has stalled on record 9. -/
def dStall : Domain := { dom1 .running with
  tiles := [(0, { tile0 with
    cmds := [(1, { get0 with prog := [.stalled], paging := [9] })], blocks := [(500, ⟨.deferred, 24, true, 1⟩)] })] }

theorem witness_DomainCommands :
    let cmd (w : List Word) (d : Domain) (masks : List Word) : Prop :=
      (sCmd w d).kiln.cur = some w ∧ cmdOk w true masks = true ∧ (sCmd w d).doms.find 0 = some (domOf (sCmd w d) 0)
        ∧ fld (wordAt w 0) 13 8 = 0
    let w (a b : Word) : List Word := [0x00070000, a, b]
    let stalled : Cmd := { get0 with prog := [.stalled], paging := [9] }
    sLaunch.kiln.cur = some [0x00070000, 0x10000] ∧ cmdOk [0x00070000, 0x10000] false [~~~ 0] = true
      ∧ (wordAt [0x00070000, 0x10000] 1).toNat % 64 = 0
      ∧ sLaunch.badRecord (sLaunch.launchRecord 0x10000) = none ∧ sLaunch.freeDomain = some 0
      ∧ cmd (w 0 (2 ^ 63)) (dom1 .ended) [0, lowMask 12 ||| w64 (2 ^ 63)] ∧ (domOf (sCmd (w 0 0) (dom1 .ended)) 0).status = .ended
      ∧ fld (wordAt (w 0 (2 ^ 63)) 2) 11 0 < (dom1 .ended).launch.nnode
      ∧ cmd (w 0 0) (dom1 .running) [] ∧ (domOf (sCmd (w 0 0) (dom1 .running)) 0).status = .running
      ∧ cmd (w 0 0) (dom1 .saved) [] ∧ (domOf (sCmd (w 0 0) (dom1 .saved)) 0).status = .saved
      ∧ cmd (w 1 0) (dom1 (.atHost 0)) [1] ∧ (domOf (sCmd (w 1 0) (dom1 (.atHost 0))) 0).status = .atHost 0
      ∧ (dom1 (.atHost 0)).cache.find 0 = some ⟨0, 0, false, 0, 1, 0, 0, 0, 0, 0, 5⟩
      ∧ cmd (w 0xFFFFFFFF 0) dStraggle [lowMask 32] ∧ dStraggle.status = .running ∧ dStraggle.lapStopped = true
      ∧ fld (0xFFFFFFFF : Word) 31 0 ≠ 0 ∧ dStraggle.phase.getLsbD 0 = false
      ∧ (∃ t ∈ dStraggle.tiles, t.1 = 0 ∧ (t.2.breakWords 15).isSome = true)
      ∧ cmd (w 0 (2 ^ 64 - 1)) (dom1 .running) [lowMask 10, ~~~ 0] ∧ (dom1 .running).status.placed = true
      ∧ (dom1 .running).status.refuses = false ∧ (∀ st ∈ [.ended, .running, .saved, .atHost 0], (dom1 st).lock = none)
      ∧ (dom1 .running).lock = none ∧ fld (wordAt (w 0 0) 1) 9 0 < (dom1 .running).launch.nhand
      ∧ cmd (w 0xFFFFFFFF 0) (dom1 .running) [lowMask 32]
      ∧ cmd (w 0x1F27 0) (dom1 .running) [lowMask 16] ∧ (dom1 .running).plannable = true
      ∧ Rect.free ⟨39, 31, 1, 1⟩ ((sCmd (w 0x1F27 0) (dom1 .running)).taken []) = true
      ∧ cmd (w 9 1) dStall [lowMask 32, 1] ∧ dStall.stalledAt 9 = some (0, 1, stalled) ∧ stalled.f6 = 2
      ∧ (∀ t ∈ dStall.tiles, t.2.cmds.find 1 = some stalled
        ∧ t.2.armedFor (t.2.blockOf (ptrOff stalled.a)) (stalled.readAgent (sCmd [] dStall).pkgid.toNat 0) (ptrTag stalled.a)
          = true)
      ∧ stalled.prog = [.stalled] ∧ cmd (w 9 0) (dom1 .saved) [lowMask 32, 1] ∧ (dom1 .running).stalledAt 9 = none := by
  simp only [dom_iff]
  repeat' apply And.intro
  all_goals decide +kernel

/-- Kiln with a command of two argument words, over the table of sLaunch with HBM mapped at the second 4 GiB. -/
def sKiln (w : List Word) (full : Bool) : State :=
  { State.reset with
    hbmMem := [(0, 0x01), (1, 0x20), (8192, 0x1B), (8200, 0x13)]
    hbmBlk := if full then [(0, ⟨.full, 1, 0, []⟩), (1, ⟨.full, 1, 0, []⟩)] else []
    kiln := { Kiln.reset with cur := some w, extents := [(255, ⟨2, 0, 0, 0, [], true⟩)] } }

theorem witness_PackageCommands :
    let ok (w : List Word) (masks : List Word) : Prop := (sKiln w false).kiln.cur = some w ∧ cmdOk w false masks = true
    let mem (f : Word) : List Word := [0, 0x100000000, 2, f]
    ok [0, 0xFFFFFFFC0000, 0x40000] [lowMask 52, lowMask 53] ∧ 0xFFFFFFFC0000 % 2 ^ 18 = 0 ∧ 0x40000 % 2 ^ 18 = 0
      ∧ ok [0, 0xFFFF, 0x8000000000000000] [lowMask 16, w64 (2 ^ 63)] ∧ ok [0, 0x7FFFFFE000] [lowMask 39]
      ∧ 0x7FFFFFE000 % 8192 = 0
      ∧ ok (mem 0x3F01) [lowMask 52, lowMask 24, w64 0x3F03] ∧ ok (mem 0x3F02) [lowMask 52, lowMask 24, w64 0x3F03]
      ∧ (∀ i < 2, (match (sKiln (mem 1) true).walk (0x100000000 + 2048 * i) false with
        | .ok x => decide (x.home? (sKiln (mem 1) true) (0x100000000 + 2048 * i) = .hbm (2048 * i)) | .error _ => false) = true)
      ∧ (∀ i < 2, ∀ j < 2, i ≠ j → 2048 * i / 2048 ≠ 2048 * j / 2048)
      ∧ fld (wordAt (mem 0x3F01) 3) 1 0 = 1 ∧ fld (wordAt (mem 0x3F02) 3) 1 0 = 2
      ∧ BitVec.ofNat 6 (fld (wordAt (mem 0x3F02) 3) 13 8) ≠ 0
      ∧ (∀ i < 2, ((sKiln (mem 1) true).hblk (2048 * i)).state ≠ .deferred)
      ∧ (∀ i < 2, ((sKiln (mem 2) false).hblk (2048 * i)).state = .empty)
      ∧ ok [0, 0xFFFFFFFFFFFFFFFF, 0xFFFFFFFFFFFFFFFF] [~~~ 0, ~~~ 0]
      ∧ ok [0, 0x3FFFFFFFF, 0x8000000000000000, 0xFFFF] [lowMask 34, w64 (2 ^ 63), lowMask 16] ∧ (0xFFFF : Word).toNat ≠ 0
      ∧ ok [0, 0xFFFFFFFFFFFFFFFF] [~~~ 0] ∧ ok [0, 1, 2, 3, 4, 0xFFFFFFFFFFFFFFFF] [~~~ 0, ~~~ 0, ~~~ 0, ~~~ 0, ~~~ 0]
      ∧ ok [0, 0xFFFF, 0xFFFFFFFF] [lowMask 16, lowMask 32] ∧ ok [0, 0xFFFF, 1] [lowMask 16, 1]
      ∧ ok [0, 1, 48] [lowMask 64, ~~~ 0] ∧ ok [0, 2, 1] [lowMask 64, ~~~ 0] ∧ ok [0, 255] [lowMask 8]
      ∧ ((sKiln [0, 255] false).extent 255).state = 2 ∧ (sKiln [0, 255] false).extentBusy 255 = false
      ∧ (∀ f : Bool, (sKiln (mem (if f then 0x3F01 else 0x3F02)) f).hbmFailing = []
        ∧ (((sKiln (mem (if f then 0x3F01 else 0x3F02)) f).reach .kiln [0, 2048]).turn .kiln [0, 2048] = true))
      ∧ (∀ f : Bool, let s : State := { sKiln (mem (if f then 0x3F01 else 0x3F02)) f with
          ctls := [(stackOf 2048, { Hctl.zero with waking := [(pchOf 2048, 5)] })] }
        ¬ (s.reach .kiln [0, 2048]).turn .kiln [0, 2048] = true ∧ s.listed .kiln 2048 = false) := by
  repeat' apply And.intro
  all_goals decide +kernel

end witnessPackage

section witnessMachine

/-- A carving that fills the SRAM but for one block: 192 KiB of CODE, frames of 32 KiB and CELL up to the last block. -/
def launch0 : Launch := { Launch.zero with codeSize := 196608, frameSize := 32768, cellSize := 260096 }

/-- An image of it, and the last context, which starts a thread. -/
theorem witness_ResetLaunchAndThreadStart : launch0.carvingOk = true
    ∧ (List.replicate (196608 + 260096 + 260096 / 64) (0 : Byte)).length
      = launch0.codeSize + launch0.cellSize + launch0.cellSize / 64
    ∧ (17 : Nat) < 18 := by
  refine ⟨by decide +kernel, ?_, by decide⟩
  rw [List.length_replicate]
  decide +kernel

/-- Slot 0 with a result in g3 that is interlocked, or of fixed latency, under STALLCHK. -/
def sPend (fixed : Bool) : State :=
  scene 0 { ready [] with th := { (ready []).th with pend := [{ pend0 with land := some 103, fixed }] } }
    { tile0 with stallchk := true }

theorem issue_add {s : State} : exec (.add 0 1 3 4) s = issue s (opAB 0 0 3 4) fun e =>
    fin (e.fixed 1 [.g 1 (e.c.th.rg 3 + e.c.th.rg 4) (e.c.th.pg 3 || e.c.th.pg 4)] 0 0) := rfl

theorem witness_IssueChecks :
    let op := opAB 0 0 3 4
    (sPend true).env? = some (env (sPend true)) ∧ (sPend false).env? = some (env (sPend false))
      ∧ sSpec.env? = some (env sSpec) ∧ (env sSpec).speculative = true ∧ (env (sPend true)).speculative = false
      ∧ (newestPend (.g 3) (env (sPend false)).c.th.pend).any (fun p => p.fixed == false) = true
      ∧ op.reads = .g 3 :: [.g 4] ∧ (RegId.g 3).isZero = false ∧ op.who.ok 0 = true ∧ (env (sPend true)).t.stallchk = true
      ∧ newestPend (.g 3) (env (sPend true)).c.th.pend = some { pend0 with land := some 103 }
      ∧ Who.ok .svOnly 0 = false ∧ Who.ok .xcOnly 0 = false ∧ (env s0).c.th.pend = [] ∧ (env s0).speculative = false
      ∧ (env s0).s.cur.ctx < 16 ∧ s0.env? = some (env s0) ∧ (env sXc).s.cur.ctx = 16 ∧ (env sXc).c.th.pend = []
      ∧ (env sXc).speculative = false ∧ sXc.env? = some (env sXc) := by
  simp only [env_iff]
  repeat' apply And.intro
  all_goals decide +kernel

theorem witness_RegisterFrame : s0.env? = some (env s0) ∧ (env s0).s.cur.ctx ≠ 17
    ∧ (Instr.divu 0 7 8 9).registersOnly = true ∧ ∃ t, exec (.add 0 1 3 4) s0 = .next t := by
  refine ⟨env_iff.2 (by decide +kernel), by decide +kernel, by decide +kernel, ?_⟩
  exact ⟨_, issue_add.trans (issue_next (env_iff.2 (by decide +kernel)))⟩

/-- A word at the first address of CODE, where the next step fetches it. -/
def sStep (w : Nat) : State := State.reset.withFetchWord 32 w

/-- A thread at the last halfword of CODE, which begins a 32-bit instruction, or past it. -/
def sEdge (pc : BitVec 20) : State :=
  let t := loadTile [] 0
  let c := t.ctx 0
  { sStep 0 with doms := [(0, loadDomain { t.setCtx 0 { c with th := { c.th with pc } } with sram := [(2046, 0x7F)] } false)] }

/-- The context to which the arbiter offers the cycle. -/
def offered (s : State) : Cur × Bool × Tile := s.issuer.getD (⟨0, 0, 0⟩, false, Tile.zero)

theorem offered_iff {s : State} :
    s.issuer = some ((offered s).1, (offered s).2.1, (offered s).2.2) ↔ s.issuer.isSome = true := by
  unfold offered; cases s.issuer <;> simp

theorem witness_StepRunsDecoded :
    let ok (s : State) : Prop := s.inputStep = none ∧ s.unpowered = false ∧ s.trips = false ∧ s.stopped = false ∧ s.kiln.booting = false
      ∧ s.stageRow 0 s.rowsBefore = none ∧ s.stage ≤ 1
      ∧ s.issuer = some ((offered s).1, (offered s).2.1, (offered s).2.2)
      ∧ ((offered s).2.2.ctx (offered s).1.ctx).th.skips = 0
      ∧ (offered s).2.2.yielding ((offered s).2.2.ctx (offered s).1.ctx) = false
    let bytes (s : State) := (offered s).2.2.sram.readBytes 0 4
    let pc (s : State) := ((offered s).2.2.ctx (offered s).1.ctx).th.pc.toNat
    let code (s : State) (o : Nat) : Prop := o + 2 ≤ 2 ^ 20 ∧ (offered s).2.2.carve.region o = .code
    ok (sStep 0x00064283) ∧ ok (sStep 0x003C) ∧ ok (sStep 1) ∧ ok (sStep 0x7F) ∧ ok (sEdge 2046) ∧ ok (sEdge 2048)
      ∧ pc (sStep 1) = 0 ∧ pc (sStep 0x7F) = 0
      ∧ (natOfBytes ((bytes (sStep 1)).take 2) % 4 ≠ 3 ∧ natOfBytes ((bytes (sStep 0x7F)).take 2) % 4 = 3)
      ∧ decodeBytes (bytes (sStep 0x7F)) = none
      ∧ (pc (sEdge 2046) = 2046 ∧ code (sEdge 2046) 2046 ∧ ¬ code (sEdge 2046) (2046 + 2)
        ∧ natOfBytes (((offered (sEdge 2046)).2.2.sram.readBytes 2046 4).take 2) % 4 = 3)
      ∧ (pc (sEdge 2048) = 2048 ∧ ¬ code (sEdge 2048) 2048)
      ∧ (offered (sStep 1)).2.2.carve.region 0 = .code ∧ (offered (sStep 1)).2.2.carve.region 2 = .code
      ∧ decodeBytes (bytes (sStep 0x00064283)) = some (.add 1 1 2 3, 4)
      ∧ decodeBytes (bytes (sStep 0x003C)) = some (.cRet, 2) ∧ decodeBytes (bytes (sStep 1)) = none := by
  simp only [offered_iff]
  repeat' apply And.intro
  all_goals decide +kernel

theorem witness_EveryStepKeepsMemoryCanonical : State.reset.MemoryCanonical ∧ ∃ t, step State.reset = .next t := by
  refine ⟨by unfold State.MemoryCanonical; decide +kernel, ?_⟩
  exact ⟨_, rfl⟩

/-- The last control word of the table, with its word, and the bytes of C.RET before others. -/
theorem witness_DecodeAndEncodeAgree : (Instr.mfc 3 15 0x041).wf = true
    ∧ (encode (.mfc 3 15 0x041)).map Enc.bytes = some [0xE3, 0x1F, 0x20, 0x08]
    ∧ decodeBytes [0x3C, 0x00, 0xFF, 0xFF] = some (.cRet, 2) := by decide +kernel

end witnessMachine
section examples

/-- What the instruction that issued last writes, and when it lands. -/
def result (o : Host.Outcome State Fault Refusal) : Option (List RegWrite × Option Nat) :=
  match o with
  | .next t => t.env?.bind fun e => e.c.th.pend.getLast?.map fun p => (p.writes, p.land)
  | _ => none

/-- The trap that an instruction has raised: its cause, FORM and TVAL. -/
def raised (o : Host.Outcome State Fault Refusal) : Option (Nat × Nat × Word) :=
  match o with
  | .next t => t.env?.bind fun e => e.t.traps.head?.map fun x => (x.cause, x.form, x.tval)
  | _ => none

/-- Slot 0 with these values in g1, g2 and so on. -/
def with_ (l : List Word) : State :=
  scene 0 (ready (l.zipIdx.map fun p => .g (Fin.ofNat 16 (p.2 + 1)) p.1 false))

/-- R117: 1,000 by 7 gives 142 after 11 cycles, and the remainder 6. -/
theorem test_divu : result (exec (.divu 0 7 1 2) (with_ [1000, 7])) = some ([.g 7 142 false], some 111)
    ∧ result (exec (.remu 0 7 1 2) (with_ [1000, 7])) = some ([.g 7 6 false], some 111) := by decide +kernel

/-- R117: −7 by 2 gives −3 and leaves −1. -/
theorem test_div_signed : (result (exec (.div 0 7 1 2) (with_ [-7, 2]))).map Prod.fst = some [.g 7 (-3) false]
    ∧ (result (exec (.rem 0 7 1 2) (with_ [-7, 2]))).map Prod.fst = some [.g 7 (-1) false] := by decide +kernel

/-- R110: the two fields of its example, the second cut at bit 63. -/
theorem test_bit_fields :
    result (exec (.bfx 0 7 1 2) (with_ [0xF00000, 0x814])) = some ([.g 7 0xF false], some 101)
      ∧ (result (exec (.bfxS 0 7 1 2) (with_ [0xF00000, 0x814]))).map Prod.fst = some [.g 7 0xF false]
      ∧ (result (exec (.bfx 0 7 1 2) (with_ [0xFF00000000000000, 0x103C]))).map Prod.fst = some [.g 7 0xF false]
      ∧ (result (exec (.bfxS 0 7 1 2) (with_ [0xFF00000000000000, 0x103C]))).map Prod.fst = some [.g 7 (-1) false] := by
  decide +kernel

/-- R113: the three steps of the pointer 0x0400_0000_0002_6840. -/
theorem test_pointer_constant :
    (result (exec (.lui 0 6 77) (with_ []))).map Prod.fst = some [.g 6 0x26800 false]
      ∧ (result (exec (.addi 0 6 1 64) (with_ [0x26800]))).map Prod.fst = some [.g 6 0x26840 false]
      ∧ (result (exec (.ptagi 0 6 1 1) (with_ [0x26840]))).map Prod.fst = some [.g 6 0x0400000000026840 false] := by
  decide +kernel

/-- R115: the step below offset 0 raises BOUNDS. -/
theorem test_padd_below : (raised (exec (.padd 0 7 1 2) (with_ [0x0800000000028800, -0x28801]))).map Prod.fst
    = some cBounds := by decide +kernel

/-- R109: SUB wraps, SRA keeps the sign, and MIN is signed where MINU is not. -/
theorem test_alu_wraps : (result (exec (.sub 0 7 1 2) (with_ [0, 1]))).map Prod.fst = some [.g 7 (-1) false]
    ∧ (result (exec (.sra 0 7 1 2) (with_ [-8, 65]))).map Prod.fst = some [.g 7 (-4) false]
    ∧ (result (exec (.min 0 7 1 2) (with_ [-8, 1]))).map Prod.fst = some [.g 7 (-8) false]
    ∧ (result (exec (.minu 0 7 1 2) (with_ [-8, 1]))).map Prod.fst = some [.g 7 1 false] := by decide +kernel

/-- R3, R125: a halfword of 0xFF80, low byte first, sign-extended and not. -/
theorem test_load_halfword :
    let s := scene 0 (ready [.g 1 2048 false]) { tile0 with sram := [(2050, 0x80), (2051, 0xFF)] }
    (result (exec (.ldh 0 7 1 1) s)).map Prod.fst = some [.g 7 (-128) false]
      ∧ result (exec (.ldhu 0 7 1 1) s) = some ([.g 7 0xFF80 false], some 104) := by decide +kernel

/-- R14, R39: a store to CODE and a load from another context's frame. -/
theorem test_region_traps : (raised (exec (.std 0 1 1 0) (with_ [0]))).map Prod.fst = some cBounds
    ∧ (raised (exec (.ldd 0 1 1 0) (with_ [3072]))).isSome = true
    ∧ (raised (exec (.ldd 0 1 1 0) (with_ [2049]))).map Prod.fst = some cMisalign := by decide +kernel

/-- R39: NextTag of 63 is 1, as is that of 0. -/
theorem test_next_tag : nextTag 63 = 1 ∧ nextTag 0 = 1 ∧ nextTag 7 = 8 := by decide

/-- R138: the cell wraps below zero. -/
theorem test_cdecf_wraps : CellFn.apply (.decf 0) 0 0 0 = 0xFFFFFFFFFFFFFFFF := by decide

/-- R156: 1.5 + 2.25 is 3.75 in each lane of f32; 0x7FFF + 1 wraps in an i16 element. -/
theorem test_vadd :
    let s := scene 0 (ready [.v 1 0x3FC00000 0, .v 2 0x40100000 0, .v 3 0x7FFF 0, .v 4 1 0])
    (result (exec (.vadd 0 .f32 .rne 0 1 2 0 false) s)).map Prod.fst = some [.v 0 0x40700000 0]
      ∧ (result (exec (.vadd 0 .i16x2 .rne 0 3 4 0 false) s)).map Prod.fst = some [.v 0 0x8000 0] := by decide +kernel

/-- R96, R163: 1 + 2⁻⁸ has no bf16, and rounds to the even 1.0. -/
theorem test_vcvt_ties_to_even :
    let s := scene 0 (ready [.v 1 0x3F808000 0])
    (result (exec (.vcvt 0 .bf16x2 .f32 .rne 0 1 0 true) s)).map Prod.fst = some [.v 0 0x3F80 0] := by decide +kernel

/-- R242, R262: a PRIVILEGE trap of ERET in a slot, and a first step of the whole machine that retires ADD. -/
theorem test_eret_in_slot : (raised (exec (.eret 0) (with_ []))).map Prod.fst = some cPriv := by decide +kernel

/-- R78: the instruction placed where the step fetches retires. -/
theorem test_step_runs_add :
    (match step (State.reset.withFetchWord 32 0x00064283) with
    | .next t => (t.tile? 0 0).map fun u => ((u.ctx 0).th.retired, (u.ctx 0).th.pc)
    | _ => none) = some (1, 4) := by decide +kernel

end examples
section witnessTraps

theorem fails_here {x : Check} {l : List Check} (h : ¬ x.ok) : ∃ y, FirstFails (x :: l) y :=
  ⟨x, [], l, rfl, by simp, h⟩

theorem fails_later {y : Check} {l : List Check} (h : y.ok) (f : ∃ x, FirstFails l x) : ∃ x, FirstFails (y :: l) x := by
  obtain ⟨x, b, a, rfl, hb, hx⟩ := f
  exact ⟨x, y :: b, a, rfl, by simpa using ⟨h, hb⟩, hx⟩

/-- Outside SV, with no branch unresolved. -/
def MayTrap (s : State) (op : Op) : Prop :=
  Ready s (env s) op ∧ (env s).s.cur.ctx ≠ 17 ∧ (env s).speculative = false

/-- A pointer of the reserved SPACE, one at the last offset moved by 1, and none moved by −1. -/
theorem witness_PointerAddResults_traps :
    let th := (env s0).c.th
    MayTrap s0 (opAB 0 0 8 6) ∧ th.pg 8 = false ∧ th.pg 6 = false ∧ ptrBad (th.rg 8) = true
      ∧ MayTrap s0 (opA 1 0 12) ∧ th.pg 12 = false ∧ ptrBad (th.rg 12) = false
      ∧ ¬((th.rg 12).toNat % 2 ^ 20 + (1 : Int) < 2 ^ 20)
      ∧ MayTrap s0 (opAB 0 0 0 8) ∧ ptrBad (th.rg 0) = false ∧ ¬(0 ≤ (th.rg 0).toNat % 2 ^ 20 + (th.rg 8).toInt) := by
  simp only [MayTrap, ready_iff, env_iff]
  repeat' apply And.intro
  all_goals decide +kernel

/-- A poisoned second operand; a branch of 129 halfwords back from 0x100, which is taken; the address 2^20 and an odd one
through a register. -/
theorem witness_ControlFlowResults_traps :
    let e := env s0
    let th := e.c.th
    let target (off : Int) : Check :=
      ⟨True → 0 ≤ th.pc.toNat + 2 * off ∧ th.pc.toNat + 2 * off < 2 ^ 20, cBounds, 2, 0, 0⟩
    let through (a : GReg) (to_ : Word) : List Check :=
      [e.cleanCheck a, ⟨to_.toNat < 2 ^ 20, cBounds, 2, to_, 0⟩, ⟨to_.toNat % 2 = 0, cMisalign, 0, to_, 0⟩]
    MayTrap s0 (op32 0 .all false 5 [.g 7, .g 11]) ∧ MayTrap s0 (op32 0 .all false 5 [.g 7, .g 8])
      ∧ MayTrap s0 (op16 0 5 [.g 11]) ∧ MayTrap s0 (op32 0 .all false 6 []) ∧ MayTrap s0 (op16 0 6 [])
      ∧ MayTrap s0 (op32 0 .all false 7 [.g 9]) ∧ MayTrap s0 (op16 0 7 [.g 15])
      ∧ MayTrap s0 (op32 0 .slots true 12 [.g 12, .g 4, .g 5, .g 6, .g 7, .g 8, .g 9])
      ∧ (∃ x, FirstFails [e.cleanCheck 7, e.cleanCheck 11, target (-1)] x) ∧ (∃ x, FirstFails [e.cleanCheck 11, target (-1)] x)
      ∧ (∃ x, FirstFails [e.cleanCheck 7, e.cleanCheck 8, target (-129)] x) ∧ (∃ x, FirstFails [target (-129)] x)
      ∧ (∃ x, FirstFails (through 9 (th.rg 9 + 2)) x) ∧ (∃ x, FirstFails (through 12 (th.rg 12 + 0)) x) := by
  simp only [MayTrap, ready_iff, env_iff]
  repeat' apply And.intro
  all_goals first
    | decide +kernel
    | repeat first
        | exact fails_here (by dsimp only [Env.cleanCheck]; decide +kernel)
        | refine fails_later (by dsimp only [Env.cleanCheck]; decide +kernel) ?_

/-- Slot 0 at its block 1 (g4) with an agent's number below the first (g1), past the last (g2) and the last (g3), and its
block being read or its own store in the buffer. -/
def sBlock (reading : Bool) : State :=
  scene 0 { ready [.g 1 23 false, .g 2 28 false, .g 3 27 false, .g 4 0x0400000000006000 false, .g 5 0x0400000000005800 false
                   , .g 6 0x04000000000FF800 false, .g 7 5 true] with sb := if reading then [] else [sb0] }
    { tile0 with reads := if reading then [⟨[0, 1, 500], 200, none, .none⟩] else [] }

/-- BCOMMIT on the EMPTY block 500, BCLR and BFILL of block 3, which is armed, BARM of each state, a poisoned gD, and the two
holds. -/
theorem witness_BlockEventsAndRefusals_traps :
    let e := env s0
    let a := env sArmed
    let r := env (sBlock true)
    let b := env (sBlock false)
    let two (x : GReg) (y : GReg) : Op := op32 0 .all true 10 [.g x, .g y]
    NamesBlock e 5 0 500 ∧ MayTrap s0 (op32 0 .all true 10 [.g 5]) ∧ e.acquiring = false ∧ e.c.sb = [] ∧ e.cellBusy = false
      ∧ e.readHolds 500 = false ∧ (e.t.block 500).state ≠ .full ∧ ¬ OwnsBlock e 500
      ∧ NamesBlock a 4 0 3 ∧ MayTrap sArmed (op32 0 .all true 10 [.g 4]) ∧ MayTrap sArmed (two 4 0) ∧ a.beingRead 3 = false
      ∧ a.c.th.pg 0 = false ∧ ((a.t.block 3).state = .deferred ∧ ¬ OwnsBlock a 3) ∧ a.acquiring = false
      ∧ a.c.sb = [] ∧ a.cellBusy = false ∧ a.readHolds 3 = false
      ∧ NamesBlock r 4 0 1 ∧ MayTrap (sBlock true) (two 4 7) ∧ r.c.th.pg 7 = true ∧ r.acquiring = false
      ∧ (Ready (sBlock true) r (two 4 1) ∧ r.c.th.pg 1 = false ∧ r.beingRead 1 = true ∧ (r.t.block 1).state ≠ .full)
      ∧ NamesBlock r 6 0 500 ∧ ¬(24 ≤ (r.c.th.rg 1).toNat) ∧ ¬((r.c.th.rg 2).toNat ≤ 27) ∧ (r.c.th.rg 3).toNat = 27
      ∧ (r.t.block 1).state = .deferred ∧ NamesBlock r 5 0 0 ∧ (r.t.block 0).state = .full
      ∧ NamesBlock b 4 0 1 ∧ b.acquiring = false
      ∧ (Ready (sBlock false) b (two 4 1) ∧ b.c.th.pg 1 = false ∧ OwnsBlock b 1 ∧ ¬(b.c.sb = [] ∧ b.cellBusy = false)) := by
  simp only [MayTrap, ready_iff, env_iff, namesBlock_iff, namesLocal_iff, OwnsBlock]
  repeat' apply And.intro
  all_goals decide +kernel

/-- One pointer for each check of BlockTarget, in its order. -/
theorem witness_BlockEventsAndRefusals_target :
    let place (s : State) (off : Int) : List Check :=
      let e := env s
      let p := e.c.th.rg 1
      let o := ((p.toNat % 2 ^ 20 : Nat) + 2048 * off : Int).toNat
      e.cleanCheck 1 :: e.pointerChecks p (2048 * off) ++ [⟨o % 2048 = 0, cMisalign, 0, 0, 0⟩,
        ⟨e.t.carve.region o = .block, cBounds, 1, 0, 0⟩, ⟨(e.t.block (e.t.blockOf o)).gen = ptrTag p, cStale, 0, 0, 0⟩]
    (∀ s ∈ [sCheck 0 true, sCheck (ptrTo 0 3 0), sCheck (ptrTo 0 1 0), sCheck (ptrTo 1 0 (2 ^ 30)), sCheck (ptrTo 1 0 0xFF800)
        , sCheck (ptrTo 1 0 0xFF7FF), sCheck (ptrTo 1 0 2048), sCheck (ptrTo 2 0 0xFF800)],
      MayTrap s (op32 0 .all true 10 [.g 1]) ∧ MayTrap s (op32 0 .slots true 10 [.g 1]) ∧ (env s).acquiring = false)
      ∧ (∃ x, FirstFails (place (sCheck 0 true) 0) x) ∧ (∃ x, FirstFails (place (sCheck (ptrTo 0 3 0)) 0) x)
      ∧ (∃ x, FirstFails (place (sCheck (ptrTo 0 1 0)) 0) x) ∧ (∃ x, FirstFails (place (sCheck (ptrTo 1 0 (2 ^ 30))) 0) x)
      ∧ (∃ x, FirstFails (place (sCheck (ptrTo 1 0 0xFF800)) 1) x) ∧ (∃ x, FirstFails (place (sCheck (ptrTo 1 0 0xFF7FF)) 0) x)
      ∧ (∃ x, FirstFails (place (sCheck (ptrTo 1 0 2048)) 0) x) ∧ (∃ x, FirstFails (place (sCheck (ptrTo 2 0 0xFF800)) 0) x) := by
  simp only [MayTrap, ready_iff, env_iff]
  repeat' apply And.intro
  all_goals first
    | decide +kernel
    | dsimp only [Env.pointerChecks, List.cons_append, List.nil_append]
      rw [if_pos (by decide +kernel)]
      repeat first
        | exact fails_here (by dsimp only [Env.cleanCheck]; decide +kernel)
        | refine fails_later (by dsimp only [Env.cleanCheck]; decide +kernel) ?_

end witnessTraps

section witnessTraps2

/-- An inbox of two blocks under ORDER 1, whose one unit lies in the second. -/
def sMoved : State := scene 0 (ready [])
  { tile0 with
    routedAt := some 100, inbox := some ⟨499, 2, 22504, true, 1, 2⟩, sram := [(22518, 1)]
    blocks := [(499, ⟨.deferred, 24, true, 1⟩), (500, ⟨.deferred, 24, true, 1⟩)] }

theorem witness_EngineEvents_order :
    let u := tileOf sMoved 0 0
    sMoved.at_ 0 0 (domOf sMoved 0) u ∧ u.routedAt = some 100 ∧ u.routedDone = false
      ∧ u.inbox = some ⟨499, 2, 22504, true, 1, 2⟩ ∧ Mem.wf u.sram = true ∧ 22504 + 8 + 8 * 1 ≤ u.blockAt 499
      ∧ u.armedSlot (499 + 0) = true ∧ (u.dirRecords ⟨499, 2, 22504, true, 1, 2⟩).map (fun w => fld w 56 48) = [1] := by
  simp only [at_iff]
  repeat' apply And.intro
  all_goals decide +kernel

/-- A tile that offers a flit toward controller 3, free or held by a STARVE. -/
def sOffer (held : Bool) : State :=
  { sMsg { msg0 .put 0 with src := .tile 0 0, dst := .hbm 3, injected := 0, fly := [] } with
    starve := if held then [(0, 105)] else [] }

theorem witness_FabricEvents_router :
    (∀ b, (sOffer b).offer 0 0 false = (sOffer b).msgs.head?) ∧ (sOffer false).offer 0 0 true = none
      ∧ (sOffer true).cycle < (sOffer true).starve.getD 0 0 ∧ ¬((sOffer false).cycle < (sOffer false).starve.getD 0 0)
      ∧ (∀ p ∈ (sOffer false).msgs, ((sOffer false).nextFlit p.1 p.2).isSome = true)
      ∧ State.reset.offer 39 31 false = none ∧ State.reset.offer 39 31 true = none := by
  repeat' apply And.intro
  all_goals decide +kernel

/-- R333's example: A takes +X, B is deflected to +Y, C ejects and D is not injected; a router's eject port takes one flit. -/
theorem test_router_example :
    let at_ (dx dy sx sy age : Nat) : Flit := ⟨0, 0, 10, 5, dx, dy, false, sx, sy, age⟩
    let a := at_ 12 5 8 2 40
    let b := at_ 12 5 3 5 40
    let c := at_ 10 5 0 0 7
    let r := ([c, b, a].foldl (fun l f => insFlit f l) []).foldl RouterOut.assign ⟨[], false, false, [], []⟩
    r.sent = [a.go .xp, b.go .yp] ∧ r.ejected = [c] ∧ r.used = [.yp, .xp] ∧ (r.inject (at_ 10 9 10 5 0)).2 = false
      ∧ (r.assign c).ejected = [c] ∧ (r.assign c).sent = [a.go .xp, b.go .yp, c.go .xm] := by decide +kernel

/-- A first register that has landed beside a later one that has not. -/
theorem witness_IssueChecks_later : (opAB 0 0 4 3).reads = [.g 4] ++ .g 3 :: []
    ∧ newestPend (.g 4) (env (sPend true)).c.th.pend = none ∧ (opAB 0 0 0 3).reads = [.g 0] ++ .g 3 :: []
    ∧ (RegId.g 0).isZero = true
    ∧ newestPend (.g 3) (env (sPend true)).c.th.pend = some { pend0 with land := some 103 }
    ∧ (∀ r ∈ (opAB 0 0 4 3).reads, ((newestPend r (env (sPend true)).c.th.pend).all fun p => p.fixed) = true) := by
  repeat' apply And.intro
  all_goals decide +kernel

/-- Each float type, and the operands at which R98 and R160 change: NaNs, infinities, zeros, the smallest subnormals and 1. -/
theorem witness_VectorFunctions_operands :
    FloatType .f64 11 52 1023 0x7FEFFFFFFFFFFFFF 0x7FF8000000000000 ∧ FloatType .f32 8 23 127 0x7F7FFFFF 0x7FC00000
      ∧ FloatType .bf16x2 8 7 127 0x7F7F 0x7FC0 ∧ FloatType .f16x2 5 10 15 0x7BFF 0x7E00
      ∧ (fmt32.decode 0x7F800001).isNan = true ∧ fmt32.decode 0x7F800000 = .inf false ∧ fmt32.decode 0xFF800000 = .inf true
      ∧ ((fmt32.decode 0x80000000).isNeg = true ∧ (fmt32.decode 0x80000000).mag = 0
        ∧ (fmt32.decode 0x80000000).isNan = false ∧ (fmt32.decode 0x80000000).isInf = false)
      ∧ ((fmt32.decode 0x80000001).isNeg = true ∧ (fmt32.decode 0x80000001).mag ≠ 0)
      ∧ ((fmt32.decode 1).isNeg = false ∧ (fmt32.decode 1).mag ≠ 0) := by
  simp only [FloatType]
  repeat' apply And.intro
  all_goals decide +kernel

/-- 2 and 1/2 are whole exponents or powers of two, 3 is no power of two, 1/2 no whole exponent. -/
theorem witness_VectorPowersAndLogarithms :
    Ready sVec (env sVec) (op32 0 .notXc false 15 (vreads 7 1 false false [.v 1])) ∧ VType.f16x2 ≠ .f64
      ∧ (fmt32.decode 0x40000000).rat = 2 ∧ (fmt32.decode 0x3F000000).mag = 2 ^ (-1 : Int)
      ∧ (fmt32.decode 0x3F800000).mag = 1 ∧ (fmt32.decode 0x40400000).mag = 3 ∧ (fmt32.decode 0x3F000000).rat = 1 / 2 := by
  simp only [ready_iff, env_iff]
  repeat' apply And.intro
  all_goals decide +kernel

/-- The ends of the integer types, −0 beside +0, a NaN, an infinity, and each class of R162; scales of 255 and 254. -/
theorem witness_ElementFunctions :
    (2 ^ 32 - 1 < 2 ^ 32 ∧ 2 ^ 16 - 1 < 2 ^ 16 ∧ 2 ^ 8 - 1 < 2 ^ 8) ∧ VType.i8x4.isInt = true ∧ VType.f16x2.isInt = false
      ∧ ((fmt32.decode 0x80000000).Same (fmt32.decode 0) ∧ (fmt32.decode 0x80000000).isNeg = true)
      ∧ (fmt32.decode 0xFF800000).Below (fmt32.decode 0xFF7FFFFF) ∧ (fmt32.decode 0x7F7FFFFF).Below (fmt32.decode 0x7F800000)
      ∧ ¬(fmt32.decode 0x7F800000).Below (fmt32.decode 0x7F800000) ∧ (fmt32.decode 0x7FC00000).isNan = true
      ∧ (fmt32.decode 0x80000001).Below (fmt32.decode 1)
      ∧ (fmtE4m3.decode 0x7F).isNan = true ∧ fmtE5m2.decode 0x7C = .inf false ∧ (fmtE2m1.decode 7).isNan = false
      ∧ (254 : Nat) ≠ 255 := by
  simp only [FVal.Same, FVal.Below]
  repeat' apply And.intro
  all_goals decide +kernel

/-- A group of one active element, and one of none; the types of the tree and of the chain. -/
theorem witness_ReductionsAndScans :
    VType.i16x2.isInt = true ∧ VType.n32.isInt = true ∧ (List.range VType.i16x2.count).filter (fun i => i == 63) = [63]
      ∧ (List.range VType.i16x2.count).filter (fun _ => false) = [] ∧ VType.f64.isWide = true ∧ VType.i32.isWide = true
      ∧ VType.n32.isWide = true ∧ VType.f32.isWide = true := by
  decide +kernel

/-- The formats at the ends of their range: BF16 with K 32, an MX8 A with an E4M3 B, MX4 and DX4 with K 128, FP64 over a pair with K 8; MACC, and MLD and
MST of FP64 and FP32. -/
theorem witness_MatrixValues :
    let ok (cfg : Word) (n : AccReg) (mmat : Bool) : Prop := mmaOk (MxCfg.of cfg) n mmat = true
    ok 0x20 3 false ∧ ok 0x02240040 3 false ∧ ok 0x06660080 3 true ∧ ok 0x06880080 3 true ∧ ok 0x01990008 2 false
      ∧ fld (0x06880080 : Word) 19 16 = 8 ∧ fld (0x06880080 : Word) 23 20 = 8 ∧ (0x01990008 : Word).getLsbD 24 = true
      ∧ ({ mxCmd 3 2 with pair := true, cfg := 0x01990008 } : MxCmd).pair = (0x01990008 : Word).getLsbD 24
      ∧ ({ mxCmd 4 3 with cfg := 0x06880080 } : MxCmd).pair = (0x06880080 : Word).getLsbD 24
      ∧ fld (0x50000000 : Word) 31 28 = 5 ∧ fld (0 : Word) 31 28 = 0 ∧ Mem.wf (tileV).sram = true
      ∧ (let q : MxCmd := { mxCmd 2 3 with pa := 0x0400000000009800, pieces := 127 }
        let t : Tile := { tileV with mx := [q], blocks := [(15, ⟨.deferred, 26, true, 1⟩)] }
        t.armedFor (t.mstDest q) 26 (ptrTag q.pa) = true ∧ q.pieces < 32 * 4) := by
  repeat' apply And.intro
  all_goals decide +kernel

end witnessTraps2

section witnessTraps3

/-- The cause and the FORM of the trap that an instruction raises. -/
def trapsAs (s : State) (i : Instr) : Option (Nat × Nat) := (raised (exec i s)).map fun x => (x.1, x.2.1)

/-- Slot 0 with A (g1), B (g2) and the command word of a matrix command. -/
def sMat (a b cfg : Word) (pois : Bool := false) : State :=
  scene 0 (ready [.g 1 a false, .g 2 b pois, .e 0 cfg]) tileV

/-- R181, R185: a word of zeros, a poisoned pointer, and each check of the span A; MST to a FULL block and to one of slot 0's. -/
theorem test_matrix_traps :
    let good : Word := 0x0400000000007800
    let mma (a cfg : Word) (pois : Bool := false) := trapsAs (sMat a 0x04000000000FF000 cfg pois) (.mma 0 3 1 2 false)
    mma good 0x20 = none ∧ mma good 0 = some (cIllegal, 0) ∧ mma good 0x20 true = some (cPoison, 0)
      ∧ mma 0x0700000000007800 0x20 = some (cBounds, 0) ∧ mma 0x0500000000007800 0x20 = some (cPhase, 1)
      ∧ mma (good + 2 ^ 20) 0x20 = some (cBounds, 0) ∧ mma (good + 32) 0x20 = some (cMisalign, 0)
      ∧ mma 2048 0x20 = some (cBounds, 1) ∧ mma 0x04000000000FFFC0 0x20 = some (cBounds, 1)
      ∧ mma 0x0800000000007800 0x20 = some (cStale, 0)
      ∧ trapsAs (sMat good 0 0x10000020) (.mst 0 3 1) = some (cSecond, 0)
      ∧ trapsAs (sMat 0x04000000000FF000 0 0x30000020) (.mst 0 3 1) = some (cOwner, 0) := by
  decide +kernel

/-- An A of EMPTY blocks parks; eight commands outstanding hold. -/
theorem witness_MatrixTraps :
    let e := env (sMat 0x0400000000009800 0x04000000000FF000 0x20)
    let busy := scene 0 (ready [.g 1 0x0400000000007800 false, .g 2 0x04000000000FF000 false, .e 0 0x10000020])
      { tileV with mx := List.replicate 8 (mxCmd 0 3) }
    Ready e.s e (op32 0 .notXc true 20 [.g 1, .g 2, .e 0, .e 1, .e 2]) ∧ e.s.cur.ctx ≠ 17 ∧ e.speculative = false
      ∧ e.t.spanBlocks ⟨e.c.th.rg 1, 64 * 32 * 16 / 8, 64, 0⟩ = [8, 9] ∧ (e.t.block 8).state = .empty
      ∧ Ready busy (env busy) (op32 0 .notXc true 20 [.e 0]) ∧ 8 ≤ (env busy).t.mx.length ∧ (env busy).t.accBusy 0 = false
      ∧ (∃ x, FirstFails [e.legalCheck (fld (0 : Word) 15 0 ≠ 0), e.cleanCheck 1] x)
      ∧ (∃ x, FirstFails [e.legalCheck (fld (0x20 : Word) 15 0 ≠ 0), e.cleanCheck 1, ⟨ptrSpace 0x0700000000007800 ≠ 3, 5, 0, 0, 0⟩] x) := by
  simp only [ready_iff, env_iff]
  repeat' apply And.intro
  all_goals first
    | decide +kernel
    | repeat first
        | exact fails_here (by dsimp only [Env.cleanCheck, Env.legalCheck]; decide +kernel)
        | refine fails_later (by dsimp only [Env.cleanCheck, Env.legalCheck]; decide +kernel) ?_

/-- Slot 0 with a base (g1), offsets (v3) and a stride (e7), over a CELL with a barrier, and two foreign tags. -/
def sVm (p : Word) (u : VWord := ramp) (sd : Word := 4) (pois : Bool := false) (lanes : KWord := 0) : State :=
  scene 0 (ready [.g 1 p pois, .v 2 ramp 0x80000000, .v 3 u lanes, .v 4 ramp 0, .e 7 sd]) { tileV with
    bars := [20480 / 16], tags := [(20480 / 64 + 3, 5)] }

/-- R171 to R174: each check in turn, for a load and a store of each kind. -/
theorem test_vector_memory_traps :
    let ld (p : Word) (pois : Bool := false) := trapsAs (sVm p ramp 4 pois) (.vld 0 4 1 0)
    let gath (p : Word) (u : VWord := ramp) (lanes : KWord := 0) := trapsAs (sVm p u 4 false lanes) (.vgath 0 2 1 0)
    ld 0x04000000000FFF80 = none ∧ ld 0 true = some (cPoison, 0) ∧ ld (ptrTo 0 3 2048) = some (cBounds, 0)
      ∧ ld (ptrTo 0 1 2048) = some (cPhase, 1) ∧ ld (ptrTo 1 0 (2 ^ 20)) = some (cBounds, 0)
      ∧ trapsAs (sVm 0x04000000000FFF80) (.vld 0 4 1 1) = some (cBounds, 2) ∧ ld 2112 = some (cMisalign, 0)
      ∧ ld 3072 = some (cBounds, 1) ∧ ld (ptrTo 2 0 0xFFF80) = some (cStale, 0) ∧ ld 20608 = some (cTag, 0)
      ∧ gath 2048 ramp 1 = some (cPoison, 0) ∧ gath 2048 (BitVec.allOnes 1024) = some (cBounds, 2)
      ∧ gath 2049 = some (cMisalign, 0) ∧ trapsAs (sVm 2048 ramp 2) (.vlds 0 4 1 0) = some (cMisalign, 0)
      ∧ trapsAs (sVm 2048 ramp 0x400) (.vlds 0 4 1 0) = some (cBounds, 1) := by
  decide +kernel

/-- R14, R23, R40: the checks of a store alone: CODE, a barrier's word 1, poisoned data, and blocks that are not slot 0's. -/
theorem test_vector_store_traps :
    let st (p : Word) (v : VReg := 4) := trapsAs (sVm p) (.vst 0 v 1 0)
    st 0 = some (cBounds, 1) ∧ st 20480 = some (cBounds, 1) ∧ st 2048 2 = none ∧ st 0x04000000000FF780 2 = some (cPoison, 0)
      ∧ st 0x04000000000FFF80 = some (cSecond, 0) ∧ st 0x0400000000009800 = some (cOwner, 0)
      ∧ st 0x04000000000FF780 = none := by
  decide +kernel

/-- VLD of the last granules: two granules, each touched first by a lane of its own. -/
theorem witness_VectorMemoryTraps :
    let e := env (sVm 0x04000000000FFF80)
    let addr (l : Nat) : Nat := 0xFFF80 + 4 * l
    let gs := [0xFFF80 / 64, 0xFFFC0 / 64]
    let low (g : Nat) : Nat := if g = 0xFFF80 / 64 then 0 else 16
    e.acquiring = false ∧ Ready e.s e (op32 0 .notXc false 18 [.g 1]) ∧ e.s.cur.ctx ≠ 17 ∧ e.speculative = false
      ∧ gs.Pairwise (· < ·) ∧ (∀ g ∈ gs, ∃ l < 32, addr l / 64 = g) ∧ (∀ l < 32, addr l / 64 ∈ gs)
      ∧ (∀ g ∈ gs, low g < 32 ∧ addr (low g) / 64 = g ∧ ∀ l < low g, addr l / 64 ≠ g)
      ∧ (∃ x, FirstFails [(env (sVm 0 ramp 4 true)).cleanCheck 1] x)
      ∧ ¬ ReadableAt (env (sVm 0x0400000000009800)) 0x9800 := by
  simp only [ready_iff, ReadableAt]
  repeat' apply And.intro
  all_goals first
    | decide +kernel
    | exact fails_here (by dsimp only [Env.cleanCheck]; decide +kernel)

/-- XC with g1 to g3 and a transfer word, in a routed exchange or not. -/
def sTx (a b e4 e5 : Word) (pois : Bool := false) (routed : Bool := false) : State :=
  scene 16 (ready [.g 1 a pois, .g 2 b false, .e 4 e4, .e 5 e5]) tile0 { dom0 with routed }

/-- R200, R201: the word, the operands in turn, FORM 0 for the targets of XSEND and XPUT, the rectangle, and the exchange state. -/
theorem test_transfer_traps :
    let dst : Word := 0x0600000000305800
    let src : Word := 0x04000000000FF800
    let send (a b e4 : Word) (pois : Bool := false) := trapsAs (sTx a b e4 0 pois) (.xsend 0 1 2)
    send dst src 0x10001 = none ∧ send dst src 0 = some (cIllegal, 0) ∧ send dst src 0x200 = some (cIllegal, 0)
      ∧ send dst src 1 true = some (cPoison, 0) ∧ send src src 1 = some (cBounds, 0)
      ∧ send 0x0600000000405800 src 1 = some (cBounds, 0) ∧ send (dst + 64) src 1 = some (cMisalign, 0)
      ∧ send dst dst 1 = some (cBounds, 0) ∧ send dst (src + 64) 1 = some (cMisalign, 0) ∧ send dst 2048 1 = some (cBounds, 1)
      ∧ send dst src 2 = some (cBounds, 1) ∧ send dst 0x08000000000FF800 1 = some (cStale, 0)
      ∧ trapsAs (sTx dst src 1 0) (.xput 0 .relaxed 1 2) = some (cBounds, 0)
      ∧ trapsAs (sTx 0x02000000 src 1 0x0400000000005800) (.xmcast 0 1 2) = some (cBounds, 3) := by
  decide +kernel

/-- R201, R213 to R216, R220: the commands that arm blocks, XCOMB, those of a routed exchange, and PITCH's word. -/
theorem test_command_traps :
    let src : Word := 0x04000000000FF800
    trapsAs (sTx 0x0400000000005800 0x0500000000000800 1 0) (.xget 0 .relaxed 1 2) = some (cSecond, 0)
      ∧ trapsAs (sTx 0x0400000000006000 0x0500000000000800 1 0) (.xget 0 .relaxed 1 2) = some (cOwner, 0)
      ∧ trapsAs (sTx src 0x0500000000000800 1 22508) (.xfeed 0 .relaxed 1 2) = some (cMisalign, 0)
      ∧ trapsAs (sTx src 0x0500000000000800 1 2048) (.xfeed 0 .relaxed 1 2) = some (cBounds, 1)
      ∧ trapsAs (sTx 22521 1 0 0) (.xcomb 0 .add .relaxed 1 2) = some (cMisalign, 0)
      ∧ trapsAs (sTx 2048 1 0 0) (.xcomb 0 .add .relaxed 1 2) = some (cBounds, 1)
      ∧ trapsAs (sTx 0 src 0x10000 22520) (.xroute 0 1 2) = some (cPhase, 2)
      ∧ trapsAs (sTx 1 src 0x10000 22520 false true) (.xroute 0 1 2) = some (cBounds, 3)
      ∧ trapsAs (sTx 0 0 0 0) (.xclose 0) = some (cPhase, 2)
      ∧ trapsAs (sTx 0x0400000000005800 0 1 0) (.xrecv 0 1) = some (cSecond, 0)
      ∧ trapsAs (sTx 0 0x1000 0 0) (.pitch 0 .relaxed 2) = some (cBounds, 3) := by
  decide +kernel

/-- XC with every place of the tile's queue in use. -/
def sQueue : State := scene 16 (ready [.g 1 0x0600000000305800 false, .g 2 0x04000000000FF800 false, .e 4 1])
  { tile0 with cmds := (List.range 64).map fun i => (i, send0) }

theorem witness_TransferTraps :
    let e := env sQueue
    Ready sQueue e (op32 0 .xcOnly true 21 [.g 1, .g 2, .e 4]) ∧ e.s.cur.ctx ≠ 17 ∧ e.speculative = false
      ∧ 64 ≤ (e.t.cmds.filter fun c => c.2.major == 21 && (c.2.f6 == 4) == false).length
      ∧ fld (e.c.th.re 4) 11 9 = 0 ∧ fld (e.c.th.re 4) 8 0 = 1 ∧ ptrBad (e.c.th.rg 1) = false ∧ ptrSpace (e.c.th.rg 1) = 2
      ∧ fld (e.c.th.rg 1) 31 20 < e.d.nrank ∧ fld (e.c.th.rg 1) 10 0 = 0 ∧ NamesBlocks e (e.c.th.rg 2) 1
      ∧ (∃ x, FirstFails [e.legalCheck (fld (0x200 : Word) 11 9 = 0), e.legalCheck (fld (0x200 : Word) 8 0 ≠ 0)] x)
      ∧ (∃ x, FirstFails [e.legalCheck (fld (0 : Word) 11 9 = 0), e.legalCheck (fld (0 : Word) 8 0 ≠ 0)] x)
      ∧ e.acquiring = false ∧ e.cellHits 22520 8 = false ∧ (loadBytes e.c e.t 22520 8).isSome = true ∧ e.c.busy = .none := by
  simp only [ready_iff, env_iff, namesBlocks_iff, namesLocal_iff]
  repeat' apply And.intro
  all_goals first
    | decide +kernel
    | repeat first
        | exact fails_here (by dsimp only [Env.legalCheck]; decide +kernel)
        | refine fails_later (by dsimp only [Env.legalCheck]; decide +kernel) ?_

end witnessTraps3

end Sys2Proof.Tests
end

