-- ==== Sys2Proof/Proofs/Progress.lean ====
section
/-! SUPPORT and PROOF. No state stops the machine: whatever decodes is issued, the arbiter offers the cycle to a context of a
resident tile, and a row of the hardware is only taken where it answers a next state. -/

namespace Sys2Proof.Machine

section decoded

/-- Not a row that the hardware runs by itself: what a context issues. -/
def issued : Instr → Bool
  | .resultLanding .. | .storePerform .. | .cellPerform .. | .tagsetEvent .. | .vqdxListEvent .. | .bfillCommit .. |
    .trapEntry .. | .journal .. | .waiterService .. | .engineReadEnd .. | .matrixComputeStart .. | .matrixComputeDone .. |
    .matrixMoveStart .. | .matrixMoveDone .. | .mstBlockCommit .. | .idleWake .. | .voteWindowWaitEnd .. | .boundary .. |
    .straggler .. | .preemptDone .. | .restore .. | .migrationStreamDone .. | .forwardRetire .. | .placementPlan |
    .placementGrant | .timeSliceExpiry .. | .releaseDrainDone .. | .feedCommit .. | .routedFinish .. | .putArrive .. |
    .getArrive .. | .reply .. | .combine .. | .invoke .. | .answer .. | .retryAfter .. | .retryTimer .. | .routedUnit .. |
    .closingCount .. | .announce .. | .announcePeriodic | .requestResend .. | .flitRoute | .starve .. | .linkFlit .. |
    .portRetrain .. | .walkComplete .. | .stalledRecordWrite .. | .invalidateComplete | .hbmWaiterService .. | .scrub .. |
    .refresh .. | .selfRefreshEntry .. | .extentAdded .. | .extentReleaseRequest .. | .hostWrite .. | .hostRead .. |
    .cmdtail .. | .direct .. | .evhead .. | .bar0RegisterWrite .. | .launch | .launchReenter | .release | .continueHold | .extend |
    .breakStragglers | .faultCompleteRetry | .faultCompleteAbort | .invalidateRange | .invalidatePkgid | .tableRoot |
    .handler | .memstateClear | .memstatePublish | .slice | .counterRead | .counterReset | .health | .attest | .portmap |
    .peer | .configScrub | .configIdleEntry | .migrate | .extentReleased | .coldReset | .bringUp | .thermalTrip |
    .throttleChange .. | .d3hotEntry | .d3coldEntry | .d0Entry | .handlerLockClear .. => false
  | _ => true

/-- The meaning of an instruction is an issue by the acting context. -/
theorem exec_eq_issue {i : Instr} (h : issued i = true) (s : State) : ∃ op body, exec i s = issue s op body := by
  cases i with
  | resultLanding | storePerform | cellPerform | tagsetEvent | vqdxListEvent | bfillCommit | trapEntry | journal |
    waiterService | engineReadEnd | matrixComputeStart | matrixComputeDone | matrixMoveStart | matrixMoveDone |
    mstBlockCommit | idleWake | voteWindowWaitEnd | boundary | straggler | preemptDone | restore | migrationStreamDone |
    forwardRetire | placementPlan | placementGrant | timeSliceExpiry | releaseDrainDone | feedCommit | routedFinish |
    putArrive | getArrive | reply | combine | invoke | answer | retryAfter | retryTimer | routedUnit | closingCount |
    announce | announcePeriodic | requestResend | flitRoute | starve | linkFlit | portRetrain | walkComplete |
    stalledRecordWrite | invalidateComplete | hbmWaiterService | scrub | refresh | selfRefreshEntry | extentAdded |
    extentReleaseRequest | hostWrite | hostRead | cmdtail | direct | evhead | bar0RegisterWrite | launch | launchReenter |
    release | continueHold | extend | breakStragglers | faultCompleteRetry | faultCompleteAbort | invalidateRange |
    invalidatePkgid | tableRoot | handler | memstateClear | memstatePublish | slice | counterRead | counterReset | health |
    attest | portmap | peer | configScrub | configIdleEntry | migrate | extentReleased | coldReset | bringUp | thermalTrip |
    throttleChange | d3hotEntry | d3coldEntry | d0Entry | handlerLockClear => cases h
  | _ => exact ⟨_, _, rfl⟩

theorem all_issued_bind {α : Type} {x : Option α} {f : α → Option Instr} (h : ∀ a, (f a).all issued = true) :
    (x >>= f).all issued = true := by
  cases x with
  | none => rfl
  | some a => exact h a

theorem issued_decAlu (r : Raw32) : (decAlu r).all issued = true := by
  unfold decAlu
  repeat' split
  all_goals rfl

theorem issued_decAluI (r : Raw32) : (decAluI r).all issued = true := by
  unfold decAluI
  repeat' split
  all_goals rfl

theorem issued_decMulDiv (r : Raw32) : (decMulDiv r).all issued = true := by
  unfold decMulDiv
  repeat' split
  all_goals rfl

theorem issued_decBr (r : Raw32) : (decBr r).all issued = true := by
  unfold decBr
  repeat' split
  all_goals rfl

theorem issued_decJr (r : Raw32) : (decJr r).all issued = true := by
  unfold decJr
  repeat' split
  all_goals rfl

theorem issued_decLd (r : Raw32) : (decLd r).all issued = true := by
  unfold decLd
  repeat' split
  all_goals rfl

theorem issued_decSt (r : Raw32) : (decSt r).all issued = true := by
  unfold decSt
  repeat' split
  all_goals rfl

theorem issued_decBlock (r : Raw32) : (decBlock r).all issued = true := by
  unfold decBlock
  repeat' split
  all_goals rfl

theorem issued_decCell (r : Raw32) : (decCell r).all issued = true := by
  unfold decCell
  repeat' first | split | refine all_issued_bind fun _ => ?_
  all_goals rfl

theorem issued_decSync (r : Raw32) : (decSync r).all issued = true := by
  unfold decSync
  repeat' first | split | refine all_issued_bind fun _ => ?_
  all_goals rfl

theorem issued_decExt (r : Raw32) : (decExt r).all issued = true := by
  unfold decExt
  repeat' first | split | refine all_issued_bind fun _ => ?_
  all_goals rfl

theorem issued_decVAlu (r : Raw32) : (decVAlu r).all issued = true := by
  unfold decVAlu
  repeat' first | split | refine all_issued_bind fun _ => ?_
  all_goals rfl

theorem issued_decVFn (r : Raw32) : (decVFn r).all issued = true := by
  unfold decVFn
  repeat' first | split | refine all_issued_bind fun _ => ?_
  all_goals rfl

theorem issued_decVCvt (r : Raw32) : (decVCvt r).all issued = true := by
  unfold decVCvt
  repeat' first | split | refine all_issued_bind fun _ => ?_
  all_goals rfl

theorem issued_decVPerm (r : Raw32) : (decVPerm r).all issued = true := by
  unfold decVPerm
  repeat' first | split | refine all_issued_bind fun _ => ?_
  all_goals rfl

theorem issued_decVMem (r : Raw32) : (decVMem r).all issued = true := by
  unfold decVMem
  repeat' first | split | refine all_issued_bind fun _ => ?_
  all_goals rfl

theorem issued_decVMask (r : Raw32) : (decVMask r).all issued = true := by
  unfold decVMask
  repeat' first | split | refine all_issued_bind fun _ => ?_
  all_goals rfl

theorem issued_decMatrix (r : Raw32) : (decMatrix r).all issued = true := by
  unfold decMatrix
  repeat' first | split | refine all_issued_bind fun _ => ?_
  all_goals rfl

theorem issued_decXfer (r : Raw32) : (decXfer r).all issued = true := by
  unfold decXfer
  repeat' first | split | refine all_issued_bind fun _ => ?_
  all_goals rfl

theorem issued_decXctl (r : Raw32) : (decXctl r).all issued = true := by
  unfold decXctl
  repeat' split
  all_goals rfl

theorem issued_decInvoke (r : Raw32) : (decInvoke r).all issued = true := by
  unfold decInvoke
  repeat' first | split | refine all_issued_bind fun _ => ?_
  all_goals rfl

theorem issued_decSys (r : Raw32) : (decSys r).all issued = true := by
  unfold decSys
  repeat' first | split | refine all_issued_bind fun _ => ?_
  all_goals rfl

theorem issued_decTrap (r : Raw32) : (decTrap r).all issued = true := by
  unfold decTrap
  repeat' split
  all_goals rfl

theorem issued_decodeRaw16 (r : Raw16) : (decodeRaw16 r).all issued = true := by
  unfold decodeRaw16
  repeat' split
  all_goals rfl

theorem issued_decodeRaw32 (r : Raw32) : (decodeRaw32 r).all issued = true := by
  unfold decodeRaw32
  split
  case h_1 => exact issued_decAlu r
  case h_2 => exact issued_decAluI r
  case h_3 => rfl
  case h_4 => rfl
  case h_5 => exact issued_decMulDiv r
  case h_6 => exact issued_decBr r
  case h_7 => rfl
  case h_8 => exact issued_decJr r
  case h_9 => exact issued_decLd r
  case h_10 => exact issued_decSt r
  case h_11 => exact issued_decBlock r
  case h_12 => exact issued_decCell r
  case h_13 => exact issued_decSync r
  case h_14 => exact issued_decExt r
  case h_15 => exact issued_decVAlu r
  case h_16 => exact issued_decVFn r
  case h_17 => exact issued_decVCvt r
  case h_18 => exact issued_decVPerm r
  case h_19 => exact issued_decVMem r
  case h_20 => exact issued_decVMask r
  case h_21 => exact issued_decMatrix r
  case h_22 => exact issued_decXfer r
  case h_23 => exact issued_decXctl r
  case h_24 => exact issued_decInvoke r
  case h_25 => exact issued_decSys r
  case h_26 => exact issued_decTrap r
  case h_27 => rfl

/-- Whatever bytes decode, the instruction is issued (R70, R77). -/
theorem issued_of_decodeBytes {bytes : List Byte} {i : Instr} (h : (decodeBytes bytes).map Prod.fst = some i) :
    issued i = true := by
  obtain ⟨⟨j, n⟩, hj, rfl⟩ := Option.map_eq_some_iff.mp h
  unfold decodeBytes at hj
  split at hj
  · split at hj
    · obtain ⟨k, hk, h2⟩ := Option.map_eq_some_iff.mp hj
      cases h2
      unfold decode16 at hk
      split at hk
      · exact Option.all_eq_true _ _ |>.mp (issued_decodeRaw16 _) _ hk
      · cases hk
    · split at hj
      · obtain ⟨k, hk, h2⟩ := Option.map_eq_some_iff.mp hj
        cases h2
        unfold decode32 at hk
        split at hk
        · split at hk
          · rename_i hd
            split at hk
            · cases hk; exact Option.all_eq_true _ _ |>.mp (issued_decodeRaw32 _) _ hd
            · cases hk
          · cases hk
        · cases hk
      · cases hj
    · cases hj
  · cases hj

end decoded

section arbiter

theorem issue_answers {i : Instr} (h : issued i = true) {s : State} (hs : s.env?.isSome) : ∃ t, exec i s = .next t := by
  obtain ⟨op, body, ho⟩ := exec_eq_issue h s
  rw [ho]; exact issue_total op body hs

/-- A choice that keeps the best so far or takes the next candidate ends with the first best or a candidate. -/
theorem foldl_choice {α : Type} {g : Option α → α → Option α} (hg : ∀ b i, g b i = b ∨ g b i = some i) (l : List α) :
    ∀ b, l.foldl g b = b ∨ ∃ i ∈ l, l.foldl g b = some i := by
  induction l with
  | nil => intro b; exact .inl rfl
  | cons k l ih =>
    intro b
    rw [List.foldl_cons]
    rcases ih (g b k) with h | ⟨i, hi, h⟩
    · rw [h]
      exact (hg b k).imp id fun hk => ⟨k, by simp, hk⟩
    · exact .inr ⟨i, by simp [hi], h⟩

theorem mem_of_foldl_choice {α : Type} {g : Option α → α → Option α} (hg : ∀ b i, g b i = b ∨ g b i = some i)
    {l : List α} {i : α} (h : l.foldl g none = some i) : i ∈ l := by
  rcases foldl_choice hg l none with hn | ⟨j, hj, hs⟩
  · cases hn.symm.trans h
  · cases hs.symm.trans h; exact hj

/-- The slot to which a tile offers a cycle is a slot (R12, R299). -/
theorem nextSlot_lt {t : Tile} {det : Bool} {now i : Nat} (h : t.nextSlot det now = some i) : i < 16 := by
  unfold Tile.nextSlot at h
  split at h
  · obtain ⟨j, -, rfl⟩ := List.mem_map.mp (List.mem_of_find?_eq_some h)
    omega
  · refine List.mem_range.mp (mem_of_foldl_choice (fun b i => ?_) h)
    split
    · exact .inl rfl
    · split
      · split
        · exact .inr rfl
        · exact .inl rfl
      · exact .inr rfl

theorem offer_lt {d : Domain} {t : Tile} {now i : Nat} (h : d.offer t now = some i) : i < 18 := by
  unfold Domain.offer at h
  split at h
  · cases h
  · split at h
    · cases h; decide
    · split at h
      · cases h
      · split at h
        · split at h
          · cases h; decide
          · cases h
        · exact (nextSlot_lt h).trans (by decide)

/-- The cycle is offered to a context of a tile that stands in the package. -/
theorem issuer_resident {s : State} {c : Cur} {det : Bool} {t : Tile} (h : s.issuer = some (c, det, t)) :
    (s.tile? c.dom c.rank).isSome ∧ c.ctx < 18 := by
  obtain ⟨k, -, hk⟩ := List.exists_of_findSome?_eq_some h
  unfold State.issuerIn at hk
  split at hk
  · cases hk
  · rename_i d hd
    split at hk
    · obtain ⟨r, -, hr⟩ := List.exists_of_findSome?_eq_some hk
      split at hr
      · cases hr
      · rename_i u hu
        obtain ⟨i, hi, he⟩ := Option.map_eq_some_iff.mp hr
        cases he
        exact ⟨by simp [State.tile?, hd, hu], offer_lt hi⟩
    · cases hk

theorem env_isSome {s : State} (h : (s.tile? s.cur.dom s.cur.rank).isSome) (hc : s.cur.ctx < 18) : s.env?.isSome := by
  unfold State.tile? at h
  unfold State.env?
  cases hd : s.doms.find s.cur.dom with
  | none => simp [hd] at h
  | some d =>
    cases ht : d.tiles.find s.cur.rank with
    | none => simp [hd, ht] at h
    | some t => simp [ht, hc]

/-- A tile changed is still there. -/
theorem tile?_updTile_isSome (s : State) (k r : Nat) (f : Tile → Tile) {k' r' : Nat} (h : (s.tile? k' r').isSome) :
    ((s.updTile k r f).tile? k' r').isSome := by
  unfold State.updTile
  split
  · rename_i d hd
    split
    · rename_i t ht
      simp only [State.tile?, setDom_doms, find_set] at h ⊢
      split
      · subst_vars
        simp only [Option.bind_some, setTile_tiles, find_set]
        split
        · rfl
        · simpa [hd] using h
      · exact h
    · exact h
  · exact h

theorem fetchRead_resident (s : State) (c : Cur) (t : Tile) (h : (s.tile? c.dom c.rank).isSome) :
    ((s.fetchRead c t).tile? c.dom c.rank).isSome := by
  unfold State.fetchRead
  dsimp only
  split
  · exact h
  · exact tile?_updTile_isSome s _ _ _ h

/-- What a context has fetched is issued: an instruction, ILLEGAL, or the trap of the fetch. -/
theorem runAt_next {s : State} {c : Cur} (hs : (s.tile? c.dom c.rank).isSome) (hc : c.ctx < 18) (t : Tile) (pc : Nat) :
    ∃ u, s.runAt c (t.fetch pc) = .next u := by
  have henv (bits : BitVec 32) (len : Nat) : (s.acting c bits len).env?.isSome := env_isSome hs hc
  unfold Tile.fetch
  dsimp only
  split
  · exact issue_total _ _ (env_isSome hs hc)
  · split
    · split
      · exact issue_total _ _ (env_isSome hs hc)
      · cases hi : (decodeBytes (t.sram.readBytes pc 4)).map Prod.fst with
        | none => exact issue_total _ _ (henv _ _)
        | some i => exact issue_answers (issued_of_decodeBytes hi) (henv _ _)
    · cases hi : (decodeBytes (t.sram.readBytes pc 4)).map Prod.fst with
      | none => exact issue_total _ _ (henv _ _)
      | some i => exact issue_answers (issued_of_decodeBytes hi) (henv _ _)

/-- The context to which the arbiter offers the cycle passes it over or issues (R79, R299). -/
theorem offerTo_next {s : State} {c : Cur} {det : Bool} {t : Tile} (hs : (s.tile? c.dom c.rank).isSome)
    (hc : c.ctx < 18) : ∃ u, s.offerTo c det t = .next u := by
  unfold State.offerTo
  dsimp only
  split
  · exact ⟨_, rfl⟩
  · obtain ⟨u, hu⟩ := runAt_next (fetchRead_resident s c t hs) hc t (t.ctx c.ctx).th.pc.toNat
    rw [hu]; exact ⟨_, rfl⟩

end arbiter

theorem cycleStep_next (s : State) : ∃ t, s.cycleStep = .next t := by
  unfold State.cycleStep
  split
  · exact ⟨_, rfl⟩
  · split
    · rename_i hi
      split at hi
      · obtain ⟨hs, hc⟩ := issuer_resident hi
        exact offerTo_next hs hc
      · cases hi
    · split <;> exact ⟨_, rfl⟩

theorem idleStep_next (s : State) : ∃ t, s.idleStep = .next t := by
  unfold State.idleStep
  split
  · exact ⟨_, rfl⟩
  · split <;> exact ⟨_, rfl⟩

theorem bringUp_next {s : State} (h : s.kiln.booting = true) : ∃ t, execBringUp s = .next t := by
  unfold execBringUp
  rw [if_neg (by simp [h])]
  extract_lets
  split <;> exact ⟨_, rfl⟩

/-- Settles O59: outside a running cycle every branch of the step answers a next state; in one, so does the issue, because the
arbiter offers the cycle to a context of a resident tile. -/
theorem everyStepGoesOn : Obligations.EveryStepGoesOn := by
  unfold Obligations.EveryStepGoesOn
  intro s
  unfold step
  split
  · exact ⟨_, rfl⟩
  · split
    · exact ⟨_, rfl⟩
    · split
      · exact ⟨_, rfl⟩
      · split
        · exact bringUp_next ‹_›
        · split
          · exact idleStep_next s
          · exact cycleStep_next s

end Sys2Proof.Machine
end
-- ==== Sys2Proof/Proofs/Canonical.lean ====
section
/-! SUPPORT. The canonical form of memory, part by part: of a tile, of a domain, of what an instruction acts on, and of what a row of
the hardware or the body of an instruction answers; and what the updates of the records keep of it. -/

namespace Sys2Proof.Machine

section parts

/-- The SRAM of the tile is in its canonical form. -/
def Tile.Canon (t : Tile) : Prop := Mem.wf t.sram = true

/-- Every tile of the map is canonical. -/
def TilesCanon (m : AMap Tile) : Prop := ∀ p ∈ m, p.2.Canon

/-- Every tile of the domain is canonical. -/
def Domain.Canon (d : Domain) : Prop := TilesCanon d.tiles

/-- Every domain of the map is canonical. -/
def DomsCanon (m : AMap Domain) : Prop := ∀ p ∈ m, p.2.Canon

/-- What an instruction acts on is canonical: the package, its domain and its tile. -/
def Env.Canon (e : Env) : Prop := e.s.MemoryCanonical ∧ e.d.Canon ∧ e.t.Canon

/-- The environment that an instruction leaves. -/
def Res1.env : Res1 → Env
  | .done x => x.e
  | .stay e => e
  | .wait e => e

/-- Whatever next state a row answers is canonical. -/
def Keeps (o : Host.Outcome State Fault Refusal) : Prop := ∀ t, o = .next t → t.MemoryCanonical

/-- Whatever the body of an instruction answers is canonical. -/
def Sound (x : Except Stop Res1) : Prop := ∀ r, x = .ok r → r.env.Canon

/-- Whatever environment a part of an instruction answers is canonical. -/
def SoundE (x : Except Stop Env) : Prop := ∀ e, x = .ok e → e.Canon

end parts

section maps

theorem mem_set {α : Type} {m : AMap α} {k : Nat} {v : α} {p : Nat × α} (h : p ∈ m.set k v) : p ∈ m ∨ p = (k, v) := by
  induction m with
  | nil => exact .inr (by simpa [AMap.set] using h)
  | cons q m ih =>
    obtain ⟨k', v'⟩ := q
    simp only [AMap.set] at h
    split at h
    · rcases List.mem_cons.mp h with h | h
      · exact .inr h
      · exact .inl (by simp [h])
    · split at h
      · rcases List.mem_cons.mp h with h | h
        · exact .inr h
        · exact .inl h
      · rcases List.mem_cons.mp h with h | h
        · exact .inl (by simp [h])
        · exact (ih h).imp (fun h => by simp [h]) id

theorem mem_of_find {α : Type} {m : AMap α} {k : Nat} {v : α} (h : m.find k = some v) : (k, v) ∈ m := by
  induction m with
  | nil => simp at h
  | cons q m ih =>
    obtain ⟨k', v'⟩ := q
    simp only [AMap.find] at h
    split at h
    · cases h; subst_vars; simp
    · simp [ih h]

theorem TilesCanon.find {m : AMap Tile} {k : Nat} {t : Tile} (h : TilesCanon m) (ht : m.find k = some t) : t.Canon :=
  h _ (mem_of_find ht)

theorem TilesCanon.set {m : AMap Tile} {k : Nat} {t : Tile} (h : TilesCanon m) (ht : t.Canon) : TilesCanon (m.set k t) := by
  intro p hp
  rcases mem_set hp with hp | rfl
  · exact h p hp
  · exact ht

theorem TilesCanon.map {m : AMap Tile} {f : Nat × Tile → Nat × Tile} (h : TilesCanon m)
    (hf : ∀ p, p.2.Canon → (f p).2.Canon) : TilesCanon (m.map f) := by
  intro p hp
  obtain ⟨q, hq, rfl⟩ := List.mem_map.mp hp
  exact hf q (h q hq)

theorem DomsCanon.find {m : AMap Domain} {k : Nat} {d : Domain} (h : DomsCanon m) (hd : m.find k = some d) : d.Canon :=
  h _ (mem_of_find hd)

theorem DomsCanon.set {m : AMap Domain} {k : Nat} {d : Domain} (h : DomsCanon m) (hd : d.Canon) : DomsCanon (m.set k d) := by
  intro p hp
  rcases mem_set hp with hp | rfl
  · exact h p hp
  · exact hd

theorem DomsCanon.map {m : AMap Domain} {f : Nat × Domain → Nat × Domain} (h : DomsCanon m)
    (hf : ∀ p, p.2.Canon → (f p).2.Canon) : DomsCanon (m.map f) := by
  intro p hp
  obtain ⟨q, hq, rfl⟩ := List.mem_map.mp hp
  exact hf q (h q hq)

theorem DomsCanon.erase {m : AMap Domain} {k : Nat} (h : DomsCanon m) : DomsCanon (m.erase k) :=
  fun p hp => h p (List.mem_filter.mp hp).1

end maps

section branches

variable {c : Prop} [Decidable c]

theorem State.MemoryCanonical.hbm {s : State} (h : s.MemoryCanonical) : Mem.wf s.hbmMem = true := h.1

theorem State.MemoryCanonical.host {s : State} (h : s.MemoryCanonical) : Mem.wf s.hostMem = true := h.2.1

theorem State.MemoryCanonical.cxl {s : State} (h : s.MemoryCanonical) : Mem.wf s.cxlMem = true := h.2.2.1

theorem State.MemoryCanonical.doms {s : State} (h : s.MemoryCanonical) : DomsCanon s.doms := h.2.2.2

theorem State.MemoryCanonical.intro {s : State} (hbm : Mem.wf s.hbmMem = true) (host : Mem.wf s.hostMem = true)
    (cxl : Mem.wf s.cxlMem = true) (doms : DomsCanon s.doms) : s.MemoryCanonical := ⟨hbm, host, cxl, doms⟩

theorem State.MemoryCanonical.ofEnv {e : Env} (h : e.Canon) : e.s.MemoryCanonical := h.1

theorem Domain.Canon.ofEnv {e : Env} (h : e.Canon) : e.d.Canon := h.2.1

theorem Tile.Canon.ofEnv {e : Env} (h : e.Canon) : e.t.Canon := h.2.2

theorem State.MemoryCanonical.of_fst {α : Type} {x : State × α} {s : State} {a : α} (h : x.1.MemoryCanonical)
    (hx : x = (s, a)) : s.MemoryCanonical := by subst hx; exact h

theorem Domain.Canon.of_tiles_eq {d d' : Domain} (h : d.Canon) (he : d'.tiles = d.tiles) : d'.Canon := by
  unfold Domain.Canon
  rwa [he]

theorem Env.Canon.of_fst {α : Type} {x : Env × α} {e : Env} {a : α} (h : x.1.Canon) (hx : x = (e, a)) : e.Canon := by
  subst hx; exact h

theorem State.MemoryCanonical.ite {a b : State} (ha : a.MemoryCanonical) (hb : b.MemoryCanonical) :
    (if c then a else b).MemoryCanonical := by split <;> assumption

theorem Domain.Canon.ite {a b : Domain} (ha : a.Canon) (hb : b.Canon) : (if c then a else b).Canon := by
  split <;> assumption

theorem Tile.Canon.ite {a b : Tile} (ha : a.Canon) (hb : b.Canon) : (if c then a else b).Canon := by split <;> assumption

theorem Env.Canon.ite {a b : Env} (ha : a.Canon) (hb : b.Canon) : (if c then a else b).Canon := by split <;> assumption

theorem Keeps.ite {a b : Host.Outcome State Fault Refusal} (ha : Keeps a) (hb : Keeps b) : Keeps (if c then a else b) := by
  split <;> assumption

theorem Sound.ite {a b : Except Stop Res1} (ha : Sound a) (hb : Sound b) : Sound (if c then a else b) := by
  split <;> assumption

theorem wf_foldl {α : Type} {f : Mem → α → Mem} {l : List α} {m : Mem} (h : Mem.wf m = true)
    (hf : ∀ m x, Mem.wf m = true → Mem.wf (f m x) = true) : Mem.wf (l.foldl f m) = true := by
  induction l generalizing m with
  | nil => exact h
  | cons x l ih => exact ih (hf m x h)

theorem State.MemoryCanonical.foldl {α : Type} {f : State → α → State} {l : List α} {s : State} (h : s.MemoryCanonical)
    (hf : ∀ s x, s.MemoryCanonical → (f s x).MemoryCanonical) : (l.foldl f s).MemoryCanonical := by
  induction l generalizing s with
  | nil => exact h
  | cons x l ih => exact ih (hf s x h)

theorem Tile.Canon.foldl {α : Type} {f : Tile → α → Tile} {l : List α} {t : Tile} (h : t.Canon)
    (hf : ∀ t x, t.Canon → (f t x).Canon) : (l.foldl f t).Canon := by
  induction l generalizing t with
  | nil => exact h
  | cons x l ih => exact ih (hf t x h)

theorem Env.Canon.foldl {α : Type} {f : Env → α → Env} {l : List α} {e : Env} (h : e.Canon)
    (hf : ∀ e x, e.Canon → (f e x).Canon) : (l.foldl f e).Canon := by
  induction l generalizing e with
  | nil => exact h
  | cons x l ih => exact ih (hf e x h)

end branches

section outcomes

theorem Keeps.next {s : State} (h : s.MemoryCanonical) : Keeps (.next s) :=
  fun _ ht => Host.Outcome.next.inj ht ▸ h

theorem Keeps.state {o : Host.Outcome State Fault Refusal} {t : State} (h : Keeps o) (ht : o = .next t) :
    t.MemoryCanonical := h t ht

theorem Keeps.fault {r : Fault} : Keeps (.fault r) := fun _ h => absurd h (by simp)

theorem Sound.error {st : Stop} : Sound (.error st) := fun _ h => absurd h (by simp)

theorem Sound.ok {r : Res1} (h : r.env.Canon) : Sound (.ok r) := fun _ hr => Except.ok.inj hr ▸ h

theorem Sound.fin {e : Env} (h : e.Canon) : Sound (fin e) := .ok h

theorem Sound.stay {e : Env} (h : e.Canon) : Sound (.ok (.stay e)) := .ok h

theorem Sound.wait {e : Env} (h : e.Canon) : Sound (.ok (.wait e)) := .ok h

theorem SoundE.error {st : Stop} : SoundE (.error st) := fun _ h => absurd h (by simp)

theorem SoundE.ok {e : Env} (h : e.Canon) : SoundE (.ok e) := fun _ he => Except.ok.inj he ▸ h

/-- After a part that answers a value, what matters is the rest. -/
theorem Sound.bind {α : Type} {x : Except Stop α} {f : α → Except Stop Res1} (h : ∀ a, Sound (f a)) : Sound (x >>= f) := by
  cases x with
  | error st => exact .error
  | ok a => exact h a

theorem SoundE.bind {α : Type} {x : Except Stop α} {f : α → Except Stop Env} (h : ∀ a, SoundE (f a)) : SoundE (x >>= f) := by
  cases x with
  | error st => exact .error
  | ok a => exact h a

/-- A part that answers an environment hands it to the rest. -/
theorem Sound.bindE {x : Except Stop Env} {f : Env → Except Stop Res1} (hx : SoundE x) (h : ∀ e, e.Canon → Sound (f e)) :
    Sound (x >>= f) := by
  cases x with
  | error st => exact .error
  | ok a => exact h a (hx a rfl)

end outcomes

section records

theorem State.MemoryCanonical.writeHost {s : State} {a : Nat} {l : List Byte} (h : s.MemoryCanonical) :
    State.MemoryCanonical { s with hostMem := s.hostMem.writeBytes a l } :=
  .intro h.hbm (wf_writeBytes _ _ h.host) h.cxl h.doms

theorem State.MemoryCanonical.dom {s : State} {k : Nat} {d : Domain} (h : s.MemoryCanonical) (hd : s.doms.find k = some d) :
    d.Canon := h.doms.find hd

theorem State.MemoryCanonical.tile {s : State} {k r : Nat} {t : Tile} (h : s.MemoryCanonical) (ht : s.tile? k r = some t) :
    t.Canon := by
  obtain ⟨d, hd, ht⟩ := Option.bind_eq_some_iff.mp ht
  exact (h.dom hd).find ht

theorem State.MemoryCanonical.env {s : State} {e : Env} (h : s.MemoryCanonical) (he : s.env? = some e) : e.Canon := by
  obtain ⟨hd, ht⟩ := env_at he
  obtain ⟨-, -, rfl⟩ := env_ctx he
  exact ⟨h, h.dom hd, (h.dom hd).find ht⟩

theorem State.MemoryCanonical.setDom {s : State} {k : Nat} {d : Domain} (h : s.MemoryCanonical) (hd : d.Canon) :
    (s.setDom k d).MemoryCanonical := ⟨h.hbm, h.host, h.cxl, h.doms.set hd⟩

theorem State.MemoryCanonical.updDom {s : State} {k : Nat} {f : Domain → Domain} (h : s.MemoryCanonical)
    (hf : ∀ d, d.Canon → (f d).Canon) : (s.updDom k f).MemoryCanonical := by
  unfold State.updDom
  split
  · exact h.setDom (hf _ (h.dom ‹_›))
  · exact h

theorem Domain.Canon.setTile {d : Domain} {r : Nat} {t : Tile} (h : d.Canon) (ht : t.Canon) : (d.setTile r t).Canon :=
  TilesCanon.set h ht

theorem Domain.Canon.mapTiles {d : Domain} {f : Tile → Tile} (h : d.Canon) (hf : ∀ t, t.Canon → (f t).Canon) :
    (d.mapTiles f).Canon := TilesCanon.map h fun _ => hf _

theorem State.MemoryCanonical.updTile {s : State} {k r : Nat} {f : Tile → Tile} (h : s.MemoryCanonical)
    (hf : ∀ t, t.Canon → (f t).Canon) : (s.updTile k r f).MemoryCanonical := by
  unfold State.updTile
  split
  · rename_i d hd
    split
    · rename_i t ht
      exact h.setDom (.setTile (h.dom hd) (hf t ((h.dom hd).find ht)))
    · exact h
  · exact h

theorem Tile.Canon.setPoisAll {t : Tile} {grans : List Nat} (h : t.Canon) : (t.setPoisAll grans).Canon := by
  unfold Tile.Canon
  dsimp only [Tile.setPoisAll]
  exact h

theorem Tile.Canon.wakePool {t : Tile} {now : Nat} {heldOnly : Bool} {b : Option Nat} (h : t.Canon) :
    (t.wakePool now heldOnly b).Canon := by
  unfold Tile.Canon
  dsimp only [Tile.wakePool]
  exact h

theorem Tile.Canon.mapCtxs {t : Tile} {f : Nat → Ctx → Ctx} (h : t.Canon) : (t.mapCtxs f).Canon :=
  .foldl h fun _ _ h => h

theorem Env.Canon.close {e : Env} (h : e.Canon) : e.close.MemoryCanonical := by
  obtain ⟨hs, hd, ht⟩ := h
  exact hs.setDom (.setTile hd ht)

end records

end Sys2Proof.Machine
end

