-- ==== Sys2Proof/Proofs/CanonicalState.lean ====
section
/-! SUPPORT. The canonical form of memory: what the updates of the package, a tile and an issue keep of the canonical form. -/

namespace Sys2Proof.Machine

section state

theorem Domain.Canon.zero : Domain.zero.Canon := by
  intro p hp
  cases hp

theorem State.MemoryCanonical.reset : State.reset.MemoryCanonical := .intro wf_nil wf_nil wf_nil fun _ hp => by cases hp

end state

section platform

theorem State.MemoryCanonical.flipData {s : State} {gran : Nat} {errs : AMap (BitVec 16)} (h : s.MemoryCanonical) :
    (s.flipData gran errs).MemoryCanonical :=
  .intro (wf_foldl h.hbm fun _ _ hm => by split; exacts [wf_writeBytes _ _ hm, hm]) h.host h.cxl h.doms

theorem State.MemoryCanonical.decodeGran_fst {s : State} {gran src : Nat} (h : s.MemoryCanonical) :
    (s.decodeGran gran src).1.MemoryCanonical := by
  unfold State.decodeGran
  split
  · dsimp only
    split
    · exact h
    · exact .flipData h
  · dsimp only
    split <;> exact h

theorem State.MemoryCanonical.useHbm {s : State} {pa : Nat} (h : s.MemoryCanonical) : (s.useHbm pa).MemoryCanonical :=
  .ite h h

theorem State.MemoryCanonical.readGrans {s : State} {src : Nat} {grans : List Nat} (h : s.MemoryCanonical) :
    (s.readGrans src grans).MemoryCanonical := .foldl h fun _ _ h1 => .decodeGran_fst (.useHbm h1)

theorem State.MemoryCanonical.kilnWalk {s : State} {va : Nat} (h : s.MemoryCanonical) : (s.kilnWalk va).MemoryCanonical :=
  .readGrans h

theorem State.MemoryCanonical.kilnRead {s : State} {va n : Nat} (h : s.MemoryCanonical) : (s.kilnRead va n).MemoryCanonical :=
  .readGrans (.foldl h fun _ _ h1 => .kilnWalk h1)

theorem State.MemoryCanonical.homeWrite {s : State} {h : Home} {l : List Byte} (hs : s.MemoryCanonical) :
    (s.homeWrite h l).MemoryCanonical := by
  unfold State.homeWrite
  split
  · exact .intro (wf_writeBytes _ _ hs.hbm) hs.host hs.cxl hs.doms
  · exact hs
  · exact .intro hs.hbm (wf_writeBytes _ _ hs.host) hs.cxl hs.doms
  · exact .intro hs.hbm hs.host (wf_writeBytes _ _ hs.cxl) hs.doms

theorem State.MemoryCanonical.vaWrite64 {s : State} {va : Nat} {w : Word} (h : s.MemoryCanonical) :
    (s.vaWrite64 va w).MemoryCanonical := by
  unfold State.vaWrite64
  split
  · exact .homeWrite (.kilnWalk h)
  · exact .kilnWalk h

theorem State.MemoryCanonical.headerCount {s : State} {va bits n : Nat} (h : s.MemoryCanonical) :
    (s.headerCount va bits n).MemoryCanonical := .vaWrite64 h

theorem State.MemoryCanonical.vaWriteWords {s : State} {va : Nat} {l : List Word} (h : s.MemoryCanonical) :
    (s.vaWriteWords va l).MemoryCanonical := by
  induction l generalizing s va with
  | nil => exact h
  | cons w l ih => exact ih (.vaWrite64 h)

theorem State.MemoryCanonical.vaWriteBytes {s : State} {va : Nat} {l : List Byte} (h : s.MemoryCanonical) :
    (s.vaWriteBytes va l).MemoryCanonical := by
  induction l generalizing s va with
  | nil => exact h
  | cons b l ih =>
    unfold State.vaWriteBytes
    refine ih ?_
    split
    · exact .homeWrite (.kilnWalk h)
    · exact .kilnWalk h

theorem State.MemoryCanonical.evWrite {s : State} {e : Event} (h : s.MemoryCanonical) : (s.evWrite e).MemoryCanonical :=
  .intro h.hbm (wf_writeBytes _ _ h.host) h.cxl h.doms

theorem State.MemoryCanonical.evFlushFrom {s : State} {l : List Event} (h : s.MemoryCanonical) :
    (s.evFlushFrom l).MemoryCanonical := by
  induction l generalizing s with
  | nil => exact h
  | cons e l ih => exact .ite (ih (.evWrite h)) h

theorem State.MemoryCanonical.evFlush {s : State} (h : s.MemoryCanonical) : s.evFlush.MemoryCanonical := .evFlushFrom h

theorem State.MemoryCanonical.post {s : State} {kind dom seq status detail : Nat} {data : List Word} (h : s.MemoryCanonical) :
    (s.post kind dom seq status detail data).MemoryCanonical := .ite (.evWrite h) (.ite h h)

theorem State.MemoryCanonical.complete {s : State} {dom seq status detail : Nat} (h : s.MemoryCanonical) :
    (s.complete dom seq status detail).MemoryCanonical := .post h

theorem State.MemoryCanonical.machineCheck {s : State} {dom reason at_ : Nat} {more : List Word} (h : s.MemoryCanonical) :
    (s.machineCheck dom reason at_ more).MemoryCanonical := by
  unfold State.machineCheck
  split
  · exact h
  · rename_i heq
    have hd := h.dom heq
    exact .setDom (.ite (.complete (.post h)) (.post h)) hd

theorem State.MemoryCanonical.fringWrite {s : State} {dom : Nat} {d : Domain} {rec : List Word} (hs : s.MemoryCanonical) :
    (s.fringWrite dom d rec).MemoryCanonical :=
  .ite (.post (.updDom (.vaWrite64 (.vaWriteWords hs)) fun _ h => h)) (.updDom (.vaWrite64 (.vaWriteWords hs)) fun _ h => h)

theorem State.MemoryCanonical.fringLose {s : State} {dom : Nat} {d : Domain} (hs : s.MemoryCanonical) :
    (s.fringLose dom d).MemoryCanonical :=
  .ite (.post (.updDom (.headerCount hs) fun _ h => h)) (.updDom (.headerCount hs) fun _ h => h)

theorem State.MemoryCanonical.fault {s : State} {dom : Nat} {rec : List Word} (h : s.MemoryCanonical) :
    (s.fault dom rec).MemoryCanonical := by
  unfold State.fault
  split
  · exact h
  · exact .ite (.fringLose (.kilnWalk h)) (.fringWrite (.kilnWalk h))

end platform

section ops

theorem Tile.Canon.trapMark {t : Tile} {x : TrapInfo} (h : t.Canon) : (t.trapMark x).Canon := .ite h h

theorem Tile.Canon.wakeLocals {t : Tile} {now : Nat} {delayed : Bool} {b : Nat} (h : t.Canon) :
    (t.wakeLocals now delayed b).Canon := .foldl h fun _ _ h1 => .ite (.ite h1 h1) h1

theorem Tile.Canon.wake {t : Tile} {now : Nat} {delayed : Bool} {b : Nat} (h : t.Canon) : (t.wake now delayed b).Canon :=
  .wakePool (.wakeLocals h)

theorem Tile.Canon.idleReason {t : Tile} {det : Bool} {reason : Nat} (h : t.Canon) : (t.idleReason det reason).Canon :=
  .ite h (.mapCtxs h)

theorem Tile.Canon.commit {t : Tile} {now : Nat} {det : Bool} {b : Nat} (h : t.Canon) : (t.commit now det b).Canon :=
  .idleReason (.wake (.ite h h))

theorem Tile.Canon.clear {t : Tile} {now b : Nat} {gen : BitVec 6} (h : t.Canon) : (t.clear now b gen).Canon := .wake h

theorem Env.Canon.readGrans {e : Env} {grans : List Nat} (h : e.Canon) : (e.readGrans grans).Canon := .ite h h

theorem Env.Canon.onTile {e : Env} {f : Tile → Tile} (h : e.Canon) (hf : ∀ t, t.Canon → (f t).Canon) :
    (e.onTile f).Canon := by
  obtain ⟨hs, hd, ht⟩ := h
  exact ⟨hs, hd, hf _ ht⟩

theorem Env.Canon.pushStore {e : Env} {addr len : Nat} {data : List Host.Cell} {pois abinit vec : Bool} (h : e.Canon) :
    (e.pushStore addr len data pois abinit vec).Canon := h

theorem State.MemoryCanonical.raiseTrap {s : State} {dom rank : Nat} {x : TrapInfo} (h : s.MemoryCanonical) :
    (raiseTrap s dom rank x).MemoryCanonical :=
  .ite (.machineCheck (.updTile h fun _ h1 => .trapMark h1)) (.updTile h fun _ h1 => .trapMark h1)

theorem Env.Canon.complete1 {op : Op} {x : Done} (h : x.e.Canon) : (complete1 op x).Canon := h

theorem State.MemoryCanonical.trapAt {e : Env} {x : TrapInfo} (h : e.Canon) : (trapAt e x).MemoryCanonical :=
  .ite (.setDom (.ofEnv h) (.setTile (.ofEnv h) (.ofEnv h))) (.raiseTrap
    (.setDom (.ofEnv h) (.setTile (.ofEnv h) (.ofEnv h))))

theorem State.MemoryCanonical.parkAt {e : Env} {b : Nat} (h : e.Canon) : (parkAt e b).MemoryCanonical :=
  .ite (.setDom (.ofEnv h) (.setTile (.ofEnv h) (.ofEnv h))) (.setDom (.ofEnv h) (.setTile (.ofEnv h) (.ofEnv h)))

theorem State.MemoryCanonical.issueIn {e : Env} {op : Op} {body : Env → Except Stop Res1} (h : e.Canon)
    (hb : ∀ e, e.Canon → Sound (body e)) : (issueIn e op body).MemoryCanonical := by
  unfold Machine.issueIn
  split
  · exact Env.Canon.close h
  · have hs : Sound (do precheck e op; body (markWrong e)) := .bind fun _ => hb _ h
    split
    · rename_i x hx
      exact Env.Canon.close (.complete1 (hs _ hx))
    · rename_i x hx
      exact Env.Canon.close (hs _ hx)
    · rename_i x hx
      exact Env.Canon.close (hs _ hx)
    · exact .trapAt h
    · exact .parkAt h
    · exact Env.Canon.close h

/-- An instruction whose body keeps memory canonical does. -/
theorem Keeps.issue {s : State} {op : Op} {body : Env → Except Stop Res1} (h : s.MemoryCanonical)
    (hb : ∀ e, e.Canon → Sound (body e)) : Keeps (issue s op body) := by
  unfold Machine.issue
  split
  · exact .fault
  · exact .next (.issueIn (h.env ‹_›) hb)

end ops

end Sys2Proof.Machine
end

