-- ==== Sys2Proof/Proofs/CanonicalInstrs.lean ====
section
/-! SUPPORT. The canonical form of memory: the instructions of the tile, the network and the controllers of HBM. -/

namespace Sys2Proof.Machine

section alu

theorem Keeps.alu2 {op : Op} {lat : Nat} {d a b : GReg} {f : Word → Word → Word} {s : State} (h : s.MemoryCanonical) :
    Keeps (alu2 op lat d a b f s) := .issue h fun _ h1 => .fin h1

theorem Keeps.alu3 {op : Op} {d a b : GReg} {f : Word → Word → Word → Word} {s : State} (h : s.MemoryCanonical) :
    Keeps (alu3 op d a b f s) := .issue h fun _ h1 => .fin h1

theorem Keeps.alu1 {op : Op} {d a : GReg} {f : Word → Word} {s : State} (h : s.MemoryCanonical) : Keeps (alu1 op d a f s) :=
  .issue h fun _ h1 => .fin h1

theorem Keeps.ptrAddIssue {op : Op} {d a : GReg} {disp : Thread → Word} {dpois : Thread → Bool} {s : State}
    (h : s.MemoryCanonical) : Keeps (ptrAddIssue op d a disp dpois s) := .issue h fun _ h1 => .bind fun _ => .fin h1

theorem Keeps.divIssue {st : Stall} {d a b : GReg} {signed : Bool} {f : Word → Word → Word} {s : State}
    (h : s.MemoryCanonical) : Keeps (divIssue st d a b signed f s) := .issue h fun _ h1 => .bind fun _ => .fin h1

end alu

section net

theorem State.MemoryCanonical.countPage {s : State} {vpn : Nat} (h : s.MemoryCanonical) : (s.countPage vpn).MemoryCanonical :=
  .ite (.ite h h) h

theorem State.MemoryCanonical.toPackage {s : State} {m : Msg} {from_ : Nat} (h : s.MemoryCanonical) :
    (s.toPackage m from_).MemoryCanonical := by
  unfold State.toPackage
  split
  · dsimp only
    split
    · exact h
    · split <;> exact .ite h h
  · dsimp only
    split
    · exact h
    · split <;> exact .ite h h

theorem State.MemoryCanonical.toHome {s : State} {m : Msg} {va : Nat} {x : Xlat} {from_ : Nat} (h : s.MemoryCanonical) :
    (s.toHome m va x from_).MemoryCanonical := by
  unfold State.toHome
  split
  · exact h
  · split
    · dsimp only
      split
      · exact .countPage h
      · exact .countPage h
      · exact .countPage h
      · exact .toPackage (.countPage h)
    · dsimp only
      split
      · exact h
      · exact h
      · exact h
      · exact .toPackage h

theorem State.MemoryCanonical.updCmd {s : State} {dom rank req : Nat} {f : Cmd → Cmd} (h : s.MemoryCanonical) :
    (s.updCmd dom rank req f).MemoryCanonical := by
  unfold State.updCmd
  refine .updTile h fun _ h1 => ?_
  split <;> exact h1

theorem State.MemoryCanonical.stallRead {s : State} {m : Msg} {va cause : Nat} (h : s.MemoryCanonical) :
    (s.stallRead m va cause).MemoryCanonical := by
  unfold State.stallRead
  split
  · dsimp only
    split
    · exact .ite (.updCmd h) (.ite (.kilnWalk h) (.ite (.updCmd (.kilnWalk h))
        (.updCmd (.fringWrite (.updCmd (.kilnWalk h))))))
    · exact h
  · dsimp only
    split
    · exact .ite (.updCmd h) (.ite (.kilnWalk h) (.ite (.updCmd (.kilnWalk h))
        (.updCmd (.fringWrite (.updCmd (.kilnWalk h))))))
    · exact h

theorem State.MemoryCanonical.xlatFail {s : State} {m : Msg} {va cause : Nat} (h : s.MemoryCanonical) :
    (s.xlatFail m va cause).MemoryCanonical := .ite (.fault h) (.stallRead h)

theorem State.MemoryCanonical.dispatch {s : State} {m : Msg} {from_ : Nat} (h : s.MemoryCanonical) :
    (s.dispatch m from_).MemoryCanonical := by
  unfold State.dispatch
  split
  · split
    · dsimp only
      split
      · exact h
      · split
        · exact .ite (.xlatFail h) (.toHome h)
        · split <;> exact h
    · split
      · dsimp only
        split
        · exact h
        · split
          · exact .ite (.xlatFail h) (.toHome h)
          · split <;> exact h
      · dsimp only
        split
        · exact h
        · split
          · exact .ite (.xlatFail h) (.toHome h)
          · split <;> exact h
  · exact .ite h (.toPackage h)

theorem State.MemoryCanonical.eject {s : State} {f : Flit} (h : s.MemoryCanonical) : (s.eject f).MemoryCanonical := by
  unfold State.eject
  split <;> exact h

theorem State.MemoryCanonical.injectAt_fst {s : State} {x y : Nat} {r : RouterOut} {agt : Bool} (h : s.MemoryCanonical) :
    (s.injectAt x y r agt).1.MemoryCanonical := by
  unfold State.injectAt
  split
  · exact h
  · split
    · exact h
    · split
      split <;> exact h

theorem State.MemoryCanonical.router {old : List Flit} {s : State} {key : Nat} (h : s.MemoryCanonical) :
    (State.router old s key).MemoryCanonical := by
  unfold State.router
  dsimp only
  split
  · exact .foldl h fun _ _ h1 => .eject h1
  · exact .foldl (.injectAt_fst (.injectAt_fst h)) fun _ _ h1 => .eject h1

theorem State.MemoryCanonical.routeAll {s : State} (h : s.MemoryCanonical) : s.routeAll.MemoryCanonical :=
  .foldl h fun _ _ h1 => .router h1

theorem Keeps.execFlitRoute {s : State} (h : s.MemoryCanonical) : Keeps (execFlitRoute s) := .ite (.next (.routeAll h)) .fault

theorem Keeps.execStarve {x y : Nat} {s : State} (h : s.MemoryCanonical) : Keeps (execStarve x y s) := .ite (.next h) .fault

end net

section hbm

theorem State.MemoryCanonical.hcheck_fst {s : State} {pa : Nat} {tag : BitVec 6} {src : Nat} {l : List Nat}
    (h : s.MemoryCanonical) : (s.hcheck pa tag src l).1.MemoryCanonical := by
  induction l generalizing s with
  | nil => exact h
  | cons g l ih =>
    unfold State.hcheck
    dsimp only
    have hd : (s.decodeGran (pa / 64 + g) src).1.MemoryCanonical := .decodeGran_fst h
    split
    · exact hd
    · split
      · exact hd
      · exact ih hd

theorem State.MemoryCanonical.commitHbm {s : State} {pa : Nat} (h : s.MemoryCanonical) : (s.commitHbm pa).MemoryCanonical :=
  .foldl h fun _ _ h1 => h1

theorem State.MemoryCanonical.writeFlits {s : State} {m : Msg} {idxs : List Nat} (h : s.MemoryCanonical) :
    (s.writeFlits m idxs).MemoryCanonical := .foldl h fun _ _ h1 => .intro (wf_paste _ _ _ h1.hbm) h1.host h1.cxl h1.doms

theorem State.MemoryCanonical.endFill {s : State} {f : Fill} (h : s.MemoryCanonical) : (s.endFill f).MemoryCanonical := by
  unfold State.endFill
  split
  rename_i u got heq
  have hu : u.MemoryCanonical := by
    split at heq
    · exact .of_fst (.writeFlits h) heq
    · exact .of_fst h heq
  exact .commitHbm hu

theorem State.MemoryCanonical.replyTo {s : State} {m : Msg} {data : Mem} {pois : BitVec 32} (h : s.MemoryCanonical) :
    (s.replyTo m data pois).MemoryCanonical := .dispatch h

theorem State.MemoryCanonical.hbmRead {s : State} {m : Msg} (h : s.MemoryCanonical) : (s.hbmRead m).MemoryCanonical := by
  unfold State.hbmRead
  split
  · exact .replyTo (.of_fst (.hcheck_fst h) ‹_›)
  · exact .dispatch (.of_fst (.hcheck_fst h) ‹_›)
  · rename_i u heq
    have hu : u.MemoryCanonical := .of_fst (.hcheck_fst h) heq
    exact .ite (.replyTo hu) (.ite (.dispatch hu) hu)

theorem Keeps.execHbmWaiterService {ctl : Nat} {s : State} (h : s.MemoryCanonical) : Keeps (execHbmWaiterService ctl s) := by
  unfold Machine.execHbmWaiterService
  split
  · exact .fault
  · exact .ite (.next (.useHbm h)) (.ite (.next (.hcheck_fst (.useHbm h))) (.next (.hbmRead (.useHbm h))))

theorem State.MemoryCanonical.hbmPut {s : State} {id : Nat} {m : Msg} (h : s.MemoryCanonical) :
    (s.hbmPut id m).MemoryCanonical := by
  unfold State.hbmPut
  split
  · exact .ite (.dispatch (.commitHbm (.writeFlits h))) (.writeFlits h)
  · split
    · rename_i u heq
      have hu : u.MemoryCanonical := .of_fst (.hcheck_fst h) heq
      exact .dispatch hu
    · rename_i u heq
      have hu : u.MemoryCanonical := .of_fst (.hcheck_fst h) heq
      exact .dispatch hu
    · rename_i u heq
      have hu : u.MemoryCanonical := .of_fst (.hcheck_fst h) heq
      split
      · exact .dispatch hu
      · exact .dispatch hu
      · dsimp only
        split
        · refine .dispatch ?_
          split <;> exact hu
        · refine .dispatch ?_
          split <;> exact hu
        · split
          · refine .dispatch (.commitHbm (.writeFlits ?_))
            split <;> exact hu
          · refine .writeFlits ?_
            split <;> exact hu

theorem State.MemoryCanonical.reachOne {r : HReq} {s : State} {pa : Nat} (h : s.MemoryCanonical) :
    (State.reachOne r s pa).MemoryCanonical := .ite h (.useHbm h)

theorem State.MemoryCanonical.reach {s : State} {r : HReq} {blocks : List Nat} (h : s.MemoryCanonical) :
    (s.reach r blocks).MemoryCanonical := .foldl h fun _ _ h1 => .reachOne h1

theorem State.MemoryCanonical.leaveCtls {s : State} {r : HReq} {blocks : List Nat} (h : s.MemoryCanonical) :
    (s.leaveCtls r blocks).MemoryCanonical := .foldl h fun _ _ h1 => h1

theorem Keeps.ctlRow {s : State} {r : HReq} {blocks : List Nat} {act : State → Host.Outcome State Fault Refusal}
    (hs : s.MemoryCanonical) (hact : ∀ u : State, u.MemoryCanonical → Keeps (act u)) : Keeps (s.ctlRow r blocks act) :=
  .ite (hact _ (.leaveCtls (.reach hs))) (.ite .fault (.next (.reach hs)))

theorem Keeps.hbmRow {s : State} {id : Nat} {m : Msg} {act : State → State} (hs : s.MemoryCanonical)
    (hact : ∀ u : State, u.MemoryCanonical → (act u).MemoryCanonical) : Keeps (s.hbmRow id m act) :=
  .ctlRow hs fun _ h => .next (hact _ h)

theorem Keeps.execScrub {ctl : Nat} {s : State} (h : s.MemoryCanonical) : Keeps (execScrub ctl s) :=
  .ite (.next (.readGrans h)) .fault

theorem Keeps.execRefresh {ctl : Nat} {s : State} (h : s.MemoryCanonical) : Keeps (execRefresh ctl s) := .ite (.next h) .fault

theorem Keeps.execSelfRefreshEntry {pch : Nat} {s : State} (h : s.MemoryCanonical) : Keeps (execSelfRefreshEntry pch s) :=
  .ite (.next h) .fault

end hbm

section loadStore

theorem Env.Canon.loaded {e : Env} {a : GReg} {d : Int} (h : e.Canon) : (e.loaded a d).Canon := .readGrans h

theorem Keeps.loadIssue {op : Op} {d a : GReg} {disp : Int} {size : Nat} {signed : Bool} {s : State} (h : s.MemoryCanonical) :
    Keeps (loadIssue op d a disp size signed s) := .issue h fun _ h1 => .bind fun _ => .fin (.loaded h1)

theorem Keeps.ld32 {st : Stall} {d a : GReg} {off : BitVec 11} {size : Nat} {signed : Bool} {s : State}
    (h : s.MemoryCanonical) : Keeps (ld32 st d a off size signed s) := .loadIssue h

theorem Keeps.execLdp {st : Stall} {d a : GReg} {off : BitVec 11} {s : State} (h : s.MemoryCanonical) :
    Keeps (execLdp st d a off s) := .issue h fun _ h1 => .bind fun _ => .fin (.loaded h1)

theorem Keeps.storeIssue {op : Op} {a : GReg} {disp : Int} {size : Nat} {data : List GReg} {s : State}
    (h : s.MemoryCanonical) : Keeps (storeIssue op a disp size data s) := by
  refine .issue h fun _ h1 => .bind fun _ => .bind fun _ => ?_
  split <;> exact .bind fun _ => .ite (.bind fun _ => .bind fun _ => .bind fun _ => .bind fun _ => .fin (.pushStore h1))
    (.bind fun _ => .bind fun _ => .bind fun _ => .fin (.pushStore h1))

theorem Keeps.st32 {st : Stall} {d a : GReg} {off : BitVec 11} {size : Nat} {s : State} (h : s.MemoryCanonical) :
    Keeps (st32 st d a off size s) := .storeIssue h

end loadStore

section blockOps

theorem Keeps.execBopen {st : Stall} {a : GReg} {off : BitVec 11} {s : State} (h : s.MemoryCanonical) :
    Keeps (execBopen st a off s) := by
  refine .issue h fun _ h1 => .bind fun _ => ?_
  dsimp only
  split
  · exact .fin (.onTile h1 fun _ h2 => h2)
  · exact .bind fun _ => .fin h1
  · exact .error

theorem Keeps.execBcommit {st : Stall} {a : GReg} {off : BitVec 11} {s : State} (h : s.MemoryCanonical) :
    Keeps (execBcommit st a off s) :=
  .issue h fun _ h1 => .bind fun _ => .bind fun _ => .bind fun _ => .fin (.onTile h1 fun _ h2 => .commit h2)

theorem Keeps.execBpois {st : Stall} {a : GReg} {off : BitVec 11} {s : State} (h : s.MemoryCanonical) :
    Keeps (execBpois st a off s) := by
  refine .issue h fun _ he => .bind fun _ => .bind fun _ => .bind fun _ => ?_
  exact Sound.fin (.onTile he fun _ ht => .commit (.setPoisAll ht))

theorem Keeps.execBclr {st : Stall} {d a : GReg} {off : BitVec 11} {s : State} (h : s.MemoryCanonical) :
    Keeps (execBclr st d a off s) := by
  refine .issue h fun _ he => .bind fun _ => .bind fun _ => .bind fun _ => .bind fun _ => .bind fun _ => ?_
  exact Sound.fin (.onTile he fun _ ht => .clear ht)

theorem Keeps.execBarm {st : Stall} {d a : GReg} {off : BitVec 11} {s : State} (h : s.MemoryCanonical) :
    Keeps (execBarm st d a off s) := by
  refine .issue h fun _ h1 => .bind fun _ => .bind fun _ => .bind fun _ => ?_
  split
  · exact .fin (.onTile h1 fun _ h2 => .wakePool h2)
  · exact .error
  · exact .error

theorem Keeps.execBfill {st : Stall} {d a : GReg} {off : BitVec 11} {s : State} (h : s.MemoryCanonical) :
    Keeps (execBfill st d a off s) :=
  .issue h fun _ h1 => .bind fun _ => .bind fun _ => .bind fun _ => .bind fun _ => .bind fun _ =>
    .ok (.onTile h1 fun _ h2 => h2)

theorem Tile.Canon.fillWrite {t : Tile} {b k : Nat} {v : Word} (h : t.Canon) : (t.fillWrite b k v).Canon := wf_writeCells _ h

end blockOps

section cellOps

theorem Keeps.cellIssue {st : Stall} {ord : Ord} {disp : BitVec 3} {dest : Option GReg} {a : GReg} {b expect : Option GReg}
    {fn : CellFn} {s : State} (h : s.MemoryCanonical) : Keeps (cellIssue st ord disp dest a b expect fn s) :=
  .issue h fun _ h1 => .bind fun _ => .bind fun _ => .fin h1

theorem Keeps.execCdecf {st : Stall} {ord : Ord} {disp : BitVec 3} {d a : GReg} {s : State} (h : s.MemoryCanonical) :
    Keeps (execCdecf st ord disp d a s) := .issue h fun _ h1 => .bind fun _ => .bind fun _ => .bind fun _ => .ok h1

theorem Tile.Canon.cellRead {t : Tile} {q : CellOp} (h : t.Canon) : (t.cellRead q).Canon := .ite h h

theorem Tile.Canon.cellPerform {t : Tile} {now : Nat} {q : CellOp} (h : t.Canon) : (t.cellPerform now q).Canon := by
  have hr : ((t.cellRead q).dropCellOp q).Canon := Tile.Canon.cellRead h
  have hw : Tile.Canon (if q.fn = .ld then (t.cellRead q).dropCellOp q
      else { (t.cellRead q).dropCellOp q with
        sram := ((t.cellRead q).dropCellOp q).sram.write64 q.addr (q.fn.apply (t.sram.read64 q.addr) q.opnd q.expect) }) :=
    .ite hr (wf_write64 _ _ hr)
  exact hw

theorem State.MemoryCanonical.cellTrap {s : State} {dom rank : Nat} {t : Tile} {q : CellOp} {cause form : Nat}
    {tval tval2 : Word} (hs : s.MemoryCanonical) (ht : t.Canon) :
    (cellTrap s dom rank t q cause form tval tval2).MemoryCanonical := .raiseTrap (.updTile hs fun _ _ => .cellRead ht)

theorem State.MemoryCanonical.decfPerform {s : State} {dom rank : Nat} {det : Bool} {t : Tile} {q : CellOp} {e0 : Word}
    (hs : s.MemoryCanonical) (ht : t.Canon) : (decfPerform s dom rank det t q e0).MemoryCanonical := by
  unfold Machine.decfPerform
  extract_lets now old new b m acc
  split
  · exact .cellTrap hs ht
  · split
    · exact .cellTrap hs ht
    · split
      · exact .cellTrap hs ht
      · refine .updTile hs fun _ _ => .ite (.commit ?_) ?_ <;> exact wf_write64 _ _ ht

theorem State.MemoryCanonical.tagsetPerform {s : State} {dom rank : Nat} {t : Tile} {q : CellOp} (hs : s.MemoryCanonical)
    (ht : t.Canon) : (tagsetPerform s dom rank t q).MemoryCanonical := .ite (.cellTrap hs ht) (.updTile hs fun _ _ => ht)

end cellOps

section vector

theorem Keeps.vIssue {st : Stall} {major lat : Nat} {reads : List RegId} {d : VReg} {k : KReg} {z f64 : Bool} {w : Nat}
    {rm : Option RmField} {f : Thread → Mode → Nat → Nat → Nat × Flags} {pois : Thread → KWord} {s : State}
    (h : s.MemoryCanonical) : Keeps (vIssue st major lat reads d k z f64 w rm f pois s) := .issue h fun _ h1 => .fin h1

theorem Keeps.vArith {st : Stall} {ty : VType} {rm : RmField} {d a b : VReg} {k : KReg} {z dSrc : Bool}
    {fi : Int → Int → Int → Int} {ff : Bool → FVal → FVal → FVal → FRes} {s : State} (h : s.MemoryCanonical) :
    Keeps (vArith st ty rm d a b k z dSrc fi ff s) := by
  unfold Machine.vArith
  exact .vIssue h

theorem Keeps.vBits {st : Stall} {major lat : Nat} {ty : VType} {rm : Option RmField} {d a : VReg} {b : Option VReg}
    {k : KReg} {z : Bool} {f : Nat → Nat → Nat × Flags} {s : State} (h : s.MemoryCanonical) :
    Keeps (vBits st major lat ty rm d a b k z f s) := by
  unfold Machine.vBits
  exact .vIssue h

theorem Keeps.execVdot {st : Stall} {ty : VType} {rm : RmField} {d a b : VReg} {k : KReg} {z : Bool} {s : State}
    (h : s.MemoryCanonical) : Keeps (execVdot st ty rm d a b k z s) := by
  unfold Machine.execVdot
  exact .vIssue h

theorem Keeps.vFn1 {st : Stall} {ty : VType} {rm : RmField} {d a : VReg} {k : KReg} {z : Bool}
    {f : Fmt → Mode → Nat → FVal → Nat × Flags} {s : State} (h : s.MemoryCanonical) : Keeps (vFn1 st ty rm d a k z f s) := by
  unfold Machine.vFn1
  exact .vIssue h

theorem Keeps.execVdiv {st : Stall} {ty : VType} {rm : RmField} {d a b : VReg} {k : KReg} {z : Bool} {s : State}
    (h : s.MemoryCanonical) : Keeps (execVdiv st ty rm d a b k z s) := by
  unfold Machine.execVdiv
  exact .vIssue h

theorem Keeps.vCompare {st : Stall} {ty : VType} {d : KReg} {a b : VReg} {k : KReg} {z : Bool} {f : Cmp3 → Bool}
    {ordered : Bool} {s : State} (h : s.MemoryCanonical) : Keeps (vCompare st ty d a b k z f ordered s) := by
  refine .issue h fun _ h1 => ?_
  split
  · dsimp only
    split <;> exact .bind fun _ => .fin h1
  · dsimp only
    split <;> exact .bind fun _ => .fin h1

end vector

section vectorCvt

theorem Keeps.execVqdx {st : Stall} {rm : RmField} {d a b : VReg} {s : State} (h : s.MemoryCanonical) :
    Keeps (execVqdx st rm d a b s) := .issue h fun e he => by
  extract_lets th x p e1 _ _ _ run look enter
  have hrun : ∀ o, Sound (run o) := fun o => .bind fun _ => by
    split
    extract_lets
    split
    · exact Sound.ok (r := .done _) he
    · exact Sound.ok (r := .stay _) he
  have hlook : ∀ u, Sound (look u) := fun _ => .ite (.bind fun o => hrun o) (hrun 0)
  have henter : ∀ u, Sound (enter u) := fun _ => .bind fun _ => .bind fun _ => by
    split
    · split
      · exact .bind fun u => hlook u
      · exact .bind fun u => hlook u
    · exact hlook ()
  exact .ite (.bind fun u => henter u) (henter ())

theorem State.MemoryCanonical.listPerform {s : State} {dom rank : Nat} {t : Tile} {q : CellOp} {recs : List Word}
    {ocap : Nat} {writes : List RegWrite} {seed : BitVec 32} {flags : BitVec 5} (hs : s.MemoryCanonical) (ht : t.Canon) :
    (listPerform s dom rank t q recs ocap writes seed flags).MemoryCanonical := by
  unfold Machine.listPerform
  dsimp only
  split
  · exact .updTile (.cellTrap hs ht) fun _ h1 => h1
  · split
    · exact .updTile (.cellTrap hs ht) fun _ h => h
    · split
      · exact .updTile (.cellTrap hs ht) fun _ h => h
      · exact .ite (.updTile (.cellTrap hs ht) fun _ h => h) (.updTile hs fun _ _ => wf_write64 _ _ (wf_writeCells _ ht))

theorem Keeps.vMove {st : Stall} {ty : VType} {reads : List RegId} {d a : VReg} {k : KReg} {z : Bool}
    {src : Thread → Nat → Nat} {idxPois : Thread → KWord} {s : State} (h : s.MemoryCanonical) :
    Keeps (vMove st ty reads d a k z src idxPois s) := by
  unfold Machine.vMove
  exact .vIssue h

theorem Keeps.kIssue {st : Stall} {d : KReg} {srcs : List KReg} {f : Thread → KWord} {s : State} (h : s.MemoryCanonical) :
    Keeps (kIssue st d srcs f s) := .issue h fun _ h1 => .fin h1

end vectorCvt

section vectorMem

theorem Env.Canon.vecRead {e : Env} {gs : List VGran} (h : e.Canon) : (e.vecRead gs).Canon := .readGrans h

theorem SoundE.vecStore {e : Env} {p : Word} {a : GReg} {named : Bool} {v : VReg} {ls : List VLane} (h : e.Canon) :
    SoundE (vecStore e p a named v ls) := by
  unfold Machine.vecStore
  refine .bind fun _ => ?_
  dsimp only
  split <;> exact .bind fun _ => .bind fun _ => .bind fun _ => .bind fun _ => .bind fun _ =>
    .ok (.foldl h fun _ _ h1 => .pushStore h1)

theorem Keeps.execVgath {st : Stall} {v : VReg} {a : GReg} {off : BitVec 11} {s : State} (h : s.MemoryCanonical) :
    Keeps (execVgath st v a off s) :=
  .issue h fun _ h1 => .bind fun _ => .bind fun _ => .bind fun _ => .bind fun _ => .bind fun _ => .bind fun _ =>
    .bind fun _ => .fin (.vecRead h1)

theorem Keeps.execVscat {st : Stall} {v : VReg} {a : GReg} {off : BitVec 11} {s : State} (h : s.MemoryCanonical) :
    Keeps (execVscat st v a off s) :=
  .issue h fun _ h1 => .bind fun _ => .bind fun _ => .bind fun _ => .bind fun _ => .bind fun _ =>
    .bindE (.vecStore h1) fun _ h2 => .bind fun _ => .fin h2

end vectorMem

section matrix

theorem Env.Canon.accept {e : Env} {q : MxCmd} {cycles : Nat} {readBlocks : List Nat} (h : e.Canon) :
    (accept e q cycles readBlocks).Canon := h

theorem Keeps.mmaIssue {st : Stall} {f6 : Nat} {n : AccReg} {a b : GReg} {z : Bool} {s : State} (h : s.MemoryCanonical) :
    Keeps (mmaIssue st f6 n a b z s) :=
  .issue h fun _ h1 => .bind fun _ => .bind fun _ => .bind fun _ => .bind fun _ => .bind fun _ => .bind fun _ =>
    .fin (.accept h1)

theorem Keeps.execMzero {st : Stall} {n : AccReg} {s : State} (h : s.MemoryCanonical) : Keeps (execMzero st n s) :=
  .issue h fun _ h1 => .bind fun _ => .bind fun _ => .fin (.accept h1)

theorem Keeps.execMld {st : Stall} {n : AccReg} {a : GReg} {s : State} (h : s.MemoryCanonical) : Keeps (execMld st n a s) :=
  .issue h fun _ h1 => .bind fun _ => .bind fun _ => .bind fun _ => .bind fun _ => .bind fun _ => .bind fun _ =>
    .fin (.accept h1)

theorem Keeps.execMst {st : Stall} {n : AccReg} {a : GReg} {s : State} (h : s.MemoryCanonical) :
    Keeps (execMst st n a s) := by
  refine .issue h fun e he => .bind fun _ => .bind fun _ => .bind fun _ => .bind fun _ => .bind fun _ => .bind fun _ => ?_
  exact Sound.fin (.onTile (.accept he) fun _ ht => .foldl ht fun _ _ ht => ht)

theorem Keeps.execMacc {st : Stall} {n src : AccReg} {s : State} (h : s.MemoryCanonical) : Keeps (execMacc st n src s) :=
  .issue h fun _ h1 => .bind fun _ => .bind fun _ => .bind fun _ => .fin (.accept h1)

theorem Keeps.execMstat {st : Stall} {d : GReg} {n : AccReg} {clr : Bool} {s : State} (h : s.MemoryCanonical) :
    Keeps (execMstat st d n clr s) := .issue h fun _ h1 => .fin (.ite h1 h1)

theorem Tile.Canon.setAccs {t : Tile} {n : Nat} {l : List Acc} (h : t.Canon) : (t.setAccs n l).Canon := by
  induction l generalizing t n with
  | nil => exact h
  | cons x l ih => exact ih h

theorem Tile.Canon.mxFinish {t : Tile} {q : MxCmd} (h : t.Canon) : (t.mxFinish q).Canon :=
  .ite (.setAccs h) (.ite (.ite (.setAccs (.setAccs h)) (.setAccs h)) (.setAccs h))

theorem Tile.Canon.mstWrite {t : Tile} {q : MxCmd} (h : t.Canon) : (t.mstWrite q).Canon :=
  .ite (.setPoisAll (wf_writeBytes _ _ h)) h

theorem Tile.Canon.mstBlock {t : Tile} {now : Nat} {det : Bool} {q : MxCmd} (h : t.Canon) : (t.mstBlock now det q).Canon :=
  .ite (.commit (.mstWrite h)) (.mstWrite h)

theorem Keeps.tileEvent {s : State} {dom rank : Nat} {f : Domain → Tile → Option Tile} (h : s.MemoryCanonical)
    (hf : ∀ d t u, t.Canon → f d t = some u → u.Canon) : Keeps (tileEvent s dom rank f) := by
  unfold Machine.tileEvent
  split
  · exact .fault
  · rename_i d hd
    split
    · exact .fault
    · rename_i t ht
      split
      · rename_i u hu
        exact .next (h.setDom (.setTile (h.dom hd) (hf d t u ((h.dom hd).find ht) hu)))
      · exact .fault

/-- A row of a tile whose work, where there is any, keeps the tile canonical. -/
theorem Keeps.tileWork {α : Type} {s : State} {dom rank : Nat} {work : Domain → Tile → Option α} {f : Domain → Tile → α → Tile}
    (h : s.MemoryCanonical) (hf : ∀ d t x, t.Canon → (f d t x).Canon) :
    Keeps (Machine.tileEvent s dom rank fun d t => (work d t).map (f d t)) :=
  .tileEvent h fun d t u ht hu => by
    obtain ⟨x, -, rfl⟩ := Option.map_eq_some_iff.mp hu
    exact hf d t x ht

theorem Keeps.execMatrixComputeStart {dom rank : Nat} {s : State} (h : s.MemoryCanonical) : Keeps (execMatrixComputeStart dom rank s) :=
  .tileWork h fun _ _ _ ht => ht

theorem Keeps.execMatrixComputeDone {dom rank : Nat} {s : State} (h : s.MemoryCanonical) : Keeps (execMatrixComputeDone dom rank s) :=
  .tileWork h fun _ _ _ ht => .mxFinish ht

theorem Keeps.execMatrixMoveStart {dom rank : Nat} {s : State} (h : s.MemoryCanonical) : Keeps (execMatrixMoveStart dom rank s) :=
  .tileWork h fun _ _ _ ht => ht

theorem Keeps.execMatrixMoveDone {dom rank : Nat} {s : State} (h : s.MemoryCanonical) : Keeps (execMatrixMoveDone dom rank s) :=
  .tileWork h fun _ _ _ ht => .mxFinish ht

theorem Keeps.mstWriteRow {dom rank : Nat} {s : State} (h : s.MemoryCanonical) : Keeps (mstWriteRow dom rank s) :=
  .tileWork h fun _ _ _ ht => .mstWrite ht

theorem Keeps.execMstBlockCommit {dom rank : Nat} {s : State} (h : s.MemoryCanonical) : Keeps (execMstBlockCommit dom rank s) :=
  .tileWork h fun _ _ _ ht => .mstBlock ht

end matrix

section sync

theorem Tile.Canon.releaseTbar {t : Tile} {group : BitVec 16} (h : t.Canon) : (t.releaseTbar group).Canon :=
  .ite (.foldl h fun _ _ h1 => h1) h

theorem Tile.Canon.freeSlot {t : Tile} {rank now i : Nat} (h : t.Canon) : (t.freeSlot rank now i).Canon := by
  unfold Tile.freeSlot
  dsimp only
  split <;> exact .releaseTbar h

theorem Keeps.execFence {st : Stall} {kind : FenceKind} {scope : Scope} {a : GReg} {s : State} (h : s.MemoryCanonical) :
    Keeps (execFence st kind scope a s) :=
  .issue h fun _ h1 => .ite (.bind fun _ => .bind fun _ => .fin h1) (.bind fun _ => .bind fun _ => .fin h1)

theorem Keeps.execTbar {st : Stall} {s : State} (h : s.MemoryCanonical) : Keeps (execTbar st s) := by
  have hw : ∀ u : Env, u.Canon → Sound (if u.c.busy = .tbar true then fin { u with c := { u.c with busy := .none } }
      else .ok (.wait u)) := fun _ hu => .ite (.fin hu) (.wait hu)
  refine .issue h fun e he => .ite (.fin he) (hw _ ?_)
  obtain ⟨hs, hd, ht⟩ := he
  exact Env.Canon.onTile (e := { e with c := { e.c with busy := .tbar false } }) ⟨hs, hd, ht⟩ fun _ ht => .releaseTbar ht

theorem Keeps.execTend {st : Stall} {s : State} (h : s.MemoryCanonical) : Keeps (execTend st s) :=
  .issue h fun _ h1 => .bind fun _ => .ok (.onTile (.complete1 h1) fun _ h2 => .freeSlot h2)

theorem Keeps.execSpawn {st : Stall} {d a : GReg} {imm : BitVec 11} {s : State} (h : s.MemoryCanonical) :
    Keeps (execSpawn st d a imm s) := by
  refine .issue h fun _ h1 => .bind fun _ => ?_
  split
  · exact .fin (.onTile h1 fun _ h2 => h2)
  · exact .ok h1

theorem Tile.Canon.setWord1 {t : Tile} {o nfeed : Nat} {waiter : Bool} (h : t.Canon) : (t.setWord1 o nfeed waiter).Canon :=
  wf_write64 _ _ h

theorem Tile.Canon.wakeBarrier {t : Tile} {now : Nat} {delayed : Bool} {o : Nat} (h : t.Canon) :
    (t.wakeBarrier now delayed o).Canon := .foldl (.setWord1 h) fun _ _ h1 => .ite (.ite h1 h1) h1

theorem Keeps.execAbinit {st : Stall} {d a : GReg} {imm : BitVec 11} {s : State} (h : s.MemoryCanonical) :
    Keeps (execAbinit st d a imm s) :=
  .issue h fun _ h1 => .bind fun _ => .bind fun _ => .bind fun _ => .bind fun _ => .bind fun _ => .bind fun _ =>
    .bind fun _ => .fin (.pushStore h1)

theorem Tile.Canon.abinitPerform {t : Tile} {now : Nat} {x : SbEntry} (h : t.Canon) : (t.abinitPerform now x).Canon :=
  .ite (.setWord1 (wf_writeCells _ h)) (.wakeBarrier (.setWord1 (wf_writeCells _ h)))

theorem Keeps.execAwait {st : Stall} {d a : GReg} {imm : BitVec 11} {s : State} (h : s.MemoryCanonical) :
    Keeps (execAwait st d a imm s) := by
  refine .issue h fun e he => .bind fun _ => .bind fun o => .bind fun _ => .bind fun _ => .bind fun _ => ?_
  have hr : (e.readGrans [o / 64]).Canon := .readGrans he
  extract_lets w u v
  split
  · obtain ⟨hs, hd, ht⟩ := hr
    exact Sound.stay ⟨hs, hd, .setWord1 ht⟩
  · exact Sound.fin hr

theorem Tile.Canon.barrierCount_fst {t : Tile} {now : Nat} {det : Bool} {o bytes : Nat} {last : Bool} (h : t.Canon) :
    (t.barrierCount now det o bytes last).1.Canon :=
  .ite (.wakeBarrier (.ite (.setWord1 (wf_write64 _ _ h)) (wf_write64 _ _ h)))
    (.ite (.setWord1 (wf_write64 _ _ h)) (wf_write64 _ _ h))

end sync

end Sys2Proof.Machine
end

