-- ==== Sys2Proof/Proofs/CanonicalTransfers.lean ====
section
/-! SUPPORT. The canonical form of memory: the exchange instructions and the arrivals at tiles and at memory. -/

namespace Sys2Proof.Machine

section xfer

theorem Env.Canon.armAll {e : Env} {p : Word} {n agent : Nat} {recv : Bool} (h : e.Canon) : (e.armAll p n agent recv).Canon :=
  .onTile h fun _ h1 => .foldl h1 fun _ _ h2 => .ite (.wakePool h2) h2

theorem Env.Canon.addCmd_fst {e : Env} {c : Cmd} (h : e.Canon) : (e.addCmd c).1.Canon := h

theorem Env.Canon.tick1 {e : Env} (h : e.Canon) : e.tick1.Canon := h

theorem Env.Canon.firstRead {e : Env} {req : Nat} (h : e.Canon) : (e.firstRead req).Canon := (.tick1 h)

theorem Env.Canon.dispatch {e : Env} {m : Msg} (h : e.Canon) : (e.dispatch m).Canon := by
  obtain ⟨hs, hd, ht⟩ := Env.Canon.tick1 h
  exact ⟨.dispatch hs, hd, ht⟩

theorem Env.Canon.askBlocks {e : Env} {f6 : Nat} {o : XOrd} {a b : Word} {req n : Nat} (h : e.Canon) :
    (e.askBlocks f6 o a b req n).Canon := .foldl h fun _ _ h1 => .dispatch h1

theorem Keeps.execXget {st : Stall} {ord : XOrd} {a b : GReg} {s : State} (h : s.MemoryCanonical) :
    Keeps (execXget st ord a b s) :=
  .issue h fun _ h1 => .bind fun _ => .bind fun _ => .bind fun _ => .bind fun _ => .bind fun _ => .bind fun _ =>
    .bind fun _ => .bind fun _ => .bind fun _ => .fin (.askBlocks (.armAll (.addCmd_fst h1)))

theorem Keeps.execXput {st : Stall} {ord : XOrd} {a b : GReg} {s : State} (h : s.MemoryCanonical) :
    Keeps (execXput st ord a b s) := by
  refine .issue h fun _ h1 => .bind fun _ => .bind fun _ => .bind fun _ => .bind fun _ => .bind fun _ => .bind fun _ =>
    .bind fun _ => .bind fun _ => ?_
  split
  · exact .error
  · exact .bind fun _ => .fin (.firstRead (.addCmd_fst h1))

theorem Keeps.execXfeed {st : Stall} {ord : XOrd} {a b : GReg} {s : State} (h : s.MemoryCanonical) :
    Keeps (execXfeed st ord a b s) := by
  refine .issue h fun _ h1 => .bind fun _ => .bind fun _ => .bind fun _ => .bind fun _ => .bind fun _ => .bind fun _ => ?_
  split
  · exact .ite (.bind fun _ => .bind fun _ => .bind fun _ => .bind fun _ => .bind fun _ => .bind fun _ => .bind fun _ =>
      .fin (.askBlocks (.armAll (.addCmd_fst (.onTile h1 fun _ h2 => h2)))))
      (.bind fun _ => .bind fun _ => .bind fun _ => .fin (.askBlocks (.armAll (.addCmd_fst (.onTile h1 fun _ h2 => h2)))))
  · exact .bind fun _ => .bind fun _ => .bind fun _ => .bind fun _ => .bind fun _ => .bind fun _ => .bind fun _ =>
      .fin (.askBlocks (.armAll (.addCmd_fst (.onTile h1 fun _ h2 => .setWord1 h2))))

theorem Keeps.execXcomb {st : Stall} {op : CombOp} {ord : XOrd} {a b : GReg} {s : State} (h : s.MemoryCanonical) :
    Keeps (execXcomb st op ord a b s) :=
  .issue h fun _ h1 => .bind fun _ => .bind fun _ => .bind fun _ =>
    .ite (.bind fun _ => .bind fun _ => .bind fun _ => .fin (.dispatch (.addCmd_fst h1)))
    (.bind fun _ => .bind fun _ => .bind fun _ => .fin (.dispatch (.addCmd_fst h1)))

theorem Keeps.execXroute {st : Stall} {a b : GReg} {s : State} (h : s.MemoryCanonical) : Keeps (execXroute st a b s) :=
  .issue h fun _ h1 => .bind fun _ => .bind fun _ => .bind fun _ => .bind fun _ => .bind fun _ => .bind fun _ =>
    .bind fun _ => .bind fun _ => .bind fun _ => .bind fun _ => .fin (.firstRead (.addCmd_fst h1))

theorem Env.Canon.close1 {e : Env} (h : e.Canon) : e.close1.Canon := by
  unfold Env.close1
  extract_lets n
  generalize hx : e.addCmd _ = x
  obtain ⟨u, req⟩ := x
  have hu : u.Canon := .of_fst (.addCmd_fst h) hx
  exact .foldl hu fun _ _ he => .dispatch he

theorem Keeps.execXclose {st : Stall} {s : State} (h : s.MemoryCanonical) : Keeps (execXclose st s) :=
  .issue h fun _ h1 => .bind fun _ => .bind fun _ => .bind fun _ => .fin (.close1 h1)

theorem Keeps.execXrecv {st : Stall} {a : GReg} {s : State} (h : s.MemoryCanonical) : Keeps (execXrecv st a s) :=
  .issue h fun _ h1 => .bind fun _ => .bind fun _ => .bind fun _ => .bind fun _ => .fin (.armAll h1)

theorem Keeps.execXrecvRoute {st : Stall} {a : GReg} {s : State} (h : s.MemoryCanonical) : Keeps (execXrecvRoute st a s) := by
  refine .issue h fun e he => .bind fun _ => .bind fun _ => .bind fun _ => .bind fun _ => .bind fun _ => .bind fun _ =>
    .bind fun _ => .bind fun _ => .bind fun _ => ?_
  refine Sound.fin (.onTile (.armAll he) fun t ht => .wakePool ?_)
  exact (wf_write64 _ _ ht : Mem.wf (t.sram.write64 (ptrOff (e.c.th.re 5)) 0) = true)

theorem Keeps.execXend {st : Stall} {s : State} (h : s.MemoryCanonical) : Keeps (execXend st s) :=
  .issue h fun _ h1 => .ite (.bindE (.bind fun _ => .ok (.close1 h1)) fun _ h2 => .fin h2)
    (.bindE (.ok h1) fun _ h2 => .fin h2)

theorem Keeps.xwaitIssue {st : Stall} {a : GReg} {recv : Bool} {s : State} (h : s.MemoryCanonical) :
    Keeps (xwaitIssue st a recv s) := .issue h fun _ h1 => .bind fun _ => .bind fun _ => .fin (.tick1 h1)

end xfer

section arrive

theorem State.MemoryCanonical.recordRefusal {s : State} {m : Msg} {cause : Nat} (h : s.MemoryCanonical) :
    (s.recordRefusal m cause).MemoryCanonical := .ite (.fault h) h

theorem State.MemoryCanonical.respond {s : State} {m : Msg} {status : Nat} (h : s.MemoryCanonical) :
    (s.respond m status).MemoryCanonical := .dispatch h

theorem State.MemoryCanonical.refuse {s : State} {m : Msg} {cause : Nat} (h : s.MemoryCanonical) :
    (s.refuse m cause).MemoryCanonical := .respond (.recordRefusal h)

theorem State.MemoryCanonical.retryAfter {s : State} {m : Msg} (h : s.MemoryCanonical) : (s.retryAfter m).MemoryCanonical :=
  .dispatch h

theorem Tile.Canon.endCmd {t : Tile} {req : Nat} {c : Cmd} (h : t.Canon) : (t.endCmd req c).Canon := by
  unfold Tile.endCmd
  split
  · exact h
  · dsimp only
    split <;> exact h

theorem Tile.Canon.resolve {t : Tile} {req slot : Nat} {p : Prog} (h : t.Canon) : (t.resolve req slot p).Canon := by
  unfold Tile.resolve
  split
  · exact h
  · exact .ite (.endCmd h) h

theorem Tile.Canon.landBlock {t : Tile} {b : Nat} {data : Mem} {pois : BitVec 32} (h : t.Canon) :
    (t.landBlock b data pois).Canon := .setPoisAll (wf_paste _ _ _ h)

theorem Tile.Canon.feedWait {t : Tile} {free req : Nat} {c : Cmd} (h : t.Canon) : (t.feedWait free req c).Canon := by
  unfold Tile.feedWait
  split <;> exact h

theorem Tile.Canon.feedLanded {t : Tile} {now free req slot : Nat} {c : Cmd} (h : t.Canon) :
    (t.feedLanded now free req slot c).Canon := .feedWait h

theorem Tile.Canon.feedNext {t : Tile} {free req : Nat} {c : Cmd} (h : t.Canon) : (t.feedNext free req c).Canon :=
  .ite (.endCmd h) (.feedWait h)

theorem Tile.Canon.feedServed {t : Tile} {now req k : Nat} (h : t.Canon) : (t.feedServed now req k).Canon := by
  unfold Tile.feedServed
  split
  · exact .ite h h
  · exact h

theorem Tile.Canon.feedStep {t : Tile} {now free : Nat} {det : Bool} {req : Nat} {c : Cmd} (h : t.Canon) :
    (t.feedStep now free det req c).Canon := .feedNext (.feedServed (.commit h))

theorem Tile.Canon.feedCount_fst {t : Tile} {now free : Nat} {det : Bool} {req : Nat} {c : Cmd} (h : t.Canon) :
    (t.feedCount now free det req c).1.Canon := by
  unfold Tile.feedCount
  split
  · rename_i o _
    extract_lets last
    have hb : (t.barrierCount now det o 2048 last).1.Canon := .barrierCount_fst h
    generalize t.barrierCount now det o 2048 last = x at hb ⊢
    exact .feedNext hb
  · exact .feedNext h

theorem Tile.Canon.feedRefused {t : Tile} {now free req slot cause : Nat} {c : Cmd} (h : t.Canon) :
    (t.feedRefused now free req slot cause c).Canon := by
  unfold Tile.feedRefused
  refine .feedNext ?_
  split
  · exact .ite (.setWord1 h) h
  · exact h

theorem State.MemoryCanonical.overrun {s : State} {dom rank : Nat} {c : Cmd} {blk : Nat} (h : s.MemoryCanonical) :
    (s.overrun dom rank c blk).MemoryCanonical := .fault h

theorem State.MemoryCanonical.feedCommit {s : State} {dom rank feed : Nat} {d : Domain} {t : Tile} {c : Cmd}
    (hs : s.MemoryCanonical) (hd : d.Canon) (ht : t.Canon) : (s.feedCommit dom rank feed d t c).MemoryCanonical := by
  unfold State.feedCommit
  dsimp only
  split
  · exact .setDom hs (.setTile hd (.feedStep ht))
  · exact .fault (.setDom hs (.setTile hd (.feedRefused (.feedServed ht))))

theorem Keeps.execFeedCommit {dom rank feed : Nat} {s : State} (h : s.MemoryCanonical) :
    Keeps (execFeedCommit dom rank feed s) := by
  unfold Machine.execFeedCommit
  split
  · rename_i heq heq1 _
    have hd := h.dom heq
    have ht := h.tile heq1
    exact .ite (.next (.feedCommit h hd ht)) (.ite (.next (.ite (.overrun (.setDom h (.setTile hd (.feedCount_fst ht))))
      (.setDom h (.setTile hd (.feedCount_fst ht))))) .fault)
  · exact .fault

theorem State.MemoryCanonical.deliver {s : State} {dom rank req slot : Nat} {data : Mem} {pois : BitVec 32}
    (h : s.MemoryCanonical) : (s.deliver dom rank req slot data pois).MemoryCanonical := by
  unfold State.deliver
  split
  · rename_i heq heq1 _
    have hd := h.dom heq
    have ht := h.tile heq1
    split
    · dsimp only
      split
      · exact .fault (.setDom h (.setTile hd (.feedRefused ht)))
      · exact .setDom h (.setTile hd (.feedLanded (.landBlock ht)))
    · dsimp only
      split
      · exact .fault (.setDom h (.setTile hd (.resolve ht)))
      · exact .setDom h (.setTile hd (.resolve (.commit (.landBlock ht))))
  · exact h

theorem State.MemoryCanonical.sourceFail {s : State} {m : Msg} {cause : Nat} (h : s.MemoryCanonical) :
    (s.sourceFail m cause).MemoryCanonical := .deliver (.fault h)

theorem State.MemoryCanonical.pitchOverflow {s : State} {dom : Nat} (h : s.MemoryCanonical) :
    (s.pitchOverflow dom).MemoryCanonical := by
  unfold State.pitchOverflow
  split
  · rename_i heq
    have hd := h.dom heq
    exact .ite h (.post (.setDom h hd))
  · exact h

theorem State.MemoryCanonical.logArrival {s : State} {dom rank : Nat} {d : Domain} {m : Msg} (hs : s.MemoryCanonical) :
    (s.logArrival dom rank d m).MemoryCanonical := by
  unfold State.logArrival
  extract_lets _ _ _ _ _ _ _ s1 s2 s3 s4 s5
  have h1 : s1.MemoryCanonical := .vaWriteWords hs
  have h2 : s2.MemoryCanonical := .ite (.vaWriteBytes h1) h1
  have h3 : s3.MemoryCanonical := .headerCount h2
  have h4 : s4.MemoryCanonical := .ite (.headerCount h3) h3
  have h5 : s5.MemoryCanonical := .updDom h4 fun _ hd => hd
  exact .ite (.ite (.respond (.pitchOverflow hs)) (.ite hs (.retryAfter hs))) (.ite (.respond h5) (.ite (.respond h5) h5))

theorem State.MemoryCanonical.poolOr {s : State} {dom rank : Nat} {t : Tile} {block : Option Nat} {kind : PoolKind} {m : Msg}
    (hs : s.MemoryCanonical) : (s.poolOr dom rank t block kind m).MemoryCanonical :=
  .ite (.retryAfter hs) (.updTile hs fun _ h => h)

theorem Tile.Canon.landPut {t : Tile} {now : Nat} {det : Bool} {m : Msg} (h : t.Canon) : (t.landPut now det m).Canon :=
  .commit (.landBlock h)

theorem State.MemoryCanonical.putTile {s : State} {dom rank : Nat} {det : Bool} {t : Tile} {m : Msg} (hs : s.MemoryCanonical)
    : (s.putTile dom rank det t m).MemoryCanonical := by
  unfold State.putTile
  split
  · exact .respond (.updTile hs fun _ h => .landPut h)
  · exact .poolOr hs
  · exact .refuse hs

theorem State.MemoryCanonical.getTile {s : State} {dom rank : Nat} {t : Tile} {m : Msg} (hs : s.MemoryCanonical) :
    (s.getTile dom rank t m).MemoryCanonical := by
  unfold State.getTile
  refine .ite (.refuse hs) (.ite (.refuse hs) (.ite ?_ (.poolOr hs)))
  exact State.MemoryCanonical.updTile hs fun _ ht => ht

theorem Tile.Canon.combineDo {t : Tile} {now : Nat} {det : Bool} {m : Msg} (h : t.Canon) : (t.combineDo now det m).Canon :=
  wf_write64 _ _ h

theorem State.MemoryCanonical.combineMark {s : State} {dom rank : Nat} {m : Msg} {cause : Nat} (h : s.MemoryCanonical) :
    (s.combineMark dom rank m cause).MemoryCanonical := .ite (.updTile h fun _ h1 => h1) h

theorem State.MemoryCanonical.combineTile {s : State} {dom rank : Nat} {det : Bool} {t : Tile} {m : Msg}
    (hs : s.MemoryCanonical) : (s.combineTile dom rank det t m).MemoryCanonical := by
  unfold State.combineTile
  split
  · exact .refuse (.combineMark hs)
  · exact .respond (.updTile hs fun _ h => .combineDo h)

theorem Tile.Canon.routedCheck {t : Tile} {now nrank : Nat} (h : t.Canon) : (t.routedCheck now nrank).Canon := .ite h h

theorem State.MemoryCanonical.unitTile {s : State} {dom rank nrank : Nat} {t : Tile} {m : Msg} (hs : s.MemoryCanonical) :
    (s.unitTile dom rank nrank t m).MemoryCanonical := by
  unfold State.unitTile
  split
  · exact .poolOr hs
  · rename_i box _
    split
    · rename_i k _
      refine .respond (.updTile hs fun t ht => ?_)
      have hl : (t.landBlock (box.base + k) m.data m.pois).Canon := .landBlock ht
      exact .routedCheck (wf_write64 _ _ (wf_write64 _ _ hl))
    · exact .refuse (.updTile hs fun _ ht => .routedCheck ht)

theorem State.MemoryCanonical.closeTile {s : State} {dom rank nrank : Nat} {m : Msg} (h : s.MemoryCanonical) :
    (s.closeTile dom rank nrank m).MemoryCanonical := .respond (.updTile h fun _ h1 => .routedCheck h1)

theorem Tile.Canon.routedFinish {t : Tile} {now : Nat} {det : Bool} (h : t.Canon) : (t.routedFinish now det).Canon := by
  unfold Tile.routedFinish
  dsimp only
  split
  · exact h
  · exact .foldl (.foldl (.ite (.foldl h fun _ _ h1 => .ite (.landBlock h1) h1) h) fun _ _ h1 => wf_write64 _ _ h1)
      fun _ _ h1 => .commit h1

theorem Keeps.execRoutedFinish {dom rank : Nat} {s : State} (h : s.MemoryCanonical) :
    Keeps (execRoutedFinish dom rank s) := .tileEvent h fun d t u ht hu => by
  split at hu
  · split at hu
    · cases hu; exact .routedFinish ht
    · cases hu
  · cases hu

theorem State.MemoryCanonical.atTile {s : State} {dom rank : Nat} {m : Msg} {act : Domain → Tile → State}
    (hs : s.MemoryCanonical) (hact : ∀ (d : Domain) (t : Tile), d.Canon → t.Canon → (act d t).MemoryCanonical) :
    (s.atTile dom rank m act).MemoryCanonical := by
  unfold State.atTile
  split
  · exact .refuse hs
  · rename_i heq
    have hd := hs.dom heq
    split
    · exact .refuse hs
    · split
      · exact .logArrival hs
      · split
        · exact .refuse hs
        · rename_i heq3
          exact hact _ _ hd (TilesCanon.find hd heq3)

theorem Keeps.arrive {s : State} {id : Nat} {kind : MsgKind} {act : State → Msg → State} (hs : s.MemoryCanonical)
    (hact : ∀ (u : State) (x : Msg), u.MemoryCanonical → (act u x).MemoryCanonical) : Keeps (arrive s id kind act) := by
  unfold Machine.arrive
  split
  · exact .next (hact _ _ hs)
  · exact .fault

theorem State.MemoryCanonical.putOutside {s : State} {m : Msg} (h : s.MemoryCanonical) :
    (s.putOutside m).MemoryCanonical := by
  unfold State.putOutside
  split
  · exact .respond h
  · refine .respond ?_
    split
    · exact .intro h.hbm (wf_paste _ _ _ h.host) h.cxl h.doms
    · exact .intro h.hbm h.host (wf_paste _ _ _ h.cxl) h.doms

theorem State.MemoryCanonical.getOutside {s : State} {m : Msg} (h : s.MemoryCanonical) :
    (s.getOutside m).MemoryCanonical := by
  unfold State.getOutside
  split
  · exact .respond h
  · split
    exact .replyTo h

theorem Keeps.execPutArrive {msg : Nat} {s : State} (h : s.MemoryCanonical) : Keeps (execPutArrive msg s) := by
  unfold Machine.execPutArrive
  split
  · exact .fault
  · split
    · exact .ite (.hbmRow h fun _ h1 => .hbmPut h1) .fault
    · exact .arrive h fun _ _ h1 => .atTile h1 fun _ _ _ _ => .putTile h1
    · exact .arrive h fun _ _ h1 => .putOutside h1

theorem Keeps.execGetArrive {msg : Nat} {s : State} (h : s.MemoryCanonical) : Keeps (execGetArrive msg s) := by
  unfold Machine.execGetArrive
  split
  · exact .fault
  · split
    · exact .hbmRow h fun _ h1 => .hbmRead h1
    · exact .next (.atTile h fun _ _ _ _ => .getTile h)
    · exact .next (.getOutside h)

theorem State.MemoryCanonical.replyAt {s : State} {m : Msg} (h : s.MemoryCanonical) : (s.replyAt m).MemoryCanonical := by
  unfold State.replyAt
  split
  · exact h
  · split
    · exact h
    · exact h
    · exact .ite (.deliver h) (.logArrival h)
    · exact .logArrival h
    · exact .logArrival h
    · exact .deliver h

theorem Keeps.execReply {msg : Nat} {s : State} (h : s.MemoryCanonical) : Keeps (execReply msg s) :=
  .arrive h fun _ _ h1 => .ite (.replyAt h1) h1

theorem Keeps.execCombine {msg : Nat} {s : State} (h : s.MemoryCanonical) : Keeps (execCombine msg s) := by
  unfold Machine.execCombine
  split
  · exact .fault
  · refine .arrive h fun _ _ h1 => ?_
    split
    · exact .atTile h1 fun _ _ _ _ => .combineTile h1
    · exact h1

theorem Keeps.execRoutedUnit {msg : Nat} {s : State} (h : s.MemoryCanonical) : Keeps (execRoutedUnit msg s) := by
  unfold Machine.execRoutedUnit
  refine .arrive h fun _ _ h1 => ?_
  split
  · exact .atTile h1 fun _ _ _ _ => .unitTile h1
  · exact h1

theorem Keeps.execClosingCount {msg : Nat} {s : State} (h : s.MemoryCanonical) : Keeps (execClosingCount msg s) := by
  unfold Machine.execClosingCount
  refine .arrive h fun _ _ h1 => ?_
  split
  · exact .atTile h1 fun _ _ _ _ => .closeTile h1
  · exact h1

theorem State.MemoryCanonical.answerAt {s : State} {m : Msg} (h : s.MemoryCanonical) : (s.answerAt m).MemoryCanonical := by
  unfold State.answerAt
  split
  · exact h
  · exact .ite (.updTile h fun _ h1 => .ite h1 h1) (.ite (.sourceFail h)
      (.ite (.updTile h fun _ h1 => .resolve h1) (.updTile (.ite (.fault h) h) fun _ h1 => .resolve h1)))

theorem Keeps.execAnswer {msg : Nat} {s : State} (h : s.MemoryCanonical) : Keeps (execAnswer msg s) := by
  unfold Machine.execAnswer
  split
  · exact .fault
  · split
    · exact .ite (.next (.logArrival h)) (.next (.answerAt h))
    · exact .next h

theorem Keeps.execRetryAfter {msg : Nat} {s : State} (h : s.MemoryCanonical) : Keeps (execRetryAfter msg s) :=
  .arrive h fun _ _ h1 => .ite h1 (.ite h1 (.ite h1 h1))

theorem Keeps.execRetryTimer {msg : Nat} {s : State} (h : s.MemoryCanonical) : Keeps (execRetryTimer msg s) := by
  unfold Machine.execRetryTimer
  split
  · split
    · exact .ite (.next (.dispatch h)) .fault
    · exact .fault
  · exact .fault

theorem State.MemoryCanonical.nextRead {s : State} {dom rank req : Nat} {c : Cmd} (h : s.MemoryCanonical) :
    (s.nextRead dom rank req c).MemoryCanonical := by
  unfold State.nextRead
  split
  · rename_i d t heq heq1
    have hd := h.dom heq
    have ht := h.tile heq1
    exact .setDom h (.setTile hd (.ite ht ht))
  · exact h

theorem State.MemoryCanonical.staleRead {s : State} {dom rank req : Nat} {c : Cmd} (h : s.MemoryCanonical) :
    (s.staleRead dom rank req c).MemoryCanonical := .updTile (.nextRead (.fault h)) fun _ h1 => h1

theorem Tile.Canon.staleRefuse {t : Tile} {p : Nat × Nat × Nat} (h : t.Canon) : (t.staleRefuse p).Canon := by
  unfold Tile.staleRefuse
  dsimp only
  split
  · exact h
  · exact .foldl h fun _ _ h1 => .resolve h1

theorem State.MemoryCanonical.tryRead {s : State} {dom rank req : Nat} (h : s.MemoryCanonical) :
    (s.tryRead dom rank req).MemoryCanonical := by
  unfold State.tryRead
  split
  · exact h
  · split
    · exact h
    · exact .ite (.staleRead h) (.ite (.updTile h fun _ h1 => h1) (.updTile h fun _ h1 => h1))

theorem State.MemoryCanonical.readDone {s : State} {dom rank : Nat} {r : EngRead} (h : s.MemoryCanonical) :
    (s.readDone dom rank r).MemoryCanonical := by
  unfold State.readDone
  split
  · dsimp only
    split <;> exact .updTile h fun _ h1 => h1
  · dsimp only
    split
    · exact .updTile h fun _ h1 => h1
    · split
      · exact .updTile h fun _ h1 => h1
      · exact .foldl (.nextRead (.updTile h fun _ h1 => h1)) fun _ _ h1 => .dispatch h1
  · dsimp only
    split
    · exact .updTile h fun _ h1 => h1
    · exact .replyTo (.updTile h fun _ h1 => h1)

theorem Keeps.execEngineReadEnd {dom rank : Nat} {s : State} (h : s.MemoryCanonical) :
    Keeps (execEngineReadEnd dom rank s) := by
  unfold Machine.execEngineReadEnd
  split
  · exact .fault
  · exact .next (.readDone (.updTile h fun _ h1 => h1))

theorem State.MemoryCanonical.servePool {s : State} {dom rank : Nat} {p : PoolEntry} (h : s.MemoryCanonical) :
    (s.servePool dom rank p).MemoryCanonical := by
  unfold State.servePool
  split
  · exact .tryRead (.updTile h fun _ h1 => h1)
  · exact .updTile h fun _ h1 => h1
  · exact .atTile (.updTile h fun _ h1 => h1) fun _ _ _ _ => .getTile (.updTile h fun _ h3 => h3)
  · exact .atTile (.updTile h fun _ h1 => h1) fun _ _ _ _ => .ite (.unitTile (.updTile h fun _ h3 => h3))
      (.putTile (.updTile h fun _ h3 => h3))

theorem State.MemoryCanonical.serveLanding_some {s u : State} {dom rank : Nat} {t : Tile} (h : s.MemoryCanonical)
    (hu : s.serveLanding dom rank t = some u) : u.MemoryCanonical := by
  unfold State.serveLanding at hu
  split at hu
  · exact Option.some.inj hu ▸ .updTile h fun _ ht => .staleRefuse ht
  · exact Option.some.inj hu ▸ .servePool h
  · cases hu

theorem State.MemoryCanonical.serveRead_some {s u : State} {dom rank : Nat} {t : Tile} (h : s.MemoryCanonical)
    (hu : s.serveRead dom rank t = some u) : u.MemoryCanonical := by
  unfold State.serveRead at hu
  split at hu
  · exact Option.some.inj hu ▸ .servePool h
  · exact Option.some.inj hu ▸ .tryRead (.updTile h fun _ ht => ht)
  · cases hu

theorem Keeps.execWaiterService {dom rank : Nat} {s : State} (h : s.MemoryCanonical) :
    Keeps (execWaiterService dom rank s) := by
  unfold Machine.execWaiterService
  split
  · rename_i u hu
    obtain ⟨t, -, hu⟩ := Option.bind_eq_some_iff.mp hu
    split at hu
    · exact .next (h.serveLanding_some hu)
    · exact .next (h.serveRead_some hu)
  · exact .fault

theorem State.MemoryCanonical.cacheXlat {s : State} {vpn : Nat} {x : Xlat} (h : s.MemoryCanonical) :
    (s.cacheXlat vpn x).MemoryCanonical := .ite h h

theorem State.MemoryCanonical.walkDone {found s : State} {m : Msg} (hs : s.MemoryCanonical) :
    (found.walkDone s m).MemoryCanonical := by
  unfold State.walkDone
  split
  · exact hs
  · split
    · exact .xlatFail hs
    · exact .toHome (.cacheXlat hs)

theorem Keeps.execWalkComplete {walk : Nat} {s : State} (h : s.MemoryCanonical) : Keeps (execWalkComplete walk s) := by
  unfold Machine.execWalkComplete
  split
  · exact .fault
  · exact .ite (.next (.foldl (.readGrans h) fun _ _ h1 => .walkDone h1)) .fault

theorem Keeps.execStalledRecordWrite {slice : Nat} {s : State} (h : s.MemoryCanonical) :
    Keeps (execStalledRecordWrite slice s) := by
  unfold Machine.execStalledRecordWrite
  dsimp only
  split
  · exact .fault
  · split
    · exact .next h
    · exact .next (.updCmd (.fringWrite (.kilnWalk h)))

end arrive

end Sys2Proof.Machine
end

