-- ==== Sys2Proof/Proofs/CanonicalControl.lean ====
section
/-! SUPPORT. The canonical form of memory: branches, invocations, system instructions and the events of a tile. -/

namespace Sys2Proof.Machine

section control

theorem Keeps.branchIssue {op : Op} {a b : GReg} {off : Int} {c : Cond} {s : State} (h : s.MemoryCanonical) :
    Keeps (branchIssue op a b off c s) :=
  .issue h fun _ h1 => .bind fun _ => .bind fun _ => .ite (.bind fun _ => .ite (.ok h1) (.ite (.ok h1) (.ok h1)))
    (.ite (.ok h1) (.ite (.ok h1) (.ok h1)))

theorem Keeps.br32 {st : Stall} {a b : GReg} {off : BitVec 12} {c : Cond} {s : State} (h : s.MemoryCanonical) :
    Keeps (br32 st a b off c s) := .branchIssue h

theorem Keeps.jalIssue {op : Op} {d : GReg} {off : Int} {s : State} (h : s.MemoryCanonical) : Keeps (jalIssue op d off s) :=
  .issue h fun _ h1 => .bind fun _ => .ok (.ite h1 h1)

theorem Keeps.jrIssue {op : Op} {d a : GReg} {imm : BitVec 11} {s : State} (h : s.MemoryCanonical) :
    Keeps (jrIssue op d a imm s) := .issue h fun _ h1 => .bind fun _ => .ok (.ite h1 h1)

theorem Tile.Canon.squash {t : Tile} {now i : Nat} (h : t.Canon) : (t.squash now i).Canon := by
  unfold Tile.squash
  dsimp only
  split <;> exact h

theorem State.MemoryCanonical.takeSpecTrap {s : State} {dom rank : Nat} {x : TrapInfo} (h : s.MemoryCanonical) :
    (takeSpecTrap s dom rank x).MemoryCanonical := .raiseTrap (.updTile h fun _ h1 => h1)

end control

section invoke

theorem SoundE.pitchStart {e : Env} {f6 : Nat} {ord : XOrd} {b : GReg} (h : e.Canon) : SoundE (pitchStart e f6 ord b) := by
  unfold Machine.pitchStart
  refine .bind fun _ => ?_
  split <;> exact .bind fun _ => .bind fun _ => .bind fun _ => .ok (.dispatch (.addCmd_fst h))

theorem Keeps.execPitch {st : Stall} {ord : XOrd} {b : GReg} {s : State} (h : s.MemoryCanonical) :
    Keeps (execPitch st ord b s) := by
  refine .issue h fun _ h1 => ?_
  split
  · exact .bind fun _ => .fin h1
  · exact .error
  · exact .bindE (.pitchStart h1) fun _ h2 => .ok h2

theorem Keeps.execPitchq {st : Stall} {ord : XOrd} {a b : GReg} {s : State} (h : s.MemoryCanonical) :
    Keeps (execPitchq st ord a b s) := by
  refine .issue h fun _ h1 => ?_
  split
  · exact .fin (.tick1 h1)
  · exact .error
  · exact .bindE (.pitchStart h1) fun _ h2 => .ok h2

theorem Domain.Canon.enqueue_fst {d : Domain} {m : Msg} (h : d.Canon) : (d.enqueue m).1.Canon := by
  unfold Domain.enqueue
  dsimp only
  split
  · exact h
  · split <;> exact h

theorem State.MemoryCanonical.invokeAt {s : State} {dom : Nat} {d : Domain} {m : Msg} (hs : s.MemoryCanonical) (hd : d.Canon)
    : (s.invokeAt dom d m).MemoryCanonical :=
  .respond (.ite (.pitchOverflow (.setDom hs (.enqueue_fst hd))) (.setDom hs (.enqueue_fst hd)))

theorem Keeps.execInvoke {msg : Nat} {s : State} (h : s.MemoryCanonical) : Keeps (execInvoke msg s) := by
  unfold Machine.execInvoke
  split
  · exact .fault
  · dsimp only
    split
    · exact .next (.respond h)
    · rename_i heq1
      have hd := h.dom heq1
      exact .ite (.next (.respond h)) (.ite (.next (.respond h))
        (.ite .fault (.ite (.next (.respond h)) (.ite (.next (.logArrival h)) (.next (.invokeAt h hd))))))

theorem Keeps.execHandlerLockClear {dom : Nat} {s : State} (h : s.MemoryCanonical) : Keeps (execHandlerLockClear dom s) := by
  unfold Machine.execHandlerLockClear
  split
  · exact .fault
  · rename_i heq
    have hd := h.dom heq
    split
    · exact .fault
    · exact .ite (.next (.complete (.vaWrite64 (.setDom h hd)))) .fault

end invoke

section sys

theorem Keeps.execMtc {st : Stall} {cw : BitVec 11} {a : GReg} {s : State} (h : s.MemoryCanonical) :
    Keeps (execMtc st cw a s) := by
  refine .issue h fun _ h1 => .bind fun _ => .bind fun _ => ?_
  split
  · exact .fin h1
  · exact .bind fun _ => .fin h1
  · exact .fin h1
  · exact .bind fun _ => .fin h1
  · exact .bind fun _ => .fin h1
  · exact .fin h1
  · exact .fin h1
  · exact .fin h1

theorem Keeps.execJlog {st : Stall} {d a : GReg} {w : Fin 3} {ret : Bool} {s : State} (h : s.MemoryCanonical) :
    Keeps (execJlog st d a w ret s) := .issue h fun _ h1 => .bind fun _ => .bind fun _ => .fin (.ite h1 h1)

theorem Keeps.execTagget {st : Stall} {d a : GReg} {imm : BitVec 11} {s : State} (h : s.MemoryCanonical) :
    Keeps (execTagget st d a imm s) :=
  .issue h fun _ h1 => .bind fun _ => .bind fun _ => .bind fun _ => .bind fun _ => .fin (.readGrans h1)

theorem Keeps.execTagset {st : Stall} {d a : GReg} {imm : BitVec 11} {s : State} (h : s.MemoryCanonical) :
    Keeps (execTagset st d a imm s) :=
  .issue h fun _ h1 => .bind fun _ => .bind fun _ => .bind fun _ => .bind fun _ => .bind fun _ => .bind fun _ =>
    .bind fun _ => .ok h1

theorem Keeps.execIdle {st : Stall} {d a : GReg} {s : State} (h : s.MemoryCanonical) : Keeps (execIdle st d a s) := by
  refine .issue h fun _ h1 => ?_
  split
  · exact .fin h1
  · exact .bind fun _ => .ite (.fin h1) (.ok h1)

theorem Keeps.execHnote {st : Stall} {d a : GReg} {code : BitVec 11} {s : State} (h : s.MemoryCanonical) :
    Keeps (execHnote st d a code s) := by
  refine .issue h fun _ he => .bind fun _ => .bind fun _ => .bind fun _ => ?_
  obtain ⟨hs, hd, ht⟩ := he
  exact Sound.fin ⟨.post hs, hd, ht⟩

theorem Keeps.execTrap {st : Stall} {a : GReg} {code : BitVec 11} {s : State} (h : s.MemoryCanonical) :
    Keeps (execTrap st a code s) := .issue h fun _ _ => .bind fun _ => .error

theorem Tile.Canon.resume {t : Tile} {now : Nat} (h : t.Canon) : (t.resume now).Canon := by
  unfold Tile.resume
  split
  · exact h
  · exact .ite h h

theorem Keeps.execEret {st : Stall} {s : State} (h : s.MemoryCanonical) : Keeps (execEret st s) :=
  .issue h fun _ h1 => .bind fun _ => .ok (.onTile (.complete1 h1) fun _ h2 => .resume h2)

theorem Keeps.execEretEnd {st : Stall} {s : State} (h : s.MemoryCanonical) : Keeps (execEretEnd st s) := by
  refine .issue h fun _ h1 => .bind fun _ => .bind fun _ => ?_
  dsimp only
  split
  · exact .ok (.onTile (.complete1 h1) fun _ h2 => h2)
  · exact .ite (.ok (.onTile (.ite (.close1 (.complete1 h1)) (.complete1 h1)) fun _ h2 => h2))
      (.ok (.onTile (.complete1 h1) fun _ h2 => .freeSlot h2))

end sys

section tileEvents

theorem Keeps.execResultLanding {dom rank ctx : Nat} {s : State} (h : s.MemoryCanonical) :
    Keeps (execResultLanding dom rank ctx s) := .tileEvent h fun d t u ht hu => by
  dsimp only at hu
  split at hu
  · obtain ⟨p, -, rfl⟩ := Option.map_eq_some_iff.mp hu
    exact ht
  · cases hu

theorem Tile.Canon.drained {t : Tile} {now i : Nat} (h : t.Canon) : (t.drained now i).Canon := .ite (.ite h h) h

theorem Tile.Canon.storePerform {t : Tile} {now i : Nat} {x : SbEntry} (h : t.Canon) : (t.storePerform now i x).Canon :=
  .drained (.ite (.ite (.abinitPerform h) (wf_writeCells _ h)) (.ite (.abinitPerform h) (wf_writeCells _ h)))

theorem Keeps.execStorePerform {dom rank : Nat} {s : State} (h : s.MemoryCanonical) :
    Keeps (execStorePerform dom rank s) := .tileEvent h fun d t u ht hu => by
  split at hu
  · obtain ⟨p, -, rfl⟩ := Option.map_eq_some_iff.mp hu
    exact .storePerform ht
  · cases hu

theorem Keeps.fillWriteRow {dom rank ctx : Nat} {s : State} (h : s.MemoryCanonical) :
    Keeps (fillWriteRow dom rank ctx s) := .tileEvent h fun d t u ht hu => by
  unfold Tile.fillMore at hu
  dsimp only at hu
  split at hu
  · split at hu
    · cases hu; exact .fillWrite ht
    · cases hu
  · cases hu

theorem Keeps.execBfillCommit {dom rank ctx : Nat} {s : State} (h : s.MemoryCanonical) :
    Keeps (execBfillCommit dom rank ctx s) := .tileEvent h fun d t u ht hu => by
  unfold Tile.fillEnd at hu
  dsimp only at hu
  split at hu
  · split at hu
    · cases hu; exact .commit (.fillWrite ht)
    · cases hu
  · cases hu

theorem Keeps.cellEvent {s : State} {dom rank : Nat} {mine : CellFn → Bool} {act : Domain → Tile → CellOp → State}
    (hs : s.MemoryCanonical) (hact : ∀ (d : Domain) (t : Tile) (q : CellOp), d.Canon → t.Canon → (act d t q).MemoryCanonical)
    : Keeps (cellEvent s dom rank mine act) := by
  unfold Machine.cellEvent
  split
  · exact .fault
  · rename_i heq
    have hd := hs.dom heq
    split
    · exact .fault
    · rename_i heq1
      split
      · exact .ite (.next (hact _ _ _ hd (TilesCanon.find hd heq1))) .fault
      · exact .fault

theorem Keeps.execCellPerform {dom rank : Nat} {s : State} (h : s.MemoryCanonical) : Keeps (execCellPerform dom rank s) := by
  unfold Machine.execCellPerform
  refine .cellEvent h fun _ _ _ _ h2 => ?_
  split
  · exact .decfPerform h h2
  · exact .updTile h fun _ h3 => .cellPerform h3

theorem Keeps.execTagsetEvent {dom rank : Nat} {s : State} (h : s.MemoryCanonical) : Keeps (execTagsetEvent dom rank s) :=
  .cellEvent h fun _ _ _ _ h2 => .tagsetPerform h h2

theorem Keeps.execVqdxListEvent {dom rank : Nat} {s : State} (h : s.MemoryCanonical) :
    Keeps (execVqdxListEvent dom rank s) := by
  unfold Machine.execVqdxListEvent
  refine .cellEvent h fun _ _ _ _ h2 => ?_
  split
  · exact .listPerform h h2
  · exact h

theorem Keeps.execTrapEntry {dom rank : Nat} {s : State} (h : s.MemoryCanonical) : Keeps (execTrapEntry dom rank s) :=
  .tileWork h fun _ _ _ ht => ht

theorem Keeps.execJournal {dom rank : Nat} {s : State} (h : s.MemoryCanonical) : Keeps (execJournal dom rank s) := by
  unfold Machine.execJournal
  split
  · exact .fault
  · exact .next (.raiseTrap (.updTile h fun _ h1 => h1))

theorem Keeps.execIdleWake {dom rank ctx : Nat} {s : State} (h : s.MemoryCanonical) :
    Keeps (execIdleWake dom rank ctx s) := .tileEvent h fun d t u ht hu => by
  split at hu
  · obtain ⟨p, -, rfl⟩ := Option.map_eq_some_iff.mp hu
    exact ht
  · cases hu

theorem Tile.Canon.countPassed {t : Tile} {issuer : Option Nat} (h : t.Canon) : (t.countPassed issuer).Canon := .mapCtxs h

theorem Tile.Canon.driveVote {d : Domain} {now wait : Nat} {t : Tile} (ht : t.Canon) : (d.driveVote now wait t).Canon := by
  unfold Domain.driveVote
  split
  · dsimp only
    split <;> exact .ite ht ht
  · dsimp only
    split <;> exact .ite ht ht

theorem Keeps.execVoteWindowWaitEnd {dom rank : Nat} {s : State} (h : s.MemoryCanonical) :
    Keeps (execVoteWindowWaitEnd dom rank s) := .tileEvent h fun d t u ht hu => by
  dsimp only at hu
  split at hu
  · cases hu; exact .mapCtxs ht
  · cases hu

end tileEvents

end Sys2Proof.Machine
end

