-- ==== Sys2Proof/Proofs/CanonicalDomains.lean ====
section
/-! SUPPORT. The canonical form of memory: the sequencer of a domain, placement and launch. -/

namespace Sys2Proof.Machine

section domain

theorem State.MemoryCanonical.fetchNode_fst {s : State} {d : Domain} {n : Nat} (hs : s.MemoryCanonical) :
    (s.fetchNode d n).1.MemoryCanonical := by
  unfold State.fetchNode
  split
  · exact hs
  · dsimp only
    split
    · exact .kilnRead hs
    · split <;> split <;> exact .kilnRead hs

theorem State.MemoryCanonical.reachFrom_fst {s : State} {d : Domain} {left n : Nat} {met : Met} (h : s.MemoryCanonical) :
    (reachFrom s d left n met).1.MemoryCanonical := by
  induction left generalizing s n met with
  | zero => exact h
  | succ left ih =>
    unfold reachFrom
    dsimp only
    split
    · exact .of_fst (.fetchNode_fst h) ‹_›
    · have hu := State.MemoryCanonical.of_fst (.fetchNode_fst h) ‹_›
      split
      · exact hu
      · exact hu
      · exact hu
      · split <;> exact hu
      · split
        · exact hu
        · split
          · exact hu
          · split
            · exact ih hu
            · split <;> exact ih hu

theorem State.MemoryCanonical.prefetch_fst {d : Domain} {left : Nat} {todo : List Nat} {r : State × Ahead}
    (h : r.1.MemoryCanonical) : (prefetch d left todo r).1.MemoryCanonical := by
  induction left generalizing todo r with
  | zero => exact h
  | succ left ih =>
    obtain ⟨s, a⟩ := r
    cases todo with
    | nil => exact h
    | cons n todo =>
      unfold prefetch
      split
      · exact h
      · split
        · exact ih h
        · split
          · exact ih (.of_fst (.fetchNode_fst h) ‹_›)
          · exact ih (.of_fst (.fetchNode_fst h) ‹_›)

theorem State.MemoryCanonical.fetchAhead_fst {s : State} {d : Domain} {n : Nat} {g : GNode} {inserted : Bool}
    (hs : s.MemoryCanonical) : (fetchAhead s d n g inserted).1.MemoryCanonical := .prefetch_fst hs

theorem Tile.Canon.releaseWoken {t : Tile} {from_ : Nat} (h : t.Canon) : (t.releaseWoken from_).Canon :=
  .foldl h fun _ _ h1 => .ite h1 h1

theorem Tile.Canon.startGroup {t : Tile} {rank from_ node : Nat} {g : GNode} {phase : BitVec 48} (h : t.Canon) :
    (t.startGroup rank from_ node g phase).Canon := by
  unfold Tile.startGroup
  refine .foldl h fun _ _ h1 => ?_
  split <;> exact h1

theorem Tile.Canon.startCompute {t : Tile} {rank from_ setUp node : Nat} {g : GNode} {phase : BitVec 48} (h : t.Canon) :
    (t.startCompute rank from_ setUp node g phase).Canon :=
  .ite (.foldl h fun _ _ h1 => .ite h1 (.ite h1 h1)) (.startGroup (.foldl h fun _ _ h1 => .ite h1 (.ite h1 h1)))

/-- Starts of handlers change no memory. -/
theorem Starting.copy_canon {a : Starting} {x : Invoc} {r : Nat} (h : a.dom.Canon) : (a.copy x r).1.dom.Canon := by
  unfold Starting.copy
  split
  · exact h
  · split
    · exact h
    · split
      · exact h
      · rename_i t ht _ _ _ _
        have hc : t.Canon := TilesCanon.find h ht
        exact .setTile h hc

theorem Starting.invoc_canon {a : Starting} {x : Invoc} (h : a.dom.Canon) : (a.invoc x).1.dom.Canon :=
  List.foldlRecOn (motive := fun acc : Starting × Invoc => acc.1.dom.Canon) _ _ h fun _ hb _ _ => Starting.copy_canon hb

theorem Domain.Canon.launchQueue {d : Domain} {from_ : Nat} (h : d.Canon) : (d.launchQueue from_).Canon :=
  List.foldlRecOn (motive := fun acc : Starting × List Invoc => acc.1.dom.Canon) _ _ h
    fun _ hb _ _ => Starting.invoc_canon hb

theorem State.MemoryCanonical.startPhase {s : State} {dom n : Nat} {g : GNode} {inserted : Bool} {nodes : List Nat}
    {entry : Bool} (h : s.MemoryCanonical) : (s.startPhase dom n g inserted nodes entry).MemoryCanonical := by
  unfold State.startPhase
  split
  · exact h
  · rename_i d heq
    have hd := h.dom heq
    split
    rename_i u ahead heq
    have hu : u.MemoryCanonical := .of_fst (.fetchAhead_fst (s := { s with free := s.free + 2 + nodes.length }) h) heq
    extract_lets _ _ _ budget d1 d2 d3 v
    have h1 : d1.Canon := .mapTiles hd fun _ ht => ht
    have h2 : d2.Canon := .ite h1 (.mapTiles h1 fun _ ht => .releaseWoken ht)
    have h3 : d3.Canon := .ite h2 (TilesCanon.map h2 fun _ ht => .ite ht (.startCompute ht))
    have hv : v.MemoryCanonical := .setDom hu h3
    split
    · exact .machineCheck hv
    · exact hv

theorem Keeps.snapshotRow {dom : Nat} {s : State} (h : s.MemoryCanonical) : Keeps (snapshotRow dom s) := by
  unfold Machine.snapshotRow
  split
  · exact .fault
  · rename_i heq
    have hd := h.dom heq
    exact .ite (.next (.setDom h (.launchQueue hd))) .fault

theorem State.MemoryCanonical.writeRank {s : State} {d : Domain} {rank x y : Nat} {transit : Bool} (hs : s.MemoryCanonical) :
    (s.writeRank d rank x y transit).MemoryCanonical := .vaWriteBytes hs

theorem State.MemoryCanonical.writeRanks {s : State} {d : Domain} {transit : Bool} (hs : s.MemoryCanonical) :
    (s.writeRanks d transit).MemoryCanonical := .foldl hs fun _ _ h => .writeRank h

theorem State.MemoryCanonical.beginSave {s : State} {dom node : Nat} {inserted : Bool} {goOn : State → State}
    (hs : s.MemoryCanonical) (hgoOn : ∀ u : State, u.MemoryCanonical → (goOn u).MemoryCanonical) :
    (s.beginSave dom node inserted goOn).MemoryCanonical := by
  unfold State.beginSave
  split
  · exact hs
  · rename_i heq
    have hd := hs.dom heq
    exact .ite (hgoOn _ (.post (.setDom hs hd))) (.setDom (.headerCount hs) hd)

theorem State.MemoryCanonical.beginMove {s : State} {dom n : Nat} {inserted : Bool} (h : s.MemoryCanonical) :
    (s.beginMove dom n inserted).MemoryCanonical := by
  unfold State.beginMove
  split
  · exact h
  · rename_i heq
    have hd := h.dom heq
    exact .setDom (.writeRanks h) hd

theorem State.MemoryCanonical.endGraph {s : State} {dom : Nat} (h : s.MemoryCanonical) :
    (s.endGraph dom).MemoryCanonical := by
  have hz : ∀ t : Tile, t.Canon → (slotNums.foldl (fun (t : Tile) i => t.setCtx i Ctx.zero) t).Canon := fun t ht =>
    .foldl ht fun t i ht => by
      unfold Tile.Canon
      rwa [setCtx_sram]
  unfold State.endGraph
  split
  · exact h
  · rename_i d heq
    extract_lets d' u
    have hd : d'.Canon := .mapTiles (h.dom heq) fun t ht => by
      unfold Tile.Canon
      dsimp only
      exact hz t ht
    have hu : u.MemoryCanonical := .setDom h hd
    split
    · exact .complete hu
    · exact hu

theorem State.MemoryCanonical.stepFive {s : State} {dom node : Nat} {inserted : Bool} {goOn : State → State}
    (hs : s.MemoryCanonical) (hgoOn : ∀ u : State, u.MemoryCanonical → (goOn u).MemoryCanonical) :
    (s.stepFive dom node inserted goOn).MemoryCanonical := by
  unfold State.stepFive
  split
  · exact hs
  · exact .ite (.beginSave hs fun _ h => hgoOn _ h) (.ite (.beginMove hs) (hgoOn _ hs))

theorem State.MemoryCanonical.proceed {s : State} {dom target : Nat} {entry : Bool} (h : s.MemoryCanonical) :
    (s.proceed dom target entry).MemoryCanonical := by
  unfold State.proceed
  split
  · exact h
  · split
    rename_i u r m heq
    have hu : u.MemoryCanonical := .of_fst (.reachFrom_fst h) heq
    extract_lets v w
    have hv : v.MemoryCanonical := .updDom hu fun _ hd => hd
    have hw : w.MemoryCanonical := .foldl hv fun _ _ hs => .updTile hs fun _ ht => ht
    split
    · exact .machineCheck hw
    · exact .post (.updDom hw fun _ hd => hd)
    · exact .ite (.endGraph hw) (.stepFive (.endGraph hw) fun _ hs => hs)
    · exact .ite (.startPhase hw) (.stepFive hw fun _ hs => .startPhase hs)

theorem Keeps.execBoundary {dom : Nat} {s : State} (h : s.MemoryCanonical) : Keeps (execBoundary dom s) := by
  unfold Machine.execBoundary
  split
  · exact .fault
  · rename_i heq
    have hd := h.dom heq
    exact .ite (.next (.proceed (.setDom h (.ite (.mapTiles hd fun _ h1 => h1) hd)))) .fault

theorem Keeps.execStraggler {dom : Nat} {s : State} (h : s.MemoryCanonical) : Keeps (execStraggler dom s) := by
  unfold Machine.execStraggler
  split
  · exact .fault
  · rename_i d heq
    have hd := h.dom heq
    split
    · extract_lets u v
      have hu : u.MemoryCanonical := .writeHost h
      have hv : v.MemoryCanonical := .post hu
      exact .next (.setDom hv hd)
    · exact .fault

end domain

section place

theorem State.MemoryCanonical.takePlan {s : State} {p : Place} {q : Plan} (h : s.MemoryCanonical) :
    (s.takePlan p q).MemoryCanonical :=
  .foldl (.foldl h fun _ _ h1 => .updDom h1 fun _ h2 => h2) fun _ _ h1 => .updDom h1 fun _ h2 => h2

theorem State.MemoryCanonical.dropPlans {s : State} (h : s.MemoryCanonical) : s.dropPlans.MemoryCanonical :=
  .intro h.hbm h.host h.cxl (.map h.doms fun _ h1 => .ite h1 h1)

theorem Keeps.execPlacementPlan {s : State} (h : s.MemoryCanonical) : Keeps (execPlacementPlan s) := by
  unfold Machine.execPlacementPlan
  split
  · exact .fault
  · split
    · exact .fault
    · split
      · dsimp only
        split
        · exact .next (.takePlan (.dropPlans h))
        · exact .next (.dropPlans h)
      · dsimp only
        split
        · exact .next (.takePlan h)
        · exact .fault

/-- The nonzero bytes of an image stand at rising addresses from its first one on, before its end. -/
theorem wfFrom_imageCells_append {l : List Byte} {m : Mem} : ∀ {at_ lo : Nat}, lo ≤ at_ → m.wfFrom (at_ + l.length) = true →
    Mem.wfFrom lo (imageCells at_ l ++ m) = true := by
  induction l with
  | nil => intro at_ lo hlo hm; exact wfFrom_mono hlo hm
  | cons b l ih =>
    intro at_ lo hlo hm
    have hm' : m.wfFrom (at_ + 1 + l.length) = true := by
      rwa [List.length_cons, show at_ + (l.length + 1) = at_ + 1 + l.length by omega] at hm
    by_cases hb : b = 0
    · simpa [imageCells, hb] using ih (lo := lo) (by omega) hm'
    · have h : Mem.wfFrom (at_ + 1) (imageCells (at_ + 1) l ++ m) = true := ih le_rfl hm'
      have he : imageCells at_ (b :: l) = (at_, b) :: imageCells (at_ + 1) l := by
        rw [imageCells, List.zipIdx_cons, List.filterMap_cons, if_neg hb]
        rfl
      rw [he, List.cons_append, Mem.wfFrom, decide_eq_true hlo, bne_iff_ne.mpr hb, h]
      rfl

/-- A launched tile holds CODE below CELL. -/
theorem Launch.tile_canon {l : Launch} {img : List Byte} {x y rank : Nat} : (l.tile img x y rank).Canon := by
  have hc : Mem.wfFrom (0 + (img.take l.codeSize).length)
      (imageCells l.carve.cellBase ((img.drop l.codeSize).take l.cellSize) ++ []) = true := by
    refine wfFrom_imageCells_append ?_ rfl
    have h : (img.take l.codeSize).length ≤ l.codeSize := List.length_take_le ..
    have hb : l.carve.cellBase = l.codeSize + 18 * l.frameSize := rfl
    omega
  rw [List.append_nil] at hc
  exact wfFrom_imageCells_append (le_refl 0) hc

theorem TilesCanon.tiles {l : Launch} {img : List Byte} {x0 y0 : Nat} : TilesCanon (l.tiles img x0 y0) := by
  intro p hp
  obtain ⟨r, -, rfl⟩ := List.mem_map.mp hp
  exact Launch.tile_canon

theorem State.MemoryCanonical.grantLaunch {s : State} {dom : Nat} {d : Domain} {x0 y0 : Nat} (hs : s.MemoryCanonical)
    (hd : d.Canon) : (s.grantLaunch dom d x0 y0).MemoryCanonical :=
  .proceed (.post (.kilnRead (.kilnRead (.setDom (.writeRanks (.setDom hs hd)) TilesCanon.tiles))))

theorem Keeps.execPlacementGrant {s : State} (h : s.MemoryCanonical) : Keeps (execPlacementGrant s) := by
  unfold Machine.execPlacementGrant
  split
  · exact .fault
  · split
    · exact .fault
    · rename_i p _ d heq
      have hd := h.dom heq
      have hp : DomsCanon (s.doms.map fun (x : Nat × Domain) =>
          (x.1, if x.2.plan = 3 then { x.2 with plan := 0 } else x.2)) := .map h.doms fun _ hd => .ite hd hd
      have hs : ∀ {u : State}, u.hbmMem = s.hbmMem → u.hostMem = s.hostMem → u.cxlMem = s.cxlMem →
          u.doms = s.doms.map (fun (x : Nat × Domain) => (x.1, if x.2.plan = 3 then { x.2 with plan := 0 } else x.2)) →
          u.MemoryCanonical := fun e1 e2 e3 e4 => .intro (e1 ▸ h.hbm) (e2 ▸ h.host) (e3 ▸ h.cxl) (e4 ▸ hp)
      split
      · extract_lets
        split
        · refine .next (.writeRanks (.intro h.hbm h.host h.cxl (.set hp ?_)))
          exact TilesCanon.map hd fun _ ht => ht
        · exact .next (.grantLaunch (hs rfl rfl rfl rfl) hd)
      · exact .fault

theorem Domain.Canon.loadImage {d : Domain} (h : d.Canon) : d.loadImage.Canon := by
  intro p hp
  obtain ⟨q, hq, rfl⟩ := List.mem_map.mp hp
  have hq := h _ (List.fst_mem_of_mem_zipIdx hq)
  dsimp only
  exact Tile.Canon.mapCtxs hq

theorem Keeps.execPreemptDone {dom : Nat} {s : State} (h : s.MemoryCanonical) : Keeps (execPreemptDone dom s) := by
  unfold Machine.execPreemptDone
  split
  · exact .fault
  · rename_i heq
    have hd := h.dom heq
    split
    · exact .ite (.next (.post (.setDom h hd))) .fault
    · exact .fault

theorem State.MemoryCanonical.replayRefused {s : State} {dom : Nat} {m : Msg} {cause : Nat} (h : s.MemoryCanonical) :
    (s.replayRefused dom m cause).MemoryCanonical := .fault h

theorem State.MemoryCanonical.replay {dom : Nat} {s : State} {m : Msg} (h : s.MemoryCanonical) :
    (State.replay dom s m).MemoryCanonical := by
  unfold State.replay
  split
  · exact h
  · rename_i d heq
    have hd := h.dom heq
    extract_lets rank
    clear_value rank
    cases m.kind <;> cases d.tiles.find rank <;> dsimp only
    case put.none => exact .replayRefused h
    case put.some t =>
      split
      · exact .updTile h fun _ ht => .landPut ht
      · exact h
      · exact .replayRefused h
    case reply.none | reply.some => exact .ite (.sourceFail h) (.deliver h)
    case combine.none => exact .recordRefusal h
    case combine.some t =>
      split
      · exact .recordRefusal (.combineMark h)
      · exact .updTile h fun _ ht => .combineDo ht
    case invoke.none | invoke.some =>
      have hq : (s.setDom dom (d.enqueue m).1).MemoryCanonical := .setDom h (.enqueue_fst hd)
      exact .ite h (.ite (.pitchOverflow hq) hq)
    case get.none => exact .refuse h
    case get.some t => exact .getTile h
    all_goals exact h

theorem State.MemoryCanonical.notice {s : State} {dom seq : Nat} {abort : Bool} (h : s.MemoryCanonical) :
    (s.notice dom seq abort).MemoryCanonical := by
  unfold State.notice
  split
  · exact h
  · exact .ite (.foldl (.updCmd h) fun s _ hs => .ite hs (.ite (.updTile hs fun _ ht => .setPoisAll ht) (.deliver hs)))
      (.ite h (.foldl (.updCmd h) fun _ _ hs => .dispatch hs))

theorem State.MemoryCanonical.resumePhase {s : State} {dom : Nat} (h : s.MemoryCanonical) :
    (s.resumePhase dom).MemoryCanonical := by
  unfold State.resumePhase
  split
  · exact h
  · rename_i d heq
    have hd := h.dom heq
    split
    · exact .setDom h hd
    · split
      · exact .machineCheck (.of_fst (.fetchNode_fst h) ‹_›)
      · exact .startPhase (.of_fst (.fetchNode_fst h) ‹_›)

theorem Keeps.execRestore {dom : Nat} {s : State} (h : s.MemoryCanonical) : Keeps (execRestore dom s) := by
  unfold Machine.execRestore
  split
  · exact .fault
  · rename_i heq
    have hd := h.dom heq
    split
    · exact .ite (.next (.resumePhase (.post (.headerCount (.headerCount
        (.foldl (.foldl (.setDom h (.loadImage hd)) fun _ _ h1 => .notice h1) fun _ _ h1 => .replay h1)))))) .fault
    · exact .fault

theorem Keeps.execTimeSliceExpiry {dom : Nat} {s : State} (h : s.MemoryCanonical) : Keeps (execTimeSliceExpiry dom s) := by
  unfold Machine.execTimeSliceExpiry
  split
  · exact .fault
  · rename_i heq
    have hd := h.dom heq
    split
    · exact .ite (.next (.setDom h hd)) .fault
    · exact .fault

theorem Keeps.execMigrationStreamDone {dom : Nat} {s : State} (h : s.MemoryCanonical) :
    Keeps (execMigrationStreamDone dom s) := by
  unfold Machine.execMigrationStreamDone
  split
  · exact .fault
  · rename_i heq
    have hd := h.dom heq
    split
    · exact .ite (.next (.resumePhase (.writeRanks (.setDom h (TilesCanon.map hd fun _ h1 => h1))))) .fault
    · exact .fault

theorem Keeps.execForwardRetire {dom : Nat} {s : State} (h : s.MemoryCanonical) : Keeps (execForwardRetire dom s) := by
  unfold Machine.execForwardRetire
  split
  · exact .next (.post h)
  · exact .fault

theorem State.MemoryCanonical.answerGone {s : State} {dom : Nat} {m : Msg} (h : s.MemoryCanonical) :
    (s.answerGone dom m).MemoryCanonical := .ite h (.respond h)

theorem State.MemoryCanonical.answerPool {s : State} {dom : Nat} {t : Tile} (hs : s.MemoryCanonical) :
    (s.answerPool dom t).MemoryCanonical := by
  unfold State.answerPool
  refine .foldl ?_ ?_
  · refine .foldl hs fun _ _ h => ?_
    split
    · exact .answerGone h
    · exact h
  · intro _ _ h
    split
    · exact .answerGone h
    · exact h

theorem State.MemoryCanonical.beginRelease {s : State} {dom seq : Nat} {d : Domain} (hs : s.MemoryCanonical) (hd : d.Canon) :
    (s.beginRelease dom seq d).MemoryCanonical := by
  have hp : (d.tiles.foldl (fun s p => s.answerPool dom p.2) s).MemoryCanonical := .foldl hs fun _ _ hs => .answerPool hs
  have hd' : (d.mapTiles fun t => { Tile.zero with x := t.x, y := t.y }).Canon := .mapTiles hd fun _ _ => wf_nil
  exact .foldl (.setDom hp hd') fun _ _ hs => .endFill hs

theorem Keeps.execReleaseDrainDone {dom : Nat} {s : State} (h : s.MemoryCanonical) : Keeps (execReleaseDrainDone dom s) := by
  unfold Machine.execReleaseDrainDone
  split
  · exact .fault
  · split
    · split
      · extract_lets u
        have hu : u.MemoryCanonical := .complete h
        exact .next (.intro hu.hbm hu.host hu.cxl (.erase hu.doms))
      · exact .fault
    · exact .fault

end place

section launch

theorem Keeps.decodeCmd {s : State} {act : State → List Word → State} (hs : s.MemoryCanonical)
    (hact : ∀ (u : State) (w : List Word), u.MemoryCanonical → (act u w).MemoryCanonical) : Keeps (decodeCmd s act) := by
  unfold Machine.decodeCmd
  split
  · exact .fault
  · exact .next (hact _ _ hs)

theorem State.MemoryCanonical.finish {s : State} {w : List Word} {status detail : Nat} (h : s.MemoryCanonical) :
    (s.finish w status detail).MemoryCanonical := .complete h

theorem Keeps.checkedCmd {s : State} {usesDom : Bool} {masks : List Word} {act : State → List Word → State}
    (hs : s.MemoryCanonical) (hact : ∀ (u : State) (w : List Word), u.MemoryCanonical → (act u w).MemoryCanonical) :
    Keeps (checkedCmd s usesDom masks act) := .decodeCmd hs fun _ _ h => .ite (hact _ _ h) (.finish h)

theorem Keeps.domainCmd {s : State} {masks : List Word} {act : State → List Word → Domain → State} (hs : s.MemoryCanonical)
    (hact : ∀ (u : State) (w : List Word) (d : Domain), u.MemoryCanonical → d.Canon → (act u w d).MemoryCanonical) :
    Keeps (domainCmd s masks act) := by
  unfold Machine.domainCmd
  split
  · exact .fault
  · refine .checkedCmd hs fun _ _ h => ?_
    split
    · rename_i heq1
      have hd := h.dom heq1
      exact hact _ _ _ h hd
    · exact .finish h

theorem State.MemoryCanonical.resetHeaders {s : State} {l : Launch} (h : s.MemoryCanonical) :
    (s.resetHeaders l).MemoryCanonical := .headerCount (.headerCount (.headerCount (.vaWrite64 h)))

theorem State.MemoryCanonical.acceptLaunch {s : State} {seq n : Nat} {r : List Word} (h : s.MemoryCanonical) :
    (s.acceptLaunch seq n r).MemoryCanonical := by
  unfold State.acceptLaunch
  extract_lets _ _ _ d _ u
  have hd : d.Canon := Domain.Canon.zero.of_tiles_eq rfl
  have hu : u.MemoryCanonical := .setDom (.resetHeaders h) hd
  clear_value u
  exact hu

theorem State.MemoryCanonical.checkRead {s : State} {r : List Word} (h : s.MemoryCanonical) :
    (s.checkRead r).MemoryCanonical :=
  .ite h (.ite (.foldl h fun _ _ h1 => .kilnWalk h1) (.kilnRead (.kilnRead (.foldl h fun _ _ h1 => .kilnWalk h1))))

theorem Keeps.execLaunch {s : State} (h : s.MemoryCanonical) : Keeps (execLaunch s) := by
  unfold Machine.execLaunch
  refine .checkedCmd h fun _ _ h1 => ?_
  split
  · exact .finish h1
  · split
    · dsimp only
      split <;> exact .finish (.checkRead h1)
    · dsimp only
      split
      · exact .finish (.checkRead h1)
      · exact .acceptLaunch (.checkRead h1)

theorem Keeps.execLaunchReenter {s : State} (h : s.MemoryCanonical) : Keeps (execLaunchReenter s) := by
  refine .domainCmd h fun s w d hs hd => .ite (.finish hs) (.ite (.finish hs) (.proceed (.setDom hs ?_)))
  have hm : (d.mapTiles fun t => { t with rotation := 0 }).Canon := .mapTiles hd fun _ ht => ht
  exact hm.of_tiles_eq rfl

theorem Keeps.execRelease {s : State} (h : s.MemoryCanonical) : Keeps (execRelease s) := by
  refine .domainCmd h fun s w d hs hd => ?_
  have hr : (s.beginRelease (cmdDom w) (cmdSeq w) d).MemoryCanonical := .beginRelease hs hd
  split
  · exact .finish hs
  · exact .finish hs
  · have hf : ((s.beginRelease (cmdDom w) (cmdSeq w) d).finish w 0 0).MemoryCanonical := .finish hr
    exact .intro hf.hbm hf.host hf.cxl (.erase hf.doms)
  · exact hr

end launch

end Sys2Proof.Machine
end

