-- ==== Sys2Proof/Proofs/CanonicalDevice.lean ====
section
/-! SUPPORT. The canonical form of memory: the links, the commands of Kiln and the accesses of the host. -/

namespace Sys2Proof.Machine

section link

theorem State.MemoryCanonical.leave {s : State} {p id : Nat} {m : Msg} (h : s.MemoryCanonical) :
    (s.leave p id m).MemoryCanonical := by
  unfold State.leave
  split
  · exact h
  · exact .ite h (.ite h h)

theorem State.MemoryCanonical.leaveAll {s : State} (h : s.MemoryCanonical) : s.leaveAll.MemoryCanonical := by
  unfold State.leaveAll
  refine .foldl h fun _ _ h1 => ?_
  split
  · exact .ite (.ite (.leave h1) (.toPackage h1)) h1
  · exact h1

theorem State.MemoryCanonical.endPuts {s : State} {pkg : Nat} (h : s.MemoryCanonical) : (s.endPuts pkg).MemoryCanonical :=
  .foldl h fun _ _ h1 => .endFill h1

theorem State.MemoryCanonical.announceIn {s : State} {pkg inc : BitVec 16} (h : s.MemoryCanonical) :
    (s.announceIn pkg inc).MemoryCanonical := .ite h (.endPuts h)

theorem State.MemoryCanonical.turnAway {s : State} {m : Msg} {status : Nat} (h : s.MemoryCanonical) :
    (s.turnAway m status).MemoryCanonical := .dispatch h

theorem State.MemoryCanonical.requestIn {s : State} {m : Msg} {dinc : Nat} (h : s.MemoryCanonical) :
    (s.requestIn m dinc).MemoryCanonical := by
  unfold State.requestIn
  split
  · exact .turnAway h
  · split
    · exact .turnAway h
    · split
      · split
        · exact .dispatch h
        · exact h
      · exact h

theorem State.MemoryCanonical.responseIn {s : State} {port spkg : Nat} {kind : MsgKind} {h : List Byte}
    {data : List (List Byte)} {tail : Word} (hs : s.MemoryCanonical) :
    (s.responseIn port spkg kind h data tail).MemoryCanonical := by
  unfold State.responseIn
  split
  · split
    · dsimp only
      split
      · split
        · split
          · exact .ite (.dispatch hs) hs
          · exact hs
        · exact hs
      · exact .ite hs (.ite hs hs)
    · dsimp only
      split
      · split
        · split
          · exact .ite (.dispatch hs) hs
          · exact hs
        · exact hs
      · exact .ite hs (.ite hs hs)
  · split
    · dsimp only
      split
      · split
        · split
          · exact .ite (.dispatch hs) hs
          · exact hs
        · exact hs
      · exact .ite hs (.ite hs hs)
    · dsimp only
      split
      · split
        · split
          · exact .ite (.dispatch hs) hs
          · exact hs
        · exact hs
      · exact .ite hs (.ite hs hs)

theorem State.MemoryCanonical.packetIn {s : State} {port : Nat} {beats : List (List Byte)} (h : s.MemoryCanonical) :
    (s.packetIn port beats).MemoryCanonical := by
  unfold State.packetIn
  split
  · exact .ite h (.ite (.announceIn h) h)
  · dsimp only
    split
    · exact h
    · split
      · exact .announceIn h
      · split
        · exact h
        · split
          · exact .turnAway h
          · split
            · exact .requestIn h
            · exact .requestIn h
            · exact .requestIn h
            · exact .requestIn h
            · exact .ite h (.ite h (.responseIn h))

theorem Keeps.execLinkFlit {port : Nat} {bytes : List Byte} {s : State} (h : s.MemoryCanonical) :
    Keeps (execLinkFlit port bytes s) := by
  unfold Machine.execLinkFlit
  split
  · exact .fault
  · exact .ite (.ite (.next h) (.ite (.next h) (.ite (.next h) (.next (.foldl h fun _ _ h1 => .packetIn h1))))) .fault

theorem State.MemoryCanonical.rehomeOne {port : Nat} {s : State} {beats : List (List Byte)} (h : s.MemoryCanonical) :
    (State.rehomeOne port s beats).MemoryCanonical := by
  unfold State.rehomeOne
  dsimp only
  split
  · exact h
  · split <;> exact h

theorem State.MemoryCanonical.rehome {s : State} {port : Nat} {x : Port} (h : s.MemoryCanonical) :
    (s.rehome port x).MemoryCanonical := .foldl h fun _ _ h1 => .rehomeOne h1

theorem State.MemoryCanonical.retrained {s : State} {port : Nat} {x : Port} {ok : Bool} (h : s.MemoryCanonical) :
    (s.retrained port x ok).MemoryCanonical := .ite h (.ite h (.rehome h))

theorem Keeps.execPortRetrain {port : Nat} {ok : Bool} {s : State} (h : s.MemoryCanonical) :
    Keeps (execPortRetrain port ok s) := by
  unfold Machine.execPortRetrain
  split
  · exact .fault
  · exact .ite (.next (.retrained h)) .fault

theorem State.MemoryCanonical.portTick {s : State} {port : Nat} (h : s.MemoryCanonical) :
    (s.portTick port).MemoryCanonical := by
  unfold State.portTick
  split
  · exact h
  · exact .ite (.retrained h) (.ite (.ite h (.rehome h)) h)

theorem State.MemoryCanonical.linkTick {s : State} (h : s.MemoryCanonical) : s.linkTick.MemoryCanonical :=
  .foldl (.leaveAll h) fun _ _ h1 => .portTick h1

theorem Keeps.execAnnounce {pkg inc : BitVec 16} {s : State} (h : s.MemoryCanonical) : Keeps (execAnnounce pkg inc s) :=
  .next (.announceIn h)

theorem Keeps.execAnnouncePeriodic {s : State} (h : s.MemoryCanonical) : Keeps (execAnnouncePeriodic s) :=
  .ite (.next h) .fault

theorem Keeps.execRequestResend {req : Nat} {s : State} (h : s.MemoryCanonical) : Keeps (execRequestResend req s) := by
  unfold Machine.execRequestResend
  split
  · exact .next (.toPackage h)
  · exact .fault

end link

section kiln

theorem Keeps.execContinue {s : State} (h : s.MemoryCanonical) : Keeps (execContinue s) := by
  unfold Machine.execContinue
  refine .domainCmd h fun _ _ _ h1 _ => ?_
  split
  · exact .finish h1
  · split
    · dsimp only
      split
      · rename_i heq2
        exact .machineCheck (.of_fst (.fetchNode_fst (.finish h1)) heq2)
      · rename_i heq2
        exact .proceed (.of_fst (.fetchNode_fst (.finish h1)) heq2)
    · dsimp only
      split
      · rename_i heq2
        exact .machineCheck (.of_fst (.fetchNode_fst (.finish h1)) heq2)
      · rename_i heq2
        exact .proceed (.of_fst (.fetchNode_fst (.finish h1)) heq2)

theorem Keeps.execExtend {s : State} (h : s.MemoryCanonical) : Keeps (execExtend s) :=
  .domainCmd h fun _ _ _ h1 h2 => .ite (.finish h1) (.ite (.finish (.setDom h1 h2)) (.finish h1))

theorem Tile.Canon.dropWaiter {t : Tile} {o : Option Nat} (h : t.Canon) : (t.dropWaiter o).Canon := by
  unfold Tile.dropWaiter
  split
  · exact h
  · exact .ite h (.setWord1 h)

theorem State.MemoryCanonical.breakTile {s : State} {dom rank : Nat} {t : Tile} (hs : s.MemoryCanonical) :
    (s.breakTile dom rank t).MemoryCanonical := by
  unfold State.breakTile
  refine .foldl hs fun _ _ h => ?_
  split
  · exact h
  · exact .updTile (.raiseTrap h) fun _ h1 => .dropWaiter h1

theorem Keeps.execBreak {s : State} (h : s.MemoryCanonical) : Keeps (execBreak s) :=
  .domainCmd h fun _ _ _ h1 _ => .ite (.finish (.foldl h1 fun _ _ h3 => .breakTile h3)) (.finish h1)

theorem Keeps.faultComplete {s : State} {abort : Bool} (h : s.MemoryCanonical) : Keeps (faultComplete s abort) :=
  .domainCmd h fun _ _ _ h1 h2 => .finish (.ite (.setDom h1 h2) (.notice h1))

theorem Keeps.execFaultCompleteRetry {s : State} (h : s.MemoryCanonical) : Keeps (execFaultCompleteRetry s) :=
  .faultComplete h

theorem Keeps.execFaultCompleteAbort {s : State} (h : s.MemoryCanonical) : Keeps (execFaultCompleteAbort s) :=
  .faultComplete h

theorem Keeps.execHandler {s : State} (h : s.MemoryCanonical) : Keeps (execHandler s) :=
  .domainCmd h fun _ _ _ h1 h2 => .ite (.finish h1) (.ite (.finish h1) (.setDom h1 h2))

theorem Keeps.execSlice {s : State} (h : s.MemoryCanonical) : Keeps (execSlice s) :=
  .domainCmd h fun _ _ _ h1 h2 => .finish (.setDom h1 h2)

theorem Keeps.execMigrate {s : State} (h : s.MemoryCanonical) : Keeps (execMigrate s) :=
  .domainCmd h fun _ _ _ h1 h2 => .ite (.finish h1) (.ite (.finish (.setDom h1 h2)) (.finish h1))

theorem Keeps.execInvalidateRange {s : State} (h : s.MemoryCanonical) : Keeps (execInvalidateRange s) :=
  .checkedCmd h fun _ _ h1 => .ite (.finish h1) h1

theorem Keeps.execInvalidatePkgid {s : State} (h : s.MemoryCanonical) : Keeps (execInvalidatePkgid s) :=
  .checkedCmd h fun _ _ h1 => h1

theorem Keeps.execInvalidateComplete {s : State} (h : s.MemoryCanonical) : Keeps (execInvalidateComplete s) := by
  unfold Machine.execInvalidateComplete
  dsimp only
  split
  · exact .fault
  · exact .next (.complete h)

theorem Keeps.execTableRoot {s : State} (h : s.MemoryCanonical) : Keeps (execTableRoot s) :=
  .checkedCmd h fun _ _ h1 => .ite (.finish h1) (.finish h1)

theorem State.MemoryCanonical.memstateBlock_fst {s : State} {publish : Bool} {tag : BitVec 6} {pa : Nat}
    (h : s.MemoryCanonical) : (s.memstateBlock publish tag pa).1.MemoryCanonical := by
  have hr : (s.readGrans 0 [pa / 2048 * 32]).MemoryCanonical := .readGrans h
  unfold State.memstateBlock
  generalize s.readGrans 0 [pa / 2048 * 32] = u at hr ⊢
  split <;> dsimp only <;> split <;> exact hr

theorem State.MemoryCanonical.memstateFrom_fst {s : State} {publish : Bool} {tag : BitVec 6} {va i same n : Nat}
    (h : s.MemoryCanonical) : (s.memstateFrom publish tag va i same n).1.MemoryCanonical := by
  induction n generalizing s i same with
  | zero => exact h
  | succ n ih =>
    unfold State.memstateFrom
    split
    · exact .kilnWalk h
    · split
      · exact ih (.memstateBlock_fst (.kilnWalk h))
      · exact .kilnWalk h

theorem Keeps.memstate {s : State} {publish : Bool} (h : s.MemoryCanonical) : Keeps (memstate s publish) :=
  .ctlRow h fun _ h1 => .decodeCmd h1 fun _ _ h2 => .ite (.finish h2) (.finish (.memstateFrom_fst h2))

theorem Keeps.execMemstateClear {s : State} (h : s.MemoryCanonical) : Keeps (execMemstateClear s) := .memstate h

theorem Keeps.execMemstatePublish {s : State} (h : s.MemoryCanonical) : Keeps (execMemstatePublish s) := .memstate h

theorem Keeps.execCounterRead {s : State} (h : s.MemoryCanonical) : Keeps (execCounterRead s) :=
  .checkedCmd h fun _ _ h1 => .finish (.intro h1.hbm (wf_writeBytes _ _ h1.host) h1.cxl h1.doms)

theorem Keeps.execCounterReset {s : State} (h : s.MemoryCanonical) : Keeps (execCounterReset s) :=
  .checkedCmd h fun _ _ h1 => .finish (.ite h1 h1)

theorem Keeps.execHealth {s : State} (h : s.MemoryCanonical) : Keeps (execHealth s) := by
  exact .checkedCmd h fun _ _ hs => .finish (.writeHost hs)

theorem Keeps.execAttest {s : State} (h : s.MemoryCanonical) : Keeps (execAttest s) := by
  exact .checkedCmd h fun _ _ hs => .finish (.writeHost hs)

theorem Keeps.execPortmap {s : State} (h : s.MemoryCanonical) : Keeps (execPortmap s) :=
  .checkedCmd h fun _ _ h1 => .finish h1

theorem Keeps.execPeer {s : State} (h : s.MemoryCanonical) : Keeps (execPeer s) := .checkedCmd h fun _ _ h1 => .finish h1

theorem Keeps.execConfigScrub {s : State} (h : s.MemoryCanonical) : Keeps (execConfigScrub s) :=
  .checkedCmd h fun _ _ h1 => .ite (.finish h1) (.finish h1)

theorem Keeps.execConfigIdleEntry {s : State} (h : s.MemoryCanonical) : Keeps (execConfigIdleEntry s) :=
  .checkedCmd h fun _ _ h1 => .ite (.finish h1) (.finish h1)

theorem Keeps.execExtentReleased {s : State} (h : s.MemoryCanonical) : Keeps (execExtentReleased s) :=
  .checkedCmd h fun _ _ h1 => .ite (.finish h1) (.finish h1)

theorem Keeps.execExtentAdded {ext port base len : Nat} {s : State} (h : s.MemoryCanonical) :
    Keeps (execExtentAdded ext port base len s) := .ite (.next (.post h)) .fault

theorem Keeps.execExtentReleaseRequest {ext : Nat} {s : State} (h : s.MemoryCanonical) :
    Keeps (execExtentReleaseRequest ext s) := .ite (.next (.post h)) .fault

end kiln

section device

theorem Keeps.execCmdtail {value : Word} {s : State} (h : s.MemoryCanonical) : Keeps (execCmdtail value s) := .next h

theorem Keeps.execEvhead {value : Word} {s : State} (h : s.MemoryCanonical) : Keeps (execEvhead value s) := .next (.evFlush h)

theorem Keeps.execBar0RegisterWrite {offset : Nat} {value : Word} {s : State} (h : s.MemoryCanonical) :
    Keeps (execBar0RegisterWrite offset value s) := .next (.evFlush h)

theorem Keeps.execDirect {offset : Nat} {bytes : List Byte} {s : State} (h : s.MemoryCanonical) :
    Keeps (execDirect offset bytes s) := .ite (.next h) (.next h)

theorem State.MemoryCanonical.hostGranule_fst {s : State} {pa : Nat} {bytes : List Byte} (h : s.MemoryCanonical) :
    (s.hostGranule pa bytes).1.MemoryCanonical := by
  have hr : (s.readGrans 3 [pa / 2048 * 32]).MemoryCanonical := .readGrans h
  unfold State.hostGranule
  generalize s.readGrans 3 [pa / 2048 * 32] = u at hr ⊢
  dsimp only
  split
  · exact hr
  · have hv : (if bytes.length < 64 then u.readGrans 3 [pa / 64]
        else { u with hbmFailing := u.hbmFailing.erase (pa / 64) }).MemoryCanonical := .ite (.readGrans hr) hr
    exact .intro (wf_writeBytes _ _ hv.hbm) hv.host hv.cxl hv.doms

theorem State.MemoryCanonical.hostWriteFrom_fst {s : State} {pa : Nat} {bytes : List Byte} {dropped : List Nat} {n : Nat}
    (h : s.MemoryCanonical) : (s.hostWriteFrom pa bytes dropped n).1.MemoryCanonical := by
  induction n generalizing s pa bytes dropped with
  | zero => exact h
  | succ n ih =>
    unfold State.hostWriteFrom
    split
    · exact h
    · exact ih (.hostGranule_fst h)

theorem Keeps.execHostWrite {space : HostSpace} {addr : Nat} {bytes : List Byte} {s : State} (h : s.MemoryCanonical) :
    Keeps (execHostWrite space addr bytes s) := by
  unfold Machine.execHostWrite
  split
  · exact .next (.intro h.hbm (wf_writeBytes _ _ h.host) h.cxl h.doms)
  · extract_lets pa l
    have hw : (s.hostWriteFrom pa l [] (l.length + 1)).1.MemoryCanonical := .hostWriteFrom_fst h
    generalize s.hostWriteFrom pa l [] (l.length + 1) = x at hw ⊢
    exact .next (.foldl hw fun _ _ hs => hs)

theorem Keeps.execHostRead {space : HostSpace} {addr len : Nat} {s : State} (h : s.MemoryCanonical) :
    Keeps (execHostRead space addr len s) := by
  unfold Machine.execHostRead
  split
  · exact .next h
  · exact .next (.readGrans h)

theorem Keeps.readConfig {offset len : Nat} {s : State} (h : s.MemoryCanonical) : Keeps (readConfig offset len s) := .next h

theorem Keeps.readBar0 {offset : Nat} {s : State} (h : s.MemoryCanonical) : Keeps (readBar0 offset s) := .next h

theorem Keeps.failSram {dom rank gran : Nat} {on : Bool} {s : State} (h : s.MemoryCanonical) :
    Keeps (failSram dom rank gran on s) := .next (.updTile h fun _ h1 => h1)

theorem State.MemoryCanonical.miscorrect {s : State} {gran : Nat} {errs : AMap (BitVec 16)} {k : Nat} {v : BitVec 16}
    (h : s.MemoryCanonical) : (s.miscorrect gran errs k v).MemoryCanonical := by
  have hf : (s.flipData gran (addError errs k v)).MemoryCanonical := .flipData h
  unfold State.miscorrect
  extract_lets all u v
  have hv : v.MemoryCanonical := by
    subst v
    split <;> exact hf
  exact hv

theorem Keeps.failHbm {gran sym : Nat} {err : BitVec 16} {s : State} (h : s.MemoryCanonical) :
    Keeps (failHbm gran sym err s) := by
  unfold Machine.failHbm
  split
  · dsimp only
    split
    · exact .next h
    · split
      · exact .next (.miscorrect h)
      · exact .next h
  · exact .fault

theorem Keeps.failTile {die row pos : Nat} {s : State} (h : s.MemoryCanonical) : Keeps (failTile die row pos s) :=
  .ite (.next h) .fault

theorem Keeps.failBoot {step : Nat} {s : State} (h : s.MemoryCanonical) : Keeps (failBoot step s) := .next h

theorem Keeps.failFlash {on : Bool} {s : State} (h : s.MemoryCanonical) : Keeps (failFlash on s) := .next h

theorem State.MemoryCanonical.cold {s : State} (h : s.MemoryCanonical) : s.cold.MemoryCanonical := by
  have hr : State.reset.MemoryCanonical := .reset
  exact .intro hr.hbm h.host h.cxl hr.doms

theorem Keeps.execColdReset {s : State} (h : s.MemoryCanonical) : Keeps (execColdReset s) := .next (.cold h)

theorem State.MemoryCanonical.bootSteps {s : State} {upTo : Nat} (h : s.MemoryCanonical) :
    (s.bootSteps upTo).MemoryCanonical := by
  unfold State.bootSteps
  extract_lets s1 s2 s3 s4
  have h1 : s1.MemoryCanonical := .ite h h
  have h2 : s2.MemoryCanonical := .ite (.intro wf_nil h1.host h1.cxl h1.doms) h1
  have h3 : s3.MemoryCanonical := .ite h2 h2
  have h4 : s4.MemoryCanonical := .ite h3 h3
  exact .ite h4 h4

theorem Keeps.execBringUp {s : State} (h : s.MemoryCanonical) : Keeps (execBringUp s) := by
  unfold Machine.execBringUp
  split
  · exact .fault
  · dsimp only
    split <;> exact .next (.bootSteps h)

theorem Keeps.execThermalTrip {s : State} (h : s.MemoryCanonical) : Keeps (execThermalTrip s) := by
  have hc : s.cold.MemoryCanonical := .cold h
  exact .next hc

theorem Keeps.execThrottleChange {level : Nat} {s : State} (h : s.MemoryCanonical) : Keeps (execThrottleChange level s) :=
  .ite (.next h) .fault

theorem Keeps.hotThrottle {s : State} (h : s.MemoryCanonical) : Keeps (hotThrottle s) := .ite (.next h) .fault

theorem Keeps.readTemperature {hbm : Bool} {n deg : Nat} {s : State} (h : s.MemoryCanonical) :
    Keeps (readTemperature hbm n deg s) := .ite (.next (.ite h h)) .fault

theorem Keeps.execD3hotEntry {s : State} (h : s.MemoryCanonical) : Keeps (execD3hotEntry s) := .ite (.next h) .fault

theorem Keeps.execD3coldEntry {s : State} (h : s.MemoryCanonical) : Keeps (execD3coldEntry s) := by
  have hc : s.cold.MemoryCanonical := .cold h
  exact .next hc

theorem State.MemoryCanonical.hbmAsleep {s : State} (h : s.MemoryCanonical) : s.hbmAsleep.MemoryCanonical :=
  .foldl h fun _ _ h1 => h1

theorem Keeps.execD0Entry {s : State} (h : s.MemoryCanonical) : Keeps (execD0Entry s) := by
  unfold Machine.execD0Entry
  split
  · exact .fault
  · exact .next h
  · exact .next (.cold h)

end device

end Sys2Proof.Machine
end

