-- ==== Sys2Proof/Proofs/CanonicalStep.lean ====
section
/-! SUPPORT and PROOF. Every row of the hardware, every input and every instruction keeps memory canonical, and so does every step. -/

namespace Sys2Proof.Machine

section pieces

theorem State.MemoryCanonical.fetchRead {s : State} {c : Cur} {t : Tile} (hs : s.MemoryCanonical) :
    (s.fetchRead c t).MemoryCanonical := .ite hs (.updTile hs fun _ h => h)

theorem Tile.Canon.issued {t : Tile} {det : Bool} {now i : Nat} {ends : Bool} (h : t.Canon) :
    (t.issued det now i ends).Canon := .ite (.countPassed h) h

theorem State.MemoryCanonical.afterIssue {s : State} {c : Cur} {det : Bool} {old : Ctx} (h : s.MemoryCanonical) :
    (s.afterIssue c det old).MemoryCanonical := .updTile h fun _ h1 => .ite (.issued h1) h1

theorem State.MemoryCanonical.takeInput {s : State} {p : Nat × Input} (h : s.MemoryCanonical) :
    (s.takeInput p).MemoryCanonical := by
  unfold State.takeInput
  split
  · exact .leaveCtls h
  · exact h

theorem Keeps.resolveRow {dom rank ctx : Nat} {s : State} (h : s.MemoryCanonical) : Keeps (resolveRow dom rank ctx s) := by
  unfold Machine.resolveRow
  split
  · exact .fault
  · dsimp only
    split
    · exact .ite (.next (.updTile h fun _ h1 => .squash h1)) .fault
    · split
      · exact .ite (.next (.takeSpecTrap h)) .fault
      · exact .fault

theorem Tile.Canon.pruneYield {t : Tile} (h : t.Canon) : t.pruneYield.Canon := .mapCtxs h

theorem Tile.Canon.tickTile {d : Domain} {now wait : Nat} {t : Tile} (ht : t.Canon) : (d.tickTile now wait t).Canon :=
  .ite (.ite (.countPassed (.pruneYield ht)) (.pruneYield ht))
    (.driveVote (.ite (.countPassed (.pruneYield ht)) (.pruneYield ht)))

theorem Domain.Canon.tick {d : Domain} {now free : Nat} (h : d.Canon) : (d.tick now free).Canon := by
  unfold Domain.tick
  extract_lets d'
  have hd : d'.Canon := .mapTiles h fun _ ht => ht
  split
  · exact TilesCanon.map hd fun _ ht => .tickTile ht
  · split <;> exact hd

theorem State.MemoryCanonical.tickTime {s : State} (h : s.MemoryCanonical) : s.tickTime.MemoryCanonical := .ite h h

theorem State.MemoryCanonical.tick {s : State} (h : s.MemoryCanonical) : s.tick.MemoryCanonical := by
  unfold State.tick
  extract_lets u n
  have hu : u.MemoryCanonical := .linkTick h
  exact .tickTime (.intro hu.hbm hu.host hu.cxl (.map hu.doms fun _ hd => .tick hd))

end pieces

section rows

/-- A row that keeps memory canonical. -/
def RowKeeps (f : Row) : Prop := ∀ s : State, s.MemoryCanonical → Keeps (f s)

/-- Every row of the list keeps memory canonical. -/
def RowsKeep (l : List Row) : Prop := ∀ f ∈ l, RowKeeps f

theorem RowsKeep.nil : RowsKeep [] := fun _ hf => absurd hf List.not_mem_nil

theorem RowsKeep.cons {f : Row} {l : List Row} (hf : RowKeeps f) (hl : RowsKeep l) : RowsKeep (f :: l) :=
  List.forall_mem_cons.mpr ⟨hf, hl⟩

theorem RowsKeep.single {f : Row} (hf : RowKeeps f) : RowsKeep [f] := .cons hf .nil

theorem RowsKeep.append {l m : List Row} (hl : RowsKeep l) (hm : RowsKeep m) : RowsKeep (l ++ m) :=
  List.forall_mem_append.mpr ⟨hl, hm⟩

theorem RowsKeep.map {α : Type} {f : α → Row} {l : List α} (h : ∀ a, RowKeeps (f a)) : RowsKeep (l.map f) := fun g hg => by
  obtain ⟨a, -, rfl⟩ := List.mem_map.mp hg
  exact h a

theorem RowsKeep.flatMap {α : Type} {f : α → List Row} {l : List α} (h : ∀ a, RowsKeep (f a)) : RowsKeep (l.flatMap f) :=
  fun g hg => by
    obtain ⟨a, -, hg⟩ := List.mem_flatMap.mp hg
    exact h a g hg

theorem RowsKeep.ite {c : Prop} [Decidable c] {l m : List Row} (hl : RowsKeep l) (hm : RowsKeep m) :
    RowsKeep (if c then l else m) := by
  split <;> assumption

theorem RowsKeep.tilesWhere {s : State} {p : DomStatus → Bool} {f : Nat → Nat → Tile → List Row}
    (h : ∀ d r t, RowsKeep (f d r t)) : RowsKeep (s.tilesWhere p f) :=
  .flatMap fun _ => .ite (.flatMap fun _ => h _ _ _) .nil

theorem firstDueRow_some {s u : State} {l : List Row} (h : s.MemoryCanonical) (hl : RowsKeep l)
    (hu : firstDueRow s l = some u) : u.MemoryCanonical := by
  induction l with
  | nil => cases hu
  | cons f l ih =>
    obtain ⟨hf, hl⟩ := List.forall_mem_cons.mp hl
    unfold firstDueRow at hu
    split at hu
    · exact Option.some.inj hu ▸ (hf s h).state ‹_›
    · exact ih hl hu

theorem stageRow_some {s u : State} {stage : Nat} {l : List Row} (h : s.MemoryCanonical) (hl : RowsKeep l)
    (hu : s.stageRow stage l = some u) : u.MemoryCanonical := by
  unfold State.stageRow at hu
  split at hu
  · exact firstDueRow_some (s := { s with stage }) h hl hu
  · cases hu

end rows

/-- Every instruction and every row of the opcode table keeps memory canonical. -/
theorem Keeps.exec {i : Instr} {s : State} (h : s.MemoryCanonical) : Keeps (exec i s) := by
  cases i with
  | add | sub | and | or | xor | andn | shl | shr | sra | slt | sltu | seq | sne | min | max | minu | maxu | bfx | bfxS |
    ptags | mul | mulh | mulhu | cAdd | cSub | cMov | cAnd | cOr | cXor =>
    dsimp only [Machine.exec]
    exact .alu2 h
  | sel | bfi =>
    dsimp only [Machine.exec]
    exact .alu3 h
  | clz | ctz | popc | sextB | sextH | sextW | ptagx | addi | andi | ori | xori | shli | shri | srai | slti | sltiu | ptagi |
    cAddi | cShli | cShri =>
    dsimp only [Machine.exec]
    exact .alu1 h
  | padd | paddi =>
    dsimp only [Machine.exec]
    exact .ptrAddIssue h
  | lui | addpc | sync | yield | phase | eli | emovg | vins | vsel | vcvt | vcompr | kpop | kmovG | rdcyc | rdret | ptst |
    ptstV | ptstAcc =>
    dsimp only [Machine.exec]
    exact .issue h fun _ h1 => .fin h1
  | div | divu | rem | remu =>
    dsimp only [Machine.exec]
    exact .divIssue h
  | beq | bne | blt | bge | bltu | bgeu =>
    dsimp only [Machine.exec]
    exact .br32 h
  | jal | cJ =>
    dsimp only [Machine.exec]
    exact .jalIssue h
  | jalr | jr | cRet =>
    dsimp only [Machine.exec]
    exact .jrIssue h
  | ldb | ldh | ldw | ldd | ldbu | ldhu | ldwu =>
    dsimp only [Machine.exec]
    exact .ld32 h
  | ldp => exact .execLdp h
  | stb | sth | stw | std =>
    dsimp only [Machine.exec]
    exact .st32 h
  | stp | cStd =>
    dsimp only [Machine.exec]
    exact .storeIssue h
  | bopen => exact .execBopen h
  | bcommit => exact .execBcommit h
  | bclr => exact .execBclr h
  | bwait | vqmx =>
    dsimp only [Machine.exec]
    exact .issue h fun _ h1 => .bind fun _ => .bind fun _ => .fin h1
  | bstat | emov | vext | vdq | vpack | vunpk | vred | vscan | kmov | mwait | mwaitAll | mfc =>
    dsimp only [Machine.exec]
    exact .issue h fun _ h1 => .bind fun _ => .fin h1
  | barm => exact .execBarm h
  | bpois => exact .execBpois h
  | bfill => exact .execBfill h
  | cld | cst | cadd | cmin | cmax | cminu | cmaxu | cand | cor | cxor | cxchg | ccas =>
    dsimp only [Machine.exec]
    exact .cellIssue h
  | cdecf => exact .execCdecf h
  | fence => exact .execFence h
  | tbar => exact .execTbar h
  | tend => exact .execTend h
  | spawn => exact .execSpawn h
  | await => exact .execAwait h
  | abinit => exact .execAbinit h
  | vadd | vsub | vmul | vfma | vfms | vfnma =>
    dsimp only [Machine.exec]
    exact .vArith h
  | vmin | vmax | vabs | vneg | vand | vor | vxor | vshl | vshr | vsra | vadds | vsubs | vmov | vclass =>
    dsimp only [Machine.exec]
    exact .vBits h
  | vdot => exact .execVdot h
  | vbcast | viota =>
    dsimp only [Machine.exec]
    exact .vIssue h
  | vrcp | vrsq | vsqrt | vexp2 | vlog2 =>
    dsimp only [Machine.exec]
    exact .vFn1 h
  | vdiv => exact .execVdiv h
  | vcmpeq | vcmpne | vcmplt | vcmple =>
    dsimp only [Machine.exec]
    exact .vCompare h
  | vqdx => exact .execVqdx h
  | vperm | vrot =>
    dsimp only [Machine.exec]
    exact .vMove h
  | vld | vlds =>
    dsimp only [Machine.exec]
    exact .issue h fun _ h1 => .bind fun _ => .bind fun _ => .bind fun _ => .bind fun _ => .bind fun _ => .fin (.vecRead h1)
  | vst | vsts =>
    dsimp only [Machine.exec]
    exact .issue h fun _ h1 => .bind fun _ => .bind fun _ => .bind fun _ => .bind fun _ => .bindE (.vecStore h1) fun _ h2 =>
      .fin h2
  | vgath => exact .execVgath h
  | vscat => exact .execVscat h
  | kand | kor | kxor | knot =>
    dsimp only [Machine.exec]
    exact .kIssue h
  | mzero => exact .execMzero h
  | mld => exact .execMld h
  | mst => exact .execMst h
  | mma | mmat | mmas =>
    dsimp only [Machine.exec]
    exact .mmaIssue h
  | macc => exact .execMacc h
  | mstat => exact .execMstat h
  | xsend | xmcast =>
    dsimp only [Machine.exec]
    exact .issue h fun _ h1 => .bind fun _ => .bind fun _ => .bind fun _ => .bind fun _ => .bind fun _ => .bind fun _ =>
      .bind fun _ => .bind fun _ => .fin (.firstRead (.addCmd_fst h1))
  | xget => exact .execXget h
  | xput => exact .execXput h
  | xfeed => exact .execXfeed h
  | xcomb => exact .execXcomb h
  | xroute => exact .execXroute h
  | xclose => exact .execXclose h
  | xrecv => exact .execXrecv h
  | xrecvRoute => exact .execXrecvRoute h
  | xend => exact .execXend h
  | xwait | xwaitRecv =>
    dsimp only [Machine.exec]
    exact .xwaitIssue h
  | pitch => exact .execPitch h
  | pitchq => exact .execPitchq h
  | mtc => exact .execMtc h
  | jlog => exact .execJlog h
  | tagget => exact .execTagget h
  | tagset => exact .execTagset h
  | idle => exact .execIdle h
  | hnote => exact .execHnote h
  | trap => exact .execTrap h
  | eret => exact .execEret h
  | eretEnd => exact .execEretEnd h
  | brk | cIll | illegalEncoding | fetchBounds =>
    dsimp only [Machine.exec]
    exact .issue h fun _ _ => .error
  | cLdd =>
    dsimp only [Machine.exec]
    exact .loadIssue h
  | cBeqz | cBnez =>
    dsimp only [Machine.exec]
    exact .branchIssue h
  | resultLanding => exact .execResultLanding h
  | storePerform => exact .execStorePerform h
  | cellPerform => exact .execCellPerform h
  | tagsetEvent => exact .execTagsetEvent h
  | vqdxListEvent => exact .execVqdxListEvent h
  | bfillCommit => exact .execBfillCommit h
  | trapEntry => exact .execTrapEntry h
  | journal => exact .execJournal h
  | waiterService => exact .execWaiterService h
  | engineReadEnd => exact .execEngineReadEnd h
  | matrixComputeStart => exact .execMatrixComputeStart h
  | matrixComputeDone => exact .execMatrixComputeDone h
  | matrixMoveStart => exact .execMatrixMoveStart h
  | matrixMoveDone => exact .execMatrixMoveDone h
  | mstBlockCommit => exact .execMstBlockCommit h
  | idleWake => exact .execIdleWake h
  | voteWindowWaitEnd => exact .execVoteWindowWaitEnd h
  | boundary => exact .execBoundary h
  | straggler => exact .execStraggler h
  | preemptDone => exact .execPreemptDone h
  | restore => exact .execRestore h
  | migrationStreamDone => exact .execMigrationStreamDone h
  | forwardRetire => exact .execForwardRetire h
  | placementPlan => exact .execPlacementPlan h
  | placementGrant => exact .execPlacementGrant h
  | timeSliceExpiry => exact .execTimeSliceExpiry h
  | releaseDrainDone => exact .execReleaseDrainDone h
  | feedCommit => exact .execFeedCommit h
  | routedFinish => exact .execRoutedFinish h
  | putArrive => exact .execPutArrive h
  | getArrive => exact .execGetArrive h
  | reply => exact .execReply h
  | combine => exact .execCombine h
  | invoke => exact .execInvoke h
  | answer => exact .execAnswer h
  | retryAfter => exact .execRetryAfter h
  | retryTimer => exact .execRetryTimer h
  | routedUnit => exact .execRoutedUnit h
  | closingCount => exact .execClosingCount h
  | announce => exact .execAnnounce h
  | announcePeriodic => exact .execAnnouncePeriodic h
  | requestResend => exact .execRequestResend h
  | flitRoute => exact .execFlitRoute h
  | starve => exact .execStarve h
  | linkFlit => exact .execLinkFlit h
  | portRetrain => exact .execPortRetrain h
  | walkComplete => exact .execWalkComplete h
  | stalledRecordWrite => exact .execStalledRecordWrite h
  | invalidateComplete => exact .execInvalidateComplete h
  | hbmWaiterService => exact .execHbmWaiterService h
  | scrub => exact .execScrub h
  | refresh => exact .execRefresh h
  | selfRefreshEntry => exact .execSelfRefreshEntry h
  | extentAdded => exact .execExtentAdded h
  | extentReleaseRequest => exact .execExtentReleaseRequest h
  | hostWrite => exact .execHostWrite h
  | hostRead => exact .execHostRead h
  | cmdtail => exact .execCmdtail h
  | direct => exact .execDirect h
  | evhead => exact .execEvhead h
  | bar0RegisterWrite => exact .execBar0RegisterWrite h
  | launch => exact .execLaunch h
  | launchReenter => exact .execLaunchReenter h
  | release => exact .execRelease h
  | continueHold => exact .execContinue h
  | extend => exact .execExtend h
  | breakStragglers => exact .execBreak h
  | faultCompleteRetry => exact .execFaultCompleteRetry h
  | faultCompleteAbort => exact .execFaultCompleteAbort h
  | invalidateRange => exact .execInvalidateRange h
  | invalidatePkgid => exact .execInvalidatePkgid h
  | tableRoot => exact .execTableRoot h
  | handler => exact .execHandler h
  | memstateClear => exact .execMemstateClear h
  | memstatePublish => exact .execMemstatePublish h
  | slice => exact .execSlice h
  | counterRead => exact .execCounterRead h
  | counterReset => exact .execCounterReset h
  | health => exact .execHealth h
  | attest => exact .execAttest h
  | portmap => exact .execPortmap h
  | peer => exact .execPeer h
  | configScrub => exact .execConfigScrub h
  | configIdleEntry => exact .execConfigIdleEntry h
  | migrate => exact .execMigrate h
  | extentReleased => exact .execExtentReleased h
  | coldReset => exact .execColdReset h
  | bringUp => exact .execBringUp h
  | thermalTrip => exact .execThermalTrip h
  | throttleChange => exact .execThrottleChange h
  | d3hotEntry => exact .execD3hotEntry h
  | d3coldEntry => exact .execD3coldEntry h
  | d0Entry => exact .execD0Entry h
  | handlerLockClear => exact .execHandlerLockClear h

theorem State.MemoryCanonical.nextCommand_some {s u : State} {w : List Word} (h : s.MemoryCanonical)
    (hu : s.nextCommand = some (w, u)) : u.MemoryCanonical := by
  unfold State.nextCommand at hu
  extract_lets k at hu
  split at hu
  · cases hu
  · split at hu
    · obtain ⟨-, rfl⟩ := Prod.mk.inj (Option.some.inj hu)
      exact h
    · obtain ⟨-, rfl⟩ := Prod.mk.inj (Option.some.inj hu)
      exact h
    · split at hu
      · cases hu
      · obtain ⟨-, rfl⟩ := Prod.mk.inj (Option.some.inj hu)
        exact h

theorem State.MemoryCanonical.hostReach_some {s u : State} (h : s.MemoryCanonical) (hu : s.hostReach = some u) :
    u.MemoryCanonical := by
  unfold State.hostReach at hu
  split at hu
  · split at hu
    · cases hu
    · exact Option.some.inj hu ▸ .reach h
  · cases hu

theorem commandRow_keeps {w : List Word} {f : Row} (hf : commandRow w = some f) : RowKeeps f := by
  unfold commandRow at hf
  split at hf
  case h_1 => exact Option.some.inj hf ▸ fun _ h => by split; exacts [.execLaunchReenter h, .execLaunch h]
  case h_2 => exact Option.some.inj hf ▸ fun _ h => .execRelease h
  case h_3 => exact Option.some.inj hf ▸ fun _ h => .execContinue h
  case h_4 => exact Option.some.inj hf ▸ fun _ h => .execExtend h
  case h_5 => exact Option.some.inj hf ▸ fun _ h => .execBreak h
  case h_6 => exact Option.some.inj hf ▸ fun _ h => by split; exacts [.faultComplete h, .faultComplete h]
  case h_7 => exact Option.some.inj hf ▸ fun _ h => by split; exacts [.execInvalidatePkgid h, .execInvalidateRange h]
  case h_8 => exact Option.some.inj hf ▸ fun _ h => .execTableRoot h
  case h_9 => exact Option.some.inj hf ▸ fun _ h => .execHandler h
  case h_10 => exact Option.some.inj hf ▸ fun _ h => by split; exacts [.memstate h, .memstate h]
  case h_11 => exact Option.some.inj hf ▸ fun _ h => .execSlice h
  case h_12 => exact Option.some.inj hf ▸ fun _ h => .execCounterRead h
  case h_13 => exact Option.some.inj hf ▸ fun _ h => .execCounterReset h
  case h_14 => exact Option.some.inj hf ▸ fun _ h => .execHealth h
  case h_15 => exact Option.some.inj hf ▸ fun _ h => .execAttest h
  case h_16 => exact Option.some.inj hf ▸ fun _ h => .execPortmap h
  case h_17 => exact Option.some.inj hf ▸ fun _ h => .execPeer h
  case h_18 => exact Option.some.inj hf ▸ fun _ h => by split; exacts [.execConfigIdleEntry h, .execConfigScrub h]
  case h_19 => exact Option.some.inj hf ▸ fun _ h => .execMigrate h
  case h_20 => exact Option.some.inj hf ▸ fun _ h => .execExtentReleased h
  case h_21 => cases hf

theorem Keeps.commandStep {s : State} (h : s.MemoryCanonical) : Keeps (commandStep s) := by
  unfold Machine.commandStep
  split
  · exact .fault
  · have hu := State.MemoryCanonical.nextCommand_some h ‹_›
    split
    · exact commandRow_keeps ‹_› _ hu
    · exact .next (.finish hu)

theorem RowsKeep.arrivalRow {id : Nat} {m : Msg} : RowsKeep (arrivalRow id m) := by
  unfold Machine.arrivalRow
  split
  · exact .single fun _ h => .execRetryTimer h
  · split
    · exact .single fun _ h => .execPutArrive h
    · exact .single fun _ h => .execReply h
    · exact .single fun _ h => .execCombine h
    · exact .single fun _ h => .execInvoke h
    · exact .single fun _ h => .execAnswer h
    · exact .single fun _ h => .execRetryAfter h
    · exact .single fun _ h => .execRoutedUnit h
    · exact .single fun _ h => .execClosingCount h
    · exact .nil

theorem RowsKeep.readRow {atTile : Bool} {id : Nat} {m : Msg} : RowsKeep (readRow atTile id m) :=
  .ite (.single fun _ h => .execGetArrive h) .nil

theorem RowsKeep.engineRows {dom rank : Nat} {t : Tile} : RowsKeep (engineRows dom rank t) :=
  .append (.append (.append (.single fun _ h => .execEngineReadEnd h) (.map fun _ _ h => .execFeedCommit h))
      (.single fun _ h => .execWaiterService h))
    (.cons (fun _ h => .execRoutedFinish h) <| .cons (fun _ h => .mstWriteRow h) <| .cons (fun _ h => .execMstBlockCommit h) <|
      .cons (fun _ h => .execMatrixComputeDone h) <| .cons (fun _ h => .execMatrixMoveDone h) <|
      .cons (fun _ h => .execMatrixComputeStart h) <| .single fun _ h => .execMatrixMoveStart h)

theorem RowsKeep.storeRows {dom rank : Nat} : RowsKeep (storeRows dom rank) :=
  .append (.append (.append (.append (.append (.single fun _ h => .execStorePerform h) (.map fun _ _ h => .fillWriteRow h))
      (.map fun _ _ h => .execBfillCommit h))
      (.cons (fun _ h => .execCellPerform h) <| .cons (fun _ h => .execTagsetEvent h) <|
        .single fun _ h => .execVqdxListEvent h))
      (.flatMap fun _ => .cons (fun _ h => .execResultLanding h) <| .single fun _ h => .resolveRow h))
    (.cons (fun _ h => .execVoteWindowWaitEnd h) <| .cons (fun _ h => .execTrapEntry h) <| .single fun _ h => .execJournal h)

theorem RowsKeep.domainRows {dom : Nat} : RowsKeep (domainRows dom) :=
  .cons (fun _ h => .execHandlerLockClear h) <| .cons (fun _ h => .execPreemptDone h) <| .cons (fun _ h => .execRestore h) <|
  .cons (fun _ h => .execMigrationStreamDone h) <| .cons (fun _ h => .execTimeSliceExpiry h) <|
  .cons (fun _ h => .execReleaseDrainDone h) <| .cons (fun _ h => .execBoundary h) <| .cons (fun _ h => .snapshotRow h) <|
  .single fun _ h => .execStraggler h

theorem RowsKeep.kilnRows {s : State} : RowsKeep s.kilnRows :=
  .append (.append
      (.cons (fun _ h => .hotThrottle h) <| .cons (fun _ h => .commandStep h) <| .cons (fun _ h => .execInvalidateComplete h) <|
        .cons (fun _ h => .execPlacementPlan h) <| .single fun _ h => .execPlacementGrant h)
      (.flatMap fun _ => .domainRows))
    (.map fun _ _ h => .execForwardRetire h)

theorem RowsKeep.memoryRows {s : State} : RowsKeep s.memoryRows :=
  .append (.append (.append (.append (.append (.append (.map fun _ _ h => .execWalkComplete h)
      (.map fun _ _ h => .execStalledRecordWrite h)) (.map fun _ _ h => .execHbmWaiterService h))
      (.ite (.flatMap fun _ => .cons (fun _ h => .execScrub h) <| .single fun _ h => .execRefresh h) .nil))
      (.ite (.map fun _ _ h => .execSelfRefreshEntry h) .nil)) (.single fun _ h => .execAnnouncePeriodic h))
    (.map fun _ _ h => .execRequestResend h)

theorem RowsKeep.networkRows {s : State} : RowsKeep s.networkRows :=
  .append (.ite (.single fun _ h => .execFlitRoute h) .nil) (.map fun _ _ h => .execStarve h)

theorem RowsKeep.rowsBefore {s : State} : RowsKeep s.rowsBefore :=
  .append (.append (.append (.append (.append .networkRows (.flatMap fun _ => .arrivalRow))
    (.tilesWhere fun _ _ _ => .engineRows)) .kilnRows) (.flatMap fun _ => .readRow)) (.tilesWhere fun _ _ _ => .storeRows)

theorem RowsKeep.rowsAfter {s : State} : RowsKeep s.rowsAfter :=
  .append (.append (.append (.tilesWhere fun _ _ _ => .single fun _ h => .execWaiterService h) (.flatMap fun _ => .readRow))
    .memoryRows) (.tilesWhere fun _ _ _ => .map fun _ _ h => .execIdleWake h)

theorem RowsKeep.idleRows {s : State} : RowsKeep s.idleRows :=
  .append (.append (.append
      (.cons (fun _ h => .commandStep h) <| .cons (fun _ h => .execInvalidateComplete h) <|
        .single fun _ h => .execAnnouncePeriodic h)
      (.map fun _ _ h => .execHandlerLockClear h))
      (.map fun _ _ h => .execForwardRetire h))
    (.map fun _ _ h => .execRequestResend h)

theorem Input.run_keeps {i : Input} : RowKeeps i.run := fun s h => by
  cases i with
  | announce pkg inc => exact .execAnnounce h
  | linkFlit port bytes => exact .execLinkFlit h
  | portRetrain port ok => exact .execPortRetrain h
  | extentAdded ext port base len => exact .execExtentAdded h
  | extentReleaseRequest ext => exact .execExtentReleaseRequest h
  | hostWrite space addr bytes => exact .execHostWrite h
  | hostRead space addr len => exact .execHostRead h
  | cmdtail value => exact .execCmdtail h
  | direct offset bytes => exact .execDirect h
  | evhead value => exact .execEvhead h
  | bar0RegisterWrite offset value => exact .execBar0RegisterWrite h
  | coldReset => exact .execColdReset h
  | thermalTrip => exact .execThermalTrip h
  | throttleChange level => exact .execThrottleChange h
  | sramError dom rank gran on => exact .failSram h
  | hbmError gran sym err => exact .failHbm h
  | bar0Read offset => exact .readBar0 h
  | configRead offset len => exact .readConfig h
  | temperature hbm n deg => exact .readTemperature h
  | tileDefect die row pos => exact .failTile h
  | bootFailure step => exact .failBoot h
  | flashFault on => exact .failFlash h
  | d3hotEntry => exact .execD3hotEntry h
  | d3coldEntry => exact .execD3coldEntry h
  | d0Entry => exact .execD0Entry h

theorem State.MemoryCanonical.inputStep_some {s u : State} (h : s.MemoryCanonical) (hu : s.inputStep = some u) :
    u.MemoryCanonical := by
  unfold State.inputStep at hu
  split at hu
  · exact Option.some.inj hu ▸ h.hostReach_some ‹_›
  · split at hu
    · cases hu
    · rename_i p _
      have ht : (s.takeInput p).MemoryCanonical := .takeInput h
      split at hu
      · exact Option.some.inj hu ▸ (Input.run_keeps _ ht).state ‹_›
      · exact Option.some.inj hu ▸ ht

theorem State.MemoryCanonical.offStep {s : State} (h : s.MemoryCanonical) : s.offStep.MemoryCanonical := by
  unfold State.offStep
  split
  · exact .tickTime h
  · rename_i p _
    have ht : State.MemoryCanonical { s with inputs := s.inputs.erase p } := h
    extract_lets t
    split
    · exact ht
    · split
      · exact (Input.run_keeps t ht).state ‹_›
      · exact ht

/-- What a context fetches acts on a canonical memory. -/
theorem Keeps.runAt {s : State} {c : Cur} {f : Fetched} (h : s.MemoryCanonical) : Keeps (s.runAt c f) := by
  unfold State.runAt
  split
  · exact .exec h
  · exact .exec h
  · exact .exec h

theorem Keeps.offerTo {s : State} {c : Cur} {det : Bool} {t : Tile} (h : s.MemoryCanonical) : Keeps (s.offerTo c det t) := by
  unfold State.offerTo
  extract_lets x
  split
  · exact .next (.updTile h fun _ ht => ht)
  · have hr : Keeps ((s.fetchRead c t).runAt c (t.fetch x.th.pc.toNat)) := .runAt (.fetchRead h)
    split
    · exact .next (.afterIssue (hr.state ‹_›))
    · exact hr

theorem Keeps.cycleStep {s : State} (h : s.MemoryCanonical) : Keeps s.cycleStep := by
  unfold State.cycleStep
  split
  · exact .next (stageRow_some h .rowsBefore ‹_›)
  · split
    · exact .offerTo h
    · split
      · exact .next (stageRow_some h .rowsAfter ‹_›)
      · exact .next (.tick h)

theorem Keeps.idleStep {s : State} (h : s.MemoryCanonical) : Keeps s.idleStep := by
  unfold State.idleStep
  split
  · exact .next (.hbmAsleep h)
  · split
    · exact .next (stageRow_some h .idleRows ‹_›)
    · have ht : s.linkTick.tickTime.MemoryCanonical := .tickTime (.linkTick h)
      exact .next ht

theorem Keeps.step {s : State} (h : s.MemoryCanonical) : Keeps (step s) := by
  unfold Machine.step
  split
  · exact .next (.offStep h)
  · split
    · exact .execThermalTrip h
    · split
      · exact .next (h.inputStep_some ‹_›)
      · split
        · exact .execBringUp h
        · split
          · exact .idleStep h
          · exact .cycleStep h

/-- Settles O60: every row of the hardware, every input and every instruction writes memory through the operations that keep the
canonical form, so every step does. -/
theorem everyStepKeepsMemoryCanonical : Obligations.EveryStepKeepsMemoryCanonical := by
  unfold Obligations.EveryStepKeepsMemoryCanonical
  exact fun _ _ h ht => (Keeps.step h).state ht

end Sys2Proof.Machine
end

