-- ==== Sys2Proof/Proofs/RegisterFrame.lean ====
section
/-! SUPPORT and PROOF. What an instruction that only writes registers leaves as it was until its result lands: the memories of
the package, the tile but for the poison of granules whose SRAM fails, the registers of the thread, every other context. -/

namespace Sys2Proof.Machine

section frame

/-- The registers of the context, FLAGS, RMODE and its store buffer are as before. -/
def Ctx.Frame (c0 c : Ctx) : Prop :=
  c.th.g = c0.th.g ∧ c.th.gp = c0.th.gp ∧ c.th.v = c0.th.v ∧ c.th.vp = c0.th.vp ∧ c.th.k = c0.th.k ∧ c.th.e = c0.th.e
    ∧ c.th.flags = c0.th.flags ∧ c.th.rmode = c0.th.rmode ∧ c.sb = c0.sb

/-- The memory of the tile, its blocks, tags, barriers, accumulators, exception registers and contexts are as before, and so is
the poison of every granule whose SRAM does not fail. -/
def Tile.Frame (t0 t : Tile) : Prop :=
  t.sram = t0.sram ∧ t.blocks = t0.blocks ∧ t.tags = t0.tags ∧ t.bars = t0.bars ∧ t.accs = t0.accs
    ∧ t.tcause = t0.tcause ∧ t.tepc = t0.tepc ∧ t.tval = t0.tval ∧ t.tval2 = t0.tval2 ∧ t.tbase = t0.tbase
    ∧ t.tscratch = t0.tscratch ∧ t.ctxs = t0.ctxs ∧ t.failing = t0.failing
    ∧ ∀ g, g ∉ t0.failing → (g ∈ t.pois ↔ g ∈ t0.pois)

/-- The package, the domain, the tile and the context are as before, but for what a register-only instruction may change. -/
def Env.Frame (e0 e : Env) : Prop :=
  e.s.cur = e0.s.cur ∧ e.s.doms = e0.s.doms ∧ e.s.hbmMem = e0.s.hbmMem ∧ e.s.hostMem = e0.s.hostMem
    ∧ e.s.cxlMem = e0.s.cxlMem ∧ e.d = e0.d ∧ e0.t.Frame e.t ∧ e0.c.Frame e.c

/-- Whatever the body of an instruction answers keeps the frame. -/
def Framed (e0 : Env) (x : Except Stop Res1) : Prop := ∀ r, x = .ok r → e0.Frame r.env

/-- The outcome is an issue whose body keeps the frame. -/
def IssuesFramed (s : State) (o : Host.Outcome State Fault Refusal) : Prop :=
  ∃ op body, o = issue s op body ∧ ∀ e0 e, e0.Frame e → Framed e0 (body e)

theorem Ctx.Frame.refl (c : Ctx) : c.Frame c := ⟨rfl, rfl, rfl, rfl, rfl, rfl, rfl, rfl, rfl⟩

theorem Tile.Frame.refl (t : Tile) : t.Frame t :=
  ⟨rfl, rfl, rfl, rfl, rfl, rfl, rfl, rfl, rfl, rfl, rfl, rfl, rfl, fun _ _ => Iff.rfl⟩

theorem Env.Frame.refl (e : Env) : e.Frame e := ⟨rfl, rfl, rfl, rfl, rfl, rfl, .refl _, .refl _⟩

theorem mem_insNat {g n : Nat} {l : List Nat} : g ∈ insNat n l ↔ g = n ∨ g ∈ l := by
  induction l with
  | nil => simp [insNat]
  | cons a l ih =>
    unfold insNat
    split
    · subst_vars
      simp
    · split
      · simp
      · simp only [List.mem_cons, ih]
        tauto

theorem mem_foldl_insNat {g : Nat} {grans l : List Nat} (h : g ∉ grans) :
    g ∈ grans.foldl (fun l g => insNat g l) l ↔ g ∈ l := by
  induction grans generalizing l with
  | nil => rfl
  | cons a grans ih =>
    obtain ⟨hne, h⟩ := List.ne_and_not_mem_of_not_mem_cons h
    exact (ih h).trans (mem_insNat.trans (or_iff_right hne))

/-- A read marks failing granules alone. -/
theorem Tile.Frame.readFail {t0 t : Tile} {grans : List Nat} (h : t0.Frame t) : t0.Frame (t.readFail grans) := by
  obtain ⟨h1, h2, h3, h4, h5, h6, h7, h8, h9, h10, h11, h12, hfail, hpois⟩ := h
  refine ⟨h1, h2, h3, h4, h5, h6, h7, h8, h9, h10, h11, h12, hfail, fun g hg => ?_⟩
  refine (mem_foldl_insNat fun hm => ?_).trans (hpois g hg)
  exact hg (by simpa [hfail] using (List.mem_filter.mp hm).2)

theorem Tile.Frame.trapMark {t0 t : Tile} {x : TrapInfo} (h : t0.Frame t) : t0.Frame (t.trapMark x) := by
  unfold Tile.trapMark
  split
  · exact h.readFail
  · exact h

theorem Env.Frame.readGrans {e0 e : Env} {grans : List Nat} (h : e0.Frame e) : e0.Frame (e.readGrans grans) := by
  unfold Env.readGrans
  split
  · exact h
  · obtain ⟨hcur, hdoms, hhbm, hhost, hcxl, hd, ht, hc⟩ := h
    exact ⟨hcur, hdoms, hhbm, hhost, hcxl, hd, ht.readFail, hc⟩

theorem Env.Frame.ite {e0 a b : Env} {c : Prop} [Decidable c] (ha : e0.Frame a) (hb : e0.Frame b) :
    e0.Frame (if c then a else b) := by
  split <;> assumption

theorem Framed.error {e0 : Env} {st : Stop} : Framed e0 (.error st) := fun _ h => absurd h (by simp)

theorem Framed.ok {e0 : Env} {r : Res1} (h : e0.Frame r.env) : Framed e0 (.ok r) := fun _ hr => Except.ok.inj hr ▸ h

theorem Framed.fin {e0 e : Env} (h : e0.Frame e) : Framed e0 (fin e) := .ok h

theorem Framed.bind {e0 : Env} {α : Type} {x : Except Stop α} {f : α → Except Stop Res1} (h : ∀ a, Framed e0 (f a)) :
    Framed e0 (x >>= f) := by
  cases x with
  | error st => exact .error
  | ok a => exact h a

theorem Framed.ite {e0 : Env} {c : Prop} [Decidable c] {a b : Except Stop Res1} (ha : Framed e0 a) (hb : Framed e0 b) :
    Framed e0 (if c then a else b) := by
  split <;> assumption

theorem IssuesFramed.issue {s : State} {op : Op} {body : Env → Except Stop Res1}
    (h : ∀ e0 e, e0.Frame e → Framed e0 (body e)) : IssuesFramed s (issue s op body) := ⟨op, body, rfl, h⟩

end frame

section outcomes

/-- Whatever becomes of the issue, the package is an environment written back that keeps the frame. -/
theorem issueIn_frame {s : State} {e : Env} {op : Op} {body : Env → Except Stop Res1} (he : s.env? = some e)
    (hctx : e.s.cur.ctx ≠ 17) (hb : ∀ e0 e, e0.Frame e → Framed e0 (body e)) :
    ∃ e', issueIn e op body = e'.close ∧ e.Frame e' := by
  have hr := Env.Frame.refl e
  unfold issueIn
  split
  · exact ⟨_, rfl, hr⟩
  · have hs : Framed e (do precheck e op; body (markWrong e)) := .bind fun _ => hb e _ hr
    split
    · rename_i x hx
      have hx := hs _ hx
      exact ⟨_, rfl, hx⟩
    · rename_i x hx
      have hx := hs _ hx
      exact ⟨_, rfl, hx⟩
    · rename_i x hx
      have hx := hs _ hx
      exact ⟨_, rfl, hx⟩
    · cases hw : e.speculative with
      | true =>
        refine ⟨_, if_pos hw, hr⟩
      | false =>
        refine ⟨{ e with t := _, c := _ }, (trapAt_eq he hw hctx ..).trans (close_put e _ _).symm, ?_⟩
        obtain ⟨hcur, hdoms, hhbm, hhost, hcxl, hd, ht, hc⟩ := hr
        exact ⟨hcur, hdoms, hhbm, hhost, hcxl, hd, ht.trapMark, hc⟩
    · unfold parkAt
      split
      · exact ⟨_, rfl, hr⟩
      · exact ⟨_, rfl, hr⟩
    · exact ⟨_, rfl, hr⟩

/-- The environment of the acting context, once it has been written back. -/
theorem env?_close {s : State} {e e' : Env} (he : s.env? = some e) (h : e.Frame e') :
    e'.close.env? = some ⟨e'.close, e'.d.setTile e.s.cur.rank (e'.t.setCtx e.s.cur.ctx e'.c), e'.t.setCtx e.s.cur.ctx e'.c,
      e'.c⟩ := by
  obtain ⟨hlt, -, -⟩ := env_ctx he
  obtain ⟨hcur, -⟩ := h
  simp [State.env?, Env.close, hcur, hlt]

/-- An environment written back that keeps the frame holds the same memory. -/
theorem sameMemory_close {s : State} {e e' : Env} (he : s.env? = some e) (h : e.Frame e') : SameMemory s e'.close := by
  obtain ⟨-, -, rfl⟩ := env_ctx he
  obtain ⟨hdom, htile⟩ := env_at he
  obtain ⟨hcur, hdoms, hhbm, hhost, hcxl, hd, ⟨hsram, -⟩, -⟩ := h
  refine ⟨fun d r a => ?_, fun a => ?_, fun a => ?_, fun a => ?_⟩
  · simp only [State.tile?, Env.close, setDom_doms, hcur, hdoms, hd, find_set]
    split
    · subst_vars
      simp only [hdom, Option.bind_some, setTile_tiles, find_set]
      split
      · subst_vars
        simp [htile, hsram]
      · rfl
    · rfl
  · exact congrArg (fun m : Mem => m.read a) hhbm
  · exact congrArg (fun m : Mem => m.read a) hhost
  · exact congrArg (fun m : Mem => m.read a) hcxl

end outcomes

section shapes

variable {s : State} {op : Op}

theorem IssuesFramed.alu1 {d a : GReg} {f : Word → Word} : IssuesFramed s (alu1 op d a f s) := .issue fun _ _ h => .fin h

theorem IssuesFramed.alu2 {lat : Nat} {d a b : GReg} {f : Word → Word → Word} : IssuesFramed s (alu2 op lat d a b f s) :=
  .issue fun _ _ h => .fin h

theorem IssuesFramed.alu3 {d a b : GReg} {f : Word → Word → Word → Word} : IssuesFramed s (alu3 op d a b f s) :=
  .issue fun _ _ h => .fin h

theorem IssuesFramed.ptrAddIssue {d a : GReg} {disp : Thread → Word} {dpois : Thread → Bool} :
    IssuesFramed s (ptrAddIssue op d a disp dpois s) := .issue fun _ _ h => .bind fun _ => .fin h

theorem IssuesFramed.divIssue {st : Stall} {d a b : GReg} {signed : Bool} {f : Word → Word → Word} :
    IssuesFramed s (divIssue st d a b signed f s) := .issue fun _ _ h => .bind fun _ => .fin h

theorem IssuesFramed.branchIssue {a b : GReg} {off : Int} {c : Cond} : IssuesFramed s (branchIssue op a b off c s) :=
  .issue fun _ _ h => .bind fun _ => .bind fun _ =>
    .ite (.bind fun _ => .ite (.ok h) (.ite (.ok h) (.ok h))) (.ite (.ok h) (.ite (.ok h) (.ok h)))

theorem IssuesFramed.jalIssue {d : GReg} {off : Int} : IssuesFramed s (jalIssue op d off s) :=
  .issue fun _ _ h => .bind fun _ => .ok (.ite h h)

theorem IssuesFramed.jrIssue {d a : GReg} {imm : BitVec 11} : IssuesFramed s (jrIssue op d a imm s) := by
  refine .issue fun _ e h => .bind fun _ => .ok ?_
  have hl : ∀ w, Env.Frame _ (if d = 0 then e else e.fixed 1 [.g d w false] 0 7) := fun w => .ite h h
  exact hl _

theorem IssuesFramed.loadIssue {d a : GReg} {disp : Int} {size : Nat} {signed : Bool} :
    IssuesFramed s (loadIssue op d a disp size signed s) := .issue fun _ _ h => .bind fun _ => .fin h.readGrans

theorem IssuesFramed.execLdp {st : Stall} {d a : GReg} {off : BitVec 11} : IssuesFramed s (execLdp st d a off s) :=
  .issue fun _ _ h => .bind fun _ => .fin h.readGrans

theorem IssuesFramed.execTagget {st : Stall} {d a : GReg} {imm : BitVec 11} : IssuesFramed s (execTagget st d a imm s) :=
  .issue fun _ _ h => .bind fun _ => .bind fun _ => .bind fun _ => .bind fun _ => .fin h.readGrans

theorem IssuesFramed.vIssue {st : Stall} {major lat : Nat} {reads : List RegId} {d : VReg} {k : KReg} {z f64 : Bool} {w : Nat}
    {rm : Option RmField} {f : Thread → Mode → Nat → Nat → Nat × Flags} {pois : Thread → KWord} :
    IssuesFramed s (vIssue st major lat reads d k z f64 w rm f pois s) := .issue fun _ _ h => .fin h

theorem IssuesFramed.vArith {st : Stall} {ty : VType} {rm : RmField} {d a b : VReg} {k : KReg} {z dSrc : Bool}
    {fi : Int → Int → Int → Int} {ff : Bool → FVal → FVal → FVal → FRes} :
    IssuesFramed s (vArith st ty rm d a b k z dSrc fi ff s) := by
  unfold Machine.vArith
  exact .vIssue

theorem IssuesFramed.vBits {st : Stall} {major lat : Nat} {ty : VType} {rm : Option RmField} {d a : VReg} {b : Option VReg}
    {k : KReg} {z : Bool} {f : Nat → Nat → Nat × Flags} : IssuesFramed s (vBits st major lat ty rm d a b k z f s) := by
  unfold Machine.vBits
  exact .vIssue

theorem IssuesFramed.execVdot {st : Stall} {ty : VType} {rm : RmField} {d a b : VReg} {k : KReg} {z : Bool} :
    IssuesFramed s (execVdot st ty rm d a b k z s) := by
  unfold Machine.execVdot
  exact .vIssue

theorem IssuesFramed.execVdiv {st : Stall} {ty : VType} {rm : RmField} {d a b : VReg} {k : KReg} {z : Bool} :
    IssuesFramed s (execVdiv st ty rm d a b k z s) := by
  unfold Machine.execVdiv
  exact .vIssue

theorem IssuesFramed.vFn1 {st : Stall} {ty : VType} {rm : RmField} {d a : VReg} {k : KReg} {z : Bool}
    {f : Fmt → Mode → Nat → FVal → Nat × Flags} : IssuesFramed s (vFn1 st ty rm d a k z f s) := by
  unfold Machine.vFn1
  exact .vIssue

theorem IssuesFramed.vMove {st : Stall} {ty : VType} {reads : List RegId} {d a : VReg} {k : KReg} {z : Bool}
    {src : Thread → Nat → Nat} {idxPois : Thread → KWord} : IssuesFramed s (vMove st ty reads d a k z src idxPois s) := by
  unfold Machine.vMove
  exact .vIssue

theorem IssuesFramed.vCompare {st : Stall} {ty : VType} {d : KReg} {a b : VReg} {k : KReg} {z : Bool} {f : Cmp3 → Bool}
    {ordered : Bool} : IssuesFramed s (vCompare st ty d a b k z f ordered s) := by
  unfold Machine.vCompare
  refine .issue fun _ _ h => ?_
  split
  · dsimp only
    split <;> exact .bind fun _ => .fin h
  · dsimp only
    split <;> exact .bind fun _ => .fin h

theorem IssuesFramed.kIssue {st : Stall} {d : KReg} {srcs : List KReg} {f : Thread → KWord} :
    IssuesFramed s (kIssue st d srcs f s) := .issue fun _ _ h => .fin h

theorem IssuesFramed.execVqmx {st : Stall} {rm : RmField} {d a b : VReg} : IssuesFramed s (execVqmx st rm d a b s) :=
  .issue fun _ _ h => .bind fun _ => .bind fun _ => .fin h

/-- VQDX completes, or waits for its list operation to be performed. -/
theorem IssuesFramed.execVqdx {st : Stall} {rm : RmField} {d a b : VReg} : IssuesFramed s (execVqdx st rm d a b s) :=
  .issue fun e0 e he => by
  extract_lets th x p e1 _ _ _ run look enter
  have hrun : ∀ o, Framed e0 (run o) := fun o => .bind fun _ => by
    split
    extract_lets
    split
    · exact Framed.ok (r := .done _) he
    · exact Framed.ok (r := .stay _) he
  have hlook : ∀ u, Framed e0 (look u) := fun _ => .ite (.bind fun o => hrun o) (hrun 0)
  have henter : ∀ u, Framed e0 (enter u) := fun _ => .bind fun _ => .bind fun _ => by
    split
    · split
      · exact .bind fun u => hlook u
      · exact .bind fun u => hlook u
    · exact hlook ()
  exact .ite (.bind fun u => henter u) (henter ())

theorem IssuesFramed.execVred {st : Stall} {ty : VType} {r : RedOp} {rm : RmField} {d a : VReg} {k : KReg} {z : Bool} :
    IssuesFramed s (execVred st ty r rm d a k z s) := .issue fun _ _ h => .bind fun _ => .fin h

theorem IssuesFramed.execVscan {st : Stall} {ty : VType} {r : RedOp} {rm : RmField} {d a : VReg} {k : KReg} {z : Bool} :
    IssuesFramed s (execVscan st ty r rm d a k z s) := .issue fun _ _ h => .bind fun _ => .fin h

theorem IssuesFramed.execVld {st : Stall} {v : VReg} {a : GReg} {off : BitVec 11} : IssuesFramed s (execVld st v a off s) :=
  .issue fun _ _ h => .bind fun _ => .bind fun _ => .bind fun _ => .bind fun _ => .bind fun _ => .fin h.readGrans

theorem IssuesFramed.execVlds {st : Stall} {v : VReg} {a : GReg} {off : BitVec 11} : IssuesFramed s (execVlds st v a off s) :=
  .issue fun _ _ h => .bind fun _ => .bind fun _ => .bind fun _ => .bind fun _ => .bind fun _ => .fin h.readGrans

theorem IssuesFramed.execVgath {st : Stall} {v : VReg} {a : GReg} {off : BitVec 11} :
    IssuesFramed s (execVgath st v a off s) := by
  refine .issue fun _ e h => .bind fun _ => .bind fun _ => .bind fun _ => .bind fun _ => .bind fun _ => .bind fun x =>
    .bind fun _ => ?_
  have hr : Env.Frame _ (e.vecRead x.2.2) := h.readGrans
  exact .fin hr

end shapes

/-- Every instruction that only writes registers is an issue whose body keeps the frame. -/
theorem registersOnly_framed {i : Instr} {s : State} (hi : i.registersOnly = true) : IssuesFramed s (exec i s) := by
  cases i with
  | add | sub | and | or | xor | andn | shl | shr | sra | slt | sltu | seq | sne | min | max | minu | maxu | bfx | bfxS |
    ptags | mul | mulh | mulhu | cAdd | cSub | cMov | cAnd | cOr | cXor =>
    dsimp only [Machine.exec]
    exact .alu2
  | sel | bfi =>
    dsimp only [Machine.exec]
    exact .alu3
  | clz | ctz | popc | sextB | sextH | sextW | ptagx | addi | andi | ori | xori | shli | shri | srai | slti | sltiu | ptagi |
    cAddi | cShli | cShri =>
    dsimp only [Machine.exec]
    exact .alu1
  | padd | paddi =>
    dsimp only [Machine.exec]
    exact .ptrAddIssue
  | lui | addpc | phase | eli | emovg | vins | vsel | vcvt | vcompr | kpop | kmovG | rdcyc | rdret | ptst | ptstV | ptstAcc =>
    dsimp only [Machine.exec]
    exact .issue fun _ _ h => .fin h
  | div | divu | rem | remu =>
    dsimp only [Machine.exec]
    exact .divIssue
  | beq | bne | blt | bge | bltu | bgeu | cBeqz | cBnez =>
    dsimp only [Machine.exec]
    exact .branchIssue
  | jal | cJ =>
    dsimp only [Machine.exec]
    exact .jalIssue
  | jalr | jr | cRet =>
    dsimp only [Machine.exec]
    exact .jrIssue
  | ldb | ldh | ldw | ldd | ldbu | ldhu | ldwu | cLdd =>
    dsimp only [Machine.exec]
    exact .loadIssue
  | ldp => exact .execLdp
  | bstat | emov | vext | vdq | vpack | vunpk | kmov | mfc =>
    dsimp only [Machine.exec]
    exact .issue fun _ _ h => .bind fun _ => .fin h
  | vadd | vsub | vmul | vfma | vfms | vfnma =>
    dsimp only [Machine.exec]
    exact .vArith
  | vmin | vmax | vabs | vneg | vand | vor | vxor | vshl | vshr | vsra | vadds | vsubs | vmov | vclass =>
    dsimp only [Machine.exec]
    exact .vBits
  | vdot => exact .execVdot
  | vbcast | viota =>
    dsimp only [Machine.exec]
    exact .vIssue
  | vrcp | vrsq | vsqrt | vexp2 | vlog2 =>
    dsimp only [Machine.exec]
    exact .vFn1
  | vdiv => exact .execVdiv
  | vcmpeq | vcmpne | vcmplt | vcmple =>
    dsimp only [Machine.exec]
    exact .vCompare
  | vqdx => exact .execVqdx
  | vqmx => exact .execVqmx
  | vperm | vrot =>
    dsimp only [Machine.exec]
    exact .vMove
  | vred => exact .execVred
  | vscan => exact .execVscan
  | vld => exact .execVld
  | vlds => exact .execVlds
  | vgath => exact .execVgath
  | kand | kor | kxor | knot =>
    dsimp only [Machine.exec]
    exact .kIssue
  | tagget => exact .execTagget
  | _ => exact absurd hi Bool.false_ne_true

/-- Settles O55: the body of every such instruction keeps the frame, and so does whatever becomes of its issue. -/
theorem registerFrame : Obligations.RegisterFrame := by
  unfold Obligations.RegisterFrame
  intro s t e i he hctx hi ht
  obtain ⟨op, body, hexec, hbody⟩ := registersOnly_framed (s := s) hi
  rw [hexec, issue_next he] at ht
  obtain ⟨e', hclose, hf⟩ := issueIn_frame he hctx hbody
  obtain rfl : t = e'.close := (Host.Outcome.next.inj ht).symm.trans hclose
  refine ⟨sameMemory_close he hf, _, env?_close he hf, ?_⟩
  obtain ⟨-, -, -, -, -, -, ht, hg, hgp, hv, hvp, hk, hre, hflags, hrmode, hsb⟩ := hf
  obtain ⟨-, hblocks, htags, hbars, haccs, hcause, hepc, hval, hval2, hbase, hscratch, hctxs, -, hpois⟩ := ht
  refine ⟨fun n => ?_, fun n => ?_, fun n => ?_, fun n => ?_, hflags, hrmode, hsb, fun b => ?_, htags, hbars, hpois, haccs,
    hcause, hepc, hval, hval2, hbase, hscratch, fun j hj => ?_⟩
  · simp only [Thread.rg, Thread.pg, hg, hgp, and_self]
  · simp only [Thread.rv, Thread.pv, hv, hvp, and_self]
  · simp only [Thread.rk, hk]
  · simp only [Thread.re, hre]
  · simp only [Tile.block, setCtx_blocks, hblocks]
  · rw [ctx_setCtx_ne _ _ (Ne.symm hj)]
    simp only [Tile.ctx, hctxs]

end Sys2Proof.Machine
end

