-- ==== Sys2Proof/Proofs/Stores.lean ====
section
/-! SUPPORT and PROOF. The bytes that a store enters in its context's store buffer (R127). -/

namespace Sys2Proof.Machine

section bytes

/-- The cells of a run of bytes, byte by byte. -/
theorem cellsAt_eq {o n : Nat} {bs : List Byte} {f : Nat → Byte} (hn : bs.length = n)
    (h : ∀ i < n, bs.getD i 0 = f i) : cellsAt o bs = (List.range n).map fun i => (o + i, f i) := by
  subst hn
  exact List.map_congr_left fun i hi => by rw [h i (List.mem_range.mp hi)]

/-- The low bytes of one register, as a store enters them (R127). -/
theorem cellsAt_one (o : Nat) (v : Word) {size : Nat} (h : size ≤ 8) :
    cellsAt o ((natBytes 8 v.toNat).take size)
      = (List.range size).map fun i => (o + i, BitVec.ofNat 8 (v.toNat / 256 ^ i)) := by
  refine cellsAt_eq (by simpa using h) fun i hi => ?_
  rw [List.getD_eq_getElem?_getD, List.getElem?_take_of_lt hi, ← List.getD_eq_getElem?_getD, natBytes_getD, if_pos (by omega)]

/-- The bytes of two registers, the first one's below (R127). -/
theorem cellsAt_two (o : Nat) (v w : Word) :
    cellsAt o ((natBytes 8 v.toNat ++ natBytes 8 w.toNat).take 16)
      = (List.range 16).map fun i => (o + i, BitVec.ofNat 8 ((v.toNat + 2 ^ 64 * w.toNat) / 256 ^ i)) := by
  refine cellsAt_eq (by simp) fun i hi => ?_
  rw [List.take_of_length_le (by simp)]
  apply BitVec.eq_of_toNat_eq
  have h64 : (2 : Nat) ^ 64 = 256 ^ 8 := by norm_num
  have hv : v.toNat < 256 ^ 8 := h64 ▸ v.isLt
  rcases Nat.lt_or_ge i 8 with hi8 | hi8
  · rw [List.getD_append _ _ _ _ (by simpa using hi8), natBytes_getD, if_pos hi8]
    have hp : (2 : Nat) ^ 64 * w.toNat = 256 ^ i * (256 * (256 ^ (7 - i) * w.toNat)) := by
      rw [h64, ← Nat.mul_assoc 256, ← pow_succ', ← Nat.mul_assoc, ← pow_add]
      congr 2; omega
    rw [hp, Nat.add_mul_div_left _ _ (by positivity)]
    simp [Nat.add_mul_mod_self_left]
  · rw [List.getD_append_right _ _ _ _ (by simpa using hi8), natBytes_length, natBytes_getD, if_pos (by omega)]
    have hp : (256 : Nat) ^ i = 256 ^ 8 * 256 ^ (i - 8) := by rw [← pow_add]; congr 1; omega
    rw [hp, ← Nat.div_div_eq_div_mul, h64, Nat.add_mul_div_left _ _ (by positivity), Nat.div_eq_of_lt hv, Nat.zero_add]

end bytes

/-- Settles O6: each store is the shared store with the cells of its register or registers. -/
theorem storeResults : Obligations.StoreResults := by
  unfold Obligations.StoreResults
  intro s e st d a off imm o
  have one (size : Nat) (hs : size ≤ 8) : cellsAt o (([d].flatMap fun r => natBytes 8 (e.c.th.rg r).toNat).take size)
      = (List.range size).map fun i => (o + i, BitVec.ofNat 8 ((e.c.th.rg d).toNat / 256 ^ i)) := by
    simpa using cellsAt_one o (e.c.th.rg d) hs
  have two : cellsAt o (([d, d + 1].flatMap fun r => natBytes 8 (e.c.th.rg r).toNat).take 16)
      = (List.range 16).map fun i =>
        (o + i, BitVec.ofNat 8 (((e.c.th.rg d).toNat + 2 ^ 64 * (e.c.th.rg (d + 1)).toNat) / 256 ^ i)) := by
    simpa using cellsAt_two o (e.c.th.rg d) (e.c.th.rg (d + 1))
  refine ⟨?_, ?_, ?_, ?_, ?_, ?_⟩ <;> rintro ⟨hr, ha, hp, hw, hc, hn, hh, hb⟩
  · exact store_next (d := dispL off 1) hr ha (by simpa [dispL] using hp) hw hc hn hh hb _ _ (one 1 (by omega)) (by simp)
  · exact store_next hr ha hp hw hc hn hh hb _ _ (one 2 (by omega)) (by simp)
  · exact store_next hr ha hp hw hc hn hh hb _ _ (one 4 (by omega)) (by simp)
  · exact store_next hr ha hp hw hc hn hh hb _ _ (one 8 (by omega)) (by simp)
  · exact store_next hr ha hp hw hc hn hh hb _ _ two (by simp)
  · exact store_next hr ha hp hw hc hn hh hb _ _ (one 8 (by omega)) (by simp)

end Sys2Proof.Machine
end

