-- ==== Sys2Proof/Proofs/Loads.lean ====
section
/-! SUPPORT and PROOF. What a load sees of memory and of its context's store buffer (R124 to R126), and how it extends what it
reads. -/

namespace Sys2Proof.Machine

section buffer

/-- The youngest entry that covers a byte is the one that forwards it (R124). -/
theorem forwarded_eq {a : Nat} {b : Byte} {ys zs : List SbEntry} {x : SbEntry} (hx : AMap.find x.data a = some b)
    (hz : forwarded a zs = none) : forwarded a (ys ++ x :: zs) = some b := by
  induction ys with
  | nil => simp [forwarded, hz, hx]
  | cons y t ih => simp [forwarded, ih]

/-- A byte that no entry covers is not forwarded. -/
theorem forwarded_none {a : Nat} {l : List SbEntry} (h : ∀ x ∈ l, AMap.find x.data a = none) : forwarded a l = none := by
  induction l with
  | nil => rfl
  | cons y t ih =>
    simp only [List.mem_cons, forall_eq_or_imp] at h
    simp [forwarded, ih h.2, h.1]

/-- A poisoned frame store of the context waits for the granule of offset o (R126). -/
def Ctx.PoisonWaits (c : Ctx) (t : Tile) (o : Nat) : Prop :=
  ∃ x ∈ c.sb, x.pois = true ∧ t.carve.region o = .frame ∧ x.addr / 64 = o / 64

theorem sbHits_eq_nil {c : Ctx} {o n : Nat} (h : ∀ x ∈ c.sb, overlaps x.addr x.len o n = false) : c.sbHits o n = [] := by
  simpa [Ctx.sbHits] using h

theorem mem_sbHits {c : Ctx} {o n : Nat} {x : SbEntry} : x ∈ c.sbHits o n ↔ x ∈ c.sb ∧ overlaps x.addr x.len o n = true :=
  List.mem_filter

/-- What a load sees, with the tests of its holds as propositions. -/
theorem loadBytes_eq (c : Ctx) (t : Tile) (o n : Nat) (hw : ¬ c.PoisonWaits t o)
    (hv : ∀ x ∈ c.sbHits o n, x.abinit = false ∧ x.vec = false) :
    loadBytes c t o n
      = if (c.sbHits o n).isEmpty then some (t.sram.readBytes o n)
        else if ((List.range n).map fun i => forwarded (o + i) (c.sbHits o n)).all Option.isSome
          then some (((List.range n).map fun i => forwarded (o + i) (c.sbHits o n)).map fun b => b.getD 0) else none := by
  have h1 : (c.sb.any fun x => x.pois && t.carve.region o == .frame && decide (x.addr / 64 = o / 64)) = false := by
    simp only [List.any_eq_false, Bool.and_eq_true, beq_iff_eq, decide_eq_true_eq]
    exact fun x hx h => hw ⟨x, hx, h.1.1, h.1.2, h.2⟩
  have h2 : ((c.sbHits o n).any fun x => x.abinit || x.vec) = false := by
    simp only [List.any_eq_false]
    exact fun x hx => by simp [hv x hx]
  exact if_neg (by simp [h1, h2])

/-- Where no buffered store overlaps a load it sees memory (R124). -/
theorem loadBytes_memory {c : Ctx} {t : Tile} {o n : Nat} (hw : ¬ c.PoisonWaits t o)
    (h : ∀ x ∈ c.sb, overlaps x.addr x.len o n = false) : loadBytes c t o n = some (t.sram.readBytes o n) := by
  rw [loadBytes_eq c t o n hw (by simp [sbHits_eq_nil h]), sbHits_eq_nil h]; rfl

/-- Entry x of the buffer is the youngest that overlaps the load and covers address a (R124). -/
def Ctx.Covers (c : Ctx) (o n a : Nat) (b : Byte) : Prop :=
  ∃ ys x zs, c.sb = ys ++ x :: zs ∧ overlaps x.addr x.len o n = true ∧ AMap.find x.data a = some b
    ∧ ∀ z ∈ zs, overlaps z.addr z.len o n = true → AMap.find z.data a = none

theorem Ctx.Covers.forwarded {c : Ctx} {o n a : Nat} {b : Byte} (h : c.Covers o n a b) :
    forwarded a (c.sbHits o n) = some b := by
  obtain ⟨ys, x, zs, hsb, hx, hb, hz⟩ := h
  have : c.sbHits o n = ys.filter (fun x => overlaps x.addr x.len o n)
      ++ x :: zs.filter (fun x => overlaps x.addr x.len o n) := by
    simp [Ctx.sbHits, hsb, hx]
  rw [this]
  exact forwarded_eq hb (forwarded_none fun z hz' => hz z (List.mem_filter.mp hz').1 (List.mem_filter.mp hz').2)

/-- Where buffered stores cover every byte of a load it sees the youngest of each (R124). -/
theorem loadBytes_buffer {c : Ctx} {t : Tile} {o n : Nat} {bs : List Byte} (hw : ¬ c.PoisonWaits t o)
    (hv : ∀ x ∈ c.sb, overlaps x.addr x.len o n = true → x.abinit = false ∧ x.vec = false) (h0 : 0 < n) (hn : bs.length = n)
    (h : ∀ i < n, c.Covers o n (o + i) (bs.getD i 0)) : loadBytes c t o n = some bs := by
  rw [loadBytes_eq c t o n hw fun x hx => hv x (mem_sbHits.mp hx).1 (mem_sbHits.mp hx).2]
  have hmap : ((List.range n).map fun i => Machine.forwarded (o + i) (c.sbHits o n)) = bs.map some := by
    refine List.ext_getElem (by simp [hn]) fun i hi _ => ?_
    simp only [List.length_map, List.length_range] at hi
    have := (h i hi).forwarded
    rw [List.getD_eq_getElem _ _ (hn ▸ hi)] at this
    simpa using this
  have hne : (c.sbHits o n).isEmpty = false := by
    obtain ⟨ys, x, zs, hsb, hx, -⟩ := h 0 h0
    exact List.isEmpty_eq_false_iff_exists_mem.mpr ⟨x, mem_sbHits.mpr ⟨by simp [hsb], hx⟩⟩
  rw [hne, hmap, if_neg Bool.false_ne_true, if_pos (by simp)]
  simp [Function.comp_def]

/-- A poisoned frame store in the granule holds the load (R126). -/
theorem loadBytes_poisoned {c : Ctx} {t : Tile} {o n : Nat} (h : c.PoisonWaits t o) : loadBytes c t o n = none := by
  obtain ⟨x, hx, hp, hr, hg⟩ := h
  have : (c.sb.any fun x => x.pois && t.carve.region o == .frame && decide (x.addr / 64 = o / 64)) = true :=
    List.any_eq_true.mpr ⟨x, hx, by simp [hp, hr, hg]⟩
  exact if_pos (by simp [this])

/-- An ABINIT or a vector store that overlaps the load holds it (R124, R148, R171). -/
theorem loadBytes_uncombined {c : Ctx} {t : Tile} {o n : Nat} {x : SbEntry} (hx : x ∈ c.sb)
    (ho : overlaps x.addr x.len o n = true) (h : x.abinit = true ∨ x.vec = true) : loadBytes c t o n = none := by
  have : ((c.sbHits o n).any fun x => x.abinit || x.vec) = true :=
    List.any_eq_true.mpr ⟨x, mem_sbHits.mpr ⟨hx, ho⟩, by simpa using h⟩
  exact if_pos (by simp [this])

/-- A byte that no overlapping store covers holds the load (R124). -/
theorem loadBytes_uncovered {c : Ctx} {t : Tile} {o n i : Nat} {x : SbEntry} (hx : x ∈ c.sb)
    (ho : overlaps x.addr x.len o n = true) (hi : i < n)
    (h : ∀ y ∈ c.sb, overlaps y.addr y.len o n = true → AMap.find y.data (o + i) = none) : loadBytes c t o n = none := by
  by_cases hw : c.PoisonWaits t o
  · exact loadBytes_poisoned hw
  by_cases hv : ∀ x ∈ c.sbHits o n, x.abinit = false ∧ x.vec = false
  · have hne : (c.sbHits o n).isEmpty = false := List.isEmpty_eq_false_iff_exists_mem.mpr ⟨x, mem_sbHits.mpr ⟨hx, ho⟩⟩
    have hf : Machine.forwarded (o + i) (c.sbHits o n) = none :=
      forwarded_none fun y hy => h y (mem_sbHits.mp hy).1 (mem_sbHits.mp hy).2
    rw [loadBytes_eq c t o n hw hv, hne, if_neg Bool.false_ne_true, if_neg]
    simp only [List.all_map, List.all_eq_true, List.mem_range, Function.comp_apply, not_forall]
    exact ⟨i, hi, by simp [hf]⟩
  · push Not at hv
    obtain ⟨y, hy, hyv⟩ := hv
    refine loadBytes_uncombined (mem_sbHits.mp hy).1 (mem_sbHits.mp hy).2 ?_
    by_cases ha : y.abinit = false
    · exact .inr (by simpa using hyv ha)
    · exact .inl (by simpa using ha)

end buffer

section extension

theorem natOfBytes_append (l k : List Byte) : natOfBytes (l ++ k) = natOfBytes l + 2 ^ (8 * l.length) * natOfBytes k := by
  induction l with
  | nil => simp [natOfBytes]
  | cons b t ih =>
    simp only [List.cons_append, natOfBytes, ih, List.length_cons, Nat.mul_add, pow_add]
    ring

/-- The first bytes of a run are the low bits of its value, and the others the high bits. -/
theorem natOfBytes_split {bs : List Byte} {k : Nat} (h : k ≤ bs.length) :
    natOfBytes (bs.take k) = natOfBytes bs % 2 ^ (8 * k) ∧ natOfBytes (bs.drop k) = natOfBytes bs / 2 ^ (8 * k) := by
  have hl : (bs.take k).length = k := by simpa using h
  have happ := natOfBytes_append (bs.take k) (bs.drop k)
  have hlt := natOfBytes_lt (bs.take k)
  rw [List.take_append_drop, hl] at happ
  rw [hl] at hlt
  rw [happ, Nat.add_mul_mod_self_left, Nat.mod_eq_of_lt hlt, Nat.add_mul_div_left _ _ (by positivity), Nat.div_eq_of_lt hlt,
    Nat.zero_add]
  exact ⟨rfl, rfl⟩

/-- A signed load extends the sign of the bytes that it reads (R125). -/
theorem extendLoad_signed {bs : List Byte} {n : Nat} (h : 8 * bs.length = n) :
    extendLoad true bs = BitVec.ofInt 64 (BitVec.ofNat n (natOfBytes bs)).toInt := by
  have hlt : natOfBytes bs < 2 ^ n := h ▸ natOfBytes_lt bs
  have hm : natOfBytes bs % 2 ^ n = natOfBytes bs := Nat.mod_eq_of_lt hlt
  simp only [extendLoad, h, true_and, BitVec.toInt_eq_toNat_cond, BitVec.toNat_ofNat, hm]
  rcases Nat.eq_zero_or_pos n with rfl | hn
  · have hz : natOfBytes bs = 0 := by omega
    simp [hz, w64]
  have hp : 2 ^ n = 2 * 2 ^ (n - 1) := by rw [← pow_succ']; congr 1; omega
  by_cases hc : 2 ^ (n - 1) ≤ natOfBytes bs
  · rw [if_pos hc, if_neg (by omega)]; simp
  · rw [if_neg hc, if_pos (by omega)]; simp [w64]

end extension

section issue

/-- A load that may not see its bytes yet is held (R124, R126). -/
theorem loadValue_hold {e : Env} {a : GReg} {d : Int} {size o : Nat} (h : PassesLocal e a d size o)
    (ha : e.acquiring = false) (hr : ReadableAt e o) (hc : e.cellHits o size = false) (hb : loadBytes e.c e.t o size = none) :
    loadValue (markWrong e) a d size = .error .hold := by
  refine (bind_need (by simp [ha])).trans ((bind_ok (checkLocal_load h.mark)).trans ?_)
  have hrest : (do need (!(markWrong e).cellHits o size) .hold
                   match loadBytes (markWrong e).c (markWrong e).t o size with
                   | some bs => return (bs, (markWrong e).t.granPois o)
                   | none => .error .hold : Except Stop (List Byte × Bool)) = .error .hold := by
    refine (bind_need (by simp [hc])).trans ?_
    rw [show loadBytes (markWrong e).c (markWrong e).t o size = none from hb]
  by_cases hg : e.t.carve.region o = .block
  · exact (if_pos hg).trans ((bind_ok (blockLoad_ok (e := markWrong e) hr hg)).trans hrest)
  · exact (if_neg hg).trans hrest

/-- LDP writes two registers (R125). -/
theorem loadPair_next {s : State} {e : Env} {st : Stall} {d a : GReg} {off : BitVec 11} {o : Nat} {bs : List Byte}
    (hr : Ready s e (op32 st .all false 8 [.g a])) (ha : e.acquiring = false) (h : PassesLocal e a (off.toInt * 16) 16 o)
    (hrd : ReadableAt e o) (hc : e.cellHits o 16 = false) (hb : loadBytes e.c e.t o 16 = some bs) :
    execLdp st d a off s = .next (e.loadResult (op32 st .all false 8 [.g a]) [o / 64]
      [.g d (extendLoad false (bs.take 8)) (e.t.granPois o), .g (d + 1) (extendLoad false (bs.drop 8)) (e.t.granPois o)]) := by
  have h1 := loadValue_ok h ha hrd hc hb
  have ho : (((ptrOff (e.c.th.rg a) : Nat) : Int) + dispL off 16).toNat = o := by
    have := h.names.offset; simp only [ptrOff, fld, dispL] at *; omega
  refine (issue_done hr ((bind_ok h1).trans rfl)).trans ?_
  simp only [Env.loaded, markWrong_th, ho]
  rw [readGrans_markWrong]
  unfold Env.loadResult Env.readGrans
  split <;> rfl

/-- Whatever a load makes of its bytes, it is held where it may not see them yet. -/
theorem loadHeld_next {s : State} {e : Env} {op : Op} {a : GReg} {d : Int} {size o : Nat} (hr : Ready s e op)
    (ha : e.acquiring = false) (h : PassesLocal e a d size o) (hrd : ReadableAt e o) (hc : e.cellHits o size = false)
    (hb : loadBytes e.c e.t o size = none) {f : Env → List Byte × Bool → Except Stop Res1} :
    issue s op (fun e => loadValue e a d size >>= f e) = .next (e.put e.t { e.c with spent := e.s.cycle + 1 }) :=
  issue_hold hr (bind_error (loadValue_hold h ha hrd hc hb))

end issue

/-- Settles O5: the bytes are those that loadBytes answers, and each load extends them its own way. -/
theorem loadResults : Obligations.LoadResults := by
  unfold Obligations.LoadResults
  refine ⟨?_, ?_⟩
  · intro s e st d a off imm o bs sees waits may loads v op signed p
    have hsees {n : Nat} (h0 : 0 < n) (h : sees n) : loadBytes e.c e.t o n = some bs ∧ bs.length = n := by
      obtain ⟨hp, ⟨hm, rfl⟩ | ⟨hv, hn, hcov⟩⟩ := h
      · exact ⟨loadBytes_memory (fun ⟨x, hx, h1, h2, h3⟩ => hp x hx h1 h2 h3) hm, readBytes_length ..⟩
      · exact ⟨loadBytes_buffer (fun ⟨x, hx, h1, h2, h3⟩ => hp x hx h1 h2 h3) hv h0 hn hcov, hn⟩
    have hwaits {n : Nat} (h : waits n) : loadBytes e.c e.t o n = none := by
      obtain h | ⟨x, hx, hov, h | h | ⟨i, hi, h⟩⟩ := h
      · exact loadBytes_poisoned h
      · exact loadBytes_uncombined hx hov (.inl h)
      · exact loadBytes_uncombined hx hov (.inr h)
      · exact loadBytes_uncovered hx hov hi h
    have single {i : Instr} {op : Op} {a : GReg} {disp : Int} {n : Nat} {sg : Bool} {w : Word}
        (hi : exec i s = loadIssue op d a disp n sg s) (hm : op.major = 8) (h0 : 0 < n) (h : may op a disp n)
        (hw : bs.length = n → extendLoad sg bs = w) : loads i op n [.g d w p] := by
      obtain ⟨hr, ha, hp, hrd, hc⟩ := h
      refine ⟨fun hs => ?_, fun hs => ?_⟩
      · obtain ⟨hb, hn⟩ := hsees h0 hs
        rw [hi, load_next hr hm ha hp hrd hc hb, hw hn]
      · rw [hi]
        exact loadHeld_next hr ha hp hrd hc (hwaits hs)
    have unsigned {k : List Byte} : extendLoad false k = BitVec.ofNat 64 (natOfBytes k) := rfl
    refine ⟨fun h => ?_, fun h => ?_, fun h => ?_, fun h => ?_, fun h => ?_, fun h => ?_⟩
    · rw [← mul_one off.toInt] at h
      exact ⟨single rfl rfl (by omega) h fun hn => extendLoad_signed (by omega), single rfl rfl (by omega) h fun _ => unsigned⟩
    · exact ⟨single rfl rfl (by omega) h fun hn => extendLoad_signed (by omega), single rfl rfl (by omega) h fun _ => unsigned⟩
    · exact ⟨single rfl rfl (by omega) h fun hn => extendLoad_signed (by omega), single rfl rfl (by omega) h fun _ => unsigned⟩
    · exact single rfl rfl (by omega) h fun _ => unsigned
    · obtain ⟨hr, ha, hp, hrd, hc⟩ := h
      refine ⟨fun hs => ?_, fun hs => loadHeld_next hr ha hp hrd hc (hwaits hs)⟩
      obtain ⟨hb, hn⟩ := hsees (by omega) hs
      obtain ⟨hlow, hhigh⟩ := natOfBytes_split (bs := bs) (k := 8) (by omega)
      refine (loadPair_next hr ha hp hrd hc hb).trans ?_
      rw [unsigned, unsigned, hlow, hhigh]
    · exact single rfl rfl (by omega) h fun _ => unsigned
  · intro c t o n hsb
    have hw : ¬ c.PoisonWaits t o := fun ⟨x, hx, h, _⟩ => by simp [(hsb x hx).2.2] at h
    refine ⟨loadBytes_memory hw, fun x ys hys h0 ha hl hd => ?_, fun i hi ⟨x, hx, ho⟩ hf => ?_⟩
    · refine loadBytes_buffer hw (fun x hx _ => ⟨(hsb x hx).1, (hsb x hx).2.1⟩) h0 (by simp) fun i hi => ?_
      obtain ⟨b, hb⟩ := Option.isSome_iff_exists.mp (hd i hi)
      refine ⟨ys, x, [], hys, by simp [overlaps, ha, hl, h0], ?_, by simp⟩
      simp [hi, AMap.getD, hb]
    · exact loadBytes_uncovered hx ho hi fun y hy _ => hf y hy

end Sys2Proof.Machine
end

