-- ==== Sys2Proof/Proofs/Blocks.lean ====
section
/-! SUPPORT and PROOF. The block instructions where their row of R19 lets them (R128 to R134). -/

namespace Sys2Proof.Machine

section issue

variable {s : State} {e : Env} {op : Op} {body : Env → Except Stop Res1}

/-- An instruction that waits past unresolved branches finds nothing to note on a wrong path. -/
theorem Ready.body_eq (h : Ready s e op) (hw : op.waits = true) : body (markWrong e) = body e :=
  congrArg body (markWrong_eq (h.branch hw))

/-- Such an instruction that completes and leaves its registers as they are. -/
theorem plain_next (h : Ready s e op) (hw : op.waits = true) (hb : body e = fin e) :
    issue s op body = .next (e.plain op (e.seqPc op)) := by
  have hm := markWrong_eq (h.branch hw)
  refine (issue_done h ((h.body_eq hw).trans hb)).trans ?_
  rw [← close_plain, hm]

/-- Such an instruction that completes with a result. -/
theorem result_next (h : Ready s e op) (hw : op.waits = true) {lat : Nat} {ws : List RegWrite} {flags : BitVec 5}
    (hb : body e = fin (e.fixed lat ws flags op.major)) : issue s op body = .next (e.result op lat ws flags) := by
  have hm := markWrong_eq (h.branch hw)
  refine (issue_done h ((h.body_eq hw).trans hb)).trans ?_
  rw [← close_result, hm]

/-- Such an instruction that traps. -/
theorem waits_trap (h : Ready s e op) (hw : op.waits = true) (hx : e.s.cur.ctx ≠ 17) {cause form : Nat} {v v2 : Word}
    (hb : body e = .error (.trap cause form v v2)) : issue s op body = .next (e.trapped cause form v v2) :=
  trap_next h (h.branch hw) hx ((h.body_eq hw).trans hb)

end issue

/-- The owner's row of R19 for BOPEN, BCOMMIT, BPOIS and BFILL. -/
theorem OwnsBlock.check {e : Env} {b : Nat} (h : OwnsBlock e b) :
    decide ((e.t.block b).owner = e.me ∧ (e.t.block b).armed = false) = true := decide_eq_true ⟨h.2.1, h.2.2⟩

/-- The tile changed as a whole, and the acting context read back from it. -/
theorem onTile_eq {s : State} {e : Env} (h : s.env? = some e) (f : Tile → Tile) :
    e.onTile f = { e with t := f e.t, c := (f e.t).ctx e.s.cur.ctx } := by
  simp only [Env.onTile, sync_self h]; rfl

/-- Settles O7: behind BlockTarget each instruction meets the row of R19 that its conditions name. -/
theorem blockResults : Obligations.BlockResults := by
  unfold Obligations.BlockResults
  intro s e st d a off b hb ha m mine drained op1 op2 v
  have first (ct : Bool) : blockFirst e a off ct = .ok b := blockFirst_ok ct hb ha
  have clean (h : e.c.th.pg d = false) : needCleanG e d = .ok () := need_pos _ (by simp [h])
  refine ⟨fun hr => ⟨fun hm => ?_, fun ho => ?_, fun ho hd => ⟨?_, fun hh => ?_⟩, ?_⟩, fun hr hm => ?_, fun hr hd hread ho => ?_,
    fun hr hd hm hlo hhi => ?_, fun hr hd hm hdr hh => ?_⟩
  · refine tiled_next hr rfl (fun t => t.setBlock b mine) ?_
    refine (bind_ok (first true)).trans ?_
    simp only [show (e.t.block b).state = .empty from hm]
    rfl
  · refine plain_next hr rfl ?_
    refine (bind_ok (first true)).trans ?_
    simp only [ho.1]
    exact bind_need ho.check
  · refine tiled_next hr rfl (fun t => t.commit e.s.cycle e.det b) ?_
    exact (bind_ok (first true)).trans ((bind_need (drained_ok hd)).trans (bind_ok (needOwned_ok ho)))
  · refine tiled_next hr rfl (fun t => (t.setPoisAll (t.blockGrans b)).commit e.s.cycle e.det b) ?_
    exact (bind_ok (first true)).trans ((bind_need (by simp [drained_ok hd, hh])).trans (bind_ok (needOwned_ok ho)))
  · refine result_next hr rfl ?_
    refine (bind_ok (first false)).trans ?_
    rw [sync_self hr.env]
    rfl
  · refine plain_next hr rfl ?_
    exact (bind_ok (first true)).trans (bind_need (decide_eq_true hm))
  · refine tiled_next hr rfl (fun t => t.clear e.s.cycle b (if v.extractLsb' 0 6 ≠ 0 then v.extractLsb' 0 6 else nextTag m.gen)) ?_
    refine (bind_ok (first true)).trans ((bind_ok (clean hd)).trans ?_)
    obtain hn | ⟨ho, hdr⟩ := ho
    · have hs : ((e.t.block b).state == .deferred) = false := by simpa using hn
      exact (bind_need (by simp [hs])).trans ((bind_need (by simp [hread])).trans (bind_need (by simp [hs])))
    · have hown : (decide ((e.t.block b).owner = e.me) && !(e.t.block b).armed) = true := by simp [ho.2.1, ho.2.2, Env.me]
      exact (bind_need (by simp [drained_ok hdr])).trans ((bind_need (by simp [hread])).trans (bind_need (by simp [hown])))
  · refine tiled_next hr rfl (fun t => (t.arm b v.toNat).wakePool e.s.cycle true (some b)) ?_
    refine (bind_ok (first true)).trans ((bind_ok (clean hd)).trans ((bind_need (decide_eq_true ⟨hlo, hhi⟩)).trans ?_))
    simp only [show (e.t.block b).state = .empty from hm]
    rfl
  · have hfull : (e.t.block b).state ≠ .full := by
      obtain h | h := hm
      · simp [show (e.t.block b).state = .empty from h]
      · simp [h.1]
    have hmay : (e.t.block b).state = .empty ∨ ((e.t.block b).owner = e.me ∧ (e.t.block b).armed = false) := hm.imp_right And.right
    refine (issue_stay (e' := { e with
      t := e.t.setBlock b mine
      c := { e.c with busy := .fill b (e.s.cycle + 16) v 0, th := { e.c.th with skips := st.val } } }) hr ((hr.body_eq rfl).trans ?_)).trans ?_
    · refine (bind_ok (first true)).trans ((bind_ok (clean hd)).trans ((bind_need (decide_eq_true hfull)).trans
        ((bind_need (by simp [drained_ok hdr, hh])).trans ((bind_need (decide_eq_true hmay)).trans ?_))))
      rw [onTile_eq hr.env, show (e.t.setBlock b _).ctx e.s.cur.ctx = e.c from (env_ctx hr.env).2.1.symm]
      rfl
    · rw [atIssue_eq (hr.branch rfl)]
      rfl

end Sys2Proof.Machine
end

