-- ==== Sys2Proof/Proofs/Control.lean ====
section
/-! SUPPORT and PROOF. The control words that MFC reads and MTC writes (R34, R226 to R229). -/

namespace Sys2Proof.Machine

section words

variable {s : State} {e : Env} {n : Nat}

/-- Every number that R34 lists names a word. -/
theorem controlWord_of_listed (e : Env) (h : listedWord n = true) : ∃ w, controlWord e n = some w := by
  unfold controlWord
  split
  case h_25 =>
    refine ⟨_, if_pos ?_⟩
    simp only [listedWord, Bool.or_eq_true, Bool.and_eq_true, decide_eq_true_eq, beq_iff_eq] at h
    simp only [imp_false] at *
    omega
  all_goals exact ⟨_, rfl⟩

theorem listedWord_of_svWord (h : svWord n = true) : listedWord n = true := by
  simp only [svWord, listedWord, Bool.or_eq_true, Bool.and_eq_true, decide_eq_true_eq, beq_iff_eq] at h ⊢
  omega

/-- A listed word passes its checks where it is not marked SV, and in SV (R34). -/
theorem needWord_ok (hl : listedWord n = true) (hs : svWord n = false ∨ e.s.cur.ctx = 17) :
    needWord e n = .ok ((controlWord e n).getD 0) := by
  obtain ⟨w, hw⟩ := controlWord_of_listed e hl
  unfold needWord
  rw [hw]
  exact (bind_need (by obtain hs | hs := hs <;> simp [hs, Env.me])).trans rfl

/-- A word marked SV raises PRIVILEGE in any other context (R34). -/
theorem needWord_priv (h : svWord n = true) (hs : e.s.cur.ctx ≠ 17) :
    needWord e n = .error (.trap cPriv 1 e.bits (w64 n)) := by
  obtain ⟨w, hw⟩ := controlWord_of_listed e (listedWord_of_svWord h)
  unfold needWord
  rw [hw]
  exact bind_fail (by simp [h, hs, Env.me])

end words

section reads

variable {s : State} {e : Env} {st : Stall} {d : GReg} {n : Nat}

/-- MFC reads the word as it stands (R226, R227). -/
theorem mfc_next {w : Word} (hr : Ready s e (op32 st .all false 24 [])) (hn : n < 2 ^ 11) (hl : listedWord n = true)
    (hs : svWord n = false ∨ e.s.cur.ctx = 17) (hw : controlWord e n = some w) :
    exec (.mfc st d (BitVec.ofNat 11 n)) s = .next (e.result (op32 st .all false 24 []) 1 [.g d w false] 0) := by
  have hcw : (BitVec.ofNat 11 n).toNat = n := Nat.mod_eq_of_lt hn
  have hword : needWord (markWrong e) (BitVec.ofNat 11 n).toNat = .ok w := by
    rw [hcw, needWord_ok (e := markWrong e) hl hs, show controlWord (markWrong e) n = some w from hw]; rfl
  refine (issue_done (x := { e := (markWrong e).fixed 1 [.g d w false] 0 24 }) hr ?_).trans rfl
  exact bind_ok hword

theorem mfc_priv (hr : Ready s e (op32 st .all false 24 [])) (hsp : e.speculative = false) (hn : n < 2 ^ 11)
    (hs : svWord n = true) (hx : e.s.cur.ctx ≠ 17) :
    exec (.mfc st d (BitVec.ofNat 11 n)) s = .next (e.trapped cPriv 1 e.bits (w64 n)) := by
  have hcw : (BitVec.ofNat 11 n).toNat = n := Nat.mod_eq_of_lt hn
  refine trap_next hr hsp hx (bind_error ?_)
  rw [hcw]
  exact needWord_priv hs hx

end reads

section writes

variable {s : State} {e : Env} {op : Op} {body : Env → Except Stop Res1}

/-- An instruction that waits past unresolved branches, completes and changes its thread alone. -/
theorem thread_next {th : Thread} (h : Ready s e op) (hw : op.waits = true) (hpc : th.pc = e.c.th.pc)
    (hb : body e = fin (e.withTh th)) :
    issue s op body = .next (e.put e.t { e.c.atIssue e.s.cycle with th := th.past op (e.seqPc op) }) := by
  refine (issue_done h ((h.body_eq hw).trans hb)).trans ?_
  rw [atIssue_eq (h.branch hw), Env.seqPc, ← hpc]
  rfl

/-- Such an instruction that changes the tile's own words alone. -/
theorem tile_next {t : Tile} (h : Ready s e op) (hw : op.waits = true) (hb : body e = fin { e with t }) :
    issue s op body = .next (e.put t { e.c.atIssue e.s.cycle with th := e.c.th.past op (e.seqPc op) }) := by
  refine (issue_done h ((h.body_eq hw).trans hb)).trans ?_
  rw [atIssue_eq (h.branch hw)]
  rfl

variable {st : Stall} {a : GReg} {n : Nat}

/-- Where a word may be written MTC reads gA (R34, R78). -/
theorem opMtc_eq (he : e.s = s) (hn : n < 2 ^ 11) (hl : listedWord n = true) (hs : svWord n = false ∨ e.s.cur.ctx = 17) :
    opMtc st (BitVec.ofNat 11 n) a s.cur.ctx = op32 st .all true 24 [.g a] := by
  have hcw : (BitVec.ofNat 11 n).toNat = n := Nat.mod_eq_of_lt hn
  subst he
  unfold opMtc
  rw [hcw, if_pos (by obtain hs | hs := hs <;> simp [hl, hs])]
  rfl

/-- An MTC of a word that its context may write reads gA whatever it then does. -/
theorem mtc_eq (he : e.s = s) (hn : n < 2 ^ 11) (hl : listedWord n = true) (hs : svWord n = false ∨ e.s.cur.ctx = 17)
    (hb : exec (.mtc st (BitVec.ofNat 11 n) a) s = issue s (opMtc st (BitVec.ofNat 11 n) a s.cur.ctx) body) :
    exec (.mtc st (BitVec.ofNat 11 n) a) s = issue s (op32 st .all true 24 [.g a]) body := by
  rw [hb, opMtc_eq he hn hl hs]

/-- The words that MTC writes (R228, R229); the others that are listed it leaves as they are (R6). -/
def mtcWords : List Nat := [0x008, 0x009, 0x00A, 0x021, 0x024, 0x025, 0x041]

theorem mtc_ignored (hr : Ready s e (op32 st .all true 24 [.g a])) (hp : e.c.th.pg a = false) (hn : n < 2 ^ 11)
    (hl : listedWord n = true) (hs : svWord n = false ∨ e.s.cur.ctx = 17) (hnot : n ∉ mtcWords) :
    exec (.mtc st (BitVec.ofNat 11 n) a) s
      = .next (e.put e.t { e.c.atIssue e.s.cycle with
          th := e.c.th.past (op32 st .all true 24 [.g a]) (e.seqPc (op32 st .all true 24 [.g a])) }) := by
  have hcw : (BitVec.ofNat 11 n).toNat = n := Nat.mod_eq_of_lt hn
  have hclean : needCleanG e a = .ok () := need_pos _ (by simp [hp])
  refine (mtc_eq (env_ctx hr.env).2.2 hn hl hs rfl).trans (tile_next hr rfl ?_)
  rw [hcw]
  refine (bind_ok (needWord_ok hl hs)).trans ((bind_ok hclean).trans ?_)
  split
  case h_8 => rfl
  all_goals exact absurd (by simp [mtcWords]) hnot

theorem mtc_priv (hr : Ready s e (op32 st .all true 24 [])) (hn : n < 2 ^ 11) (hs : svWord n = true) (hx : e.s.cur.ctx ≠ 17) :
    exec (.mtc st (BitVec.ofNat 11 n) a) s = .next (e.trapped cPriv 1 e.bits (w64 n)) := by
  have hcw : (BitVec.ofNat 11 n).toNat = n := Nat.mod_eq_of_lt hn
  have hop : opMtc st (BitVec.ofNat 11 n) a s.cur.ctx = op32 st .all true 24 [] := by
    have hme : s.cur.ctx ≠ 17 := (env_ctx hr.env).2.2 ▸ hx
    unfold opMtc
    rw [hcw, if_neg (by simp [hs, hme])]
    rfl
  show issue s (opMtc st (BitVec.ofNat 11 n) a s.cur.ctx) _ = _
  rw [hop]
  refine trap_next hr (hr.branch rfl) hx (bind_error ?_)
  rw [hcw]
  exact needWord_priv hs hx

theorem needTrapAddr_ok {v : Word} (h : v.toNat < 2 ^ 20 ∧ v.toNat % 2 = 0) : needTrapAddr v = .ok () :=
  need_pos _ (decide_eq_true (by simp only [fld]; omega))

end writes

/-- Settles O32: a word passes its checks, and then MFC reads what controlWord names and MTC writes what its row says. -/
theorem controlWords : Obligations.ControlWords := by
  unfold Obligations.ControlWords
  refine ⟨?_, ?_⟩
  · intro s e st d op reads t hr
    have read {n : Nat} {w : Word} (hn : n < 2 ^ 11) (hl : listedWord n = true) (hs : svWord n = false ∨ e.s.cur.ctx = 17)
        (hw : controlWord e n = some w) : reads n w := mfc_next hr hn hl hs hw
    have free {n : Nat} {w : Word} (h : n < 2 ^ 11 ∧ listedWord n = true ∧ svWord n = false) (hw : controlWord e n = some w) :
        reads n w := read h.1 h.2.1 (.inl h.2.2) hw
    have inSv (h17 : e.s.cur.ctx = 17) {n : Nat} {w : Word} (h : n < 2 ^ 11 ∧ listedWord n = true)
        (hw : controlWord e n = some w) : reads n w := read h.1 h.2 (.inr h17) hw
    refine ⟨free (by decide) rfl, free (by decide) rfl, free (by decide) rfl, free (by decide) rfl, free (by decide) rfl,
      free (by decide) (by simp [controlWord, Nat.mul_comm]), free (by decide) ?_, free (by decide) rfl, free (by decide) rfl,
      free (by decide) rfl, free (by decide) rfl, free (by decide) rfl, free (by decide) rfl, free (by decide) rfl,
      fun k hk => ?_, free (by decide) rfl, free (by decide) rfl, fun h17 => ?_, fun hx hsp n hn => ?_⟩
    · have h8 : b2n e.det * 8 = if e.det then 8 else 0 := by cases e.det <;> rfl
      simp only [controlWord, tstatWord, h8, Nat.mul_comm]
    · have hl : ∀ k < 8, 0x010 + k < 2 ^ 11 ∧ listedWord (0x010 + k) = true ∧ svWord (0x010 + k) = false := by decide
      refine free (hl k hk) ?_
      interval_cases k <;> rfl
    · refine ⟨inSv h17 (by decide) rfl, inSv h17 (by decide) rfl, inSv h17 (by decide) rfl, inSv h17 (by decide) rfl,
        inSv h17 (by decide) rfl, inSv h17 (by decide) rfl, inSv h17 (by decide) ?_, inSv h17 (by decide) ?_⟩
      · cases h : e.det <;> simp [controlWord, h, b2n, w64]
      · cases h : e.det <;> cases h' : t.stallchk <;> simp [controlWord, h, show e.t.stallchk = _ from h', b2n, w64]
    · have hsv : ∀ n ∈ [0x020, 0x021, 0x022, 0x023, 0x024, 0x025, 0x040, 0x041], n < 2 ^ 11 ∧ svWord n = true := by decide
      exact mfc_priv hr hsp (hsv n hn).1 (hsv n hn).2 hx
  · intro s e st a op th v mtc thread tile code
    refine ⟨fun hr hp => ?_, fun hr hx n hn => ?_⟩
    · have he := (env_ctx hr.env).2.2
      have hclean : needCleanG e a = .ok () := need_pos _ (by simp [show e.c.th.pg a = false from hp])
      have ignored {n : Nat} (h : n < 2 ^ 11 ∧ listedWord n = true ∧ n ∉ mtcWords) (hs : svWord n = false ∨ e.s.cur.ctx = 17) :
          tile n e.t := mtc_ignored hr hp h.1 h.2.1 hs h.2.2
      refine ⟨?_, ?_, fun hm => ?_, fun hm hx => ?_, fun n hn => ?_, fun h17 => ⟨fun n hn => ?_, fun hc => ⟨?_, ?_⟩, ?_, ?_⟩⟩
      · refine (mtc_eq he (by decide) (by decide) (.inl rfl) rfl).trans (thread_next hr rfl rfl ?_)
        exact (bind_ok (needWord_ok rfl (.inl rfl))).trans (bind_ok hclean)
      · refine (mtc_eq he (by decide) (by decide) (.inl rfl) rfl).trans (thread_next hr rfl rfl ?_)
        exact (bind_ok (needWord_ok rfl (.inl rfl))).trans (bind_ok hclean)
      · refine (mtc_eq he (by decide) (by decide) (.inl rfl) rfl).trans (thread_next hr rfl rfl ?_)
        refine (bind_ok (needWord_ok rfl (.inl rfl))).trans ((bind_ok hclean).trans (bind_need (decide_eq_true ?_)))
        simpa [fld] using hm
      · refine (mtc_eq he (by decide) (by decide) (.inl rfl) rfl).trans (waits_trap hr rfl hx ?_)
        refine (bind_ok (needWord_ok rfl (.inl rfl))).trans ((bind_ok hclean).trans (bind_fail (decide_eq_false ?_)))
        simpa [fld] using hm
      · have hro : ∀ n ∈ [0x000, 0x001, 0x002, 0x003, 0x004, 0x005, 0x00B, 0x00C, 0x00D, 0x00E, 0x00F, 0x010, 0x011, 0x012,
            0x013, 0x014, 0x015, 0x016, 0x017, 0x030, 0x031],
            (n < 2 ^ 11 ∧ listedWord n = true ∧ n ∉ mtcWords) ∧ svWord n = false := by decide
        exact ignored (hro n hn).1 (.inl (hro n hn).2)
      · have hro : ∀ n ∈ [0x020, 0x022, 0x023, 0x040], n < 2 ^ 11 ∧ listedWord n = true ∧ n ∉ mtcWords := by decide
        exact ignored (hro n hn) (.inr h17)
      · refine (mtc_eq he (by decide) (by decide) (.inr h17) rfl).trans (tile_next hr rfl ?_)
        exact (bind_ok (needWord_ok rfl (.inr h17))).trans ((bind_ok hclean).trans (bind_ok (needTrapAddr_ok hc)))
      · refine (mtc_eq he (by decide) (by decide) (.inr h17) rfl).trans (tile_next hr rfl ?_)
        exact (bind_ok (needWord_ok rfl (.inr h17))).trans ((bind_ok hclean).trans (bind_ok (needTrapAddr_ok hc)))
      · refine (mtc_eq he (by decide) (by decide) (.inr h17) rfl).trans (tile_next hr rfl ?_)
        exact (bind_ok (needWord_ok rfl (.inr h17))).trans (bind_ok hclean)
      · refine (mtc_eq he (by decide) (by decide) (.inr h17) rfl).trans (tile_next hr rfl ?_)
        exact (bind_ok (needWord_ok rfl (.inr h17))).trans (bind_ok hclean)
    · have hsv : ∀ n ∈ [0x020, 0x021, 0x022, 0x023, 0x024, 0x025, 0x040, 0x041], n < 2 ^ 11 ∧ svWord n = true := by decide
      exact mtc_priv hr (hsv n hn).1 (hsv n hn).2 hx

end Sys2Proof.Machine
end

