-- ==== Sys2Proof/Proofs/CheckLists.lean ====
section
/-! SUPPORT. Lists of checks (R78) against the code that makes them: a part of an instruction raises the trap of the first check
that fails, and goes on as it stands where all of them hold. -/

namespace Sys2Proof.Machine

section lists

variable {α β : Type}

theorem need_neg {b : Bool} (st : Stop) (h : b = false) : need b st = .error st := by simp [h]

/-- The trap that a failed check raises. -/
def Check.stop (x : Check) : Stop := .trap x.cause x.form x.tval x.tval2

/-- m raises the trap of the first check of the list that fails, and is r where all of them hold. -/
structure Checked (l : List Check) (m r : Except Stop α) : Prop where
  fails : ∀ x, FirstFails l x → m = .error x.stop
  passes : (∀ c ∈ l, c.ok) → m = r

theorem firstFails_nil (x : Check) : ¬ FirstFails [] x := by
  rintro ⟨before, after, h, -⟩
  simp at h

theorem firstFails_cons {c x : Check} {l : List Check} :
    FirstFails (c :: l) x ↔ (¬ c.ok ∧ x = c) ∨ (c.ok ∧ FirstFails l x) := by
  constructor
  · rintro ⟨before, after, hl, hb, hx⟩
    cases before with
    | nil =>
      obtain ⟨rfl, -⟩ := List.cons.inj hl
      exact .inl ⟨hx, rfl⟩
    | cons y t =>
      obtain ⟨rfl, rfl⟩ := List.cons.inj hl
      exact .inr ⟨hb _ (by simp), t, after, rfl, fun z hz => hb z (by simp [hz]), hx⟩
  · rintro (⟨hc, rfl⟩ | ⟨hc, before, after, rfl, hb, hx⟩)
    · exact ⟨[], l, rfl, by simp, hc⟩
    · exact ⟨c :: before, after, rfl, by simpa [hc] using hb, hx⟩

/-- The first check of a list, where it fails. -/
theorem firstFails_here {c : Check} {l : List Check} (h : ¬ c.ok) : FirstFails (c :: l) c :=
  firstFails_cons.mpr (.inl ⟨h, rfl⟩)

/-- A later check of a list, where the first one holds. -/
theorem firstFails_next {c x : Check} {l : List Check} (h : c.ok) (hx : FirstFails l x) : FirstFails (c :: l) x :=
  firstFails_cons.mpr (.inr ⟨h, hx⟩)

theorem firstFails_append {x : Check} {l k : List Check} :
    FirstFails (l ++ k) x ↔ FirstFails l x ∨ ((∀ c ∈ l, c.ok) ∧ FirstFails k x) := by
  induction l with
  | nil => simp [firstFails_nil]
  | cons c t ih =>
    simp only [List.cons_append, firstFails_cons, ih, List.mem_cons, forall_eq_or_imp]
    tauto

theorem checked_nil (m : Except Stop α) : Checked [] m m := ⟨fun x h => absurd h (firstFails_nil x), fun _ => rfl⟩

/-- A check that holds adds nothing. -/
theorem checked_pass {c : Check} {l : List Check} {m r : Except Stop α} (hc : c.ok) (h : Checked l m r) :
    Checked (c :: l) m r := by
  refine ⟨fun x hx => ?_, fun ha => h.passes fun d hd => ha d (List.mem_cons_of_mem _ hd)⟩
  obtain ⟨hn, -⟩ | ⟨-, hx⟩ := firstFails_cons.mp hx
  · exact absurd hc hn
  · exact h.fails x hx

/-- A check that fails decides. -/
theorem checked_fail {c : Check} {l : List Check} {m r : Except Stop α} (hc : ¬ c.ok) (h : m = .error c.stop) :
    Checked (c :: l) m r := by
  refine ⟨fun x hx => ?_, fun ha => absurd (ha c (by simp)) hc⟩
  obtain ⟨-, rfl⟩ | ⟨hn, -⟩ := firstFails_cons.mp hx
  · exact h
  · exact absurd hn hc

/-- One check, before what the rest of the list checks. -/
theorem checked_need {c : Check} {b : Bool} {f : Unit → Except Stop α} {l : List Check} {r : Except Stop α}
    (hb : b = true ↔ c.ok) (h : c.ok → Checked l (f ()) r) : Checked (c :: l) (need b c.stop >>= f) r := by
  by_cases hc : c.ok
  · rw [bind_need (hb.mpr hc)]
    exact checked_pass hc (h hc)
  · exact checked_fail hc (bind_fail (by simpa [hc] using hb))

/-- One check, with nothing after it. -/
theorem checked_one {c : Check} {b : Bool} (hb : b = true ↔ c.ok) : Checked [c] (need b c.stop) (.ok ()) := by
  have h := checked_need (f := fun _ => Except.ok ()) hb fun _ => checked_nil _
  cases b <;> exact h

/-- The checks of a list, before those of what the code is where all of them hold. -/
theorem checked_append {m n r : Except Stop α} {l k : List Check} (h : Checked l m n)
    (hk : (∀ c ∈ l, c.ok) → Checked k n r) : Checked (l ++ k) m r := by
  refine ⟨fun x hx => ?_, fun ha => ?_⟩
  · obtain hx | ⟨hl, hx⟩ := firstFails_append.mp hx
    · exact h.fails x hx
    · exact (h.passes hl).trans ((hk hl).fails x hx)
  · have hl : ∀ c ∈ l, c.ok := fun c hc => ha c (List.mem_append_left _ hc)
    exact (h.passes hl).trans ((hk hl).passes fun c hc => ha c (List.mem_append_right _ hc))

/-- The checks of a part of an instruction, before those of what follows it. -/
theorem checked_bind {m : Except Stop α} {a : α} {f : α → Except Stop β} {l k : List Check} {r : Except Stop β}
    (h : Checked l m (.ok a)) (hk : (∀ c ∈ l, c.ok) → Checked k (f a) r) : Checked (l ++ k) (m >>= f) r := by
  exact checked_append (n := f a) ⟨fun x hx => bind_error (h.fails x hx), fun ha => bind_ok (h.passes ha)⟩ hk

/-- A part of an instruction that raises no trap of the list. -/
theorem checked_skip {m : Except Stop α} {a : α} {f : α → Except Stop β} {l : List Check} {r : Except Stop β}
    (h : m = .ok a) (hk : Checked l (f a) r) : Checked l (m >>= f) r := by
  rw [bind_ok h]; exact hk

/-- The last part of an instruction that makes checks. -/
theorem checked_last {m : Except Stop α} {a : α} {f : α → Except Stop β} {l : List Check} (h : Checked l m (.ok a)) :
    Checked l (m >>= f) (f a) := by
  have := checked_bind (f := f) (k := []) h fun _ => checked_nil _
  rwa [List.append_nil] at this

/-- The same, where the next part is named. -/
theorem checked_before {γ : Type} {m : Except Stop α} {a : α} {n : Except Stop γ} {k : γ → Except Stop β} {l : List Check}
    (h : Checked l m (.ok a)) : Checked l (m >>= fun _ => n >>= k) (n >>= k) := checked_last (f := fun _ => n >>= k) h

/-- What follows a part of an instruction makes no further checks of the list. -/
theorem checked_then {m r : Except Stop α} {f : α → Except Stop β} {l : List Check} (h : Checked l m r) :
    Checked l (m >>= f) (r >>= f) :=
  ⟨fun x hx => bind_error (h.fails x hx), fun ha => congrArg (· >>= f) (h.passes ha)⟩

/-- The same checks, where nothing is said of what follows them. -/
theorem Checked.self {m r : Except Stop α} {l : List Check} (h : Checked l m r) : Checked l m m := ⟨h.fails, fun _ => rfl⟩

/-- One check for each element of a list, made by a search for the first that fails it, before what the rest of the list
checks. -/
theorem checked_find {ι : Type} {l : List ι} (bad : ι → Bool) {chk : ι → Check} {m rest r : Except Stop α} {k : List Check}
    (hsome : ∀ x, l.find? bad = some x → m = .error (chk x).stop) (hnone : l.find? bad = none → m = rest)
    (hb : ∀ x ∈ l, bad x = true ↔ ¬ (chk x).ok) (h : (∀ x ∈ l, (chk x).ok) → Checked k rest r) :
    Checked (l.map chk ++ k) m r := by
  have hstop : ∀ x, FirstFails (l.map chk) x → m = .error x.stop := by
    rintro x ⟨before, after, hl, hpre, hx⟩
    obtain ⟨pre, post, rfl, rfl, hpost⟩ := List.map_eq_append_iff.mp hl
    obtain ⟨y, t, rfl, rfl, rfl⟩ := List.map_eq_cons_iff.mp hpost
    refine hsome y (List.find?_eq_some_iff_append.mpr ⟨(hb y (by simp)).mpr hx, pre, t, rfl, fun z hz => ?_⟩)
    have := hb z (by simp [hz])
    simpa [hpre _ (List.mem_map_of_mem hz)] using this
  have hrest (ha : ∀ c ∈ l.map chk, c.ok) : Checked k m r := by
    have hok : ∀ x ∈ l, (chk x).ok := by simpa using ha
    rw [hnone (List.find?_eq_none.mpr fun x hx hbad => (hb x hx).mp hbad (hok x hx))]
    exact h hok
  refine ⟨fun x hx => (firstFails_append.mp hx).elim (hstop x) fun ⟨ha, hx⟩ => (hrest ha).fails x hx, fun ha => ?_⟩
  exact (hrest fun c hc => ha c (List.mem_append_left _ hc)).passes fun c hc => ha c (List.mem_append_right _ hc)

/-- Two neighbouring checks with one trap may be made at once. -/
theorem checked_both {c d : Check} {b : Bool} {f : Unit → Except Stop α} {l : List Check} {r : Except Stop α}
    (hs : d.stop = c.stop) (hb : b = true ↔ c.ok ∧ d.ok) (h : Checked l (f ()) r) :
    Checked (c :: d :: l) (need b c.stop >>= f) r := by
  by_cases hc : c.ok
  · have hd := checked_need (c := d) (f := f) (hb.trans (and_iff_right hc)) fun _ => h
    exact checked_pass hc (hs ▸ hd)
  · exact checked_fail hc (bind_fail (by simpa [hc] using hb))

end lists

section traps

variable {s : State} {e : Env} {i : Instr} {op : Op} {body : Env → Except Stop Res1} {l : List Check}

/-- An instruction whose meaning makes the checks of a list traps at the first that fails (R78, R261). -/
theorem traps_of_checked (hi : exec i s = issue s op body)
    (h : Ready s e op → e.speculative = false → ∃ r, Checked l (body e) r) : e.Traps s i op l := by
  intro hr hx hsp x hf
  rw [hi]
  exact trap_next hr hsp hx ((congrArg body (markWrong_eq hsp)).trans ((h hr hsp).elim fun _ h => h.fails x hf))

/-- Where an instruction that waits past unresolved branches answers a hold. -/
theorem held_next (hr : Ready s e op) (hw : op.waits = true) (hb : body e = .error .hold) :
    issue s op body = .next e.held :=
  issue_hold hr ((hr.body_eq hw).trans hb)

/-- Where an instruction parks, with no branch unresolved. -/
theorem parks_next {b : Nat} (hr : Ready s e op) (hsp : e.speculative = false) (hb : body e = .error (.park b)) :
    e.parks (issue s op body) b := by
  exact ⟨_, (issue_park hr ((congrArg body (markWrong_eq hsp)).trans hb)).trans (congrArg _ (if_neg (by simp [hsp])))⟩

end traps

section pointers

variable (e : Env) (p : Word) (d : Int) (opnd : Nat)

theorem ptrOff_eq : ptrOff p = p.toNat % 2 ^ 20 := by simp [ptrOff, fld]

theorem withOff_toNat (o : Nat) : (withOff p o).toNat = p.toNat / 2 ^ 20 * 2 ^ 20 + o % 2 ^ 20 := by
  have hp := p.isLt
  have h1 : (p >>> 20 <<< 20).toNat = p.toNat / 2 ^ 20 * 2 ^ 20 := by
    simp only [BitVec.toNat_shiftLeft, BitVec.toNat_ushiftRight, Nat.shiftLeft_eq, Nat.shiftRight_eq_div_pow]
    omega
  have h2 : (w64 (o % 2 ^ 20)).toNat = o % 2 ^ 20 := by simp only [w64, BitVec.toNat_ofNat]; omega
  rw [withOff, BitVec.toNat_or, h1, h2, Nat.mul_comm, ← Nat.two_pow_add_eq_or_of_lt (Nat.mod_lt _ (by norm_num))]

/-- A pointer with its own offset is itself. -/
@[simp] theorem withOff_ptrOff : withOff p (ptrOff p) = p := by
  apply BitVec.eq_of_toNat_eq
  rw [withOff_toNat, ptrOff_eq]
  omega

/-- Of two offsets that replace one another the later stands. -/
@[simp] theorem withOff_withOff (o x : Nat) : withOff (withOff p o) x = withOff p x := by
  apply BitVec.eq_of_toNat_eq
  simp only [withOff_toNat]
  omega

/-- The check of a SPACE beyond the tile, by context (R26). -/
def Env.spaceCheck : Check :=
  if e.s.cur.ctx < 16 then ⟨ptrSpace p = 0, cPhase, 1, p, accessNone 0 opnd⟩ else ⟨ptrSpace p = 0, cBounds, 0, p, 0⟩

@[simp] theorem spaceCheck_ok : (e.spaceCheck p opnd).ok ↔ ptrSpace p = 0 := by
  unfold Env.spaceCheck; split <;> rfl

/-- The checks of a pointer's SPACE and zero field (R26). -/
def Env.ptrChecks : List Check :=
  [⟨ptrSpace p ≠ 3, cBounds, 0, p, 0⟩, e.spaceCheck p opnd,
   ⟨fld p 55 20 = 0, cBounds, 0, withOff p (((ptrOff p : Int) + d) % 2 ^ 20).toNat, 0⟩]

theorem checkPtr_checked : Checked (e.ptrChecks p d opnd) (checkPtr e p d opnd) (.ok ()) := by
  unfold Env.ptrChecks checkPtr
  refine checked_need (c := ⟨ptrSpace p ≠ 3, cBounds, 0, p, 0⟩) (by simp) fun _ => ?_
  by_cases h0 : ptrSpace p = 0
  · have hzero : Checked [⟨fld p 55 20 = 0, cBounds, 0, withOff p (((ptrOff p : Int) + d) % 2 ^ 20).toNat, 0⟩]
        (need (decide (fld p 55 20 = 0)) (.trap cBounds 0 (formedPtr p d) 0)) (.ok ()) := by
      rw [formedPtr, if_pos h0]
      exact checked_one (by simp)
    rw [if_neg (show ¬ ptrSpace p ≠ 0 from not_not.mpr h0)]
    exact checked_pass ((spaceCheck_ok e p opnd).mpr h0) hzero
  · rw [if_pos h0]
    refine checked_fail (mt (spaceCheck_ok e p opnd).mp h0) ?_
    unfold Env.spaceCheck
    by_cases hs : e.s.cur.ctx < 16
    · rw [if_pos hs, if_pos (show e.me ≤ 15 by unfold Env.me; omega)]
      rfl
    · rw [if_neg hs, if_neg (show ¬ e.me ≤ 15 by unfold Env.me; omega)]
      rfl

/-- The checks of a displaced pointer end with the range of its offset (R26, R123). -/
theorem pointerChecks_eq : e.pointerChecks p d = e.ptrChecks p d 0
    ++ [⟨0 ≤ (ptrOff p : Int) + d ∧ (ptrOff p : Int) + d < 2 ^ 20, cBounds, 2, p, BitVec.ofInt 64 d⟩] := by
  simp only [Env.pointerChecks, Env.ptrChecks, ptrOff_eq]
  rfl

/-- What the checks of a pointer say of its offset. -/
theorem pointer_inRange {e : Env} {p : Word} {d : Int} (h : ∀ c ∈ e.pointerChecks p d, c.ok) :
    0 ≤ (ptrOff p : Int) + d ∧ (ptrOff p : Int) + d < 2 ^ 20 := by
  rw [pointerChecks_eq] at h
  exact h _ (List.mem_append_right _ (List.mem_singleton.mpr rfl))

end pointers

end Sys2Proof.Machine
end

