-- ==== Sys2Proof/Proofs/BlockRefusals.lean ====
section
/-! SUPPORT and PROOF. What block events leave of a tile's blocks, and where the block instructions trap, park or are held (R19,
R128 to R133). -/

namespace Sys2Proof.Machine

section events

/-- Of a tile's blocks and memory only block b differs, and it is m. -/
structure Tile.Only (t u : Tile) (b : Nat) (m : Block) : Prop where
  named : u.block b = m
  others : ∀ c, c ≠ b → u.block c = t.block c
  sram : u.sram = t.sram
  tags : u.tags = t.tags
  bars : u.bars = t.bars

theorem only_setBlock (t : Tile) (b : Nat) (m : Block) : t.Only (t.setBlock b m) b m :=
  ⟨by simp [block_setBlock], fun c hc => by simp [block_setBlock, hc], rfl, rfl, rfl⟩

theorem Tile.Only.keeps {t u v : Tile} {b : Nat} {m : Block} (h : t.Only u b m) (k : Tile.Keeps u v) : t.Only v b m :=
  ⟨(block_keeps k b).trans h.named, fun c hc => (block_keeps k c).trans (h.others c hc), k.sram.trans h.sram,
    k.tags.trans h.tags, k.bars.trans h.bars⟩

theorem only_commit (t : Tile) (now b : Nat) (det : Bool) :
    t.Only (t.commit now det b) b { t.block b with state := .full, owner := 31, armed := false } :=
  (only_setBlock t b _).keeps (keeps_commit t now b det)

theorem only_clear (t : Tile) (now b : Nat) (gen : BitVec 6) : t.Only (t.clear now b gen) b ⟨.empty, 31, false, gen⟩ := by
  refine Tile.Only.keeps (u := (t.setBlock b ⟨.empty, 31, false, gen⟩).clearPois b) ?_ (keeps_clear t now b gen)
  obtain ⟨h1, h2, h3, h4, h5⟩ := only_setBlock t b ⟨.empty, 31, false, gen⟩
  exact ⟨h1, h2, h3, h4, h5⟩

/-- A clear takes the poison from the granules of its block and from no other. -/
theorem mem_clear_pois (t : Tile) (now b g : Nat) (gen : BitVec 6) :
    g ∈ (t.clear now b gen).pois ↔ g ∈ t.pois ∧ g ∉ t.blockGrans b := by
  rw [(keeps_clear t now b gen).pois, clearPois_pois, List.mem_filter]
  simp only [Bool.not_eq_true', List.contains_eq_mem, decide_eq_false_iff_not]
  exact Iff.rfl

end events

section target

variable (e : Env) (a : GReg)

/-- The offset that a block instruction's pointer names, displaced by whole blocks (R128). -/
def Env.blockOffset (off : BitVec 11) : Nat := (((e.c.th.rg a).toNat % 2 ^ 20 : Nat) + 2048 * off.toInt : Int).toNat

/-- The checks of BlockTarget (R128): of the generation only where it is asked for. -/
def Env.targetChecks (off : BitVec 11) (generation : Bool) : List Check :=
  let p := e.c.th.rg a
  let o := e.blockOffset a off
  let acc := e.t.access o 0 0
  e.cleanCheck a :: e.pointerChecks p (2048 * off.toInt) ++ [⟨o % 2048 = 0, cMisalign, 0, withOff p o, acc⟩,
    ⟨e.t.carve.region o = .block, cBounds, 1, withOff p o, acc⟩]
    ++ if generation then [⟨(e.t.block (e.t.blockOf o)).gen = ptrTag p, cStale, 0, withOff p o, acc⟩] else []

theorem needCleanG_checked : Checked [e.cleanCheck a] (needCleanG e a) (.ok ()) := checked_one (by simp [Env.cleanCheck])

theorem blockTarget_checked (off : BitVec 11) (generation : Bool) :
    Checked (e.targetChecks a off generation) (blockTarget e a off.toInt generation) (.ok (e.t.blockOf (e.blockOffset a off))) := by
  have hx : ((ptrOff (e.c.th.rg a) : Int) + 2048 * off.toInt).toNat = e.blockOffset a off := by
    rw [ptrOff_eq]; rfl
  unfold Env.targetChecks blockTarget blockTargetP
  simp only [pointerChecks_eq, List.cons_append, List.append_assoc, hx]
  refine checked_need (by simp [Env.cleanCheck]) fun _ => ?_
  refine checked_bind (checkPtr_checked e _ _ 0) fun _ => ?_
  refine checked_need (by simp; omega) fun _ => ?_
  refine checked_need (by simp) fun _ => ?_
  refine checked_need (by simp) fun _ => ?_
  cases generation with
  | false => exact checked_nil _
  | true => exact checked_need (by simpa using eq_comm) fun _ => checked_nil _

theorem blockFirst_checked (off : BitVec 11) (generation : Bool) (ha : e.acquiring = false) :
    Checked (e.targetChecks a off generation) (blockFirst e a off generation) (.ok (e.t.blockOf (e.blockOffset a off))) :=
  checked_skip (need_pos _ (by simp [ha])) (blockTarget_checked e a off generation)

end target

section refusals

variable {e : Env} {b : Nat}

/-- The checks that BCOMMIT and BPOIS make of a block (R19). -/
theorem needOwned_checked (p : Word) : Checked
    [⟨(e.t.block b).state ≠ .full, cSecond, 0, withOff p (e.t.blockAt b), e.t.access (e.t.blockAt b) 0 0⟩,
     ⟨OwnsBlock e b, cOwner, 0, withOff p (e.t.blockAt b), e.t.access (e.t.blockAt b) 0 0⟩]
    (needOwned e p b) (.ok ()) :=
  checked_need (by simp) fun _ => checked_one (decide_eq_true_iff)

theorem OwnsBlock.deferred (h : OwnsBlock e b) : (e.t.block b).state = .deferred := h.1

/-- The owner's row of R19, where the block is DEFERRED. -/
theorem ownsBlock_iff (hd : (e.t.block b).state = .deferred) :
    OwnsBlock e b ↔ (decide ((e.t.block b).owner = e.me) && !(e.t.block b).armed) = true := by
  refine ⟨fun h => by simp [h.2.1, h.2.2, Env.me], fun h => ?_⟩
  obtain ⟨h1, h2⟩ := (Bool.and_eq_true _ _).mp h
  exact ⟨hd, of_decide_eq_true h1, by simpa using h2⟩

theorem drained_iff : e.drained = true ↔ e.c.sb = [] ∧ e.cellBusy = false := by simp [Env.drained]

end refusals

section instructions

variable {s : State} {e : Env} {st : Stall} {d a : GReg} {off : BitVec 11} {b : Nat}

/-- The checks of R19 for a block that is FULL, another's, or not the context's own. -/
def Env.refusal (e : Env) (a : GReg) (b : Nat) (ok : Prop) (cause : Nat) : Check :=
  ⟨ok, cause, 0, withOff (e.c.th.rg a) (e.t.blockAt b), e.t.access (e.t.blockAt b) 0 0⟩

@[simp] theorem refusal_ok (ok : Prop) (cause : Nat) : (e.refusal a b ok cause).ok = ok := rfl

/-- BCOMMIT refuses a FULL block, and one that is not its context's own (R19). -/
theorem bcommit_traps (hb : NamesBlock e a off b) (ha : e.acquiring = false) (hd : e.c.sb = [] ∧ e.cellBusy = false) :
    e.Traps s (.bcommit st a off) (op32 st .all true 10 [.g a])
      [e.refusal a b ((e.t.block b).state ≠ .full) cSecond, e.refusal a b (OwnsBlock e b) cOwner] :=
  traps_of_checked rfl fun _ _ => ⟨_, checked_skip (blockFirst_ok true hb ha) (checked_skip (need_pos _ (drained_ok hd))
    (checked_last (needOwned_checked _)))⟩

theorem bpois_traps (hb : NamesBlock e a off b) (ha : e.acquiring = false) (hd : e.c.sb = [] ∧ e.cellBusy = false)
    (hr : e.readHolds b = false) :
    e.Traps s (.bpois st a off) (op32 st .all true 10 [.g a])
      [e.refusal a b ((e.t.block b).state ≠ .full) cSecond, e.refusal a b (OwnsBlock e b) cOwner] :=
  traps_of_checked rfl fun _ _ => ⟨_, checked_skip (blockFirst_ok true hb ha)
    (checked_skip (need_pos _ (by simp [drained_ok hd, hr])) (checked_last (needOwned_checked _)))⟩

/-- BOPEN refuses a FULL block (R19). -/
theorem bopen_full (hb : NamesBlock e a off b) (ha : e.acquiring = false) (hx : e.s.cur.ctx ≠ 17)
    (hr : Ready s e (op32 st .all true 10 [.g a])) (hm : (e.t.block b).state = .full) :
    exec (.bopen st a off) s = .next (e.trapped cSecond 0 (withOff (e.c.th.rg a) (e.t.blockAt b)) (e.t.access (e.t.blockAt b) 0 0)) := by
  refine waits_trap hr rfl hx ((bind_ok (blockFirst_ok true hb ha)).trans ?_)
  simp only [hm]
  rfl

/-- BOPEN refuses another's block (R19). -/
theorem bopen_others (hb : NamesBlock e a off b) (ha : e.acquiring = false) (hx : e.s.cur.ctx ≠ 17)
    (hr : Ready s e (op32 st .all true 10 [.g a])) (hm : (e.t.block b).state = .deferred) (ho : ¬ OwnsBlock e b) :
    exec (.bopen st a off) s = .next (e.trapped cOwner 0 (withOff (e.c.th.rg a) (e.t.blockAt b)) (e.t.access (e.t.blockAt b) 0 0)) := by
  refine waits_trap hr rfl hx ((bind_ok (blockFirst_ok true hb ha)).trans ?_)
  simp only [hm]
  exact bind_fail (decide_eq_false fun h => ho ⟨hm, h⟩)

/-- BWAIT parks on a block that is not FULL (R133). -/
theorem bwait_parks (hb : NamesBlock e a off b) (ha : e.acquiring = false)
    (hr : Ready s e (op32 st .slots true 10 [.g a])) (hm : (e.t.block b).state ≠ .full) :
    e.parks (exec (.bwait st a off) s) b := by
  refine parks_next hr (hr.branch rfl) ?_
  exact (bind_ok (blockFirst_ok true hb ha)).trans (bind_fail (decide_eq_false hm))

/-- The first check of BCLR, BARM and BFILL after BlockTarget. -/
theorem operand_traps {i : Instr} {op : Op} {f : Env → Nat → Unit → Except Stop Res1} (hb : NamesBlock e a off b)
    (ha : e.acquiring = false)
    (hi : exec i s = issue s op fun e => do let b ← blockFirst e a off true; let x ← needCleanG e d; f e b x) :
    e.Traps s i op [e.cleanCheck d] :=
  traps_of_checked hi fun _ _ => ⟨_, checked_skip (blockFirst_ok true hb ha) (checked_last (needCleanG_checked e d))⟩

/-- BCLR refuses another's block where no engine reads it (R130). -/
theorem bclr_traps (hb : NamesBlock e a off b) (ha : e.acquiring = false) (hread : e.beingRead b = false) :
    e.Traps s (.bclr st d a off) (op32 st .all true 10 (if d = 0 then [.g a] else [.g a, .g d]))
      [e.cleanCheck d, e.refusal a b ((e.t.block b).state = .deferred → OwnsBlock e b) cOwner] := by
  refine traps_of_checked rfl fun _ _ => ?_
  by_cases hn : (e.t.block b).state = .deferred → OwnsBlock e b
  · exact ⟨_, checked_skip (blockFirst_ok true hb ha)
      (checked_bind (l := [_]) (needCleanG_checked e d) fun _ => checked_pass hn (checked_nil _))⟩
  · obtain ⟨hm, ho⟩ := Classical.not_imp.mp hn
    have hown : (decide ((e.t.block b).owner = e.me) && !(e.t.block b).armed) = false :=
      Bool.eq_false_iff.mpr fun h => ho ((ownsBlock_iff hm).mpr h)
    refine ⟨.ok (.done ⟨e, none⟩), checked_skip (blockFirst_ok true hb ha)
      (checked_bind (l := [_]) (needCleanG_checked e d) fun _ => checked_fail hn ?_)⟩
    exact (bind_need (by simp [hown])).trans ((bind_need (by simp [hread])).trans (bind_fail (by simp [hm, hown])))

/-- BCLR is held while an engine reads the block, and before its own context's stores are performed (R130, R186). -/
theorem bclr_held (hb : NamesBlock e a off b) (ha : e.acquiring = false)
    (hr : Ready s e (op32 st .all true 10 (if d = 0 then [.g a] else [.g a, .g d]))) (hd : e.c.th.pg d = false)
    (h : e.beingRead b = true ∨ (OwnsBlock e b ∧ ¬(e.c.sb = [] ∧ e.cellBusy = false))) :
    exec (.bclr st d a off) s = .next e.held := by
  refine held_next hr rfl ((bind_ok (blockFirst_ok true hb ha)).trans ((bind_ok (need_pos _ (by simp [hd]))).trans ?_))
  cases hw : (!((e.t.block b).state == .deferred && (decide ((e.t.block b).owner = e.me) && !(e.t.block b).armed)) || e.drained) with
  | false => exact bind_fail hw
  | true =>
    refine (bind_need hw).trans (bind_fail ?_)
    obtain h | ⟨ho, hdr⟩ := h
    · simp [h]
    · have hdf : e.drained = false := Bool.eq_false_iff.mpr fun h => hdr (drained_iff.mp h)
      have hown := (ownsBlock_iff ho.1).mp ho
      simp [ho.1, hown, hdf] at hw

/-- BARM refuses a number that is no agent's, and a block that is not EMPTY (R132). -/
theorem barm_traps (hb : NamesBlock e a off b) (ha : e.acquiring = false) :
    e.Traps s (.barm st d a off) (op32 st .all true 10 [.g a, .g d])
      [e.cleanCheck d, ⟨24 ≤ (e.c.th.rg d).toNat ∧ (e.c.th.rg d).toNat ≤ 27, cBounds, 3, e.c.th.rg d, 0⟩,
       e.refusal a b ((e.t.block b).state ≠ .deferred) cOwner, e.refusal a b ((e.t.block b).state ≠ .full) cSecond] := by
  refine traps_of_checked rfl fun _ _ => ?_
  cases hm : (e.t.block b).state with
  | empty =>
    refine ⟨_, checked_skip (blockFirst_ok true hb ha) (checked_bind (l := [_]) (needCleanG_checked e d) fun _ =>
      checked_need decide_eq_true_iff fun _ => checked_pass (by simp) (checked_pass (by simp) (checked_nil _)))⟩
  | deferred =>
    refine ⟨.ok (.done ⟨e, none⟩), checked_skip (blockFirst_ok true hb ha) (checked_bind (l := [_]) (needCleanG_checked e d)
      fun _ => checked_need decide_eq_true_iff fun _ => checked_fail (by simp) ?_)⟩
    simp only [hm]
    rfl
  | full =>
    refine ⟨.ok (.done ⟨e, none⟩), checked_skip (blockFirst_ok true hb ha) (checked_bind (l := [_]) (needCleanG_checked e d)
      fun _ => checked_need decide_eq_true_iff fun _ => checked_pass (by simp) (checked_fail (by simp) ?_))⟩
    simp only [hm]
    rfl

/-- BFILL refuses a FULL block whatever holds it (R131). -/
theorem bfill_full_traps (hb : NamesBlock e a off b) (ha : e.acquiring = false) :
    e.Traps s (.bfill st d a off) (op32 st .all true 10 [.g a, .g d])
      [e.cleanCheck d, e.refusal a b ((e.t.block b).state ≠ .full) cSecond] :=
  traps_of_checked rfl fun _ _ => ⟨_, checked_skip (blockFirst_ok true hb ha)
    (checked_bind (l := [_]) (needCleanG_checked e d) fun _ => checked_need decide_eq_true_iff fun _ => checked_nil _)⟩

/-- BFILL refuses another's block where nothing holds it (R131). -/
theorem bfill_traps (hb : NamesBlock e a off b) (ha : e.acquiring = false) (hdr : e.c.sb = [] ∧ e.cellBusy = false)
    (hread : e.readHolds b = false) :
    e.Traps s (.bfill st d a off) (op32 st .all true 10 [.g a, .g d])
      [e.cleanCheck d, e.refusal a b ((e.t.block b).state ≠ .full) cSecond,
       e.refusal a b ((e.t.block b).state = .deferred → OwnsBlock e b) cOwner] := by
  have hrow (hm : (e.t.block b).state ≠ .full) :
      decide ((e.t.block b).state = .empty ∨ ((e.t.block b).owner = e.me ∧ (e.t.block b).armed = false)) = true
        ↔ ((e.t.block b).state = .deferred → OwnsBlock e b) := by
    rw [decide_eq_true_iff]
    cases hs : (e.t.block b).state with
    | empty => simp
    | deferred => simp [OwnsBlock, hs, Env.me]
    | full => exact absurd hs hm
  exact traps_of_checked rfl fun _ _ => ⟨_, checked_skip (blockFirst_ok true hb ha)
    (checked_bind (l := [_]) (needCleanG_checked e d) fun _ => checked_need decide_eq_true_iff fun hm =>
      checked_skip (need_pos _ (by simp [drained_ok hdr, hread])) (checked_need (hrow hm) fun _ => checked_nil _))⟩

/-- BFILL is held before its context's stores are performed, and while a matrix read holds the block (R131, R186). -/
theorem bfill_held (hb : NamesBlock e a off b) (ha : e.acquiring = false) (hr : Ready s e (op32 st .all true 10 [.g a, .g d]))
    (hd : e.c.th.pg d = false) (hm : (e.t.block b).state ≠ .full)
    (h : ¬(e.c.sb = [] ∧ e.cellBusy = false) ∨ e.readHolds b = true) : exec (.bfill st d a off) s = .next e.held := by
  refine held_next hr rfl ((bind_ok (blockFirst_ok true hb ha)).trans ((bind_ok (need_pos _ (by simp [hd]))).trans
    ((bind_need (decide_eq_true hm)).trans (bind_fail ?_))))
  obtain h | h := h
  · simp [Bool.eq_false_iff.mpr fun h' => h (drained_iff.mp h')]
  · simp [h]

/-- The checks of BlockTarget come first (R128). -/
theorem target_traps {i : Instr} {op : Op} {f : Env → Nat → Except Stop Res1} (ct : Bool) (ha : e.acquiring = false)
    (hi : exec i s = issue s op fun e => do let b ← blockFirst e a off ct; f e b) :
    e.Traps s i op (e.targetChecks a off ct) :=
  traps_of_checked hi fun _ _ => ⟨_, checked_last (blockFirst_checked e a off ct ha)⟩

end instructions

/-- Settles O8: what the events leave is what their records say, and each refusal is the first check of its instruction that
fails. -/
theorem blockEventsAndRefusals : Obligations.BlockEventsAndRefusals := by
  unfold Obligations.BlockEventsAndRefusals
  refine ⟨?_, ?_, ?_, ?_⟩
  · intro t now b agent det gen only
    have of {u : Tile} {m : Block} (h : t.Only u b m) : only u m := ⟨h.named, h.others, h.sram, h.tags, h.bars⟩
    exact ⟨of (only_commit t now b det), of (only_clear t now b gen), of (only_setBlock t b _), (keeps_commit t now b det).pois,
      fun g => mem_clear_pois t now b g gen⟩
  · intro s e st a off b hb ha hx m op p acc
    refine ⟨fun hr hsb hcb => ⟨fun hm => ?_, fun hm ho => ?_⟩, fun hr hm => bwait_parks hb ha hr hm⟩
    · have full : FirstFails [e.refusal a b ((e.t.block b).state ≠ .full) cSecond, e.refusal a b (OwnsBlock e b) cOwner]
          (e.refusal a b ((e.t.block b).state ≠ .full) cSecond) := firstFails_here (not_not.mpr hm)
      exact ⟨bopen_full hb ha hx hr hm, bcommit_traps hb ha ⟨hsb, hcb⟩ hr hx (hr.branch rfl) _ full,
        fun hread => bpois_traps hb ha ⟨hsb, hcb⟩ hread hr hx (hr.branch rfl) _ full⟩
    · have others : FirstFails [e.refusal a b ((e.t.block b).state ≠ .full) cSecond, e.refusal a b (OwnsBlock e b) cOwner]
          (e.refusal a b (OwnsBlock e b) cOwner) :=
        firstFails_next (by simp [show (e.t.block b).state = .deferred from hm]) (firstFails_here ho)
      exact ⟨bopen_others hb ha hx hr hm ho, bcommit_traps hb ha ⟨hsb, hcb⟩ hr hx (hr.branch rfl) _ others,
        fun hread => bpois_traps hb ha ⟨hsb, hcb⟩ hread hr hx (hr.branch rfl) _ others⟩
  · intro s e st d a off b hb ha m p acc v drained one two clear notFull notOthers own
    exact ⟨bcommit_traps hb ha, bpois_traps hb ha, operand_traps hb ha rfl, bclr_traps hb ha, bclr_held hb ha, barm_traps hb ha,
      bfill_full_traps hb ha, bfill_traps hb ha, bfill_held hb ha⟩
  · intro s e st d a off ha p disp o acc b place named op
    have hplace : place = e.targetChecks a off false := (List.append_nil _).symm
    rw [hplace]
    refine ⟨fun i hi => ?_, target_traps true ha rfl, target_traps false ha rfl, target_traps true ha rfl, target_traps true ha rfl,
      target_traps true ha rfl⟩
    simp only [List.mem_cons, List.not_mem_nil, or_false] at hi
    obtain rfl | rfl | rfl := hi
    · exact target_traps true ha rfl
    · exact target_traps true ha rfl
    · exact target_traps true ha rfl

end Sys2Proof.Machine
end

