-- ==== Sys2Proof/Proofs/LocalChecks.lean ====
section
/-! SUPPORT and PROOF. The checks of CheckLocal (R40) as a list, and where a load, a store and a CELL instruction trap or park. -/

namespace Sys2Proof.Machine

section lists

variable (e : Env)

/-- The check of a frame access (R16): FRAME-OVERFLOW by the frame registers, BOUNDS by another. -/
def Env.frameCheck (q : Word) (o size base : Nat) (acc : Word) : Check :=
  if base = 13 ∨ base = 14 then ⟨e.t.carve.region o = .frame → e.t.carve.inFrame o size e.s.cur.ctx = true, cFrame, 0, q, acc⟩
  else ⟨e.t.carve.region o = .frame → e.t.carve.inFrame o size e.s.cur.ctx = true, cBounds, 1, q, acc⟩

@[simp] theorem frameCheck_ok (q : Word) (o size base : Nat) (acc : Word) : (e.frameCheck q o size base acc).ok
    ↔ (e.t.carve.region o = .frame → e.t.carve.inFrame o size e.s.cur.ctx = true) := by
  unfold Env.frameCheck; split <;> rfl

/-- The checks of the region step of CheckLocal (R14, R23, R40). -/
def Env.regionChecks (q : Word) (o size base : Nat) (kind : AccKind) (acc : Word) : List Check :=
  [e.frameCheck q o size base acc, ⟨kind.stores = true → e.t.carve.region o ≠ .code, cBounds, 1, q, acc⟩,
   ⟨kind = .store → e.t.carve.region o = .cell → e.t.hitsWord1 o size = false, cBounds, 1, q, acc⟩]

theorem checkRegion_checked (q : Word) (o size base : Nat) {kind : AccKind} (hk : kind ≠ .fetch) (lane opnd : Nat) :
    Checked (e.regionChecks q o size base kind (e.t.access o lane opnd)) (checkRegion e q o size base kind lane opnd) (.ok ()) := by
  by_cases hf : e.t.carve.region o = .frame → e.t.carve.inFrame o size e.s.cur.ctx = true
  · refine checked_pass ((frameCheck_ok ..).mpr hf) ?_
    have hno : ¬(e.t.carve.region o = .frame ∧ e.t.carve.inFrame o size e.me = false) :=
      fun ⟨h1, h2⟩ => Bool.eq_false_iff.mp h2 (hf h1)
    unfold checkRegion
    simp only [if_neg hno]
    refine checked_skip (need_pos _ (by simp [hk])) (checked_need ?_ fun _ => checked_one ?_)
    · cases kind.stores <;> simp
    · cases kind <;> simp [imp_iff_not_or]
  · refine checked_fail (mt (frameCheck_ok ..).mp hf) ?_
    obtain ⟨hreg, hin⟩ := Classical.not_imp.mp hf
    have hyes : e.t.carve.region o = .frame ∧ e.t.carve.inFrame o size e.me = false := ⟨hreg, by simpa [Env.me] using hin⟩
    unfold checkRegion Env.frameCheck
    simp only [if_pos hyes]
    by_cases hb : base = 13 ∨ base = 14
    · simp only [if_pos hb]; rfl
    · simp only [if_neg hb]; rfl

/-- The check of the tag step of CheckLocal (R16). -/
def Env.tagCheck (q : Word) (o : Nat) (acc : Word) : Check :=
  ⟨e.t.granTag o = ptrTag q, if e.t.carve.region o = .block then cStale else cTag, 0, q, acc⟩

theorem checkTag_checked (q : Word) (o lane opnd : Nat) :
    Checked [e.tagCheck q o (e.t.access o lane opnd)] (checkTag e q o lane opnd) (.ok ()) := checked_one decide_eq_true_iff

/-- The offset that a base register and a displacement form. -/
def Env.offset (a : GReg) (d : Int) : Nat := ((ptrOff (e.c.th.rg a) : Int) + d).toNat

/-- The checks of CheckLocal from the alignment on (R40). -/
def Env.placeChecks (p : Word) (base o size : Nat) (kind : AccKind) : List Check :=
  ⟨o % size = 0, cMisalign, 0, withOff p o, e.t.access o 0 0⟩ :: e.regionChecks (withOff p o) o size base kind (e.t.access o 0 0)
    ++ [e.tagCheck (withOff p o) o (e.t.access o 0 0)]

/-- The checks of CheckLocal (R40). -/
def Env.localChecks (a : GReg) (d : Int) (size : Nat) (kind : AccKind) : List Check :=
  e.cleanCheck a :: e.pointerChecks (e.c.th.rg a) d ++ e.placeChecks (e.c.th.rg a) a.val (e.offset a d) size kind

theorem checkLocal_checked (a : GReg) (d : Int) (size : Nat) {kind : AccKind} (hk : kind ≠ .fetch) :
    Checked (e.localChecks a d size kind) (checkLocal e a d size kind) (.ok (e.offset a d)) := by
  have haddr : Checked (e.pointerChecks (e.c.th.rg a) d
      ++ [⟨e.offset a d % size = 0, cMisalign, 0, withOff (e.c.th.rg a) (e.offset a d), e.t.access (e.offset a d) 0 0⟩])
      (checkAddr e (e.c.th.rg a) d size 0) (.ok (withOff (e.c.th.rg a) (e.offset a d), e.offset a d)) := by
    rw [pointerChecks_eq, List.append_assoc]
    exact checked_bind (checkPtr_checked e _ d 0) fun _ => checked_need (by simp; omega) fun _ =>
      checked_need decide_eq_true_iff fun _ => checked_nil _
  have hrest : Checked (e.regionChecks (withOff (e.c.th.rg a) (e.offset a d)) (e.offset a d) size a.val kind
        (e.t.access (e.offset a d) 0 0)
      ++ [e.tagCheck (withOff (e.c.th.rg a) (e.offset a d)) (e.offset a d) (e.t.access (e.offset a d) 0 0)])
      (do checkRegion e (withOff (e.c.th.rg a) (e.offset a d)) (e.offset a d) size a.val kind 0 0
          checkTag e (withOff (e.c.th.rg a) (e.offset a d)) (e.offset a d) 0 0
          return e.offset a d) (.ok (e.offset a d)) :=
    checked_bind (checkRegion_checked e _ _ _ _ hk 0 0) fun _ => checked_last (checkTag_checked e _ _ 0 0)
  have hall := checked_bind (f := fun _ => checkLocalP e (e.c.th.rg a) a.val d size kind 0) (needCleanG_checked e a)
    fun _ => checked_bind haddr fun _ => hrest
  simpa only [checkLocal, Env.localChecks, Env.placeChecks, List.cons_append, List.nil_append, List.append_assoc] using hall

end lists

section fails

variable {e : Env} {a : GReg} {d : Int} {size : Nat} {kind : AccKind} {x : Check}

/-- The pointer of a base register and a displacement that is formed: clean, tile-local, in range (R26, R123). -/
structure Env.Forms (e : Env) (a : GReg) (d : Int) (o : Nat) : Prop where
  clean : e.c.th.pg a = false
  space : ptrSpace (e.c.th.rg a) = 0
  zeros : fld (e.c.th.rg a) 55 20 = 0
  offset : (o : Int) = (ptrOff (e.c.th.rg a) : Int) + d
  inside : o < 2 ^ 20

/-- A pointer check that fails first. -/
theorem firstFails_pointer (hc : e.c.th.pg a = false) (h : FirstFails (e.pointerChecks (e.c.th.rg a) d) x) :
    FirstFails (e.localChecks a d size kind) x :=
  firstFails_append.mpr (.inl (firstFails_next hc h))

/-- A check that fails first once the pointer is formed. -/
theorem firstFails_place {o : Nat} (hf : e.Forms a d o)
    (h : FirstFails (e.placeChecks (e.c.th.rg a) a.val o size kind) x) : FirstFails (e.localChecks a d size kind) x := by
  obtain ⟨hc, hs, hz, ho, hi⟩ := hf
  have hoff : e.offset a d = o := by unfold Env.offset; omega
  refine firstFails_append.mpr (.inr ⟨?_, hoff ▸ h⟩)
  simp only [pointerChecks_eq, Env.ptrChecks, Env.cleanCheck, List.cons_append, List.nil_append, List.forall_mem_cons,
    spaceCheck_ok]
  exact ⟨hc, by simp [hs], hs, hz, by omega, by simp⟩

end fails

section access

variable {s : State} {e : Env} {i : Instr} {op : Op} {a : GReg} {d : Int} {size o : Nat}

/-- Loads, stores and CELL instructions make the checks of CheckLocal first. -/
theorem access_traps {kind : AccKind} (hk : kind ≠ .fetch) (ha : e.acquiring = false) {f : Env → Nat → Except Stop Res1}
    (hi : exec i s = issue s op fun e => do need (!e.acquiring) .hold; let o ← checkLocal e a d size kind; f e o) :
    e.Traps s i op (e.localChecks a d size kind) :=
  traps_of_checked hi fun _ _ => ⟨_, checked_skip (need_pos _ (by simp [ha])) (checked_last (checkLocal_checked e a d size hk))⟩

theorem load_traps (ha : e.acquiring = false) {f : Env → List Byte × Bool → Except Stop Res1}
    (hi : exec i s = issue s op fun e => loadValue e a d size >>= f e) : e.Traps s i op (e.localChecks a d size .load) :=
  traps_of_checked hi fun _ _ => ⟨_, checked_then (checked_skip (need_pos _ (by simp [ha]))
    (checked_last (checkLocal_checked e a d size (by simp))))⟩

/-- A load of a block that it may not read parks on it (R40). -/
theorem loadValue_park (ha : e.acquiring = false) (h : PassesLocal e a d size o) (hr : ¬ ReadableAt e o) :
    loadValue e a d size = .error (.park (e.t.blockOf o)) := by
  obtain ⟨hb, hno⟩ := Classical.not_imp.mp hr
  refine (bind_need (by simp [ha])).trans ((bind_ok (checkLocal_load h)).trans ((if_pos hb).trans (bind_error ?_)))
  exact if_neg hno

/-- Poisoned data may only be stored in the frame (R126, R127). -/
theorem store_poison {data : List GReg} {r : GReg} (hr : Ready s e op) (hw : op.waits = true) (hx : e.s.cur.ctx ≠ 17)
    (ha : e.acquiring = false) (h : PassesStore e a d size o) (hf : data.find? e.c.th.pg = some r)
    (hreg : e.t.carve.region o ≠ .frame) :
    storeIssue op a d size data s = .next (e.trapped cPoison 0 ((RegId.g r).word 0) 0) := by
  refine waits_trap hr hw hx ((bind_need (by simp [ha])).trans ((bind_ok (checkLocal_store h)).trans ?_))
  simp only [hf]
  exact bind_fail (decide_eq_false hreg)

/-- A store to a block that its context may not write (R19, R40). -/
theorem store_refused {data : List GReg} (hr : Ready s e op) (hw : op.waits = true) (ha : e.acquiring = false)
    (h : PassesStore e a d size o) (hf : data.find? e.c.th.pg = none) (hreg : e.t.carve.region o = .block) {cause : Nat} (hx : e.s.cur.ctx ≠ 17)
    (hb : blockStore e (withOff (e.c.th.rg a) o) o 0 = .error (.trap cause 0 (withOff (e.c.th.rg a) o) (e.t.access o 0 0))) :
    storeIssue op a d size data s = .next (e.trapped cause 0 (withOff (e.c.th.rg a) o) (e.t.access o 0 0)) := by
  refine waits_trap hr hw hx ((bind_need (by simp [ha])).trans ((bind_ok (checkLocal_store h)).trans ?_))
  simp only [hf]
  exact (if_pos hreg).trans (bind_error hb)

/-- A CELL instruction outside CELL (R135). -/
theorem cellAddr_region {m : BitVec 3} {l : List GReg} (h : PassesStore e a (dispC m) 8 o) (hreg : e.t.carve.region o ≠ .cell) :
    cellAddr e m a l = .error (.trap cBounds 1 (withOff (e.c.th.rg a) o) (e.t.access o 0 0)) :=
  (bind_ok (checkLocal_store h)).trans (bind_fail (decide_eq_false hreg))

/-- A CELL instruction on a poisoned operand (R28, R135). -/
theorem cellAddr_operand {m : BitVec 3} {l : List GReg} {r : GReg} (h : PassesStore e a (dispC m) 8 o)
    (hreg : e.t.carve.region o = .cell) (hf : l.find? e.c.th.pg = some r) :
    cellAddr e m a l = .error (.trap cPoison 0 ((RegId.g r).word 0) 0) := by
  refine (bind_ok (checkLocal_store h)).trans ((bind_need (decide_eq_true hreg)).trans ?_)
  simp only [hf]
  rfl

/-- A CELL instruction on a poisoned cell (R28, R135). -/
theorem cellAddr_poison {m : BitVec 3} {l : List GReg} (h : PassesStore e a (dispC m) 8 o)
    (hreg : e.t.carve.region o = .cell) (hf : l.find? e.c.th.pg = none) (hp : e.t.granPois o = true) :
    cellAddr e m a l = .error (.trap cPoison 1 (withOff (e.c.th.rg a) o) (e.t.access o 0 0)) := by
  refine (bind_ok (checkLocal_store h)).trans ((bind_need (decide_eq_true hreg)).trans ?_)
  simp only [hf]
  exact bind_fail (by simp [hp])

end access

/-- TVAL of a pointer whose zero field is not zero (R266). -/
theorem withOff_mod (p : Word) (x : Int) :
    withOff p (x % 2 ^ 20).toNat = BitVec.ofNat 64 (p.toNat / 2 ^ 20 * 2 ^ 20 + (x % 2 ^ 20).toNat) := by
  apply BitVec.eq_of_toNat_eq
  have hp := p.isLt
  rw [withOff_toNat, BitVec.toNat_ofNat]
  omega

/-- Settles O10: CheckLocal's list of checks, and after it the data, the cell and the block. -/
theorem localAccessChecks : Obligations.LocalAccessChecks := by
  unfold Obligations.LocalAccessChecks
  intro s e st ord d a b off imm m hsp ha hx th trapsAt pointer formed fails loads stores cells load store two
  have forms {base : GReg} {disp : Int} {o : Nat} (h : formed base disp o) : e.Forms base disp o := by
    obtain ⟨hc, hs, hz, ho, hi⟩ := h
    exact ⟨hc, hs, hz, by rw [ptrOff_eq]; exact ho, hi⟩
  have fails_of {i : Instr} {op : Op} {base : GReg} {disp : Int} {size : Nat} {kind : AccKind} {sto : Bool}
      {q : Nat → Word → Word → Prop} (hk : kind = .load ∧ sto = false ∨ kind = .store ∧ sto = true) (hT : e.Traps s i op (e.localChecks base disp size kind))
      (hq : Ready s e op → ∀ o, PassesLocal e base disp size o → (kind = .store → PassesStore e base disp size o) →
        q o (withOff (th.rg base) o) (e.t.access o 0 0)) :
      fails i op base disp size sto q := by
    have hsto : kind.stores = sto := by obtain ⟨rfl, rfl⟩ | ⟨rfl, rfl⟩ := hk <;> rfl
    have hstore : sto = true → kind = .store := by obtain ⟨rfl, rfl⟩ | ⟨rfl, rfl⟩ := hk <;> simp
    have hkind : kind = .store → sto = true := by rintro rfl; exact hsto.symm
    intro hr
    have trap {x : Check} (h : FirstFails (e.localChecks base disp size kind) x) := hT hr hx hsp x h
    refine ⟨⟨fun hp => trap (firstFails_here (by simp [Env.cleanCheck, show e.c.th.pg base = true from hp])), fun hp => ?_⟩,
      fun o hf => ?_⟩
    · have ptr {x : Check} (h : FirstFails (e.ptrChecks (th.rg base) disp 0 ++ [⟨0 ≤ (ptrOff (th.rg base) : Int) + disp ∧
          (ptrOff (th.rg base) : Int) + disp < 2 ^ 20, cBounds, 2, th.rg base, BitVec.ofInt 64 disp⟩]) x) :=
        trap (firstFails_pointer hp ((pointerChecks_eq e (th.rg base) disp).symm ▸ h))
      refine ⟨fun hs => ptr (firstFails_here (not_not.mpr hs)), fun hs => ?_, fun hs hz => ?_, fun hs hz hr => ?_⟩
      · have h := ptr (firstFails_next (show ptrSpace (th.rg base) ≠ 3 by unfold ptrSpace fld; omega)
          (firstFails_here (mt (spaceCheck_ok e (th.rg base) 0).mp (show ptrSpace (th.rg base) ≠ 0 by unfold ptrSpace fld; omega))))
        unfold Env.spaceCheck at h
        by_cases hc : e.s.cur.ctx < 16
        · rw [if_pos hc] at h ⊢; exact h
        · rw [if_neg hc] at h ⊢; exact h
      · have h := ptr (firstFails_next (show ptrSpace (th.rg base) ≠ 3 by unfold ptrSpace fld; omega)
          (firstFails_next ((spaceCheck_ok e (th.rg base) 0).mpr hs) (firstFails_here hz)))
        rw [ptrOff_eq, withOff_mod] at h
        exact h
      · refine ptr (firstFails_next (show ptrSpace (th.rg base) ≠ 3 by unfold ptrSpace fld; omega)
          (firstFails_next ((spaceCheck_ok e (th.rg base) 0).mpr hs) (firstFails_next hz (firstFails_here ?_))))
        rw [ptrOff_eq]
        omega
    · have place {x : Check} (h : FirstFails (e.placeChecks (th.rg base) base.val o size kind) x) :=
        trap (firstFails_place (forms hf) h)
      refine ⟨fun hal => place (firstFails_here hal), fun hal => ⟨fun hreg hin => ?_, fun hst hc => ?_, fun hfr hst => ⟨fun ht => ?_, fun ht => ?_⟩⟩⟩
      · have h := place (firstFails_next hal (firstFails_here (mt (frameCheck_ok ..).mp fun h => Bool.eq_false_iff.mp hin (h hreg))))
        unfold Env.frameCheck at h
        by_cases hb : base.val = 13 ∨ base.val = 14
        · rw [if_pos hb] at h ⊢; exact h
        · rw [if_neg hb] at h ⊢; exact h
      · obtain hc | ⟨hc, hw⟩ := hc
        · exact place (firstFails_next hal (firstFails_next ((frameCheck_ok ..).mpr (by simp [hc]))
            (firstFails_here fun h => h (hsto.trans hst) hc)))
        · exact place (firstFails_next hal (firstFails_next ((frameCheck_ok ..).mpr (by simp [hc]))
            (firstFails_next (fun _ => by simp [hc]) (firstFails_here fun h => by simp [h (hstore hst) hc] at hw))))
      · exact place (firstFails_next hal (firstFails_next ((frameCheck_ok ..).mpr hfr) (firstFails_next (fun h => (hst (hsto.symm.trans h)).1)
            (firstFails_next (fun h => (hst (hkind h)).2) (firstFails_here fun h => ht (h.trans (withOff_tag ..)))))))
      · have hloc : PassesLocal e base disp size o := ⟨hf.1, ⟨hf.2.1, hf.2.2.1, hf.2.2.2.1, hf.2.2.2.2, hal⟩, hfr, ht⟩
        exact hq hr o hloc fun h => ⟨hloc, (hst (hkind h)).1, (hst (hkind h)).2⟩
  clear_value fails
  have load_ok {i : Instr} {op : Op} {base : GReg} {disp : Int} {size : Nat} {f : Env → List Byte × Bool → Except Stop Res1}
      (hi : exec i s = issue s op fun e => loadValue e base disp size >>= f e) : loads i op base disp size := by
    unfold loads
    refine fails_of (kind := .load) (.inl ⟨rfl, rfl⟩) (load_traps ha hi) fun hr o hl _ hno => ?_
    rw [hi]
    exact parks_next hr hsp (bind_error (loadValue_park ha hl hno))
  have store_ok {i : Instr} {op : Op} {base : GReg} {disp : Int} {size : Nat} {data : List GReg} (hw : op.waits = true)
      (hi : exec i s = storeIssue op base disp size data s) : stores i op base disp size data := by
    unfold stores
    refine fails_of (kind := .store) (.inr ⟨rfl, rfl⟩) (access_traps (by simp) ha hi) fun hr o _ hps => ?_
    have hp := hps rfl
    refine ⟨fun r hf hreg => hi.trans (store_poison hr hw hx ha hp hf hreg), fun hclean hreg => ?_⟩
    have hf : data.find? e.c.th.pg = none := by simpa using hclean
    refine ⟨fun hs => hi.trans (store_refused hr hw ha hp hf hreg hx (bind_fail (decide_eq_false (not_not.mpr hs)))), fun hs ho => ?_⟩
    refine hi.trans (store_refused hr hw ha hp hf hreg hx ((bind_need (decide_eq_true hs)).trans ?_))
    have hno : (!((e.t.block (e.t.blockOf o)).state == .empty || (e.t.block (e.t.blockOf o)).owner != e.me)) = false := by
      obtain ho | ho := ho
      · simp [show (e.t.block (e.t.blockOf o)).state = .empty from ho]
      · simp [Env.me, show (e.t.block (e.t.blockOf o)).owner ≠ e.s.cur.ctx from ho]
    exact need_neg _ hno
  have cell_ok {i : Instr} {reads : List RegId} {operands : List GReg} {f : Env → Nat → Except Stop Res1}
      (hi : exec i s = issue s (op32 st .all true 11 reads) fun e => do
        need (!e.acquiring) .hold
        let o ← cellAddr e m a operands
        f e o) : cells i reads operands := by
    have hT : e.Traps s i (op32 st .all true 11 reads) (e.localChecks a (8 * m.toNat) 8 .store) :=
      traps_of_checked hi fun _ _ => ⟨_, checked_skip (need_pos _ (by simp [ha]))
        (checked_then (checked_last (checkLocal_checked e a (dispC m) 8 (by simp))))⟩
    unfold cells
    refine fails_of (kind := .store) (.inr ⟨rfl, rfl⟩) hT fun hr o _ hps => ?_
    have stop {cause form : Nat} {v v2 : Word} (h : cellAddr e m a operands = .error (.trap cause form v v2)) :
        trapsAt i cause form v v2 :=
      hi.trans (waits_trap hr rfl hx ((bind_need (by simp [ha])).trans (bind_error h)))
    exact ⟨fun hreg => stop (cellAddr_region (hps rfl) hreg), fun hreg => ⟨fun r hf => stop (cellAddr_operand (hps rfl) hreg hf),
      fun hclean hp => stop (cellAddr_poison (hps rfl) hreg (by simpa using hclean) hp)⟩⟩
  have byte : off.toInt = dispL off 1 := by simp [dispL]
  refine ⟨by rw [byte]; exact load_ok rfl, by rw [byte]; exact load_ok rfl, load_ok rfl, load_ok rfl, load_ok rfl, load_ok rfl, load_ok rfl, load_ok rfl, load_ok rfl,
    by rw [byte]; exact store_ok rfl rfl, store_ok rfl rfl, store_ok rfl rfl, store_ok rfl rfl, store_ok rfl rfl, store_ok rfl rfl,
    cell_ok rfl, cell_ok rfl, cell_ok rfl, cell_ok rfl, cell_ok rfl, cell_ok rfl, cell_ok rfl, cell_ok rfl, cell_ok rfl,
    cell_ok rfl, cell_ok rfl, cell_ok rfl, cell_ok rfl⟩

end Sys2Proof.Machine
end

