-- ==== Sys2Proof/Proofs/VectorTraps.lean ====
section
/-! SUPPORT and PROOF. The passes of a vector load or store (R380) as a list of checks, and where it traps or parks. -/

namespace Sys2Proof.Machine

section granules

theorem pairwise_insNat {x : Nat} {l : List Nat} (h : l.Pairwise (· < ·)) : (insNat x l).Pairwise (· < ·) := by
  induction l with
  | nil => simp [insNat]
  | cons z t ih =>
    obtain ⟨hz, ht⟩ := List.pairwise_cons.mp h
    unfold insNat
    split
    · exact h
    · split
      · exact List.pairwise_cons.mpr ⟨fun y hy => by
          obtain rfl | hy := List.mem_cons.mp hy
          · assumption
          · exact lt_trans ‹_› (hz y hy), h⟩
      · refine List.pairwise_cons.mpr ⟨fun y hy => ?_, ih ht⟩
        obtain rfl | hy := mem_insNat.mp hy
        · omega
        · exact hz y hy

theorem mem_foldl_insNat_map {ι : Type} (f : ι → Nat) (l : List ι) {y : Nat} : ∀ acc : List Nat,
    y ∈ l.foldl (fun acc x => insNat (f x) acc) acc ↔ y ∈ acc ∨ ∃ x ∈ l, f x = y := by
  induction l with
  | nil => simp
  | cons a t ih =>
    intro acc
    simp only [List.foldl_cons, ih, mem_insNat, List.exists_mem_cons_iff, eq_comm (a := y)]
    tauto

theorem pairwise_foldl_insNat {ι : Type} (f : ι → Nat) (l : List ι) : ∀ acc : List Nat, acc.Pairwise (· < ·) →
    (l.foldl (fun acc x => insNat (f x) acc) acc).Pairwise (· < ·) := by
  induction l with
  | nil => exact fun _ h => h
  | cons a t ih => exact fun acc h => ih _ (pairwise_insNat h)

/-- Two strictly rising lists of the same numbers are one list. -/
theorem eq_of_rising {l k : List Nat} (hl : l.Pairwise (· < ·)) (hk : k.Pairwise (· < ·)) (h : ∀ x, x ∈ l ↔ x ∈ k) : l = k :=
  List.Perm.eq_of_pairwise (fun a b _ _ h1 h2 => absurd h1 (by omega)) hl hk
    ((List.perm_ext_iff_of_nodup (hl.imp (by omega)) (hk.imp (by omega))).mpr h)

/-- The 32 lanes of an access by their addresses. -/
def lanesOf (u : Nat → Nat) : List VLane := (List.range 32).map fun i => ⟨i, u i⟩

theorem lanesOf_congr {u v : Nat → Nat} (h : ∀ l < 32, u l = v l) : lanesOf u = lanesOf v :=
  List.map_congr_left fun i hi => by rw [h i (List.mem_range.mp hi)]

/-- The granules that an access touches, in ascending order, and the lowest lane in each (R380). -/
structure Granules (u : Nat → Nat) (gs : List Nat) (low : Nat → Nat) : Prop where
  rising : gs.Pairwise (· < ·)
  touched : ∀ g, g ∈ gs ↔ ∃ l < 32, u l / 64 = g
  lowest : ∀ g ∈ gs, low g < 32 ∧ u (low g) / 64 = g ∧ ∀ l < low g, u l / 64 ≠ g

/-- The lanes of a granule. -/
def granOf (u : Nat → Nat) (g : Nat) : VGran := ⟨g, (lanesOf u).filter fun l => l.addr / 64 == g⟩

variable {u : Nat → Nat} {gs : List Nat} {low : Nat → Nat}

theorem gransOf_eq (h : Granules u gs low) : gransOf (lanesOf u) = gs.map (granOf u) := by
  have : (lanesOf u).foldl (fun acc l => insNat (l.addr / 64) acc) [] = gs := by
    refine eq_of_rising (pairwise_foldl_insNat _ _ _ .nil) h.rising fun g => ?_
    rw [mem_foldl_insNat_map, h.touched]
    simp [lanesOf]
  unfold gransOf
  rw [this]
  rfl

theorem granOf_head (h : Granules u gs low) {g : Nat} (hg : g ∈ gs) :
    (granOf u g).lanes.head? = some ⟨low g, u (low g)⟩ := by
  obtain ⟨h32, hin, hno⟩ := h.lowest g hg
  have hfind : (List.range 32).find? (fun i => u i / 64 == g) = some (low g) :=
    List.find?_range_eq_some.mpr ⟨by simpa using hin, by simpa using h32, fun j hj => by simpa using hno j hj⟩
  simp only [granOf, List.head?_filter, lanesOf, List.find?_map, Function.comp_def, hfind, Option.map_some]

@[simp] theorem granOf_first (h : Granules u gs low) {g : Nat} (hg : g ∈ gs) : (granOf u g).first = u (low g) := by
  simp [VGran.first, List.headD_eq_head?_getD, granOf_head h hg]

@[simp] theorem granOf_laneNo (h : Granules u gs low) {g : Nat} (hg : g ∈ gs) (named : Bool) :
    laneNo named (granOf u g) = if named then low g else 0 := by
  simp [laneNo, List.headD_eq_head?_getD, granOf_head h hg]

theorem granOf_any (f : Nat → Bool) (g : Nat) :
    ((granOf u g).lanes.any fun l => f l.addr) = true ↔ ∃ l < 32, u l / 64 = g ∧ f (u l) = true := by
  simp [granOf, lanesOf]

end granules

section passes

variable (e : Env) (p : Word) (a : GReg)

/-- A last check that holds adds nothing. -/
theorem checked_drop {α : Type} {l : List Check} {c : Check} {m r : Except Stop α} (h : Checked (l ++ [c]) m r) (hc : c.ok) :
    Checked l m r :=
  ⟨fun x hx => h.fails x (firstFails_append.mpr (.inl hx)),
    fun ha => h.passes fun d hd => (List.mem_append.mp hd).elim (ha d) fun hd => (List.mem_singleton.mp hd) ▸ hc⟩

/-- The checks of pass 4 of R380 for granule g, whose lowest lane stands at x. -/
def Env.granChecks (store : Bool) (u : Nat → Nat) (g x : Nat) (acc : Word) : List Check :=
  [e.frameCheck (withOff p x) x 4 a.val acc, ⟨store = true → e.t.carve.region x ≠ .code, cBounds, 1, withOff p x, acc⟩,
   ⟨store = true → e.t.carve.region x = .cell → ∀ l < 32, u l / 64 = g → e.t.hitsWord1 (u l) 4 = false, cBounds, 1,
    withOff p x, acc⟩,
   ⟨e.t.granTag x = ptrTag p, if e.t.carve.region x = .block then cStale else cTag, 0, withOff p x, acc⟩]

variable {u : Nat → Nat} {gs : List Nat} {low : Nat → Nat}

/-- ACCESS of a granule as its lowest lane names it (R267). -/
def Env.laneAccess (e : Env) (named : Bool) (u low : Nat → Nat) (g : Nat) : Word :=
  e.t.access (u (low g)) (if named then low g else 0) 0

theorem vecGranule_checked (store named : Bool) (h : Granules u gs low) {g : Nat} (hg : g ∈ gs) :
    Checked (e.granChecks p a store u g (u (low g)) (e.laneAccess named u low g))
      (vecGranule e p a store named (granOf u g)) (.ok ()) := by
  unfold vecGranule
  simp only [granOf_first h hg, granOf_laneNo h hg]
  have hreg : Checked [e.frameCheck (withOff p (u (low g))) (u (low g)) 4 a.val (e.laneAccess named u low g),
      ⟨store = true → e.t.carve.region (u (low g)) ≠ .code, cBounds, 1, withOff p (u (low g)), e.laneAccess named u low g⟩]
      (checkRegion e (withOff p (u (low g))) (u (low g)) 4 a.val (if store then .storeBar else .load)
        (if named then low g else 0) 0) (.ok ()) := by
    cases store
    · exact checked_drop (l := [_, _]) (checkRegion_checked e _ _ 4 a.val (kind := .load) (by simp) _ 0) (by simp)
    · exact checked_drop (l := [_, _]) (checkRegion_checked e _ _ 4 a.val (kind := .storeBar) (by simp) _ 0) (by simp)
  refine checked_bind (l := [_, _]) hreg fun _ => checked_need ?_ fun _ => ?_
  · rw [Bool.not_eq_true', Bool.eq_false_iff, Ne, Bool.and_eq_true, Bool.and_eq_true, granOf_any (fun x => e.t.hitsWord1 x 4),
      beq_iff_eq]
    exact ⟨fun hn hs hc l hl hlg => Bool.eq_false_iff.mpr fun hw => hn ⟨⟨hs, hc⟩, l, hl, hlg, hw⟩,
      fun hall ⟨⟨hs, hc⟩, l, hl, hlg, hw⟩ => Bool.eq_false_iff.mp (hall hs hc l hl hlg) hw⟩
  · have := checkTag_checked e (withOff p (u (low g))) (u (low g)) (if named then low g else 0) 0
    unfold Env.tagCheck at this
    rwa [withOff_tag] at this

/-- Pass 4 of R380 (R171). -/
theorem vecGranules_checked (store named : Bool) (h : Granules u gs low) {l : List Nat} (hl : ∀ g ∈ l, g ∈ gs) :
    Checked (l.flatMap fun g => e.granChecks p a store u g (u (low g)) (e.laneAccess named u low g))
      (vecGranules e p a store named (l.map (granOf u))) (.ok ()) := by
  induction l with
  | nil => exact checked_nil _
  | cons g t ih =>
    rw [List.forall_mem_cons] at hl
    exact checked_bind (vecGranule_checked e p a store named h hl.1) fun _ => ih hl.2

/-- The check of a store's block (R19, R40). -/
def Env.storeCheck (q : Word) (o : Nat) (acc : Word) : Check :=
  ⟨WritableAt e o, if (e.t.block (e.t.blockOf o)).state = .full then cSecond else cOwner, 0, q, acc⟩

theorem blockStore_checked (q : Word) {o : Nat} (lane : Nat) (hreg : e.t.carve.region o = .block) :
    Checked [e.storeCheck q o (e.t.access o lane 0)] (blockStore e q o lane) (.ok ()) := by
  by_cases hw : WritableAt e o
  · rw [blockStore_ok q lane hw hreg]
    exact checked_pass hw (checked_nil _)
  · refine checked_fail hw ?_
    have hno : ¬((e.t.block (e.t.blockOf o)).state = .deferred ∧ (e.t.block (e.t.blockOf o)).owner = e.s.cur.ctx) :=
      fun h => hw fun _ => h
    unfold Env.storeCheck Check.stop
    cases hs : (e.t.block (e.t.blockOf o)).state with
    | full => exact bind_fail (decide_eq_false (not_not.mpr hs))
    | empty => exact (bind_need (by simp [hs])).trans (need_neg _ (by simp [hs]))
    | deferred =>
      have howner : (e.t.block (e.t.blockOf o)).owner ≠ e.s.cur.ctx := fun h => hno ⟨hs, h⟩
      exact (bind_need (by simp [hs])).trans (need_neg _ (by simpa [hs, Env.me] using howner))

/-- Pass 6 of R380. -/
theorem vecOwned_checked (named : Bool) (h : Granules u gs low) {l : List Nat} (hl : ∀ g ∈ l, g ∈ gs) :
    Checked (l.map fun g => e.storeCheck (withOff p (u (low g))) (u (low g)) (e.laneAccess named u low g))
      (vecOwned e p named (l.map (granOf u))) (.ok ()) := by
  induction l with
  | nil => exact checked_nil _
  | cons g t ih =>
    rw [List.forall_mem_cons] at hl
    simp only [List.map_cons, vecOwned, granOf_first h hl.1, granOf_laneNo h hl.1]
    by_cases hreg : e.t.carve.region (u (low g)) = .block
    · rw [if_pos hreg]
      exact checked_bind (l := [_]) (blockStore_checked e _ _ hreg) fun _ => ih hl.2
    · rw [if_neg hreg]
      exact checked_pass (fun hb => absurd hb hreg) (ih hl.2)

/-- Pass 7 of R380: the park on the first block that may not be read. -/
theorem vecReadable_park (h : Granules u gs low) {pre post : List Nat} {g : Nat} (hl : ∀ x ∈ pre ++ g :: post, x ∈ gs)
    (hpre : ∀ x ∈ pre, ReadableAt e (u (low x))) (hg : ¬ ReadableAt e (u (low g))) :
    vecReadable e ((pre ++ g :: post).map (granOf u)) = .error (.park (e.t.blockOf (u (low g)))) := by
  induction pre with
  | nil =>
    obtain ⟨hreg, hno⟩ := Classical.not_imp.mp hg
    simp only [List.nil_append, List.map_cons, vecReadable, granOf_first h (hl g (by simp))]
    exact (if_pos hreg).trans (bind_error (if_neg hno))
  | cons x t ih =>
    rw [List.forall_mem_cons] at hpre
    rw [List.cons_append, List.forall_mem_cons] at hl
    simp only [List.cons_append, List.map_cons, vecReadable, granOf_first h hl.1]
    by_cases hreg : e.t.carve.region (u (low x)) = .block
    · exact (if_pos hreg).trans ((bind_ok (blockLoad_ok hpre.1 hreg)).trans (ih hl.2 hpre.2))
    · exact (if_neg hreg).trans (ih hl.2 hpre.2)

end passes

section addresses

variable (e : Env) (a : GReg)

/-- The offset that a vector access's base register and displacement form, not yet cut to the tile. -/
def Env.vecAt (off : BitVec 11) : Int := (ptrOff (e.c.th.rg a) : Int) + off.toInt * 128

theorem vecBase_checked (off : BitVec 11) : Checked (e.pointerChecks (e.c.th.rg a) (off.toInt * 128)) (vecBase e a off)
    (.ok (withOff (e.c.th.rg a) (e.vecAt a off).toNat, (e.vecAt a off).toNat)) := by
  rw [pointerChecks_eq]
  exact checked_bind (checkPtr_checked e _ _ 0) fun _ => checked_need (by simp; omega) fun _ => checked_nil _

/-- The alignment that an instruction asks of its base. -/
def Env.alignCheck (p : Word) (o : Nat) (ok : Prop) : Check := ⟨ok, cMisalign, 0, withOff p o, e.t.access o 0 0⟩

/-- The range of each lane's address (R380). -/
def rangeChecks (addr : Nat → Int) (ok : Nat → Prop) : List Check :=
  (List.range 32).map fun l => ⟨ok l ∧ 0 ≤ addr l ∧ addr l ≤ 0xFFFFC, cBounds, 2, BitVec.ofInt 64 (addr l), accessNone l 0⟩

/-- The alignment of each lane's address (R380). -/
def Env.wordChecks (p : Word) (addr : Nat → Int) : List Check :=
  (List.range 32).map fun l => ⟨addr l % 4 = 0, cMisalign, 0, withOff p (addr l).toNat, e.t.access (addr l).toNat l 0⟩

theorem wordChecks_withOff (p : Word) (o : Nat) (addr : Nat → Int) : e.wordChecks (withOff p o) addr = e.wordChecks p addr := by
  simp [Env.wordChecks]

theorem strideLanes_checked (p : Word) {base : Int} (h0 : 0 ≤ base) :
    Checked (e.alignCheck p base.toNat (stride e % 4 = 0 ∧ base.toNat % 4 = 0)
        :: rangeChecks (fun l => base + l * stride e) (fun _ => True))
      (strideLanes e (withOff p base.toNat) base.toNat) (.ok (lanesOf fun l => (base + l * stride e).toNat)) := by
  refine checked_need (by simp [Env.alignCheck]) fun _ => ?_
  have hb : (base.toNat : Int) = base := Int.toNat_of_nonneg h0
  simp only [hb]
  rw [rangeChecks, ← List.append_nil (List.map _ _)]
  refine checked_find _ (fun x hx => by rw [hx]; rfl) (fun hx => by rw [hx]; rfl) (fun x _ => ?_) fun _ => checked_nil _
  simp only [true_and, Bool.or_eq_true, decide_eq_true_eq]
  omega

theorem pairLanes_checked (p : Word) (v : VReg) {base : Int} (h0 : 0 ≤ base) :
    Checked (rangeChecks (fun l => base + elemAt 32 (e.c.th.rv (pairReg v)) l) (fun l => elemAt 32 (e.c.th.rv (pairReg v)) l < 2 ^ 20)
        ++ e.wordChecks p fun l => base + elemAt 32 (e.c.th.rv (pairReg v)) l)
      (pairLanes e (withOff p base.toNat) base.toNat v)
      (.ok (lanesOf fun l => (base + elemAt 32 (e.c.th.rv (pairReg v)) l).toNat)) := by
  have hb (x : Nat) : (base + (x : Int)) = ((base.toNat + x : Nat) : Int) := by omega
  rw [← wordChecks_withOff e p base.toNat]
  simp only [hb, rangeChecks, Env.wordChecks, Int.toNat_natCast]
  unfold pairLanes
  dsimp only
  refine checked_find _ (fun x hx => by rw [hx]; rfl) (fun hx => by rw [hx]) (fun x _ => ?_) fun _ => ?_
  · simp only [Bool.or_eq_true, decide_eq_true_eq]
    omega
  · dsimp only
    rw [← List.append_nil (List.map _ _)]
    refine checked_find _ (fun x hx => by rw [hx]; rfl) (fun hx => by rw [hx]; rfl) (fun x _ => ?_)
      fun _ => checked_nil _
    simp only [decide_eq_true_eq]
    omega

theorem needOffsets_checked (v : VReg) : Checked
    ((List.range 32).map fun l => ⟨(e.c.th.pv (pairReg v)).getLsbD l = false, cPoison, 0, (RegId.v (pairReg v)).word l, 0⟩)
    (needOffsets e v) (.ok ()) := by
  rw [← List.append_nil (List.map _ _)]
  unfold needOffsets
  refine checked_find _ (fun x hx => by rw [hx]; rfl) (fun hx => by rw [hx]) (fun x _ => ?_) fun _ => checked_nil _
  simp

end addresses

section instructions

variable {s : State} {e : Env} {i : Instr} {op : Op} {body : Env → Except Stop Res1} {a : GReg} {p q : Word} {o : Nat}
  {named : Bool} {u : Nat → Nat} {gs : List Nat} {low : Nat → Nat} {v : VReg}

theorem granChecks_withOff (store : Bool) (g x : Nat) (acc : Word) :
    e.granChecks (withOff p o) a store u g x acc = e.granChecks p a store u g x acc := by
  simp [Env.granChecks]

/-- The checks of pass 4 for all the granules of an access. -/
def Env.passChecks (e : Env) (p : Word) (a : GReg) (store named : Bool) (u : Nat → Nat) (gs : List Nat) (low : Nat → Nat) :
    List Check :=
  gs.flatMap fun g => e.granChecks p a store u g (u (low g)) (e.laneAccess named u low g)

theorem passChecks_checked (store named : Bool) (h : Granules u gs low) : Checked (e.passChecks p a store named u gs low)
    (vecGranules e (withOff p o) a store named (gransOf (lanesOf u))) (.ok ()) := by
  have := vecGranules_checked e (withOff p o) a store named h (l := gs) fun _ hg => hg
  simp only [granChecks_withOff] at this
  rwa [gransOf_eq h]

/-- Where a vector load has passed its checks, the first block that may not be read parks it. -/
theorem vecLoad_park (h : Granules u gs low) (hok : ∀ c ∈ e.passChecks p a false named u gs low, c.ok) {pre post : List Nat}
    {g : Nat} (hgs : gs = pre ++ g :: post) (hpre : ∀ x ∈ pre, ReadableAt e (u (low x))) (hg : ¬ ReadableAt e (u (low g))) :
    vecLoad e (withOff p o) a named (lanesOf u) = .error (.park (e.t.blockOf (u (low g)))) := by
  refine (bind_ok ((passChecks_checked false named h).passes hok)).trans (bind_error ?_)
  rw [gransOf_eq h, hgs]
  exact vecReadable_park e h (hgs ▸ fun _ hx => hx) hpre hg

/-- A vector load that makes a list of checks makes those of pass 4 after them, and then parks on a block it may not read. -/
theorem vecLoad_traps {before : List Check} {k : VWord × KWord × List VGran → Except Stop Res1} (hi : exec i s = issue s op body)
    (hb : Checked before (body e) (vecLoad e (withOff p o) a named (lanesOf u) >>= k)) (h : Granules u gs low) :
    e.Traps s i op (before ++ e.passChecks p a false named u gs low)
      ∧ (Ready s e op → e.speculative = false → (∀ x ∈ before ++ e.passChecks p a false named u gs low, x.ok) →
        ∀ pre g post, gs = pre ++ g :: post → (∀ x ∈ pre, ReadableAt e (u (low x))) → ¬ ReadableAt e (u (low g)) →
          e.parks (exec i s) (e.t.blockOf (u (low g)))) := by
  refine ⟨traps_of_checked hi fun _ _ => ⟨_, checked_append hb fun _ =>
    (checked_then (checked_last (passChecks_checked false named h))).self⟩, fun hr hsp hok pre g post hgs hpre hg => ?_⟩
  rw [List.forall_mem_append] at hok
  rw [hi]
  exact parks_next hr hsp ((hb.passes hok.1).trans (bind_error (vecLoad_park h hok.2 hgs hpre hg)))

/-- The checks of passes 5 and 6 of a vector store (R171). -/
def Env.storing (e : Env) (p : Word) (v : VReg) (named : Bool) (u : Nat → Nat) (gs : List Nat) (low : Nat → Nat) : List Check :=
  ((List.range 32).map fun l =>
    ⟨(e.c.th.pv v).getLsbD l = true → e.t.carve.region (u l) = .frame, cPoison, 0, (RegId.v v).word l, 0⟩)
  ++ gs.map fun g => e.storeCheck (withOff p (u (low g))) (u (low g)) (e.laneAccess named u low g)

/-- Pass 5 of R380: no poisoned lane is stored outside the frame. -/
def lanePoison (e : Env) (v : VReg) (ls : List VLane) : Except Stop Unit :=
  match ls.find? fun l => (e.c.th.pv v).getLsbD l.lane && e.t.carve.region l.addr != .frame with
  | some l => .error (.trap cPoison 0 ((RegId.v v).word l.lane) 0)
  | none => .ok ()

/-- A vector store is its passes 4 to 6 and what follows them. -/
theorem vecStore_eq (e : Env) (p : Word) (a : GReg) (named : Bool) (v : VReg) (ls : List VLane) :
    ∃ rest, vecStore e p a named v ls = (do
      vecGranules e p a true named (gransOf ls)
      lanePoison e v ls
      vecOwned e p named (gransOf ls)
      rest) := by
  refine ⟨?rest, bind_congr fun _ => ?_⟩
  rotate_left
  unfold lanePoison
  cases hf : ls.find? fun l => (e.c.th.pv v).getLsbD l.lane && e.t.carve.region l.addr != .frame with
  | none => dsimp only; rw [hf]
  | some l => dsimp only; rw [hf]

theorem lanePoison_checked (v : VReg) (u : Nat → Nat) : Checked ((List.range 32).map fun l =>
    ⟨(e.c.th.pv v).getLsbD l = true → e.t.carve.region (u l) = .frame, cPoison, 0, (RegId.v v).word l, 0⟩)
    (lanePoison e v (lanesOf u)) (.ok ()) := by
  have hlanes : ((List.range 32).map fun l =>
      (⟨(e.c.th.pv v).getLsbD l = true → e.t.carve.region (u l) = .frame, cPoison, 0, (RegId.v v).word l, 0⟩ : Check))
      = (lanesOf u).map fun l => ⟨(e.c.th.pv v).getLsbD l.lane = true → e.t.carve.region l.addr = .frame, cPoison, 0,
        (RegId.v v).word l.lane, 0⟩ := by simp [lanesOf]
  rw [hlanes, ← List.append_nil (List.map _ _)]
  unfold lanePoison
  refine checked_find _ (fun x hx => by rw [hx]; rfl) (fun hx => by rw [hx]) (fun x _ => ?_) fun _ => checked_nil _
  simp

theorem vecStore_checked (v : VReg) (h : Granules u gs low) :
    Checked (e.passChecks p a true named u gs low ++ e.storing p v named u gs low)
      (vecStore e (withOff p o) a named v (lanesOf u)) (vecStore e (withOff p o) a named v (lanesOf u)) := by
  have howned := vecOwned_checked e (withOff p o) named h (l := gs) fun _ hg => hg
  simp only [withOff_withOff, ← gransOf_eq h] at howned
  obtain ⟨rest, hrest⟩ := vecStore_eq e (withOff p o) a named v (lanesOf u)
  rw [hrest]
  refine Checked.self (r := rest) (checked_bind (passChecks_checked true named h) fun _ => ?_)
  exact checked_bind (lanePoison_checked v u) fun _ => checked_last (f := fun _ => rest) howned

theorem vecStore_traps {before : List Check} {k : Env → Except Stop Res1} (hi : exec i s = issue s op body)
    (hb : Checked before (body e) (vecStore e (withOff p o) a named v (lanesOf u) >>= k)) (h : Granules u gs low) :
    e.Traps s i op (before ++ e.passChecks p a true named u gs low ++ e.storing p v named u gs low) := by
  rw [List.append_assoc]
  exact traps_of_checked hi fun _ _ => ⟨_, checked_append hb fun _ => (checked_then (vecStore_checked v h)).self⟩

/-- The lanes of VLD and VST, in range of the tile. -/
theorem denseLanes_eq {base : Int} (h0 : 0 ≤ base) : denseLanes base.toNat = lanesOf fun l => (base + 4 * l).toNat :=
  lanesOf_congr fun l _ => by omega

/-- What the checks of a base pointer and its displacement say of the offset. -/
theorem vecAt_nonneg {off : BitVec 11} (h : ∀ c ∈ e.pointerChecks (e.c.th.rg a) (off.toInt * 128), c.ok) : 0 ≤ e.vecAt a off :=
  (pointer_inRange h).1

/-- The checks of VLD and VST before those of their granules (R172, R380). -/
def Env.plainChecks (e : Env) (a : GReg) (off : BitVec 11) : List Check :=
  e.cleanCheck a :: e.pointerChecks (e.c.th.rg a) (off.toInt * 128)
    ++ [e.alignCheck (e.c.th.rg a) (e.vecAt a off).toNat ((e.vecAt a off).toNat % 128 = 0)]

/-- The checks of VLDS and VSTS before those of their granules (R173, R380). -/
def Env.strideChecks (e : Env) (a : GReg) (off : BitVec 11) : List Check :=
  e.cleanCheck a :: e.pointerChecks (e.c.th.rg a) (off.toInt * 128)
    ++ [e.alignCheck (e.c.th.rg a) (e.vecAt a off).toNat (stride e % 4 = 0 ∧ (e.vecAt a off).toNat % 4 = 0)]
    ++ rangeChecks (fun l => e.vecAt a off + l * stride e) fun _ => True

/-- The checks of VGATH and VSCAT before those of their granules (R174, R380). -/
def Env.gatherChecks (e : Env) (a : GReg) (off : BitVec 11) (v : VReg) : List Check :=
  e.cleanCheck a
    :: ((List.range 32).map fun l => ⟨(e.c.th.pv (pairReg v)).getLsbD l = false, cPoison, 0, (RegId.v (pairReg v)).word l, 0⟩)
    ++ e.pointerChecks (e.c.th.rg a) (off.toInt * 128)
    ++ rangeChecks (fun l => e.vecAt a off + elemAt 32 (e.c.th.rv (pairReg v)) l)
      (fun l => elemAt 32 (e.c.th.rv (pairReg v)) l < 2 ^ 20)
    ++ e.wordChecks (e.c.th.rg a) fun l => e.vecAt a off + elemAt 32 (e.c.th.rv (pairReg v)) l

variable {off : BitVec 11}

theorem plain_checked (ha : e.acquiring = false) (k : Word → List VLane → Except Stop Res1) :
    Checked (e.plainChecks a off)
      (do need (!e.acquiring) .hold
          needCleanG e a
          let (p, o) ← vecBase e a off
          needAligned128 e p o
          k p (denseLanes o))
      (k (withOff (e.c.th.rg a) (e.vecAt a off).toNat) (lanesOf fun l => (e.vecAt a off + 4 * l).toNat)) := by
  unfold Env.plainChecks
  refine checked_skip (need_pos _ (by simp [ha])) (checked_bind (l := [_]) (needCleanG_checked e a) fun _ =>
    checked_bind (vecBase_checked e a off) fun hp => ?_)
  rw [← denseLanes_eq (vecAt_nonneg hp)]
  exact checked_need (by simp [Env.alignCheck]) fun _ => checked_nil _

theorem stride_checked (ha : e.acquiring = false) (k : Word → List VLane → Except Stop Res1) :
    Checked (e.strideChecks a off)
      (do need (!e.acquiring) .hold
          needCleanG e a
          let (p, o) ← vecBase e a off
          let ls ← strideLanes e p o
          k p ls)
      (k (withOff (e.c.th.rg a) (e.vecAt a off).toNat) (lanesOf fun l => (e.vecAt a off + l * stride e).toNat)) := by
  unfold Env.strideChecks
  rw [List.append_assoc]
  exact checked_skip (need_pos _ (by simp [ha])) (checked_bind (l := [_]) (needCleanG_checked e a) fun _ =>
    checked_bind (vecBase_checked e a off) fun hp => checked_last (strideLanes_checked e _ (vecAt_nonneg hp)))

theorem gather_checked (ha : e.acquiring = false) (k : Word → List VLane → Except Stop Res1) :
    Checked (e.gatherChecks a off v)
      (do need (!e.acquiring) .hold
          needCleanG e a
          needOffsets e v
          let (p, o) ← vecBase e a off
          let ls ← pairLanes e p o v
          k p ls)
      (k (withOff (e.c.th.rg a) (e.vecAt a off).toNat)
        (lanesOf fun l => (e.vecAt a off + elemAt 32 (e.c.th.rv (pairReg v)) l).toNat)) := by
  unfold Env.gatherChecks
  simp only [List.append_assoc, List.cons_append]
  exact checked_skip (need_pos _ (by simp [ha])) (checked_bind (l := [_]) (needCleanG_checked e a) fun _ =>
    checked_bind (needOffsets_checked e v) fun _ => checked_bind (vecBase_checked e a off) fun hp =>
      checked_last (pairLanes_checked e _ v (vecAt_nonneg hp)))

end instructions

/-- Settles O24: the passes of R380, each after the one before it. -/
theorem vectorMemoryTraps : Obligations.VectorMemoryTraps := by
  unfold Obligations.VectorMemoryTraps
  intro s e st v a off gs low ha th p d base o sd u lanes aligned offsets inRange wordAligned granules first names passes
    storing op loads stores dense strided gathered plain stride_ gather
  have hbase : e.vecAt a off = base := by rw [Env.vecAt, ptrOff_eq]
  have hplain : plain = e.plainChecks a off := by rw [Env.plainChecks, hbase]; rfl
  have hstride : stride_ = e.strideChecks a off := by rw [Env.strideChecks, hbase]; rfl
  have hgather : gather = e.gatherChecks a off v := by rw [Env.gatherChecks, hbase]; rfl
  have touched {addr : Nat → Int} (h : granules addr) : Granules (fun l => (addr l).toNat) gs low := by
    obtain ⟨hrise, htouch, hlow⟩ := h
    exact ⟨hrise, htouch, hlow⟩
  have hpass (st named : Bool) (addr : Nat → Int) :
      passes st named addr = e.passChecks p a st named (fun l => (addr l).toNat) gs low :=
    congrArg gs.flatMap (funext fun g => rfl)
  have load_ok {i : Instr} {op : Op} {body : Env → Except Stop Res1} {before : List Check} {named : Bool} {addr : Nat → Int}
      (hi : exec i s = issue s op body)
      (hb : ∃ k, Checked before (body e) (vecLoad e (withOff p o) a named (lanesOf fun l => (addr l).toNat) >>= k)) :
      loads i op before named addr := by
    intro h
    obtain ⟨k, hb⟩ := hb
    rw [hpass]
    exact vecLoad_traps hi hb (touched h)
  have store_ok {i : Instr} {op : Op} {body : Env → Except Stop Res1} {before : List Check} {named : Bool} {addr : Nat → Int}
      (hi : exec i s = issue s op body)
      (hb : ∃ k, Checked before (body e) (vecStore e (withOff p o) a named v (lanesOf fun l => (addr l).toNat) >>= k)) :
      stores i op before named addr := by
    intro h
    have hst : storing named addr = e.storing p v named (fun l => (addr l).toNat) gs low := rfl
    obtain ⟨k, hb⟩ := hb
    rw [hst, hpass]
    exact vecStore_traps hi hb (touched h)
  rw [hplain, hstride, hgather]
  clear_value loads stores
  have ho : o = (e.vecAt a off).toNat := by rw [hbase]
  refine ⟨load_ok rfl ?_, load_ok rfl ?_, load_ok rfl ?_, store_ok rfl ?_, store_ok rfl ?_, store_ok rfl ?_⟩
  · simp only [dense, ho, ← hbase]; exact ⟨_, plain_checked ha fun p ls => vecLoad e p a false ls >>= _⟩
  · simp only [strided, ho, ← hbase]; exact ⟨_, stride_checked ha fun p ls => vecLoad e p a true ls >>= _⟩
  · simp only [gathered, ho, ← hbase]; exact ⟨_, gather_checked ha fun p ls => vecLoad e p a true ls >>= _⟩
  · simp only [dense, ho, ← hbase]; exact ⟨_, plain_checked ha fun p ls => vecStore e p a false v ls >>= _⟩
  · simp only [strided, ho, ← hbase]; exact ⟨_, stride_checked ha fun p ls => vecStore e p a true v ls >>= _⟩
  · simp only [gathered, ho, ← hbase]; exact ⟨_, gather_checked ha fun p ls => vecStore e p a true v ls >>= _⟩

end Sys2Proof.Machine
end

