-- ==== Sys2Proof/Proofs/MatrixTraps.lean ====
section
/-! SUPPORT and PROOF. The steps of R185 as a list of checks, and where a matrix command traps, parks or is held. -/

namespace Sys2Proof.Machine

section spans

variable (e : Env)

theorem checkSpan_checked (sp : Span) : Checked (e.matrixSpanChecks sp) (checkSpan e sp) (.ok ()) := by
  have hptr : e.ptrChecks sp.p 0 sp.opnd = [⟨ptrSpace sp.p ≠ 3, cBounds, 0, sp.p, 0⟩, e.spaceCheck sp.p sp.opnd,
      ⟨fld sp.p 55 20 = 0, cBounds, 0, sp.p, 0⟩] := by
    have hoff : (((ptrOff sp.p : Nat) : Int) + 0) % 2 ^ 20 = (ptrOff sp.p : Nat) := by rw [ptrOff_eq]; omega
    rw [Env.ptrChecks, hoff, Int.toNat_natCast, withOff_ptrOff]
  have h : Checked (e.ptrChecks sp.p 0 sp.opnd ++ [⟨ptrOff sp.p % sp.align = 0, cMisalign, 0, sp.p, e.t.access (ptrOff sp.p) 0 sp.opnd⟩,
      ⟨e.t.carve.region (ptrOff sp.p) = .block, cBounds, 1, sp.p, e.t.access (ptrOff sp.p) 0 sp.opnd⟩,
      ⟨ptrOff sp.p + sp.size ≤ 2 ^ 20, cBounds, 1, sp.p, accessNone 0 sp.opnd⟩]
      ++ ((e.t.spanBlocks sp).map fun b =>
        ⟨(e.t.block b).gen = ptrTag sp.p, cStale, 0, sp.p, e.t.access (max (ptrOff sp.p) (e.t.blockAt b)) 0 sp.opnd⟩)) 
      (checkSpan e sp) (.ok ()) := by
    rw [List.append_assoc]
    refine checked_bind (checkPtr_checked e sp.p 0 sp.opnd) fun _ => ?_
    refine checked_need decide_eq_true_iff fun _ => checked_need decide_eq_true_iff fun _ => checked_need decide_eq_true_iff fun _ => ?_
    rw [← List.append_nil (List.map _ _)]
    exact checked_find _ (fun x hx => by rw [hx]; rfl) (fun hx => by rw [hx]) (fun x _ => by simp) fun _ => checked_nil _
  rw [hptr] at h
  exact h

theorem checkSpans_checked (sps : List Span) : Checked (sps.flatMap e.matrixSpanChecks) (checkSpans e sps) (.ok ()) := by
  induction sps with
  | nil => exact checked_nil _
  | cons sp t ih => exact checked_bind (checkSpan_checked e sp) fun _ => ih

/-- The test of a destination block (R19, R185, R201). -/
theorem armTest_iff (b agent : Nat) : ((e.t.block b).state == .full
    || ((e.t.block b).state == .deferred && !((e.t.block b).armed && (e.t.block b).owner == agent))) = true
    ↔ ¬ Armable e b agent := by
  unfold Armable
  cases hs : (e.t.block b).state <;> simp [imp_iff_not_or]

theorem mstBlocks_checked (sp : Span) : Checked (e.armChecks sp.p (e.t.spanBlocks sp) 26) (mstBlocks e sp) (.ok ()) := by
  rw [Env.armChecks, ← List.append_nil (List.map _ _)]
  unfold mstBlocks
  exact checked_find _ (fun x hx => by rw [hx]; rfl) (fun hx => by rw [hx]) (fun x _ => armTest_iff e x 26) fun _ => checked_nil _

/-- A block that a matrix command may read (R185). -/
def Env.mayRead (e : Env) (m : Nat) : Prop :=
  (e.t.block m).state = .full ∨ ((e.t.block m).state = .deferred ∧ (e.t.block m).owner = e.s.cur.ctx)

/-- The test for the first block that a read would park on (R185). -/
def Env.parksOn (e : Env) (b : Nat) : Bool :=
  (e.t.block b).state != .full && !((e.t.block b).state == .deferred && (e.t.block b).owner == e.me)

theorem parksOn_iff (m : Nat) : e.parksOn m = true ↔ ¬ e.mayRead m := by
  simp [Env.parksOn, Env.mayRead, Env.me, imp_iff_not_or]

theorem spanPark_error {sps : List Span} {before after : List Nat} {m : Nat}
    (h : sps.flatMap e.t.spanBlocks = before ++ m :: after) (hb : ∀ k ∈ before, e.mayRead k) (hm : ¬ e.mayRead m) :
    spanPark e sps = .error (.park m) := by
  have hf : (sps.flatMap e.t.spanBlocks).find? e.parksOn = some m :=
    List.find?_eq_some_iff_append.mpr ⟨(parksOn_iff e m).mpr hm, before, after, h, fun k hk => by
      simpa [hb k hk] using parksOn_iff e k⟩
  unfold Env.parksOn at hf
  rw [spanPark, hf]

theorem spanPark_ok {sps : List Span} (h : ∀ m ∈ sps.flatMap e.t.spanBlocks, e.mayRead m) : spanPark e sps = .ok () := by
  have hf : (sps.flatMap e.t.spanBlocks).find? e.parksOn = none :=
    List.find?_eq_none.mpr fun m hm => mt (parksOn_iff e m).mp (not_not.mpr (h m hm))
  unfold Env.parksOn at hf
  rw [spanPark, hf]

theorem spanHold_error {sps : List Span} (h : 8 ≤ e.t.mx.length ∨ ∃ sp ∈ sps, e.c.sbHits (ptrOff sp.p) sp.size ≠ []) :
    spanHold e sps = .error .hold := by
  by_cases hl : e.t.mx.length < 8
  · obtain h | ⟨sp, hsp, hh⟩ := h
    · omega
    · refine (bind_need (decide_eq_true hl)).trans (need_neg _ (Bool.eq_false_iff.mpr fun hall => hh ?_))
      simpa using List.all_eq_true.mp hall sp hsp
  · exact bind_fail (decide_eq_false hl)

end spans

section fields

/-- The element width, the chunk and the scale record of each operand format (R180, R184). -/
def mxFormats : List (Nat × Nat × Nat) :=
  [(16, 32, 0), (16, 32, 0), (8, 64, 0), (8, 64, 0), (8, 64, 1), (8, 64, 1), (4, 128, 1), (8, 64, 2), (4, 128, 2), (64, 8, 0)]

/-- The format of a code. -/
def mxFormat (code : Nat) : Nat × Nat × Nat := mxFormats.getD code (0, 1, 0)

theorem mxFormat_eq {code : Nat} (h : code ≤ 9) : mxFormat code = (mxBits code, mxChunk code, mxScale code) := by
  interval_cases code <;> rfl

/-- The bytes of an accumulator in memory in each format (R178, R179). -/
def memBytes (code : Nat) : Nat := [16384, 8192, 8192, 4096, 4096, 32768].getD code 0

theorem memBytes_eq {code : Nat} (h : code ≤ 5) : memBytes code = 4096 * ofmtSize code := by
  interval_cases code <;> rfl

variable (w : Word) (n : AccReg) (mmat : Bool)

/-- The pair of accumulators is even, where the command names one (R181). -/
def EvenPair (w : Word) (n : AccReg) : Prop := w.getLsbD 24 = true → n.val % 2 = 0

/-- The reserved fields of the command word (R181). -/
def ClearWord (w : Word) : Prop := w.getLsbD 27 = false ∧ fld w 63 35 = 0

/-- A block format (R180). -/
def IsBlockFmt (code : Nat) : Prop := 4 ≤ code ∧ code ≤ 8

/-- R181 for the MMA family. -/
def MmaLegal (w : Word) (n : AccReg) (mmat : Bool) : Prop :=
  ClearWord w ∧ fld w 19 16 ≤ 9 ∧ fld w 23 20 ≤ 9 ∧ (mxFormat (fld w 19 16)).1 = (mxFormat (fld w 23 20)).1 ∧ fld w 15 0 ≠ 0
    ∧ fld w 15 0 % (mxFormat (fld w 19 16)).2.1 = 0 ∧ (w.getLsbD 24 = true ↔ fld w 19 16 = 9)
    ∧ (IsBlockFmt (fld w 19 16) → w.getLsbD 25 = true)
    ∧ (IsBlockFmt (fld w 23 20) → w.getLsbD 26 = true ∧ mmat = true) ∧ EvenPair w n

/-- R181 for MLD and MST. -/
def MemLegal (w : Word) (n : AccReg) : Prop :=
  ClearWord w ∧ fld w 31 28 ≤ 5 ∧ (fld w 31 28 = 5 → w.getLsbD 24 = true) ∧ EvenPair w n

theorem pairOk_iff : pairOk (w.getLsbD 24) n = true ↔ EvenPair w n := by
  simp [pairOk, EvenPair, imp_iff_not_or]

theorem rsv_iff : (!(MxCfg.of w).rsv) = true ↔ ClearWord w := by
  simp [MxCfg.of, ClearWord]

theorem mxBlockFmt_iff (code : Nat) : mxBlockFmt code = true ↔ IsBlockFmt code := by
  simp [mxBlockFmt, IsBlockFmt]

theorem mmaOk_iff : mmaOk (MxCfg.of w) n mmat = true ↔ MmaLegal w n mmat := by
  have hb (code : Nat) (c : Bool) : (!mxBlockFmt code || c) = true ↔ (IsBlockFmt code → c = true) := by
    rw [Bool.or_eq_true, Bool.not_eq_true', ← Bool.not_eq_true, mxBlockFmt_iff, ← imp_iff_not_or]
  have hpair : ((MxCfg.of w).pair == ((MxCfg.of w).afmt == 9)) = true ↔ (w.getLsbD 24 = true ↔ fld w 19 16 = 9) := by
    rw [beq_iff_eq, Bool.eq_iff_iff, beq_iff_eq]; rfl
  simp only [mmaOk, Bool.and_eq_true, rsv_iff, hb, hpair, and_assoc, decide_eq_true_eq, beq_iff_eq]
  refine and_congr_right fun _ => and_congr_right fun ha => and_congr_right fun hb => ?_
  rw [mxFormat_eq (code := fld w 19 16) ha, mxFormat_eq (code := fld w 23 20) hb, ← pairOk_iff]
  rfl

theorem memFmtOk_iff : memFmtOk (MxCfg.of w) n = true ↔ MemLegal w n := by
  have h5 : ((MxCfg.of w).ofmt != 5 || (MxCfg.of w).pair) = true ↔ (fld w 31 28 = 5 → w.getLsbD 24 = true) := by
    rw [Bool.or_eq_true, bne_iff_ne, imp_iff_not_or]; rfl
  simp only [memFmtOk, Bool.and_eq_true, rsv_iff, h5, and_assoc, decide_eq_true_eq]
  rw [MemLegal, ← pairOk_iff]
  rfl

theorem maccOk_iff (src : AccReg) : (!(MxCfg.of w).rsv && pairOk (MxCfg.of w).pair n && pairOk (MxCfg.of w).pair src) = true
    ↔ ClearWord w ∧ EvenPair w n ∧ EvenPair w src := by
  rw [Bool.and_eq_true, Bool.and_eq_true, rsv_iff, and_assoc, ← pairOk_iff, ← pairOk_iff]
  rfl

/-- The span of a scale plane, where the format has one (R184). -/
def planeSpan (rec k : Nat) (p : Word) (opnd : Nat) : List Span :=
  if rec = 0 then [] else [⟨p, 64 * rec * (k / 32), rec, opnd⟩]

/-- The spans of an MMA-family command (R183 to R185). -/
def wordSpans (w pa pb sa sb : Word) : List Span :=
  [⟨pa, 64 * fld w 15 0 * (mxFormat (fld w 19 16)).1 / 8, 64, 0⟩, ⟨pb, 64 * fld w 15 0 * (mxFormat (fld w 23 20)).1 / 8, 64, 1⟩]
    ++ planeSpan (mxFormat (fld w 19 16)).2.2 (fld w 15 0) sa 2 ++ planeSpan (mxFormat (fld w 23 20)).2.2 (fld w 15 0) sb 3

theorem mmaSpans_eq {w : Word} (ha : fld w 19 16 ≤ 9) (hb : fld w 23 20 ≤ 9) (pa pb sa sb : Word) :
    mmaSpans (MxCfg.of w) pa pb sa sb = wordSpans w pa pb sa sb := by
  rw [wordSpans, mxFormat_eq ha, mxFormat_eq hb]
  rfl

end fields

section issue

variable {s : State} {e : Env} {i : Instr} {op : Op} {body : Env → Except Stop Res1} {checks : List Check} {sps : List Span}

theorem needAccFree_ok {owns : List Nat} (h : ∀ r ∈ owns, e.t.accBusy r = false) : needAccFree e owns = .ok () := by
  have hf : ((List.range 4).find? fun n => owns.contains n && e.t.accBusy n) = none := by
    refine List.find?_eq_none.mpr fun r _ hr => ?_
    rw [Bool.and_eq_true, List.contains_iff_mem] at hr
    rw [h r hr.1] at hr
    exact Bool.false_ne_true hr.2
  rw [needAccFree, hf]

theorem pairAccs_free {p : Bool} {n : AccReg} (h : e.t.accBusy n.val = false ∧ (p = true → e.t.accBusy (n.val + 1) = false)) :
    ∀ r ∈ pairAccs p n, e.t.accBusy r = false := by
  cases p <;> simpa [pairAccs] using h

/-- Where a matrix command traps, parks and is held (R185). -/
structure GoesWrong (s : State) (e : Env) (i : Instr) (op : Op) (checks : List Check) (sps : List Span) : Prop where
  traps : e.Traps s i op checks
  parks : Ready s e op → (∀ x ∈ checks, x.ok) → ∀ before m after, sps.flatMap e.t.spanBlocks = before ++ m :: after →
    (∀ k ∈ before, e.mayRead k) → ¬ e.mayRead m → e.parks (exec i s) m
  holds : Ready s e op → (∀ x ∈ checks, x.ok) → (∀ m ∈ sps.flatMap e.t.spanBlocks, e.mayRead m) →
    (8 ≤ e.t.mx.length ∨ ∃ sp ∈ sps, e.c.sbHits (ptrOff sp.p) sp.size ≠ []) → exec i s = .next e.held

/-- A command that reads memory. -/
theorem goesWrong_reads (hw : op.waits = true) (hi : exec i s = issue s op body)
    (h : ∃ k, Checked checks (body e) (spanPark e sps >>= fun _ => spanHold e sps >>= k)) : GoesWrong s e i op checks sps := by
  obtain ⟨k, h⟩ := h
  refine ⟨traps_of_checked hi fun _ _ => ⟨_, h⟩, fun hr hok before m after hm hb hno => ?_, fun hr hok hall hh => ?_⟩
  · rw [hi]
    exact parks_next hr (hr.branch hw) ((h.passes hok).trans (bind_error (spanPark_error e hm hb hno)))
  · rw [hi]
    exact held_next hr hw ((h.passes hok).trans ((bind_ok (spanPark_ok e hall)).trans (bind_error (spanHold_error e hh))))

/-- A command that reads no memory. -/
theorem goesWrong_plain (hw : op.waits = true) (hi : exec i s = issue s op body)
    (h : ∃ k, Checked checks (body e) (need (decide (e.t.mx.length < 8)) .hold >>= k)) : GoesWrong s e i op checks [] := by
  obtain ⟨k, h⟩ := h
  refine ⟨traps_of_checked hi fun _ _ => ⟨_, h⟩, fun _ _ before m after hm => ?_, fun hr hok _ hh => ?_⟩
  · simp at hm
  · have hl : ¬ e.t.mx.length < 8 := by simpa using hh
    rw [hi]
    exact held_next hr hw ((h.passes hok).trans (bind_fail (decide_eq_false hl)))

/-- The MMA family. -/
theorem mma_goesWrong {st : Stall} {f6 : Nat} {n : AccReg} {a b : GReg} {z : Bool}
    (hi : exec i s = mmaIssue st f6 n a b z s) : GoesWrong s e i (opMx st [.g a, .g b, .e 0, .e 1, .e 2])
      ([e.legalCheck (MmaLegal (e.c.th.re 0) n (f6 == 4)), e.cleanCheck a, e.cleanCheck b]
        ++ (wordSpans (e.c.th.re 0) (e.c.th.rg a) (e.c.th.rg b) (e.c.th.re 1) (e.c.th.re 2)).flatMap e.matrixSpanChecks)
      (wordSpans (e.c.th.re 0) (e.c.th.rg a) (e.c.th.rg b) (e.c.th.re 1) (e.c.th.re 2)) := by
  refine goesWrong_reads rfl hi ⟨?k, ?_⟩
  rotate_left
  refine checked_need (mmaOk_iff ..) fun hl => checked_bind (l := [_]) (needCleanG_checked e a) fun _ =>
    checked_bind (l := [_]) (needCleanG_checked e b) fun _ => ?_
  obtain ⟨-, ha, hb, -⟩ := hl
  rw [← mmaSpans_eq ha hb]
  exact checked_last (checkSpans_checked e _)

/-- The accumulators that a command names are no outstanding command's. -/
def Env.AccsFree (e : Env) (l : List AccReg) : Prop :=
  ∀ r ∈ l, e.t.accBusy r.val = false ∧ ((e.c.th.re 0).getLsbD 24 = true → e.t.accBusy (r.val + 1) = false)

variable {st : Stall} {n src : AccReg} {a : GReg}

theorem accsFree_pair {l : List AccReg} (h : e.AccsFree l) {r : AccReg} (hr : r ∈ l) :
    ∀ m ∈ pairAccs (MxCfg.of (e.c.th.re 0)).pair r, e.t.accBusy m = false := pairAccs_free (h r hr)

theorem mld_goesWrong (hf : e.AccsFree [n]) : GoesWrong s e (.mld st n a) (opMx st [.g a, .e 0])
    ([e.legalCheck (MemLegal (e.c.th.re 0) n), e.cleanCheck a]
      ++ e.matrixSpanChecks ⟨e.c.th.rg a, memBytes (fld (e.c.th.re 0) 31 28), 64, 0⟩)
    [⟨e.c.th.rg a, memBytes (fld (e.c.th.re 0) 31 28), 64, 0⟩] := by
  refine goesWrong_reads (body := fun e => _) rfl rfl ⟨?k, ?_⟩
  rotate_left
  refine checked_need (memFmtOk_iff ..) fun hl => checked_skip (needAccFree_ok (accsFree_pair hf (by simp)))
    (checked_bind (l := [_]) (needCleanG_checked e a) fun _ => ?_)
  obtain ⟨-, h5, -⟩ := hl
  rw [memBytes_eq h5]
  exact checked_last (checkSpan_checked e _)

theorem mst_goesWrong (hf : e.AccsFree [n]) : GoesWrong s e (.mst st n a) (opMx st [.g a, .e 0])
    ([e.legalCheck (MemLegal (e.c.th.re 0) n), e.cleanCheck a]
      ++ e.matrixSpanChecks ⟨e.c.th.rg a, memBytes (fld (e.c.th.re 0) 31 28), 2048, 0⟩
      ++ e.armChecks (e.c.th.rg a) (e.t.spanBlocks ⟨e.c.th.rg a, memBytes (fld (e.c.th.re 0) 31 28), 2048, 0⟩) 26) [] := by
  refine goesWrong_plain (body := fun e => _) rfl rfl ⟨?k, ?_⟩
  rotate_left
  rw [List.append_assoc]
  refine checked_need (memFmtOk_iff ..) fun hl => checked_skip (needAccFree_ok (accsFree_pair hf (by simp)))
    (checked_bind (l := [_]) (needCleanG_checked e a) fun _ => ?_)
  obtain ⟨-, h5, -⟩ := hl
  rw [memBytes_eq h5]
  refine checked_bind (checkSpan_checked e _) fun _ => ?_
  exact checked_before
    (mstBlocks_checked e (memSpan (MxCfg.of (e.c.th.re 0)) (e.c.th.rg a) 2048))

theorem mzero_goesWrong (hf : e.AccsFree [n]) : GoesWrong s e (.mzero st n) (opMx st []) [] [] :=
  goesWrong_plain (body := fun e => _) rfl rfl ⟨_, checked_skip (needAccFree_ok (by simpa using (hf n (by simp)).1)) (checked_nil _)⟩

theorem macc_goesWrong (hf : e.AccsFree [n, src]) : GoesWrong s e (.macc st n src) (opMx st [.e 0])
    [e.legalCheck (ClearWord (e.c.th.re 0) ∧ EvenPair (e.c.th.re 0) n ∧ EvenPair (e.c.th.re 0) src)] [] := by
  have hfree : ∀ m ∈ pairAccs (MxCfg.of (e.c.th.re 0)).pair n ++ pairAccs (MxCfg.of (e.c.th.re 0)).pair src,
      e.t.accBusy m = false := fun m hm =>
    (List.mem_append.mp hm).elim (accsFree_pair hf (by simp) m) (accsFree_pair hf (by simp) m)
  exact goesWrong_plain (body := fun e => _) rfl rfl ⟨_, checked_need (maccOk_iff ..) fun _ => checked_skip (needAccFree_ok hfree) (checked_nil _)⟩

end issue

/-- Settles O26: the steps of R185, each after the one before it. -/
theorem matrixTraps : Obligations.MatrixTraps := by
  unfold Obligations.MatrixTraps
  intro s e st n src a b z th w K bytes pair even clear formats fa fb isBlock legal legalMem op plane spans load store free
    readable goesWrong family
  have wrong {i : Instr} {op : Op} {checks : List Check} {sps : List Span} (h : GoesWrong s e i op checks sps) :
      goesWrong i op checks sps := ⟨h.traps, fun hr hok => ⟨h.parks hr hok, h.holds hr hok⟩⟩
  clear_value goesWrong
  exact ⟨wrong (mma_goesWrong (f6 := 3) rfl), wrong (mma_goesWrong (f6 := 4) rfl), wrong (mma_goesWrong (f6 := 5) rfl),
    fun hf => ⟨wrong (mld_goesWrong hf), wrong (mst_goesWrong hf), wrong (mzero_goesWrong hf)⟩,
    fun hf => wrong (macc_goesWrong hf)⟩

end Sys2Proof.Machine
end

