-- ==== Sys2Proof/Proofs/TransferTraps.lean ====
section
/-! SUPPORT and PROOF. The checks of R201 as a list, and where a transfer or an invocation traps or is held. -/

namespace Sys2Proof.Machine

section operands

variable (e : Env) (p : Word)

/-- The reserved bits of the transfer word (R200). -/
def Env.wordCheck : Check := e.legalCheck (fld (e.c.th.re 4) 11 9 = 0 ∧ fld (e.c.th.re 4) 15 13 = 0 ∧ fld (e.c.th.re 4) 63 28 = 0)

/-- NBLK of the transfer word (R200). -/
def Env.countCheck : Check := e.legalCheck (fld (e.c.th.re 4) 8 0 ≠ 0)

variable {e} in
theorem word_checked {α : Type} {f : Unit → Except Stop α} {l : List Check} {r : Except Stop α} (h : Checked l (f ()) r) :
    Checked (e.wordCheck :: e.countCheck :: l) (needTransferWord e true >>= f) r := by
  refine checked_both rfl ?_ h
  simp [Env.wordCheck, Env.countCheck, Env.legalCheck, nblkOf, and_assoc]

theorem wordOnly_checked : Checked [e.wordCheck] (needTransferWord e false) (.ok ()) :=
  checked_one (by simp [Env.wordCheck, Env.legalCheck])

theorem needRouted_checked : Checked [⟨e.d.routed = true, cPhase, 2, e.s.bits.setWidth 64, 0⟩] (needRouted e) (.ok ()) :=
  checked_one Iff.rfl

theorem xPtr_checked (spaces : List Nat) : Checked [pointerCheck p spaces] (xPtr p spaces) (.ok ()) :=
  checked_one (by simp [pointerCheck])

theorem xAligned_checked (opnd : Nat) : Checked [farAligned p opnd] (xAligned p opnd) (.ok ()) :=
  checked_one decide_eq_true_iff

theorem localSpan_checked (n opnd : Nat) : Checked (e.blockSpanChecks p n opnd) (localSpan e p n opnd) (.ok ()) := by
  have hgen : ((List.range n).map fun k => (⟨(e.t.block (e.t.blockOf (ptrOff p) + k)).gen = ptrTag p, cStale, 0, p,
      e.t.access (e.t.blockAt (e.t.blockOf (ptrOff p) + k)) 0 opnd⟩ : Check))
      = (e.t.blocksAt p n).map fun b => ⟨(e.t.block b).gen = ptrTag p, cStale, 0, p, e.t.access (e.t.blockAt b) 0 opnd⟩ := by
    simp [Tile.blocksAt]
  unfold Env.blockSpanChecks
  simp only [hgen, List.cons_append, List.nil_append]
  refine checked_bind (l := [_]) (xPtr_checked p [0]) fun _ => checked_need decide_eq_true_iff fun _ =>
    checked_need decide_eq_true_iff fun _ => checked_need decide_eq_true_iff fun _ => ?_
  rw [← List.append_nil (List.map _ _)]
  exact checked_find _ (fun x hx => by rw [hx]; rfl) (fun hx => by rw [hx]) (fun x _ => by simp) fun _ => checked_nil _

/-- The first byte that a span of CELL takes of each granule (R201). -/
def cellGrans (o n : Nat) : List Nat :=
  (List.range ((o + n - 1) / 64 - o / 64 + 1)).map fun i => if i = 0 then o else 64 * (o / 64 + i)

theorem cellGrans_eq {o n : Nat} (hn : 0 < n) :
    ((List.range ((o + n - 1) / 64 + 1 - o / 64)).map fun i => if i = 0 then o else (o / 64 + i) * 64) = cellGrans o n := by
  have : (o + n - 1) / 64 + 1 - o / 64 = (o + n - 1) / 64 - o / 64 + 1 := by omega
  simp only [cellGrans, this, Nat.mul_comm]

theorem localCell_checked (align opnd : Nat) {n : Nat} (hn : 0 < n) :
    Checked (e.cellSpanChecks p align n opnd) (localCell e p align n opnd) (.ok ()) := by
  unfold localCell
  dsimp only
  rw [cellGrans_eq hn]
  refine checked_need (c := ⟨_, _, _, _, _⟩) decide_eq_true_iff fun _ => ?_
  refine checked_find (l := cellGrans (ptrOff p) n) _ (fun x hx => by rw [hx]; rfl) (fun hx => by rw [hx])
    (fun x _ => by simp) fun _ => ?_
  refine checked_skip rfl ?_
  rw [← List.append_nil (List.map _ _)]
  exact checked_find (l := cellGrans (ptrOff p) n) _ (fun x hx => by rw [hx]; rfl) (fun hx => by rw [hx])
    (fun x _ => by simp) fun _ => checked_nil _

theorem armable_checked (n agent : Nat) : Checked (e.armChecks p (e.t.blocksAt p n) agent) (armable e p n agent) (.ok ()) := by
  rw [Env.armChecks, ← List.append_nil (List.map _ _)]
  unfold armable
  exact checked_find _ (fun x hx => by rw [hx]; rfl) (fun hx => by rw [hx]) (fun x _ => armTest_iff e x agent)
    fun _ => checked_nil _

theorem rectRanks_checked : ∃ l, Checked [⟨fld p 63 32 = 0 ∧ fld p 7 0 ≤ fld p 23 16 ∧ fld p 15 8 ≤ fld p 31 24
    ∧ fld p 23 16 < e.d.launch.width ∧ fld p 31 24 < e.d.launch.height, cBounds, 3, p, 0⟩] (rectRanks e.d p) (.ok l) :=
  ⟨_, checked_need decide_eq_true_iff fun _ => checked_nil _⟩

end operands

section queues

variable {s : State} {e : Env} {i : Instr} {op : Op} {body : Env → Except Stop Res1} {l : List Check}

/-- The commands of the transfer family that one of the two queues holds (R202). -/
def Env.queued (e : Env) (feeds : Bool) : Nat := (e.t.cmds.filter fun c => c.2.major == 21 && (c.2.f6 == 4) == feeds).length

/-- Where a command of the queue of transfers traps, and where it is held. -/
def Env.TrapsHolds (e : Env) (s : State) (i : Instr) (op : Op) (l : List Check) : Prop :=
  e.Traps s i op l ∧ (Ready s e op → (∀ c ∈ l, c.ok) → 64 ≤ e.queued false → exec i s = .next e.held)

/-- A command that makes the checks of a list and then takes a place in the queue of transfers (R201, R202). -/
theorem queue_traps_holds (hw : op.waits = true) (hi : exec i s = issue s op body)
    (h : ∃ k, Checked l (body e) (needQueue e >>= k)) :
    e.TrapsHolds s i op l := by
  obtain ⟨k, h⟩ := h
  refine ⟨traps_of_checked hi fun _ _ => ⟨_, h⟩, fun hr hok hq => hi.trans (held_next hr hw ((h.passes hok).trans ?_))⟩
  have hq' : ¬ (e.t.cmds.filter fun p => p.2.major == 21 && p.2.f6 != 4).length < 64 := by
    simpa [Env.queued, bne] using hq
  exact bind_error (need_neg _ (decide_eq_false hq'))

/-- A feed that makes the checks of a list and then takes a place in the queue of feeds (R201, R202). -/
theorem feed_traps_holds (hw : op.waits = true) (hi : exec i s = issue s op body)
    (h : ∃ k, Checked l (body e) (needFeedQueue e >>= k)) :
    e.Traps s i op l ∧ (Ready s e op → (∀ c ∈ l, c.ok) → 16 ≤ e.queued true → exec i s = .next e.held) := by
  obtain ⟨k, h⟩ := h
  refine ⟨traps_of_checked hi fun _ _ => ⟨_, h⟩, fun hr hok hq => hi.trans (held_next hr hw ((h.passes hok).trans ?_))⟩
  have hq' : ¬ (e.t.cmds.filter fun p => p.2.major == 21 && p.2.f6 == 4).length < 16 := by
    simpa [Env.queued] using hq
  exact bind_error (need_neg _ (decide_eq_false hq'))

end queues

section entry

variable {e : Env} {x idx : Word} {bs : List Byte}

/-- The offset of a routing entry, not cut to the tile (R214). -/
def entryOff (x idx : Word) : Nat := ptrOff x + 8 * idx.toNat

/-- The checks of a routing entry that holds v (R201, R214). -/
def Env.entryChecks (e : Env) (x idx : Word) (v : Nat) : List Check :=
  [⟨entryOff x idx < 2 ^ 20, cBounds, 2, x, w64 (8 * idx.toNat)⟩,
   ⟨entryOff x idx % 8 = 0, cMisalign, 0, withOff x (entryOff x idx), e.t.access (entryOff x idx) 0 4⟩,
   ⟨e.t.carve.region (entryOff x idx) = .cell, cBounds, 1, withOff x (entryOff x idx), e.t.access (entryOff x idx) 0 4⟩,
   ⟨e.t.granTag (entryOff x idx) = ptrTag x, cTag, 0, withOff x (entryOff x idx), e.t.access (entryOff x idx) 0 4⟩,
   ⟨e.t.granPois (entryOff x idx) = false, cPoison, 1, withOff x (entryOff x idx), e.t.access (entryOff x idx) 0 4⟩,
   ⟨v / 2 ^ 24 = 0 ∧ v / 2 ^ 12 % 2 ^ 12 ≠ 0 ∧ v % 2 ^ 12 + v / 2 ^ 12 % 2 ^ 12 ≤ e.d.nrank, cBounds, 3, x,
    e.t.access (entryOff x idx) 0 4⟩]

/-- The address of a routing entry, behind the checks of its table's pointer. -/
theorem entryAddr_checked (hs : ptrSpace x = 0) (hz : fld x 55 20 = 0) :
    Checked [⟨entryOff x idx < 2 ^ 20, cBounds, 2, x, w64 (8 * idx.toNat)⟩,
      ⟨entryOff x idx % 8 = 0, cMisalign, 0, withOff x (entryOff x idx), e.t.access (entryOff x idx) 0 4⟩]
      (checkAddr e x (8 * idx.toNat : Nat) 8 4) (.ok (withOff x (entryOff x idx), entryOff x idx)) := by
  have hptr : checkPtr e x (8 * idx.toNat : Nat) 4 = .ok () := (checkPtr_checked e x _ 4).passes (by
    simp only [Env.ptrChecks, List.forall_mem_cons, spaceCheck_ok]
    exact ⟨by omega, hs, hz, by simp⟩)
  refine checked_skip hptr ?_
  have hoff : (((ptrOff x : Nat) : Int) + ((8 * idx.toNat : Nat) : Int)) = ((entryOff x idx : Nat) : Int) := by
    simp [entryOff]
  simp only [hoff, Int.toNat_natCast]
  refine checked_need ?_ fun _ => checked_need decide_eq_true_iff fun _ => checked_nil _
  simp only [decide_eq_true_eq]
  omega

/-- A routing entry outside CELL, in a frame or not, is refused alike (R16, R214). -/
theorem entryRegion_checked {α : Type} (q : Word) (o : Nat) {f : Unit → Except Stop α} {l : List Check} {r : Except Stop α}
    (h : e.t.carve.region o = .cell → Checked l (f ()) r) : Checked (⟨e.t.carve.region o = .cell, cBounds, 1, q, e.t.access o 0 4⟩ :: l)
      (checkRegion e q o 8 0 .load 0 4 >>= fun _ =>
        need (e.t.carve.region o = .cell) (.trap cBounds 1 q (e.t.access o 0 4)) >>= f) r := by
  have hreg := checkRegion_checked e q o 8 0 (kind := .load) (by simp) 0 4
  by_cases hc : e.t.carve.region o = .cell
  · refine checked_pass hc (checked_skip (hreg.passes ?_) (checked_skip (need_pos _ (decide_eq_true hc)) (h hc)))
    simp [Env.regionChecks, hc, AccKind.stores]
  · refine checked_fail hc ?_
    by_cases hf : e.t.carve.region o = .frame → e.t.carve.inFrame o 8 e.s.cur.ctx = true
    · refine (bind_ok (hreg.passes ?_)).trans (bind_fail (decide_eq_false hc))
      simpa [Env.regionChecks, AccKind.stores] using hf
    · refine bind_error (hreg.fails _ (firstFails_here (mt (frameCheck_ok ..).mp hf))) |>.trans ?_
      simp [Env.frameCheck]; rfl

/-- What a load sees has its size. -/
theorem loadBytes_length {c : Ctx} {t : Tile} {o n : Nat} {bs : List Byte} (h : loadBytes c t o n = some bs) : bs.length = n := by
  unfold loadBytes at h
  dsimp only at h
  split_ifs at h
  · exact Option.some.inj h ▸ readBytes_length ..
  · exact Option.some.inj h ▸ by simp

/-- The fields of a routing entry, read from its bytes (R214). -/
theorem entryFields {bs : List Byte} (hb : bs.length = 8) :
    fld (w64 (natOfBytes bs)) 63 24 = natOfBytes bs / 2 ^ 24 ∧ fld (w64 (natOfBytes bs)) 23 12 = natOfBytes bs / 2 ^ 12 % 2 ^ 12
      ∧ fld (w64 (natOfBytes bs)) 11 0 = natOfBytes bs % 2 ^ 12 := by
  have hlt := natOfBytes_lt bs
  rw [hb] at hlt
  have hw : (w64 (natOfBytes bs)).toNat = natOfBytes bs := by simp only [w64, BitVec.toNat_ofNat]; omega
  simp only [Nat.reduceMul, Nat.reducePow] at hlt
  simp only [fld, hw, Nat.reduceAdd, Nat.reduceSub, Nat.reducePow]
  refine ⟨?_, trivial, ?_⟩ <;> omega

theorem routeEntry_checked (hs : ptrSpace x = 0) (hz : fld x 55 20 = 0) (ha : e.acquiring = false)
    (hc : e.cellHits (entryOff x idx) 8 = false) (hl : loadBytes e.c e.t (entryOff x idx) 8 = some bs) :
    Checked (e.entryChecks x idx (natOfBytes bs)) (routeEntry e x idx)
      (.ok (natOfBytes bs % 2 ^ 12, natOfBytes bs / 2 ^ 12 % 2 ^ 12)) := by
  obtain ⟨h24, h12, h0⟩ := entryFields (loadBytes_length hl)
  refine checked_bind (l := [_, _]) (entryAddr_checked hs hz) fun _ => entryRegion_checked _ _ fun hcell => ?_
  have htag := checkTag_checked e (withOff x (entryOff x idx)) (entryOff x idx) 0 4
  rw [Env.tagCheck, if_neg (by simp [hcell]), withOff_tag] at htag
  refine checked_bind (l := [_]) htag fun _ => checked_skip (need_pos _ (by simp [ha, hc])) ?_
  dsimp only
  rw [hl]
  refine checked_need (by simp) fun _ => checked_need ?_ fun _ => ?_
  · rw [decide_eq_true_iff, h24, h12, h0]
  · rw [h12, h0]
    exact checked_nil _

end entry

section commands

variable {s : State} {e : Env} {st : Stall} {ord : XOrd} {f : CombOp} {a b g : GReg}

/-- The checks that begin a transfer: its word and its two registers (R200, R201). -/
def Env.firstChecks (e : Env) (a b : GReg) : List Check := [e.wordCheck, e.countCheck] ++ [e.cleanCheck a, e.cleanCheck b]

theorem first_checked {k : Unit → Except Stop Res1} {l : List Check} {r : Except Stop Res1} (h : Checked l (k ()) r) :
    Checked (e.firstChecks a b ++ l)
      (needTransferWord e true >>= fun _ => needCleanG e a >>= fun _ => needCleanG e b >>= k) r :=
  word_checked (checked_bind (l := [_]) (needCleanG_checked e a) fun _ => checked_bind (l := [_]) (needCleanG_checked e b) fun _ => h)

/-- A pointer names a tile of the acting domain (R25). -/
def Env.names (e : Env) (p : Word) : Prop := fld p 55 40 = e.s.pkgid.toNat ∧ fld p 37 32 = e.s.cur.dom

theorem xsend_checked : e.TrapsHolds s (.xsend st a b) (opX st .xcOnly [.g a, .g b, .e 4])
    (e.firstChecks a b ++ [pointerCheck (e.c.th.rg a) [2],
      ⟨e.names (e.c.th.rg a) ∧ fld (e.c.th.rg a) 31 20 < e.d.nrank, cBounds, 0, e.c.th.rg a, 0⟩, farAligned (e.c.th.rg a) 0]
      ++ e.blockSpanChecks (e.c.th.rg b) (fld (e.c.th.re 4) 8 0) 1) := by
  refine queue_traps_holds rfl rfl ⟨?k, ?_⟩
  rotate_left
  rw [List.append_assoc]
  refine first_checked (checked_bind (l := [_]) (xPtr_checked _ [2]) fun _ => checked_need ?_ fun _ =>
    checked_bind (l := [_]) (xAligned_checked _ 0) fun _ => ?_)
  · simp [Env.names, and_assoc]
  · exact checked_before (localSpan_checked e _ _ 1)

theorem xmcast_checked : e.TrapsHolds s (.xmcast st a b) (opX st .xcOnly [.g a, .g b, .e 4, .e 5])
    (e.firstChecks a b ++ [⟨fld (e.c.th.rg a) 63 32 = 0 ∧ fld (e.c.th.rg a) 7 0 ≤ fld (e.c.th.rg a) 23 16
        ∧ fld (e.c.th.rg a) 15 8 ≤ fld (e.c.th.rg a) 31 24 ∧ fld (e.c.th.rg a) 23 16 < e.d.launch.width
        ∧ fld (e.c.th.rg a) 31 24 < e.d.launch.height, cBounds, 3, e.c.th.rg a, 0⟩]
      ++ e.blockSpanChecks (e.c.th.rg b) (fld (e.c.th.re 4) 8 0) 1 ++ [pointerCheck (e.c.th.re 5) [0], farAligned (e.c.th.re 5) 4]) := by
  obtain ⟨ranks, hrect⟩ := rectRanks_checked e (e.c.th.rg a)
  refine queue_traps_holds rfl rfl ⟨?k, ?_⟩
  rotate_left
  simp only [List.append_assoc]
  refine first_checked (checked_bind (l := [_]) hrect fun _ => checked_bind (localSpan_checked e _ _ 1) fun _ =>
    checked_bind (l := [_]) (xPtr_checked _ [0]) fun _ => ?_)
  exact checked_before (xAligned_checked _ 4)

theorem xget_checked {agent : Nat} (h : getAgent e (e.c.th.rg b) = agent) :
    e.TrapsHolds s (.xget st ord a b) (opX st .xcOnly [.g a, .g b, .e 4])
    (e.firstChecks a b ++ e.blockSpanChecks (e.c.th.rg a) (fld (e.c.th.re 4) 8 0) 0
      ++ [pointerCheck (e.c.th.rg b) [1, 2], farAligned (e.c.th.rg b) 1]
      ++ e.armChecks (e.c.th.rg a) (e.t.blocksAt (e.c.th.rg a) (fld (e.c.th.re 4) 8 0)) agent) := by
  subst h
  refine queue_traps_holds rfl rfl ⟨?k, ?_⟩
  rotate_left
  simp only [List.append_assoc]
  refine first_checked (checked_bind (localSpan_checked e _ _ 0) fun _ => checked_bind (l := [_]) (xPtr_checked _ [1, 2]) fun _ =>
    checked_bind (l := [_]) (xAligned_checked _ 1) fun _ => ?_)
  exact checked_before (armable_checked e _ _ _)

theorem xput_checked : e.TrapsHolds s (.xput st ord a b) (opX st .xcOnly [.g a, .g b, .e 4])
    (e.firstChecks a b ++ [pointerCheck (e.c.th.rg a) [1, 2],
      ⟨¬(ptrSpace (e.c.th.rg a) = 2 ∧ e.names (e.c.th.rg a)), cBounds, 0, e.c.th.rg a, 0⟩, farAligned (e.c.th.rg a) 0]
      ++ e.blockSpanChecks (e.c.th.rg b) (fld (e.c.th.re 4) 8 0) 1) := by
  refine queue_traps_holds rfl rfl ⟨?k, ?_⟩
  rotate_left
  rw [List.append_assoc]
  refine first_checked (checked_bind (l := [_]) (xPtr_checked _ [1, 2]) fun _ => checked_need ?_ fun _ =>
    checked_bind (l := [_]) (xAligned_checked _ 0) fun _ => ?_)
  · simp [Env.names, imp_iff_not_or, or_assoc]
  · exact checked_before (localSpan_checked e _ _ 1)

/-- The barrier of a feed, where it names one (R211). -/
def Env.barrierChecks (e : Env) (x : Word) : List Check :=
  if x = 0 then [] else
    pointerCheck x [0] :: e.cellSpanChecks x 16 16 4 ++ [⟨e.t.nfeed (ptrOff x) ≠ 255, cBounds, 3, x, e.t.access (ptrOff x) 0 4⟩]

/-- No earlier access of the context to the barrier of a feed is under way (R246). -/
def Env.BarrierFree (e : Env) (x : Word) : Prop :=
  x ≠ 0 → e.acquiring = false ∧ e.c.sbHits (ptrOff x) 16 = [] ∧ e.cellHits (ptrOff x) 16 = false

/-- The operands of a feed but its barrier (R211). -/
theorem feedOperands_checked {k : Unit → Except Stop Res1} {l : List Check} {r : Except Stop Res1} (h : Checked l (k ()) r) :
    Checked (e.firstChecks a b ++ (e.blockSpanChecks (e.c.th.rg a) (fld (e.c.th.re 4) 8 0) 0
        ++ ([pointerCheck (e.c.th.rg b) [1], farAligned (e.c.th.rg b) 1] ++ l)))
      (needTransferWord e true >>= fun _ => needCleanG e a >>= fun _ => needCleanG e b >>= fun _ =>
        localSpan e (e.c.th.rg a) (nblkOf (e.c.th.re 4)) 0 >>= fun _ => xPtr (e.c.th.rg b) [1] >>= fun _ =>
        xAligned (e.c.th.rg b) 1 >>= k) r :=
  first_checked (checked_bind (localSpan_checked e _ _ 0) fun _ => checked_bind (l := [_]) (xPtr_checked _ [1]) fun _ =>
    checked_bind (l := [_]) (xAligned_checked _ 1) fun _ => h)

theorem xfeed_checked (hbar : e.BarrierFree (e.c.th.re 5)) :
    let l := e.firstChecks a b ++ e.blockSpanChecks (e.c.th.rg a) (fld (e.c.th.re 4) 8 0) 0
      ++ [pointerCheck (e.c.th.rg b) [1], farAligned (e.c.th.rg b) 1] ++ e.barrierChecks (e.c.th.re 5)
      ++ e.armChecks (e.c.th.rg a) (e.t.blocksAt (e.c.th.rg a) (fld (e.c.th.re 4) 8 0)) 25
    e.Traps s (.xfeed st ord a b) (opX st .notSv [.g a, .g b, .e 4, .e 5]) l
      ∧ (Ready s e (opX st .notSv [.g a, .g b, .e 4, .e 5]) → (∀ c ∈ l, c.ok) → 16 ≤ e.queued true →
        exec (.xfeed st ord a b) s = .next e.held) := by
  refine feed_traps_holds rfl rfl ?_
  simp only [List.append_assoc]
  unfold Env.barrierChecks
  by_cases hx : e.c.th.re 5 = 0
  · refine ⟨?plain, feedOperands_checked ?_⟩
    rotate_left
    rw [if_pos hx, if_neg (not_not.mpr hx)]
    exact checked_before (armable_checked e _ _ _)
  · obtain ⟨hacq, hsb, hcell⟩ := hbar hx
    refine ⟨?counted, feedOperands_checked ?_⟩
    rotate_left
    rw [if_neg hx, if_pos hx, List.append_assoc]
    refine checked_bind (l := [_]) (xPtr_checked _ [0]) fun _ => checked_bind (localCell_checked e _ 16 4 (by simp)) fun _ =>
      checked_skip (need_pos _ (by simp [hacq, hsb, hcell])) (checked_need (by simp) fun _ => ?_)
    exact checked_before (armable_checked e _ _ _)

theorem xcomb_checked : e.TrapsHolds s (.xcomb st f ord a b) (opX st .xcOnly [.g a, .g b])
    ([e.cleanCheck a, e.cleanCheck b] ++ [pointerCheck (e.c.th.rg a) [0, 2]]
      ++ (if ptrSpace (e.c.th.rg a) = 0 then e.cellSpanChecks (e.c.th.rg a) 8 8 0
        else [⟨fld (e.c.th.rg a) 2 0 = 0, cMisalign, 0, e.c.th.rg a, accessNone 0 0⟩])) := by
  have clean {k : Unit → Except Stop Res1} {l : List Check} {r : Except Stop Res1} (h : Checked l (k ()) r) :
      Checked (e.cleanCheck a :: e.cleanCheck b :: pointerCheck (e.c.th.rg a) [0, 2] :: l)
        (needCleanG e a >>= fun _ => needCleanG e b >>= fun _ => xPtr (e.c.th.rg a) [0, 2] >>= k) r :=
    checked_bind (l := [_]) (needCleanG_checked e a) fun _ => checked_bind (l := [_]) (needCleanG_checked e b) fun _ =>
      checked_bind (l := [_]) (xPtr_checked _ [0, 2]) fun _ => h
  refine queue_traps_holds rfl rfl ?_
  by_cases hs : ptrSpace (e.c.th.rg a) = 0
  · refine ⟨?near, clean ?_⟩
    rotate_left
    rw [if_pos hs, if_pos hs]
    exact checked_before (localCell_checked e _ 8 0 (n := 8) (by simp))
  · refine ⟨?far, clean ?_⟩
    rotate_left
    rw [if_neg hs, if_neg hs]
    exact checked_before (checked_one (c := ⟨fld (e.c.th.rg a) 2 0 = 0, _, _, _, _⟩) decide_eq_true_iff)

theorem xclose_checked : e.TrapsHolds s (.xclose st) (opX st .xcOnly [])
    [⟨e.d.routed = true, cPhase, 2, e.s.bits.setWidth 64, 0⟩, ⟨e.t.closed = false, cBounds, 3, e.freeTval, 0⟩] := by
  refine queue_traps_holds rfl rfl ⟨?k, ?_⟩
  rotate_left
  refine checked_bind (l := [_]) (needRouted_checked e) fun _ => ?_
  exact checked_before (checked_one (c := ⟨e.t.closed = false, _, _, _, _⟩) (iff_of_eq (Bool.not_eq_true' _)))

theorem xroute_checked {bs : List Byte} (ha : e.acquiring = false)
    (hc : e.cellHits (entryOff (e.c.th.re 5) (e.c.th.rg a)) 8 = false)
    (hl : loadBytes e.c e.t (entryOff (e.c.th.re 5) (e.c.th.rg a)) 8 = some bs) :
    e.TrapsHolds s (.xroute st a b) (opX st .xcOnly [.g a, .g b, .e 4, .e 5])
    ([e.wordCheck, e.cleanCheck a, e.cleanCheck b, ⟨e.d.routed = true, cPhase, 2, e.s.bits.setWidth 64, 0⟩,
      ⟨(e.c.th.rg a).toNat < fld (e.c.th.re 4) 27 16, cBounds, 3, e.c.th.rg a, 0⟩] ++ e.blockSpanChecks (e.c.th.rg b) 1 1
      ++ (pointerCheck (e.c.th.re 5) [0] :: e.entryChecks (e.c.th.re 5) (e.c.th.rg a) (natOfBytes bs))
      ++ [⟨e.t.closed = false ∧ e.t.routes.getD (natOfBytes bs % 2 ^ 12
        + e.s.cur.rank % (natOfBytes bs / 2 ^ 12 % 2 ^ 12)) 0 < 4096, cBounds, 3, e.freeTval, 0⟩]) := by
  refine queue_traps_holds rfl rfl ⟨?k, ?_⟩
  rotate_left
  simp only [List.append_assoc, List.cons_append, List.nil_append]
  refine checked_bind (l := [_]) (wordOnly_checked e) fun _ => checked_bind (l := [_]) (needCleanG_checked e a) fun _ =>
    checked_bind (l := [_]) (needCleanG_checked e b) fun _ => checked_bind (l := [_]) (needRouted_checked e) fun _ =>
    checked_need decide_eq_true_iff fun _ => checked_bind (localSpan_checked e _ 1 1) fun _ =>
    checked_bind (l := [_]) (xPtr_checked _ [0]) fun hx => ?_
  obtain ⟨hbad, hs⟩ := hx _ (List.mem_singleton.mpr rfl)
  have hs : ptrSpace (e.c.th.re 5) = 0 := List.mem_singleton.mp hs
  refine checked_bind (routeEntry_checked hs ?_ ha hc hl) fun _ => ?_
  · simpa [ptrBad, hs] using hbad
  · refine checked_before (checked_one (c := ⟨_ ∧ _, _, _, _, _⟩) ?_)
    rw [Bool.and_eq_true, Bool.not_eq_true', decide_eq_true_iff]

theorem xrecv_checked : e.Traps s (.xrecv st a) (opX st .xcOnly [.g a, .e 4])
    ([e.wordCheck, e.countCheck, e.cleanCheck a] ++ e.blockSpanChecks (e.c.th.rg a) (fld (e.c.th.re 4) 8 0) 0
      ++ e.armChecks (e.c.th.rg a) (e.t.blocksAt (e.c.th.rg a) (fld (e.c.th.re 4) 8 0)) 24) := by
  refine traps_of_checked rfl fun _ _ => ⟨?r, ?_⟩
  rotate_left
  rw [List.append_assoc]
  refine word_checked (checked_bind (l := [_]) (needCleanG_checked e a) fun _ => checked_bind (localSpan_checked e _ _ 0) fun _ => ?_)
  exact checked_last (armable_checked e _ _ 24)

theorem xrecvRoute_checked : e.Traps s (.xrecvRoute st a) (opX st .xcOnly [.g a, .e 4, .e 5])
    ([e.wordCheck, e.countCheck, e.cleanCheck a, ⟨e.d.routed = true, cPhase, 2, e.s.bits.setWidth 64, 0⟩]
      ++ e.blockSpanChecks (e.c.th.rg a) (fld (e.c.th.re 4) 8 0) 0 ++ [pointerCheck (e.c.th.re 5) [0]]
      ++ e.cellSpanChecks (e.c.th.re 5) 8 (8 + 8 * fld (e.c.th.re 4) 8 0) 4 ++ [⟨e.t.inboxUsed = false, cBounds, 3, e.freeTval, 0⟩]
      ++ e.armChecks (e.c.th.rg a) (e.t.blocksAt (e.c.th.rg a) (fld (e.c.th.re 4) 8 0)) 24) := by
  refine traps_of_checked rfl fun _ _ => ⟨?r, ?_⟩
  rotate_left
  simp only [List.append_assoc, List.cons_append, List.nil_append]
  refine word_checked (checked_bind (l := [_]) (needCleanG_checked e a) fun _ => checked_bind (l := [_]) (needRouted_checked e)
    fun _ => checked_bind (localSpan_checked e _ _ 0) fun _ => checked_bind (l := [_]) (xPtr_checked _ [0]) fun _ =>
    checked_bind (localCell_checked e _ 8 4 (by omega)) fun _ => checked_need (c := ⟨e.t.inboxUsed = false, _, _, _, _⟩)
    (iff_of_eq (Bool.not_eq_true' _)) fun _ => ?_)
  exact checked_last (armable_checked e _ _ 24)

/-- The checks of an invocation: its registers and its word (R220). -/
theorem pitchStart_checked (f6 : Nat) : ∃ r, Checked (([b, 4, 5, 6, 7, 8, 9] : List GReg).map e.cleanCheck
    ++ [⟨fld (e.c.th.rg b) 15 12 = 0 ∧ fld (e.c.th.rg b) 31 22 = 0 ∧ fld (e.c.th.rg b) 63 48 = 0, cBounds, 3, e.c.th.rg b, 0⟩])
    (pitchStart e f6 ord b) r := by
  refine ⟨?r, checked_bind (l := [_]) (needCleanG_checked e b) fun _ => ?_⟩
  rotate_left
  refine checked_find (l := pitchArgs) _ (fun x hx => by rw [hx]; rfl) (fun hx => by rw [hx]; rfl) (fun x _ => ?_)
    fun _ => checked_skip rfl (checked_need decide_eq_true_iff fun _ => ?_)
  · simp [Env.cleanCheck]
  · exact checked_nil _

theorem pitch_checked {i : Instr} (hbusy : e.c.busy = .none) (hi : i = .pitch st ord b ∨ i = .pitchq st ord g b) :
    e.Traps s i (opPitch st b) (([b, 4, 5, 6, 7, 8, 9] : List GReg).map e.cleanCheck
      ++ [⟨fld (e.c.th.rg b) 15 12 = 0 ∧ fld (e.c.th.rg b) 31 22 = 0 ∧ fld (e.c.th.rg b) 63 48 = 0, cBounds, 3,
        e.c.th.rg b, 0⟩]) := by
  obtain rfl | rfl := hi
  all_goals
    refine traps_of_checked rfl fun _ _ => ?_
    dsimp only
    rw [hbusy]
  · exact (pitchStart_checked 0).elim fun _ h => ⟨_, checked_then h⟩
  · exact (pitchStart_checked 1).elim fun _ h => ⟨_, checked_then h⟩

end commands

/-- Settles O31: the steps of R201, each after the one before it. -/
theorem transferTraps : Obligations.TransferTraps := by
  unfold Obligations.TransferTraps
  intro s e st ord f a b g th p q w x n op word count clean routed mine blocks rect state barrier o entry at_ checks holds
    both xc
  refine ⟨xsend_checked, xmcast_checked, fun agent hagent => xget_checked hagent.symm, xput_checked, fun hbar => xfeed_checked hbar,
    xcomb_checked, fun bs ha hc hl => xroute_checked ha hc hl, xclose_checked, xrecv_checked, xrecvRoute_checked,
    fun hbusy i hi => pitch_checked hbusy (List.mem_pair.mp hi)⟩

end Sys2Proof.Machine
end

