-- ==== Sys2Proof/Proofs/TileKeeps.lean ====
section
/-! SUPPORT. What a dispatched message and a fault record leave of every tile: its bytes, its blocks and its engine reads. -/

namespace Sys2Proof.Machine

/-- Every tile of s is there in u, with its bytes, its blocks and its engine reads. -/
def State.KeepsTiles (s u : State) : Prop :=
  ∀ k r t, s.tile? k r = some t → ∃ v, u.tile? k r = some v ∧ v.reads = t.reads ∧ v.sram = t.sram ∧ v.blocks = t.blocks

namespace State.KeepsTiles

variable {s u v : State}

theorem refl (s : State) : s.KeepsTiles s := fun _ _ t h => ⟨t, h, rfl, rfl, rfl⟩

theorem trans (h : s.KeepsTiles u) (k : u.KeepsTiles v) : s.KeepsTiles v := fun a b t ht => by
  obtain ⟨x, hx, h1, h2, h3⟩ := h a b t ht
  obtain ⟨y, hy, k1, k2, k3⟩ := k a b x hx
  exact ⟨y, hy, k1.trans h1, k2.trans h2, k3.trans h3⟩

theorem of_doms (h : u.doms = s.doms) : s.KeepsTiles u := fun a b t ht => ⟨t, by simpa [State.tile?, h] using ht, rfl, rfl, rfl⟩

theorem foldl {ι : Type} {f : State → ι → State} (h : ∀ (s : State) (x : ι), s.KeepsTiles (f s x)) (l : List ι) :
    ∀ s : State, s.KeepsTiles (l.foldl f s) := by
  induction l with
  | nil => exact refl
  | cons x t ih => exact fun s => (h s x).trans (ih _)

/-- A domain replaced by one with the same tiles. -/
theorem setDom {k : Nat} {d e : Domain} (hd : s.doms.find k = some d) (he : e.tiles = d.tiles) : s.KeepsTiles (s.setDom k e) := by
  intro a b t ht
  refine ⟨t, ?_, rfl, rfl, rfl⟩
  simp only [State.tile?, setDom_doms, find_set] at ht ⊢
  split
  · next h =>
    subst h
    simpa [hd, he] using ht
  · exact ht

theorem updDom {k : Nat} {f : Domain → Domain} (hf : ∀ d, (f d).tiles = d.tiles) : s.KeepsTiles (s.updDom k f) := by
  unfold State.updDom
  split
  · next d hd => exact setDom hd (hf d)
  · exact refl s

/-- A tile replaced by one that differs in nothing that is kept. -/
theorem setTile {k r : Nat} {d : Domain} {t u : Tile} (h : s.at_ k r d t)
    (hu : u.reads = t.reads ∧ u.sram = t.sram ∧ u.blocks = t.blocks) : s.KeepsTiles (s.setDom k (d.setTile r u)) := by
  obtain ⟨hd, hr⟩ := h
  intro a b x hx
  simp only [State.tile?, setDom_doms, find_set] at hx ⊢
  by_cases ha : a = k
  · subst ha
    by_cases hb : b = r
    · subst hb
      obtain rfl : t = x := by simpa [hd, hr] using hx
      exact ⟨u, by simp, hu⟩
    · exact ⟨x, by simpa [hd, find_set_ne _ _ hb] using hx, rfl, rfl, rfl⟩
  · exact ⟨x, by simpa [ha] using hx, rfl, rfl, rfl⟩

/-- A tile changed in nothing that is kept. -/
theorem updTile {k r : Nat} {f : Tile → Tile} (hf : ∀ t, (f t).reads = t.reads ∧ (f t).sram = t.sram ∧ (f t).blocks = t.blocks) :
    s.KeepsTiles (s.updTile k r f) := by
  unfold State.updTile
  split
  · next d hd =>
    split
    · next t ht => exact setTile ⟨hd, ht⟩ (hf t)
    · exact refl s
  · exact refl s

end State.KeepsTiles

section device

variable (s : State)

@[simp] theorem useHbm_doms (pa : Nat) : (s.useHbm pa).doms = s.doms := by
  unfold State.useHbm
  dsimp only
  split <;> rfl

@[simp] theorem decodeGran_doms (g src : Nat) : (s.decodeGran g src).1.doms = s.doms := by
  unfold State.decodeGran
  dsimp only
  split
  · rfl
  · split <;> rfl

@[simp] theorem readGrans_doms (src : Nat) (l : List Nat) : ∀ s : State, (s.readGrans src l).doms = s.doms := by
  induction l with
  | nil => exact fun _ => rfl
  | cons g t ih => exact fun s => (ih _).trans (by simp)

@[simp] theorem kilnWalk_doms (va : Nat) : (s.kilnWalk va).doms = s.doms := readGrans_doms ..

@[simp] theorem homeWrite_doms (h : Home) (l : List Byte) : (s.homeWrite h l).doms = s.doms := by
  cases h <;> rfl

@[simp] theorem vaWrite64_doms (va : Nat) (w : Word) : (s.vaWrite64 va w).doms = s.doms := by
  unfold State.vaWrite64
  split <;> simp

@[simp] theorem vaWriteWords_doms (l : List Word) : ∀ (s : State) (va : Nat), (s.vaWriteWords va l).doms = s.doms := by
  induction l with
  | nil => exact fun _ _ => rfl
  | cons w t ih => exact fun s va => (ih _ _).trans (by simp)

@[simp] theorem headerCount_doms (va bits n : Nat) : (s.headerCount va bits n).doms = s.doms := vaWrite64_doms ..

@[simp] theorem post_doms (kind dom seq status detail : Nat) (data : List Word) :
    (s.post kind dom seq status detail data).doms = s.doms := by
  unfold State.post
  dsimp only
  split
  · rfl
  · split <;> rfl

/-- A count of a fault ring changed, with the event that it may raise. -/
theorem keepsTiles_counted {u : State} (h : u.doms = s.doms) (c : Prop) [Decidable c] (dom : Nat) {f : Domain → Domain}
    (hf : ∀ d, (f d).tiles = d.tiles) :
    s.KeepsTiles (if c then (u.updDom dom f).post evFaultRing dom 0 0 0 [] else u.updDom dom f) := by
  have hu : s.KeepsTiles (u.updDom dom f) := (State.KeepsTiles.of_doms h).trans (.updDom hf)
  split
  · exact hu.trans (.of_doms (by simp))
  · exact hu

theorem keepsTiles_fringWrite (dom : Nat) (d : Domain) (rec_ : List Word) : s.KeepsTiles (s.fringWrite dom d rec_) :=
  keepsTiles_counted s (by simp) _ dom fun _ => rfl

theorem keepsTiles_fringLose (dom : Nat) (d : Domain) : s.KeepsTiles (s.fringLose dom d) :=
  keepsTiles_counted s (by simp) _ dom fun _ => rfl

theorem keepsTiles_fault (dom : Nat) (rec_ : List Word) : s.KeepsTiles (s.fault dom rec_) := by
  unfold State.fault
  split
  · exact .refl s
  · have h (d : Domain) : s.KeepsTiles (s.kilnWalk (d.launch.fring + 16)) := .of_doms (by simp)
    split
    · exact (h _).trans (keepsTiles_fringLose _ _ _)
    · exact (h _).trans (keepsTiles_fringWrite _ _ _ _)

end device

section messages

variable (s : State)

theorem keepsTiles_updCmd (dom rank req : Nat) (f : Cmd → Cmd) : s.KeepsTiles (s.updCmd dom rank req f) :=
  .updTile fun t => by split <;> exact ⟨rfl, rfl, rfl⟩

theorem keepsTiles_stallRead (m : Msg) (va cause : Nat) : s.KeepsTiles (s.stallRead m va cause) := by
  unfold State.stallRead
  dsimp only
  split
  · next c d hc hd =>
    have hu : s.KeepsTiles (s.kilnWalk (d.launch.fring + 16)) := .of_doms (by simp)
    split
    · exact keepsTiles_updCmd _ _ _ _ _
    · split
      · exact hu.trans (.of_doms rfl)
      · split
        · exact (hu.trans (keepsTiles_updCmd _ _ _ _ _)).trans (.of_doms rfl)
        · exact ((hu.trans (keepsTiles_updCmd _ _ _ _ _)).trans (keepsTiles_fringWrite _ _ _ _)).trans (keepsTiles_updCmd _ _ _ _ _)
  · exact .refl s

theorem keepsTiles_xlatFail (m : Msg) (va cause : Nat) : s.KeepsTiles (s.xlatFail m va cause) := by
  unfold State.xlatFail
  split
  · exact (keepsTiles_fault s _ _).trans (.of_doms rfl)
  · exact keepsTiles_stallRead _ _ _ _

theorem toPackage_doms (m : Msg) (from_ : Nat) : (s.toPackage m from_).doms = s.doms := by
  unfold State.toPackage
  dsimp only
  split
  · rfl
  · have hx (c : Prop) [Decidable c] (n : Nat) : (if c then { s with nextXid := n } else s).doms = s.doms := by split <;> rfl
    split <;> exact hx _ _

theorem countPage_doms (vpn : Nat) : (s.countPage vpn).doms = s.doms := by
  unfold State.countPage
  dsimp only
  split
  · split <;> rfl
  · rfl

theorem toHome_doms (m : Msg) (va : Nat) (x : Xlat) (from_ : Nat) : (s.toHome m va x from_).doms = s.doms := by
  unfold State.toHome
  dsimp only
  split
  · rfl
  · have hc : (if x.cnt && !m.counted then s.countPage (vpnOf va) else s).doms = s.doms := by
      split
      · exact countPage_doms ..
      · rfl
    split
    · exact hc
    · exact hc
    · exact hc
    · exact (toPackage_doms ..).trans hc

/-- A message leaves its agent, and no tile's bytes, blocks or reads change. -/
theorem keepsTiles_dispatch (m : Msg) (from_ : Nat) : s.KeepsTiles (s.dispatch m from_) := by
  unfold State.dispatch
  dsimp only
  split
  · split
    · exact .of_doms rfl
    · split
      · split
        · exact keepsTiles_xlatFail _ _ _ _
        · exact .of_doms (toHome_doms ..)
      · split
        · exact .of_doms rfl
        · split <;> exact .of_doms rfl
  · split
    · exact .of_doms rfl
    · exact .of_doms (toPackage_doms ..)

end messages

section tiles

variable {s : State} {dom rank : Nat} {d : Domain} {t u : Tile}

theorem at_of_tile? (hd : s.doms.find dom = some d) (ht : s.tile? dom rank = some t) : s.at_ dom rank d t :=
  ⟨hd, by simpa [State.tile?, hd] using ht⟩

/-- A tile put in its place is there. -/
theorem tile?_setDom (s : State) (dom rank : Nat) (d : Domain) (u : Tile) :
    (s.setDom dom (d.setTile rank u)).tile? dom rank = some u := by simp [State.tile?]

/-- The tile that a row of a tile's hardware leaves. -/
theorem tileEvent_next {f : Domain → Tile → Option Tile} (h : s.at_ dom rank d t) (hf : f d t = some u) :
    tileEvent s dom rank f = .next (s.setDom dom (d.setTile rank u)) := by
  obtain ⟨hd, hr⟩ := h
  simp only [tileEvent, hd, hr, hf]

/-- The next source block asked for. -/
theorem keepsTiles_nextRead (s : State) (dom rank req : Nat) (c : Cmd) : s.KeepsTiles (s.nextRead dom rank req c) := by
  unfold State.nextRead
  split
  · next d t hd ht =>
    dsimp only
    refine (State.KeepsTiles.of_doms (u := s.tick1) rfl).trans (.setTile (t := t) (at_of_tile? hd ht) ?_)
    split <;> exact ⟨rfl, rfl, rfl⟩
  · exact .refl s

/-- What follows a finished read takes nothing from any tile. -/
theorem keepsTiles_readDone (s : State) (dom rank : Nat) (r : EngRead) : s.KeepsTiles (s.readDone dom rank r) := by
  unfold State.readDone
  dsimp only
  have hread : s.KeepsTiles (s.updTile dom rank fun t => t.readFail (r.blocks.flatMap t.blockGrans)) :=
    .updTile fun _ => ⟨rfl, rfl, rfl⟩
  split
  · exact hread
  · split
    · exact hread
    · split
      · exact hread
      · exact (hread.trans (keepsTiles_nextRead _ _ _ _ _)).trans (.foldl (fun s m => keepsTiles_dispatch s m _) _ _)
    · exact hread.trans (keepsTiles_dispatch _ _ _)

end tiles

end Sys2Proof.Machine
end

