-- ==== Sys2Proof/Proofs/EngineRows.lean ====
section
/-! SUPPORT. The rows of a tile's engines: the end of a read, the waiter service, IDLE_WAKE and the vote-window wait (R20, R239,
R244, R301, R304). -/

namespace Sys2Proof.Machine

section rows

variable {s : State} {dom rank : Nat} {d : Domain} {t : Tile}

theorem engineReadEnd_row (h : s.at_ dom rank d t) {r : EngRead} (hr : t.reads.find? (fun r => decide (r.last < s.cycle)) = some r) :
    ∃ v u, exec (.engineReadEnd dom rank) s = .next v ∧ v.tile? dom rank = some u ∧ u.reads = t.reads.erase r
      ∧ u.sram = t.sram ∧ u.blocks = t.blocks := by
  have hover : ((s.tile? dom rank).bind fun t => t.readOver? s.cycle) = some r := by
    rw [tile?_of_at h]; exact hr
  obtain ⟨u, hu, hreads, hsram, hblocks⟩ := keepsTiles_readDone (s.updTile dom rank fun t => { t with reads := t.reads.erase r })
    dom rank r dom rank _ (by rw [updTile_of_at h]; exact tile?_setDom ..)
  refine ⟨_, u, ?_, hu, hreads, hsram, hblocks⟩
  change execEngineReadEnd dom rank s = _
  rw [execEngineReadEnd, hover]

/-- A tile put in its place stands there. -/
theorem at_setDom (s : State) (dom rank : Nat) (d : Domain) (u : Tile) :
    (s.setDom dom (d.setTile rank u)).at_ dom rank (d.setTile rank u) u := ⟨by simp, by simp⟩

/-- WAITER_SERVICE answers what its part of the cycle leaves. -/
theorem waiterService_next (h : s.at_ dom rank d t) {u : State}
    (hu : (if s.stage = 0 then s.serveLanding dom rank t else s.serveRead dom rank t) = some u) :
    exec (.waiterService dom rank) s = .next u := by
  change execWaiterService dom rank s = _
  have : ((s.tile? dom rank).bind fun t => if s.stage = 0 then s.serveLanding dom rank t else s.serveRead dom rank t) = some u := by
    rw [tile?_of_at h]; exact hu
  rw [execWaiterService, this]

theorem staleRefuse_row (h : s.at_ dom rank d t) {x : Nat × Nat × Nat} (hs : s.stage = 0)
    (hx : t.staleDue.find? (fun p => decide (p.1 ≤ s.cycle)) = some x) :
    exec (.waiterService dom rank) s = .next (s.setDom dom (d.setTile rank (t.staleRefuse x))) := by
  refine waiterService_next h ?_
  rw [if_pos hs, State.serveLanding, hx]
  exact congrArg some (updTile_of_at h _)

/-- A source read that is due on a FULL block starts (R19, R20, R204). -/
theorem sourceRead_row (h : s.at_ dom rank d t) {due req : Nat} {c : Cmd} (hs : s.stage ≠ 0) (hpool : t.pool = [])
    (hdue : t.readReqs.find? (fun p => decide (p.1 ≤ s.cycle)) = some (due, req)) (hc : t.cmds.find req = some c)
    (hgen : (t.block (t.blockOf (ptrOff c.b) + c.next)).gen = ptrTag c.b)
    (hfull : (t.block (t.blockOf (ptrOff c.b) + c.next)).state = .full) :
    exec (.waiterService dom rank) s = .next (s.setDom dom (d.setTile rank { t with
      readReqs := t.readReqs.erase (due, req)
      reads := t.reads ++ [{ blocks := [t.blockOf (ptrOff c.b) + c.next], last := s.cycle + 15, ctx := none, job := .send req }] })) := by
  refine waiterService_next h ?_
  have hnext : t.nextPool s.cycle false = none := by simp [Tile.nextPool, hpool]
  have hread : t.dueRead s.cycle = some (due, req) := hdue
  rw [if_neg hs, State.serveRead, hnext, hread]
  refine congrArg some ((congrArg (State.tryRead · dom rank req) (updTile_of_at h _)).trans ?_)
  have h1 := at_setDom s dom rank d { t with readReqs := t.readReqs.erase (due, req) }
  unfold State.tryRead
  rw [tile?_of_at h1]
  dsimp only
  rw [hc]
  dsimp only
  refine (if_neg (not_not.mpr hgen)).trans ((if_pos hfull).trans ((updTile_of_at h1 _).trans ?_))
  rw [setTile_setTile, setDom_setDom]
  rfl

theorem idleWake_row (h : s.at_ dom rank d t) {i r : Nat} (hi : i < 18) (hr : (t.ctx i).idleOver s.cycle d.launch.det = some r) :
    exec (.idleWake dom rank i) s = .next (s.setDom dom (d.setTile rank
      ((t.ready s.cycle i).setCtx i { (t.ready s.cycle i).ctx i with idle := none, busy := .idleDone r }))) := by
  change execIdleWake dom rank i s = _
  exact tileEvent_next h (by simp only [if_pos hi, hr]; rfl)

/-- What the wake of an IDLE leaves of its tile. -/
theorem idleWake_tile (t : Tile) (now : Nat) {i r : Nat} (hi : i < 18) :
    let u := (t.ready now i).setCtx i { (t.ready now i).ctx i with idle := none, busy := .idleDone r }
    (u.ctx i).run = .ready ∧ (u.ctx i).busy = .idleDone r ∧ (u.ctx i).idle = none ∧ (u.ctx i).th = (t.ctx i).th
      ∧ u.sram = t.sram ∧ ∀ j, j ≠ i → u.ctx j = t.ctx j := by
  unfold Tile.ready
  rw [ctx_setCtx_self _ _ hi, setCtx_setCtx]
  intro u
  rw [show u.ctx i = _ from ctx_setCtx_self _ _ hi]
  exact ⟨rfl, rfl, rfl, rfl, rfl, fun j hj => ctx_setCtx_ne _ _ hj.symm⟩

/-- A list of contexts changed one after another. -/
theorem ctx_foldl_setCtx (f : Nat → Ctx → Ctx) (j : Nat) (l : List Nat) : l.Nodup → (∀ i ∈ l, i < 18) → ∀ t : Tile,
    (l.foldl (fun t i => t.setCtx i (f i (t.ctx i))) t).ctx j = if j ∈ l then f j (t.ctx j) else t.ctx j := by
  induction l with
  | nil => simp
  | cons i l ih =>
    intro hd hl t
    obtain ⟨hi, hd⟩ := List.nodup_cons.mp hd
    rw [List.foldl_cons, ih hd fun k hk => hl k (List.mem_cons_of_mem _ hk), ctx_setCtx]
    by_cases hj : i = j
    · subst hj
      simp [hi, hl i List.mem_cons_self]
    · simp [hj, Ne.symm hj]

/-- A change of every context changes each of them alone. -/
theorem ctx_mapCtxs (t : Tile) (f : Nat → Ctx → Ctx) (j : Nat) :
    (t.mapCtxs f).ctx j = if j < 18 then f j (t.ctx j) else t.ctx j := by
  refine (ctx_foldl_setCtx f j ctxNums List.nodup_range (fun i hi => List.mem_range.mp hi) t).trans ?_
  simp only [ctxNums, List.mem_range]

theorem keeps_mapCtxs (t : Tile) (f : Nat → Ctx → Ctx) : Tile.Keeps t (t.mapCtxs f) :=
  keeps_foldl _ (fun _ _ => keeps_setCtx _ _ _) _ _

/-- A context whose vote-window wait, where it is over, has ended (R304). -/
def Ctx.endVoteWait (c : Ctx) (now : Nat) : Ctx :=
  if (match c.voteWait with | some w => decide (w ≤ now) | none => false) then { c with voteWait := none } else c

theorem endVoteWait_th (c : Ctx) (now : Nat) : (c.endVoteWait now).th = c.th := by
  rw [Ctx.endVoteWait, apply_ite Ctx.th, ite_self]

theorem endVoteWait_over {c : Ctx} {now w : Nat} (hw : c.voteWait = some w) (hle : w ≤ now) :
    (c.endVoteWait now).voteWait = none := by
  simp [Ctx.endVoteWait, hw, hle]

theorem voteWait_row (h : s.at_ dom rank d t) {i w : Nat} (hi : i < 18) (hw : (t.ctx i).voteWait = some w) (hle : w ≤ s.cycle) :
    exec (.voteWindowWaitEnd dom rank) s
      = .next (s.setDom dom (d.setTile rank (t.mapCtxs fun _ c => c.endVoteWait s.cycle))) := by
  change execVoteWindowWaitEnd dom rank s = _
  refine tileEvent_next h ((if_pos ?_).trans rfl)
  exact List.any_eq_true.mpr ⟨i, List.mem_range.mpr hi, by simp [hw, hle]⟩

/-- What the end of the vote-window waits leaves of a tile. -/
theorem endVoteWaits_tile (t : Tile) {now i w : Nat} (hi : i < 18) (hw : (t.ctx i).voteWait = some w) (hle : w ≤ now) :
    let u := t.mapCtxs fun _ c => c.endVoteWait now
    (u.ctx i).voteWait = none ∧ (∀ j, (u.ctx j).th = (t.ctx j).th) ∧ u.sram = t.sram := by
  refine ⟨?_, fun j => ?_, (keeps_mapCtxs t _).sram⟩
  · rw [ctx_mapCtxs, if_pos hi]
    exact endVoteWait_over hw hle
  · rw [ctx_mapCtxs]
    split
    · exact endVoteWait_th _ _
    · rfl

end rows

end Sys2Proof.Machine
end

