-- ==== Sys2Proof/Proofs/Feeds.lean ====
section
/-! SUPPORT. FEED_COMMIT: the next block of a feed in its turn, and the count of a committed one at its barrier (R150, R211). -/

namespace Sys2Proof.Machine

section words

theorem testBit_fld_low (w : Word) (i : Nat) : (fld w 55 0).testBit i = (decide (i < 56) && w.getLsbD i) := by
  rw [fld, pow_zero, Nat.div_one, Nat.testBit_mod_two_pow, ← BitVec.testBit_toNat]

/-- PENDING of a barrier's word replaced, its PHASE kept (R23). -/
theorem pending_word (w : Word) {n : Nat} (hn : n < 2 ^ 56) :
    fld ((w &&& w64 (2 ^ 64 - 2 ^ 56)) ||| w64 n) 55 0 = n
      ∧ ((w &&& w64 (2 ^ 64 - 2 ^ 56)) ||| w64 n).getLsbD 56 = w.getLsbD 56 := by
  have hmask (i : Nat) : (w64 (2 ^ 64 - 2 ^ 56)).getLsbD i = (decide (i < 64) && (decide (56 ≤ i) && (255 : Nat).testBit (i - 56))) := by
    rw [w64, BitVec.getLsbD_ofNat, show 2 ^ 64 - 2 ^ 56 = 255 * 2 ^ 56 by norm_num, Nat.testBit_mul_two_pow]
  have hlow (i : Nat) : (w64 n).getLsbD i = (decide (i < 64) && n.testBit i) := BitVec.getLsbD_ofNat ..
  constructor
  · refine Nat.eq_of_testBit_eq fun i => ?_
    rw [testBit_fld_low, BitVec.getLsbD_or, BitVec.getLsbD_and, hmask, hlow]
    by_cases hi : i < 56
    · simp [hi, show ¬ 56 ≤ i by omega, show i < 64 by omega]
    · simp [hi, Nat.testBit_lt_two_pow (hn.trans_le (Nat.pow_le_pow_right (by norm_num) (not_lt.mp hi)))]
  · rw [BitVec.getLsbD_or, BitVec.getLsbD_and, hmask, hlow, Nat.testBit_lt_two_pow hn]
    simp

/-- PHASE of a barrier's word inverted, its PENDING kept. -/
theorem phase_flip (w : Word) :
    fld (w ^^^ w64 (2 ^ 56)) 55 0 = fld w 55 0 ∧ (w ^^^ w64 (2 ^ 56)).getLsbD 56 = !w.getLsbD 56 := by
  have hbit (i : Nat) : (w64 (2 ^ 56)).getLsbD i = (decide (i < 64) && decide (56 = i)) := by
    rw [w64, BitVec.getLsbD_ofNat, Nat.testBit_two_pow]
  constructor
  · refine Nat.eq_of_testBit_eq fun i => ?_
    rw [testBit_fld_low, testBit_fld_low, BitVec.getLsbD_xor, hbit]
    by_cases hi : i < 56
    · simp [hi, show ¬ 56 = i by omega]
    · simp [hi]
  · rw [BitVec.getLsbD_xor, hbit]
    simp

end words

section word1

/-- Of a tile's blocks and memory only word 1 of the barrier at o may differ. -/
structure Tile.OnlyWord1 (t u : Tile) (o : Nat) : Prop where
  blocks : u.blocks = t.blocks
  others : ∀ a, a < o + 8 ∨ o + 16 ≤ a → u.sram.read a = t.sram.read a

theorem Tile.OnlyWord1.trans {t u v : Tile} {o : Nat} (h : t.OnlyWord1 u o) (k : u.OnlyWord1 v o) : t.OnlyWord1 v o :=
  ⟨k.blocks.trans h.blocks, fun a ha => (k.others a ha).trans (h.others a ha)⟩

theorem onlyWord1_same {t u : Tile} (o : Nat) (h : u.blocks = t.blocks ∧ u.sram = t.sram) : t.OnlyWord1 u o :=
  ⟨h.1, fun _ _ => by rw [h.2]⟩

theorem onlyWord1_setWord1 (t : Tile) (o n : Nat) (w : Bool) : t.OnlyWord1 (t.setWord1 o n w) o :=
  ⟨rfl, fun a ha => read_write64_outside _ _ _ _ (by omega)⟩

theorem onlyWord1_wakeBarrier (t : Tile) (now o : Nat) (delayed : Bool) : t.OnlyWord1 (t.wakeBarrier now delayed o) o := by
  have hk : Tile.Keeps (t.setWord1 o (t.nfeed o) false) (t.wakeBarrier now delayed o) := by
    unfold Tile.wakeBarrier
    refine keeps_foldl _ (fun a i => ?_) _ _
    dsimp only
    split
    · split
      · exact keeps_setCtx _ _ _
      · exact keeps_ready _ _ _
    · exact Tile.Keeps.rfl _
  exact (onlyWord1_setWord1 t o _ _).trans (onlyWord1_same o ⟨hk.blocks, hk.sram⟩)

/-- Word 0 of the barrier stands. -/
theorem Tile.OnlyWord1.word0 {t u : Tile} {o : Nat} (h : t.OnlyWord1 u o) : u.sram.read64 o = t.sram.read64 o := by
  unfold Mem.read64
  rw [readBytes_congr 8 o fun i hi => h.others _ (by omega)]

end word1

section kept

variable (t : Tile) (free now req k : Nat) (c : Cmd)

theorem endCmd_kept : (t.endCmd req c).blocks = t.blocks ∧ (t.endCmd req c).sram = t.sram
    ∧ (t.endCmd req c).cellFree = t.cellFree := by
  unfold Tile.endCmd
  dsimp only
  split
  · exact ⟨rfl, rfl, rfl⟩
  · split <;> exact ⟨rfl, rfl, rfl⟩

theorem feedWait_kept : (t.feedWait free req c).blocks = t.blocks ∧ (t.feedWait free req c).sram = t.sram
    ∧ (t.feedWait free req c).cellFree = t.cellFree := by
  unfold Tile.feedWait
  split <;> exact ⟨rfl, rfl, rfl⟩

theorem feedNext_kept : (t.feedNext free req c).blocks = t.blocks ∧ (t.feedNext free req c).sram = t.sram
    ∧ (t.feedNext free req c).cellFree = t.cellFree := by
  unfold Tile.feedNext
  split
  · exact endCmd_kept ..
  · exact feedWait_kept ..

theorem feedServed_kept : (t.feedServed now req k).blocks = t.blocks ∧ (t.feedServed now req k).sram = t.sram := by
  unfold Tile.feedServed
  split
  · split <;> exact ⟨rfl, rfl⟩
  · exact ⟨rfl, rfl⟩

/-- A refused block of a feed touches nothing but word 1 of the feed's barrier (R64). -/
theorem feedRefused_kept (cause : Nat) : (t.feedRefused now free req k cause c).blocks = t.blocks
    ∧ ∀ a, (∀ o, c.bar = some o → a < o + 8 ∨ o + 16 ≤ a) → (t.feedRefused now free req k cause c).sram.read a = t.sram.read a := by
  have next {u : Tile} (c' : Cmd) (hu : u.blocks = t.blocks ∧ ∀ a, (∀ o, c.bar = some o → a < o + 8 ∨ o + 16 ≤ a) →
      u.sram.read a = t.sram.read a) : (u.feedNext free req c').blocks = t.blocks
        ∧ ∀ a, (∀ o, c.bar = some o → a < o + 8 ∨ o + 16 ≤ a) → (u.feedNext free req c').sram.read a = t.sram.read a := by
    obtain ⟨hb, hs, -⟩ := feedNext_kept u free req c'
    rwa [hb, hs]
  refine next _ ?_
  split
  · next o ho =>
    split
    · obtain ⟨hb, hs⟩ := onlyWord1_setWord1 t o (t.nfeed o - 1) (t.waiter o)
      exact ⟨hb, fun a ha => hs a (ha o ho)⟩
    · exact ⟨rfl, fun _ _ => rfl⟩
  · exact ⟨rfl, fun _ _ => rfl⟩

end kept

section rows

variable {s : State} {dom rank req : Nat} {d : Domain} {t : Tile} {c : Cmd}

theorem commits_of_landed (hm : c.major = 21) (hf : c.f6 = 4) (hat : c.commitAt ≤ s.cycle)
    (hp : c.prog.getD c.nextCommit .todo = .landed) : c.commits s.cycle = true := by
  rw [Cmd.commits, hm, hf, hp, decide_eq_true hat]
  rfl

/-- The row of a feed whose next block's turn has come. -/
theorem execFeedCommit_turn (h : s.at_ dom rank d t) (hc : t.cmds.find req = some c) (hk : c.commits s.cycle = true) :
    exec (.feedCommit dom rank req) s = .next (s.feedCommit dom rank req d t c) := by
  change execFeedCommit dom rank req s = _
  have ht := tile?_of_at h
  have hcmd : ((s.tile? dom rank).bind fun t => t.cmds.find req) = some c := by rw [ht]; exact hc
  rw [execFeedCommit, h.1, hcmd, ht]
  exact if_pos hk

theorem blockRefusal_none {b agent : Nat} {tag : BitVec 6} (h : t.armedFor b agent tag = true) :
    t.blockRefusal b agent tag = none := by
  simp only [Tile.armedFor, Bool.and_eq_true, beq_iff_eq] at h
  obtain ⟨⟨⟨hstate, harmed⟩, howner⟩, hgen⟩ := h
  simp [Tile.blockRefusal, hstate, harmed, howner, hgen]

theorem blockRefusal_some {b agent : Nat} {tag : BitVec 6} (h : t.armedFor b agent tag = false) :
    ∃ cause, t.blockRefusal b agent tag = some cause := by
  unfold Tile.blockRefusal
  dsimp only
  split
  · exact ⟨_, rfl⟩
  · next hgen =>
    split
    · exact ⟨_, rfl⟩
    · split
      · next hx =>
        obtain ⟨hstate, harmed, howner⟩ := hx
        simp [Tile.armedFor, hstate, harmed, howner, not_not.mp hgen] at h
      · exact ⟨_, rfl⟩

/-- A landed block of a feed that is still armed for it is committed in its turn. -/
theorem feedCommit_armed (h : s.at_ dom rank d t) (hc : t.cmds.find req = some c) (hk : c.commits s.cycle = true)
    (ha : t.armedFor (t.destBlock c c.nextCommit) 25 (ptrTag c.a) = true) :
    exec (.feedCommit dom rank req) s
      = .next (s.tick1.setDom dom (d.setTile rank (t.feedStep s.cycle (s.pick dom t) d.launch.det req c))) := by
  rw [execFeedCommit_turn h hc hk, State.feedCommit, blockRefusal_none ha]

theorem feedStep_kept (now free : Nat) (det : Bool) :
    (t.feedStep now free det req c).blocks = (t.commit now det (t.destBlock c c.nextCommit)).blocks
      ∧ (t.feedStep now free det req c).sram = t.sram := by
  unfold Tile.feedStep
  obtain ⟨hb, hs, -⟩ := feedNext_kept ((t.commit now det (t.destBlock c c.nextCommit)).feedServed now req c.nextCommit) free req
    { c.setProg c.nextCommit .done with commitAt := now + 1, uncounted := c.uncounted + b2n c.bar.isSome }
  obtain ⟨hb', hs'⟩ := feedServed_kept (t.commit now det (t.destBlock c c.nextCommit)) now req c.nextCommit
  exact ⟨hb.trans hb', hs.trans (hs'.trans (commit_sram ..))⟩

/-- A landed block of a feed that is no longer armed for it is refused, and left as it is (logs 83 and 97). -/
theorem feedCommit_refused (h : s.at_ dom rank d t) (hc : t.cmds.find req = some c) (hk : c.commits s.cycle = true)
    (ha : t.armedFor (t.destBlock c c.nextCommit) 25 (ptrTag c.a) = false) :
    ∃ v u, exec (.feedCommit dom rank req) s = .next v ∧ v.tile? dom rank = some u ∧ u.blocks = t.blocks
      ∧ ∀ a, (∀ o, c.bar = some o → a < o + 8 ∨ o + 16 ≤ a) → u.sram.read a = t.sram.read a := by
  obtain ⟨cause, hcause⟩ := blockRefusal_some ha
  rw [execFeedCommit_turn h hc hk, State.feedCommit, hcause]
  dsimp only
  obtain ⟨u, hu, -, hsram, hblocks⟩ := keepsTiles_fault _ dom
    (faultRecord 2 cause false (c.attr s.pkgid.toNat dom rank c.nextCommit) 25 0) dom rank _ (tile?_setDom s.tick1 dom rank d
      ((t.feedServed s.cycle req c.nextCommit).feedRefused s.cycle (s.pick dom t) req c.nextCommit cause c))
  obtain ⟨hb, hs⟩ := feedRefused_kept (t.feedServed s.cycle req c.nextCommit) (s.pick dom t) s.cycle req c.nextCommit c cause
  obtain ⟨hb', hs'⟩ := feedServed_kept t s.cycle req c.nextCommit
  exact ⟨_, u, rfl, hu, hblocks.trans (hb.trans hb'), fun a hx => by rw [hsram, hs a hx, hs']⟩

/-- What a count at a barrier leaves (R150). -/
structure Tile.Counted (t u : Tile) (o bytes : Nat) : Prop where
  pending : fld (u.sram.read64 o) 55 0 = fld (t.sram.read64 o) 55 0 - bytes
  phase : (u.sram.read64 o).getLsbD 56
    = if fld (t.sram.read64 o) 55 0 = bytes then !(t.sram.read64 o).getLsbD 56 else (t.sram.read64 o).getLsbD 56
  others : ∀ a, a < o ∨ o + 16 ≤ a → u.sram.read a = t.sram.read a
  blocks : u.blocks = t.blocks

theorem Tile.Counted.word1 {t u v : Tile} {o bytes : Nat} (h : t.Counted u o bytes) (k : u.OnlyWord1 v o) : t.Counted v o bytes :=
  ⟨by rw [k.word0]; exact h.pending, by rw [k.word0]; exact h.phase, fun a ha => (k.others a (by omega)).trans (h.others a ha),
    k.blocks.trans h.blocks⟩

theorem barrierCount_counted (now : Nat) (det last : Bool) {o bytes : Nat} (hle : bytes ≤ fld (t.sram.read64 o) 55 0) :
    t.Counted (t.barrierCount now det o bytes last).1 o bytes ∧ (t.barrierCount now det o bytes last).2 = false := by
  have hlt : fld (t.sram.read64 o) 55 0 - bytes < 2 ^ 56 := (Nat.sub_le _ _).trans_lt (Nat.mod_lt _ (by norm_num))
  obtain ⟨hpend, hphase⟩ := pending_word (t.sram.read64 o) hlt
  obtain ⟨hpend', hphase'⟩ := phase_flip ((t.sram.read64 o &&& w64 (2 ^ 64 - 2 ^ 56)) ||| w64 (fld (t.sram.read64 o) 55 0 - bytes))
  have hzero : fld (t.sram.read64 o) 55 0 - bytes = 0 ↔ fld (t.sram.read64 o) 55 0 = bytes := by omega
  unfold Tile.barrierCount
  refine ⟨?_, decide_eq_false (by omega)⟩
  dsimp only
  have written {w : Word} (h1 : fld w 55 0 = fld (t.sram.read64 o) 55 0 - bytes)
      (h2 : w.getLsbD 56 = if fld (t.sram.read64 o) 55 0 = bytes then !(t.sram.read64 o).getLsbD 56 else (t.sram.read64 o).getLsbD 56) :
      t.Counted { t.readFail [o / 64] with sram := t.sram.write64 o w } o bytes :=
    ⟨by rw [read64_write64]; exact h1, by rw [read64_write64]; exact h2, fun a ha => read_write64_outside _ _ _ _ (by omega), rfl⟩
  have feed {u : Tile} (h : t.Counted u o bytes) :
      t.Counted (if last = true then u.setWord1 o (u.nfeed o - 1) (u.waiter o) else u) o bytes := by
    split
    · exact h.word1 (onlyWord1_setWord1 ..)
    · exact h
  by_cases hflip : fld (t.sram.read64 o) 55 0 - bytes = 0
  · rw [if_pos (decide_eq_true hflip)]
    refine (feed (written ?_ ?_)).word1 (onlyWord1_wakeBarrier ..)
    · rw [if_pos (decide_eq_true hflip), hpend', hpend]
    · rw [if_pos (decide_eq_true hflip), if_pos (hzero.mp hflip), hphase', hphase]
  · rw [if_neg (by simpa using hflip)]
    refine feed (written ?_ ?_)
    · rw [if_neg (by simpa using hflip), hpend]
    · rw [if_neg (by simpa using hflip), if_neg (fun h => hflip (hzero.mpr h)), hphase]

theorem feedCount_counted (now free : Nat) (det : Bool) {o : Nat} (ho : c.bar = some o) (hle : 2048 ≤ fld (t.sram.read64 o) 55 0) :
    t.Counted (t.feedCount now free det req c).1 o 2048 ∧ (t.feedCount now free det req c).1.cellFree = now + 1
      ∧ (t.feedCount now free det req c).2 = false := by
  unfold Tile.feedCount
  rw [ho]
  have hx := barrierCount_counted now det (c.prog.all Prog.final && c.uncounted == 1) hle
  dsimp only
  generalize t.barrierCount now det o 2048 (c.prog.all Prog.final && c.uncounted == 1) = x at hx
  obtain ⟨u, ovr⟩ := x
  obtain ⟨hcount, hovr⟩ := hx
  dsimp only at hcount hovr ⊢
  obtain ⟨hb, hs, hfree⟩ := feedNext_kept { u with cellFree := now + 1 } free req
    { c with bar := some o, uncounted := c.uncounted - 1 }
  exact ⟨hcount.word1 (onlyWord1_same o ⟨hb, hs⟩), hfree, hovr⟩

/-- The row of a feed whose committed blocks are to be counted (R150). -/
theorem feedCommit_count (h : s.at_ dom rank d t) (hc : t.cmds.find req = some c) (hk : c.commits s.cycle = false)
    {o : Nat} (ho : c.bar = some o) (hn : 0 < c.uncounted) (hfree : t.cellFree ≤ s.cycle)
    (hle : 2048 ≤ fld (t.sram.read64 o) 55 0) :
    exec (.feedCommit dom rank req) s
      = .next (s.tick1.setDom dom (d.setTile rank (t.feedCount s.cycle (s.pick dom t) d.launch.det req c).1)) := by
  change execFeedCommit dom rank req s = _
  have ht := tile?_of_at h
  have hcmd : ((s.tile? dom rank).bind fun t => t.cmds.find req) = some c := by rw [ht]; exact hc
  obtain ⟨-, -, hovr⟩ := feedCount_counted (t := t) (req := req) s.cycle (s.pick dom t) d.launch.det ho hle
  rw [execFeedCommit, h.1, hcmd, ht]
  dsimp only
  rw [hk, if_neg Bool.false_ne_true, if_pos ⟨hn, hfree⟩, hovr]
  rfl

end rows

end Sys2Proof.Machine
end

