-- ==== Sys2Proof/Proofs/Routed.lean ====
section
/-! SUPPORT. The end of a tile's routed exchange (R217): a block pasted into memory, the directory sorted, the units moved, the
records written, the slots committed. -/

namespace Sys2Proof.Machine

section paste

theorem find_filter_key {α : Type} (q : Nat → Bool) (m : AMap α) (c : Nat) :
    AMap.find (m.filter fun p => q p.1) c = if q c then AMap.find m c else none := by
  induction m with
  | nil => simp [AMap.find]
  | cons p m ih =>
    obtain ⟨k, v⟩ := p
    by_cases hk : q k = true
    · rw [List.filter_cons_of_pos (p := fun p : Nat × α => q p.1) hk, AMap.find, AMap.find, ih]
      by_cases hc : c = k
      · simp [hc, hk]
      · simp [hc]
    · rw [List.filter_cons_of_neg (p := fun p : Nat × α => q p.1) hk, AMap.find, ih]
      by_cases hc : c = k
      · simp [hc, hk]
      · simp [hc]

theorem read_clear (m : Mem) (a n c : Nat) : (m.clear a n).read c = if a ≤ c ∧ c < a + n then 0 else m.read c := by
  have h := find_filter_key (fun x => !(decide (a ≤ x) && decide (x < a + n))) m c
  simp only [Mem.clear, Mem.read, AMap.getD]
  rw [h]
  by_cases hc : a ≤ c ∧ c < a + n
  · simp [hc]
  · rw [if_neg hc, if_pos (by simp; omega)]

theorem find_none_of_keys {α : Type} {m : AMap α} {c : Nat} (h : ∀ p ∈ m, p.1 ≠ c) : m.find c = none := by
  induction m with
  | nil => rfl
  | cons p m ih =>
    rw [AMap.find, if_neg (h p List.mem_cons_self).symm]
    exact ih fun q hq => h q (List.mem_cons_of_mem _ hq)

theorem read_paste_outside (m sl : Mem) {a n c : Nat} (h : c < a ∨ a + n ≤ c) : (m.paste a n sl).read c = m.read c := by
  unfold Mem.paste
  rw [read_writeCells_outside, read_clear, if_neg (by omega)]
  intro p hp
  obtain ⟨q, hq, rfl⟩ := List.mem_map.mp hp
  have : q.1 < n := by simpa using (List.mem_filter.mp hq).2
  dsimp only
  omega

/-- The listed bytes of a range written n places on are read back there, and where none is listed what stood there is. -/
theorem read_writeCells_moved (a b n : Nat) {j : Nat} (hj : j < n) (k : Mem) : k.Pairwise (fun p q => p.1 < q.1) → ∀ m : Mem,
    (m.writeCells (((k.slice b n).filter fun p => decide (p.1 < n)).map fun p => (p.1 + a, p.2))).read (a + j)
      = AMap.getD k (b + j) (m.read (a + j)) := by
  induction k with
  | nil => exact fun _ _ => rfl
  | cons p k ih =>
    obtain ⟨x, v⟩ := p
    intro hk m
    obtain ⟨hx, hk⟩ := List.pairwise_cons.mp hk
    by_cases hin : b ≤ x ∧ x < b + n
    · have hcells : (Mem.slice ((x, v) :: k) b n) = (x - b, v) :: Mem.slice k b n := by simp [Mem.slice, hin]
      rw [hcells, List.filter_cons, if_pos (by simp; omega), List.map_cons, Mem.writeCells, ih hk, read_write]
      by_cases hxj : x = b + j
      · have hnone : AMap.find k (b + j) = none := find_none_of_keys fun q hq => by have := hx q hq; dsimp only at this; omega
        rw [if_pos (by omega)]
        simp [AMap.getD, AMap.find, hxj, hnone]
      · rw [if_neg (by omega)]
        simp [AMap.getD, AMap.find, Ne.symm hxj]
    · have hcells : (Mem.slice ((x, v) :: k) b n) = Mem.slice k b n := by
        simp only [Mem.slice, List.filter_cons]
        rw [if_neg (by simpa using hin)]
      rw [hcells, ih hk]
      simp [AMap.getD, AMap.find, show b + j ≠ x by omega]

/-- A range of memory pasted elsewhere is read there. -/
theorem read_paste_slice {k : Mem} (hk : k.wf = true) (m : Mem) (a b n : Nat) {j : Nat} (hj : j < n) :
    (m.paste a n (k.slice b n)).read (a + j) = k.read (b + j) := by
  unfold Mem.paste
  rw [read_writeCells_moved a b n hj k (wfFrom_lt hk).1, read_clear, if_pos (by omega)]
  rfl

end paste

section sort

/-- The place of a record in the sorted directory: (SRANK, SSEQ) (R217). -/
def recordKey (w : Word) : Nat := fld w 11 0 * 4096 + fld w 27 16

theorem insRecord_cons (w v : Word) (l : List Word) :
    insRecord w (v :: l) = if recordKey w < recordKey v then w :: v :: l else v :: insRecord w l := rfl

theorem insRecord_perm (w : Word) (l : List Word) : (insRecord w l).Perm (w :: l) := by
  induction l with
  | nil => exact .rfl
  | cons v l ih =>
    rw [insRecord_cons]
    split
    · exact .rfl
    · exact (ih.cons v).trans (.swap w v l)

theorem insRecord_sorted (w : Word) {l : List Word} (h : l.Pairwise fun v w => recordKey v ≤ recordKey w) :
    (insRecord w l).Pairwise fun v w => recordKey v ≤ recordKey w := by
  induction l with
  | nil => exact List.pairwise_singleton ..
  | cons v l ih =>
    obtain ⟨hv, hl⟩ := List.pairwise_cons.mp h
    rw [insRecord_cons]
    split
    · next hlt =>
      exact List.pairwise_cons.mpr ⟨fun x hx => by
        obtain rfl | hx := List.mem_cons.mp hx
        · exact hlt.le
        · exact hlt.le.trans (hv x hx), h⟩
    · next hge =>
      refine List.pairwise_cons.mpr ⟨fun x hx => ?_, ih hl⟩
      obtain rfl | hx := List.mem_cons.mp ((insRecord_perm w l).mem_iff.mp hx)
      · exact not_lt.mp hge
      · exact hv x hx

theorem foldl_insRecord_perm (l : List Word) : ∀ acc, (l.foldl (fun l w => insRecord w l) acc).Perm (acc ++ l) := by
  induction l with
  | nil => exact fun acc => by simp
  | cons w l ih =>
    intro acc
    exact (ih _).trans (((insRecord_perm w acc).append_right l).trans List.perm_middle.symm)

theorem foldl_insRecord_sorted (l : List Word) : ∀ acc, acc.Pairwise (fun v w => recordKey v ≤ recordKey w) →
    (l.foldl (fun l w => insRecord w l) acc).Pairwise fun v w => recordKey v ≤ recordKey w := by
  induction l with
  | nil => exact fun _ h => h
  | cons w l ih => exact fun acc h => ih _ (insRecord_sorted w h)

theorem sortedDir_perm (t : Tile) (box : Inbox) : (t.sortedDir box).Perm (t.dirRecords box) := foldl_insRecord_perm _ []

theorem sortedDir_sorted (t : Tile) (box : Inbox) : (t.sortedDir box).Pairwise fun v w => recordKey v ≤ recordKey w :=
  foldl_insRecord_sorted _ _ .nil

theorem sortedDir_length (t : Tile) (box : Inbox) : (t.sortedDir box).length = box.taken := by
  simp [(sortedDir_perm t box).length_eq, Tile.dirRecords]

end sort

/-- What one step of a run of changes brings about, and no other step undoes, stands at the end. -/
theorem foldl_reaches {α β : Type} {f : α → β → α} {l : List β} {p : β} {I P : α → Prop} (hI : ∀ a b, I a → I (f a b))
    (hp : ∀ a, I a → P (f a p)) (hq : ∀ a, ∀ q ∈ l, q ≠ p → I a → P a → P (f a q)) :
    ∀ a, I a → (P a ∨ p ∈ l) → P (l.foldl f a) := by
  classical
  induction l with
  | nil => exact fun a _ h => h.resolve_right List.not_mem_nil
  | cons q l ih =>
    intro a ha h
    refine ih (fun a r hr => hq a r (List.mem_cons_of_mem _ hr)) (f a q) (hI a q ha) ?_
    by_cases hqp : q = p
    · exact .inl (hqp ▸ hp a ha)
    · refine h.imp (hq a q List.mem_cons_self hqp ha) fun hm => ?_
      exact (List.mem_cons.mp hm).resolve_left (Ne.symm hqp)

/-- The members of a numbered list with one number are one. -/
theorem zipIdx_snd_ne {α : Type} {l : List α} {p q : α × Nat} (hp : p ∈ l.zipIdx) (hq : q ∈ l.zipIdx) (h : q ≠ p) : q.2 ≠ p.2 := by
  intro h2
  rw [List.mem_zipIdx_iff_getElem?] at hp hq
  refine h (Prod.ext ?_ h2)
  rw [h2, hp] at hq
  exact (Option.some.inj hq).symm

end Sys2Proof.Machine
end

