-- ==== Sys2Proof/Proofs/RoutedFinish.lean ====
section
/-! SUPPORT. ROUTED_FINISH (R217): the tile that it leaves. -/

namespace Sys2Proof.Machine

section landing

/-- The poison of the 32 granules from an offset, a bit each. -/
def Tile.poisBits (t : Tile) (o : Nat) : BitVec 32 :=
  (List.range 32).foldl (fun x g => if t.granPois (o + 64 * g) then x ||| BitVec.twoPow 32 g else x) 0

theorem getLsbD_foldl_bits (q : Nat → Bool) {k : Nat} (hk : k < 32) (l : List Nat) : ∀ x : BitVec 32,
    (l.foldl (fun x g => if q g then x ||| BitVec.twoPow 32 g else x) x).getLsbD k = (x.getLsbD k || (decide (k ∈ l) && q k)) := by
  induction l with
  | nil => simp
  | cons g l ih =>
    intro x
    rw [List.foldl_cons, ih]
    by_cases hg : k = g
    · subst hg
      by_cases hq : q k = true <;> simp [hq, hk]
    · by_cases hq : q g = true <;> simp [hq, hg, Ne.symm hg]

theorem poisBits_getLsbD (t : Tile) (o : Nat) {k : Nat} (hk : k < 32) : (t.poisBits o).getLsbD k = t.granPois (o + 64 * k) := by
  have h := getLsbD_foldl_bits (fun g => t.granPois (o + 64 * g)) hk (List.range 32) 0
  rw [Tile.poisBits, h]
  simp [hk]

theorem granPois_readFail (t : Tile) (l : List Nat) (o : Nat) : (t.readFail l).granPois o = t.granPois o := by
  have hm : o / 64 ∈ (t.readFail l).pois ↔ o / 64 ∈ t.pois ∨ (o / 64 ∈ l ∧ o / 64 ∈ t.failing) := by
    refine (mem_foldl_insNat_map id _ _).trans ?_
    simp
  have hf : (t.readFail l).failing = t.failing := rfl
  rw [Bool.eq_iff_iff]
  simp only [Tile.granPois, Bool.or_eq_true, List.contains_eq_mem, decide_eq_true_eq, hm, hf]
  tauto

theorem mem_blockGrans (t : Tile) (b g : Nat) : g ∈ t.blockGrans b ↔ ∃ k < 32, t.blockAt b / 64 + k = g := by
  simp [Tile.blockGrans]

/-- Which granules are poisoned once a block has landed. -/
theorem mem_landBlock_pois (t : Tile) (b g : Nat) (data : Mem) (pois : BitVec 32) :
    g ∈ (t.landBlock b data pois).pois ↔ (g ∈ t.pois ∧ g ∉ t.blockGrans b)
      ∨ ∃ k < 32, pois.getLsbD k = true ∧ t.blockAt b / 64 + k = g := by
  refine (mem_foldl_insNat_map id (((List.range 32).filter fun k => pois.getLsbD k).map (t.blockAt b / 64 + ·))
    (t.pois.filter fun g => !(t.blockGrans b).contains g)).trans ?_
  simp [and_assoc]

/-- Two blocks have no granule in common. -/
theorem blockGrans_disjoint {t : Tile} {b c k : Nat} (h : b ≠ c) (hk : k < 32) : t.blockAt b / 64 + k ∉ t.blockGrans c := by
  rw [mem_blockGrans]
  unfold Tile.blockAt
  rintro ⟨j, hj, he⟩
  omega

/-- Block b of u holds the unit that t has at block c, with its poison. -/
structure Tile.HoldsUnit (t u : Tile) (b c : Nat) : Prop where
  bytes : ∀ k < 2048, u.sram.read (t.blockAt b + k) = t.sram.read (t.blockAt c + k)
  pois : ∀ k < 32, t.blockAt b / 64 + k ∈ u.pois ↔ t.granPois (t.blockAt c + 64 * k) = true

/-- A unit of t landed in a block. -/
theorem holdsUnit_landBlock {t u : Tile} (hw : t.sram.wf = true) (hu : u.carve = t.carve) (b c : Nat) :
    t.HoldsUnit (u.landBlock b (t.sram.slice (t.blockAt c) 2048) (t.poisBits (t.blockAt c))) b c := by
  have hat : u.blockAt b = t.blockAt b := by rw [Tile.blockAt, hu]; rfl
  refine ⟨fun k hk => ?_, fun k hk => ?_⟩
  · rw [← hat]
    exact read_paste_slice hw u.sram _ _ _ hk
  · rw [← hat, mem_landBlock_pois, mem_blockGrans]
    constructor
    · rintro (⟨-, h⟩ | ⟨j, hj, hbit, he⟩)
      · exact absurd ⟨k, hk, rfl⟩ h
      · obtain rfl : j = k := by omega
        rwa [poisBits_getLsbD t _ hj] at hbit
    · exact fun h => .inr ⟨k, hk, (poisBits_getLsbD t _ hk).trans h, rfl⟩

/-- A landing in another block takes nothing from it. -/
theorem Tile.HoldsUnit.landBlock {t u : Tile} {a b c : Nat} (h : t.HoldsUnit u b c) (hu : u.carve = t.carve) (hne : b ≠ a) (data : Mem)
    (pois : BitVec 32) : t.HoldsUnit (u.landBlock a data pois) b c := by
  have hat : u.blockAt a = t.blockAt a := by rw [Tile.blockAt, hu]; rfl
  refine ⟨fun k hk => (read_paste_outside _ _ ?_).trans (h.bytes k hk), fun k hk => ?_⟩
  · rw [hat]
    unfold Tile.blockAt
    omega
  · rw [mem_landBlock_pois, ← h.pois k hk]
    have hb : t.blockAt b = u.blockAt b := by rw [Tile.blockAt, Tile.blockAt, hu]
    have hout : t.blockAt b / 64 + k ∉ u.blockGrans a := hb ▸ blockGrans_disjoint hne hk
    constructor
    · rintro (⟨hp, -⟩ | ⟨j, hj, -, he⟩)
      · exact hp
      · exact absurd ((mem_blockGrans u a _).mpr ⟨j, hj, he⟩) hout
    · exact fun hp => .inl ⟨hp, hout⟩

end landing

section steps

variable (t : Tile) (box : Inbox)

/-- The unit of a numbered record moved to the slot of its number, where that is armed (R217; log 97). -/
def Tile.moveUnit (u : Tile) (p : Word × Nat) : Tile :=
  if t.armedSlot (box.base + p.2) then
    u.landBlock (box.base + p.2) (t.sram.slice (t.blockAt (box.base + fld p.1 56 48)) 2048)
      (t.poisBits (t.blockAt (box.base + fld p.1 56 48)))
  else u

/-- A numbered record written to its place in the directory (R216). -/
def Inbox.putRecord (u : Tile) (p : Word × Nat) : Tile := { u with sram := u.sram.write64 (box.dir + 8 + 8 * p.2) p.1 }

/-- The records that the directory holds at the end (R217). -/
def Inbox.finalRecs (l : List Word) : List Word :=
  if box.order then l.zipIdx.map fun p => unitRecord (fld p.1 11 0) (fld p.1 27 16) (fld p.1 43 32) p.2 else l

/-- The granules that the end of a routed exchange reads. -/
def Tile.routedGrans : List Nat :=
  box.dirGrans ++ if box.order then (List.range box.taken).flatMap fun i => t.blockGrans (box.base + i) else []

/-- The tile whose routed exchange ends, its granules read. -/
def Tile.routedRead : Tile := ({ t with routedDone := true }).readFail (t.routedGrans box)

/-- The tile once the units have been moved and the records written. -/
def Tile.routedMoved : Tile :=
  let u := t.routedRead box
  let l := t.sortedDir box
  (box.finalRecs l).zipIdx.foldl box.putRecord (if box.order then l.zipIdx.foldl (u.moveUnit box) u else u)

theorem routedFinish_none (now : Nat) (det : Bool) (h : t.inbox = none) : t.routedFinish now det = { t with routedDone := true } := by
  unfold Tile.routedFinish
  dsimp only
  rw [h]

theorem routedFinish_some (now : Nat) (det : Bool) {box : Inbox} (h : t.inbox = some box) :
    t.routedFinish now det = ((List.range (if box.order then box.taken else box.next)).filter fun i => t.armedSlot (box.base + i)).foldl
      (fun u i => u.commit now det (box.base + i)) (t.routedMoved box) := by
  unfold Tile.routedFinish
  dsimp only
  split
  · next hn => exact absurd (hn.symm.trans h) nofun
  · next box' hb =>
    obtain rfl : box' = box := Option.some.inj (hb.symm.trans h)
    rfl

/-- A doubleword written beside another leaves it. -/
theorem read64_write64_beside (m : Mem) {a c : Nat} (w : Word) (h : a + 8 ≤ c ∨ c + 8 ≤ a) : (m.write64 a w).read64 c = m.read64 c := by
  unfold Mem.read64
  rw [readBytes_congr 8 c fun i hi => read_write64_outside m a (c + i) w (by omega)]

theorem mem_zipIdx_getD {l : List Word} {i : Nat} (hi : i < l.length) : (l.getD i 0, i) ∈ l.zipIdx := by
  rw [List.mem_zipIdx_iff_getElem?]
  simp [hi]

theorem putRecord_sram (u : Tile) (p : Word × Nat) :
    (box.putRecord u p).sram = u.sram.write64 (box.dir + 8 + 8 * p.2) p.1 := rfl

theorem putRecords_kept (l : List (Word × Nat)) (u : Tile) : (l.foldl box.putRecord u).blocks = u.blocks
    ∧ (l.foldl box.putRecord u).pois = u.pois ∧ (l.foldl box.putRecord u).routedDone = u.routedDone :=
  ⟨foldl_keep Tile.blocks box.putRecord (fun _ _ => rfl) l u, foldl_keep Tile.pois box.putRecord (fun _ _ => rfl) l u,
    foldl_keep Tile.routedDone box.putRecord (fun _ _ => rfl) l u⟩

theorem putRecords_read64 (l : List Word) (u : Tile) {i : Nat} (hi : i < l.length) :
    (l.zipIdx.foldl box.putRecord u).sram.read64 (box.dir + 8 + 8 * i) = l.getD i 0 := by
  have hmem := mem_zipIdx_getD hi
  refine foldl_reaches (I := fun _ => True) (P := fun u => u.sram.read64 (box.dir + 8 + 8 * i) = l.getD i 0)
    (fun _ _ _ => trivial) (fun a _ => ?_) (fun a q hq hne _ ha => ?_) u trivial (.inr hmem)
  · rw [putRecord_sram, read64_write64]
  · have hi : q.2 ≠ i := zipIdx_snd_ne hmem hq hne
    rw [putRecord_sram, read64_write64_beside _ _ (by omega), ha]

theorem putRecords_read (l : List Word) (u : Tile) {a : Nat} (ha : box.dir + 8 + 8 * l.length ≤ a) :
    (l.zipIdx.foldl box.putRecord u).sram.read a = u.sram.read a := by
  refine List.foldlRecOn l.zipIdx box.putRecord (motive := fun v => v.sram.read a = u.sram.read a) rfl fun v hv p hp => ?_
  have := List.snd_lt_of_mem_zipIdx hp
  rw [putRecord_sram, read_write64_outside _ _ _ _ (by omega), hv]

theorem moveUnits_kept (l : List (Word × Nat)) (u : Tile) : (l.foldl (t.moveUnit box) u).blocks = u.blocks
    ∧ (l.foldl (t.moveUnit box) u).routedDone = u.routedDone := by
  have hstep (u : Tile) (p : Word × Nat) : (t.moveUnit box u p).blocks = u.blocks ∧ (t.moveUnit box u p).routedDone = u.routedDone := by
    unfold Tile.moveUnit
    split <;> exact ⟨rfl, rfl⟩
  exact ⟨foldl_keep Tile.blocks _ (fun u p => (hstep u p).1) l u, foldl_keep Tile.routedDone _ (fun u p => (hstep u p).2) l u⟩

theorem moveUnit_carve (u : Tile) (p : Word × Nat) : (t.moveUnit box u p).carve = u.carve := by
  unfold Tile.moveUnit
  split <;> rfl

/-- Each armed slot holds the unit of the record of its number. -/
theorem holdsUnit_moveUnits (hw : t.sram.wf = true) (l : List Word) {i : Nat} (hi : i < l.length)
    (ha : t.armedSlot (box.base + i) = true) :
    t.HoldsUnit (l.zipIdx.foldl (t.moveUnit box) t) (box.base + i) (box.base + fld (l.getD i 0) 56 48) := by
  have hmem := mem_zipIdx_getD hi
  refine foldl_reaches (I := fun u => u.carve = t.carve)
    (P := fun u => t.HoldsUnit u (box.base + i) (box.base + fld (l.getD i 0) 56 48))
    (fun u p hu => (moveUnit_carve t box u p).trans hu) (fun u hu => ?_) (fun u q hq hne hu h => ?_) t rfl (.inr hmem)
  · rw [Tile.moveUnit, if_pos ha]
    exact holdsUnit_landBlock hw hu _ _
  · have := zipIdx_snd_ne hmem hq hne
    unfold Tile.moveUnit
    split
    · exact h.landBlock hu (by dsimp only at this; omega) _ _
    · exact h

variable {t box}

theorem routedMoved_kept : (t.routedMoved box).blocks = t.blocks ∧ (t.routedMoved box).routedDone = true := by
  unfold Tile.routedMoved
  have hu (u : Tile) (hb : u.blocks = t.blocks) (hd : u.routedDone = true) (l : List (Word × Nat)) :
      (l.foldl box.putRecord u).blocks = t.blocks ∧ (l.foldl box.putRecord u).routedDone = true := by
    obtain ⟨kb, -, kd⟩ := putRecords_kept box l u
    exact ⟨kb.trans hb, kd.trans hd⟩
  have hm (u : Tile) (hb : u.blocks = t.blocks) (hd : u.routedDone = true) (l : List (Word × Nat)) :
      (l.foldl (u.moveUnit box) u).blocks = t.blocks ∧ (l.foldl (u.moveUnit box) u).routedDone = true := by
    obtain ⟨kb, kd⟩ := moveUnits_kept u box l u
    exact ⟨kb.trans hb, kd.trans hd⟩
  dsimp only
  split
  · obtain ⟨kb, kd⟩ := hm (t.routedRead box) rfl rfl
      (t.sortedDir box).zipIdx
    exact hu _ kb kd _
  · exact hu (t.routedRead box) rfl rfl _

theorem finalRecs_length (l : List Word) : (box.finalRecs l).length = l.length := by
  unfold Inbox.finalRecs
  split <;> simp

theorem finalRecs_getD {l : List Word} {i : Nat} (hi : i < l.length) : (box.finalRecs l).getD i 0 =
    let w := l.getD i 0
    if box.order then unitRecord (fld w 11 0) (fld w 27 16) (fld w 43 32) i else w := by
  unfold Inbox.finalRecs
  dsimp only
  split
  · simp [hi]
  · rfl

/-- The records at the end. -/
theorem routedMoved_read64 {i : Nat} (hi : i < box.taken) : (t.routedMoved box).sram.read64 (box.dir + 8 + 8 * i) =
    let w := (t.sortedDir box).getD i 0
    if box.order then unitRecord (fld w 11 0) (fld w 27 16) (fld w 43 32) i else w := by
  have hlen : i < (t.sortedDir box).length := by rwa [sortedDir_length]
  exact (putRecords_read64 box _ _ (by rwa [finalRecs_length])).trans (finalRecs_getD hlen)

/-- The units at the end. -/
theorem holdsUnit_routedMoved (ho : box.order = true) (hw : t.sram.wf = true) (hdir : box.dir + 8 + 8 * box.taken ≤ t.blockAt box.base)
    {i : Nat} (hi : i < box.taken) (ha : t.armedSlot (box.base + i) = true) :
    t.HoldsUnit (t.routedMoved box) (box.base + i) (box.base + fld ((t.sortedDir box).getD i 0) 56 48) := by
  have hlen : i < (t.sortedDir box).length := by rwa [sortedDir_length]
  obtain ⟨hbytes, hpois⟩ := holdsUnit_moveUnits (t.routedRead box) box hw _ hlen ha
  unfold Tile.routedMoved
  dsimp only
  rw [if_pos ho]
  obtain ⟨-, kp, -⟩ := putRecords_kept box (box.finalRecs (t.sortedDir box)).zipIdx
    ((t.sortedDir box).zipIdx.foldl ((t.routedRead box).moveUnit box) (t.routedRead box))
  refine ⟨fun k hk => ?_, fun k hk => ?_⟩
  · refine (putRecords_read box _ _ ?_).trans (hbytes k hk)
    rw [finalRecs_length, sortedDir_length]
    unfold Tile.blockAt at hdir ⊢
    omega
  · rw [← granPois_readFail t (t.routedGrans box)]
    exact (iff_of_eq (congrArg (_ ∈ ·) kp)).trans (hpois k hk)

end steps

section commits

variable (now base : Nat) (det : Bool)

theorem mapCtxs_routedDone (t : Tile) (f : Nat → Ctx → Ctx) : (t.mapCtxs f).routedDone = t.routedDone :=
  foldl_keep Tile.routedDone _ (fun _ _ => setCtx_routedDone ..) _ _

theorem idleReason_routedDone (t : Tile) (r : Nat) : (t.idleReason det r).routedDone = t.routedDone := by
  unfold Tile.idleReason
  split
  · rfl
  · exact mapCtxs_routedDone ..

theorem wakeLocals_routedDone (t : Tile) (b : Nat) : (t.wakeLocals now det b).routedDone = t.routedDone := by
  have hready (u : Tile) (i : Nat) : (u.ready now i).routedDone = u.routedDone := setCtx_routedDone ..
  unfold Tile.wakeLocals
  refine foldl_keep Tile.routedDone _ (fun u i => ?_) _ _
  dsimp only
  rw [apply_ite Tile.routedDone, apply_ite Tile.routedDone, hready, setCtx_routedDone, ite_self, ite_self]

theorem wake_routedDone (t : Tile) (b : Nat) : (t.wake now det b).routedDone = t.routedDone := by
  rw [Tile.wake, wakePool_routedDone, wakeLocals_routedDone]

theorem commit_routedDone (t : Tile) (b : Nat) : (t.commit now det b).routedDone = t.routedDone := by
  unfold Tile.commit
  dsimp only
  rw [idleReason_routedDone, wake_routedDone]
  split <;> rfl

/-- A run of commits touches neither memory nor poison. -/
theorem commits_kept (l : List Nat) (t : Tile) : (l.foldl (fun u i => u.commit now det (base + i)) t).sram = t.sram
    ∧ (l.foldl (fun u i => u.commit now det (base + i)) t).pois = t.pois
    ∧ (l.foldl (fun u i => u.commit now det (base + i)) t).routedDone = t.routedDone :=
  ⟨foldl_keep Tile.sram _ (fun _ _ => commit_sram ..) l t, foldl_keep Tile.pois _ (fun u _ => (keeps_commit u ..).pois) l t,
    foldl_keep Tile.routedDone _ (fun _ _ => commit_routedDone ..) l t⟩

/-- A run of commits makes FULL the blocks that it names, and leaves the others. -/
theorem commits_block (l : List Nat) (t : Tile) (j : Nat) : (l.foldl (fun u i => u.commit now det (base + i)) t).block (base + j)
    = if j ∈ l then { t.block (base + j) with state := .full, owner := 31, armed := false } else t.block (base + j) := by
  by_cases hj : j ∈ l
  · rw [if_pos hj]
    refine foldl_reaches (f := fun u i => u.commit now det (base + i)) (p := j) (I := fun u => { u.block (base + j) with state := .full, owner := 31, armed := false }
        = { t.block (base + j) with state := .full, owner := 31, armed := false })
      (P := fun u => u.block (base + j) = { t.block (base + j) with state := .full, owner := 31, armed := false })
      (fun u i hu => ?_) (fun u hu => (only_commit ..).named.trans hu) (fun u i _ hne _ hu => ?_) t rfl (.inr hj)
    · by_cases hi : base + j = base + i
      · rw [hi] at hu ⊢
        rw [(only_commit ..).named]
        exact hu
      · rw [(only_commit ..).others _ hi]
        exact hu
    · exact ((only_commit ..).others _ (by omega)).trans hu
  · rw [if_neg hj]
    refine List.foldlRecOn l (fun u i => u.commit now det (base + i)) (motive := fun u : Tile => u.block (base + j) = t.block (base + j)) rfl fun u hu i hi => ?_
    have hne : j ≠ i := fun h => hj (h ▸ hi)
    exact ((only_commit ..).others _ (by omega)).trans hu

end commits

section row

variable {s : State} {dom rank : Nat} {d : Domain} {t : Tile}

/-- The row of a tile whose routed exchange ends. -/
theorem routedFinish_row (h : s.at_ dom rank d t) {x : Nat} (hx : t.routedAt = some x) (hle : x ≤ s.cycle) (hn : t.routedDone = false) :
    exec (.routedFinish dom rank) s = .next (s.setDom dom (d.setTile rank (t.routedFinish s.cycle d.launch.det))) := by
  change execRoutedFinish dom rank s = _
  exact tileEvent_next h (by rw [hx]; exact if_pos ⟨hle, hn⟩)

theorem routedFinish_done (now : Nat) (det : Bool) : (t.routedFinish now det).routedDone = true := by
  match hb : t.inbox with
  | none => rw [routedFinish_none t now det hb]
  | some box =>
    rw [routedFinish_some t now det hb]
    exact (commits_kept now box.base det _ _).2.2.trans routedMoved_kept.2

/-- The slots at the end. -/
theorem routedFinish_block (now : Nat) (det : Bool) {box : Inbox} (hb : t.inbox = some box) {i : Nat}
    (hi : i < if box.order then box.taken else box.next) :
    (t.routedFinish now det).block (box.base + i) = if t.armedSlot (box.base + i) then
      { t.block (box.base + i) with state := .full, owner := 31, armed := false } else t.block (box.base + i) := by
  have hblock : (t.routedMoved box).block (box.base + i) = t.block (box.base + i) := by
    rw [Tile.block, routedMoved_kept.1]
    rfl
  rw [routedFinish_some t now det hb, commits_block, hblock]
  simp [hi]

theorem routedFinish_kept (now : Nat) (det : Bool) {box : Inbox} (hb : t.inbox = some box) :
    (t.routedFinish now det).sram = (t.routedMoved box).sram ∧ (t.routedFinish now det).pois = (t.routedMoved box).pois := by
  rw [routedFinish_some t now det hb]
  obtain ⟨hs, hp, -⟩ := commits_kept now box.base det
    ((List.range (if box.order then box.taken else box.next)).filter fun i => t.armedSlot (box.base + i)) (t.routedMoved box)
  exact ⟨hs, hp⟩

end row

end Sys2Proof.Machine
end

