-- ==== Sys2Proof/Proofs/EngineEvents.lean ====
section
/-! PROOF. What the engines of a tile do in their turn (R20, R150, R186, R211, R217, R239, R244, R301, R304). -/

namespace Sys2Proof.Machine

/-- Settles O40: a lemma for each row of a tile's engines gives the tile that it leaves; the end of a routed exchange is split
into the moves of the units, the writes of the records and the commits of the slots. -/
theorem engineEvents : Obligations.EngineEvents := by
  intro s dom rank d t h goes free
  refine ⟨fun r hr => engineReadEnd_row h hr, fun req c b hc hm hf hat hp hb => ⟨fun ha => ?_, fun ha => ?_⟩,
    fun req c o hc hk ho hn hfree hle => ?_, fun x hs hx => ⟨_, staleRefuse_row h hs hx, rfl⟩,
    fun due req c hs hpool hdue hc hgen hfull => ⟨_, sourceRead_row h hs hpool hdue hc hgen hfull, rfl, rfl, rfl⟩,
    fun i r hi hr => ⟨_, idleWake_row h hi hr, idleWake_tile t s.cycle hi⟩,
    fun i w hi hw hle => ⟨_, voteWait_row h hi hw hle, endVoteWaits_tile t hi hw hle⟩,
    fun x hx hle hn => ⟨_, routedFinish_row h hx hle hn, routedFinish_done .., fun hb => ?_, fun box hb => ⟨fun i hi => ?_, ?_⟩⟩⟩
  case refine_1 =>
    subst hb
    obtain ⟨hblocks, hsram⟩ := feedStep_kept (t := t) (c := c) (req := req) s.cycle (s.pick dom t) d.launch.det
    obtain ⟨hb, hothers, -, -, -⟩ := only_commit t s.cycle (t.destBlock c c.nextCommit) d.launch.det
    refine ⟨_, feedCommit_armed h hc (commits_of_landed hm hf hat hp) ha, ?_, fun m hne => ?_, hsram⟩
    · rw [Tile.block, hblocks]
      exact hb
    · rw [Tile.block, hblocks]
      exact hothers m hne
  case refine_2 =>
    subst hb
    exact feedCommit_refused h hc (commits_of_landed hm hf hat hp) ha
  case refine_3 =>
    obtain ⟨⟨hpending, hphase, hothers, hblocks⟩, hcell, -⟩ := feedCount_counted (t := t) (req := req) s.cycle (s.pick dom t)
      d.launch.det ho hle
    exact ⟨_, feedCommit_count h hc hk ho hn hfree hle, hpending, hphase, hothers, hcell, hblocks⟩
  case refine_4 =>
    rw [routedFinish_none t _ _ hb]
    exact ⟨rfl, rfl⟩
  case refine_5 => exact routedFinish_block _ _ hb hi
  case refine_6 =>
    obtain ⟨hsram, hpois⟩ := routedFinish_kept s.cycle d.launch.det hb
    refine ⟨t.sortedDir box, sortedDir_perm t box, (sortedDir_sorted t box).imp fun hle => ?_, fun i hi => ⟨?_, ?_⟩⟩
    · simpa only [recordKey, Nat.mul_comm 4096] using hle
    · rw [hsram]
      exact routedMoved_read64 hi
    · intro ho hw hdir ha
      obtain ⟨hbytes, hp⟩ := holdsUnit_routedMoved ho hw hdir hi ha
      rw [hsram, hpois]
      exact ⟨hbytes, hp⟩

end Sys2Proof.Machine
end

