-- ==== Sys2Proof/Proofs/ResetLaunch.lean ====
section
/-! SUPPORT and PROOF. The package after a reset, a tile as a launch leaves it, and a thread that starts (R29, R46, R54, R319,
R368, R369). -/

namespace Sys2Proof.Machine

section bringUp

/-- The step from reset is a bring-up that no step of fails. -/
theorem step_reset : step State.reset = .next (State.bootSteps { State.reset with kiln := { State.reset.kiln with booting := false } } 8) := by
  have hpower : State.reset.unpowered = false := by decide
  have htrip : State.reset.trips = false := by decide
  have hinput : State.reset.inputStep = none := by decide
  have hboot : State.reset.kiln.booting = true := by decide
  have hfail : ({ State.reset with kiln := { State.reset.kiln with booting := false } } : State).failingStep = none := by decide
  simp only [step, hpower, htrip, hinput, hboot, Bool.false_eq_true, if_false, if_true]
  rw [execBringUp, hboot]
  simp only [Bool.not_true, Bool.false_eq_true, if_false, hfail]

theorem reset_canonical : State.reset.MemoryCanonical := .intro rfl rfl rfl fun _ h => absurd h List.not_mem_nil

/-- What the whole of a bring-up leaves of HBM, INCARN and READY (R319, R369, R371). -/
theorem bootSteps_all (s : State) : (s.bootSteps 8).kiln.ready = true ∧ (s.bootSteps 8).incarn = s.flashWritten
    ∧ (s.bootSteps 8).hbmMem = [] ∧ (s.bootSteps 8).hbmBlk = [] := ⟨rfl, rfl, rfl, rfl⟩

end bringUp

section image

theorem find_append {α : Type} (m k : AMap α) (c : Nat) : AMap.find (m ++ k) c = (AMap.find m c).or (AMap.find k c) := by
  induction m with
  | nil => rfl
  | cons p m ih =>
    obtain ⟨x, v⟩ := p
    rw [List.cons_append, AMap.find, AMap.find, ih]
    split <;> rfl

/-- The bytes of an image that are listed. -/
theorem find_imageCells (l : List Byte) : ∀ at_ a, AMap.find (imageCells at_ l) a
    = if at_ ≤ a ∧ a < at_ + l.length ∧ l.getD (a - at_) 0 ≠ 0 then some (l.getD (a - at_) 0) else none := by
  induction l with
  | nil => exact fun at_ a => by simp [imageCells]
  | cons b l ih =>
    intro at_ a
    have hcons : imageCells at_ (b :: l) = (if b = 0 then [] else [(at_, b)]) ++ imageCells (at_ + 1) l := by
      unfold imageCells
      rw [List.zipIdx_cons, List.filterMap_cons]
      split <;> simp_all
    have hhead : AMap.find (if b = 0 then [] else [(at_, b)]) a = if a = at_ ∧ b ≠ 0 then some b else none := by
      by_cases hb : b = 0
      · simp [hb]
      · rw [if_neg hb, AMap.find]
        by_cases ha : a = at_
        · rw [if_pos ha, if_pos ⟨ha, hb⟩]
        · rw [if_neg ha, if_neg fun h => ha h.1]
          rfl
    rw [hcons, find_append, hhead, ih]
    by_cases ha : a = at_
    · subst ha
      by_cases hb : b = 0 <;> simp [hb]
    · by_cases hlt : at_ < a
      · have hsub : a - at_ = (a - (at_ + 1)) + 1 := by omega
        rw [if_neg fun h => ha h.1, hsub, List.getD_cons_succ, List.length_cons, Option.none_or]
        refine if_congr ⟨fun ⟨_, _, h⟩ => ⟨hlt.le, by omega, h⟩, fun ⟨_, _, h⟩ => ⟨hlt, by omega, h⟩⟩ rfl rfl
      · rw [if_neg fun h => ha h.1, if_neg (by omega), if_neg (by omega), Option.none_or]

/-- The byte of an image at an address, zero outside it. -/
theorem getD_imageCells (l : List Byte) (at_ a : Nat) :
    (AMap.find (imageCells at_ l) a).getD 0 = if at_ ≤ a ∧ a < at_ + l.length then l.getD (a - at_) 0 else 0 := by
  rw [find_imageCells]
  by_cases hin : at_ ≤ a ∧ a < at_ + l.length
  · by_cases hz : l.getD (a - at_) 0 = 0
    · rw [if_neg (fun h => h.2.2 hz), if_pos hin, hz]
      rfl
    · rw [if_pos ⟨hin.1, hin.2, hz⟩, if_pos hin]
      rfl
  · rw [if_neg hin, if_neg (fun h => hin ⟨h.1, h.2.1⟩)]
    rfl

theorem find_imageCells_outside (l : List Byte) {at_ a : Nat} (h : a < at_ ∨ at_ + l.length ≤ a) :
    AMap.find (imageCells at_ l) a = none := by
  rw [find_imageCells, if_neg (by omega)]

theorem find_map_snd {α β : Type} (f : α → β) (m : AMap α) (c : Nat) :
    AMap.find (m.map fun p => (p.1, f p.2)) c = (AMap.find m c).map f := by
  induction m with
  | nil => rfl
  | cons p m ih =>
    rw [List.map_cons, AMap.find, AMap.find, ih]
    split <;> rfl

end image

section launched

variable {l : Launch} {img : List Byte} {x y rank : Nat}

/-- A byte of CODE as a launch leaves it, and zero up to CELL. -/
theorem launched_below (hlen : img.length = l.codeSize + l.cellSize + l.cellSize / 64) {a : Nat}
    (ha : a < l.carve.cellBase) : (l.tile img x y rank).sram.read a = if a < l.codeSize then img.getD a 0 else 0 := by
  have hcode : l.codeSize ≤ l.carve.cellBase := Nat.le_add_right ..
  have hnone : AMap.find (imageCells l.carve.cellBase ((img.drop l.codeSize).take l.cellSize)) a = none :=
    find_imageCells_outside _ (.inl ha)
  change (AMap.find (imageCells 0 (img.take l.codeSize)
    ++ imageCells l.carve.cellBase ((img.drop l.codeSize).take l.cellSize)) a).getD 0 = _
  rw [find_append, hnone, Option.or_none, getD_imageCells]
  have hl : (img.take l.codeSize).length = l.codeSize := by simp; omega
  rw [hl, Nat.sub_zero, Nat.zero_add]
  by_cases hin : a < l.codeSize
  · rw [if_pos ⟨Nat.zero_le _, hin⟩, if_pos hin]
    simp [hin]
  · rw [if_neg (fun h => hin h.2), if_neg hin]

/-- A byte from CELL on as a launch leaves it. -/
theorem launched_above (hlen : img.length = l.codeSize + l.cellSize + l.cellSize / 64) {a : Nat} (ha : l.carve.cellBase ≤ a) :
    (l.tile img x y rank).sram.read a
      = if a < l.carve.blockBase then img.getD (l.codeSize + (a - l.carve.cellBase)) 0 else 0 := by
  have hcode : l.codeSize ≤ l.carve.cellBase := Nat.le_add_right ..
  have hblock : l.carve.blockBase = l.carve.cellBase + l.cellSize := rfl
  have hnone : AMap.find (imageCells 0 (img.take l.codeSize)) a = none := find_imageCells_outside _ (by simp; omega)
  change (AMap.find (imageCells 0 (img.take l.codeSize)
    ++ imageCells l.carve.cellBase ((img.drop l.codeSize).take l.cellSize)) a).getD 0 = _
  rw [find_append, hnone, Option.none_or, getD_imageCells]
  have hl : ((img.drop l.codeSize).take l.cellSize).length = l.cellSize := by simp; omega
  rw [hl, hblock]
  by_cases hin : a < l.carve.cellBase + l.cellSize
  · rw [if_pos ⟨ha, hin⟩, if_pos hin]
    simp [show a - l.carve.cellBase < l.cellSize by omega]
  · rw [if_neg (fun h => hin h.2), if_neg hin]

/-- A tag of CELL as a launch leaves it. -/
theorem launched_tag (hlen : img.length = l.codeSize + l.cellSize + l.cellSize / 64) {g : Nat} (hg : g < l.cellSize / 64) :
    (l.tile img x y rank).tags.getD (l.carve.cellBase / 64 + g) 0
      = (img.getD (l.codeSize + l.cellSize + g) 0).setWidth 6 := by
  change (AMap.find ((imageCells (l.carve.cellBase / 64) ((img.drop (l.codeSize + l.cellSize)).take (l.cellSize / 64))).map
    fun p => (p.1, p.2.setWidth 6)) (l.carve.cellBase / 64 + g)).getD 0 = _
  have hzero (o : Option Byte) : (o.map fun b => b.setWidth 6).getD 0 = (o.getD 0).setWidth 6 := by cases o <;> rfl
  have hl : ((img.drop (l.codeSize + l.cellSize)).take (l.cellSize / 64)).length = l.cellSize / 64 := by simp; omega
  rw [find_map_snd, hzero, getD_imageCells, hl, if_pos (by omega), Nat.add_sub_cancel_left]
  simp [hg]

theorem ctx_zero (i : Nat) : Tile.zero.ctx i = Ctx.zero := by
  by_cases hi : i < 18
  · simp [Tile.ctx, Tile.zero, Vector.getD, hi]
  · simp [Tile.ctx, Tile.zero, Vector.getD, hi]

theorem launched_ctx (i : Nat) : ((l.tile img x y rank).ctx i).run = .free := by
  have hset : (l.tile img x y rank).ctx i
      = (Tile.zero.setCtx 17 { Ctx.zero with th := l.carve.startThread rank 17 0 [], group := 0xFFFF }).ctx i := rfl
  rw [hset, ctx_setCtx]
  split
  · rfl
  · rw [ctx_zero]
    rfl

end launched

section thread

theorem getLsbD_setBit {w : Nat} (x : BitVec w) {i j : Nat} (b : Bool) (hj : j < w) :
    (setBit x i b).getLsbD j = if i = j then b else x.getLsbD j := by
  unfold setBit
  by_cases hij : i = j
  · subst hij
    cases b <;> simp [hj]
  · cases b <;> simp [hij, Ne.symm hij, hj]

theorem write_g (th : Thread) (n : GReg) (w : Word) (p : Bool) :
    th.write (.g n w p) = if n = 0 then th else { th with g := th.g.set n w, gp := setBit th.gp n.val p } := rfl

theorem rg_write (th : Thread) (n m : GReg) (w : Word) (p : Bool) :
    (th.write (.g n w p)).rg m = if n = m ∧ m ≠ 0 then w else th.rg m := by
  rw [write_g]
  by_cases hm : m = 0
  · simp [Thread.rg, hm]
  · by_cases hn : n = 0
    · rw [if_pos hn, if_neg fun h => hm (h.1.symm.trans hn)]
    · rw [if_neg hn, Thread.rg, if_neg hm, Thread.rg, if_neg hm]
      refine (Vector.getElem_set n.isLt m.isLt).trans (if_congr ?_ rfl rfl)
      rw [Fin.ext_iff, and_iff_left hm]

theorem pg_write (th : Thread) (n m : GReg) (w : Word) (p : Bool) :
    (th.write (.g n w p)).pg m = if n = m ∧ m ≠ 0 then p else th.pg m := by
  rw [write_g]
  by_cases hm : m = 0
  · simp [Thread.pg, hm]
  · by_cases hn : n = 0
    · rw [if_pos hn, if_neg fun h => hm (h.1.symm.trans hn)]
    · rw [if_neg hn, Thread.pg, Thread.pg, bne_iff_ne.mpr hm, getLsbD_setBit _ _ m.isLt]
      simp only [Bool.true_and]
      exact if_congr (by rw [Fin.ext_iff, and_iff_left hm]) rfl rfl

/-- What a write of a general register does not touch. -/
theorem write_g_keep {γ : Type} (f : Thread → γ) (hf : ∀ (th : Thread) g gp, f { th with g, gp } = f th) (th : Thread) (n : GReg)
    (w : Word) (p : Bool) : f (th.write (.g n w p)) = f th := by
  rw [write_g]
  split
  · rfl
  · exact hf ..

variable (c : Carve) (rank me : Nat) (entry : BitVec 20) (args : List (Word × Bool))

/-- The write of an argument (R29). -/
def argWrite (i : Nat) : RegWrite := .g (Fin.ofNat 16 (4 + i)) (args.getD i (0, false)).1 (args.getD i (0, false)).2

/-- A thread whose frame's bounds are written, before its arguments (R29). -/
def Carve.framed : Thread :=
  (Thread.zero.write (.g 13 (w64 (c.frameBase + (me + 1) * c.frameSize)) false)).write (.g 14 (w64 (c.frameBase + me * c.frameSize)) false)

theorem startThread_eq : c.startThread rank me entry args
    = { (c.framed me).writes ((List.range 6).map (argWrite args)) with pc := entry, seed := BitVec.ofNat 32 (rank * 32 + me + 1) } := rfl

theorem writes_range_succ (th : Thread) (k : Nat) : th.writes ((List.range (k + 1)).map (argWrite args))
    = (th.writes ((List.range k).map (argWrite args))).write (argWrite args k) := by
  simp [Thread.writes, List.range_succ]

theorem argReg_iff {n : GReg} {k : Nat} (hk : k + 1 ≤ 12) : (Fin.ofNat 16 (4 + k) = n ∧ n ≠ 0) ↔ n.val = 4 + k := by
  have hv : (Fin.ofNat 16 (4 + k)).val = 4 + k := Nat.mod_eq_of_lt (by omega)
  rw [Fin.ext_iff, hv, ne_eq, Fin.ext_iff, Fin.val_zero]
  omega

/-- The arguments stand in the registers from g4 on. -/
theorem rg_args (th : Thread) (n : GReg) : ∀ k ≤ 12, (th.writes ((List.range k).map (argWrite args))).rg n
    = if 4 ≤ n.val ∧ n.val < 4 + k then (args.getD (n.val - 4) (0, false)).1 else th.rg n := by
  intro k hk
  induction k with
  | zero =>
    rw [if_neg (by omega)]
    rfl
  | succ k ih =>
    rw [writes_range_succ, argWrite, rg_write, ih (by omega)]
    by_cases hn : n.val = 4 + k
    · rw [if_pos ((argReg_iff hk).mpr hn), if_pos (by omega), hn, Nat.add_sub_cancel_left]
    · rw [if_neg (fun h => hn ((argReg_iff hk).mp h))]
      exact if_congr (by omega) rfl rfl

/-- The poison of the arguments stands with them. -/
theorem pg_args (th : Thread) (n : GReg) : ∀ k ≤ 12, (th.writes ((List.range k).map (argWrite args))).pg n
    = if 4 ≤ n.val ∧ n.val < 4 + k then (args.getD (n.val - 4) (0, false)).2 else th.pg n := by
  intro k hk
  induction k with
  | zero =>
    rw [if_neg (by omega)]
    rfl
  | succ k ih =>
    rw [writes_range_succ, argWrite, pg_write, ih (by omega)]
    by_cases hn : n.val = 4 + k
    · rw [if_pos ((argReg_iff hk).mpr hn), if_pos (by omega), hn, Nat.add_sub_cancel_left]
    · rw [if_neg (fun h => hn ((argReg_iff hk).mp h))]
      exact if_congr (by omega) rfl rfl

theorem zero_rg (n : GReg) : Thread.zero.rg n = 0 := by
  unfold Thread.rg
  split
  · rfl
  · exact Vector.getElem_replicate ..

theorem zero_pg (n : GReg) : Thread.zero.pg n = false := by simp [Thread.pg, Thread.zero]

theorem startThread_rg (n : GReg) : (c.startThread rank me entry args).rg n
    = if n.val = 13 then w64 (c.frameBase + (me + 1) * c.frameSize) else if n.val = 14 then w64 (c.frameBase + me * c.frameSize)
      else if 4 ≤ n.val ∧ n.val ≤ 9 then (args.getD (n.val - 4) (0, false)).1 else 0 := by
  have hargs := rg_args args (c.framed me) n 6 (by norm_num)
  refine (show _ = _ from rfl).trans (hargs.trans ?_)
  rw [Carve.framed, rg_write, rg_write, zero_rg]
  by_cases h13 : n = 13
  · subst h13
    rfl
  · by_cases h14 : n = 14
    · subst h14
      rfl
    · have v13 : n.val ≠ 13 := fun h => h13 (Fin.ext h)
      have v14 : n.val ≠ 14 := fun h => h14 (Fin.ext h)
      rw [if_neg (c := 14 = n ∧ n ≠ 0) (fun h => h14 h.1.symm), if_neg (c := 13 = n ∧ n ≠ 0) (fun h => h13 h.1.symm), if_neg v13,
        if_neg v14]
      exact if_congr (by omega) rfl rfl

theorem startThread_pg (n : GReg) : (c.startThread rank me entry args).pg n
    = (decide (4 ≤ n.val ∧ n.val ≤ 9) && (args.getD (n.val - 4) (0, false)).2) := by
  have hargs := pg_args args (c.framed me) n 6 (by norm_num)
  refine (show _ = _ from rfl).trans (hargs.trans ?_)
  rw [Carve.framed, pg_write, pg_write, zero_pg, ite_self, ite_self]
  by_cases hn : 4 ≤ n.val ∧ n.val ≤ 9
  · rw [if_pos (by omega), decide_eq_true hn, Bool.true_and]
  · rw [if_neg (by omega), decide_eq_false hn, Bool.false_and]

theorem startThread_keep {γ : Type} (f : Thread → γ) (hf : ∀ (th : Thread) g gp, f { th with g, gp } = f th)
    (hp : ∀ (th : Thread) pc seed, f { th with pc, seed } = f th) : f (c.startThread rank me entry args) = f Thread.zero := by
  rw [startThread_eq, hp, Carve.framed]
  have hargs (l : List Nat) (th : Thread) : f (th.writes (l.map (argWrite args))) = f th := by
    rw [Thread.writes, List.foldl_map]
    exact foldl_keep f _ (fun th i => write_g_keep f hf th _ _ _) l th
  rw [hargs, write_g_keep f hf, write_g_keep f hf]

variable (t : Tile) (i now from_ : Nat) (group : BitVec 16)

/-- The context in which a thread has started. -/
theorem start_ctx (hi : i < 18) : (t.start rank i now from_ entry args group).ctx i
    = { Ctx.zero with th := t.carve.startThread rank i entry args, run := .ready, group, last := now, notBefore := from_ } :=
  ctx_setCtx_self _ _ hi

theorem start_ctx_ne {j : Nat} (h : j ≠ i) : (t.start rank i now from_ entry args group).ctx j = t.ctx j :=
  ctx_setCtx_ne _ _ h.symm

/-- The poison of the slot's frame is cleared (R126). -/
theorem mem_start_pois (g : Nat) : g ∈ (t.start rank i now from_ entry args group).pois
    ↔ g ∈ t.pois ∧ ¬((t.carve.frameBase + i * t.carve.frameSize) / 64 ≤ g
      ∧ g < (t.carve.frameBase + i * t.carve.frameSize + t.carve.frameSize) / 64) := by
  have hend : t.carve.frameBase + (i + 1) * t.carve.frameSize = t.carve.frameBase + i * t.carve.frameSize + t.carve.frameSize := by
    ring
  refine List.mem_filter.trans ?_
  rw [hend, Bool.not_eq_true', ← Bool.not_eq_true, Bool.and_eq_true, decide_eq_true_eq, decide_eq_true_eq]

end thread

/-- What a launch leaves of the memory of a tile. -/
theorem launched_memory (l : Launch) (img : List Byte) (x y rank : Nat)
    (hlen : img.length = l.codeSize + l.cellSize + l.cellSize / 64) :
    let t := l.tile img x y rank
    (∀ a < l.codeSize, t.sram.read a = img.getD a 0)
      ∧ (∀ a, l.codeSize ≤ a → a < l.carve.cellBase → t.sram.read a = 0)
      ∧ (∀ i < l.cellSize, t.sram.read (l.carve.cellBase + i) = img.getD (l.codeSize + i) 0)
      ∧ ∀ a, l.carve.blockBase ≤ a → t.sram.read a = 0 := by
  have hcode : l.codeSize ≤ l.carve.cellBase := Nat.le_add_right ..
  have hblock : l.carve.blockBase = l.carve.cellBase + l.cellSize := rfl
  refine ⟨fun a ha => ?_, fun a ha hb => ?_, fun i hi => ?_, fun a ha => ?_⟩
  · rw [launched_below hlen (by omega), if_pos ha]
  · rw [launched_below hlen hb, if_neg (by omega)]
  · rw [launched_above hlen (by omega), if_pos (by omega), Nat.add_sub_cancel_left]
  · rw [launched_above hlen (by omega), if_neg (by omega)]

/-- Settles O53: reset and bring-up compute; a launched tile is read off its image, and a thread's registers off the writes that
start it. -/
theorem resetLaunchAndThreadStart : Obligations.ResetLaunchAndThreadStart := by
  refine ⟨⟨rfl, rfl, rfl, rfl, reset_canonical, ⟨_, step_reset, ?_⟩, fun l img x y rank _ hlen => ?_⟩,
    fun t rank i now from_ entry args group hi => ?_⟩
  case refine_1 =>
    obtain ⟨hready, hincarn, hmem, hblk⟩ := bootSteps_all { State.reset with kiln := { State.reset.kiln with booting := false } }
    refine ⟨hready, hincarn, fun a => ?_, fun pa => ?_⟩
    · rw [hmem]
      rfl
    · rw [State.hblk, hblk]
      rfl
  case refine_2 =>
    obtain ⟨hcode, hgap, hcell, hblock⟩ := launched_memory l img x y rank hlen
    refine ⟨hcode, hgap, hcell, hblock, fun g hg => launched_tag hlen hg, fun b => rfl, rfl, launched_ctx, fun n => ?_, rfl, rfl⟩
    exact Vector.getElem_replicate ..
  case refine_3 =>
    have hc := start_ctx rank entry args t i now from_ group hi
    have hth : ((t.start rank i now from_ entry args group).ctx i).th = t.carve.startThread rank i entry args := by rw [hc]
    have keep {γ : Type} (f : Thread → γ) (hf : ∀ (th : Thread) g gp, f { th with g, gp } = f th)
        (hp : ∀ (th : Thread) pc seed, f { th with pc, seed } = f th) : f ((t.start rank i now from_ entry args group).ctx i).th = f Thread.zero := by
      rw [hth]
      exact startThread_keep _ _ _ _ _ f hf hp
    have hend : t.carve.frameBase + (i + 1) * t.carve.frameSize = t.carve.frameBase + i * t.carve.frameSize + t.carve.frameSize := by
      ring
    refine ⟨fun n => ?_, fun n => ?_, fun n => ⟨?_, ?_⟩, fun n => ?_, fun n => ?_, by rw [hth]; rfl, by rw [hth]; rfl,
      keep Thread.retired (fun _ _ _ => rfl) (fun _ _ _ => rfl), keep Thread.flags (fun _ _ _ => rfl) (fun _ _ _ => rfl),
      keep Thread.rmode (fun _ _ _ => rfl) (fun _ _ _ => rfl), by rw [hc], by rw [hc], by rw [hc]; rfl,
      fun j hj => start_ctx_ne _ _ _ _ _ _ _ _ hj, rfl, mem_start_pois _ _ _ _ _ _ _ _⟩
    · rw [hth, startThread_rg, hend]
      rfl
    · rw [hth, startThread_pg]
    · rw [keep (·.rv n) (fun _ _ _ => rfl) (fun _ _ _ => rfl)]
      exact Vector.getElem_replicate ..
    · rw [keep (·.pv n) (fun _ _ _ => rfl) (fun _ _ _ => rfl)]
      exact Vector.getElem_replicate ..
    · rw [keep (·.re n) (fun _ _ _ => rfl) (fun _ _ _ => rfl)]
      exact Vector.getElem_replicate ..
    · rw [keep (·.rk n) (fun _ _ _ => rfl) (fun _ _ _ => rfl), Thread.rk]
      refine if_congr Iff.rfl rfl ?_
      exact Vector.getElem_replicate ..

end Sys2Proof.Machine
end

