-- ==== Sys2Proof/Proofs/ServiceFrame.lean ====
section
/-! SUPPORT. What the services of the package leave of its state: Kiln's accesses to memory change nothing but the memories and
their controllers (R283, R319), and an event of Kiln's nothing but its queue (R348). -/

namespace Sys2Proof.Machine

/-- Of s and u only the memories, the controllers of HBM and the counter of the free values differ. -/
def State.OnlyMemory (s u : State) : Prop :=
  u = { s with
    free := u.free, hbmMem := u.hbmMem, hbmBlk := u.hbmBlk, hbmFailing := u.hbmFailing, ctls := u.ctls, hostMem := u.hostMem
    cxlMem := u.cxlMem }

namespace State.OnlyMemory

variable {s u v : State}

theorem refl (s : State) : s.OnlyMemory s := rfl

theorem trans (h : s.OnlyMemory u) (k : u.OnlyMemory v) : s.OnlyMemory v :=
  Eq.trans k (congrArg (fun x : State => { x with
    free := v.free, hbmMem := v.hbmMem, hbmBlk := v.hbmBlk, hbmFailing := v.hbmFailing, ctls := v.ctls, hostMem := v.hostMem
    cxlMem := v.cxlMem }) h)

theorem foldl {ι : Type} {f : State → ι → State} (h : ∀ (s : State) (x : ι), s.OnlyMemory (f s x)) (l : List ι) :
    ∀ s : State, s.OnlyMemory (l.foldl f s) := by
  induction l with
  | nil => exact refl
  | cons x t ih => exact fun s => (h s x).trans (ih _)

theorem doms (h : s.OnlyMemory u) : u.doms = s.doms := (congrArg State.doms h).trans rfl

theorem kiln (h : s.OnlyMemory u) : u.kiln = s.kiln := (congrArg State.kiln h).trans rfl

theorem cycle (h : s.OnlyMemory u) : u.cycle = s.cycle := (congrArg State.cycle h).trans rfl

theorem residency (h : s.OnlyMemory u) : u.residency = s.residency := (congrArg State.residency h).trans rfl

end State.OnlyMemory

section memory

variable (s : State)

theorem useHbm_onlyMemory (pa : Nat) : s.OnlyMemory (s.useHbm pa) := by
  unfold State.useHbm
  dsimp only
  split <;> exact rfl

theorem decodeGran_onlyMemory (g src : Nat) : s.OnlyMemory (s.decodeGran g src).1 := by
  unfold State.decodeGran
  dsimp only
  split
  · exact rfl
  · split <;> exact rfl

theorem readGrans_onlyMemory (src : Nat) (l : List Nat) : s.OnlyMemory (s.readGrans src l) :=
  .foldl (fun s g => (useHbm_onlyMemory s (g * 64)).trans (decodeGran_onlyMemory _ g src)) l s

theorem kilnWalk_onlyMemory (va : Nat) : s.OnlyMemory (s.kilnWalk va) := readGrans_onlyMemory ..

theorem kilnRead_onlyMemory (va n : Nat) : s.OnlyMemory (s.kilnRead va n) :=
  (State.OnlyMemory.foldl kilnWalk_onlyMemory _ s).trans (readGrans_onlyMemory ..)

theorem homeWrite_onlyMemory (h : Home) (l : List Byte) : s.OnlyMemory (s.homeWrite h l) := by
  cases h <;> exact rfl

theorem vaWrite64_onlyMemory (va : Nat) (w : Word) : s.OnlyMemory (s.vaWrite64 va w) := by
  unfold State.vaWrite64
  split
  · exact (kilnWalk_onlyMemory s va).trans (homeWrite_onlyMemory ..)
  · exact kilnWalk_onlyMemory s va

theorem headerCount_onlyMemory (va bits n : Nat) : s.OnlyMemory (s.headerCount va bits n) := vaWrite64_onlyMemory ..

theorem vaWriteBytes_onlyMemory (l : List Byte) : ∀ (s : State) (va : Nat), s.OnlyMemory (s.vaWriteBytes va l) := by
  induction l with
  | nil => exact fun s _ => .refl s
  | cons b t ih =>
    intro s va
    unfold State.vaWriteBytes
    dsimp only
    refine State.OnlyMemory.trans ?_ (ih _ _)
    split
    · exact (kilnWalk_onlyMemory s va).trans (homeWrite_onlyMemory ..)
    · exact kilnWalk_onlyMemory s va

theorem writeRanks_onlyMemory (d : Domain) (transit : Bool) : s.OnlyMemory (s.writeRanks d transit) :=
  .foldl (fun s _ => vaWriteBytes_onlyMemory _ s _) _ s

end memory

section graph

variable (s : State) (d : Domain)

theorem fetchNode_onlyMemory (n : Nat) : s.OnlyMemory (s.fetchNode d n).1 := by
  unfold State.fetchNode
  split
  · exact .refl s
  · dsimp only
    split
    · exact kilnRead_onlyMemory ..
    · split <;> split <;> exact kilnRead_onlyMemory ..

/-- A node that the cache holds is fetched from it (R306). -/
theorem fetchNode_cached {n : Nat} {g : GNode} (h : d.cache.find n = some g) : s.fetchNode d n = (s, .ok g) := by
  rw [State.fetchNode, h]

/-- The state that a fetch answers differs in nothing but memory. -/
theorem onlyMemory_of_fetch {u : State} {n : Nat} {r : Except Nat GNode} (h : s.fetchNode d n = (u, r)) : s.OnlyMemory u := by
  have hf := fetchNode_onlyMemory s d n
  rwa [h] at hf

theorem reachFrom_onlyMemory (left : Nat) : ∀ (s : State) (n : Nat) (m : Met), s.OnlyMemory (reachFrom s d left n m).1 := by
  induction left with
  | zero => exact fun s _ _ => .refl s
  | succ left ih =>
    intro s n m
    unfold reachFrom
    dsimp only
    split
    · next hf => exact onlyMemory_of_fetch s d hf
    · next u g hf =>
      have hu : s.OnlyMemory u := onlyMemory_of_fetch s d hf
      split
      · exact hu
      · exact hu
      · exact hu
      · split <;> exact hu
      · split
        · exact hu
        · split
          · exact hu
          · split
            · exact hu.trans (ih ..)
            · split <;> exact hu.trans (ih ..)

theorem prefetch_onlyMemory (left : Nat) : ∀ (s : State) (todo : List Nat) (a : Ahead), s.OnlyMemory (prefetch d left todo (s, a)).1 := by
  induction left with
  | zero => exact fun s _ _ => .refl s
  | succ left ih =>
    intro s todo a
    cases todo with
    | nil => exact .refl s
    | cons n todo =>
      unfold prefetch
      split
      · exact .refl s
      · split
        · exact ih ..
        · split
          · next hf => exact (onlyMemory_of_fetch s d hf).trans (ih ..)
          · next hf => exact (onlyMemory_of_fetch s d hf).trans (ih ..)

theorem fetchAhead_onlyMemory (n : Nat) (g : GNode) (inserted : Bool) : s.OnlyMemory (fetchAhead s d n g inserted).1 :=
  prefetch_onlyMemory ..

end graph

section events

/-- An event of Kiln's changes nothing but its queue and the host memory that holds it (R348). -/
theorem post_keep {γ : Type} (f : State → γ) (hf : ∀ (s : State) hostMem kiln, f { s with hostMem, kiln } = f s) (s : State)
    (kind dom seq status detail : Nat) (data : List Word) : f (s.post kind dom seq status detail data) = f s := by
  unfold State.post
  dsimp only
  split
  · exact hf ..
  · split <;> exact hf s s.hostMem _

end events

section messages

/-- Of s and u only the messages, the slices, the walks, the access notes and the counters differ. -/
def State.OnlyMessages (s u : State) : Prop :=
  u = { s with
    msgs := u.msgs, nextMsg := u.nextMsg, nextXid := u.nextXid, slices := u.slices, notes := u.notes, notesOvf := u.notesOvf
    walks := u.walks, free := u.free }

namespace State.OnlyMessages

variable {s u v : State}

theorem refl (s : State) : s.OnlyMessages s := rfl

theorem trans (h : s.OnlyMessages u) (k : u.OnlyMessages v) : s.OnlyMessages v :=
  Eq.trans k (congrArg (fun x : State => { x with
    msgs := v.msgs, nextMsg := v.nextMsg, nextXid := v.nextXid, slices := v.slices, notes := v.notes, notesOvf := v.notesOvf
    walks := v.walks, free := v.free }) h)

theorem foldl {ι : Type} {f : State → ι → State} (h : ∀ (s : State) (x : ι), s.OnlyMessages (f s x)) (l : List ι) :
    ∀ s : State, s.OnlyMessages (l.foldl f s) := by
  induction l with
  | nil => exact refl
  | cons x t ih => exact fun s => (h s x).trans (ih _)

theorem doms (h : s.OnlyMessages u) : u.doms = s.doms := (congrArg State.doms h).trans rfl

theorem cycle (h : s.OnlyMessages u) : u.cycle = s.cycle := (congrArg State.cycle h).trans rfl

theorem residency (h : s.OnlyMessages u) : u.residency = s.residency := (congrArg State.residency h).trans rfl

end State.OnlyMessages

variable (s : State) (m : Msg)

theorem toPackage_onlyMessages (from_ : Nat) : s.OnlyMessages (s.toPackage m from_) := by
  unfold State.toPackage
  dsimp only
  split
  · exact rfl
  · have hx (c : Prop) [Decidable c] (n : Nat) : s.OnlyMessages (if c then { s with nextXid := n } else s) := by
      split <;> exact rfl
    split <;> exact (hx _ _).trans rfl

theorem countPage_onlyMessages (vpn : Nat) : s.OnlyMessages (s.countPage vpn) := by
  unfold State.countPage
  dsimp only
  split
  · split <;> exact rfl
  · exact rfl

theorem toHome_onlyMessages (va : Nat) (x : Xlat) (from_ : Nat) : s.OnlyMessages (s.toHome m va x from_) := by
  unfold State.toHome
  split
  · exact rfl
  · extract_lets u m'
    have hu : s.OnlyMessages u := by
      dsimp only [u]
      split
      · exact countPage_onlyMessages ..
      · exact rfl
    split
    · exact hu.trans rfl
    · exact hu.trans rfl
    · exact hu.trans rfl
    · exact hu.trans (toPackage_onlyMessages ..)

variable {m}

/-- A message other than a put leaves its agent, and no translation of it fails on the way (R287, R288). -/
theorem dispatch_onlyMessages (hm : m.writes = false) (from_ : Nat) : s.OnlyMessages (s.dispatch m from_) := by
  unfold State.dispatch
  split
  · dsimp only
    split
    · exact rfl
    · split
      · rw [hm, Bool.false_and, if_neg Bool.false_ne_true]
        exact toHome_onlyMessages ..
      · split
        · exact rfl
        · split <;> exact rfl
  · split
    · exact rfl
    · exact toPackage_onlyMessages ..

/-- An answer leaves for the issuer. -/
theorem respond_onlyMessages (m : Msg) (status : Nat) : s.OnlyMessages (s.respond m status) := dispatch_onlyMessages s rfl _

end messages

end Sys2Proof.Machine
end

