-- ==== Sys2Proof/Proofs/PhaseWalk.lean ====
section
/-! SUPPORT and PROOF. The walk of a domain to its next phase: what it keeps of the domain, and the superstep that it starts (R49
to R59, R303, R305, R306). -/

namespace Sys2Proof.Machine

/-- What no walk to the next phase changes of a domain. -/
structure Domain.Stays (d e : Domain) : Prop where
  phase : e.phase = d.phase
  x0 : e.x0 = d.x0
  y0 : e.y0 = d.y0
  placedAt : e.placedAt = d.placedAt
  logged : e.logged = d.logged

theorem Domain.Stays.trans {d e f : Domain} (h : d.Stays e) (k : e.Stays f) : d.Stays f :=
  ⟨k.phase.trans h.phase, k.x0.trans h.x0, k.y0.trans h.y0, k.placedAt.trans h.placedAt, k.logged.trans h.logged⟩

/-- The domain numbered dom of s is there in u, where and in the phase in which it was. -/
structure State.KeepsDom (dom : Nat) (s u : State) : Prop where
  stands : ∀ d, s.doms.find dom = some d → ∃ e, u.doms.find dom = some e ∧ d.Stays e

namespace State.KeepsDom

variable {dom : Nat} {s u v : State}

theorem trans (h : KeepsDom dom s u) (k : KeepsDom dom u v) : KeepsDom dom s v := ⟨fun d hd => by
  obtain ⟨e, he, hde⟩ := h.stands d hd
  obtain ⟨f, hf, hef⟩ := k.stands e he
  exact ⟨f, hf, hde.trans hef⟩⟩

theorem of_doms (h : u.doms = s.doms) : KeepsDom dom s u := ⟨fun d hd => ⟨d, by rw [h, hd], rfl, rfl, rfl, rfl, rfl⟩⟩

theorem refl (s : State) : KeepsDom dom s s := of_doms rfl

theorem absent (h : s.doms.find dom = none) : KeepsDom dom s u := ⟨fun _ hd => nomatch h.symm.trans hd⟩

theorem foldl {ι : Type} {f : State → ι → State} (h : ∀ (s : State) (x : ι), KeepsDom dom s (f s x)) (l : List ι) :
    ∀ s : State, KeepsDom dom s (l.foldl f s) := by
  induction l with
  | nil => exact refl
  | cons x t ih => exact fun s => (h s x).trans (ih _)

theorem setDom {d e : Domain} (hd : s.doms.find dom = some d) (h : d.Stays e) : KeepsDom dom s (s.setDom dom e) := ⟨fun d' hd' => by
  obtain rfl : d = d' := Option.some.inj (hd.symm.trans hd')
  exact ⟨e, by simp, h⟩⟩

theorem updDom {f : Domain → Domain} (hf : ∀ d : Domain, d.Stays (f d)) : KeepsDom dom s (s.updDom dom f) := by
  unfold State.updDom
  split
  · next d hd => exact setDom hd (hf d)
  · exact refl s

theorem updTile (rank : Nat) (f : Tile → Tile) : KeepsDom dom s (s.updTile dom rank f) := by
  unfold State.updTile
  split
  · next d hd =>
    split
    · exact setDom hd ⟨rfl, rfl, rfl, rfl, rfl⟩
    · exact refl s
  · exact refl s

end State.KeepsDom

section walk

variable (s : State) (dom : Nat)

/-- What MACHINE-CHECK leaves of the domain that it halts (R264). -/
theorem machineCheck_doms {d : Domain} (hd : s.doms.find dom = some d) (reason n : Nat) (more : List Word) :
    (s.machineCheck dom reason n more).doms = s.doms.set dom { d with status := .halted reason, launchPending := false } := by
  unfold State.machineCheck
  rw [hd]
  dsimp only
  split <;> simp [State.complete]

theorem keepsDom_machineCheck (reason n : Nat) (more : List Word) : State.KeepsDom dom s (s.machineCheck dom reason n more) := by
  refine ⟨fun d hd => ?_⟩
  rw [machineCheck_doms s dom hd]
  exact ⟨_, find_set_self .., rfl, rfl, rfl, rfl, rfl⟩

variable {s dom}

/-- The domain e in which d has started a phase at node n. -/
structure State.Started (s : State) (d e : Domain) (n : Nat) (inserted : Bool) (nodes : List Nat) (entry : Bool) : Prop where
  stays : d.Stays e
  node : e.node = n
  inserted : e.inserted = inserted
  lap : e.lap = 0
  startAt : e.startAt = s.cycle + s.lead d nodes entry + s.spread d entry
  status : e.status = .running ∨ e.status = .halted 5

/-- The phase that starts, and whether it runs (R53, R56, R306). -/
theorem startPhase_started {d : Domain} (hd : s.doms.find dom = some d) (n : Nat) (g : GNode) (inserted : Bool) (nodes : List Nat)
    (entry : Bool) : ∃ e, (s.startPhase dom n g inserted nodes entry).doms.find dom = some e
      ∧ s.Started d e n inserted nodes entry
      ∧ ((fetchAhead { s with free := s.free + 2 + nodes.length } d n g inserted).2.fault = none → e.status = .running) := by
  unfold State.startPhase
  split
  · next h => exact nomatch h.symm.trans hd
  next d' hd' =>
  obtain rfl : d = d' := Option.some.inj (hd.symm.trans hd')
  split
  next u ahead hahead =>
  rw [hahead]
  extract_lets _ _ _ budget d1 d2 d3 v
  have h2 : d.Stays d2 := by
    dsimp only [d2]
    split <;> exact ⟨rfl, rfl, rfl, rfl, rfl⟩
  have h3 : d.Stays d3 := by
    dsimp only [d3]
    split
    · exact h2
    · exact ⟨h2.phase, h2.x0, h2.y0, h2.placedAt, h2.logged⟩
  clear_value d3
  have hv : v.doms.find dom = some _ := find_set_self ..
  split
  · refine ⟨_, (congrArg (AMap.find · dom) (machineCheck_doms _ _ hv ..)).trans (find_set_self ..), ?_, fun hnone => ?_⟩
    · exact ⟨⟨h3.phase, h3.x0, h3.y0, h3.placedAt, h3.logged⟩, rfl, rfl, rfl, rfl, .inr rfl⟩
    · next hk => exact nomatch hk.symm.trans hnone
  · exact ⟨_, hv, ⟨⟨h3.phase, h3.x0, h3.y0, h3.placedAt, h3.logged⟩, rfl, rfl, rfl, rfl, .inl rfl⟩, fun _ => rfl⟩

theorem keepsDom_startPhase (n : Nat) (g : GNode) (inserted : Bool) (nodes : List Nat) (entry : Bool) :
    State.KeepsDom dom s (s.startPhase dom n g inserted nodes entry) := by
  refine ⟨fun d hd => ?_⟩
  obtain ⟨e, he, hs, -⟩ := startPhase_started hd n g inserted nodes entry
  exact ⟨e, he, hs.stays⟩

theorem keepsDom_beginSave (node : Nat) (inserted : Bool) {goOn : State → State} (hg : ∀ u, State.KeepsDom dom u (goOn u)) :
    State.KeepsDom dom s (s.beginSave dom node inserted goOn) := by
  unfold State.beginSave
  split
  · next hd => exact .absent hd
  · next d hd =>
    dsimp only
    split
    · exact ((State.KeepsDom.setDom (e := { d with plan := 3, sliceDue := false }) hd ⟨rfl, rfl, rfl, rfl, rfl⟩).trans
        (.of_doms (post_doms ..))).trans (hg _)
    · have hm := headerCount_onlyMemory s (d.launch.arrlog + 16) 40 (2112 * d.reservable.length)
      refine (State.KeepsDom.of_doms (u := (s.headerCount (d.launch.arrlog + 16) 40 (2112 * d.reservable.length)).tick1) hm.doms).trans
        (.setDom (d := d) ?_ ⟨rfl, rfl, rfl, rfl, rfl⟩)
      rw [tick1_doms, hm.doms, hd]

theorem keepsDom_beginMove (n : Nat) (inserted : Bool) : State.KeepsDom dom s (s.beginMove dom n inserted) := by
  unfold State.beginMove
  split
  · next hd => exact .absent hd
  · next d hd =>
    have hm := writeRanks_onlyMemory s d true
    refine (State.KeepsDom.of_doms (u := { (s.writeRanks d true).tick1 with vacating := _ }) hm.doms).trans
      (.setDom (d := d) (by rw [← hd]; exact congrArg (AMap.find · dom) hm.doms) ⟨rfl, rfl, rfl, rfl, rfl⟩)

theorem keepsDom_endGraph : State.KeepsDom dom s (s.endGraph dom) := by
  unfold State.endGraph
  split
  · next hd => exact .absent hd
  · next d hd =>
    extract_lets e u
    have hu : State.KeepsDom dom s u := .setDom hd ⟨rfl, rfl, rfl, rfl, rfl⟩
    split
    · exact hu.trans (.of_doms (post_doms ..))
    · exact hu

theorem keepsDom_stepFive (node : Nat) (inserted : Bool) {goOn : State → State} (hg : ∀ u, State.KeepsDom dom u (goOn u)) :
    State.KeepsDom dom s (s.stepFive dom node inserted goOn) := by
  unfold State.stepFive
  split
  · next hd => exact .absent hd
  · split
    · exact keepsDom_beginSave _ _ hg
    · split
      · exact keepsDom_beginMove ..
      · exact hg s

/-- Wherever the graph leads, the domain stays where and in the phase in which it is (R49 to R52). -/
theorem keepsDom_proceed (target : Nat) (entry : Bool) : State.KeepsDom dom s (s.proceed dom target entry) := by
  unfold State.proceed
  split
  · next hd => exact .absent hd
  · next d hd =>
    have hreach := reachFrom_onlyMemory d 17 s target ⟨[], d.passes, []⟩
    generalize reachFrom s d 17 target ⟨[], d.passes, []⟩ = x at hreach ⊢
    obtain ⟨u, r, m⟩ := x
    dsimp only at hreach ⊢
    refine ((State.KeepsDom.of_doms hreach.doms).trans ((State.KeepsDom.updDom (f := fun d => { d with passes := m.passes })
      fun _ => ⟨rfl, rfl, rfl, rfl, rfl⟩).trans (.foldl (fun s c => .updTile c.1 fun t => t.readFail [c.2]) m.cells _))).trans ?_
    split
    · exact keepsDom_machineCheck ..
    · next n _ => exact (State.KeepsDom.updDom (f := fun d => { d with status := .atHost n })
        fun _ => ⟨rfl, rfl, rfl, rfl, rfl⟩).trans (.of_doms (post_doms ..))
    · split
      · exact keepsDom_endGraph
      · exact keepsDom_endGraph.trans (keepsDom_stepFive _ _ .refl)
    · split
      · exact keepsDom_startPhase ..
      · exact keepsDom_stepFive _ _ fun _ => keepsDom_startPhase ..

end walk

section boundary

variable {s : State} {dom : Nat} {d : Domain}

/-- The domain as its phase ends: the counter one on, the rest of the exchange gone (R52, R56). -/
def Domain.phaseEnded (d : Domain) (now : Nat) : Domain :=
  { if d.phase.getLsbD 0 then d.mapTiles Tile.endExchange else d with
    phase := d.phase + 1, longest := max d.longest (now - d.phaseStart) }

/-- The node to which the graph leads from a phase that ends (R50). -/
def Domain.nextNode (d : Domain) : Nat :=
  if d.inserted then d.node else match d.cache.find d.node with
    | some g => g.next
    | none => 0

/-- The row of a boundary whose votes are all sampled. -/
theorem boundary_row (hd : s.doms.find dom = some d) (h : d.sampled s.cycle = true) :
    exec (.boundary dom) s = .next ((s.setDom dom (d.phaseEnded s.cycle)).proceed dom d.nextNode false) := by
  change execBoundary dom s = _
  rw [execBoundary, hd]
  exact if_pos h

theorem sampled_iff (now : Nat) : d.sampled now = true ↔ d.status = .running ∧ d.snapshot = false ∧ d.startAt ≤ now
    ∧ ∀ p ∈ d.tiles, p.2.voteSeen = true := by
  simp [Domain.sampled, and_assoc]

/-- What the end of a phase keeps for the walk that follows. -/
theorem phaseEnded_fields (now : Nat) : (d.phaseEnded now).phase = d.phase + 1 ∧ (d.phaseEnded now).cache = d.cache
    ∧ (d.phaseEnded now).plan = d.plan ∧ (d.phaseEnded now).sliceDue = d.sliceDue := by
  unfold Domain.phaseEnded
  cases d.phase.getLsbD 0 <;> exact ⟨rfl, rfl, rfl, rfl⟩

/-- An odd phase is followed by an even one. -/
theorem phase_succ_even (p : BitVec 48) (h : p.getLsbD 0 = true) : (p + 1).getLsbD 0 = false := by
  have hp : p.toNat % 2 = 1 := by simpa [BitVec.getLsbD, Nat.testBit_zero] using h
  have hs : (p + 1).toNat % 2 = 0 := by bv_omega
  simpa [BitVec.getLsbD, Nat.testBit_zero] using hs

/-- From an even phase a compute node that the cache holds is the whole of the way (R50). -/
theorem reachFrom_compute {n left : Nat} {g : GNode} (hg : d.cache.find n = some g) (hk : g.kind = 0)
    (he : d.phase.getLsbD 0 = false) (m : Met) :
    reachFrom s d (left + 1) n m = (s, .start n g false, { m with nodes := m.nodes ++ [n] }) := by
  unfold reachFrom
  dsimp only
  rw [fetchNode_cached s d hg]
  dsimp only
  rw [hk, he]
  rfl

/-- With no move or pre-emption planned the walk starts the node's superstep (R52). -/
theorem proceed_compute (hd : s.doms.find dom = some d) {n : Nat} {g : GNode} (hg : d.cache.find n = some g) (hk : g.kind = 0)
    (he : d.phase.getLsbD 0 = false) (hp : d.plan = 0) (hs : d.sliceDue = false) (entry : Bool) :
    s.proceed dom n entry = (s.setDom dom { d with passes := d.passes }).startPhase dom n g false [n] entry := by
  unfold State.proceed
  rw [hd]
  dsimp only
  rw [reachFrom_compute hg hk he]
  dsimp only
  rw [State.updDom, hd]
  dsimp only
  have hfive (go : State → State) : (s.setDom dom { d with passes := d.passes }).stepFive dom n false go
      = go (s.setDom dom { d with passes := d.passes }) := by
    unfold State.stepFive
    rw [setDom_doms, find_set_self]
    dsimp only
    rw [hp, hs]
    rfl
  split
  · rfl
  · exact hfive _

/-- A start broadcast whose node is in the cache goes out, and is everywhere, within 96 cycles (R305). -/
theorem lead_spread_cached {n : Nat} (h : (d.cache.find n).isSome = true) :
    1 ≤ s.lead d [n] false + s.spread d false ∧ s.lead d [n] false + s.spread d false ≤ 96 := by
  have hmiss : ([n].eraseDups.filter fun n => (d.cache.find n).isNone) = [] := by
    obtain ⟨g, hg⟩ := Option.isSome_iff_exists.mp h
    simp [List.eraseDups, List.eraseDupsBy, List.eraseDupsBy.loop, hg]
  unfold State.lead State.spread
  dsimp only
  rw [hmiss]
  simp only [Bool.false_eq_true, if_false, List.length_singleton, List.length_nil, Nat.sub_self, List.range_zero, List.map_nil,
    List.sum_nil]
  omega

/-- What follows a compute node is fetched ahead from the cache without a fault, where no condition hangs on it (R306). -/
theorem fetchAhead_cached {n : Nat} {g f : GNode} (hk : g.kind = 0) (hf : d.cache.find g.next = some f) (h2 : f.kind ≠ 2)
    (h3 : f.kind ≠ 3) (s : State) : (fetchAhead s d n g false).2.fault = none := by
  unfold fetchAhead
  dsimp only
  rw [hk]
  unfold prefetch
  simp only [Option.isSome_none, List.length_singleton, Bool.false_or, Nat.reduceLeDiff, decide_false, Bool.false_eq_true, if_false]
  split
  · rfl
  · rw [fetchNode_cached s d hf]
    dsimp only
    rw [if_neg (not_or.mpr ⟨h2, h3⟩)]
    rfl

/-- Settles O43: the walk from a boundary keeps the counter that has advanced, and with the nodes in the cache it is the start of
the next node's superstep. -/
theorem boundaryAdvancesThePhase : Obligations.BoundaryAdvancesThePhase := by
  intro s dom d hd hrun hsnap hstart hvotes
  have hrow := boundary_row hd ((sampled_iff _).mpr ⟨hrun, hsnap, hstart, hvotes⟩)
  have hfind : (s.setDom dom (d.phaseEnded s.cycle)).doms.find dom = some (d.phaseEnded s.cycle) := find_set_self ..
  obtain ⟨hphase, hcache, hplan, hslice⟩ := phaseEnded_fields (d := d) s.cycle
  refine ⟨?_, fun g g' hodd hins hg hg' hkind hp hs => ?_⟩
  · obtain ⟨e, he, hstays⟩ := (keepsDom_proceed d.nextNode false).stands _ hfind
    exact ⟨_, e, hrow, he, hstays.phase.trans hphase⟩
  · have hnext : d.nextNode = g.next := by
      rw [Domain.nextNode, hins, hg]
      rfl
    have heven : (d.phaseEnded s.cycle).phase.getLsbD 0 = false := by rw [hphase]; exact phase_succ_even _ hodd
    have hproceed := proceed_compute hfind (hcache ▸ hg') hkind heven (hplan.trans hp) (hslice.trans hs) false
    rw [hnext, hproceed] at hrow
    rw [setDom_setDom] at hrow
    obtain ⟨e, he, hstarted, hfault⟩ := startPhase_started (s := s.setDom dom (d.phaseEnded s.cycle)) hfind g.next g' false [g.next]
      false
    obtain ⟨hlead, hspread⟩ := lead_spread_cached (s := s.setDom dom (d.phaseEnded s.cycle)) (d := d.phaseEnded s.cycle) (n := g.next)
      (by rw [hcache, hg']; rfl)
    have hat : e.startAt = s.cycle + _ + _ := hstarted.startAt
    refine ⟨_, e, hrow, he, hstarted.status, hstarted.node, fun f hf h2 h3 => hfault ?_, hstarted.inserted, by omega, by omega,
      hstarted.lap⟩
    exact fetchAhead_cached hkind (hcache ▸ hf) h2 h3 _

end boundary

end Sys2Proof.Machine
end

