-- ==== Sys2Proof/Proofs/DomainEvents.lean ====
section
/-! SUPPORT and PROOF. The other steps of a domain: placement, save, restore, move and release (R271 to R281, R307, R311 to R314,
R351). -/

namespace Sys2Proof.Machine

section place

variable {s : State} {p : Place} {d : Domain}

/-- A request at the head of the queue that finds a free rectangle is planned on it, and no domain moves for it (R312). -/
theorem placementPlan_free {r : Rect} (hp : headPlace s.kiln.places = some p) (hn : p.planned = false)
    (hr : p.wanted.find? (fun r => r.free (s.taken [])) = some r) :
    exec .placementPlan s = .next (s.setPlace p { p with x0 := r.x, y0 := r.y, planned := true }) := by
  change execPlacementPlan s = _
  have hplan : s.planFor p = some { rect := r, moves := [], saves := [] } := by rw [State.planFor, hr]
  unfold execPlacementPlan
  rw [hp]
  dsimp only
  rw [hn, if_neg (fun h => Bool.false_ne_true h.1), if_neg Bool.false_ne_true, hplan]
  rfl

/-- The package once the request p has left the queue: the domains that had left a plan may be in one again (R313). -/
def State.granted (s : State) (p : Place) : State :=
  { s with
    kiln := { s.kiln with places := s.kiln.places.erase p }
    doms := s.doms.map fun (x : Nat × Domain) => (x.1, if x.2.plan = 3 then { x.2 with plan := 0 } else x.2) }

/-- A saved domain with its new rectangle, as its state begins to be copied back (R279). -/
def Domain.restoringAt (d : Domain) (p : Place) (now doneAt : Nat) : Domain :=
  { d with
    x0 := p.x0, y0 := p.y0, placedAt := now
    tiles := d.tiles.map fun (q : Nat × Tile) =>
      (q.1, { q.2 with x := p.x0 + q.1 % d.launch.width, y := p.y0 + q.1 / d.launch.width })
    status := .restoring doneAt }

theorem placementGrant_restore (hp : headPlace s.kiln.places = some p) (hd : s.doms.find p.dom = some d) (hn : p.planned = true)
    (hf : p.rect.free (s.taken []) = true) (hr : p.restore = true) :
    ∃ (v : State) (doneAt : Nat), exec .placementGrant s = .next v
      ∧ v.doms.find p.dom = some ((d.withSlice (s.granted p)).restoringAt p s.cycle doneAt) := by
  refine ⟨?_, (s.granted p).within (2000 + 69 * d.tiles.length), ?_, ?_⟩
  rotate_left
  · change execPlacementGrant s = _
    unfold execPlacementGrant
    rw [hp]
    dsimp only
    rw [hd]
    dsimp only
    rw [if_pos ⟨hn, hf⟩, if_pos hr]
  · rw [(writeRanks_onlyMemory _ _ _).doms]
    exact find_set_self ..

theorem placementGrant_launch (hp : headPlace s.kiln.places = some p) (hd : s.doms.find p.dom = some d) (hn : p.planned = true)
    (hf : p.rect.free (s.taken []) = true) (hr : p.restore = false) :
    exec .placementGrant s = .next ((s.granted p).grantLaunch p.dom (d.withSlice (s.granted p)) p.x0 p.y0) := by
  change execPlacementGrant s = _
  unfold execPlacementGrant
  rw [hp]
  dsimp only
  rw [hd]
  dsimp only
  rw [if_pos ⟨hn, hf⟩, if_neg (by rw [hr]; exact Bool.false_ne_true)]
  rfl

/-- A launched domain stands at its place in phase 0, wherever its graph leads from ROOT (R46, R50). -/
theorem grantLaunch_placed (s : State) (dom : Nat) (d : Domain) (x0 y0 : Nat) :
    ∃ u, (s.grantLaunch dom d x0 y0).doms.find dom = some u ∧ u.x0 = x0 ∧ u.y0 = y0 ∧ u.placedAt = s.cycle ∧ u.phase = 0 := by
  unfold State.grantLaunch
  extract_lets l v img hand e w
  have hcycle : v.cycle = s.cycle := (writeRanks_onlyMemory (s.setDom dom d) _ false).cycle
  have hw : w.doms = (v.setDom dom e).doms :=
    ((kilnRead_onlyMemory _ _ _).trans (kilnRead_onlyMemory _ _ _)).doms
  have hfind : (w.post evStarted dom d.launchSeq 0 0 []).doms.find dom = some e := by
    rw [post_doms, hw]
    exact find_set_self ..
  obtain ⟨u, hu, hstays⟩ := (keepsDom_proceed l.root false).stands _ hfind
  exact ⟨u, hu, hstays.x0, hstays.y0, hstays.placedAt.trans hcycle, hstays.phase⟩

end place

section resume

variable {s : State} {dom : Nat} {d : Domain}

/-- A domain held at a boundary whose graph had reached END stays there (R49). -/
theorem resumePhase_atEnd (hd : s.doms.find dom = some d) (he : d.atEnd = true) :
    s.resumePhase dom = s.setDom dom { d with status := .ended } := by
  rw [State.resumePhase, hd]
  exact if_pos he

/-- A domain held at a boundary goes on at the node that its cache holds (R279, R280). -/
theorem resumePhase_started (hd : s.doms.find dom = some d) (he : d.atEnd = false) {g : GNode} (hg : d.cache.find d.node = some g) :
    ∃ u, (s.resumePhase dom).doms.find dom = some u ∧ s.Started d u d.node d.inserted [d.node] false := by
  have heq : s.resumePhase dom = s.startPhase dom d.node g d.inserted [d.node] false := by
    rw [State.resumePhase, hd]
    dsimp only
    rw [he, if_neg Bool.false_ne_true, fetchNode_cached s d hg]
  rw [heq]
  obtain ⟨u, hu, hs, -⟩ := startPhase_started hd d.node g d.inserted [d.node] false
  exact ⟨u, hu, hs⟩

/-- The domain as it is read back from its save area, with nothing more to apply (R279). -/
def Domain.restored (d : Domain) : Domain :=
  { d.loadImage with status := .running, logged := [], resv := [], arrWptr := 0, heldNotices := [] }

/-- The package in which the domain d has its state again, and all that was held for it applied (R279). -/
def State.restored (s : State) (dom : Nat) (d : Domain) : State :=
  let s := d.heldNotices.foldl (fun s n => s.notice dom n.1 n.2) (s.setDom dom d.restored)
  let s := d.logged.foldl (State.replay dom) s
  ((s.headerCount (d.launch.arrlog + 8) 40 0).headerCount (d.launch.arrlog + 16) 40 0).post evPreempt dom 0 1 0 []

theorem restore_row (hd : s.doms.find dom = some d) {x : Nat} (hx : d.status = .restoring x) (hle : x ≤ s.time) :
    exec (.restore dom) s = .next ((s.restored dom d).resumePhase dom) := by
  change execRestore dom s = _
  unfold execRestore
  rw [hd]
  dsimp only
  rw [hx]
  exact if_pos hle

/-- Where nothing was held for it the restored domain is what its save area gives. -/
theorem restored_quiet (hn : d.heldNotices = []) (hl : d.logged = []) : (s.restored dom d).doms.find dom = some d.restored := by
  have hm : ((s.setDom dom d.restored).headerCount (d.launch.arrlog + 8) 40 0).OnlyMemory _ :=
    headerCount_onlyMemory _ (d.launch.arrlog + 16) 40 0
  unfold State.restored
  dsimp only
  rw [hn, hl, List.foldl_nil, List.foldl_nil, post_doms, hm.doms, headerCount_doms]
  exact find_set_self ..

end resume

section moved

variable {s : State} {dom : Nat} {d : Domain}

/-- The domain at the place to which it has moved (R280; log 33). -/
def Domain.movedTo (d : Domain) (now : Nat) : Domain :=
  { d with
    status := .running, x0 := d.moveX, y0 := d.moveY, placedAt := now
    tiles := d.tiles.map fun (p : Nat × Tile) =>
      (p.1, { p.2 with x := d.moveX + p.1 % d.launch.width, y := d.moveY + p.1 / d.launch.width }) }

theorem migrationStreamDone_row (hd : s.doms.find dom = some d) {x : Nat} (hx : d.status = .migrating x) (hle : x ≤ s.time)
    (hf : s.feedsMoving dom = false) (hc : d.commitsDue = false) :
    ∃ v : State, exec (.migrationStreamDone dom) s = .next (v.resumePhase dom) ∧ v.doms.find dom = some (d.movedTo s.cycle) := by
  refine ⟨?_, ?_, ?_⟩
  rotate_left
  · change execMigrationStreamDone dom s = _
    unfold execMigrationStreamDone
    rw [hd]
    dsimp only
    rw [hx]
    exact if_pos (And.intro hle (And.intro hf hc))
  · rw [(writeRanks_onlyMemory _ _ _).doms]
    exact find_set_self ..

/-- The move of an entry is over (R281). -/
def State.moveGone (s : State) (dom : Nat) (v : Forward) : Prop :=
  v.dom = dom ∧ ∀ w ∈ s.vacating, w.dom = dom → w.since = v.since →
    w.retireAt ≠ 0 ∧ w.retireAt ≤ s.time ∧ ∀ f ∈ s.flits, ¬(f.dx = w.x ∧ f.dy = w.y ∧ f.agt = false)

theorem retirable_iff (v : Forward) : s.retirable v = true
    ↔ v.retireAt ≠ 0 ∧ v.retireAt ≤ s.time ∧ ∀ f ∈ s.flits, ¬(f.dx = v.x ∧ f.dy = v.y ∧ f.agt = false) := by
  simp [State.retirable, and_assoc]

theorem moveGone_iff (v : Forward) : s.moveGone dom v
    ↔ (v.dom == dom && (s.vacating.filter v.sameMove).all s.retirable) = true := by
  simp only [State.moveGone, Bool.and_eq_true, beq_iff_eq, List.all_eq_true, List.mem_filter, Forward.sameMove, retirable_iff]
  refine and_congr_right fun hv => forall_congr' fun w => ?_
  rw [hv]
  constructor
  · rintro h ⟨hw, hdom, hsince⟩
    exact h hw hdom.symm hsince.symm
  · exact fun h hw hdom hsince => h ⟨hw, hdom.symm, hsince.symm⟩

/-- The entries of a move that is over are retired together (R281). -/
theorem forwardRetire_row (h : ∃ v ∈ s.vacating, s.moveGone dom v) : ∃ t, exec (.forwardRetire dom) s = .next t
    ∧ t.doms = s.doms ∧ ∃ v ∈ s.vacating, s.moveGone dom v
      ∧ t.vacating = s.vacating.filter fun w => !(w.dom == dom && w.since == v.since) := by
  have hsome : (s.vacating.find? fun v => v.dom == dom && (s.vacating.filter v.sameMove).all s.retirable).isSome = true := by
    obtain ⟨v, hv, hg⟩ := h
    exact List.find?_isSome.mpr ⟨v, hv, (moveGone_iff v).mp hg⟩
  obtain ⟨v, hv⟩ := Option.isSome_iff_exists.mp hsome
  have hover := List.find?_some hv
  have hgone : s.moveGone dom v := (moveGone_iff v).mpr hover
  refine ⟨?_, ?_, ?_, v, List.mem_of_find?_eq_some hv, hgone, ?_⟩
  rotate_left
  · change execForwardRetire dom s = _
    rw [execForwardRetire, hv]
  · exact post_doms ..
  · refine (post_keep State.vacating (fun _ _ _ => rfl) ..).trans (List.filter_congr fun w _ => ?_)
    rw [Forward.sameMove, hgone.1, Bool.beq_comm (a := dom), Bool.beq_comm (a := v.since)]

end moved

section rows

variable {s : State} {dom : Nat} {d : Domain}

theorem straggler_row (hd : s.doms.find dom = some d) (hr : d.status = .running) (hl : d.lapStopped = false) (hb : d.budget ≤ d.lap) :
    ∃ t, exec (.straggler dom) s = .next t
      ∧ t.doms.find dom = some { d with lapStopped := true, plan := if d.plan = 0 then 0 else 3 } := by
  refine ⟨?_, ?_, ?_⟩
  rotate_left
  · change execStraggler dom s = _
    unfold execStraggler
    rw [hd]
    exact if_pos (And.intro hr (And.intro hl hb))
  · exact find_set_self ..

theorem timeSliceExpiry_row (hd : s.doms.find dom = some d) {x : Nat} (hx : d.sliceAt = some x) (hle : x + d.sliceLen s.level ≤ s.us)
    (hp : d.status.placed = true) :
    exec (.timeSliceExpiry dom) s = .next (s.setDom dom { d with sliceAt := none, sliceDue := s.class2Waits }) := by
  change execTimeSliceExpiry dom s = _
  unfold execTimeSliceExpiry
  rw [hd]
  dsimp only
  rw [hx]
  exact if_pos ⟨hle, hp⟩

theorem handlerLockClear_row (hd : s.doms.find dom = some d) {i : Nat} (hi : d.lock = some i) (hle : d.lockUntil ≤ s.time) :
    ∃ t, exec (.handlerLockClear dom) s = .next t
      ∧ t.doms.find dom = some { d with handlers := d.handlers.set i d.lockEntry, lock := none } := by
  refine ⟨?_, ?_, ?_⟩
  rotate_left
  · change execHandlerLockClear dom s = _
    unfold execHandlerLockClear
    rw [hd]
    dsimp only
    rw [hi]
    exact if_pos hle
  · rw [State.complete, post_doms, vaWrite64_doms]
    exact find_set_self ..

theorem preemptDone_row (hd : s.doms.find dom = some d) {x : Nat} (hx : d.status = .saving x) (hle : x ≤ s.time)
    (hf : s.feedsMoving dom = false) (hc : d.commitsDue = false) :
    ∃ t, exec (.preemptDone dom) s = .next t ∧ t.doms.find dom = some { d with status := .saved, saveArea := d.saveImage } := by
  refine ⟨?_, ?_, ?_⟩
  rotate_left
  · change execPreemptDone dom s = _
    unfold execPreemptDone
    rw [hd]
    dsimp only
    rw [hx]
    exact if_pos (And.intro hle (And.intro hf hc))
  · rw [post_doms]
    exact find_set_self ..

theorem releaseDrainDone_row (hd : s.doms.find dom = some d) {x seq : Nat} (hx : d.status = .releasing x seq)
    (hf : s.flitsTo dom = false) :
    ∃ t, exec (.releaseDrainDone dom) s = .next t ∧ t.doms.find dom = none
      ∧ t.residency.getD dom 0 = (s.residency.getD dom 0 + 1) % 2 ^ 16 := by
  refine ⟨?_, ?_, ?_⟩
  rotate_left
  · change execReleaseDrainDone dom s = _
    unfold execReleaseDrainDone
    rw [hd]
    dsimp only
    rw [hx]
    exact if_pos hf
  · have hres : (s.complete dom seq 0 0).residency = s.residency := post_keep State.residency (fun _ _ _ => rfl) ..
    exact ⟨by rw [find_erase, if_pos rfl], by rw [getD_set, if_pos rfl, hres]⟩

end rows

/-- Settles O44: a lemma for each of a domain's rows gives the package that it leaves; a launch, a restore and a move then walk to
the next phase, which keeps the domain where it stands. -/
theorem domainEvents : Obligations.DomainEvents := by
  intro s dom d hd goes leaves starts runs
  refine ⟨fun hr hl hb => straggler_row hd hr hl hb, fun x hx hle hp => ⟨_, timeSliceExpiry_row hd hx hle hp, find_set_self ..⟩,
    fun i hi hle => handlerLockClear_row hd hi hle, fun p r hp hn hr => ⟨_, placementPlan_free hp hn hr, rfl, rfl⟩,
    fun p hp hdom hn hf => ?_, fun x hx hle hf hc => preemptDone_row hd hx hle hf hc, fun x g hx hle hn hl he hg => ?_,
    fun x hx hle hn hl he => ?_, fun x hx hle => ⟨_, restore_row hd hx hle, trivial⟩, fun x g hx hle hf hc he hg => ?_,
    fun h => forwardRetire_row h, fun x seq hx hf => releaseDrainDone_row hd hx hf⟩
  case refine_1 =>
    subst hdom
    cases hr : p.restore with
    | false =>
      obtain ⟨u, hu, hx, hy, hat, hphase⟩ := grantLaunch_placed (s.granted p) p.dom (d.withSlice (s.granted p)) p.x0 p.y0
      exact ⟨_, placementGrant_launch hp hd hn hf hr, u, hu, hx, hy, hat, fun _ => hphase, nofun⟩
    | true =>
      obtain ⟨v, doneAt, hrow, hv⟩ := placementGrant_restore hp hd hn hf hr
      exact ⟨v, hrow, _, hv, rfl, rfl, rfl, nofun, fun _ => ⟨rfl, doneAt, rfl⟩⟩
  case refine_2 =>
    obtain ⟨u, hu, hs⟩ := resumePhase_started (restored_quiet (s := s) (dom := dom) hn hl) he hg
    exact ⟨_, restore_row hd hx hle, u, hu, hs.status, hs.node, hs.stays.phase, hs.stays.logged⟩
  case refine_3 =>
    refine ⟨_, restore_row hd hx hle, { d.restored with status := .ended }, ?_, rfl, rfl, rfl⟩
    rw [resumePhase_atEnd (restored_quiet hn hl) he]
    exact find_set_self ..
  case refine_4 =>
    obtain ⟨v, hrow, hv⟩ := migrationStreamDone_row hd hx hle hf hc
    obtain ⟨u, hu, hs⟩ := resumePhase_started hv he hg
    exact ⟨_, hrow, u, hu, hs.status, hs.node, hs.stays.phase, hs.stays.x0, hs.stays.y0, hs.stays.placedAt⟩

end Sys2Proof.Machine
end

