-- ==== Sys2Proof/Proofs/TileArrivals.lean ====
section
/-! SUPPORT and PROOF. What arrives at a tile: puts, reads, replies, combines, routed units and closing counts (R63, R64, R206 to
R217), and the values of the combines (R213). -/

namespace Sys2Proof.Machine

section answers

variable (s : State) (m : Msg)

/-- A tile that has taken a message, once the message is answered. -/
theorem tile?_updTile_respond {dom rank : Nat} {d : Domain} {t : Tile} (h : s.at_ dom rank d t) (f : Tile → Tile) (status : Nat) :
    ((s.updTile dom rank f).respond m status).tile? dom rank = some (f t) := by
  unfold State.tile?
  rw [(respond_onlyMessages ..).doms, updTile_of_at h]
  exact tile?_setDom ..

end answers

section arrived

variable {s : State} {dom rank id : Nat} {d : Domain} {t : Tile} {m : Msg}

/-- A message of which every flit has landed at a running domain's tile has arrived. -/
theorem arrivedMsg_tile (h : s.at_ dom rank d t) (hrun : d.status = .running) (hw : m.waitUntil = none) (hi : m.injected = m.flits)
    (hl : m.fly.length = m.flits) (hf : ∀ p ∈ m.fly, p.1 ≤ s.cycle) (hm : s.msgs.find id = some m) (hdst : m.dst = .tile dom rank)
    {kind : MsgKind} (hk : m.kind = kind) : s.arrivedMsg id kind = some m := by
  have harr : m.arrived s.cycle = true := by simpa [Msg.arrived, hw, hi, hl] using hf
  have hheld : s.heldFor m = false := by
    unfold State.heldFor State.transit
    rw [hdst]
    dsimp only
    rw [h.1]
    dsimp only
    rw [hrun]
    rfl
  rw [State.arrivedMsg, hm]
  exact if_pos ⟨hk, harr, hheld⟩

/-- A running domain's tile acts on what arrives for it. -/
theorem atTile_running (h : s.at_ dom rank d t) (hrun : d.status = .running) (m : Msg) (act : Domain → Tile → State) :
    s.atTile dom rank m act = act d t := by
  have hrefuses : d.status.refuses = false := by rw [hrun]; rfl
  have hlogs : d.status.logs = false := by rw [hrun]; rfl
  unfold State.atTile
  rw [h.1]
  dsimp only
  rw [hrefuses, hlogs, if_neg Bool.false_ne_true, if_neg Bool.false_ne_true, h.2]

/-- The rows of the messages that a tile acts on. -/
theorem arrive_row {kind : MsgKind} (ha : s.arrivedMsg id kind = some m) (act : State → Msg → State) :
    arrive s id kind act = .next (act (s.takeMsg id) m) := by
  rw [arrive, ha]

end arrived

section filled

/-- Of t's blocks and memory only block b differs in u: it is FULL with these bytes. -/
structure Tile.Filled (t u : Tile) (b : Nat) (data : Mem) : Prop where
  block : u.block b = { t.block b with state := .full, owner := 31, armed := false }
  blocks : ∀ c, c ≠ b → u.block c = t.block c
  bytes : ∀ i < 2048, u.sram.read (t.blockAt b + i) = data.read i
  others : ∀ a, (a < t.blockAt b ∨ t.blockAt b + 2048 ≤ a) → u.sram.read a = t.sram.read a

/-- The bytes that a paste brings. -/
theorem read_paste_inside {k : Mem} (hk : k.wf = true) (m : Mem) (a : Nat) {n j : Nat} (hj : j < n) :
    (m.paste a n k).read (a + j) = k.read j := by
  have hslice : m.paste a n k = m.paste a n (k.slice 0 n) := by simp [Mem.paste, Mem.slice, List.filter_filter]
  rw [hslice, read_paste_slice hk m a 0 n hj, Nat.zero_add]

/-- A block that lands and is committed (R63, R206). -/
theorem landed_filled (t : Tile) (b now : Nat) (det : Bool) {data : Mem} (hw : data.wf = true) (pois : BitVec 32) :
    t.Filled ((t.landBlock b data pois).commit now det b) b data := by
  obtain ⟨hnamed, hothers, hsram, -, -⟩ := only_commit (t.landBlock b data pois) now b det
  refine ⟨hnamed, hothers, fun i hi => ?_, fun a ha => ?_⟩
  · rw [hsram]
    exact read_paste_inside hw _ _ hi
  · rw [hsram]
    exact read_paste_outside _ _ ha

theorem Tile.Filled.of_eq {t u v : Tile} {b : Nat} {data : Mem} (h : t.Filled u b data) (hb : v.blocks = u.blocks)
    (hs : v.sram = u.sram) : t.Filled v b data := by
  have hblock (c : Nat) : v.block c = u.block c := by rw [Tile.block, hb]; rfl
  exact ⟨(hblock b).trans h.block, fun c hc => (hblock c).trans (h.blocks c hc), fun i hi => hs ▸ h.bytes i hi,
    fun a ha => hs ▸ h.others a ha⟩

/-- A command's progress is no part of the blocks or of memory. -/
theorem resolve_kept (t : Tile) (req slot : Nat) (p : Prog) :
    (t.resolve req slot p).blocks = t.blocks ∧ (t.resolve req slot p).sram = t.sram ∧ (t.resolve req slot p).pois = t.pois := by
  have hend (c : Cmd) : (t.endCmd req c).blocks = t.blocks ∧ (t.endCmd req c).sram = t.sram ∧ (t.endCmd req c).pois = t.pois := by
    obtain ⟨hb, hs, -⟩ := endCmd_kept t req c
    refine ⟨hb, hs, ?_⟩
    unfold Tile.endCmd
    dsimp only
    split
    · rfl
    · split <;> rfl
  unfold Tile.resolve
  split
  · exact ⟨rfl, rfl, rfl⟩
  · dsimp only
    split
    · exact hend _
    · exact ⟨rfl, rfl, rfl⟩

end filled

section rows

variable {s : State} {dom rank id : Nat} {d : Domain} {t : Tile} {m : Msg}

/-- A put is taken by the block that is armed for its agent under its tag (R64, R206). -/
theorem putTo_land (inDom : Bool) (hb : t.wholeBlock m.addr = true) (hg : (t.block (t.blockOf m.addr)).gen = m.tag)
    (hs : (t.block (t.blockOf m.addr)).state = .deferred) (ha : (t.block (t.blockOf m.addr)).armed = true)
    (ho : (t.block (t.blockOf m.addr)).owner = if inDom then 24 else 27) : t.putTo inDom m = .land := by
  unfold Tile.putTo
  dsimp only
  rw [hb, hg, hs, ha, ho]
  simp

theorem putTile_land (h : s.at_ dom rank d t)
    (hp : t.putTo (decide (m.attr.pkg = s.pkgid.toNat) && decide (m.attr.dom = dom)) m = .land) :
    (s.putTile dom rank d.launch.det t m).tile? dom rank = some (t.landPut s.cycle d.launch.det m) := by
  unfold State.putTile
  rw [hp]
  dsimp only
  exact tile?_updTile_respond s m h _ 0

/-- A read of a FULL block takes it for sixteen cycles (R20, R208). -/
theorem getTile_full (h : s.at_ dom rank d t) (hb : t.wholeBlock m.addr = true) (hg : (t.block (t.blockOf m.addr)).gen = m.tag)
    (hs : (t.block (t.blockOf m.addr)).state = .full) :
    s.getTile dom rank t m = s.setDom dom (d.setTile rank { t with
      reads := t.reads ++ [{ blocks := [t.blockOf m.addr], last := s.cycle + 15, ctx := none, job := .reply m }] }) := by
  unfold State.getTile
  dsimp only
  rw [hb, hg, if_neg (by simp), if_neg (by simp), if_pos hs, updTile_of_at h]

/-- A block delivered where it is still armed for its command (R63, R208). -/
theorem deliver_armed (h : s.at_ dom rank d t) {req slot : Nat} {c : Cmd} (hc : t.cmds.find req = some c) (hf : c.f6 = 2)
    (ha : t.armedFor (t.destBlock c slot) (c.readAgent s.pkgid.toNat dom) (ptrTag c.a) = true) (data : Mem) (pois : BitVec 32) :
    s.deliver dom rank req slot data pois = s.tick1.setDom dom (d.setTile rank
      (((t.landBlock (t.destBlock c slot) data pois).commit s.cycle d.launch.det (t.destBlock c slot)).resolve req slot .done)) := by
  have ht := tile?_of_at h
  have hcmd : ((s.tile? dom rank).bind fun t => t.cmds.find req) = some c := by rw [ht]; exact hc
  unfold State.deliver
  rw [h.1, hcmd, ht]
  dsimp only
  rw [blockRefusal_none ha]
  dsimp only
  rw [if_neg (by rw [hf]; decide)]

/-- A reply at a running domain is delivered (R208). -/
theorem replyAt_running (hd : s.doms.find m.attr.dom = some d) (hrun : d.status = .running) :
    s.replyAt m = s.deliver m.attr.dom m.attr.rank m.req m.slot m.data m.pois := by
  unfold State.replyAt
  rw [hd]
  dsimp only
  rw [hrun]

/-- A combine on a cell that it may reach is performed (R213). -/
theorem combineTile_performed (h : s.at_ dom rank d t) (hr : t.carve.region m.addr = .cell) (h8 : m.addr % 8 = 0)
    (hw : t.hitsWord1 m.addr 8 = false) (hg : t.granTag m.addr = m.tag) (hp : t.granPois m.addr = false) :
    (s.combineTile dom rank d.launch.det t m).tile? dom rank = some (t.combineDo s.cycle d.launch.det m) := by
  have hcause : t.combineCause m = none := by simp [Tile.combineCause, hr, h8, hw, hg, hp]
  rw [State.combineTile, hcause]
  exact tile?_updTile_respond s m h _ 0

theorem combineDo_kept (t : Tile) (now : Nat) (det : Bool) (m : Msg) :
    (t.combineDo now det m).sram
      = t.sram.write64 m.addr (combineValue (wordAt m.args 1).toNat (t.sram.read64 m.addr) (wordAt m.args 0))
    ∧ (t.combineDo now det m).blocks = t.blocks := ⟨rfl, (keeps_idle t det 1).blocks⟩

theorem portTaken_free (ht : s.tile? dom rank = some t) (hm : s.msgs.find id = some m) (hdst : m.dst = .tile dom rank)
    (hfree : t.cellFree ≤ s.cycle) : s.portTaken id = false := by
  unfold State.portTaken
  rw [hm, Option.map_some, hdst]
  dsimp only
  rw [ht]
  exact decide_eq_false (Nat.not_lt.mpr hfree)

end rows

section routed

variable {s : State} {dom rank : Nat} {d : Domain} {t : Tile} {m : Msg}

/-- The check of R217 touches nothing but the time at which the routed part ends. -/
theorem routedCheck_eq (t : Tile) (now nrank : Nat) :
    t.routedCheck now nrank = { t with routedAt := (t.routedCheck now nrank).routedAt } := by
  unfold Tile.routedCheck
  split <;> rfl

/-- The lowest free slot of the inbox (R216; log 97). -/
theorem freeSlotOf_lowest {box : Inbox} {k : Nat} (hn : box.next ≤ k) (hk : k < box.nblk) (ha : t.armedSlot (box.base + k) = true)
    (hlow : ∀ j, box.next ≤ j → j < k → t.armedSlot (box.base + j) = false) : t.freeSlotOf box = some k := by
  rw [Tile.freeSlotOf, List.find?_range_eq_some]
  refine ⟨by simp [hn, ha], List.mem_range.mpr hk, fun j hj => ?_⟩
  by_cases hnj : box.next ≤ j
  · simp [hlow j hnj hj]
  · simp [hnj]

/-- A tile with a unit in slot k of its inbox and its record in the directory (R216). -/
def Tile.takeUnit (t : Tile) (box : Inbox) (k now nrank : Nat) (m : Msg) : Tile :=
  ({ t.landBlock (box.base + k) m.data m.pois with
    sram := ((t.landBlock (box.base + k) m.data m.pois).sram.write64 (box.dir + 8 + 8 * box.taken)
      (unitRecord m.attr.rank (wordAt m.args 0).toNat (wordAt m.args 1).toNat k)).write64 box.dir (w64 (box.taken + 1))
    inbox := some { box with taken := box.taken + 1, next := k + 1 }
    units := t.units + 1 } : Tile).routedCheck now nrank

theorem unitTile_taken (h : s.at_ dom rank d t) {box : Inbox} (hbox : t.inbox = some box) {k : Nat} (hk : t.freeSlotOf box = some k)
    (nrank : Nat) : (s.unitTile dom rank nrank t m).tile? dom rank = some (t.takeUnit box k s.cycle nrank m) := by
  rw [State.unitTile, hbox]
  dsimp only
  rw [hk]
  exact tile?_updTile_respond s m h _ 0

theorem takeUnit_tile (t : Tile) (box : Inbox) (k now nrank : Nat) (m : Msg) :
    let u := t.takeUnit box k now nrank m
    u.inbox = some { box with taken := box.taken + 1, next := k + 1 } ∧ u.units = t.units + 1
      ∧ u.sram.read64 box.dir = w64 (box.taken + 1) ∧ u.blocks = t.blocks
      ∧ u.sram.read64 (box.dir + 8 + 8 * box.taken)
        = unitRecord m.attr.rank (wordAt m.args 0).toNat (wordAt m.args 1).toNat k := by
  intro u
  have hu : u = _ := routedCheck_eq ..
  rw [hu]
  refine ⟨rfl, rfl, read64_write64 .., rfl, ?_⟩
  exact (read64_write64_beside _ _ (by omega)).trans (read64_write64 ..)

theorem closeTile_recorded (h : s.at_ dom rank d t) (nrank : Nat) : ∃ u, (s.closeTile dom rank nrank m).tile? dom rank = some u
    ∧ u.closes = t.closes.set (wordAt m.args 0).toNat (wordAt m.args 1).toNat ∧ u.sram = t.sram ∧ u.blocks = t.blocks := by
  refine ⟨_, tile?_updTile_respond s m h _ 0, ?_⟩
  rw [routedCheck_eq]
  exact ⟨rfl, rfl, rfl⟩

end routed

section values

variable (old v : Word)

theorem combineValue_min : (combineValue 1 old v).toInt = min old.toInt v.toInt := by
  change (if v.toInt < old.toInt then v else old).toInt = _
  split <;> omega

theorem combineValue_max : (combineValue 2 old v).toInt = max old.toInt v.toInt := by
  change (if old.toInt < v.toInt then v else old).toInt = _
  split <;> omega

theorem combineValue_minu : (combineValue 3 old v).toNat = min old.toNat v.toNat := by
  change (if v.toNat < old.toNat then v else old).toNat = _
  split <;> omega

theorem combineValue_maxu : (combineValue 4 old v).toNat = max old.toNat v.toNat := by
  change (if old.toNat < v.toNat then v else old).toNat = _
  split <;> omega

/-- The lesser or greater of two FP64 words is one of them, or the NaN (R98). -/
theorem minMaxF_lt (isMax : Bool) : (minMaxF fmt64 isMax old.toNat v.toNat).1 < 2 ^ 64 := by
  unfold minMaxF
  dsimp only
  split
  · decide
  · split
    · exact v.isLt
    · exact old.isLt

theorem combineValue_float (isMax : Bool) :
    (w64 (minMaxF fmt64 isMax old.toNat v.toNat).1).toNat = (minMaxF fmt64 isMax old.toNat v.toNat).1 :=
  (BitVec.toNat_ofNat ..).trans (Nat.mod_eq_of_lt (minMaxF_lt old v isMax))

end values

/-- Settles O45: a message that has arrived reaches the tile, which is then read off the lemma for what it does there. -/
theorem tileArrivals : Obligations.TileArrivals := by
  intro s dom rank id d t m h hrun hw hi hl hf hm hdst b x goes inDom filled
  have arrived {kind : MsgKind} (hk : m.kind = kind) := arrivedMsg_tile h hrun hw hi hl hf hm hdst hk
  have h' : (s.takeMsg id).at_ dom rank d t := h
  have fills {b : Nat} {u : Tile} (h : t.Filled u b m.data) : filled b u := ⟨h.block, h.blocks, h.bytes, h.others⟩
  refine ⟨fun hk hwf hb hg hs ha ho => ?_, fun hk hb hg hs => ?_, fun c hk hdom hrank hres hwf hc hf6 hg hs ha ho => ?_,
    fun hk hr h8 hw1 hg hp hfree => ?_, fun box k hk hbox hn hlt ha hlow => ?_, fun hk => ?_, fun old v => ?_⟩
  case refine_1 =>
    have hland : t.putTo (decide (m.attr.pkg = s.pkgid.toNat) && decide (m.attr.dom = dom)) m = .land := by
      refine putTo_land _ hb hg hs ha ?_
      obtain ⟨hin, ho⟩ | ⟨hout, ho⟩ := ho
      · simpa [hin.1, hin.2] using ho
      · rw [if_neg (by simpa [inDom] using hout)]
        exact ho
    refine ⟨_, _, ?_, putTile_land h' hland, fills (landed_filled t b _ _ hwf m.pois)⟩
    change execPutArrive id s = _
    rw [execPutArrive, hm]
    dsimp only
    rw [hdst]
    exact (arrive_row (arrived hk) _).trans (congrArg _ (atTile_running h' hrun m _))
  case refine_2 =>
    refine ⟨_, { t with reads := t.reads ++ [{ blocks := [b], last := s.cycle + 15, ctx := none, job := .reply m }] }, ?_,
      tile?_setDom (s.takeMsg id) dom rank d _, rfl, rfl, rfl⟩
    change execGetArrive id s = _
    rw [execGetArrive, arrived hk]
    dsimp only
    rw [hdst]
    dsimp only
    rw [atTile_running h' hrun m, getTile_full h' hb hg hs]
    rfl
  case refine_3 =>
    subst hdom hrank
    have harmed : t.armedFor (t.destBlock c m.slot) (c.readAgent s.pkgid.toNat m.attr.dom) (ptrTag c.a) = true := by
      simp [Tile.armedFor, Tile.destBlock, hg, hs, ha, ho]
    obtain ⟨hblocks, hsram, -⟩ := resolve_kept ((t.landBlock (t.destBlock c m.slot) m.data m.pois).commit s.cycle d.launch.det
      (t.destBlock c m.slot)) m.req m.slot .done
    refine ⟨_, _, ?_, tile?_setDom (s.takeMsg id).tick1 _ _ d _,
      fills ((landed_filled t (t.destBlock c m.slot) s.cycle d.launch.det hwf m.pois).of_eq hblocks hsram)⟩
    change execReply id s = _
    rw [execReply, arrive_row (arrived hk), if_pos (by exact beq_iff_eq.mpr hres), replyAt_running h'.1 hrun,
      deliver_armed h' hc hf6 harmed]
    rfl
  case refine_4 =>
    obtain ⟨hsram, hblocks⟩ := combineDo_kept t s.cycle d.launch.det m
    refine ⟨_, _, ?_, combineTile_performed h' hr h8 hw1 hg hp, ?_, fun a ha => ?_, hblocks⟩
    · change execCombine id s = _
      rw [execCombine, portTaken_free (tile?_of_at h) hm hdst hfree, if_neg Bool.false_ne_true, arrive_row (arrived hk), hdst]
      exact congrArg _ (atTile_running h' hrun m _)
    · exact (congrArg (Mem.read64 · m.addr) hsram).trans (read64_write64 ..)
    · exact (congrArg (Mem.read · a) hsram).trans (read_write64_outside _ _ _ _ ha)
  case refine_5 =>
    refine ⟨_, _, ?_, unitTile_taken h' hbox (freeSlotOf_lowest hn hlt ha hlow) d.nrank, takeUnit_tile ..⟩
    change execRoutedUnit id s = _
    rw [execRoutedUnit, arrive_row (arrived hk), hdst]
    exact congrArg _ (atTile_running h' hrun m _)
  case refine_6 =>
    obtain ⟨u, hu, hkept⟩ := closeTile_recorded (m := m) h' d.nrank
    refine ⟨_, u, ?_, hu, hkept⟩
    change execClosingCount id s = _
    rw [execClosingCount, arrive_row (arrived hk), hdst]
    exact congrArg _ (atTile_running h' hrun m _)
  case refine_7 =>
    exact ⟨rfl, combineValue_min old v, combineValue_max old v, combineValue_minu old v, combineValue_maxu old v, rfl, rfl,
      combineValue_float old v false, combineValue_float old v true⟩

end Sys2Proof.Machine
end

