-- ==== Sys2Proof/Proofs/DomainCommands.lean ====
section
/-! SUPPORT and PROOF. Kiln's commands on domains: launch, re-entry, release, CONTINUE, EXTEND, BREAK, HANDLER, SLICE, MIGRATE and
the completion notices (R42 to R49, R271, R272, R291, R307, R314, R346, R347, R351, R384). -/

namespace Sys2Proof.Machine

section decode

variable {s : State} {w : List Word}

/-- A command whose unused bits are zero has its own effect (R346). -/
theorem checkedCmd_row (hcur : s.kiln.cur = some w) {usesDom : Bool} {masks : List Word} (hok : cmdOk w usesDom masks = true)
    (act : State → List Word → State) : checkedCmd s usesDom masks act = .next (act s.endCommand w) := by
  rw [checkedCmd, decodeCmd, hcur]
  exact congrArg _ (if_pos hok)

/-- A command on a domain of which no HANDLER is pending has its own effect (R345, R347). -/
theorem domainCmd_row (hcur : s.kiln.cur = some w) {d : Domain} (hd : s.doms.find (cmdDom w) = some d) (hl : d.lock = none)
    {masks : List Word} (hok : cmdOk w true masks = true) (act : State → List Word → Domain → State) :
    domainCmd s masks act = .next (act s.endCommand w d) := by
  have hwaits : s.handlerWaits = false := by
    unfold State.handlerWaits
    rw [hcur]
    dsimp only
    rw [hd]
    dsimp only
    rw [hl]
    rfl
  have hd' : s.endCommand.doms.find (cmdDom w) = some d := hd
  rw [domainCmd, hwaits, if_neg Bool.false_ne_true, checkedCmd_row hcur hok, hd']

end decode

section launch

variable (s : State)

theorem checkRead_onlyMemory (r : List Word) : s.OnlyMemory (s.checkRead r) := by
  have hwalks (l : List Nat) (u : State) : u.OnlyMemory (l.foldl State.kilnWalk u) := .foldl kilnWalk_onlyMemory l u
  unfold State.checkRead
  dsimp only
  split
  · exact .refl s
  · split
    · exact hwalks _ s
    · exact ((hwalks _ s).trans (kilnRead_onlyMemory ..)).trans (kilnRead_onlyMemory ..)

theorem resetHeaders_onlyMemory (l : Launch) : s.OnlyMemory (s.resetHeaders l) :=
  (((vaWrite64_onlyMemory ..).trans (headerCount_onlyMemory ..)).trans (headerCount_onlyMemory ..)).trans (headerCount_onlyMemory ..)

/-- An accepted LAUNCH leaves its domain pending and its request at the end of the queue (R311, R344). -/
theorem acceptLaunch_queued (seq n : Nat) (r : List Word) : ∃ u p, (s.acceptLaunch seq n r).doms.find n = some u
    ∧ u.status = .pending ∧ u.launch = Launch.of r ∧ u.launchSeq = seq
    ∧ (s.acceptLaunch seq n r).kiln.places = s.kiln.places ++ [p] ∧ p.dom = n := by
  have hplaces : (s.resetHeaders (Launch.of r)).kiln.places = s.kiln.places := congrArg Kiln.places (resetHeaders_onlyMemory s _).kiln
  refine ⟨_, _, find_set_self .., rfl, rfl, rfl, congrArg (· ++ _) hplaces, rfl⟩

/-- LAUNCH of a record that breaks no rule queues a domain under the lowest free number (R45, R346). -/
theorem launch_queued {s : State} {w : List Word} (hcur : s.kiln.cur = some w) (hok : cmdOk w false [~~~ 0] = true)
    (halign : (wordAt w 1).toNat % 64 = 0) {n : Nat} (hrec : s.endCommand.badRecord (s.endCommand.launchRecord (wordAt w 1).toNat) = none)
    (hn : s.endCommand.freeDomain = some n) :
    ∃ t, exec .launch s = .next t ∧ ∃ u p, t.doms.find n = some u ∧ u.status = .pending
      ∧ u.launch = Launch.of (s.endCommand.launchRecord (wordAt w 1).toNat) ∧ u.launchSeq = cmdSeq w
      ∧ t.kiln.places = s.kiln.places ++ [p] ∧ p.dom = n := by
  have hplaces : (s.endCommand.checkRead (s.endCommand.launchRecord (wordAt w 1).toNat)).kiln.places = s.kiln.places :=
    (congrArg Kiln.places (checkRead_onlyMemory s.endCommand _).kiln).trans rfl
  obtain ⟨u, p, hu, hst, hl, hseq, hq, hp⟩ := acceptLaunch_queued
    (s.endCommand.checkRead (s.endCommand.launchRecord (wordAt w 1).toNat)) (cmdSeq w) n (s.endCommand.launchRecord (wordAt w 1).toNat)
  refine ⟨_, ?_, u, p, hu, hst, hl, hseq, hq.trans (congrArg (· ++ [p]) hplaces), hp⟩
  change execLaunch s = _
  unfold execLaunch
  rw [checkedCmd_row hcur hok]
  dsimp only
  rw [if_neg (not_not.mpr halign), hrec]
  dsimp only
  rw [hn]

end launch

section release

theorem commitHbm_onlyMemory (s : State) (pa : Nat) : s.OnlyMemory (s.commitHbm pa) := by
  have hclear (u : State) (h : Nat × BitVec 6) : u.OnlyMemory (u.clearHbm pa h.2) := rfl
  unfold State.commitHbm
  dsimp only
  refine State.OnlyMemory.trans ?_ (.foldl hclear _ _)
  exact rfl

theorem writeFlits_onlyMemory (s : State) (m : Msg) (idxs : List Nat) : s.OnlyMemory (s.writeFlits m idxs) := by
  unfold State.writeFlits
  refine State.OnlyMemory.foldl (fun u i => ?_) idxs s
  exact rfl

/-- A put that is ended changes no domain and no residency number. -/
theorem endFill_kept (s : State) (f : Fill) : (s.endFill f).doms = s.doms ∧ (s.endFill f).residency = s.residency := by
  have ended (u : State) (hu : s.OnlyMemory u) (g : BitVec 32) :
      let v := ({ u with msgs := u.msgs.erase f.msg, hbmFailing := u.hbmFailing.filter fun p => p.1 / 32 != f.pa / 2048 } : State).setHblk
        f.pa { u.hblk f.pa with pois := (u.hblk f.pa).pois ||| ~~~ g }
      (v.commitHbm f.pa).doms = s.doms ∧ (v.commitHbm f.pa).residency = s.residency := by
    intro v
    have hv := commitHbm_onlyMemory v f.pa
    exact ⟨hv.doms.trans hu.doms, hv.residency.trans hu.residency⟩
  unfold State.endFill
  split
  next u g hg =>
  split at hg
  · next m _ =>
    obtain ⟨rfl, rfl⟩ := Prod.mk.inj hg
    exact ended _ (writeFlits_onlyMemory s m _) _
  · obtain ⟨rfl, rfl⟩ := Prod.mk.inj hg
    exact ended _ (.refl _) _

theorem endFills_kept (s : State) (fills : List Fill) :
    (fills.foldl State.endFill s).doms = s.doms ∧ (fills.foldl State.endFill s).residency = s.residency :=
  ⟨foldl_keep State.doms _ (fun s f => (endFill_kept s f).1) fills s, foldl_keep State.residency _ (fun s f => (endFill_kept s f).2) fills s⟩

theorem answerPool_onlyMessages (s : State) (dom : Nat) (t : Tile) : s.OnlyMessages (s.answerPool dom t) := by
  have hgone (u : State) (m : Msg) : u.OnlyMessages (u.answerGone dom m) := by
    unfold State.answerGone
    split
    · exact .refl u
    · exact respond_onlyMessages u m _
  unfold State.answerPool
  refine State.OnlyMessages.trans (.foldl (fun u p => ?_) _ _) (.foldl (fun u r => ?_) _ _)
  · split
    · exact hgone u _
    · exact .refl u
  · split
    · exact hgone u _
    · exact .refl u

/-- A release that begins: the domain drains, with an empty queue (R272). -/
theorem beginRelease_begun (s : State) (dom seq : Nat) (d : Domain) : (∃ u, (s.beginRelease dom seq d).doms.find dom = some u
      ∧ u.status = .releasing s.cycle seq ∧ u.queue = [])
    ∧ (s.beginRelease dom seq d).residency = s.residency := by
  have hpool : s.OnlyMessages (d.tiles.foldl (fun s p => s.answerPool dom p.2) s) :=
    .foldl (fun u (p : Nat × Tile) => answerPool_onlyMessages u dom p.2) _ s
  unfold State.beginRelease
  dsimp only
  refine ⟨⟨_, (congrArg (AMap.find · dom) (endFills_kept ..).1).trans (find_set_self ..), ?_, rfl⟩, (endFills_kept ..).2.trans hpool.residency⟩
  exact congrArg (DomStatus.releasing · seq) hpool.cycle

/-- RELEASE of a running domain begins to drain it. -/
theorem release_running {s : State} {w : List Word} {d : Domain} (hcur : s.kiln.cur = some w)
    (hd : s.doms.find (cmdDom w) = some d) (hl : d.lock = none) (hok : cmdOk w true [] = true) (hrun : d.status = .running) :
    exec .release s = .next (s.endCommand.beginRelease (cmdDom w) (cmdSeq w) d) := by
  change execRelease s = _
  unfold execRelease
  rw [domainCmd_row hcur hd hl hok]
  dsimp only
  rw [hrun]

/-- RELEASE of a saved domain ends it at once (log 35). -/
theorem release_saved {s : State} {w : List Word} {d : Domain} (hcur : s.kiln.cur = some w)
    (hd : s.doms.find (cmdDom w) = some d) (hl : d.lock = none) (hok : cmdOk w true [] = true) (hsaved : d.status = .saved) :
    ∃ t, exec .release s = .next t ∧ t.doms.find (cmdDom w) = none
      ∧ t.residency.getD (cmdDom w) 0 = (s.residency.getD (cmdDom w) 0 + 1) % 2 ^ 16 := by
  let u := (s.endCommand.beginRelease (cmdDom w) (cmdSeq w) d).finish w 0 0
  have hrow : exec .release s = .next { u with
      doms := u.doms.erase (cmdDom w), residency := u.residency.set (cmdDom w) ((u.residency.getD (cmdDom w) 0 + 1) % 2 ^ 16) } := by
    change execRelease s = _
    unfold execRelease
    rw [domainCmd_row hcur hd hl hok]
    dsimp only
    rw [hsaved]
  have hres : u.residency = s.residency :=
    (post_keep State.residency (fun _ _ _ => rfl) ..).trans (beginRelease_begun s.endCommand (cmdDom w) (cmdSeq w) d).2
  exact ⟨_, hrow, by rw [find_erase, if_pos rfl], by rw [getD_set, if_pos rfl, hres]⟩

end release

section straggling

variable {s : State} {dom rank i : Nat} {t : Tile}

theorem mem_insTrap {x y : TrapInfo} {l : List TrapInfo} : y ∈ insTrap x l ↔ y = x ∨ y ∈ l := by
  induction l with
  | nil => exact List.mem_singleton.trans (by simp)
  | cons z l ih =>
    unfold insTrap
    split
    · exact List.mem_cons
    · rw [List.mem_cons, ih, List.mem_cons]
      tauto

/-- A tile on which a context has raised a trap (R261). -/
def Tile.raise (t : Tile) (x : TrapInfo) : Tile :=
  let t := t.trapMark x
  let c := t.ctx x.ctx
  { t.setCtx x.ctx { c with
    th := { c.th with skips := 0 }, run := .trapped, busy := .none, wblk := 0, barrier := none, idle := none } with
    traps := insTrap x t.traps }

theorem raiseTrap_slot {x : TrapInfo} (hx : x.ctx ≠ 17) : raiseTrap s dom rank x = s.updTile dom rank (·.raise x) := if_neg hx

theorem tile?_updTile (s : State) (k r dom rank : Nat) (f : Tile → Tile) :
    (s.updTile k r f).tile? dom rank = if dom = k ∧ rank = r then (s.tile? dom rank).map f else s.tile? dom rank := by
  unfold State.updTile State.tile?
  cases hd : s.doms.find k with
  | none =>
    dsimp only
    split
    · next h => rw [h.1, hd]; rfl
    · rfl
  | some d =>
    dsimp only
    cases ht : d.tiles.find r with
    | none =>
      dsimp only
      split
      · next h => rw [h.1, h.2, hd, Option.bind_some, ht]; rfl
      · rfl
    | some t =>
      dsimp only
      rw [setDom_doms, find_set]
      by_cases hk : dom = k
      · subst hk
        rw [if_pos rfl, hd, Option.bind_some, Option.bind_some, setTile_tiles, find_set]
        by_cases hr : rank = r
        · subst hr
          rw [if_pos rfl, if_pos ⟨rfl, rfl⟩, ht]
          rfl
        · rw [if_neg hr, if_neg fun h => hr h.2]
      · rw [if_neg hk, if_neg fun h => hk h.1]

/-- Slot i of a tile stands trapped by a straggler break that reports these words (R266, R271). -/
def Tile.Broken (i : Nat) (a b : Word) (t : Tile) : Prop :=
  (t.ctx i).run = .trapped ∧ ∃ y ∈ t.traps, y.cause = cBreak ∧ y.form = 1 ∧ y.ctx = i ∧ y.tval = a ∧ y.tval2 = b

variable {a b : Word}

theorem ctx_trapMark (t : Tile) (x : TrapInfo) (j : Nat) : (t.trapMark x).ctx j = t.ctx j := by
  unfold Tile.trapMark
  split <;> rfl

/-- A break that has trapped a slot stands, whatever traps are raised after it. -/
theorem Tile.Broken.raise (h : t.Broken i a b) (x : TrapInfo) : (t.raise x).Broken i a b := by
  obtain ⟨hrun, y, hy, hwords⟩ := h
  refine ⟨?_, y, mem_insTrap.mpr (.inr ?_), hwords⟩
  · change (((t.trapMark x).setCtx x.ctx _).ctx i).run = _
    rw [ctx_setCtx]
    split
    · rfl
    · rw [ctx_trapMark, hrun]
  · rwa [trapMark_traps]

theorem Tile.Broken.dropWaiter (h : t.Broken i a b) (o : Option Nat) : (t.dropWaiter o).Broken i a b := by
  unfold Tile.dropWaiter
  split
  · exact h
  · split
    · exact h
    · exact h

/-- The trap of a straggler break (R266, R271). -/
def Ctx.breakTrap (c : Ctx) (i now : Nat) (a b : Word) : TrapInfo :=
  { cause := cBreak, form := 1, tval := a, tval2 := b, ctx := i, async := false, xended := false, tepc := c.th.pc, raisedAt := now }

theorem broken_raise (t : Tile) (c : Ctx) (now : Nat) (hi : i < 18) : (t.raise (c.breakTrap i now a b)).Broken i a b := by
  refine ⟨?_, _, mem_insTrap.mpr (.inl rfl), rfl, rfl, rfl, rfl, rfl⟩
  exact congrArg Ctx.run (ctx_setCtx_self _ _ hi)

/-- BREAK on one slot of a tile as it stood (R271). -/
def State.breakSlot (s : State) (dom rank : Nat) (t : Tile) (i : Nat) : State :=
  match t.breakWords i with
  | none => s
  | some (a, b) =>
    (raiseTrap s dom rank ((t.ctx i).breakTrap i s.cycle a b)).updTile dom rank fun u => u.dropWaiter (t.ctx i).barrier

theorem breakTile_eq (s : State) (dom rank : Nat) (t : Tile) :
    s.breakTile dom rank t = slotNums.foldl (fun s i => s.breakSlot dom rank t i) s := rfl

/-- What BREAK makes of a tile's slot. -/
theorem breakSlot_eq (hi : i < 16) : s.breakSlot dom rank t i = match t.breakWords i with
    | none => s
    | some (a, b) => (s.updTile dom rank (·.raise ((t.ctx i).breakTrap i s.cycle a b))).updTile dom rank
        fun u => u.dropWaiter (t.ctx i).barrier := by
  unfold State.breakSlot
  split
  · rfl
  · rw [raiseTrap_slot (show i ≠ 17 by omega)]

/-- The tile stands at its rank, its slot trapped by the break. -/
def State.BrokenAt (dom rank i : Nat) (a b : Word) (s : State) : Prop := ∃ u, s.tile? dom rank = some u ∧ u.Broken i a b

theorem State.BrokenAt.updTile (h : s.BrokenAt dom rank i a b) {f : Tile → Tile} (hf : ∀ t : Tile, t.Broken i a b → (f t).Broken i a b)
    (k r : Nat) : (s.updTile k r f).BrokenAt dom rank i a b := by
  obtain ⟨u, hu, hb⟩ := h
  unfold State.BrokenAt
  rw [tile?_updTile]
  split
  · exact ⟨f u, by rw [hu]; rfl, hf u hb⟩
  · exact ⟨u, hu, hb⟩

theorem State.BrokenAt.breakSlot (h : s.BrokenAt dom rank i a b) (k r : Nat) (t : Tile) {j : Nat} (hj : j < 16) :
    (s.breakSlot k r t j).BrokenAt dom rank i a b := by
  rw [breakSlot_eq hj]
  split
  · exact h
  · exact (h.updTile (fun _ hb => hb.raise _) k r).updTile (fun _ hb => hb.dropWaiter _) k r

/-- The break of a tile's slot that is straggling. -/
theorem breakSlot_broken (hs : (s.tile? dom rank).isSome) (hi : i < 16) (hw : t.breakWords i = some (a, b)) :
    (s.breakSlot dom rank t i).BrokenAt dom rank i a b := by
  obtain ⟨u, hu⟩ := Option.isSome_iff_exists.mp hs
  rw [breakSlot_eq hi, hw]
  refine State.BrokenAt.updTile ⟨u.raise ((t.ctx i).breakTrap i s.cycle a b), ?_, broken_raise u _ _ (by omega)⟩ (fun _ hb => hb.dropWaiter _) _ _
  rw [tile?_updTile, if_pos ⟨rfl, rfl⟩, hu]
  rfl

theorem breakSlots_isSome (k r : Nat) (t : Tile) (l : List Nat) (hl : ∀ j ∈ l, j < 16) (hs : (s.tile? dom rank).isSome) :
    ((l.foldl (fun s i => s.breakSlot k r t i) s).tile? dom rank).isSome := by
  refine List.foldlRecOn l _ (motive := fun s : State => (s.tile? dom rank).isSome) hs fun s hs j hj => ?_
  rw [breakSlot_eq (hl j hj)]
  split
  · exact hs
  · exact tile?_updTile_isSome _ _ _ _ (tile?_updTile_isSome _ _ _ _ hs)

theorem slotNums_lt {j : Nat} (h : j ∈ slotNums) : j < 16 := List.mem_range.mp h

theorem breakTile_isSome (k r : Nat) (t : Tile) (hs : (s.tile? dom rank).isSome) : ((s.breakTile k r t).tile? dom rank).isSome :=
  breakSlots_isSome k r t slotNums (fun _ => slotNums_lt) hs

theorem State.BrokenAt.breakTile (h : s.BrokenAt dom rank i a b) (k r : Nat) (t : Tile) :
    (s.breakTile k r t).BrokenAt dom rank i a b :=
  List.foldlRecOn slotNums _ (motive := fun s : State => s.BrokenAt dom rank i a b) h fun _ h _ hj => h.breakSlot k r t (slotNums_lt hj)

theorem breakTile_broken (hs : (s.tile? dom rank).isSome) (hi : i < 16) (hw : t.breakWords i = some (a, b)) :
    (s.breakTile dom rank t).BrokenAt dom rank i a b := by
  obtain ⟨l, r, hl⟩ := List.append_of_mem (show i ∈ slotNums from List.mem_range.mpr hi)
  have hmem {j : Nat} (hj : j ∈ l ++ i :: r) : j < 16 := slotNums_lt (hl.symm ▸ hj)
  rw [breakTile_eq, hl, List.foldl_append, List.foldl_cons]
  refine List.foldlRecOn r _ (motive := fun s : State => s.BrokenAt dom rank i a b) ?_ fun _ h j hj =>
    h.breakSlot dom rank t (hmem (by simp [hj]))
  exact breakSlot_broken (breakSlots_isSome dom rank t l (fun j hj => hmem (by simp [hj])) hs) hi hw

/-- BREAK traps each straggling slot of a running domain's tiles (R271). -/
theorem breakTiles_broken {d : Domain} (hd : s.doms.find dom = some d) (ht : d.tiles.find rank = some t) (hi : i < 16)
    (hw : t.breakWords i = some (a, b)) : (d.tiles.foldl (fun s p => s.breakTile dom p.1 p.2) s).BrokenAt dom rank i a b := by
  refine foldl_reaches (p := (rank, t)) (I := fun s : State => (s.tile? dom rank).isSome) (P := State.BrokenAt dom rank i a b)
    (fun _ p hs => breakTile_isSome dom p.1 p.2 hs) (fun _ hs => breakTile_broken hs hi hw)
    (fun _ p _ _ _ h => h.breakTile dom p.1 p.2) s ?_ (.inr (mem_of_find ht))
  rw [tile?_of_at ⟨hd, ht⟩]
  rfl

end straggling

section notices

variable {s : State} {dom rank req n : Nat} {d : Domain} {t : Tile} {c : Cmd}

/-- A notice of a fault at which no command has stalled changes nothing. -/
theorem notice_none (hd : s.doms.find dom = some d) (hn : d.stalledAt n = none) (abort : Bool) : s.notice dom n abort = s := by
  unfold State.notice
  rw [hd, Option.bind_some, hn]
  rfl

/-- A tile with a command of its transfer engine replaced. -/
def Tile.setCmd (t : Tile) (req : Nat) (c : Cmd) : Tile := { t with cmds := t.cmds.set req c }

theorem setCmd_cmds (t : Tile) (req : Nat) (c : Cmd) : (t.setCmd req c).cmds.find req = some c := find_set_self ..

theorem updCmd_of_at (h : s.at_ dom rank d t) (hc : t.cmds.find req = some c) (f : Cmd → Cmd) :
    s.updCmd dom rank req f = s.setDom dom (d.setTile rank (t.setCmd req (f c))) := by
  rw [State.updCmd, updTile_of_at h, hc]
  rfl

/-- The stalled command that a notice wakes, its blocks to be fetched afresh. -/
def Cmd.retried (c : Cmd) : Cmd := { c with paging := [], prog := c.prog.map fun p => if p = .stalled then .todo else p }

/-- A notice with RETRY sends the stalled blocks of its command afresh (R291). -/
theorem notice_retry (h : s.at_ dom rank d t) (hrun : d.status = .running) (hn : d.stalledAt n = some (rank, req, c))
    (hc : t.cmds.find req = some c) :
    (s.notice dom n false).tile? dom rank = some (t.setCmd req c.retried) := by
  have hsent (l : List Nat) (u : State) :
      (l.foldl (fun s k => s.dispatch (s.reget dom rank req c k) s.cycle) u).doms = u.doms :=
    (State.OnlyMessages.foldl (fun s k => dispatch_onlyMessages s rfl _) l u).doms
  unfold State.notice
  rw [h.1, Option.bind_some, hn]
  dsimp only [Option.map_some]
  rw [hrun, if_neg Bool.false_ne_true, if_neg (show ¬ DomStatus.running.isHalted = true from Bool.false_ne_true), updCmd_of_at h hc]
  unfold State.tile?
  rw [hsent]
  exact tile?_setDom ..

/-- What a commit leaves of the parts of a tile that are not its contexts, pool, blocks or receives. -/
theorem commit_keep {γ : Type} (f : Tile → γ) (hf : ∀ (t : Tile) ctxs pool blocks recvs, f { t with ctxs, pool, blocks, recvs } = f t)
    (t : Tile) (now b : Nat) (det : Bool) : f (t.commit now det b) = f t := by
  have hctx (t : Tile) (i : Nat) (c : Ctx) : f (t.setCtx i c) = f t := hf t _ t.pool t.blocks t.recvs
  have hmap (t : Tile) (g : Nat → Ctx → Ctx) : f (t.mapCtxs g) = f t := foldl_keep f _ (fun t i => hctx t i _) _ t
  have hidle (t : Tile) (r : Nat) : f (t.idleReason det r) = f t := by
    unfold Tile.idleReason
    split
    · rfl
    · exact hmap ..
  have hlocals (t : Tile) (delayed : Bool) : f (t.wakeLocals now delayed b) = f t := by
    refine foldl_keep f _ (fun t i => ?_) _ t
    dsimp only
    split
    · split
      · exact hctx ..
      · exact hctx ..
    · rfl
  have hwake (t : Tile) (delayed : Bool) : f (t.wake now delayed b) = f t :=
    (hf (t.wakeLocals now delayed b) _ _ _ _).trans (hlocals t delayed)
  unfold Tile.commit
  dsimp only
  rw [hidle, hwake]
  split
  · exact hf t t.ctxs t.pool _ _
  · exact hf t t.ctxs t.pool _ t.recvs

/-- A command whose only block is resolved is over (R202). -/
theorem resolve_last (hc : t.cmds.find req = some c) {p q : Prog} (hp : c.prog = [p]) (hq : q.final = true) :
    (t.resolve req 0 q).cmds.find req = none := by
  have hfinal : (c.setProg 0 q).prog.all Prog.final = true := by simp [Cmd.setProg, hp, hq]
  have hend (c : Cmd) : (t.endCmd req c).cmds = t.cmds.erase req := by
    unfold Tile.endCmd
    dsimp only
    split
    · rfl
    · split <;> rfl
  unfold Tile.resolve
  rw [hc]
  dsimp only
  rw [if_pos hfinal, hend, find_erase, if_pos rfl]

/-- The tile once the block of a read is filled poisoned (R291). -/
theorem aborted_tile (hc : t.cmds.find req = some c) {p : Prog} (hp : c.prog = [p]) (b now : Nat) (det : Bool) (data : Mem)
    {mask : BitVec 32} (hmask : ∀ k < 32, mask.getLsbD k = true) :
    ∃ u, ((t.landBlock b data mask).commit now det b).resolve req 0 .done = u
      ∧ (u.block b).state = .full ∧ u.cmds.find req = none ∧ ∀ g ∈ t.blockGrans b, g ∈ u.pois := by
  have hcmds : ((t.landBlock b data mask).commit now det b).cmds = t.cmds := commit_keep Tile.cmds (fun _ _ _ _ _ => rfl) ..
  obtain ⟨hblocks, -, hpois⟩ := resolve_kept ((t.landBlock b data mask).commit now det b) req 0 .done
  have hfull : (((t.landBlock b data mask).commit now det b).block b).state = .full :=
    congrArg Block.state (only_commit (t.landBlock b data mask) now b det).named
  refine ⟨_, rfl, ?_, resolve_last (hcmds ▸ hc) hp rfl, fun g hg => ?_⟩
  · unfold Tile.block at hfull ⊢
    rw [hblocks, hfull]
  · rw [hpois, (keeps_commit ..).pois]
    obtain ⟨k, hk, hg⟩ := (mem_blockGrans t b g).mp hg
    exact (mem_landBlock_pois ..).mpr (.inr ⟨k, hk, hmask k hk, hg⟩)

theorem getLsbD_allOnes32 : ∀ k < 32, (0xFFFFFFFF : BitVec 32).getLsbD k = true := by decide

/-- The poisoned fill of the only block of a read, still armed for it. -/
theorem deliver_aborted (h : s.at_ dom rank d t) (hc : t.cmds.find req = some c) (hf : c.f6 = 2) {p : Prog} (hp : c.prog = [p])
    (ha : t.armedFor (t.blockOf (ptrOff c.a)) (c.readAgent s.pkgid.toNat dom) (ptrTag c.a) = true) :
    ∃ u, (s.deliver dom rank req 0 [] 0xFFFFFFFF).tile? dom rank = some u ∧ (u.block (t.blockOf (ptrOff c.a))).state = .full
      ∧ u.cmds.find req = none ∧ ∀ g ∈ t.blockGrans (t.blockOf (ptrOff c.a)), g ∈ u.pois := by
  obtain ⟨u, hu, hkept⟩ := aborted_tile hc hp (t.blockOf (ptrOff c.a)) s.cycle d.launch.det [] getLsbD_allOnes32
  refine ⟨u, ?_, hkept⟩
  rw [deliver_armed (slot := 0) h hc hf ha, ← hu]
  exact tile?_setDom ..

/-- A notice with ABORT fills the block of a stalled read, still armed for it, poisoned (R291). -/
theorem notice_abort (h : s.at_ dom rank d t) (hn : d.stalledAt n = some (rank, req, c)) (hc : t.cmds.find req = some c)
    (hf : c.f6 = 2) (hp : c.prog = [.stalled])
    (ha : t.armedFor (t.blockOf (ptrOff c.a)) (c.readAgent s.pkgid.toNat dom) (ptrTag c.a) = true) :
    ∃ u, (s.notice dom n true).tile? dom rank = some u ∧ (u.block (t.blockOf (ptrOff c.a))).state = .full
      ∧ u.cmds.find req = none ∧ ∀ g ∈ t.blockGrans (t.blockOf (ptrOff c.a)), g ∈ u.pois := by
  unfold State.notice
  rw [h.1, Option.bind_some, hn]
  dsimp only [Option.map_some]
  rw [if_pos rfl, hp]
  generalize hv : ({ s with msgs := _, walks := _, ctls := _, awaiting := _ } : State) = v
  have hat : v.at_ dom rank d t := by subst hv; exact h
  have hpkg : v.pkgid = s.pkgid := by subst hv; rfl
  rw [updCmd_of_at hat hc]
  let c' : Cmd := { c with paging := [] }
  have hset : State.at_ (v.setDom dom (d.setTile rank (t.setCmd req c'))) dom rank _ (t.setCmd req c') :=
    ⟨find_set_self .., find_set_self ..⟩
  exact deliver_aborted (t := t.setCmd req c') (c := c') hset (setCmd_cmds ..) hf hp (by rw [setDom_pkgid, hpkg]; exact ha)

end notices

section command

variable {s : State} {w : List Word} {d : Domain} (hcur : s.kiln.cur = some w) (hd : s.doms.find (cmdDom w) = some d) (hl : d.lock = none)

include hcur hd hl

/-- A re-entry walks the graph on from its root (R47). -/
theorem launchReenter_row (hok : cmdOk w true [0, lowMask 12 ||| w64 (2 ^ 63)] = true) (hended : d.status = .ended)
    (hroot : fld (wordAt w 2) 11 0 < d.launch.nnode) :
    exec .launchReenter s = .next ((s.endCommand.setDom (cmdDom w) { d.mapTiles (fun t => { t with rotation := 0 }) with
      launchSeq := cmdSeq w, launchPending := true, passes := [], cache := [] }).proceed (cmdDom w) (fld (wordAt w 2) 11 0) true) := by
  change execLaunchReenter s = _
  unfold execLaunchReenter
  rw [domainCmd_row hcur hd hl hok]
  dsimp only
  rw [if_neg (not_not.mpr hended), if_neg (Nat.not_le.mpr hroot)]

/-- CONTINUE walks the graph on from a HOST node that is in the node cache (R49). -/
theorem continueHold_row {n : Nat} {g : GNode} (hok : cmdOk w true [1] = true) (hhost : d.status = .atHost n)
    (hg : d.cache.find n = some g) :
    exec .continueHold s = .next ((s.endCommand.finish w 0 0).proceed (cmdDom w)
      (if (wordAt w 1).getLsbD 0 then g.alt else g.next) false) := by
  change execContinue s = _
  unfold execContinue
  rw [domainCmd_row hcur hd hl hok]
  dsimp only
  rw [show d.status.hostNode = some n by rw [hhost]; rfl]
  dsimp only
  rw [fetchNode_cached _ _ hg]

/-- EXTEND starts an expired lap counter again (R307). -/
theorem extend_row (hok : cmdOk w true [lowMask 32] = true) (hrun : d.status = .running) (hlap : d.lapStopped = true)
    (hbudget : fld (wordAt w 1) 31 0 ≠ 0) :
    exec .extend s = .next ((s.endCommand.setDom (cmdDom w)
      { d with lap := 0, lapStopped := false, budget := fld (wordAt w 1) 31 0 }).finish w 0 0) := by
  change execExtend s = _
  unfold execExtend
  rw [domainCmd_row hcur hd hl hok]
  dsimp only
  rw [if_neg hbudget, if_pos ⟨hrun, hlap⟩]

/-- BREAK in an even phase reaches every tile (R271). -/
theorem break_row (hok : cmdOk w true [] = true) (hrun : d.status = .running) (heven : d.phase.getLsbD 0 = false) :
    exec .breakStragglers s
      = .next ((d.tiles.foldl (fun s p => s.breakTile (cmdDom w) p.1 p.2) s.endCommand).finish w 0 0) := by
  change execBreak s = _
  unfold execBreak
  rw [domainCmd_row hcur hd hl hok, if_pos ⟨hrun, heven⟩]

/-- HANDLER locks its entry, which is written later (R351). -/
theorem handler_row (hok : cmdOk w true [lowMask 10, ~~~ 0] = true) (hplaced : d.status.placed = true)
    (htakes : d.status.refuses = false ∨ d.status.isHalted = true) (hi : fld (wordAt w 1) 9 0 < d.launch.nhand) :
    ∃ t, exec .handler s = .next t ∧ ∃ u, t.doms.find (cmdDom w) = some u ∧ u.lock = some (fld (wordAt w 1) 9 0)
      ∧ u.lockEntry = wordAt w 2 ∧ s.time < u.lockUntil ∧ u.handlers = d.handlers := by
  have hgone : ¬ (!d.status.placed || d.status.refuses && !d.status.isHalted) = true := by
    rcases htakes with h | h <;> simp [hplaced, h]
  have hlater : s.time < s.endCommand.within 1000 := Nat.lt_of_lt_of_le (Nat.lt_succ_self _) (Nat.le_add_right ..)
  have hrow : exec .handler s = .next (s.endCommand.tick1.setDom (cmdDom w) { d with
      lock := some (fld (wordAt w 1) 9 0), lockEntry := wordAt w 2, lockSeq := cmdSeq w, lockUntil := s.endCommand.within 1000 }) :=
    (domainCmd_row hcur hd hl hok _).trans (congrArg Host.Outcome.next ((if_neg hgone).trans (if_neg (Nat.not_le.mpr hi))))
  exact ⟨_, hrow, _, find_set_self .., rfl, rfl, hlater, rfl⟩

/-- MIGRATE to a free rectangle notes its order (R273). -/
theorem migrate_row (hok : cmdOk w true [lowMask 16] = true) (hplan : d.plannable = true)
    (hfree : Rect.free ⟨fld (wordAt w 1) 7 0, fld (wordAt w 1) 15 8, d.launch.width, d.launch.height⟩
      (s.endCommand.taken [] ++ ((s.endCommand.kiln.places.filter Place.planned).map Place.rect)) = true) :
    exec .migrate s = .next ((s.endCommand.setDom (cmdDom w)
      { d with plan := 2, moveX := fld (wordAt w 1) 7 0, moveY := fld (wordAt w 1) 15 8 }).finish w 0 0) := by
  change execMigrate s = _
  unfold execMigrate
  rw [domainCmd_row hcur hd hl hok]
  dsimp only
  rw [hplan, if_neg (show ¬ (!true) = true from Bool.false_ne_true), if_pos hfree]

/-- A completion notice for a domain that is saved is held (R291). -/
theorem faultComplete_held (hok : cmdOk w true [lowMask 32, 1] = true) (hsaved : d.status = .saved) (abort : Bool) :
    faultComplete s abort = .next ((s.endCommand.setDom (cmdDom w)
      { d with heldNotices := d.heldNotices ++ [(fld (wordAt w 1) 31 0, abort)] }).finish w 0 0) := by
  unfold faultComplete
  rw [domainCmd_row hcur hd hl hok]
  dsimp only
  rw [if_pos (show d.status.logs = true by rw [hsaved]; rfl)]

/-- A completion notice for a domain that runs takes effect at once (R291). -/
theorem faultComplete_running (hok : cmdOk w true [lowMask 32, 1] = true) (hrun : d.status = .running) (abort : Bool) :
    faultComplete s abort = .next ((s.endCommand.notice (cmdDom w) (fld (wordAt w 1) 31 0) abort).finish w 0 0) := by
  unfold faultComplete
  rw [domainCmd_row hcur hd hl hok]
  dsimp only
  rw [if_neg (show ¬ d.status.logs = true by rw [hrun]; exact Bool.false_ne_true)]

end command

/-- Settles O51: a lemma for each command gives what it leaves, once its unused bits and its domain are decoded. -/
theorem domainCommands : Obligations.DomainCommands := by
  intro s w d m hcur s' dom seq goes ends some_
  have hfinish (t : State) (k : Nat) : (t.finish w 0 0).tile? dom k = t.tile? dom k :=
    congrArg (fun m : AMap Domain => (m.find dom).bind fun d => d.tiles.find k) (post_doms ..)
  refine ⟨fun n hok halign hm hrec hn => ?_, fun hd hl => ⟨fun hok hended hroot => launchReenter_row hcur hd hl hok hended hroot,
    fun hok hrun => ?_, fun hok hsaved => release_saved hcur hd hl hok hsaved,
    fun n g hok hhost hg => continueHold_row hcur hd hl hok hhost hg,
    fun hok hrun hlap hbudget => extend_row hcur hd hl hok hrun hlap hbudget, fun hok hrun heven rank t i a b ht hi hw => ?_,
    fun hok hplaced htakes hi => handler_row hcur hd hl hok hplaced htakes hi,
    fun hok => domainCmd_row hcur hd hl hok _, fun hok hplan hfree => migrate_row hcur hd hl hok hplan hfree, fun hok => ⟨fun hsaved => ?_,
    fun hrun hn => ?_, fun rank req c t hrun hn ht hc => ⟨?_, fun hf hp ha => ?_⟩⟩⟩⟩
  case refine_1 =>
    subst hm
    exact launch_queued hcur hok halign hrec hn
  case refine_2 => exact ⟨_, release_running hcur hd hl hok hrun, (beginRelease_begun ..).1⟩
  case refine_3 =>
    obtain ⟨u, hu, hbroken⟩ := breakTiles_broken (s := s.endCommand) hd ht hi hw
    exact ⟨_, break_row hcur hd hl hok hrun heven, u, (hfinish ..).trans hu, hbroken⟩
  case refine_4 => exact ⟨faultComplete_held hcur hd hl hok hsaved false, faultComplete_held hcur hd hl hok hsaved true⟩
  case refine_5 =>
    have hquiet (abort : Bool) : faultComplete s abort = .next (s.endCommand.finish w 0 0) := by
      rw [faultComplete_running hcur hd hl hok hrun, notice_none (s := s.endCommand) (dom := cmdDom w) hd hn]
    exact ⟨hquiet false, hquiet true⟩
  case refine_6 =>
    have hretried := notice_retry (s := s.endCommand) ⟨hd, ht⟩ hrun hn hc
    exact ⟨_, faultComplete_running hcur hd hl hok hrun false, _, (hfinish ..).trans hretried, setCmd_cmds ..⟩
  case refine_7 =>
    obtain ⟨u, hu, hkept⟩ := notice_abort (s := s.endCommand) ⟨hd, ht⟩ hn hc hf hp ha
    exact ⟨_, faultComplete_running hcur hd hl hok hrun true, u, (hfinish ..).trans hu, hkept⟩

end Sys2Proof.Machine
end

