-- ==== Sys2Proof/Proofs/Encoding.lean ====
section
/-! SUPPORT and PROOF. Decoding and encoding are inverse of each other: a word is what its format's builder makes of its fields,
the fields that decode are those that the encoder writes, and bytes decode where an encoding stands at their front (R70 to R77). -/

namespace Sys2Proof

@[simp] theorem fb_toFin {w : Nat} (x : BitVec w) : (fb x.toFin : BitVec w) = x := by
  simp [fb]

/-- The bit above three others, as a field. -/
theorem ofBool_bit3 (b : BitVec 4) : BitVec.ofBool b[3] = b.extractLsb' 3 1 := by revert b; decide

/-- A field cut in two, joined. -/
theorem join_split {a b : Nat} (x : BitVec (b + a)) : x.extractLsb' a b ++ x.extractLsb' 0 a = x :=
  (join_extract x 0 a a b (Nat.zero_add a).symm).trans (extract_all x)

section builders
variable {major : BitVec 5} {st : Stall} {r : Raw32}

theorem mkR_eq {d a b : BitVec 4} {fn : BitVec 6} {mod3 : BitVec 3} {ord : BitVec 2} :
    mkR major st d a b fn mod3 ord = r ↔ r.major = major ∧ r.stall = st ∧ r.d = d ∧ r.a = a ∧ r.b = b ∧ r.fn = fn
      ∧ r.mod3 = mod3 ∧ r.ord = ord := by
  constructor
  · rintro rfl; simp
  · obtain ⟨m, s, d, a, b, hi⟩ := r
    rintro ⟨rfl, rfl, rfl, rfl, rfl, rfl, rfl, rfl⟩
    have h : hi.extractLsb' 9 2 ++ hi.extractLsb' 6 3 ++ hi.extractLsb' 0 6 = hi := by
      rw [join_extract hi 6 9 3 2 rfl, join_extract hi 0 6 6 5 rfl, extract_all]
    simp [mkR, Raw32.stall, Raw32.fn, Raw32.mod3, Raw32.ord, h]

theorem mkI_eq {d a f4 : BitVec 4} {imm : BitVec 11} : mkI major st d a f4 imm = r ↔
    r.major = major ∧ r.stall = st ∧ r.d = d ∧ r.a = a ∧ r.b = f4 ∧ r.hi = imm := by
  constructor
  · rintro rfl; simp
  · obtain ⟨m, s, d, a, b, hi⟩ := r
    rintro ⟨rfl, rfl, rfl, rfl, rfl, rfl⟩
    simp [mkI, Raw32.stall]

theorem mkU_eq {d : BitVec 4} {imm : BitVec 19} : mkU major st d imm = r ↔
    r.major = major ∧ r.stall = st ∧ r.d = d ∧ r.off19 = imm := by
  constructor
  · rintro rfl; simp
  · obtain ⟨m, s, d, a, b, hi⟩ := r
    rintro ⟨rfl, rfl, rfl, rfl⟩
    simp [mkU, Raw32.stall, Raw32.off19, low_of (hi ++ b) a, mid_of hi b a, top_of hi b a]

theorem mkB_eq {a b : BitVec 4} {cond : BitVec 3} {off : BitVec 12} : mkB major st a b cond off = r ↔
    r.major = major ∧ r.stall = st ∧ r.d = a ∧ r.a = b ∧ r.cond3 = cond ∧ r.off12 = off := by
  constructor
  · rintro rfl; simp
  · obtain ⟨m, s, d, a, b, hi⟩ := r
    rintro ⟨rfl, rfl, rfl, rfl, rfl, rfl⟩
    have h : b.extractLsb' 3 1 ++ b.extractLsb' 0 3 = b := join_split (a := 3) (b := 1) b
    simp [mkB, Raw32.stall, Raw32.cond3, Raw32.off12, low_of hi, high_of hi, h]

theorem mkV_eq {vd va vb : BitVec 3} {k : BitVec 2} {z : Bool} {f6 : BitVec 6} {ty : BitVec 3} {rm : BitVec 2} :
    mkV major st vd va vb k z f6 ty rm = r ↔ r.major = major ∧ r.stall = st ∧ r.vd = vd ∧ r.va = va ∧ r.vb = vb
      ∧ r.k = k ∧ r.z = z ∧ r.f6 = f6 ∧ r.tyBits = ty ∧ r.rmBits = rm := by
  constructor
  · rintro rfl; simp
  · obtain ⟨m, s, d, a, b, hi⟩ := r
    rintro ⟨rfl, rfl, rfl, rfl, rfl, rfl, rfl, rfl, rfl, rfl⟩
    have hhi : hi.extractLsb' 9 2 ++ hi.extractLsb' 6 3 ++ hi.extractLsb' 0 6 = hi := by
      rw [join_extract hi 6 9 3 2 rfl, join_extract hi 0 6 6 5 rfl, extract_all]
    have hd : d.extractLsb' 3 1 ++ d.extractLsb' 0 3 = d := join_split (a := 3) (b := 1) d
    have ha : a.extractLsb' 2 2 ++ a.extractLsb' 0 2 = a := join_split (a := 2) (b := 2) a
    have hb : b.extractLsb' 3 1 ++ b.extractLsb' 1 2 ++ b.extractLsb' 0 1 = b := by
      rw [join_extract b 1 3 2 1 rfl, join_extract b 0 1 1 3 rfl, extract_all]
    have hva : (a.extractLsb' 0 2 ++ d.extractLsb' 3 1).extractLsb' 0 1 = d.extractLsb' 3 1 := low_of _ _
    have hva' : (a.extractLsb' 0 2 ++ d.extractLsb' 3 1).extractLsb' 1 2 = a.extractLsb' 0 2 := high_of _ _
    have hvb : (b.extractLsb' 0 1 ++ a.extractLsb' 2 2).extractLsb' 0 2 = a.extractLsb' 2 2 := low_of _ _
    have hvb' : (b.extractLsb' 0 1 ++ a.extractLsb' 2 2).extractLsb' 2 1 = b.extractLsb' 0 1 := high_of _ _
    simp [mkV, Raw32.stall, Raw32.vd, Raw32.va, Raw32.vb, Raw32.k, Raw32.z, Raw32.f6, Raw32.tyBits, Raw32.rmBits, hhi, hd, ha,
      hb, hva, hva', hvb, hvb', ofBool_bit3]

theorem mkE_eq {a b : BitVec 4} {sub : BitVec 3} {fl : Bool} {f6 : BitVec 6} {mod5 : BitVec 5} :
    mkE major st a b sub fl f6 mod5 = r ↔ r.major = major ∧ r.stall = st ∧ r.d = a ∧ r.a = b ∧ r.sub = sub
      ∧ r.fl = fl ∧ r.f6 = f6 ∧ r.mod5 = mod5 := by
  constructor
  · rintro rfl; simp
  · obtain ⟨m, s, d, a, b, hi⟩ := r
    rintro ⟨rfl, rfl, rfl, rfl, rfl, rfl, rfl, rfl⟩
    have hhi : hi.extractLsb' 6 5 ++ hi.extractLsb' 0 6 = hi := join_split (a := 6) (b := 5) hi
    have hb : b.extractLsb' 3 1 ++ b.extractLsb' 0 3 = b := join_split (a := 3) (b := 1) b
    simp [mkE, Raw32.stall, Raw32.sub, Raw32.fl, Raw32.f6, Raw32.mod5, hhi, hb, ofBool_bit3]

end builders


/-! The codes that a field may hold, as they came (R72, R73, R139, R199, R213). -/

@[simp] theorem eOf4_eq {v : EReg} : ∀ {x : BitVec 4}, eOf4 x = some v ↔ x = fb v := by revert v; decide
@[simp] theorem kOf4_eq {v : KReg} : ∀ {x : BitVec 4}, kOf4 x = some v ↔ x = fb v := by revert v; decide
@[simp] theorem kOf3_eq {v : KReg} : ∀ {x : BitVec 3}, kOf3 x = some v ↔ x = fb v := by revert v; decide
@[simp] theorem posOf4_eq {v : Fin 6} : ∀ {x : BitVec 4}, posOf4 x = some v ↔ x = fb v := by revert v; decide
@[simp] theorem wOf2_eq {v : Fin 3} : ∀ {x : BitVec 2}, wOf2 x = some v ↔ x = fb v := by revert v; decide
@[simp] theorem ord_code_ofCode : ∀ x : BitVec 2, (Ord.ofCode x).code = x := by decide
@[simp] theorem vtype_code_ofCode : ∀ x : BitVec 3, (VType.ofCode x).code = x := by decide
@[simp] theorem rmField_code_ofCode : ∀ x : BitVec 2, (RmField.ofCode x).code = x := by decide
@[simp] theorem fenceKind_eq {o : FenceKind} {x : BitVec 2} : FenceKind.ofCode x = some o ↔ x = o.code :=
  ⟨(show ∀ x : BitVec 2, ∀ o ∈ FenceKind.ofCode x, x = o.code by decide) x o, fun h => h ▸ fenceKind_ofCode_code o⟩
@[simp] theorem scope_eq {o : Scope} {x : BitVec 3} : Scope.ofCode x = some o ↔ x = o.code :=
  ⟨(show ∀ x : BitVec 3, ∀ o ∈ Scope.ofCode x, x = o.code by decide) x o, fun h => h ▸ scope_ofCode_code o⟩
@[simp] theorem xord_eq {o : XOrd} {x : BitVec 5} : XOrd.ofCode x = some o ↔ x = o.code :=
  ⟨(show ∀ x : BitVec 5, ∀ o ∈ XOrd.ofCode x, x = o.code by decide) x o, fun h => h ▸ xord_ofCode_code o⟩
@[simp] theorem redOp_eq {o : RedOp} {x : BitVec 3} : RedOp.ofCode x = some o ↔ x = o.code :=
  ⟨(show ∀ x : BitVec 3, ∀ o ∈ RedOp.ofCode x, x = o.code by decide) x o, fun h => h ▸ redOp_ofCode_code o⟩
@[simp] theorem combOp_eq {o : CombOp} {fl : Bool} {x : BitVec 3} : CombOp.ofCode fl x = some o ↔ fl = o.fl ∧ x = o.sub :=
  ⟨(show ∀ (fl : Bool) (x : BitVec 3), ∀ o ∈ CombOp.ofCode fl x, fl = o.fl ∧ x = o.sub by decide) fl x o,
    fun ⟨hfl, hsub⟩ => hfl ▸ hsub ▸ combOp_ofCode_code o⟩

/-- An immediate is its six low bits where its high bits are zero (R111). -/
theorem imm6_eq {x : BitVec 11} : x = (x.extractLsb' 0 6).setWidth 11 ↔ x.extractLsb' 6 5 = 0 := by
  revert x; decide

/-- FENCE's immediate by its fields (R139). -/
theorem fenceImm_eq {x : BitVec 11} {s : BitVec 3} {k : BitVec 2} :
    x = 0#6 ++ s ++ k ↔ x.extractLsb' 5 6 = 0 ∧ x.extractLsb' 2 3 = s ∧ x.extractLsb' 0 2 = k := by
  constructor
  · rintro rfl; simp
  · rintro ⟨h, rfl, rfl⟩
    rw [show (0#6 : BitVec 6) = x.extractLsb' 5 6 from h.symm, join_extract x 2 5 3 6 rfl, join_extract x 0 2 2 9 rfl,
      extract_all]

/-- JLOG's immediate by its fields (R235). -/
theorem jlogImm_eq {x : BitVec 11} {ret : Bool} {w : BitVec 2} :
    x = 0#8 ++ BitVec.ofBool ret ++ w ↔ x.extractLsb' 3 8 = 0 ∧ x[2] = ret ∧ x.extractLsb' 0 2 = w := by
  constructor
  · rintro rfl; simp
  · rintro ⟨h, rfl, rfl⟩
    have hbit : BitVec.ofBool x[2] = x.extractLsb' 2 1 := by revert x; decide
    rw [show (0#8 : BitVec 8) = x.extractLsb' 3 8 from h.symm, hbit, join_extract x 2 3 1 8 rfl,
      join_extract x 0 2 2 9 rfl, extract_all]

/-- SUB names an accumulator where its high bit is zero (R182). -/
theorem sub_eq_acc {r : Raw32} : r.sub = fb r.acc ↔ r.sub.extractLsb' 2 1 = 0 :=
  (show ∀ x : BitVec 3, x = fb (x.extractLsb' 0 2).toFin ↔ x.extractLsb' 2 1 = 0 by decide) r.sub

/-- Whatever instruction an answer of the decoder holds is encoded as the fields. -/
def Raw32.Encodes (r : Raw32) (o : Option Instr) : Prop := ∀ i ∈ o, encode i = some (.w32 r)

theorem Raw32.encodes_none (r : Raw32) : r.Encodes none := nofun

theorem Raw32.encodes_some {r x : Raw32} {i : Instr} (h : encode i = some (.w32 x)) (hx : x = r) : r.Encodes (some i) := by
  rintro _ ⟨⟩; rw [h, hx]

theorem Raw32.encodes_bind {r : Raw32} {α : Type} {x : Option α} {f : α → Option Instr} (h : ∀ a ∈ x, r.Encodes (f a)) :
    r.Encodes (x >>= f) := by
  rintro i hi
  obtain ⟨a, ha, hi⟩ := Option.mem_bind_iff.mp hi
  exact h a ha i hi

section majors
variable {r : Raw32}

theorem encodes_decAlu (hM : r.major = 0) : r.Encodes (decAlu r) := by
  unfold decAlu
  repeat' first | split | refine r.encodes_bind fun _ _ => ?_
  any_goals exact r.encodes_none
  all_goals
    refine r.encodes_some rfl (mkR_eq.mpr ?_)
    simp_all [BitVec.toNat_eq_nat]

theorem encodes_decAluI (hM : r.major = 1) : r.Encodes (decAluI r) := by
  unfold decAluI
  repeat' first | split | refine r.encodes_bind fun _ _ => ?_
  any_goals exact r.encodes_none
  all_goals
    refine r.encodes_some rfl (mkI_eq.mpr ?_)
    simp_all [BitVec.toNat_eq_nat, imm6_eq]

theorem encodes_decMulDiv (hM : r.major = 4) : r.Encodes (decMulDiv r) := by
  unfold decMulDiv
  repeat' first | split | refine r.encodes_bind fun _ _ => ?_
  any_goals exact r.encodes_none
  all_goals
    refine r.encodes_some rfl (mkR_eq.mpr ?_)
    simp_all [BitVec.toNat_eq_nat]

theorem encodes_decBr (hM : r.major = 5) : r.Encodes (decBr r) := by
  unfold decBr
  repeat' first | split | refine r.encodes_bind fun _ _ => ?_
  any_goals exact r.encodes_none
  all_goals
    refine r.encodes_some rfl (mkB_eq.mpr ?_)
    simp_all [BitVec.toNat_eq_nat]

theorem encodes_decJr (hM : r.major = 7) : r.Encodes (decJr r) := by
  unfold decJr
  repeat' first | split | refine r.encodes_bind fun _ _ => ?_
  any_goals exact r.encodes_none
  all_goals
    refine r.encodes_some rfl (mkI_eq.mpr ?_)
    simp_all [BitVec.toNat_eq_nat]

theorem encodes_decLd (hM : r.major = 8) : r.Encodes (decLd r) := by
  unfold decLd
  repeat' first | split | refine r.encodes_bind fun _ _ => ?_
  any_goals exact r.encodes_none
  all_goals
    refine r.encodes_some rfl (mkI_eq.mpr ?_)
    simp_all [BitVec.toNat_eq_nat]

theorem encodes_decSt (hM : r.major = 9) : r.Encodes (decSt r) := by
  unfold decSt
  repeat' first | split | refine r.encodes_bind fun _ _ => ?_
  any_goals exact r.encodes_none
  all_goals
    refine r.encodes_some rfl (mkI_eq.mpr ?_)
    simp_all [BitVec.toNat_eq_nat]

theorem encodes_decBlock (hM : r.major = 10) : r.Encodes (decBlock r) := by
  unfold decBlock
  repeat' first | split | refine r.encodes_bind fun _ _ => ?_
  any_goals exact r.encodes_none
  all_goals
    refine r.encodes_some rfl (mkI_eq.mpr ?_)
    simp_all [BitVec.toNat_eq_nat]

theorem encodes_decCell (hM : r.major = 11) : r.Encodes (decCell r) := by
  unfold decCell
  repeat' first | split | refine r.encodes_bind fun _ _ => ?_
  any_goals exact r.encodes_none
  all_goals
    refine r.encodes_some rfl (mkR_eq.mpr ?_)
    simp_all [BitVec.toNat_eq_nat]

theorem encodes_decSync (hM : r.major = 12) : r.Encodes (decSync r) := by
  unfold decSync
  repeat' first | split | refine r.encodes_bind fun _ _ => ?_
  any_goals exact r.encodes_none
  all_goals
    refine r.encodes_some rfl (mkI_eq.mpr ?_)
    simp_all [BitVec.toNat_eq_nat, fenceImm_eq]

theorem encodes_decExt (hM : r.major = 13) : r.Encodes (decExt r) := by
  unfold decExt
  repeat' first | split | refine r.encodes_bind fun _ _ => ?_
  any_goals exact r.encodes_none
  all_goals
    refine r.encodes_some rfl (mkI_eq.mpr ?_)
    simp_all [BitVec.toNat_eq_nat]

theorem encodes_decVAlu (hM : r.major = 14) : r.Encodes (decVAlu r) := by
  unfold decVAlu
  repeat' first | split | refine r.encodes_bind fun _ _ => ?_
  any_goals exact r.encodes_none
  all_goals
    refine r.encodes_some rfl (mkV_eq.mpr ?_)
    simp_all [BitVec.toNat_eq_nat]

theorem encodes_decVFn (hM : r.major = 15) : r.Encodes (decVFn r) := by
  unfold decVFn
  repeat' first | split | refine r.encodes_bind fun _ _ => ?_
  any_goals exact r.encodes_none
  all_goals
    refine r.encodes_some rfl (mkV_eq.mpr ?_)
    simp_all [BitVec.toNat_eq_nat]

theorem encodes_decVCvt (hM : r.major = 16) : r.Encodes (decVCvt r) := by
  unfold decVCvt
  repeat' first | split | refine r.encodes_bind fun _ _ => ?_
  any_goals exact r.encodes_none
  all_goals
    refine r.encodes_some rfl (mkV_eq.mpr ?_)
    simp_all [BitVec.toNat_eq_nat]

theorem encodes_decVPerm (hM : r.major = 17) : r.Encodes (decVPerm r) := by
  unfold decVPerm
  repeat' first | split | refine r.encodes_bind fun _ _ => ?_
  any_goals exact r.encodes_none
  all_goals
    refine r.encodes_some rfl (mkV_eq.mpr ?_)
    simp_all [BitVec.toNat_eq_nat]

theorem encodes_decVMem (hM : r.major = 18) : r.Encodes (decVMem r) := by
  unfold decVMem
  repeat' first | split | refine r.encodes_bind fun _ _ => ?_
  any_goals exact r.encodes_none
  all_goals
    refine r.encodes_some rfl (mkI_eq.mpr ?_)
    simp_all [BitVec.toNat_eq_nat]

theorem encodes_decVMask (hM : r.major = 19) : r.Encodes (decVMask r) := by
  unfold decVMask
  repeat' first | split | refine r.encodes_bind fun _ _ => ?_
  any_goals exact r.encodes_none
  all_goals
    refine r.encodes_some rfl (mkR_eq.mpr ?_)
    simp_all [BitVec.toNat_eq_nat]

theorem encodes_decMatrix (hM : r.major = 20) : r.Encodes (decMatrix r) := by
  unfold decMatrix
  repeat' first | split | refine r.encodes_bind fun _ _ => ?_
  any_goals exact r.encodes_none
  all_goals
    refine r.encodes_some rfl (mkE_eq.mpr ?_)
    simp_all [BitVec.toNat_eq_nat, sub_eq_acc]

theorem encodes_decXfer (hM : r.major = 21) : r.Encodes (decXfer r) := by
  unfold decXfer
  repeat' first | split | refine r.encodes_bind fun _ _ => ?_
  any_goals exact r.encodes_none
  all_goals
    refine r.encodes_some rfl (mkE_eq.mpr ?_)
    simp_all [BitVec.toNat_eq_nat]

theorem encodes_decXctl (hM : r.major = 22) : r.Encodes (decXctl r) := by
  unfold decXctl
  repeat' first | split | refine r.encodes_bind fun _ _ => ?_
  any_goals exact r.encodes_none
  all_goals
    refine r.encodes_some rfl (mkE_eq.mpr ?_)
    simp_all [BitVec.toNat_eq_nat]

theorem encodes_decInvoke (hM : r.major = 23) : r.Encodes (decInvoke r) := by
  unfold decInvoke
  repeat' first | split | refine r.encodes_bind fun _ _ => ?_
  any_goals exact r.encodes_none
  all_goals
    refine r.encodes_some rfl (mkE_eq.mpr ?_)
    simp_all [BitVec.toNat_eq_nat]

theorem encodes_decSys (hM : r.major = 24) : r.Encodes (decSys r) := by
  unfold decSys
  repeat' first | split | refine r.encodes_bind fun _ _ => ?_
  any_goals exact r.encodes_none
  all_goals
    refine r.encodes_some rfl (mkI_eq.mpr ?_)
    simp_all [BitVec.toNat_eq_nat, jlogImm_eq]

theorem encodes_decTrap (hM : r.major = 25) : r.Encodes (decTrap r) := by
  unfold decTrap
  repeat' first | split | refine r.encodes_bind fun _ _ => ?_
  any_goals exact r.encodes_none
  all_goals
    refine r.encodes_some rfl (mkI_eq.mpr ?_)
    simp_all [BitVec.toNat_eq_nat]

end majors

theorem encodes_decodeRaw32 (r : Raw32) : r.Encodes (decodeRaw32 r) := by
  unfold decodeRaw32
  have hM {n : Nat} (h : r.major.toNat = n) : r.major = BitVec.ofNat 5 n := BitVec.eq_of_toNat_eq (by simp [← h])
  split
  case h_1 h => exact encodes_decAlu (hM h)
  case h_2 h => exact encodes_decAluI (hM h)
  case h_3 h => exact r.encodes_some rfl (mkU_eq.mpr (by simp [hM h]))
  case h_4 h => exact r.encodes_some rfl (mkU_eq.mpr (by simp [hM h]))
  case h_5 h => exact encodes_decMulDiv (hM h)
  case h_6 h => exact encodes_decBr (hM h)
  case h_7 h => exact r.encodes_some rfl (mkU_eq.mpr (by simp [hM h]))
  case h_8 h => exact encodes_decJr (hM h)
  case h_9 h => exact encodes_decLd (hM h)
  case h_10 h => exact encodes_decSt (hM h)
  case h_11 h => exact encodes_decBlock (hM h)
  case h_12 h => exact encodes_decCell (hM h)
  case h_13 h => exact encodes_decSync (hM h)
  case h_14 h => exact encodes_decExt (hM h)
  case h_15 h => exact encodes_decVAlu (hM h)
  case h_16 h => exact encodes_decVFn (hM h)
  case h_17 h => exact encodes_decVCvt (hM h)
  case h_18 h => exact encodes_decVPerm (hM h)
  case h_19 h => exact encodes_decVMem (hM h)
  case h_20 h => exact encodes_decVMask (hM h)
  case h_21 h => exact encodes_decMatrix (hM h)
  case h_22 h => exact encodes_decXfer (hM h)
  case h_23 h => exact encodes_decXctl (hM h)
  case h_24 h => exact encodes_decInvoke (hM h)
  case h_25 h => exact encodes_decSys (hM h)
  case h_26 h => exact encodes_decTrap (hM h)
  case h_27 => exact r.encodes_none

/-- A compact form that decodes is well formed and encoded as its fields (R76). -/
theorem encodes_decodeRaw16 {r : Raw16} {i : Instr} (h : decodeRaw16 r = some i) :
    i.wf = true ∧ encode i = some (.w16 r) := by
  obtain ⟨op, d, a, f2⟩ := r
  unfold decodeRaw16 at h
  have hop {n : Nat} (h : op.toNat = n) : op = BitVec.ofNat 4 n := BitVec.eq_of_toNat_eq (by simp [← h])
  have h6 : (a ++ f2).extractLsb' 2 4 = a ∧ (a ++ f2).extractLsb' 0 2 = f2 := ⟨high_of a f2, low_of a f2⟩
  have h10 : (d ++ a ++ f2).extractLsb' 6 4 = d ∧ (d ++ a ++ f2).extractLsb' 2 4 = a ∧ (d ++ a ++ f2).extractLsb' 0 2 = f2 :=
    ⟨top_of d a f2, mid_of d a f2, low_of (d ++ a) f2⟩
  split at h
  case h_17 => cases h
  case h_16 heq =>
    obtain ⟨⟨rfl, rfl, rfl⟩, hi⟩ := Option.ite_none_right_eq_some.mp h
    cases hi
    exact ⟨rfl, by rw [hop heq]; rfl⟩
  all_goals
    rename_i heq
    cases h
    refine ⟨rfl, ?_⟩
    change some (Enc.w16 _) = _
    simp [hop heq, h6, h10]

namespace Laws.Fields

/-- The fields that the encoder writes decode to the instruction, whichever it is: the constructors' lemmas, in order. -/
theorem every_instr (i : Instr) : Statement i :=
  Instr.rec (motive := Statement)
    add sub and or xor andn shl shr sra slt sltu seq sne min max minu maxu sel clz ctz popc sextB sextH sextW bfx bfxS bfi
    padd ptagx ptags addi andi ori xori shli shri srai slti sltiu paddi ptagi lui addpc mul mulh mulhu div divu rem remu
    beq bne blt bge bltu bgeu jal jalr jr ldb ldh ldw ldd ldbu ldhu ldwu ldp stb sth stw std stp bopen bcommit bclr bwait
    bstat barm bpois bfill cld cst cadd cmin cmax cminu cmaxu cand cor cxor cxchg ccas cdecf fence tbar sync yield tend
    spawn phase await abinit eli emov emovg vadd vsub vmul vfma vfms vfnma vmin vmax vabs vneg vand vor vxor vshl vshr vsra
    vadds vsubs vdot vbcast vext vins vmov vrcp vrsq vsqrt vexp2 vlog2 vdiv vcmpeq vcmpne vcmplt vcmple vsel vclass vcvt
    vqdx vdq vqmx vpack vunpk vperm vrot vred vscan vcompr viota vld vst vlds vsts vgath vscat kand kor kxor knot kpop kmov
    kmovG mzero mld mst mma mmat mmas macc mwait mwaitAll mstat xsend xmcast xget xput xfeed xcomb xroute xclose xrecv
    xrecvRoute xend xwait xwaitRecv pitch pitchq mfc mtc rdcyc rdret jlog ptst ptstV ptstAcc tagget tagset idle hnote trap
    eret eretEnd brk cIll cAdd cSub cMov cAnd cOr cXor cAddi cShli cShri cLdd cStd cBeqz cBnez cJ cRet resultLanding
    storePerform cellPerform tagsetEvent vqdxListEvent bfillCommit trapEntry journal waiterService engineReadEnd
    matrixComputeStart matrixComputeDone matrixMoveStart matrixMoveDone mstBlockCommit idleWake voteWindowWaitEnd boundary
    straggler preemptDone restore migrationStreamDone forwardRetire placementPlan placementGrant timeSliceExpiry
    releaseDrainDone feedCommit routedFinish putArrive getArrive reply combine invoke answer retryAfter retryTimer
    routedUnit closingCount announce announcePeriodic requestResend flitRoute starve linkFlit portRetrain walkComplete
    stalledRecordWrite invalidateComplete hbmWaiterService scrub refresh selfRefreshEntry extentAdded extentReleaseRequest
    hostWrite hostRead cmdtail direct evhead bar0RegisterWrite launch launchReenter release continueHold extend
    breakStragglers faultCompleteRetry faultCompleteAbort invalidateRange invalidatePkgid tableRoot handler memstateClear
    memstatePublish slice counterRead counterReset health attest portmap peer configScrub configIdleEntry migrate
    extentReleased coldReset bringUp thermalTrip throttleChange d3hotEntry d3coldEntry d0Entry illegalEncoding fetchBounds
    handlerLockClear i

end Laws.Fields

/-- Decoding the fields of an encoding and encoding are inverse of each other. -/
theorem instr_eq_some {x : Enc} {i : Instr} : x.instr = some i ↔ encode i = some x := by
  refine ⟨fun h => ?_, Laws.Fields.every_instr i x⟩
  cases x with
  | w32 r => exact encodes_decodeRaw32 r i h
  | w16 r => exact (encodes_decodeRaw16 h).2

theorem Raw32.ofBits_toBits (r : Raw32) : Raw32.ofBits r.toBits = r := by
  obtain ⟨major, st, d, a, b, hi⟩ := r
  simp only [Raw32.ofBits, Raw32.toBits, Raw32.mk.injEq]
  exact ⟨mid_of (hi ++ b ++ a ++ d ++ st) major 3#2, by
    rw [extract_high _ 3#2 7 2 (by decide)]; exact mid_of (hi ++ b ++ a ++ d) st major, by
    rw [extract_high _ 3#2 9 4 (by decide), extract_high _ major 7 4 (by decide)]; exact mid_of (hi ++ b ++ a) d st, by
    rw [extract_high _ 3#2 13 4 (by decide), extract_high _ major 11 4 (by decide),
      extract_high _ st 6 4 (by decide)]
    exact mid_of (hi ++ b) a d, by
    rw [extract_high _ 3#2 17 4 (by decide), extract_high _ major 15 4 (by decide),
      extract_high _ st 10 4 (by decide), extract_high _ d 8 4 (by decide)]
    exact mid_of hi b a, by
    rw [extract_high _ 3#2 21 11 (by decide), extract_high _ major 19 11 (by decide),
      extract_high _ st 14 11 (by decide), extract_high _ d 12 11 (by decide)]
    exact top_of hi b a⟩

theorem Raw32.toBits_ofBits {w : BitVec 32} (h : w.extractLsb' 0 2 = 3) : (Raw32.ofBits w).toBits = w := by
  simp only [Raw32.ofBits, Raw32.toBits]
  rw [show 3#2 = w.extractLsb' 0 2 from h.symm, join_extract w 17 21 4 11 rfl, join_extract w 13 17 4 15 rfl,
    join_extract w 9 13 4 19 rfl, join_extract w 7 9 2 23 rfl, join_extract w 2 7 5 25 rfl, join_extract w 0 2 2 30 rfl,
    extract_all]

theorem Raw16.ofBits_toBits (r : Raw16) : Raw16.ofBits r.toBits = r := by
  obtain ⟨op, d, a, f2⟩ := r
  simp only [Raw16.ofBits, Raw16.toBits, Raw16.mk.injEq]
  exact ⟨mid_of (f2 ++ a ++ d) op 0#2, by
    rw [extract_high _ 0#2 6 4 (by decide)]; exact mid_of (f2 ++ a) d op, by
    rw [extract_high _ 0#2 10 4 (by decide), extract_high _ op 8 4 (by decide)]; exact mid_of f2 a d, by
    rw [extract_high _ 0#2 14 2 (by decide), extract_high _ op 12 2 (by decide)]; exact top_of f2 a d⟩

theorem Raw16.toBits_ofBits {w : BitVec 16} (h : w.extractLsb' 0 2 = 0) : (Raw16.ofBits w).toBits = w := by
  simp only [Raw16.ofBits, Raw16.toBits]
  rw [show 0#2 = w.extractLsb' 0 2 from h.symm, join_extract w 10 14 4 2 rfl, join_extract w 6 10 4 6 rfl,
    join_extract w 2 6 4 10 rfl, join_extract w 0 2 2 14 rfl, extract_all]

theorem Raw32.toBits_low (r : Raw32) : r.toBits.extractLsb' 0 2 = 3 := low_of _ 3#2

theorem Raw16.toBits_low (r : Raw16) : r.toBits.extractLsb' 0 2 = 0 := low_of _ 0#2

/-- A word decodes where it is the word of fields that decode to a well-formed instruction (R70, R77). -/
theorem decode32_eq_some {w : BitVec 32} {i : Instr} :
    decode32 w = some i ↔ ∃ r : Raw32, r.toBits = w ∧ decodeRaw32 r = some i ∧ i.wf = true := by
  unfold decode32
  constructor
  · intro h
    obtain ⟨hlow, h⟩ := Option.ite_none_right_eq_some.mp h
    refine ⟨_, Raw32.toBits_ofBits hlow, ?_⟩
    split at h
    · obtain ⟨hwf, h⟩ := Option.ite_none_right_eq_some.mp h
      cases h
      exact ⟨‹_›, hwf⟩
    · cases h
  · rintro ⟨r, rfl, hr, hwf⟩
    simp only [r.toBits_low, r.ofBits_toBits, hr, hwf, if_true]

/-- A halfword decodes where it is the halfword of fields that decode (R70, R76). -/
theorem decode16_eq_some {w : BitVec 16} {i : Instr} :
    decode16 w = some i ↔ ∃ r : Raw16, r.toBits = w ∧ decodeRaw16 r = some i := by
  unfold decode16
  constructor
  · intro h
    obtain ⟨hlow, h⟩ := Option.ite_none_right_eq_some.mp h
    exact ⟨_, Raw16.toBits_ofBits hlow, h⟩
  · rintro ⟨r, rfl, hr⟩
    rw [if_pos r.toBits_low, r.ofBits_toBits, hr]

/-- The lowest byte comes first (R3). -/
theorem bytesOfNat_append {m : Nat} (n : Nat) (x : BitVec m) (b : Byte) :
    bytesOfNat (n + 1) (x ++ b).toNat = b :: bytesOfNat n x.toNat := by
  have h : (x ++ b).toNat = 256 * x.toNat + b.toNat := by
    rw [BitVec.toNat_append, ← Nat.shiftLeft_add_eq_or_of_lt b.isLt, Nat.shiftLeft_eq, Nat.mul_comm]
  have hb := b.isLt
  rw [bytesOfNat, h, show (256 * x.toNat + b.toNat) / 256 = x.toNat by omega]
  congr 1
  exact BitVec.eq_of_toNat_eq (by rw [BitVec.toNat_ofNat]; omega)

/-- The bytes of a halfword, lowest first (R3). -/
theorem bytes_of_half (b1 b0 : Byte) : bytesOfNat 2 (b1 ++ b0).toNat = [b0, b1] := by
  rw [bytesOfNat_append 1 b1 b0]
  simp [bytesOfNat]

theorem bytes_w16 {r : Raw16} {b1 b0 : Byte} (h : r.toBits = b1 ++ b0) : (Enc.w16 r).bytes = [b0, b1] := by
  rw [Enc.bytes, h, bytes_of_half]

theorem bytes_w32 {r : Raw32} {b3 b2 b1 b0 : Byte} (h : r.toBits = b3 ++ b2 ++ b1 ++ b0) :
    (Enc.w32 r).bytes = [b0, b1, b2, b3] := by
  rw [Enc.bytes, h, bytesOfNat_append 3 (b3 ++ b2 ++ b1) b0, bytesOfNat_append 2 (b3 ++ b2) b1, bytes_of_half]

/-- A halfword is two bytes joined. -/
theorem exists_bytes_of_half (w : BitVec 16) : ∃ b1 b0 : Byte, w = b1 ++ b0 :=
  ⟨w.extractLsb' 8 8, w.extractLsb' 0 8, (join_split (b := 8) (a := 8) w).symm⟩

/-- A word is four bytes joined. -/
theorem exists_bytes_of_word (w : BitVec 32) : ∃ b3 b2 b1 b0 : Byte, w = b3 ++ b2 ++ b1 ++ b0 := by
  refine ⟨w.extractLsb' 24 8, w.extractLsb' 16 8, w.extractLsb' 8 8, w.extractLsb' 0 8, ?_⟩
  rw [join_extract w 16 24 8 8 rfl, join_extract w 8 16 8 16 rfl, join_extract w 0 8 8 24 rfl, extract_all]

/-- The length code of a compact form stands in its first byte (R70). -/
theorem lengthOf_toBits16 {r : Raw16} {b1 b0 : Byte} (h : r.toBits = b1 ++ b0) : lengthOf (b1 ++ b0) = some 2 := by
  unfold lengthOf
  rw [← h, r.toBits_low]
  rfl

/-- The length code of a word stands in its first byte (R70). -/
theorem lengthOf_toBits32 {r : Raw32} {b3 b2 b1 b0 : Byte} (h : r.toBits = b3 ++ b2 ++ b1 ++ b0) :
    lengthOf (b1 ++ b0) = some 4 := by
  have hlow : (b1 ++ b0).extractLsb' 0 2 = 3#2 := by
    rw [extract_low b1 b0 0 2 (by decide), ← extract_low (b3 ++ b2 ++ b1) b0 0 2 (by decide), ← h]
    exact r.toBits_low
  unfold lengthOf
  rw [hlow]
  rfl

/-- Bytes decode where an encoding stands at their front whose fields decode to a well-formed instruction (R70, R77). -/
theorem decodeBytes_eq_some {bytes : List Byte} {i : Instr} {n : Nat} : decodeBytes bytes = some (i, n) ↔
    ∃ (x : Enc) (rest : List Byte), bytes = x.bytes ++ rest ∧ n = x.bytes.length ∧ x.instr = some i ∧ i.wf = true := by
  constructor
  · intro h
    unfold decodeBytes at h
    split at h
    case h_2 => cases h
    case h_1 b0 b1 rest =>
      split at h
      case h_1 =>
        obtain ⟨j, hj, h⟩ := Option.map_eq_some_iff.mp h
        obtain ⟨rfl, rfl⟩ := Prod.mk.inj h
        obtain ⟨r, hr, hi⟩ := decode16_eq_some.mp hj
        exact ⟨.w16 r, rest, by rw [bytes_w16 hr]; rfl, by rw [bytes_w16 hr]; rfl, hi, (encodes_decodeRaw16 hi).1⟩
      case h_2 =>
        split at h
        case h_2 => cases h
        case h_1 b2 b3 rest =>
          obtain ⟨j, hj, h⟩ := Option.map_eq_some_iff.mp h
          obtain ⟨rfl, rfl⟩ := Prod.mk.inj h
          obtain ⟨r, hr, hi, hwf⟩ := decode32_eq_some.mp hj
          exact ⟨.w32 r, rest, by rw [bytes_w32 hr]; rfl, by rw [bytes_w32 hr]; rfl, hi, hwf⟩
      case h_3 => cases h
  · rintro ⟨x, rest, rfl, rfl, hi, hwf⟩
    cases x with
    | w16 r =>
      obtain ⟨b1, b0, hw⟩ := exists_bytes_of_half r.toBits
      simp [decodeBytes, bytes_w16 hw, lengthOf_toBits16 hw, decode16_eq_some.mpr ⟨r, hw, hi⟩]
    | w32 r =>
      obtain ⟨b3, b2, b1, b0, hw⟩ := exists_bytes_of_word r.toBits
      simp [decodeBytes, bytes_w32 hw, lengthOf_toBits32 hw, decode32_eq_some.mpr ⟨r, hw, hi, hwf⟩]

/-- Settles O57: bytes decode exactly where an encoding stands at their front, and the fields of an encoding decode to an
instruction exactly where it is the instruction's. -/
theorem decodeAndEncodeAgree : Obligations.DecodeAndEncodeAgree := by
  refine ⟨fun i x rest hwf hx => decodeBytes_eq_some.mpr ⟨x, rest, rfl, rfl, instr_eq_some.mpr hx, hwf⟩, ?_⟩
  intro bytes i n h
  obtain ⟨x, rest, rfl, rfl, hi, hwf⟩ := decodeBytes_eq_some.mp h
  exact ⟨hwf, x, instr_eq_some.mp hi, List.take_left.symm⟩

end Sys2Proof
end

