-- ==== Sys2Proof/Proofs/StepRuns.lean ====
section
/-! PROOF. Words of the encoding tables, and the step that fetches, decodes and runs an instruction (R70, R77, R244, R299). -/

namespace Sys2Proof.Machine

/-- Settles O56: each word is a closed term of the decoder, evaluated. -/
theorem decodeWords : Obligations.DecodeWords := by
  unfold Obligations.DecodeWords
  decide +kernel

section fetch

/-- The length code is in the two low bits of the first byte (R3, R70). -/
theorem natOfBytes_mod4 (b : Byte) (l : List Byte) : natOfBytes (b :: l) % 4 = (b.extractLsb' 0 2).toNat := by
  rw [natOfBytes, BitVec.extractLsb'_toNat, Nat.shiftRight_zero]
  omega

/-- Bytes decode to an instruction of four bytes or of two as their length code says (R70). -/
theorem length_of_decodeBytes {bytes : List Byte} {i : Instr} {n : Nat} (h : decodeBytes bytes = some (i, n)) :
    n = 4 ∧ natOfBytes (bytes.take 2) % 4 = 3 ∨ n = 2 ∧ natOfBytes (bytes.take 2) % 4 ≠ 3 := by
  obtain ⟨x, rest, rfl, rfl, -, -⟩ := decodeBytes_eq_some.mp h
  cases x with
  | w32 r =>
    obtain ⟨b3, b2, b1, b0, hw⟩ := exists_bytes_of_word r.toBits
    have hlow : b0.extractLsb' 0 2 = 3 := by
      rw [← extract_low (b3 ++ b2 ++ b1) b0 0 2 (by decide), ← hw]; exact r.toBits_low
    rw [bytes_w32 hw]
    exact .inl ⟨rfl, (natOfBytes_mod4 b0 [b1]).trans (by rw [hlow]; rfl)⟩
  | w16 r =>
    obtain ⟨b1, b0, hw⟩ := exists_bytes_of_half r.toBits
    have hlow : b0.extractLsb' 0 2 = 0 := by
      rw [← extract_low b1 b0 0 2 (by decide), ← hw]; exact r.toBits_low
    rw [bytes_w16 hw]
    exact .inr ⟨rfl, by rw [show (([b0, b1] ++ rest).take 2) = [b0, b1] from rfl, natOfBytes_mod4, hlow]; decide⟩

/-- An address at which a halfword may be fetched (R14, R70). -/
def Tile.inCode (t : Tile) (o : Nat) : Prop := o + 2 ≤ 2 ^ 20 ∧ t.carve.region o = .code

theorem Tile.inCode_eq (t : Tile) (o : Nat) :
    (decide (o + 2 ≤ 2 ^ 20) && t.carve.region o == .code) = true ↔ t.inCode o := by
  simp [inCode]

variable {t : Tile} {pc : Nat}

/-- A halfword outside CODE (R14, R266). -/
theorem fetch_bounds (h : ¬ t.inCode pc) : t.fetch pc = .bounds pc := by
  rw [← t.inCode_eq] at h
  simp only [Tile.fetch, h]; rfl

/-- The second halfword outside CODE (R14, R266). -/
theorem fetch_bounds_second (h : t.inCode pc) (hlen : natOfBytes ((t.sram.readBytes pc 4).take 2) % 4 = 3)
    (h2 : ¬ t.inCode (pc + 2)) : t.fetch pc = .bounds (pc + 2) := by
  rw [← t.inCode_eq] at h h2
  simp only [Tile.fetch, h, h2, hlen]; rfl

/-- A word in CODE (R70). -/
theorem fetch_word (h : t.inCode pc) (hlen : natOfBytes ((t.sram.readBytes pc 4).take 2) % 4 = 3)
    (h2 : t.inCode (pc + 2)) : t.fetch pc = .word (BitVec.ofNat 32 (natOfBytes (t.sram.readBytes pc 4))) 4
      ((decodeBytes (t.sram.readBytes pc 4)).map Prod.fst) := by
  rw [← t.inCode_eq] at h h2
  simp only [Tile.fetch, h, h2, hlen]; rfl

/-- A halfword in CODE (R70). -/
theorem fetch_half (h : t.inCode pc) (hlen : natOfBytes ((t.sram.readBytes pc 4).take 2) % 4 ≠ 3) :
    t.fetch pc = .word (BitVec.ofNat 32 (natOfBytes ((t.sram.readBytes pc 4).take 2))) 2
      ((decodeBytes (t.sram.readBytes pc 4)).map Prod.fst) := by
  rw [← t.inCode_eq] at h
  simp only [Tile.fetch, h, hlen]; rfl

end fetch

/-- A step in which the arbiter offers the cycle to a context that passes no opportunity over runs what it has fetched
(R79, R144, R244, R299). -/
theorem step_issues {s : State} {c : Cur} {det : Bool} {t : Tile} (hpower : s.unpowered = false) (htrip : s.trips = false)
    (hin : s.inputStep = none) (hboot : s.kiln.booting = false) (hstop : s.stopped = false)
    (hbefore : s.stageRow 0 s.rowsBefore = none) (hstage : s.stage ≤ 1) (hissuer : s.issuer = some (c, det, t))
    (hskips : (t.ctx c.ctx).th.skips = 0) (hyield : t.yielding (t.ctx c.ctx) = false) {u : State}
    (hrun : (State.fetchRead { s with stage := 1 } c t).runAt c (t.fetch (t.ctx c.ctx).th.pc.toNat) = .next u) :
    step s = .next (u.afterIssue c det (t.ctx c.ctx)) := by
  have hpass : ¬ ((t.ctx c.ctx).skips || t.yielding (t.ctx c.ctx)) = true := by simp [Ctx.skips, hskips, hyield]
  have hcycle : step s = State.offerTo { s with stage := 1 } c det t := by
    simp only [step, hpower, htrip, hin, hboot, hstop, State.cycleStep, hbefore, hstage, hissuer, if_true]; rfl
  rw [hcycle, State.offerTo]
  dsimp only
  rw [if_neg hpass, hrun]

/-- Settles O58: what the fetch finds in each case, and the step runs it. -/
theorem stepRunsDecoded : Obligations.StepRunsDecoded := by
  intro s c det t hpower htrip hin hboot hstop hbefore hstage hissuer hskips hyield pc s' bytes half code runs
  have hruns {o} (h : s'.runAt c (t.fetch pc) = o) : runs o := fun u hu =>
    step_issues hpower htrip hin hboot hstop hbefore hstage hissuer hskips hyield (h.trans hu)
  refine ⟨fun i h h2 hi => hruns ?_, fun i h hi => hruns ?_, fun h hi => ⟨fun hlen h2 => hruns ?_, fun hlen => hruns ?_⟩,
    fun a ha => hruns ?_⟩
  case refine_1 =>
    have hlen := (length_of_decodeBytes hi).resolve_right fun h => absurd h.1 (by decide)
    rw [fetch_word h hlen.2 h2, hi]; rfl
  case refine_2 =>
    have hlen := (length_of_decodeBytes hi).resolve_left fun h => absurd h.1 (by decide)
    rw [fetch_half h hlen.2, hi]; rfl
  case refine_3 => rw [fetch_word h hlen h2, hi]; rfl
  case refine_4 => rw [fetch_half h hlen, hi]; rfl
  case refine_5 =>
    obtain ⟨h, rfl⟩ | ⟨h, hlen, h2, rfl⟩ := ha
    · rw [fetch_bounds h]; rfl
    · rw [fetch_bounds_second h hlen h2]; rfl

end Sys2Proof.Machine
end

