-- ==== Sys2Proof/Proofs/ControlFlow.lean ====
section
/-! SUPPORT and PROOF. Branches and jumps: target, prediction, wrong path, link and traps (R84, R85, R107, R118 to R121, R146). -/

namespace Sys2Proof.Machine

section branches

variable {s : State} {e : Env} {op : Op} {i : Instr} {a b : GReg} {off : Int} {c : Cond}

/-- The target of a branch or of a jump by an offset lies in the SRAM (R118, R120). -/
def Env.targetInside (e : Env) (off : Int) : Prop := 0 ≤ branchTarget e.c.th.pc off ∧ branchTarget e.c.th.pc off < 2 ^ 20

/-- The thread goes on at pc and is speculative until the third cycle after (R84, R119). -/
def Env.goesOn (e : Env) (op : Op) (pc : BitVec 20) : State :=
  e.put e.t { e.c.atIssue e.s.cycle with
    th := { e.c.th with specUntil := max e.c.th.specUntil (e.s.cycle + 3) }.past op pc }

/-- The thread issues on a wrong path, and what the right path has is kept until the third cycle after (R85, R119). -/
def Env.strays (e : Env) (op : Op) (right wrong : BitVec 20) (stuck : Option TrapInfo) : State :=
  e.put e.t { e.c.atIssue e.s.cycle with
    wrong := some ⟨{ e.c.th with pc := right, retired := e.c.th.retired + 1 }, e.s.cycle + 3, false⟩
    th := { e.c.th with specTrap := stuck }.past op wrong }

/-- What a branch does by whether it is taken and how it is predicted, on the right path and on a wrong one (R84, R85, R118,
R119). -/
def Env.Branches (e : Env) (s : State) (i : Instr) (op : Op) (off : Int) (taken : Bool) : Prop :=
  let there := BitVec.ofInt 20 (branchTarget e.c.th.pc off)
  (taken = true → e.targetInside off → e.c.wrong = none →
    exec i s = .next (if off < 0 then e.goesOn op there else e.strays op there (e.seqPc op) none))
  ∧ (taken = false → e.c.wrong = none →
    exec i s = .next (if off < 0 then
        e.strays op (e.seqPc op) there (if 0 ≤ branchTarget e.c.th.pc off ∧ branchTarget e.c.th.pc off < 2 ^ 20 then none
          else some (trapOf e cBounds 2 0 0))
      else e.goesOn op (e.seqPc op)))
  ∧ ((taken = true → e.targetInside off) → e.c.wrong.isSome →
    exec i s = .next (e.plain op (if off < 0 then there else e.seqPc op)))

theorem needTarget_ok {t : Int} (h : 0 ≤ t ∧ t < 2 ^ 20) : needTarget t = .ok (BitVec.ofInt 20 t) :=
  bind_need (by rw [decide_eq_true h.1, decide_eq_true h.2]; rfl)

theorem needCleanG_ok (h : e.c.th.pg a = false) : needCleanG e a = .ok () := need_pos _ (by simp [h])

@[simp] theorem markWrong_isSome (e : Env) : (markWrong e).c.wrong.isSome = e.c.wrong.isSome := Option.isSome_map

/-- A branch that its prediction has right completes (R84, R119). -/
theorem close_goesOn (e : Env) (op : Op) (pc : BitVec 20) :
    (complete1 op ⟨(markWrong e).withTh { e.c.th with specUntil := max e.c.th.specUntil (e.s.cycle + 3) }, some pc⟩).close
      = e.goesOn op pc := rfl

theorem close_goesOn_seq (e : Env) (op : Op) :
    (complete1 op ⟨(markWrong e).withTh { e.c.th with specUntil := max e.c.th.specUntil (e.s.cycle + 3) }, none⟩).close
      = e.goesOn op (e.seqPc op) := rfl

/-- A branch that its prediction has wrong completes (R85, R119). -/
theorem close_strays (e : Env) (op : Op) (right wrong : BitVec 20) (inside : Bool) :
    (complete1 op { e := mispredict (markWrong e) right (if inside then some wrong else none), pc := some wrong }).close
      = e.strays op right wrong (if inside then none else some (trapOf e cBounds 2 0 0)) := by
  cases inside <;> rfl

theorem close_strays_seq (e : Env) (op : Op) (right : BitVec 20) :
    (complete1 op { e := mispredict (markWrong e) right (some (nextPc (markWrong e) op)) }).close
      = e.strays op right (e.seqPc op) none := rfl

/-- A branch that reads no poisoned register does what Branches says (R118, R119). -/
theorem branches_of_branchIssue (hi : exec i s = branchIssue op a b off c s) (hr : Ready s e op) (ha : e.c.th.pg a = false)
    (hb : e.c.th.pg b = false) : e.Branches s i op off (c.holds (e.c.th.rg a) (e.c.th.rg b)) := by
  have hclean {α : Type} (f : Except Stop α) :
      (needCleanG (markWrong e) a >>= fun _ => needCleanG (markWrong e) b >>= fun _ => f) = f :=
    (bind_ok (needCleanG_ok (e := markWrong e) ha)).trans (bind_ok (needCleanG_ok (e := markWrong e) hb))
  have hsome (hw : e.c.wrong = none) : ¬ (markWrong e).c.wrong.isSome = true := by simp [hw]
  rw [Env.Branches, hi]
  refine ⟨fun ht hin hw => ?_, fun ht hw => ?_, fun hin hw => ?_⟩
  · by_cases ho : off < 0
    · rw [if_pos ho, ← close_goesOn]
      refine issue_done hr ((hclean _).trans ((if_pos ht).trans ((bind_ok (needTarget_ok hin)).trans ?_)))
      rw [if_neg (hsome hw), if_pos (decide_eq_true ho)]
      rfl
    · rw [if_neg ho, ← close_strays_seq]
      refine issue_done hr ((hclean _).trans ((if_pos ht).trans ((bind_ok (needTarget_ok hin)).trans ?_)))
      rw [if_neg (hsome hw), if_neg (by simpa using ho)]
      rfl
  · have ht : ¬ c.holds (e.c.th.rg a) (e.c.th.rg b) = true := by simp [ht]
    by_cases ho : off < 0
    · have hin : (decide (0 ≤ branchTarget e.c.th.pc off) && decide (branchTarget e.c.th.pc off < 2 ^ 20)) = true
          ↔ 0 ≤ branchTarget e.c.th.pc off ∧ branchTarget e.c.th.pc off < 2 ^ 20 := by
        rw [Bool.and_eq_true, decide_eq_true_eq, decide_eq_true_eq]
      rw [if_pos ho]
      simp only [← hin]
      rw [← close_strays]
      refine issue_done hr ((hclean _).trans ((if_neg ht).trans ?_))
      rw [if_neg (hsome hw), if_pos (decide_eq_true ho)]
      rfl
    · rw [if_neg ho, ← close_goesOn_seq]
      refine issue_done hr ((hclean _).trans ((if_neg ht).trans ?_))
      rw [if_neg (hsome hw), if_neg (by simpa using ho)]
      rfl
  · have hw : (markWrong e).c.wrong.isSome = true := by simpa using hw
    have hpc : (complete1 op ⟨markWrong e,
          if decide (off < 0) then some (BitVec.ofInt 20 (branchTarget e.c.th.pc off)) else none⟩).close
        = e.plain op (if off < 0 then BitVec.ofInt 20 (branchTarget e.c.th.pc off) else e.seqPc op) := by
      by_cases ho : off < 0
      · rw [if_pos ho, if_pos (decide_eq_true ho)]; exact close_plainPc e op _
      · rw [if_neg ho, if_neg (by simpa using ho)]; exact close_plain e op
    rw [← hpc]
    refine issue_done hr ((hclean _).trans ?_)
    by_cases ht : c.holds (e.c.th.rg a) (e.c.th.rg b) = true
    · refine (if_pos ht).trans ((bind_ok (needTarget_ok (hin ht))).trans ?_)
      rw [if_pos hw]
      rfl
    · refine (if_neg ht).trans ?_
      rw [if_pos hw]
      rfl

/-- The check of a target that a branch or a jump by an offset takes (R118, R120, R383). -/
def Env.targetCheck (e : Env) (takes : Prop) (off : Int) : Check :=
  ⟨takes → e.targetInside off, cBounds, 2, BitVec.ofInt 64 (branchTarget e.c.th.pc off), 0⟩

theorem needTarget_checked {takes : Prop} (h : takes) (off : Int) : Checked [e.targetCheck takes off]
    (needTarget (branchTarget e.c.th.pc off)) (.ok (BitVec.ofInt 20 (branchTarget e.c.th.pc off))) :=
  checked_need (c := e.targetCheck takes off) (by simp [Env.targetCheck, Env.targetInside, h]) fun _ => checked_nil _

/-- A part of an instruction that makes checks, before a part that makes some. -/
theorem exists_checked_bind {α β : Type} {m : Except Stop α} {x : α} {f : α → Except Stop β} {l k : List Check}
    (h : Checked l m (.ok x)) (hk : ∃ r, Checked k (f x) r) : ∃ r, Checked (l ++ k) (m >>= f) r :=
  hk.elim fun r hr => ⟨r, checked_bind h fun _ => hr⟩

/-- A branch checks the registers that it reads, and its target where it takes it (R78, R118). -/
theorem branchIssue_traps (hi : exec i s = branchIssue op a b off c s) {takes : Prop} {l : List Check}
    (ht : c.holds (e.c.th.rg a) (e.c.th.rg b) = true ↔ takes) (hb : Checked l (needCleanG e b) (.ok ())) :
    e.Traps s i op (e.cleanCheck a :: (l ++ [e.targetCheck takes off])) := by
  refine traps_of_checked hi fun _ _ => exists_checked_bind (l := [_]) (needCleanG_checked e a) (exists_checked_bind hb ?_)
  by_cases hc : c.holds (e.c.th.rg a) (e.c.th.rg b) = true
  · rw [if_pos hc]
    exact ⟨_, checked_last (needTarget_checked (ht.mp hc) off)⟩
  · rw [if_neg hc]
    exact ⟨_, checked_pass (fun h => absurd (ht.mpr h) hc) (checked_nil _)⟩

end branches

section jumps

variable {s : State} {e : Env} {op : Op} {i : Instr} {d a : GReg} {off : Int} {imm : BitVec 11}

/-- The thread with the link of a jump, of which g0 takes none (R107, R120, R121). -/
def Env.linked (e : Env) (op : Op) (d : GReg) (major : Nat) : Thread :=
  if d = 0 then e.c.th
  else e.c.th.addPend { e.pending op 1 true [.g d ((e.seqPc op).setWidth 64) false] 0 with major := major }

/-- The issue of a jump as it adds its link (R107). -/
theorem linked_eq (e : Env) (op : Op) (d : GReg) (major : Nat) :
    (if d = 0 then markWrong e else (markWrong e).fixed 1 [.g d (linkOf (markWrong e) op) false] 0 major)
      = (markWrong e).withTh (e.linked op d major) := by
  unfold Env.linked
  split <;> rfl

/-- A jump completes (R79, R120). -/
theorem close_jal (e : Env) (op : Op) (d : GReg) (major : Nat) (pc : BitVec 20) :
    (complete1 op ⟨(markWrong e).withTh (e.linked op d major), some pc⟩).close
      = e.put e.t { e.c.atIssue e.s.cycle with th := (e.linked op d major).past op pc } := by
  unfold Env.linked
  split <;> rfl

/-- JAL and C.J to a target in the SRAM (R120). -/
theorem jalIssue_next (hi : exec i s = jalIssue op d off s) (hr : Ready s e op) (hin : e.targetInside off) :
    exec i s = .next (e.put e.t { e.c.atIssue e.s.cycle with
      th := (e.linked op d 6).past op (BitVec.ofInt 20 (branchTarget e.c.th.pc off)) }) := by
  rw [hi, ← close_jal]
  refine issue_done hr ((bind_ok (needTarget_ok hin)).trans ?_)
  rw [← linked_eq]
  rfl

theorem jal_traps (hi : exec i s = jalIssue op d off s) : e.Traps s i op [e.targetCheck True off] :=
  traps_of_checked hi fun _ _ => ⟨_, checked_last (needTarget_checked trivial off)⟩

/-- The checks of a jump through a register (R121, R146, R383; log 14). -/
def Env.jumpChecks (e : Env) (a : GReg) (to_ : Word) : List Check :=
  [e.cleanCheck a, ⟨to_.toNat < 2 ^ 20, cBounds, 2, to_, 0⟩,
    ⟨to_.toNat % 2 = 0, cMisalign, 0, to_, e.t.access to_.toNat 0 0⟩]

theorem jumpTarget_checked (e : Env) (a : GReg) (imm : BitVec 11) :
    Checked (e.jumpChecks a (e.c.th.rg a + simm imm)) (jumpTarget e a imm)
      (.ok ((e.c.th.rg a + simm imm).setWidth 20)) := by
  have hlt := (e.c.th.rg a + simm imm).isLt
  refine checked_bind (l := [_]) (needCleanG_checked e a) fun _ =>
    checked_need (c := ⟨(e.c.th.rg a + simm imm).toNat < 2 ^ 20, cBounds, 2, _, 0⟩) ?_ fun _ =>
      checked_need (c := ⟨(e.c.th.rg a + simm imm).toNat % 2 = 0, cMisalign, 0, _, _⟩) ?_ fun _ => checked_nil _
  · rw [decide_eq_true_eq, fld]
    omega
  · rw [decide_eq_true_eq, fld]
    omega

/-- A jump through a register completes (R79, R121). -/
theorem close_jr (e : Env) (op : Op) (d : GReg) (major : Nat) (pc : BitVec 20) :
    let u := (markWrong e).withTh (e.linked op d major)
    (complete1 op ⟨{ u with c := { u.c with notBefore := max u.c.notBefore (u.now + 3) } }, some pc⟩).close
      = e.put e.t { e.c.atIssue e.s.cycle with
          notBefore := max e.c.notBefore (e.s.cycle + 3), th := (e.linked op d major).past op pc } := by
  unfold Env.linked
  split <;> rfl

/-- JALR, JR and C.RET to an even target in the SRAM (R121). -/
theorem jrIssue_next (hi : exec i s = jrIssue op d a imm s) (hr : Ready s e op) (ha : e.c.th.pg a = false)
    (hin : (e.c.th.rg a + simm imm).toNat < 2 ^ 20) (heven : (e.c.th.rg a + simm imm).toNat % 2 = 0) :
    exec i s = .next (e.put e.t { e.c.atIssue e.s.cycle with
      notBefore := max e.c.notBefore (e.s.cycle + 3)
      th := (e.linked op d 7).past op ((e.c.th.rg a + simm imm).setWidth 20) }) := by
  have hok : jumpTarget (markWrong e) a imm = .ok ((e.c.th.rg a + simm imm).setWidth 20) :=
    (jumpTarget_checked (markWrong e) a imm).passes (List.forall_mem_cons.mpr ⟨ha,
      List.forall_mem_cons.mpr ⟨hin, by simpa using heven⟩⟩)
  rw [hi, ← close_jr]
  refine issue_done hr ((bind_ok hok).trans ?_)
  rw [← linked_eq]
  rfl

theorem jr_traps (hi : exec i s = jrIssue op d a imm s) : e.Traps s i op (e.jumpChecks a (e.c.th.rg a + simm imm)) :=
  traps_of_checked hi fun _ _ => ⟨_, checked_last (jumpTarget_checked e a imm)⟩

/-- SPAWN checks its target as a jump through a register does (R146). -/
theorem spawn_traps {st : Stall} : e.Traps s (.spawn st d a imm) (opSync st .slots [.g a, .g 4, .g 5, .g 6, .g 7, .g 8, .g 9])
    (e.jumpChecks a (e.c.th.rg a + simm imm)) :=
  traps_of_checked rfl fun _ _ => ⟨_, checked_last (jumpTarget_checked e a imm)⟩

end jumps

/-- Settles O4: a branch by its condition and its prediction, a jump by its target, and the checks that come before. -/
theorem controlFlowResults : Obligations.ControlFlowResults := by
  refine ⟨fun s e st a b off d imm => ⟨fun hr ha hb => ?_, fun hr hd => ?_⟩,
    fun s e st d a off off10 imm => ⟨fun hr h0 h1 => ?_, fun hr h0 h1 => ?_,
      fun hr ha => ⟨fun hin heven => ?_, fun hin heven => ?_⟩, fun hr ha hin heven => ?_⟩,
    fun s e st d a b off far off10 imm near => ?_⟩
  · have branch {i : Instr} {c : Cond} (hi : exec i s = br32 st a b off c s) :
        e.Branches s i (op32 st .all false 5 [.g a, .g b]) off.toInt (c.holds (e.c.th.rg a) (e.c.th.rg b)) :=
      branches_of_branchIssue hi hr ha hb
    have hne : decide (e.c.th.rg a ≠ e.c.th.rg b) = Cond.ne.holds (e.c.th.rg a) (e.c.th.rg b) := decide_not
    refine ⟨branch (c := .eq) rfl, ?_, branch (c := .lt) rfl, branch (c := .ge) rfl,
      branch (c := .ltu) rfl, branch (c := .geu) rfl⟩
    rw [hne]
    exact branch (c := .ne) rfl
  · have branch {i : Instr} {c : Cond} (hi : exec i s = branchIssue (op16 0 5 [.g d]) d 0 imm.toInt c s) :
        e.Branches s i (op16 0 5 [.g d]) imm.toInt (c.holds (e.c.th.rg d) 0) :=
      branches_of_branchIssue hi hr hd rfl
    have hne : decide (e.c.th.rg d ≠ 0) = Cond.ne.holds (e.c.th.rg d) 0 := decide_not
    refine ⟨branch (c := .eq) rfl, ?_⟩
    rw [hne]
    exact branch (c := .ne) rfl
  · exact jalIssue_next rfl hr ⟨h0, h1⟩
  · exact jalIssue_next rfl hr ⟨h0, h1⟩
  · exact jrIssue_next rfl hr ha hin heven
  · exact jrIssue_next rfl hr ha hin heven
  · have hret : e.c.th.rg 15 + simm 0 = e.c.th.rg 15 := by simp [simm]
    rw [← hret] at hin heven ⊢
    exact jrIssue_next rfl hr ha hin heven
  · have branch {i : Instr} {c : Cond} {takes : Prop} (hi : exec i s = br32 st a b off c s)
        (ht : c.holds (e.c.th.rg a) (e.c.th.rg b) = true ↔ takes) : e.Traps s i (op32 st .all false 5 [.g a, .g b])
          [e.cleanCheck a, e.cleanCheck b, e.targetCheck takes off.toInt] :=
      branchIssue_traps hi ht (needCleanG_checked e b)
    have compact {i : Instr} {c : Cond} {takes : Prop} (hi : exec i s = branchIssue (op16 0 5 [.g d]) d 0 near.toInt c s)
        (ht : c.holds (e.c.th.rg d) 0 = true ↔ takes) : e.Traps s i (op16 0 5 [.g d])
          [e.cleanCheck d, e.targetCheck takes near.toInt] := branchIssue_traps hi ht (checked_nil _)
    have hret : e.c.th.rg 15 + simm 0 = e.c.th.rg 15 := by simp [simm]
    exact ⟨branch (c := .eq) rfl (by simp [Cond.holds]), branch (c := .ne) rfl (by simp [Cond.holds]),
      branch (c := .lt) rfl (by simp [Cond.holds]), branch (c := .ge) rfl (by simp [Cond.holds]),
      branch (c := .ltu) rfl (by simp [Cond.holds]), branch (c := .geu) rfl (by simp [Cond.holds]),
      compact (c := .eq) rfl (by simp [Cond.holds]), compact (c := .ne) rfl (by simp [Cond.holds]),
      jal_traps rfl, jal_traps rfl, jr_traps rfl, jr_traps rfl, hret ▸ jr_traps rfl, spawn_traps⟩

end Sys2Proof.Machine
end

