-- ==== Sys2Proof/Proofs/IssueChecks.lean ====
section
/-! SUPPORT and PROOF. What comes before an instruction's own effect: the holds, and the checks of R78 (R75, R80, R82, R84). -/

namespace Sys2Proof.Machine

section issueChecks

variable {s : State} {e : Env} {i : Instr} {op : Op} {body : Env → Except Stop Res1}

/-- A register that the instruction reads waits for an interlocked result (R80). -/
def Env.awaits (e : Env) (op : Op) : Prop :=
  ∃ r ∈ op.reads, r.isZero = false ∧ ∃ p, newestPend r e.c.th.pend = some p ∧ p.fixed = false

theorem readHeld_iff : readHeld e op = true ↔ e.awaits op := by
  rw [readHeld, List.any_eq_true]
  refine exists_congr fun r => and_congr_right fun _ => ?_
  cases hn : newestPend r e.c.th.pend <;> simp

theorem heldEarly_iff : heldEarly e op = true ↔ op.waits = true ∧ e.speculative = true ∨ e.awaits op := by
  rw [heldEarly, Bool.or_eq_true, Bool.and_eq_true, readHeld_iff]

/-- Off a wrong path an instruction that awaits no register is not held before its checks (R80, R84). -/
theorem not_heldEarly (hw : ¬ e.awaits op) (hsp : e.speculative = false) : heldEarly e op = false := by
  rw [← Bool.not_eq_true, heldEarly_iff]
  simp [hw, hsp]

/-- A thread all of whose results have landed awaits no register. -/
theorem not_awaits_of_nil (h : e.c.th.pend = []) (op : Op) : ¬ e.awaits op := by
  rintro ⟨r, -, -, p, hp, -⟩
  rw [h] at hp
  cases hp

/-- An SV-only instruction in another context (R75, R78). -/
theorem precheck_priv (h : op.who = .svOnly) (hx : e.s.cur.ctx ≠ 17) :
    precheck e op = .error (.trap cPriv 0 (e.s.bits.setWidth 64) 0) :=
  bind_fail (by simp [h, hx, Env.me])

/-- An instruction outside its kinds (R75, R78). -/
theorem precheck_phase (h : op.who ≠ .svOnly) (hw : op.who.ok e.s.cur.ctx = false) :
    precheck e op = .error (.trap cPhase 0 (e.s.bits.setWidth 64) 0) :=
  (bind_need (by simp [h])).trans (bind_fail hw)

/-- Of the registers that an instruction reads the first whose fixed-latency result has not landed (R82; log 77). -/
theorem shortRead_eq {before rest : List RegId} {r : RegId} {p : Pend} (hreads : op.reads = before ++ r :: rest)
    (hb : ∀ q ∈ before, q.isZero = true ∨ newestPend q e.c.th.pend = none) (hz : r.isZero = false)
    (hp : newestPend r e.c.th.pend = some p) (hf : p.fixed = true) : shortRead e op = some (r, p) := by
  rw [shortRead, hreads, List.findSome?_append, List.findSome?_eq_none_iff.mpr fun q hq => ?_]
  · simp [hz, hp, hf]
  · obtain h | h := hb q hq <;> simp [h]

/-- STALL-SHORT under STALLCHK (R78, R82, R266). -/
theorem precheck_stall {r : RegId} {p : Pend} {l : Nat} (hx : e.s.cur.ctx ≠ 17) (hw : op.who.ok e.s.cur.ctx = true)
    (hs : e.t.stallchk = true) (hr : shortRead e op = some (r, p)) (hl : p.land = some l) :
    precheck e op = .error (.trap cStall 0 (r.word 0) (w64 (p.pc.toNat + 2 ^ 20 * (l - e.s.cycle) + 2 ^ 24 * p.major))) := by
  have hsv : op.who ≠ .svOnly := by
    intro h
    rw [h] at hw
    exact hx (by simpa [Who.ok] using hw)
  refine (bind_need (by simp [hsv])).trans ((bind_need hw).trans ?_)
  rw [if_pos hs, hr]
  simp only [shortWord, hl, Option.getD_some, Env.now, Nat.mul_comm]

/-- An SV-only instruction raises PRIVILEGE in any other context (R75, R78). -/
theorem traps_priv (hi : exec i s = issue s op body) (h : s.env? = some e) (hw : ¬ e.awaits op) (hsp : e.speculative = false)
    (hx : e.s.cur.ctx ≠ 17) (hwho : op.who = .svOnly) : exec i s = .next (e.trapped cPriv 0 (e.s.bits.setWidth 64) 0) :=
  hi.trans (precheck_trap h (not_heldEarly hw hsp) hsp hx (precheck_priv hwho hx))

/-- An instruction outside its kinds raises PHASE-ILLEGAL (R75, R78). -/
theorem traps_phase (hi : exec i s = issue s op body) (h : s.env? = some e) (hw : ¬ e.awaits op) (hsp : e.speculative = false)
    (hx : e.s.cur.ctx ≠ 17) (hwho : op.who ≠ .svOnly) (hok : op.who.ok e.s.cur.ctx = false) :
    exec i s = .next (e.trapped cPhase 0 (e.s.bits.setWidth 64) 0) :=
  hi.trans (precheck_trap h (not_heldEarly hw hsp) hsp hx (precheck_phase hwho hok))

/-- An instruction is issued as one that certain contexts may issue (R75). -/
def IssuedBy (w : Who) (s : State) (i : Instr) : Prop := ∃ op body, exec i s = issue s op body ∧ op.who = w

variable (s) (st : Stall) (a b d : GReg) (v : VReg) (n : AccReg) (o : XOrd) (f : CombOp) (z : Bool) (off : BitVec 11)

/-- The instructions that only SV may issue (R242). -/
theorem issuedBy_svOnly : ∀ i ∈ [Instr.eret st, .eretEnd st], IssuedBy .svOnly s i := by
  simp only [List.forall_mem_cons]
  exact ⟨⟨_, _, rfl, rfl⟩, ⟨_, _, rfl, rfl⟩, List.forall_mem_nil _⟩

/-- The exchange instructions (R198). -/
theorem issuedBy_xcOnly : ∀ i ∈ [Instr.xsend st a b, .xmcast st a b, .xget st o a b, .xput st o a b, .xcomb st f o a b,
    .xroute st a b, .xclose st, .xrecv st a, .xrecvRoute st a, .xend st, .xwait st a, .xwaitRecv st a], IssuedBy .xcOnly s i := by
  simp only [List.forall_mem_cons]
  refine ⟨?_, ?_, ?_, ?_, ?_, ?_, ?_, ?_, ?_, ?_, ?_, ?_, List.forall_mem_nil _⟩
  all_goals exact ⟨_, _, rfl, rfl⟩

/-- The instructions that only a compute slot may issue (R75). -/
theorem issuedBy_slots : ∀ i ∈ [Instr.sync st, .tend st, .yield st, .tbar st, .spawn st d a off, .bwait st a off,
    .await st d a off, .idle st d a], IssuedBy .slots s i := by
  simp only [List.forall_mem_cons]
  refine ⟨?_, ?_, ?_, ?_, ?_, ?_, ?_, ?_, List.forall_mem_nil _⟩
  all_goals exact ⟨_, _, rfl, rfl⟩

/-- The vector memory and matrix instructions (R75). -/
theorem issuedBy_notXc : ∀ i ∈ [Instr.vld st v a off, .vst st v a off, .vlds st v a off, .vsts st v a off,
    .vgath st v a off, .vscat st v a off, .mma st n a b z, .mmat st n a b z, .mmas st n a b z, .mzero st n,
    .mld st n a, .mst st n a, .macc st n n, .mwait st n, .mwaitAll st, .mstat st d n z], IssuedBy .notXc s i := by
  simp only [List.forall_mem_cons]
  refine ⟨?_, ?_, ?_, ?_, ?_, ?_, ?_, ?_, ?_, ?_, ?_, ?_, ?_, ?_, ?_, ?_, List.forall_mem_nil _⟩
  all_goals exact ⟨_, _, rfl, rfl⟩

end issueChecks

/-- Settles O54: what the issue holds, what its checks raise, and the kinds of the instructions that not every context may
issue. -/
theorem issueChecks : Obligations.IssueChecks := by
  refine ⟨fun s e i op body h hi => ⟨fun hh => ?_, fun hw hsp hx => ⟨fun hwho => ?_, fun hwho hok => ?_, ?_⟩⟩,
    fun s e st a b d v n o f z off h hpend hsp => ⟨fun hx => ?_, fun hx => ?_, fun hx => ?_⟩⟩
  · exact hi.trans (issue_heldEarly h (heldEarly_iff.mpr hh))
  · exact traps_priv hi h hw hsp hx hwho
  · exact traps_phase hi h hw hsp hx hwho hok
  · intro before r rest p l hok hs hreads hb hz hp hf hl
    exact hi.trans (precheck_trap h (not_heldEarly hw hsp) hsp hx (precheck_stall hx hok hs (shortRead_eq hreads hb hz hp hf) hl))
  · intro i hi
    obtain ⟨op, body, hi, hwho⟩ := issuedBy_svOnly s st i hi
    exact traps_priv hi h (not_awaits_of_nil hpend op) hsp hx hwho
  · intro i hi
    obtain ⟨op, body, hi, hwho⟩ := issuedBy_xcOnly s st a b o f i hi
    refine traps_phase hi h (not_awaits_of_nil hpend op) hsp (by omega) (by rw [hwho]; decide) ?_
    rw [hwho]
    exact beq_false_of_ne (by omega)
  · have hall := List.forall_mem_append.mpr ⟨fun i hi => Or.inl (issuedBy_slots s st a d off i hi),
      fun i hi => Or.inr (issuedBy_notXc s st a b d v n z off i hi)⟩
    intro i hi
    obtain ⟨op, body, hi, hwho⟩ | ⟨op, body, hi, hwho⟩ := hall i hi
    · exact traps_phase hi h (not_awaits_of_nil hpend op) hsp (by omega) (by rw [hwho]; decide) (by rw [hwho, hx]; rfl)
    · exact traps_phase hi h (not_awaits_of_nil hpend op) hsp (by omega) (by rw [hwho]; decide) (by rw [hwho, hx]; rfl)

end Sys2Proof.Machine
end

