-- ==== Sys2Proof/Proofs/TrapEntry.lean ====
section
/-! PROOF. The entry of a trap into SV, and the journal trap of a refused put (R83, R210, R234, R261 to R268; log 81). -/

namespace Sys2Proof.Machine

section entry

variable {s : State} {dom rank : Nat} {d : Domain} {t : Tile} {x : TrapInfo} {rest : List TrapInfo}

/-- The first trap is due when SV is free and what the trapped context has under way is done (R83, R261). -/
theorem trapDue_eq {now : Nat} (ht : t.traps = x :: rest) (hs : t.serving = none) (hr : (t.ctx 17).run = .free)
    (hx : x.raisedAt < now) (hf : t.svFree < now ∨ t.svFree = 0) (hsb : (t.ctx x.ctx).sb = [])
    (hp : (t.ctx x.ctx).th.pend = []) : t.trapDue now = some x := by
  unfold Tile.trapDue
  rw [ht]
  exact if_pos (by simpa [hs, hr, hx, hsb, hp] using hf)

/-- TCAUSE by its fields (R265). -/
theorem trapWord_eq (x : TrapInfo) : x.word = w64 (x.cause + 2 ^ 8 * x.ctx + (if x.async then 2 ^ 13 else 0)
    + (if x.xended then 2 ^ 14 else 0) + 2 ^ 16 * x.form) := by
  have hb (b : Bool) (n : Nat) : b2n b * n = if b then n else 0 := by cases b <;> simp [b2n]
  rw [TrapInfo.word, hb, hb]
  congr 1
  omega

/-- An offset as a doubleword. -/
theorem w64_toNat {n : Nat} (x : BitVec n) : w64 x.toNat = x.setWidth 64 := BitVec.eq_of_toNat_eq (by simp [w64])

/-- TRAP_ENTRY where the first trap is due (R262). -/
theorem trapEntry_next (h : s.at_ dom rank d t) (hd : t.trapDue s.cycle = some x) (ht : t.traps = x :: rest) :
    exec (.trapEntry dom rank) s = .next (s.setDom dom (d.setTile rank (t.takeTrap x rest))) :=
  tileEvent_next h (by simp [hd, ht])

/-- A refusal is due where XC stands at an issue opportunity, or has ended and waits for no other trap (R210, R268; log 81). -/
theorem journalDue_eq {now j : Nat} {l : List Nat} (hj : t.refusals = j :: l)
    (h : ((t.ctx 16).run = .ready ∧ (t.ctx 16).spent ≤ now ∧ (t.ctx 16).notBefore ≤ now ∧ (t.ctx 16).busy = .none
        ∧ (t.ctx 16).wrong = none ∧ (t.ctx 16).th.specTrap = none ∧ (t.ctx 16).th.specUntil ≤ now)
      ∨ (t.xended = true ∧ (t.ctx 16).run = .free ∧ (∀ y ∈ t.traps, y.ctx ≠ 16)
        ∧ (∀ y, t.serving = some y → y.ctx ≠ 16))) :
    t.journalDue now = some j := by
  unfold Tile.journalDue
  rw [hj]
  refine if_pos ?_
  obtain ⟨hr, hs, hn, hb, hw, ht, hu⟩ | ⟨hx, hr, ht, hs⟩ := h
  · simp [hr, hs, hn, hb, hw, ht, hu]
  · cases hserv : t.serving with
    | none => simpa [hx, hr] using ht
    | some y => simpa [hx, hr, hs y hserv] using ht

/-- The asynchronous trap of the refused put in place j of the journal (R210, R234, R268). -/
def Tile.journalTrap (t : Tile) (now j : Nat) (x : JEntry) : TrapInfo where
  cause := cJournal
  form := 0
  tval := w64 j
  tval2 := w64 (3 + x.cause * 2 ^ 8 + x.fblk * 2 ^ 16 + x.nblk * 2 ^ 32 + x.seq * 2 ^ 48)
  ctx := 16
  async := true
  xended := t.xended
  tepc := (t.ctx 16).th.pc
  raisedAt := now

/-- A context that has raised a trap is stopped at its instruction, with its registers kept (R261). -/
theorem raise_ctx (t : Tile) {x : TrapInfo} (hx : x.ctx < 18) : (t.raise x).ctx x.ctx =
    { t.ctx x.ctx with
      th := { (t.ctx x.ctx).th with skips := 0 }, run := .trapped, busy := .none, wblk := 0, barrier := none, idle := none } := by
  have hmark : (t.trapMark x).ctx x.ctx = t.ctx x.ctx := by unfold Tile.trapMark; split <;> rfl
  exact (ctx_setCtx_self _ _ hx).trans (by rw [hmark])

/-- JOURNAL where a refusal is due (R268). -/
theorem journal_next {j : Nat} {l : List Nat} {x : JEntry} (h : s.at_ dom rank d t) (hj : t.refusals = j :: l)
    (hfind : t.journal.find j = some x) (hdue : t.journalDue s.cycle = some j) : exec (.journal dom rank) s
      = .next (s.setDom dom (d.setTile rank (({ t with refusals := l } : Tile).raise (t.journalTrap s.cycle j x)))) := by
  have hxc : (t.journalTrap s.cycle j x).ctx ≠ 17 := (by decide : 16 ≠ 17)
  change execJournal dom rank s = _
  unfold execJournal
  rw [tile?_of_at h]
  simp only [Option.bind_some, hdue, Option.map_some, hfind]
  refine congrArg _ ((raiseTrap_slot (x := t.journalTrap s.cycle j x) hxc).trans ?_)
  rw [updTile_of_at h, updTile_of_at (at_setDom ..), setTile_setTile, setDom_setDom, hj]
  rfl

end entry

/-- Settles O39: SV takes the first trap that is due, and a refusal that is due raises JOURNAL. -/
theorem trapEntryEvents : Obligations.TrapEntryEvents := by
  refine fun s dom rank d t h => ⟨fun x rest ht hs hr hx hf hlt hsb hp => ?_, fun j rest x hj hfind hdue => ?_⟩
  · refine ⟨_, trapEntry_next h (trapDue_eq ht hs hr hx hf hsb hp) ht, trapWord_eq x, w64_toNat x.tepc, rfl, rfl, rfl, rfl,
      ctx_setCtx_self t _ (by decide), fun j hj => ctx_setCtx_ne t _ hj.symm, rfl, rfl, rfl⟩
  · have hctx := raise_ctx { t with refusals := rest } (x := t.journalTrap s.cycle j x) (by decide : 16 < 18)
    refine ⟨_, journal_next h hj hfind (journalDue_eq hj hdue), rfl, congrArg Ctx.run hctx, congrArg Ctx.th hctx, rfl,
      t.journalTrap s.cycle j x, mem_insTrap.mpr (.inl rfl), rfl, rfl, rfl, rfl, rfl, ?_⟩
    simp only [Tile.journalTrap, Nat.mul_comm]

end Sys2Proof.Machine
end

