-- ==== Sys2Proof/Proofs/ResultAndStore.lean ====
section
/-! SUPPORT and PROOF. The landing of a result, the performing of a store, the cycles of a BFILL, and what no wake changes of a
tile's contexts (R27, R80, R81, R124, R126, R131, R148, R229, R244). -/

namespace Sys2Proof.Machine

section landing

variable (th : Thread)

theorem write_k (n : KReg) (x : KWord) : th.write (.k n x) = if n = 0 then th else { th with k := th.k.set n x } := rfl

/-- What no register write changes of a thread. -/
theorem write_keep {γ : Type} (f : Thread → γ)
    (hf : ∀ (th : Thread) g gp v vp k e, f { th with g, gp, v, vp, k, e } = f th) (w : RegWrite) : f (th.write w) = f th := by
  cases w with
  | g n w p => exact write_g_keep f (fun th g gp => hf th g gp th.v th.vp th.k th.e) th n w p
  | v n w p => exact hf th th.g th.gp _ _ th.k th.e
  | k n w =>
    rw [write_k]
    split
    · rfl
    · exact hf th th.g th.gp th.v th.vp _ th.e
  | e n w => exact hf th th.g th.gp th.v th.vp th.k _

/-- What none of several writes changes stands after them all. -/
theorem writes_keep {γ : Type} (f : Thread → γ) {l : List RegWrite} (h : ∀ th, ∀ w ∈ l, f (th.write w) = f th) :
    f (th.writes l) = f th := by
  induction l generalizing th with
  | nil => rfl
  | cons w l ih => exact (ih _ fun th w hw => h th w (List.mem_cons_of_mem _ hw)).trans (h th w List.mem_cons_self)

theorem writes_singleton (w : RegWrite) : th.writes [w] = th.write w := rfl

theorem rv_write (n m : VReg) (x : VWord) (p : KWord) : (th.write (.v n x p)).rv m = if n = m then x else th.rv m :=
  (Vector.getElem_set n.isLt m.isLt).trans (if_congr Fin.ext_iff.symm rfl rfl)

theorem pv_write (n m : VReg) (x : VWord) (p : KWord) : (th.write (.v n x p)).pv m = if n = m then p else th.pv m :=
  (Vector.getElem_set n.isLt m.isLt).trans (if_congr Fin.ext_iff.symm rfl rfl)

theorem re_write (n m : EReg) (x : Word) : (th.write (.e n x)).re m = if n = m then x else th.re m :=
  (Vector.getElem_set n.isLt m.isLt).trans (if_congr Fin.ext_iff.symm rfl rfl)

theorem rk_write (n m : KReg) (x : KWord) : (th.write (.k n x)).rk m = if n = m ∧ m ≠ 0 then x else th.rk m := by
  rw [write_k]
  by_cases hm : m = 0
  · simp [Thread.rk, hm]
  · by_cases hn : n = 0
    · rw [if_pos hn, if_neg fun h => hm (h.1.symm.trans hn)]
    · rw [if_neg hn, Thread.rk, if_neg hm, Thread.rk, if_neg hm]
      refine (Vector.getElem_set n.isLt m.isLt).trans (if_congr ?_ rfl rfl)
      rw [Fin.ext_iff, and_iff_left hm]

theorem write_other_g {n : GReg} {w : RegWrite} (h : w.id ≠ .g n) :
    (th.write w).rg n = th.rg n ∧ (th.write w).pg n = th.pg n := by
  cases w with
  | g m x p =>
    have hm : m ≠ n := fun he => h (congrArg RegId.g he)
    rw [rg_write, pg_write, if_neg fun he => hm he.1, if_neg fun he => hm he.1]
    exact ⟨rfl, rfl⟩
  | v m x p => exact ⟨rfl, rfl⟩
  | k m x =>
    rw [write_k]
    split <;> exact ⟨rfl, rfl⟩
  | e m x => exact ⟨rfl, rfl⟩

theorem write_other_v {n : VReg} {w : RegWrite} (h : w.id ≠ .v n) :
    (th.write w).rv n = th.rv n ∧ (th.write w).pv n = th.pv n := by
  cases w with
  | g m x p =>
    rw [write_g]
    split <;> exact ⟨rfl, rfl⟩
  | v m x p =>
    have hm : m ≠ n := fun he => h (congrArg RegId.v he)
    rw [rv_write, pv_write, if_neg hm, if_neg hm]
    exact ⟨rfl, rfl⟩
  | k m x =>
    rw [write_k]
    split <;> exact ⟨rfl, rfl⟩
  | e m x => exact ⟨rfl, rfl⟩

theorem write_other_k {n : KReg} {w : RegWrite} (h : w.id ≠ .k n) : (th.write w).rk n = th.rk n := by
  cases w with
  | g m x p =>
    rw [write_g]
    split <;> rfl
  | v m x p => rfl
  | k m x => rw [rk_write, if_neg fun he => h (congrArg RegId.k he.1)]
  | e m x => rfl

theorem write_other_e {n : EReg} {w : RegWrite} (h : w.id ≠ .e n) : (th.write w).re n = th.re n := by
  cases w with
  | g m x p =>
    rw [write_g]
    split <;> rfl
  | v m x p => rfl
  | k m x =>
    rw [write_k]
    split <;> rfl
  | e m x => rw [re_write, if_neg fun he => h (congrArg RegId.e he)]

variable (p : Pend)

/-- A register that a result does not name keeps its value and its poison when the result lands (R80, R81). -/
theorem land_others :
    (∀ n, (∀ v b, RegWrite.g n v b ∉ p.writes) → (th.land p).rg n = th.rg n ∧ (th.land p).pg n = th.pg n)
      ∧ (∀ n, (∀ v b, RegWrite.v n v b ∉ p.writes) → (th.land p).rv n = th.rv n ∧ (th.land p).pv n = th.pv n)
      ∧ (∀ n, (∀ v, RegWrite.k n v ∉ p.writes) → (th.land p).rk n = th.rk n)
      ∧ (∀ n, (∀ v, RegWrite.e n v ∉ p.writes) → (th.land p).re n = th.re n) := by
  have hg {n : GReg} (h : ∀ v b, RegWrite.g n v b ∉ p.writes) : ∀ w ∈ p.writes, w.id ≠ .g n := by
    rintro (⟨m, x, b⟩ | _ | _ | _) hw ⟨⟩
    exact h x b hw
  have hv {n : VReg} (h : ∀ v b, RegWrite.v n v b ∉ p.writes) : ∀ w ∈ p.writes, w.id ≠ .v n := by
    rintro (_ | ⟨m, x, b⟩ | _ | _) hw ⟨⟩
    exact h x b hw
  have hk {n : KReg} (h : ∀ v, RegWrite.k n v ∉ p.writes) : ∀ w ∈ p.writes, w.id ≠ .k n := by
    rintro (_ | _ | ⟨m, x⟩ | _) hw ⟨⟩
    exact h x hw
  have he {n : EReg} (h : ∀ v, RegWrite.e n v ∉ p.writes) : ∀ w ∈ p.writes, w.id ≠ .e n := by
    rintro (_ | _ | _ | ⟨m, x⟩) hw ⟨⟩
    exact h x hw
  exact ⟨fun n h => ⟨writes_keep th (·.rg n) fun th w hw => (write_other_g th (hg h w hw)).1,
      writes_keep th (·.pg n) fun th w hw => (write_other_g th (hg h w hw)).2⟩,
    fun n h => ⟨writes_keep th (·.rv n) fun th w hw => (write_other_v th (hv h w hw)).1,
      writes_keep th (·.pv n) fun th w hw => (write_other_v th (hv h w hw)).2⟩,
    fun n h => writes_keep th (·.rk n) fun th w hw => write_other_k th (hk h w hw),
    fun n h => writes_keep th (·.re n) fun th w hw => write_other_e th (he h w hw)⟩

/-- The register that a result of one write names takes its value, and its poison (R80). -/
theorem land_one :
    (∀ n v b, p.writes = [.g n v b] → n ≠ 0 → (th.land p).rg n = v ∧ (th.land p).pg n = b)
      ∧ (∀ n v b, p.writes = [.v n v b] → (th.land p).rv n = v ∧ (th.land p).pv n = b)
      ∧ (∀ n v, p.writes = [.k n v] → n ≠ 0 → (th.land p).rk n = v)
      ∧ (∀ n v, p.writes = [.e n v] → (th.land p).re n = v) := by
  have hw {w : RegWrite} (h : p.writes = [w]) : th.writes p.writes = th.write w := by rw [h, writes_singleton]
  refine ⟨fun n v b h hn => ⟨?_, ?_⟩, fun n v b h => ⟨?_, ?_⟩, fun n v h hn => ?_, fun n v h => ?_⟩
  · exact (congrArg (·.rg n) (hw h)).trans ((rg_write th n n v b).trans (if_pos ⟨rfl, hn⟩))
  · exact (congrArg (·.pg n) (hw h)).trans ((pg_write th n n v b).trans (if_pos ⟨rfl, hn⟩))
  · exact (congrArg (·.rv n) (hw h)).trans ((rv_write th n n v b).trans (if_pos rfl))
  · exact (congrArg (·.pv n) (hw h)).trans ((pv_write th n n v b).trans (if_pos rfl))
  · exact (congrArg (·.rk n) (hw h)).trans ((rk_write th n n v).trans (if_pos ⟨rfl, hn⟩))
  · exact (congrArg (·.re n) (hw h)).trans ((re_write th n n v).trans (if_pos rfl))

/-- A landing or-s its flags into FLAGS and leaves everything else of its thread that is no register (R80, R229). -/
theorem land_rest : (th.land p).flags = th.flags ||| p.flags ∧ (th.land p).pc = th.pc ∧ (th.land p).retired = th.retired
    ∧ (th.land p).seed = th.seed ∧ (th.land p).rmode = th.rmode := by
  have hkeep {γ : Type} (f : Thread → γ) (hf : ∀ (th : Thread) g gp v vp k e, f { th with g, gp, v, vp, k, e } = f th) :
      f (th.writes p.writes) = f th := writes_keep th f fun th w _ => write_keep th f hf w
  exact ⟨congrArg (· ||| p.flags) (hkeep (·.flags) fun _ _ _ _ _ _ _ => rfl), hkeep (·.pc) fun _ _ _ _ _ _ _ => rfl,
    hkeep (·.retired) fun _ _ _ _ _ _ _ => rfl, hkeep (·.seed) fun _ _ _ _ _ _ _ => rfl,
    hkeep (·.rmode) fun _ _ _ _ _ _ _ => rfl⟩

/-- g0 reads as zero and k0 as all ones (R27). -/
theorem zero_registers : th.rg 0 = 0 ∧ th.pg 0 = false ∧ th.rk 0 = 0xFFFFFFFF := ⟨rfl, rfl, rfl⟩

end landing

section waking

/-- What no wake changes of a tile's contexts: their threads, store buffers and what holds them; nor the store port. -/
structure Tile.Woken (t u : Tile) : Prop where
  th : ∀ j, (u.ctx j).th = (t.ctx j).th
  sb : ∀ j, (u.ctx j).sb = (t.ctx j).sb
  busy : ∀ j, (u.ctx j).busy = (t.ctx j).busy
  storePort : u.storePort = t.storePort

theorem Tile.Woken.rfl {t : Tile} : t.Woken t := ⟨fun _ => Eq.refl _, fun _ => Eq.refl _, fun _ => Eq.refl _, Eq.refl _⟩

theorem Tile.Woken.trans {t u v : Tile} (h : t.Woken u) (k : u.Woken v) : t.Woken v :=
  ⟨fun j => (k.th j).trans (h.th j), fun j => (k.sb j).trans (h.sb j), fun j => (k.busy j).trans (h.busy j),
    k.storePort.trans h.storePort⟩

/-- A tile with the same contexts and the same store port. -/
theorem woken_same {t u : Tile} (hc : u.ctxs = t.ctxs) (hp : u.storePort = t.storePort) : t.Woken u := by
  have h (j : Nat) : u.ctx j = t.ctx j := by rw [Tile.ctx, hc, Tile.ctx]
  exact ⟨fun j => by rw [h], fun j => by rw [h], fun j => by rw [h], hp⟩

theorem woken_foldl (g : Tile → Nat → Tile) (h : ∀ t i, Tile.Woken t (g t i)) (l : List Nat) :
    ∀ t, Tile.Woken t (l.foldl g t) := by
  induction l with
  | nil => exact fun t => .rfl
  | cons i l ih => exact fun t => (h t i).trans (ih _)

/-- A context replaced: what then stands in each place. -/
theorem ctx_setCtx_cases (t : Tile) (i j : Nat) (c : Ctx) :
    (t.setCtx i c).ctx j = t.ctx j ∨ i = j ∧ (t.setCtx i c).ctx j = c := by
  rw [ctx_setCtx]
  split
  · next h => exact .inr ⟨h.1, rfl⟩
  · exact .inl rfl

theorem woken_setCtx (t : Tile) (i : Nat) {c : Ctx} (hth : c.th = (t.ctx i).th) (hsb : c.sb = (t.ctx i).sb)
    (hbusy : c.busy = (t.ctx i).busy) : t.Woken (t.setCtx i c) := by
  refine ⟨fun j => ?_, fun j => ?_, fun j => ?_, rfl⟩ <;> obtain h | ⟨rfl, h⟩ := ctx_setCtx_cases t i j c <;> rw [h]
  · exact hth
  · exact hsb
  · exact hbusy

/-- A context made ready, or marked to become so. -/
theorem woken_wakeOne (t : Tile) (now i : Nat) (asked delayed : Bool) :
    t.Woken (if asked then if delayed then t.setCtx i { t.ctx i with woken := true } else t.ready now i else t) := by
  split
  · split
    · exact woken_setCtx t i rfl rfl rfl
    · exact woken_setCtx t i rfl rfl rfl
  · exact .rfl

theorem woken_wake (t : Tile) (now b : Nat) (delayed : Bool) : t.Woken (t.wake now delayed b) := by
  have hl : t.Woken (t.wakeLocals now delayed b) := by
    unfold Tile.wakeLocals
    exact woken_foldl _ (fun t i => woken_wakeOne t now i _ delayed) ctxNums t
  unfold Tile.wake
  generalize t.wakeLocals now delayed b = u at hl ⊢
  exact hl.trans (woken_same rfl rfl)

theorem woken_idleReason (t : Tile) (det : Bool) (reason : Nat) : t.Woken (t.idleReason det reason) := by
  unfold Tile.idleReason
  split
  · exact .rfl
  · refine woken_foldl _ (fun t i => ?_) _ _
    dsimp only
    split
    · exact woken_setCtx t i rfl rfl rfl
    · exact woken_setCtx t i rfl rfl rfl

theorem woken_commit (t : Tile) (now b : Nat) (det : Bool) : t.Woken (t.commit now det b) := by
  unfold Tile.commit
  refine .trans ?_ ((woken_wake _ _ _ _).trans (woken_idleReason _ _ _))
  split <;> exact woken_same rfl rfl

/-- The wake of a barrier's contexts writes its word 1 alone. -/
theorem keeps_wakeBarrier (t : Tile) (now o : Nat) (delayed : Bool) :
    Tile.Keeps (t.setWord1 o (t.nfeed o) false) (t.wakeBarrier now delayed o) := by
  refine keeps_foldl _ (fun t i => ?_) _ _
  dsimp only
  split
  · split
    · exact keeps_setCtx _ _ _
    · exact keeps_ready _ _ _
  · exact Tile.Keeps.rfl _

theorem woken_wakeBarrier (t : Tile) (now o : Nat) (delayed : Bool) : t.Woken (t.wakeBarrier now delayed o) := by
  have hw : t.Woken (t.setWord1 o (t.nfeed o) false) := woken_same rfl rfl
  unfold Tile.wakeBarrier
  exact hw.trans (woken_foldl _ (fun t i => woken_wakeOne t now i _ delayed) ctxNums _)

end waking

section cells

/-- A byte that some cell names, or that stands already, where every cell naming it carries it. -/
theorem read_writeCells_agree {a : Nat} {b : Byte} {l : List Host.Cell} (m : Mem) (hl : ∀ c ∈ l, c.1 = a → c.2 = b)
    (h : m.read a = b ∨ ∃ c ∈ l, c.1 = a) : (m.writeCells l).read a = b := by
  induction l generalizing m with
  | nil => exact h.resolve_right fun ⟨c, hc, _⟩ => List.not_mem_nil hc
  | cons c l ih =>
    obtain ⟨a', b'⟩ := c
    refine ih (m.write a' b') (fun c hc => hl c (List.mem_cons_of_mem _ hc)) ?_
    by_cases ha : a' = a
    · exact .inl (by rw [read_write, if_pos ha.symm]; exact hl (a', b') List.mem_cons_self ha)
    · refine h.imp (fun h => by rw [read_write, if_neg (Ne.symm ha), h]) fun ⟨c, hc, hca⟩ => ⟨c, ?_, hca⟩
      exact (List.mem_cons.mp hc).resolve_left fun he => ha (by rw [← hca, he])

/-- The doubleword whose bytes stand in memory, lowest first (R3). -/
theorem read64_of_bytes {m : Mem} {a : Nat} {w : Word} (h : ∀ i < 8, m.read (a + i) = w.extractLsb' (8 * i) 8) :
    m.read64 a = w := by
  have hw (i : Nat) (hi : i < 8) : (m.write64 a w).read (a + i) = w.extractLsb' (8 * i) 8 := by
    rw [Mem.write64, read_writeBytes_inside _ _ _ _ (by simpa using hi), natBytes_getD, if_pos hi]
    refine BitVec.eq_of_toNat_eq ?_
    rw [BitVec.extractLsb'_toNat, BitVec.toNat_ofNat, Nat.shiftRight_eq_div_pow, pow_mul]
    norm_num
  have hb := readBytes_congr 8 a fun i hi => (h i hi).trans (hw i hi).symm
  exact (congrArg (fun bs => BitVec.ofNat 64 (natOfBytes bs)) hb).trans (read64_write64 m a w)

/-- A cell of a BFILL's 128 bytes is a byte of the register's value (R131). -/
theorem mem_fillCells {o : Nat} {v : Word} {c : Host.Cell} :
    c ∈ fillCells o v ↔ ∃ i < 16, ∃ j < 8, c = (o + 8 * i + j, v.extractLsb' (8 * j) 8) := by
  simp [fillCells, eq_comm]

theorem read_fillCells (m : Mem) (o : Nat) (v : Word) {i j : Nat} (hi : i < 16) (hj : j < 8) :
    (m.writeCells (fillCells o v)).read (o + 8 * i + j) = v.extractLsb' (8 * j) 8 := by
  refine read_writeCells_agree m (fun c hc ha => ?_) (.inr ⟨_, mem_fillCells.mpr ⟨i, hi, j, hj, rfl⟩, rfl⟩)
  obtain ⟨i', hi', j', hj', rfl⟩ := mem_fillCells.mp hc
  rw [show j' = j by dsimp only at ha; omega]

/-- Sixteen doublewords hold the value and no other byte differs; the two granules are clean, and no other is changed. -/
structure Tile.RowFilled (t u : Tile) (o : Nat) (w : Word) : Prop where
  words : ∀ j < 16, u.sram.read64 (o + 8 * j) = w
  others : ∀ a, (a < o ∨ o + 128 ≤ a) → u.sram.read a = t.sram.read a
  pois : ∀ g, g ∈ u.pois ↔ g ∈ t.pois ∧ g ≠ o / 64 ∧ g ≠ o / 64 + 1

/-- The next 128 bytes of a BFILL, whatever its context then is (R131). -/
theorem rowFilled_fillWrite (t : Tile) (i : Nat) (c : Ctx) (b k : Nat) (w : Word) :
    t.RowFilled ((t.setCtx i c).fillWrite b k w) (t.blockAt b + 128 * k) w where
  words j hj := read64_of_bytes fun i hi => read_fillCells _ _ _ hj hi
  others a ha := read_writeCells_outside _ _ _ fun c hc => by
    obtain ⟨i, hi, j, hj, rfl⟩ := mem_fillCells.mp hc
    change t.blockAt b + 128 * k + 8 * i + j ≠ a
    omega
  pois g := List.mem_filter.trans (by simp [Tile.blockAt, Tile.setCtx])

theorem Tile.RowFilled.of_eq {t u v : Tile} {o : Nat} {w : Word} (h : t.RowFilled u o w) (hs : v.sram = u.sram)
    (hp : v.pois = u.pois) :
    t.RowFilled v o w := ⟨hs ▸ h.words, hs ▸ h.others, hp ▸ h.pois⟩

end cells

section events

variable {s : State} {dom rank i : Nat} {d : Domain} {t : Tile}

/-- RESULT_LANDING (R80, R81). -/
theorem resultLanding_next (h : s.at_ dom rank d t) (hi : i < 18) {p : Pend} (hp : firstDue s.cycle (t.ctx i).th.pend = some p) :
    exec (.resultLanding dom rank i) s
      = .next (s.setDom dom (d.setTile rank (t.setCtx i { t.ctx i with th := (t.ctx i).th.land p }))) := by
  change execResultLanding dom rank i s = _
  exact tileEvent_next h (by rw [if_pos hi, hp, Option.map_some])

/-- A cycle of a BFILL that does not end it (R131, R244). -/
theorem fillWriteRow_next (h : s.at_ dom rank d t) (hi : i < 18) {b due k : Nat} {w : Word}
    (hb : (t.ctx i).busy = .fill b due w k) (hk : k < 15) (hd : due + k ≤ s.cycle + 15) :
    fillWriteRow dom rank i s = .next (s.setDom dom (d.setTile rank
      ((t.setCtx i { t.ctx i with busy := .fill b due w (k + 1) }).fillWrite b k w))) := by
  refine tileEvent_next h ?_
  simp only [Tile.fillMore, hb]
  exact if_pos ⟨hi, hd, hk⟩

/-- The last cycle of a BFILL (R131). -/
theorem bfillCommit_next (h : s.at_ dom rank d t) (hi : i < 18) {b due : Nat} {w : Word} (hb : (t.ctx i).busy = .fill b due w 15)
    (hd : due ≤ s.cycle) :
    exec (.bfillCommit dom rank i) s = .next (s.setDom dom (d.setTile rank
      (((t.setCtx i ((t.ctx i).finish 4 (t.ctx i).th.skips)).fillWrite b 15 w).commit s.cycle d.launch.det b))) := by
  change execBfillCommit dom rank i s = _
  refine tileEvent_next h ?_
  simp only [Tile.fillEnd, hb]
  exact if_pos ⟨hi, hd, trivial⟩

/-- What the last cycle of a BFILL leaves of its tile: the fill, the block committed and the instruction completed (R131). -/
theorem fillEnd_tile (t : Tile) (hi : i < 18) (now b k : Nat) (w : Word) (det : Bool) :
    let u := ((t.setCtx i ((t.ctx i).finish 4 (t.ctx i).th.skips)).fillWrite b k w).commit now det b
    t.RowFilled u (t.blockAt b + 128 * k) w ∧ u.block b = { t.block b with state := .full, owner := 31, armed := false }
      ∧ (u.ctx i).busy = .none ∧ (u.ctx i).th.pc = (t.ctx i).th.pc + 4
      ∧ (u.ctx i).th.retired = (t.ctx i).th.retired + 1 := by
  intro u
  have hf := rowFilled_fillWrite t i ((t.ctx i).finish 4 (t.ctx i).th.skips) b k w
  have hc : ((t.setCtx i ((t.ctx i).finish 4 (t.ctx i).th.skips)).fillWrite b k w).ctx i
      = (t.ctx i).finish 4 (t.ctx i).th.skips := ctx_setCtx_self t _ hi
  have hk := keeps_commit ((t.setCtx i ((t.ctx i).finish 4 (t.ctx i).th.skips)).fillWrite b k w) now b det
  have hw := woken_commit ((t.setCtx i ((t.ctx i).finish 4 (t.ctx i).th.skips)).fillWrite b k w) now b det
  refine ⟨hf.of_eq hk.sram hk.pois, ?_, ?_, ?_, ?_⟩
  · exact (block_keeps hk b).trans ((block_setBlock _ b b _).trans (if_pos rfl))
  · rw [hw.busy, hc]
    rfl
  · rw [hw.th, hc]
    rfl
  · rw [hw.th, hc]
    rfl

end events

section stores

variable {s : State} {dom rank i : Nat} {d : Domain} {t : Tile} {x : SbEntry}

/-- The context whose store comes next is one of the 18 (R12, R124). -/
theorem nextStore_lt {now : Nat} (h : t.nextStore now = some (i, x)) : i < 18 := by
  have hold : ∀ p, t.oldestStore = some p → p.1 < 18 := by
    unfold Tile.oldestStore
    refine List.foldlRecOn ctxNums _ (motive := fun best : Option (Nat × SbEntry) => ∀ p, best = some p → p.1 < 18)
      (by simp) fun best hbest j hj => ?_
    have hnew (y : SbEntry) : ∀ p, some (j, y) = some p → p.1 < 18 := by
      rintro _ ⟨⟩
      exact List.mem_range.mp hj
    split
    · exact hbest
    · split
      · split
        · exact hnew _
        · exact hbest
      · exact hnew _
  exact hold _ (Option.filter_eq_some_iff.mp h).1

/-- STORE_PERFORM (R124). -/
theorem storePerform_next (h : s.at_ dom rank d t) (hp : t.storePort ≤ s.cycle) (hx : t.nextStore s.cycle = some (i, x)) :
    exec (.storePerform dom rank) s = .next (s.setDom dom (d.setTile rank (t.storePerform s.cycle i x))) := by
  change execStorePerform dom rank s = _
  exact tileEvent_next h (by rw [if_pos hp, hx, Option.map_some])

/-- What the end of a vector store leaves as it is (R155, R171). -/
structure Tile.Drains (t u : Tile) (i : Nat) : Prop where
  keeps : Tile.Keeps t u
  th : ∀ j, (u.ctx j).th = (t.ctx j).th
  sb : ∀ j, (u.ctx j).sb = (t.ctx j).sb
  others : ∀ j, j ≠ i → u.ctx j = t.ctx j
  storePort : u.storePort = t.storePort

theorem drains_drained (t : Tile) (now i : Nat) : t.Drains (t.drained now i) i := by
  have hset : t.Drains (t.setCtx i { t.ctx i with busy := .none }) i := by
    refine ⟨keeps_setCtx t i _, fun j => ?_, fun j => ?_, fun j hj => ctx_setCtx_ne t _ hj.symm, rfl⟩ <;>
      obtain h | ⟨rfl, h⟩ := ctx_setCtx_cases t i j { t.ctx i with busy := .none } <;> rw [h]
  unfold Tile.drained
  dsimp only
  split
  · split
    · obtain ⟨⟨hblocks, hsram, htags, hbars, hpois⟩, hth, hsb, hothers, hport⟩ := hset
      exact ⟨⟨hblocks, hsram, htags, hbars, hpois⟩, hth, hsb, hothers, hport⟩
    · exact hset
  · exact ⟨.rfl t, fun _ => rfl, fun _ => rfl, fun _ _ => rfl, rfl⟩

/-- The tile once a store has left its context's buffer and taken the port (R124). -/
def Tile.taken (t : Tile) (now i : Nat) : Tile :=
  { t.setCtx i { t.ctx i with sb := (t.ctx i).sb.drop 1 } with storePort := now + 1 }

/-- The granule of a store that carries poison marked (R126). -/
def Tile.marked (t : Tile) (x : SbEntry) : Tile := if x.pois then t.setPois (x.addr / 64) else t

theorem marked_keep {γ : Type} (f : Tile → γ) (hf : ∀ (t : Tile) pois, f { t with pois } = f t) (t : Tile) (x : SbEntry) :
    f (t.marked x) = f t := by
  unfold Tile.marked
  split
  · exact hf t _
  · rfl

theorem mem_marked_pois {g : Nat} : g ∈ (t.marked x).pois ↔ g ∈ t.pois ∨ (x.pois = true ∧ g = x.addr / 64) := by
  unfold Tile.marked
  split
  · next h => rw [setPois_pois, mem_insNat, h, or_comm, eq_self_iff_true, true_and]
  · next h => simp [h]

/-- A store performed: out of the buffer and to the port, its bytes, its poison, and the end of a vector store (R124, R126). -/
theorem storePerform_eq (t : Tile) (now i : Nat) (x : SbEntry) : t.storePerform now i x
    = ((if x.abinit then (t.taken now i).abinitPerform now x
        else { t.taken now i with sram := t.sram.writeCells x.data }).marked x).drained now i := rfl

theorem taken_ctx_self (t : Tile) (now : Nat) (hi : i < 18) :
    (t.taken now i).ctx i = { t.ctx i with sb := (t.ctx i).sb.drop 1 } := ctx_setCtx_self t _ hi

theorem taken_ctx_ne (t : Tile) (now : Nat) {j : Nat} (hj : j ≠ i) : (t.taken now i).ctx j = t.ctx j :=
  ctx_setCtx_ne t _ hj.symm

theorem taken_th (t : Tile) (now j : Nat) (hi : i < 18) : ((t.taken now i).ctx j).th = (t.ctx j).th := by
  by_cases hj : j = i
  · rw [hj, taken_ctx_self t now hi]
  · rw [taken_ctx_ne t now hj]

/-- What a store that is no ABINIT leaves of its tile (R124, R126). -/
theorem storePerform_plain (t : Tile) (now : Nat) (hi : i < 18) (hx : x.abinit = false) :
    let u := t.storePerform now i x
    (u.ctx i).sb = (t.ctx i).sb.drop 1 ∧ (u.ctx i).th = (t.ctx i).th ∧ u.storePort = now + 1
      ∧ u.sram = t.sram.writeCells x.data ∧ (∀ a, (∀ c ∈ x.data, c.1 ≠ a) → u.sram.read a = t.sram.read a)
      ∧ (∀ g, g ∈ u.pois ↔ g ∈ t.pois ∨ (x.pois = true ∧ g = x.addr / 64))
      ∧ u.blocks = t.blocks ∧ u.tags = t.tags ∧ ∀ j, j ≠ i → u.ctx j = t.ctx j := by
  intro u
  let v : Tile := { t.taken now i with sram := t.sram.writeCells x.data }
  have hu : u = (v.marked x).drained now i := by
    change t.storePerform now i x = _
    rw [storePerform_eq, hx]
    rfl
  have hd : (v.marked x).Drains u i := hu ▸ drains_drained (v.marked x) now i
  have hm (j : Nat) : (v.marked x).ctx j = (t.taken now i).ctx j := marked_keep (·.ctx j) (fun _ _ => rfl) v x
  have hsram : u.sram = t.sram.writeCells x.data := hd.keeps.sram.trans (marked_keep (·.sram) (fun _ _ => rfl) v x)
  refine ⟨?_, ?_, ?_, hsram, fun a ha => ?_, fun g => ?_, ?_, ?_, fun j hj => ?_⟩
  · rw [hd.sb, hm, taken_ctx_self t now hi]
  · rw [hd.th, hm, taken_th t now i hi]
  · exact hd.storePort.trans (marked_keep (·.storePort) (fun _ _ => rfl) v x)
  · rw [hsram, read_writeCells_outside _ _ _ ha]
  · rw [hd.keeps.pois]
    exact mem_marked_pois
  · exact hd.keeps.blocks.trans (marked_keep (·.blocks) (fun _ _ => rfl) v x)
  · exact hd.keeps.tags.trans (marked_keep (·.tags) (fun _ _ => rfl) v x)
  · rw [hd.others j hj, hm, taken_ctx_ne t now hj]

end stores

section abinit

variable {i : Nat} {t u : Tile} {x : SbEntry} {o : Nat}

theorem nfeed_setWord1 (t : Tile) (o n : Nat) (w : Bool) : (t.setWord1 o n w).nfeed o = n % 256 := by
  have h := read_writeBytes_inside (natBytes 8 (w64 (n % 256 + b2n w * 2 ^ 8)).toNat) t.sram (o + 8) 0 (by simp)
  rw [natBytes_getD, if_pos (by norm_num), pow_zero, Nat.div_one, Nat.add_zero] at h
  have hb : b2n w ≤ 1 := by cases w <;> decide
  rw [Tile.nfeed, Tile.setWord1, Mem.write64, h, w64, BitVec.toNat_ofNat, BitVec.toNat_ofNat]
  omega

/-- What a wake of a barrier's contexts leaves, or no wake: its feed count stands, and nothing but word 1 of its pair changes. -/
structure Tile.BarrierWoken (t u : Tile) (o : Nat) : Prop where
  word1 : t.OnlyWord1 u o
  woken : t.Woken u
  nfeed : u.nfeed o = t.nfeed o
  bars : u.bars = t.bars
  tags : u.tags = t.tags

theorem barrierWoken_wakeBarrier (t : Tile) (now o : Nat) (delayed : Bool) : t.BarrierWoken (t.wakeBarrier now delayed o) o := by
  have hk := keeps_wakeBarrier t now o delayed
  refine ⟨onlyWord1_wakeBarrier t now o delayed, woken_wakeBarrier t now o delayed, ?_, hk.bars, hk.tags⟩
  calc (t.wakeBarrier now delayed o).nfeed o = (t.setWord1 o (t.nfeed o) false).nfeed o :=
        congrArg (fun m : Mem => (m.read (o + 8)).toNat) hk.sram
    _ = t.nfeed o % 256 := nfeed_setWord1 ..
    _ = t.nfeed o := Nat.mod_eq_of_lt (t.sram.read (o + 8)).isLt

/-- The two words of an ABINIT written, before any wake (R148). -/
def Tile.abinitWords (t : Tile) (x : SbEntry) : Tile :=
  let v := { t.readFail [x.addr / 64] with sram := t.sram.writeCells x.data, bars := insNat (x.addr / 16) t.bars }
  v.setWord1 x.addr 0 (v.waiter x.addr)

theorem abinitPerform_woken (t : Tile) (now : Nat) (x : SbEntry) :
    (t.abinitWords x).BarrierWoken (t.abinitPerform now x) x.addr := by
  unfold Tile.abinitPerform
  dsimp only
  split
  · exact ⟨onlyWord1_same _ ⟨rfl, rfl⟩, .rfl, rfl, rfl, rfl⟩
  · exact barrierWoken_wakeBarrier _ now x.addr false

/-- What an ABINIT leaves of its tile (R148). -/
theorem storePerform_abinit (t : Tile) (now : Nat) (hi : i < 18) (hx : x.abinit = true)
    (hdata : ∀ c ∈ x.data, x.addr ≤ c.1 ∧ c.1 < x.addr + 8) :
    let u := t.storePerform now i x
    (u.ctx i).sb = (t.ctx i).sb.drop 1 ∧ (∀ j, (u.ctx j).th = (t.ctx j).th) ∧ u.storePort = now + 1
      ∧ (∀ a, (a < x.addr ∨ x.addr + 16 ≤ a) → u.sram.read a = t.sram.read a)
      ∧ (∀ a, x.addr ≤ a → a < x.addr + 8 → u.sram.read a = (t.sram.writeCells x.data).read a) ∧ u.nfeed x.addr = 0
      ∧ (∀ p, p ∈ u.bars ↔ p ∈ t.bars ∨ p = x.addr / 16) ∧ u.blocks = t.blocks ∧ u.tags = t.tags := by
  intro u
  let w := (t.taken now i).abinitWords x
  let v := (t.taken now i).abinitPerform now x
  have hu : u = (v.marked x).drained now i := by
    change t.storePerform now i x = _
    rw [storePerform_eq, hx]
    rfl
  have hd : (v.marked x).Drains u i := hu ▸ drains_drained (v.marked x) now i
  have hv : w.BarrierWoken v x.addr := abinitPerform_woken (t.taken now i) now x
  have hm (j : Nat) : (v.marked x).ctx j = v.ctx j := marked_keep (·.ctx j) (fun _ _ => rfl) v x
  have hw (j : Nat) : w.ctx j = (t.taken now i).ctx j := rfl
  have hsram : u.sram = v.sram := hd.keeps.sram.trans (marked_keep (·.sram) (fun _ _ => rfl) v x)
  have hword (a : Nat) (ha : a < x.addr + 8 ∨ x.addr + 16 ≤ a) : u.sram.read a = (t.sram.writeCells x.data).read a := by
    rw [hsram, hv.word1.others a ha]
    exact read_write64_outside _ _ _ _ (by omega)
  refine ⟨?_, fun j => ?_, ?_, fun a ha => ?_, fun a _ ha => hword a (.inl ha), ?_, fun p => ?_, ?_, ?_⟩
  · rw [hd.sb, hm, hv.woken.sb, hw, taken_ctx_self t now hi]
  · rw [hd.th, hm, hv.woken.th, hw, taken_th t now j hi]
  · exact hd.storePort.trans ((marked_keep (·.storePort) (fun _ _ => rfl) v x).trans hv.woken.storePort)
  · rw [hword a (by omega), read_writeCells_outside _ _ _ fun c hc he => ?_]
    have := hdata c hc
    omega
  · rw [Tile.nfeed, hsram]
    exact hv.nfeed.trans (nfeed_setWord1 ..)
  · rw [hd.keeps.bars, marked_keep (·.bars) (fun _ _ => rfl) v x, hv.bars]
    exact mem_insNat.trans or_comm
  · exact hd.keeps.blocks.trans ((marked_keep (·.blocks) (fun _ _ => rfl) v x).trans hv.word1.blocks)
  · exact hd.keeps.tags.trans ((marked_keep (·.tags) (fun _ _ => rfl) v x).trans hv.tags)

end abinit

/-- Settles O37: RESULT_LANDING, STORE_PERFORM and the cycles of a BFILL by what each leaves of its tile, and a landing by its
writes in turn. -/
theorem resultAndStoreEvents : Obligations.ResultAndStoreEvents := by
  refine ⟨fun s dom rank d t h => ⟨fun i p hi hp => ?_, fun i x hport hx ha => ?_, fun i x hport hx ha hdata => ?_,
    fun i b due w k hi hb => ⟨fun hk hd => ?_, fun hk hd => ?_⟩⟩, fun th p => ?_⟩
  · have hc := ctx_setCtx_self t { t.ctx i with th := (t.ctx i).th.land p } hi
    exact ⟨_, resultLanding_next h hi hp, by rw [hc], by rw [hc], rfl, rfl, fun j hj => ctx_setCtx_ne _ _ hj.symm⟩
  · exact ⟨_, storePerform_next h hport hx, storePerform_plain t s.cycle (nextStore_lt hx) ha⟩
  · exact ⟨_, storePerform_next h hport hx, storePerform_abinit t s.cycle (nextStore_lt hx) ha hdata⟩
  · obtain ⟨hwords, hothers, hpois⟩ := rowFilled_fillWrite t i { t.ctx i with busy := .fill b due w (k + 1) } b k w
    exact ⟨_, fillWriteRow_next h hi hb hk hd, ⟨hwords, hothers, hpois⟩, rfl, ctx_setCtx_self _ _ hi,
      fun j hj => ctx_setCtx_ne _ _ hj.symm⟩
  · subst hk
    obtain ⟨⟨hwords, hothers, hpois⟩, hrest⟩ := fillEnd_tile t hi s.cycle b 15 w d.launch.det
    exact ⟨_, bfillCommit_next h hi hb hd, ⟨hwords, hothers, hpois⟩, hrest⟩
  · obtain ⟨hg, hv, hk, he⟩ := land_others th p
    obtain ⟨hg1, hv1, hk1, he1⟩ := land_one th p
    obtain ⟨hg0, hp0, hk0⟩ := zero_registers (th.land p)
    exact ⟨hg, hv, hk, he, hg1, hv1, hk1, he1, hg0, hp0, hk0, land_rest th p⟩

end Sys2Proof.Machine
end

