-- ==== Sys2Proof/Proofs/VectorLanes.lean ====
section
/-! SUPPORT. The elements of a vector register under a merge by lanes, and what a masked vector instruction leaves (R27, R92,
R97, R153, R154). -/

namespace Sys2Proof.Machine

section elements

theorem elemAt_eq (w : Nat) (v : VWord) (i : Nat) : elemAt w v i = v.toNat / 2 ^ (w * i) % 2 ^ w := by
  simp [elemAt, BitVec.extractLsb'_toNat, Nat.shiftRight_eq_div_pow]

theorem elemAt_lt (w : Nat) (v : VWord) (i : Nat) : elemAt w v i < 2 ^ w := (v.extractLsb' (w * i) w).isLt

/-- Two registers that agree on the bits of an element hold the same element. -/
theorem elemAt_congr {w i : Nat} {u v : VWord} (h : ∀ j < w, u.getLsbD (w * i + j) = v.getLsbD (w * i + j)) :
    elemAt w u i = elemAt w v i := by
  refine congrArg BitVec.toNat (BitVec.eq_of_getLsbD_eq fun j hj => ?_)
  simp only [BitVec.getLsbD_extractLsb', h j hj]

@[simp] theorem elemAt_zero (w i : Nat) : elemAt w 0 i = 0 := by simp [elemAt]

/-- An element of a register that holds a number. -/
theorem elemAt_ofNat {w i : Nat} (x : Nat) (h : w * i + w ≤ 1024) :
    elemAt w (BitVec.ofNat 1024 x) i = x / 2 ^ (w * i) % 2 ^ w := by
  rw [elemAt_eq, BitVec.toNat_ofNat x 1024]
  refine Nat.eq_of_testBit_eq fun j => ?_
  simp only [Nat.testBit_mod_two_pow, Nat.testBit_div_two_pow]
  by_cases hj : j < w
  · simp [hj, show j + w * i < 1024 by omega]
  · simp [hj]

end elements

section masks

theorem getLsbD_evenLanes (l : Nat) : (0x55555555#32).getLsbD l = (decide (l < 32) && decide (l % 2 = 0)) := by
  by_cases h : l < 32
  · revert h l; decide
  · simp only [h, decide_false, Bool.false_and]
    exact BitVec.getLsbD_of_ge _ _ (by omega)

/-- A lane of a mask: of f64, the even lane of its pair. -/
theorem getLsbD_laneMask (f64 : Bool) (k : KWord) {l : Nat} (hl : l < 32) :
    (laneMask f64 k).getLsbD l = k.getLsbD (if f64 then 2 * (l / 2) else l) := by
  cases f64 with
  | false => rfl
  | true =>
    have hk : laneMask true k = (k &&& 0x55555555#32) ||| ((k &&& 0x55555555#32) <<< 1) := rfl
    simp only [hk, if_true, BitVec.getLsbD_or, BitVec.getLsbD_and, BitVec.getLsbD_shiftLeft, getLsbD_evenLanes]
    rcases Nat.mod_two_eq_zero_or_one l with h | h
    · have hodd : 1 ≤ l → ¬ (l - 1) % 2 = 0 := by omega
      by_cases h1 : l < 1
      · simp [-BitVec.getLsbD_eq_getElem, show 2 * (l / 2) = l by omega, h, hl, h1]
      · simp [-BitVec.getLsbD_eq_getElem, show 2 * (l / 2) = l by omega, h, hl, hodd (by omega)]
    · simp [-BitVec.getLsbD_eq_getElem, show 2 * (l / 2) = l - 1 by omega, h, hl, show (l - 1) % 2 = 0 by omega,
        show l - 1 < 32 by omega, show l ≠ 0 by omega]

/-- A lane's poison by element: of f64, that of either lane of its pair. -/
theorem getLsbD_pairPois (f64 : Bool) (p : KWord) {l : Nat} (hl : l < 32) :
    (pairPois f64 p).getLsbD l
      = if f64 then p.getLsbD (2 * (l / 2)) || p.getLsbD (2 * (l / 2) + 1) else p.getLsbD l := by
  rw [pairPois, getLsbD_laneMask f64 _ hl]
  cases f64 <;> simp [Nat.add_comm]

theorem lanesWord_sum (m : KWord) (n : Nat) :
    let x := (List.range n).foldl (fun acc i => if m.getLsbD i then acc + (2 ^ 32 - 1) * 2 ^ (32 * i) else acc) 0
    x < 2 ^ (32 * n) ∧ ∀ b, x.testBit b = (decide (b < 32 * n) && m.getLsbD (b / 32)) := by
  induction n with
  | zero => simp
  | succ n ih =>
    obtain ⟨hlt, hbit⟩ := ih
    simp only [List.range_succ, List.foldl_append, List.foldl_cons, List.foldl_nil]
    set x := (List.range n).foldl (fun acc i => if m.getLsbD i then acc + (2 ^ 32 - 1) * 2 ^ (32 * i) else acc) 0
    have hpow : 2 ^ (32 * (n + 1)) = 2 ^ (32 * n) * 2 ^ 32 := by rw [Nat.mul_succ, pow_add]
    by_cases hm : m.getLsbD n
    · rw [if_pos hm]
      refine ⟨by rw [hpow]; omega, fun b => ?_⟩
      rw [Nat.add_comm, Nat.mul_comm, Nat.testBit_two_pow_mul_add _ hlt]
      by_cases hb : b < 32 * n
      · simp [hb, hbit, show b < 32 * (n + 1) by omega]
      · rw [if_neg hb, Nat.testBit_two_pow_sub_one]
        by_cases h2 : b < 32 * (n + 1)
        · simp [show b - 32 * n < 32 by omega, h2, show b / 32 = n by omega, hm]
        · simp [show ¬ b - 32 * n < 32 by omega, h2]
    · rw [if_neg hm]
      refine ⟨by rw [hpow]; omega, fun b => ?_⟩
      rw [hbit]
      by_cases hb : b < 32 * n
      · simp [hb, show b < 32 * (n + 1) by omega]
      · by_cases h2 : b < 32 * (n + 1)
        · simp [hb, show b / 32 = n by omega, hm]
        · simp [hb, h2]

theorem getLsbD_lanesWord (m : KWord) {b : Nat} (hb : b < 1024) : (lanesWord m).getLsbD b = m.getLsbD (b / 32) := by
  have h := (lanesWord_sum m 32).2 b
  simp only [lanesWord, BitVec.getLsbD_ofNat, h, hb, decide_true, Bool.true_and]

/-- A bit of a merge: the new one in an active lane, and in another the old one, or zero under Z. -/
theorem getLsbD_mergeV_value (m : KWord) (z : Bool) (old v : VWord) (oldp p : KWord) {b : Nat} (hb : b < 1024) :
    (mergeV m z old oldp v p).1.getLsbD b = if m.getLsbD (b / 32) then v.getLsbD b else !z && old.getLsbD b := by
  cases z <;> cases hm : m.getLsbD (b / 32) <;> simp [-BitVec.getLsbD_eq_getElem, mergeV, getLsbD_lanesWord m hb, hm, hb]

theorem getLsbD_mergeV_pois (m : KWord) (z : Bool) (old v : VWord) (oldp p : KWord) {l : Nat} (hl : l < 32) :
    (mergeV m z old oldp v p).2.getLsbD l = if m.getLsbD l then p.getLsbD l else !z && oldp.getLsbD l := by
  cases z <;> cases hm : m.getLsbD l <;> simp [-BitVec.getLsbD_eq_getElem, mergeV, hm, hl]

/-- An element of a merge by lanes that leaves no element divided. -/
theorem elemAt_mergeV {m : KWord} (z : Bool) (old v : VWord) (oldp p : KWord) {w i : Nat} (hi : w * i + w ≤ 1024)
    (hm : ∀ j < w, m.getLsbD ((w * i + j) / 32) = m.getLsbD (i * w / 32)) :
    elemAt w (mergeV m z old oldp v p).1 i
      = if m.getLsbD (i * w / 32) then elemAt w v i else if z then 0 else elemAt w old i := by
  have hbit (j : Nat) (hj : j < w) : (mergeV m z old oldp v p).1.getLsbD (w * i + j)
      = if m.getLsbD (i * w / 32) then v.getLsbD (w * i + j) else !z && old.getLsbD (w * i + j) := by
    rw [getLsbD_mergeV_value m z old v oldp p (by omega), hm j hj]
  cases ha : m.getLsbD (i * w / 32) with
  | true => exact elemAt_congr fun j hj => by rw [hbit j hj, ha]; rfl
  | false =>
    cases z with
    | true => rw [← elemAt_zero w i]; exact elemAt_congr fun j hj => by rw [hbit j hj, ha]; simp
    | false => exact elemAt_congr fun j hj => by rw [hbit j hj, ha]; simp

end masks

section widths

/-- The widths of the elements of a vector instruction, and whether they are f64 (R92). -/
def LaneWidth (f64 : Bool) (w : Nat) : Prop := (f64 = false ∧ (w = 8 ∨ w = 16 ∨ w = 32)) ∨ (f64 = true ∧ w = 64)

theorem laneWidth_vw (ty : VType) : LaneWidth (ty == .f64) (vw ty) := by cases ty <;> simp [LaneWidth, vw]

theorem LaneWidth.dvd {f64 : Bool} {w : Nat} (h : LaneWidth f64 w) : 1024 / w * w = 1024 := by
  rcases h with ⟨-, rfl | rfl | rfl⟩ | ⟨-, rfl⟩ <;> rfl

theorem LaneWidth.inside {f64 : Bool} {w i : Nat} (h : LaneWidth f64 w) (hi : i < 1024 / w) : w * i + w ≤ 1024 :=
  calc w * i + w = (i + 1) * w := by ring
    _ ≤ 1024 / w * w := Nat.mul_le_mul_right w hi
    _ = 1024 := h.dvd

theorem LaneWidth.lane_lt {f64 : Bool} {w i : Nat} (h : LaneWidth f64 w) (hi : i < 1024 / w) : i * w / 32 < 32 := by
  rcases h with ⟨-, rfl | rfl | rfl⟩ | ⟨-, rfl⟩ <;> omega

/-- The mask of a vector instruction divides no element. -/
theorem LaneWidth.whole {f64 : Bool} {w i : Nat} (h : LaneWidth f64 w) (k : KWord) (hi : i < 1024 / w) :
    ∀ j < w, (laneMask f64 k).getLsbD ((w * i + j) / 32) = (laneMask f64 k).getLsbD (i * w / 32) := by
  intro j hj
  have hin := h.inside hi
  rw [getLsbD_laneMask f64 k (by omega : (w * i + j) / 32 < 32), getLsbD_laneMask f64 k (h.lane_lt hi)]
  refine congrArg _ ?_
  rcases h with ⟨rfl, rfl | rfl | rfl⟩ | ⟨rfl, rfl⟩ <;> simp <;> omega

end widths

section instruction

variable {s : State} {e : Env} {st : Stall} {major lat w : Nat} {reads : List RegId} {d : VReg} {k : KReg} {z f64 : Bool}

/-- A masked vector instruction sets its active elements, and its lanes' poison, with a draw for each (R97, R153, R154). -/
theorem vIssue_lanewise {rm : Option RmField} {f : Thread → Mode → Nat → Nat → Nat × Flags} {pois : Thread → KWord}
    (h : Ready s e (op32 st .notXc false major reads)) (hw : LaneWidth f64 w) :
    let mode := match rm with | some r => rmMode r e.c.th | none => .rne
    ∃ t, vIssue st major lat reads d k z f64 w rm f pois s = .next t
      ∧ Lanewise e (op32 st .notXc false major reads) lat d k z f64 w (mode == .sr) (f e.c.th mode) (pois e.c.th) t := by
  intro mode
  let m := laneMask f64 (e.c.th.rk k)
  let act (i : Nat) : Bool := m.getLsbD (i * w / 32)
  let x := mapElems w act (mode == .sr) (f e.c.th mode) (1024 / w) 0 e.c.th.seed
  let r := mergeV m z (e.c.th.rv d) (e.c.th.pv d) (BitVec.ofNat 1024 x.1) (pairPois f64 (pois e.c.th))
  obtain ⟨hval, hflags, hseed⟩ := mapElems_spec w act (mode == .sr) (f e.c.th mode) (1024 / w) 0 e.c.th.seed
  simp only [seedAt, activeIn, ← List.range_eq_range', Nat.sub_zero, Nat.zero_add] at hval hflags hseed
  refine ⟨_, issue_done h rfl, r.1, r.2, ?_, fun i hi => ?_, fun l hl => getLsbD_mergeV_pois _ _ _ _ _ _ hl⟩
  · exact (congr (congrArg (e.seeded _ lat true [.v d r.1 r.2]) (congrArg Flags.bits hflags)) hseed :)
  · rw [elemAt_mergeV z _ _ _ _ (hw.inside hi) (hw.whole _ hi)]
    exact if_ctx_congr Iff.rfl (fun ha => by rw [elemAt_ofNat _ (hw.inside hi), hval i hi, if_pos ha]) fun _ => rfl

end instruction

end Sys2Proof.Machine
end

