-- ==== Sys2Proof/Proofs/VectorElementwise.lean ====
section
/-! PROOF. The vector instructions that work element by element, each the masked instruction with its own function, and the two
that take the quantiser (R97 to R101, R153 to R167). -/

namespace Sys2Proof.Machine

section arithmetic

variable {s : State} {e : Env} {st : Stall} {ty : VType} {d a b : VReg} {k : KReg} {z : Bool}

/-- An arithmetic instruction by its integer and its float function. -/
theorem vArith_lanewise {rm : RmField} {dSrc : Bool} (fi : Int → Int → Int → Int) (ff : Bool → FVal → FVal → FVal → FRes)
    (h : Ready s e (op32 st .notXc false 14 (vreads d k z dSrc [.v a, .v b]))) :
    let th := e.c.th
    let mode := rmMode rm th
    let x (r : VReg) (i : Nat) : Nat := elemAt (vw ty) (th.rv r) i
    let v (r : VReg) (i : Nat) : FVal := (vfmt ty).decode (x r i)
    ∃ t, vArith st ty rm d a b k z dSrc fi ff s = .next t
      ∧ Lanewise e (op32 st .notXc false 14 (vreads d k z dSrc [.v a, .v b])) 4 d k z (ty == .f64) (vw ty) (mode == .sr)
        (fun i n =>
          if ty.isInt then (intBits (vw ty) (fi (elemInt ty (x a i)) (elemInt ty (x b i)) (elemInt ty (x d i))), Flags.none)
          else (ff (mode == .rdn) (v a i) (v b i) (v d i)).round (vfmt ty) mode n)
        (th.pv a ||| th.pv b ||| (if dSrc then th.pv d else 0)) t := by
  intro th mode x v
  unfold vArith
  exact vIssue_lanewise h (laneWidth_vw ty)

/-- An instruction on the bits of the elements of two registers. -/
theorem vBits_lanewise_two {rm : Option RmField} (f : Nat → Nat → Nat × Flags)
    (h : Ready s e (op32 st .notXc false 14 (vreads d k z false [.v a, .v b]))) :
    let th := e.c.th
    ∃ t, vBits st 14 4 ty rm d a (some b) k z f s = .next t
      ∧ Lanewise e (op32 st .notXc false 14 (vreads d k z false [.v a, .v b])) 4 d k z (ty == .f64) (vw ty)
        ((match rm with | some r => rmMode r th | none => .rne) == .sr)
        (fun i _ => f (elemAt (vw ty) (th.rv a) i) (elemAt (vw ty) (th.rv b) i)) (th.pv a ||| th.pv b) t := by
  intro th
  unfold vBits
  exact vIssue_lanewise h (laneWidth_vw ty)

/-- An instruction on the bits of the elements of one register. -/
theorem vBits_lanewise_one {rm : Option RmField} {major lat : Nat} (f : Nat → Nat × Flags)
    (h : Ready s e (op32 st .notXc false major (vreads d k z false [.v a]))) :
    let th := e.c.th
    ∃ t, vBits st major lat ty rm d a none k z (fun x _ => f x) s = .next t
      ∧ Lanewise e (op32 st .notXc false major (vreads d k z false [.v a])) lat d k z (ty == .f64) (vw ty)
        ((match rm with | some r => rmMode r th | none => .rne) == .sr)
        (fun i _ => f (elemAt (vw ty) (th.rv a) i)) (th.pv a) t := by
  intro th
  unfold vBits
  rw [← BitVec.or_zero (x := th.pv a)]
  exact vIssue_lanewise h (laneWidth_vw ty)

/-- An element is its number's low bits: what stands above them is never seen. -/
theorem Lanewise.mod {op : Op} {lat w : Nat} {f64 draws : Bool} {pois : KWord} {t : State} {x : Nat → Nat} {fl : Nat → Flags}
    (h : Lanewise e op lat d k z f64 w draws (fun i _ => (x i % 2 ^ w, fl i)) pois t) :
    Lanewise e op lat d k z f64 w draws (fun i _ => (x i, fl i)) pois t := by
  obtain ⟨v, p, ht, hv, hp⟩ := h
  exact ⟨v, p, ht, fun i hi => by simpa only [Nat.mod_mod] using hv i hi, hp⟩

/-- VBCAST puts its e register into every active element. -/
theorem vbcast_lanewise {rm : RmField} {ea : EReg}
    (h : Ready s e (op32 st .notXc false 14 (vreads d k z false [.e ea]))) :
    ∃ t, execVbcast st ty rm d ea k z s = .next t
      ∧ Lanewise e (op32 st .notXc false 14 (vreads d k z false [.e ea])) 4 d k z (ty == .f64) (vw ty) false
        (fun _ _ => ((e.c.th.re ea).toNat, Flags.none)) 0 t := by
  unfold execVbcast
  obtain ⟨t, ht, hl⟩ := vIssue_lanewise (rm := none) (f := fun th _ _ _ => ((th.re ea).toNat % 2 ^ vw ty, Flags.none))
    (pois := fun _ => 0) (d := d) (lat := 4) h (laneWidth_vw ty)
  exact ⟨t, ht, hl.mod⟩

/-- VDOT sums the products of each lane and its addend. -/
theorem vdot_lanewise {rm : RmField} (h : Ready s e (op32 st .notXc false 14 (vreads d k z true [.v a, .v b]))) :
    let th := e.c.th
    let mode := rmMode rm th
    let w := vw ty
    let js := List.range (32 / w)
    let x (r : VReg) (i j : Nat) : Nat := elemAt w (th.rv r) (32 / w * i + j)
    let u (i : Nat) : Nat := elemAt 32 (th.rv d) i
    ∃ t, execVdot st ty rm d a b k z s = .next t
      ∧ Lanewise e (op32 st .notXc false 14 (vreads d k z true [.v a, .v b])) 4 d k z false 32 (mode == .sr)
        (fun i n =>
          if ty.isInt then
            (intBits 32 (elemInt .i32 (u i) + (js.map fun j => elemInt ty (x a i j) * elemInt ty (x b i j)).sum), Flags.none)
          else (sumF (mode == .rdn) ((fmt32.decode (u i)).res
            :: js.map fun j => ((vfmt ty).decode (x a i j)).res.mul ((vfmt ty).decode (x b i j)).res)).round fmt32 mode n)
        (th.pv a ||| th.pv b ||| th.pv d) t := by
  intro th mode w js x u
  unfold execVdot
  exact vIssue_lanewise h (.inl ⟨rfl, .inr (.inr rfl)⟩)

end arithmetic

/-- Settles O12: each instruction is the masked one with its integer and its float function. -/
theorem vectorArithmetic : Obligations.VectorArithmetic := by
  intro s e st ty rm d a b k z
  refine ⟨?_, ?_, ?_, ?_, ?_, ?_⟩
  · exact vArith_lanewise (fun a b _ => a + b) (fun r a b _ => sumF r [a.res, b.res])
  · exact vArith_lanewise (fun a b _ => a - b) (fun r a b _ => sumF r [a.res, b.neg.res])
  · exact vArith_lanewise (fun a b _ => a * b) (fun _ a b _ => a.res.mul b.res)
  · exact vArith_lanewise (fun a b d => a * b + d) (fun r a b d => sumF r [a.res.mul b.res, d.res])
  · exact vArith_lanewise (fun a b d => a * b - d) (fun r a b d => sumF r [a.res.mul b.res, d.neg.res])
  · exact vArith_lanewise (fun a b d => -(a * b) + d) (fun r a b d => sumF r [a.neg.res.mul b.res, d.res])

/-- Settles O13: each instruction is the masked one with its function of the bits, and VBCAST and VDOT with their own. -/
theorem vectorElementwise : Obligations.VectorElementwise := by
  intro s e st ty rm d a b ea k z
  refine ⟨?_, ?_, ?_, ?_, ?_, ?_, ?_, ?_, ?_, ?_, ?_, ?_, ?_, ?_, ?_, ?_⟩
  · exact vBits_lanewise_two (rm := some rm) fun x y =>
      if ty.isInt then (if elemInt ty y < elemInt ty x then y else x, Flags.none) else minMaxF (vfmt ty) false x y
  · exact vBits_lanewise_two (rm := some rm) fun x y =>
      if ty.isInt then (if elemInt ty x < elemInt ty y then y else x, Flags.none) else minMaxF (vfmt ty) true x y
  · exact vBits_lanewise_two (rm := none) fun x y => (Nat.land x y, Flags.none)
  · exact vBits_lanewise_two (rm := none) fun x y => (Nat.lor x y, Flags.none)
  · exact vBits_lanewise_two (rm := none) fun x y => (Nat.xor x y, Flags.none)
  · exact vBits_lanewise_two (rm := none) fun x y => (x * 2 ^ (y % vw ty), Flags.none)
  · exact vBits_lanewise_two (rm := none) fun x y => (x / 2 ^ (y % vw ty), Flags.none)
  · exact vBits_lanewise_two (rm := none) fun x y =>
      (intBits (vw ty) (elemInt (if ty = .n32 then .i32 else ty) x / 2 ^ (y % vw ty)), Flags.none)
  · exact vBits_lanewise_two (rm := none) fun x y =>
      (intBits (vw ty) (clampTy ty (elemInt ty x + elemInt ty y)), Flags.none)
  · exact vBits_lanewise_two (rm := none) fun x y =>
      (intBits (vw ty) (clampTy ty (elemInt ty x - elemInt ty y)), Flags.none)
  · exact vBits_lanewise_one (rm := some rm) fun x =>
      if ty.isInt then (intBits (vw ty) (elemInt ty x).natAbs, Flags.none) else signOp (vfmt ty) false x
  · exact vBits_lanewise_one (rm := some rm) fun x =>
      if ty.isInt then (intBits (vw ty) (-(elemInt ty x)), Flags.none) else signOp (vfmt ty) true x
  · exact vBits_lanewise_one (rm := none) fun x => (x, Flags.none)
  · exact vBits_lanewise_one (rm := none) fun x => (classOf (vfmt ty) x, Flags.none)
  · exact vbcast_lanewise (rm := rm)
  · exact vdot_lanewise

section quantise

variable {s : State} {e : Env} {st : Stall} {rm : RmField} {d a b : VReg}

/-- The writes of a quantisation into two registers. -/
theorem quantWrites_ne (h : d ≠ b) (x : Desc) (th : Thread) (els : List Nat) (sc free : Nat) :
    let bad : Bool := th.pv a != 0
    quantWrites x th d a b els sc free
      = [.v d (putPlane x (th.rv d) els) (if bad then th.pv d ||| planeLanes x else th.pv d &&& ~~~ planeLanes x),
         .v b (putScale x (th.rv b) sc) (if bad then th.pv b ||| scaleLane x else th.pv b)] := by
  simp only [quantWrites, if_neg h, bne_iff_ne]

/-- A quantisation that completes at its issue: the quantiser is taken for ten cycles, and one free word is drawn. -/
def Env.quantised (e : Env) (op : Op) (ws : List RegWrite) (fl : Flags) (seed : BitVec 32) : State :=
  ({ e with s := { e.s with free := e.s.free + 1 } } : Env).put
    { e.t with quantiser := ⟨e.s.cycle + 10, e.s.cur.ctx, e.s.cycle⟩ }
    { e.c.atIssue e.s.cycle with
      th := ({ e.c.th.addPend (e.pending op 10 false ws fl.bits) with seed }).past op (e.seqPc op) }

/-- The environment of such a quantisation before it completes. -/
def Env.quantising (e : Env) (ws : List RegWrite) (fl : Flags) (seed : BitVec 32) : Env :=
  let e := ({ e with s := e.s.tick1 }.withTh { e.c.th with seed }).interlocked 10 ws fl.bits 16
  { e with t := { e.t with quantiser := ⟨e.now + 10, e.me, e.now⟩ } }

theorem close_quantising (e : Env) (st : Stall) (reads : List RegId) (ws : List RegWrite) (fl : Flags) (seed : BitVec 32) :
    (complete1 (op32 st .notXc false 16 reads) { e := (markWrong e).quantising ws fl seed }).close
      = e.quantised (op32 st .notXc false 16 reads) ws fl seed := rfl

/-- Without OUTL no element is an outlier (R101). -/
theorem quantDx_noOutlier (w cap : Nat) (mode : Mode) (xs : List FVal) (seed : BitVec 32) (i : Nat) :
    (quantDx w cap false mode xs seed).2.2.2.2.getD i false = false := by
  have hout : (quantDx w cap false mode xs seed).2.2.2.2 = xs.map fun _ => false := by
    cases hn : xs.any FVal.isNan with
    | true => simp only [quantDx, hn, if_true]
    | false => simp only [quantDx, hn, Bool.false_eq_true, if_false, Bool.false_and]
  simp [hout]

theorem vqmx_next (h : Ready s e (op32 st .notXc false 16 [.v a, .v b, .v d, .e 0])) (hd : d ≠ b)
    (hf : e.t.quantiser.freeAt ≤ e.s.cycle) (hok : descOk (e.c.th.re 0) false false true = true)
    {els : List Nat} {sc : Nat} {fl : Flags} {seed : BitVec 32}
    (hr : quantMx (Desc.of (e.c.th.re 0)).fmt (rmMode rm e.c.th) ((lanes32 (e.c.th.rv a)).map fmt32.decode) e.c.th.seed
      = (els, sc, fl, seed)) :
    execVqmx st rm d a b s = .next (e.quantised (op32 st .notXc false 16 [.v a, .v b, .v d, .e 0])
      (quantWrites (Desc.of (e.c.th.re 0)) e.c.th d a b els sc 0) fl seed) := by
  have hfree : decide (e.t.quantiser.freeAt ≤ e.s.cycle) = true := decide_eq_true hf
  rw [← close_quantising]
  refine issue_done h ?_
  simp only [markWrong_th, markWrong_t, markWrong_now, hok, need_true, ok_bind, quantWrites_ne hd, hr]
  exact bind_need hfree

theorem vqdx_next (h : Ready s e (op32 st .notXc false 16 [.v a, .v b, .v d, .e 0])) (hd : d ≠ b)
    (hf : e.t.quantiser.freeAt ≤ e.s.cycle) (hok : descOk (e.c.th.re 0) true true false = true)
    (hout : (Desc.of (e.c.th.re 0)).outl = false) {els : List Nat} {sc : Nat} {fl : Flags} {seed : BitVec 32}
    {out : List Bool}
    (hr : quantDx (Desc.of (e.c.th.re 0)).ew (Desc.of (e.c.th.re 0)).cap false (rmMode rm e.c.th)
      ((lanes32 (e.c.th.rv a)).map fmt32.decode) e.c.th.seed = (els, sc, fl, seed, out)) :
    execVqdx st rm d a b s = .next (e.quantised (op32 st .notXc false 16 [.v a, .v b, .v d, .e 0])
      (quantWrites (Desc.of (e.c.th.re 0)) e.c.th d a b els sc 0) fl seed) := by
  have hfree : decide (e.t.quantiser.freeAt ≤ e.s.cycle) = true := decide_eq_true hf
  have hno (i : Nat) : out.getD i false = false := by
    have h := quantDx_noOutlier (Desc.of (e.c.th.re 0)).ew (Desc.of (e.c.th.re 0)).cap (rmMode rm e.c.th)
      ((lanes32 (e.c.th.rv a)).map fmt32.decode) e.c.th.seed i
    rwa [hr] at h
  rw [← close_quantising]
  refine issue_done h ?_
  simp only [markWrong_th, hout, Bool.false_eq_true, if_false, Bool.not_false, Bool.true_or, need_true, ok_bind, pure_ok,
    hok, quantWrites_ne hd, hr, hno, markWrong_t, markWrong_now]
  exact bind_need hfree

end quantise

/-- Settles O18: the checks pass, the quantiser is free, and no outlier needs a list entry. -/
theorem vectorQuantise : Obligations.VectorQuantise := by
  intro s e st rm d a b hd hf h
  refine ⟨fun hok hout => ?_, fun hok => ?_⟩
  · generalize hr : quantDx (Desc.of (e.c.th.re 0)).ew (Desc.of (e.c.th.re 0)).cap false (rmMode rm e.c.th)
      ((lanes32 (e.c.th.rv a)).map fmt32.decode) e.c.th.seed = r
    refine (vqdx_next h hd hf hok hout hr).trans ?_
    rw [quantWrites_ne hd]
    rfl
  · generalize hr : quantMx (Desc.of (e.c.th.re 0)).fmt (rmMode rm e.c.th)
      ((lanes32 (e.c.th.rv a)).map fmt32.decode) e.c.th.seed = r
    refine (vqmx_next h hd hf hok hr).trans ?_
    rw [quantWrites_ne hd]
    rfl

end Sys2Proof.Machine
end

