-- ==== Sys2Proof/Proofs/Rounding.lean ====
section
/-! SUPPORT. What the rounding of a magnitude to a multiple of a power of two gives (R96, R97): the whole number that the mode
picks of the real magnitude, of which the model holds a whole part and a sticky fraction. -/

namespace Sys2Proof.Machine

section picks

variable {mode : Mode} {neg : Bool} {n k lo : Nat}

/-- Whether a mode rounds up a magnitude of a whole part lo and a fraction f that is not zero (R96, R97). -/
def RoundsUp (mode : Mode) (neg : Bool) (n lo : Nat) (f : ℝ) : Prop :=
  match mode with
  | .rne => 1 / 2 < f ∨ (f = 1 / 2 ∧ lo % 2 = 1)
  | .rtz => False
  | .rdn => neg = true
  | .rup => neg = false
  | .sr => 2 ^ 16 ≤ ⌊f * 2 ^ 16⌋₊ + n

theorem floor_add {f : ℝ} (h0 : 0 ≤ f) (h1 : f < 1) : ⌊(lo : ℝ) + f⌋₊ = lo := by
  rw [Nat.floor_eq_iff (by positivity)]
  exact ⟨by linarith, by linarith⟩

theorem picks_add {f : ℝ} (h0 : 0 ≤ f) (h1 : f < 1) :
    Picks mode neg n (lo + f) k
      ↔ (f ≠ 0 ∧ RoundsUp mode neg n lo f → k = lo + 1) ∧ (¬(f ≠ 0 ∧ RoundsUp mode neg n lo f) → k = lo) := by
  unfold Picks RoundsUp
  cases mode <;> simp only [floor_add h0 h1, add_sub_cancel_left]

theorem picks_natCast (m : Nat) : Picks mode neg n (m : ℝ) m := by
  have h := picks_add (mode := mode) (neg := neg) (n := n) (k := m) (lo := m) le_rfl one_pos
  rw [add_zero] at h
  exact h.mpr ⟨fun h => absurd rfl h.1, fun _ => rfl⟩

/-- A mode picks one whole number of a magnitude. -/
theorem Picks.unique {r : ℝ} {k' : Nat} (h : Picks mode neg n r k) (h' : Picks mode neg n r k') : k = k' := by
  obtain ⟨hup, hdown⟩ := h
  obtain ⟨hup', hdown'⟩ := h'
  exact (Classical.em _).elim (fun hu => (hup hu).trans (hup' hu).symm) fun hu => (hdown hu).trans (hdown' hu).symm

/-- What is picked lies at the whole part or one above it. -/
theorem Picks.near {r : ℝ} (h : Picks mode neg n r k) : k = ⌊r⌋₊ ∨ k = ⌊r⌋₊ + 1 :=
  (Classical.em _).elim (fun hu => .inr (h.1 hu)) fun hu => .inl (h.2 hu)

theorem natFloor_ratCast (x : ℚ) : ⌊(x : ℝ)⌋₊ = ⌊x⌋₊ := by
  rw [← Int.floor_toNat, Rat.floor_cast, Int.floor_toNat]

/-- The whole number picked of a rational magnitude is the one picked of it as a real. -/
theorem picks_pick {r : ℚ} (hr : 0 ≤ r) : Picks mode neg n (r : ℝ) (pick mode neg n r) := by
  set f : ℚ := r - ⌊r⌋₊ with hf
  have h0 : 0 ≤ f := sub_nonneg.mpr (Nat.floor_le hr)
  have h1 : f < 1 := sub_lt_iff_lt_add'.mpr (Nat.lt_floor_add_one r)
  have hcast : (r : ℝ) = (⌊r⌋₊ : ℝ) + (f : ℝ) := by rw [hf]; push_cast; ring
  have h16 : ⌊(f : ℝ) * 2 ^ 16⌋₊ = ⌊f * 2 ^ 16⌋₊ := by rw [← natFloor_ratCast]; push_cast; rfl
  have half : (1 / 2 : ℝ) = ((1 / 2 : ℚ) : ℝ) := by norm_num
  have hlt : 1 / 2 < (f : ℝ) ↔ 1 / 2 < f := by rw [half, Rat.cast_lt]
  have heq : (f : ℝ) = 1 / 2 ↔ f = 1 / 2 := by rw [half, Rat.cast_inj]
  rw [hcast, picks_add (by exact_mod_cast h0) (by exact_mod_cast h1)]
  simp only [pick, RoundsUp, ← hf, hlt, heq, h16, ne_eq, Rat.cast_eq_zero]
  cases mode <;> simp +contextual [-one_div]

end picks

section parts

variable {mode : Mode} {neg sticky : Bool} {n m : Nat} {e q : Int} {a : ℝ}

/-- The parts that the model holds of a real magnitude a: m × 2^e, and whether a lies above it. -/
structure Parts (m : Nat) (e : Int) (sticky : Bool) (a : ℝ) : Prop where
  low : (m : ℝ) * 2 ^ e ≤ a
  high : a < (m + 1) * 2 ^ e
  sticky : sticky = true ↔ a ≠ m * 2 ^ e

theorem parts_exact (m : Nat) (e : Int) : Parts m e false (m * 2 ^ e) :=
  ⟨le_rfl, by have : (0 : ℝ) < 2 ^ e := by positivity
              linarith, by simp⟩

/-- Where nothing is cut off, the magnitude over the unit is a whole number. -/
theorem div_zpow_eq_natCast (h : q ≤ e) : (m : ℝ) * 2 ^ e / 2 ^ q = ((m * 2 ^ (e - q).toNat : ℕ) : ℝ) := by
  have h2 : (2 : ℝ) ^ (e - q).toNat = 2 ^ (e - q) := by rw [← zpow_natCast]; congr 1; omega
  rw [Nat.cast_mul, Nat.cast_pow, Nat.cast_ofNat, h2, zpow_sub₀ two_ne_zero, mul_div_assoc]

/-- Whether the model rounds up a whole part lo of which rem parts of unit and perhaps a sticky fraction are cut off. -/
def cutUp (mode : Mode) (n : Nat) (neg sticky : Bool) (lo rem unit : Nat) : Bool :=
  match mode with
  | .rne => decide (2 * rem > unit) || (decide (2 * rem = unit) && (sticky || lo % 2 == 1))
  | .rtz => false
  | .rdn => neg
  | .rup => !neg
  | .sr => decide (rem * 2 ^ 16 / unit + n ≥ 0x10000)

theorem roundAt_cut {sh : ℕ} (h : ¬(e + sh ≤ e ∧ sticky = false)) :
    roundAt mode n neg m e sticky (e + sh)
      = if m % 2 ^ sh = 0 ∧ sticky = false then (m / 2 ^ sh, true)
        else (if cutUp mode n neg sticky (m / 2 ^ sh) (m % 2 ^ sh) (2 ^ sh) then m / 2 ^ sh + 1 else m / 2 ^ sh, false) := by
  rw [roundAt, if_neg h, show (e + (sh : ℤ) - e).toNat = sh by omega]
  rfl

/-- The model rounds up where the mode does: the sticky fraction θ decides no tie wrongly, and no draw. -/
theorem cutUp_iff {lo rem sh : ℕ} {θ : ℝ} (h0 : 0 ≤ θ) (h1 : θ < 1) (hst : sticky = true ↔ θ ≠ 0) (hsh : 1 ≤ sh)
    (h16 : sticky = true → 16 ≤ sh) :
    cutUp mode n neg sticky lo rem (2 ^ sh) = true ↔ RoundsUp mode neg n lo ((rem + θ) / 2 ^ sh) := by
  have hD : (0 : ℝ) < 2 ^ sh := by positivity
  obtain ⟨j, rfl⟩ : ∃ j, sh = j + 1 := ⟨sh - 1, by omega⟩
  cases mode with
  | rtz => simp [cutUp, RoundsUp]
  | rdn => simp [cutUp, RoundsUp]
  | rup => simp [cutUp, RoundsUp]
  | rne =>
    have hlt : 1 / 2 < (rem + θ) / 2 ^ (j + 1) ↔ ((2 ^ j : ℕ) : ℝ) < rem + θ := by
      rw [lt_div_iff₀ hD, pow_succ]; push_cast; constructor <;> intro h <;> linarith
    have heq : (rem + θ) / 2 ^ (j + 1) = 1 / 2 ↔ rem + θ = ((2 ^ j : ℕ) : ℝ) := by
      rw [div_eq_iff hD.ne', pow_succ]; push_cast; constructor <;> intro h <;> linarith
    simp only [cutUp, RoundsUp]
    rw [hlt, heq, pow_succ]
    generalize 2 ^ j = half
    rcases lt_trichotomy rem half with h | rfl | h
    · have hr : (rem : ℝ) + 1 ≤ half := by exact_mod_cast h
      have h2 : ¬ (half : ℝ) < rem + θ := by linarith
      have h3 : ¬ rem + θ = (half : ℝ) := by linarith
      simp [h2, h3]; omega
    · have h2 : (rem : ℝ) < rem + θ ↔ sticky = true := by rw [hst, lt_add_iff_pos_right, h0.lt_iff_ne']
      have h3 : rem + θ = (rem : ℝ) ↔ sticky = false := by rw [add_eq_left, ← Bool.not_eq_true, hst, not_not]
      rw [h2, h3]
      cases sticky <;> simp [Nat.mul_comm]
    · have hr : (half : ℝ) + 1 ≤ rem := by exact_mod_cast h
      have h2 : (half : ℝ) < rem + θ := by linarith
      simp [h2]; omega
  | sr =>
    have hfl : ⌊(rem + θ) / 2 ^ (j + 1) * 2 ^ 16⌋₊ = rem * 2 ^ 16 / 2 ^ (j + 1) := by
      cases hs : sticky with
      | false =>
        have hz : θ = 0 := by simpa [hs] using hst
        rw [hz, add_zero, ← Nat.floor_div_eq_div (K := ℝ)]
        rw [div_mul_eq_mul_div]
        norm_num
      | true =>
        obtain ⟨i, hi⟩ : ∃ i, j + 1 = i + 16 := ⟨j + 1 - 16, by have := h16 hs; omega⟩
        have hdiv : (rem + θ) / 2 ^ (i + 16) * 2 ^ 16 = (rem + θ) / (2 ^ i : ℕ) := by
          rw [pow_add]; push_cast; field_simp
        rw [hi, hdiv, Nat.floor_div_natCast, floor_add h0 h1, pow_add, Nat.mul_div_mul_right _ _ (by positivity)]
    simp only [cutUp, RoundsUp, hfl]
    simp

/-- The model's rounding is the mode's choice of the real magnitude, and it tells an exact one. -/
theorem roundAt_picks (h : Parts m e sticky a) (hq : sticky = true → e + 16 ≤ q) :
    Picks mode neg n (a / 2 ^ q) (roundAt mode n neg m e sticky q).1
      ∧ ((roundAt mode n neg m e sticky q).2 = true ↔ ((roundAt mode n neg m e sticky q).1 : ℝ) = a / 2 ^ q) := by
  by_cases hexact : q ≤ e ∧ sticky = false
  · have ha : a = m * 2 ^ e := by
      by_contra hne
      simp [h.sticky.mpr hne] at hexact
    have hr : roundAt mode n neg m e sticky q = (m * 2 ^ (e - q).toNat, true) := if_pos hexact
    rw [hr, ha, div_zpow_eq_natCast hexact.1]
    exact ⟨picks_natCast _, by simp⟩
  obtain ⟨sh, rfl⟩ : ∃ sh : ℕ, q = e + sh := ⟨(q - e).toNat, by cases sticky <;> simp at hexact hq <;> omega⟩
  have hsh : 1 ≤ sh := by cases sticky <;> simp at hexact hq <;> omega
  obtain ⟨θ, rfl⟩ : ∃ θ : ℝ, a = (m + θ) * 2 ^ e := ⟨a / 2 ^ e - m, by field_simp; ring⟩
  have hpos : (0 : ℝ) < 2 ^ e := by positivity
  have hθ0 : 0 ≤ θ := by have := le_of_mul_le_mul_right h.low hpos; linarith
  have hθ1 : θ < 1 := by have := lt_of_mul_lt_mul_right h.high hpos.le; linarith
  have hst : sticky = true ↔ θ ≠ 0 := by
    rw [h.sticky, ne_eq, mul_left_inj' hpos.ne', add_eq_left]
  have hup := cutUp_iff (mode := mode) (n := n) (neg := neg) (lo := m / 2 ^ sh) (rem := m % 2 ^ sh) hθ0 hθ1 hst hsh
    fun h => by have := hq h; omega
  rw [roundAt_cut hexact]
  have hm : (m : ℝ) = (m / 2 ^ sh : ℕ) * 2 ^ sh + (m % 2 ^ sh : ℕ) := by exact_mod_cast (Nat.div_add_mod' m (2 ^ sh)).symm
  have hrem : ((m % 2 ^ sh : ℕ) : ℝ) + 1 ≤ 2 ^ sh := by exact_mod_cast Nat.mod_lt m (Nat.two_pow_pos sh)
  generalize m / 2 ^ sh = lo at *
  generalize m % 2 ^ sh = rem at *
  have hD : (0 : ℝ) < 2 ^ sh := by positivity
  set f : ℝ := (rem + θ) / 2 ^ sh with hf
  have hr : (m + θ) * 2 ^ e / 2 ^ (e + (sh : ℤ)) = (lo : ℝ) + f := by
    rw [zpow_add₀ two_ne_zero, zpow_natCast, hf, hm]
    field_simp
    ring
  have hf0 : 0 ≤ f := by positivity
  have hf1 : f < 1 := by rw [hf, div_lt_one hD]; linarith
  have hzero : f = 0 ↔ rem = 0 ∧ sticky = false := by
    rw [hf, div_eq_zero_iff, or_iff_left hD.ne', add_eq_zero_iff_of_nonneg (by positivity) hθ0, Nat.cast_eq_zero]
    cases sticky <;> simp_all
  rw [hr, picks_add hf0 hf1, ← hup, ne_eq, hzero]
  by_cases hz : rem = 0 ∧ sticky = false
  · simp [hz, hzero.mpr hz]
  · have hfp : 0 < f := lt_of_le_of_ne hf0 fun h => hz (hzero.mp h.symm)
    simp only [hz, if_false, not_false_eq_true, true_and, Bool.false_eq_true, false_iff]
    refine ⟨⟨fun h => if_pos h, fun h => if_neg h⟩, fun heq => ?_⟩
    split at heq
    · push_cast at heq; linarith
    · linarith

end parts

section magnitude

variable {f : Fmt} {mode : Mode} {neg sat sticky : Bool} {n m : Nat} {e : Int} {a : ℝ}

theorem Parts.pos (h : Parts m e sticky a) (hm : m ≠ 0) : 0 < a :=
  lt_of_lt_of_le (by have : (0 : ℝ) < m := by exact_mod_cast Nat.pos_of_ne_zero hm
                     positivity) h.low

/-- The exponent of a magnitude is that of the parts that the model holds of it. -/
theorem Parts.log (h : Parts m e sticky a) (hm : m ≠ 0) : Int.log 2 a = m.log2 + e := by
  have hlow : (2 : ℝ) ^ m.log2 ≤ m := by exact_mod_cast Nat.log2_self_le hm
  have hhigh : (m : ℝ) + 1 ≤ 2 ^ (m.log2 + 1) := by exact_mod_cast Nat.lt_log2_self
  have hpos : (0 : ℝ) < 2 ^ e := by positivity
  apply le_antisymm
  · rw [← Int.lt_add_one_iff, ← Int.lt_zpow_iff_log_lt one_lt_two (h.pos hm)]
    calc a < (m + 1) * 2 ^ e := h.high
      _ ≤ 2 ^ (m.log2 + 1) * 2 ^ e := mul_le_mul_of_nonneg_right hhigh hpos.le
      _ = (2 : ℕ) ^ ((m.log2 : ℤ) + e + 1) := by
        rw [Nat.cast_ofNat, add_right_comm, zpow_add₀ two_ne_zero, ← zpow_natCast]; norm_cast
  · rw [← Int.zpow_le_iff_le_log one_lt_two (h.pos hm)]
    calc ((2 : ℕ) : ℝ) ^ ((m.log2 : ℤ) + e) = 2 ^ m.log2 * 2 ^ e := by
          rw [Nat.cast_ofNat, zpow_add₀ two_ne_zero, zpow_natCast]
      _ ≤ m * 2 ^ e := mul_le_mul_of_nonneg_right hlow hpos.le
      _ ≤ a := h.low

/-- A magnitude over its own unit has p + 1 bits, and so has what is picked of it, or it is the power of two above. -/
theorem pick_normal {p j : Nat} (ha : 0 < a) (hj : Picks mode neg n (a / 2 ^ (Int.log 2 a - p)) j) :
    2 ^ p ≤ j ∧ j ≤ 2 ^ (p + 1) := by
  have hpos : (0 : ℝ) < 2 ^ (Int.log 2 a - p) := by positivity
  have hlow : ((2 ^ p : ℕ) : ℝ) ≤ a / 2 ^ (Int.log 2 a - p) := by
    rw [le_div_iff₀ hpos, Nat.cast_pow, Nat.cast_ofNat, ← zpow_natCast, ← zpow_add₀ two_ne_zero, add_sub_cancel]
    exact_mod_cast Int.zpow_log_le_self one_lt_two ha
  have hhigh : a / 2 ^ (Int.log 2 a - p) < ((2 ^ (p + 1) : ℕ) : ℝ) := by
    rw [div_lt_iff₀ hpos, Nat.cast_pow, Nat.cast_ofNat, ← zpow_natCast, ← zpow_add₀ two_ne_zero]
    have := Int.lt_zpow_succ_log_self (b := 2) one_lt_two a
    rw [show ((p + 1 : ℕ) : ℤ) + (Int.log 2 a - p) = Int.log 2 a + 1 by push_cast; ring]
    exact_mod_cast this
  have h1 : 2 ^ p ≤ ⌊a / 2 ^ (Int.log 2 a - p)⌋₊ := Nat.le_floor hlow
  have h2 : ⌊a / 2 ^ (Int.log 2 a - p)⌋₊ < 2 ^ (p + 1) := (Nat.floor_lt (by positivity)).mpr hhigh
  rcases hj.near with rfl | rfl <;> omega

/-- Whether a mode takes an overflow to the largest finite value (R98). -/
def Mode.inward (mode : Mode) (neg : Bool) : Bool := mode == .rtz || (mode == .rdn && !neg) || (mode == .rup && neg)

theorem Mode.inward_iff : mode.inward neg = true ↔ mode = .rtz ∨ (mode = .rdn ∧ neg = false) ∨ (mode = .rup ∧ neg = true) := by
  cases mode <;> simp [Mode.inward]

/-- A magnitude that rounds in its own precision to less than the least normal value is tiny (R90). -/
theorem tiny_iff {p j : Nat} {lg : Int} (h : 2 ^ p ≤ j ∧ j ≤ 2 ^ (p + 1)) (least : Int) :
    (decide (lg < least) && !(decide (lg = least - 1) && decide (j ≥ 2 ^ (p + 1)))) = true
      ↔ (j : ℝ) * 2 ^ (lg - p) < 2 ^ least := by
  have hlow : (2 : ℝ) ^ lg ≤ j * 2 ^ (lg - p) := by
    calc (2 : ℝ) ^ lg = (2 ^ p : ℕ) * 2 ^ (lg - p) := by
          rw [Nat.cast_pow, Nat.cast_ofNat, ← zpow_natCast, ← zpow_add₀ two_ne_zero, add_sub_cancel]
      _ ≤ j * 2 ^ (lg - p) := mul_le_mul_of_nonneg_right (by exact_mod_cast h.1) (by positivity)
  have htop : ((2 ^ (p + 1) : ℕ) : ℝ) * 2 ^ (lg - p) = 2 ^ (lg + 1) := by
    rw [Nat.cast_pow, Nat.cast_ofNat, ← zpow_natCast, ← zpow_add₀ two_ne_zero]
    congr 1; push_cast; ring
  have hmono {x y : Int} : (2 : ℝ) ^ x ≤ 2 ^ y ↔ x ≤ y := zpow_le_zpow_iff_right₀ one_lt_two
  have hlt {x y : Int} : (2 : ℝ) ^ x < 2 ^ y ↔ x < y := zpow_lt_zpow_iff_right₀ one_lt_two
  rcases lt_or_ge j (2 ^ (p + 1)) with hj | hj
  · have hless : (j : ℝ) * 2 ^ (lg - p) < 2 ^ (lg + 1) := by
      rw [← htop]; exact mul_lt_mul_of_pos_right (by exact_mod_cast hj) (by positivity)
    simp only [not_le.mpr hj, decide_false, Bool.and_false, Bool.not_false, Bool.and_true, decide_eq_true_eq]
    refine ⟨fun hl => hless.trans_le (hmono.mpr hl), fun hl => hlt.mp (hlow.trans_lt hl)⟩
  · obtain rfl : j = 2 ^ (p + 1) := le_antisymm h.2 hj
    rw [htop, hlt]
    simp; omega

/-- Rounding a magnitude to a format: the whole numbers k and j that the mode picks in the format's unit and in the precision
without its least exponent decide the result and the flags (R90, R98). -/
theorem roundMag_eq (hm : m ≠ 0) (h : Parts m e sticky a) (hs : sticky = true → 2 ^ (f.mw + 17) ≤ m) :
    let lg := Int.log 2 a
    let q := max (lg - f.mw) f.qmin
    ∃ (k j : Nat) (exact tiny : Bool), Picks mode neg n (a / 2 ^ q) k ∧ Picks mode neg n (a / 2 ^ (lg - f.mw)) j
      ∧ (exact = true ↔ (k : ℝ) = a / 2 ^ q) ∧ (tiny = true ↔ (j : ℝ) * 2 ^ (lg - f.mw) < 2 ^ (f.qmin + f.mw))
      ∧ f.roundMag mode sat n neg m e sticky
        = if f.maxBits < (q - f.qmin).toNat * 2 ^ f.mw + k then
            (f.signBit neg + (if sat || mode.inward neg then f.maxBits else f.infBits), { overflow := true, inexact := true })
          else (f.signBit neg + ((q - f.qmin).toNat * 2 ^ f.mw + k), { inexact := !exact, underflow := !exact && tiny }) := by
  intro lg q
  have hlg : lg = m.log2 + e := h.log hm
  have hcut : sticky = true → e + 16 ≤ lg - f.mw := fun hst => by
    have h17 := (Nat.le_log2 hm).mpr (hs hst)
    omega
  obtain ⟨hk, hexact⟩ := roundAt_picks (mode := mode) (neg := neg) (n := n) (q := q) h fun hst => (hcut hst).trans (le_max_left _ _)
  obtain ⟨hj, -⟩ := roundAt_picks (mode := mode) (neg := neg) (n := n) h hcut
  refine ⟨_, _, _, _, hk, hj, hexact, tiny_iff (pick_normal (h.pos hm) hj) _, ?_⟩
  unfold Fmt.roundMag
  rw [if_neg (by simp [hm])]
  simp only [← hlg]
  refine if_congr Iff.rfl ?_ rfl
  cases mode <;> simp [Mode.inward]

/-- A magnitude rounded once to a float type (R90, R96 to R98). -/
theorem roundMag_roundedOnce (hinf : f.infBits = f.maxBits + 1) (hm : m ≠ 0) (h : Parts m e sticky a)
    (hs : sticky = true → 2 ^ (f.mw + 17) ≤ m) :
    RoundedOnce f.ew f.mw f.bias f.maxBits mode neg n a (f.roundMag mode false n neg m e sticky) := by
  obtain ⟨k, j, exact, tiny, hk, hj, hexact, htiny, hround⟩ := roundMag_eq (sat := false) (mode := mode) (neg := neg) (n := n) hm h hs
  have hmin : f.qmin + f.mw = 1 - f.bias := by unfold Fmt.qmin; ring
  refine ⟨k, j, hk, hj, fun hover => ?_, fun hfits => ?_⟩
  · rw [hround.trans (if_pos hover), Bool.false_or]
    refine ⟨rfl, fun hin => ?_, fun hin => ?_⟩
    · rw [if_pos (Mode.inward_iff.mpr hin)]; rfl
    · rw [if_neg (hin ∘ Mode.inward_iff.mp), hinf]; rfl
  · rw [hround.trans (if_neg (not_lt.mpr hfits))]
    refine ⟨rfl, ?_, ?_, rfl, rfl, rfl⟩
    · exact (show (!exact) = true ↔ ¬ exact = true by simp).trans (not_congr hexact)
    · rw [hmin] at htiny
      exact (show (!exact && tiny) = true ↔ ¬ exact = true ∧ tiny = true by simp).trans (and_congr (not_congr hexact) htiny)

end magnitude

end Sys2Proof.Machine
end

