-- ==== Sys2Proof/Proofs/VectorFunctions.lean ====
section
/-! PROOF. The quotient, the root and the reciprocal root of the vector functions: what the model computes are the parts of the
exact real magnitude, with more bits than any format keeps (R159, R160). -/

namespace Sys2Proof.Machine

section formats

variable {ty : VType} {w p : Nat} {bias : Int} {top nan : Nat}

/-- The format of a float type has the widths, the bias and the bits that R89 and R91 give. -/
structure FloatFmt (f : Fmt) (w p : Nat) (bias : Int) (top nan : Nat) : Prop where
  ew : f.ew = w
  mw : f.mw = p
  bias : f.bias = bias
  maxBits : f.maxBits = top
  nanBits : f.nanBits = nan
  infBits : f.infBits = f.maxBits + 1
  hasNan : f.hasNan = true
  precision : f.mw ≤ 52

theorem FloatType.fmt (h : FloatType ty w p bias top nan) : FloatFmt (vfmt ty) w p bias top nan := by
  simp only [FloatType, List.mem_cons, Prod.mk.injEq, List.not_mem_nil, or_false] at h
  rcases h with ⟨rfl, rfl, rfl, rfl, rfl, rfl⟩ | ⟨rfl, rfl, rfl, rfl, rfl, rfl⟩ | ⟨rfl, rfl, rfl, rfl, rfl, rfl⟩
    | ⟨rfl, rfl, rfl, rfl, rfl, rfl⟩ <;> exact ⟨rfl, rfl, rfl, rfl, rfl, rfl, rfl, by decide⟩

theorem FloatType.width (h : FloatType ty w p bias top nan) : 1 + w + p = vw ty := by
  simp only [FloatType, List.mem_cons, Prod.mk.injEq, List.not_mem_nil, or_false] at h
  rcases h with ⟨rfl, rfl, rfl, rfl, rfl, rfl⟩ | ⟨rfl, rfl, rfl, rfl, rfl, rfl⟩ | ⟨rfl, rfl, rfl, rfl, rfl, rfl⟩
    | ⟨rfl, rfl, rfl, rfl, rfl, rfl⟩ <;> rfl

end formats

section quotient

/-- The whole quotient of two numbers, and whether anything is left, are the parts of the exact quotient. -/
theorem parts_div (x : Nat) {y : Nat} (hy : y ≠ 0) (e : Int) :
    Parts (x / y) e (decide (x % y ≠ 0)) ((x : ℝ) / y * 2 ^ e) := by
  have hy0 : (0 : ℝ) < y := by exact_mod_cast Nat.pos_of_ne_zero hy
  have hpos : (0 : ℝ) < 2 ^ e := by positivity
  have hx : (x : ℝ) = (x / y : ℕ) * y + (x % y : ℕ) := by exact_mod_cast (Nat.div_add_mod' x y).symm
  have hr : ((x % y : ℕ) : ℝ) < y := by exact_mod_cast Nat.mod_lt x (Nat.pos_of_ne_zero hy)
  refine ⟨mul_le_mul_of_nonneg_right ?_ hpos.le, mul_lt_mul_of_pos_right ?_ hpos, ?_⟩
  · rw [le_div_iff₀ hy0, hx]
    linarith [(Nat.cast_nonneg (x % y) : (0 : ℝ) ≤ _)]
  · rw [div_lt_iff₀ hy0, hx]
    linarith
  · rw [decide_eq_true_eq, ne_eq, ne_eq, mul_left_inj' hpos.ne', div_eq_iff hy0.ne', hx, add_eq_left, Nat.cast_eq_zero]

theorem divMag_parts (m : Nat) (e : Int) {m' : Nat} (hm' : m' ≠ 0) (e' : Int) :
    let r := divMag m e m' e'
    Parts r.1 r.2.1 r.2.2 (m * 2 ^ e / (m' * 2 ^ e')) := by
  intro r
  have h := parts_div (m * 2 ^ (140 + m'.log2 - m.log2)) hm' (e - e' - (140 + m'.log2 - m.log2 : ℕ))
  have ha : ((m * 2 ^ (140 + m'.log2 - m.log2) : ℕ) : ℝ) / m' * 2 ^ (e - e' - (140 + m'.log2 - m.log2 : ℕ))
      = m * 2 ^ e / (m' * 2 ^ e') := by
    rw [zpow_sub₀ two_ne_zero, zpow_sub₀ two_ne_zero, zpow_natCast, Nat.cast_mul, Nat.cast_pow, Nat.cast_ofNat]
    field_simp
  exact ha ▸ h

theorem divMag_large {m m' : Nat} (hm : m ≠ 0) (hm' : m' ≠ 0) (e e' : Int) : 2 ^ 139 ≤ (divMag m e m' e').1 := by
  rw [divMag, Nat.le_div_iff_mul_le (Nat.pos_of_ne_zero hm')]
  calc 2 ^ 139 * m' ≤ 2 ^ 139 * 2 ^ (m'.log2 + 1) := Nat.mul_le_mul_left _ Nat.lt_log2_self.le
    _ = 2 ^ (140 + m'.log2) := by rw [← pow_add]; congr 1; omega
    _ ≤ 2 ^ (m.log2 + (140 + m'.log2 - m.log2)) := Nat.pow_le_pow_right two_pos (by omega)
    _ ≤ m * 2 ^ (140 + m'.log2 - m.log2) := by
      rw [pow_add]; exact Nat.mul_le_mul_right _ (Nat.log2_self_le hm)

end quotient

section roots

theorem isqrtFrom_spec (x : Nat) : ∀ n r, r * r ≤ x → x < (r + 2 ^ n) * (r + 2 ^ n) →
    let s := isqrtFrom x n r
    s * s ≤ x ∧ x < (s + 1) * (s + 1) := by
  intro n
  induction n with
  | zero => exact fun r hlow hhigh => ⟨hlow, hhigh⟩
  | succ n ih =>
    intro r hlow hhigh
    have hdouble : r + 2 ^ (n + 1) = r + 2 ^ n + 2 ^ n := by rw [pow_succ]; ring
    rw [isqrtFrom]
    split
    · exact ih _ ‹_› (hdouble ▸ hhigh)
    · exact ih _ hlow (not_le.mp ‹_›)

theorem isqrt_eq_sqrt (x : Nat) : isqrt x = Nat.sqrt x := by
  refine Nat.eq_sqrt.mpr (isqrtFrom_spec x _ 0 (by simp) ?_)
  calc x < 2 ^ (x.log2 + 1) := Nat.lt_log2_self
    _ ≤ 2 ^ ((x.log2 / 2 + 1) + (x.log2 / 2 + 1)) := Nat.pow_le_pow_right two_pos (by omega)
    _ = (0 + 2 ^ (x.log2 / 2 + 1)) * (0 + 2 ^ (x.log2 / 2 + 1)) := by rw [pow_add, zero_add]

/-- A whole root, and whether its square is the number, are the parts of the exact root. -/
theorem parts_sqrt {r : Nat} {v : ℝ} {sticky : Bool} (hlow : (r : ℝ) * r ≤ v) (hhigh : v < (r + 1) * (r + 1))
    (hs : sticky = true ↔ (r : ℝ) * r ≠ v) (h : Int) : Parts r h sticky (√v * 2 ^ h) := by
  have hpos : (0 : ℝ) < 2 ^ h := by positivity
  have hr : (0 : ℝ) ≤ r := by positivity
  refine ⟨mul_le_mul_of_nonneg_right (Real.le_sqrt_of_sq_le (by rwa [sq])) hpos.le, mul_lt_mul_of_pos_right ?_ hpos, ?_⟩
  · exact (Real.sqrt_lt' (by positivity)).mpr (by rwa [sq])
  · rw [hs, ne_eq, ne_eq, mul_left_inj' hpos.ne', Real.sqrt_eq_iff_mul_self_eq ((mul_nonneg hr hr).trans hlow) hr,
      eq_comm]

/-- The even form of a magnitude: its root is the root of the mantissa at half the exponent. -/
theorem sqrt_evenForm (m : Nat) (e : Int) (k : Nat) :
    √((m : ℝ) * 2 ^ e) = √((evenForm m e k).1 : ℝ) * 2 ^ (evenForm m e k).2 := by
  have he : e = (e % 2).toNat + 2 * k + 2 * (evenForm m e k).2 := by simp only [evenForm]; omega
  have hsq : (2 : ℝ) ^ (2 * (evenForm m e k).2) = (2 ^ (evenForm m e k).2) ^ 2 := by
    rw [← zpow_natCast, ← zpow_mul, mul_comm]; norm_num
  have hval : (m : ℝ) * 2 ^ e = (evenForm m e k).1 * (2 ^ (evenForm m e k).2) ^ 2 := by
    rw [← hsq]
    conv_lhs => rw [he]
    rw [zpow_add₀ two_ne_zero, ← mul_assoc]
    congr 1
    simp only [evenForm]
    push_cast
    rw [← zpow_natCast]
    norm_cast
  rw [hval, Real.sqrt_mul (by positivity), Real.sqrt_sq (by positivity)]

theorem sqrtMag_eq (m : Nat) (e : Int) :
    let x := (evenForm m e 100).1
    sqrtMag m e = (Nat.sqrt x, (evenForm m e 100).2, decide (Nat.sqrt x * Nat.sqrt x ≠ x)) := by
  simp only [sqrtMag, isqrt_eq_sqrt]

theorem sqrtMag_parts (m : Nat) (e : Int) :
    let r := sqrtMag m e
    Parts r.1 r.2.1 r.2.2 (√(m * 2 ^ e)) := by
  rw [sqrt_evenForm m e 100, sqrtMag_eq]
  generalize evenForm m e 100 = p
  have hlow : Nat.sqrt p.1 * Nat.sqrt p.1 ≤ p.1 := Nat.sqrt_le _
  have hhigh : p.1 < (Nat.sqrt p.1 + 1) * (Nat.sqrt p.1 + 1) := Nat.lt_succ_sqrt _
  exact parts_sqrt (by exact_mod_cast hlow) (by exact_mod_cast hhigh) (by simp only [decide_eq_true_eq]; norm_cast) _

theorem two_pow_le_sqrt {k x : Nat} (h : 2 ^ (2 * k) ≤ x) : 2 ^ k ≤ Nat.sqrt x :=
  Nat.le_sqrt.mpr (by rwa [← pow_add, ← two_mul])

theorem sqrtMag_large {m : Nat} (hm : m ≠ 0) (e : Int) : 2 ^ 100 ≤ (sqrtMag m e).1 := by
  have h : (sqrtMag m e).1 = Nat.sqrt (evenForm m e 100).1 := by rw [sqrtMag_eq]
  rw [h]
  refine two_pow_le_sqrt (k := 100) ?_
  calc 2 ^ (2 * 100) ≤ 1 * 2 ^ ((e % 2).toNat + 2 * 100) := by rw [one_mul]; exact Nat.pow_le_pow_right two_pos (by omega)
    _ ≤ m * 2 ^ ((e % 2).toNat + 2 * 100) := Nat.mul_le_mul_right _ (Nat.one_le_iff_ne_zero.mpr hm)

theorem evenForm_ne_zero {m : Nat} (hm : m ≠ 0) (e : Int) (k : Nat) : (evenForm m e k).1 ≠ 0 :=
  Nat.mul_ne_zero hm (Nat.two_pow_pos _).ne'

theorem rsqMag_eq (m : Nat) (e : Int) :
    let x := (evenForm m e 0).1
    let k := x.log2 / 2 + 100
    let r := Nat.sqrt (2 ^ (2 * k) / x)
    rsqMag m e = (r, -(evenForm m e 0).2 - k, decide (r * r * x ≠ 2 ^ (2 * k))) := by
  simp only [rsqMag, isqrt_eq_sqrt]

theorem rsqMag_parts {m : Nat} (hm : m ≠ 0) (e : Int) :
    let r := rsqMag m e
    Parts r.1 r.2.1 r.2.2 (1 / √(m * 2 ^ e)) := by
  rw [sqrt_evenForm m e 0, rsqMag_eq]
  have hx := evenForm_ne_zero hm e 0
  set x := (evenForm m e 0).1
  set h := (evenForm m e 0).2
  set k := x.log2 / 2 + 100
  set y := Nat.sqrt (2 ^ (2 * k) / x)
  have hx0 : (0 : ℝ) < x := by exact_mod_cast Nat.pos_of_ne_zero hx
  have hlow : y * y * x ≤ 2 ^ (2 * k) := (Nat.le_div_iff_mul_le (Nat.pos_of_ne_zero hx)).mp (Nat.sqrt_le _)
  have hhigh : 2 ^ (2 * k) < (y + 1) * (y + 1) * x :=
    (Nat.div_lt_iff_lt_mul (Nat.pos_of_ne_zero hx)).mp (Nat.lt_succ_sqrt _)
  have hval : 1 / (√(x : ℝ) * 2 ^ h) = √(2 ^ (2 * k) / x) * 2 ^ (-h - k : ℤ) := by
    rw [Real.sqrt_div (by positivity), pow_mul', Real.sqrt_sq (by positivity), zpow_sub₀ two_ne_zero, zpow_neg, zpow_natCast]
    field_simp
  rw [hval]
  clear_value y k
  refine parts_sqrt ?_ ?_ ?_ _
  · rw [le_div_iff₀ hx0]; exact_mod_cast hlow
  · rw [div_lt_iff₀ hx0]; exact_mod_cast hhigh
  · simp only [decide_eq_true_eq, ne_eq, eq_div_iff hx0.ne']; norm_cast

theorem rsqMag_large {m : Nat} (hm : m ≠ 0) (e : Int) : 2 ^ 99 ≤ (rsqMag m e).1 := by
  have hx := evenForm_ne_zero hm e 0
  rw [rsqMag_eq]
  generalize (evenForm m e 0).1 = x at hx
  refine two_pow_le_sqrt (k := 99) ((Nat.le_div_iff_mul_le (Nat.pos_of_ne_zero hx)).mpr ?_)
  calc 2 ^ (2 * 99) * x ≤ 2 ^ (2 * 99) * 2 ^ (x.log2 + 1) := Nat.mul_le_mul_left _ Nat.lt_log2_self.le
    _ = 2 ^ (2 * 99 + (x.log2 + 1)) := (pow_add 2 _ _).symm
    _ ≤ 2 ^ (2 * (x.log2 / 2 + 100)) := Nat.pow_le_pow_right two_pos (by omega)

end roots

section specials

variable {f : Fmt} {mode : Mode} {w p : Nat} {bias : Int} {top nan : Nat}

/-- A magnitude that the model holds in parts of enough bits, rounded once to a float type. -/
theorem roundFn_roundedOnce (hf : FloatFmt f w p bias top nan) (neg : Bool) (n : Nat) {a : ℝ} {x : Nat × Int × Bool}
    (h : Parts x.1 x.2.1 x.2.2 a) (h0 : x.1 ≠ 0) (hx : x.2.2 = true → 2 ^ (p + 17) ≤ x.1) :
    RoundedOnce w p bias top mode neg n a (roundFn f mode n neg x) := by
  obtain ⟨rfl, rfl, rfl, rfl, -, hinf, -, -⟩ := hf
  exact roundMag_roundedOnce hinf h0 h hx

theorem FloatFmt.enough (hf : FloatFmt f w p bias top nan) {m : Nat} (hm : 2 ^ 69 ≤ m) : m ≠ 0 ∧ 2 ^ (p + 17) ≤ m :=
  ⟨by omega, (Nat.pow_le_pow_right two_pos (by have := hf.mw; have := hf.precision; omega)).trans hm⟩

theorem mag_fin (neg : Bool) (m : Nat) (e : Int) : ((FVal.fin neg m e).mag : ℝ) = m * 2 ^ e := by
  simp only [FVal.mag]; push_cast; rfl

theorem mag_fin_eq_zero (neg : Bool) (m : Nat) (e : Int) : (FVal.fin neg m e).mag = 0 ↔ m = 0 := by
  simp [FVal.mag, zpow_ne_zero]

/-- The bits of a zero, or of the sign of a value, in a float type. -/
def signOf (w p : Nat) (neg : Bool) : Nat := if neg then 2 ^ (w + p) else 0

/-- What a division gives (R98, R160). -/
structure IsQuotient (w p : Nat) (bias : Int) (top nan : Nat) (mode : Mode) (x y : FVal) (n : Nat) (r : Nat × Flags) : Prop where
  nans : (x.isNan = true ∨ y.isNan = true) → r = (nan, { invalid := x.isSig || y.isSig })
  others : x.isNan = false → y.isNan = false →
    (x.isInf = true → y.isInf = true → r = (nan, Flags.inv))
    ∧ (x.isInf = true → y.isInf = false → r = (signOf w p (x.isNeg != y.isNeg) + (top + 1), Flags.none))
    ∧ (x.isInf = false → y.isInf = true → r = (signOf w p (x.isNeg != y.isNeg), Flags.none))
    ∧ (x.isInf = false → y.isInf = false →
      (x.mag = 0 → y.mag = 0 → r = (nan, Flags.inv))
      ∧ (x.mag ≠ 0 → y.mag = 0 → r = (signOf w p (x.isNeg != y.isNeg) + (top + 1), Flags.dz))
      ∧ (x.mag = 0 → y.mag ≠ 0 → r = (signOf w p (x.isNeg != y.isNeg), Flags.none))
      ∧ (x.mag ≠ 0 → y.mag ≠ 0 →
        RoundedOnce w p bias top mode (x.isNeg != y.isNeg) n ((x.mag / y.mag : ℚ) : ℝ) r))

theorem divF_quotient (hf : FloatFmt f w p bias top nan) (x y : FVal) (n : Nat) :
    IsQuotient w p bias top nan mode x y n (divF f mode n x y) := by
  have hfmt := hf
  obtain ⟨rfl, rfl, rfl, rfl, rfl, hinf, -, -⟩ := hf
  constructor
  · cases x <;> cases y <;> simp [FVal.isNan, FVal.isSig, divF]
  cases x with
  | nan s => simp [FVal.isNan]
  | inf a => cases y <;> simp [FVal.isNan, FVal.isInf, FVal.isNeg, divF, nanInv, signOf, Fmt.signBit, hinf]
  | fin a m e =>
    cases y with
    | nan s => simp [FVal.isNan]
    | inf b => simp [FVal.isNan, FVal.isInf, FVal.isNeg, divF, signOf, Fmt.signBit]
    | fin b m' e' =>
      simp only [FVal.isNan, FVal.isInf, FVal.isNeg, ne_eq, mag_fin_eq_zero, divF]
      refine fun _ _ => ⟨by simp, by simp, by simp, fun _ _ => ⟨fun hm hm' => ?_, fun hm hm' => ?_, fun hm hm' => ?_, fun hm hm' => ?_⟩⟩
      · rw [if_pos hm', if_pos hm]; rfl
      · rw [if_pos hm', if_neg hm, infDz, hinf]; rfl
      · rw [if_neg hm', if_pos hm]; rfl
      · rw [if_neg hm', if_neg hm, Rat.cast_div, mag_fin, mag_fin]
        obtain ⟨h0, hx⟩ := hfmt.enough (le_trans (by norm_num) (divMag_large hm hm' e e'))
        exact roundFn_roundedOnce hfmt _ n (divMag_parts m e hm' e') h0 fun _ => hx

/-- What a reciprocal root gives (R160). -/
structure IsReciprocalRoot (w p : Nat) (bias : Int) (top nan : Nat) (mode : Mode) (x : FVal) (n : Nat) (r : Nat × Flags) : Prop where
  nans : x.isNan = true → r = (nan, { invalid := x.isSig })
  infinity : x = .inf false → r = (0, Flags.none)
  zero : x.isNan = false → x.isInf = false → x.mag = 0 → r = (signOf w p x.isNeg + (top + 1), Flags.dz)
  negative : x.isNeg = true → (x.isInf = true ∨ x.mag ≠ 0) → r = (nan, Flags.inv)
  positive : x.isNeg = false → x.mag ≠ 0 → RoundedOnce w p bias top mode false n (1 / √(x.mag : ℝ)) r

theorem rsqF_reciprocalRoot (hf : FloatFmt f w p bias top nan) (x : FVal) (n : Nat) :
    IsReciprocalRoot w p bias top nan mode x n (rsqF f mode n x) := by
  have hfmt := hf
  obtain ⟨rfl, rfl, rfl, rfl, rfl, hinf, -, -⟩ := hf
  cases x with
  | nan s => constructor <;> simp [FVal.isNan, FVal.isSig, FVal.isNeg, FVal.mag, rsqF]
  | inf a => cases a <;> constructor <;> simp [FVal.isNan, FVal.isInf, FVal.isNeg, FVal.mag, rsqF, nanInv]
  | fin a m e =>
    constructor <;> simp only [FVal.isNan, FVal.isInf, FVal.isNeg, ne_eq, mag_fin_eq_zero, rsqF]
    · simp
    · simp
    · intro _ _ hm
      rw [if_pos hm, infDz, hinf]; rfl
    · intro ha hm
      rw [if_neg (by simpa using hm), if_pos ha]; rfl
    · intro ha hm
      rw [if_neg hm, if_neg (by simp [ha]), mag_fin]
      obtain ⟨h0, hx⟩ := hfmt.enough (le_trans (by norm_num) (rsqMag_large hm e))
      exact roundFn_roundedOnce hfmt _ n (rsqMag_parts hm e) h0 fun _ => hx

/-- What a root gives (R160). -/
structure IsRoot (w p : Nat) (bias : Int) (top nan : Nat) (mode : Mode) (x : FVal) (n : Nat) (r : Nat × Flags) : Prop where
  nans : x.isNan = true → r = (nan, { invalid := x.isSig })
  infinity : x = .inf false → r = (top + 1, Flags.none)
  zero : x.isNan = false → x.isInf = false → x.mag = 0 → r = (signOf w p x.isNeg, Flags.none)
  negative : x.isNeg = true → (x.isInf = true ∨ x.mag ≠ 0) → r = (nan, Flags.inv)
  positive : x.isNeg = false → x.mag ≠ 0 → RoundedOnce w p bias top mode false n (√(x.mag : ℝ)) r

theorem sqrtF_root (hf : FloatFmt f w p bias top nan) (x : FVal) (n : Nat) :
    IsRoot w p bias top nan mode x n (sqrtF f mode n x) := by
  have hfmt := hf
  obtain ⟨rfl, rfl, rfl, rfl, rfl, hinf, -, -⟩ := hf
  cases x with
  | nan s => constructor <;> simp [FVal.isNan, FVal.isSig, FVal.isNeg, FVal.mag, sqrtF]
  | inf a => cases a <;> constructor <;> simp [FVal.isNan, FVal.isInf, FVal.isNeg, FVal.mag, sqrtF, nanInv, hinf]
  | fin a m e =>
    constructor <;> simp only [FVal.isNan, FVal.isInf, FVal.isNeg, ne_eq, mag_fin_eq_zero, sqrtF]
    · simp
    · simp
    · intro _ _ hm
      rw [if_pos hm]; rfl
    · intro ha hm
      rw [if_neg (by simpa using hm), if_pos ha]; rfl
    · intro ha hm
      rw [if_neg hm, if_neg (by simp [ha]), mag_fin]
      obtain ⟨h0, hx⟩ := hfmt.enough (le_trans (by norm_num) (sqrtMag_large hm e))
      exact roundFn_roundedOnce hfmt _ n (sqrtMag_parts m e) h0 fun _ => hx

end specials

section instruction

variable {s : State} {e : Env} {st : Stall} {ty : VType} {rm : RmField} {d a b : VReg} {k : KReg} {z : Bool}

/-- A function of one float element is the masked instruction with that function. -/
theorem vFn1_lanewise (F : Fmt → Mode → Nat → FVal → Nat × Flags)
    (h : Ready s e (op32 st .notXc false 15 (vreads d k z false [.v a]))) :
    let mode := rmMode rm e.c.th
    ∃ t, vFn1 st ty rm d a k z F s = .next t
      ∧ Lanewise e (op32 st .notXc false 15 (vreads d k z false [.v a])) 8 d k z (ty == .f64) (vw ty) (mode == .sr)
        (fun i n => F (vfmt ty) mode n ((vfmt ty).decode (elemAt (vw ty) (e.c.th.rv a) i))) (e.c.th.pv a) t := by
  intro mode
  unfold vFn1
  exact vIssue_lanewise h (laneWidth_vw ty)

theorem vdiv_lanewise (h : Ready s e (op32 st .notXc false 15 (vreads d k z false [.v a, .v b]))) :
    let mode := rmMode rm e.c.th
    let x (r : VReg) (i : Nat) : FVal := (vfmt ty).decode (elemAt (vw ty) (e.c.th.rv r) i)
    ∃ t, execVdiv st ty rm d a b k z s = .next t
      ∧ Lanewise e (op32 st .notXc false 15 (vreads d k z false [.v a, .v b])) 8 d k z (ty == .f64) (vw ty) (mode == .sr)
        (fun i n => divF (vfmt ty) mode n (x a i) (x b i)) (e.c.th.pv a ||| e.c.th.pv b) t := by
  intro mode x
  unfold execVdiv
  exact vIssue_lanewise h (laneWidth_vw ty)

end instruction

/-- Settles O14: the parts that the model computes of each exact result round as the result itself. -/
theorem vectorFunctions : Obligations.VectorFunctions := by
  intro s e st ty rm d a b k z w p bias top nan hty
  have hf := hty.fmt
  dsimp only
  rw [hty.width]
  refine ⟨fun _ h => ?_, fun _ h => ?_, fun h => ?_, fun h => ?_⟩
  · obtain ⟨t, ht, hl⟩ := vFn1_lanewise rcpF h
    refine ⟨t, _, ht, fun i n => ?_, hl⟩
    obtain ⟨hnan, hother⟩ := divF_quotient (mode := rmMode rm e.c.th) hf (.fin false 1 0) _ n
    exact ⟨hnan, hother⟩
  · obtain ⟨t, ht, hl⟩ := vFn1_lanewise rsqF h
    refine ⟨t, _, ht, fun i n => ?_, hl⟩
    obtain ⟨hnan, hinf, hzero, hneg, hpos⟩ := rsqF_reciprocalRoot (mode := rmMode rm e.c.th) hf _ n
    exact ⟨hnan, hinf, hzero, hneg, hpos⟩
  · obtain ⟨t, ht, hl⟩ := vFn1_lanewise sqrtF h
    refine ⟨t, _, ht, fun i n => ?_, hl⟩
    obtain ⟨hnan, hinf, hzero, hneg, hpos⟩ := sqrtF_root (mode := rmMode rm e.c.th) hf _ n
    exact ⟨hnan, hinf, hzero, hneg, hpos⟩
  · obtain ⟨t, ht, hl⟩ := vdiv_lanewise h
    refine ⟨t, _, ht, fun i n => ?_, hl⟩
    obtain ⟨hnan, hother⟩ := divF_quotient (mode := rmMode rm e.c.th) hf _ _ n
    exact ⟨hnan, hother⟩

end Sys2Proof.Machine
end

