-- ==== Sys2Proof/Proofs/FixedPoint.lean ====
section
/-! SUPPORT. The fixed-point series of VEXP2 and VLOG2 (log 13): how far below the exact logarithm and the exact power they end. -/

namespace Sys2Proof.Machine

section fixedPoint

/-- The number that a fixed-point number of the work stands for. -/
noncomputable def fxVal (t : Nat) : ℝ := t / 2 ^ fxBits

/-- The unit of the fixed-point work. -/
noncomputable def fxUlp : ℝ := 1 / 2 ^ fxBits

theorem fxUlp_eq : fxUlp = 1 / 2 ^ 256 := rfl

theorem fxUlp_pos : 0 < fxUlp := by unfold fxUlp; positivity

theorem fxVal_nonneg (t : Nat) : 0 ≤ fxVal t := by unfold fxVal; positivity

theorem fxVal_add (s t : Nat) : fxVal (s + t) = fxVal s + fxVal t := by unfold fxVal; push_cast; ring

theorem fxVal_one : fxVal (2 ^ fxBits) = 1 := by unfold fxVal; push_cast; exact div_self (by positivity)

theorem natDiv_near (a : Nat) {b : Nat} (hb : b ≠ 0) : (a : ℝ) / b - 1 ≤ (a / b : ℕ) ∧ ((a / b : ℕ) : ℝ) ≤ a / b := by
  have h := parts_div a hb 0
  have hlow := h.low
  have hhigh := h.high
  simp only [zpow_zero, mul_one] at hlow hhigh
  exact ⟨by linarith, hlow⟩

/-- A quotient cut to the unit. -/
theorem fxVal_div (a : Nat) {k : Nat} (hk : k ≠ 0) : fxVal a / k - fxUlp ≤ fxVal (a / k) ∧ fxVal (a / k) ≤ fxVal a / k := by
  obtain ⟨h1, h2⟩ := natDiv_near a hk
  have hF : (0 : ℝ) < 2 ^ fxBits := by positivity
  unfold fxVal fxUlp
  rw [div_right_comm, ← sub_div]
  exact ⟨div_le_div_of_nonneg_right h1 hF.le, div_le_div_of_nonneg_right h2 hF.le⟩

/-- A product cut to the unit. -/
theorem fxVal_mul (a b : Nat) :
    fxVal a * fxVal b - fxUlp ≤ fxVal (a * b / 2 ^ fxBits) ∧ fxVal (a * b / 2 ^ fxBits) ≤ fxVal a * fxVal b := by
  have h := fxVal_div (a * b) (k := 2 ^ fxBits) (by positivity)
  have hm : fxVal (a * b) / ((2 ^ fxBits : ℕ) : ℝ) = fxVal a * fxVal b := by unfold fxVal; push_cast; ring
  rwa [hm] at h

/-- A ratio cut to the unit. -/
theorem fxVal_ratio (a : Nat) {b : Nat} (hb : b ≠ 0) :
    (a : ℝ) / b - fxUlp ≤ fxVal (a * 2 ^ fxBits / b) ∧ fxVal (a * 2 ^ fxBits / b) ≤ a / b := by
  have h := fxVal_div (a * 2 ^ fxBits) hb
  have hm : fxVal (a * 2 ^ fxBits) / (b : ℝ) = a / b := by unfold fxVal; push_cast; field_simp
  rwa [hm] at h

end fixedPoint

section logarithm

/-- The terms of the series of atanh from the odd index 2i + 1. -/
noncomputable def atanhTerms (x : ℝ) (i n : Nat) : ℝ := ∑ j ∈ Finset.range n, x ^ (2 * (i + j) + 1) / ((2 * (i + j) + 1 : ℕ) : ℝ)

theorem atanhTerms_succ (x : ℝ) (i n : Nat) :
    atanhTerms x i (n + 1) = x ^ (2 * i + 1) / ((2 * i + 1 : ℕ) : ℝ) + atanhTerms x (i + 1) n := by
  unfold atanhTerms
  rw [Finset.sum_range_succ', add_comm]
  congr 1
  refine Finset.sum_congr rfl fun j _ => ?_
  rw [show i + (j + 1) = i + 1 + j by ring]

/-- The series in fixed point ends below the exact terms, by 5 units a term at most. -/
theorem atanhFrom_near {Z : ℝ} {z2 : Nat} (h0 : 0 ≤ Z) (h1 : Z ≤ 1 / 3)
    (hz : fxVal z2 ≤ Z ^ 2 ∧ Z ^ 2 ≤ fxVal z2 + 5 / 3 * fxUlp) : ∀ n i t,
    (fxVal t ≤ Z ^ (2 * i + 1) ∧ Z ^ (2 * i + 1) ≤ fxVal t + 2 * fxUlp) →
    let r := fxVal (atanhFrom z2 n (2 * i + 1) t)
    r ≤ 2 * atanhTerms Z i n ∧ 2 * atanhTerms Z i n ≤ r + n * (5 * fxUlp) := by
  intro n
  induction n with
  | zero => intro i t _; simp [atanhFrom, atanhTerms, fxVal]
  | succ n ih =>
    intro i t ⟨hlow, hhigh⟩
    have hu := fxUlp_pos
    have hpow : Z ^ (2 * i + 1) ≤ 1 / 3 :=
      (pow_le_of_le_one h0 (by linarith) (by omega)).trans h1
    have hZ2 : Z ^ 2 ≤ 1 / 9 := by nlinarith
    have hnext : fxVal (t * z2 / 2 ^ fxBits) ≤ Z ^ (2 * (i + 1) + 1)
        ∧ Z ^ (2 * (i + 1) + 1) ≤ fxVal (t * z2 / 2 ^ fxBits) + 2 * fxUlp := by
      obtain ⟨m1, m2⟩ := fxVal_mul t z2
      have hsplit : Z ^ (2 * (i + 1) + 1) = Z ^ (2 * i + 1) * Z ^ 2 := by ring
      have ht := fxVal_nonneg t
      have hz0 := fxVal_nonneg z2
      rw [hsplit]
      constructor
      · exact m2.trans (mul_le_mul hlow hz.1 hz0 (by positivity))
      · have e1 : (Z ^ (2 * i + 1) - fxVal t) * Z ^ 2 ≤ 2 * fxUlp * (1 / 9) :=
          mul_le_mul (by linarith) hZ2 (by positivity) (by positivity)
        have e2 : fxVal t * (Z ^ 2 - fxVal z2) ≤ 1 / 3 * (5 / 3 * fxUlp) :=
          mul_le_mul (by linarith) (by linarith [hz.2]) (by linarith [hz.1]) (by norm_num)
        nlinarith
    obtain ⟨r1, r2⟩ := ih (i + 1) _ hnext
    obtain ⟨d1, d2⟩ := fxVal_div (2 * t) (k := 2 * i + 1) (by omega)
    have hk : (1 : ℝ) ≤ ((2 * i + 1 : ℕ) : ℝ) := by exact_mod_cast (by omega : 1 ≤ 2 * i + 1)
    have htwo : fxVal (2 * t) = 2 * fxVal t := by rw [two_mul, fxVal_add]; ring
    have q1 : fxVal (2 * t) / ((2 * i + 1 : ℕ) : ℝ) ≤ 2 * (Z ^ (2 * i + 1) / ((2 * i + 1 : ℕ) : ℝ)) := by
      rw [htwo, ← mul_div_assoc]; exact div_le_div_of_nonneg_right (by linarith) (by linarith)
    have q2 : 2 * (Z ^ (2 * i + 1) / ((2 * i + 1 : ℕ) : ℝ)) ≤ fxVal (2 * t) / ((2 * i + 1 : ℕ) : ℝ) + 4 * fxUlp := by
      rw [htwo, ← mul_div_assoc, div_le_iff₀ (by linarith), add_mul, div_mul_cancel₀ _ (by linarith)]
      nlinarith
    simp only [atanhFrom, fxVal_add, atanhTerms_succ, mul_add]
    rw [show 2 * i + 1 + 2 = 2 * (i + 1) + 1 by ring]
    push_cast at *
    constructor <;> linarith

/-- The logarithm in fixed point ends below the exact one, by 512 units at most. -/
theorem lnRatio_near {a b : Nat} (hb : b ≠ 0) (hlow : b ≤ a) (hhigh : a ≤ 2 * b) :
    fxVal (lnRatio a b) ≤ Real.log ((a : ℝ) / b) ∧ Real.log ((a : ℝ) / b) ≤ fxVal (lnRatio a b) + 512 * fxUlp := by
  have hb0 : (0 : ℝ) < b := by exact_mod_cast Nat.pos_of_ne_zero hb
  have hab : (b : ℝ) ≤ a := by exact_mod_cast hlow
  have hab2 : (a : ℝ) ≤ 2 * b := by exact_mod_cast hhigh
  set Z : ℝ := ((a - b : ℕ) : ℝ) / ((a + b : ℕ) : ℝ) with hZ
  have hsum : (0 : ℝ) < ((a + b : ℕ) : ℝ) := by push_cast; linarith
  have h0 : 0 ≤ Z := by positivity
  have h1 : Z ≤ 1 / 3 := by
    rw [hZ, div_le_iff₀ hsum, Nat.cast_sub hlow]; push_cast; linarith
  have hlog : Real.log ((a : ℝ) / b) = 2 * (1 / 2 * Real.log ((1 + Z) / (1 - Z))) := by
    have : (1 + Z) / (1 - Z) = a / b := by
      have hs : (a : ℝ) + b ≠ 0 := by linarith
      rw [hZ, Nat.cast_sub hlow]
      push_cast
      rw [one_add_div hs, one_sub_div hs, div_div_div_cancel_right₀ hs,
        show (a : ℝ) + b + (a - b) = 2 * a by ring, show (a : ℝ) + b - (a - b) = 2 * b by ring,
        mul_div_mul_left _ _ two_ne_zero]
    rw [this]; ring
  obtain ⟨z1, z2⟩ := fxVal_ratio (a - b) (b := a + b) (by omega)
  rw [← hZ] at z1 z2
  set z := (a - b) * 2 ^ fxBits / (a + b) with hz
  obtain ⟨m1, m2⟩ := fxVal_mul z z
  have hu := fxUlp_pos
  have hz0 := fxVal_nonneg z
  obtain ⟨r1, r2⟩ := atanhFrom_near h0 h1 (z2 := z * z / 2 ^ fxBits) ⟨by nlinarith, by nlinarith⟩ 84 0 z
    (by rw [mul_zero, zero_add, pow_one]; exact ⟨by linarith, by linarith⟩)
  have hterms : atanhTerms Z 0 84 = ∑ i ∈ Finset.range 84, Z ^ (2 * i + 1) / (2 * i + 1) := by
    unfold atanhTerms
    refine Finset.sum_congr rfl fun j _ => ?_
    rw [zero_add]; push_cast; rfl
  have hfrom := Real.sum_range_le_log_div h0 (by linarith) 84
  have hto := Real.log_div_le_sum_range_add h0 (by linarith) 84
  rw [← hterms] at hfrom hto
  have htail : Z ^ (2 * 84 + 1) / (1 - Z ^ 2) ≤ fxUlp := by
    have hpow : Z ^ (2 * 84 + 1) ≤ (1 / 3) ^ (2 * 84 + 1) := pow_le_pow_left₀ h0 h1 _
    have hden : 8 / 9 ≤ 1 - Z ^ 2 := by nlinarith
    rw [div_le_iff₀ (by linarith), fxUlp_eq]
    calc Z ^ (2 * 84 + 1) ≤ (1 / 3) ^ (2 * 84 + 1) := hpow
      _ ≤ 1 / 2 ^ 256 * (8 / 9) := by norm_num
      _ ≤ 1 / 2 ^ 256 * (1 - Z ^ 2) := mul_le_mul_of_nonneg_left hden (by positivity)
  have hr : lnRatio a b = atanhFrom (z * z / 2 ^ fxBits) 84 (2 * 0 + 1) z := rfl
  rw [hlog, hr]
  push_cast at r2
  constructor <;> linarith

theorem ln2_near : fxVal ln2 ≤ Real.log 2 ∧ Real.log 2 ≤ fxVal ln2 + 512 * fxUlp := by
  have h := lnRatio_near (a := 2) (b := 1) one_ne_zero (by norm_num) le_rfl
  simpa [ln2] using h

end logarithm

section power

/-- The terms of the exponential series from index i. -/
noncomputable def expTerms (x : ℝ) (i n : Nat) : ℝ := ∑ j ∈ Finset.range n, x ^ (i + j) / ((i + j).factorial : ℝ)

theorem expTerms_succ (x : ℝ) (i n : Nat) : expTerms x i (n + 1) = x ^ i / (i.factorial : ℝ) + expTerms x (i + 1) n := by
  unfold expTerms
  rw [Finset.sum_range_succ', add_comm]
  congr 1
  refine Finset.sum_congr rfl fun j _ => ?_
  rw [show i + (j + 1) = i + 1 + j by ring]

/-- The series in fixed point ends below the exact terms, by 7 units a term at most. -/
theorem expFrom_near {x : Nat} (hx : fxVal x ≤ 7 / 10) : ∀ n i t,
    (fxVal t ≤ fxVal x ^ i / (i.factorial : ℝ) ∧ fxVal x ^ i / (i.factorial : ℝ) ≤ fxVal t + 7 * fxUlp) →
    let r := fxVal (expFrom x n (i + 1) t)
    r ≤ expTerms (fxVal x) i n ∧ expTerms (fxVal x) i n ≤ r + n * (7 * fxUlp) := by
  intro n
  induction n with
  | zero => intro i t _; simp [expFrom, expTerms, fxVal]
  | succ n ih =>
    intro i t ⟨hlow, hhigh⟩
    have hu := fxUlp_pos
    have hx0 := fxVal_nonneg x
    have hk : (1 : ℝ) ≤ ((i + 1 : ℕ) : ℝ) := by exact_mod_cast Nat.le_add_left 1 i
    have hnext : fxVal (t * x / 2 ^ fxBits / (i + 1)) ≤ fxVal x ^ (i + 1) / ((i + 1).factorial : ℝ)
        ∧ fxVal x ^ (i + 1) / ((i + 1).factorial : ℝ) ≤ fxVal (t * x / 2 ^ fxBits / (i + 1)) + 7 * fxUlp := by
      obtain ⟨m1, m2⟩ := fxVal_mul t x
      obtain ⟨d1, d2⟩ := fxVal_div (t * x / 2 ^ fxBits) (k := i + 1) (by omega)
      have hsplit : fxVal x ^ (i + 1) / ((i + 1).factorial : ℝ)
          = fxVal x ^ i / (i.factorial : ℝ) * fxVal x / ((i + 1 : ℕ) : ℝ) := by
        rw [Nat.factorial_succ, pow_succ]; push_cast; field_simp
      rw [hsplit]
      have e1 : fxVal t * fxVal x ≤ fxVal x ^ i / (i.factorial : ℝ) * fxVal x := mul_le_mul_of_nonneg_right hlow hx0
      have e2 : fxVal x ^ i / (i.factorial : ℝ) * fxVal x ≤ fxVal t * fxVal x + 49 / 10 * fxUlp := by nlinarith
      constructor
      · exact d2.trans (div_le_div_of_nonneg_right (m2.trans e1) (by linarith))
      · have e3 : fxVal x ^ i / (i.factorial : ℝ) * fxVal x / ((i + 1 : ℕ) : ℝ)
            ≤ fxVal (t * x / 2 ^ fxBits) / ((i + 1 : ℕ) : ℝ) + 59 / 10 * fxUlp := by
          rw [div_le_iff₀ (by linarith), add_mul, div_mul_cancel₀ _ (by linarith)]
          nlinarith
        linarith
    obtain ⟨r1, r2⟩ := ih (i + 1) _ hnext
    simp only [expFrom, fxVal_add, expTerms_succ]
    push_cast at *
    constructor <;> linarith

theorem exp_near {x : Nat} (hx : fxVal x ≤ 7 / 10) :
    let r := fxVal (expFrom x 60 1 (2 ^ fxBits))
    r ≤ Real.exp (fxVal x) ∧ Real.exp (fxVal x) ≤ r + 421 * fxUlp := by
  intro r
  have hx0 := fxVal_nonneg x
  have hu := fxUlp_pos
  obtain ⟨r1, r2⟩ := expFrom_near hx 60 0 (2 ^ fxBits) (by rw [fxVal_one]; simp; linarith)
  have hterms : expTerms (fxVal x) 0 60 = ∑ i ∈ Finset.range 60, fxVal x ^ i / (i.factorial : ℝ) := by
    unfold expTerms
    exact Finset.sum_congr rfl fun j _ => by rw [zero_add]
  have hfrom := Real.sum_le_exp_of_nonneg hx0 60
  have hto := Real.exp_bound' hx0 (by linarith) (n := 60) (by norm_num)
  have htail : fxVal x ^ 60 * ((60 : ℕ) + 1) / (((60 : ℕ).factorial : ℝ) * (60 : ℕ)) ≤ fxUlp := by
    have hpow : fxVal x ^ 60 ≤ 1 := pow_le_one₀ hx0 (by linarith)
    rw [fxUlp_eq]
    calc fxVal x ^ 60 * ((60 : ℕ) + 1) / (((60 : ℕ).factorial : ℝ) * (60 : ℕ))
        ≤ 1 * ((60 : ℕ) + 1) / (((60 : ℕ).factorial : ℝ) * (60 : ℕ)) := by gcongr
      _ ≤ 1 / 2 ^ 256 := by norm_num [Nat.factorial]
  rw [← hterms] at hfrom hto
  push_cast at r2
  exact ⟨r1.trans hfrom, by linarith⟩

end power

end Sys2Proof.Machine
end

