-- ==== Sys2Proof/Proofs/VectorPowers.lean ====
section
/-! PROOF. VEXP2 and VLOG2 (R159, R160; log 13): the exact results, and the ones that the fixed-point work gives, half a unit above
its end, each within 2⁻²⁰⁰ of the exact value. -/

namespace Sys2Proof.Machine

/-- A fixed-point number cut short stands for any magnitude above it by less than a unit: the one half a unit above. -/
theorem parts_half (S c : Nat) (h : Int) : Parts (S / 2 ^ c) h true (((S : ℝ) + 1 / 2) * 2 ^ (h - c)) := by
  have hval : ((S : ℝ) + 1 / 2) * 2 ^ (h - c) = ((S : ℝ) + 1 / 2) / 2 ^ c * 2 ^ h := by
    rw [zpow_sub₀ two_ne_zero, zpow_natCast]; ring
  have hc : (0 : ℝ) < 2 ^ c := by positivity
  have hh : (0 : ℝ) < 2 ^ h := by positivity
  have hS : (S : ℝ) = (S / 2 ^ c : ℕ) * 2 ^ c + (S % 2 ^ c : ℕ) := by exact_mod_cast (Nat.div_add_mod' S (2 ^ c)).symm
  have hrem : ((S % 2 ^ c : ℕ) : ℝ) + 1 ≤ 2 ^ c := by exact_mod_cast Nat.mod_lt S (Nat.two_pow_pos c)
  have hrem0 : (0 : ℝ) ≤ ((S % 2 ^ c : ℕ) : ℝ) := by positivity
  have hlow : ((S / 2 ^ c : ℕ) : ℝ) < ((S : ℝ) + 1 / 2) / 2 ^ c := by rw [lt_div_iff₀ hc]; linarith
  have hhigh : ((S : ℝ) + 1 / 2) / 2 ^ c < (S / 2 ^ c : ℕ) + 1 := by rw [div_lt_iff₀ hc]; linarith
  rw [hval]
  exact ⟨mul_le_mul_of_nonneg_right hlow.le hh.le, mul_lt_mul_of_pos_right hhigh hh, by
    simpa [mul_left_inj' hh.ne'] using hlow.ne'⟩

section extremes

variable {ty : VType} {w p : Nat} {bias : Int} {top nan n : Nat} {mode : Mode} {neg : Bool} {r : Nat × Flags}

/-- The bounds of the float types but f64. -/
structure SmallFmt (p : Nat) (bias : Int) (top : Nat) : Prop where
  precision : p ≤ 23
  bias_pos : 0 ≤ bias
  bias_le : bias ≤ 127
  top_lt : top < 2 ^ 8 * 2 ^ p

theorem FloatType.small (h : FloatType ty w p bias top nan) (hty : ty ≠ .f64) : SmallFmt p bias top := by
  simp only [FloatType, List.mem_cons, Prod.mk.injEq, List.not_mem_nil, or_false] at h
  rcases h with ⟨rfl, rfl, rfl, rfl, rfl, rfl⟩ | ⟨rfl, rfl, rfl, rfl, rfl, rfl⟩ | ⟨rfl, rfl, rfl, rfl, rfl, rfl⟩
    | ⟨rfl, rfl, rfl, rfl, rfl, rfl⟩
  · exact absurd rfl hty
  all_goals constructor <;> norm_num

theorem exists_picks (mode : Mode) (neg : Bool) (n : Nat) (r : ℝ) : ∃ k, Picks mode neg n r k := by
  unfold Picks
  exact (Classical.em _).elim (fun hu => ⟨_, fun _ => rfl, fun h => absurd hu h⟩) fun hu => ⟨_, fun h => absurd h hu, fun _ => rfl⟩

theorem SmallFmt.huge (h : SmallFmt p bias top) {v : ℝ} (hv : 2 ^ (4096 : ℤ) ≤ v) (k : Nat) :
    top < (max (Int.log 2 v - p) (1 - bias - p) - (1 - bias - p)).toNat * 2 ^ p + k := by
  obtain ⟨-, hb0, -, htop⟩ := h
  have hlog : 4096 ≤ Int.log 2 v :=
    (Int.zpow_le_iff_le_log one_lt_two (lt_of_lt_of_le (by positivity) hv)).mp (by rwa [Nat.cast_ofNat])
  calc top < 2 ^ 8 * 2 ^ p := htop
    _ ≤ (max (Int.log 2 v - p) (1 - bias - p) - (1 - bias - p)).toNat * 2 ^ p := Nat.mul_le_mul_right _ (by omega)
    _ ≤ _ := Nat.le_add_right _ _

/-- All magnitudes from 2^4096 on overflow alike. -/
theorem RoundedOnce.of_huge (h : SmallFmt p bias top) {v v' : ℝ} (hv : 2 ^ (4096 : ℤ) ≤ v) (hv' : 2 ^ (4096 : ℤ) ≤ v')
    (hr : RoundedOnce w p bias top mode neg n v r) : RoundedOnce w p bias top mode neg n v' r := by
  obtain ⟨k, -, -, -, hover, -⟩ := hr
  obtain ⟨k', hk'⟩ := exists_picks mode neg n (v' / 2 ^ max (Int.log 2 v' - p) (1 - bias - p))
  obtain ⟨j', hj'⟩ := exists_picks mode neg n (v' / 2 ^ (Int.log 2 v' - p))
  exact ⟨k', j', hk', hj', fun _ => hover (h.huge hv k), fun hle => absurd hle (not_le.mpr (h.huge hv' k'))⟩

/-- Of magnitudes far below one, a mode picks the same whole number. -/
theorem Picks.of_minute {k : Nat} {x y : ℝ} (hx0 : 0 < x) (hx : x < 1 / 2 ^ 16) (hy0 : 0 < y) (hy : y < 1 / 2 ^ 16)
    (h : Picks mode neg n x k) : Picks mode neg n y k := by
  have hup {f : ℝ} (h0 : 0 < f) (h1 : f < 1 / 2 ^ 16) :
      RoundsUp mode neg n 0 f ↔ (mode = .rdn ∧ neg = true) ∨ (mode = .rup ∧ neg = false) ∨ (mode = .sr ∧ 2 ^ 16 ≤ n) := by
    have hfl : ⌊f * 2 ^ 16⌋₊ = 0 := Nat.floor_eq_zero.mpr (by rwa [← lt_div_iff₀ (by positivity)])
    have hlt : ¬ (1 / 2 < f) := by norm_num at h1 ⊢; linarith
    have heq : ¬ (f = 1 / 2) := by norm_num at h1 ⊢; linarith
    cases mode <;> simp [RoundsUp, hfl, hlt, heq, -one_div]
  have hpick {f : ℝ} (h0 : 0 < f) (h1 : f < 1 / 2 ^ 16) := picks_add (mode := mode) (neg := neg) (n := n) (k := k) (lo := 0) h0.le
    (h1.trans (by norm_num))
  have hx' := hpick hx0 hx
  have hy' := hpick hy0 hy
  simp only [Nat.cast_zero, zero_add, ne_eq, hx0.ne', hy0.ne', not_false_eq_true, true_and, hup hx0 hx, hup hy0 hy] at hx' hy'
  exact hy'.mpr (hx'.mp h)

/-- All magnitudes up to 2^-4096 round alike: to zero or to the least subnormal value, tiny and inexact. -/
theorem RoundedOnce.of_minute (h : SmallFmt p bias top) {v v' : ℝ} (h0 : 0 < v) (hv : v ≤ 2 ^ (-4096 : ℤ)) (h0' : 0 < v')
    (hv' : v' ≤ 2 ^ (-4096 : ℤ)) (hr : RoundedOnce w p bias top mode neg n v r) : RoundedOnce w p bias top mode neg n v' r := by
  obtain ⟨hp, hb0, hb1, -⟩ := h
  have hlog {x : ℝ} (hx0 : 0 < x) (hx : x ≤ 2 ^ (-4096 : ℤ)) : Int.log 2 x < -4095 :=
    (Int.lt_zpow_iff_log_lt one_lt_two hx0).mp (hx.trans_lt (by
      rw [Nat.cast_ofNat]; exact zpow_lt_zpow_right₀ one_lt_two (by norm_num)))
  have hunit {x : ℝ} (hx0 : 0 < x) (hx : x ≤ 2 ^ (-4096 : ℤ)) : max (Int.log 2 x - p) (1 - bias - p) = 1 - bias - p :=
    max_eq_right (by have := hlog hx0 hx; omega)
  have hsmall {x : ℝ} (hx0 : 0 < x) (hx : x ≤ 2 ^ (-4096 : ℤ)) :
      0 < x / 2 ^ (1 - bias - p) ∧ x / 2 ^ (1 - bias - p) < 1 / 2 ^ 16 := by
    refine ⟨by positivity, ?_⟩
    rw [div_lt_iff₀ (by positivity)]
    calc x ≤ 2 ^ (-4096 : ℤ) := hx
      _ < 2 ^ (-16 + (1 - bias - p)) := zpow_lt_zpow_right₀ one_lt_two (by omega)
      _ = 1 / 2 ^ 16 * 2 ^ (1 - bias - p) := by rw [zpow_add₀ two_ne_zero]; norm_num
  have hbelow {x : ℝ} (hx0 : 0 < x) (hx : x ≤ 2 ^ (-4096 : ℤ)) (k : ℕ) : (k : ℝ) ≠ x / 2 ^ (1 - bias - p) := by
    obtain ⟨s0, s1⟩ := hsmall hx0 hx
    rcases Nat.eq_zero_or_pos k with rfl | hk
    · simpa using s0.ne
    · have : (1 : ℝ) ≤ k := by exact_mod_cast hk
      have : x / 2 ^ (1 - bias - p) < 1 := s1.trans (by norm_num)
      linarith
  have htiny {x : ℝ} (hx0 : 0 < x) (hx : x ≤ 2 ^ (-4096 : ℤ)) {j : ℕ} (hj : Picks mode neg n (x / 2 ^ (Int.log 2 x - p)) j) :
      (j : ℝ) * 2 ^ (Int.log 2 x - p) < 2 ^ (1 - bias) := by
    have hle : (j : ℝ) ≤ 2 ^ (p + 1) := by exact_mod_cast (pick_normal hx0 hj).2
    calc (j : ℝ) * 2 ^ (Int.log 2 x - p) ≤ 2 ^ (p + 1) * 2 ^ (Int.log 2 x - p) := mul_le_mul_of_nonneg_right hle (by positivity)
      _ = 2 ^ (Int.log 2 x + 1) := by
        rw [← zpow_natCast, ← zpow_add₀ two_ne_zero]; congr 1; push_cast; ring
      _ < 2 ^ (1 - bias) := zpow_lt_zpow_right₀ one_lt_two (by have := hlog hx0 hx; omega)
  obtain ⟨k, j, hk, hj, hover, hfits⟩ := hr
  obtain ⟨j', hj'⟩ := exists_picks mode neg n (v' / 2 ^ (Int.log 2 v' - p))
  rw [hunit h0 hv] at hk hover hfits
  obtain ⟨s0, s1⟩ := hsmall h0 hv
  obtain ⟨s0', s1'⟩ := hsmall h0' hv'
  refine ⟨k, j', ?_, hj', ?_⟩
  · rw [hunit h0' hv']
    exact hk.of_minute s0 s1 s0' s1'
  · rw [hunit h0' hv']
    refine ⟨hover, fun hle => ?_⟩
    obtain ⟨hbits, hinexact, hunder, hrest⟩ := hfits hle
    refine ⟨hbits, ?_, ?_, hrest⟩
    · exact hinexact.trans (iff_of_true (hbelow h0 hv k) (hbelow h0' hv' k))
    · exact hunder.trans (iff_of_true ⟨hbelow h0 hv k, htiny h0 hv hj⟩ ⟨hbelow h0' hv' k, htiny h0' hv' hj'⟩)

end extremes

section power

variable {ty : VType} {f : Fmt} {w p : Nat} {bias : Int} {top nan n : Nat} {mode : Mode}

/-- A value that VEXP2 and VLOG2 may round in place of the exact one, v (log 13). -/
def NearlyRounded (w p : Nat) (bias : Int) (top : Nat) (mode : Mode) (neg : Bool) (n : Nat) (v : ℝ) (r : Nat × Flags) : Prop :=
  ∃ u : ℝ, |u - v| ≤ v / 2 ^ 200 ∧ RoundedOnce w p bias top mode neg n u r

/-- A power of two is held exactly. -/
theorem roundFn_twoPow (hf : FloatFmt f w p bias top nan) (neg : Bool) (k : Int) :
    RoundedOnce w p bias top mode neg n (2 ^ k) (roundFn f mode n neg (1, k, false)) := by
  have h := parts_exact 1 k
  rw [Nat.cast_one, one_mul] at h
  exact roundFn_roundedOnce hf neg n h one_ne_zero (by simp)

/-- The fixed-point exponent of a fraction g / 2^s (R159). -/
def exp2Arg (g s : Nat) : Nat := (if s ≤ fxBits then g * 2 ^ (fxBits - s) else g / 2 ^ (s - fxBits)) * ln2 / 2 ^ fxBits

theorem exp2Frac_eq (g s : Nat) :
    exp2Frac g s = expFrom (exp2Arg g s) 60 1 (2 ^ fxBits) / 2 ^ (fxBits - 64) := rfl

theorem fxVal_fraction (g s : Nat) :
    let x := fxVal (if s ≤ fxBits then g * 2 ^ (fxBits - s) else g / 2 ^ (s - fxBits))
    x ≤ (g : ℝ) / 2 ^ s ∧ (g : ℝ) / 2 ^ s ≤ x + fxUlp := by
  intro x
  have hu := fxUlp_pos
  by_cases hs : s ≤ fxBits
  · have hx : x = (g : ℝ) / 2 ^ s := by
      obtain ⟨c, hc⟩ := Nat.exists_eq_add_of_le hs
      simp only [x, if_pos hs, fxVal]
      rw [hc, Nat.add_sub_cancel_left, pow_add]
      push_cast
      rw [mul_div_mul_right _ _ (by positivity)]
    constructor <;> linarith
  · obtain ⟨d1, d2⟩ := fxVal_div g (k := 2 ^ (s - fxBits)) (by positivity)
    have hg : fxVal g / ((2 ^ (s - fxBits) : ℕ) : ℝ) = (g : ℝ) / 2 ^ s := by
      rw [fxVal, div_div]; push_cast; rw [← pow_add, Nat.add_sub_cancel' (not_le.mp hs).le]
    simp only [x, if_neg hs]
    rw [hg] at d1 d2
    constructor <;> linarith

/-- The power in fixed point ends below the exact one, by 2048 units at most. -/
theorem exp2_near {g s : Nat} (hg : g < 2 ^ s) :
    let r := fxVal (expFrom (exp2Arg g s) 60 1 (2 ^ fxBits))
    r ≤ (2 : ℝ) ^ ((g : ℝ) / 2 ^ s) ∧ (2 : ℝ) ^ ((g : ℝ) / 2 ^ s) ≤ r + 2048 * fxUlp := by
  intro r
  have hu := fxUlp_pos
  set y : ℝ := (g : ℝ) / 2 ^ s with hy
  have hy0 : 0 ≤ y := by positivity
  have hy1 : y ≤ 1 := by
    rw [hy, div_le_one (by positivity)]; exact_mod_cast hg.le
  obtain ⟨x1, x2⟩ := fxVal_fraction g s
  obtain ⟨l1, l2⟩ := ln2_near
  rw [← hy] at x1 x2
  set X := if s ≤ fxBits then g * 2 ^ (fxBits - s) else g / 2 ^ (s - fxBits)
  obtain ⟨m1, m2⟩ : fxVal X * fxVal ln2 - fxUlp ≤ fxVal (exp2Arg g s) ∧ fxVal (exp2Arg g s) ≤ fxVal X * fxVal ln2 := fxVal_mul X ln2
  have hX0 := fxVal_nonneg X
  have hL0 := fxVal_nonneg ln2
  have hlog2 := Real.log_two_lt_d9
  have hlog2' := Real.log_two_gt_d9
  have hprod : fxVal X * fxVal ln2 ≤ y * Real.log 2 := mul_le_mul x1 l1 hL0 hy0
  have hprod' : y * Real.log 2 ≤ fxVal X * fxVal ln2 + 513 * fxUlp := by
    have e1 : (y - fxVal X) * Real.log 2 ≤ fxUlp * 1 := mul_le_mul (by linarith) (by linarith) (by linarith) hu.le
    have e2 : fxVal X * (Real.log 2 - fxVal ln2) ≤ 1 * (512 * fxUlp) :=
      mul_le_mul (by linarith) (by linarith) (by linarith) one_pos.le
    linarith
  have hyl : y * Real.log 2 ≤ 7 / 10 := by
    calc y * Real.log 2 ≤ 1 * Real.log 2 := mul_le_mul_of_nonneg_right hy1 (by linarith)
      _ ≤ 7 / 10 := by linarith
  obtain ⟨r1, r2⟩ := exp_near (x := exp2Arg g s) (by linarith)
  have hpow : (2 : ℝ) ^ y = Real.exp (y * Real.log 2) := by rw [Real.rpow_def_of_pos two_pos, mul_comm]
  set T := fxVal (exp2Arg g s)
  have hle : Real.exp T ≤ Real.exp (y * Real.log 2) := Real.exp_le_exp.mpr (by linarith)
  have htwo : Real.exp (y * Real.log 2) ≤ 2 := by
    rw [← hpow]
    calc (2 : ℝ) ^ y ≤ 2 ^ (1 : ℝ) := Real.rpow_le_rpow_of_exponent_le one_le_two hy1
      _ = 2 := Real.rpow_one 2
  have hgap : Real.exp (y * Real.log 2) ≤ Real.exp T + 1028 * fxUlp := by
    have h1 : 1 - (y * Real.log 2 - T) ≤ Real.exp (-(y * Real.log 2 - T)) := by
      have := Real.add_one_le_exp (-(y * Real.log 2 - T)); linarith
    have h2 : Real.exp T = Real.exp (y * Real.log 2) * Real.exp (-(y * Real.log 2 - T)) := by
      rw [← Real.exp_add]; congr 1; ring
    have h3 : Real.exp (y * Real.log 2) * (1 - (y * Real.log 2 - T)) ≤ Real.exp T := by
      rw [h2]; exact mul_le_mul_of_nonneg_left h1 (Real.exp_pos _).le
    have h4 : Real.exp (y * Real.log 2) * (y * Real.log 2 - T) ≤ 2 * (514 * fxUlp) :=
      mul_le_mul htwo (by linarith) (by linarith) two_pos.le
    linarith
  rw [hpow]
  constructor <;> linarith

/-- The result of VEXP2 for a fraction that is not zero. -/
theorem exp2Frac_nearly (hf : FloatFmt f w p bias top nan) (hsm : SmallFmt p bias top) {g s : Nat} (hg : g < 2 ^ s) (k : Int) :
    NearlyRounded w p bias top mode false n ((2 : ℝ) ^ (k + (g : ℝ) / 2 ^ s)) (roundFn f mode n false (exp2Frac g s, k - 64, true)) := by
  obtain ⟨r1, r2⟩ := exp2_near hg
  have hone : (1 : ℝ) ≤ (2 : ℝ) ^ ((g : ℝ) / 2 ^ s) := Real.one_le_rpow one_le_two (by positivity)
  rw [exp2Frac_eq]
  generalize hS : expFrom (exp2Arg g s) 60 1 (2 ^ fxBits) = S at r1 r2 ⊢
  have hk : (0 : ℝ) < 2 ^ k := by positivity
  have hu : ((S : ℝ) + 1 / 2) * 2 ^ (k - 64 - (fxBits - 64 : ℕ)) = 2 ^ k * (fxVal S + 1 / 2 * fxUlp) := by
    have he : k - 64 - ((fxBits - 64 : ℕ) : ℤ) = k - (fxBits : ℕ) := by simp [fxBits]; ring
    rw [he, zpow_sub₀ two_ne_zero, zpow_natCast, fxVal, fxUlp]; ring
  have hlarge : 2 ^ 64 ≤ S / 2 ^ (fxBits - 64) := by
    rw [Nat.le_div_iff_mul_le (by positivity), ← pow_add]
    have hstart : S = 2 ^ fxBits + expFrom (exp2Arg g s) 59 2 (2 ^ fxBits * exp2Arg g s / 2 ^ fxBits / 1) := hS ▸ rfl
    have he : 64 + (fxBits - 64) = fxBits := rfl
    rw [he, hstart]
    exact Nat.le_add_right _ _
  refine ⟨_, ?_, roundFn_roundedOnce hf false n (parts_half S (fxBits - 64) (k - 64)) (by omega) fun _ => le_trans ?_ hlarge⟩
  · rw [hu, Real.rpow_add two_pos, Real.rpow_intCast, ← mul_sub, abs_mul, abs_of_pos hk, mul_div_assoc]
    refine mul_le_mul_of_nonneg_left ?_ hk.le
    have hpos := fxUlp_pos
    calc |fxVal S + 1 / 2 * fxUlp - (2 : ℝ) ^ ((g : ℝ) / 2 ^ s)| ≤ 2048 * fxUlp := abs_le.mpr ⟨by linarith, by linarith⟩
      _ ≤ 1 / 2 ^ 200 := by rw [fxUlp_eq]; norm_num
      _ ≤ _ := div_le_div_of_nonneg_right hone (by positivity)
  · exact Nat.pow_le_pow_right two_pos (by have := hsm.precision; omega)

/-- The exponent of VEXP2 as its whole part and its fraction. -/
theorem rat_split (neg : Bool) (m : Nat) (e : Int) :
    let s := (-e).toNat
    let v : Int := (if neg then -(m : Int) else m) * 2 ^ e.toNat
    (((FVal.fin neg m e).rat : ℚ) : ℝ) = (v / 2 ^ s : ℤ) + ((v % 2 ^ s).toNat : ℝ) / 2 ^ s := by
  intro s v
  have hs : (0 : ℤ) < 2 ^ s := by positivity
  have hnat : (((v % 2 ^ s).toNat : ℕ) : ℝ) = ((v % 2 ^ s : ℤ) : ℝ) := by
    exact_mod_cast Int.toNat_of_nonneg (Int.emod_nonneg v hs.ne')
  have hv : (v : ℝ) = (v / 2 ^ s : ℤ) * 2 ^ s + (v % 2 ^ s : ℤ) := by
    exact_mod_cast (Int.ediv_mul_add_emod v (2 ^ s)).symm
  have hrat : (((FVal.fin neg m e).rat : ℚ) : ℝ) = v / 2 ^ s := by
    have he : (2 : ℝ) ^ e = 2 ^ e.toNat / 2 ^ s := by
      rw [← zpow_natCast, ← zpow_natCast, ← zpow_sub₀ two_ne_zero]; congr 1; omega
    have hmag : (m : ℝ) * 2 ^ e = m * 2 ^ e.toNat / 2 ^ s := by rw [he, mul_div_assoc]
    cases neg with
    | false => simpa [FVal.rat, FVal.isNeg, FVal.mag, v] using hmag
    | true => simpa [FVal.rat, FVal.isNeg, FVal.mag, v, neg_div] using hmag
  rw [hrat, hnat, hv]
  field_simp

theorem mag_large {m : Nat} {e : Int} (hm : m ≠ 0) (hbig : 12 ≤ (m.log2 : Int) + e) :
    (4096 : ℝ) ≤ m * 2 ^ e := by
  calc (4096 : ℝ) = 2 ^ (12 : ℤ) := by norm_num
    _ ≤ 2 ^ ((m.log2 : ℤ) + e) := zpow_le_zpow_right₀ one_le_two hbig
    _ = 2 ^ m.log2 * 2 ^ e := by rw [zpow_add₀ two_ne_zero, zpow_natCast]
    _ ≤ m * 2 ^ e := mul_le_mul_of_nonneg_right (by exact_mod_cast Nat.log2_self_le hm) (by positivity)

/-- What a power of two gives (R159, R160). -/
structure IsPower (w p : Nat) (bias : Int) (top nan : Nat) (mode : Mode) (x : FVal) (n : Nat) (r : Nat × Flags) : Prop where
  nans : x.isNan = true → r = (nan, { invalid := x.isSig })
  negInf : x = .inf true → r = (0, Flags.none)
  posInf : x = .inf false → r = (top + 1, Flags.none)
  finite : x.isNan = false → x.isInf = false →
    (∀ m : Int, x.rat = m → RoundedOnce w p bias top mode false n (2 ^ m) r)
    ∧ ((∀ m : Int, x.rat ≠ m) → NearlyRounded w p bias top mode false n (2 ^ (x.rat : ℝ)) r)

/-- Where a result rounds the real power of the exponent, it rounds a whole power too. -/
theorem IsPower.of_rpow {x : FVal} {r : Nat × Flags} (h : RoundedOnce w p bias top mode false n ((2 : ℝ) ^ (x.rat : ℝ)) r) :
    (∀ m : Int, x.rat = m → RoundedOnce w p bias top mode false n (2 ^ m) r)
    ∧ ((∀ m : Int, x.rat ≠ m) → NearlyRounded w p bias top mode false n (2 ^ (x.rat : ℝ)) r) := by
  refine ⟨fun m hm => ?_, fun _ => ⟨_, by rw [sub_self, abs_zero]; positivity, h⟩⟩
  rwa [hm, Rat.cast_intCast, Real.rpow_intCast] at h

/-- Beyond `2 ^ ±4096` the power is as far out of the format's range as that bound, which the model rounds instead. -/
theorem twoPow_large (hf : FloatFmt f w p bias top nan) (hsm : SmallFmt p bias top) {neg : Bool} {m : Nat} {e : Int}
    (hm : m ≠ 0) (hbig : 12 ≤ (m.log2 : Int) + e) :
    RoundedOnce w p bias top mode false n ((2 : ℝ) ^ (((FVal.fin neg m e).rat : ℚ) : ℝ))
      (roundFn f mode n false (1, if neg then -4096 else 4096, false)) := by
  have hlarge := mag_large hm hbig
  cases neg with
  | false =>
    have hrat : (((FVal.fin false m e).rat : ℚ) : ℝ) = m * 2 ^ e := by simp [FVal.rat, FVal.isNeg, FVal.mag]
    rw [hrat]
    refine RoundedOnce.of_huge hsm (v := 2 ^ (4096 : ℤ)) le_rfl ?_ (roundFn_twoPow hf false 4096)
    calc (2 : ℝ) ^ (4096 : ℤ) = 2 ^ (4096 : ℝ) := by rw [← Real.rpow_intCast]; norm_num
      _ ≤ _ := Real.rpow_le_rpow_of_exponent_le one_le_two hlarge
  | true =>
    have hrat : (((FVal.fin true m e).rat : ℚ) : ℝ) = -(m * 2 ^ e) := by simp [FVal.rat, FVal.isNeg, FVal.mag]
    rw [hrat]
    refine RoundedOnce.of_minute hsm (v := 2 ^ (-4096 : ℤ)) (by positivity) le_rfl (by positivity) ?_
      (roundFn_twoPow hf false (-4096))
    calc _ ≤ (2 : ℝ) ^ (-4096 : ℝ) := Real.rpow_le_rpow_of_exponent_le one_le_two (by linarith)
      _ = 2 ^ (-4096 : ℤ) := by rw [← Real.rpow_intCast]; norm_num

/-- A whole number with a fraction that is not zero is no whole number. -/
theorem int_add_fraction_ne {g s : Nat} (hg : g ≠ 0) (hlt : g < 2 ^ s) (j k : Int) :
    (j : ℝ) + (g : ℝ) / 2 ^ s ≠ k := by
  intro h
  have hg0 : (0 : ℝ) < (g : ℝ) / 2 ^ s := div_pos (by exact_mod_cast Nat.pos_of_ne_zero hg) (by positivity)
  have hg1 : (g : ℝ) / 2 ^ s < 1 := by rw [div_lt_one (by positivity)]; exact_mod_cast hlt
  have hlow : j < k := by exact_mod_cast (by linarith : (j : ℝ) < k)
  have hhigh : k < j + 1 := by exact_mod_cast (by linarith : (k : ℝ) < (j : ℝ) + 1)
  omega

theorem exp2F_power (hf : FloatFmt f w p bias top nan) (hsm : SmallFmt p bias top) (x : FVal) (n : Nat) :
    IsPower w p bias top nan mode x n (exp2F f mode n x) := by
  have hfmt := hf
  obtain ⟨rfl, rfl, rfl, rfl, rfl, hinf, -, -⟩ := hf
  cases x with
  | nan s => constructor <;> simp [FVal.isNan, FVal.isSig, exp2F]
  | inf a => cases a <;> constructor <;> simp [FVal.isNan, FVal.isInf, exp2F, hinf]
  | fin neg m e =>
    refine ⟨by simp [FVal.isNan], by simp, by simp, fun _ _ => ?_⟩
    by_cases hm : m = 0
    · refine IsPower.of_rpow ?_
      have hz : (FVal.fin neg m e).rat = 0 := by simp [FVal.rat, FVal.mag, hm]
      rw [hz, Rat.cast_zero, Real.rpow_zero, exp2F, if_pos hm]
      exact roundFn_twoPow hfmt false 0
    simp only [exp2F, if_neg hm]
    by_cases hbig : (m.log2 : ℤ) + e ≥ 12
    · simp only [exp2Mag, hbig, decide_true, if_true]
      exact IsPower.of_rpow (twoPow_large hfmt hsm hm hbig)
    · have hsplit := rat_split neg m e
      simp only [exp2Mag, hbig, decide_false, Bool.false_eq_true, if_false]
      set s := (-e).toNat
      set v : Int := (if neg then -(m : Int) else m) * 2 ^ e.toNat
      have hlt : (v % 2 ^ s).toNat < 2 ^ s := by
        have h1 := Int.emod_lt_of_pos v (by positivity : (0 : ℤ) < 2 ^ s)
        have h2 := Int.emod_nonneg v (by positivity : (2 : ℤ) ^ s ≠ 0)
        zify; omega
      by_cases hg : (v % 2 ^ s).toNat = 0
      · refine IsPower.of_rpow ?_
        rw [hsplit, hg, Nat.cast_zero, zero_div, add_zero, Real.rpow_intCast, if_pos rfl]
        exact roundFn_twoPow hfmt false _
      · rw [if_neg hg]
        refine ⟨fun k hk => ?_, fun _ => hsplit ▸ exp2Frac_nearly hfmt hsm hlt _⟩
        exact absurd (hsplit.symm.trans (by rw [hk, Rat.cast_intCast])) (int_add_fraction_ne hg hlt _ k)

end power

end Sys2Proof.Machine
end

