-- ==== Sys2Proof/Proofs/VectorLogarithms.lean ====
section
/-! PROOF. VLOG2 by its whole part and the fixed-point logarithm of its fraction (R159, R160; log 13), and the settling of both
functions. -/

namespace Sys2Proof.Machine

section logarithm

variable {f : Fmt} {w p : Nat} {bias : Int} {top nan n m : Nat} {mode : Mode}

/-- A finite magnitude is a power of two where its mantissa is one. -/
theorem mag_eq_twoPow (hm : m ≠ 0) (e j : Int) : (m : ℚ) * 2 ^ e = 2 ^ j ↔ m = 2 ^ m.log2 ∧ j = m.log2 + e := by
  constructor
  · intro h
    have hmj : (m : ℚ) = 2 ^ (j - e) := by rw [zpow_sub₀ two_ne_zero, ← h]; field_simp
    have hge : 0 ≤ j - e := by
      by_contra hlt
      have h1 : (2 : ℚ) ^ (j - e) < 2 ^ (0 : ℤ) := zpow_lt_zpow_right₀ one_lt_two (not_le.mp hlt)
      have h2 : (1 : ℚ) ≤ m := by exact_mod_cast Nat.one_le_iff_ne_zero.mpr hm
      rw [← hmj, zpow_zero] at h1
      linarith
    obtain ⟨i, hi⟩ := Int.eq_ofNat_of_zero_le hge
    have hmi : m = 2 ^ i := by
      rw [hi] at hmj
      exact_mod_cast hmj
    have hlog : m.log2 = i := by rw [hmi, Nat.log2_two_pow]
    exact ⟨hlog ▸ hmi, by omega⟩
  · rintro ⟨h, rfl⟩
    rw [zpow_add₀ two_ne_zero, zpow_natCast]
    congr 1
    exact_mod_cast h

/-- The fraction of a mantissa, in [1, 2). -/
noncomputable def mantissa (m : Nat) : ℝ := (m : ℝ) / (2 ^ m.log2 : ℕ)

theorem mantissa_range (hm : m ≠ 0) : 1 ≤ mantissa m ∧ mantissa m < 2 := by
  have hpos : (0 : ℝ) < (2 ^ m.log2 : ℕ) := by positivity
  have hlow : ((2 ^ m.log2 : ℕ) : ℝ) ≤ m := by exact_mod_cast Nat.log2_self_le hm
  have hhigh : (m : ℝ) < 2 * (2 ^ m.log2 : ℕ) := by
    have h := Nat.lt_log2_self (n := m)
    rw [pow_succ, mul_comm] at h
    exact_mod_cast h
  unfold mantissa
  exact ⟨(one_le_div₀ hpos).mpr hlow, (div_lt_iff₀ hpos).mpr hhigh⟩

/-- The fixed-point base-2 logarithm of a mantissa, as VLOG2 computes it. -/
def log2Frac (m : Nat) : Nat := lnRatio m (2 ^ m.log2) * 2 ^ fxBits / ln2

theorem fxUlp_small : fxUlp ≤ 1 / 2 ^ 200 := by rw [fxUlp_eq]; norm_num

theorem fxVal_zero : fxVal 0 = 0 := by unfold fxVal; simp

/-- The quotient of two fixed-point numbers, each 512 units below its exact value at most. -/
theorem quotient_near {R L : Nat} {x y : ℝ} (hR : fxVal R ≤ x ∧ x ≤ fxVal R + 512 * fxUlp)
    (hL : fxVal L ≤ y ∧ y ≤ fxVal L + 512 * fxUlp) (hx : 0 ≤ x) (hxy : x ≤ y) (hy : 69 / 100 ≤ y) :
    |fxVal (R * 2 ^ fxBits / L) - x / y| ≤ 1000 * fxUlp := by
  have hu := fxUlp_pos
  have hsmall := fxUlp_small
  have hL6 : 6 / 10 ≤ fxVal L := by norm_num at hsmall; linarith [hL.2]
  have hne : L ≠ 0 := by
    rintro rfl
    rw [fxVal_zero] at hL6
    norm_num at hL6
  obtain ⟨d1, d2⟩ := fxVal_ratio R hne
  have hAL : (R : ℝ) / L * fxVal L = fxVal R := by
    have hL0 : (L : ℝ) ≠ 0 := by exact_mod_cast hne
    unfold fxVal; field_simp
  generalize (R : ℝ) / L = A at *
  have hBL : x / y * y = x := div_mul_cancel₀ _ (by linarith)
  have hB0 : 0 ≤ x / y := div_nonneg hx (by linarith)
  have hB1 : x / y ≤ 1 := (div_le_one (by linarith)).mpr hxy
  generalize x / y = B at *
  have hgap : (A - B) * fxVal L = (fxVal R - x) + B * (y - fxVal L) := by rw [sub_mul, hAL, mul_sub, hBL]; ring
  have hcross : B * (y - fxVal L) ≤ 1 * (512 * fxUlp) := mul_le_mul hB1 (by linarith) (by linarith) one_pos.le
  have hcross0 : 0 ≤ B * (y - fxVal L) := mul_nonneg hB0 (by linarith)
  rw [abs_le]
  constructor <;> nlinarith

theorem log2Frac_near (hm : m ≠ 0) : |fxVal (log2Frac m) - Real.logb 2 (mantissa m)| ≤ 1000 * fxUlp := by
  obtain ⟨hr1, hr2⟩ := mantissa_range hm
  have hhigh : m ≤ 2 * 2 ^ m.log2 := by
    have h := Nat.lt_log2_self (n := m)
    rw [pow_succ, mul_comm] at h
    exact h.le
  have hlog2 := Real.log_two_gt_d9
  exact quotient_near (lnRatio_near (Nat.two_pow_pos _).ne' (Nat.log2_self_le hm) hhigh) ln2_near (Real.log_nonneg hr1)
    (Real.log_le_log (by linarith) hr2.le) (by linarith)

/-- How far the logarithm of a mantissa of at most 24 bits stays from a whole number. -/
theorem logb_mantissa_far (hm : m ≠ 2 ^ m.log2) (hm0 : m ≠ 0) (hlt : m < 2 ^ 24) :
    1 / 2 ^ 24 ≤ Real.logb 2 (mantissa m) ∧ Real.logb 2 (mantissa m) ≤ 1 - 1 / 2 ^ 24 := by
  have hge := Nat.log2_self_le hm0
  have hsucc : m + 1 ≤ 2 * 2 ^ m.log2 := by
    have h := Nat.lt_log2_self (n := m)
    rw [pow_succ] at h
    omega
  obtain ⟨hr1, hr2⟩ := mantissa_range hm0
  have hlog2 : Real.log 2 ≤ 1 := by have := Real.log_two_lt_d9; linarith
  have hlog20 : 0 < Real.log 2 := Real.log_pos one_lt_two
  have hgrow {y : ℝ} (hy : 0 ≤ Real.log y) : Real.log y ≤ Real.logb 2 y := by
    rw [Real.logb, le_div_iff₀ hlog20]; nlinarith
  have hu : (0 : ℝ) < (2 ^ m.log2 : ℕ) := by positivity
  have hm1 : (0 : ℝ) < m := by exact_mod_cast Nat.pos_of_ne_zero hm0
  have hmlt : (m : ℝ) ≤ 2 ^ 24 := by exact_mod_cast hlt.le
  constructor
  · have hinv : 1 / 2 ^ 24 ≤ 1 - (mantissa m)⁻¹ := by
      have hstep : ((2 ^ m.log2 : ℕ) : ℝ) + 1 ≤ m := by exact_mod_cast lt_of_le_of_ne hge (Ne.symm hm)
      rw [mantissa, inv_div, one_sub_div hm1.ne', div_le_div_iff₀ (by positivity) hm1]
      nlinarith
    calc (1 : ℝ) / 2 ^ 24 ≤ 1 - (mantissa m)⁻¹ := hinv
      _ ≤ Real.log (mantissa m) := Real.one_sub_inv_le_log_of_pos (by linarith)
      _ ≤ Real.logb 2 (mantissa m) := hgrow (Real.log_nonneg hr1)
  · have hone : 1 - Real.logb 2 (mantissa m) = Real.logb 2 (2 / mantissa m) := by
      rw [Real.logb_div two_ne_zero (by linarith), Real.logb_self_eq_one one_lt_two]
    have hhalf : 1 / 2 ^ 24 ≤ 1 - (2 / mantissa m)⁻¹ := by
      have hstep : (m : ℝ) + 1 ≤ 2 * (2 ^ m.log2 : ℕ) := by exact_mod_cast hsucc
      have hule : ((2 ^ m.log2 : ℕ) : ℝ) ≤ 2 ^ 23 := by
        have hl : m.log2 ≤ 23 := by
          have := (Nat.log2_lt hm0).mpr hlt; omega
        exact_mod_cast Nat.pow_le_pow_right two_pos hl
      rw [inv_div, mantissa, div_div, one_sub_div (by positivity), div_le_div_iff₀ (by positivity) (by positivity)]
      nlinarith
    have hpos : 0 ≤ Real.log (2 / mantissa m) := Real.log_nonneg (by rw [le_div_iff₀ (by linarith)]; linarith)
    have := Real.one_sub_inv_le_log_of_pos (x := 2 / mantissa m) (by positivity)
    have := hgrow hpos
    linarith

/-- A logarithm that is not whole: its whole part and that of its mantissa. -/
theorem logb_mag (hm : m ≠ 0) (e : Int) : Real.logb 2 ((m : ℝ) * 2 ^ e) = ((m.log2 + e : ℤ) : ℝ) + Real.logb 2 (mantissa m) := by
  have hr := (mantissa_range hm).1
  have hval : (m : ℝ) * 2 ^ e = 2 ^ (m.log2 + e : ℤ) * mantissa m := by
    rw [zpow_add₀ two_ne_zero, zpow_natCast, mantissa]; push_cast; field_simp
  rw [hval, Real.logb_mul (by positivity) (by linarith), ← Real.rpow_intCast, Real.logb_rpow two_pos (by norm_num)]

/-- A whole number and a fraction that is far enough from its ends. -/
theorem add_fraction_far {k : Int} {x : ℝ} (h0 : 1 / 2 ^ 24 ≤ x) (h1 : x ≤ 1 - 1 / 2 ^ 24) : 1 / 2 ^ 24 ≤ |(k : ℝ) + x| := by
  rcases lt_or_ge k 0 with hk | hk
  · have : (k : ℝ) ≤ -1 := by exact_mod_cast (by omega : k ≤ -1)
    rw [abs_of_nonpos (by norm_num at h0 h1; linarith)]
    linarith
  · have : (0 : ℝ) ≤ k := by exact_mod_cast hk
    rw [abs_of_nonneg (by norm_num at h0; linarith)]
    linarith

/-- A value closer to `y` than `y` is to zero has the sign of `y`. -/
theorem neg_iff_neg_of_close {a y d : ℝ} (hclose : |a - y| ≤ d) (hd : d < |y|) : a < 0 ↔ y < 0 := by
  obtain ⟨c1, c2⟩ := abs_le.mp hclose
  constructor
  · intro hneg
    by_contra hpos
    rw [abs_of_nonneg (not_lt.mp hpos)] at hd
    linarith
  · intro hneg
    rw [abs_of_neg hneg] at hd
    linarith

/-- A fixed-point number of at least `2⁻²⁵` keeps 41 bits above its lowest hundred. -/
theorem fixed_large {N : Nat} (h : (1 : ℝ) / 2 ^ 25 ≤ N * fxUlp) : 2 ^ 40 ≤ N / 2 ^ 100 := by
  rw [Nat.le_div_iff_mul_le (by positivity), ← pow_add]
  rw [fxUlp_eq, mul_one_div, le_div_iff₀ (by positivity)] at h
  have hreal : (2 : ℝ) ^ 140 ≤ N := le_trans (by norm_num) h
  exact_mod_cast hreal

/-- Half a unit above a fixed-point number whose lowest hundred bits the parts drop. -/
theorem half_scaled (N : Nat) :
    ((N : ℝ) + 1 / 2) * 2 ^ (100 - (fxBits : ℤ) - (100 : ℕ)) = N * fxUlp + 1 / 2 * fxUlp := by
  have hz : (2 : ℝ) ^ (100 - (fxBits : ℤ) - (100 : ℕ)) = fxUlp := by
    rw [show 100 - (fxBits : ℤ) - (100 : ℕ) = -(fxBits : ℤ) by push_cast; ring, zpow_neg, zpow_natCast, fxUlp,
      one_div]
  rw [hz]; ring

/-- The result of VLOG2 for a mantissa that is no power of two. -/
theorem log2Mag_nearly (hf : FloatFmt f w p bias top nan) (hsm : SmallFmt p bias top) (hm : m ≠ 2 ^ m.log2) (hm0 : m ≠ 0)
    (hlt : m < 2 ^ 24) (e : Int) :
    let r := log2Mag m e
    let y := Real.logb 2 ((m : ℝ) * 2 ^ e)
    (r.1 = true ↔ y < 0) ∧ NearlyRounded w p bias top mode r.1 n |y| (roundFn f mode n r.1 r.2) := by
  intro r y
  have hu := fxUlp_pos
  have hu256 := fxUlp_eq
  obtain ⟨f0, f1⟩ := logb_mantissa_far hm hm0 hlt
  have hnear := log2Frac_near hm0
  have hy : y = ((m.log2 + e : ℤ) : ℝ) + Real.logb 2 (mantissa m) := logb_mag hm0 e
  set k : Int := m.log2 + e with hk
  have hfar : 1 / 2 ^ 24 ≤ |y| := hy ▸ add_fraction_far f0 f1
  set v : Int := k * 2 ^ fxBits + (log2Frac m : ℕ) with hv
  have hr : r = (decide (v < 0), v.natAbs / 2 ^ 100, 100 - (fxBits : Int), true) := by
    simp only [r, log2Mag, if_neg hm, log2Frac, hv, hk]
  have hval : (v : ℝ) * fxUlp = k + fxVal (log2Frac m) := by
    rw [hv, fxUlp, fxVal]; push_cast; field_simp
  have hclose : |(v : ℝ) * fxUlp - y| ≤ 1000 * fxUlp := by
    rw [hval, hy, add_sub_add_left_eq_sub]; exact hnear
  have habs : abs (((v.natAbs : ℕ) : ℝ) * fxUlp - |y|) ≤ 1000 * fxUlp := by
    have hn : ((v.natAbs : ℕ) : ℝ) * fxUlp = |(v : ℝ) * fxUlp| := by
      rw [abs_mul, abs_of_pos hu, Nat.cast_natAbs, Int.cast_abs]
    rw [hn]
    exact (abs_abs_sub_abs_le _ _).trans hclose
  have htiny : 1001 * fxUlp ≤ 1 / 2 ^ 24 / 2 ^ 200 := by rw [hu256]; norm_num
  have htiny' : 1001 * fxUlp < 1 / 2 ^ 25 := by rw [hu256]; norm_num
  have hsign : v < 0 ↔ y < 0 := by
    rw [← neg_iff_neg_of_close hclose (by norm_num at htiny' hfar ⊢; linarith), ← not_le, ← not_le,
      mul_nonneg_iff_of_pos_right hu, Int.cast_nonneg_iff]
  obtain ⟨a1, a2⟩ := abs_le.mp habs
  have hlarge : 2 ^ 40 ≤ v.natAbs / 2 ^ 100 := by
    refine fixed_large ?_
    have hdouble : (1 : ℝ) / 2 ^ 25 + 1 / 2 ^ 25 = 1 / 2 ^ 24 := by norm_num
    linarith
  rw [hr]
  refine ⟨by rw [decide_eq_true_eq]; exact hsign, _, ?_,
    roundFn_roundedOnce hf _ n (parts_half v.natAbs 100 (100 - fxBits)) (lt_of_lt_of_le (by norm_num) hlarge).ne' fun _ => le_trans ?_ hlarge⟩
  · rw [half_scaled]
    calc _ ≤ 1001 * fxUlp := abs_le.mpr ⟨by linarith, by linarith⟩
      _ ≤ 1 / 2 ^ 24 / 2 ^ 200 := htiny
      _ ≤ |y| / 2 ^ 200 := div_le_div_of_nonneg_right hfar (by positivity)
  · exact Nat.pow_le_pow_right two_pos (by have := hsm.precision; omega)

/-- What a logarithm gives (R159, R160). -/
structure IsLogarithm (w p : Nat) (bias : Int) (top nan : Nat) (mode : Mode) (x : FVal) (n : Nat) (r : Nat × Flags) : Prop where
  nans : x.isNan = true → r = (nan, { invalid := x.isSig })
  infinity : x = .inf false → r = (top + 1, Flags.none)
  zero : x.isNan = false → x.isInf = false → x.mag = 0 → r = (2 ^ (w + p) + (top + 1), Flags.dz)
  negative : x.isNeg = true → (x.isInf = true ∨ x.mag ≠ 0) → r = (nan, Flags.inv)
  positive : x.isNeg = false → x.mag ≠ 0 →
    (x.mag = 1 → r = (0, Flags.none))
    ∧ (∀ m : Int, m ≠ 0 → x.mag = 2 ^ m → RoundedOnce w p bias top mode (decide (m < 0)) n |(m : ℝ)| r)
    ∧ ((∀ m : Int, x.mag ≠ 2 ^ m) → NearlyRounded w p bias top mode (decide (x.mag < 1)) n |Real.logb 2 x.mag| r)

/-- The logarithm of a positive magnitude whose mantissa has 24 bits at most. -/
theorem log2Mag_logarithm (hf : FloatFmt f w p bias top nan) (hsm : SmallFmt p bias top) (hm0 : m ≠ 0) (hlt : m < 2 ^ 24) (e : Int) :
    let x : ℚ := m * 2 ^ e
    let r := roundFn f mode n (log2Mag m e).1 (log2Mag m e).2
    (x = 1 → r = (0, Flags.none))
    ∧ (∀ j : Int, j ≠ 0 → x = 2 ^ j → RoundedOnce w p bias top mode (decide (j < 0)) n |(j : ℝ)| r)
    ∧ ((∀ j : Int, x ≠ 2 ^ j) → NearlyRounded w p bias top mode (decide (x < 1)) n |Real.logb 2 x| r) := by
  intro x r
  by_cases hm : m = 2 ^ m.log2
  · have hr : log2Mag m e = (decide ((m.log2 : ℤ) + e < 0), ((m.log2 : ℤ) + e).natAbs, 0, false) := by
      simp only [log2Mag, if_pos hm]
    refine ⟨fun h => ?_, fun j hj h => ?_, fun h => absurd ((mag_eq_twoPow hm0 e _).mpr ⟨hm, rfl⟩) (h _)⟩
    · obtain ⟨-, h0⟩ := (mag_eq_twoPow hm0 e 0).mp (by rw [zpow_zero]; exact h)
      simp only [r, hr, ← h0]
      rfl
    · obtain ⟨-, h0⟩ := (mag_eq_twoPow hm0 e j).mp h
      simp only [r, hr, ← h0]
      have hparts := parts_exact j.natAbs 0
      rw [zpow_zero, mul_one, Nat.cast_natAbs, Int.cast_abs] at hparts
      exact roundFn_roundedOnce hf _ n hparts (Int.natAbs_ne_zero.mpr hj) (by simp)
  · obtain ⟨hsign, hnear⟩ := log2Mag_nearly (n := n) (mode := mode) hf hsm hm hm0 hlt e
    have hpow (j : Int) : x ≠ 2 ^ j := fun h => hm ((mag_eq_twoPow hm0 e j).mp h).1
    have hcast : ((x : ℚ) : ℝ) = (m : ℝ) * 2 ^ e := by simp only [x]; push_cast; rfl
    have hx0 : (0 : ℝ) < (x : ℝ) := by
      have : (0 : ℝ) < m := by exact_mod_cast Nat.pos_of_ne_zero hm0
      rw [hcast]; positivity
    refine ⟨fun h => absurd (h.trans (zpow_zero 2).symm) (hpow 0), fun j _ h => absurd h (hpow j), fun _ => ?_⟩
    rw [← hcast] at hsign hnear
    have hneg : (log2Mag m e).1 = decide (x < 1) := by
      rw [Bool.eq_iff_iff, hsign, decide_eq_true_eq, Real.logb_neg_iff one_lt_two hx0]
      exact_mod_cast Iff.rfl
    simp only [r]
    rwa [hneg] at hnear ⊢

theorem log2F_logarithm (hf : FloatFmt f w p bias top nan) (hsm : SmallFmt p bias top) (x : FVal)
    (hx : ∀ neg m e, x = .fin neg m e → m < 2 ^ 24) (n : Nat) : IsLogarithm w p bias top nan mode x n (log2F f mode n x) := by
  have hfmt := hf
  obtain ⟨rfl, rfl, rfl, rfl, rfl, hinf, -, -⟩ := hf
  cases x with
  | nan s => constructor <;> simp [FVal.isNan, FVal.isSig, FVal.isNeg, FVal.mag, log2F]
  | inf a => cases a <;> constructor <;> simp [FVal.isNan, FVal.isInf, FVal.isNeg, FVal.mag, log2F, nanInv, hinf]
  | fin a m e =>
    constructor <;> simp only [FVal.isNan, FVal.isInf, FVal.isNeg, ne_eq, mag_fin_eq_zero, log2F]
    · simp
    · simp
    · intro _ _ hm
      rw [if_pos hm, infDz, hinf]; rfl
    · intro ha hm
      rw [if_neg (by simpa using hm), if_pos ha]; rfl
    · intro ha hm
      rw [if_neg hm, if_neg (by simp [ha])]
      exact log2Mag_logarithm hfmt hsm hm (hx _ _ _ rfl) e

/-- A decoded value has the mantissa bits of its format and one more. -/
theorem decode_mantissa_lt {x : Nat} {neg : Bool} {e : Int} (h : f.decode x = .fin neg m e) : m < 2 ^ (f.mw + 1) := by
  have hlt : x % 2 ^ f.mw < 2 ^ f.mw := Nat.mod_lt _ (Nat.two_pow_pos _)
  unfold Fmt.decode at h
  dsimp only at h
  rw [pow_succ]
  split at h
  · split at h <;> cases h
  · split at h <;> cases h <;> omega

end logarithm

/-- Settles O15: exact where the exponent is whole or the magnitude a power of two, and half a unit above the end of the fixed-point
work elsewhere. -/
theorem vectorPowersAndLogarithms : Obligations.VectorPowersAndLogarithms := by
  intro s e st ty rm d a k z w p bias top nan hty hne
  have hf := hty.fmt
  have hsm := hty.small hne
  dsimp only
  rw [hty.width]
  have h64 : (ty == .f64) = false := by simpa using hne
  refine fun h => ⟨?_, ?_⟩
  · obtain ⟨t, ht, hl⟩ := vFn1_lanewise exp2F h
    rw [h64] at hl
    refine ⟨t, _, ht, fun i n => ?_, hl⟩
    obtain ⟨hnan, hneg, hpos, hfin⟩ := exp2F_power (mode := rmMode rm e.c.th) hf hsm _ n
    exact ⟨hnan, hneg, hpos, hfin⟩
  · obtain ⟨t, ht, hl⟩ := vFn1_lanewise log2F h
    rw [h64] at hl
    refine ⟨t, _, ht, fun i n => ?_, hl⟩
    have hx : ∀ neg m q, (vfmt ty).decode (elemAt (vw ty) (e.c.th.rv a) i) = .fin neg m q → m < 2 ^ 24 := fun neg m q hd =>
      (decode_mantissa_lt hd).trans_le (Nat.pow_le_pow_right two_pos (by have := hf.mw; have := hsm.precision; omega))
    obtain ⟨hnan, hinf, hzero, hneg, hpos⟩ := log2F_logarithm (mode := rmMode rm e.c.th) hf hsm _ hx n
    exact ⟨hnan, hinf, hzero, hneg, hpos⟩

end Sys2Proof.Machine
end

