-- ==== Sys2Proof/Proofs/ExactValues.lean ====
section
/-! SUPPORT. What a bit pattern decodes to, what a rational magnitude rounds to, and the value of an exact sum and an exact product
(R89 to R91, R96 to R98, R104, R106). -/

namespace Sys2Proof.Machine

section decoding

variable {f : Fmt} {w p : Nat} {bias : Int}

/-- A bit pattern by its sign, its exponent field and its mantissa field (R89). -/
theorem decode_eq (hw : f.ew = w) (hp : f.mw = p) (x : Nat) :
    let neg := decide (x / 2 ^ (w + p) % 2 = 1)
    let E := x / 2 ^ p % 2 ^ w
    let F := x % 2 ^ p
    f.decode x = if f.maxBits < E * 2 ^ p + F then
        (if f.hasInf = true ∧ E * 2 ^ p + F = f.infBits then .inf neg else .nan (f.hasSig && decide (F < 2 ^ (p - 1))))
      else if E = 0 then .fin neg F f.qmin else .fin neg (2 ^ p + F) (f.qmin + (E - 1 : Nat)) := by
  subst hw hp
  have hE : x % 2 ^ (f.ew + f.mw) / 2 ^ f.mw = x / 2 ^ f.mw % 2 ^ f.ew := by
    rw [Nat.add_comm, pow_add, Nat.mod_mul_right_div_self]
  have hF : x % 2 ^ (f.ew + f.mw) % 2 ^ f.mw = x % 2 ^ f.mw :=
    Nat.mod_mod_of_dvd x (pow_dvd_pow 2 (Nat.le_add_left f.mw f.ew))
  have hmag : x % 2 ^ (f.ew + f.mw) = x / 2 ^ f.mw % 2 ^ f.ew * 2 ^ f.mw + x % 2 ^ f.mw := by
    rw [← hE, ← hF]; exact (Nat.div_add_mod' _ _).symm
  simp only [Fmt.decode, hE, gt_iff_lt]
  rw [hmag]

/-- A bit pattern that is neither an infinity nor a NaN has the value of its fields. -/
theorem decode_finite (hw : f.ew = w) (hp : f.mw = p) (hb : f.bias = bias) (x : Nat)
    (h : x / 2 ^ p % 2 ^ w * 2 ^ p + x % 2 ^ p ≤ f.maxBits) :
    (f.decode x).Is (decide (x / 2 ^ (w + p) % 2 = 1))
      (if x / 2 ^ p % 2 ^ w = 0 then (x % 2 ^ p : Nat) / 2 ^ p * 2 ^ (1 - bias)
        else (1 + (x % 2 ^ p : Nat) / 2 ^ p) * 2 ^ (((x / 2 ^ p % 2 ^ w : Nat) : Int) - bias)) := by
  have hq : f.qmin = 1 - bias - p := by rw [Fmt.qmin, hb, hp]
  have hunit (E : Int) : (2 : ℚ) ^ (E - p) = 2 ^ E / 2 ^ p := by rw [zpow_sub₀ two_ne_zero, zpow_natCast]
  rw [decode_eq hw hp, if_neg (not_lt.mpr h), hq]
  split
  · refine ⟨⟨rfl, rfl⟩, rfl, ?_⟩
    rw [FVal.mag, hunit]; ring
  · refine ⟨⟨rfl, rfl⟩, rfl, ?_⟩
    have hE : 1 - bias - p + ((x / 2 ^ p % 2 ^ w - 1 : ℕ) : ℤ) = ((x / 2 ^ p % 2 ^ w : ℕ) : ℤ) - bias - p := by omega
    rw [FVal.mag, hE, hunit]
    push_cast
    field_simp

/-- What a pattern decodes to, where its fields tell a NaN by N and an infinity by I (R89, R91). -/
theorem decode_classes (hw : f.ew = w) (hp : f.mw = p) (hb : f.bias = bias) (hs : f.hasSig = decide (8 < 1 + w + p))
    (N I : Nat → Nat → Prop)
    (hspecial : ∀ E F, E < 2 ^ w → F < 2 ^ p → (f.maxBits < E * 2 ^ p + F ↔ N E F ∨ I E F))
    (hinf : ∀ E F, E < 2 ^ w → F < 2 ^ p → f.maxBits < E * 2 ^ p + F →
      (f.hasInf = true ∧ E * 2 ^ p + F = f.infBits ↔ ¬ N E F)) (x : Nat) :
    let neg := decide (x / 2 ^ (w + p) % 2 = 1)
    let E := x / 2 ^ p % 2 ^ w
    let F := x % 2 ^ p
    (N E F → f.decode x = .nan (decide (8 < 1 + w + p ∧ F < 2 ^ (p - 1)))) ∧ (¬ N E F → I E F → f.decode x = .inf neg)
      ∧ (¬ N E F → ¬ I E F → (f.decode x).Is neg
        (if E = 0 then F / 2 ^ p * 2 ^ (1 - bias) else (1 + F / 2 ^ p) * 2 ^ ((E : Int) - bias))) := by
  intro neg E F
  have hE : E < 2 ^ w := Nat.mod_lt _ (Nat.two_pow_pos w)
  have hF : F < 2 ^ p := Nat.mod_lt _ (Nat.two_pow_pos p)
  refine ⟨fun hn => ?_, fun hn hi => ?_, fun hn hi => ?_⟩
  · have hgt := (hspecial E F hE hF).mpr (.inl hn)
    rw [decode_eq hw hp, if_pos hgt, if_neg fun h => (hinf E F hE hF hgt).mp h hn, hs, Bool.decide_and]
  · have hgt := (hspecial E F hE hF).mpr (.inr hi)
    rw [decode_eq hw hp, if_pos hgt, if_pos ((hinf E F hE hF hgt).mpr hn)]
  · exact decode_finite hw hp hb x (not_lt.mp fun hgt => ((hspecial E F hE hF).mp hgt).elim hn hi)

end decoding

section rounding

variable {f : Fmt} {mode : Mode} {neg sat : Bool} {n m : Nat} {e q : Int}

theorem log_ratCast {r : ℚ} (hr : 0 < r) : Int.log 2 (r : ℝ) = Int.log 2 r := by
  have hr' : (0 : ℝ) < r := by exact_mod_cast hr
  have hiff (x : ℤ) : x ≤ Int.log 2 (r : ℝ) ↔ x ≤ Int.log 2 r := by
    rw [← Int.zpow_le_iff_le_log one_lt_two hr, ← Int.zpow_le_iff_le_log one_lt_two hr']
    rw [← Rat.cast_le (K := ℝ)]
    push_cast
    rfl
  exact le_antisymm ((hiff _).mp le_rfl) ((hiff _).mpr le_rfl)

theorem mag_cast (m : Nat) (e q : Int) : (m : ℝ) * 2 ^ e / 2 ^ q = (((m : ℚ) * 2 ^ e / 2 ^ q : ℚ) : ℝ) := by push_cast; rfl

/-- The model's rounding of an exact magnitude is what the mode picks of it. -/
theorem roundAt_eq_pick : roundAt mode n neg m e false q
    = (pick mode neg n (m * 2 ^ e / 2 ^ q), decide ((pick mode neg n (m * 2 ^ e / 2 ^ q) : ℚ) = m * 2 ^ e / 2 ^ q)) := by
  obtain ⟨hk, hexact⟩ := roundAt_picks (mode := mode) (neg := neg) (n := n) (q := q) (parts_exact m e) (by simp)
  rw [mag_cast] at hk hexact
  have hpick := hk.unique (picks_pick (by positivity))
  refine Prod.ext hpick (Bool.eq_iff_iff.mpr ?_)
  rw [hexact, hpick, decide_eq_true_eq]
  exact_mod_cast Iff.rfl

/-- A finite magnitude that is not zero, rounded to a format (R90, R96 to R98). -/
theorem roundMag_exact (hm : m ≠ 0) :
    let a : ℚ := m * 2 ^ e
    let lg := Int.log 2 a
    let q := max (lg - f.mw) f.qmin
    let k := pick mode neg n (a / 2 ^ q)
    let bits := (q - f.qmin).toNat * 2 ^ f.mw + k
    let inexact := decide ((k : ℚ) ≠ a / 2 ^ q)
    let tiny := decide (pick mode neg n (a / 2 ^ (lg - f.mw)) * (2 : ℚ) ^ (lg - f.mw) < 2 ^ (f.qmin + f.mw))
    f.roundMag mode sat n neg m e false = if f.maxBits < bits then
        (f.signBit neg + (if sat || mode.inward neg then f.maxBits else f.infBits), { overflow := true, inexact := true })
      else (f.signBit neg + bits, { inexact, underflow := inexact && tiny }) := by
  intro a lg q k bits inexact tiny
  have ha : 0 < a := by
    have : (0 : ℚ) < m := by exact_mod_cast Nat.pos_of_ne_zero hm
    positivity
  have hcast : (m : ℝ) * 2 ^ e = ((a : ℚ) : ℝ) := by simp only [a]; push_cast; rfl
  obtain ⟨k', j, exact, ti, hk, hj, hexact, htiny, hround⟩ :=
    roundMag_eq (f := f) (mode := mode) (neg := neg) (n := n) (sat := sat) hm (parts_exact m e) (by simp)
  rw [hcast, log_ratCast ha] at hk hj hexact htiny hround
  have hdiv (q : ℤ) : ((a : ℚ) : ℝ) / 2 ^ q = ((a / 2 ^ q : ℚ) : ℝ) := by push_cast; rfl
  rw [hdiv] at hk hj hexact
  obtain rfl : k' = k := hk.unique (picks_pick (by positivity))
  have hj' : j = pick mode neg n (a / 2 ^ (lg - f.mw)) := hj.unique (picks_pick (by positivity))
  have hinexact : inexact = !exact := by
    rw [Bool.eq_iff_iff, Bool.not_eq_true', ← Bool.not_eq_true, hexact, decide_eq_true_eq, ne_eq, not_iff_not]
    exact_mod_cast Iff.rfl
  have hti : tiny = ti := by
    rw [Bool.eq_iff_iff, htiny, decide_eq_true_eq, hj', ← Rat.cast_lt (K := ℝ)]
    push_cast
    rfl
  rw [hround, hinexact, hti]

end rounding

section sums

/-- The value of a mantissa and an exponent. -/
def dyadicRat (d : Int × Int) : ℚ := d.1 * 2 ^ d.2

theorem dyadicRat_add (x y : Int × Int) : dyadicRat (addDyadic x y) = dyadicRat x + dyadicRat y := by
  have hshift {a b : ℤ} (h : a ≤ b) : (2 : ℚ) ^ (b - a).toNat * 2 ^ a = 2 ^ b := by
    rw [← zpow_natCast, ← zpow_add₀ two_ne_zero]; congr 1; omega
  unfold addDyadic dyadicRat
  split
  · rename_i h
    push_cast
    rw [add_mul, mul_assoc, hshift h]
  · rename_i h
    push_cast
    rw [add_mul, mul_assoc, hshift (not_le.mp h).le]

theorem dyadicRat_eq_zero (d : Int × Int) : dyadicRat d = 0 ↔ d.1 = 0 := by
  simp [dyadicRat, zpow_ne_zero]

theorem dyadicRat_neg (d : Int × Int) : dyadicRat d < 0 ↔ d.1 < 0 := by
  have hpos : (0 : ℚ) < 2 ^ d.2 := by positivity
  rw [dyadicRat, ← Int.cast_lt_zero (R := ℚ)]
  exact ⟨fun h => by nlinarith, fun h => mul_neg_of_neg_of_pos h hpos⟩

theorem dyadicRat_dyadic (x : FVal) : dyadicRat x.dyadic = x.rat := by
  cases x with
  | nan s => simp [FVal.dyadic, dyadicRat, FVal.rat, FVal.isNeg, FVal.mag]
  | inf s => cases s <;> simp [FVal.dyadic, dyadicRat, FVal.rat, FVal.isNeg, FVal.mag]
  | fin s m e =>
    by_cases hm : m = 0
    · simp [FVal.dyadic, dyadicRat, FVal.rat, FVal.mag, hm]
    · cases s <;> simp [FVal.dyadic, dyadicRat, FVal.rat, FVal.isNeg, FVal.mag, hm]

/-- The exact sum of a list has the sum of the values. -/
theorem sumDyadic_rat (l : List FVal) : dyadicRat (sumDyadic l) = (l.map FVal.rat).sum := by
  suffices h : ∀ (l : List FVal) (acc : Int × Int), dyadicRat (l.foldl (fun acc x =>
      let d := x.dyadic
      if d.1 = 0 then acc else if acc.1 = 0 then d else addDyadic acc d) acc) = dyadicRat acc + (l.map FVal.rat).sum by
    have h0 := h l (0, 0)
    rwa [show dyadicRat (0, 0) = 0 by simp [dyadicRat], zero_add] at h0
  intro l
  induction l with
  | nil => intro acc; simp
  | cons x l ih =>
    intro acc
    rw [List.foldl_cons, ih, List.map_cons, List.sum_cons, ← add_assoc]
    congr 1
    dsimp only
    split
    · rw [← dyadicRat_dyadic, (dyadicRat_eq_zero x.dyadic).mpr ‹_›, add_zero]
    · split
      · rw [(dyadicRat_eq_zero acc).mpr ‹_›, zero_add, dyadicRat_dyadic]
      · rw [dyadicRat_add, dyadicRat_dyadic]

end sums

end Sys2Proof.Machine
end

