-- ==== Sys2Proof/Proofs/FormatsAndSums.lean ====
section
/-! PROOF. Decoding and rounding in every format, conversion to an integer, and the exact sum and product (R89 to R91, R96 to
R98, R104, R106). -/

namespace Sys2Proof.Machine

section formats

variable {f : Fmt} {w p : Nat} {bias : Int} {top nan : Nat}

/-- The fields of a NaN (R89, R91). -/
def NanFields (f : Fmt) (w E F : Nat) : Prop := if f = fmtE4m3 then E = 15 ∧ F = 7 else f ≠ fmtE2m1 ∧ E = 2 ^ w - 1 ∧ F ≠ 0

/-- The fields of an infinity (R89, R91). -/
def InfFields (f : Fmt) (w E F : Nat) : Prop := f ≠ fmtE4m3 ∧ f ≠ fmtE2m1 ∧ E = 2 ^ w - 1 ∧ F = 0

/-- The numbers of a format, as the statement lists them. -/
structure ListedFmt (f : Fmt) (w p : Nat) (bias : Int) (top nan : Nat) : Prop where
  ew : f.ew = w
  mw : f.mw = p
  bias : f.bias = bias
  maxBits : f.maxBits = top
  nanBits : f.nanBits = nan
  hasSig : f.hasSig = decide (8 < 1 + w + p)
  hasNan : (!f.hasNan) = decide (f = fmtE2m1)
  infBits : f ≠ fmtE2m1 → f.infBits = top + 1
  special : ∀ E F, E < 2 ^ w → F < 2 ^ p → (f.maxBits < E * 2 ^ p + F ↔ NanFields f w E F ∨ InfFields f w E F)
  infinity : ∀ E F, E < 2 ^ w → F < 2 ^ p → f.maxBits < E * 2 ^ p + F →
    (f.hasInf = true ∧ E * 2 ^ p + F = f.infBits ↔ ¬ NanFields f w E F)

theorem listedFmt (h : (f, w, p, bias, top, nan) ∈
      [(fmt64, 11, 52, 1023, 0x7FEFFFFFFFFFFFFF, 0x7FF8000000000000), (fmt32, 8, 23, 127, 0x7F7FFFFF, 0x7FC00000),
       (fmtBf16, 8, 7, 127, 0x7F7F, 0x7FC0), (fmtF16, 5, 10, 15, 0x7BFF, 0x7E00), (fmtE4m3, 4, 3, 7, 0x7E, 0x7F),
       (fmtE5m2, 5, 2, 15, 0x7B, 0x7E), (fmtE2m1, 2, 1, 1, 7, 0)]) : ListedFmt f w p bias top nan := by
  simp only [List.mem_cons, Prod.mk.injEq, List.not_mem_nil, or_false] at h
  rcases h with ⟨rfl, rfl, rfl, rfl, rfl, rfl⟩ | ⟨rfl, rfl, rfl, rfl, rfl, rfl⟩ | ⟨rfl, rfl, rfl, rfl, rfl, rfl⟩
      | ⟨rfl, rfl, rfl, rfl, rfl, rfl⟩ | ⟨rfl, rfl, rfl, rfl, rfl, rfl⟩ | ⟨rfl, rfl, rfl, rfl, rfl, rfl⟩
      | ⟨rfl, rfl, rfl, rfl, rfl, rfl⟩ <;>
    refine ⟨rfl, rfl, rfl, rfl, rfl, rfl, by decide, by decide, fun E F hE hF => ?_, fun E F hE hF => ?_⟩ <;>
    simp [NanFields, InfFields, fmt64, fmt32, fmtBf16, fmtF16, fmtE4m3, fmtE5m2, fmtE2m1] <;> omega

theorem ListedFmt.decode (h : ListedFmt f w p bias top nan) (x : Nat) :
    let neg := decide (x / 2 ^ (w + p) % 2 = 1)
    let E := x / 2 ^ p % 2 ^ w
    let F := x % 2 ^ p
    (NanFields f w E F → f.decode x = .nan (decide (8 < 1 + w + p ∧ F < 2 ^ (p - 1))))
      ∧ (InfFields f w E F → f.decode x = .inf neg)
      ∧ (¬ NanFields f w E F → ¬ InfFields f w E F → (f.decode x).Is neg
        (if E = 0 then F / 2 ^ p * 2 ^ (1 - bias) else (1 + F / 2 ^ p) * 2 ^ ((E : Int) - bias))) := by
  intro neg E F
  obtain ⟨hn, hi, hf⟩ := decode_classes h.ew h.mw h.bias h.hasSig _ _ h.special h.infinity x
  refine ⟨hn, fun hI => hi (fun hN => ?_) hI, hf⟩
  obtain ⟨h1, -, -, hF0⟩ := hI
  rw [NanFields, if_neg h1] at hN
  exact hN.2.2 hF0

theorem signBit_eq (hw : f.ew = w) (hp : f.mw = p) (neg : Bool) : f.signBit neg = if neg then 2 ^ (w + p) else 0 := by
  rw [Fmt.signBit, hw, hp]

/-- A conversion to a format, class by class (R90, R96 to R98). -/
theorem ListedFmt.round (h : ListedFmt f w p bias top nan) (mode : Mode) (sat neg : Bool) (n m : Nat) (e : Int) :
    let sign (neg : Bool) : Nat := if neg then 2 ^ (w + p) else 0
    let a : ℚ := m * 2 ^ e
    let lg := Int.log 2 a
    let q := max (lg - p) (1 - bias - p)
    let k := pick mode neg n (a / 2 ^ q)
    let bits := (q - (1 - bias - p)).toNat * 2 ^ p + k
    let inexact := decide ((k : ℚ) ≠ a / 2 ^ q)
    let tiny := decide (pick mode neg n (a / 2 ^ (lg - p)) * (2 : ℚ) ^ (lg - p) < 2 ^ (1 - bias))
    let most : Prop := sat = true ∨ f = fmtE2m1
    let inward : Prop := mode = .rtz ∨ (mode = .rdn ∧ neg = false) ∨ (mode = .rup ∧ neg = true)
    f.round mode sat n (.fin neg 0 e) = (sign neg, Flags.none)
      ∧ (m ≠ 0 → bits ≤ top →
        f.round mode sat n (.fin neg m e) = (sign neg + bits, { inexact, underflow := inexact && tiny }))
      ∧ (m ≠ 0 → top < bits → f.round mode sat n (.fin neg m e)
        = (sign neg + (if most ∨ inward then top else top + 1), { overflow := true, inexact := true }))
      ∧ f.round mode sat n (.inf neg) = (sign neg + (if most then top else top + 1), Flags.none)
      ∧ ∀ sig, f.round mode sat n (.nan sig) = (nan, { invalid := sig || decide (f = fmtE2m1) }) := by
  intro sign a lg q k bits inexact tiny most inward
  have hsign (neg : Bool) : f.signBit neg = sign neg := signBit_eq h.ew h.mw neg
  have hmost : (sat || !f.hasNan) = true ↔ most := by rw [h.hasNan, Bool.or_eq_true, decide_eq_true_eq]
  have hinf (hm : ¬ most) : f.infBits = top + 1 := h.infBits fun hf => hm (.inr hf)
  have hqmin : f.qmin = 1 - bias - p := by rw [Fmt.qmin, h.bias, h.mw]
  have hround := roundMag_exact (f := f) (mode := mode) (neg := neg) (sat := sat || !f.hasNan) (n := n) (m := m) (e := e)
  simp only [h.mw, hqmin, hsign, h.maxBits, sub_add_cancel] at hround
  refine ⟨by simp [Fmt.round, Fmt.roundMag, hsign], fun hm hb => ?_, fun hm hb => ?_, ?_, fun sig => ?_⟩
  · exact (hround hm).trans (if_neg (not_lt.mpr hb))
  · refine ((hround hm).trans (if_pos hb)).trans ?_
    simp only [Bool.or_eq_true (sat || _), hmost, Mode.inward_iff]
    by_cases hc : most ∨ inward
    · rw [if_pos hc, if_pos hc]
    · rw [if_neg hc, if_neg hc, hinf fun hm => hc (.inl hm)]
  · simp only [Fmt.round, hsign, hmost, h.maxBits]
    by_cases hc : most
    · rw [if_pos hc, if_pos hc]
    · rw [if_neg hc, if_neg hc, hinf hc]
  · simp only [Fmt.round, h.nanBits, h.hasNan]

end formats

/-- A conversion to an integer rounds once and is held in the range (R98). -/
theorem roundInt_fin (lo hi : Int) (mode : Mode) (n m : Nat) (neg : Bool) (e : Int) :
    let k := pick mode neg n (m * 2 ^ e)
    let v : Int := if neg then -(k : Int) else k
    roundInt lo hi mode n (.fin neg m e) = if v < lo then (lo, Flags.inv) else if hi < v then (hi, Flags.inv)
        else (v, { inexact := decide ((k : ℚ) ≠ m * 2 ^ e) }) := by
  simp only [roundInt, roundAt_eq_pick, zpow_zero, div_one, ne_eq, decide_not]

section sums

variable {rdn : Bool} {l : List FRes}

theorem isNan_iff (x : FVal) : x.isNan = true ↔ ∃ s, x = .nan s := by cases x <;> simp [FVal.isNan]

theorem isZero_iff {x : FVal} (hn : x.isNan = false) (hi : x.isInf = false) : x.isZero = true ↔ x.mag = 0 := by
  cases x with
  | nan s => simp [FVal.isNan] at hn
  | inf s => simp [FVal.isInf] at hi
  | fin s m e => rw [mag_fin_eq_zero]; simp [FVal.isZero]

/-- The sign of a zero sum (R106, log 18). -/
def zeroSign (rdn : Bool) (vs : List FVal) : Bool :=
  if vs.all FVal.isZero && vs.all FVal.isNeg then true
  else if vs.all FVal.isZero && vs.all (fun x => !x.isNeg) then false else rdn

theorem zeroSign_alike {vs : List FVal} (hvs : vs ≠ []) (hz : ∀ x ∈ vs, x.isZero = true) {b : Bool}
    (hb : ∀ x ∈ vs, x.isNeg = b) :
    zeroSign rdn vs = b := by
  have hz' : vs.all FVal.isZero = true := List.all_eq_true.mpr hz
  cases b with
  | true =>
    have hneg : vs.all FVal.isNeg = true := List.all_eq_true.mpr hb
    simp [zeroSign, hz', hneg]
  | false =>
    obtain ⟨x, hx⟩ := List.exists_mem_of_ne_nil vs hvs
    have hneg : vs.all FVal.isNeg = false := List.all_eq_false.mpr ⟨x, hx, by simp [hb x hx]⟩
    have hpos : (vs.all fun x => !x.isNeg) = true := List.all_eq_true.mpr fun x hx => by simp [hb x hx]
    simp [zeroSign, hz', hneg, hpos]

theorem zeroSign_mixed {vs : List FVal}
    (h : (∃ x ∈ vs, x.isZero = false) ∨ ∃ x ∈ vs, ∃ y ∈ vs, x.isNeg ≠ y.isNeg) : zeroSign rdn vs = rdn := by
  rw [zeroSign, if_neg, if_neg] <;> rw [Bool.and_eq_true, List.all_eq_true, List.all_eq_true] <;> rintro ⟨hz, hs⟩ <;>
    rcases h with ⟨x, hx, h⟩ | ⟨x, hx, y, hy, h⟩
  · exact absurd (hz x hx) (by simp [h])
  · exact h (by simpa using (hs x hx).trans (hs y hy).symm)
  · exact absurd (hz x hx) (by simp [h])
  · exact h ((hs x hx).trans (hs y hy).symm)

theorem any_inf_eq_false (hi : ∀ x ∈ l, x.val.isInf = false) (b : Bool) :
    ((l.map FRes.val).any fun x => x == .inf b) = false := by
  rw [List.any_eq_false]
  rintro v hv
  obtain ⟨x, hx, rfl⟩ := List.mem_map.mp hv
  rw [beq_iff_eq]
  exact fun h => absurd (hi x hx) (by simp [h, FVal.isInf])

theorem any_nan_eq_false (hn : ∀ x ∈ l, x.val.isNan = false) : (l.map FRes.val).any FVal.isNan = false := by
  simpa [List.any_eq_false] using hn

theorem sumF_of_finite (hn : ∀ x ∈ l, x.val.isNan = false) (hi : ∀ x ∈ l, x.val.isInf = false) :
    let d := sumDyadic (l.map FRes.val)
    sumF rdn l = if d.1 = 0 then ⟨.fin (zeroSign rdn (l.map FRes.val)) 0 0, l.any FRes.inv⟩
      else ⟨.fin (decide (d.1 < 0)) d.1.natAbs d.2, l.any FRes.inv⟩ := by
  simp only [sumF, any_nan_eq_false hn, any_inf_eq_false hi, Bool.and_self, Bool.false_eq_true, if_false]
  rfl

/-- A sum of finite terms: exact, its zero signed as R106 and log 18 say. -/
theorem sumF_finite (hn : ∀ x ∈ l, x.val.isNan = false) (hi : ∀ x ∈ l, x.val.isInf = false) (hl : l ≠ []) :
    let sum : ℚ := (l.map fun x => x.val.rat).sum
    (sumF rdn l).inv = l.any FRes.inv ∧ ∃ neg, (sumF rdn l).val.Is neg |sum| ∧ (sum ≠ 0 → neg = decide (sum < 0))
      ∧ (sum = 0 → ((∀ x ∈ l, x.val.mag = 0) → ∀ b, (∀ x ∈ l, x.val.isNeg = b) → neg = b)
        ∧ ((∃ x ∈ l, x.val.mag ≠ 0) ∨ (∃ x ∈ l, ∃ y ∈ l, x.val.isNeg ≠ y.val.isNeg) → neg = rdn)) := by
  intro sum
  have hzero (x : FRes) (hx : x ∈ l) : x.val.isZero = true ↔ x.val.mag = 0 := isZero_iff (hn x hx) (hi x hx)
  have hsum : dyadicRat (sumDyadic (l.map FRes.val)) = sum := by
    rw [sumDyadic_rat, List.map_map]; rfl
  rw [sumF_of_finite hn hi]
  generalize sumDyadic (l.map FRes.val) = d at hsum
  have h0 : d.1 = 0 ↔ sum = 0 := by rw [← hsum, dyadicRat_eq_zero]
  by_cases hd : d.1 = 0
  · rw [if_pos hd]
    refine ⟨rfl, _, ⟨⟨rfl, rfl⟩, rfl, ?_⟩, fun h => absurd (h0.mp hd) h, fun _ => ⟨fun hm b hb => ?_, fun h => ?_⟩⟩
    · rw [h0.mp hd, abs_zero, mag_fin_eq_zero]
    · exact zeroSign_alike (by simpa using hl) (by simpa using fun x hx => (hzero x hx).mpr (hm x hx)) (by simpa using hb)
    · refine zeroSign_mixed (h.imp (fun ⟨x, hx, hm⟩ => ⟨x.val, List.mem_map_of_mem hx, ?_⟩)
        fun ⟨x, hx, y, hy, hne⟩ => ⟨x.val, List.mem_map_of_mem hx, y.val, List.mem_map_of_mem hy, hne⟩)
      exact Bool.eq_false_iff.mpr fun hz => hm ((hzero x hx).mp hz)
  · rw [if_neg hd]
    refine ⟨rfl, _, ⟨⟨rfl, rfl⟩, rfl, ?_⟩, fun _ => ?_, fun h => absurd (h0.mpr h) hd⟩
    · rw [← hsum, dyadicRat, FVal.mag, abs_mul, Nat.cast_natAbs, Int.cast_abs, abs_of_pos (by positivity : (0 : ℚ) < 2 ^ d.2)]
    · rw [← hsum]
      exact decide_eq_decide.mpr (dyadicRat_neg d).symm

theorem sumF_nan (h : ∃ x ∈ l, x.val.isNan = true) : sumF rdn l = ⟨.nan false, l.any FRes.inv⟩ := by
  have hn : (l.map FRes.val).any FVal.isNan = true := by simpa using h
  simp only [sumF, hn, if_true]

theorem any_val_eq_iff (b : Bool) : ((l.map FRes.val).any fun x => x == .inf b) = true ↔ ∃ x ∈ l, x.val = .inf b := by
  simp

theorem sumF_infs (hn : ∀ x ∈ l, x.val.isNan = false) (h : ∃ x ∈ l, x.val = .inf false) (h' : ∃ x ∈ l, x.val = .inf true) :
    sumF rdn l = ⟨.nan false, true⟩ := by
  simp only [sumF, any_nan_eq_false hn, (any_val_eq_iff _).mpr h, (any_val_eq_iff _).mpr h', Bool.false_eq_true, if_false,
    Bool.and_self, if_true]

theorem sumF_inf (hn : ∀ x ∈ l, x.val.isNan = false) {neg : Bool} (h : ∃ x ∈ l, x.val = .inf neg)
    (h' : ∀ x ∈ l, x.val ≠ .inf !neg) : sumF rdn l = ⟨.inf neg, l.any FRes.inv⟩ := by
  have hp := (any_val_eq_iff _).mpr h
  have hq : ((l.map FRes.val).any fun x => x == .inf !neg) = false :=
    Bool.eq_false_iff.mpr fun hq => by obtain ⟨x, hx, hv⟩ := (any_val_eq_iff _).mp hq; exact h' x hx hv
  cases neg <;> simp only [Bool.not_false, Bool.not_true] at hq <;>
    simp only [sumF, any_nan_eq_false hn, hp, hq, Bool.false_eq_true, if_false, if_true, Bool.and_false, Bool.false_and]

end sums

section products

variable {x y : FRes}

theorem mul_nan (h : x.val.isNan = true ∨ y.val.isNan = true) : x.mul y = ⟨.nan false, x.inv || y.inv⟩ := by
  obtain ⟨xv, xi⟩ := x
  obtain ⟨yv, yi⟩ := y
  rcases h with h | h
  · obtain ⟨s, rfl⟩ := (isNan_iff _).mp h
    rfl
  · obtain ⟨s, rfl⟩ := (isNan_iff _).mp h
    cases xv <;> rfl

theorem mul_inf (hx : x.val.isNan = false) (hy : y.val.isNan = false) (h : x.val.isInf = true ∨ y.val.isInf = true) :
    x.mul y = if (x.val.isInf = false ∧ x.val.mag = 0) ∨ (y.val.isInf = false ∧ y.val.mag = 0) then ⟨.nan false, true⟩
      else ⟨.inf (x.val.isNeg != y.val.isNeg), false⟩ := by
  obtain ⟨xv, xi⟩ := x
  obtain ⟨yv, yi⟩ := y
  cases xv with
  | nan s => simp [FVal.isNan] at hx
  | inf a =>
    cases yv with
    | nan s => simp [FVal.isNan] at hy
    | inf b => simp [FRes.mul, FVal.isInf, FVal.isNeg]
    | fin b m e => simp [FRes.mul, FVal.isInf, mag_fin_eq_zero, FVal.isNeg]
  | fin b m e =>
    cases yv with
    | nan s => simp [FVal.isNan] at hy
    | inf a =>
      have hcomm : (a != b) = (b != a) := Bool.xor_comm a b
      simp [FRes.mul, FVal.isInf, mag_fin_eq_zero, FVal.isNeg, hcomm]
    | fin c m' e' => simp [FVal.isInf] at h

theorem mul_finite (hx : x.val.isNan = false) (hy : y.val.isNan = false) (hxi : x.val.isInf = false)
    (hyi : y.val.isInf = false) :
    (x.mul y).inv = false ∧ (x.mul y).val.Is (x.val.isNeg != y.val.isNeg) (x.val.mag * y.val.mag) := by
  obtain ⟨xv, xi⟩ := x
  obtain ⟨yv, yi⟩ := y
  cases xv with
  | nan s => simp [FVal.isNan] at hx
  | inf a => simp [FVal.isInf] at hxi
  | fin a m e =>
    cases yv with
    | nan s => simp [FVal.isNan] at hy
    | inf b => simp [FVal.isInf] at hyi
    | fin b m' e' =>
      refine ⟨rfl, ⟨rfl, rfl⟩, rfl, ?_⟩
      simp only [FRes.mul, FVal.mag, zpow_add₀ (two_ne_zero (α := ℚ))]
      push_cast
      ring

end products

end Sys2Proof.Machine
end

