-- ==== Sys2Proof/Proofs/BlockQuantisation.lean ====
section
/-! PROOF. Rounding and quantisation: a list rounded in order with a step of SEED each, the exponents of a block, and the
elements of an MX and a DX block (R95, R97, R100, R101). -/

namespace Sys2Proof.Machine

section lists

variable {α β : Type} {mode : Mode}

/-- A list rounded in order: its results, its flags, and a step of SEED each under stochastic rounding (R97). -/
theorem mapSeed_eq (mode : Mode) (f : α → Nat → Nat × Flags) (l : List α) (seed : BitVec 32) :
    let conv (p : α × Nat) := f p.1 (drawn mode seed p.2)
    mapSeed (mode == .sr) f l seed = (l.zipIdx.map (fun p => (conv p).1), Flags.all (l.zipIdx.map fun p => (conv p).2),
      seedAfter seed (if mode = .sr then l.length else 0)) := by
  intro conv
  have hstep (k : Nat) : (if (mode == .sr) = true then seedStep (seedAfter seed (if mode = .sr then k else 0))
      else seedAfter seed (if mode = .sr then k else 0)) = seedAfter seed (if mode = .sr then k + 1 else 0) := by
    by_cases h : mode = .sr <;> simp [h, seedAfter]
  suffices h : ∀ (l : List α) (k : Nat), mapSeed (mode == .sr) f l (seedAfter seed (if mode = .sr then k else 0))
      = ((l.zipIdx k).map (fun p => (conv p).1), Flags.all ((l.zipIdx k).map fun p => (conv p).2),
        seedAfter seed (if mode = .sr then k + l.length else 0)) by
    have h0 := h l 0
    rwa [ite_self, seedAfter, Nat.zero_add] at h0
  intro l
  induction l with
  | nil => intro k; rfl
  | cons x l ih =>
    intro k
    have hlen : k + (x :: l).length = k + 1 + l.length := by rw [List.length_cons]; omega
    rw [mapSeed, hstep, ih, List.zipIdx_cons, List.map_cons, List.map_cons, flags_all_cons, hlen]
    rfl

theorem mapSeed_map (draws : Bool) (g : α → β) (f : β → Nat → Nat × Flags) (l : List α) (seed : BitVec 32) :
    mapSeed draws f (l.map g) seed = mapSeed draws (fun x => f (g x)) l seed := by
  induction l generalizing seed with
  | nil => rfl
  | cons x l ih => simp only [List.map_cons, mapSeed, ih]

/-- The largest of a list. -/
theorem maxInt_eq_some_iff (l : List Int) (E : Int) : maxInt? l = some E ↔ E ∈ l ∧ ∀ x ∈ l, x ≤ E := by
  induction l generalizing E with
  | nil => simp [maxInt?]
  | cons x l ih =>
    rw [maxInt?]
    cases h : maxInt? l with
    | none =>
      have hl : l = [] := by
        cases l with
        | nil => rfl
        | cons y l => rw [maxInt?] at h; cases h' : maxInt? l <;> simp [h'] at h
      subst hl
      simpa [eq_comm] using le_of_eq (a := x) (b := E)
    | some y =>
      obtain ⟨hy, hmax⟩ := (ih y).mp h
      simp only [Option.some.injEq, List.mem_cons, forall_eq_or_imp]
      constructor
      · rintro rfl
        refine ⟨?_, le_max_left x y, fun z hz => (hmax z hz).trans (le_max_right x y)⟩
        rcases max_choice x y with h | h <;> rw [h]
        · exact .inl rfl
        · exact .inr hy
      · rintro ⟨rfl | hE, hx, hm⟩
        · exact max_eq_left (hm y hy)
        · exact le_antisymm (max_le hx (hm y hy)) ((hmax E hE).trans (le_max_right x y))

theorem maxInt_eq_none_iff (l : List Int) : maxInt? l = none ↔ l = [] := by
  cases l with
  | nil => simp [maxInt?]
  | cons x l => rw [maxInt?]; cases maxInt? l <;> simp

end lists

section exponents

variable {l : List FVal}

theorem log_mag {m : Nat} (hm : m ≠ 0) (e : Int) : Int.log 2 ((m : ℚ) * 2 ^ e) = m.log2 + e := by
  have hpos : (0 : ℚ) < m * 2 ^ e := by
    have : (0 : ℚ) < m := by exact_mod_cast Nat.pos_of_ne_zero hm
    positivity
  rw [← (parts_exact m e).log hm, ← log_ratCast hpos]
  push_cast
  rfl

/-- The exponent of a finite value that is not zero (R100). -/
theorem exOf_eq (x : FVal) : exOf x = if x.mag = 0 then none else some (Int.log 2 x.mag) := by
  cases x with
  | nan s => simp [exOf, FVal.mag]
  | inf s => simp [exOf, FVal.mag]
  | fin s m e =>
    rw [exOf, if_congr (mag_fin_eq_zero s m e) rfl rfl]
    split
    · rfl
    · rw [FVal.mag, log_mag ‹_›]

theorem mem_exponents (E : Int) : E ∈ l.filterMap exOf ↔ ∃ x ∈ l, x.mag ≠ 0 ∧ Int.log 2 x.mag = E := by
  simp [exOf_eq]

/-- The largest exponent of a list is the one that R100 names. -/
theorem topEx_iff (E : Int) : TopEx l E ↔ maxInt? (l.filterMap exOf) = some E := by
  rw [maxInt_eq_some_iff, mem_exponents, TopEx, and_congr_right_iff]
  refine fun _ => ⟨fun h y hy => ?_, fun h x hx hm => h _ (mem_exponents _ |>.mpr ⟨x, hx, hm, rfl⟩)⟩
  obtain ⟨x, hx, hm, rfl⟩ := (mem_exponents y).mp hy
  exact h x hx hm

theorem noEx_iff : maxInt? (l.filterMap exOf) = none ↔ ∀ x ∈ l, x.mag = 0 := by
  simp [maxInt_eq_none_iff, List.filterMap_eq_nil_iff, exOf_eq]

theorem maxInt_add (c : Int) (l : List Int) : maxInt? (l.map (· + c)) = (maxInt? l).map (· + c) := by
  induction l with
  | nil => rfl
  | cons x l ih =>
    rw [List.map_cons, maxInt?, ih, maxInt?]
    cases maxInt? l with
    | none => rfl
    | some y => exact congrArg some (max_add_add_right x y c)

theorem anyInf_eq (l : List FVal) : (l.any fun x => x == .inf false || x == .inf true) = l.any FVal.isInf := by
  congr 1
  funext x
  cases x with
  | nan s => rfl
  | inf s => cases s <;> rfl
  | fin s m e => rfl

end exponents

section mx

variable {f : Fmt} {mode : Mode} {xs : List FVal} {seed : BitVec 32}

/-- The scale of an MX block (R100). -/
def blockScale (emax : Int) (xs : List FVal) : Int :=
  match maxInt? (xs.filterMap exOf) with
  | some ex => min 254 (max 0 (ex - emax + 127))
  | none => if xs.any FVal.isInf then 254 else 0

/-- A value over a power of two. -/
def FVal.over (s : Int) : FVal → FVal
  | .fin n m e => .fin n m (e - s)
  | v => v

theorem blockScale_nonneg (emax : Int) (xs : List FVal) : 0 ≤ blockScale emax xs := by
  unfold blockScale
  split
  · omega
  · split <;> omega

theorem quantMx_nan (h : xs.any FVal.isNan = true) :
    quantMx f mode xs seed = (xs.map fun _ => 0, 255, Flags.none, seedAfter seed (if mode = .sr then xs.length else 0)) := by
  simp only [quantMx, h, if_true, mapSeed_eq]

theorem quantMx_eq (h : xs.any FVal.isNan = false) :
    let conv (p : FVal × Nat) := f.round mode true (drawn mode seed p.2) (p.1.over (blockScale (mxEmax f) xs - 127))
    quantMx f mode xs seed = (xs.zipIdx.map (fun p => (conv p).1), (blockScale (mxEmax f) xs).toNat,
      Flags.all (xs.zipIdx.map fun p => (conv p).2), seedAfter seed (if mode = .sr then xs.length else 0)) := by
  intro conv
  have hconv := mapSeed_eq mode (fun x n => f.round mode true n (x.over (blockScale (mxEmax f) xs - 127))) xs seed
  simp only [quantMx, h, Bool.false_eq_true, if_false, anyInf_eq]
  exact congrArg (fun r : List Nat × Flags × BitVec 32 => (r.1, (blockScale (mxEmax f) xs).toNat, r.2.1, r.2.2)) hconv

end mx

section dx

variable {w cap : Nat} {outl : Bool} {mode : Mode} {xs : List FVal} {seed : BitVec 32}

/-- An outlier of a DX block (R101). -/
def dxOut (outl : Bool) (lim : ℚ) (x : FVal) : Bool := outl && (x.isInf || decide (lim < x.mag))

theorem aboveLim_eq (M : Nat) (le : Int) (x : FVal) : aboveLim M le x = (x.isInf || decide ((M : ℚ) * 2 ^ le < x.mag)) := by
  cases x with
  | nan s =>
    have h : ¬ (M : ℚ) * 2 ^ le < 0 := not_lt.mpr (by positivity)
    simp [aboveLim, FVal.isInf, FVal.mag, h]
  | inf s => rfl
  | fin s m e =>
    have hneg : dyadicRat (-(M : Int), le) = -(M * 2 ^ le) := by simp [dyadicRat]
    have hpos (d : Int × Int) : 0 < d.1 ↔ 0 < dyadicRat d := by
      have h0 := dyadicRat_eq_zero d
      have hn := dyadicRat_neg d
      rw [← not_le, ← not_le, le_iff_lt_or_eq, le_iff_lt_or_eq, h0, hn]
    have habove : 0 < (addDyadic (m, e) (-(M : Int), le)).1 ↔ (M : ℚ) * 2 ^ le < m * 2 ^ e := by
      rw [hpos, dyadicRat_add, hneg, ← sub_eq_add_neg, sub_pos]
      rfl
    exact decide_eq_decide.mpr habove

theorem zip_map_eq {α β : Type} (g : α → β) (xs : List α) : xs.zip (xs.map g) = xs.map fun x => (x, g x) := by
  induction xs with
  | nil => rfl
  | cons x xs ih => rw [List.map_cons, List.zip_cons_cons, ih, List.map_cons]

/-- The values of a block that are no outliers, each beside its value. -/
theorem kept_eq {α : Type} (out : α → Bool) (xs : List α) :
    ((xs.zip (xs.map out)).filterMap fun p => if p.2 then none else some p.1) = xs.filter fun x => !out x := by
  induction xs with
  | nil => rfl
  | cons x xs ih =>
    cases h : out x <;> simp [h] <;> simpa using ih

/-- The greater exponent of a DX block (R101). -/
def dxHigh (cap : Nat) (rest : List FVal) : Int :=
  match maxInt? ((rest.filterMap exOf).map (· + 127)) with
  | some b => min cap (max 0 b)
  | none => if rest.any FVal.isInf then cap else 0

/-- The lesser exponent of a DX block (R101). -/
def dxLow (wid ehi : Int) (rest : List FVal) : Int :=
  match maxInt? (((rest.filterMap exOf).map (· + 127)).filter fun b => decide (b ≤ ehi - wid)) with
  | some b => max 0 b
  | none => ehi

/-- The values of a DX block that its lesser exponent serves (R101). -/
def dxSmall (wid ehi : Int) (rest : List FVal) : List FVal :=
  rest.filter fun x => decide (x.mag ≠ 0 ∧ Int.log 2 x.mag + 127 ≤ ehi - wid)

theorem small_exponents (wid ehi : Int) (rest : List FVal) :
    (((rest.filterMap exOf).map (· + 127)).filter fun b => decide (b ≤ ehi - wid))
      = ((dxSmall wid ehi rest).filterMap exOf).map (· + 127) := by
  induction rest with
  | nil => rfl
  | cons x rest ih =>
    by_cases hm : x.mag = 0
    · simpa [dxSmall, exOf_eq, hm] using ih
    · by_cases hb : Int.log 2 x.mag + 127 ≤ ehi - wid
      · simpa [dxSmall, exOf_eq, hm, hb] using ih
      · simpa [dxSmall, exOf_eq, hm, hb] using ih

theorem dxHigh_range (cap : Nat) (rest : List FVal) : 0 ≤ dxHigh cap rest ∧ dxHigh cap rest ≤ cap := by
  unfold dxHigh
  split
  · omega
  · split <;> omega

theorem dxLow_range {wid ehi : Int} (hw : 0 ≤ wid) (hhi : 0 ≤ ehi) (rest : List FVal) :
    0 ≤ dxLow wid ehi rest ∧ dxLow wid ehi rest ≤ ehi := by
  unfold dxLow
  split
  · rename_i b hb
    have := (List.mem_filter.mp ((maxInt_eq_some_iff _ _).mp hb).1).2
    rw [decide_eq_true_eq] at this
    omega
  · omega

theorem dxHigh_top {rest : List FVal} {E : Int} (h : TopEx rest E) : dxHigh cap rest = min (cap : Int) (max 0 (E + 127)) := by
  rw [dxHigh, maxInt_add, (topEx_iff E).mp h]; rfl

theorem dxHigh_zero {rest : List FVal} (h : ∀ x ∈ rest, x.mag = 0) : 
    (dxHigh cap rest).toNat = if rest.any FVal.isInf then cap else 0 := by
  rw [dxHigh, maxInt_add, noEx_iff.mpr h]
  dsimp only [Option.map_none]
  split <;> rfl

theorem dxLow_top {wid ehi E : Int} {rest : List FVal} (h : TopEx (dxSmall wid ehi rest) E) :
    dxLow wid ehi rest = max 0 (E + 127) := by
  rw [dxLow, small_exponents, maxInt_add, (topEx_iff E).mp h]; rfl

theorem dxLow_none {wid ehi : Int} {rest : List FVal} (h : dxSmall wid ehi rest = []) : dxLow wid ehi rest = ehi := by
  rw [dxLow, small_exponents, h]; rfl

/-- An element of a DX block, with its flags (R101). -/
def dxElement (w M : Nat) (k : Int) (lim : ℚ) (out : Bool) (lo hi : Int) (mode : Mode) (x : FVal) (n : Nat) : Nat × Flags :=
  let sign := if x.isNeg then 2 ^ (w - 2) else 0
  let sel := decide (x.mag ≠ 0 ∧ lo < Int.log 2 x.mag + 127)
  let v : ℚ := x.mag * 2 ^ (k - if sel then hi else lo)
  let r := pick mode x.isNeg n v
  if out then (0, Flags.none)
  else if x.isInf then (2 ^ (w - 1) + sign + M, Flags.none)
  else ((if sel then 2 ^ (w - 1) else 0) + sign + min r M,
    { inexact := decide ((r : ℚ) ≠ v ∨ M < r), overflow := decide (M < r ∧ lim < x.mag)
      underflow := decide (r = 0 ∧ x.mag ≠ 0) })

theorem quantDx_nan (h : xs.any FVal.isNan = true) :
    quantDx w cap outl mode xs seed = (xs.map fun _ => 0, 0xFFFF, Flags.none,
      seedAfter seed (if mode = .sr then xs.length else 0), xs.map fun _ => false) := by
  simp only [quantDx, h, if_true, mapSeed_eq]

theorem record_mod {lo hi : Int} (h : lo < 256) : (lo.toNat + hi.toNat * 2 ^ 8) % 256 = lo.toNat := by omega

theorem record_div {lo hi : Int} (h : lo < 256) : (lo.toNat + hi.toNat * 2 ^ 8) / 256 = hi.toNat := by omega

/-- The widths and the constants of the two DX formats (R95, R101). -/
structure DxFmt (w W M : Nat) (k : Int) : Prop where
  wid : (if w = 8 then 3 else 1 : Int) = W
  most : 2 ^ (w - 2) - 1 = M
  unit : (if w = 8 then 132 else 128 : Int) = k

theorem dxFmt {W M : Nat} {k : Int} (h : (w, W, M, k) ∈ [(8, 3, 63, 132), (4, 1, 3, 128)]) : DxFmt w W M k := by
  simp only [List.mem_cons, Prod.mk.injEq, List.not_mem_nil, or_false] at h
  rcases h with ⟨rfl, rfl, rfl, rfl⟩ | ⟨rfl, rfl, rfl, rfl⟩ <;> exact ⟨rfl, rfl, rfl⟩

/-- An element of a DX block as the model encodes it. -/
def dxEncode (w M cap : Nat) (k lo hi : Int) (mode : Mode) (p : FVal × Bool) (n : Nat) : Nat × Flags :=
  if p.2 then (0, Flags.none)
  else match p.1 with
    | .nan _ => (0, Flags.none)
    | .inf s => (2 ^ (w - 1) + quantDx.b2n' s * 2 ^ (w - 2) + M, Flags.none)
    | .fin s m e =>
      let sel := match exOf p.1 with | some b => decide (b + 127 > lo) | none => false
      let r := roundAt mode n s m (e + k - (if sel then hi else lo)) false 0
      ((if sel then 2 ^ (w - 1) else 0) + quantDx.b2n' s * 2 ^ (w - 2) + min r.1 M,
        { inexact := !r.2 || decide (M < r.1), overflow := decide (M < r.1) && aboveLim M ((cap : Int) - k) p.1
          underflow := decide (r.1 = 0) && m != 0 })

/-- What the model encodes is what R101 says. -/
theorem dxEncode_eq (w M cap : Nat) (k lo hi : Int) (mode : Mode) {x : FVal} (hx : x.isNan = false) (out : Bool) (n : Nat) :
    dxEncode w M cap k lo hi mode (x, out) n = dxElement w M k (M * 2 ^ ((cap : Int) - k)) out lo hi mode x n := by
  have hsign (s : Bool) : quantDx.b2n' s * 2 ^ (w - 2) = if s then 2 ^ (w - 2) else 0 := by cases s <;> simp [quantDx.b2n']
  cases out with
  | true => rfl
  | false =>
    cases x with
    | nan s => simp [FVal.isNan] at hx
    | inf s => simp only [dxEncode, hsign]; rfl
    | fin s m e =>
      let x := FVal.fin s m e
      have hsel : (match exOf x with | some b => decide (b + 127 > lo) | none => false)
          = decide (x.mag ≠ 0 ∧ lo < Int.log 2 x.mag + 127) := by
        rw [exOf_eq]
        by_cases h : x.mag = 0 <;> simp [h]
      have hv (E : Int) : (m : ℚ) * 2 ^ (e + k - E) / 2 ^ (0 : ℤ) = x.mag * 2 ^ (k - E) := by
        simp only [x, FVal.mag]
        rw [zpow_zero, div_one, add_sub_assoc, zpow_add₀ two_ne_zero, mul_assoc]
      have hm : (m != 0) = decide (x.mag ≠ 0) := by
        simp [x, mag_fin_eq_zero, bne, Bool.beq_eq_decide_eq]
      have hneg : x.isNeg = s := rfl
      have hinf : x.isInf = false := rfl
      change dxEncode w M cap k lo hi mode (x, false) n = _
      simp only [dxEncode, dxElement, Bool.false_eq_true, if_false, hinf, hneg, x]
      simp only [← show x = FVal.fin s m e from rfl, hsel, roundAt_eq_pick, hv, hsign, aboveLim_eq, hm, hinf, Bool.false_or,
        ne_eq, decide_not, Bool.decide_or, Bool.decide_and]

/-- A DX block without a NaN: its elements, its scale record, its flags and its outliers (R101). -/
theorem quantDx_eq {W M : Nat} {k : Int} (hf : DxFmt w W M k) (h : xs.any FVal.isNan = false) :
    let lim : ℚ := M * 2 ^ ((cap : Int) - k)
    let rest := xs.filter fun x => !dxOut outl lim x
    let hi := dxHigh cap rest
    let lo := dxLow W hi rest
    let conv (p : FVal × Nat) := dxElement w M k lim (dxOut outl lim p.1) lo hi mode p.1 (drawn mode seed p.2)
    quantDx w cap outl mode xs seed = (xs.zipIdx.map (fun p => (conv p).1), lo.toNat + hi.toNat * 2 ^ 8,
      Flags.all (xs.zipIdx.map fun p => (conv p).2), seedAfter seed (if mode = .sr then xs.length else 0),
      xs.map (dxOut outl lim)) := by
  intro lim rest hi lo conv
  obtain ⟨hwid, hmost, hunit⟩ := hf
  have hout : (fun x => outl && aboveLim M ((cap : Int) - k) x) = dxOut outl lim :=
    funext fun x => congrArg (outl && ·) (aboveLim_eq M _ x)
  have hconv : ∀ p ∈ xs.zipIdx, dxEncode w M cap k lo hi mode (p.1, dxOut outl lim p.1) (drawn mode seed p.2) = conv p :=
    fun p hp => dxEncode_eq w M cap k lo hi mode (by simpa using List.any_eq_false.mp h p.1 (List.fst_mem_of_mem_zipIdx hp)) _ _
  have henc : mapSeed (mode == .sr) (dxEncode w M cap k lo hi mode) (xs.map fun x => (x, dxOut outl lim x)) seed
      = (xs.zipIdx.map (fun p => (conv p).1), Flags.all (xs.zipIdx.map fun p => (conv p).2),
        seedAfter seed (if mode = .sr then xs.length else 0)) := by
    rw [mapSeed_map, mapSeed_eq, List.map_congr_left fun p hp => congrArg Prod.fst (hconv p hp),
      List.map_congr_left fun p hp => congrArg Prod.snd (hconv p hp)]
  simp only [quantDx, h, Bool.false_eq_true, if_false, anyInf_eq, hwid, hmost, hunit, hout, kept_eq]
  rw [zip_map_eq]
  exact congrArg (fun r : List Nat × Flags × BitVec 32 =>
    (r.1, lo.toNat + hi.toNat * 2 ^ 8, r.2.1, r.2.2, xs.map (dxOut outl lim))) henc

end dx

section obligation

theorem mxEmax_eq {f : Fmt} {emax : Int} (h : (f, emax) ∈ [(fmtE4m3, 8), (fmtE5m2, 15), (fmtE2m1, 2)]) : mxEmax f = emax := by
  simp only [List.mem_cons, Prod.mk.injEq, List.not_mem_nil, or_false] at h
  rcases h with ⟨rfl, rfl⟩ | ⟨rfl, rfl⟩ | ⟨rfl, rfl⟩ <;> rfl

/-- Settles O20: each rounding is the pick of the exact magnitude, each sum the rational sum, and each block a list rounded in
order under the exponents that its largest magnitudes give. -/
theorem roundingAndQuantisation : Obligations.RoundingAndQuantisation := by
  refine ⟨fun f w p bias top nan hf => ⟨(listedFmt hf).decode, (listedFmt hf).round⟩,
    fun lo hi mode n m neg e => ⟨roundInt_fin lo hi mode n m neg e, rfl, fun _ => rfl⟩,
    fun rdn l hl => ⟨sumF_nan, fun hn => ⟨sumF_infs hn, fun neg => sumF_inf hn, fun hi => sumF_finite hn hi hl⟩⟩,
    fun x y => ⟨mul_nan, mul_inf, mul_finite⟩, fun f emax mode xs seed hf => ?_, fun w W M k cap outl mode xs seed hw hcap => ?_⟩
  · rw [← mxEmax_eq hf]
    cases h : xs.any FVal.isNan with
    | true =>
      rw [quantMx_nan h]
      obtain ⟨x, hx, hn⟩ := List.any_eq_true.mp h
      exact ⟨rfl, fun _ => ⟨rfl, rfl, rfl⟩, fun hall => absurd hn (by simp [hall x hx])⟩
    | false =>
      have hsc := Int.toNat_of_nonneg (blockScale_nonneg (mxEmax f) xs)
      have hnan := List.any_eq_false.mp h
      rw [quantMx_eq h]
      refine ⟨rfl, fun ⟨x, hx, hn⟩ => absurd hn (hnan x hx), fun _ => ⟨?_, ?_, fun E hE => ?_, fun h0 => ?_⟩⟩
      · simp only [hsc]
        exact List.map_congr_left fun ⟨x, i⟩ _ => by cases x <;> rfl
      · simp only [hsc]
        exact congrArg Flags.all (List.map_congr_left fun ⟨x, i⟩ _ => by cases x <;> rfl)
      · rw [hsc, blockScale, (topEx_iff E).mp hE]
      · rw [blockScale, noEx_iff.mpr h0]
        dsimp only
        split <;> rfl
  · cases h : xs.any FVal.isNan with
    | true =>
      rw [quantDx_nan h]
      obtain ⟨x, hx, hn⟩ := List.any_eq_true.mp h
      exact ⟨rfl, fun _ => ⟨rfl, rfl, rfl, rfl⟩, fun hall => absurd hn (by simp [hall x hx])⟩
    | false =>
      rw [quantDx_eq (dxFmt hw) h]
      have hnan := List.any_eq_false.mp h
      refine ⟨rfl, fun ⟨x, hx, hn⟩ => absurd hn (hnan x hx), fun _ => ⟨rfl, ?_⟩⟩
      let rest := xs.filter fun x => !dxOut outl (M * 2 ^ ((cap : Int) - k)) x
      let hi := dxHigh cap rest
      let lo := dxLow W hi rest
      obtain ⟨hhi0, hhi⟩ : 0 ≤ hi ∧ hi ≤ cap := dxHigh_range cap rest
      obtain ⟨hlo0, hlo⟩ : 0 ≤ lo ∧ lo ≤ hi := dxLow_range (Int.natCast_nonneg W) hhi0 rest
      have hsmall : lo < 256 := by omega
      dsimp only
      rw [record_mod hsmall, record_div hsmall, Int.toNat_of_nonneg hhi0, Int.toNat_of_nonneg hlo0]
      refine ⟨rfl, rfl, fun E hE => dxHigh_top hE, fun h0 => ?_, fun E hE => dxLow_top hE, fun h0 => ?_⟩
      · exact dxHigh_zero h0
      · exact congrArg Int.toNat (dxLow_none h0)

end obligation

end Sys2Proof.Machine
end

