-- ==== Sys2Proof/Proofs/ElementFunctions.lean ====
section
/-! PROOF. The functions of one element: integers and their limits, order, sign, class, conversion, and the elements of an MX and a
DX block (R89, R92, R94, R95, R97, R98, R161 to R163). -/

namespace Sys2Proof.Machine

section integers

variable {w x : Nat}

/-- A word as a signed integer. -/
theorem toInt_ofNat_of_lt (h : x < 2 ^ w) : (BitVec.ofNat w x).toInt = if 2 * x < 2 ^ w then (x : Int) else x - 2 ^ w := by
  rw [BitVec.toInt_eq_toNat_cond, BitVec.toNat_ofNat, Nat.mod_eq_of_lt h]
  push_cast
  rfl

theorem elemInt_n32 (x : Nat) : elemInt .n32 x = x := by simp [elemInt]

theorem elemInt_eq_toInt {ty : VType} (hty : ty ≠ .n32) (hw : vw ty = w) (hw1 : 1 ≤ w) (hx : x < 2 ^ w) :
    elemInt ty x = (BitVec.ofNat w x).toInt := by
  have hpow : 2 ^ w = 2 * 2 ^ (w - 1) := by rw [← Nat.pow_succ', Nat.succ_eq_add_one, Nat.sub_add_cancel hw1]
  rw [toInt_ofNat_of_lt hx, elemInt, hw]
  by_cases h : 2 ^ (w - 1) ≤ x
  · rw [if_pos ⟨hty, h⟩, if_neg (by omega)]
  · rw [if_neg fun hc => h hc.2, if_pos (by omega)]

theorem intBits_eq (w : Nat) (v : Int) : (intBits w v : Int) = v % 2 ^ w :=
  Int.toNat_of_nonneg (Int.emod_nonneg v (by positivity))

end integers

section order

variable {x y : FVal}

theorem neg_rat (x : FVal) : x.neg.rat = -x.rat := by
  cases x with
  | nan s => simp [FVal.neg, FVal.rat, FVal.mag]
  | inf s => simp [FVal.neg, FVal.rat, FVal.mag]
  | fin s m e => cases s <;> simp [FVal.neg, FVal.rat, FVal.isNeg, FVal.mag]

/-- The order of two finite values, as the exact difference gives it. -/
theorem cmpF_fin (s t : Bool) (m m' : Nat) (e e' : Int) :
    let x := FVal.fin s m e
    let y := FVal.fin t m' e'
    (cmpF x y < 0 ↔ x.rat < y.rat) ∧ (cmpF x y = 0 ↔ x.rat = y.rat) := by
  intro x y
  have hd : dyadicRat (sumDyadic [x, y.neg]) = x.rat - y.rat := by
    rw [sumDyadic_rat]
    simp [neg_rat, sub_eq_add_neg]
  have hlt : (sumDyadic [x, y.neg]).1 < 0 ↔ x.rat < y.rat := by rw [← dyadicRat_neg, hd, sub_neg]
  have heq : (sumDyadic [x, y.neg]).1 = 0 ↔ x.rat = y.rat := by rw [← dyadicRat_eq_zero, hd, sub_eq_zero]
  have hcmp : cmpF x y = if (sumDyadic [x, y.neg]).1 < 0 then -1 else if (sumDyadic [x, y.neg]).1 = 0 then 0 else 1 := rfl
  rw [← hlt, ← heq, hcmp]
  generalize (sumDyadic [x, y.neg]).1 = d
  by_cases h1 : d < 0
  · rw [if_pos h1]; omega
  · rw [if_neg h1]; split <;> omega

theorem cmpF_iff (hx : x.isNan = false) (hy : y.isNan = false) :
    (cmpF x y < 0 ↔ x.Below y) ∧ (cmpF x y = 0 ↔ x.Same y) := by
  cases x with
  | nan s => simp [FVal.isNan] at hx
  | inf s =>
    cases y with
    | nan t => simp [FVal.isNan] at hy
    | inf t => cases s <;> cases t <;> simp [cmpF, FVal.Below, FVal.Same, FVal.isNan, FVal.isInf]
    | fin t m e => cases s <;> simp [cmpF, FVal.Below, FVal.Same, FVal.isNan, FVal.isInf]
  | fin s m e =>
    cases y with
    | nan t => simp [FVal.isNan] at hy
    | inf t => cases t <;> simp [cmpF, FVal.Below, FVal.Same, FVal.isNan, FVal.isInf]
    | fin t m' e' =>
      obtain ⟨hlt, heq⟩ := cmpF_fin s t m m' e e'
      rw [hlt, heq]
      simp [FVal.Below, FVal.Same, FVal.isNan, FVal.isInf]

/-- x is below y, −0 below +0 (R98). -/
def FVal.BelowTotal (x y : FVal) : Prop := x.Below y ∨ (x.Same y ∧ x.isNeg = true ∧ y.isNeg = false)

theorem ltTotal_iff (hx : x.isNan = false) (hy : y.isNan = false) : ltTotal x y = true ↔ x.BelowTotal y := by
  obtain ⟨hlt, heq⟩ := cmpF_iff hx hy
  rw [ltTotal, FVal.BelowTotal, ← hlt, ← heq]
  simp [and_assoc]

variable {f : Fmt} {a b : Nat}

theorem minMaxF_nan (h : (f.decode a).isNan = true ∨ (f.decode b).isNan = true) (big : Bool) :
    minMaxF f big a b = (f.nanBits, Flags.inv) := by
  rw [minMaxF, if_pos (by rwa [Bool.or_eq_true])]

theorem minMaxF_below (ha : (f.decode a).isNan = false) (hb : (f.decode b).isNan = false)
    (h : (f.decode b).BelowTotal (f.decode a)) : minMaxF f false a b = (b, Flags.none) ∧ minMaxF f true a b = (a, Flags.none) := by
  rw [← ltTotal_iff hb ha] at h
  simp [minMaxF, ha, hb, h]

theorem minMaxF_not_below (ha : (f.decode a).isNan = false) (hb : (f.decode b).isNan = false)
    (h : ¬ (f.decode b).BelowTotal (f.decode a)) : minMaxF f false a b = (a, Flags.none) ∧ minMaxF f true a b = (b, Flags.none) := by
  rw [← ltTotal_iff hb ha, Bool.not_eq_true] at h
  simp [minMaxF, ha, hb, h]

variable {ty : VType}

theorem cmpElem_nan (hty : ty.isInt = false) (h : ((vfmt ty).decode a).isNan = true ∨ ((vfmt ty).decode b).isNan = true) :
    cmpElem ty a b = ⟨false, false, ((vfmt ty).decode a).isSig || ((vfmt ty).decode b).isSig, true⟩ := by
  rw [cmpElem, hty, if_neg Bool.false_ne_true, if_pos (by rwa [Bool.or_eq_true])]

theorem cmpElem_number (hty : ty.isInt = false) (ha : ((vfmt ty).decode a).isNan = false) (hb : ((vfmt ty).decode b).isNan = false) :
    cmpElem ty a b = ⟨decide (cmpF ((vfmt ty).decode a) ((vfmt ty).decode b) < 0),
      decide (cmpF ((vfmt ty).decode a) ((vfmt ty).decode b) = 0), false, false⟩ := by
  rw [cmpElem, hty, if_neg Bool.false_ne_true, if_neg (by simp [ha, hb])]

end order

section sign

variable {f : Fmt} {w p : Nat} {bias : Int} {top nan : Nat}

theorem decode_isNeg {x : Nat} (h : (f.decode x).isNan = false) :
    (f.decode x).isNeg = decide (x / 2 ^ (f.ew + f.mw) % 2 = 1) := by
  rw [decode_eq rfl rfl] at h ⊢
  split_ifs at h ⊢
  · rfl
  · simp [FVal.isNan] at h
  · rfl
  · rfl

theorem signOp_nan {x : Nat} (h : (f.decode x).isNan = true) (flip : Bool) :
    signOp f flip x = (f.nanBits, { invalid := (f.decode x).isSig }) := by
  obtain ⟨s, hs⟩ := (isNan_iff _).mp h
  rw [signOp, hs]; rfl

theorem signOp_number {x : Nat} (h : (f.decode x).isNan = false) (flip : Bool) :
    signOp f flip x = (f.signBit (flip && !(decide (x / 2 ^ (f.ew + f.mw) % 2 = 1))) + x % 2 ^ (f.ew + f.mw), Flags.none) := by
  rw [← decode_isNeg h, signOp]
  cases hv : f.decode x with
  | nan s => rw [hv] at h; simp [FVal.isNan] at h
  | inf s => rfl
  | fin s m e => rfl

end sign

section classes

variable {ty : VType} {w p : Nat} {bias : Int} {top nan : Nat}

/-- A format with infinities and signaling NaNs at the greatest exponent field (R89, R91). -/
structure InfinityFmt (f : Fmt) (w p : Nat) : Prop where
  ew : f.ew = w
  mw : f.mw = p
  infBits : f.infBits = (2 ^ w - 1) * 2 ^ p
  maxBits : f.maxBits + 1 = f.infBits
  hasInf : f.hasInf = true
  hasSig : f.hasSig = true

theorem FloatType.infinityFmt (h : FloatType ty w p bias top nan) : InfinityFmt (vfmt ty) w p := by
  simp only [FloatType, List.mem_cons, Prod.mk.injEq, List.not_mem_nil, or_false] at h
  rcases h with ⟨rfl, rfl, rfl, rfl, rfl, rfl⟩ | ⟨rfl, rfl, rfl, rfl, rfl, rfl⟩ | ⟨rfl, rfl, rfl, rfl, rfl, rfl⟩
    | ⟨rfl, rfl, rfl, rfl, rfl, rfl⟩ <;> exact ⟨rfl, rfl, rfl, rfl, rfl, rfl⟩

theorem FloatType.float (h : FloatType ty w p bias top nan) : ty.isInt = false := by
  simp only [FloatType, List.mem_cons, Prod.mk.injEq, List.not_mem_nil, or_false] at h
  rcases h with ⟨rfl, -⟩ | ⟨rfl, -⟩ | ⟨rfl, -⟩ | ⟨rfl, -⟩ <;> rfl

theorem InfinityFmt.decode {f : Fmt} (h : InfinityFmt f w p) (x : Nat) :
    let neg := decide (x / 2 ^ (w + p) % 2 = 1)
    let E := x / 2 ^ p % 2 ^ w
    let F := x % 2 ^ p
    f.decode x = if E = 2 ^ w - 1 then (if F = 0 then .inf neg else .nan (decide (F < 2 ^ (p - 1))))
      else if E = 0 then .fin neg F f.qmin else .fin neg (2 ^ p + F) (f.qmin + (E - 1 : Nat)) := by
  intro neg E F
  obtain ⟨hw, hp, hinf, hmax, hI, hS⟩ := h
  have hE : E < 2 ^ w := Nat.mod_lt _ (Nat.two_pow_pos w)
  have hF : F < 2 ^ p := Nat.mod_lt _ (Nat.two_pow_pos p)
  have hspecial : f.maxBits < E * 2 ^ p + F ↔ E = 2 ^ w - 1 := by
    rw [← Nat.succ_le_iff, Nat.succ_eq_add_one, hmax, hinf]
    refine ⟨fun hle => ?_, fun hEq => by rw [hEq]; exact Nat.le_add_right _ _⟩
    by_contra hne
    have hstep : (E + 1) * 2 ^ p ≤ (2 ^ w - 1) * 2 ^ p := Nat.mul_le_mul_right _ (by omega)
    rw [Nat.succ_mul] at hstep
    omega
  rw [decode_eq hw hp, if_congr hspecial rfl rfl]
  refine ite_congr rfl (fun hEq => ?_) fun _ => rfl
  have hzero : E * 2 ^ p + F = f.infBits ↔ F = 0 := by rw [hinf, hEq]; omega
  exact ite_congr (by rw [hI, eq_self_iff_true, true_and]; exact propext hzero) (fun _ => rfl) fun _ => by rw [hS, Bool.true_and]

/-- The class of a float by its fields (R162). -/
theorem classOf_eq (h : FloatType ty w p bias top nan) (x : Nat) :
    let neg := decide (x / 2 ^ (w + p) % 2 = 1)
    let E := x / 2 ^ p % 2 ^ w
    let F := x % 2 ^ p
    classOf (vfmt ty) x = if E = 2 ^ w - 1 then
        (if F = 0 then (if neg then 2 ^ 0 else 2 ^ 7) else if F < 2 ^ (p - 1) then 2 ^ 8 else 2 ^ 9)
      else if E = 0 then (if F = 0 then (if neg then 2 ^ 3 else 2 ^ 4) else if neg then 2 ^ 2 else 2 ^ 5)
      else if neg then 2 ^ 1 else 2 ^ 6 := by
  intro neg E F
  have hF : F < 2 ^ p := Nat.mod_lt _ (Nat.two_pow_pos p)
  have hdec : (vfmt ty).decode x = if E = 2 ^ w - 1 then (if F = 0 then .inf neg else .nan (decide (F < 2 ^ (p - 1))))
      else if E = 0 then .fin neg F (vfmt ty).qmin else .fin neg (2 ^ p + F) ((vfmt ty).qmin + (E - 1 : Nat)) :=
    h.infinityFmt.decode x
  clear_value neg E F
  rw [classOf, hdec, h.infinityFmt.mw]
  by_cases hE : E = 2 ^ w - 1
  · by_cases hF0 : F = 0 <;> simp [hE, hF0]
  · rw [if_neg hE, if_neg hE]
    by_cases hE0 : E = 0
    · simp [hE0, hF]
    · have hpos : 2 ^ p + F ≠ 0 := by have := Nat.two_pow_pos p; omega
      rw [if_neg hE0, if_neg hE0]
      simp only [if_neg hpos, if_neg (Nat.not_lt.mpr (Nat.le_add_right (2 ^ p) F))]

end classes

section conversion

theorem cvtElem_float {ty src : VType} (h : ty.isInt = false) (mode : Mode) (n x : Nat) :
    cvtElem ty src mode n x = (vfmt ty).round mode false n
      (if src.isInt then .fin (decide (elemInt src x < 0)) (elemInt src x).natAbs 0 else (vfmt src).decode x) := by
  rw [cvtElem, h]; rfl

/-- The range and the width of an integer type. -/
structure IntType (ty : VType) (lo hi : Int) (w : Nat) : Prop where
  least : vmin ty = lo
  greatest : vmax ty = hi
  width : vw ty = w
  isInt : ty.isInt = true
  le : lo ≤ hi

theorem intType {ty : VType} {lo hi : Int} {w : Nat} (h : (ty, lo, hi, w) ∈ [(VType.i32, -2 ^ 31, (2 ^ 31 - 1 : Int), 32),
    (.n32, 0, 2 ^ 32 - 1, 32), (.i16x2, -2 ^ 15, 2 ^ 15 - 1, 16), (.i8x4, -128, 127, 8)]) : IntType ty lo hi w := by
  simp only [List.mem_cons, Prod.mk.injEq, List.not_mem_nil, or_false] at h
  rcases h with ⟨rfl, rfl, rfl, rfl⟩ | ⟨rfl, rfl, rfl, rfl⟩ | ⟨rfl, rfl, rfl, rfl⟩ | ⟨rfl, rfl, rfl, rfl⟩ <;>
    exact ⟨by decide, by decide, rfl, rfl, by decide⟩

theorem clampTy_eq {ty : VType} {lo hi : Int} {w : Nat} (h : IntType ty lo hi w) (v : Int) :
    clampTy ty v = max lo (min hi v) := by
  have hle := h.le
  rw [clampTy, h.least, h.greatest]; omega

end conversion

section blocks

theorem mxDecode_of_ne {f : Fmt} {x sc : Nat} (h : sc ≠ 255) :
    mxDecode f x sc = (f.decode x).over (127 - sc) := by
  rw [mxDecode, if_neg h]
  cases f.decode x with
  | nan s => rfl
  | inf s => rfl
  | fin s m e => simp only [FVal.over, sub_sub_eq_add_sub]

theorem over_is {v : FVal} (hn : v.isNan = false) (hi : v.isInf = false) (s : Int) :
    (v.over s).Is v.isNeg (v.mag * 2 ^ (-s)) := by
  cases v with
  | nan t => simp [FVal.isNan] at hn
  | inf t => simp [FVal.isInf] at hi
  | fin t m e =>
    refine ⟨⟨rfl, rfl⟩, rfl, ?_⟩
    rw [FVal.over, FVal.mag, FVal.mag, sub_eq_add_neg, zpow_add₀ two_ne_zero, mul_assoc]

end blocks

section obligation

/-- An element of a DX block is its mantissa under the exponent that its bit selects (R95). -/
theorem dxDecode_is {w m : Nat} {k : Int} (h : (w, m, k) ∈ [(8, 64, 132), (4, 4, 128)]) {x lo hi : Nat} (hlo : lo ≠ 255)
    (hhi : hi ≠ 255) : (dxDecode w x lo hi).Is (decide (x / m % 2 = 1))
      ((x % m : Nat) * 2 ^ (((if x / (2 * m) % 2 = 0 then lo else hi : Nat) : Int) - k)) := by
  have hne : ¬ (lo = 255 ∨ hi = 255) := by omega
  simp only [List.mem_cons, Prod.mk.injEq, List.not_mem_nil, or_false] at h
  rcases h with ⟨rfl, rfl, rfl⟩ | ⟨rfl, rfl, rfl⟩ <;> rw [dxDecode, if_neg hne] <;> refine ⟨⟨rfl, rfl⟩, rfl, ?_⟩ <;>
    simp [FVal.mag]

theorem dxDecode_nan {w x lo hi : Nat} (h : lo = 255 ∨ hi = 255) : dxDecode w x lo hi = .nan false := if_pos h

/-- Settles O21: each function of an element through what its bits decode to. -/
theorem elementFunctions : Obligations.ElementFunctions := by
  refine ⟨fun x => ⟨fun hx => ⟨elemInt_eq_toInt (by decide) rfl (by decide) hx, elemInt_n32 x⟩,
      elemInt_eq_toInt (by decide) rfl (by decide), elemInt_eq_toInt (by decide) rfl (by decide)⟩, intBits_eq,
    fun ty lo hi w h => ?_, fun ty w p bias top nan h => ?_, fun f _ x sc => ?_, fun w m k x lo hi h => ?_⟩
  · have hty := intType h
    have hint := hty.isInt
    refine ⟨hty.least, hty.greatest, hty.width, hint, fun x y => if_pos hint, fun src mode n x hsrc => ?_,
      fun src mode n x hsrc => ?_⟩
    · rw [cvtElem, if_pos hint, if_pos hsrc, clampTy_eq hty, hty.width]
    · rw [cvtElem, if_pos hint, hsrc, hty.least, hty.greatest, hty.width]
      rfl
  · have hf := h.fmt
    have hint : ty.isInt = false := h.float
    have hsign (neg : Bool) := signBit_eq hf.ew hf.mw neg
    refine ⟨hint, h.width.symm, fun src mode n x hsrc => ?_, fun src mode n x hsrc => ?_, fun x y => ⟨fun hn => ?_, fun hx hy => ?_⟩,
      fun flip x => ⟨fun hn => ?_, fun hn => ?_⟩, classOf_eq h⟩
    · rw [cvtElem_float hint, hsrc]; rfl
    · rw [cvtElem_float hint, if_pos hsrc]
    · rw [← hf.nanBits]
      exact ⟨minMaxF_nan hn false, minMaxF_nan hn true, cmpElem_nan hint hn⟩
    · obtain ⟨hlt, heq⟩ := cmpF_iff hx hy
      refine ⟨minMaxF_below hx hy, minMaxF_not_below hx hy, ?_⟩
      rw [cmpElem_number hint hx hy]
      exact ⟨rfl, rfl, decide_eq_true_iff.trans hlt, decide_eq_true_iff.trans heq⟩
    · rw [← hf.nanBits]; exact signOp_nan hn flip
    · have := signOp_number hn flip
      rwa [hsign, hf.ew, hf.mw] at this
  · refine ⟨fun h => ?_, fun h hn => ?_, fun neg h hi => ?_, fun h hn hi => ?_⟩
    · rw [h]; exact ⟨rfl, rfl⟩
    · obtain ⟨s, hs⟩ := (isNan_iff _).mp hn
      rw [mxDecode_of_ne h, hs]; rfl
    · rw [mxDecode_of_ne h, hi]; rfl
    · rw [mxDecode_of_ne h, ← neg_sub (127 : Int)]
      exact over_is hn hi _
  · exact ⟨fun hn => by rw [dxDecode_nan hn]; exact ⟨rfl, rfl⟩, dxDecode_is h⟩

end obligation

end Sys2Proof.Machine
end

