-- ==== Sys2Proof/Proofs/Reductions.lean ====
section
/-! PROOF. The values of VRED and VSCAN: the tree of float additions and its draws, the folds of the other reductions, and the
chain of a scan (R97, R98, R105, R106, R169). -/

namespace Sys2Proof.Machine

section roundTrip

variable {f : Fmt} {mode : Mode} {n : Nat}

theorem pick_natCast (mode : Mode) (neg : Bool) (n m : Nat) : pick mode neg n (m : ℚ) = m := by
  have h := picks_pick (mode := mode) (neg := neg) (n := n) (r := (m : ℚ)) (by positivity)
  rw [Rat.cast_natCast] at h
  exact h.unique (picks_natCast m)

/-- A magnitude in the unit of its place keeps its bits. -/
theorem roundMag_held {m : Nat} {e : Int} (hm : m ≠ 0) (hq : max ((m.log2 : Int) + e - f.mw) f.qmin = e)
    (hmax : (e - f.qmin).toNat * 2 ^ f.mw + m ≤ f.maxBits) (sat neg : Bool) :
    f.roundMag mode sat n neg m e false = (f.signBit neg + ((e - f.qmin).toNat * 2 ^ f.mw + m), Flags.none) := by
  have hone : (m : ℚ) * 2 ^ e / 2 ^ e = m := mul_div_cancel_right₀ _ (by positivity)
  rw [roundMag_exact hm, log_mag hm, hq, hone, pick_natCast, if_neg (not_lt.mpr hmax)]
  simp [Flags.none]

theorem roundMag_subnormal {F : Nat} (hF : F < 2 ^ f.mw) (hmax : F ≤ f.maxBits) (sat neg : Bool) :
    f.roundMag mode sat n neg F f.qmin false = (f.signBit neg + F, Flags.none) := by
  by_cases hm : F = 0
  · simp [Fmt.roundMag, hm]
  · have hlog : F.log2 < f.mw := (Nat.log2_lt hm).mpr hF
    have h := roundMag_held (mode := mode) (n := n) (f := f) (e := f.qmin) hm (by omega) (by simpa using hmax) sat neg
    simpa using h

theorem roundMag_normal {E F : Nat} (hF : F < 2 ^ f.mw) (hE : E ≠ 0) (hmax : E * 2 ^ f.mw + F ≤ f.maxBits) (sat neg : Bool) :
    f.roundMag mode sat n neg (2 ^ f.mw + F) (f.qmin + (E - 1 : Nat)) false = (f.signBit neg + (E * 2 ^ f.mw + F), Flags.none) := by
  have hm : 2 ^ f.mw + F ≠ 0 := by have := Nat.two_pow_pos f.mw; omega
  have hlog : (2 ^ f.mw + F).log2 = f.mw := (Nat.log2_eq_iff hm).mpr ⟨Nat.le_add_right _ _, by rw [Nat.pow_succ]; omega⟩
  have hbits : (f.qmin + ((E - 1 : Nat) : Int) - f.qmin).toNat * 2 ^ f.mw + (2 ^ f.mw + F) = E * 2 ^ f.mw + F := by
    rw [add_sub_cancel_left, Int.toNat_natCast, ← Nat.add_assoc, ← Nat.succ_mul, Nat.succ_eq_add_one,
      Nat.sub_add_cancel (Nat.one_le_iff_ne_zero.mpr hE)]
  rw [roundMag_held hm (by rw [hlog]; omega) (by rw [hbits]; exact hmax), hbits]

/-- A format with infinities and NaNs whose canonical NaN is a NaN. -/
structure WideFmt (f : Fmt) : Prop where
  infBits : f.infBits = f.maxBits + 1
  hasInf : f.hasInf = true
  hasNan : f.hasNan = true
  fits : f.infBits < 2 ^ (f.ew + f.mw)
  nan : ∃ s, f.decode f.nanBits = .nan s

theorem decode_signBit_mag {mag : Nat} (h : mag < 2 ^ (f.ew + f.mw)) (neg : Bool) :
    let E := mag / 2 ^ f.mw
    let F := mag % 2 ^ f.mw
    f.decode (f.signBit neg + mag) = if f.maxBits < mag then
        (if f.hasInf = true ∧ mag = f.infBits then .inf neg else .nan (f.hasSig && decide (F < 2 ^ (f.mw - 1))))
      else if E = 0 then .fin neg F f.qmin else .fin neg (2 ^ f.mw + F) (f.qmin + (E - 1 : Nat)) := by
  intro E F
  have hsign : f.signBit neg = (if neg then 1 else 0) * 2 ^ (f.ew + f.mw) := by cases neg <;> simp [Fmt.signBit]
  have hmod : (f.signBit neg + mag) % 2 ^ (f.ew + f.mw) = mag := by
    rw [hsign, Nat.add_comm, Nat.add_mul_mod_self_right, Nat.mod_eq_of_lt h]
  have hdiv : decide ((f.signBit neg + mag) / 2 ^ (f.ew + f.mw) % 2 = 1) = neg := by
    rw [hsign, Nat.add_comm, Nat.add_mul_div_right _ _ (Nat.two_pow_pos _), Nat.div_eq_of_lt h]
    cases neg <;> rfl
  have hF : (f.signBit neg + mag) % 2 ^ f.mw = F := by
    rw [← Nat.mod_mod_of_dvd _ (pow_dvd_pow 2 (Nat.le_add_left f.mw f.ew)), hmod]
  simp only [Fmt.decode, hmod, hdiv, hF]
  rfl

/-- The bits of any rounding are the canonical NaN's, or those of a sign and a magnitude up to infinity (R98). -/
theorem round_bits (hf : WideFmt f) (sat : Bool) (x : FVal) :
    (f.round mode sat n x).1 = f.nanBits ∨ ∃ neg mag, mag ≤ f.infBits ∧ (f.round mode sat n x).1 = f.signBit neg + mag := by
  have hle : f.maxBits ≤ f.infBits := by rw [hf.infBits]; exact Nat.le_succ _
  cases x with
  | nan s => exact .inl rfl
  | inf neg =>
    refine .inr ⟨neg, _, ?_, rfl⟩
    split
    · exact hle
    · exact le_rfl
  | fin neg m e =>
    refine .inr ⟨neg, ?_⟩
    by_cases hm : m = 0
    · exact ⟨0, Nat.zero_le _, by simp [Fmt.round, Fmt.roundMag, hm]⟩
    · rw [Fmt.round, roundMag_exact hm]
      split
      · refine ⟨_, ?_, rfl⟩
        split
        · exact hle
        · exact le_rfl
      · exact ⟨_, (not_lt.mp ‹_›).trans hle, rfl⟩

/-- Bits that a rounding gave are kept by reading and rounding them again. -/
theorem round_decode_round (hf : WideFmt f) (sat : Bool) (x : FVal) (mode' : Mode) (n' : Nat) :
    let b := (f.round mode sat n x).1
    (f.round mode' false n' (f.decode b)).1 = b := by
  intro b
  rcases round_bits (mode := mode) (n := n) hf sat x with h | ⟨neg, mag, hmag, h⟩ <;> rw [show b = _ from h]
  · obtain ⟨s, hs⟩ := hf.nan
    rw [hs]; rfl
  · rw [decode_signBit_mag (hmag.trans_lt hf.fits)]
    by_cases hgt : f.maxBits < mag
    · have heq : mag = f.infBits := le_antisymm hmag (by rw [hf.infBits]; exact hgt)
      rw [if_pos hgt, if_pos ⟨hf.hasInf, heq⟩, heq]
      simp [Fmt.round, hf.hasNan]
    · have hF : mag % 2 ^ f.mw < 2 ^ f.mw := Nat.mod_lt _ (Nat.two_pow_pos _)
      have hsplit : mag / 2 ^ f.mw * 2 ^ f.mw + mag % 2 ^ f.mw = mag := Nat.div_add_mod' _ _
      rw [if_neg hgt]
      by_cases hE : mag / 2 ^ f.mw = 0
      · rw [hE, Nat.zero_mul, Nat.zero_add] at hsplit
        rw [if_pos hE, Fmt.round, roundMag_subnormal hF (by rw [hsplit]; exact not_lt.mp hgt), hsplit]
      · rw [if_neg hE, Fmt.round, roundMag_normal hF hE (by rw [hsplit]; exact not_lt.mp hgt), hsplit]

theorem wideFmt32 : WideFmt fmt32 := ⟨rfl, rfl, rfl, by decide, _, rfl⟩

theorem wideFmt64 : WideFmt fmt64 := ⟨rfl, rfl, rfl, by decide, _, rfl⟩

end roundTrip

theorem flags_all_append (l l' : List Flags) : Flags.all (l ++ l') = (Flags.all l).or (Flags.all l') := by
  rw [Flags.all, List.foldl_append, flags_foldl_or]
  rfl

section draws

variable {mode : Mode}

/-- The draws that go on after some. -/
theorem drawn_seedAfter (mode : Mode) (seed : BitVec 32) (a j : Nat) :
    drawn mode (seedAfter seed (if mode = .sr then a else 0)) j = drawn mode seed (a + j) := by
  by_cases h : mode = .sr
  · simp only [drawn, if_pos h, seedAfter_add, Nat.add_assoc]
  · simp only [drawn, if_neg h, seedAfter]

theorem seedAfter_seedAfter (mode : Mode) (seed : BitVec 32) (a b : Nat) :
    seedAfter (seedAfter seed (if mode = .sr then a else 0)) (if mode = .sr then b else 0)
      = seedAfter seed (if mode = .sr then a + b else 0) := by
  by_cases h : mode = .sr
  · simp only [if_pos h, seedAfter_add]
  · simp only [if_neg h, seedAfter]

theorem step_eq_seedAfter (mode : Mode) (seed : BitVec 32) :
    (if mode = .sr then seedStep seed else seed) = seedAfter seed (if mode = .sr then 1 else 0) := by
  by_cases h : mode = .sr <;> simp [h, seedAfter]

end draws

section tree

variable {f : Fmt} {mode : Mode}

/-- One level of the tree: its sums, its flags and its draws. -/
theorem treeLevel_eq (k : Nat) : ∀ (g : Nat → FVal) (seed : BitVec 32),
    let add (j : Nat) := redAdd f mode (drawn mode seed j) (g (2 * j)) (g (2 * j + 1))
    treeLevel f mode ((List.range (2 * k)).map g) seed = ((List.range k).map (fun j => f.decode (add j).1),
      Flags.all ((List.range k).map fun j => (add j).2), seedAfter seed (if mode = .sr then k else 0)) := by
  induction k with
  | zero =>
    intro g seed add
    rw [ite_self]
    rfl
  | succ k ih =>
    intro g seed add
    have hlist : (List.range (2 * (k + 1))).map g = g 0 :: g 1 :: (List.range (2 * k)).map fun j => g (j + 2) := by
      rw [Nat.mul_succ, List.range_succ_eq_map, List.range_succ_eq_map]
      simp [Function.comp_def]
    have hdraw (j : Nat) : drawn mode (seedAfter seed (if mode = .sr then 1 else 0)) j = drawn mode seed (j + 1) := by
      rw [drawn_seedAfter, Nat.add_comm]
    have hfirst : (seedAfter seed (if mode = .sr then 1 else 0) >>> 16).toNat = drawn mode seed 0 := rfl
    rw [hlist, treeLevel, step_eq_seedAfter]
    simp only [ih, hdraw, hfirst, seedAfter_seedAfter]
    rw [List.range_succ_eq_map, List.map_cons, List.map_cons, flags_all_cons, Nat.add_comm 1 k]
    simp only [List.map_map]
    rfl

/-- The value of node j of level l of the tree over 2^levels leaves (R105): a sum of two nodes of the level before it. -/
def treeNode (f : Fmt) (mode : Mode) (seed : BitVec 32) (levels : Nat) (leaf : Nat → FVal) : Nat → Nat → FVal
  | 0, j => leaf j
  | l + 1, j => f.decode (redAdd f mode (drawn mode seed (2 ^ levels - 2 ^ (levels - l) + j))
      (treeNode f mode seed levels leaf l (2 * j)) (treeNode f mode seed levels leaf l (2 * j + 1))).1

/-- The sum that makes node j of level l + 1. -/
def treeAdd (f : Fmt) (mode : Mode) (seed : BitVec 32) (levels : Nat) (leaf : Nat → FVal) (l j : Nat) : Nat × Flags :=
  redAdd f mode (drawn mode seed (2 ^ levels - 2 ^ (levels - l) + j))
    (treeNode f mode seed levels leaf l (2 * j)) (treeNode f mode seed levels leaf l (2 * j + 1))

/-- The tree from level l up: its root, the flags of its nodes level by level, and a draw for each of them. -/
theorem treeSum_eq (seed : BitVec 32) (levels : Nat) (leaf : Nat → FVal) (n : Nat) : ∀ l, l + n = levels →
    treeSum f mode n ((List.range (2 ^ n)).map (treeNode f mode seed levels leaf l))
        (seedAfter seed (if mode = .sr then 2 ^ levels - 2 ^ n else 0))
      = ([treeNode f mode seed levels leaf levels 0],
        Flags.all ((List.range' l n).flatMap fun l =>
          (List.range (2 ^ (levels - l - 1))).map fun j => (treeAdd f mode seed levels leaf l j).2),
        seedAfter seed (if mode = .sr then 2 ^ levels - 1 else 0)) := by
  induction n with
  | zero =>
    rintro l rfl
    rfl
  | succ n ih =>
    intro l hl
    have hn : levels - l = n + 1 := by omega
    have hpow : 2 ^ levels - 2 ^ (n + 1) + 2 ^ n = 2 ^ levels - 2 ^ n := by
      have : 2 ^ (n + 1) ≤ 2 ^ levels := Nat.pow_le_pow_right two_pos (by omega)
      rw [Nat.pow_succ] at this ⊢
      omega
    have hadd (j : Nat) : redAdd f mode (drawn mode (seedAfter seed (if mode = .sr then 2 ^ levels - 2 ^ (n + 1) else 0)) j)
        (treeNode f mode seed levels leaf l (2 * j)) (treeNode f mode seed levels leaf l (2 * j + 1))
        = treeAdd f mode seed levels leaf l j := by
      rw [drawn_seedAfter, treeAdd, hn]
    have hnode (j : Nat) : f.decode (treeAdd f mode seed levels leaf l j).1 = treeNode f mode seed levels leaf (l + 1) j := rfl
    rw [treeSum, Nat.pow_succ', treeLevel_eq]
    simp only [← Nat.pow_succ', hadd, hnode, seedAfter_seedAfter, hpow]
    rw [ih (l + 1) (by omega), List.range'_succ, List.flatMap_cons, flags_all_append, hn, Nat.add_sub_cancel]

end tree

end Sys2Proof.Machine
end

