-- ==== Sys2Proof/Proofs/ReductionsAndScans.lean ====
section
/-! PROOF. VRED's folds and VSCAN's chain (R105, R106, R169). -/

namespace Sys2Proof.Machine

section reductions

variable {ty : VType} {mode : Mode} {act : Nat → Bool} {v : VWord} {seed : BitVec 32}

theorem redValue_add {levels : Nat} {f : Fmt} (hint : ty.isInt = false) (hcount : ty.count = 2 ^ (levels + 1)) (hfmt : redFmt ty = f)
    (hf : WideFmt f) :
    let leaf (j : Nat) : FVal := if act j then (vfmt ty).decode (elemAt (vw ty) v j) else .fin true 0 0
    redValue ty .add mode act v seed = ((treeAdd f mode seed (levels + 1) leaf levels 0).1,
      Flags.all ((List.range (levels + 1)).flatMap fun l => (List.range (2 ^ (levels + 1 - l - 1))).map fun j =>
        (treeAdd f mode seed (levels + 1) leaf l j).2),
      seedAfter seed (if mode = .sr then 2 ^ (levels + 1) - 1 else 0)) := by
  intro leaf
  have hsum := treeSum_eq (f := f) (mode := mode) seed (levels + 1) leaf (levels + 1) 0 (Nat.zero_add _)
  have hleaf : treeNode f mode seed (levels + 1) leaf 0 = leaf := rfl
  rw [Nat.sub_self, ite_self, hleaf, seedAfter] at hsum
  have hroot : (f.round .rne false 0 (treeNode f mode seed (levels + 1) leaf (levels + 1) 0)).1
      = (treeAdd f mode seed (levels + 1) leaf levels 0).1 := round_decode_round hf false _ .rne 0
  simp only [redValue, hint, hcount, Nat.log2_two_pow, hfmt, Bool.not_false, Bool.true_and, beq_self_eq_true, if_true]
  rw [hsum]
  simp only [List.headD_cons, hroot, List.range_eq_range']

/-- VRED by a fold over the active elements: every reduction but the sum of floats. -/
theorem redValue_fold (op : RedOp) (h : (!ty.isInt && op == .add) = false) :
    redValue ty op mode act v seed =
      let r := ((List.range ty.count).filter act).foldl (fun (q : Nat × Flags) i =>
        let m := redComb ty op q.1 (redBits ty (elemAt (vw ty) v i))
        (m.1, q.2.or m.2)) (redIdent ty op, Flags.none)
      (r.1, r.2, seed) := by
  rw [redValue, h]
  rfl

/-- The signed and the unsigned reading of a word differ by a multiple of 2^w. -/
theorem elemInt_emod (ty : VType) (x : Nat) : elemInt ty x % 2 ^ vw ty = (x : Int) % 2 ^ vw ty := by
  rw [elemInt]
  split
  · exact Int.sub_emod_right _ _
  · rfl

theorem intBits_elemInt_add (ty : VType) (s x : Int) :
    intBits (vw ty) (elemInt ty (intBits (vw ty) s) + x) = intBits (vw ty) (s + x) := by
  refine congrArg Int.toNat ?_
  rw [← Int.emod_add_emod, elemInt_emod, intBits_eq, Int.emod_emod_of_dvd _ dvd_rfl, Int.emod_add_emod]

theorem redBits_int (hint : ty.isInt = true) (x : Nat) : redBits ty x = x := by
  rw [redBits, if_neg]
  rintro (rfl | rfl) <;> simp [VType.isInt] at hint

/-- The sum of integers wraps (R105). -/
theorem redValue_addInt (hint : ty.isInt = true) :
    redValue ty .add mode act v seed
      = (intBits (vw ty) (((List.range ty.count).filter act).map fun i => elemInt ty (elemAt (vw ty) v i)).sum, Flags.none, seed) := by
  have hfold : ∀ (on : List Nat) (s : Int), on.foldl (fun (q : Nat × Flags) i =>
        let m := redComb ty .add q.1 (redBits ty (elemAt (vw ty) v i))
        (m.1, q.2.or m.2)) (intBits (vw ty) s, Flags.none)
      = (intBits (vw ty) (s + (on.map fun i => elemInt ty (elemAt (vw ty) v i)).sum), Flags.none) := by
    intro on
    induction on with
    | nil => intro s; simp
    | cons i on ih =>
      intro s
      rw [List.foldl_cons, List.map_cons, List.sum_cons, ← add_assoc, ← ih]
      simp only [redComb, hint, if_true, redBits_int hint, intBits_elemInt_add, flags_or_none]
  have hident : redIdent ty .add = intBits (vw ty) 0 := by simp [redIdent, hint, intBits]
  rw [redValue_fold _ (by simp [hint]), hident, hfold, zero_add]

/-- The rank of an element under min or max: the least is the result. -/
def redRank (ty : VType) (op : RedOp) (x : Nat) : Int := if op = .max then -elemInt ty x else elemInt ty x

/-- The one of two elements whose rank comes first. -/
def redPick (ty : VType) (op : RedOp) (x y : Nat) : Nat := if redRank ty op y < redRank ty op x then y else x

theorem redComb_minMax (hint : ty.isInt = true) {op : RedOp} (hop : op ∈ [RedOp.min, .max]) (x y : Nat) :
    redComb ty op x y = (redPick ty op x y, Flags.none) := by
  simp only [List.mem_cons, List.not_mem_nil, or_false] at hop
  rcases hop with rfl | rfl <;> simp [redComb, hint, redPick, redRank]

theorem elemInt_range (hint : ty.isInt = true) {x : Nat} (hx : x < 2 ^ vw ty) :
    vmin ty ≤ elemInt ty x ∧ elemInt ty x ≤ vmax ty := by
  by_cases hty : ty = .n32
  · subst hty
    have hx : x < 2 ^ 32 := hx
    rw [elemInt_n32]
    simp only [vmin, vmax, if_true]
    omega
  · have hpos : 0 < vw ty := by cases ty <;> decide
    have hpow : 2 ^ vw ty = 2 * 2 ^ (vw ty - 1) := by rw [← Nat.pow_succ', Nat.succ_eq_add_one, Nat.sub_add_cancel hpos]
    rw [elemInt, vmin, vmax, if_neg hty, if_neg hty]
    by_cases h : 2 ^ (vw ty - 1) ≤ x
    · rw [if_pos ⟨hty, h⟩]
      have hcast : (2 : Int) ^ vw ty = 2 * 2 ^ (vw ty - 1) := by exact_mod_cast hpow
      have hle : (2 : Int) ^ (vw ty - 1) ≤ x := by exact_mod_cast h
      have hlt : (x : Int) < 2 ^ vw ty := by exact_mod_cast hx
      omega
    · rw [if_neg fun hc => h hc.2]
      have hlt : (x : Int) < 2 ^ (vw ty - 1) := by exact_mod_cast not_le.mp h
      omega

theorem redRank_eq_iff {op : RedOp} (x y : Nat) : redRank ty op x = redRank ty op y ↔ elemInt ty x = elemInt ty y := by
  unfold redRank
  split <;> omega

theorem redRank_le_iff {op : RedOp} (hop : op ∈ [RedOp.min, .max]) (x y : Nat) :
    redRank ty op x ≤ redRank ty op y ↔ if op = .min then elemInt ty x ≤ elemInt ty y else elemInt ty y ≤ elemInt ty x := by
  simp only [List.mem_cons, List.not_mem_nil, or_false] at hop
  rcases hop with rfl | rfl <;> simp [redRank]

/-- The identity of min and of max is an element whose rank is the last (R169). -/
theorem redIdent_last (hint : ty.isInt = true) {op : RedOp} (hop : op ∈ [RedOp.min, .max]) : redIdent ty op < 2 ^ vw ty
    ∧ elemInt ty (redIdent ty op) = (if op = .min then vmax ty else vmin ty)
    ∧ ∀ x < 2 ^ vw ty, redRank ty op x ≤ redRank ty op (redIdent ty op) := by
  have hident : redIdent ty op < 2 ^ vw ty ∧ elemInt ty (redIdent ty op) = if op = .min then vmax ty else vmin ty := by
    simp only [List.mem_cons, List.not_mem_nil, or_false] at hop
    cases ty <;> simp [VType.isInt] at hint <;> rcases hop with rfl | rfl <;> decide
  refine ⟨hident.1, hident.2, fun x hx => ?_⟩
  obtain ⟨hmin, hmax⟩ := elemInt_range hint hx
  rw [redRank_le_iff hop, hident.2]
  split <;> assumption

/-- The fold of min or max: the start or an element, and of the least rank. -/
theorem fold_redPick (ty : VType) (op : RedOp) (x : Nat → Nat) (on : List Nat) : ∀ start : Nat,
    let r := on.foldl (fun q i => redPick ty op q (x i)) start
    (r = start ∨ ∃ i ∈ on, r = x i) ∧ redRank ty op r ≤ redRank ty op start ∧ ∀ i ∈ on, redRank ty op r ≤ redRank ty op (x i) := by
  induction on with
  | nil => intro start; simp
  | cons i on ih =>
    intro start
    obtain ⟨hmem, hstart, hon⟩ := ih (redPick ty op start (x i))
    rw [List.foldl_cons]
    generalize on.foldl (fun q i => redPick ty op q (x i)) _ = r at hmem hstart hon ⊢
    by_cases h : redRank ty op (x i) < redRank ty op start
    · rw [redPick, if_pos h] at hmem hstart
      refine ⟨.inr ?_, hstart.trans h.le, List.forall_mem_cons.mpr ⟨hstart, hon⟩⟩
      rcases hmem with rfl | ⟨j, hj, rfl⟩
      · exact ⟨i, List.mem_cons_self, rfl⟩
      · exact ⟨j, List.mem_cons_of_mem _ hj, rfl⟩
    · rw [redPick, if_neg h] at hmem hstart
      exact ⟨hmem.imp_right fun ⟨j, hj, hr⟩ => ⟨j, List.mem_cons_of_mem _ hj, hr⟩, hstart,
        List.forall_mem_cons.mpr ⟨hstart.trans (not_lt.mp h), hon⟩⟩

theorem redValue_minMax (hint : ty.isInt = true) {op : RedOp} (hop : op ∈ [RedOp.min, .max]) :
    redValue ty op mode act v seed = (((List.range ty.count).filter act).foldl
      (fun q i => redPick ty op q (elemAt (vw ty) v i)) (redIdent ty op), Flags.none, seed) := by
  have hfold : ∀ (on : List Nat) (start : Nat), on.foldl (fun (q : Nat × Flags) i =>
        let m := redComb ty op q.1 (redBits ty (elemAt (vw ty) v i))
        (m.1, q.2.or m.2)) (start, Flags.none)
      = (on.foldl (fun q i => redPick ty op q (elemAt (vw ty) v i)) start, Flags.none) := by
    intro on
    induction on with
    | nil => intro start; rfl
    | cons i on ih =>
      intro start
      rw [List.foldl_cons, List.foldl_cons, ← ih]
      simp only [redComb_minMax hint hop, redBits_int hint, flags_or_none]
  rw [redValue_fold _ (by simp [hint]), hfold]

/-- The least or the greatest of the active integers (R105, R169). -/
theorem redValue_least (hint : ty.isInt = true) {op : RedOp} (hop : op ∈ [RedOp.min, .max]) :
    let x (i : Nat) : Int := elemInt ty (elemAt (vw ty) v i)
    let on := (List.range ty.count).filter act
    ∃ r < 2 ^ vw ty, redValue ty op mode act v seed = (r, Flags.none, seed)
      ∧ (on = [] → elemInt ty r = if op = .min then vmax ty else vmin ty)
      ∧ (on ≠ [] → (∃ i ∈ on, elemInt ty r = x i)
        ∧ ∀ i ∈ on, if op = .min then elemInt ty r ≤ x i else x i ≤ elemInt ty r) := by
  intro x on
  obtain ⟨hlt, hident, hlast⟩ := redIdent_last hint hop
  have hvalue : redValue ty op mode act v seed = _ := redValue_minMax hint hop
  obtain ⟨hmem, -, hon⟩ := fold_redPick ty op (elemAt (vw ty) v) on (redIdent ty op)
  generalize on.foldl (fun q i => redPick ty op q (elemAt (vw ty) v i)) (redIdent ty op) = r at hmem hon hvalue
  refine ⟨r, ?_, hvalue, ?_, fun hne => ⟨?_, ?_⟩⟩
  · rcases hmem with rfl | ⟨i, -, rfl⟩
    · exact hlt
    · exact elemAt_lt ..
  · intro hnil
    rw [hnil] at hmem
    simp only [List.not_mem_nil, false_and, exists_false, or_false] at hmem
    rw [hmem, hident]
  · rcases hmem with rfl | ⟨i, hi, rfl⟩
    · obtain ⟨i, hi⟩ := List.exists_mem_of_ne_nil on hne
      exact ⟨i, hi, (redRank_eq_iff _ _).mp (le_antisymm (hon i hi) (hlast _ (elemAt_lt ..)))⟩
    · exact ⟨i, hi, rfl⟩
  · exact fun i hi => (redRank_le_iff hop _ _).mp (hon i hi)

end reductions

section scan

variable {ty : VType} {op : RedOp} {mode : Mode} {act : Nat → Bool} {v : VWord} {seed : BitVec 32}

/-- An accumulator and an element combined, with the number drawn (R106). -/
def scanBoth (ty : VType) (op : RedOp) (mode : Mode) (n acc x : Nat) : Nat × Flags :=
  if !ty.isInt && op == .add then redAdd (redFmt ty) mode n ((redFmt ty).decode acc) ((redFmt ty).decode x) else redComb ty op acc x

/-- The accumulator past an inactive element (R106). -/
def scanIdle (ty : VType) (op : RedOp) (mode : Mode) (acc : Nat) : Nat :=
  if !ty.isInt && op == .add then (redAdd (redFmt ty) mode 0 ((redFmt ty).decode acc) (.fin true 0 0)).1 else acc

/-- The accumulator before element i. -/
def scanAcc (ty : VType) (op : RedOp) (mode : Mode) (act : Nat → Bool) (v : VWord) (seed : BitVec 32) : Nat → Nat
  | 0 => redIdent ty op
  | i + 1 =>
    let acc := scanAcc ty op mode act v seed i
    if act i then (scanBoth ty op mode (drawn mode seed ((List.range i).countP act)) acc (elemAt (vw ty) v i)).1
    else scanIdle ty op mode acc

/-- SEED before element i. -/
def scanSeed (ty : VType) (mode : Mode) (act : Nat → Bool) (seed : BitVec 32) (i : Nat) : BitVec 32 :=
  seedAfter seed (if mode = .sr ∧ (!ty.isInt) = true then (List.range i).countP act else 0)

theorem scanSeed_zero : scanSeed ty mode act seed 0 = seed := by
  rw [scanSeed, List.range_zero, List.countP_nil, ite_self, seedAfter]

theorem scanSeed_succ (i : Nat) : scanSeed ty mode act seed (i + 1)
    = if act i = true ∧ (!ty.isInt && mode == .sr) = true then seedStep (scanSeed ty mode act seed i)
      else scanSeed ty mode act seed i := by
  simp only [scanSeed, List.range_succ, List.countP_append, List.countP_singleton]
  cases act i <;> cases ty.isInt <;> by_cases h : mode = .sr <;> simp [h, seedAfter]

theorem scanSeed_drawn (hint : ty.isInt = false) {i : Nat} (hact : act i = true) :
    (scanSeed ty mode act seed (i + 1) >>> 16).toNat = drawn mode seed ((List.range i).countP act) := by
  simp only [scanSeed, hint, List.range_succ, List.countP_append, List.countP_singleton, hact, if_true, drawn, Bool.not_false, and_true]

/-- One active element of the chain. -/
theorem scanFrom_active {n i : Nat} (hact : act i = true) (acc : Nat) :
    let both := scanBoth ty op mode (drawn mode seed ((List.range i).countP act)) acc (elemAt (vw ty) v i)
    let rest := scanFrom ty op mode act v n (i + 1) both.1 (scanSeed ty mode act seed (i + 1))
    scanFrom ty op mode act v (n + 1) i acc (scanSeed ty mode act seed i)
      = (both.1 % 2 ^ vw ty + 2 ^ vw ty * rest.1, both.2.or rest.2.1, rest.2.2) := by
  intro both rest
  have hseed : (if (!ty.isInt && mode == .sr) = true then seedStep (scanSeed ty mode act seed i) else scanSeed ty mode act seed i)
      = scanSeed ty mode act seed (i + 1) := by rw [scanSeed_succ, hact]; simp
  have hboth : (if (!ty.isInt && op == .add) = true then
        redAdd (redFmt ty) mode (scanSeed ty mode act seed (i + 1) >>> 16).toNat ((redFmt ty).decode acc)
          ((redFmt ty).decode (elemAt (vw ty) v i))
      else redComb ty op acc (elemAt (vw ty) v i)) = both := by
    cases hint : ty.isInt with
    | true => simp [both, scanBoth, hint]
    | false => rw [scanSeed_drawn hint hact]; simp [both, scanBoth, hint]
  rw [scanFrom, if_pos hact]
  simp only [hseed, hboth]
  rfl

/-- One inactive element of the chain. -/
theorem scanFrom_inactive {n i : Nat} (hact : act i = false) (acc : Nat) :
    let rest := scanFrom ty op mode act v n (i + 1) (scanIdle ty op mode acc) (scanSeed ty mode act seed (i + 1))
    scanFrom ty op mode act v (n + 1) i acc (scanSeed ty mode act seed i) = (2 ^ vw ty * rest.1, rest.2.1, rest.2.2) := by
  intro rest
  have hseed : scanSeed ty mode act seed (i + 1) = scanSeed ty mode act seed i := by rw [scanSeed_succ, hact]; simp
  simp only [rest, hseed]
  rw [scanFrom, hact]
  rfl

/-- The first element of a packed word, and the others. -/
theorem packed_zero (w x rest : Nat) : (x % 2 ^ w + 2 ^ w * rest) / 2 ^ (w * 0) % 2 ^ w = x % 2 ^ w := by
  simp [Nat.add_mul_mod_self_left]

theorem packed_succ (w x rest j : Nat) : (x % 2 ^ w + 2 ^ w * rest) / 2 ^ (w * (j + 1)) % 2 ^ w = rest / 2 ^ (w * j) % 2 ^ w := by
  rw [Nat.mul_succ, Nat.add_comm (w * j) w, pow_add, ← Nat.div_div_eq_div_mul, Nat.add_mul_div_left _ _ (Nat.two_pow_pos w),
    Nat.div_eq_of_lt (Nat.mod_lt _ (Nat.two_pow_pos w)), Nat.zero_add]

/-- The chain from element i: the active elements, the flags and the draws (R106, R169). -/
theorem scanFrom_eq (n : Nat) : ∀ i,
    let acc := scanAcc ty op mode act v seed
    let both (i : Nat) := scanBoth ty op mode (drawn mode seed ((List.range i).countP act)) (acc i) (elemAt (vw ty) v i)
    let r := scanFrom ty op mode act v n i (acc i) (scanSeed ty mode act seed i)
    (∀ j < n, act (i + j) = true → r.1 / 2 ^ (vw ty * j) % 2 ^ vw ty = acc (i + j + 1) % 2 ^ vw ty)
      ∧ r.2.1 = Flags.all (((List.range' i n).filter act).map fun j => (both j).2) ∧ r.2.2 = scanSeed ty mode act seed (i + n) := by
  intro i acc both r
  induction n generalizing i with
  | zero => exact ⟨fun j hj => absurd hj (Nat.not_lt_zero j), rfl, rfl⟩
  | succ n ih =>
    have hindex (j : Nat) : i + (j + 1) = i + 1 + j := by omega
    cases hact : act i with
    | true =>
      have hacc : (both i).1 = acc (i + 1) := by simp only [acc, both, scanAcc, hact, if_true]
      have hr : r = _ := scanFrom_active hact (acc i)
      rw [show scanBoth ty op mode _ _ _ = both i from rfl, hacc] at hr
      obtain ⟨hval, hfl, hseed⟩ := ih (i + 1)
      rw [hr]
      refine ⟨fun j hj hj' => ?_, ?_, ?_⟩
      · cases j with
        | zero => exact packed_zero ..
        | succ j =>
          rw [hindex j] at hj' ⊢
          exact (packed_succ ..).trans (hval j (by omega) hj')
      · rw [List.range'_succ, List.filter_cons_of_pos hact, List.map_cons, flags_all_cons, ← hfl]
      · rw [hindex n, ← hseed]
    | false =>
      have hacc : scanIdle ty op mode (acc i) = acc (i + 1) := by simp only [acc, scanAcc, hact, Bool.false_eq_true, if_false]
      have hr : r = _ := scanFrom_inactive hact (acc i)
      rw [hacc] at hr
      obtain ⟨hval, hfl, hseed⟩ := ih (i + 1)
      rw [hr]
      refine ⟨fun j hj hj' => ?_, ?_, ?_⟩
      · cases j with
        | zero => rw [Nat.add_zero, hact] at hj'; exact absurd hj' Bool.false_ne_true
        | succ j =>
          rw [hindex j] at hj' ⊢
          have h0 := packed_succ (vw ty) 0 (scanFrom ty op mode act v n (i + 1) (acc (i + 1)) (scanSeed ty mode act seed (i + 1))).1 j
          rw [Nat.zero_mod, Nat.zero_add] at h0
          exact h0.trans (hval j (by omega) hj')
      · rw [List.range'_succ, List.filter_cons_of_neg (by simp [hact]), ← hfl]
      · rw [hindex n, ← hseed]

end scan

section obligation

theorem isWide_cases {ty : VType} (h : ty.isWide = true) : ty = .i32 ∨ ty = .n32 ∨ ty = .f32 ∨ ty = .f64 := by
  simpa [VType.isWide, or_assoc] using h

theorem redIdent_eq {ty : VType} (h : ty.isWide = true) (op : RedOp) : redIdent ty op = if (!ty.isInt) = true then
        (match op with | .add => 2 ^ (vw ty - 1) | .min => (vfmt ty).infBits | .max => 2 ^ (vw ty - 1) + (vfmt ty).infBits)
      else match op with | .add => 0 | .min => intBits (vw ty) (vmax ty) | .max => intBits (vw ty) (vmin ty) := by
  rcases isWide_cases h with rfl | rfl | rfl | rfl <;> cases op <;> rfl

theorem scanBoth_eq {ty : VType} {op : RedOp} {mode : Mode} (h : ty.isWide = true) (n acc x : Nat) :
    scanBoth ty op mode n acc x = if (!ty.isInt) = true then
        (match op with
          | .add => (sumF (mode == .rdn) [((vfmt ty).decode acc).res, ((vfmt ty).decode x).res]).round (vfmt ty) mode n
          | .min => minMaxF (vfmt ty) false acc x
          | .max => minMaxF (vfmt ty) true acc x)
      else match op with
        | .add => (intBits (vw ty) (elemInt ty acc + elemInt ty x), Flags.none)
        | .min => (if elemInt ty x < elemInt ty acc then x else acc, Flags.none)
        | .max => (if elemInt ty acc < elemInt ty x then x else acc, Flags.none) := by
  rcases isWide_cases h with rfl | rfl | rfl | rfl <;> cases op <;> rfl

theorem scanIdle_eq {ty : VType} {op : RedOp} {mode : Mode} (h : ty.isWide = true) (acc : Nat) :
    scanIdle ty op mode acc = if (!ty.isInt) = true ∧ op = .add then
        ((sumF (mode == .rdn) [((vfmt ty).decode acc).res, (FVal.fin true 0 0).res]).round (vfmt ty) mode 0).1
      else acc := by
  rcases isWide_cases h with rfl | rfl | rfl | rfl <;> cases op <;> rfl

theorem count_inside {ty : VType} {i : Nat} (hi : i < ty.count) : vw ty * i + vw ty ≤ 1024 := by
  cases ty <;> simp only [VType.count, vw] at hi ⊢ <;> omega

/-- Settles O22: the tree level by level, the other reductions as folds over the active elements, and the chain element by element. -/
theorem reductionsAndScans : Obligations.ReductionsAndScans := by
  refine ⟨fun ty levels f mode act v seed h => ?_, fun ty f inf big mode act v seed h => ?_,
    fun ty mode act v seed hint => ⟨redValue_addInt hint, fun op hop => redValue_least hint hop⟩,
    fun ty op mode act v seed hw => ?_⟩
  · let leaf (j : Nat) : FVal := if act j then (vfmt ty).decode (elemAt (vw ty) v j) else .fin true 0 0
    refine ⟨treeNode f mode seed levels leaf, treeAdd f mode seed levels leaf, fun j _ => rfl, fun l _ j _ => ⟨rfl, rfl⟩, ?_⟩
    simp only [List.mem_cons, Prod.mk.injEq, List.not_mem_nil, or_false] at h
    rcases h with ⟨rfl, rfl, rfl⟩ | ⟨rfl, rfl, rfl⟩ | ⟨rfl, rfl, rfl⟩ | ⟨rfl, rfl, rfl⟩
    · exact redValue_add rfl rfl rfl wideFmt32
    · exact redValue_add rfl rfl rfl wideFmt32
    · exact redValue_add rfl rfl rfl wideFmt32
    · exact redValue_add rfl rfl rfl wideFmt64
  · simp only [List.mem_cons, Prod.mk.injEq, List.not_mem_nil, or_false] at h
    rcases h with ⟨rfl, rfl, rfl⟩ | ⟨rfl, rfl, rfl⟩ | ⟨rfl, rfl, rfl⟩ | ⟨rfl, rfl, rfl⟩ <;> cases big <;>
      exact redValue_fold _ rfl
  · refine ⟨scanAcc ty op mode act v seed, redIdent_eq hw op, fun i _ => ?_, ?_⟩
    · exact ite_congr rfl (fun _ => congrArg Prod.fst (scanBoth_eq hw _ _ _)) fun _ => scanIdle_eq hw _
    · obtain ⟨hval, hfl, hseed⟩ := scanFrom_eq (ty := ty) (op := op) (mode := mode) (act := act) (v := v) (seed := seed) ty.count 0
      simp only [scanSeed_zero, scanBoth_eq hw, Nat.zero_add, ← List.range_eq_range'] at hval hfl hseed
      refine ⟨_, _, Prod.ext rfl (Prod.ext rfl hseed), hfl, fun i hi hact => ?_⟩
      rw [elemAt_ofNat _ (count_inside hi)]
      exact hval i hi hact

end obligation

end Sys2Proof.Machine
end

