-- ==== Sys2Proof/Proofs/LanePoison.lean ====
section
/-! SUPPORT. The poison of an element by its lanes, sets of lanes built one by one, and the lanes and the elements of a packed
register (R27, R92, R154, R170). -/

namespace Sys2Proof.Machine

section elements

variable {f64 : Bool} {w i l : Nat} {p : KWord}

theorem count_eq (ty : VType) : ty.count = 1024 / vw ty := by cases ty <;> rfl

/-- An element is poisoned where the lane that begins it is, its pair's lanes together (R27, R154). -/
theorem elemPois_iff (h : LaneWidth f64 w) (hi : i < 1024 / w) :
    ElemPois p w i ↔ (pairPois f64 p).getLsbD (i * w / 32) = true := by
  have hlane := h.lane_lt hi
  rw [getLsbD_pairPois f64 p hlane]
  rcases h with ⟨rfl, hw⟩ | ⟨rfl, rfl⟩
  · have hmax : max 1 (w / 32) = 1 := by rcases hw with rfl | rfl | rfl <;> rfl
    simp only [ElemPois, HoldsElem, hmax, Bool.false_eq_true, if_false]
    refine ⟨fun ⟨l, _, ⟨hl, hl'⟩, hp⟩ => ?_, fun hp => ⟨_, hlane, ⟨le_rfl, Nat.lt_succ_self _⟩, hp⟩⟩
    rwa [show i * w / 32 = l by omega]
  · have hbase : 2 * (i * 64 / 32 / 2) = i * 64 / 32 := by omega
    simp only [ElemPois, HoldsElem, if_true, hbase, Bool.or_eq_true]
    constructor
    · rintro ⟨l, -, ⟨hl, hl'⟩, hp⟩
      rcases show l = i * 64 / 32 ∨ l = i * 64 / 32 + 1 by omega with rfl | rfl
      · exact .inl hp
      · exact .inr hp
    · rintro (hp | hp)
      · exact ⟨_, hlane, ⟨le_rfl, by omega⟩, hp⟩
      · exact ⟨_, by omega, ⟨Nat.le_succ _, by omega⟩, hp⟩

/-- A lane holds the element that begins at it or, of a pair, at the lane before. -/
theorem holdsElem_iff (h : LaneWidth f64 w) :
    HoldsElem w i l ↔ i * w / 32 = if f64 then 2 * (l / 2) else l := by
  rcases h with ⟨rfl, hw⟩ | ⟨rfl, rfl⟩
  · have hmax : max 1 (w / 32) = 1 := by rcases hw with rfl | rfl | rfl <;> rfl
    simp only [HoldsElem, hmax, Bool.false_eq_true, if_false]
    omega
  · simp only [HoldsElem, if_true]
    omega

theorem HoldsElem.inside (hh : HoldsElem w i l) (h : LaneWidth f64 w) (hl : l < 32) : i < 1024 / w := by
  rw [holdsElem_iff h] at hh
  rcases h with ⟨rfl, rfl | rfl | rfl⟩ | ⟨rfl, rfl⟩ <;> simp at hh <;> omega

theorem exists_holdsElem (h : LaneWidth f64 w) (l : Nat) : ∃ i, HoldsElem w i l := by
  simp only [holdsElem_iff h]
  refine ⟨l * 32 / w, ?_⟩
  rcases h with ⟨rfl, rfl | rfl | rfl⟩ | ⟨rfl, rfl⟩ <;> simp <;> omega

/-- The mask is the same in every lane that holds an element. -/
theorem laneMask_held (h : LaneWidth f64 w) (hl : l < 32) (hh : HoldsElem w i l) (k : KWord) :
    (laneMask f64 k).getLsbD l = (laneMask f64 k).getLsbD (i * w / 32) := by
  rw [getLsbD_laneMask f64 k hl, getLsbD_laneMask f64 k (h.lane_lt (hh.inside h hl))]
  rw [holdsElem_iff h] at hh
  rw [hh]
  cases f64 with
  | false => rfl
  | true => simp

theorem pairPois_held (h : LaneWidth f64 w) (hl : l < 32) (hh : HoldsElem w i l) (p : KWord) :
    (pairPois f64 p).getLsbD l = true ↔ ElemPois p w i := by
  rw [elemPois_iff h (hh.inside h hl), pairPois, laneMask_held h hl hh]

theorem holdsElem_first : HoldsElem w i (i * w / 32) := ⟨le_rfl, by omega⟩

theorem ElemPois.inside (hp : ElemPois p w i) (h : LaneWidth f64 w) : i < 1024 / w := by
  obtain ⟨l, hl, hh, -⟩ := hp
  exact hh.inside h hl

/-- The lanes of an active poisoned element. -/
theorem activePois_iff (h : LaneWidth f64 w) (k p : KWord) (hl : l < 32) :
    (pairPois f64 p &&& laneMask f64 k).getLsbD l = true
      ↔ ∃ i, HoldsElem w i l ∧ (laneMask f64 k).getLsbD (i * w / 32) = true ∧ ElemPois p w i := by
  rw [BitVec.getLsbD_and, Bool.and_eq_true]
  constructor
  · rintro ⟨hp, hm⟩
    obtain ⟨i, hi⟩ := exists_holdsElem h l
    exact ⟨i, hi, laneMask_held h hl hi k ▸ hm, (pairPois_held h hl hi p).mp hp⟩
  · rintro ⟨i, hi, hm, hp⟩
    exact ⟨(pairPois_held h hl hi p).mpr hp, (laneMask_held h hl hi k).trans hm⟩

/-- Some active element is poisoned. -/
theorem anyActivePois_iff (h : LaneWidth f64 w) (k p : KWord) :
    (pairPois f64 p &&& laneMask f64 k) ≠ 0
      ↔ ∃ i < 1024 / w, (laneMask f64 k).getLsbD (i * w / 32) = true ∧ ElemPois p w i := by
  constructor
  · intro hne
    obtain ⟨l, hl, hb⟩ : ∃ l < 32, (pairPois f64 p &&& laneMask f64 k).getLsbD l = true := by
      by_contra hno
      push Not at hno
      exact hne (BitVec.eq_of_getLsbD_eq fun l hl => by simpa [-BitVec.getLsbD_eq_getElem] using hno l hl)
    obtain ⟨i, hi, hm, hp⟩ := (activePois_iff h k p hl).mp hb
    exact ⟨i, hi.inside h hl, hm, hp⟩
  · rintro ⟨i, hi, hm, hp⟩ h0
    have hb := (activePois_iff h k p (h.lane_lt hi)).mpr ⟨i, holdsElem_first, hm, hp⟩
    simp [h0] at hb

end elements

section lanes

variable {l : Nat}

/-- A set of lanes built one by one holds those it began with and those that were put in. -/
theorem getLsbD_foldl_or {α : Type} {n : Nat} (c : α → Bool) (lane : α → Nat) (hl : l < n) (is : List α) : ∀ p : BitVec n,
    (is.foldl (fun p i => if c i then p ||| BitVec.twoPow n (lane i) else p) p).getLsbD l = true
      ↔ p.getLsbD l = true ∨ ∃ i ∈ is, c i = true ∧ lane i = l := by
  induction is with
  | nil => intro p; simp
  | cons i is ih =>
    intro p
    rw [List.foldl_cons, ih, List.exists_mem_cons_iff, ← or_assoc]
    have hlane : lane i < n ∧ lane i = l ↔ lane i = l := and_iff_right_of_imp fun h => h ▸ hl
    refine or_congr_left ?_
    cases c i
    · simp
    · simp [-BitVec.getLsbD_eq_getElem, hlane]

/-- Elements put in one by one by the lane that begins them: a lane is poisoned where one of them is held in it. -/
theorem pairPois_foldl {f64 : Bool} {w : Nat} (h : LaneWidth f64 w) (c : Nat → Bool) (js : List Nat) (hl : l < 32) :
    (pairPois f64 (js.foldl (fun p j => if c j then p ||| BitVec.twoPow 32 (j * w / 32) else p) 0)).getLsbD l = true
      ↔ ∃ j ∈ js, c j = true ∧ HoldsElem w j l := by
  have hzero (b : Nat) : ¬ (0 : KWord).getLsbD b = true := by simp
  rw [getLsbD_pairPois f64 _ hl]
  simp only [holdsElem_iff h]
  rcases h with ⟨rfl, -⟩ | ⟨rfl, rfl⟩
  · simp only [Bool.false_eq_true, if_false, getLsbD_foldl_or _ _ hl, hzero, false_or]
  · have hodd : ¬ ∃ j ∈ js, c j = true ∧ j * 64 / 32 = 2 * (l / 2) + 1 := fun ⟨j, _, _, hj⟩ => by omega
    simp only [if_true, Bool.or_eq_true, getLsbD_foldl_or _ _ (by omega : 2 * (l / 2) < 32),
      getLsbD_foldl_or _ _ (by omega : 2 * (l / 2) + 1 < 32), hzero, Bool.false_eq_true, false_or, hodd, or_false]

theorem popBelow_eq {n : Nat} (x : BitVec n) (i : Nat) : popBelow x i = (List.range i).countP fun j => x.getLsbD j := by
  induction i with
  | zero => rfl
  | succ i ih =>
    rw [popBelow, ih, List.range_succ, List.countP_append, List.countP_singleton, Nat.add_comm]
    rfl

/-- The lanes of the first n elements. -/
theorem getLsbD_elemLanes (w n : Nat) (h : n * w / 32 ≤ 32) : (elemLanes w 0 n).getLsbD l = decide (l < n * w / 32) := by
  simp only [elemLanes, Nat.zero_add, Nat.zero_mul, Nat.zero_div, pow_zero, BitVec.getLsbD_ofNat, Nat.testBit_two_pow_sub_one]
  by_cases hl : l < n * w / 32
  · simp [hl, show l < 32 by omega]
  · simp [hl]

end lanes

section packing

variable {f64 : Bool} {w : Nat}

/-- Elements that share a lane are taken together: c in a row for each lane that is on. -/
theorem countP_lanes (c : Nat) (hc : 0 < c) (on : Nat → Bool) (n : Nat) :
    (List.range (c * n)).countP (fun i => on (i / c)) = c * (List.range n).countP on := by
  induction n with
  | zero => simp
  | succ n ih =>
    have hlast : ((List.range c).map (c * n + ·)).countP (fun i => on (i / c)) = if on n then c else 0 := by
      rw [List.countP_map]
      have hconst : ∀ j ∈ List.range c, ((fun i => on (i / c)) ∘ (c * n + ·)) j = on n := fun j hj => by
        rw [Function.comp_apply, Nat.mul_add_div hc, Nat.div_eq_of_lt (List.mem_range.mp hj), Nat.add_zero]
      cases hn : on n with
      | true => rw [List.countP_eq_length.mpr fun j hj => (hconst j hj).trans hn, List.length_range]; rfl
      | false => rw [List.countP_eq_zero.mpr fun j hj => by rw [hconst j hj, hn]; exact Bool.false_ne_true]; rfl
    rw [Nat.mul_succ, List.range_add, List.countP_append, ih, hlast, List.range_succ, List.countP_append, List.countP_singleton]
    cases on n <;> simp [Nat.mul_succ]

/-- The active elements fill whole lanes. -/
theorem packed_whole (h : LaneWidth f64 w) (on : Nat → Bool) :
    ((List.range (1024 / w)).filter fun i => on (i * w / 32)).length * w % 32 = 0 := by
  rw [← List.countP_eq_length_filter]
  have hlane (c : Nat) (hc : 0 < c) (hw : c * w = 32) :
      (List.range (1024 / w)).countP (fun i => on (i * w / 32)) * w % 32 = 0 := by
    have hw0 : 0 < w := Nat.pos_of_ne_zero fun h0 => by simp [h0] at hw
    have hlen : 1024 / w = c * 32 := by
      rw [show 1024 = c * 32 * w by rw [Nat.mul_right_comm, hw], Nat.mul_div_cancel _ hw0]
    have hdiv (i : Nat) : i * w / 32 = i / c := by rw [← hw, Nat.mul_div_mul_right _ _ hw0]
    simp only [hdiv, hlen, countP_lanes c hc]
    rw [Nat.mul_right_comm, hw, Nat.mul_mod_right]
  rcases h with ⟨-, rfl | rfl | rfl⟩ | ⟨-, rfl⟩
  · exact hlane 4 (by decide) rfl
  · exact hlane 2 (by decide) rfl
  · exact hlane 1 (by decide) rfl
  · omega

/-- Element j of a list of elements packed low. -/
theorem packedValue (w : Nat) (x : Nat → Nat) (hx : ∀ i, x i < 2 ^ w) (is : List Nat) : ∀ j (h : j < is.length),
    is.foldr (fun i acc => x i + 2 ^ w * acc) 0 / 2 ^ (w * j) % 2 ^ w = x is[j] := by
  induction is with
  | nil => intro j h; simp at h
  | cons i is ih =>
    intro j h
    rw [List.foldr_cons, ← Nat.mod_eq_of_lt (hx i)]
    cases j with
    | zero => rw [packed_zero, Nat.mod_eq_of_lt (hx i)]; rfl
    | succ j => rw [packed_succ, ih j (by simpa using h)]; rfl

end packing

end Sys2Proof.Machine
end

