-- ==== Sys2Proof/Proofs/VectorPermuteAndMask.lean ====
section
/-! PROOF. The permutes, the reductions and scans, and the mask instructions (R105, R106, R153 to R155, R168 to R170, R175). -/

namespace Sys2Proof.Machine

section permutes

variable {s : State} {e : Env} {st : Stall} {ty : VType} {d a b : VReg} {k : KReg} {z : Bool}

theorem vMove_lanewise {reads : List RegId} (src : Thread → Nat → Nat) (idx : Thread → KWord)
    (h : Ready s e (op32 st .notXc false 17 (vreads d k z false reads))) :
    let th := e.c.th
    ∃ t, vMove st ty reads d a k z src idx s = .next t
      ∧ Lanewise e (op32 st .notXc false 17 (vreads d k z false reads)) 4 d k z (ty == .f64) (vw ty) false
        (fun i _ => (elemAt (vw ty) (th.rv a) (src th i), Flags.none))
        ((List.range ty.count).foldl (fun p i => if (pairPois (ty == .f64) (th.pv a)).getLsbD (src th i * vw ty / 32)
          then p ||| BitVec.twoPow 32 (i * vw ty / 32) else p) (idx th)) t := by
  intro th
  unfold vMove
  exact vIssue_lanewise h (laneWidth_vw ty)

theorem viota_lanewise (h : Ready s e (op32 st .notXc false 17 (vreads d k z false []))) :
    ∃ t, execViota st d k z s = .next t
      ∧ Lanewise e (op32 st .notXc false 17 (vreads d k z false [])) 4 d k z false 32 false
        (fun i _ => ((List.range i).countP (fun j => (e.c.th.rk k).getLsbD j), Flags.none)) 0 t := by
  simp only [← popBelow_eq]
  unfold execViota
  exact vIssue_lanewise (rm := none) (f := fun th _ i _ => (popBelow (th.rk k) i, Flags.none)) (pois := fun _ => 0) h
    (.inl ⟨rfl, .inr (.inr rfl)⟩)

end permutes

section compress

variable {s : State} {e : Env} {st : Stall} {ty : VType} {d a : VReg} {k : KReg} {z : Bool}

/-- The elements that VCOMPR packs (R170). -/
def packedElems (ty : VType) (m : KWord) : List Nat := (List.range ty.count).filter fun i => m.getLsbD (i * vw ty / 32)

/-- The register that VCOMPR leaves (R170). -/
def compressed (ty : VType) (m : KWord) (z : Bool) (th : Thread) (d a : VReg) : VWord × KWord :=
  let is := packedElems ty m
  let pois := (List.range is.length).foldl (fun p j =>
    if (pairPois (ty == .f64) (th.pv a)).getLsbD (is.getD j 0 * vw ty / 32) then p ||| BitVec.twoPow 32 (j * vw ty / 32) else p) 0
  mergeV (elemLanes (vw ty) 0 is.length) z (th.rv d) (th.pv d)
    (BitVec.ofNat 1024 (is.foldr (fun i acc => elemAt (vw ty) (th.rv a) i + 2 ^ vw ty * acc) 0)) (pairPois (ty == .f64) pois)

theorem vcompr_next (h : Ready s e (op32 st .notXc false 17 (vreads d k z false [.v a]))) :
    let r := compressed ty (laneMask (ty == .f64) (e.c.th.rk k)) z e.c.th d a
    execVcompr st ty d a k z s = .next (e.result (op32 st .notXc false 17 (vreads d k z false [.v a])) 4 [.v d r.1 r.2] 0) := by
  intro r
  exact (issue_done (x := { e := (markWrong e).fixed 4 [.v d r.1 r.2] 0 17 }) h rfl).trans rfl

theorem packedElems_eq (ty : VType) (m : KWord) :
    packedElems ty m = (List.range (1024 / vw ty)).filter fun i => m.getLsbD (i * vw ty / 32) := by
  rw [packedElems, count_eq]

theorem packed_length (ty : VType) (m : KWord) : (packedElems ty m).length ≤ 1024 / vw ty :=
  packedElems_eq ty m ▸ (List.length_filter_le _ _).trans (List.length_range ..).le

theorem packed_inside {m : KWord} {i : Nat} (h : i ∈ packedElems ty m) : i < 1024 / vw ty := by
  rw [packedElems_eq] at h
  exact List.mem_range.mp (List.mem_of_mem_filter h)

theorem packed_lanes (ty : VType) (m : KWord) :
    (packedElems ty m).length * vw ty % 32 = 0 ∧ (packedElems ty m).length * vw ty / 32 ≤ 32 := by
  refine ⟨packedElems_eq ty m ▸ packed_whole (laneWidth_vw ty) m.getLsbD, ?_⟩
  have h := Nat.mul_le_mul_right (vw ty) (packed_length ty m)
  rw [(laneWidth_vw ty).dvd] at h
  omega

/-- The lanes of the packed elements divide no element. -/
theorem packed_lane (ty : VType) (m : KWord) {i j : Nat} (hj : j < vw ty) :
    (vw ty * i + j) / 32 < (packedElems ty m).length * vw ty / 32 ↔ i < (packedElems ty m).length := by
  obtain ⟨hwhole, -⟩ := packed_lanes ty m
  have hw := laneWidth_vw ty
  generalize (packedElems ty m).length = n at hwhole ⊢
  generalize vw ty = w at hwhole hj hw ⊢
  rcases hw with ⟨-, rfl | rfl | rfl⟩ | ⟨-, rfl⟩ <;> omega

theorem compressed_value (m : KWord) (th : Thread) {i : Nat} (hi : i < 1024 / vw ty) :
    elemAt (vw ty) (compressed ty m z th d a).1 i = if h : i < (packedElems ty m).length
      then elemAt (vw ty) (th.rv a) (packedElems ty m)[i] else if z then 0 else elemAt (vw ty) (th.rv d) i := by
  have hpos : 0 < vw ty := by cases ty <;> decide
  have hin := (laneWidth_vw ty).inside hi
  have hlane (j : Nat) (hj : j < vw ty) : (elemLanes (vw ty) 0 (packedElems ty m).length).getLsbD ((vw ty * i + j) / 32)
      = decide (i < (packedElems ty m).length) := by
    rw [getLsbD_elemLanes _ _ (packed_lanes ty m).2, decide_eq_decide]
    exact packed_lane ty m hj
  have hfirst : (elemLanes (vw ty) 0 (packedElems ty m).length).getLsbD (i * vw ty / 32) = decide (i < (packedElems ty m).length) := by
    rw [Nat.mul_comm]; exact hlane 0 hpos
  rw [compressed, elemAt_mergeV z _ _ _ _ hin fun j hj => (hlane j hj).trans hfirst.symm, hfirst]
  by_cases h : i < (packedElems ty m).length
  · rw [if_pos (decide_eq_true h), dif_pos h, elemAt_ofNat _ hin]
    exact packedValue _ _ (fun i => elemAt_lt ..) _ i h
  · rw [if_neg (by simpa using h), dif_neg h]

theorem compressed_pois (m : KWord) (th : Thread) {l : Nat} (hl : l < 32) :
    (compressed ty m z th d a).2.getLsbD l = true ↔ if l < (packedElems ty m).length * vw ty / 32 then
        ∃ j i, (packedElems ty m)[j]? = some i ∧ HoldsElem (vw ty) j l ∧ ElemPois (th.pv a) (vw ty) i
      else z = false ∧ (th.pv d).getLsbD l = true := by
  rw [compressed, getLsbD_mergeV_pois _ _ _ _ _ _ hl, getLsbD_elemLanes _ _ (packed_lanes ty m).2]
  by_cases h : l < (packedElems ty m).length * vw ty / 32
  · rw [if_pos (decide_eq_true h), if_pos h]
    rw [pairPois_foldl (laneWidth_vw ty) _ _ hl]
    refine exists_congr fun j => ?_
    by_cases hj : j < (packedElems ty m).length
    · have hin : (packedElems ty m)[j] < 1024 / vw ty := packed_inside (List.getElem_mem hj)
      simp [hj, elemPois_iff (laneWidth_vw ty) hin, and_comm]
    · simp [hj]
  · rw [if_neg (by simpa using h), if_neg h, Bool.and_eq_true, Bool.not_eq_true']

end compress

section tree

variable {s : State} {e : Env} {st : Stall} {ty : VType} {op : RedOp} {rm : RmField} {d a : VReg} {k : KReg} {z : Bool}

/-- The state after an instruction that takes the reduction tree for twelve cycles (R155, R169). -/
def Env.treed (e : Env) (op : Op) (w : RegWrite) (fl : Flags) (seed : BitVec 32) : State :=
  e.put { e.t with tree := ⟨e.s.cycle + 12, e.s.cur.ctx, e.s.cycle⟩ } { e.c.atIssue e.s.cycle with
    th := ({ e.c.th.addPend (e.pending op 12 false [w] fl.bits) with seed }).past op (e.seqPc op) }

/-- The environment of such an instruction before it completes. -/
def Env.treeing (e : Env) (w : RegWrite) (fl : Flags) (seed : BitVec 32) : Env :=
  let e := (e.withTh { e.c.th with seed }).interlocked 12 [w] fl.bits 17
  { e with t := { e.t with tree := ⟨e.now + 12, e.me, e.now⟩ } }

theorem close_treeing (e : Env) (st : Stall) (reads : List RegId) (w : RegWrite) (fl : Flags) (seed : BitVec 32) :
    (complete1 (op32 st .notXc false 17 reads) { e := (markWrong e).treeing w fl seed }).close
      = e.treed (op32 st .notXc false 17 reads) w fl seed := rfl

/-- The reads of VRED. -/
def redReads (d a : VReg) (k : KReg) (z : Bool) : List RegId := .v a :: (if k = 0 then [] else [.k k]) ++ if z then [] else [.v d]

/-- The lanes of VRED's result. -/
def redLanes (ty : VType) : KWord := if ty == .f64 then 3 else 1

/-- The register that VRED leaves (R169). -/
def reduced (ty : VType) (m : KWord) (z : Bool) (th : Thread) (d a : VReg) (r : Nat) : VWord × KWord :=
  let keep : VWord := if z then 0 else (th.rv d >>> redWidth ty) <<< redWidth ty
  let oldp : KWord := if z then 0 else if redWidth ty < 32 then th.pv d else th.pv d &&& ~~~ redLanes ty
  (keep ||| BitVec.ofNat 1024 (r % 2 ^ redWidth ty),
    if (pairPois (ty == .f64) (th.pv a) &&& m) ≠ 0 then oldp ||| redLanes ty else oldp)

theorem vred_next (h : Ready s e (op32 st .notXc false 17 (redReads d a k z))) (hf : e.t.tree.freeAt ≤ e.s.cycle) :
    let m := laneMask (ty == .f64) (e.c.th.rk k)
    let r := redValue ty op (rmMode rm e.c.th) (fun i => m.getLsbD (i * vw ty / 32)) (e.c.th.rv a) e.c.th.seed
    let x := reduced ty m z e.c.th d a r.1
    execVred st ty op rm d a k z s = .next (e.treed (op32 st .notXc false 17 (redReads d a k z)) (.v d x.1 x.2) r.2.1 r.2.2) := by
  intro m r x
  rw [← close_treeing]
  exact issue_done h (bind_need (decide_eq_true hf))

/-- The register that VSCAN leaves (R106, R169). -/
def scanned (ty : VType) (m : KWord) (z : Bool) (th : Thread) (d a : VReg) (r : Nat) : VWord × KWord :=
  let pa := pairPois (ty == .f64) (th.pv a) &&& m
  let pois := (List.range 32).foldl (fun p i =>
    if (pa &&& BitVec.ofNat 32 (2 ^ (i + 1) - 1)) = 0 then p else p ||| BitVec.twoPow 32 i) (0 : KWord)
  mergeV m z (th.rv d) (th.pv d) (BitVec.ofNat 1024 r) (pairPois (ty == .f64) pois)

theorem vscan_next (h : Ready s e (op32 st .notXc false 17 (vreads d k z false [.v a]))) (hf : e.t.tree.freeAt ≤ e.s.cycle) :
    let m := laneMask (ty == .f64) (e.c.th.rk k)
    let r := scanFrom ty op (rmMode rm e.c.th) (fun i => m.getLsbD (i * vw ty / 32)) (e.c.th.rv a) ty.count 0 (redIdent ty op)
      e.c.th.seed
    let x := scanned ty m z e.c.th d a r.1
    execVscan st ty op rm d a k z s
      = .next (e.treed (op32 st .notXc false 17 (vreads d k z false [.v a])) (.v d x.1 x.2) r.2.1 r.2.2) := by
  intro m r x
  rw [← close_treeing]
  exact issue_done h (bind_need (decide_eq_true hf))

end tree

section results

variable {ty : VType} {d a : VReg} {z : Bool} {th : Thread}

theorem reduced_value (m : KWord) (r : Nat) {i : Nat} (hi : i < 1024 / redWidth ty) :
    elemAt (redWidth ty) (reduced ty m z th d a r).1 i
      = if i = 0 then r % 2 ^ redWidth ty else if z then 0 else elemAt (redWidth ty) (th.rv d) i := by
  have hin : redWidth ty * i + redWidth ty ≤ 1024 :=
    calc redWidth ty * i + redWidth ty = (i + 1) * redWidth ty := by ring
      _ ≤ 1024 / redWidth ty * redWidth ty := Nat.mul_le_mul_right _ hi
      _ ≤ 1024 := Nat.div_mul_le_self ..
  generalize hw : redWidth ty = w at hin
  have hr : r % 2 ^ w < 2 ^ w := Nat.mod_lt _ (Nat.two_pow_pos w)
  rw [reduced, hw]
  by_cases h0 : i = 0
  · have hkeep : elemAt w ((if z then 0 else (th.rv d >>> w) <<< w) ||| BitVec.ofNat 1024 (r % 2 ^ w)) 0
        = elemAt w (BitVec.ofNat 1024 (r % 2 ^ w)) 0 :=
      elemAt_congr fun j hj => by cases z <;> simp [-BitVec.getLsbD_eq_getElem, hj]
    rw [if_pos h0, h0, hkeep, elemAt_ofNat _ (by omega), Nat.mul_zero, pow_zero, Nat.div_one, Nat.mod_mod]
  · have hfar (j : Nat) : (BitVec.ofNat 1024 (r % 2 ^ w)).getLsbD (w * i + j) = false := by
      have hle : w ≤ w * i := Nat.le_mul_of_pos_right w (Nat.pos_of_ne_zero h0)
      rw [BitVec.getLsbD_ofNat, Nat.testBit_lt_two_pow (hr.trans_le (Nat.pow_le_pow_right two_pos (by omega))), Bool.and_false]
    rw [if_neg h0]
    cases z with
    | true =>
      rw [if_pos rfl, if_pos rfl, ← elemAt_zero w i]
      exact elemAt_congr fun j _ => by rw [BitVec.getLsbD_or, hfar, Bool.or_false]
    | false =>
      have hle : w ≤ w * i := Nat.le_mul_of_pos_right w (Nat.pos_of_ne_zero h0)
      refine elemAt_congr fun j hj => ?_
      simp [-BitVec.getLsbD_eq_getElem, hfar, show w * i + j < 1024 by omega, show ¬ w * i + j < w by omega,
        show w + (w * i + j - w) = w * i + j by omega]

theorem redLanes_iff {l : Nat} (hl : l < 32) : (redLanes ty).getLsbD l = true ↔ HoldsElem (redWidth ty) 0 l := by
  have hbit : (redLanes ty).getLsbD l = decide (l < max 1 (redWidth ty / 32)) := by
    cases ty <;> revert hl l <;> decide
  rw [hbit, decide_eq_true_eq, HoldsElem]
  simp

theorem reduced_pois (k : KWord) (r : Nat) {l : Nat} (hl : l < 32) :
    (reduced ty (laneMask (ty == .f64) k) z th d a r).2.getLsbD l = true
      ↔ (HoldsElem (redWidth ty) 0 l ∧ ∃ i < 1024 / vw ty, (laneMask (ty == .f64) k).getLsbD (i * vw ty / 32) = true
          ∧ ElemPois (th.pv a) (vw ty) i)
        ∨ (z = false ∧ (redWidth ty < 32 ∨ ¬ HoldsElem (redWidth ty) 0 l) ∧ (th.pv d).getLsbD l = true) := by
  have hold : (if z then (0 : KWord) else if redWidth ty < 32 then th.pv d else th.pv d &&& ~~~ redLanes ty).getLsbD l = true
      ↔ z = false ∧ (redWidth ty < 32 ∨ ¬ HoldsElem (redWidth ty) 0 l) ∧ (th.pv d).getLsbD l = true := by
    rw [← redLanes_iff hl]
    cases z with
    | true => simp
    | false =>
      by_cases hw : redWidth ty < 32
      · simp [hw]
      · simp [-BitVec.getLsbD_eq_getElem, hw, hl, and_comm]
  rw [← hold, ← anyActivePois_iff (laneWidth_vw ty), ← redLanes_iff hl]
  simp only [reduced]
  by_cases hany : (pairPois (ty == .f64) (th.pv a) &&& laneMask (ty == .f64) k) ≠ 0
  · rw [if_pos hany, BitVec.getLsbD_or, Bool.or_eq_true]
    rw [and_iff_left hany, or_comm]
  · rw [if_neg hany]
    exact (or_iff_right fun h => hany h.2).symm

theorem scanned_value (k : KWord) (r : Nat) {i : Nat} (hi : i < 1024 / vw ty) :
    let m := laneMask (ty == .f64) k
    elemAt (vw ty) (scanned ty m z th d a r).1 i = if m.getLsbD (i * vw ty / 32) then elemAt (vw ty) (BitVec.ofNat 1024 r) i
      else if z then 0 else elemAt (vw ty) (th.rv d) i :=
  elemAt_mergeV z _ _ _ _ ((laneWidth_vw ty).inside hi) ((laneWidth_vw ty).whole k hi)

/-- The lowest n + 1 lanes of a set. -/
theorem lowLanes_ne_zero (p : KWord) {n : Nat} (hn : n < 32) :
    (p &&& BitVec.ofNat 32 (2 ^ (n + 1) - 1)) ≠ 0 ↔ ∃ l ≤ n, p.getLsbD l = true := by
  have hbit (l : Nat) : (p &&& BitVec.ofNat 32 (2 ^ (n + 1) - 1)).getLsbD l = (p.getLsbD l && decide (l ≤ n)) := by
    rw [BitVec.getLsbD_and, BitVec.getLsbD_ofNat, Nat.testBit_two_pow_sub_one]
    by_cases h : l ≤ n
    · simp [h, show l < 32 by omega]
    · simp [h, Nat.lt_succ_iff]
  constructor
  · intro hne
    by_contra hno
    push Not at hno
    refine hne (BitVec.eq_of_getLsbD_eq fun l hl => ?_)
    rw [hbit]
    by_cases h : l ≤ n
    · simpa [-BitVec.getLsbD_eq_getElem] using fun hp => absurd hp (hno l h)
    · simp [h]
  · rintro ⟨l, hl, hp⟩ h0
    have := hbit l
    simp [-BitVec.getLsbD_eq_getElem, h0, hp, hl] at this

/-- The lanes at or above a lane of a set. -/
def reached (pa : KWord) : KWord := (List.range 32).foldl (fun p i =>
  if (pa &&& BitVec.ofNat 32 (2 ^ (i + 1) - 1)) = 0 then p else p ||| BitVec.twoPow 32 i) 0

theorem getLsbD_reached (pa : KWord) {l : Nat} (hl : l < 32) :
    (reached pa).getLsbD l = true ↔ ∃ j ≤ l, pa.getLsbD j = true := by
  have hfold : reached pa = (List.range 32).foldl (fun p i =>
      if decide ((pa &&& BitVec.ofNat 32 (2 ^ (i + 1) - 1)) ≠ 0) then p ||| BitVec.twoPow 32 i else p) 0 := by
    simp only [reached, decide_eq_true_eq, ite_not]
  rw [hfold, getLsbD_foldl_or (fun i => decide ((pa &&& BitVec.ofNat 32 (2 ^ (i + 1) - 1)) ≠ 0)) (fun i => i) hl,
    ← lowLanes_ne_zero pa hl]
  simp [hl]

/-- A pair is reached where either of its lanes is. -/
theorem pairPois_reached (f64 : Bool) (pa : KWord) {l : Nat} (hl : l < 32) :
    (pairPois f64 (reached pa)).getLsbD l = true ↔ ∃ j ≤ (if f64 then 2 * (l / 2) + 1 else l), pa.getLsbD j = true := by
  rw [getLsbD_pairPois f64 _ hl]
  cases f64 with
  | false => exact getLsbD_reached pa hl
  | true =>
    simp only [if_true, Bool.or_eq_true, getLsbD_reached pa (by omega : 2 * (l / 2) < 32),
      getLsbD_reached pa (by omega : 2 * (l / 2) + 1 < 32)]
    exact or_iff_right_of_imp fun ⟨j, hj, hp⟩ => ⟨j, by omega, hp⟩

theorem scanned_pois (k : KWord) (r : Nat) {l : Nat} (hl : l < 32) :
    let m := laneMask (ty == .f64) k
    (scanned ty m z th d a r).2.getLsbD l = true ↔ if m.getLsbD l then
        ∃ j, m.getLsbD (j * vw ty / 32) = true ∧ j * vw ty / 32 ≤ l ∧ ElemPois (th.pv a) (vw ty) j
      else z = false ∧ (th.pv d).getLsbD l = true := by
  intro m
  have hw := laneWidth_vw ty
  have hreach : (scanned ty m z th d a r).2
      = (mergeV m z (th.rv d) (th.pv d) (BitVec.ofNat 1024 r)
          (pairPois (ty == .f64) (reached (pairPois (ty == .f64) (th.pv a) &&& m)))).2 := rfl
  rw [hreach, getLsbD_mergeV_pois _ _ _ _ _ _ hl]
  by_cases hm : m.getLsbD l = true
  · rw [if_pos hm, if_pos hm]
    rw [pairPois_reached _ _ hl]
    constructor
    · rintro ⟨i, hi, hp⟩
      have hi32 : i < 32 := by split at hi <;> omega
      obtain ⟨j, hj, hact, hp⟩ := (activePois_iff hw k (th.pv a) hi32).mp hp
      refine ⟨j, hact, ?_, hp⟩
      rw [(holdsElem_iff hw).mp hj]
      by_cases hf : (ty == .f64) = true
      · rw [if_pos hf] at hi ⊢; omega
      · rw [if_neg hf] at hi ⊢; exact hi
    · rintro ⟨j, hact, hj, hp⟩
      have hlane := hw.lane_lt (hp.inside hw)
      exact ⟨j * vw ty / 32, by split <;> omega, (activePois_iff hw k (th.pv a) hlane).mpr ⟨j, holdsElem_first, hact, hp⟩⟩
  · rw [if_neg hm, if_neg hm, Bool.and_eq_true, Bool.not_eq_true']

end results

section obligation

section maskInstructions

variable {s : State} {e : Env} {st : Stall} {reads : List RegId}

/-- A mask instruction that only writes a register. -/
theorem maskIssue_next {f : Thread → RegWrite} (h : Ready s e (op32 st .notXc false 19 reads)) :
    issue s (op32 st .notXc false 19 reads) (fun e => fin (e.fixed 1 [f e.c.th] 0 19))
      = .next (e.result (op32 st .notXc false 19 reads) 1 [f e.c.th] 0) :=
  (issue_done (x := { e := (markWrong e).fixed 1 [f e.c.th] 0 19 }) h rfl).trans rfl

theorem kmov_next {k : KReg} {g : GReg} (h : Ready s e (op32 st .notXc false 19 [.g g])) (hp : e.c.th.pg g = false) :
    execKmov st k g s = .next (e.result (op32 st .notXc false 19 [.g g]) 1 [.k k ((e.c.th.rg g).setWidth 32)] 0) :=
  (issue_done (x := { e := (markWrong e).fixed 1 [.k k ((e.c.th.rg g).setWidth 32)] 0 19 }) h
    (bind_need (by simp [hp]))).trans rfl

end maskInstructions

/-- Settles O19: each permute and mask instruction by its own result, VRED and VSCAN by what they leave in vD as they take the
tree. -/
theorem vectorPermuteAndMask : Obligations.VectorPermuteAndMask := by
  intro s e st ty op rm d a b eb k ka kb gd ga z
  dsimp only
  simp only [← count_eq]
  refine ⟨vMove_lanewise (fun th i => elemAt (vw ty) (th.rv b) i % ty.count) (fun th => th.pv b),
    vMove_lanewise (fun th i => (i + (th.re eb).toNat) % ty.count) (fun _ => 0), viota_lanewise,
    fun h => ⟨_, _, vcompr_next h, fun i hi => ?_, fun l hl => ?_⟩,
    fun hf => ⟨fun h => ⟨_, _, vred_next h hf, fun i hi => ?_, fun l hl => ?_⟩,
      fun h _ => ⟨_, _, vscan_next h hf, fun i hi => ?_, fun l hl => ?_⟩⟩,
    ?_, ?_, ?_, ?_, fun h => ⟨?_, ?_⟩, fun h hp => ?_⟩
  · exact (compressed_value _ _ (count_eq ty ▸ hi)).trans rfl
  · exact compressed_pois _ _ hl
  · exact reduced_value _ _ hi
  · rw [count_eq]; exact reduced_pois _ _ hl
  · exact scanned_value _ _ (count_eq ty ▸ hi)
  · exact scanned_pois _ _ hl
  · exact fun h => maskIssue_next (f := fun th => .k k (th.rk ka &&& th.rk kb)) h
  · exact fun h => maskIssue_next (f := fun th => .k k (th.rk ka ||| th.rk kb)) h
  · exact fun h => maskIssue_next (f := fun th => .k k (th.rk ka ^^^ th.rk kb)) h
  · exact fun h => maskIssue_next (f := fun th => .k k (~~~ th.rk ka)) h
  · rw [← popBelow_eq]
    exact maskIssue_next (f := fun th => .g gd (w64 (popc (th.rk ka))) false) h
  · exact maskIssue_next (f := fun th => .g gd ((th.rk ka).setWidth 64) false) h
  · exact kmov_next h hp

end obligation

end Sys2Proof.Machine
end

