-- ==== Sys2Proof/Proofs/MatrixMemory.lean ====
section
/-! SUPPORT. What the matrix engine reads of a canonical memory, and what an accumulator holds (R93, R178, R183). -/

namespace Sys2Proof.Machine

section bytes

variable {m : Mem} {a n : Nat}

theorem read_cons (a' : Nat) (b : Byte) (t : Mem) (x : Nat) : Mem.read ((a', b) :: t) x = if x = a' then b else Mem.read t x := by
  rw [Mem.read, AMap.getD, AMap.find]
  split <;> rfl

theorem read_below {lo x : Nat} (h : m.wfFrom lo = true) (hx : x < lo) : m.read x = 0 := by
  have hnone : AMap.find m x = none := find_none_of_keys fun p hp => by
    have := (wfFrom_lt h).2 p hp
    omega
  rw [Mem.read, AMap.getD, hnone]
  rfl

/-- A pass over a memory that begins at an address gives its bytes from there. -/
theorem denseFrom_eq (n : Nat) : ∀ (a : Nat) (m : Mem), m.wfFrom a = true → Mem.denseFrom n a m = m.readBytes a n := by
  induction n with
  | zero => exact fun _ _ _ => rfl
  | succ n ih =>
    intro a m h
    cases m with
    | nil => rw [Mem.denseFrom, ih (a + 1) [] rfl]; rfl
    | cons p t =>
      obtain ⟨a', b⟩ := p
      simp only [Mem.wfFrom, Bool.and_eq_true, decide_eq_true_eq, bne_iff_ne] at h
      obtain ⟨⟨ha, hb⟩, ht⟩ := h
      rw [Mem.denseFrom, Mem.readBytes, read_cons]
      by_cases heq : a' = a
      · subst heq
        rw [if_pos rfl, if_pos rfl, ih _ t ht]
        refine congrArg _ (readBytes_congr n _ fun i _ => ?_)
        rw [read_cons, if_neg (by omega)]
      · have hwf : Mem.wfFrom (a + 1) ((a', b) :: t) = true := by
          simp only [Mem.wfFrom, Bool.and_eq_true, decide_eq_true_eq, bne_iff_ne]
          exact ⟨⟨by omega, hb⟩, ht⟩
        rw [if_neg heq, if_neg (by omega), ih _ _ hwf, read_below ht (by omega)]

/-- The part of a canonical memory from an address on. -/
theorem dropBelow_spec (a : Nat) (m : Mem) : ∀ lo, m.wfFrom lo = true →
    Mem.wfFrom a (m.dropWhile fun p => decide (p.1 < a)) = true
      ∧ ∀ x, a ≤ x → Mem.read (m.dropWhile fun p => decide (p.1 < a)) x = m.read x := by
  induction m with
  | nil => exact fun _ _ => ⟨rfl, fun _ _ => rfl⟩
  | cons p t ih =>
    intro lo h
    obtain ⟨a', b⟩ := p
    simp only [Mem.wfFrom, Bool.and_eq_true, decide_eq_true_eq, bne_iff_ne] at h
    obtain ⟨⟨ha, hb⟩, ht⟩ := h
    by_cases hlt : a' < a
    · obtain ⟨hwf, hread⟩ := ih _ ht
      rw [List.dropWhile_cons_of_pos (by simpa using hlt)]
      exact ⟨hwf, fun x hx => by rw [hread x hx, read_cons, if_neg (by omega)]⟩
    · rw [List.dropWhile_cons_of_neg (by simpa using hlt)]
      refine ⟨?_, fun _ _ => rfl⟩
      simp only [Mem.wfFrom, Bool.and_eq_true, decide_eq_true_eq, bne_iff_ne]
      exact ⟨⟨not_lt.mp hlt, hb⟩, ht⟩

theorem dense_eq (h : m.wf = true) (a n : Nat) : m.dense a n = m.readBytes a n := by
  obtain ⟨hwf, hread⟩ := dropBelow_spec a m 0 h
  rw [Mem.dense, denseFrom_eq n a _ hwf]
  exact readBytes_congr n a fun i _ => hread _ (Nat.le_add_right _ _)

theorem readBytes_take (m : Mem) (k : Nat) : ∀ n a, k ≤ n → (m.readBytes a n).take k = m.readBytes a k := by
  induction k with
  | zero => exact fun _ _ _ => List.take_zero
  | succ k ih =>
    intro n a hk
    obtain ⟨n, rfl⟩ : ∃ n', n = n' + 1 := ⟨n - 1, by omega⟩
    rw [Mem.readBytes, List.take_succ_cons, ih n _ (by omega)]
    rfl

theorem readBytes_drop (m : Mem) (k : Nat) : ∀ n a, (m.readBytes a n).drop k = m.readBytes (a + k) (n - k) := by
  induction k with
  | zero => exact fun _ _ => rfl
  | succ k ih =>
    intro n a
    cases n with
    | zero => simp [Mem.readBytes]
    | succ n => rw [Mem.readBytes, List.drop_succ_cons, ih, Nat.add_sub_add_right, Nat.add_assoc, Nat.add_comm 1 k]

theorem groupBytes_length (sz n : Nat) (l : List Byte) : (groupBytes sz n l).length = n := by
  induction n generalizing l with
  | zero => rfl
  | succ n ih => rw [groupBytes, List.length_cons, ih]

/-- The numbers of a run of bytes, sz bytes each. -/
theorem groupBytes_readBytes (m : Mem) (sz n : Nat) : ∀ (a i : Nat), i < n →
    (groupBytes sz n (m.readBytes a (n * sz))).getD i 0 = natOfBytes (m.readBytes (a + i * sz) sz) := by
  induction n with
  | zero => exact fun _ _ hi => absurd hi (Nat.not_lt_zero _)
  | succ n ih =>
    intro a i hi
    have hlen : (n + 1) * sz = n * sz + sz := Nat.succ_mul n sz
    rw [groupBytes, readBytes_take m sz _ a (by omega), readBytes_drop, show (n + 1) * sz - sz = n * sz by omega]
    cases i with
    | zero => rw [List.getD_cons_zero, Nat.zero_mul, Nat.add_zero]
    | succ i => rw [List.getD_cons_succ, ih _ _ (by omega), Nat.succ_mul, Nat.add_assoc, Nat.add_comm sz]

/-- Nibbles of a run of bytes, the low one first. -/
theorem nibbles_getD (l : List Byte) (i : Nat) (hi : i < 2 * l.length) :
    (l.flatMap fun b => [b.toNat % 16, b.toNat / 16]).getD i 0 = (l.getD (i / 2) 0).toNat / 16 ^ (i % 2) % 16 := by
  induction l generalizing i with
  | nil => simp at hi
  | cons b l ih =>
    rw [List.flatMap_cons]
    rcases i with _ | _ | i
    · simp
    · have hb : b.toNat / 16 < 16 := by have := b.isLt; omega
      simp [Nat.mod_eq_of_lt hb]
    · have hdiv : (i + 2) / 2 = i / 2 + 1 := by omega
      have hmod : (i + 2) % 2 = i % 2 := by omega
      rw [hdiv, hmod, List.getD_cons_succ, ← ih i (by rw [List.length_cons] at hi; omega)]
      rfl

/-- The value of an element of an array in memory. -/
def memElem (m : Mem) (a bits i : Nat) : Nat :=
  if bits = 4 then (m.read (a + i / 2)).toNat / 16 ^ (i % 2) % 16 else natOfBytes (m.readBytes (a + i * (bits / 8)) (bits / 8))

theorem memElems_length (m : Mem) (a bits count : Nat) (h : bits = 4 → count % 2 = 0) : (memElems m a bits count).length = count := by
  rw [memElems]
  split
  · have hdense (n a : Nat) (m : Mem) : (Mem.denseFrom n a m).length = n := by
      induction n generalizing a m with
      | zero => rfl
      | succ n ih =>
        cases m with
        | nil => rw [Mem.denseFrom, List.length_cons, ih]
        | cons p t => rw [Mem.denseFrom]; split <;> rw [List.length_cons, ih]
    have := h ‹_›
    simp [Mem.dense, hdense]
    omega
  · exact groupBytes_length ..

theorem memElems_getD (hm : m.wf = true) {bits count i : Nat} (h8 : bits = 4 ∨ bits % 8 = 0) (hi : i < count) (h4 : count % 2 = 0) :
    (memElems m a bits count).getD i 0 = memElem m a bits i := by
  rw [memElems, memElem]
  split
  · rw [dense_eq hm, nibbles_getD _ _ (by rw [readBytes_length]; omega), readBytes_getD _ _ _ _ (by omega)]
  · have hcount : count * bits / 8 = count * (bits / 8) := Nat.mul_div_assoc _ (Nat.dvd_of_mod_eq_zero (by omega))
    rw [dense_eq hm, hcount, groupBytes_readBytes _ _ _ _ _ hi]

theorem memElems_eq (hm : m.wf = true) {bits count : Nat} (h8 : bits = 4 ∨ bits % 8 = 0) (h4 : count % 2 = 0) :
    memElems m a bits count = (List.range count).map (memElem m a bits) := by
  have hlen := memElems_length m a bits count fun _ => h4
  refine List.ext_getElem (by simpa using hlen) fun i hi _ => ?_
  have h := memElems_getD (a := a) hm h8 (hlen ▸ hi) h4
  rw [List.getD_eq_getElem _ _ hi] at h
  simpa using h

end bytes

section poison

/-- Some byte of a range lies in a granule that reads as poisoned. -/
theorem rangePois_iff (t : Tile) (a n : Nat) : t.rangePois a n = true ↔ ∃ x < n, t.granPois (a + x) = true := by
  have hgran (x y : Nat) (h : x / 64 = y / 64) : t.granPois x = t.granPois y := by rw [Tile.granPois, Tile.granPois, h]
  simp only [Tile.rangePois, Bool.and_eq_true, bne_iff_ne, List.any_eq_true, List.mem_range]
  constructor
  · rintro ⟨hn, i, hi, hp⟩
    by_cases h0 : i = 0
    · exact ⟨0, Nat.pos_of_ne_zero hn, by rw [hgran _ ((a / 64 + i) * 64) (by omega)]; exact hp⟩
    · exact ⟨(a / 64 + i) * 64 - a, by omega, by rw [hgran _ ((a / 64 + i) * 64) (by omega)]; exact hp⟩
  · rintro ⟨x, hx, hp⟩
    exact ⟨by omega, (a + x) / 64 - a / 64, by omega, by rw [hgran _ (a + x) (by omega)]; exact hp⟩

end poison

section accumulators

/-- The entry that an accumulator keeps of an element: none of a zero. -/
def accEntry (p : Nat × Nat) : Option (Nat × BitVec 32) := if p.1 % 2 ^ 32 = 0 then none else some (p.2, BitVec.ofNat 32 p.1)

theorem find_accEntries (l : List Nat) : ∀ k i, AMap.getD ((l.zipIdx k).filterMap accEntry) i 0
    = if k ≤ i then BitVec.ofNat 32 (l.getD (i - k) 0) else 0 := by
  induction l with
  | nil => intro k i; simp [AMap.getD]
  | cons x l ih =>
    intro k i
    have hrest : (if k + 1 ≤ i then BitVec.ofNat 32 (l.getD (i - (k + 1)) 0) else 0)
        = if i = k then 0 else if k ≤ i then BitVec.ofNat 32 ((x :: l).getD (i - k) 0) else 0 := by
      by_cases hle : k + 1 ≤ i
      · rw [if_pos hle, if_neg (by omega), if_pos (by omega), show i - k = i - (k + 1) + 1 by omega, List.getD_cons_succ]
      · rw [if_neg hle]
        by_cases hik : i = k
        · rw [if_pos hik]
        · rw [if_neg hik, if_neg (by omega)]
    have hself : i = k → (if k ≤ i then BitVec.ofNat 32 ((x :: l).getD (i - k) 0) else 0) = BitVec.ofNat 32 x := by
      rintro rfl
      simp
    rw [List.zipIdx_cons]
    by_cases hx : x % 2 ^ 32 = 0
    · have h0 : BitVec.ofNat 32 x = 0 := BitVec.eq_of_toNat_eq (by rw [BitVec.toNat_ofNat, hx]; rfl)
      rw [List.filterMap_cons_none (f := accEntry) (a := (x, k)) (if_pos hx), ih, hrest]
      split
      · rw [hself ‹_›, h0]
      · rfl
    · rw [List.filterMap_cons_some (f := accEntry) (a := (x, k)) (if_neg hx), AMap.getD, AMap.find]
      split
      · rw [hself ‹_›]; rfl
      · exact (ih (k + 1) i).trans (hrest.trans (if_neg ‹_›))

theorem accElems_getD (l : List Nat) (i : Nat) : ((accElems l).getD i 0).toNat = l.getD i 0 % 2 ^ 32 := by
  have h := find_accEntries l 0 i
  rw [if_pos (Nat.zero_le i), Nat.sub_zero] at h
  rw [show accElems l = l.zipIdx.filterMap accEntry from rfl, h, BitVec.toNat_ofNat]

theorem accDense_getD (x : Acc) {i : Nat} (hi : i < 4096) : x.dense.getD i 0 = (x.elems.getD i 0).toNat := by
  simp [Acc.dense, Array.getD, hi]

end accumulators

end Sys2Proof.Machine
end

