-- ==== Sys2Proof/Proofs/MatrixElements.lean ====
section
/-! SUPPORT. One addition of the matrix engine, the chain of a chunked product, the operands in memory, and the accumulators as
results (R94, R95, R104, R178, R183, R184, R187, R189). -/

namespace Sys2Proof.Machine

section addition

variable {f : Fmt}

/-- A sum finds a condition where a term does, or where both infinities stand and no NaN (R104). -/
theorem sumF_inv (rdn : Bool) (l : List FRes) :
    ((sumF rdn l).inv || ((l.any fun x => x.val == .inf false) && l.any fun x => x.val == .inf true))
      = (l.any FRes.inv || ((l.any fun x => x.val == .inf false) && l.any fun x => x.val == .inf true)) := by
  have hany (b : Bool) : ((l.map FRes.val).any fun x => x == .inf b) = l.any fun x => x.val == .inf b := by
    rw [List.any_map]; rfl
  simp only [sumF, hany]
  split
  · rfl
  · split
    · simp [*]
    · split
      · rfl
      · split
        · rfl
        · split <;> rfl

/-- One addition: rounded once to nearest even, invalid as well for both infinities (R104, R189). -/
theorem mxSum_eq (l : List FRes) :
    let r := f.round .rne false 0 (sumF false l).val
    mxSum f l = (r.1, { r.2 with
      invalid := r.2.invalid || l.any FRes.inv || decide ((∃ x ∈ l, x.val = .inf false) ∧ ∃ x ∈ l, x.val = .inf true) }) := by
  intro r
  have hboth : ((l.any fun x => x.val == .inf false) && l.any fun x => x.val == .inf true)
      = decide ((∃ x ∈ l, x.val = .inf false) ∧ ∃ x ∈ l, x.val = .inf true) := by
    rw [Bool.eq_iff_iff]; simp
  rw [mxSum, FRes.round, sumF_inv, hboth, Bool.or_assoc]
  simp [Flags.or, r]

/-- What a rounding to a wide format leaves fits its width. -/
theorem round_lt (hf : WideFmt f) (hnan : f.nanBits < 2 ^ (f.ew + f.mw + 1)) (mode : Mode) (sat : Bool) (n : Nat) (x : FVal) :
    (f.round mode sat n x).1 < 2 ^ (f.ew + f.mw + 1) := by
  rcases round_bits (mode := mode) (n := n) hf sat x with h | ⟨neg, mag, hmag, h⟩ <;> rw [h]
  · exact hnan
  · have hsign : f.signBit neg ≤ 2 ^ (f.ew + f.mw) := by cases neg <;> simp [Fmt.signBit]
    have hfits := hf.fits
    rw [Nat.pow_succ]
    omega

/-- The format of the accumulators, and its width (R178). -/
def accFmt (pair : Bool) : Fmt := if pair then fmt64 else fmt32

def accWidth (pair : Bool) : Nat := if pair then 64 else 32

theorem round_accFmt_lt (pair : Bool) (mode : Mode) (sat : Bool) (n : Nat) (x : FVal) :
    ((accFmt pair).round mode sat n x).1 < 2 ^ accWidth pair := by
  cases pair
  · exact round_lt wideFmt32 (by decide) mode sat n x
  · exact round_lt wideFmt64 (by decide) mode sat n x

theorem mxSum_lt (pair : Bool) (l : List FRes) : (mxSum (accFmt pair) l).1 < 2 ^ accWidth pair := by
  rw [mxSum_eq]
  exact round_accFmt_lt ..

end addition

section chain

variable {f : Fmt} {neg : Bool} {chunk : Nat} {ai bj : Nat → FVal}

/-- The rounded sum of the products of chunk x. -/
def chunkSum (f : Fmt) (neg : Bool) (chunk : Nat) (ai bj : Nat → FVal) (x : Nat) : Nat × Flags :=
  mxSum f ((List.range chunk).map fun k =>
    let a := ai (x * chunk + k)
    (quietTerm (if neg then a.neg else a)).mul (quietTerm (bj (x * chunk + k))))

/-- The accumulator after x chunks, with the flags of its last addition. -/
def chunkAcc (f : Fmt) (part : Nat → Nat × Flags) (start : Nat) : Nat → Nat × Flags
  | 0 => (start, Flags.none)
  | x + 1 => mxSum f [quietTerm (f.decode (chunkAcc f part start x).1), quietTerm (f.decode (part x).1)]

/-- One element over its chunks: its value, and the flags of every sum in order (R104, R187). -/
theorem mxElem_eq (start : Nat) (n : Nat) : ∀ (c : Nat) (fl : Flags),
    let part := chunkSum f neg chunk ai bj
    let acc := chunkAcc f part start
    mxElem f neg chunk ai bj n c ((acc c).1, fl)
      = ((acc (c + n)).1, fl.or (Flags.all ((List.range' c n).flatMap fun x => [(part x).2, (acc (x + 1)).2]))) := by
  induction n with
  | zero =>
    intro c fl part acc
    exact Prod.ext rfl (flags_none_or fl).symm
  | succ n ih =>
    intro c fl part acc
    have hrec := ih (c + 1) (fl.or ((part c).2.or (acc (c + 1)).2))
    rw [List.range'_succ, List.flatMap_cons, flags_all_append, flags_all_cons, flags_all_cons, ← flags_or_assoc,
      show c + (n + 1) = c + 1 + n by omega]
    refine Eq.trans ?_ (hrec.trans ?_)
    · rw [mxElem]; rfl
    · rw [show Flags.all [] = Flags.none from rfl, flags_none_or]

theorem chunkSum_congr {ai' bj' : Nat → FVal} {x : Nat}
    (h : ∀ k < chunk, ai (x * chunk + k) = ai' (x * chunk + k) ∧ bj (x * chunk + k) = bj' (x * chunk + k)) :
    chunkSum f neg chunk ai bj x = chunkSum f neg chunk ai' bj' x := by
  refine congrArg (mxSum f) (List.map_congr_left fun k hk => ?_)
  obtain ⟨ha, hb⟩ := h k (List.mem_range.mp hk)
  rw [ha, hb]

/-- An element depends on the operands of its chunks alone. -/
theorem mxElem_congr {ai' bj' : Nat → FVal} (n : Nat) : ∀ (c : Nat) (acc : Nat × Flags),
    (∀ k < (c + n) * chunk, ai k = ai' k ∧ bj k = bj' k) →
    mxElem f neg chunk ai bj n c acc = mxElem f neg chunk ai' bj' n c acc := by
  induction n with
  | zero => exact fun _ _ _ => rfl
  | succ n ih =>
    intro c acc h
    have hchunk : chunkSum f neg chunk ai bj c = chunkSum f neg chunk ai' bj' c := chunkSum_congr fun k hk => by
      refine h _ ?_
      rw [Nat.add_mul, Nat.succ_mul]
      omega
    rw [mxElem, mxElem]
    change (let r := mxSum f [quietTerm (f.decode acc.1), quietTerm (f.decode (chunkSum f neg chunk ai bj c).1)]
      mxElem f neg chunk ai bj n (c + 1) (r.1, acc.2.or ((chunkSum f neg chunk ai bj c).2.or r.2))) = _
    rw [hchunk]
    exact ih _ _ fun k hk => h k (by rwa [show c + (n + 1) = c + 1 + n by omega])

end chain

section operands

variable {m : Mem}

theorem toArray_getD {α : Type} (l : List α) (i : Nat) (d : α) : l.toArray.getD i d = l.getD i d := by
  simp [Array.getD_eq_getD_getElem?, List.getD_eq_getElem?_getD]

/-- An operand element as stored, with its scale record (R183, R184, R187). -/
theorem mxOperand_getD (hm : m.wf = true) {code a plane k i : Nat} (hcode : code ≤ 9) (hk : mxScale code ≠ 0 → k % 32 = 0)
    (hi : i < 64 * k) (d : FVal) :
    (mxOperand m code a plane k).getD i d = mxDecodeElem code (memElem m a (mxBits code) i)
      (natOfBytes (m.readBytes (plane + mxScale code * (i / 32)) (mxScale code))) := by
  have hbits : mxBits code = 4 ∨ mxBits code % 8 = 0 := by interval_cases code <;> decide
  have hlen : (memElems m a (mxBits code) (64 * k)).length = 64 * k := memElems_length _ _ _ _ fun _ => by omega
  have helem := memElems_getD (a := a) hm hbits hi (by omega)
  have hscale : (memElems m plane (8 * mxScale code) (if mxScale code = 0 then 0 else 64 * (k / 32))).getD (i / 32) 0
      = natOfBytes (m.readBytes (plane + mxScale code * (i / 32)) (mxScale code)) := by
    by_cases h0 : mxScale code = 0
    · rw [if_pos h0, h0]; rfl
    · have hk0 := hk h0
      have h4 : 8 * mxScale code ≠ 4 := by omega
      rw [if_neg h0, memElems_getD hm (.inr (Nat.mul_mod_right _ _)) (by omega) (by omega), memElem, if_neg h4,
        Nat.mul_div_cancel_left _ (by decide), Nat.mul_comm]
  rw [← helem, ← hscale, mxOperand, toArray_getD]
  simp [List.getD_eq_getElem?_getD, hlen, hi]

end operands

section results

variable {pair : Bool}

/-- An element of an accumulator or of a pair (R178). -/
def accHeld (pair : Bool) (lo hi : Acc) (m : Nat) : Nat :=
  (lo.elems.getD m 0).toNat + if pair then 2 ^ 32 * (hi.elems.getD m 0).toNat else 0

theorem accHeld_lt (lo hi : Acc) (m : Nat) : accHeld pair lo hi m < 2 ^ accWidth pair := by
  have hlo := (lo.elems.getD m 0).isLt
  have hhi := (hi.elems.getD m 0).isLt
  cases pair <;> simp only [accHeld, accWidth, if_true, Bool.false_eq_true, if_false] <;> omega

theorem accValues_getD (lo hi : Acc) {m : Nat} (hm : m < 4096) : (accValues pair lo hi).getD m 0 = accHeld pair lo hi m := by
  have hl := accDense_getD lo hm
  have hh := accDense_getD hi hm
  cases pair
  · simpa [accValues, accHeld] using hl
  · simp [accValues, accHeld, Acc.dense, Array.getD, hm]

theorem accValues_eq (lo hi : Acc) : (accValues pair lo hi).toList = (List.range 4096).map (accHeld pair lo hi) := by
  cases pair
  · simp [accValues, accHeld, Acc.dense]
  · simp [accValues, accHeld, Acc.dense, List.zip_map', Function.comp_def]

/-- The accumulators that a command leaves hold its values, its row flags and its flags (R178). -/
theorem accResult_holds {vals : List Nat} (hv : ∀ m, vals.getD m 0 < 2 ^ accWidth pair) (pois : BitVec 64) (fl : BitVec 5) :
    let r := accResult pair vals pois fl
    r.length = (if pair then 2 else 1)
      ∧ (∀ m, accHeld pair (r.getD 0 Acc.zero) (r.getD 1 Acc.zero) m = vals.getD m 0)
      ∧ ∀ x ∈ r, x.xflags = fl ∧ x.pois = pois := by
  intro r
  cases pair
  · refine ⟨rfl, fun m => ?_, fun x hx => ?_⟩
    · exact (accElems_getD vals m).trans (Nat.mod_eq_of_lt (hv m))
    · rw [List.mem_singleton.mp hx]; exact ⟨rfl, rfl⟩
  · have hmap (g : Nat → Nat) (hg : g 0 = 0) (m : Nat) : (vals.map g).getD m 0 = g (vals.getD m 0) := by
      rw [List.getD_eq_getElem?_getD, List.getElem?_map, List.getD_eq_getElem?_getD]
      cases vals[m]? <;> simp [hg]
    refine ⟨rfl, fun m => ?_, fun x hx => ?_⟩
    · have hlo := accElems_getD (vals.map (· % 2 ^ 32)) m
      have hhi := accElems_getD (vals.map (· / 2 ^ 32)) m
      rw [hmap _ (by decide)] at hlo hhi
      have hlt : vals.getD m 0 < 2 ^ 64 := hv m
      calc accHeld true (r.getD 0 Acc.zero) (r.getD 1 Acc.zero) m
          = vals.getD m 0 % 2 ^ 32 % 2 ^ 32 + 2 ^ 32 * (vals.getD m 0 / 2 ^ 32 % 2 ^ 32) := congrArg₂ (· + 2 ^ 32 * ·) hlo hhi
        _ = vals.getD m 0 := by omega
    · rcases List.mem_pair.mp hx with rfl | rfl <;> exact ⟨rfl, rfl⟩

/-- What the accumulators of a command hold: the values, the rows that are poisoned, and the flags. -/
def MxHolds (pair : Bool) (r : List Acc) (v : Nat → Nat) (rows : Nat → Prop) (fl : BitVec 5) : Prop :=
  r.length = (if pair then 2 else 1)
    ∧ (∀ m < 4096, accHeld pair (r.getD 0 Acc.zero) (r.getD 1 Acc.zero) m = v m)
    ∧ ∀ x ∈ r, x.xflags = fl ∧ ∀ i < 64, x.pois.getLsbD i = true ↔ rows i

theorem mapRange_getD (g : Nat → Nat) (n m : Nat) : ((List.range n).map g).getD m 0 = if m < n then g m else 0 := by
  by_cases h : m < n <;> simp [List.getD_eq_getElem?_getD, h]

/-- The results of a command, element by element. -/
theorem accResult_mxHolds {v : Nat → Nat} (hv : ∀ m < 4096, v m < 2 ^ accWidth pair) {pois : BitVec 64} {rows : Nat → Prop}
    (hrows : ∀ i < 64, pois.getLsbD i = true ↔ rows i) (fl : BitVec 5) :
    MxHolds pair (accResult pair ((List.range 4096).map v) pois fl) v rows fl := by
  have hlt (m : Nat) : ((List.range 4096).map v).getD m 0 < 2 ^ accWidth pair := by
    rw [mapRange_getD]
    split
    · exact hv m ‹_›
    · exact Nat.two_pow_pos _
  obtain ⟨hlen, hval, hx⟩ := accResult_holds hlt pois fl
  refine ⟨hlen, fun m hm => ?_, fun x hmem => ?_⟩
  · rw [hval, mapRange_getD, if_pos hm]
  · obtain ⟨hfl, hp⟩ := hx x hmem
    exact ⟨hfl, fun i hi => by rw [hp]; exact hrows i hi⟩

theorem pairRows_iff (lo hi : Acc) (i : Nat) : (pairRows pair lo hi).getLsbD i = true
    ↔ lo.pois.getLsbD i = true ∨ (pair = true ∧ hi.pois.getLsbD i = true) := by
  cases pair <;> simp [-BitVec.getLsbD_eq_getElem, pairRows]

theorem flags_all_flatMap {α : Type} (g : α → List Flags) (l : List α) :
    Flags.all (l.map fun x => Flags.all (g x)) = Flags.all (l.flatMap g) := by
  induction l with
  | nil => rfl
  | cons x l ih => rw [List.map_cons, flags_all_cons, List.flatMap_cons, flags_all_append, ih]

theorem zipIdx_mapRange (g : Nat → Nat) (n : Nat) : ((List.range n).map g).zipIdx = (List.range n).map fun m => (g m, m) := by
  refine List.ext_getElem (by simp) fun i _ _ => by simp

end results

end Sys2Proof.Machine
end

