-- ==== Sys2Proof/Proofs/MatrixValues.lean ====
section
/-! PROOF. The values, the row poison and the flags of the matrix commands (R93 to R95, R104, R178, R180, R183, R184, R187, R189,
R192 to R194). -/

namespace Sys2Proof.Machine

section sums

variable {t : Tile} {q : MxCmd}

/-- MACC adds two accumulators (R194). -/
theorem maccResult_holds (t : Tile) (q : MxCmd) :
    let f := accFmt q.pair
    let held (a m : Nat) := accHeld q.pair (t.acc a) (t.acc (a + 1)) m
    let marked (a i : Nat) : Prop :=
      (t.acc a).pois.getLsbD i = true ∨ (q.pair = true ∧ (t.acc (a + 1)).pois.getLsbD i = true)
    let r (m : Nat) := mxSum f [quietTerm (f.decode (held q.n m)), quietTerm (f.decode (held q.src m))]
    MxHolds q.pair (maccResult t q) (fun m => (r m).1) (fun i => marked q.n i ∨ marked q.src i)
      (Flags.all ((List.range 4096).map fun m => (r m).2)).bits := by
  intro f held marked r
  have hr : ((List.range 4096).map fun m => mxSum f [quietTerm (f.decode ((accValues q.pair (t.acc q.n) (t.acc (q.n + 1))).getD m 0)),
      quietTerm (f.decode ((accValues q.pair (t.acc q.src) (t.acc (q.src + 1))).getD m 0))]) = (List.range 4096).map r :=
    List.map_congr_left fun m hm => by
      rw [accValues_getD _ _ (List.mem_range.mp hm), accValues_getD _ _ (List.mem_range.mp hm)]
  have hres : maccResult t q = accResult q.pair (((List.range 4096).map r).map Prod.fst)
      (pairRows q.pair (t.acc q.n) (t.acc (q.n + 1)) ||| pairRows q.pair (t.acc q.src) (t.acc (q.src + 1)))
      (Flags.all (((List.range 4096).map r).map Prod.snd)).bits := by
    rw [← hr]; rfl
  rw [hres, List.map_map, List.map_map]
  refine accResult_mxHolds (v := Prod.fst ∘ r) (fun m _ => mxSum_lt q.pair _) (fun i _ => ?_) _
  rw [BitVec.getLsbD_or, Bool.or_eq_true, pairRows_iff, pairRows_iff]

end sums

section memory

variable {t : Tile} {q : MxCmd} {fo : Fmt} {sz : Nat}

/-- The formats of MLD and MST with their sizes in memory (R179). -/
def memFormats : List (Fmt × Nat) :=
  [(fmt32, 4), (fmtBf16, 2), (fmtF16, 2), (fmtE4m3, 1), (fmtE5m2, 1), (fmt64, 8)]

theorem memFormat {code : Nat} (h : memFormats[code]? = some (fo, sz)) :
    ofmtFmt code = fo ∧ ofmtSize code = sz := by
  have hcode : code < 6 := (List.getElem?_eq_some_iff.mp h).1
  interval_cases code <;> simp [memFormats] at h <;> obtain ⟨rfl, rfl⟩ := h <;> exact ⟨rfl, rfl⟩

/-- The rows of a result that a run of tests marks. -/
theorem markedRows (c : Nat → Bool) (p : BitVec 64) {i : Nat} (hi : i < 64) :
    ((List.range 64).foldl (fun (p : BitVec 64) i => if c i then p ||| BitVec.twoPow 64 i else p) p).getLsbD i = true
      ↔ p.getLsbD i = true ∨ c i = true := by
  rw [getLsbD_foldl_or c (fun i => i) hi]
  simp [hi]

theorem memFormat_fits {code : Nat} {pair : Bool}
    (h : memFormats[code]? = some (fo, sz)) (hf : fo = accFmt pair) :
    8 * sz ≤ accWidth pair := by
  have hcode : code < 6 := (List.getElem?_eq_some_iff.mp h).1
  interval_cases code <;> simp [memFormats] at h <;> obtain ⟨rfl, rfl⟩ := h <;> revert hf <;> cases pair <;> decide

/-- MLD widens the elements in memory (R192). -/
theorem mldResult_holds (ht : t.sram.wf = true) (hpair : q.pair = q.cfg.getLsbD 24)
    (h : memFormats[fld q.cfg 31 28]? = some (fo, sz)) :
    let f := accFmt q.pair
    let base := ptrOff q.pa
    MxHolds q.pair (mldResult t q)
      (fun m =>
        let x := natOfBytes (t.sram.readBytes (base + sz * m) sz)
        if fo = f then x else (f.round .rne false 0 (fo.decode x)).1)
      (fun i => ∃ x < 64 * sz, t.granPois (base + i * (64 * sz) + x) = true) 0 := by
  intro f base
  obtain ⟨hfo, hsz⟩ := memFormat h
  have helem (m : Nat) : memElem t.sram base (8 * sz) m = natOfBytes (t.sram.readBytes (base + sz * m) sz) := by
    rw [memElem, if_neg (by omega), Nat.mul_div_cancel_left _ (by decide), Nat.mul_comm]
  have hxs : (memElems t.sram base (8 * sz) 4096).map (fun x => if f == fo then x else (f.round .rne false 0 (fo.decode x)).1)
      = (List.range 4096).map fun m =>
        let x := natOfBytes (t.sram.readBytes (base + sz * m) sz)
        if fo = f then x else (f.round .rne false 0 (fo.decode x)).1 := by
    rw [memElems_eq ht (.inr (Nat.mul_mod_right 8 sz)) (by decide), List.map_map]
    refine List.map_congr_left fun m _ => ?_
    simp only [Function.comp_apply, helem, beq_iff_eq, eq_comm (a := f)]
  have hres : mldResult t q = accResult q.pair
      ((memElems t.sram base (8 * sz) 4096).map fun x => if f == fo then x else (f.round .rne false 0 (fo.decode x)).1)
      ((List.range 64).foldl (fun (p : BitVec 64) i =>
        if t.rangePois (base + i * 64 * sz) (64 * sz) then p ||| BitVec.twoPow 64 i else p) 0) 0 := by
    have hp : q.pair = (MxCfg.of q.cfg).pair := hpair
    simp only [f]
    rw [← hfo, ← hsz, hp]
    rfl
  rw [hres, hxs]
  refine accResult_mxHolds (fun m _ => ?_) (fun i hi => ?_) 0
  · dsimp only
    split
    · have hx := natOfBytes_lt (t.sram.readBytes (base + sz * m) sz)
      rw [readBytes_length] at hx
      exact hx.trans_le (Nat.pow_le_pow_right two_pos (memFormat_fits h ‹_›))
    · exact round_accFmt_lt ..
  · rw [markedRows _ _ hi, rangePois_iff, Nat.mul_assoc]
    simp

/-- The rounding mode of MST (R193). -/
def mstMode (q : MxCmd) : Mode :=
  match (MxCfg.of q.cfg).rm with
  | 0 => Mode.rne
  | 1 => Mode.rtz
  | 2 => Mode.sr
  | _ => Mode.ofCode q.rmode

theorem mstMode_eq (q : MxCmd) : mstMode q = [Mode.rne, .rtz, .sr].getD (fld q.cfg 33 32) (Mode.ofCode q.rmode) := by
  change (match fld q.cfg 33 32 with | 0 => Mode.rne | 1 => Mode.rtz | 2 => Mode.sr | _ => Mode.ofCode q.rmode) = _
  rcases fld q.cfg 33 32 with _ | _ | _ | _ <;> rfl

/-- What MST makes of one element. -/
def mstConv (mode : Mode) (f fo : Fmt) (sat : Bool) (x n : Nat) : Nat × Flags :=
  if f = fo then (x, Flags.none) else fo.round mode (sat && !fo.hasSig) n (f.decode x)

theorem mstElems_eq (t : Tile) (q : MxCmd) (hpair : q.pair = q.cfg.getLsbD 24) :
    (mstElems t q).2 = (mapSeed (mstMode q == .sr)
      (mstConv (mstMode q) (accFmt q.pair) (ofmtFmt (MxCfg.of q.cfg).ofmt) (MxCfg.of q.cfg).sat)
      (accValues q.pair (t.acc q.n) (t.acc (q.n + 1))).toList q.seed).2.1 := by
  rw [show q.pair = (MxCfg.of q.cfg).pair from hpair]
  rfl

theorem mstConv_flags (mode : Mode) (f fo : Fmt) (sat : Bool) (x n : Nat) : (mstConv mode f fo sat x n).2
    = if fo = f then Flags.none else (fo.round mode (sat && !fo.hasSig) n (f.decode x)).2 := by
  rw [mstConv, if_congr (eq_comm (a := f)) rfl rfl]
  split <;> rfl

/-- The 8-bit formats are those that saturate (R193). -/
theorem memFormat_small {code : Nat}
    (h : memFormats[code]? = some (fo, sz)) :
    (!fo.hasSig) = (fo == fmtE4m3 || fo == fmtE5m2) := by
  have hcode : code < 6 := (List.getElem?_eq_some_iff.mp h).1
  interval_cases code <;> simp [memFormats] at h <;> obtain ⟨rfl, rfl⟩ := h <;> rfl

/-- The flags of the elements that MST converts, each with its own draw (R193). -/
theorem mstElems_flags (t : Tile) (q : MxCmd) (hpair : q.pair = q.cfg.getLsbD 24) :
    let mode := [Mode.rne, .rtz, .sr].getD (fld q.cfg 33 32) (Mode.ofCode q.rmode)
    (mstElems t q).2 = Flags.all ((List.range 4096).map fun m =>
      (mstConv mode (accFmt q.pair) (ofmtFmt (MxCfg.of q.cfg).ofmt) (MxCfg.of q.cfg).sat
        (accHeld q.pair (t.acc q.n) (t.acc (q.n + 1)) m) (drawn mode q.seed m)).2) := by
  intro mode
  rw [mstElems_eq t q hpair, mapSeed_eq, accValues_eq, zipIdx_mapRange, mstMode_eq]
  simp only [List.map_map, Function.comp_def, mode]

/-- The granules that an MST's next 128 bytes poison (R193). -/
theorem mstWrite_granPois (t : Tile) (q : MxCmd) (h : t.armedFor (t.mstDest q) 26 (ptrTag q.pa) = true) (a : Nat) :
    let sz := ofmtSize (MxCfg.of q.cfg).ofmt
    (t.mstWrite q).granPois a = true ↔ t.granPois a = true ∨ ∃ g < 2, a / 64 = (ptrOff q.pa + 128 * q.pieces) / 64 + g
      ∧ (pairRows q.pair (t.acc q.n) (t.acc (q.n + 1))).getLsbD ((128 * q.pieces + 64 * g) / (64 * sz)) = true := by
  intro sz
  let grans := (List.range 2).filter fun g =>
    (pairRows q.pair (t.acc q.n) (t.acc (q.n + 1))).getLsbD ((128 * q.pieces + 64 * g) / (64 * sz))
  have hpois : (t.mstWrite q).pois
      = (grans.map fun g => (ptrOff q.pa + 128 * q.pieces) / 64 + g).foldl (fun l g => insNat g l) t.pois := by
    rw [Tile.mstWrite, if_pos h]; rfl
  have hfail : (t.mstWrite q).failing = t.failing := by rw [Tile.mstWrite, if_pos h]; rfl
  have hgrans (x : Nat) : (∃ y ∈ grans.map fun g => (ptrOff q.pa + 128 * q.pieces) / 64 + g, y = x) ↔ ∃ g < 2,
      x = (ptrOff q.pa + 128 * q.pieces) / 64 + g
      ∧ (pairRows q.pair (t.acc q.n) (t.acc (q.n + 1))).getLsbD ((128 * q.pieces + 64 * g) / (64 * sz)) = true := by
    simp only [grans, List.mem_map, List.mem_filter, List.mem_range]
    constructor
    · rintro ⟨_, ⟨g, ⟨hg, hr⟩, rfl⟩, rfl⟩
      exact ⟨g, hg, rfl, hr⟩
    · rintro ⟨g, hg, rfl, hr⟩
      exact ⟨_, ⟨g, ⟨hg, hr⟩, rfl⟩, rfl⟩
  simp only [Tile.granPois, hpois, hfail, Bool.or_eq_true, List.contains_iff_mem, mem_foldl_insNat_map (fun g => g), hgrans]
  exact or_right_comm

/-- One accumulator replaced. -/
theorem acc_setAccs_one (t : Tile) (n m : Nat) (x : Acc) (hm : m < 4) : (t.setAccs n [x]).acc m = if m = n then x else t.acc m := by
  by_cases h : m = n
  · subst h
    simp [Tile.setAccs, Tile.acc, Vector.getD, hm]
  · simp [Tile.setAccs, Tile.acc, Vector.getD, hm, h, Ne.symm h]

theorem mxFinish_xflags (t : Tile) (h : q.f6 = 2) {a : Nat} (ha : a < 4) :
    ((t.mxFinish q).acc a).xflags = if a = q.n ∨ (q.pair = true ∧ a = q.n + 1) then (t.acc a).xflags ||| (mstElems t q).2.bits
      else (t.acc a).xflags := by
  let fl := (mstElems t q).2.bits
  let add (t : Tile) (n : Nat) : Tile := t.setAccs n [{ t.acc n with xflags := (t.acc n).xflags ||| fl }]
  have hadd (u : Tile) (n : Nat) : ((add u n).acc a).xflags = if a = n then (u.acc a).xflags ||| fl else (u.acc a).xflags := by
    rw [acc_setAccs_one _ _ _ _ ha]
    by_cases hn : a = n
    · rw [if_pos hn, if_pos hn, hn]
    · rw [if_neg hn, if_neg hn]
  have hfin : t.mxFinish q = if q.pair then add (add (t.dropMx q) q.n) (q.n + 1) else add (t.dropMx q) q.n := by
    rw [Tile.mxFinish, if_neg (by omega), if_pos h]; rfl
  have hdrop : (t.dropMx q).acc a = t.acc a := rfl
  rw [hfin]
  cases hp : q.pair
  · rw [if_neg Bool.false_ne_true, hadd, hdrop]
    simp [fl]
  · rw [if_pos rfl, hadd, hadd, hdrop]
    by_cases h0 : a = q.n
    · simp [h0, fl]
    · simp [h0, fl]

end memory

section products

variable {t : Tile} {q : MxCmd}

/-- Element i of an operand as stored, decoded with its scale record. -/
def mxStored (m : Mem) (code base plane i : Nat) : FVal :=
  mxDecodeElem code (memElem m base (mxBits code) i) (natOfBytes (m.readBytes (plane + mxScale code * (i / 32)) (mxScale code)))

/-- A'(i, k) of a command (R183, R187). -/
def mmaA (t : Tile) (q : MxCmd) (i k : Nat) : FVal :=
  mxStored t.sram (fld q.cfg 19 16) (ptrOff q.pa) (ptrOff q.sa) (i * fld q.cfg 15 0 + k)

/-- B'(k, j) of a command (R183, R187). -/
def mmaB (t : Tile) (q : MxCmd) (k j : Nat) : FVal :=
  mxStored t.sram (fld q.cfg 23 20) (ptrOff q.pb) (ptrOff q.sb) (if q.f6 = 4 then j * fld q.cfg 15 0 + k else k * 64 + j)

/-- The rounded sum of chunk x of element m. -/
def mmaPart (t : Tile) (q : MxCmd) (m x : Nat) : Nat × Flags :=
  chunkSum (accFmt q.pair) (q.f6 == 5) (mxChunk (fld q.cfg 19 16)) (mmaA t q (m / 64)) (fun k => mmaB t q k (m % 64)) x

/-- Element m after x chunks. -/
def mmaAcc (t : Tile) (q : MxCmd) (m : Nat) : Nat → Nat × Flags :=
  chunkAcc (accFmt q.pair) (mmaPart t q m) (if q.z then 0 else accHeld q.pair (t.acc q.n) (t.acc (q.n + 1)) m)

/-- The rows that an MMA-family command leaves poisoned (R189). -/
def mmaRows (t : Tile) (q : MxCmd) (i : Nat) : Prop :=
  let K := fld q.cfg 15 0
  let bits := mxBits (fld q.cfg 19 16)
  let group := mxScale (fld q.cfg 19 16)
  let anyPois (a n : Nat) : Prop := ∃ x < n, t.granPois (a + x) = true
  (q.z = false ∧ ((t.acc q.n).pois.getLsbD i = true ∨ (q.pair = true ∧ (t.acc (q.n + 1)).pois.getLsbD i = true)))
    ∨ anyPois (ptrOff q.pa + i * (K * bits / 8)) (K * bits / 8) ∨ anyPois (ptrOff q.sa + i * (group * (K / 32))) (group * (K / 32))
    ∨ anyPois (ptrOff q.pb) (64 * K * mxBits (fld q.cfg 23 20) / 8)
    ∨ anyPois (ptrOff q.sb) (64 * mxScale (fld q.cfg 23 20) * (K / 32))

/-- The formats of a command that R181 admits: a scale record goes with whole groups of 32. -/
structure MmaFmts (q : MxCmd) : Prop where
  a : fld q.cfg 19 16 ≤ 9
  b : fld q.cfg 23 20 ≤ 9
  groupsA : mxScale (fld q.cfg 19 16) ≠ 0 → fld q.cfg 15 0 % 32 = 0
  groupsB : mxScale (fld q.cfg 23 20) ≠ 0 → fld q.cfg 15 0 % 32 = 0

theorem mmaElem_eq (ht : t.sram.wf = true) (hf : MmaFmts q) {m : Nat} (hm : m < 4096) (acc : Nat × Flags) :
    let K := fld q.cfg 15 0
    let va := mxOperand t.sram (fld q.cfg 19 16) (ptrOff q.pa) (ptrOff q.sa) K
    let vb := mxOperand t.sram (fld q.cfg 23 20) (ptrOff q.pb) (ptrOff q.sb) K
    let chunk := mxChunk (fld q.cfg 19 16)
    mxElem (accFmt q.pair) (q.f6 == 5) chunk (fun k => va.getD (m / 64 * K + k) (.fin false 0 0))
        (fun k => vb.getD (if q.f6 = 4 then m % 64 * K + k else k * 64 + m % 64) (.fin false 0 0)) (K / chunk) 0 acc
      = mxElem (accFmt q.pair) (q.f6 == 5) chunk (mmaA t q (m / 64)) (fun k => mmaB t q k (m % 64)) (K / chunk) 0 acc := by
  intro K va vb chunk
  refine mxElem_congr _ _ _ fun k hk => ?_
  have hkK : k < K := by
    rw [Nat.zero_add] at hk
    exact hk.trans_le (Nat.div_mul_le_self K chunk)
  have hrow (i : Nat) (hi : i < 64) : i * K + k < 64 * K :=
    calc i * K + k < (i + 1) * K := by rw [Nat.succ_mul]; omega
      _ ≤ 64 * K := Nat.mul_le_mul_right K hi
  refine ⟨mxOperand_getD ht hf.a hf.groupsA (hrow _ (by omega)) _, mxOperand_getD ht hf.b hf.groupsB ?_ _⟩
  split
  · exact hrow _ (by omega)
  · omega

/-- The accumulators that an MMA-family command begins from (R187). -/
def mmaFrom (t : Tile) (q : MxCmd) (a : Nat) : Acc := if q.z then Acc.zero else t.acc a

theorem mmaFrom_held (t : Tile) (q : MxCmd) (m : Nat) : accHeld q.pair (mmaFrom t q q.n) (mmaFrom t q (q.n + 1)) m
    = if q.z then 0 else accHeld q.pair (t.acc q.n) (t.acc (q.n + 1)) m := by
  unfold mmaFrom
  cases q.z with
  | false => rfl
  | true => cases q.pair <;> rfl

/-- An element as the model computes it. -/
def mmaElem (t : Tile) (q : MxCmd) (m : Nat) : Nat × Flags :=
  let K := fld q.cfg 15 0
  let va := mxOperand t.sram (fld q.cfg 19 16) (ptrOff q.pa) (ptrOff q.sa) K
  let vb := mxOperand t.sram (fld q.cfg 23 20) (ptrOff q.pb) (ptrOff q.sb) K
  let chunk := mxChunk (fld q.cfg 19 16)
  mxElem (accFmt q.pair) (q.f6 == 5) chunk (fun k => va.getD (m / 64 * K + k) (.fin false 0 0))
    (fun k => vb.getD (if q.f6 = 4 then m % 64 * K + k else k * 64 + m % 64) (.fin false 0 0)) (K / chunk) 0
    ((accValues q.pair (mmaFrom t q q.n) (mmaFrom t q (q.n + 1))).getD m 0, Flags.none)

theorem mmaElem_value (ht : t.sram.wf = true) (hf : MmaFmts q) {m : Nat} (hm : m < 4096) :
    let n := fld q.cfg 15 0 / mxChunk (fld q.cfg 19 16)
    mmaElem t q m = ((mmaAcc t q m n).1,
      Flags.all ((List.range n).flatMap fun x => [(mmaPart t q m x).2, (mmaAcc t q m (x + 1)).2])) := by
  intro n
  have hchain := mxElem_eq (f := accFmt q.pair) (neg := q.f6 == 5) (chunk := mxChunk (fld q.cfg 19 16)) (ai := mmaA t q (m / 64))
    (bj := fun k => mmaB t q k (m % 64)) (if q.z then 0 else accHeld q.pair (t.acc q.n) (t.acc (q.n + 1)) m) n 0 Flags.none
  dsimp only at hchain
  rw [Nat.zero_add, flags_or_none, ← List.range_eq_range'] at hchain
  rw [mmaElem, mmaElem_eq ht hf hm, accValues_getD _ _ hm, mmaFrom_held]
  exact hchain

/-- The tests that mark a row poisoned (R189). -/
def mmaRowPois (t : Tile) (q : MxCmd) (i : Nat) : Bool :=
  let K := fld q.cfg 15 0
  let rowA := K * mxBits (fld q.cfg 19 16) / 8
  let rowS := mxScale (fld q.cfg 19 16) * (K / 32)
  (t.rangePois (ptrOff q.pb) (64 * K * mxBits (fld q.cfg 23 20) / 8)
      || t.rangePois (ptrOff q.sb) (64 * mxScale (fld q.cfg 23 20) * (K / 32)))
    || t.rangePois (ptrOff q.pa + i * rowA) rowA || t.rangePois (ptrOff q.sa + i * rowS) rowS

theorem mmaRows_iff (t : Tile) (q : MxCmd) (i : Nat) :
    ((pairRows q.pair (mmaFrom t q q.n) (mmaFrom t q (q.n + 1))).getLsbD i = true ∨ mmaRowPois t q i = true) ↔ mmaRows t q i := by
  have hfrom : (pairRows q.pair (mmaFrom t q q.n) (mmaFrom t q (q.n + 1))).getLsbD i = true ↔ q.z = false
      ∧ ((t.acc q.n).pois.getLsbD i = true ∨ (q.pair = true ∧ (t.acc (q.n + 1)).pois.getLsbD i = true)) := by
    unfold mmaFrom
    rw [pairRows_iff]
    cases q.z with
    | false => simp
    | true => simp [Acc.zero]
  rw [hfrom]
  simp only [mmaRowPois, mmaRows, Bool.or_eq_true, rangePois_iff]
  exact or_congr_right ((or_assoc.trans or_comm).trans or_assoc)

theorem mmaResult_eq (t : Tile) (q : MxCmd) (hpair : q.pair = q.cfg.getLsbD 24) :
    mmaResult t q = accResult q.pair (((List.range 4096).map (mmaElem t q)).map Prod.fst)
      ((List.range 64).foldl (fun (p : BitVec 64) i => if mmaRowPois t q i then p ||| BitVec.twoPow 64 i else p)
        (pairRows q.pair (mmaFrom t q q.n) (mmaFrom t q (q.n + 1))))
      (Flags.all (((List.range 4096).map (mmaElem t q)).map Prod.snd)).bits := by
  have hp : q.pair = (MxCfg.of q.cfg).pair := hpair
  unfold mmaElem
  rw [hp]
  rfl

/-- An MMA-family command: each element over its chunks, the row poison and the flags (R104, R187, R189). -/
theorem mmaResult_holds (ht : t.sram.wf = true) (hpair : q.pair = q.cfg.getLsbD 24) (hf : MmaFmts q) :
    let n := fld q.cfg 15 0 / mxChunk (fld q.cfg 19 16)
    MxHolds q.pair (mmaResult t q) (fun m => (mmaAcc t q m n).1) (mmaRows t q)
      (Flags.all ((List.range 4096).flatMap fun m => (List.range n).flatMap fun x =>
        [(mmaPart t q m x).2, (mmaAcc t q m (x + 1)).2])).bits := by
  intro n
  have hval : (List.range 4096).map (mmaElem t q) = (List.range 4096).map fun m => ((mmaAcc t q m n).1,
      Flags.all ((List.range n).flatMap fun x => [(mmaPart t q m x).2, (mmaAcc t q m (x + 1)).2])) :=
    List.map_congr_left fun m hm => mmaElem_value ht hf (List.mem_range.mp hm)
  rw [mmaResult_eq t q hpair, hval, List.map_map, List.map_map, ← flags_all_flatMap]
  refine accResult_mxHolds (v := fun m => (mmaAcc t q m n).1) (fun m _ => ?_) (fun i hi => ?_) _
  · cases hn : n with
    | zero =>
      change (if q.z then 0 else accHeld q.pair (t.acc q.n) (t.acc (q.n + 1)) m) < 2 ^ accWidth q.pair
      split
      · exact Nat.two_pow_pos _
      · exact accHeld_lt ..
    | succ n => exact mxSum_lt q.pair _
  · rw [markedRows _ _ hi]
    exact mmaRows_iff t q i

end products

section obligation

variable {t : Tile} {q : MxCmd}

theorem mxFormat_of {code bits chunk group : Nat} (h : mxFormats[code]? = some (bits, chunk, group)) :
    code ≤ 9 ∧ bits = mxBits code ∧ chunk = mxChunk code ∧ group = mxScale code := by
  have hcode : code ≤ 9 := Nat.lt_succ_iff.mp (List.getElem?_eq_some_iff.mp h).1
  have hf := mxFormat_eq hcode
  rw [mxFormat, List.getD_eq_getElem?_getD, h, Option.getD_some, Prod.mk.injEq, Prod.mk.injEq] at hf
  exact ⟨hcode, hf⟩

/-- A format with a scale record has chunks of whole groups. -/
theorem groups_of_chunks {code K : Nat} (hcode : code ≤ 9) (hK : K % mxChunk code = 0) (hs : mxScale code ≠ 0) : K % 32 = 0 := by
  have hdvd : ∀ code ≤ 9, mxScale code ≠ 0 → 32 ∣ mxChunk code := by decide
  exact Nat.mod_eq_zero_of_dvd ((hdvd code hcode hs).trans (Nat.dvd_of_mod_eq_zero hK))

/-- A format without a scale record decodes alike under any (R187). -/
theorem mxDecodeElem_plain {code : Nat} (hcode : code ≤ 9) (h : ¬ IsBlockFmt code) (x sc : Nat) :
    mxDecodeElem code x sc = mxDecodeElem code x 0 := by
  have hplain : code ≤ 3 ∨ code = 9 := by unfold IsBlockFmt at h; omega
  rcases hplain with h3 | rfl
  · interval_cases code <;> rfl
  · rfl

/-- A stored element with the scale record of its group in its row (R184). -/
theorem mxStored_row {code K : Nat} (hg : mxScale code ≠ 0 → K % 32 = 0) (m : Mem) (base plane row k : Nat) :
    mxStored m code base plane (row * K + k) = mxDecodeElem code (memElem m base (mxBits code) (row * K + k))
      (natOfBytes (m.readBytes (plane + mxScale code * (row * (K / 32) + k / 32)) (mxScale code))) := by
  rw [mxStored]
  by_cases h0 : mxScale code = 0
  · rw [h0]; rfl
  · have hdiv : (row * K + k) / 32 = row * (K / 32) + k / 32 := by
      have hK : K = K / 32 * 32 := (Nat.div_mul_cancel (Nat.dvd_of_mod_eq_zero (hg h0))).symm
      rw [hK, ← Nat.mul_assoc, Nat.add_comm, Nat.add_mul_div_right _ _ (by decide), Nat.mul_div_cancel _ (by decide), Nat.add_comm]
    rw [hdiv]

theorem ownFlags_iff (hz : q.z = false) (h : q.f6 ≠ 1) : ¬ (q.f6 = 1 ∨ q.z = true) := by simp [hz, h]

theorem pairFlags_eq (pair : Bool) (lo hi : Acc) : pairFlags pair lo hi = lo.xflags ||| if pair then hi.xflags else 0 := by
  cases pair <;> simp [pairFlags]

/-- Settles O42: each command's elements by the engine's additions, and its rows and flags by what it read. -/
theorem matrixValues : Obligations.MatrixValues := by
  intro t q ht cfg K hpair f upper held marked holds sum quiet anyPois
  have hsum (l : List FRes) : sum l = mxSum f l := (mxSum_eq l).symm
  refine ⟨fun h6 ⟨n, hn, hok⟩ bits chunk group bitsB groupB => ?_, fun h6 => ?_,
    fun fo sz h hwide => ⟨fun h6 => ?_, fun h6 => ?_⟩, fun old own => ⟨fun h => if_pos h, fun hz h => ?_, fun hz h => ?_⟩⟩
  · intro formats ha hb raw value scale pa pb A B term part
    obtain ⟨hcodeA, rfl, rfl, rfl⟩ := mxFormat_of ha
    obtain ⟨hcodeB, -, hchunk, rfl⟩ := mxFormat_of hb
    obtain ⟨-, -, -, hbits, -, hK, -, -, hblock, -⟩ := (mmaOk_iff ..).mp hok
    rw [mxFormat_eq hcodeA, mxFormat_eq hcodeB] at hbits
    rw [mxFormat_eq hcodeA] at hK
    have hbits : mxBits (fld cfg 23 20) = mxBits (fld cfg 19 16) := hbits.symm
    have hf : MmaFmts q := ⟨hcodeA, hcodeB, groups_of_chunks hcodeA hK, groups_of_chunks hcodeB (hchunk ▸ hK)⟩
    have hvalue (code x sc : Nat) : value code x sc = mxDecodeElem code x sc := rfl
    have hA (i k : Nat) : A i k = mmaA t q i k := (mxStored_row hf.groupsA ..).symm
    have hB (k j : Nat) : B k j = mmaB t q k j := by
      rw [mmaB]
      by_cases h4 : q.f6 = 4
      · rw [if_pos h4]
        exact (if_pos h4).trans (by rw [mxStored_row hf.groupsB, hbits]; rfl)
      · have hplain : ¬ IsBlockFmt (fld cfg 23 20) := fun hb => h4 (by simpa using (hblock hb).2)
        rw [if_neg h4, mxStored, mxDecodeElem_plain hcodeB hplain, hbits]
        exact if_neg h4
    have hpart (m x : Nat) : part m x = mmaPart t q m x := by
      refine (hsum _).trans (congrArg (mxSum f) (List.map_congr_left fun k _ => ?_))
      change FRes.mul ⟨if q.f6 = 5 then (A (m / 64) _).neg else A (m / 64) _, false⟩ ⟨B _ (m % 64), false⟩ = _
      rw [hA, hB, Nat.mul_comm (mxChunk (fld cfg 19 16)) x]
      simp only [quietTerm, beq_iff_eq]
      rfl
    refine ⟨mmaAcc t q, fun m => rfl, fun m _ x _ => ?_, ?_⟩
    · rw [hsum, hpart]; rfl
    · have h := mmaResult_holds ht hpair hf
      unfold mmaRows at h
      rw [hbits] at h
      simp only [hpart]
      exact h
  · rw [show sum = mxSum f from funext hsum]
    exact maccResult_holds t q
  · exact mldResult_holds ht hpair h
  · obtain ⟨hfo, hsz⟩ : ofmtFmt (MxCfg.of q.cfg).ofmt = fo ∧ ofmtSize (MxCfg.of q.cfg).ofmt = sz := memFormat h
    refine ⟨fun a harm _ => ?_, fun a ha => ?_⟩
    · have hpois := mstWrite_granPois t q harm a
      simp only [pairRows_iff] at hpois
      rw [hsz] at hpois
      exact hpois
    · rw [mxFinish_xflags t h6 ha, mstElems_flags t q hpair, hfo]
      simp only [mstConv_flags, memFormat_small h]
      rfl
  · rw [Tile.mxFlags, if_neg (ownFlags_iff hz (by omega)), if_neg (by omega)]
  · rw [Tile.mxFlags, if_neg (ownFlags_iff hz (by omega)), if_pos h, pairFlags_eq, ← BitVec.or_assoc]

end obligation

end Sys2Proof.Machine
end
